-- ==== Sys2Proof/Word.lean ====
section
/-! DEFINITION. The word types of the X6 (spec/00 R3: little-endian, bit 0 least significant). -/

namespace Sys2Proof

/-- One byte of memory (R3). -/
abbrev Byte := BitVec 8
/-- A 32-bit word: an instruction word (R179), a vector lane, a lane mask. -/
abbrev W32 := BitVec 32
/-- A 64-bit word: an s register, an address, an allowance. -/
abbrev W64 := BitVec 64

end Sys2Proof
end

