-- ==== Sys2Proof/Event.lean ====
section
/-! DEFINITION. Plain data that the event rows of the opcode table carry: which of the moves R116 allows is taken,
what a sensor, the host, a peer or an ECC check delivers, and which storage granule an error meets. -/

namespace Sys2Proof

/-- The source that satisfies one lane of a plain load (R117). -/
inductive LoadSource where
  | forward            -- the group's own store queue
  | cache              -- the cluster read cache
  | merge (i : Nat)    -- the i-th merge-buffer entry of the line (R118)
  | home               -- the home slice
  deriving DecidableEq, Repr

/-- A storage granule of R62, as an uncorrectable error names it. -/
inductive Granule where
  | vlane (g reg lane : Nat) | olane (g reg lane : Nat) | llane (g reg lane : Nat) | qlane (g reg lane : Nat)
  | sreg (g n : Nat) | kreg (g n : Nat) | exm (g : Nat)
  | allowance (eid : Nat)
  | sysreg (eid n : Nat)
  | imem (core word : Nat)
  | spad (eid off : Nat)
  | cacheLine (cl line : Nat)
  | obuf (cl off : Nat) | bstore (cl off : Nat) | bank (cl n : Nat)
  | sector (pa : Nat)
  | dram (pa : Nat)
  | metadata (line : Nat)
  deriving DecidableEq, Repr

/-- Why the command processor takes a team off its core (R341). -/
inductive PreemptPurpose where
  | higherClass | migrate | reclaim
  deriving DecidableEq, Repr

/-- The result of the host's WRATE, WLAT, WMAX and WCAP registers of a class (R319). -/
inductive WeirReg where
  | rate | latency | max | cap
  deriving DecidableEq, Repr

/-- A boot image as the root-of-trust core finds it (R371, R372): its bytes, its security version, its key and its
signature. -/
structure BootImage where
  index     : Nat
  bytes     : List Byte
  version   : Nat
  key       : List Byte
  signature : List Byte
  deriving DecidableEq, Repr

/-- What a peer device answers to one remote request of a collective (R378); data of a poisoned sector comes poisoned
(R63). -/
inductive PeerReply where
  | data (bytes : List Byte) (poison : Bool) | done | refused | lost
  deriving DecidableEq, Repr

/-- An incoming request on the Mladin links (R376, R378): the requesting device, function and context, the target function
and context, the operation of R377 and the address, with the bytes of a write and whether they are poisoned (R63). -/
structure PeerAccess where
  dev   : Nat
  vfn   : Nat
  ctx   : Nat
  fn    : Nat
  tctx  : Nat
  op    : Nat
  va    : BitVec 64
  len   : Nat
  bytes : List Byte
  poison : Bool := false
  deriving DecidableEq, Repr

end Sys2Proof
end

