-- ==== Sys2Proof/Config.lean ====
section
/-! DEFINITION. What the spec leaves to the implementation or leaves open: opaque constants with no body, so that a
statement holds whatever their values are. The state's counter `free` supplies a fresh argument where a fresh value is
wanted (log entry 5). -/

namespace Sys2Proof.Config

/-- The bits of an SFU result where R238 gives a bound only: a fixed function of the function code and the operand
bits, identical in every run (R238). -/
opaque sfuBits (fn : Nat) (x : Nat) : Nat
/-- A free byte: the undefined bytes of R89, R85, R125 and R314. -/
opaque freeByte (n : Nat) : BitVec 8
/-- A free word: a trap detail the spec gives no value for. -/
opaque freeWord (n : Nat) : BitVec 64
/-- Which result a lane under a broken CONTIG run receives (R18: which of the two is not defined). -/
opaque brokenRunFaults (n : Nat) : Bool
/-- The hash SM3 of R371 is a named standard that the spec does not contain (log entry 7). -/
opaque sm3 (bytes : List Byte) : List Byte
/-- The signature check SM2 of R371 (log entry 7). -/
opaque sm2Verifies (key digest signature : List Byte) : Bool
/-- The signature SM2 of R374 with the device's attestation key (log entry 7). -/
opaque sm2Sign (digest : List Byte) : List Byte
/-- The checked window and the metadata region that firmware fixes at bring-up (R58, log entry 4). -/
opaque cwBase : BitVec 22
opaque cwGran : BitVec 23
opaque mdBase : BitVec 25
/-- The device id that firmware writes at bring-up (R375, log entry 4). -/
opaque deviceId : BitVec 22
/-- The size of a function's BAR 2: 2 to this power, in GiB (R368, log entry 92). -/
opaque w1Size (fn : Nat) : Fin 10
/-- Bits [51:6] of the masks of partition 0 that firmware sets and locks at bring-up (R51, log entry 4). -/
opaque mask0 (i : Nat) : BitVec 46

end Sys2Proof.Config
end

