-- ==== Sys2Proof/Syntax.lean ====
section
/-! DEFINITION. The syntax of the X6: one constructor per row of spec/opcode_table.json, 283 words (R179, R206) and 88
events (the steps of the agents that no word starts). Operand fields keep the widths of the word layouts of R179. -/

namespace Sys2Proof

/-- An instruction word, a hint word or an event, as the opcode table lists them. -/
inductive Instr where
  /-- R227. Adds two F32 operands in each active lane under the rounding mode. -/
  | vaddF32 (vd : BitVec 7) (sa : BitVec 8) (sb : BitVec 8)
  /-- R227. Subtracts F32 operands in each active lane. -/
  | vsubF32 (vd : BitVec 7) (sa : BitVec 8) (sb : BitVec 8)
  /-- R227. Multiplies F32 operands in each active lane. -/
  | vmulF32 (vd : BitVec 7) (sa : BitVec 8) (sb : BitVec 8)
  /-- R227. Fused multiply-add of F32 operands into the destination with one rounding. -/
  | vfmaF32 (vd : BitVec 7) (sa : BitVec 8) (sb : BitVec 8)
  /-- R227. Takes MinF of F32 operands per lane. -/
  | vminF32 (vd : BitVec 7) (sa : BitVec 8) (sb : BitVec 8)
  /-- R227. Takes MaxF of F32 operands per lane. -/
  | vmaxF32 (vd : BitVec 7) (sa : BitVec 8) (sb : BitVec 8)
  /-- R227. Adds packed F16 pairs per lane. -/
  | vaddF16x2 (vd : BitVec 7) (sa : BitVec 8) (sb : BitVec 8)
  /-- R227. Subtracts packed F16 pairs per lane. -/
  | vsubF16x2 (vd : BitVec 7) (sa : BitVec 8) (sb : BitVec 8)
  /-- R227. Multiplies packed F16 pairs per lane. -/
  | vmulF16x2 (vd : BitVec 7) (sa : BitVec 8) (sb : BitVec 8)
  /-- R227. Fused multiply-add of packed F16 pairs. -/
  | vfmaF16x2 (vd : BitVec 7) (sa : BitVec 8) (sb : BitVec 8)
  /-- R227. MinF of packed F16 pairs. -/
  | vminF16x2 (vd : BitVec 7) (sa : BitVec 8) (sb : BitVec 8)
  /-- R227. MaxF of packed F16 pairs. -/
  | vmaxF16x2 (vd : BitVec 7) (sa : BitVec 8) (sb : BitVec 8)
  /-- R227. Adds packed B16 pairs per lane. -/
  | vaddB16x2 (vd : BitVec 7) (sa : BitVec 8) (sb : BitVec 8)
  /-- R227. Subtracts packed B16 pairs per lane. -/
  | vsubB16x2 (vd : BitVec 7) (sa : BitVec 8) (sb : BitVec 8)
  /-- R227. Multiplies packed B16 pairs per lane. -/
  | vmulB16x2 (vd : BitVec 7) (sa : BitVec 8) (sb : BitVec 8)
  /-- R227. Fused multiply-add of packed B16 pairs. -/
  | vfmaB16x2 (vd : BitVec 7) (sa : BitVec 8) (sb : BitVec 8)
  /-- R227. Adds F64 register pairs per lane. -/
  | vaddF64 (vd : BitVec 7) (sa : BitVec 8) (sb : BitVec 8)
  /-- R227. Subtracts F64 register pairs per lane. -/
  | vsubF64 (vd : BitVec 7) (sa : BitVec 8) (sb : BitVec 8)
  /-- R227. Multiplies F64 register pairs per lane. -/
  | vmulF64 (vd : BitVec 7) (sa : BitVec 8) (sb : BitVec 8)
  /-- R227. Fused multiply-add of F64 pairs. -/
  | vfmaF64 (vd : BitVec 7) (sa : BitVec 8) (sb : BitVec 8)
  /-- R227. MinF of F64 pairs. -/
  | vminF64 (vd : BitVec 7) (sa : BitVec 8) (sb : BitVec 8)
  /-- R227. MaxF of F64 pairs. -/
  | vmaxF64 (vd : BitVec 7) (sa : BitVec 8) (sb : BitVec 8)
  /-- R174. Accumulates the exact dot product of two F16 pairs into an F32 lane. -/
  | vdot2F16x2 (vd : BitVec 7) (sa : BitVec 8) (sb : BitVec 8)
  /-- R174. Accumulates the exact dot product of two B16 pairs into an F32 lane. -/
  | vdot2B16x2 (vd : BitVec 7) (sa : BitVec 8) (sb : BitVec 8)
  /-- R174. Accumulates the exact dot product of four K8 bytes into an F32 lane. -/
  | vdot4K8 (vd : BitVec 7) (sa : BitVec 8) (sb : BitVec 8)
  /-- R227. Writes the fractional part x minus RoundInt(x, RZ) per lane. -/
  | vfracF32 (vd : BitVec 7) (sa : BitVec 8)
  /-- R228. Adds 32-bit integers modulo 2^32 per lane. -/
  | vaddI32 (vd : BitVec 7) (sa : BitVec 8) (sb : BitVec 8)
  /-- R228. Subtracts 32-bit integers per lane. -/
  | vsubI32 (vd : BitVec 7) (sa : BitVec 8) (sb : BitVec 8)
  /-- R228. Low 32 bits of the integer product per lane. -/
  | vmulI32 (vd : BitVec 7) (sa : BitVec 8) (sb : BitVec 8)
  /-- R228. Integer multiply-add into the destination modulo 2^32. -/
  | vmadI32 (vd : BitVec 7) (sa : BitVec 8) (sb : BitVec 8)
  /-- R228. High 32 bits of the signed product per lane. -/
  | vmulhiI32 (vd : BitVec 7) (sa : BitVec 8) (sb : BitVec 8)
  /-- R228. High 32 bits of the unsigned product per lane. -/
  | vmulhiN32 (vd : BitVec 7) (sa : BitVec 8) (sb : BitVec 8)
  /-- R228. Signed minimum per lane. -/
  | vminI32 (vd : BitVec 7) (sa : BitVec 8) (sb : BitVec 8)
  /-- R228. Signed maximum per lane. -/
  | vmaxI32 (vd : BitVec 7) (sa : BitVec 8) (sb : BitVec 8)
  /-- R228. Unsigned minimum per lane. -/
  | vminN32 (vd : BitVec 7) (sa : BitVec 8) (sb : BitVec 8)
  /-- R228. Unsigned maximum per lane. -/
  | vmaxN32 (vd : BitVec 7) (sa : BitVec 8) (sb : BitVec 8)
  /-- R228. Signed saturating add per lane. -/
  | vaddsI32 (vd : BitVec 7) (sa : BitVec 8) (sb : BitVec 8)
  /-- R228. Signed saturating subtract per lane. -/
  | vsubsI32 (vd : BitVec 7) (sa : BitVec 8) (sb : BitVec 8)
  /-- R228. Unsigned saturating add per lane. -/
  | vaddsN32 (vd : BitVec 7) (sa : BitVec 8) (sb : BitVec 8)
  /-- R228. Unsigned saturating subtract per lane. -/
  | vsubsN32 (vd : BitVec 7) (sa : BitVec 8) (sb : BitVec 8)
  /-- R228. Bitwise AND per lane. -/
  | vand (vd : BitVec 7) (sa : BitVec 8) (sb : BitVec 8)
  /-- R228. Bitwise OR per lane. -/
  | vor (vd : BitVec 7) (sa : BitVec 8) (sb : BitVec 8)
  /-- R228. Bitwise XOR per lane. -/
  | vxor (vd : BitVec 7) (sa : BitVec 8) (sb : BitVec 8)
  /-- R228. Bitwise AND NOT per lane. -/
  | vandn (vd : BitVec 7) (sa : BitVec 8) (sb : BitVec 8)
  /-- R228. Shift left by b mod 32 per lane. -/
  | vshl (vd : BitVec 7) (sa : BitVec 8) (sb : BitVec 8)
  /-- R228. Logical shift right per lane. -/
  | vshr (vd : BitVec 7) (sa : BitVec 8) (sb : BitVec 8)
  /-- R228. Arithmetic shift right per lane. -/
  | vsar (vd : BitVec 7) (sa : BitVec 8) (sb : BitVec 8)
  /-- R228. Population count per lane. -/
  | vpopc (vd : BitVec 7) (sa : BitVec 8)
  /-- R228. Count of leading zeros per lane. -/
  | vclz (vd : BitVec 7) (sa : BitVec 8)
  /-- R228. Bit reversal per lane. -/
  | vbrev (vd : BitVec 7) (sa : BitVec 8)
  /-- R229. Extracts a bit field per lane. -/
  | vbfx (vd : BitVec 7) (sa : BitVec 8) (sb : BitVec 8)
  /-- R229. Inserts a bit field into the destination per lane. -/
  | vbfi (vd : BitVec 7) (sa : BitVec 8) (sb : BitVec 8)
  /-- R228. Adds packed 16-bit integers per lane. -/
  | vaddI16x2 (vd : BitVec 7) (sa : BitVec 8) (sb : BitVec 8)
  /-- R228. Subtracts packed 16-bit integers per lane. -/
  | vsubI16x2 (vd : BitVec 7) (sa : BitVec 8) (sb : BitVec 8)
  /-- R174. Signed byte dot product accumulated modulo 2^32. -/
  | vdot4I8 (vd : BitVec 7) (sa : BitVec 8) (sb : BitVec 8)
  /-- R174. Unsigned byte dot product accumulated modulo 2^32. -/
  | vdot4N8 (vd : BitVec 7) (sa : BitVec 8) (sb : BitVec 8)
  /-- R230. Converts each active lane from the source type to the destination type. -/
  | vcvt (vd : BitVec 7) (sa : BitVec 8) (dt : BitVec 4) (st : BitVec 4)
  /-- R231. Rounds an F32 to an integral value by the mode. -/
  | vrndF32 (vd : BitVec 7) (sa : BitVec 8)
  /-- R231. Copies 32 raw bits per lane. -/
  | vmov (vd : BitVec 7) (sa : BitVec 8)
  /-- R231. Copies 32 raw bits per lane into an operand-file register. -/
  | vmovo (on : BitVec 3) (sa : BitVec 8)
  /-- R232. Reads each lane's value from the lane its index names. -/
  | vlane (vd : BitVec 7) (sa : BitVec 8) (sb : BitVec 8)
  /-- R232. Reads from lane l XOR n. -/
  | vxswap (vd : BitVec 7) (sa : BitVec 8) (sb : BitVec 8)
  /-- R232. Reads from lane l minus n where it exists. -/
  | vup (vd : BitVec 7) (sa : BitVec 8) (sb : BitVec 8)
  /-- R232. Reads from lane l plus n where it exists. -/
  | vdown (vd : BitVec 7) (sa : BitVec 8) (sb : BitVec 8)
  /-- R177. Inclusive integer scan over active lanes. -/
  | vscanI32 (vd : BitVec 7) (sa : BitVec 8)
  /-- R177. Inclusive F32 scan over active lanes, left to right. -/
  | vscanF32 (vd : BitVec 7) (sa : BitVec 8)
  /-- R176. Integer tree reduction written to every active lane. -/
  | vredAddI32 (vd : BitVec 7) (sa : BitVec 8)
  /-- R176. F32 pairwise tree sum written to every active lane. -/
  | vredAddF32 (vd : BitVec 7) (sa : BitVec 8)
  /-- R176. F32 tree maximum written to every active lane. -/
  | vredMaxF32 (vd : BitVec 7) (sa : BitVec 8)
  /-- R176. F32 tree minimum written to every active lane. -/
  | vredMinF32 (vd : BitVec 7) (sa : BitVec 8)
  /-- R234. Writes to an s register the mask of active lanes holding non-zero bits. -/
  | vballot (sd : BitVec 6) (sa : BitVec 8)
  /-- R234. Packs the selected lanes into the lowest lanes of the destination. -/
  | vcompress (vd : BitVec 7) (sa : BitVec 8) (k : BitVec 3)
  /-- R234. Spreads the lowest lanes into the selected lanes. -/
  | vexpand (vd : BitVec 7) (sa : BitVec 8) (k : BitVec 3)
  /-- R231. Writes each active lane's own number. -/
  | vlaneid (vd : BitVec 7)
  /-- R231. Packs the low halves of two operands into one lane word. -/
  | vpack (vd : BitVec 7) (sa : BitVec 8) (sb : BitVec 8)
  /-- R235. Compares F32 operands under a condition into a k register. -/
  | vcmpF32 (cc : BitVec 4) (k : BitVec 3) (sa : BitVec 8) (sb : BitVec 8)
  /-- R235. Compares F64 pairs under a condition into a k register. -/
  | vcmpF64 (cc : BitVec 4) (k : BitVec 3) (sa : BitVec 8) (sb : BitVec 8)
  /-- R235. Signed integer compare into a k register. -/
  | vcmpI32 (cc : BitVec 4) (k : BitVec 3) (sa : BitVec 8) (sb : BitVec 8)
  /-- R235. Unsigned integer compare into a k register. -/
  | vcmpN32 (cc : BitVec 4) (k : BitVec 3) (sa : BitVec 8) (sb : BitVec 8)
  /-- R236. Writes a one-hot class of each F32 operand. -/
  | vclsF32 (vd : BitVec 7) (sa : BitVec 8)
  /-- R236. Sets k bits where a AND b is non-zero. -/
  | vtest (k : BitVec 3) (sa : BitVec 8) (sb : BitVec 8)
  /-- R236. Selects a or b per lane by k0. -/
  | vselK0 (vd : BitVec 7) (sa : BitVec 8) (sb : BitVec 8)
  /-- R236. Selects a or b per lane by k1. -/
  | vselK1 (vd : BitVec 7) (sa : BitVec 8) (sb : BitVec 8)
  /-- R236. Selects a or b per lane by k2. -/
  | vselK2 (vd : BitVec 7) (sa : BitVec 8) (sb : BitVec 8)
  /-- R236. Selects a or b per lane by k3. -/
  | vselK3 (vd : BitVec 7) (sa : BitVec 8) (sb : BitVec 8)
  /-- R236. Selects a or b per lane by k4. -/
  | vselK4 (vd : BitVec 7) (sa : BitVec 8) (sb : BitVec 8)
  /-- R236. Selects a or b per lane by k5. -/
  | vselK5 (vd : BitVec 7) (sa : BitVec 8) (sb : BitVec 8)
  /-- R236. Selects a or b per lane by k6. -/
  | vselK6 (vd : BitVec 7) (sa : BitVec 8) (sb : BitVec 8)
  /-- R236. Selects a or b per lane by k7. -/
  | vselK7 (vd : BitVec 7) (sa : BitVec 8) (sb : BitVec 8)
  /-- R238. Issues an SFU reciprocal of F32 whose result lands later. -/
  | frcpF32 (vd : BitVec 7) (sa : BitVec 8)
  /-- R238. Issues an SFU reciprocal square root of F32. -/
  | frsqF32 (vd : BitVec 7) (sa : BitVec 8)
  /-- R238. Issues an SFU square root of F32. -/
  | fsqrtF32 (vd : BitVec 7) (sa : BitVec 8)
  /-- R238. Issues an SFU base-2 exponential of F32. -/
  | fexp2F32 (vd : BitVec 7) (sa : BitVec 8)
  /-- R238. Issues an SFU base-2 logarithm of F32. -/
  | flog2F32 (vd : BitVec 7) (sa : BitVec 8)
  /-- R238. Issues an SFU sin(pi x) of F32. -/
  | fsinpF32 (vd : BitVec 7) (sa : BitVec 8)
  /-- R238. Issues an SFU cos(pi x) of F32. -/
  | fcospF32 (vd : BitVec 7) (sa : BitVec 8)
  /-- R238. Issues an SFU tanh of F32. -/
  | ftanhF32 (vd : BitVec 7) (sa : BitVec 8)
  /-- R238. Issues an SFU logistic sigmoid of F32. -/
  | fsigmF32 (vd : BitVec 7) (sa : BitVec 8)
  /-- R238. Issues an SFU reciprocal of F64. -/
  | frcpF64 (vd : BitVec 7) (sa : BitVec 8)
  /-- R238. Issues an SFU reciprocal square root of F64. -/
  | frsqF64 (vd : BitVec 7) (sa : BitVec 8)
  /-- R238. Issues an SFU base-2 exponential per F16 element. -/
  | fexp2F16x2 (vd : BitVec 7) (sa : BitVec 8)
  /-- R238. Issues an SFU tanh per F16 element. -/
  | ftanhF16x2 (vd : BitVec 7) (sa : BitVec 8)
  /-- R210. Scalar add modulo 2^64. -/
  | add (d : BitVec 6) (a : BitVec 6) (b : BitVec 6)
  /-- R210. Scalar subtract. -/
  | sub (d : BitVec 6) (a : BitVec 6) (b : BitVec 6)
  /-- R210. Low 64 bits of scalar product. -/
  | mul (d : BitVec 6) (a : BitVec 6) (b : BitVec 6)
  /-- R210. High 64 bits of signed scalar product. -/
  | mulhiI (d : BitVec 6) (a : BitVec 6) (b : BitVec 6)
  /-- R210. High 64 bits of unsigned scalar product. -/
  | mulhiN (d : BitVec 6) (a : BitVec 6) (b : BitVec 6)
  /-- R211. Signed scalar division toward zero, DIV0 on zero divisor. -/
  | divI (d : BitVec 6) (a : BitVec 6) (b : BitVec 6)
  /-- R211. Unsigned scalar division. -/
  | divN (d : BitVec 6) (a : BitVec 6) (b : BitVec 6)
  /-- R211. Signed scalar remainder. -/
  | remI (d : BitVec 6) (a : BitVec 6) (b : BitVec 6)
  /-- R211. Unsigned scalar remainder. -/
  | remN (d : BitVec 6) (a : BitVec 6) (b : BitVec 6)
  /-- R210. Scalar bitwise AND. -/
  | and (d : BitVec 6) (a : BitVec 6) (b : BitVec 6)
  /-- R210. Scalar bitwise OR. -/
  | or (d : BitVec 6) (a : BitVec 6) (b : BitVec 6)
  /-- R210. Scalar bitwise XOR. -/
  | xor (d : BitVec 6) (a : BitVec 6) (b : BitVec 6)
  /-- R210. Scalar AND NOT. -/
  | andn (d : BitVec 6) (a : BitVec 6) (b : BitVec 6)
  /-- R212. Scalar shift left by b mod 64. -/
  | shl (d : BitVec 6) (a : BitVec 6) (b : BitVec 6)
  /-- R212. Scalar logical shift right. -/
  | shr (d : BitVec 6) (a : BitVec 6) (b : BitVec 6)
  /-- R212. Scalar arithmetic shift right. -/
  | sar (d : BitVec 6) (a : BitVec 6) (b : BitVec 6)
  /-- R210. Signed scalar minimum. -/
  | minI (d : BitVec 6) (a : BitVec 6) (b : BitVec 6)
  /-- R210. Signed scalar maximum. -/
  | maxI (d : BitVec 6) (a : BitVec 6) (b : BitVec 6)
  /-- R210. Unsigned scalar minimum. -/
  | minN (d : BitVec 6) (a : BitVec 6) (b : BitVec 6)
  /-- R210. Unsigned scalar maximum. -/
  | maxN (d : BitVec 6) (a : BitVec 6) (b : BitVec 6)
  /-- R210. Signed set-less-than. -/
  | sltI (d : BitVec 6) (a : BitVec 6) (b : BitVec 6)
  /-- R210. Unsigned set-less-than. -/
  | sltN (d : BitVec 6) (a : BitVec 6) (b : BitVec 6)
  /-- R210. Set-if-equal. -/
  | seq (d : BitVec 6) (a : BitVec 6) (b : BitVec 6)
  /-- R210. Copies one s register to another. -/
  | mov (d : BitVec 6) (a : BitVec 6)
  /-- R210. Counts leading zeros of an s register. -/
  | clz (d : BitVec 6) (a : BitVec 6)
  /-- R210. Counts one bits of an s register. -/
  | popc (d : BitVec 6) (a : BitVec 6)
  /-- R210. Reverses the 64 bits of an s register. -/
  | brev (d : BitVec 6) (a : BitVec 6)
  /-- R210. Sign-extends the low 32 bits. -/
  | sext32 (d : BitVec 6) (a : BitVec 6)
  /-- R210. Zero-extends the low 32 bits. -/
  | zext32 (d : BitVec 6) (a : BitVec 6)
  /-- R212. Computes a plus b shifted left by the word's shift. -/
  | lea (d : BitVec 6) (a : BitVec 6) (b : BitVec 6) (sh : BitVec 4)
  /-- R214. ANDs two lane masks. -/
  | kand (d : BitVec 3) (a : BitVec 3) (b : BitVec 3)
  /-- R214. ORs two lane masks. -/
  | kor (d : BitVec 3) (a : BitVec 3) (b : BitVec 3)
  /-- R214. XORs two lane masks. -/
  | kxor (d : BitVec 3) (a : BitVec 3) (b : BitVec 3)
  /-- R214. ANDs a mask with the complement of another. -/
  | kandn (d : BitVec 3) (a : BitVec 3) (b : BitVec 3)
  /-- R214. Complements a lane mask. -/
  | knot (d : BitVec 3) (a : BitVec 3)
  /-- R214. Counts the bits of a lane mask into an s register. -/
  | kpopc (d : BitVec 6) (a : BitVec 3)
  /-- R214. Finds the lowest set bit of a lane mask. -/
  | kffs (d : BitVec 6) (a : BitVec 3)
  /-- R214. Copies a lane mask into an s register. -/
  | ktos (d : BitVec 6) (a : BitVec 3)
  /-- R214. Copies the low 32 bits of an s register into a lane mask. -/
  | stok (d : BitVec 3) (a : BitVec 6)
  /-- R215. Reads EXM into an s register. -/
  | exmrd (d : BitVec 6)
  /-- R215. Writes EXM bounded by the current region's outer mask. -/
  | exmwr (a : BitVec 6)
  /-- R213. Adds a sign-extended immediate. -/
  | addi (d : BitVec 6) (a : BitVec 6) (imm : BitVec 10)
  /-- R213. ANDs with an immediate. -/
  | andi (d : BitVec 6) (a : BitVec 6) (imm : BitVec 10)
  /-- R213. ORs with an immediate. -/
  | ori (d : BitVec 6) (a : BitVec 6) (imm : BitVec 10)
  /-- R213. XORs with an immediate. -/
  | xori (d : BitVec 6) (a : BitVec 6) (imm : BitVec 10)
  /-- R213. Shifts left by an immediate 0-63. -/
  | shli (d : BitVec 6) (a : BitVec 6) (imm : BitVec 10)
  /-- R213. Logical right shift by an immediate. -/
  | shri (d : BitVec 6) (a : BitVec 6) (imm : BitVec 10)
  /-- R213. Arithmetic right shift by an immediate. -/
  | sari (d : BitVec 6) (a : BitVec 6) (imm : BitVec 10)
  /-- R213. Signed compare with an immediate. -/
  | sltiI (d : BitVec 6) (a : BitVec 6) (imm : BitVec 10)
  /-- R213. Unsigned compare with an immediate. -/
  | sltiN (d : BitVec 6) (a : BitVec 6) (imm : BitVec 10)
  /-- R213. Equality with an immediate. -/
  | seqi (d : BitVec 6) (a : BitVec 6) (imm : BitVec 10)
  /-- R213. Loads an immediate into an s register. -/
  | li (d : BitVec 6) (imm : BitVec 10)
  /-- R213. Multiplies by an immediate. -/
  | muli (d : BitVec 6) (a : BitVec 6) (imm : BitVec 10)
  /-- R217. Unconditional branch within the slot. -/
  | br (off : BitVec 24)
  /-- R217. Branches when an s register is zero. -/
  | brz (r : BitVec 6) (off : BitVec 18)
  /-- R217. Branches when an s register is non-zero. -/
  | brnz (r : BitVec 6) (off : BitVec 18)
  /-- R217. Branches when any active lane of a k register is set. -/
  | brany (k : BitVec 3) (off : BitVec 18)
  /-- R217. Branches when every active lane of a k register is set. -/
  | brall (k : BitVec 3) (off : BitVec 18)
  /-- R218. Writes the link into s63 and branches. -/
  | call (off : BitVec 24)
  /-- R218. Transfers to the word offset held in an s register. -/
  | ret (r : BitVec 6)
  /-- R218. Indirect branch to a label plus an s register. -/
  | brx (r : BitVec 6) (off : BitVec 18)
  /-- R220. Opens a mask region, pushing the mask stack and narrowing EXM. -/
  | mif (k : BitVec 3) (off : BitVec 18)
  /-- R220. Switches EXM to the else lanes of the open region. -/
  | melse (off : BitVec 18)
  /-- R220. Closes the region and restores its outer mask. -/
  | mend
  /-- R220. Narrows EXM by a k register and loops while lanes remain. -/
  | mwhile (k : BitVec 3) (off : BitVec 18)
  /-- R222. Ends the group. -/
  | exit
  /-- R223. Costs 1 AU and does nothing else. -/
  | nop
  /-- R224. Holds the group until the selected outstanding counts fall to a threshold. -/
  | wait (sel : BitVec 4) (n : BitVec 20)
  /-- R241. Global byte load, zero-extended. -/
  | ldB8 (vd : BitVec 7) (sb : BitVec 6) (vo : BitVec 8) (ord : BitVec 2)
  /-- R241. Global byte load, sign-extended. -/
  | ldI8 (vd : BitVec 7) (sb : BitVec 6) (vo : BitVec 8) (ord : BitVec 2)
  /-- R241. Global 16-bit load, zero-extended. -/
  | ldB16 (vd : BitVec 7) (sb : BitVec 6) (vo : BitVec 8) (ord : BitVec 2)
  /-- R241. Global 16-bit load, sign-extended. -/
  | ldI16 (vd : BitVec 7) (sb : BitVec 6) (vo : BitVec 8) (ord : BitVec 2)
  /-- R241. Global 32-bit load per lane. -/
  | ldB32 (vd : BitVec 7) (sb : BitVec 6) (vo : BitVec 8) (ord : BitVec 2)
  /-- R241. Global 64-bit load into a register pair. -/
  | ldB64 (vd : BitVec 7) (sb : BitVec 6) (vo : BitVec 8) (ord : BitVec 2)
  /-- R241. Global 128-bit load into a register quad. -/
  | ldB128 (vd : BitVec 7) (sb : BitVec 6) (vo : BitVec 8) (ord : BitVec 2)
  /-- R241. Global byte store. -/
  | stB8 (vd : BitVec 7) (sb : BitVec 6) (vo : BitVec 8) (ord : BitVec 2)
  /-- R241. Global 16-bit store. -/
  | stB16 (vd : BitVec 7) (sb : BitVec 6) (vo : BitVec 8) (ord : BitVec 2)
  /-- R241. Global 32-bit store. -/
  | stB32 (vd : BitVec 7) (sb : BitVec 6) (vo : BitVec 8) (ord : BitVec 2)
  /-- R241. Global 64-bit store. -/
  | stB64 (vd : BitVec 7) (sb : BitVec 6) (vo : BitVec 8) (ord : BitVec 2)
  /-- R241. Global 128-bit store. -/
  | stB128 (vd : BitVec 7) (sb : BitVec 6) (vo : BitVec 8) (ord : BitVec 2)
  /-- R242. Atomic 32-bit integer add at the home slice, returning the old value. -/
  | atomAddI32 (vd : BitVec 7) (sb : BitVec 6) (vo : BitVec 8) (ord : BitVec 2)
  /-- R242. Atomic 64-bit integer add. -/
  | atomAddI64 (vd : BitVec 7) (sb : BitVec 6) (vo : BitVec 8) (ord : BitVec 2)
  /-- R242. Atomic F32 add rounded RNE. -/
  | atomAddF32 (vd : BitVec 7) (sb : BitVec 6) (vo : BitVec 8) (ord : BitVec 2)
  /-- R242. Atomic signed minimum. -/
  | atomMinI32 (vd : BitVec 7) (sb : BitVec 6) (vo : BitVec 8) (ord : BitVec 2)
  /-- R242. Atomic signed maximum. -/
  | atomMaxI32 (vd : BitVec 7) (sb : BitVec 6) (vo : BitVec 8) (ord : BitVec 2)
  /-- R242. Atomic unsigned minimum. -/
  | atomMinN32 (vd : BitVec 7) (sb : BitVec 6) (vo : BitVec 8) (ord : BitVec 2)
  /-- R242. Atomic unsigned maximum. -/
  | atomMaxN32 (vd : BitVec 7) (sb : BitVec 6) (vo : BitVec 8) (ord : BitVec 2)
  /-- R242. Atomic bitwise AND. -/
  | atomAndB32 (vd : BitVec 7) (sb : BitVec 6) (vo : BitVec 8) (ord : BitVec 2)
  /-- R242. Atomic bitwise OR. -/
  | atomOrB32 (vd : BitVec 7) (sb : BitVec 6) (vo : BitVec 8) (ord : BitVec 2)
  /-- R242. Atomic bitwise XOR. -/
  | atomXorB32 (vd : BitVec 7) (sb : BitVec 6) (vo : BitVec 8) (ord : BitVec 2)
  /-- R242. Atomic 32-bit exchange. -/
  | atomExchB32 (vd : BitVec 7) (sb : BitVec 6) (vo : BitVec 8) (ord : BitVec 2)
  /-- R242. Atomic 64-bit exchange. -/
  | atomExchB64 (vd : BitVec 7) (sb : BitVec 6) (vo : BitVec 8) (ord : BitVec 2)
  /-- R242. Atomic 32-bit compare-and-swap. -/
  | atomCasB32 (vd : BitVec 7) (sb : BitVec 6) (vo : BitVec 8) (ord : BitVec 2)
  /-- R242. Atomic 64-bit compare-and-swap. -/
  | atomCasB64 (vd : BitVec 7) (sb : BitVec 6) (vo : BitVec 8) (ord : BitVec 2)
  /-- R243. Stores the active lanes' words contiguously, all-or-nothing. -/
  | cstB32 (vd : BitVec 7) (sb : BitVec 6) (vo : BitVec 8) (ord : BitVec 2)
  /-- R244. One 8-byte global load into an s register. -/
  | ldS64 (vd : BitVec 6) (sb : BitVec 6) (vo : BitVec 8) (ord : BitVec 2)
  /-- R244. One 8-byte global store from an s register. -/
  | stS64 (vd : BitVec 6) (sb : BitVec 6) (vo : BitVec 8) (ord : BitVec 2)
  /-- R245. Asks that each active lane's line be filled into the cluster read cache. -/
  | prf (sb : BitVec 6) (vo : BitVec 8) (ord : BitVec 2)
  /-- R246. Scratchpad 32-bit load. -/
  | ldsB32 (vd : BitVec 7) (sb : BitVec 6) (vo : BitVec 8) (ord : BitVec 2)
  /-- R246. Scratchpad 64-bit load. -/
  | ldsB64 (vd : BitVec 7) (sb : BitVec 6) (vo : BitVec 8) (ord : BitVec 2)
  /-- R246. Scratchpad 128-bit load. -/
  | ldsB128 (vd : BitVec 7) (sb : BitVec 6) (vo : BitVec 8) (ord : BitVec 2)
  /-- R246. Scratchpad 32-bit store. -/
  | stsB32 (vd : BitVec 7) (sb : BitVec 6) (vo : BitVec 8) (ord : BitVec 2)
  /-- R246. Scratchpad 64-bit store. -/
  | stsB64 (vd : BitVec 7) (sb : BitVec 6) (vo : BitVec 8) (ord : BitVec 2)
  /-- R246. Scratchpad 128-bit store. -/
  | stsB128 (vd : BitVec 7) (sb : BitVec 6) (vo : BitVec 8) (ord : BitVec 2)
  /-- R246. Scratchpad byte load. -/
  | ldsB8 (vd : BitVec 7) (sb : BitVec 6) (vo : BitVec 8) (ord : BitVec 2)
  /-- R246. Scratchpad byte store. -/
  | stsB8 (vd : BitVec 7) (sb : BitVec 6) (vo : BitVec 8) (ord : BitVec 2)
  /-- R246. Scratchpad 16-bit load. -/
  | ldsB16 (vd : BitVec 7) (sb : BitVec 6) (vo : BitVec 8) (ord : BitVec 2)
  /-- R246. Scratchpad 16-bit store. -/
  | stsB16 (vd : BitVec 7) (sb : BitVec 6) (vo : BitVec 8) (ord : BitVec 2)
  /-- R246. Loads from a neighbourhood member's scratchpad. -/
  | ldnB32 (vd : BitVec 7) (sb : BitVec 6) (vo : BitVec 8) (ord : BitVec 2)
  /-- R246. Stores into a neighbourhood member's scratchpad. -/
  | stnB32 (vd : BitVec 7) (sb : BitVec 6) (vo : BitVec 8) (ord : BitVec 2)
  /-- R246. Scratchpad atomic add. -/
  | atomsAddI32 (vd : BitVec 7) (sb : BitVec 6) (vo : BitVec 8) (ord : BitVec 2)
  /-- R246. Scratchpad atomic signed minimum. -/
  | atomsMinI32 (vd : BitVec 7) (sb : BitVec 6) (vo : BitVec 8) (ord : BitVec 2)
  /-- R246. Scratchpad atomic signed maximum. -/
  | atomsMaxI32 (vd : BitVec 7) (sb : BitVec 6) (vo : BitVec 8) (ord : BitVec 2)
  /-- R246. Scratchpad atomic exchange. -/
  | atomsExchB32 (vd : BitVec 7) (sb : BitVec 6) (vo : BitVec 8) (ord : BitVec 2)
  /-- R246. Scratchpad atomic compare-and-swap. -/
  | atomsCasB32 (vd : BitVec 7) (sb : BitVec 6) (vo : BitVec 8) (ord : BitVec 2)
  /-- R246. Atomic add in a neighbourhood member's scratchpad. -/
  | atomnAddI32 (vd : BitVec 7) (sb : BitVec 6) (vo : BitVec 8) (ord : BitVec 2)
  /-- R246. One 8-byte scratchpad load into an s register. -/
  | ldsS64 (vd : BitVec 6) (sb : BitVec 6) (vo : BitVec 8) (ord : BitVec 2)
  /-- R246. One 8-byte scratchpad store from an s register. -/
  | stsS64 (vd : BitVec 6) (sb : BitVec 6) (vo : BitVec 8) (ord : BitVec 2)
  /-- R248. Issues a copy operation from a copy descriptor. -/
  | cpy (x : BitVec 6)
  /-- R248. Issues a layered copy from a tile handle after a snapshot. -/
  | cpyl (x : BitVec 6)
  /-- R249. Closes the group's open engine operations of a class into a batch. -/
  | close (x : BitVec 6) (c : BitVec 4)
  /-- R249. Holds the group until a batch of a class completes. -/
  | waitb (x : BitVec 6) (c : BitVec 4)
  /-- R250. Initialises a barrier object. -/
  | boinit (x : BitVec 6) (y : BitVec 6)
  /-- R250. Adds expected bytes to a barrier object. -/
  | boexp (x : BitVec 6) (y : BitVec 6)
  /-- R250. Arrives once on a barrier object. -/
  | boarr (x : BitVec 6)
  /-- R250. Waits for a barrier object's phase to flip. -/
  | bowait (x : BitVec 6) (y : BitVec 6)
  /-- R251. Issues an engine operation that drops dirty lines of a dead range. -/
  | discard (x : BitVec 6) (y : BitVec 6)
  /-- R252. Invalidates cluster read cache lines of a range. -/
  | flushr (x : BitVec 6) (y : BitVec 6)
  /-- R253. Issues a collective operation toward a peer device. -/
  | coll (x : BitVec 6)
  /-- R81. Attaches a layer descriptor to a tile handle as a release. -/
  | lattach (x : BitVec 6) (y : BitVec 6) (z : BitVec 6)
  /-- R81. Detaches a layer descriptor from a tile handle. -/
  | ldetach (x : BitVec 6) (y : BitVec 6) (z : BitVec 6)
  /-- R84. Issues a copy-class operation writing base plus layers into a new base. -/
  | fold (x : BitVec 6) (y : BitVec 6)
  /-- R255. Arrives at a named barrier and waits for its phase. -/
  | barSync (c : BitVec 6) (i : BitVec 4)
  /-- R255. Arrives at a named barrier without waiting. -/
  | barArr (c : BitVec 6) (i : BitVec 4)
  /-- R256. Barrier arrival with wrapping integer sum reduction. -/
  | barRedAddI32 (c : BitVec 6) (y : BitVec 6) (z : BitVec 6) (i : BitVec 4)
  /-- R256. Barrier arrival with F32 tree sum reduction. -/
  | barRedAddF32 (c : BitVec 6) (y : BitVec 6) (z : BitVec 6) (i : BitVec 4)
  /-- R256. Barrier arrival with signed max reduction. -/
  | barRedMaxI32 (c : BitVec 6) (y : BitVec 6) (z : BitVec 6) (i : BitVec 4)
  /-- R256. Barrier arrival with signed min reduction. -/
  | barRedMinI32 (c : BitVec 6) (y : BitVec 6) (z : BitVec 6) (i : BitVec 4)
  /-- R256. Barrier arrival with bitwise AND reduction. -/
  | barRedAnd (c : BitVec 6) (y : BitVec 6) (z : BitVec 6) (i : BitVec 4)
  /-- R256. Barrier arrival with bitwise OR reduction. -/
  | barRedOr (c : BitVec 6) (y : BitVec 6) (z : BitVec 6) (i : BitVec 4)
  /-- R121. Waits for earlier accesses and orders later ones at a scope. -/
  | fence (s : BitVec 4)
  /-- R258. Sends a message to a ring in another team's scratchpad as a release. -/
  | msend (x : BitVec 6) (y : BitVec 6) (z : BitVec 6)
  /-- R259. Waits until a ring's TAIL passes the consumer's head, as an acquire. -/
  | wring (x : BitVec 6) (y : BitVec 6) (z : BitVec 6)
  /-- R260. Waits for the team's turn on a ticket. -/
  | tktTake (j : BitVec 4)
  /-- R260. Passes a ticket without waiting. -/
  | tktSkip (j : BitVec 4)
  /-- R261. Makes ordered F32 add contributions per active lane. -/
  | atomoAddF32 (x : BitVec 6) (y : BitVec 6) (z : BitVec 6)
  /-- R261. Makes ordered 64-bit integer add contributions per active lane. -/
  | atomoAddI64 (x : BitVec 6) (y : BitVec 6) (z : BitVec 6)
  /-- R262. Writes a checked line if its version matches, in one step. -/
  | vstVer (x : BitVec 6) (y : BitVec 6) (z : BitVec 6)
  /-- R262. Reads a checked line with its version and writer tag in one step. -/
  | ldVer (x : BitVec 6) (y : BitVec 6) (z : BitVec 6)
  /-- R267. Creates an operand-buffer reservation and returns its record. -/
  | obres (x : BitVec 6) (y : BitVec 6) (z : BitVec 6)
  /-- R268. Releases an operand-buffer reservation. -/
  | obrel (x : BitVec 6)
  /-- R270. Fetches an A tile from a tile handle into the operand buffer. -/
  | mfetcha (x : BitVec 6) (y : BitVec 6) (z : BitVec 6)
  /-- R272. Loads a B tile from a tile handle into the B-store. -/
  | mloadb (x : BitVec 6) (y : BitVec 6) (z : BitVec 6)
  /-- R274. Runs one dense matrix pass into an accumulator bank. -/
  | mmaD (x : BitVec 6) (y : BitVec 6) (n : BitVec 2)
  /-- R275. Runs one batched matrix pass of sixteen block products. -/
  | mmaB (x : BitVec 6) (y : BitVec 6) (n : BitVec 2)
  /-- R276. Zeroes an accumulator bank. -/
  | mzero (n : BitVec 2)
  /-- R277. Writes an accumulator bank to global memory. -/
  | mstore (x : BitVec 6) (y : BitVec 6) (z : BitVec 6) (n : BitVec 2)
  /-- R284. Creates a child grid from a spawn descriptor with a grant. -/
  | spawn (x : BitVec 6) (y : BitVec 6)
  /-- R288. Appends a record to a node queue. -/
  | spawnq (x : BitVec 6) (y : BitVec 6) (z : BitVec 6)
  /-- R289. Removes the oldest record of a node queue into scratchpad. -/
  | qpop (x : BitVec 6) (y : BitVec 6) (z : BitVec 6)
  /-- R291. Waits until every team of a child grid is DONE. -/
  | join (x : BitVec 6) (y : BitVec 6)
  /-- R293. Moves allowance to a child team, holding until serialised. -/
  | topup (x : BitVec 6) (y : BitVec 6) (z : BitVec 6)
  /-- R292. Reports the state of a child team. -/
  | tstat (x : BitVec 6) (y : BitVec 6) (z : BitVec 6) (u : BitVec 4)
  /-- R294. Posts the launch's result word. -/
  | resw (x : BitVec 6)
  /-- R155. Root team waits for the phase to commit. -/
  | phend
  /-- R204. Reads a system register into an s register. -/
  | srd (x : BitVec 6) (reg : BitVec 12)
  /-- R204. Writes an s register into a writable system register. -/
  | swr (x : BitVec 6) (reg : BitVec 12)
  /-- R298. Raises TRAPI with a code. -/
  | trap (n : BitVec 16)
  /-- R299. Ends handler mode and resumes the interrupted unit. -/
  | tret
  /-- R300. Clears TCAUSE bits. -/
  | tclr (x : BitVec 6)
  /-- R298. Raises BRK with a code. -/
  | brk (n : BitVec 16)
  /-- R301. Marks a program point in the journal. -/
  | jmark (x : BitVec 6)
  /-- R303. Loads an overlay into slot 1. -/
  | ovld (x : BitVec 6)
  /-- R304. Calls into an overlay held in a slot, linking in s63. -/
  | ovcall (x : BitVec 6)
  /-- R304. Returns to an overlay and offset. -/
  | ovret (x : BitVec 6)
  /-- R305. Reads PSTATE and the reaction window remainder. -/
  | pwrq (x : BitVec 6)
  /-- R306. Requests an explicit Sluice current reservation and waits for the grant. -/
  | cres (x : BitVec 6) (y : BitVec 6)
  /-- R306. Releases the group's explicit current reservation. -/
  | crel
  /-- R184. Supplies immediate bits to the following word. -/
  | hintImm (p : BitVec 26)
  /-- R185. Paces the group after the following word. -/
  | hintSched (stall : BitVec 6) (yld : BitVec 1) (rsv : BitVec 19)
  /-- R186. Modifies rounding, saturation, operands, destination or scope of the following word. -/
  | hintMod (rnd : BitVec 2) (sat : BitVec 1) (nega : BitVec 1) (negb : BitVec 1) (absa : BitVec 1) (absb : BitVec 1) (odst : BitVec 1) (oidx : BitVec 3) (ef : BitVec 1) (qidx : BitVec 3) (scope : BitVec 3) (rsv : BitVec 8)
  /-- R32. A RETRY reply frees a slot and re-translates its waiters' lanes. -/
  | prreplyRetry (tbl vfn tag : Nat)
  /-- R32. A FAIL reply frees a slot and makes its waiters take the unrecoverable path. -/
  | prreplyFail (tbl vfn tag : Nat)
  /-- R27. Starts invalidation of cached translations of one page. -/
  | xinvPage (fn stg ctx : Nat)
  /-- R27. Starts invalidation of a whole context's translations. -/
  | xinvContext (fn stg ctx : Nat)
  /-- R27. Starts invalidation of every context of a virtual function. -/
  | xinvVfn (fn stg : Nat)
  /-- R27. An invalidation finishes and BUSY returns to 0. -/
  | xinvDone (fn : Nat)
  /-- R53. Starts applying shadow partition masks and ranges. -/
  | hcommit (psel : BitVec 7)
  /-- R53. Slices have dropped the affected lines, shadow values become current, BUSY clears. -/
  | hcommitDone
  /-- R61. Starts zeroing line metadata of a page range. -/
  | mdzGo (pages : BitVec 20)
  /-- R61. Metadata zeroing completes and BUSY clears. -/
  | mdzDone
  /-- R15. A write to a device control register with no row of its own. -/
  | registerWrite (fn off : Nat) (wide : Bool) (val : W64)
  /-- R116. A queued write of a group is performed at its home slice or target. -/
  | storePerform (g id : Nat)
  /-- R117. An outstanding load is satisfied and its register lanes land. -/
  | loadLand (g id : Nat) (srcs : List LoadSource)
  /-- R237. An SFU result lands in its destination. -/
  | sfuLand (g id : Nat)
  /-- R47. The cluster read cache drops a line at a time of its own choosing. -/
  | crcEvict (cl line : Nat)
  /-- R67. A home slice evicts a line and queues its write-back to the channel. -/
  | l2Evict (line : Nat)
  /-- R100. The copy engine picks the least-slack operation and moves one burst. -/
  | copyBurst (cl : Nat)
  /-- R105. A copy finishes and delivers its decrement, status, barrier steps and batch count. -/
  | copyComplete (cl op : Nat)
  /-- R251. Every slice has acted on a discard. -/
  | discardComplete (cl op : Nat)
  /-- R326. The array or fetcher takes an eligible reservation-table entry. -/
  | matGrant (cl op : Nat)
  /-- R278. A MAT operation completes and counts toward its batch. -/
  | matOpComplete (cl op : Nat)
  /-- R379. A collective operation completes after its remote writes perform. -/
  | collComplete (op : Nat) (replies : List PeerReply)
  /-- R108. A message offered to a ring is written, dropped or refused. -/
  | messageArrival (g idx : Nat)
  /-- R323. The dispatcher places and begins a team on an eligible core. -/
  | teamBegin (eid core : Nat)
  /-- R144. A team meets its conditions and becomes DONE. -/
  | teamRetire (eid : Nat)
  /-- R150. A topup amount is serialised at the child's task-unit entry. -/
  | topupSerialise (g : Nat)
  /-- R155. A phase commits: ordered atomics applied, credits returned, NUM advanced. -/
  | phaseCommit (launch : Nat)
  /-- R335. After drains, a group records its causes and enters its handler. -/
  | trapEntry (g : Nat)
  /-- R341. The command processor chooses flush, drain or save for a team. -/
  | preemptRequest (eid : Nat) (purpose : PreemptPurpose)
  /-- R342. After drains and engine completion, a team's state is written to a save slot. -/
  | preemptSave (eid : Nat)
  /-- R343. A team is discarded and returned to not begun. -/
  | teamFlush (eid : Nat)
  /-- R345. A saved team is restored on a core. -/
  | teamRestore (eid core : Nat)
  /-- R387. The command processor asks to move a team off a hot cluster. -/
  | migrationRequest (eid : Nat)
  /-- R346. Attaches a debugger to a context. -/
  | debugAttach (fn : Nat)
  /-- R346. Detaches the debugger. -/
  | debugDetach (fn : Nat)
  /-- R347. Stops a team at unit boundaries. -/
  | debugStop (fn : Nat)
  /-- R347. A stopping team's loads drain and it becomes STOPPED. -/
  | teamStopped (eid : Nat)
  /-- R348. Resumes a stopped team. -/
  | debugResume (fn : Nat)
  /-- R348. Runs one unit of a group and stops again. -/
  | debugStep (fn : Nat)
  /-- R348. Reads a register of a stopped team into DBGDATA. -/
  | debugRead (fn : Nat)
  /-- R348. Writes a register of a stopped team. -/
  | debugWrite (fn : Nat)
  /-- R350. Makes every journal point re-read its entry and software's counter. -/
  | jkick (fn : Nat)
  /-- R354. A held event is admitted when the matching record reaches HEAD. -/
  | replayAdmit (launch point : Nat)
  /-- R309. A doorbell tells the command processor of new packets in a queue. -/
  | qdb (fn : Nat) (val : W64)
  /-- R317. A waiting queue is mapped to a hardware queue slot. -/
  | queueMap (fn ctx q : Nat)
  /-- R318. A class below its minimum reclaims a slot at a command boundary. -/
  | slotReclaim (slot : Nat)
  /-- R311. A LAUNCH packet is checked and passed to the Weir. -/
  | launch (slot : Nat)
  /-- R312. A COND packet selects the next packet from a watched result. -/
  | cond (slot : Nat)
  /-- R313. A WAIT packet holds the queue until earlier launches complete. -/
  | waitPacket (slot : Nat)
  /-- R313. Binds a node queue to record storage and an optional consumer. -/
  | bindq (slot : Nat)
  /-- R313. Unbinds a node queue and discards its records. -/
  | bindqUnbind (slot : Nat)
  /-- R320. The Weir admits or refuses a launch and creates its root grid. -/
  | launchAdmit (launch : Nat)
  /-- R314. The command processor starts a consumer launch for a non-empty node queue. -/
  | consumerLaunch (fn ctx nq : Nat)
  /-- R315. The launch's completion record is written with DONE last. -/
  | launchComplete (launch : Nat)
  /-- R316. The host aborts a live launch, unwinding its root teams. -/
  | launchAbort (fn : Nat)
  /-- R316. The host moves allowance to a root team of a live launch. -/
  | hostTopup (fn : Nat)
  /-- R319. A WRATE or WMAX write is accepted or ignored against CAP. -/
  | weirLimitWrite (cls : Nat) (which : WeirReg) (val : W64)
  /-- R329. The string's Sluice grants a waiting current reservation. -/
  | sluiceGrant (string : Nat)
  /-- R327. A core's vector or SFU reservation ends after 64 idle cycles. -/
  | vectorReservationIdle (core : Nat) (sfu : Bool)
  /-- R330. A request waiting 1 us throttles its string. -/
  | stringThrottle (string : Nat)
  /-- R330. Throttling ends after 4 us with no waiting request. -/
  | throttleEnd (string : Nat)
  /-- R359. The reaction window expires and forced skipping begins if a bit remains. -/
  | reactionWindowEnd (cl : Nat)
  /-- R360. Forced skipping ends after all constraint bits stay 0 for 10 us. -/
  | skipEnd (cl : Nat)
  /-- R358. The rail exceeds 520 A for 1 us and PKG sets in every cluster. -/
  | pkgCurrentHigh
  /-- R358. The rail falls below 480 A for 1 us and PKG clears. -/
  | pkgCurrentLow
  /-- R358. A die or DRAM margin crosses a THERM threshold. -/
  | dieTempChange (cl : Nat) (temp : Int)
  /-- R360. A DRAM layer reaching 95 C sets THERM and SKIP everywhere. -/
  | dramEmergency (layer : Nat)
  /-- R56. The channel controller samples a layer's sensor into DTEMP. -/
  | dramTempSample (layer : Nat) (temp : Int)
  /-- R56. A rank's refresh interval expires and the rank is blocked. -/
  | rankRefresh (ch layer : Nat)
  /-- R56. A rank's refresh ends and waiting requests proceed. -/
  | rankRefreshEnd (ch layer : Nat)
  /-- R361. A string's clock moves a 25 MHz step toward its ceiling or sustained clock. -/
  | clockBoostStep (string : Nat) (up : Bool)
  /-- R362. A second of stress adds to WEAR and may lower the boost ceiling. -/
  | wearAccumulate (string : Nat)
  /-- R364. A detected timing error replays the affected cycles in the cluster. -/
  | timingErrorReplay (cl cycles : Nat)
  /-- R365. An idle string is gated after 5 us. -/
  | stringGate (string : Nat)
  /-- R366. A gated string ramps, locks and restores so it can issue. -/
  | stringWake (string : Nat)
  /-- R63. An uncorrectable error poisons its granule and counts in the error registers. -/
  | uncorrectableError (granule : Granule)
  /-- R62. A corrected error is fixed and counted. -/
  | correctedError (level : Nat)
  /-- R371. The root-of-trust core starts from ROM, holding other units in reset. -/
  | powerOn
  /-- R371. One boot image is hashed, verified, measured and released or stops the sequence. -/
  | bootImageCheck (image : BootImage)
  /-- R373. The command processor firmware reports to the root of trust. -/
  | firmwareReport
  /-- R373. A missed report resets the command processor and clusters and sets ERR 6. -/
  | watchdogExpire
  /-- R373. A signed mailbox request reloads firmware for recovery. -/
  | recoveryReload (image : BootImage)
  /-- R374. The root of trust answers a nonce with a signed attestation report. -/
  | attestationRequest
  /-- R369. A host access through W1 reaches device memory at its home slice. -/
  | hostW1Access (fn link : Nat) (write : Bool) (off : Nat) (bytes : List Byte)
  /-- R376. An incoming Mladin request is performed or refused by the endpoint table. -/
  | peerRequest (port : Nat) (req : PeerAccess)
  /-- R370. A Mladin port goes down and the error vector is raised. -/
  | linkDown (port : Nat)
  /-- R387. A team waiting under a migration request reaches 250 us of residency on its core, and the request proceeds, is withdrawn or goes on waiting. -/
  | migrationResidencyReached (eid : Nat)
  /-- R279. The operand fetcher moves one burst of at most 512 bytes for mfetcha, mloadb or mstore under a granted 1 A reservation, then releases the reservation. -/
  | fetcherBurst (cl : Nat)
  deriving DecidableEq, Repr

end Sys2Proof
end

