-- ==== Sys2Proof/WellFormed.lean ====
section
/-! DEFINITION. Which instructions are well formed: the checks the X6 makes on the encoding alone (R180, R182, R204,
R207, R240 and the operand rules of each word). A word that fails one raises ILL_OPERAND before issue (R208), the
all-zero word ILL_OP (R180). Checks that need state (budgets, hints, barriers) are in the machine. -/

namespace Sys2Proof

/-- How a word reads a source specifier (the columns of R182; `kbytes` is an operand read as K8 or K4). -/
inductive SpecKind where
  | float | f64 | raw | kbytes | offset
  deriving DecidableEq, Repr

/-- Registers of pairs and quads are aligned (R43). -/
def evenReg (r : BitVec 7) : Bool := r.getLsbD 0 == false
def quadReg (r : BitVec 7) : Bool := r.extractLsb' 0 2 == 0#2

/-- R182: whether specifier `sp` is legal for an operand of kind `k`; an F64 operand takes an even pair (R43). -/
def specOk (k : SpecKind) (sp : BitVec 8) : Bool :=
  let n := sp.toNat
  if n < 0x80 then k != .f64 || n % 2 == 0
  else if n < 0xC0 then true
  else if n < 0xC8 then k != .f64 || n % 2 == 0
  else if n < 0xCA then k != .f64
  else if n == 0xDF then true
  else if n < 0xE0 then false
  else if n < 0xF4 then true
  else if n < 0xF8 then k == .float || k == .f64
  else false

/-- R243, R244: the offset of cst and of the scalar accesses is an s register or an inline constant. -/
def scalarOffset (sp : BitVec 8) : Bool :=
  let n := sp.toNat
  (0x80 ≤ n && n < 0xC0) || (0xE0 ≤ n && n < 0xF4)

/-- R240: the orderings a load and a store accept. -/
def ordLoad (o : BitVec 2) : Bool := o == 0#2 || o == 1#2
def ordStore (o : BitVec 2) : Bool := o == 0#2 || o == 2#2

/-- The type codes of R230. -/
inductive NumType where
  | f32 | f64 | f16 | b16 | i32 | n32 | k8 | k4 | i8 | n8 | i16 | n16
  deriving DecidableEq, Repr

def NumType.ofCode (c : BitVec 4) : Option NumType :=
  match c.toNat with
  | 0 => some .f32 | 1 => some .f64 | 2 => some .f16 | 3 => some .b16 | 4 => some .i32 | 5 => some .n32
  | 6 => some .k8 | 7 => some .k4 | 8 => some .i8 | 9 => some .n8 | 10 => some .i16 | 11 => some .n16
  | _ => none

def NumType.isFloat : NumType → Bool
  | .f32 | .f64 | .f16 | .b16 => true
  | _ => false

def NumType.isK : NumType → Bool
  | .k8 | .k4 => true
  | _ => false

/-- How vcvt reads its source of type `t` (R182, R230). -/
def NumType.specKind : NumType → SpecKind
  | .f64 => .f64
  | .f32 | .f16 | .b16 => .float
  | .k8 | .k4 => .kbytes
  | _ => .raw

/-- R207, R230: both type codes listed, an f64 side on an even pair. -/
def cvtOk (vd : BitVec 7) (sa : BitVec 8) (dt st : BitVec 4) : Bool :=
  match NumType.ofCode dt, NumType.ofCode st with
  | some d, some s => specOk s.specKind sa && (d != .f64 || evenReg vd)
  | _, _ => false

/-- The numbers R203 lists. -/
def sysReg (r : BitVec 12) : Bool :=
  let n := r.toNat
  n ≤ 0x009 || n == 0x010 || n == 0x011 || (0x020 ≤ n && n ≤ 0x027) || (0x030 ≤ n && n ≤ 0x034) ||
    (0x040 ≤ n && n ≤ 0x048) || n == 0x050 || n == 0x051 || n == 0x060 || n == 0x070

/-- The registers R203 marks RW: TPC, TMASK, TMODE, TVEC (R297). -/
def sysRegWritable (r : BitVec 12) : Bool :=
  let n := r.toNat
  n == 0x041 || n == 0x042 || n == 0x046 || n == 0x047

/-- The ILL_OPERAND checks of one instruction that its encoding alone decides. -/
def operandsOk : Instr → Bool
  | .vaddF32 _ sa sb | .vsubF32 _ sa sb | .vmulF32 _ sa sb | .vfmaF32 _ sa sb | .vminF32 _ sa sb
  | .vmaxF32 _ sa sb | .vaddF16x2 _ sa sb | .vsubF16x2 _ sa sb | .vmulF16x2 _ sa sb | .vfmaF16x2 _ sa sb
  | .vminF16x2 _ sa sb | .vmaxF16x2 _ sa sb | .vaddB16x2 _ sa sb | .vsubB16x2 _ sa sb | .vmulB16x2 _ sa sb
  | .vfmaB16x2 _ sa sb | .vdot2F16x2 _ sa sb | .vdot2B16x2 _ sa sb =>
      specOk .float sa && specOk .float sb
  | .vaddF64 vd sa sb | .vsubF64 vd sa sb | .vmulF64 vd sa sb | .vfmaF64 vd sa sb | .vminF64 vd sa sb
  | .vmaxF64 vd sa sb =>
      specOk .f64 sa && specOk .f64 sb && evenReg vd
  | .vdot4K8 _ sa sb =>
      specOk .kbytes sa && specOk .kbytes sb
  | .vfracF32 _ sa | .vrndF32 _ sa | .vscanF32 _ sa | .vredAddF32 _ sa | .vredMaxF32 _ sa | .vredMinF32 _ sa
  | .vclsF32 _ sa | .frcpF32 _ sa | .frsqF32 _ sa | .fsqrtF32 _ sa | .fexp2F32 _ sa | .flog2F32 _ sa
  | .fsinpF32 _ sa | .fcospF32 _ sa | .ftanhF32 _ sa | .fsigmF32 _ sa | .fexp2F16x2 _ sa | .ftanhF16x2 _ sa =>
      specOk .float sa
  | .vaddI32 _ sa sb | .vsubI32 _ sa sb | .vmulI32 _ sa sb | .vmadI32 _ sa sb | .vmulhiI32 _ sa sb
  | .vmulhiN32 _ sa sb | .vminI32 _ sa sb | .vmaxI32 _ sa sb | .vminN32 _ sa sb | .vmaxN32 _ sa sb
  | .vaddsI32 _ sa sb | .vsubsI32 _ sa sb | .vaddsN32 _ sa sb | .vsubsN32 _ sa sb | .vand _ sa sb
  | .vor _ sa sb | .vxor _ sa sb | .vandn _ sa sb | .vshl _ sa sb | .vshr _ sa sb | .vsar _ sa sb
  | .vbfx _ sa sb | .vbfi _ sa sb | .vaddI16x2 _ sa sb | .vsubI16x2 _ sa sb | .vdot4I8 _ sa sb
  | .vdot4N8 _ sa sb | .vlane _ sa sb | .vxswap _ sa sb | .vup _ sa sb | .vdown _ sa sb | .vpack _ sa sb
  | .vtest _ sa sb | .vselK0 _ sa sb | .vselK1 _ sa sb | .vselK2 _ sa sb | .vselK3 _ sa sb | .vselK4 _ sa sb
  | .vselK5 _ sa sb | .vselK6 _ sa sb | .vselK7 _ sa sb =>
      specOk .raw sa && specOk .raw sb
  | .vpopc _ sa | .vclz _ sa | .vbrev _ sa | .vmov _ sa | .vmovo _ sa | .vscanI32 _ sa | .vredAddI32 _ sa
  | .vballot _ sa | .vcompress _ sa _ | .vexpand _ sa _ =>
      specOk .raw sa
  | .vcvt vd sa dt st =>
      cvtOk vd sa dt st
  | .vcmpF32 cc _ sa sb =>
      specOk .float sa && specOk .float sb && cc.ult 8
  | .vcmpF64 cc _ sa sb =>
      specOk .f64 sa && specOk .f64 sb && cc.ult 8
  | .vcmpI32 cc _ sa sb | .vcmpN32 cc _ sa sb =>
      specOk .raw sa && specOk .raw sb && cc.ult 8
  | .frcpF64 vd sa | .frsqF64 vd sa =>
      specOk .f64 sa && evenReg vd
  | .wait sel _ =>
      sel.ult 3
  | .ldB8 _ _ vo ord | .ldI8 _ _ vo ord | .ldB16 _ _ vo ord | .ldI16 _ _ vo ord | .ldB32 _ _ vo ord
  | .ldsB32 _ _ vo ord | .ldsB8 _ _ vo ord | .ldsB16 _ _ vo ord | .ldnB32 _ _ vo ord =>
      ordLoad ord && specOk .offset vo
  | .ldB64 vd _ vo ord | .ldsB64 vd _ vo ord =>
      ordLoad ord && specOk .offset vo && evenReg vd
  | .ldB128 vd _ vo ord | .ldsB128 vd _ vo ord =>
      ordLoad ord && specOk .offset vo && quadReg vd
  | .stB8 _ _ vo ord | .stB16 _ _ vo ord | .stB32 _ _ vo ord | .stsB32 _ _ vo ord | .stsB8 _ _ vo ord
  | .stsB16 _ _ vo ord | .stnB32 _ _ vo ord =>
      ordStore ord && specOk .offset vo
  | .stB64 vd _ vo ord | .stsB64 vd _ vo ord =>
      ordStore ord && specOk .offset vo && evenReg vd
  | .stB128 vd _ vo ord | .stsB128 vd _ vo ord =>
      ordStore ord && specOk .offset vo && quadReg vd
  | .atomAddI32 _ _ vo _ | .atomAddF32 _ _ vo _ | .atomMinI32 _ _ vo _ | .atomMaxI32 _ _ vo _
  | .atomMinN32 _ _ vo _ | .atomMaxN32 _ _ vo _ | .atomAndB32 _ _ vo _ | .atomOrB32 _ _ vo _
  | .atomXorB32 _ _ vo _ | .atomExchB32 _ _ vo _ | .atomsAddI32 _ _ vo _ | .atomsMinI32 _ _ vo _
  | .atomsMaxI32 _ _ vo _ | .atomsExchB32 _ _ vo _ | .atomnAddI32 _ _ vo _ =>
      specOk .offset vo
  | .atomAddI64 vd _ vo _ | .atomExchB64 vd _ vo _ | .atomCasB32 vd _ vo _ | .atomsCasB32 vd _ vo _ =>
      specOk .offset vo && evenReg vd
  | .atomCasB64 vd _ vo _ =>
      specOk .offset vo && quadReg vd
  | .cstB32 _ _ vo ord | .stS64 _ _ vo ord | .stsS64 _ _ vo ord =>
      ordStore ord && scalarOffset vo
  | .ldS64 _ _ vo ord | .ldsS64 _ _ vo ord =>
      ordLoad ord && scalarOffset vo
  | .prf _ vo ord =>
      ord == 0#2 && specOk .offset vo
  | .close _ c | .waitb _ c =>
      c.ult 3
  | .barSync c _ | .barArr c _ | .barRedAddI32 c _ _ _ | .barRedAddF32 c _ _ _ | .barRedMaxI32 c _ _ _
  | .barRedMinI32 c _ _ _ | .barRedAnd c _ _ _ | .barRedOr c _ _ _ =>
      c.ult 33
  | .fence s =>
      s.ult 5
  | .tktTake j | .tktSkip j =>
      j.ult 2
  | .atomoAddI64 _ _ z =>
      z.getLsbD 0 == false
  | .srd _ reg =>
      sysReg reg
  | .swr _ reg =>
      sysRegWritable reg
  | .hintSched _ _ rsv =>
      rsv == 0#19
  | .hintMod _ _ _ _ _ _ _ _ _ _ scope rsv =>
      scope.ult 5 && rsv == 0#8
  | _ => true

/-- Why an instruction is not well formed. -/
inductive IllFormed where
  | zeroWord      -- the all-zero word, which is never vadd.f32 v0, v0, v0 (R180)
  | illOperand    -- an operand field the word does not allow (R182, R204, R207, R240)
  deriving DecidableEq, Repr

/-- The well-formedness check of an instruction; events carry no encoding and always pass. -/
def Instr.check (i : Instr) : Except IllFormed Unit :=
  if i = .vaddF32 0 0 0 then .error .zeroWord
  else if operandsOk i then .ok () else .error .illOperand

def Instr.WellFormed (i : Instr) : Prop := i.check = .ok ()

/-- The rows of the table that are events: they have no word and raise no fetch. -/
def Instr.isEvent : Instr → Bool
  | .prreplyRetry .. | .prreplyFail .. | .xinvPage .. | .xinvContext .. | .xinvVfn .. | .xinvDone ..
  | .hcommit .. | .hcommitDone | .mdzGo .. | .mdzDone | .registerWrite .. | .storePerform .. | .loadLand ..
  | .sfuLand .. | .crcEvict .. | .l2Evict .. | .copyBurst .. | .copyComplete .. | .discardComplete ..
  | .matGrant .. | .matOpComplete .. | .collComplete .. | .messageArrival .. | .teamBegin .. | .teamRetire ..
  | .topupSerialise .. | .phaseCommit .. | .trapEntry .. | .preemptRequest .. | .preemptSave .. | .teamFlush ..
  | .teamRestore .. | .migrationRequest .. | .debugAttach .. | .debugDetach .. | .debugStop ..
  | .teamStopped .. | .debugResume .. | .debugStep .. | .debugRead .. | .debugWrite .. | .jkick ..
  | .replayAdmit .. | .qdb .. | .queueMap .. | .slotReclaim .. | .launch .. | .cond .. | .waitPacket ..
  | .bindq .. | .bindqUnbind .. | .launchAdmit .. | .consumerLaunch .. | .launchComplete .. | .launchAbort ..
  | .hostTopup .. | .weirLimitWrite .. | .sluiceGrant .. | .vectorReservationIdle .. | .stringThrottle ..
  | .throttleEnd .. | .reactionWindowEnd .. | .skipEnd .. | .pkgCurrentHigh | .pkgCurrentLow
  | .dieTempChange .. | .dramEmergency .. | .dramTempSample .. | .rankRefresh .. | .rankRefreshEnd ..
  | .clockBoostStep .. | .wearAccumulate .. | .timingErrorReplay .. | .stringGate .. | .stringWake ..
  | .uncorrectableError .. | .correctedError .. | .powerOn | .bootImageCheck .. | .firmwareReport
  | .watchdogExpire | .recoveryReload .. | .attestationRequest | .hostW1Access .. | .peerRequest ..
  | .linkDown .. | .migrationResidencyReached .. | .fetcherBurst .. => true
  | _ => false

end Sys2Proof
end

