-- ==== Sys2Proof/Decode.lean ====
section
/-! DEFINITION. The decoder, total on every 32-bit word, and the encoder, both from the layouts of R179, the opcode map
of R206 and the unused fields of R180. A word the decoder refuses raises ILL_OP; a word it reads that is not well formed
raises ILL_OPERAND. Some definitions are marked noncomputable: Lean's code generator cannot build values of constructors
beyond its tag limit of 244. The kernel evaluates them all. -/

namespace Sys2Proof

/-- Why a word is no instruction (R180). -/
inductive DecodeError where
  | zeroWord       -- the all-zero word
  | reservedCode   -- the function code is not listed for its class, or hint kind 0b11
  | unusedField    -- a field the word does not use is not zero
  deriving DecidableEq, Repr

/-- A word whose unused bits are zero is the instruction `i`, else it is refused. -/
def unusedZero (ok : Bool) (i : Instr) : Except DecodeError Instr :=
  if ok then .ok i else .error .unusedField

/-- Class 0x0: the function code is bits [27:23] (R179, R206). -/
def decodeClass0 (w : W32) : Except DecodeError Instr :=
  match (w.extractLsb' 23 5).toNat with
  | 0x0 => .ok (.vaddF32 (w.extractLsb' 16 7) (w.extractLsb' 8 8) (w.extractLsb' 0 8))
  | 0x1 => .ok (.vsubF32 (w.extractLsb' 16 7) (w.extractLsb' 8 8) (w.extractLsb' 0 8))
  | 0x2 => .ok (.vmulF32 (w.extractLsb' 16 7) (w.extractLsb' 8 8) (w.extractLsb' 0 8))
  | 0x3 => .ok (.vfmaF32 (w.extractLsb' 16 7) (w.extractLsb' 8 8) (w.extractLsb' 0 8))
  | 0x4 => .ok (.vminF32 (w.extractLsb' 16 7) (w.extractLsb' 8 8) (w.extractLsb' 0 8))
  | 0x5 => .ok (.vmaxF32 (w.extractLsb' 16 7) (w.extractLsb' 8 8) (w.extractLsb' 0 8))
  | 0x6 => .ok (.vaddF16x2 (w.extractLsb' 16 7) (w.extractLsb' 8 8) (w.extractLsb' 0 8))
  | 0x7 => .ok (.vsubF16x2 (w.extractLsb' 16 7) (w.extractLsb' 8 8) (w.extractLsb' 0 8))
  | 0x8 => .ok (.vmulF16x2 (w.extractLsb' 16 7) (w.extractLsb' 8 8) (w.extractLsb' 0 8))
  | 0x9 => .ok (.vfmaF16x2 (w.extractLsb' 16 7) (w.extractLsb' 8 8) (w.extractLsb' 0 8))
  | 0xA => .ok (.vminF16x2 (w.extractLsb' 16 7) (w.extractLsb' 8 8) (w.extractLsb' 0 8))
  | 0xB => .ok (.vmaxF16x2 (w.extractLsb' 16 7) (w.extractLsb' 8 8) (w.extractLsb' 0 8))
  | 0xC => .ok (.vaddB16x2 (w.extractLsb' 16 7) (w.extractLsb' 8 8) (w.extractLsb' 0 8))
  | 0xD => .ok (.vsubB16x2 (w.extractLsb' 16 7) (w.extractLsb' 8 8) (w.extractLsb' 0 8))
  | 0xE => .ok (.vmulB16x2 (w.extractLsb' 16 7) (w.extractLsb' 8 8) (w.extractLsb' 0 8))
  | 0xF => .ok (.vfmaB16x2 (w.extractLsb' 16 7) (w.extractLsb' 8 8) (w.extractLsb' 0 8))
  | 0x10 => .ok (.vaddF64 (w.extractLsb' 16 7) (w.extractLsb' 8 8) (w.extractLsb' 0 8))
  | 0x11 => .ok (.vsubF64 (w.extractLsb' 16 7) (w.extractLsb' 8 8) (w.extractLsb' 0 8))
  | 0x12 => .ok (.vmulF64 (w.extractLsb' 16 7) (w.extractLsb' 8 8) (w.extractLsb' 0 8))
  | 0x13 => .ok (.vfmaF64 (w.extractLsb' 16 7) (w.extractLsb' 8 8) (w.extractLsb' 0 8))
  | 0x14 => .ok (.vminF64 (w.extractLsb' 16 7) (w.extractLsb' 8 8) (w.extractLsb' 0 8))
  | 0x15 => .ok (.vmaxF64 (w.extractLsb' 16 7) (w.extractLsb' 8 8) (w.extractLsb' 0 8))
  | 0x16 => .ok (.vdot2F16x2 (w.extractLsb' 16 7) (w.extractLsb' 8 8) (w.extractLsb' 0 8))
  | 0x17 => .ok (.vdot2B16x2 (w.extractLsb' 16 7) (w.extractLsb' 8 8) (w.extractLsb' 0 8))
  | 0x18 => .ok (.vdot4K8 (w.extractLsb' 16 7) (w.extractLsb' 8 8) (w.extractLsb' 0 8))
  | 0x19 => unusedZero (w.extractLsb' 0 8 == 0#8) (.vfracF32 (w.extractLsb' 16 7) (w.extractLsb' 8 8))
  | _ => .error .reservedCode

/-- Class 0x1: the function code is bits [27:23] (R179, R206). -/
def decodeClass1 (w : W32) : Except DecodeError Instr :=
  match (w.extractLsb' 23 5).toNat with
  | 0x0 => .ok (.vaddI32 (w.extractLsb' 16 7) (w.extractLsb' 8 8) (w.extractLsb' 0 8))
  | 0x1 => .ok (.vsubI32 (w.extractLsb' 16 7) (w.extractLsb' 8 8) (w.extractLsb' 0 8))
  | 0x2 => .ok (.vmulI32 (w.extractLsb' 16 7) (w.extractLsb' 8 8) (w.extractLsb' 0 8))
  | 0x3 => .ok (.vmadI32 (w.extractLsb' 16 7) (w.extractLsb' 8 8) (w.extractLsb' 0 8))
  | 0x4 => .ok (.vmulhiI32 (w.extractLsb' 16 7) (w.extractLsb' 8 8) (w.extractLsb' 0 8))
  | 0x5 => .ok (.vmulhiN32 (w.extractLsb' 16 7) (w.extractLsb' 8 8) (w.extractLsb' 0 8))
  | 0x6 => .ok (.vminI32 (w.extractLsb' 16 7) (w.extractLsb' 8 8) (w.extractLsb' 0 8))
  | 0x7 => .ok (.vmaxI32 (w.extractLsb' 16 7) (w.extractLsb' 8 8) (w.extractLsb' 0 8))
  | 0x8 => .ok (.vminN32 (w.extractLsb' 16 7) (w.extractLsb' 8 8) (w.extractLsb' 0 8))
  | 0x9 => .ok (.vmaxN32 (w.extractLsb' 16 7) (w.extractLsb' 8 8) (w.extractLsb' 0 8))
  | 0xA => .ok (.vaddsI32 (w.extractLsb' 16 7) (w.extractLsb' 8 8) (w.extractLsb' 0 8))
  | 0xB => .ok (.vsubsI32 (w.extractLsb' 16 7) (w.extractLsb' 8 8) (w.extractLsb' 0 8))
  | 0xC => .ok (.vaddsN32 (w.extractLsb' 16 7) (w.extractLsb' 8 8) (w.extractLsb' 0 8))
  | 0xD => .ok (.vsubsN32 (w.extractLsb' 16 7) (w.extractLsb' 8 8) (w.extractLsb' 0 8))
  | 0xE => .ok (.vand (w.extractLsb' 16 7) (w.extractLsb' 8 8) (w.extractLsb' 0 8))
  | 0xF => .ok (.vor (w.extractLsb' 16 7) (w.extractLsb' 8 8) (w.extractLsb' 0 8))
  | 0x10 => .ok (.vxor (w.extractLsb' 16 7) (w.extractLsb' 8 8) (w.extractLsb' 0 8))
  | 0x11 => .ok (.vandn (w.extractLsb' 16 7) (w.extractLsb' 8 8) (w.extractLsb' 0 8))
  | 0x12 => .ok (.vshl (w.extractLsb' 16 7) (w.extractLsb' 8 8) (w.extractLsb' 0 8))
  | 0x13 => .ok (.vshr (w.extractLsb' 16 7) (w.extractLsb' 8 8) (w.extractLsb' 0 8))
  | 0x14 => .ok (.vsar (w.extractLsb' 16 7) (w.extractLsb' 8 8) (w.extractLsb' 0 8))
  | 0x15 => unusedZero (w.extractLsb' 0 8 == 0#8) (.vpopc (w.extractLsb' 16 7) (w.extractLsb' 8 8))
  | 0x16 => unusedZero (w.extractLsb' 0 8 == 0#8) (.vclz (w.extractLsb' 16 7) (w.extractLsb' 8 8))
  | 0x17 => unusedZero (w.extractLsb' 0 8 == 0#8) (.vbrev (w.extractLsb' 16 7) (w.extractLsb' 8 8))
  | 0x18 => .ok (.vbfx (w.extractLsb' 16 7) (w.extractLsb' 8 8) (w.extractLsb' 0 8))
  | 0x19 => .ok (.vbfi (w.extractLsb' 16 7) (w.extractLsb' 8 8) (w.extractLsb' 0 8))
  | 0x1A => .ok (.vaddI16x2 (w.extractLsb' 16 7) (w.extractLsb' 8 8) (w.extractLsb' 0 8))
  | 0x1B => .ok (.vsubI16x2 (w.extractLsb' 16 7) (w.extractLsb' 8 8) (w.extractLsb' 0 8))
  | 0x1C => .ok (.vdot4I8 (w.extractLsb' 16 7) (w.extractLsb' 8 8) (w.extractLsb' 0 8))
  | 0x1D => .ok (.vdot4N8 (w.extractLsb' 16 7) (w.extractLsb' 8 8) (w.extractLsb' 0 8))
  | _ => .error .reservedCode

/-- Class 0x2: the function code is bits [27:23] (R179, R206). -/
def decodeClass2 (w : W32) : Except DecodeError Instr :=
  match (w.extractLsb' 23 5).toNat with
  | 0x0 => .ok (.vcvt (w.extractLsb' 16 7) (w.extractLsb' 8 8) (w.extractLsb' 4 4) (w.extractLsb' 0 4))
  | 0x1 => unusedZero (w.extractLsb' 0 8 == 0#8) (.vrndF32 (w.extractLsb' 16 7) (w.extractLsb' 8 8))
  | 0x2 => unusedZero (w.extractLsb' 0 8 == 0#8) (.vmov (w.extractLsb' 16 7) (w.extractLsb' 8 8))
  | 0x3 => unusedZero (w.extractLsb' 0 8 == 0#8 && w.extractLsb' 19 4 == 0#4) (.vmovo (w.extractLsb' 16 3) (w.extractLsb' 8 8))
  | 0x4 => .ok (.vlane (w.extractLsb' 16 7) (w.extractLsb' 8 8) (w.extractLsb' 0 8))
  | 0x5 => .ok (.vxswap (w.extractLsb' 16 7) (w.extractLsb' 8 8) (w.extractLsb' 0 8))
  | 0x6 => .ok (.vup (w.extractLsb' 16 7) (w.extractLsb' 8 8) (w.extractLsb' 0 8))
  | 0x7 => .ok (.vdown (w.extractLsb' 16 7) (w.extractLsb' 8 8) (w.extractLsb' 0 8))
  | 0x8 => unusedZero (w.extractLsb' 0 8 == 0#8) (.vscanI32 (w.extractLsb' 16 7) (w.extractLsb' 8 8))
  | 0x9 => unusedZero (w.extractLsb' 0 8 == 0#8) (.vscanF32 (w.extractLsb' 16 7) (w.extractLsb' 8 8))
  | 0xA => unusedZero (w.extractLsb' 0 8 == 0#8) (.vredAddI32 (w.extractLsb' 16 7) (w.extractLsb' 8 8))
  | 0xB => unusedZero (w.extractLsb' 0 8 == 0#8) (.vredAddF32 (w.extractLsb' 16 7) (w.extractLsb' 8 8))
  | 0xC => unusedZero (w.extractLsb' 0 8 == 0#8) (.vredMaxF32 (w.extractLsb' 16 7) (w.extractLsb' 8 8))
  | 0xD => unusedZero (w.extractLsb' 0 8 == 0#8) (.vredMinF32 (w.extractLsb' 16 7) (w.extractLsb' 8 8))
  | 0xE => unusedZero (w.extractLsb' 0 8 == 0#8 && w.extractLsb' 22 1 == 0#1) (.vballot (w.extractLsb' 16 6) (w.extractLsb' 8 8))
  | 0xF => unusedZero (w.extractLsb' 3 5 == 0#5) (.vcompress (w.extractLsb' 16 7) (w.extractLsb' 8 8) (w.extractLsb' 0 3))
  | 0x10 => unusedZero (w.extractLsb' 3 5 == 0#5) (.vexpand (w.extractLsb' 16 7) (w.extractLsb' 8 8) (w.extractLsb' 0 3))
  | 0x11 => unusedZero (w.extractLsb' 0 16 == 0#16) (.vlaneid (w.extractLsb' 16 7))
  | 0x12 => .ok (.vpack (w.extractLsb' 16 7) (w.extractLsb' 8 8) (w.extractLsb' 0 8))
  | _ => .error .reservedCode

/-- Class 0x3: the function code is bits [27:23] (R179, R206). -/
def decodeClass3 (w : W32) : Except DecodeError Instr :=
  match (w.extractLsb' 23 5).toNat with
  | 0x0 => .ok (.vcmpF32 (w.extractLsb' 19 4) (w.extractLsb' 16 3) (w.extractLsb' 8 8) (w.extractLsb' 0 8))
  | 0x1 => .ok (.vcmpF64 (w.extractLsb' 19 4) (w.extractLsb' 16 3) (w.extractLsb' 8 8) (w.extractLsb' 0 8))
  | 0x2 => .ok (.vcmpI32 (w.extractLsb' 19 4) (w.extractLsb' 16 3) (w.extractLsb' 8 8) (w.extractLsb' 0 8))
  | 0x3 => .ok (.vcmpN32 (w.extractLsb' 19 4) (w.extractLsb' 16 3) (w.extractLsb' 8 8) (w.extractLsb' 0 8))
  | 0x4 => unusedZero (w.extractLsb' 0 8 == 0#8) (.vclsF32 (w.extractLsb' 16 7) (w.extractLsb' 8 8))
  | 0x5 => unusedZero (w.extractLsb' 19 4 == 0#4) (.vtest (w.extractLsb' 16 3) (w.extractLsb' 8 8) (w.extractLsb' 0 8))
  | 0x8 => .ok (.vselK0 (w.extractLsb' 16 7) (w.extractLsb' 8 8) (w.extractLsb' 0 8))
  | 0x9 => .ok (.vselK1 (w.extractLsb' 16 7) (w.extractLsb' 8 8) (w.extractLsb' 0 8))
  | 0xA => .ok (.vselK2 (w.extractLsb' 16 7) (w.extractLsb' 8 8) (w.extractLsb' 0 8))
  | 0xB => .ok (.vselK3 (w.extractLsb' 16 7) (w.extractLsb' 8 8) (w.extractLsb' 0 8))
  | 0xC => .ok (.vselK4 (w.extractLsb' 16 7) (w.extractLsb' 8 8) (w.extractLsb' 0 8))
  | 0xD => .ok (.vselK5 (w.extractLsb' 16 7) (w.extractLsb' 8 8) (w.extractLsb' 0 8))
  | 0xE => .ok (.vselK6 (w.extractLsb' 16 7) (w.extractLsb' 8 8) (w.extractLsb' 0 8))
  | 0xF => .ok (.vselK7 (w.extractLsb' 16 7) (w.extractLsb' 8 8) (w.extractLsb' 0 8))
  | _ => .error .reservedCode

/-- Class 0x4: the function code is bits [27:23] (R179, R206). -/
def decodeClass4 (w : W32) : Except DecodeError Instr :=
  match (w.extractLsb' 23 5).toNat with
  | 0x0 => unusedZero (w.extractLsb' 0 8 == 0#8) (.frcpF32 (w.extractLsb' 16 7) (w.extractLsb' 8 8))
  | 0x1 => unusedZero (w.extractLsb' 0 8 == 0#8) (.frsqF32 (w.extractLsb' 16 7) (w.extractLsb' 8 8))
  | 0x2 => unusedZero (w.extractLsb' 0 8 == 0#8) (.fsqrtF32 (w.extractLsb' 16 7) (w.extractLsb' 8 8))
  | 0x3 => unusedZero (w.extractLsb' 0 8 == 0#8) (.fexp2F32 (w.extractLsb' 16 7) (w.extractLsb' 8 8))
  | 0x4 => unusedZero (w.extractLsb' 0 8 == 0#8) (.flog2F32 (w.extractLsb' 16 7) (w.extractLsb' 8 8))
  | 0x5 => unusedZero (w.extractLsb' 0 8 == 0#8) (.fsinpF32 (w.extractLsb' 16 7) (w.extractLsb' 8 8))
  | 0x6 => unusedZero (w.extractLsb' 0 8 == 0#8) (.fcospF32 (w.extractLsb' 16 7) (w.extractLsb' 8 8))
  | 0x7 => unusedZero (w.extractLsb' 0 8 == 0#8) (.ftanhF32 (w.extractLsb' 16 7) (w.extractLsb' 8 8))
  | 0x8 => unusedZero (w.extractLsb' 0 8 == 0#8) (.fsigmF32 (w.extractLsb' 16 7) (w.extractLsb' 8 8))
  | 0x9 => unusedZero (w.extractLsb' 0 8 == 0#8) (.frcpF64 (w.extractLsb' 16 7) (w.extractLsb' 8 8))
  | 0xA => unusedZero (w.extractLsb' 0 8 == 0#8) (.frsqF64 (w.extractLsb' 16 7) (w.extractLsb' 8 8))
  | 0xB => unusedZero (w.extractLsb' 0 8 == 0#8) (.fexp2F16x2 (w.extractLsb' 16 7) (w.extractLsb' 8 8))
  | 0xC => unusedZero (w.extractLsb' 0 8 == 0#8) (.ftanhF16x2 (w.extractLsb' 16 7) (w.extractLsb' 8 8))
  | _ => .error .reservedCode

/-- Class 0x5: the function code is bits [27:22] (R179, R206). -/
def decodeClass5 (w : W32) : Except DecodeError Instr :=
  match (w.extractLsb' 22 6).toNat with
  | 0x0 => unusedZero (w.extractLsb' 0 4 == 0#4) (.add (w.extractLsb' 16 6) (w.extractLsb' 10 6) (w.extractLsb' 4 6))
  | 0x1 => unusedZero (w.extractLsb' 0 4 == 0#4) (.sub (w.extractLsb' 16 6) (w.extractLsb' 10 6) (w.extractLsb' 4 6))
  | 0x2 => unusedZero (w.extractLsb' 0 4 == 0#4) (.mul (w.extractLsb' 16 6) (w.extractLsb' 10 6) (w.extractLsb' 4 6))
  | 0x3 => unusedZero (w.extractLsb' 0 4 == 0#4) (.mulhiI (w.extractLsb' 16 6) (w.extractLsb' 10 6) (w.extractLsb' 4 6))
  | 0x4 => unusedZero (w.extractLsb' 0 4 == 0#4) (.mulhiN (w.extractLsb' 16 6) (w.extractLsb' 10 6) (w.extractLsb' 4 6))
  | 0x5 => unusedZero (w.extractLsb' 0 4 == 0#4) (.divI (w.extractLsb' 16 6) (w.extractLsb' 10 6) (w.extractLsb' 4 6))
  | 0x6 => unusedZero (w.extractLsb' 0 4 == 0#4) (.divN (w.extractLsb' 16 6) (w.extractLsb' 10 6) (w.extractLsb' 4 6))
  | 0x7 => unusedZero (w.extractLsb' 0 4 == 0#4) (.remI (w.extractLsb' 16 6) (w.extractLsb' 10 6) (w.extractLsb' 4 6))
  | 0x8 => unusedZero (w.extractLsb' 0 4 == 0#4) (.remN (w.extractLsb' 16 6) (w.extractLsb' 10 6) (w.extractLsb' 4 6))
  | 0x9 => unusedZero (w.extractLsb' 0 4 == 0#4) (.and (w.extractLsb' 16 6) (w.extractLsb' 10 6) (w.extractLsb' 4 6))
  | 0xA => unusedZero (w.extractLsb' 0 4 == 0#4) (.or (w.extractLsb' 16 6) (w.extractLsb' 10 6) (w.extractLsb' 4 6))
  | 0xB => unusedZero (w.extractLsb' 0 4 == 0#4) (.xor (w.extractLsb' 16 6) (w.extractLsb' 10 6) (w.extractLsb' 4 6))
  | 0xC => unusedZero (w.extractLsb' 0 4 == 0#4) (.andn (w.extractLsb' 16 6) (w.extractLsb' 10 6) (w.extractLsb' 4 6))
  | 0xD => unusedZero (w.extractLsb' 0 4 == 0#4) (.shl (w.extractLsb' 16 6) (w.extractLsb' 10 6) (w.extractLsb' 4 6))
  | 0xE => unusedZero (w.extractLsb' 0 4 == 0#4) (.shr (w.extractLsb' 16 6) (w.extractLsb' 10 6) (w.extractLsb' 4 6))
  | 0xF => unusedZero (w.extractLsb' 0 4 == 0#4) (.sar (w.extractLsb' 16 6) (w.extractLsb' 10 6) (w.extractLsb' 4 6))
  | 0x10 => unusedZero (w.extractLsb' 0 4 == 0#4) (.minI (w.extractLsb' 16 6) (w.extractLsb' 10 6) (w.extractLsb' 4 6))
  | 0x11 => unusedZero (w.extractLsb' 0 4 == 0#4) (.maxI (w.extractLsb' 16 6) (w.extractLsb' 10 6) (w.extractLsb' 4 6))
  | 0x12 => unusedZero (w.extractLsb' 0 4 == 0#4) (.minN (w.extractLsb' 16 6) (w.extractLsb' 10 6) (w.extractLsb' 4 6))
  | 0x13 => unusedZero (w.extractLsb' 0 4 == 0#4) (.maxN (w.extractLsb' 16 6) (w.extractLsb' 10 6) (w.extractLsb' 4 6))
  | 0x14 => unusedZero (w.extractLsb' 0 4 == 0#4) (.sltI (w.extractLsb' 16 6) (w.extractLsb' 10 6) (w.extractLsb' 4 6))
  | 0x15 => unusedZero (w.extractLsb' 0 4 == 0#4) (.sltN (w.extractLsb' 16 6) (w.extractLsb' 10 6) (w.extractLsb' 4 6))
  | 0x16 => unusedZero (w.extractLsb' 0 4 == 0#4) (.seq (w.extractLsb' 16 6) (w.extractLsb' 10 6) (w.extractLsb' 4 6))
  | 0x17 => unusedZero (w.extractLsb' 0 10 == 0#10) (.mov (w.extractLsb' 16 6) (w.extractLsb' 10 6))
  | 0x18 => unusedZero (w.extractLsb' 0 10 == 0#10) (.clz (w.extractLsb' 16 6) (w.extractLsb' 10 6))
  | 0x19 => unusedZero (w.extractLsb' 0 10 == 0#10) (.popc (w.extractLsb' 16 6) (w.extractLsb' 10 6))
  | 0x1A => unusedZero (w.extractLsb' 0 10 == 0#10) (.brev (w.extractLsb' 16 6) (w.extractLsb' 10 6))
  | 0x1B => unusedZero (w.extractLsb' 0 10 == 0#10) (.sext32 (w.extractLsb' 16 6) (w.extractLsb' 10 6))
  | 0x1C => unusedZero (w.extractLsb' 0 10 == 0#10) (.zext32 (w.extractLsb' 16 6) (w.extractLsb' 10 6))
  | 0x1D => .ok (.lea (w.extractLsb' 16 6) (w.extractLsb' 10 6) (w.extractLsb' 4 6) (w.extractLsb' 0 4))
  | 0x20 => unusedZero (w.extractLsb' 0 4 == 0#4 && w.extractLsb' 7 3 == 0#3 && w.extractLsb' 13 3 == 0#3 && w.extractLsb' 19 3 == 0#3) (.kand (w.extractLsb' 16 3) (w.extractLsb' 10 3) (w.extractLsb' 4 3))
  | 0x21 => unusedZero (w.extractLsb' 0 4 == 0#4 && w.extractLsb' 7 3 == 0#3 && w.extractLsb' 13 3 == 0#3 && w.extractLsb' 19 3 == 0#3) (.kor (w.extractLsb' 16 3) (w.extractLsb' 10 3) (w.extractLsb' 4 3))
  | 0x22 => unusedZero (w.extractLsb' 0 4 == 0#4 && w.extractLsb' 7 3 == 0#3 && w.extractLsb' 13 3 == 0#3 && w.extractLsb' 19 3 == 0#3) (.kxor (w.extractLsb' 16 3) (w.extractLsb' 10 3) (w.extractLsb' 4 3))
  | 0x23 => unusedZero (w.extractLsb' 0 4 == 0#4 && w.extractLsb' 7 3 == 0#3 && w.extractLsb' 13 3 == 0#3 && w.extractLsb' 19 3 == 0#3) (.kandn (w.extractLsb' 16 3) (w.extractLsb' 10 3) (w.extractLsb' 4 3))
  | 0x24 => unusedZero (w.extractLsb' 0 10 == 0#10 && w.extractLsb' 13 3 == 0#3 && w.extractLsb' 19 3 == 0#3) (.knot (w.extractLsb' 16 3) (w.extractLsb' 10 3))
  | 0x25 => unusedZero (w.extractLsb' 0 10 == 0#10 && w.extractLsb' 13 3 == 0#3) (.kpopc (w.extractLsb' 16 6) (w.extractLsb' 10 3))
  | 0x26 => unusedZero (w.extractLsb' 0 10 == 0#10 && w.extractLsb' 13 3 == 0#3) (.kffs (w.extractLsb' 16 6) (w.extractLsb' 10 3))
  | 0x27 => unusedZero (w.extractLsb' 0 10 == 0#10 && w.extractLsb' 13 3 == 0#3) (.ktos (w.extractLsb' 16 6) (w.extractLsb' 10 3))
  | 0x28 => unusedZero (w.extractLsb' 0 10 == 0#10 && w.extractLsb' 19 3 == 0#3) (.stok (w.extractLsb' 16 3) (w.extractLsb' 10 6))
  | 0x29 => unusedZero (w.extractLsb' 0 16 == 0#16) (.exmrd (w.extractLsb' 16 6))
  | 0x2A => unusedZero (w.extractLsb' 0 10 == 0#10 && w.extractLsb' 16 6 == 0#6) (.exmwr (w.extractLsb' 10 6))
  | _ => .error .reservedCode

/-- Class 0x6: the function code is bits [27:22] (R179, R206). -/
def decodeClass6 (w : W32) : Except DecodeError Instr :=
  match (w.extractLsb' 22 6).toNat with
  | 0x0 => .ok (.addi (w.extractLsb' 16 6) (w.extractLsb' 10 6) (w.extractLsb' 0 10))
  | 0x1 => .ok (.andi (w.extractLsb' 16 6) (w.extractLsb' 10 6) (w.extractLsb' 0 10))
  | 0x2 => .ok (.ori (w.extractLsb' 16 6) (w.extractLsb' 10 6) (w.extractLsb' 0 10))
  | 0x3 => .ok (.xori (w.extractLsb' 16 6) (w.extractLsb' 10 6) (w.extractLsb' 0 10))
  | 0x4 => .ok (.shli (w.extractLsb' 16 6) (w.extractLsb' 10 6) (w.extractLsb' 0 10))
  | 0x5 => .ok (.shri (w.extractLsb' 16 6) (w.extractLsb' 10 6) (w.extractLsb' 0 10))
  | 0x6 => .ok (.sari (w.extractLsb' 16 6) (w.extractLsb' 10 6) (w.extractLsb' 0 10))
  | 0x7 => .ok (.sltiI (w.extractLsb' 16 6) (w.extractLsb' 10 6) (w.extractLsb' 0 10))
  | 0x8 => .ok (.sltiN (w.extractLsb' 16 6) (w.extractLsb' 10 6) (w.extractLsb' 0 10))
  | 0x9 => .ok (.seqi (w.extractLsb' 16 6) (w.extractLsb' 10 6) (w.extractLsb' 0 10))
  | 0xA => unusedZero (w.extractLsb' 10 6 == 0#6) (.li (w.extractLsb' 16 6) (w.extractLsb' 0 10))
  | 0xB => .ok (.muli (w.extractLsb' 16 6) (w.extractLsb' 10 6) (w.extractLsb' 0 10))
  | _ => .error .reservedCode

/-- Class 0x7: the function code is bits [27:24] (R179, R206). -/
def decodeClass7 (w : W32) : Except DecodeError Instr :=
  match (w.extractLsb' 24 4).toNat with
  | 0x0 => .ok (.br (w.extractLsb' 0 24))
  | 0x1 => .ok (.brz (w.extractLsb' 18 6) (w.extractLsb' 0 18))
  | 0x2 => .ok (.brnz (w.extractLsb' 18 6) (w.extractLsb' 0 18))
  | 0x3 => unusedZero (w.extractLsb' 21 3 == 0#3) (.brany (w.extractLsb' 18 3) (w.extractLsb' 0 18))
  | 0x4 => unusedZero (w.extractLsb' 21 3 == 0#3) (.brall (w.extractLsb' 18 3) (w.extractLsb' 0 18))
  | 0x5 => .ok (.call (w.extractLsb' 0 24))
  | 0x6 => unusedZero (w.extractLsb' 0 18 == 0#18) (.ret (w.extractLsb' 18 6))
  | 0x7 => .ok (.brx (w.extractLsb' 18 6) (w.extractLsb' 0 18))
  | 0x8 => unusedZero (w.extractLsb' 21 3 == 0#3) (.mif (w.extractLsb' 18 3) (w.extractLsb' 0 18))
  | 0x9 => unusedZero (w.extractLsb' 18 6 == 0#6) (.melse (w.extractLsb' 0 18))
  | 0xA => unusedZero (w.extractLsb' 0 24 == 0#24) .mend
  | 0xB => unusedZero (w.extractLsb' 21 3 == 0#3) (.mwhile (w.extractLsb' 18 3) (w.extractLsb' 0 18))
  | 0xC => unusedZero (w.extractLsb' 0 24 == 0#24) .exit
  | 0xD => unusedZero (w.extractLsb' 0 24 == 0#24) .nop
  | 0xE => .ok (.wait (w.extractLsb' 20 4) (w.extractLsb' 0 20))
  | _ => .error .reservedCode

/-- Class 0x8: the function code is bits [27:23] (R179, R206). -/
def decodeClass8 (w : W32) : Except DecodeError Instr :=
  match (w.extractLsb' 23 5).toNat with
  | 0x0 => .ok (.ldB8 (w.extractLsb' 16 7) (w.extractLsb' 10 6) (w.extractLsb' 2 8) (w.extractLsb' 0 2))
  | 0x1 => .ok (.ldI8 (w.extractLsb' 16 7) (w.extractLsb' 10 6) (w.extractLsb' 2 8) (w.extractLsb' 0 2))
  | 0x2 => .ok (.ldB16 (w.extractLsb' 16 7) (w.extractLsb' 10 6) (w.extractLsb' 2 8) (w.extractLsb' 0 2))
  | 0x3 => .ok (.ldI16 (w.extractLsb' 16 7) (w.extractLsb' 10 6) (w.extractLsb' 2 8) (w.extractLsb' 0 2))
  | 0x4 => .ok (.ldB32 (w.extractLsb' 16 7) (w.extractLsb' 10 6) (w.extractLsb' 2 8) (w.extractLsb' 0 2))
  | 0x5 => .ok (.ldB64 (w.extractLsb' 16 7) (w.extractLsb' 10 6) (w.extractLsb' 2 8) (w.extractLsb' 0 2))
  | 0x6 => .ok (.ldB128 (w.extractLsb' 16 7) (w.extractLsb' 10 6) (w.extractLsb' 2 8) (w.extractLsb' 0 2))
  | 0x7 => .ok (.stB8 (w.extractLsb' 16 7) (w.extractLsb' 10 6) (w.extractLsb' 2 8) (w.extractLsb' 0 2))
  | 0x8 => .ok (.stB16 (w.extractLsb' 16 7) (w.extractLsb' 10 6) (w.extractLsb' 2 8) (w.extractLsb' 0 2))
  | 0x9 => .ok (.stB32 (w.extractLsb' 16 7) (w.extractLsb' 10 6) (w.extractLsb' 2 8) (w.extractLsb' 0 2))
  | 0xA => .ok (.stB64 (w.extractLsb' 16 7) (w.extractLsb' 10 6) (w.extractLsb' 2 8) (w.extractLsb' 0 2))
  | 0xB => .ok (.stB128 (w.extractLsb' 16 7) (w.extractLsb' 10 6) (w.extractLsb' 2 8) (w.extractLsb' 0 2))
  | 0xC => .ok (.atomAddI32 (w.extractLsb' 16 7) (w.extractLsb' 10 6) (w.extractLsb' 2 8) (w.extractLsb' 0 2))
  | 0xD => .ok (.atomAddI64 (w.extractLsb' 16 7) (w.extractLsb' 10 6) (w.extractLsb' 2 8) (w.extractLsb' 0 2))
  | 0xE => .ok (.atomAddF32 (w.extractLsb' 16 7) (w.extractLsb' 10 6) (w.extractLsb' 2 8) (w.extractLsb' 0 2))
  | 0xF => .ok (.atomMinI32 (w.extractLsb' 16 7) (w.extractLsb' 10 6) (w.extractLsb' 2 8) (w.extractLsb' 0 2))
  | 0x10 => .ok (.atomMaxI32 (w.extractLsb' 16 7) (w.extractLsb' 10 6) (w.extractLsb' 2 8) (w.extractLsb' 0 2))
  | 0x11 => .ok (.atomMinN32 (w.extractLsb' 16 7) (w.extractLsb' 10 6) (w.extractLsb' 2 8) (w.extractLsb' 0 2))
  | 0x12 => .ok (.atomMaxN32 (w.extractLsb' 16 7) (w.extractLsb' 10 6) (w.extractLsb' 2 8) (w.extractLsb' 0 2))
  | 0x13 => .ok (.atomAndB32 (w.extractLsb' 16 7) (w.extractLsb' 10 6) (w.extractLsb' 2 8) (w.extractLsb' 0 2))
  | 0x14 => .ok (.atomOrB32 (w.extractLsb' 16 7) (w.extractLsb' 10 6) (w.extractLsb' 2 8) (w.extractLsb' 0 2))
  | 0x15 => .ok (.atomXorB32 (w.extractLsb' 16 7) (w.extractLsb' 10 6) (w.extractLsb' 2 8) (w.extractLsb' 0 2))
  | 0x16 => .ok (.atomExchB32 (w.extractLsb' 16 7) (w.extractLsb' 10 6) (w.extractLsb' 2 8) (w.extractLsb' 0 2))
  | 0x17 => .ok (.atomExchB64 (w.extractLsb' 16 7) (w.extractLsb' 10 6) (w.extractLsb' 2 8) (w.extractLsb' 0 2))
  | 0x18 => .ok (.atomCasB32 (w.extractLsb' 16 7) (w.extractLsb' 10 6) (w.extractLsb' 2 8) (w.extractLsb' 0 2))
  | 0x19 => .ok (.atomCasB64 (w.extractLsb' 16 7) (w.extractLsb' 10 6) (w.extractLsb' 2 8) (w.extractLsb' 0 2))
  | 0x1A => .ok (.cstB32 (w.extractLsb' 16 7) (w.extractLsb' 10 6) (w.extractLsb' 2 8) (w.extractLsb' 0 2))
  | 0x1B => unusedZero (w.extractLsb' 22 1 == 0#1) (.ldS64 (w.extractLsb' 16 6) (w.extractLsb' 10 6) (w.extractLsb' 2 8) (w.extractLsb' 0 2))
  | 0x1C => unusedZero (w.extractLsb' 22 1 == 0#1) (.stS64 (w.extractLsb' 16 6) (w.extractLsb' 10 6) (w.extractLsb' 2 8) (w.extractLsb' 0 2))
  | 0x1D => unusedZero (w.extractLsb' 16 7 == 0#7) (.prf (w.extractLsb' 10 6) (w.extractLsb' 2 8) (w.extractLsb' 0 2))
  | _ => .error .reservedCode

/-- Class 0x9: the function code is bits [27:23] (R179, R206). -/
def decodeClass9 (w : W32) : Except DecodeError Instr :=
  match (w.extractLsb' 23 5).toNat with
  | 0x0 => .ok (.ldsB32 (w.extractLsb' 16 7) (w.extractLsb' 10 6) (w.extractLsb' 2 8) (w.extractLsb' 0 2))
  | 0x1 => .ok (.ldsB64 (w.extractLsb' 16 7) (w.extractLsb' 10 6) (w.extractLsb' 2 8) (w.extractLsb' 0 2))
  | 0x2 => .ok (.ldsB128 (w.extractLsb' 16 7) (w.extractLsb' 10 6) (w.extractLsb' 2 8) (w.extractLsb' 0 2))
  | 0x3 => .ok (.stsB32 (w.extractLsb' 16 7) (w.extractLsb' 10 6) (w.extractLsb' 2 8) (w.extractLsb' 0 2))
  | 0x4 => .ok (.stsB64 (w.extractLsb' 16 7) (w.extractLsb' 10 6) (w.extractLsb' 2 8) (w.extractLsb' 0 2))
  | 0x5 => .ok (.stsB128 (w.extractLsb' 16 7) (w.extractLsb' 10 6) (w.extractLsb' 2 8) (w.extractLsb' 0 2))
  | 0x6 => .ok (.ldsB8 (w.extractLsb' 16 7) (w.extractLsb' 10 6) (w.extractLsb' 2 8) (w.extractLsb' 0 2))
  | 0x7 => .ok (.stsB8 (w.extractLsb' 16 7) (w.extractLsb' 10 6) (w.extractLsb' 2 8) (w.extractLsb' 0 2))
  | 0x8 => .ok (.ldsB16 (w.extractLsb' 16 7) (w.extractLsb' 10 6) (w.extractLsb' 2 8) (w.extractLsb' 0 2))
  | 0x9 => .ok (.stsB16 (w.extractLsb' 16 7) (w.extractLsb' 10 6) (w.extractLsb' 2 8) (w.extractLsb' 0 2))
  | 0xA => .ok (.ldnB32 (w.extractLsb' 16 7) (w.extractLsb' 10 6) (w.extractLsb' 2 8) (w.extractLsb' 0 2))
  | 0xB => .ok (.stnB32 (w.extractLsb' 16 7) (w.extractLsb' 10 6) (w.extractLsb' 2 8) (w.extractLsb' 0 2))
  | 0xC => .ok (.atomsAddI32 (w.extractLsb' 16 7) (w.extractLsb' 10 6) (w.extractLsb' 2 8) (w.extractLsb' 0 2))
  | 0xD => .ok (.atomsMinI32 (w.extractLsb' 16 7) (w.extractLsb' 10 6) (w.extractLsb' 2 8) (w.extractLsb' 0 2))
  | 0xE => .ok (.atomsMaxI32 (w.extractLsb' 16 7) (w.extractLsb' 10 6) (w.extractLsb' 2 8) (w.extractLsb' 0 2))
  | 0xF => .ok (.atomsExchB32 (w.extractLsb' 16 7) (w.extractLsb' 10 6) (w.extractLsb' 2 8) (w.extractLsb' 0 2))
  | 0x10 => .ok (.atomsCasB32 (w.extractLsb' 16 7) (w.extractLsb' 10 6) (w.extractLsb' 2 8) (w.extractLsb' 0 2))
  | 0x11 => .ok (.atomnAddI32 (w.extractLsb' 16 7) (w.extractLsb' 10 6) (w.extractLsb' 2 8) (w.extractLsb' 0 2))
  | 0x12 => unusedZero (w.extractLsb' 22 1 == 0#1) (.ldsS64 (w.extractLsb' 16 6) (w.extractLsb' 10 6) (w.extractLsb' 2 8) (w.extractLsb' 0 2))
  | 0x13 => unusedZero (w.extractLsb' 22 1 == 0#1) (.stsS64 (w.extractLsb' 16 6) (w.extractLsb' 10 6) (w.extractLsb' 2 8) (w.extractLsb' 0 2))
  | _ => .error .reservedCode

/-- Class 0xA: the function code is bits [27:22] (R179, R206). -/
def decodeClassA (w : W32) : Except DecodeError Instr :=
  match (w.extractLsb' 22 6).toNat with
  | 0x0 => unusedZero (w.extractLsb' 0 16 == 0#16) (.cpy (w.extractLsb' 16 6))
  | 0x1 => unusedZero (w.extractLsb' 0 16 == 0#16) (.cpyl (w.extractLsb' 16 6))
  | 0x2 => unusedZero (w.extractLsb' 4 12 == 0#12) (.close (w.extractLsb' 16 6) (w.extractLsb' 0 4))
  | 0x3 => unusedZero (w.extractLsb' 4 12 == 0#12) (.waitb (w.extractLsb' 16 6) (w.extractLsb' 0 4))
  | 0x4 => unusedZero (w.extractLsb' 0 10 == 0#10) (.boinit (w.extractLsb' 16 6) (w.extractLsb' 10 6))
  | 0x5 => unusedZero (w.extractLsb' 0 10 == 0#10) (.boexp (w.extractLsb' 16 6) (w.extractLsb' 10 6))
  | 0x6 => unusedZero (w.extractLsb' 0 16 == 0#16) (.boarr (w.extractLsb' 16 6))
  | 0x7 => unusedZero (w.extractLsb' 0 10 == 0#10) (.bowait (w.extractLsb' 16 6) (w.extractLsb' 10 6))
  | 0x8 => unusedZero (w.extractLsb' 0 10 == 0#10) (.discard (w.extractLsb' 16 6) (w.extractLsb' 10 6))
  | 0x9 => unusedZero (w.extractLsb' 0 10 == 0#10) (.flushr (w.extractLsb' 16 6) (w.extractLsb' 10 6))
  | 0xA => unusedZero (w.extractLsb' 0 16 == 0#16) (.coll (w.extractLsb' 16 6))
  | 0xB => unusedZero (w.extractLsb' 0 4 == 0#4) (.lattach (w.extractLsb' 16 6) (w.extractLsb' 10 6) (w.extractLsb' 4 6))
  | 0xC => unusedZero (w.extractLsb' 0 4 == 0#4) (.ldetach (w.extractLsb' 16 6) (w.extractLsb' 10 6) (w.extractLsb' 4 6))
  | 0xD => unusedZero (w.extractLsb' 0 10 == 0#10) (.fold (w.extractLsb' 16 6) (w.extractLsb' 10 6))
  | _ => .error .reservedCode

/-- Class 0xB: the function code is bits [27:22] (R179, R206). -/
noncomputable def decodeClassB (w : W32) : Except DecodeError Instr :=
  match (w.extractLsb' 22 6).toNat with
  | 0x0 => unusedZero (w.extractLsb' 4 12 == 0#12) (.barSync (w.extractLsb' 16 6) (w.extractLsb' 0 4))
  | 0x1 => unusedZero (w.extractLsb' 4 12 == 0#12) (.barArr (w.extractLsb' 16 6) (w.extractLsb' 0 4))
  | 0x2 => .ok (.barRedAddI32 (w.extractLsb' 16 6) (w.extractLsb' 10 6) (w.extractLsb' 4 6) (w.extractLsb' 0 4))
  | 0x3 => .ok (.barRedAddF32 (w.extractLsb' 16 6) (w.extractLsb' 10 6) (w.extractLsb' 4 6) (w.extractLsb' 0 4))
  | 0x4 => .ok (.barRedMaxI32 (w.extractLsb' 16 6) (w.extractLsb' 10 6) (w.extractLsb' 4 6) (w.extractLsb' 0 4))
  | 0x5 => .ok (.barRedMinI32 (w.extractLsb' 16 6) (w.extractLsb' 10 6) (w.extractLsb' 4 6) (w.extractLsb' 0 4))
  | 0x6 => .ok (.barRedAnd (w.extractLsb' 16 6) (w.extractLsb' 10 6) (w.extractLsb' 4 6) (w.extractLsb' 0 4))
  | 0x7 => .ok (.barRedOr (w.extractLsb' 16 6) (w.extractLsb' 10 6) (w.extractLsb' 4 6) (w.extractLsb' 0 4))
  | 0x8 => unusedZero (w.extractLsb' 4 18 == 0#18) (.fence (w.extractLsb' 0 4))
  | 0x9 => unusedZero (w.extractLsb' 0 4 == 0#4) (.msend (w.extractLsb' 16 6) (w.extractLsb' 10 6) (w.extractLsb' 4 6))
  | 0xA => unusedZero (w.extractLsb' 0 4 == 0#4) (.wring (w.extractLsb' 16 6) (w.extractLsb' 10 6) (w.extractLsb' 4 6))
  | 0xB => unusedZero (w.extractLsb' 4 18 == 0#18) (.tktTake (w.extractLsb' 0 4))
  | 0xC => unusedZero (w.extractLsb' 4 18 == 0#18) (.tktSkip (w.extractLsb' 0 4))
  | 0xD => unusedZero (w.extractLsb' 0 4 == 0#4) (.atomoAddF32 (w.extractLsb' 16 6) (w.extractLsb' 10 6) (w.extractLsb' 4 6))
  | 0xE => unusedZero (w.extractLsb' 0 4 == 0#4) (.atomoAddI64 (w.extractLsb' 16 6) (w.extractLsb' 10 6) (w.extractLsb' 4 6))
  | 0xF => unusedZero (w.extractLsb' 0 4 == 0#4) (.vstVer (w.extractLsb' 16 6) (w.extractLsb' 10 6) (w.extractLsb' 4 6))
  | 0x10 => unusedZero (w.extractLsb' 0 4 == 0#4) (.ldVer (w.extractLsb' 16 6) (w.extractLsb' 10 6) (w.extractLsb' 4 6))
  | _ => .error .reservedCode

/-- Class 0xC: the function code is bits [27:22] (R179, R206). -/
noncomputable def decodeClassC (w : W32) : Except DecodeError Instr :=
  match (w.extractLsb' 22 6).toNat with
  | 0x0 => unusedZero (w.extractLsb' 0 4 == 0#4) (.obres (w.extractLsb' 16 6) (w.extractLsb' 10 6) (w.extractLsb' 4 6))
  | 0x1 => unusedZero (w.extractLsb' 0 16 == 0#16) (.obrel (w.extractLsb' 16 6))
  | 0x2 => unusedZero (w.extractLsb' 0 4 == 0#4) (.mfetcha (w.extractLsb' 16 6) (w.extractLsb' 10 6) (w.extractLsb' 4 6))
  | 0x3 => unusedZero (w.extractLsb' 0 4 == 0#4) (.mloadb (w.extractLsb' 16 6) (w.extractLsb' 10 6) (w.extractLsb' 4 6))
  | 0x4 => unusedZero (w.extractLsb' 2 8 == 0#8) (.mmaD (w.extractLsb' 16 6) (w.extractLsb' 10 6) (w.extractLsb' 0 2))
  | 0x5 => unusedZero (w.extractLsb' 2 8 == 0#8) (.mmaB (w.extractLsb' 16 6) (w.extractLsb' 10 6) (w.extractLsb' 0 2))
  | 0x6 => unusedZero (w.extractLsb' 2 20 == 0#20) (.mzero (w.extractLsb' 0 2))
  | 0x7 => unusedZero (w.extractLsb' 2 2 == 0#2) (.mstore (w.extractLsb' 16 6) (w.extractLsb' 10 6) (w.extractLsb' 4 6) (w.extractLsb' 0 2))
  | _ => .error .reservedCode

/-- Class 0xD: the function code is bits [27:22] (R179, R206). -/
noncomputable def decodeClassD (w : W32) : Except DecodeError Instr :=
  match (w.extractLsb' 22 6).toNat with
  | 0x0 => unusedZero (w.extractLsb' 0 10 == 0#10) (.spawn (w.extractLsb' 16 6) (w.extractLsb' 10 6))
  | 0x1 => unusedZero (w.extractLsb' 0 4 == 0#4) (.spawnq (w.extractLsb' 16 6) (w.extractLsb' 10 6) (w.extractLsb' 4 6))
  | 0x2 => unusedZero (w.extractLsb' 0 4 == 0#4) (.qpop (w.extractLsb' 16 6) (w.extractLsb' 10 6) (w.extractLsb' 4 6))
  | 0x3 => unusedZero (w.extractLsb' 0 10 == 0#10) (.join (w.extractLsb' 16 6) (w.extractLsb' 10 6))
  | 0x4 => unusedZero (w.extractLsb' 0 4 == 0#4) (.topup (w.extractLsb' 16 6) (w.extractLsb' 10 6) (w.extractLsb' 4 6))
  | 0x5 => .ok (.tstat (w.extractLsb' 16 6) (w.extractLsb' 10 6) (w.extractLsb' 4 6) (w.extractLsb' 0 4))
  | 0x6 => unusedZero (w.extractLsb' 0 16 == 0#16) (.resw (w.extractLsb' 16 6))
  | 0x7 => unusedZero (w.extractLsb' 0 22 == 0#22) .phend
  | _ => .error .reservedCode

/-- Class 0xE: the function code is bits [27:22] (R179, R206). -/
noncomputable def decodeClassE (w : W32) : Except DecodeError Instr :=
  match (w.extractLsb' 22 6).toNat with
  | 0x0 => unusedZero (w.extractLsb' 0 4 == 0#4) (.srd (w.extractLsb' 16 6) (w.extractLsb' 4 12))
  | 0x1 => unusedZero (w.extractLsb' 0 4 == 0#4) (.swr (w.extractLsb' 16 6) (w.extractLsb' 4 12))
  | 0x2 => unusedZero (w.extractLsb' 16 6 == 0#6) (.trap (w.extractLsb' 0 16))
  | 0x3 => unusedZero (w.extractLsb' 0 22 == 0#22) .tret
  | 0x4 => unusedZero (w.extractLsb' 0 16 == 0#16) (.tclr (w.extractLsb' 16 6))
  | 0x5 => unusedZero (w.extractLsb' 16 6 == 0#6) (.brk (w.extractLsb' 0 16))
  | 0x6 => unusedZero (w.extractLsb' 0 16 == 0#16) (.jmark (w.extractLsb' 16 6))
  | 0x7 => unusedZero (w.extractLsb' 0 16 == 0#16) (.ovld (w.extractLsb' 16 6))
  | 0x8 => unusedZero (w.extractLsb' 0 16 == 0#16) (.ovcall (w.extractLsb' 16 6))
  | 0x9 => unusedZero (w.extractLsb' 0 16 == 0#16) (.ovret (w.extractLsb' 16 6))
  | 0xA => unusedZero (w.extractLsb' 0 16 == 0#16) (.pwrq (w.extractLsb' 16 6))
  | 0xB => unusedZero (w.extractLsb' 0 10 == 0#10) (.cres (w.extractLsb' 16 6) (w.extractLsb' 10 6))
  | 0xC => unusedZero (w.extractLsb' 0 22 == 0#22) .crel
  | _ => .error .reservedCode

/-- Class 0xF: the function code is bits [27:26] (R179, R206). -/
noncomputable def decodeClassF (w : W32) : Except DecodeError Instr :=
  match (w.extractLsb' 26 2).toNat with
  | 0x0 => .ok (.hintImm (w.extractLsb' 0 26))
  | 0x1 => .ok (.hintSched (w.extractLsb' 20 6) (w.extractLsb' 19 1) (w.extractLsb' 0 19))
  | 0x2 => .ok (.hintMod (w.extractLsb' 24 2) (w.extractLsb' 23 1) (w.extractLsb' 22 1) (w.extractLsb' 21 1) (w.extractLsb' 20 1) (w.extractLsb' 19 1) (w.extractLsb' 18 1) (w.extractLsb' 15 3) (w.extractLsb' 14 1) (w.extractLsb' 11 3) (w.extractLsb' 8 3) (w.extractLsb' 0 8))
  | _ => .error .reservedCode

/-- The decoder: the instruction a word stands for, or why it is none (R179, R180, R206). -/
noncomputable def decode (w : W32) : Except DecodeError Instr :=
  if w = 0 then .error .zeroWord
  else match (w.extractLsb' 28 4).toNat with
  | 0x0 => decodeClass0 w
  | 0x1 => decodeClass1 w
  | 0x2 => decodeClass2 w
  | 0x3 => decodeClass3 w
  | 0x4 => decodeClass4 w
  | 0x5 => decodeClass5 w
  | 0x6 => decodeClass6 w
  | 0x7 => decodeClass7 w
  | 0x8 => decodeClass8 w
  | 0x9 => decodeClass9 w
  | 0xA => decodeClassA w
  | 0xB => decodeClassB w
  | 0xC => decodeClassC w
  | 0xD => decodeClassD w
  | 0xE => decodeClassE w
  | 0xF => decodeClassF w
  | _ => .error .reservedCode

/-! Bits without a use -/

/-- The bits of a word that a listed instruction does not use (R180, R206), by class and function code; none for others. -/
def unusedMask (w : W32) : W32 :=
  let f5 := (w.extractLsb' 23 5).toNat
  let f6 := (w.extractLsb' 22 6).toNat
  match (w.extractLsb' 28 4).toNat with
  | 0x0 => if f5 = 0x19 then 0xFF else 0
  | 0x1 => if 0x15 ≤ f5 && f5 ≤ 0x17 then 0xFF else 0
  | 0x2 =>
    if f5 = 0x03 then 0x7800FF
    else if f5 = 0x0E then 0x4000FF
    else if f5 = 0x0F || f5 = 0x10 then 0xF8
    else if f5 = 0x11 then 0xFFFF
    else if f5 = 0x01 || f5 = 0x02 || (0x08 ≤ f5 && f5 ≤ 0x0D) then 0xFF else 0
  | 0x3 => if f5 = 0x04 then 0xFF else if f5 = 0x05 then 0x780000 else 0
  | 0x4 => if f5 ≤ 0x0C then 0xFF else 0
  | 0x5 =>
    if f6 ≤ 0x16 then 0xF
    else if f6 ≤ 0x1C then 0x3FF
    else if 0x20 ≤ f6 && f6 ≤ 0x23 then 0x38E38F
    else if f6 = 0x24 then 0x38E3FF
    else if 0x25 ≤ f6 && f6 ≤ 0x27 then 0xE3FF
    else if f6 = 0x28 then 0x3803FF
    else if f6 = 0x29 then 0xFFFF
    else if f6 = 0x2A then 0x3F03FF else 0
  | 0x6 => if f6 = 0x0A then 0xFC00 else 0
  | 0x7 =>
    match (w.extractLsb' 24 4).toNat with
    | 0x3 | 0x4 | 0x8 | 0xB => 0xE00000
    | 0x6 => 0x3FFFF
    | 0x9 => 0xFC0000
    | 0xA | 0xC | 0xD => 0xFFFFFF
    | _ => 0
  | 0x8 => if f5 = 0x1B || f5 = 0x1C then 0x400000 else if f5 = 0x1D then 0x7F0000 else 0
  | 0x9 => if f5 = 0x12 || f5 = 0x13 then 0x400000 else 0
  | 0xA =>
    match f6 with
    | 0x0 | 0x1 | 0x6 | 0xA => 0xFFFF
    | 0x2 | 0x3 => 0xFFF0
    | 0x4 | 0x5 | 0x7 | 0x8 | 0x9 | 0xD => 0x3FF
    | 0xB | 0xC => 0xF
    | _ => 0
  | 0xB =>
    match f6 with
    | 0x0 | 0x1 => 0xFFF0
    | 0x8 | 0xB | 0xC => 0x3FFFF0
    | 0x9 | 0xA | 0xD | 0xE | 0xF | 0x10 => 0xF
    | _ => 0
  | 0xC =>
    match f6 with
    | 0x0 | 0x2 | 0x3 => 0xF
    | 0x1 => 0xFFFF
    | 0x4 | 0x5 => 0x3FC
    | 0x6 => 0x3FFFFC
    | 0x7 => 0xC
    | _ => 0
  | 0xD =>
    match f6 with
    | 0x0 | 0x3 => 0x3FF
    | 0x1 | 0x2 | 0x4 => 0xF
    | 0x6 => 0xFFFF
    | 0x7 => 0x3FFFFF
    | _ => 0
  | 0xE =>
    match f6 with
    | 0x0 | 0x1 => 0xF
    | 0x2 | 0x5 => 0x3F0000
    | 0x3 | 0xC => 0x3FFFFF
    | 0x4 | 0x6 | 0x7 | 0x8 | 0x9 | 0xA => 0xFFFF
    | 0xB => 0x3FF
    | _ => 0
  | _ => 0

/-- A word of a listed instruction with a field that is not zero where the instruction uses none. -/
def unusedSet (w : W32) : Bool := w &&& unusedMask w != 0#32

/-- The instruction whose checks a word meets: a field without a use that is not zero is one cause beside the others of the
unit (R180, R187, R208). -/
noncomputable def decodeChecked (w : W32) : Except DecodeError Instr :=
  match decode w with
  | .error .unusedField => decode (w &&& ~~~unusedMask w)
  | r => r

/-- The instruction of a table word: the hardware's words are 32 bits, the first byte lowest (R3, R179), so the word's
bits are the table's bits. -/
noncomputable def decodeTableWord (nbits w : Nat) : Option Instr :=
  match decode (BitVec.ofNat 32 (w % 2 ^ nbits)) with
  | .ok i => some i
  | .error _ => none

/-- The layout of V words (R179). -/
def layoutV (cls : BitVec 4) (fn : BitVec 5) (vd : BitVec 7) (sa : BitVec 8) (sb : BitVec 8) : W32 :=
  cls ++ fn ++ vd ++ sa ++ sb

/-- The layout of S-reg words (R179). -/
def layoutS (cls : BitVec 4) (fn : BitVec 6) (sd : BitVec 6) (sa : BitVec 6) (sb : BitVec 6) (sh : BitVec 4) : W32 :=
  cls ++ fn ++ sd ++ sa ++ sb ++ sh

/-- The layout of S-imm words (R179). -/
def layoutI (cls : BitVec 4) (fn : BitVec 6) (sd : BitVec 6) (sa : BitVec 6) (imm : BitVec 10) : W32 :=
  cls ++ fn ++ sd ++ sa ++ imm

/-- The layout of C words (R179). -/
def layoutC (cls : BitVec 4) (fn : BitVec 4) (reg : BitVec 6) (off : BitVec 18) : W32 :=
  cls ++ fn ++ reg ++ off

/-- The layout of br and call (R179). -/
def layoutC24 (cls : BitVec 4) (fn : BitVec 4) (off : BitVec 24) : W32 :=
  cls ++ fn ++ off

/-- The layout of the wait word (R179). -/
def layoutW (cls : BitVec 4) (fn : BitVec 4) (sel : BitVec 4) (n : BitVec 20) : W32 :=
  cls ++ fn ++ sel ++ n

/-- The layout of M words (R179). -/
def layoutM (cls : BitVec 4) (fn : BitVec 5) (vd : BitVec 7) (sb : BitVec 6) (vo : BitVec 8) (ord : BitVec 2) : W32 :=
  cls ++ fn ++ vd ++ sb ++ vo ++ ord

/-- The layout of A words (R179). -/
def layoutA (cls : BitVec 4) (fn : BitVec 6) (x : BitVec 6) (y : BitVec 6) (z : BitVec 6) (sub : BitVec 4) : W32 :=
  cls ++ fn ++ x ++ y ++ z ++ sub

/-- The layout of srd and swr (R179). -/
def layoutR (cls : BitVec 4) (fn : BitVec 6) (x : BitVec 6) (reg : BitVec 12) (sub : BitVec 4) : W32 :=
  cls ++ fn ++ x ++ reg ++ sub

/-- The layout of trap and brk (R179). -/
def layoutN (cls : BitVec 4) (fn : BitVec 6) (x : BitVec 6) (n : BitVec 16) : W32 :=
  cls ++ fn ++ x ++ n

/-- The layout of hint.imm (R179). -/
def layoutH (cls : BitVec 4) (kind : BitVec 2) (p : BitVec 26) : W32 :=
  cls ++ kind ++ p

/-- The layout of hint.sched (R179). -/
def layoutJ (cls : BitVec 4) (kind : BitVec 2) (stall : BitVec 6) (yld : BitVec 1) (rsv : BitVec 19) : W32 :=
  cls ++ kind ++ stall ++ yld ++ rsv

/-- The layout of hint.mod (R179). -/
def layoutK (cls : BitVec 4) (kind rnd : BitVec 2) (sat nega negb absa absb odst : BitVec 1) (oidx : BitVec 3)
    (ef : BitVec 1) (qidx scope : BitVec 3) (rsv : BitVec 8) : W32 :=
  cls ++ kind ++ rnd ++ sat ++ nega ++ negb ++ absa ++ absb ++ odst ++ oidx ++ ef ++ qidx ++ scope ++ rsv

/-- The word of an instruction; none for an event. -/
def encode : Instr → Option W32
  | .vaddF32 vd sa sb => some (layoutV 0x0#4 0x0#5 vd sa sb)
  | .vsubF32 vd sa sb => some (layoutV 0x0#4 0x1#5 vd sa sb)
  | .vmulF32 vd sa sb => some (layoutV 0x0#4 0x2#5 vd sa sb)
  | .vfmaF32 vd sa sb => some (layoutV 0x0#4 0x3#5 vd sa sb)
  | .vminF32 vd sa sb => some (layoutV 0x0#4 0x4#5 vd sa sb)
  | .vmaxF32 vd sa sb => some (layoutV 0x0#4 0x5#5 vd sa sb)
  | .vaddF16x2 vd sa sb => some (layoutV 0x0#4 0x6#5 vd sa sb)
  | .vsubF16x2 vd sa sb => some (layoutV 0x0#4 0x7#5 vd sa sb)
  | .vmulF16x2 vd sa sb => some (layoutV 0x0#4 0x8#5 vd sa sb)
  | .vfmaF16x2 vd sa sb => some (layoutV 0x0#4 0x9#5 vd sa sb)
  | .vminF16x2 vd sa sb => some (layoutV 0x0#4 0xA#5 vd sa sb)
  | .vmaxF16x2 vd sa sb => some (layoutV 0x0#4 0xB#5 vd sa sb)
  | .vaddB16x2 vd sa sb => some (layoutV 0x0#4 0xC#5 vd sa sb)
  | .vsubB16x2 vd sa sb => some (layoutV 0x0#4 0xD#5 vd sa sb)
  | .vmulB16x2 vd sa sb => some (layoutV 0x0#4 0xE#5 vd sa sb)
  | .vfmaB16x2 vd sa sb => some (layoutV 0x0#4 0xF#5 vd sa sb)
  | .vaddF64 vd sa sb => some (layoutV 0x0#4 0x10#5 vd sa sb)
  | .vsubF64 vd sa sb => some (layoutV 0x0#4 0x11#5 vd sa sb)
  | .vmulF64 vd sa sb => some (layoutV 0x0#4 0x12#5 vd sa sb)
  | .vfmaF64 vd sa sb => some (layoutV 0x0#4 0x13#5 vd sa sb)
  | .vminF64 vd sa sb => some (layoutV 0x0#4 0x14#5 vd sa sb)
  | .vmaxF64 vd sa sb => some (layoutV 0x0#4 0x15#5 vd sa sb)
  | .vdot2F16x2 vd sa sb => some (layoutV 0x0#4 0x16#5 vd sa sb)
  | .vdot2B16x2 vd sa sb => some (layoutV 0x0#4 0x17#5 vd sa sb)
  | .vdot4K8 vd sa sb => some (layoutV 0x0#4 0x18#5 vd sa sb)
  | .vfracF32 vd sa => some (layoutV 0x0#4 0x19#5 vd sa 0#8)
  | .vaddI32 vd sa sb => some (layoutV 0x1#4 0x0#5 vd sa sb)
  | .vsubI32 vd sa sb => some (layoutV 0x1#4 0x1#5 vd sa sb)
  | .vmulI32 vd sa sb => some (layoutV 0x1#4 0x2#5 vd sa sb)
  | .vmadI32 vd sa sb => some (layoutV 0x1#4 0x3#5 vd sa sb)
  | .vmulhiI32 vd sa sb => some (layoutV 0x1#4 0x4#5 vd sa sb)
  | .vmulhiN32 vd sa sb => some (layoutV 0x1#4 0x5#5 vd sa sb)
  | .vminI32 vd sa sb => some (layoutV 0x1#4 0x6#5 vd sa sb)
  | .vmaxI32 vd sa sb => some (layoutV 0x1#4 0x7#5 vd sa sb)
  | .vminN32 vd sa sb => some (layoutV 0x1#4 0x8#5 vd sa sb)
  | .vmaxN32 vd sa sb => some (layoutV 0x1#4 0x9#5 vd sa sb)
  | .vaddsI32 vd sa sb => some (layoutV 0x1#4 0xA#5 vd sa sb)
  | .vsubsI32 vd sa sb => some (layoutV 0x1#4 0xB#5 vd sa sb)
  | .vaddsN32 vd sa sb => some (layoutV 0x1#4 0xC#5 vd sa sb)
  | .vsubsN32 vd sa sb => some (layoutV 0x1#4 0xD#5 vd sa sb)
  | .vand vd sa sb => some (layoutV 0x1#4 0xE#5 vd sa sb)
  | .vor vd sa sb => some (layoutV 0x1#4 0xF#5 vd sa sb)
  | .vxor vd sa sb => some (layoutV 0x1#4 0x10#5 vd sa sb)
  | .vandn vd sa sb => some (layoutV 0x1#4 0x11#5 vd sa sb)
  | .vshl vd sa sb => some (layoutV 0x1#4 0x12#5 vd sa sb)
  | .vshr vd sa sb => some (layoutV 0x1#4 0x13#5 vd sa sb)
  | .vsar vd sa sb => some (layoutV 0x1#4 0x14#5 vd sa sb)
  | .vpopc vd sa => some (layoutV 0x1#4 0x15#5 vd sa 0#8)
  | .vclz vd sa => some (layoutV 0x1#4 0x16#5 vd sa 0#8)
  | .vbrev vd sa => some (layoutV 0x1#4 0x17#5 vd sa 0#8)
  | .vbfx vd sa sb => some (layoutV 0x1#4 0x18#5 vd sa sb)
  | .vbfi vd sa sb => some (layoutV 0x1#4 0x19#5 vd sa sb)
  | .vaddI16x2 vd sa sb => some (layoutV 0x1#4 0x1A#5 vd sa sb)
  | .vsubI16x2 vd sa sb => some (layoutV 0x1#4 0x1B#5 vd sa sb)
  | .vdot4I8 vd sa sb => some (layoutV 0x1#4 0x1C#5 vd sa sb)
  | .vdot4N8 vd sa sb => some (layoutV 0x1#4 0x1D#5 vd sa sb)
  | .vcvt vd sa dt st => some (layoutV 0x2#4 0x0#5 vd sa (dt ++ st))
  | .vrndF32 vd sa => some (layoutV 0x2#4 0x1#5 vd sa 0#8)
  | .vmov vd sa => some (layoutV 0x2#4 0x2#5 vd sa 0#8)
  | .vmovo on sa => some (layoutV 0x2#4 0x3#5 (0#4 ++ on) sa 0#8)
  | .vlane vd sa sb => some (layoutV 0x2#4 0x4#5 vd sa sb)
  | .vxswap vd sa sb => some (layoutV 0x2#4 0x5#5 vd sa sb)
  | .vup vd sa sb => some (layoutV 0x2#4 0x6#5 vd sa sb)
  | .vdown vd sa sb => some (layoutV 0x2#4 0x7#5 vd sa sb)
  | .vscanI32 vd sa => some (layoutV 0x2#4 0x8#5 vd sa 0#8)
  | .vscanF32 vd sa => some (layoutV 0x2#4 0x9#5 vd sa 0#8)
  | .vredAddI32 vd sa => some (layoutV 0x2#4 0xA#5 vd sa 0#8)
  | .vredAddF32 vd sa => some (layoutV 0x2#4 0xB#5 vd sa 0#8)
  | .vredMaxF32 vd sa => some (layoutV 0x2#4 0xC#5 vd sa 0#8)
  | .vredMinF32 vd sa => some (layoutV 0x2#4 0xD#5 vd sa 0#8)
  | .vballot sd sa => some (layoutV 0x2#4 0xE#5 (0#1 ++ sd) sa 0#8)
  | .vcompress vd sa k => some (layoutV 0x2#4 0xF#5 vd sa (0#5 ++ k))
  | .vexpand vd sa k => some (layoutV 0x2#4 0x10#5 vd sa (0#5 ++ k))
  | .vlaneid vd => some (layoutV 0x2#4 0x11#5 vd 0#8 0#8)
  | .vpack vd sa sb => some (layoutV 0x2#4 0x12#5 vd sa sb)
  | .vcmpF32 cc k sa sb => some (layoutV 0x3#4 0x0#5 (cc ++ k) sa sb)
  | .vcmpF64 cc k sa sb => some (layoutV 0x3#4 0x1#5 (cc ++ k) sa sb)
  | .vcmpI32 cc k sa sb => some (layoutV 0x3#4 0x2#5 (cc ++ k) sa sb)
  | .vcmpN32 cc k sa sb => some (layoutV 0x3#4 0x3#5 (cc ++ k) sa sb)
  | .vclsF32 vd sa => some (layoutV 0x3#4 0x4#5 vd sa 0#8)
  | .vtest k sa sb => some (layoutV 0x3#4 0x5#5 (0#4 ++ k) sa sb)
  | .vselK0 vd sa sb => some (layoutV 0x3#4 0x8#5 vd sa sb)
  | .vselK1 vd sa sb => some (layoutV 0x3#4 0x9#5 vd sa sb)
  | .vselK2 vd sa sb => some (layoutV 0x3#4 0xA#5 vd sa sb)
  | .vselK3 vd sa sb => some (layoutV 0x3#4 0xB#5 vd sa sb)
  | .vselK4 vd sa sb => some (layoutV 0x3#4 0xC#5 vd sa sb)
  | .vselK5 vd sa sb => some (layoutV 0x3#4 0xD#5 vd sa sb)
  | .vselK6 vd sa sb => some (layoutV 0x3#4 0xE#5 vd sa sb)
  | .vselK7 vd sa sb => some (layoutV 0x3#4 0xF#5 vd sa sb)
  | .frcpF32 vd sa => some (layoutV 0x4#4 0x0#5 vd sa 0#8)
  | .frsqF32 vd sa => some (layoutV 0x4#4 0x1#5 vd sa 0#8)
  | .fsqrtF32 vd sa => some (layoutV 0x4#4 0x2#5 vd sa 0#8)
  | .fexp2F32 vd sa => some (layoutV 0x4#4 0x3#5 vd sa 0#8)
  | .flog2F32 vd sa => some (layoutV 0x4#4 0x4#5 vd sa 0#8)
  | .fsinpF32 vd sa => some (layoutV 0x4#4 0x5#5 vd sa 0#8)
  | .fcospF32 vd sa => some (layoutV 0x4#4 0x6#5 vd sa 0#8)
  | .ftanhF32 vd sa => some (layoutV 0x4#4 0x7#5 vd sa 0#8)
  | .fsigmF32 vd sa => some (layoutV 0x4#4 0x8#5 vd sa 0#8)
  | .frcpF64 vd sa => some (layoutV 0x4#4 0x9#5 vd sa 0#8)
  | .frsqF64 vd sa => some (layoutV 0x4#4 0xA#5 vd sa 0#8)
  | .fexp2F16x2 vd sa => some (layoutV 0x4#4 0xB#5 vd sa 0#8)
  | .ftanhF16x2 vd sa => some (layoutV 0x4#4 0xC#5 vd sa 0#8)
  | .add d a b => some (layoutS 0x5#4 0x0#6 d a b 0#4)
  | .sub d a b => some (layoutS 0x5#4 0x1#6 d a b 0#4)
  | .mul d a b => some (layoutS 0x5#4 0x2#6 d a b 0#4)
  | .mulhiI d a b => some (layoutS 0x5#4 0x3#6 d a b 0#4)
  | .mulhiN d a b => some (layoutS 0x5#4 0x4#6 d a b 0#4)
  | .divI d a b => some (layoutS 0x5#4 0x5#6 d a b 0#4)
  | .divN d a b => some (layoutS 0x5#4 0x6#6 d a b 0#4)
  | .remI d a b => some (layoutS 0x5#4 0x7#6 d a b 0#4)
  | .remN d a b => some (layoutS 0x5#4 0x8#6 d a b 0#4)
  | .and d a b => some (layoutS 0x5#4 0x9#6 d a b 0#4)
  | .or d a b => some (layoutS 0x5#4 0xA#6 d a b 0#4)
  | .xor d a b => some (layoutS 0x5#4 0xB#6 d a b 0#4)
  | .andn d a b => some (layoutS 0x5#4 0xC#6 d a b 0#4)
  | .shl d a b => some (layoutS 0x5#4 0xD#6 d a b 0#4)
  | .shr d a b => some (layoutS 0x5#4 0xE#6 d a b 0#4)
  | .sar d a b => some (layoutS 0x5#4 0xF#6 d a b 0#4)
  | .minI d a b => some (layoutS 0x5#4 0x10#6 d a b 0#4)
  | .maxI d a b => some (layoutS 0x5#4 0x11#6 d a b 0#4)
  | .minN d a b => some (layoutS 0x5#4 0x12#6 d a b 0#4)
  | .maxN d a b => some (layoutS 0x5#4 0x13#6 d a b 0#4)
  | .sltI d a b => some (layoutS 0x5#4 0x14#6 d a b 0#4)
  | .sltN d a b => some (layoutS 0x5#4 0x15#6 d a b 0#4)
  | .seq d a b => some (layoutS 0x5#4 0x16#6 d a b 0#4)
  | .mov d a => some (layoutS 0x5#4 0x17#6 d a 0#6 0#4)
  | .clz d a => some (layoutS 0x5#4 0x18#6 d a 0#6 0#4)
  | .popc d a => some (layoutS 0x5#4 0x19#6 d a 0#6 0#4)
  | .brev d a => some (layoutS 0x5#4 0x1A#6 d a 0#6 0#4)
  | .sext32 d a => some (layoutS 0x5#4 0x1B#6 d a 0#6 0#4)
  | .zext32 d a => some (layoutS 0x5#4 0x1C#6 d a 0#6 0#4)
  | .lea d a b sh => some (layoutS 0x5#4 0x1D#6 d a b sh)
  | .kand d a b => some (layoutS 0x5#4 0x20#6 (0#3 ++ d) (0#3 ++ a) (0#3 ++ b) 0#4)
  | .kor d a b => some (layoutS 0x5#4 0x21#6 (0#3 ++ d) (0#3 ++ a) (0#3 ++ b) 0#4)
  | .kxor d a b => some (layoutS 0x5#4 0x22#6 (0#3 ++ d) (0#3 ++ a) (0#3 ++ b) 0#4)
  | .kandn d a b => some (layoutS 0x5#4 0x23#6 (0#3 ++ d) (0#3 ++ a) (0#3 ++ b) 0#4)
  | .knot d a => some (layoutS 0x5#4 0x24#6 (0#3 ++ d) (0#3 ++ a) 0#6 0#4)
  | .kpopc d a => some (layoutS 0x5#4 0x25#6 d (0#3 ++ a) 0#6 0#4)
  | .kffs d a => some (layoutS 0x5#4 0x26#6 d (0#3 ++ a) 0#6 0#4)
  | .ktos d a => some (layoutS 0x5#4 0x27#6 d (0#3 ++ a) 0#6 0#4)
  | .stok d a => some (layoutS 0x5#4 0x28#6 (0#3 ++ d) a 0#6 0#4)
  | .exmrd d => some (layoutS 0x5#4 0x29#6 d 0#6 0#6 0#4)
  | .exmwr a => some (layoutS 0x5#4 0x2A#6 0#6 a 0#6 0#4)
  | .addi d a imm => some (layoutI 0x6#4 0x0#6 d a imm)
  | .andi d a imm => some (layoutI 0x6#4 0x1#6 d a imm)
  | .ori d a imm => some (layoutI 0x6#4 0x2#6 d a imm)
  | .xori d a imm => some (layoutI 0x6#4 0x3#6 d a imm)
  | .shli d a imm => some (layoutI 0x6#4 0x4#6 d a imm)
  | .shri d a imm => some (layoutI 0x6#4 0x5#6 d a imm)
  | .sari d a imm => some (layoutI 0x6#4 0x6#6 d a imm)
  | .sltiI d a imm => some (layoutI 0x6#4 0x7#6 d a imm)
  | .sltiN d a imm => some (layoutI 0x6#4 0x8#6 d a imm)
  | .seqi d a imm => some (layoutI 0x6#4 0x9#6 d a imm)
  | .li d imm => some (layoutI 0x6#4 0xA#6 d 0#6 imm)
  | .muli d a imm => some (layoutI 0x6#4 0xB#6 d a imm)
  | .br off => some (layoutC24 0x7#4 0x0#4 off)
  | .brz r off => some (layoutC 0x7#4 0x1#4 r off)
  | .brnz r off => some (layoutC 0x7#4 0x2#4 r off)
  | .brany k off => some (layoutC 0x7#4 0x3#4 (0#3 ++ k) off)
  | .brall k off => some (layoutC 0x7#4 0x4#4 (0#3 ++ k) off)
  | .call off => some (layoutC24 0x7#4 0x5#4 off)
  | .ret r => some (layoutC 0x7#4 0x6#4 r 0#18)
  | .brx r off => some (layoutC 0x7#4 0x7#4 r off)
  | .mif k off => some (layoutC 0x7#4 0x8#4 (0#3 ++ k) off)
  | .melse off => some (layoutC 0x7#4 0x9#4 0#6 off)
  | .mend => some (layoutC 0x7#4 0xA#4 0#6 0#18)
  | .mwhile k off => some (layoutC 0x7#4 0xB#4 (0#3 ++ k) off)
  | .exit => some (layoutC 0x7#4 0xC#4 0#6 0#18)
  | .nop => some (layoutC 0x7#4 0xD#4 0#6 0#18)
  | .wait sel n => some (layoutW 0x7#4 0xE#4 sel n)
  | .ldB8 vd sb vo ord => some (layoutM 0x8#4 0x0#5 vd sb vo ord)
  | .ldI8 vd sb vo ord => some (layoutM 0x8#4 0x1#5 vd sb vo ord)
  | .ldB16 vd sb vo ord => some (layoutM 0x8#4 0x2#5 vd sb vo ord)
  | .ldI16 vd sb vo ord => some (layoutM 0x8#4 0x3#5 vd sb vo ord)
  | .ldB32 vd sb vo ord => some (layoutM 0x8#4 0x4#5 vd sb vo ord)
  | .ldB64 vd sb vo ord => some (layoutM 0x8#4 0x5#5 vd sb vo ord)
  | .ldB128 vd sb vo ord => some (layoutM 0x8#4 0x6#5 vd sb vo ord)
  | .stB8 vd sb vo ord => some (layoutM 0x8#4 0x7#5 vd sb vo ord)
  | .stB16 vd sb vo ord => some (layoutM 0x8#4 0x8#5 vd sb vo ord)
  | .stB32 vd sb vo ord => some (layoutM 0x8#4 0x9#5 vd sb vo ord)
  | .stB64 vd sb vo ord => some (layoutM 0x8#4 0xA#5 vd sb vo ord)
  | .stB128 vd sb vo ord => some (layoutM 0x8#4 0xB#5 vd sb vo ord)
  | .atomAddI32 vd sb vo ord => some (layoutM 0x8#4 0xC#5 vd sb vo ord)
  | .atomAddI64 vd sb vo ord => some (layoutM 0x8#4 0xD#5 vd sb vo ord)
  | .atomAddF32 vd sb vo ord => some (layoutM 0x8#4 0xE#5 vd sb vo ord)
  | .atomMinI32 vd sb vo ord => some (layoutM 0x8#4 0xF#5 vd sb vo ord)
  | .atomMaxI32 vd sb vo ord => some (layoutM 0x8#4 0x10#5 vd sb vo ord)
  | .atomMinN32 vd sb vo ord => some (layoutM 0x8#4 0x11#5 vd sb vo ord)
  | .atomMaxN32 vd sb vo ord => some (layoutM 0x8#4 0x12#5 vd sb vo ord)
  | .atomAndB32 vd sb vo ord => some (layoutM 0x8#4 0x13#5 vd sb vo ord)
  | .atomOrB32 vd sb vo ord => some (layoutM 0x8#4 0x14#5 vd sb vo ord)
  | .atomXorB32 vd sb vo ord => some (layoutM 0x8#4 0x15#5 vd sb vo ord)
  | .atomExchB32 vd sb vo ord => some (layoutM 0x8#4 0x16#5 vd sb vo ord)
  | .atomExchB64 vd sb vo ord => some (layoutM 0x8#4 0x17#5 vd sb vo ord)
  | .atomCasB32 vd sb vo ord => some (layoutM 0x8#4 0x18#5 vd sb vo ord)
  | .atomCasB64 vd sb vo ord => some (layoutM 0x8#4 0x19#5 vd sb vo ord)
  | .cstB32 vd sb vo ord => some (layoutM 0x8#4 0x1A#5 vd sb vo ord)
  | .ldS64 vd sb vo ord => some (layoutM 0x8#4 0x1B#5 (0#1 ++ vd) sb vo ord)
  | .stS64 vd sb vo ord => some (layoutM 0x8#4 0x1C#5 (0#1 ++ vd) sb vo ord)
  | .prf sb vo ord => some (layoutM 0x8#4 0x1D#5 0#7 sb vo ord)
  | .ldsB32 vd sb vo ord => some (layoutM 0x9#4 0x0#5 vd sb vo ord)
  | .ldsB64 vd sb vo ord => some (layoutM 0x9#4 0x1#5 vd sb vo ord)
  | .ldsB128 vd sb vo ord => some (layoutM 0x9#4 0x2#5 vd sb vo ord)
  | .stsB32 vd sb vo ord => some (layoutM 0x9#4 0x3#5 vd sb vo ord)
  | .stsB64 vd sb vo ord => some (layoutM 0x9#4 0x4#5 vd sb vo ord)
  | .stsB128 vd sb vo ord => some (layoutM 0x9#4 0x5#5 vd sb vo ord)
  | .ldsB8 vd sb vo ord => some (layoutM 0x9#4 0x6#5 vd sb vo ord)
  | .stsB8 vd sb vo ord => some (layoutM 0x9#4 0x7#5 vd sb vo ord)
  | .ldsB16 vd sb vo ord => some (layoutM 0x9#4 0x8#5 vd sb vo ord)
  | .stsB16 vd sb vo ord => some (layoutM 0x9#4 0x9#5 vd sb vo ord)
  | .ldnB32 vd sb vo ord => some (layoutM 0x9#4 0xA#5 vd sb vo ord)
  | .stnB32 vd sb vo ord => some (layoutM 0x9#4 0xB#5 vd sb vo ord)
  | .atomsAddI32 vd sb vo ord => some (layoutM 0x9#4 0xC#5 vd sb vo ord)
  | .atomsMinI32 vd sb vo ord => some (layoutM 0x9#4 0xD#5 vd sb vo ord)
  | .atomsMaxI32 vd sb vo ord => some (layoutM 0x9#4 0xE#5 vd sb vo ord)
  | .atomsExchB32 vd sb vo ord => some (layoutM 0x9#4 0xF#5 vd sb vo ord)
  | .atomsCasB32 vd sb vo ord => some (layoutM 0x9#4 0x10#5 vd sb vo ord)
  | .atomnAddI32 vd sb vo ord => some (layoutM 0x9#4 0x11#5 vd sb vo ord)
  | .ldsS64 vd sb vo ord => some (layoutM 0x9#4 0x12#5 (0#1 ++ vd) sb vo ord)
  | .stsS64 vd sb vo ord => some (layoutM 0x9#4 0x13#5 (0#1 ++ vd) sb vo ord)
  | .cpy x => some (layoutA 0xA#4 0x0#6 x 0#6 0#6 0#4)
  | .cpyl x => some (layoutA 0xA#4 0x1#6 x 0#6 0#6 0#4)
  | .close x c => some (layoutA 0xA#4 0x2#6 x 0#6 0#6 c)
  | .waitb x c => some (layoutA 0xA#4 0x3#6 x 0#6 0#6 c)
  | .boinit x y => some (layoutA 0xA#4 0x4#6 x y 0#6 0#4)
  | .boexp x y => some (layoutA 0xA#4 0x5#6 x y 0#6 0#4)
  | .boarr x => some (layoutA 0xA#4 0x6#6 x 0#6 0#6 0#4)
  | .bowait x y => some (layoutA 0xA#4 0x7#6 x y 0#6 0#4)
  | .discard x y => some (layoutA 0xA#4 0x8#6 x y 0#6 0#4)
  | .flushr x y => some (layoutA 0xA#4 0x9#6 x y 0#6 0#4)
  | .coll x => some (layoutA 0xA#4 0xA#6 x 0#6 0#6 0#4)
  | .lattach x y z => some (layoutA 0xA#4 0xB#6 x y z 0#4)
  | .ldetach x y z => some (layoutA 0xA#4 0xC#6 x y z 0#4)
  | .fold x y => some (layoutA 0xA#4 0xD#6 x y 0#6 0#4)
  | .barSync c i => some (layoutA 0xB#4 0x0#6 c 0#6 0#6 i)
  | .barArr c i => some (layoutA 0xB#4 0x1#6 c 0#6 0#6 i)
  | .barRedAddI32 c y z i => some (layoutA 0xB#4 0x2#6 c y z i)
  | .barRedAddF32 c y z i => some (layoutA 0xB#4 0x3#6 c y z i)
  | .barRedMaxI32 c y z i => some (layoutA 0xB#4 0x4#6 c y z i)
  | .barRedMinI32 c y z i => some (layoutA 0xB#4 0x5#6 c y z i)
  | .barRedAnd c y z i => some (layoutA 0xB#4 0x6#6 c y z i)
  | .barRedOr c y z i => some (layoutA 0xB#4 0x7#6 c y z i)
  | .fence s => some (layoutA 0xB#4 0x8#6 0#6 0#6 0#6 s)
  | .msend x y z => some (layoutA 0xB#4 0x9#6 x y z 0#4)
  | .wring x y z => some (layoutA 0xB#4 0xA#6 x y z 0#4)
  | .tktTake j => some (layoutA 0xB#4 0xB#6 0#6 0#6 0#6 j)
  | .tktSkip j => some (layoutA 0xB#4 0xC#6 0#6 0#6 0#6 j)
  | .atomoAddF32 x y z => some (layoutA 0xB#4 0xD#6 x y z 0#4)
  | .atomoAddI64 x y z => some (layoutA 0xB#4 0xE#6 x y z 0#4)
  | .vstVer x y z => some (layoutA 0xB#4 0xF#6 x y z 0#4)
  | .ldVer x y z => some (layoutA 0xB#4 0x10#6 x y z 0#4)
  | .obres x y z => some (layoutA 0xC#4 0x0#6 x y z 0#4)
  | .obrel x => some (layoutA 0xC#4 0x1#6 x 0#6 0#6 0#4)
  | .mfetcha x y z => some (layoutA 0xC#4 0x2#6 x y z 0#4)
  | .mloadb x y z => some (layoutA 0xC#4 0x3#6 x y z 0#4)
  | .mmaD x y n => some (layoutA 0xC#4 0x4#6 x y 0#6 (0#2 ++ n))
  | .mmaB x y n => some (layoutA 0xC#4 0x5#6 x y 0#6 (0#2 ++ n))
  | .mzero n => some (layoutA 0xC#4 0x6#6 0#6 0#6 0#6 (0#2 ++ n))
  | .mstore x y z n => some (layoutA 0xC#4 0x7#6 x y z (0#2 ++ n))
  | .spawn x y => some (layoutA 0xD#4 0x0#6 x y 0#6 0#4)
  | .spawnq x y z => some (layoutA 0xD#4 0x1#6 x y z 0#4)
  | .qpop x y z => some (layoutA 0xD#4 0x2#6 x y z 0#4)
  | .join x y => some (layoutA 0xD#4 0x3#6 x y 0#6 0#4)
  | .topup x y z => some (layoutA 0xD#4 0x4#6 x y z 0#4)
  | .tstat x y z u => some (layoutA 0xD#4 0x5#6 x y z u)
  | .resw x => some (layoutA 0xD#4 0x6#6 x 0#6 0#6 0#4)
  | .phend => some (layoutA 0xD#4 0x7#6 0#6 0#6 0#6 0#4)
  | .srd x reg => some (layoutR 0xE#4 0x0#6 x reg 0#4)
  | .swr x reg => some (layoutR 0xE#4 0x1#6 x reg 0#4)
  | .trap n => some (layoutN 0xE#4 0x2#6 0#6 n)
  | .tret => some (layoutA 0xE#4 0x3#6 0#6 0#6 0#6 0#4)
  | .tclr x => some (layoutA 0xE#4 0x4#6 x 0#6 0#6 0#4)
  | .brk n => some (layoutN 0xE#4 0x5#6 0#6 n)
  | .jmark x => some (layoutA 0xE#4 0x6#6 x 0#6 0#6 0#4)
  | .ovld x => some (layoutA 0xE#4 0x7#6 x 0#6 0#6 0#4)
  | .ovcall x => some (layoutA 0xE#4 0x8#6 x 0#6 0#6 0#4)
  | .ovret x => some (layoutA 0xE#4 0x9#6 x 0#6 0#6 0#4)
  | .pwrq x => some (layoutA 0xE#4 0xA#6 x 0#6 0#6 0#4)
  | .cres x y => some (layoutA 0xE#4 0xB#6 x y 0#6 0#4)
  | .crel => some (layoutA 0xE#4 0xC#6 0#6 0#6 0#6 0#4)
  | .hintImm p => some (layoutH 0xF#4 0#2 p)
  | .hintSched stall yld rsv => some (layoutJ 0xF#4 1#2 stall yld rsv)
  | .hintMod rnd sat nega negb absa absb odst oidx ef qidx scope rsv => some (layoutK 0xF#4 2#2 rnd sat nega negb absa absb odst oidx ef qidx scope rsv)
  | _ => none

end Sys2Proof
end

