-- ==== Sys2Proof/Machine/Sparse.lean ====
section
/-! DEFINITION. Sparse storage: a list of (key, value) pairs with strictly rising keys. A total storage (a register
file, a memory) is such a list without entries equal to the value an unlisted key reads as. -/

namespace Sys2Proof.Machine

/-- A sparse map from Nat keys. -/
abbrev SMap (α : Type) := List (Nat × α)

namespace SMap

variable {α : Type}

/-- The value stored at `k`. -/
def get? : SMap α → Nat → Option α
  | [], _ => none
  | (i, a) :: m, k => if i = k then some a else get? m k

/-- The map without an entry at `k`. -/
def del : SMap α → Nat → SMap α
  | [], _ => []
  | (i, a) :: m, k => if i = k then m else if k < i then (i, a) :: m else (i, a) :: del m k

/-- The map with `a` at `k`. -/
def put : SMap α → Nat → α → SMap α
  | [], k, a => [(k, a)]
  | (i, b) :: m, k, a => if i = k then (k, a) :: m else if k < i then (k, a) :: (i, b) :: m else (i, b) :: put m k a

/-- A total storage with default `d`: what key `k` reads as. -/
def look (d : α) (m : SMap α) (k : Nat) : α := (get? m k).getD d

/-- A total storage with default `d`: writing the default removes the entry. -/
def store [DecidableEq α] (d : α) (m : SMap α) (k : Nat) (a : α) : SMap α :=
  if a = d then del m k else put m k a

/-- Keys strictly rising. -/
def sorted : SMap α → Bool
  | [] => true
  | [_] => true
  | (i, _) :: (j, b) :: m => i < j && sorted ((j, b) :: m)

/-- Keys strictly rising and no entry equal to the default. -/
def wf [DecidableEq α] (d : α) (m : SMap α) : Bool :=
  sorted m && m.all fun e => e.2 ≠ d

def keys (m : SMap α) : List Nat := m.map (·.1)
def vals (m : SMap α) : List α := m.map (·.2)

/-- Change the value at `k`, where there is one. -/
def adjust (m : SMap α) (k : Nat) (f : α → α) : SMap α :=
  match get? m k with
  | some a => put m k (f a)
  | none => m

/-- The entries whose key lies in [lo, lo + n). -/
def range (m : SMap α) (lo n : Nat) : SMap α := m.filter fun e => lo ≤ e.1 && e.1 < lo + n

/-- The map without the entries whose key lies in [lo, lo + n). -/
def delRange (m : SMap α) (lo n : Nat) : SMap α := m.filter fun e => !(lo ≤ e.1 && e.1 < lo + n)

end SMap

/-- A set of Nat keys. -/
abbrev NSet := SMap Unit

namespace NSet

def has (m : NSet) (k : Nat) : Bool := (SMap.get? m k).isSome
def add (m : NSet) (k : Nat) : NSet := SMap.put m k ()
def erase (m : NSet) (k : Nat) : NSet := SMap.del m k
def set (m : NSet) (k : Nat) (b : Bool) : NSet := if b then add m k else erase m k

end NSet

/-! Poison (R62, R63) -/

/-- Poisoned granules of a storage, by number. Each holds the bytes that a word or operation still under way has written
since the granule was poisoned, as (number of the word or operation, mask of bytes). -/
abbrev PSet := SMap (List (Nat × Nat))

namespace PSet

def has (m : PSet) (k : Nat) : Bool := (SMap.get? m k).isSome
/-- An error, or poisoned data, poisons a granule afresh. -/
def add (m : PSet) (k : Nat) : PSet := SMap.put m k []

/-- The bytes of granule `k` that [off, off + n) covers, as a mask. -/
def covered (gran k off n : Nat) : Nat :=
  (List.range gran).foldl (fun x i => if off ≤ gran * k + i && gran * k + i < off + n then x + 2 ^ i else x) 0

/-- A write of [off, off + n) by word or operation `unit` (0: a write that stands alone): a granule that it has covered
wholly loses its poison, one covered in part keeps it (R63). -/
def cover (m : PSet) (gran unit off n : Nat) : PSet :=
  m.filterMap fun (k, parts) =>
    let now := covered gran k off n
    if now = 0 then some (k, parts)
    else
      let all := now ||| (if unit = 0 then 0 else SMap.look 0 parts unit)
      if all = 2 ^ gran - 1 then none
      else some (k, if unit = 0 then parts else SMap.put parts unit all)

end PSet

/-! Memory: the bytes of the 52-bit physical address space (R15). -/

/-- Memory as its listed bytes: addresses strictly rising, no listed byte equal to `Memory.empty`. -/
abbrev Memory := List Host.Cell

namespace Memory

/-- What an address that nothing has written reads as: 0. DESIGN CHOICE (log entry 2): the spec gives no contents of
DRAM at power-on; unsafe. -/
def empty : Byte := 0

/-- R15: a physical address has 52 bits. -/
def size : Nat := 2 ^ 52

def read (m : Memory) (a : Nat) : Byte := SMap.look empty m a
def write (m : Memory) (a : Nat) (b : Byte) : Memory := if a < size then SMap.store empty m a b else m

/-- The canonical form: strictly rising addresses below 2^52, no entry equal to an unlisted byte. -/
def wf (m : Memory) : Bool := SMap.wf empty m && m.all fun e => e.1 < size

/-- The `n` bytes from `a`, little-endian (R3). -/
def readNat (m : Memory) (a : Nat) : Nat → Nat
  | 0 => 0
  | n + 1 => (read m a).toNat + 256 * readNat m (a + 1) n

def writeBytes (m : Memory) (a : Nat) : List Byte → Memory
  | [] => m
  | b :: bs => writeBytes (write m a b) (a + 1) bs

end Memory

end Sys2Proof.Machine
end

