-- ==== Sys2Proof/Machine/Bits.lean ====
section
/-! DEFINITION. Bit fields, bytes of a number (little-endian, R3), lanes of a mask, and lists by index. -/

namespace Sys2Proof.Machine

/-- Bits [hi:lo] of a number, as a number. -/
def bitsOf (x hi lo : Nat) : Nat := x / 2 ^ lo % 2 ^ (hi + 1 - lo)

/-- Bit `i` of a number. -/
def bitOf (x i : Nat) : Bool := x / 2 ^ i % 2 == 1

/-- The number with bits [hi:lo] replaced. -/
def setBitsOf (x hi lo v : Nat) : Nat :=
  x / 2 ^ (hi + 1) * 2 ^ (hi + 1) + v % 2 ^ (hi + 1 - lo) * 2 ^ lo + x % 2 ^ lo

/-- The low `n` bytes of a number, lowest first. -/
def natBytes (x : Nat) : Nat → List Byte
  | 0 => []
  | n + 1 => BitVec.ofNat 8 x :: natBytes (x / 256) n

/-- The number that bytes, lowest first, hold. -/
def bytesNat : List Byte → Nat
  | [] => 0
  | b :: bs => b.toNat + 256 * bytesNat bs

/-- The value of the low `w` bits read as two's complement. -/
def signedOf (w x : Nat) : Int :=
  let y := x % 2 ^ w
  if y < 2 ^ (w - 1) then y else (y : Int) - 2 ^ w

/-- An integer as `w` bits, modulo 2^w. -/
def wrapTo (w : Nat) (i : Int) : Nat := (i % (2 ^ w : Nat)).toNat

/-- The lanes of a mask, lowest first. -/
def lanesOf (m : W32) : List Nat := (List.range 32).filter fun l => m.getLsbD l

/-- The mask of a list of lanes. -/
def maskOf (ls : List Nat) : W32 := ls.foldl (fun m l => m ||| (1#32 <<< l)) 0

/-- The mask whose bit `l` is `f l`. -/
def maskBy (f : Nat → Bool) : W32 := maskOf ((List.range 32).filter f)

/-- Number of 1 bits among the low `n`. -/
def popCount (x : Nat) : Nat → Nat
  | 0 => 0
  | n + 1 => (if bitOf x n then 1 else 0) + popCount x n

/-- Number of 0 bits above the highest 1 bit of the low `n` bits. -/
def leadingZeros (x : Nat) : Nat → Nat
  | 0 => 0
  | n + 1 => if bitOf x n then 0 else 1 + leadingZeros x n

/-- Bit `i` moved to bit `n - 1 - i`, over the low `n` bits. -/
def reverseBits (x n : Nat) : Nat :=
  (List.range n).foldl (fun r i => if bitOf x i then r + 2 ^ (n - 1 - i) else r) 0

/-- The lowest index below `n` that satisfies `p`. -/
def lowest? (n : Nat) (p : Nat → Bool) : Option Nat := (List.range n).find? p

/-- Distinct values of a list, in first-seen order. -/
def distinct : List Nat → List Nat
  | [] => []
  | a :: as => a :: (distinct as).filter (· ≠ a)

def ceilDiv (a b : Nat) : Nat := (a + b - 1) / b

/-- A 64-bit value in saturating 32 bits. -/
def sat32 (x : Nat) : W32 := BitVec.ofNat 32 (min x 0xFFFFFFFF)

def setAt {α : Type} (l : List α) (i : Nat) (a : α) : List α := l.set i a

/-- R13: bits [63:57] all equal bit 56. -/
def canonical (a : W64) : Bool :=
  let hi := a.toNat / 2 ^ 56
  hi == 0 || hi == 0xFF

end Sys2Proof.Machine
end

