-- ==== Sys2Proof/Machine/Parts.lean ====
section
/-! DEFINITION. The parts State is made of: groups, teams, grids, launches, cores, clusters, strings, home slices,
request tables, engine operations. Plain data; each field's docstring names the rule that gives it.
Keys: a team is named by its task-unit entry `eid` (R284), a group by `eid * 32 + GIDX`, a core by `32 * y + x` (R2), a
cluster by its id (R1), a context by `function * 65536 + CTXID` (R22, R307). -/

namespace Sys2Proof.Machine

/-! Registers -/

/-- The vector files keyed `32 * register + lane`, and the scalar and mask files (R202). Unlisted entries read 0. -/
structure Regs where
  v : SMap W32 := []
  o : SMap W32 := []
  l : SMap W32 := []
  q : SMap W32 := []
  s : SMap W64 := []
  k : SMap W32 := []
  deriving DecidableEq, Repr

/-- Poisoned registers of a group (R62, R63), keyed as in `Regs`. -/
structure RegPoison where
  v : NSet := []
  o : NSet := []
  l : NSet := []
  q : NSet := []
  s : NSet := []
  k : NSet := []
  exm : Bool := false
  deriving DecidableEq, Repr

/-- An entry of the mask stack (R219). -/
structure MaskEntry where
  outer : W32
  alt : W32
  els : Bool
  deriving DecidableEq, Repr

/-- The fields of a hint.mod word (R186). -/
structure ModHint where
  rnd : BitVec 2 := 0
  sat : Bool := false
  nega : Bool := false
  negb : Bool := false
  absa : Bool := false
  absb : Bool := false
  odst : Bool := false
  oidx : BitVec 3 := 0
  ef : Bool := false
  qidx : BitVec 3 := 0
  scope : BitVec 3 := 3
  deriving DecidableEq, Repr

/-- A hint word of the unit being presented (R183); `bad`: a reserved bit or SCOPE is not legal. -/
inductive Hint where
  | imm (p : BitVec 26)
  | sched (stall : Nat) (yld : Bool) (bad : Bool)
  | mod (m : ModHint) (bad : Bool)
  deriving DecidableEq, Repr

/-! Happens-before (R127) -/

/-- What a party is ordered after: per party, the accesses it issued with a number below the entry's. -/
abbrev Clock := SMap Nat

/-- A party to memory and where it stands (R120): its number, its grid and team, and whether its grid is a neighbourhood. A
group is a party, and so are each engine operation, the host's links and the peers (`device` false). -/
structure Party where
  id : Nat
  grid : Nat := 0
  tidx : Nat := 0
  nbh : Bool := false
  group : Bool := true
  device : Bool := true
  deriving DecidableEq, Repr

/-- The release a written value carries (R119, R127): who released, at which scope, and what is ordered before it.
`byAtomic`: the value is an atomic's that read the released one. `sysOnly`: the write is to host memory or a device, and takes
part in synchronisation at .sys only (R120). -/
structure Release where
  party : Party
  scope : Nat
  clock : Clock
  byAtomic : Bool := false
  sysOnly : Bool := false
  deriving DecidableEq, Repr

/-- An access to a byte as R125 looks at it: its party, its number in the party's program order, address, size, and whether
it wrote. -/
structure Past where
  writer : Nat
  unit : Nat
  base : Nat
  size : Nat
  write : Bool
  deriving DecidableEq, Repr

/-! Accesses in flight -/

/-- The atomic operations of R242, R246. -/
inductive AtomOp where
  | addI | addF32 | minI | maxI | minN | maxN | and | or | xor | exch | cas
  deriving DecidableEq, Repr

/-- Where a load or an atomic puts its result. -/
inductive Dest where
  | none | vec (base : Nat) | scalar (n : Nat)
  deriving DecidableEq, Repr

/-- One lane's access: its virtual address, and once translated its physical address, memory type and CHK; the data of
a store or the operand of an atomic, and the comparand of a cas. A 128-bit access is two parts of 8 bytes (R123). `done`: a load's or atomic's value is fixed. -/
structure LaneAcc where
  lane : Nat
  part : Nat := 0
  va : W64
  pa : Nat := 0
  mt : Nat := 0
  chk : Bool := false
  bits : Nat := 12           -- address bits below its page (R16)
  data : Nat := 0
  cmp : Nat := 0
  poison : Bool := false
  done : Bool := false
  stamps : List Nat := []    -- the writes whose values it has read, by their place in coherence order (R115)
  deriving DecidableEq, Repr

/-- What kind of global access a word makes. -/
inductive AccKind where
  | load (signed : Bool) | store | atom (op : AtomOp) | prf
  | atomo (i64 : Bool) | vstVer | ldVer
  | fetch (id : Nat)           -- ovld: the overlay id; its words are the lanes (R303)
  | snap                       -- a snapshot or a check of issue waits for a page (R76, R77, R81)
  deriving DecidableEq, Repr

/-- A group's access word: what each active lane does (R240 to R245, R261, R262). -/
structure Access where
  kind : AccKind
  size : Nat
  dest : Dest := .none
  acq : Bool := false
  rel : Bool := false
  scope : Nat := 3
  lanes : List LaneAcc := []
  aon : Bool := false        -- all-or-nothing (R34): cst, atomo
  one : Bool := false        -- one access for the group (R244): ld.s64, st.s64
  np : Bool := false         -- non-posted (R126, R132)
  status : Nat := 0          -- the s register of vst.ver and ld.ver
  space : Nat := 0           -- 0 global memory, 1 the team's scratchpad, 2 the neighbourhood window (R38, R39)
  rels : List Release := []  -- the releases a write of it carries (R127)
  deriving DecidableEq, Repr

/-- An entry of the store queue SQ(g) (R114): the lanes of one word that share their bytes (R124). `unit` numbers the
word, in program order. A release marker is the `rel` of the unit's entries: it stands before them, and it is complete once
every earlier access of the group is performed and returned (R119). A fence marker is the hold of R121, which no later access
passes. A scratchpad or neighbourhood access has a `space` other than 0 (R133). -/
structure SqEntry where
  id : Nat
  unit : Nat
  acc : Access
  accepted : Bool := false   -- it has reached its slice and is not yet performed (R126)
  deriving DecidableEq, Repr

/-- An entry of the load set LS(g) (R114); for an atomic the SQ entries of the same unit perform it. -/
structure LsEntry where
  id : Nat
  unit : Nat
  acc : Access
  atom : Bool := false
  discard : Bool := false    -- the group has exited (R222)
  accepted : Bool := false   -- as in `SqEntry`
  deriving DecidableEq, Repr

/-- An SFU word whose result has not landed (R237): the destination and the values of the lanes. -/
structure SfuEntry where
  id : Nat
  vals : List (Nat × W32)    -- (32 * register + lane, value)
  regs : List Nat            -- destination registers
  ovf : W32 := 0             -- lanes that raise FP_OVF with FOE = 1
  deriving DecidableEq, Repr

/-- Where a missed lane or element waits: attached to a slot, or for a free slot (R31). -/
inductive Wait where
  | slot (tbl tag : Nat)
  | full (tbl : Nat)
  deriving DecidableEq, Repr

/-- A parked access (R33): the access with its lanes not yet performed, and where each lane waits. -/
structure Parked where
  unit : Nat
  acc : Access
  waits : List (Nat × Wait)
  verdict : Bool := false    -- the slices have passed its checked lanes (R129); their lines are kept for it
  deriving DecidableEq, Repr

/-! Traps -/

/-- The detail of one cause (R336, R339): the lowest lane that raised it, its code and value, the lanes that raised it,
and for ALLOW_EXH the cost and AL at exhaustion. -/
structure Detail where
  cause : Nat
  lane : Nat := 0
  code : BitVec 16 := 0
  value : W64 := 0
  lanes : W32 := 0
  word : W32 := 0
  al : W64 := 0
  deriving DecidableEq, Repr

/-- A trap that waits for its group's loads and SFU results to drain (R335). -/
structure Pending where
  raised : List Detail
  tpc : BitVec 15
  tmask : W32
  deriving DecidableEq, Repr

/-- What handler mode keeps on chip (R335 step 4, TSAVE). -/
structure Saved where
  exm : W32
  stack : List MaskEntry
  deriving DecidableEq, Repr

/-- The trap registers of a group (R203, R338) and the state of R335. -/
structure TrapState where
  tcause : W64 := 0
  tpc : BitVec 15 := 0
  tmask : W32 := 0
  tmode : BitVec 4 := 0
  tvec : BitVec 16 := 0
  details : List Detail := []
  handler : Option Saved := none
  pending : Option Pending := none
  resume : Option W32 := none       -- lanes of the unit that runs next after tret (R299)
  deriving DecidableEq, Repr

/-! Engine completion -/

/-- A closed batch (R101): its operations not complete, and its outcome flags POISON, LAYER_DATA, XFAIL. -/
structure Batch where
  num : W32
  ops : List Nat
  clock : Clock := []                -- what its complete operations are ordered after, themselves included (R101, R127)
  flags : BitVec 3 := 0
  deriving DecidableEq, Repr

/-- One engine class of a group: BATCH, BDONE, the open batch and the closed batches (R101). -/
structure Batches where
  last : W32 := 0
  done : W32 := 0
  openOps : List Nat := []
  openFlags : BitVec 3 := 0
  closed : List Batch := []
  openClock : Clock := []            -- as a batch's `clock`, of the open batch
  finished : List (W32 × Clock) := []    -- complete batches that no waitb has followed (R122, R127)
  outcomes : List Batch := []        -- completed batches whose outcome no waitb has reported (R98)
  deriving DecidableEq, Repr

/-- Reductions of a payload barrier (R256). -/
inductive RedKind where
  | addI32 | addF32 | maxI32 | minI32 | and | or
  deriving DecidableEq, Repr

/-- What holds a group between two words, uncharged (R146, R280). -/
inductive Hold where
  | counts (sel : Nat) (n : Nat)                                  -- wait (R224)
  | barrier (b : Nat) (c : Nat) (phase : W32) (red : Option RedKind) (dst : Nat)   -- held in a phase (R254)
  | rearrive (b : Nat) (c : Nat) (phase : W32) (red : Option (RedKind × Nat × Nat)) (sync : Bool)
      -- arrived twice: arrives again when phase completes (R254)
  | batch (cls : Nat) (n : W32)                                   -- waitb (R101)
  | object (off : Nat) (p : Bool)                                 -- bowait (R103)
  | ring (dst off : Nat) (head : W32) (scope : Nat)               -- wring (R259)
  | ticket (j : Nat)                                              -- tkt.take (R152)
  | join (dst tag0 count : Nat)                                   -- join (R291)
  | topup (dst tag : Nat) (amount : W64)                          -- topup (R293)
  | fence (scope : Nat)                                           -- fence (R121)
  | sfu (id : Nat)                                                -- FOE = 1 until the result lands (R237)
  | cres (dst : Nat) (amount : Nat)                               -- cres (R306)
  | phend                                                         -- phend (R155)
  | misuse (fn b : Nat)                                           -- its second arrival breaks R254, R256: BAR_MISUSE
  | nonPosted                                                     -- until its writes and loads are performed (R126)
  | released                                                      -- its wait is over; it moves on at its next turn
  deriving DecidableEq, Repr

/-- A message sent and not yet written (R109). -/
structure Message where
  ctx : Nat
  dst : Nat            -- receiver's task tag
  off : Nat            -- ring header offset
  src : Nat            -- sender's task tag
  seq : Nat
  slots : Nat
  payload : List Byte
  clock : Clock := []  -- what its sender released (R111, R122)
  poison : NSet := []  -- payload bytes read from poisoned granules (R63)
  scope : Nat
  deriving DecidableEq, Repr

/-- A group (R134, R135). -/
structure Group where
  regs : Regs := {}
  poison : RegPoison := {}
  pc : BitVec 14 := 0
  slot : BitVec 1 := 0
  exm : W32 := 0xFFFFFFFF
  base : W32 := 0xFFFFFFFF           -- BEGIN (R215)
  stack : List MaskEntry := []
  hints : List Hint := []
  stallUntil : Nat := 0              -- hint.sched STALL: CYC of its cluster before which it issues nothing
  yielded : Option Nat := none       -- hint.sched YIELD: the CYC in which its next word gives way (R185)
  heldAt : Option Nat := none        -- the CYC in which its unit was last found held (R325)
  exited : Bool := false
  trap : TrapState := {}
  hold : Option Hold := none
  parked : Option Parked := none
  sq : List SqEntry := []
  ls : List LsEntry := []
  sfu : List SfuEntry := []
  nextId : Nat := 0                  -- the number of its next access; starts at 2^40 times its grid (R127)
  floor : SMap Nat := []             -- F(g): per byte, the coherence stamp it must not go behind
  mu : Nat := 0                      -- μ(g)
  born : Nat := 0                    -- its own accesses are numbered from here (R127)
  acqs : List (Nat × Clock) := []    -- what its acquires have ordered it after, by their place in program order (R127)
  seen : List Release := []          -- releases its reads have met, for a fence to follow (R127)
  fences : List Release := []        -- releases that its fences give its later writes (R127)
  copy : Batches := {}
  mat : Batches := {}
  coll : Batches := {}
  outbox : List Message := []
  cres : Option Nat := none          -- eighths of an ampere held (R306)
  journalCount : Nat := 0            -- the group's count of earlier records (R351)
  denied : Option Nat := none        -- the page of a FAIL reply to a read of issue (R32, R77)
  left : Option W32 := none          -- the lanes a debugger's stop left of its unit (R336, R347)
  sysWait : Option Wait := none      -- its word waits for a page that the task unit or a point reads for it (R322)
  preemptDue : Option Nat := none    -- PREEMPT with this code before its first unit after restore (R345)
  deriving DecidableEq, Repr

/-! Teams and grids -/

/-- The states of a team (R145) with those before begin and off its core. -/
inductive TeamState where
  | notBegun | running | starved | unwinding | done
  | saved (slot : Nat)
  deriving DecidableEq, Repr

/-- The state of a team whose pending unit fits again: a saved one stays saved until it is restored (R145, R345). -/
def TeamState.fits : TeamState → TeamState
  | .saved slot => .saved slot
  | _ => .running

/-- A named barrier (R254, R256): contributions are (position, value). -/
structure Barrier where
  phase : W32 := 0
  count : Nat := 0
  arrived : List Nat := []           -- group keys
  held : List (Nat × Option Nat) := []    -- groups held in the phase with the s register of a reduction
  red : Option RedKind := none
  contrib : List (Nat × W32) := []
  lastResult : W32 := 0
  clock : Clock := []                -- what the arrivals of the phase released (R122)
  deriving DecidableEq, Repr

/-- A live or draining operand-buffer reservation (R266 to R268), units relative to the team's window. -/
structure Reservation where
  rnum : Nat
  gen : Nat
  f : Nat                            -- FMT, BLK, SCL as bits [51:46]
  soff : Nat
  base : Nat
  units : Nat
  live : Bool := true
  users : List Nat := []             -- unfinished operations that name it
  deriving DecidableEq, Repr

/-- What a matrix team holds (R263): window bytes, B-store bytes keyed `slice * 32768 + byte`, banks keyed
`4096 * bank + 64 * i + j`. -/
structure MatrixRes where
  quota : Nat := 0
  banks : Nat := 0
  unit0 : Nat := 0                   -- first unit of its window in the cluster's operand buffer (R263)
  window : SMap Byte := []
  bstore : SMap Byte := []
  acc : SMap W32 := []
  gens : List Nat := [0, 0, 0, 0]
  res : List Reservation := []
  winPoison : PSet := []
  bPoison : PSet := []
  bankPoison : NSet := []
  deriving DecidableEq, Repr

/-- The shape of R138 and the entry of R281. -/
structure Shape where
  groups : Nat := 1
  producers : Nat := 0
  vp : Nat := 128
  vc : Nat := 128
  spad : Nat := 0
  obuf : Nat := 0
  ovid : Nat := 0
  off : Nat := 0
  argp : W64 := 0
  idem : Bool := false
  depw : Nat := 0
  pol : Bool := false
  deriving DecidableEq, Repr

/-- A stop of the debugger (R347): `until` is the group that may run one unit (R348). -/
inductive DebugStop where
  | running | stopping | stopped | stepping (gidx : Nat)
  deriving DecidableEq, Repr

/-- A team, that is a task (R134). -/
structure Team where
  ctx : Nat
  tag : Nat
  ptag : Nat := 0
  parent : Option Nat := none        -- entry of the parent team
  grid : Nat := 0
  launch : Nat := 0
  tidx : Nat := 0
  shape : Shape := {}
  state : TeamState := .notBegun
  core : Option Nat := none
  al : W64 := 0
  share : W64 := 0
  exh : Bool := false
  unwound : Bool := false
  pendingCost : Option Nat := none   -- the exhausted unit's cost (R145)
  pendingGroup : Nat := 0
  wait : Nat := 0                    -- dependence wait count (R286)
  heldTopup : Nat := 0               -- R156
  spad : SMap Byte := []
  spadPoison : PSet := []
  boGlobal : NSet := []              -- 2 * offset + parity: a copy to global memory subtracted in that phase (R103)
  barriers : SMap Barrier := []
  took : List Nat := []              -- ticket objects taken
  passed : List Nat := []            -- ticket objects passed
  rings : List (Nat × Nat × Nat) := []    -- the next sequence number to a receiver's tag and ring offset (R107)
  spawned : Bool := false
  spawnsInPhase : Nat := 0           -- R157
  charged : Nat := 0                 -- charges since begin (R341)
  beginCyc : Nat := 0                -- CYC at begin or last restore (R332)
  saves : Nat := 0
  jseq : W32 := 0
  mat : MatrixRes := {}
  children : List Nat := []          -- grids not DONE or not joined (R290)
  stop : DebugStop := .running
  preempt : Option Nat := none       -- a save (0) or drain (1) or flush (2) under way
  migrate : Bool := false            -- a migration request waits (R387)
  moving : Bool := false             -- its save is a migration, until it is restored (R332)
  alPoison : Bool := false
  sysPoison : NSet := []             -- poisoned system registers, by number (R62)
  sysWait : Option Wait := none      -- its begin waits for a page of its overlay (R302, R322)
  due : Nat := 0                     -- amounts that reached it while it was saved (R342, log entry 90)
  depClock : Clock := []             -- what lowered its dependence count released (R122)
  boClock : SMap Clock := []         -- what a barrier object's updates released: 2 * offset in the phase, + 1 in ended ones (R103)
  ringRels : SMap (List Release) := []   -- per ring header, what its messages' senders released (R111, R122)
  ov1 : Option (Nat × Nat) := none   -- the overlay its groups ran in slot 1 with when it was saved (R342)
  deriving DecidableEq, Repr

/-- A region descriptor (R282). -/
structure Region where
  mode : Nat
  base : Nat
  len : Nat
  deriving DecidableEq, Repr

/-- A ticket object as the task unit keeps it (R151). -/
structure Ticket where
  addr : Nat                         -- physical address
  va : Nat
  next : Nat := 0
  void : Bool := false
  vtidx : Nat := 0
  passes : List Nat := []            -- held passes
  clock : Clock := []                -- what its passes released
  deriving DecidableEq, Repr

/-- A grid (R134, R137). -/
structure Grid where
  ctx : Nat
  launch : Nat
  parent : Option Nat
  tag0 : Nat
  count : Nat
  teams : List Nat                   -- entries in TIDX order
  nbh : Bool := false
  tickets : List Ticket := []
  regions : List Region := []
  path : List (Nat × Nat) := []      -- R157
  order : Nat := 0
  string : Option Nat := none        -- current string (R323)
  kept : Bool := true
  barrier0 : Barrier := {}           -- barrier 0 of a neighbourhood (R254)
  waits : Bool := false              -- a neighbourhood that no origin fitted: its rectangle is kept (R324)
  start : Clock := []                -- what its spawner and the siblings it waits for released (R122, R287)
  core0 : Nat := 0                   -- the core of team 0, where it stands or stood last (R254)
  clock : Clock := []                -- what its retired teams released (R122)
  deriving DecidableEq, Repr

/-- A post of resw that waits for the commit (R294): its order key and value. -/
structure Post where
  key : List (Nat × Nat)
  tidx : Nat
  gidx : Nat
  n : Nat
  val : W64
  deriving DecidableEq, Repr

/-- A translation context record (R22). -/
structure CtxRec where
  vfn : Nat
  ctxid : Nat
  prqe : Bool
  hwad : Bool
  s2en : Bool
  s1root : Nat
  s2root : Nat
  deriving DecidableEq, Repr

/-- An event that a journal point holds: the point, whether it is a team's, the source's tag and group, its type and object. -/
structure JHold where
  point : Nat
  sys : Bool
  src : Nat
  gidx : Nat
  typ : Nat
  obj : Nat
  counted : Bool := true             -- false: it waits only for its turn in the record, which FST does not count (R322, R354)
  deriving DecidableEq, Repr

/-- A launch (R311, R315 to R322). -/
structure Launch where
  ctx : Nat
  rcd : CtxRec
  crec : Nat := 0
  odir : Nat := 0
  onum : Nat := 0
  rdesc : Nat := 0
  jmode : Nat := 0
  div : Bool := false
  irq : Bool := false
  ser : Bool := false
  rwait : Bool := false
  queue : Nat := 0
  order : Nat := 0                   -- order in its queue
  cls : Nat := 2
  tcls : Nat := 3
  phm : Bool := false
  admitted : Bool := false
  began : Bool := false
  done : Bool := false
  code : Nat := 0
  grid : Nat := 0
  grant : Nat := 0
  hostAdded : Nat := 0
  credited : Nat := 0
  held : Nat := 0                    -- credits held for a phase commit
  phase : W32 := 0
  result : W64 := 0
  posts : List Post := []
  admitTime : Nat := 0
  fst : Nat := 0
  exh : Bool := false
  unwound : Bool := false
  msx : Bool := false
  inFlight : Bool := false
  traffic : List (Nat × Nat) := []   -- global bytes of the last 100 µs, by time (R321)
  consumer : Option Nat := none      -- node queue whose consumer launch it is
  desc : Nat := 0                    -- its root descriptor (R281, R311)
  tickets : List LaneAcc := []       -- the descriptor's ticket objects as they were checked
  bound : Option Nat := none         -- ⌈A / RHO⌉ + LAT in µs, where its class promises one (R321)
  msh : Option Nat := none           -- MSH of its class at admission (R319)
  sysWait : Option Wait := none      -- its completion record waits for its page (R322)
  jheld : List JHold := []           -- its events that a journal point held when they were last presented (R322)
  aborted : Bool := false            -- R316
  clock : Clock := []                -- what its retired teams and the groups at the end of its phase released (R122, R155)
  deriving DecidableEq, Repr

/-! Memory system -/

/-- Line metadata (R59). -/
structure Meta where
  ver : BitVec 16 := 0
  wtag : BitVec 24 := 0
  ptag : BitVec 16 := 0
  written : Bool := false
  read : Bool := false
  multi : Bool := false
  deriving DecidableEq, Repr

/-- A copy of a line: 64 bytes with their coherence stamps, and the step of its fill or service (R114). -/
structure LineCopy where
  cells : List (Byte × Nat)
  at_ : Nat
  deriving DecidableEq, Repr

/-- A merge-buffer entry (R118). -/
structure MergeEntry where
  line : Nat
  copy : LineCopy
  deriving DecidableEq, Repr

/-- An ordered-atomic contribution (R131). -/
structure Contribution where
  launch : Nat
  ctx : Nat
  pa : Nat
  i64 : Bool
  path : List (Nat × Nat)
  tidx : Nat
  gidx : Nat
  lane : Nat
  n : Nat
  val : W64
  chk : Bool                         -- its lane lies on a checked page (R129, R131)
  spilled : Bool
  deriving DecidableEq, Repr

/-- The home slices (R49, R114). -/
structure Home where
  now : Nat := 0                     -- machine step of the reference machine
  marks : SMap Nat := []             -- per byte, its last write's place in coherence order (R115)
  past : SMap (List Past) := []      -- per byte, each party's latest access of each address, size and kind (R125)
  released : SMap (List Release) := []   -- per place in coherence order, what that write released (R127)
  outside : Clock := []              -- what the host and the peers are ordered after (log entry 6)
  dirty : SMap (List Byte) := []     -- lines not written back, with the DRAM contents beneath (R66, R67)
  clean : NSet := []                 -- lines present and not dirty (R42, R49)
  info : SMap Meta := []             -- metadata of lines of the checked window (R59)
  poison : PSet := []                -- 32-byte sectors
  dramPoison : NSet := []            -- lines as DRAM holds them (R62)
  infoPoison : NSet := []
  locked : SMap Nat := []            -- lines between a word's verdict and its performance, with its group (R129)
  merge : List MergeEntry := []
  ordered : List Contribution := []
  zeroing : Option (Nat × Nat) := none   -- MDZADDR page and count while BUSY (R61)
  deriving DecidableEq, Repr

/-- A cached translation (R26): the page of a context, its final frame and rights, and what it was built from. -/
structure TlbEntry where
  ctx : Nat
  page : Nat                         -- VA bits [63:12]
  frame : Nat
  rd : Bool
  w : Bool
  xn : Bool
  mt : Nat
  chk : Bool
  syso : Bool
  dirty : Bool                       -- D is set in its leaves
  bits : Nat                         -- address bits below its page (R23)
  ipas : List (Nat × Nat)            -- stage-2 pages the walk went through: IPA page, and its bits above bit 11 (R27)
  deriving DecidableEq, Repr

/-- A slot record of a page-request table (R30). -/
structure PrSlot where
  page : Nat
  ctx : Nat
  stage : Nat
  kind : Nat
  waiters : Nat
  sys : Bool := false                -- the command processor, the task unit or a journal point waits
  deriving DecidableEq, Repr

/-- A page-request table: 32 slots and PRSTAT.BADREPLY (R29, R32). -/
structure PrTable where
  slots : SMap PrSlot := []
  bad : Bool := false
  denied : List (Nat × Nat × Nat) := []   -- (page, context, stage) of a FAIL reply a system party has yet to take
  deriving DecidableEq, Repr

/-! Engines -/

/-- A layout record (R93). -/
structure Layout where
  base : W64
  lsize : Nat
  rank : Nat
  csrc : Nat
  tgt : Bool
  cdim : Nat
  space : Nat
  ext : List Nat
  stride : List Int
  deriving DecidableEq, Repr

/-- A tile handle (R70). -/
structure Handle where
  index : Nat
  va : Nat
  fmt : Nat
  blk : Bool
  scl : Bool
  baxis : Bool
  rows : Nat
  cols : Nat
  base : W64
  sbase : W64
  rstride : Int
  sstride : Int
  llist : W64
  lver : Nat
  deriving DecidableEq, Repr

/-- A layer descriptor (R73). -/
structure Layer where
  index : Nat
  lowRank : Bool
  rank : Nat
  vfmt : Nat
  rows : Nat
  cols : Nat
  alpha : W32
  str0 : Int
  str1 : Int
  ptr0 : W64
  ptr1 : W64
  deriving DecidableEq, Repr

/-- A snapshot of a handle with its layers (R76). -/
structure Snapshot where
  handle : Handle
  layers : List Layer
  records : List Nat := []           -- where its entry, list and descriptors stand, 64 bytes each (R85)
  deriving DecidableEq, Repr

/-- What a COPY operation does. -/
inductive CopyKind where
  | copy (src : Layout)
  | layered (snap : Snapshot)
  | fold (snap : Snapshot) (dst : Handle)
  | discard (va len : Nat)
  deriving DecidableEq, Repr

/-- A queued COPY operation (R92, R99, R100). -/
structure CopyOp where
  id : Nat
  g : Nat
  eid : Nat
  kind : CopyKind
  dst : Layout
  idx : Option Layout := none
  org : List Int := []
  descOff : Option Nat := none       -- where STATUS is written
  bobj : Option Nat := none
  dep : Option Nat := none
  slack : Nat := 0                   -- the descriptor's; one less for every 64 pass-overs (R100)
  passed : Nat := 0
  next : Nat := 0                    -- points below it are done or parked
  waiting : List (Nat × Wait) := []  -- points parked on a slot
  retry : List Nat := []             -- points whose page request was answered
  missed : SMap Nat := []            -- per waiting point, the page of the access that missed
  denied : List (Nat × Nat) := []    -- (point, page of its access) of a FAIL reply (R32, R91)
  taken : NSet := []                 -- points at or above `next` that were taken up before their turn (R116)
  res : Option (Nat × Nat) := none   -- the operand-buffer reservation written: its number and generation (R268)
  last : SMap Nat := []              -- scatter: the highest point that wrote a destination (R95)
  clock : Clock := []                -- what its issue is ordered after (R89, R127)
  oobcnt : Nat := 0
  poison : Bool := false
  layerData : Bool := false
  xfail : Bool := false
  xdet : Nat := 0
  reads : NSet := []                 -- bytes read, bytes written (R89 overlap)
  writes : NSet := []
  start : Nat := 0
  deriving DecidableEq, Repr

/-- What a MAT operation does. -/
inductive MatKind where
  | fetchA (snap : Snapshot) (rcd : W64) (kt row0 col0 : Nat)
  | loadB (snap : Snapshot) (bword : W64) (row0 col0 : Nat)
  | pass (batched : Bool) (rcd bword : W64) (bank : Nat)
  | zero (bank : Nat)
  | store (bank : Nat) (addr stride : W64) (dfmt : Nat)
  deriving DecidableEq, Repr

/-- An entry of the cluster's matrix reservation table (R264, R326). -/
structure MatOp where
  id : Nat
  g : Nat
  eid : Nat
  kind : MatKind
  rbase : Nat := 0                   -- byte base of the reservation in the window
  granted : Bool := false            -- taken by its resource
  passed : Nat := 0
  next : Nat := 0                    -- elements done
  waiting : List (Nat × Wait) := []
  retry : List Nat := []
  missed : SMap Nat := []
  denied : List (Nat × Nat) := []
  taken : NSet := []
  clock : Clock := []
  doneAt : Nat := 0                  -- CYC of the cluster at which a pass has run its cycles (R273)
  res : Option (Nat × Nat) := none   -- the reservation it names (R268)
  flags : BitVec 3 := 0
  start : Nat := 0
  deriving DecidableEq, Repr

/-- A COLL operation (R377, R378). -/
structure CollOp where
  id : Nat
  g : Nat
  eid : Nat
  op : Nat
  dev : Nat
  vfn : Nat
  peerCtx : Nat
  laddr : W64
  raddr : W64
  len : Nat
  waiting : List (Nat × Wait) := []
  retry : List Nat := []
  missed : SMap Nat := []
  denied : List (Nat × Nat) := []
  taken : NSet := []
  next : Nat := 0
  clock : Clock := []
  xfail : Bool := false
  poison : Bool := false
  start : Nat := 0
  deriving DecidableEq, Repr

/-! Cores, clusters, strings -/

/-- A core: instruction memory, slot tags, current reservations of its pipes (R41, R302, R327). -/
structure Core where
  imem : SMap W32 := []              -- keyed 16384 * slot + word
  tag0 : Option (Nat × Nat) := none  -- (launch's overlay directory, overlay id)
  tag1 : Option (Nat × Nat) := none
  imemPoison : NSet := []
  vecUntil : Option Nat := none      -- CYC at which the vector reservation ends
  sfuUntil : Option Nat := none
  issueCyc : Nat := 0                -- the CYC of `issued`
  issued : List (Nat × Nat) := []    -- (issue slot, group) of the units issued in that cycle (R142, R179)
  recent : SMap (List Nat) := []     -- per issue slot, the groups that issued in it, the latest first (R325)
  deriving DecidableEq, Repr

/-- A cluster: read cache, translation cache, engine queues, CYC, PSTATE, sensor (R47, R26, R99, R264, R205, R363). -/
structure Cluster where
  crc : SMap LineCopy := []          -- keyed by line
  tlb : List TlbEntry := []
  copyq : List CopyOp := []
  mat : List MatOp := []
  cyc : Nat := 0
  strc : Bool := false
  therm : Bool := false
  pkg : Bool := false
  skip : Bool := false
  windowStart : Option Nat := none
  zeroSince : Option Nat := none
  dieTemp : Int := 0                 -- 1/16 °C
  deriving DecidableEq, Repr

/-- Who asks the Sluice for current (R327). -/
inductive Asker where
  | vec (core : Nat) | sfu (core : Nat) | copy (cl : Nat) | fetch (cl op : Nat) | pass (cl op : Nat) | cres (g : Nat)
  deriving DecidableEq, Repr

/-- A reservation or a waiting request of a string's Sluice, in eighths of an ampere (R327 to R329). -/
structure Current where
  who : Asker
  tile : Nat
  amount : Nat
  since : Nat := 0                   -- its cluster's CYC when it began to wait
  passed : Nat := 0
  deriving DecidableEq, Repr

/-- A string (R327 to R330, R361, R362, R365). -/
structure Str where
  held : List Current := []
  waiting : List Current := []
  throttled : Bool := false
  throttleBy : Nat := 0
  quietSince : Option Nat := none
  reading : List Nat := [0, 0, 0, 0] -- STRIMB of its four tiles as last updated (R357)
  setClk : Nat := 3000               -- DESIGN CHOICE (log 3)
  stress : Nat := 0
  gated : Bool := false
  idleSince : Option Nat := none
  wakeAt : Option Nat := none
  deriving DecidableEq, Repr

/-! Command processor, host, boot -/

/-- A node queue (R288, R313, R314): records as (number, length). -/
structure NodeQueue where
  sbase : Nat
  logc : Nat
  cdesc : Nat
  crec : Nat
  cls : Nat
  head : Nat := 0
  lens : List Nat := []
  rcd : CtxRec
  live : Option Nat := none          -- its live consumer launch
  clocks : List Clock := []          -- per record, what its spawnq released (R122)
  deriving DecidableEq, Repr

/-- A host queue known to the command processor (R308, R309, R317). -/
structure HostQueue where
  ctx : Nat
  q : Nat
  wptr : W32
  rptr : W32
  cls : Nat
  record : W64                       -- virtual address of its record
  rbase : W64
  logn : Nat
  slot : Option Nat := none
  opened : Option Nat := none        -- an open packet: the launch of a LAUNCH, 0 for a COND or WAIT
  stopped : Bool := false
  boundary : Bool := false           -- RPTR has just advanced: nothing is done yet of the packet there (R318)
  since : Nat := 0                   -- when it began to wait, in the order of the command processor's steps
  reclaim : Bool := false            -- its slot goes at its next command boundary (R318)
  order : Nat := 0                   -- launches taken
  rcd : CtxRec
  deriving DecidableEq, Repr

/-- The registers of one context (R68, R126, R308, R340, R350). -/
structure CtxRegs where
  htbase : W64 := 0
  htlim : BitVec 24 := 0
  qtbase : W64 := 0
  qtlim : BitVec 17 := 0
  osbase : W64 := 0
  oscnt : W32 := 0
  msz : Bool := false
  svbase : W64 := 0
  svcnt : BitVec 16 := 0
  jdbase : W64 := 0
  saveUsed : List Nat := []
  queues : SMap NodeQueue := []
  watched : Bool := false            -- a debugger is attached (R347)
  deriving DecidableEq, Repr

/-- The registers of one function's W0 view that have no home elsewhere (R27, R126, R307 to R316, R340, R346, R350, R367,
R369, R376) and its MSI-X vectors (R370). -/
structure Fn where
  xinvAddr : W64 := 0
  xinvBusy : Option (Nat × Nat × Nat × Nat) := none   -- (stage, scope, context or function, page)
  htsel : BitVec 16 := 0
  cmsel : BitVec 16 := 0
  qtsel : BitVec 16 := 0
  svsel : BitVec 16 := 0
  jdsel : BitVec 16 := 0
  ctbase : W64 := 0
  ctlim : BitVec 16 := 0
  qerr : BitVec 4 := 0
  lcaddr : W64 := 0
  lcarg : W64 := 0
  lcctx : BitVec 16 := 0
  lcop : BitVec 2 := 0
  lcres : BitVec 2 := 0
  prctl : W64 := 0
  dbgctl : W64 := 0
  dbgErr : Bool := false
  dbgreg : BitVec 16 := 0
  dbgdata : W64 := 0
  dwatch0 : W64 := 0
  dwatch1 : W64 := 0
  dwlen0 : W32 := 0
  dwlen1 : W32 := 0
  flink : BitVec 1 := 0
  lkbase : W64 := 0
  lkcnt : BitVec 13 := 0
  w1base : W64 := 0
  w1lim : W64 := 0
  w1data : List Byte := []           -- what the host's last read through W1 gave (R369)
  msix : List (Nat × BitVec 1) := []     -- the MSI-X writes that have left: vector, and the link FLINK named then (R367, R370)
  deriving DecidableEq, Repr

/-- What leaves on the Mladin links (R376 to R378): a request of a COLL operation for one element, which names the function and
context that make it, or the answer to a peer, none where it is refused. Data read from a poisoned sector goes poisoned
(R63). -/
inductive LinkMsg where
  | request (dev vfn ctx fromFn fromCtx op : Nat) (va : W64) (len : Nat) (bytes : List Byte) (poison : Bool)
  | answer (dev : Nat) (data : Option (List Byte)) (poison : Bool)
  deriving DecidableEq, Repr

/-- The physical function's registers that exist once (R51 to R64, R319, R375). -/
structure Device where
  hmask : SMap W64 := []             -- keyed 8 * p + i, current; unlisted: M0 << i
  hmaskShadow : SMap W64 := []
  partRng : SMap W64 := []
  partRngShadow : SMap W64 := []
  hcommit : Option (BitVec 7) := none
  mdzAddr : W64 := 0
  mdzPages : BitVec 20 := 0
  ue : SMap W32 := []
  ce : SMap W32 := []
  wrate : SMap W32 := []
  wlat : SMap W32 := []
  wmax : SMap W32 := []
  wmsh : SMap W32 := []
  ldevid : BitVec 22 := 0            -- DESIGN CHOICE (log 3)
  rtbase : W64 := 0                 -- DESIGN CHOICE 0 (log 3)
  portsDown : NSet := []             -- DESIGN CHOICE: all ports up (log 3)
  dbl : NSet := []                   -- DTEMP DBL, by layer
  layerTemp : SMap Int := []         -- DTEMP TEMP, 1/16 °C; DESIGN CHOICE 0 (log 3)
  blocked : NSet := []               -- ranks in refresh, keyed 8 * channel + layer
  emergency : Bool := false          -- R360
  deriving DecidableEq, Repr

/-- Boot and the root of trust (R371 to R374). -/
structure Boot where
  started : Bool := false
  stage : Nat := 0
  err : Nat := 0
  failImg : Nat := 0
  recovery : Bool := false
  measured : List (List Byte) := [List.replicate 32 0, List.replicate 32 0, List.replicate 32 0, List.replicate 32 0]
  versions : List Nat := [0, 0, 0, 0]
  nonce : List Byte := List.replicate 32 0     -- DESIGN CHOICE zeros, as the report (log 3)
  report : List Byte := List.replicate 320 0   -- DESIGN CHOICE zeros (log 3)
  reported : Bool := false           -- MBCTL bit 1
  lastReport : Nat := 0
  deriving DecidableEq, Repr

/-- The fuses (R371, R374): DESIGN CHOICE empty at reset (log 3). Nothing but the root-of-trust core writes them. -/
structure Fuses where
  keyHashes : List (List Byte) := []
  revoked : List Nat := []
  minVersions : List Nat := [0, 0, 0, 0]
  serial : List Byte := List.replicate 16 0
  attestKey : List Byte := List.replicate 64 0
  deriving DecidableEq, Repr

end Sys2Proof.Machine
end

