-- ==== Sys2Proof/Machine/Float.lean ====
section
/-! DEFINITION. The number formats and the arithmetic of spec/07: exact values, one rounding, K8, K4, S8, conversions,
exact sums. A finite value is ±m × 2^e, so every sum and product is exact (R8). -/

namespace Sys2Proof.Machine

/-- An exact value: NaN (or NaR), an infinity, or ±m × 2^e. -/
inductive Num where
  | nan
  | inf (neg : Bool)
  | fin (neg : Bool) (m : Nat) (e : Int)
  deriving DecidableEq, Repr

/-- The rounding modes of R162. -/
inductive Rnd where
  | rne | rz | rd | ru
  deriving DecidableEq, Repr

def Rnd.ofCode (c : BitVec 2) : Rnd :=
  match c.toNat with
  | 0 => .rne | 1 => .rz | 2 => .rd | _ => .ru

/-- An IEEE format of R160 by its exponent and fraction bits. -/
structure Fmt where
  eb : Nat
  fb : Nat
  deriving DecidableEq, Repr

namespace Fmt
def f64 : Fmt := ⟨11, 52⟩
def f32 : Fmt := ⟨8, 23⟩
def f16 : Fmt := ⟨5, 10⟩
def b16 : Fmt := ⟨8, 7⟩
def bias (f : Fmt) : Int := 2 ^ (f.eb - 1) - 1
def emin (f : Fmt) : Int := 1 - f.bias
def expMax (f : Fmt) : Nat := 2 ^ f.eb - 1
def width (f : Fmt) : Nat := 1 + f.eb + f.fb
/-- The canonical NaN of R160. -/
def nanBits (f : Fmt) : Nat := f.expMax * 2 ^ f.fb + 2 ^ (f.fb - 1)
def infBits (f : Fmt) (neg : Bool) : Nat := (if neg then 2 ^ (f.eb + f.fb) else 0) + f.expMax * 2 ^ f.fb
def maxBits (f : Fmt) (neg : Bool) : Nat := f.infBits neg - 1
end Fmt

namespace Num

def zero (neg : Bool) : Num := .fin neg 0 0
def ofNat (n : Nat) : Num := .fin false n 0
def ofInt (i : Int) : Num := .fin (i < 0) i.natAbs 0

/-- The value of a code of an IEEE format. -/
def decode (f : Fmt) (x : Nat) : Num :=
  let neg := bitOf x (f.eb + f.fb)
  let ex := x / 2 ^ f.fb % 2 ^ f.eb
  let fr := x % 2 ^ f.fb
  if ex = f.expMax then (if fr = 0 then .inf neg else .nan)
  else if ex = 0 then .fin neg fr (f.emin - f.fb)
  else .fin neg (2 ^ f.fb + fr) ((ex : Int) - f.bias - f.fb)

/-- Number of bits of `m`. -/
def bitLen (m : Nat) : Nat := if m = 0 then 0 else Nat.log2 m + 1

/-- Whether magnitude `q + r/d` (0 < r < d) of sign `neg` rounds up to `q + 1`. -/
def roundsUp (mode : Rnd) (neg : Bool) (q r d : Nat) : Bool :=
  match mode with
  | .rne => 2 * r > d || (2 * r = d && q % 2 = 1)
  | .rz => false
  | .rd => neg && r ≠ 0
  | .ru => !neg && r ≠ 0

/-- m × 2^e rounded to a multiple of 2^q, as that multiple. -/
def quantize (mode : Rnd) (neg : Bool) (m : Nat) (e q : Int) : Nat :=
  if q ≤ e then m * 2 ^ (e - q).toNat
  else
    let d := 2 ^ (q - e).toNat
    let k := m / d
    if roundsUp mode neg k (m % d) d then k + 1 else k

/-- RoundF of R161: the code, and whether a finite value overflowed. -/
def roundFull (f : Fmt) (mode : Rnd) : Num → Nat × Bool
  | .nan => (f.nanBits, false)
  | .inf neg => (f.infBits neg, false)
  | .fin neg m e =>
    let s := if neg then 2 ^ (f.eb + f.fb) else 0
    if m = 0 then (s, false)
    else
      let top : Int := e + bitLen m - 1
      let q : Int := max top f.emin - f.fb
      let k := quantize mode neg m e q
      let (k, q) := if k = 2 ^ (f.fb + 1) then (2 ^ f.fb, q + 1) else (k, q)
      if k < 2 ^ f.fb then (s + k, false)
      else
        let ex := q + f.fb + f.bias
        if ex ≥ f.expMax then
          let toInf := match mode with | .rne => true | .rz => false | .ru => !neg | .rd => neg
          (if toInf then f.infBits neg else f.maxBits neg, toInf)
        else (s + ex.toNat * 2 ^ f.fb + (k - 2 ^ f.fb), false)

def round (f : Fmt) (mode : Rnd) (x : Num) : Nat := (roundFull f mode x).1

/-- RoundF under .sat: an infinity from a finite value becomes the largest finite (R163). -/
def roundSat (f : Fmt) (mode : Rnd) (sat : Bool) (x : Num) : Nat × Bool :=
  let r := roundFull f mode x
  if sat && r.2 then
    (match x with | .fin neg _ _ => f.maxBits neg | _ => r.1, false)
  else r

def isNan : Num → Bool
  | .nan => true
  | _ => false

def isInf : Num → Bool
  | .inf _ => true
  | _ => false

def isZero : Num → Bool
  | .fin _ m _ => m = 0
  | _ => false

def negative : Num → Bool
  | .nan => false
  | .inf n => n
  | .fin n _ _ => n

def neg : Num → Num
  | .nan => .nan
  | .inf n => .inf !n
  | .fin n m e => .fin (!n) m e

def abs : Num → Num
  | .nan => .nan
  | .inf _ => .inf false
  | .fin _ m e => .fin false m e

/-- The exact product; zero times infinity is NaN (R173). -/
def mul : Num → Num → Num
  | .nan, _ | _, .nan => .nan
  | .inf a, .inf b => .inf (a != b)
  | .inf a, .fin b m _ | .fin b m _, .inf a => if m = 0 then .nan else .inf (a != b)
  | .fin a m e, .fin b n f => .fin (a != b) (m * n) (e + f)

/-- The finite part of a sum as an integer multiple of 2^e. -/
def scaled (e : Int) : Num → Int
  | .fin neg m f => (if neg then -1 else 1) * ((m * 2 ^ (f - e).toNat : Nat) : Int)
  | _ => 0

def expOf : Num → Option Int
  | .fin _ 0 _ => none
  | .fin _ _ e => some e
  | _ => none

def minExp : List Num → Int
  | [] => 0
  | x :: xs => match x.expOf with
    | none => minExp xs
    | some e => match xs.filterMap expOf with
      | [] => e
      | _ => min e (minExp xs)

/-- ExactSum of R173; an exact zero takes its sign under R161. -/
def sum (mode : Rnd) (ts : List Num) : Num :=
  let pos := ts.any fun t => t == .inf false
  let ng := ts.any fun t => t == .inf true
  if ts.any isNan || (pos && ng) then .nan
  else if pos then .inf false
  else if ng then .inf true
  else
    let e := minExp ts
    let t := ts.foldl (fun a x => a + scaled e x) 0
    if t = 0 then zero (if ts.all negative then true else mode == .rd)
    else .fin (t < 0) t.natAbs e

def add (mode : Rnd) (a b : Num) : Num := sum mode [a, b]
def sub (mode : Rnd) (a b : Num) : Num := sum mode [a, b.neg]

/-- Strict order of values; false where either is NaN. -/
def lt : Num → Num → Bool
  | .nan, _ | _, .nan => false
  | .inf a, .inf b => a && !b
  | .inf a, .fin _ _ _ => a
  | .fin _ _ _, .inf b => !b
  | .fin a m e, .fin b n f =>
    let k := min e f
    scaled k (.fin a m e) < scaled k (.fin b n f)

def eq : Num → Num → Bool
  | .nan, _ | _, .nan => false
  | a, b => !lt a b && !lt b a

/-- MaxF of R176: −0 below +0, one NaN yields the other operand. -/
def maxF (a b : Num) : Num :=
  match a, b with
  | .nan, x => x
  | x, .nan => x
  | a, b => if lt a b then b else if lt b a then a else if a.negative then b else a

def minF (a b : Num) : Num :=
  match a, b with
  | .nan, x => x
  | x, .nan => x
  | a, b => if lt a b then a else if lt b a then b else if a.negative then a else b

/-- RoundInt: the nearest integer by mode; infinities and NaN stay, a zero keeps the sign of x. -/
def roundInt (mode : Rnd) : Num → Num
  | .fin neg m e => .fin neg (quantize mode neg m e 0) 0
  | x => x

/-- The integer a finite integral value is. -/
def toInt : Num → Int
  | .fin neg m e => (if neg then -1 else 1) * ((quantize .rz neg m e 0 : Nat) : Int)
  | _ => 0

end Num

/-- An F32 result with any NaN canonical (R9, R161). -/
def canonF32 (x : W32) : W32 := if (Num.decode .f32 x.toNat).isNan then 0x7FC00000 else x

/-! K8 and K4 (R165 to R168) -/

/-- The exponent and significand (m × 2^-w) of the magnitude code of a K8 number. -/
def k8Mag (c : Nat) : Nat × Int :=
  let b := bitOf c
  if b 6 then (16 + c % 16, (c / 16 % 4 : Nat) - 2 - 4)
  else if b 5 then (8 + c % 8, (if b 4 then (-3 : Int) - (c / 8 % 2 : Nat) else 2 + (c / 8 % 2 : Nat)) - 3)
  else if b 4 then (4 + c % 4, (if b 3 then (-5 : Int) - (c / 4 % 2 : Nat) else 4 + (c / 4 % 2 : Nat)) - 2)
  else if b 3 then (2 + c % 2, (if b 2 then (-7 : Int) - (c / 2 % 2 : Nat) else 6 + (c / 2 % 2 : Nat)) - 1)
  else if b 2 then (1, if b 1 then -9 - (c % 2 : Nat) else 8 + (c % 2 : Nat))
  else if b 1 then (1, if b 0 then -11 else 10)
  else if b 0 then (1, -12)
  else (0, 0)

/-- The value of a K8 code: 0x00 is zero, 0x80 is NaR (R165). -/
def k8Value (c : Nat) : Num :=
  let c := c % 256
  if c = 0x80 then .nan
  else
    let (m, e) := k8Mag (c % 128)
    .fin (c ≥ 128) m e

/-- The positive K8 codes in increasing order of value: by exponent, then by code (R165). -/
def k8Order : List Nat :=
  [0x01, 0x03, 0x07, 0x06, 0x0E, 0x0F, 0x0C, 0x0D] ++ (List.range 4).map (0x1C + ·) ++ (List.range 4).map (0x18 + ·) ++
  (List.range 8).map (0x38 + ·) ++ (List.range 8).map (0x30 + ·) ++ (List.range 64).map (0x40 + ·) ++
  (List.range 8).map (0x20 + ·) ++ (List.range 8).map (0x28 + ·) ++ (List.range 4).map (0x10 + ·) ++
  (List.range 4).map (0x14 + ·) ++ [0x08, 0x09, 0x0A, 0x0B, 0x04, 0x05, 0x02]

/-- The K4 magnitude codes in order of value (R167). -/
def k4Mag (c : Nat) : Nat × Int :=
  match c % 8 with
  | 0 => (0, 0) | 1 => (1, -1) | 2 => (1, 0) | 3 => (3, -1) | 4 => (1, 1) | 5 => (3, 0) | 6 => (1, 2) | _ => (3, 1)

/-- The value of a K4 code; 0b1000 reads as +0 (R167). -/
def k4Value (c : Nat) : Num :=
  let (m, e) := k4Mag c
  .fin (bitOf c 3 && m ≠ 0) m e

/-- Rounds a positive magnitude into an ordered list of codes whose values are `val`, `lo` being the code below the
list: the shared rule of RoundK8 and RoundK4 (R166, R168). -/
def roundCodes (val : Nat → Num) (mode : Rnd) (neg : Bool) (m : Num) : Nat → List Nat → Nat
  | lo, [] => lo
  | lo, c :: cs =>
    let hi := val c
    if Num.eq m hi then c
    else if Num.lt hi m then roundCodes val mode neg m c cs
    else
      let up := match mode with
        | .rz => false
        | .rd => neg
        | .ru => !neg
        | .rne =>
          let mid := Num.mul (Num.sum .rne [val lo, hi]) (.fin false 1 (-1))
          if Num.lt mid m then true
          else if Num.lt m mid then false
          else if lo % 2 = c % 2 then true
          else c % 2 = 0
      if up then c else lo

/-- RoundK8 of R166. -/
def roundK8 (mode : Rnd) (x : Num) : Nat :=
  match x with
  | .nan => 0x80
  | .inf neg => (if neg then 0x80 else 0) + 0x02
  | .fin neg m e =>
    let c := if m = 0 then 0 else roundCodes k8Value mode neg (.fin false m e) 0 k8Order
    if c = 0 then 0 else (if neg then 0x80 else 0) + c

/-- RoundK4 of R168; NaN gives 0. -/
def roundK4 (mode : Rnd) (x : Num) : Nat :=
  match x with
  | .nan => 0
  | .inf neg => (if neg then 8 else 0) + 7
  | .fin neg m e =>
    let c := if m = 0 then 0 else roundCodes k4Value mode neg (.fin false m e) 0 [1, 2, 3, 4, 5, 6, 7]
    if c = 0 then 0 else (if neg then 8 else 0) + c

/-- The scale an S8 byte stands for (R169). -/
def s8Value (s : Nat) : Num := if s = 0xFF then .nan else .fin false 1 ((s : Int) - 127)

/-! Conversions (R170, R171) -/

def fmtOf : NumType → Option Fmt
  | .f32 => some .f32
  | .f64 => some .f64
  | .f16 => some .f16
  | .b16 => some .b16
  | _ => none

/-- Width and signedness of an integer type. -/
def intOf : NumType → Option (Nat × Bool)
  | .i32 => some (32, true) | .n32 => some (32, false) | .i16 => some (16, true) | .n16 => some (16, false)
  | .i8 => some (8, true) | .n8 => some (8, false)
  | _ => none

/-- The exact value of a source code of type `t`. -/
def numValue (t : NumType) (x : Nat) : Num :=
  match fmtOf t, intOf t with
  | some f, _ => Num.decode f x
  | none, some (w, true) => Num.ofInt (signedOf w x)
  | none, some (w, false) => Num.ofNat (x % 2 ^ w)
  | none, none => if t = NumType.k8 then k8Value x else k4Value x

def clampInt (w : Nat) (signed : Bool) (y : Int) : Int :=
  let lo : Int := if signed then -(2 ^ (w - 1)) else 0
  let hi : Int := if signed then 2 ^ (w - 1) - 1 else 2 ^ w - 1
  max lo (min hi y)

/-- A conversion result: the code, whether it overflowed to an infinity (FP_OVF), whether it raises FP_INVALID. -/
structure Conv where
  bits : Nat
  ovf : Bool := false
  invalid : Bool := false
  deriving DecidableEq, Repr

/-- R170, R171: the value `x` converted into type `d`. -/
def convertTo (d : NumType) (mode : Rnd) (sat : Bool) (fromInt : Bool) (x : Num) : Conv :=
  match fmtOf d, intOf d with
  | some f, _ => let r := Num.roundSat f mode sat x; { bits := r.1, ovf := r.2 }
  | none, some (w, sg) =>
    if fromInt then
      let y := x.toInt
      { bits := wrapTo w (if sat then clampInt w sg y else y) }
    else match x with
      | .nan => { bits := 0, invalid := !sat }
      | .inf neg => { bits := wrapTo w (clampInt w sg (if neg then -(2 ^ 64) else 2 ^ 64)) }
      | x => { bits := wrapTo w (clampInt w sg (x.roundInt mode).toInt) }
  | none, none =>
    if d = .k8 then { bits := roundK8 mode x }
    else { bits := roundK4 mode x, invalid := x.isNan && !sat }

/-- R170: a code of type `s` converted into type `d`; a type to itself keeps integers and K codes unchanged. -/
def convert (s d : NumType) (mode : Rnd) (sat : Bool) (x : Nat) : Conv :=
  if s = d && fmtOf s = none then
    { bits := match intOf s with | some (w, _) => x % 2 ^ w | none => if s = .k8 then x % 256 else x % 16 }
  else convertTo d mode sat (intOf s).isSome (numValue s x)

/-! Square root and reciprocal, correctly rounded (R238) -/

/-- The integer square root by bits, `n` bits of root. -/
def isqrt (x : Nat) : Nat → Nat → Nat
  | 0, r => r
  | n + 1, r => let t := r + 2 ^ n; isqrt x n (if t * t ≤ x then t else r)

/-- √(m × 2^e) to at least 70 significant bits with a sticky low bit: an exact stand-in for one rounding. -/
def sqrtNum (m : Nat) (e : Int) : Num :=
  let sh : Nat := 160 + (if (e - 160) % 2 = 0 then 0 else 1)
  let x := m * 2 ^ sh
  let r := isqrt x ((Num.bitLen x + 1) / 2) 0
  .fin false (2 * r + (if r * r = x then 0 else 1)) ((e - sh) / 2 - 1)

/-- 1 / (m × 2^e) to at least 70 bits with a sticky low bit. -/
def recipNum (neg : Bool) (m : Nat) (e : Int) : Num :=
  let k := Num.bitLen m + 80
  let q := 2 ^ k / m
  .fin neg (2 * q + (if 2 ^ k % m = 0 then 0 else 1)) (-e - k - 1)

end Sys2Proof.Machine
end

