-- ==== Sys2Proof/Machine/State.lean ====
section
/-! DEFINITION. The state of the machine, why a step can stop, and the state after reset. -/

namespace Sys2Proof.Machine

/-- One move of the schedule (R113, R116; log entry 1): a group's turn, an event of the opcode table, time passing in a
cluster or at the command processor, the quiet loss of a cached translation or merge-buffer entry, the arrival of a queued
access at its slice, or the choice of an engine operation's next elements. -/
inductive Move where
  | go (g : Nat)
  | event (i : Instr)
  | pass (cl : Nat) (cycles : Nat)
  | tick (us : Nat)
  | dropTlb (cl : Nat) (i : Nat)
  | dropMerge (i : Nat)
  | arrive (g id : Nat)                                 -- a queued access reaches its slice (R126)
  | pick (op : Nat) (pts : List Nat)                    -- elements an engine operation takes up next (R116)
  | ring (i : Nat)                                      -- a doorbell that waited for its record is acted on (R309)
  | regWrite (fn off : Nat) (wide : Bool) (val : W64)   -- a device store to W0 performs as the next move (R15)
  deriving DecidableEq, Repr

/-- The reasons the machine stops. No architectural event of the X6 stops the whole machine: faults of the spec are
traps (R334) or engine outcomes (R98). -/
inductive Fault where
  /-- An address outside the 52-bit physical space (R15). No translation produces one, so no meaning raises it. Safe. -/
  | noSuchAddress (pa : Nat)
  deriving DecidableEq, Repr

/-- Why an instruction has no meaning. -/
inductive Refusal where
  /-- An instruction the model does not give a meaning to; raised by arms of `exec` only. Safe. -/
  | notModelled (mnemonic : String)
  deriving DecidableEq, Repr

/-- Everything the spec gives the machine, and the model's own schedule fields (the first four). -/
structure State where
  /-- The schedule: the moves that come next, oldest first (log entry 1). -/
  moves : List Move
  /-- The group whose turn it is (log entry 1). -/
  cur : Option Nat
  /-- The counter free values are applied to (log entry 5). -/
  free : Nat
  /-- Fresh identities of grids, launches and engine operations. -/
  fresh : Nat
  /-- Physical memory as the home slices hold it (R15, R49). -/
  mem : Memory
  home : Home
  groups : SMap Group
  teams : SMap Team
  grids : SMap Grid
  launches : SMap Launch
  cores : SMap Core
  clusters : SMap Cluster
  strings : SMap Str
  tables : SMap PrTable
  colls : List CollOp
  queues : SMap HostQueue
  /-- Doorbells that wait for the read of their queue record: the function and what was written, oldest first (R309). -/
  doorbells : List (Nat × W64)
  ctxs : SMap CtxRegs
  fns : SMap Fn
  dev : Device
  boot : Boot
  fuses : Fuses
  /-- What has left on the Mladin links, oldest first (R376, R378). -/
  linkOut : List LinkMsg
  /-- The command processor's timer, microseconds (R321). -/
  timer : Nat
  deriving DecidableEq, Repr

/-- The machine right after power-on, before the root-of-trust core has started (R371): every register at its reset
value, nothing resident, memory with nothing listed. -/
def State.reset : State where
  moves := []
  cur := none
  free := 0
  fresh := 1
  mem := []
  home := {}
  groups := []
  teams := []
  grids := []
  launches := []
  cores := []
  clusters := []
  strings := []
  tables := []
  colls := []
  queues := []
  doorbells := []
  ctxs := []
  fns := []
  dev := {}
  boot := {}
  fuses := {}
  linkOut := []
  timer := 0

end Sys2Proof.Machine
end

