-- ==== Sys2Proof/Machine/Monad.lean ====
section
/-! DEFINITION. How a meaning changes the state. A run of a meaning carries a proof that every state it passes through is
reached by primitive changes: a write of one memory byte, or a change that leaves memory and the fuses alone. So what
every primitive change keeps, every step keeps (`Path`). -/

namespace Sys2Proof.Machine

/-- The states reached from `z` by primitive changes. -/
inductive Path (z : State) : State → Prop where
  | refl : Path z z
  | write {t : State} (p : Path z t) (a : Nat) (b : Byte) : Path z { t with mem := Memory.write t.mem a b }
  | other {t u : State} (p : Path z t) (hm : u.mem = t.mem) (hf : u.fuses = t.fuses) : Path z u

/-- What waits when a system party waits for a page: a group's word, a team's begin, a launch's completion record, or an event
at its journal point (R322). -/
inductive SysWaiter where
  | group (g : Nat)
  | team (e : Nat)
  | record (l : Nat)
  | event (l : Nat) (h : JHold)
  deriving Repr

/-- Why a meaning ends without a result. -/
inductive Stop where
  | stay                                          -- its condition does not hold: nothing changes
  | held (launch : Nat) (h : JHold)               -- a journal point holds its event (R350, R352, R354)
  | trap (ds : List Detail) (tmask : Option W32)  -- causes found after issue; the lanes left unperformed (R37)
  | request (ctx vfn stage page kind : Nat) (who : Option SysWaiter := none)
                                                  -- a system party's access misses: it makes its request and waits (R31)
  deriving Repr

/-- A state with its path from `z`. -/
abbrev Run (z : State) := { t : State // Path z t }

/-- A meaning run from state `z`. -/
abbrev M (z : State) := StateT (Run z) (Except Stop)

variable {z : State}

/-- What a state change may not touch: memory (written byte by byte) and the fuses. -/
structure Keeps (f : State → State) : Prop where
  mem : ∀ t, (f t).mem = t.mem
  fuses : ∀ t, (f t).fuses = t.fuses

def getS : M z State := fun t => .ok (t.1, t)

def modS (f : State → State) (h : Keeps f := by exact ⟨fun _ => rfl, fun _ => rfl⟩) : M z Unit :=
  fun t => .ok ((), ⟨f t.1, t.2.other (h.mem t.1) (h.fuses t.1)⟩)

def writeByte (a : Nat) (b : Byte) : M z Unit :=
  fun t => .ok ((), ⟨{ t.1 with mem := Memory.write t.1.mem a b }, t.2.write a b⟩)

def writeBytes (a : Nat) : List Byte → M z Unit
  | [] => pure ()
  | b :: bs => do writeByte a b; writeBytes (a + 1) bs

def stay {α : Type} : M z α := fun _ => .error .stay
def raise {α : Type} (ds : List Detail) (tmask : Option W32 := none) : M z α := fun _ => .error (.trap ds tmask)

/-- `x`, or stay where it is absent. -/
def need {α : Type} (x : Option α) : M z α :=
  match x with
  | some a => pure a
  | none => stay

/-- Stay unless `b`. -/
def guardS (b : Bool) : M z Unit := if b then pure () else stay

/-- Run `m`; where it stops, its changes are undone and the reason is given. -/
def attempt {α : Type} (m : M z α) : M z (Except Stop α) := fun t =>
  match m t with
  | .ok (a, t') => .ok (.ok a, t')
  | .error e => .ok (.error e, t)

/-- A miss of a system party in `m` keeps `who` waiting, unless it is said already. -/
def asWaiter {α : Type} (who : SysWaiter) (m : M z α) : M z α := fun t =>
  match m t with
  | .error (.request c v st p k none) => .error (.request c v st p k (some who))
  | r => r

def forEach {α : Type} (xs : List α) (f : α → M z Unit) : M z Unit :=
  match xs with
  | [] => pure ()
  | x :: xs => do f x; forEach xs f

def mapEach {α β : Type} (xs : List α) (f : α → M z β) : M z (List β) :=
  match xs with
  | [] => pure []
  | x :: xs => do let y ← f x; let ys ← mapEach xs f; pure (y :: ys)

/-- Folds a state-dependent function over a list. -/
def foldEach {α β : Type} (xs : List α) (b : β) (f : β → α → M z β) : M z β :=
  match xs with
  | [] => pure b
  | x :: xs => do let b ← f b x; foldEach xs b f

end Sys2Proof.Machine
end

