-- ==== Sys2Proof/Machine/Base.lean ====
section
/-! DEFINITION. Reading and changing the parts of the state by name, and the numbering of agents (R1, R2). -/

namespace Sys2Proof.Machine

variable {z : State}

/-! Numbering (R1, R2): a core is `32 * y + x`, its cluster `16 * (y div 2) + x div 2`, a string four clusters. -/

def coreX (core : Nat) : Nat := core % 32
def coreY (core : Nat) : Nat := core / 32
def coreCluster (core : Nat) : Nat := 16 * (coreY core / 2) + coreX core / 2
def clusterString (cl : Nat) : Nat := cl / 4
/-- The CORE register: x in [5:0], y in [11:8] (R2). -/
def coreReg (core : Nat) : Nat := coreX core + 256 * coreY core
/-- The cores of a cluster, lowest id first (by the CORE value, R2). -/
def clusterCores (cl : Nat) : List Nat :=
  let x := 2 * (cl % 16)
  let y := 2 * (cl / 16)
  [32 * y + x, 32 * y + x + 1, 32 * (y + 1) + x, 32 * (y + 1) + x + 1]
def groupTeam (g : Nat) : Nat := g / 32
def groupIdx (g : Nat) : Nat := g % 32
def ctxFn (ctx : Nat) : Nat := ctx / 65536
def ctxId (ctx : Nat) : Nat := ctx % 65536

/-! Causes (R334) -/

namespace Cause
def hwerr := 0
def illOp := 1
def illOperand := 2
def illConv := 3
def perm := 4
def misalign := 5
def xlateNp := 6
def scratchOob := 7
def nbhOob := 8
def obufRes := 9
def layerOvf := 10
def layerBad := 11
def mixedSize := 12
def race := 13
def verFault := 14
def allowExh := 15
def div0 := 16
def fpInvalid := 17
def fpOvf := 18
def barMisuse := 19
def ticketVoid := 20
def jnlDiv := 21
def engineErr := 22
def ovlMiss := 23
def brk := 24
def trapi := 25
def step := 26
def watch := 27
def preempt := 28
end Cause

/-! Reading the parts -/

namespace State

def group? (s : State) (g : Nat) : Option Group := SMap.get? s.groups g
def team? (s : State) (e : Nat) : Option Team := SMap.get? s.teams e
def grid? (s : State) (i : Nat) : Option Grid := SMap.get? s.grids i
def launch? (s : State) (i : Nat) : Option Launch := SMap.get? s.launches i
def core (s : State) (i : Nat) : Core := (SMap.get? s.cores i).getD {}
def cluster (s : State) (i : Nat) : Cluster := (SMap.get? s.clusters i).getD {}
def str (s : State) (i : Nat) : Str := (SMap.get? s.strings i).getD {}
def table (s : State) (i : Nat) : PrTable := (SMap.get? s.tables i).getD {}
def ctx (s : State) (i : Nat) : CtxRegs := (SMap.get? s.ctxs i).getD {}
def fn (s : State) (i : Nat) : Fn := (SMap.get? s.fns i).getD {}
def queue? (s : State) (i : Nat) : Option HostQueue := SMap.get? s.queues i

/-- The groups of a team, by GIDX. -/
def teamGroups (s : State) (e : Nat) : List Nat :=
  match s.team? e with
  | some t => (List.range t.shape.groups).map (32 * e + ·)
  | none => []

/-- The core of a group, where its team is resident. -/
def groupCore? (s : State) (g : Nat) : Option Nat :=
  match s.team? (groupTeam g) with
  | some t => t.core
  | none => none

def groupCluster (s : State) (g : Nat) : Nat := coreCluster ((s.groupCore? g).getD 0)

end State

/-! Changing the parts -/

def modGroup (g : Nat) (f : Group → Group) : M z Unit := modS fun s => { s with groups := SMap.adjust s.groups g f }
def putGroup (g : Nat) (a : Group) : M z Unit := modS fun s => { s with groups := SMap.put s.groups g a }
def modTeam (e : Nat) (f : Team → Team) : M z Unit := modS fun s => { s with teams := SMap.adjust s.teams e f }
def modGrid (i : Nat) (f : Grid → Grid) : M z Unit := modS fun s => { s with grids := SMap.adjust s.grids i f }
def modLaunch (i : Nat) (f : Launch → Launch) : M z Unit := modS fun s => { s with launches := SMap.adjust s.launches i f }
def modCore (i : Nat) (f : Core → Core) : M z Unit := modS fun s => { s with cores := SMap.put s.cores i (f (s.core i)) }
def modCluster (i : Nat) (f : Cluster → Cluster) : M z Unit :=
  modS fun s => { s with clusters := SMap.put s.clusters i (f (s.cluster i)) }
def modStr (i : Nat) (f : Str → Str) : M z Unit := modS fun s => { s with strings := SMap.put s.strings i (f (s.str i)) }
def modTable (i : Nat) (f : PrTable → PrTable) : M z Unit :=
  modS fun s => { s with tables := SMap.put s.tables i (f (s.table i)) }
def modCtx (i : Nat) (f : CtxRegs → CtxRegs) : M z Unit := modS fun s => { s with ctxs := SMap.put s.ctxs i (f (s.ctx i)) }
def modFn (i : Nat) (f : Fn → Fn) : M z Unit := modS fun s => { s with fns := SMap.put s.fns i (f (s.fn i)) }
def modDev (f : Device → Device) : M z Unit := modS fun s => { s with dev := f s.dev }
def modHome (f : Home → Home) : M z Unit := modS fun s => { s with home := f s.home }
def modBoot (f : Boot → Boot) : M z Unit := modS fun s => { s with boot := f s.boot }
def modQueue (i : Nat) (f : HostQueue → HostQueue) : M z Unit := modS fun s => { s with queues := SMap.adjust s.queues i f }
def modColl (id : Nat) (f : CollOp → CollOp) : M z Unit :=
  modS fun s => { s with colls := s.colls.map fun c => if c.id = id then f c else c }

def getGroup (g : Nat) : M z Group := do need ((← getS).group? g)
def getTeam (e : Nat) : M z Team := do need ((← getS).team? e)
def getGrid (i : Nat) : M z Grid := do need ((← getS).grid? i)
def getLaunch (i : Nat) : M z Launch := do need ((← getS).launch? i)

/-- A fresh identity of a grid, a launch or an engine operation. -/
def freshId : M z Nat := do
  let n := (← getS).fresh
  modS fun s => { s with fresh := n + 1 }
  pure n

/-- A fresh free byte (log entry 5). -/
def freeByte : M z Byte := do
  let n := (← getS).free
  modS fun s => { s with free := n + 1 }
  pure (Config.freeByte n)

/-- The next step of the reference machine (R114). -/
def tickHome : M z Nat := do
  let n := (← getS).home.now + 1
  modHome fun h => { h with now := n }
  pure n

/-- Raises an MSI-X vector of a function (R370): a write that leaves by the link FLINK names (R367). -/
def raiseMsix (f v : Nat) : M z Unit := modFn f fun r => { r with msix := r.msix ++ [(v, r.flink)] }

/-- The context of a team, by key, and its launch's context record (R22, R311). -/
def teamRec (t : Team) : M z CtxRec := do
  let l ← getLaunch t.launch
  pure l.rcd

/-- R349, R355: JCTL.MODE in effect for a launch: off once a divergence was raised (R355). -/
def Launch.journal (l : Launch) : Nat := if l.div then 0 else l.jmode

/-- A hold of an event at a journal point, once; one that FST does not count takes the event from those it counts (R322). -/
def Launch.holdAt (l : Launch) (h : JHold) : Launch :=
  let counted := { h with counted := true }
  if !h.counted then { l with jheld := l.jheld.filter (· != counted) }
  else if l.jheld.contains h then l else { l with jheld := l.jheld ++ [h] }

/-- The holds of a group's events end with the events: it traps, ends, or presents another (R322). -/
def Launch.dropHolds (l : Launch) (src gidx : Nat) : Launch :=
  { l with jheld := l.jheld.filter fun h => h.sys || h.src != src || h.gidx != gidx }

/-- The live teams of a context with a tag (R134). -/
def findTag (s : State) (ctx tag : Nat) : Option Nat :=
  match s.teams.find? fun e => e.2.ctx == ctx && e.2.tag == tag && e.2.state != .done with
  | some e => some e.1
  | none => none

/-! Happens-before (R120, R127) -/

/-- The later of two bounds for every party. -/
def Clock.join (a b : Clock) : Clock := b.foldl (fun c e => if SMap.look 0 c e.1 < e.2 then SMap.put c e.1 e.2 else c) a

/-- The clock that also knows a party's accesses below `n`. -/
def Clock.upTo (c : Clock) (party n : Nat) : Clock := c.join [(party, n)]

/-- What a group's access number `u` is ordered after, besides the group's own accesses. -/
def Group.clockAt (gr : Group) (u : Nat) : Clock :=
  gr.acqs.foldl (fun c e => if e.1 ≤ u then c.join e.2 else c) []

/-- What a release of the group at its present place carries: all it is ordered after, and all it has issued. -/
def Group.release (gr : Group) (g : Nat) : Clock := (gr.clockAt gr.nextId).upTo g gr.nextId

/-- From its access number `u` on, the group is ordered after a clock. -/
def Group.follow (gr : Group) (u : Nat) (c : Clock) : Group :=
  if c.isEmpty then gr else { gr with acqs := gr.acqs ++ [(u, c)] }

/-- The party that an engine operation is (R89). -/
def engParty (op : Nat) : Nat := 2 ^ 61 + op

/-- What the retirement of a team releases, its groups' accesses (R122). -/
def teamRelease (s : State) (e : Nat) : Clock :=
  (s.teamGroups e).foldl (fun c g => match s.group? g with | some gr => c.join (gr.release g) | none => c) []

/-- The lines kept for a word of the group are let go (R129). -/
def unlockLines (g : Nat) : M z Unit := modHome fun h => { h with locked := h.locked.filter (·.2 != g) }

/-- A group as a party (R120). -/
def partyOf (s : State) (g : Nat) : Party :=
  match s.team? (groupTeam g) with
  | some t => { id := g, grid := t.grid, tidx := t.tidx, nbh := match s.grid? t.grid with | some gd => gd.nbh | none => false }
  | none => { id := g }

/-- Whether a scope of party `a` covers party `b` (R120). -/
def inScope (scope : Nat) (a b : Party) : Bool :=
  match scope with
  | 0 => a.id == b.id
  | 1 => a.group && b.group && a.grid == b.grid && a.tidx == b.tidx
  | 2 => a.group && b.group && a.grid == b.grid && (a.nbh || a.tidx == b.tidx)
  | 3 => b.device
  | _ => true

/-- What an acquire of party `b` at `scope` follows among releases: those whose scopes cover each other (R127). -/
def followed (b : Party) (scope : Nat) (rs : List Release) : Clock :=
  rs.foldl (fun c r => if (!r.sysOnly || (r.scope == 4 && scope == 4)) && inScope r.scope r.party b && inScope scope b r.party then c.join r.clock else c) []

/-! Registers (R202). No register reads as a constant; unlisted entries read 0. -/

namespace Group

def rs (g : Group) (n : Nat) : W64 := SMap.look 0 g.regs.s n
def rk (g : Group) (n : Nat) : W32 := SMap.look 0 g.regs.k n
def rv (g : Group) (n l : Nat) : W32 := SMap.look 0 g.regs.v (32 * n + l)
def ro (g : Group) (n l : Nat) : W32 := SMap.look 0 g.regs.o (32 * n + l)
def rl (g : Group) (n l : Nat) : W32 := SMap.look 0 g.regs.l (32 * n + l)
def rq (g : Group) (n l : Nat) : W32 := SMap.look 0 g.regs.q (32 * n + l)

/-- Writing a register clears its poison (R62: the granule is the register). -/
def setS (g : Group) (n : Nat) (x : W64) : Group :=
  { g with regs := { g.regs with s := SMap.store 0 g.regs.s n x }, poison := { g.poison with s := NSet.erase g.poison.s n } }
def setK (g : Group) (n : Nat) (x : W32) : Group :=
  { g with regs := { g.regs with k := SMap.store 0 g.regs.k n x }, poison := { g.poison with k := NSet.erase g.poison.k n } }
def setV (g : Group) (n l : Nat) (x : W32) : Group :=
  { g with regs := { g.regs with v := SMap.store 0 g.regs.v (32 * n + l) x }
           poison := { g.poison with v := NSet.erase g.poison.v (32 * n + l) } }
def setO (g : Group) (n l : Nat) (x : W32) : Group :=
  { g with regs := { g.regs with o := SMap.store 0 g.regs.o (32 * n + l) x }
           poison := { g.poison with o := NSet.erase g.poison.o (32 * n + l) } }
def setL (g : Group) (n l : Nat) (x : W32) : Group :=
  { g with regs := { g.regs with l := SMap.store 0 g.regs.l (32 * n + l) x }
           poison := { g.poison with l := NSet.erase g.poison.l (32 * n + l) } }
def setQ (g : Group) (n l : Nat) (x : W32) : Group :=
  { g with regs := { g.regs with q := SMap.store 0 g.regs.q (32 * n + l) x }
           poison := { g.poison with q := NSet.erase g.poison.q (32 * n + l) } }
def setExm (g : Group) (x : W32) : Group := { g with exm := x, poison := { g.poison with exm := false } }

def inHandler (g : Group) : Bool := g.trap.handler.isSome
/-- LCNT: loads issued and not landed (R205); atomics count, as they hold a load-set entry (log entry 12). -/
def lcnt (g : Group) : Nat :=
  (distinct ((g.ls.map (·.unit)) ++ (match g.parked with
    | some p => match p.acc.kind with | .load _ | .atom _ => [p.unit] | _ => []
    | none => []))).length
def fcnt (g : Group) : Nat := g.sfu.length

end Group

/-- The vector budget of a group (R138). -/
def Team.budget (t : Team) (gidx : Nat) : Nat :=
  if gidx < t.shape.producers then t.shape.vp else t.shape.vc

/-- The 15-bit slot and offset of a program counter (R205, TPC). -/
def packPc (slot : BitVec 1) (pc : BitVec 14) : BitVec 15 := slot ++ pc

/-- The word at an offset of a slot (R41). -/
def fetchAt (s : State) (core : Nat) (slot : BitVec 1) (off : Nat) : W32 :=
  SMap.look 0 (s.core core).imem (16384 * slot.toNat + off)

/-- PHASE[15:0] and phase mode of a team's launch (R154). -/
def phaseMode (s : State) (t : Team) : Bool :=
  match s.launch? t.launch with
  | some l => l.phm
  | none => false

end Sys2Proof.Machine
end

