-- ==== Sys2Proof/Machine/Home.lean ====
section
/-! DEFINITION. The home slices: which slice a line has (R50 to R54), reading and writing at the home slice with the
coherence stamps of the reference machine (R114, R115), line metadata (R58, R59), poison (R63), lines above DRAM
(R66, R67). -/

namespace Sys2Proof.Machine

variable {z : State}

/-! Physical ranges (R15) -/

inductive PaRange where
  | dram | control | host | reserved
  deriving DecidableEq, Repr

def paRange (pa : Nat) : PaRange :=
  if pa < 0x6000000000 then .dram
  else if 0x8000000000 ≤ pa && pa < 0x8004000000 then .control
  else if 0x8000000000000 ≤ pa && pa < 0xC000000000000 then .host
  else .reserved

/-- The memory types a range permits (R15). -/
def rangePermits (pa mt : Nat) : Bool :=
  match paRange pa with
  | .dram => mt = 0 || mt = 1
  | .control => mt = 2
  | .host => mt = 1 || mt = 2
  | .reserved => false

/-! Partitions and slices (R50 to R54) -/

def m0 : Nat := 0x20408102040

def maskOfPart (m : SMap W64) (p i : Nat) : Nat :=
  match SMap.get? m (8 * p + i) with
  | some v => v.toNat
  | none => m0 * 2 ^ i % 2 ^ 52

def parity (x : Nat) : Bool := popCount x 52 % 2 == 1

def rangeHolds (r : W64) (gran : Nat) : Bool :=
  r.getLsbD 63 && bitsOf r.toNat 21 0 ≤ gran && gran ≤ bitsOf r.toNat 53 32

/-- Partition(pa) of R50. -/
def partition (d : Device) (pa : Nat) : Nat :=
  (([1, 2, 3, 4, 5, 6, 7] : List Nat).find? fun p => rangeHolds (SMap.look 0 d.partRng p) (pa / 2 ^ 30)).getD 0

def sliceBy (d : Device) (p pa : Nat) : Nat :=
  (List.range 7).foldl (fun h i => if parity (pa &&& maskOfPart d.hmask p i) then h + 2 ^ i else h) 0

/-- HomeSlice(pa) of R50. -/
def homeSlice (d : Device) (pa : Nat) : Nat := sliceBy d (partition d pa) pa

/-- The DRAM channel and layer of a line (R54). -/
def dramChannel (d : Device) (pa : Nat) : Nat := sliceBy d 0 pa
def dramLayer (pa : Nat) : Nat := pa / 4096 % 8

/-- R53: an access to a range under commit waits at its issuer. -/
def commitBlocks (d : Device) (pa : Nat) : Bool :=
  match d.hcommit with
  | none => false
  | some sel => ([1, 2, 3, 4, 5, 6, 7] : List Nat).any fun p =>
      sel.getLsbD (p - 1) && (rangeHolds (SMap.look 0 d.partRng p) (pa / 2 ^ 30) ||
        rangeHolds (SMap.look 0 d.partRngShadow p) (pa / 2 ^ 30))

/-! The checked window (R58) -/

def ready (s : State) : Bool := s.boot.stage == 4 && !s.boot.recovery
def cwStart : Nat := Config.cwBase.toNat * 2 ^ 30
def cwBytes : Nat := Config.cwGran.toNat * 2 ^ 30
def mdStart : Nat := Config.mdBase.toNat * 2 ^ 27
def inWindow (s : State) (pa : Nat) : Bool := ready s && cwStart ≤ pa && pa < cwStart + cwBytes
def inMetadata (s : State) (pa : Nat) : Bool := ready s && mdStart ≤ pa && pa < mdStart + cwBytes / 8

/-- R61: a checked access to a line whose zeroing is in progress waits. -/
def zeroingBlocks (s : State) (pa : Nat) : Bool :=
  match s.home.zeroing with
  | some (page, n) => page ≤ pa / 4096 && pa / 4096 < page + n
  | none => false

/-- R129: an access of any other group to a line between the verdict on a word's lanes and their performance waits. -/
def lineLocked (s : State) (g pa : Nat) : Bool :=
  match SMap.get? s.home.locked (pa / 64) with
  | some h => h != g
  | none => false

/-! Lines present in their slices (R42, R49, R56) -/

def linePresent (h : Home) (line : Nat) : Bool := (SMap.get? h.dirty line).isSome || NSet.has h.clean line

/-- R56: the line would come from, or go to, a rank in refresh. -/
def rankBlocked (d : Device) (pa : Nat) : Bool :=
  !d.blocked.isEmpty && paRange pa == .dram && NSet.has d.blocked (8 * dramChannel d pa + dramLayer pa)

/-- A request for the line would wait in its channel (R56). -/
def channelWaits (s : State) (pa : Nat) : Bool := rankBlocked s.dev pa && !linePresent s.home (pa / 64)

/-- An access at a physical address waits at its issuer, or in the channel, whoever makes it (R53, R56). -/
def paBlocked (s : State) (pa : Nat) : Bool := commitBlocks s.dev pa || channelWaits s pa

/-! Reading -/

/-- The bytes of `n` addresses at the home slice. -/
def memBytes (s : State) (pa : Nat) : Nat → List Byte
  | 0 => []
  | n + 1 => Memory.read s.mem pa :: memBytes s (pa + 1) n

/-- The place in coherence order of a byte's last write (R115). -/
def stampOf (s : State) (pa : Nat) : Nat := SMap.look 0 s.home.marks pa

/-- The bytes with their coherence stamps. -/
def memCells (s : State) (pa n : Nat) : List (Byte × Nat) :=
  (List.range n).map fun i => (Memory.read s.mem (pa + i), stampOf s (pa + i))

/-- The sector of a physical address is poisoned (R63): in its slice, or, where the line is not there, in DRAM. -/
def sectorBad (h : Home) (sector : Nat) : Bool :=
  PSet.has h.poison sector || (NSet.has h.dramPoison (sector / 2) && !linePresent h (sector / 2))

/-- Whether any sector of [pa, pa + n) is poisoned (R63). -/
def sectorPoison (s : State) (pa n : Nat) : Bool := sectorBad s.home (pa / 32) || sectorBad s.home ((pa + n - 1) / 32)

/-! Who accesses memory (R125, R127) -/

/-- A party to memory at one of its accesses: its number, the access's number in its order, the number from which accesses
are its own, and what the access is ordered after. `sys`: a party whose accesses the handshake they belong to orders (log
entry 6). `rels`: the releases that a write of it carries. -/
structure Who where
  id : Nat
  unit : Nat := 0
  own : Nat := 0
  clock : Clock := []
  sys : Bool := false
  rels : List Release := []
  deriving Repr

/-- The number that the writes of one access have together, where a poisoned granule heals piece by piece (R63); 0: a write
that stands alone. -/
def Who.healer (w : Who) : Nat := if w.sys then 0 else w.id * 2 ^ 64 + w.unit + 1

/-- The task unit, the command processor, a walker, a journal point. -/
def sysParty : Who := { id := 0xFFFFFFFFFF, sys := true }

/-- Whether an earlier access is ordered before this one: by program order, or by happens-before (R127). -/
def Who.knows (w : Who) (p : Past) : Bool :=
  (p.writer == w.id && w.own ≤ p.unit) || p.unit < SMap.look 0 w.clock p.writer

/-- R125: an earlier access to the byte at `pa`, at another address or size, one of the two a write, which nothing orders
before this one. -/
def mixed (s : State) (w : Who) (base size : Nat) (wr : Bool) (pa : Nat) : Bool :=
  !w.sys && (SMap.look [] s.home.past pa).any fun p =>
    (wr || p.write) && (p.base != base || p.size != size) && p.base < base + size && base < p.base + p.size && !w.knows p

/-- The accesses that R125 may look at later: each party's latest of each address, size and kind. -/
def recordPast (w : Who) (base size : Nat) (wr : Bool) (pa : Nat) : M z Unit :=
  if w.sys then pure ()
  else modHome fun h =>
    let old := (SMap.look [] h.past pa).filter fun p =>
      !(p.writer == w.id && p.base == base && p.size == size && p.write == wr)
    { h with past := SMap.put h.past pa ({ writer := w.id, unit := w.unit, base := base, size := size, write := wr } :: old) }

/-! Bringing a line to its slice (R42, R49) -/

/-- A line goes to its channel: DRAM holds what the slice held, and a poisoned sector poisons the DRAM line (R63). -/
def writeBack (line : Nat) : M z Unit :=
  modHome fun h =>
    let bad := PSet.has h.poison (2 * line) || PSet.has h.poison (2 * line + 1)
    { h with dirty := SMap.del h.dirty line
             poison := SMap.del (SMap.del h.poison (2 * line)) (2 * line + 1)
             dramPoison := NSet.set h.dramPoison line bad }

/-- A line leaves its slice: written back where it is dirty, dropped where it is not. -/
def evictLine (line : Nat) : M z Unit := do
  match SMap.get? (← getS).home.dirty line with
  | some _ => writeBack line
  | none => modHome fun h => { h with clean := NSet.erase h.clean line }

/-- Room for one more line of a slice: 32,768 lines are 2 MiB (R42). Which line goes is not architected: a free value
chooses, among those whose rank is not in refresh (log entry 83). -/
def makeRoom (pa : Nat) : M z Unit := do
  let s ← getS
  if s.home.dirty.length + s.home.clean.length < 32768 then pure ()
  else
    let slice := homeSlice s.dev pa
    let here := (SMap.keys s.home.dirty ++ SMap.keys s.home.clean).filter fun l => homeSlice s.dev (64 * l) == slice
    if here.length < 32768 then pure ()
    else
      let free := here.filter fun l => !rankBlocked s.dev (64 * l)
      guardS !free.isEmpty
      let n := s.free
      modS fun s => { s with free := n + 1 }
      evictLine (free.getD ((Config.freeWord n).toNat % free.length) 0)

/-- A line that is not in its slice is filled from its channel, with the poison DRAM holds (R49, R63). -/
def bringLine (pa : Nat) : M z Unit := do
  let s ← getS
  let line := pa / 64
  if linePresent s.home line then pure ()
  else
    guardS (!rankBlocked s.dev pa)
    makeRoom pa
    modHome fun h =>
      { h with clean := NSet.add h.clean line
               poison := if NSet.has h.dramPoison line then PSet.add (PSet.add h.poison (2 * line)) (2 * line + 1) else h.poison }

/-- The line becomes dirty in its slice: what DRAM holds beneath it is kept (R49, R66). -/
def touchLine (pa : Nat) : M z Unit := do
  bringLine pa
  let s ← getS
  let line := pa / 64
  match SMap.get? s.home.dirty line with
  | some _ => pure ()
  | none => modHome fun h =>
      { h with clean := NSet.erase h.clean line, dirty := SMap.put h.dirty line (memBytes s (64 * line) 64) }

/-! Accesses at the home slice -/

/-- A read of bytes at places from `at_` that a source supplies: it is on record, and bytes of a mixed-size overlap are free
(R125, log entry 6). -/
def noteRead (w : Who) (at_ : Nat) (bytes : List Byte) : M z (List Byte) := do
  let n := bytes.length
  mapEach bytes.zipIdx fun (b, i) => do
    let s ← getS
    recordPast w at_ n false (at_ + i)
    if mixed s w at_ n false (at_ + i) then freeByte else pure b

/-- A write of bytes at places from `at_`: one step of coherence order (R115), with the releases it carries; what each place
comes to hold, free where a mixed-size overlap leaves it undefined (R125). -/
def noteWrite (w : Who) (at_ : Nat) (bytes : List Byte) : M z (List Byte) := do
  let n := bytes.length
  let step ← tickHome
  let bs ← mapEach bytes.zipIdx fun (b, i) => do
    let s ← getS
    recordPast w at_ n true (at_ + i)
    modHome fun h => { h with marks := SMap.put h.marks (at_ + i) step }
    if mixed s w at_ n true (at_ + i) then freeByte else pure b
  if !w.rels.isEmpty then modHome fun h => { h with released := SMap.put h.released step w.rels }
  pure bs

/-- Reads bytes at the home slice. -/
def hsRead (w : Who) (pa n : Nat) : M z (List Byte) := do
  bringLine pa
  bringLine (pa + n - 1)
  noteRead w pa (memBytes (← getS) pa n)

/-- Writes bytes at the home slice: one step of coherence order for each byte (R115). A write that covers a whole sector,
by itself or with the other lanes of its word, clears its poison; a partial one leaves it (R63). -/
def hsWrite (w : Who) (pa : Nat) (bytes : List Byte) : M z Unit := do
  touchLine pa
  touchLine (pa + bytes.length - 1)
  writeBytes pa (← noteWrite w pa bytes)
  modHome fun h => { h with poison := PSet.cover h.poison 32 w.healer pa bytes.length }

/-- The releases that the values of bytes carry (R127). -/
def releasesOf (s : State) (stamps : List Nat) : List Release := (distinct stamps).flatMap fun st => SMap.look [] s.home.released st

/-- The sector of an address in its slice is poisoned. -/
def poisonSector (pa : Nat) : M z Unit := modHome fun h => { h with poison := PSet.add h.poison (pa / 32) }

/-- A write of the task unit, the command processor or a walker; it waits while its line is being committed (R53). -/
def sysWrite (pa : Nat) (bytes : List Byte) : M z Unit := do
  guardS (!commitBlocks (← getS).dev pa)
  hsWrite sysParty pa bytes

/-! Metadata (R59, R128, R129) -/

def metaOf (s : State) (pa : Nat) : Meta := (SMap.get? s.home.info (pa / 64)).getD {}

/-- R129: a write to a checked line outside the race check: VER and WTAG move. -/
def metaWrite (pa : Nat) (tag : Option Nat) : M z Unit :=
  modHome fun h =>
    let m := (SMap.get? h.info (pa / 64)).getD {}
    let m := { m with ver := m.ver + 1, wtag := match tag with | some t => BitVec.ofNat 24 t | none => m.wtag }
    { h with info := SMap.put h.info (pa / 64) m }

/-- One lane's step of R128 on the entry of its line: the entry after, and whether it races. The second flag says the
conflict was with a writer (R339). -/
def raceStep (m : Meta) (tag : BitVec 24) (phase : BitVec 16) (reads : Bool) : Meta × Bool × Bool :=
  let m := if m.ptag = phase then m else { m with ptag := phase, written := false, read := false, multi := false }
  let wr := m.written && m.wtag != tag
  if reads then
    ({ m with multi := m.multi || tag != m.wtag, read := true }, wr, wr)
  else
    let rd := m.read && (m.multi || m.wtag != tag)
    ({ m with written := true, wtag := tag, ver := m.ver + 1 }, wr || rd, wr)

end Sys2Proof.Machine
end

