-- ==== Sys2Proof/Machine/Xlate.lean ====
section
/-! DEFINITION. Translation (R16 to R37): the two-stage walk, A and D, the translation caches, and the page-request
tables. -/

namespace Sys2Proof.Machine

variable {z : State}

/-! The kinds of R30, by number. -/
namespace Kind
def read := 0
def write := 1
def atomic := 2
def overlay := 3
def table := 4
def copyRead := 5
def copyWrite := 6
def adUpdate := 7
end Kind

/-! The detail codes of R37. -/
namespace XCode
def notPresent1 := 1
def notPresent2 := 2
def malformed := 3
def addrSize := 4
def denied := 5
def nonCanon := 6
def permission := 7
def adClear := 8
end XCode

/-- A failed walk: a miss of a stage at an address (page), an unrecoverable code, or an entry whose line is being committed or
waits in its channel (R53, R56), so that the walk goes on later. -/
inductive XFail where
  | miss (stage addr kind : Nat)
  | bad (code : Nat)
  | wait
  deriving DecidableEq, Repr

/-- What a leaf gives; `bits`: the address bits below its page (R16, R18, R23). -/
structure Leaf where
  out : Nat
  bits : Nat
  rd : Bool
  w : Bool
  xn : Bool
  mt : Nat
  chk : Bool
  syso : Bool
  deriving DecidableEq, Repr

/-- An entry the walk uses, in reading order (R21). `size`: of a leaf, the address bits below its page above bit 11, else 0.
`leaf`: the access performs through this leaf, so a write sets D in it; the leaf that maps a stage-1 table is not such. -/
structure Use where
  pa : Nat
  stage : Nat
  addr : Nat
  size : Nat
  leaf : Bool
  a : Bool
  d : Bool
  deriving DecidableEq, Repr

abbrev Walk (α : Type) := Except XFail (α × List Use)

def entryAt (s : State) (pa : Nat) : Nat := Memory.readNat s.mem pa 8

/-- R24: a table lies in DRAM, outside the metadata region. -/
def tableOk (s : State) (pa : Nat) : Bool := paRange pa == .dram && !inMetadata s pa

/-- R19: an entry with V = 1 that is malformed at a level. -/
def malformed (stage lvl e : Nat) : Bool :=
  let leaf := bitOf e 1
  bitsOf e 58 52 != 0 || bitOf e 10 || bitsOf e 7 5 != 0 ||
  (leaf && lvl ≥ 3) || (!leaf && lvl = 0) ||
  (leaf && bitsOf e 61 59 ≥ 3) || (leaf && bitOf e 3 && !bitOf e 2) ||
  (leaf && bitsOf e 51 12 % 2 ^ (9 * lvl) != 0) ||
  ((stage = 2 || !leaf) && (bitOf e 62 || bitOf e 4))

/-- R18: the 16 entries of a 64 KiB run agree. -/
def runOk (s : State) (table idx : Nat) : Bool :=
  let first := 16 * (idx / 16)
  let e0 := entryAt s (table + 8 * first)
  bitsOf e0 51 12 % 16 == 0 && (List.range 16).all fun i =>
    let e := entryAt s (table + 8 * (first + i))
    bitOf e 11 && bitsOf e 63 52 == bitsOf e0 63 52 && bitsOf e 11 10 == bitsOf e0 11 10 &&
      bitsOf e 7 2 == bitsOf e0 7 2 && bitsOf e 51 12 == bitsOf e0 51 12 + i

/-- The walk of one stage from level `n - 1` down; `tab` turns a table's address into its physical address. Of the 16 entries
of an intact run (R18) it uses the one at the address's own index (log entry 15). -/
def walkLevels (s : State) (stage addr : Nat) (kind : Nat) (tab : Nat → Walk Nat) : Nat → Nat → Walk Leaf
  | 0, _ => .error (.bad XCode.malformed)
  | lvl + 1, table =>
    match tab table with
    | .error e => .error e
    | .ok (tpa, u0) =>
    let idx := addr / 2 ^ (12 + 9 * lvl) % 512
    let epa := tpa + 8 * idx
    let e := entryAt s epa
    if paBlocked s epa then .error .wait
    else if !bitOf e 0 then .error (.miss stage (addr / 4096) kind)
    else if malformed stage lvl e then .error (.bad XCode.malformed)
    else
      let frame := bitsOf e 51 12 * 4096
      let leaf := bitOf e 1
      let size := if !leaf then 0 else if lvl = 0 && bitOf e 11 then 4 else 9 * lvl
      let use : Use :=
        { pa := epa, stage := stage, addr := addr / 4096, size := size, leaf := leaf, a := bitOf e 8, d := bitOf e 9 }
      if leaf then
        if lvl = 0 && bitOf e 11 && !runOk s tpa idx && Config.brokenRunFaults s.free then .error (.bad XCode.malformed)
        else
          .ok ({ out := frame + addr % 2 ^ (12 + 9 * lvl), bits := 12 + size, rd := bitOf e 2, w := bitOf e 3, xn := bitOf e 63
                 mt := bitsOf e 61 59, chk := bitOf e 62, syso := bitOf e 4 }, u0 ++ [use])
      else
        match walkLevels s stage addr kind tab lvl frame with
        | .error e => .error e
        | .ok (r, u) => .ok (r, u0 ++ [use] ++ u)

/-- A table address that is physical. -/
def physTable (s : State) (a : Nat) : Walk Nat :=
  if tableOk s a then .ok (a, []) else .error (.bad XCode.addrSize)

/-- Stage 2 for an IPA (R16, R23). -/
def walk2 (s : State) (c : CtxRec) (kind ipa : Nat) : Walk Leaf :=
  walkLevels s 2 ipa kind (physTable s) 5 c.s2root

/-- The address of a stage-1 table through stage 2; the miss has KIND 4 (R30), and the leaf must permit reads (R31). -/
def table1 (s : State) (c : CtxRec) (a : Nat) : Walk Nat :=
  if c.s2en then
    match walk2 s c Kind.table a with
    | .ok (l, u) =>
      if !l.rd then .error (.bad XCode.permission)
      else if tableOk s l.out then .ok (l.out, u.map fun x => { x with leaf := false })
      else .error (.bad XCode.addrSize)
    | .error e => .error e
  else physTable s a

/-- The combined translation of a virtual address (R23). -/
def walk (s : State) (c : CtxRec) (kind va : Nat) : Walk Leaf :=
  match walkLevels s 1 va kind (table1 s c) 5 c.s1root with
  | .error e => .error e
  | .ok (l1, u1) =>
  if c.s2en then
    match walk2 s c kind (l1.out % 2 ^ 52) with
    | .error e => .error e
    | .ok (l2, u2) =>
      let l : Leaf := { out := l2.out, bits := min l1.bits l2.bits, rd := l1.rd && l2.rd, w := l1.w && l2.w, xn := l1.xn || l2.xn,
                        mt := max l1.mt l2.mt, chk := l1.chk, syso := l1.syso }
      .ok (l, u1 ++ u2)
  else .ok (l1, u1)

def needsW (kind : Nat) : Bool := kind == Kind.write || kind == Kind.atomic || kind == Kind.copyWrite
def needsRd (kind : Nat) : Bool :=
  kind == Kind.read || kind == Kind.atomic || kind == Kind.overlay || kind == Kind.copyRead

/-- R20, R21, R58, R15: what a final translation does not allow. `noDev`: memory type 2 fails, for an engine, a system party,
or the size of the access (R20). Where both the address and a permission are wrong, ADDRSIZE is given (log entry 84). -/
def finalCheck (s : State) (c : CtxRec) (kind : Nat) (noDev : Bool) (l : Leaf) : Option Nat :=
  if !rangePermits l.out l.mt || (paRange l.out == .control && c.vfn ≠ 0) || (l.chk && !inWindow s l.out) ||
      (l.chk && l.mt = 2) || inMetadata s l.out then some XCode.addrSize
  else if l.syso || (needsRd kind && !l.rd) || (needsW kind && !l.w) || (kind == Kind.overlay && l.xn) ||
      ((kind == Kind.atomic || kind == Kind.overlay || noDev) && l.mt = 2) then some XCode.permission
  else none

/-- Sets A in every used entry and D in the leaves of a write (R21). -/
def setAD (dirty : Bool) (us : List Use) : M z Unit :=
  forEach us fun u => do
    let setD := dirty && u.leaf && !u.d
    if !u.a || setD then
      let s ← getS
      let b := (Memory.read s.mem (u.pa + 1)).toNat
      let b := if b % 2 = 1 then b else b + 1
      let b := if setD && b / 2 % 2 = 0 then b + 2 else b
      sysWrite (u.pa + 1) [BitVec.ofNat 8 b]

/-- The stage-2 pages a walk went through: an IPA page of each, and its size as in `Use`. -/
def useIpas (us : List Use) : List (Nat × Nat) := ((us.filter fun u => u.stage = 2).map fun u => (u.addr, u.size)).eraseDups

/-- A cached translation that serves the access (R26); a write needs D already set. -/
def tlbHit (cl : Cluster) (ctx page kind : Nat) (noDev : Bool) : Option TlbEntry :=
  cl.tlb.find? fun e => e.ctx == ctx && e.page == page && !e.syso && (!needsRd kind || e.rd) && (!needsW kind || (e.w && e.dirty)) &&
    (kind != Kind.overlay || !e.xn) && !((kind == Kind.atomic || kind == Kind.overlay || noDev) && e.mt == 2)

/-- Translates one address for a party of cluster `cl` (R25): the cached translation, or a walk that sets A and D and is
cached. The failure is a miss or an unrecoverable code. -/
def xlate (cl ctx : Nat) (c : CtxRec) (kind : Nat) (noDev : Bool) (va : W64) : M z (Except XFail LaneAcc) := do
  if !canonical va then pure (.error (.bad XCode.nonCanon))
  else
    let s ← getS
    let page := va.toNat / 4096
    match tlbHit (s.cluster cl) ctx page kind noDev with
    | some e => pure (.ok { lane := 0, va := va, pa := e.frame + va.toNat % 4096, mt := e.mt, chk := e.chk, bits := e.bits })
    | none =>
      modS fun s => { s with free := s.free + 1 }
      match walk s c kind va.toNat with
      | .error .wait => stay
      | .error (.miss st a k) =>
        pure (.error (if c.prqe then .miss st a k
          else .bad (if st = 1 then XCode.notPresent1 else XCode.notPresent2)))
      | .error (.bad code) => pure (.error (.bad code))
      | .ok (l, us) =>
        match finalCheck s c kind noDev l with
        | some code => pure (.error (.bad code))
        | none =>
          let wr := needsW kind
          match (if c.hwad then none else us.find? fun u => !u.a || (wr && u.leaf && !u.d)) with
          | some u => pure (.error (if c.prqe then .miss u.stage u.addr Kind.adUpdate else .bad XCode.adClear))
          | none =>
            setAD wr us
            let dirty := wr || (us.all fun u => !u.leaf || u.d)
            let e : TlbEntry :=
              { ctx := ctx, page := page, frame := l.out / 4096 * 4096, rd := l.rd, w := l.w, xn := l.xn, mt := l.mt
                chk := l.chk, syso := l.syso, dirty := dirty, bits := l.bits, ipas := useIpas us }
            modCluster cl fun c =>
              { c with tlb := e :: c.tlb.filter fun x => !(x.ctx == ctx && x.page == page) }
            pure (.ok { lane := 0, va := va, pa := l.out, mt := l.mt, chk := l.chk, bits := l.bits })

/-! Page requests (R29 to R32, R385) -/

/-- The table of a miss: a function's own, or the stage-2 table of the virtual function (R29). -/
def tableFor (vfn stage : Nat) : Nat := if stage = 1 then vfn else 64 + vfn

/-- The function whose vector a table raises (R29). -/
def tableFn (tbl : Nat) : Nat := if tbl < 64 then tbl else 0

/-- The strength of a kind (R31). -/
def strength (k : Nat) : Nat :=
  match k with
  | 4 => 0 | 0 => 1 | 5 => 2 | 3 => 3 | 7 => 4 | 6 => 5 | 2 => 6 | _ => 7

/-- Marks a system party among the waits of `attachMiss`: there is no table 128. -/
def systemParty : Wait := .full 128

/-- Attaches a miss to its slot, or to the lowest free one, or to the wait for one. `counted`: this party is already
counted in the slot (R385). Answers where it waits. -/
def attachMiss (ctx vfn stage page kind : Nat) (already : List Wait) : M z Wait := do
  let tbl := tableFor vfn stage
  let t := (← getS).table tbl
  match t.slots.find? fun e => e.2.page == page && e.2.ctx == ctx && e.2.stage == stage with
  | some (tag, sl) =>
    let known := already.contains (.slot tbl tag) || sl.sys && already.contains systemParty
    let sl : PrSlot := { sl with kind := (if strength kind > strength sl.kind then kind else sl.kind),
                                 waiters := (if known then sl.waiters else sl.waiters + 1) }
    modTable tbl fun t => { t with slots := SMap.put t.slots tag sl }
    pure (.slot tbl tag)
  | none =>
    match lowest? 32 fun i => (SMap.get? t.slots i).isNone with
    | some tag =>
      let sl : PrSlot := { page := page, ctx := ctx, stage := stage, kind := kind, waiters := 1 }
      modTable tbl fun t => { t with slots := SMap.put t.slots tag sl }
      raiseMsix (tableFn tbl) 1
      pure (.slot tbl tag)
    | none => pure (.full tbl)

/-- A party leaves its slots: WAITERS of each falls by one (R36, R386). -/
def detach (ws : List Wait) : M z Unit :=
  forEach (ws.eraseDups) fun w =>
    match w with
    | .slot tbl tag => modTable tbl fun t =>
        { t with slots := SMap.adjust t.slots tag fun sl => { sl with waiters := sl.waiters - 1 } }
    | .full _ => pure ()

/-! Accesses of the command processor, the task unit and the journal points, by virtual address of a context. They are
made through no translation cache. A recoverable miss makes its page request, and the party waits for the reply by
presenting its access again (log entry 9). -/

def isDenied (s : State) (vfn ctx st page : Nat) : Bool :=
  (s.table (tableFor vfn st)).denied.contains (page, ctx, st)

/-- A FAIL reply that the party has yet to take is for this access, by its own page or by a stage-2 page of its walk: its
stage and page (R32). The page may have been mapped since. -/
def deniedBy (s : State) (c : CtxRec) (ctx va : Nat) (w : Walk Leaf) : Option (Nat × Nat) :=
  if isDenied s c.vfn ctx 1 (va / 4096) then some (1, va / 4096)
  else match w with
    | .ok (_, us) => (us.find? fun u => u.stage == 2 && isDenied s c.vfn ctx 2 u.addr).map fun u => (2, u.addr)
    | .error (.miss st a _) => if isDenied s c.vfn ctx st a then some (st, a) else none
    | .error _ => none

/-- Translates for a system party: a physical access, or an unrecoverable code. Memory type 2 admits group accesses only
(R20), so a system party never reaches the control registers through a page. `own`: the party is of the command-processor
complex, to which pages with SYSO are accessible (R17, log entry 9). -/
def sysXlate (ctx : Nat) (c : CtxRec) (kind : Nat) (va : W64) (own : Bool := false) : M z (Except Nat LaneAcc) := do
  if !canonical va then pure (.error XCode.nonCanon)
  else
    let s ← getS
    let r := walk s c kind va.toNat
    match deniedBy s c ctx va.toNat r with
    | some (st, a) => do
      modTable (tableFor c.vfn st) fun t => { t with denied := t.denied.filter fun e => e != (a, ctx, st) }
      pure (.error XCode.denied)
    | none =>
    match r with
    | .error .wait => stay
    | .error (.miss st a k) =>
      if !c.prqe then pure (.error (if st = 1 then XCode.notPresent1 else XCode.notPresent2))
      else fun _ => .error (.request ctx c.vfn st a k)
    | .error (.bad code) => pure (.error code)
    | .ok (l, us) =>
      match finalCheck s c kind true { l with syso := l.syso && !own } with
      | some code => pure (.error code)
      | none =>
        let wr := needsW kind
        match (if c.hwad then none else us.find? fun u => !u.a || (wr && u.leaf && !u.d)) with
        | some u =>
          if c.prqe then fun _ => .error (.request ctx c.vfn u.stage u.addr Kind.adUpdate)
          else pure (.error XCode.adClear)
        | none =>
          setAD wr us
          pure (.ok { lane := 0, va := va, pa := l.out, mt := l.mt, chk := l.chk, bits := l.bits })

/-- A translated access of a system party waits at its issuer: a commit, metadata zeroing of a checked line, a rank in
refresh, or a line that a group's word holds (R53, R56, R61, R129). -/
def sysWaits (s : State) (a : LaneAcc) : Bool :=
  paBlocked s a.pa || (a.chk && zeroingBlocks s a.pa) || lineLocked s (2 ^ 60) a.pa

/-- Bytes that a system party reads at an address it has translated. -/
def sysLoad (a : LaneAcc) (n : Nat) : M z (List Byte) := do
  let s ← getS
  guardS (!sysWaits s a)
  pure (memBytes s a.pa n)

/-- Bytes that a system party writes at an address it has translated. -/
def sysStore (a : LaneAcc) (bytes : List Byte) : M z Unit := do
  guardS (!sysWaits (← getS) a)
  hsWrite sysParty a.pa bytes

/-- Bytes read for a system party at their home slice; none where the translation is unrecoverable. -/
def sysRead (ctx : Nat) (c : CtxRec) (va : W64) (n : Nat) : M z (Option (List Byte)) := do
  match ← sysXlate ctx c Kind.read va true with
  | .error _ => pure none
  | .ok a => do pure (some (← sysLoad a n))

/-- What waits notes where (R322). -/
def noteWait (wt : Wait) : SysWaiter → M z Unit
  | .group g => modGroup g fun gr => { gr with sysWait := some wt }
  | .team e => modTeam e fun t => { t with sysWait := some wt }
  | .record l => modLaunch l fun k => { k with sysWait := some wt }
  | .event l h => modLaunch l fun k => k.holdAt h

/-- The request a waiting system party makes. -/
def attachSys (ctx vfn stage page kind : Nat) (who : Option SysWaiter) : M z Unit := do
  let wt ← attachMiss ctx vfn stage page kind [systemParty]
  match wt with
  | .slot tbl tag =>
    modTable tbl fun t => { t with slots := SMap.adjust t.slots tag fun sl => { sl with sys := true } }
  | .full _ => pure ()
  match who with
  | some x => noteWait wt x
  | none => pure ()

/-- The outcome of a run from `z`: one that stays leaves the state as it is (log entry 1), one that waits for a page makes its
request, one whose event is held at a journal point leaves it counted; `f` is what an unfinished run notes. -/
def outcomeOf (z : State) (f : State → State) : Except Stop (Unit × Run z) → Host.Outcome State Fault Refusal
  | .ok (_, t) => .next t.1
  | .error .stay => .next (f z)
  | .error (.held l h) => .next (f { z with launches := SMap.adjust z.launches l fun k => k.holdAt h })
  | .error (.trap _ _) => .next (f z)
  | .error (.request ctx vfn st page kind who) =>
    match attachSys ctx vfn st page kind who ⟨z, .refl⟩ with
    | .ok (_, t) => .next (f t.1)
    | .error _ => .next (f z)

/-- The outcome of a meaning from `z`. -/
def runM (z : State) (m : M z Unit) : Host.Outcome State Fault Refusal := outcomeOf z id (m ⟨z, .refl⟩)

end Sys2Proof.Machine
end

