-- ==== Sys2Proof/Machine/Journal.lean ====
section
/-! DEFINITION. The journal (R349 to R356, R388): the directory and the sub-rings in context memory, appending in record
mode, admission and divergence in replay mode. -/

namespace Sys2Proof.Machine

variable {z : State}

/-! Record types (R351). -/
namespace JType
def atom := 0x01
def barel := 0x02
def place := 0x03
def spawn := 0x04
def retire := 0x05
def topup := 0x06
def ticket := 0x07
def qapp := 0x08
def msg := 0x09
def ver := 0x0A
def mark := 0x0B
def preempt := 0x0C
def pad := 0x3F
end JType

/-! Serialisation points (R350): slices 0 to 127, barrier units of cores, the task unit, the command processor. -/
def pointOfCore (core : Nat) : Nat := 128 + core
def pointTaskUnit : Nat := 640
def pointCommand : Nat := 641

/-- An event at a serialisation point (R351). -/
structure JEvent where
  point : Nat
  typ : Nat
  sys : Bool
  stat : Bool := false
  src : Nat
  seq : Nat
  obj : Nat
  deriving DecidableEq, Repr

/-- The 128-bit record of an event (R351). -/
def JEvent.encode (e : JEvent) : Nat :=
  e.typ * 2 ^ 122 + (if e.sys then 2 ^ 121 else 0) + (if e.stat then 2 ^ 120 else 0) + e.src * 2 ^ 96 +
    e.seq % 2 ^ 32 * 2 ^ 64 + e.obj % 2 ^ 64

/-- A point's directory entry as memory holds it: its own physical address and its fields (R350). -/
structure JRing where
  pa : Nat
  own : Bool                         -- the command processor's point, which pages with SYSO admit (R17)
  base : Nat
  logn : Nat
  hwm : Bool
  head : Nat
  tail : Nat
  deriving DecidableEq, Repr

/-- Reads a point's entry; a broken entry or an unrecoverable translation holds the event (R350). -/
def ringOf (ctx : Nat) (c : CtxRec) (point : Nat) : M z JRing := do
  let s ← getS
  match ← sysXlate ctx c Kind.write ((s.ctx ctx).jdbase + BitVec.ofNat 64 (32 * point)) (point == pointCommand) with
  | .error _ => stay
  | .ok a =>
    let e := bytesNat (← sysLoad a 32)
    let logn := bitsOf e 4 0
    guardS (6 ≤ logn && logn ≤ 24 && e / 2 ^ 128 = 0)
    pure { pa := a.pa, own := point == pointCommand, base := bitsOf e 63 6 * 64, logn := logn, hwm := bitOf e 5
           head := bitsOf e 127 96, tail := bitsOf e 95 64 }

/-- Where record `n` of a ring lies. -/
def recordAt (ctx : Nat) (c : CtxRec) (r : JRing) (n : Nat) (kind : Nat) : M z LaneAcc := do
  match ← sysXlate ctx c kind (BitVec.ofNat 64 (r.base + 16 * (n % 2 ^ r.logn))) r.own with
  | .error _ => stay
  | .ok a => pure a

/-- R352: appends before the effect is visible; a full ring stalls the event. -/
def appendRecord (ctx : Nat) (c : CtxRec) (e : JEvent) : M z Unit := do
  let r ← ringOf ctx c e.point
  let used := (r.tail + 2 ^ 32 - r.head) % 2 ^ 32
  guardS (used < 2 ^ r.logn)
  let a ← recordAt ctx c r r.tail Kind.write
  sysStore a (natBytes e.encode 16)
  sysWrite (r.pa + 8) (natBytes ((r.tail + 1) % 2 ^ 32) 4)
  if 4 * (used + 1) > 3 * 2 ^ r.logn then
    if !r.hwm then
      sysWrite r.pa (natBytes (r.base + 32 + r.logn) 8)
      raiseMsix c.vfn 2

/-- HEAD moves past a record. -/
def passRecord (r : JRing) : M z Unit := sysWrite (r.pa + 12) (natBytes ((r.head + 1) % 2 ^ 32) 4)

/-- The object bits replay compares (R354): SPAWN on OBJ[48:32], PLACE on OBJ[23:0]. -/
def objMask (t : Nat) : Nat :=
  if t = JType.spawn then 0x1FFFF00000000 else if t = JType.place then 0xFFFFFF else 2 ^ 64 - 1

/-- Whether record `v` is the event (R354): SYS events are matched on TYPE, SRC and OBJ. -/
def JEvent.matches (e : JEvent) (v : Nat) : Bool :=
  v / 2 ^ 122 == e.typ && bitOf v 121 == e.sys && bitsOf v 119 96 == e.src && (e.sys || bitsOf v 95 64 == e.seq) &&
    (v &&& objMask e.typ) == (e.obj % 2 ^ 64 &&& objMask e.typ)

/-- The object bits a record's type names (R351); the others of these types are reserved. -/
def objNamed (t : Nat) : Nat :=
  if t = JType.place then 0xFFF00FFFFFF
  else if t = JType.spawn then 0x1FFFF00FFFFFF
  else if t = JType.retire then 1
  else if t = JType.topup then 0x700FFFFFF
  else if t = JType.qapp then 0x8000FFFF00000FFF
  else if t = JType.preempt then 3
  else 2 ^ 64 - 1

/-- R351: a record whose code is not listed, or whose reserved bits are not zero, sets DIV and is skipped. -/
def knownRecord (v : Nat) : Bool :=
  1 ≤ v / 2 ^ 122 && v / 2 ^ 122 ≤ 0x0C && v % 2 ^ 64 &&& objNamed (v / 2 ^ 122) == v % 2 ^ 64

/-- The launch has diverged (R355): no point of it holds an event any more. -/
def setDiv (launch : Nat) : M z Unit := modLaunch launch fun l => { l with div := true, jheld := [] }

/-- What stands at HEAD of a replaying point's ring. -/
inductive Head where
  | empty
  | record (r : JRing) (v : Nat)
  | unknown (r : JRing)              -- a record that R351 skips with DIV
  deriving DecidableEq, Repr

/-- The record at HEAD of a replaying point once PAD and PREEMPT records are skipped (R354), a record that R351 does not know
among them where it is met. `fuel` bounds the skipping; a ring has at most 2^24 records (R350). -/
def headRecord (ctx : Nat) (c : CtxRec) (point : Nat) : Nat → M z Head
  | 0 => stay
  | fuel + 1 => do
    let r ← ringOf ctx c point
    if r.head = r.tail then pure .empty
    else
      let v := bytesNat (← sysLoad (← recordAt ctx c r r.head Kind.read) 16)
      let t := v / 2 ^ 122
      if t = JType.pad || (t = JType.preempt && knownRecord v) then
        passRecord r
        headRecord ctx c point fuel
      else pure (if knownRecord v then .record r v else .unknown r)

/-- The longest ring (R350). -/
def ringFuel : Nat := 2 ^ 24

/-- Whether a group record at HEAD of some other point is the group's next (R355, second case). -/
def nextElsewhere (ctx : Nat) (c : CtxRec) (e : JEvent) (others : List JEvent) : List Nat → M z Bool
  | [] => pure false
  | p :: ps => do
    let here ← if p = e.point then pure false else do
      match ← attempt (headRecord ctx c p ringFuel) with
      | .ok (.record _ v) =>
        pure (!bitOf v 121 && bitsOf v 119 96 == e.src && bitsOf v 95 64 == e.seq &&
          !(others.any fun o => o.point == p && o.matches v))
      | _ => pure false
    if here then pure true else nextElsewhere ctx c e others ps

/-- R355: a divergence raised at the unit that presents the event. -/
def divergence {α : Type} (point v : Nat) : M z α :=
  raise [{ cause := Cause.jnlDiv, code := BitVec.ofNat 16 point, value := BitVec.ofNat 64 (v / 2 ^ 64) }]

/-- A point whose record at HEAD names a group (R355, third case). -/
def headNames (ctx : Nat) (c : CtxRec) (src gidx : Nat) : List Nat → M z (Option (Nat × Nat))
  | [] => pure none
  | p :: ps => do
    match ← attempt (headRecord ctx c p ringFuel) with
    | .ok (.record _ v) =>
      if !bitOf v 121 && bitsOf v 119 96 == src && bitsOf v 95 91 == gidx then pure (some (p, v))
      else headNames ctx c src gidx ps
    | _ => headNames ctx c src gidx ps

/-- A team that is DONE can still present the event a SYS record names (R355): a message of it waits to be written (R109), or
the record is of the barrier that a neighbourhood shares, while another member is not DONE. -/
def canStillPresent (s : State) (e : Nat) (t : Team) (v : Nat) : Bool :=
  (v / 2 ^ 122 == JType.msg && (s.teamGroups e).any fun g => match s.group? g with
    | some gr => gr.outbox.any fun m => m.off == v % 2 ^ 64 && m.seq == bitsOf v 95 64
    | none => false) ||
  (v / 2 ^ 122 == JType.barel && match s.grid? t.grid with
    | some gd => gd.nbh && gd.teams.any fun x => match s.team? x with | some u => u.state != .done | none => false
    | none => false)

/-- The team a SYS record names is DONE and cannot present it (R355). -/
def sysStale (s : State) (ctx v : Nat) : Bool :=
  bitOf v 121 && s.teams.any fun e =>
    e.2.ctx == ctx && e.2.tag == bitsOf v 119 96 && e.2.state == .done && !canStillPresent s e.1 e.2 v

/-- The hold of an event at its point. -/
def JEvent.hold (e : JEvent) : JHold :=
  { point := e.point, sys := e.sys, src := e.src, gidx := if e.sys then 0 else bitsOf e.seq 31 27, typ := e.typ, obj := e.obj }

/-- The event waits for its turn in the record, which FST does not count (R322, R354). -/
def waitsTurn {α : Type} (launch : Nat) (e : JEvent) : M z α := fun _ => .error (.held launch { e.hold with counted := false })

/-- A SYS record names a team that no spawn has created so far: the point stays held, and the hold counts (R355). -/
def sysUnborn (s : State) (ctx v : Nat) : Bool :=
  bitOf v 121 && !(s.teams.any fun e => e.2.ctx == ctx && e.2.tag == bitsOf v 119 96)

/-- R354: in replay mode an event is admitted when it matches the record at HEAD, and else held; answers the record. `others`
are the events that the same word presents beside it: each is its own event, and none of them is a divergence of another. -/
def replayAdmit (launch ctx : Nat) (c : CtxRec) (e : JEvent) (others : List JEvent) : M z (Option Nat) := do
  match ← headRecord ctx c e.point ringFuel with
  | .empty => stay
  | .unknown r => do
    passRecord r
    setDiv launch
    pure none
  | .record r v =>
    if e.matches v then
      passRecord r
      pure (some v)
    else if sysStale (← getS) ctx v then
      setDiv launch
      pure none
    else if sysUnborn (← getS) ctx v then stay
    else if e.sys || others.any (fun o => o.point == e.point && o.matches v) then waitsTurn launch e
    else if !bitOf v 121 && bitsOf v 119 96 == e.src && bitsOf v 95 91 == bitsOf e.seq 31 27 then
      divergence e.point v
    else if ← nextElsewhere ctx c e others (List.range 642) then divergence e.point 0
    else waitsTurn launch e

/-- Whether a point's ring may be used now (R350). -/
def ringUsable (ctx : Nat) (c : CtxRec) (point : Nat) : M z Unit := do
  let r ← ringOf ctx c point
  let _ ← recordAt ctx c r r.tail Kind.write

/-- A point's part in a launch's event: a hold of it counts in FST (R322) until the event is admitted; the holds of R350 and
R354 end with an abort of the launch (R316). -/
def atPoint {α : Type} (launch : Nat) (h : JHold) (none_ : α) (m : M z α) (ready : M z Unit := pure ()) : M z α := do
  let l ← getLaunch launch
  let held (k : JHold) : M z α := do
    if l.aborted then
      match ← attempt ready with
      | .error .stay => pure none_
      | _ => if l.journal = 2 then pure none_ else fun _ => .error (.held launch k)
    else fun _ => .error (.held launch k)
  match ← attempt (asWaiter (.event launch h) (do ready; m)) with
  | .ok r => do
    if l.jheld.contains h then modLaunch launch fun l => { l with jheld := l.jheld.filter (· != h) }
    pure r
  | .error .stay => held h
  | .error (.held _ k) => held k
  | .error e => fun _ => .error e

/-- Records, admits or ignores an event by JCTL.MODE of the launch (R349); answers the matched record in replay. -/
def journalAt (launch : Nat) (e : JEvent) (others : List JEvent := []) : M z (Option Nat) := do
  let l ← getLaunch launch
  match l.journal with
  | 1 => atPoint launch e.hold none (do appendRecord l.ctx l.rcd e; pure none) (ringUsable l.ctx l.rcd e.point)
  | 2 => atPoint launch e.hold none (replayAdmit launch l.ctx l.rcd e others)
  | _ => pure none

/-- An event of a group (R351): SYS = 0, GIDX and its count of earlier records. -/
def groupEvent (g : Nat) (gr : Group) (t : Team) (point typ obj : Nat) (stat : Bool) : JEvent :=
  { point := point, typ := typ, sys := false, stat := stat, src := t.tag
    seq := groupIdx g * 2 ^ 27 + gr.journalCount % 2 ^ 27, obj := obj }

/-- An event of a group at a point; `others`: point and object of the events of the same type that its word presents beside
it. An event admitted or recorded counts in the group's records and in JSEQ (R349, R351). -/
def journalGroup (g point typ obj : Nat) (stat : Bool := false) (others : List (Nat × Nat) := []) : M z (Option Nat) := do
  let t ← getTeam (groupTeam g)
  let l ← getLaunch t.launch
  if l.journal = 0 then pure none
  else
    let gr ← getGroup g
    let r ← journalAt t.launch (groupEvent g gr t point typ obj stat)
      (others.map fun o => groupEvent g gr t o.1 typ o.2 false)
    modGroup g fun gr => { gr with journalCount := gr.journalCount + 1 }
    modTeam (groupTeam g) fun t => { t with jseq := t.jseq + 1 }
    pure r

/-- R355: a group that executes exit while some point's HEAD names it has diverged. -/
def exitDivergence (g : Nat) : M z Unit := do
  let t ← getTeam (groupTeam g)
  let l ← getLaunch t.launch
  if l.journal = 2 then
    match ← headNames l.ctx l.rcd t.tag (groupIdx g) (List.range 642) with
    | some (p, v) => divergence p v
    | none => pure ()

/-- An event of a team: SYS = 1. -/
def journalTeam (eid point typ seq obj : Nat) (stat : Bool := false) : M z Unit := do
  let t ← getTeam eid
  let _ ← journalAt t.launch { point := point, typ := typ, sys := true, stat := stat, src := t.tag, seq := seq, obj := obj }

/-! The lanes of an atomic (R124, R242, R354) -/

/-- Lanes that may perform next: of lanes at one place, the lowest. -/
def firstLanes (place : LaneAcc → Nat) (ls : List LaneAcc) : List LaneAcc :=
  ls.filter fun a => !(ls.any fun b => b.lane < a.lane && place b == place a)

/-- The first of some lanes whose step the journal lets through; each is presented with the others of the word. The holds of
those before it count. -/
def tryLanes (step : LaneAcc → List LaneAcc → M z LaneAcc) (all : List LaneAcc) : List LaneAcc → M z (Except (Option (Nat × JHold)) LaneAcc)
  | [] => pure (.error none)
  | a :: rest => do
    match ← attempt (step a (all.filter fun b => b.lane != a.lane)) with
    | .ok d => pure (.ok d)
    | .error (.held l h) => do
      modLaunch l fun k => k.holdAt h
      match ← tryLanes step all rest with
      | .ok d => pure (.ok d)
      | .error none => pure (.error (some (l, h)))
      | r => pure r
    | .error e => fun _ => .error e

/-- The steps of an atomic's lanes, each on its own; the lanes that the journal holds remain, with one of their holds. A lane
that raises JNL_DIV leaves no effect of any lane (R355). `fuel` is the number of lanes. -/
def atomSteps (place : LaneAcc → Nat) (step : LaneAcc → List LaneAcc → M z LaneAcc) : Nat → List LaneAcc →
    M z (List LaneAcc × List LaneAcc × Option (Nat × JHold))
  | 0, ls => pure (ls, [], none)
  | fuel + 1, ls => do
    if ls.isEmpty then pure ([], [], none)
    else match ← tryLanes step ls (firstLanes place ls) with
      | .error h => pure (ls, [], h)
      | .ok d => do
        let (rem, done, h) ← atomSteps place step fuel (ls.filter fun a => a.lane != d.lane)
        pure (rem, d :: done, h)

/-- The word's event waits at its point, or the word at its condition. -/
def heldOr {α : Type} (h : Option (Nat × JHold)) : M z α :=
  match h with
  | some (l, k) => fun _ => .error (.held l k)
  | none => stay

end Sys2Proof.Machine
end

