-- ==== Sys2Proof/Machine/W0.lean ====
section
/-! DEFINITION. Reading the control registers of a function's W0 view (R15, R27, R29, R51 to R64, R68, R126, R307 to R319,
R340, R346, R350, R362, R367 to R376). No read of a register changes it. -/

namespace Sys2Proof.Machine

/-! Context records (R22, R307) -/

/-- The record of R22 as its 32 bytes give it; none where a rule of R22 or R307 is broken. -/
def parseCtxRec (f n rec : Nat) : Option CtxRec :=
  let ok := bitsOf rec 255 224 == 0 && bitsOf rec 217 216 == 0 && bitsOf rec 199 194 == 0 && bitsOf rec 139 129 == 0 &&
    bitsOf rec 75 65 == 0 && bitOf rec 64 && bitsOf rec 63 0 == 0 && bitsOf rec 151 140 == 0 && bitsOf rec 87 76 == 0 &&
    bitsOf rec 223 218 == f && bitsOf rec 215 200 == n && (f == 0 || bitOf rec 128)
  if ok then
    some { vfn := f, ctxid := n, prqe := bitOf rec 193, hwad := bitOf rec 192, s2en := bitOf rec 128
           s1root := bitsOf rec 127 76, s2root := bitsOf rec 191 140 }
  else none

/-- The live context `n` of function `f`: below CTLIM, with a record that keeps the rules (R307). -/
def liveCtx (s : State) (f n : Nat) : Option CtxRec :=
  let r := s.fn f
  if n < r.ctlim.toNat then parseCtxRec f n (Memory.readNat s.mem (r.ctbase.toNat + 32 * n) 32) else none

/-- The context registers that a select register shows; zero where it names no live context (R68, R126). -/
def selected (s : State) (f : Nat) (sel : BitVec 16) : CtxRegs :=
  match liveCtx s f sel.toNat with
  | some _ => s.ctx (f * 65536 + sel.toNat)
  | none => {}

/-! Values of whole registers -/

def bootStat (b : Boot) : Nat :=
  b.err * 4096 + b.failImg * 256 + b.stage * 16 + (if b.stage = 4 ∧ !b.recovery then 1 else 0)

/-- PRPEND (R29). -/
def prPend (t : PrTable) : Nat := (SMap.keys t.slots).foldl (fun x i => x + 2 ^ i) 0

/-- A slot record as 128 bits (R30); a free slot reads zero. -/
def slotRecord (t : PrTable) (tag : Nat) : Nat :=
  match SMap.get? t.slots tag with
  | some sl =>
    sl.page % 2 ^ 52 * 2 ^ 76 + ctxId sl.ctx * 2 ^ 48 + ctxFn sl.ctx * 2 ^ 42 + sl.stage * 2 ^ 40 + sl.kind * 2 ^ 36 +
      min sl.waiters 0xFFFF * 65536 + tag
  | none => 0

/-- A register of a page-request table at an offset of its page (R29, R32). -/
def prRead (t : PrTable) (off : Nat) : Nat :=
  if off = 0 then prPend t
  else if 0x100 ≤ off && off < 0x300 then
    let r := slotRecord t ((off - 0x100) / 16)
    if off % 16 = 0 then r % 2 ^ 64 else r / 2 ^ 64
  else if off = 0x408 then (if t.bad then 2 ^ 31 else 0)
  else 0

/-- The team a debugger names (R346). -/
def debugTeam (s : State) (f : Nat) : Option Nat :=
  let c := (s.fn f).dbgctl.toNat
  findTag s (f * 65536 + bitsOf c 63 48) (bitsOf c 47 24)

def wear (st : Str) : Nat := min 16 (st.stress / 2 ^ 20) * 2 ^ 32 + st.stress % 2 ^ 32

/-- A register of the physical function alone, at offset 0x0020_0000 or above. -/
def w0Physical (s : State) (off : Nat) : Nat :=
  let d := s.dev
  if off < 0x240000 then
    let n := (off - 0x200000) / 0x1000
    let o := off % 0x1000
    let r := s.fn n
    if o < 0x800 then prRead (s.table (64 + n)) o
    else if n = 0 then 0
    else match o with
      | 0x800 => r.ctbase.toNat
      | 0x808 => r.ctlim.toNat
      | 0x810 => r.lkbase.toNat
      | 0x818 => r.lkcnt.toNat
      | 0x820 => r.w1base.toNat
      | 0x828 => r.w1lim.toNat
      | _ => 0
  else if 0x300000 ≤ off && off < 0x300200 then
    let p := (off - 0x300000) / 0x40
    let i := off / 8 % 8
    if i = 7 then (SMap.look 0 d.partRng p).toNat else maskOfPart d.hmask p i
  else if off = 0x300200 then (if d.hcommit.isSome then 2 ^ 31 else 0)
  else if off = 0x300300 then (if ready s then cwStart else 0)
  else if off = 0x300308 then (if ready s then Config.cwGran.toNat else 0)
  else if off = 0x300310 then (if ready s then mdStart else 0)
  else if off = 0x300320 then d.mdzAddr.toNat
  else if off = 0x300328 then (if s.home.zeroing.isSome then 2 ^ 31 else 0) + d.mdzPages.toNat
  else if 0x300400 ≤ off && off < 0x300440 then
    let n := (off - 0x300400) / 8
    (if NSet.has d.dbl n then 65536 else 0) + wrapTo 16 (SMap.look 0 d.layerTemp n)
  else if 0x300500 ≤ off && off < 0x300540 then
    let v := (off - 0x300500) / 8
    (SMap.look 0 d.ue v).toNat * 2 ^ 32 + (SMap.look 0 d.ce v).toNat
  else if 0x300700 ≤ off && off < 0x300760 then
    let k := (off - 0x300700) / 0x20
    match off % 0x20 with
    | 0x00 => (SMap.look 0 d.wrate k).toNat
    | 0x08 => (SMap.look 0 d.wlat k).toNat
    | 0x10 => (SMap.look 0 d.wmax k).toNat
    | _ => (SMap.look 0 d.wmsh k).toNat
  else if off = 0x300780 then 614400
  else if 0x300900 ≤ off && off < 0x300A00 then wear (s.str ((off - 0x300900) / 8))
  else if off = 0x300A00 then d.ldevid.toNat
  else if off = 0x300A08 then d.rtbase.toNat
  else 0

/-- A register of a function's own view, below 0x0020_0000 and outside boot and the mailbox. -/
def w0Own (s : State) (f off : Nat) : Nat :=
  let r := s.fn f
  match off with
  | 0x100800 => r.xinvAddr.toNat
  | 0x100810 => if r.xinvBusy.isSome then 1 else 0
  | 0x100A00 => r.htsel.toNat
  | 0x100A08 => (selected s f r.htsel).htbase.toNat
  | 0x100A10 => (selected s f r.htsel).htlim.toNat
  | 0x100B00 => r.cmsel.toNat
  | 0x100B08 => (selected s f r.cmsel).osbase.toNat
  | 0x100B10 => (selected s f r.cmsel).oscnt.toNat
  | 0x100B18 => if (selected s f r.cmsel).msz then 1 else 0
  | 0x100C00 => r.ctbase.toNat
  | 0x100C08 => r.ctlim.toNat
  | 0x100C10 => r.qtsel.toNat
  | 0x100C18 => (selected s f r.qtsel).qtbase.toNat
  | 0x100C20 => (selected s f r.qtsel).qtlim.toNat
  | 0x100C28 => r.qerr.toNat
  | 0x100C30 => r.lcaddr.toNat
  | 0x100C38 => r.lcarg.toNat
  | 0x100C40 => r.lcres.toNat * 2 ^ 28
  | 0x100D00 => r.svsel.toNat
  | 0x100D08 => (selected s f r.svsel).svbase.toNat
  | 0x100D10 => (selected s f r.svsel).svcnt.toNat
  | 0x100D18 => r.prctl.toNat
  | 0x100E00 => r.dbgctl.toNat
  | 0x100E08 =>
    let stopped : Bool := match debugTeam s f with
      | some e => match s.team? e with | some t => t.stop == .stopped | none => false
      | none => false
    (if r.dbgErr then 4 else 0) + (if stopped then 2 else 0)
  | 0x100E10 => r.dbgreg.toNat
  | 0x100E18 => r.dbgdata.toNat
  | 0x100E20 => r.dwatch0.toNat
  | 0x100E28 => r.dwlen0.toNat
  | 0x100E30 => r.dwatch1.toNat
  | 0x100E38 => r.dwlen1.toNat
  | 0x100F00 => r.jdsel.toNat
  | 0x100F08 => (selected s f r.jdsel).jdbase.toNat
  | 0x101000 => r.lkbase.toNat
  | 0x101008 => r.lkcnt.toNat
  | 0x101010 => r.flink.toNat
  | _ => 0

/-- The 64-bit register at an 8-aligned offset of a function's view (R15, R368, R371). -/
def w0Read (s : State) (f off : Nat) : W64 :=
  let o := off / 8 * 8
  BitVec.ofNat 64 <|
    if o = 0 then bootStat s.boot
    else if o = 0x10 then (if s.boot.reported then 2 else 0)
    else if 0x1000 ≤ o && o < 0x1020 then bytesNat ((s.boot.nonce.drop (o - 0x1000)).take 8)
    else if 0x1100 ≤ o && o < 0x1240 then bytesNat ((s.boot.report.drop (o - 0x1100)).take 8)
    else if s.boot.recovery then 0
    else if o < 0x100000 then 0
    else if o < 0x100800 then prRead (s.table f) (o - 0x100000)
    else if o < 0x200000 then w0Own s f o
    else if f = 0 then w0Physical s o
    else 0

/-- A read of 4 or 8 bytes at an offset (R15): the covered half, or the whole. -/
def w0ReadBytes (s : State) (f off n : Nat) : Nat :=
  let v := (w0Read s f off).toNat
  if n = 8 then v else if off % 8 = 4 then v / 2 ^ 32 else v % 2 ^ 32

end Sys2Proof.Machine
end

