-- ==== Sys2Proof/Machine/Sluice.lean ====
section
/-! DEFINITION. The string Sluice (R327 to R330): sums, filler, what fits, asking, granting and releasing. Amounts are in
eighths of an ampere; while a string is throttled reservations count at f of their value, so sums are scaled by the
denominator of f. -/

namespace Sys2Proof.Machine

variable {z : State}

/-- f = max(1/2, 1200 / SET) while throttled, else 1, as (numerator, denominator) (R330). -/
def Str.frac (t : Str) : Nat × Nat :=
  if t.throttled then (if 2400 ≤ t.setClk then (1, 2) else (1200, t.setClk)) else (1, 1)

/-- own(t) times the denominator (R327). -/
def Str.own (t : Str) (held : List Current) (tile : Nat) : Nat :=
  32 * t.frac.2 + ((held.filter fun c => c.tile = tile).map (·.amount)).sum * t.frac.1

def Str.maxOwn (t : Str) (held : List Current) : Nat := ([0, 1, 2, 3].map (t.own held)).foldl max 0

def runsPass (held : List Current) (tile : Nat) : Bool :=
  held.any fun c => c.tile == tile && match c.who with | .pass _ _ => true | _ => false

/-- filler(t) times the denominator (R328). -/
def Str.filler (t : Str) (held : List Current) (tile : Nat) : Nat :=
  min (if runsPass held tile then 0 else 56 * t.frac.2) (t.maxOwn held - 32 * t.frac.2 - t.own held tile)

def Str.sum (t : Str) (held : List Current) (tile : Nat) : Nat := t.own held tile + t.filler held tile

/-- A request is granted when, with it added, every tile has sum(t) ≥ M − 4 A (R328). -/
def Str.fits (t : Str) (c : Current) : Bool :=
  let held := c :: t.held
  ([0, 1, 2, 3] : List Nat).all fun tile => t.maxOwn held ≤ t.sum held tile + 32 * t.frac.2

/-- The waiting request granted next: the oldest that fits, while no older one was passed 64 times (R329). -/
def Str.next (t : Str) : List Current → List Current → Option (Current × List Current)
  | _, [] => none
  | before, c :: cs =>
    if t.fits c then some (c, (before.map fun b => { b with passed := b.passed + 1 }) ++ cs)
    else if c.passed < 64 then t.next (before ++ [c]) cs
    else none

def Str.holds (t : Str) (who : Asker) : Bool := t.held.any fun c => c.who == who
def Str.waits (t : Str) (who : Asker) : Bool := t.waiting.any fun c => c.who == who

/-- STRIMB of a tile as the Sluice's accounting stands (R357). -/
def strimb (t : Str) (tile : Nat) : Nat :=
  let den := t.frac.2
  let s := t.sum t.held tile
  let total := (([0, 1, 2, 3] : List Nat).map (t.sum t.held)).sum
  let imb := Int.tdiv (4 * (s : Int) - total) (4 * den)
  (if t.throttled then 2 ^ 40 else 0) + t.filler t.held tile / den * 2 ^ 32 + s / den * 65536 + wrapTo 16 imb

/-- STRIMB takes the accounting at a grant, a release, and where throttling changes what counts (R357, R330). -/
def Str.measured (t : Str) : Str := { t with reading := ([0, 1, 2, 3] : List Nat).map (strimb t) }

/-- The current `c` is granted, the requests of `rest` wait. -/
def Str.grant (t : Str) (c : Current) (rest : List Current) : Str :=
  Str.measured { t with held := t.held ++ [c], waiting := rest }

/-- An asker holds nothing and awaits nothing any more. -/
def Str.release (t : Str) (who : Asker) : Str :=
  let u : Str := { t with held := t.held.filter fun c => c.who != who, waiting := t.waiting.filter fun c => c.who != who }
  if t.holds who then u.measured else u

/-- While throttled, the time with no request waiting runs from the moment the last one left (R330). -/
def markQuiet (string : Nat) : M z Unit := do
  let s ← getS
  let now := (s.cluster (s.str string).throttleBy).cyc
  modStr string fun t =>
    if t.throttled && t.waiting.isEmpty && t.quietSince.isNone then { t with quietSince := some now } else t

/-- A vector or SFU reservation lasts until 64 cycles pass without such a word (R327). -/
def startReservation (cl : Nat) (who : Asker) : M z Unit := do
  let until_ := some (((← getS).cluster cl).cyc + 64)
  match who with
  | .vec core => modCore core fun c => { c with vecUntil := until_ }
  | .sfu core => modCore core fun c => { c with sfuUntil := until_ }
  | _ => pure ()

/-- Grants what R329 grants now. -/
def grantNext (string : Nat) : M z Unit := do
  let s ← getS
  let t := s.str string
  match t.next [] t.waiting with
  | none => stay
  | some (c, rest) =>
    modStr string fun t => t.grant c rest
    startReservation (4 * string + c.tile) c.who
    markQuiet string

/-- Asks for current, unless the asker holds or awaits it; answers whether it holds it. The request is the newest, and the
Sluice grants it at once where it is what R329 grants next: an older one that fits is granted first. -/
def askCurrent (cl : Nat) (who : Asker) (amount : Nat) : M z Bool := do
  let s ← getS
  let i := clusterString cl
  let t := s.str i
  if t.holds who then pure true
  else if t.waits who then pure false
  else
    let c : Current := { who := who, tile := cl % 4, amount := amount, since := (s.cluster cl).cyc }
    match t.next [] (t.waiting ++ [c]) with
    | some (d, rest) =>
      if d.who == who then
        modStr i fun t => t.grant c rest
        startReservation cl who
        pure true
      else
        modStr i fun t => { t with waiting := t.waiting ++ [c], quietSince := none }
        pure false
    | none =>
      modStr i fun t => { t with waiting := t.waiting ++ [c], quietSince := none }
      pure false

/-- Ends a reservation or withdraws a request. -/
def releaseCurrent (cl : Nat) (who : Asker) : M z Unit := do
  modStr (clusterString cl) fun t => t.release who
  markQuiet (clusterString cl)

end Sys2Proof.Machine
end

