-- ==== Sys2Proof/Machine/Barrier.lean ====
section
/-! DEFINITION. Acquires (R119), named barriers (R254, R256) and tickets (R151, R152). -/

namespace Sys2Proof.Machine

variable {z : State}

/-- An acquire of a group completes: its mark moves, and at .nbh, .dev and .sys its cluster's read cache is emptied
(R119, R120, R48). -/
def acquire (g scope : Nat) : M z Unit := do
  let s ← getS
  modGroup g fun gr => { gr with mu := s.home.now }
  if scope ≥ 2 then modCluster (s.groupCluster g) fun c => { c with crc := [] }

/-- An acquire of R122 completes: the group's later accesses follow what was released. -/
def orderAfter (g : Nat) (c : Clock) : M z Unit := modGroup g fun gr => gr.follow gr.nextId c

/-- Everything earlier of the group is performed and returned: what a release waits for (R119). -/
def Group.drained (gr : Group) : Bool := gr.sq.isEmpty && gr.ls.isEmpty

/-! Named barriers -/

/-- The teams of the neighbourhood of a team, or the team alone. -/
def nbhTeams (s : State) (e : Nat) : List Nat :=
  match s.team? e with
  | none => []
  | some t =>
    match s.grid? t.grid with
    | some gd => if gd.nbh then gd.teams else [e]
    | none => [e]

def isNbh (s : State) (e : Nat) : Bool :=
  match s.team? e with
  | none => false
  | some t => match s.grid? t.grid with | some gd => gd.nbh | none => false

/-- Barrier 0 of a neighbourhood is one barrier of its grid (R254). -/
def sharedBarrier (s : State) (e b : Nat) : Bool := b = 0 && isNbh s e

def barrierOf (s : State) (e b : Nat) : Barrier :=
  match s.team? e with
  | none => {}
  | some t =>
    if sharedBarrier s e b then (match s.grid? t.grid with | some gd => gd.barrier0 | none => {})
    else (SMap.get? t.barriers b).getD {}

def setBarrier (e b : Nat) (x : Barrier) : M z Unit := do
  let s ← getS
  let t ← getTeam e
  if sharedBarrier s e b then modGrid t.grid fun gd => { gd with barrier0 := x }
  else modTeam e fun t => { t with barriers := SMap.put t.barriers b x }

/-- The groups an arrival with c = 0 waits for. -/
def liveGroups (s : State) (e b : Nat) : List Nat :=
  ((if sharedBarrier s e b then nbhTeams s e else [e]).flatMap (s.teamGroups ·)).filter fun g =>
    match s.group? g with
    | some gr => !gr.exited
    | none => false

/-- The position of a group's contribution (R176). -/
def barPosition (s : State) (b g : Nat) : Nat :=
  match s.team? (groupTeam g) with
  | some t => if sharedBarrier s (groupTeam g) b then 32 * t.tidx + groupIdx g else groupIdx g
  | none => 0

/-- One level of the tree of R176. -/
def treeLevel {α : Type} (op : α → α → α) : List (Option α) → List (Option α)
  | a :: b :: rest =>
    (match a, b with
      | some x, some y => some (op x y)
      | some x, none => some x
      | none, y => y) :: treeLevel op rest
  | rest => rest

/-- TreeReduce over a list of 2^n nodes (R176). -/
def treeReduce {α : Type} (op : α → α → α) : Nat → List (Option α) → Option α
  | 0, l => match l with | a :: _ => a | [] => none
  | n + 1, l => treeReduce op n (treeLevel op l)

/-- The operation of a payload reduction (R256). -/
def RedKind.op : RedKind → W32 → W32 → W32
  | .addI32, a, b => a + b
  | .addF32, a, b => 
      BitVec.ofNat 32 (Num.round .f32 .rne (Num.add .rne (Num.decode .f32 a.toNat) (Num.decode .f32 b.toNat)))
  | .maxI32, a, b => if a.slt b then b else a
  | .minI32, a, b => if a.slt b then a else b
  | .and, a, b => a &&& b
  | .or, a, b => a ||| b

/-- What s[z] receives (R256): sign-extended for the signed kinds, else zero-extended. -/
def RedKind.extend : RedKind → W32 → W64
  | .addI32, x | .maxI32, x | .minI32, x => x.signExtend 64
  | _, x => x.zeroExtend 64

/-- The result of a phase: 0 without a contribution; an F32 NaN is canonical (R9, R176, R256). -/
def redResult (k : RedKind) (contrib : List (Nat × W32)) : W32 :=
  let r := (treeReduce k.op 10 ((List.range 1024).map fun i => (contrib.find? fun c => c.1 = i).map (·.2))).getD 0
  if k == .addF32 then canonF32 r else r

/-- The barrier unit a completion is journalled at (R254). -/
def barPoint (s : State) (e b : Nat) : Nat :=
  match s.team? e with
  | some t =>
    if sharedBarrier s e b then pointOfCore (match s.grid? t.grid with | some gd => gd.core0 | none => 0)
    else pointOfCore (t.core.getD 0)
  | none => pointOfCore 0

/-- A phase completes: its record, the release of the groups held in it, the next phase (R254, R256, R382). -/
def releasePhase (e b : Nat) : M z Unit := do
  let s ← getS
  let x := barrierOf s e b
  let owner := if sharedBarrier s e b then (nbhTeams s e).headD e else e
  journalTeam owner (barPoint s e b) JType.barel x.phase.toNat b
  let r := match x.red with | some k => redResult k x.contrib | none => 0
  let scope := if sharedBarrier s e b then 2 else 1
  forEach x.held fun (g, dst) => do
    modGroup g fun gr =>
      let gr := { gr with hold := some .released }
      match dst, x.red with
      | some d, some k => gr.setS d (k.extend r)
      | _, _ => gr
    acquire g scope
    orderAfter g x.clock
  setBarrier e b { phase := x.phase + 1, lastResult := r }

/-- An arrival of group `g` enters the set of the current phase; `held` is what it is held for. -/
def enterSet (g b c : Nat) (red : Option (RedKind × W32)) (held : Option (Option Nat)) : M z Unit := do
  let e := groupTeam g
  let s ← getS
  let x := barrierOf s e b
  let x := { x with count := c, arrived := x.arrived ++ [g]
                    clock := match s.group? g with | some gr => x.clock.join (gr.release g) | none => x.clock
                    held := match held with | some d => x.held ++ [(g, d)] | none => x.held }
  let x := match red with
    | some (k, v) =>
      { x with red := some k
               contrib := if (s.group? g).any fun gr => gr.exm != 0 then x.contrib ++ [(barPosition s b g, v)] else x.contrib }
    | none => x
  setBarrier e b x

/-- An arrival with count field `c` and kind `k` that the current phase does not take (R254, R256). -/
def Barrier.refuses (x : Barrier) (c : Nat) (k : Option RedKind) : Bool :=
  (!x.arrived.isEmpty && x.count != c) || match k, x.red with
    | some k, some k' => k != k'
    | _, _ => false

/-- fn of an arrival word (R255, R256). -/
def arrivalFn (k : Option RedKind) (sync : Bool) : Nat :=
  match k with
  | none => if sync then 0 else 1
  | some .addI32 => 2 | some .addF32 => 3 | some .maxI32 => 4 | some .minI32 => 5 | some .and => 6 | some .or => 7

/-- A group held because it had arrived twice enters the new phase (R254), or breaks it (R256). -/
def enterAgain (g b : Nat) : M z Unit := do
  let gr ← getGroup g
  match gr.hold with
  | some (.rearrive b' c _ red sync) =>
    if b' = b then
      let x := barrierOf (← getS) (groupTeam g) b
      let phase := x.phase
      if x.refuses c (red.map (·.1)) then modGroup g fun gr => { gr with hold := some (.misuse (arrivalFn (red.map (·.1)) sync) b) }
      else
      enterSet g b c (red.map fun r => (r.1, (gr.rs r.2.1).extractLsb' 0 32))
        (if sync then some (red.map (·.2.2)) else none)
      modGroup g fun gr =>
        { gr with hold := if sync then some (.barrier b c phase (red.map (·.1)) ((red.map (·.2.2)).getD 0)) else some .released }
  | _ => pure ()

/-- Whether the current phase has its N arrivals. -/
def phaseFull (s : State) (e b : Nat) : Bool :=
  let x := barrierOf s e b
  !x.arrived.isEmpty && x.arrived.length == (if x.count = 0 then (liveGroups s e b).length else x.count)

/-- Completes the current phase where it is full. Held second arrivals enter the next phase at once, which may fill it;
`fuel` bounds this by the number of groups. -/
def settle (e b : Nat) : Nat → M z Unit
  | 0 => pure ()
  | fuel + 1 => do
    if phaseFull (← getS) e b then
      releasePhase e b
      forEach (liveGroups (← getS) e b) fun g => enterAgain g b
      settle e b fuel

/-- An arrival of group `g` with count field `c` (R254). -/
def arrive (g b c : Nat) (red : Option (RedKind × W32)) (held : Option (Option Nat)) : M z Unit := do
  enterSet g b c red held
  settle (groupTeam g) b (1 + (liveGroups (← getS) (groupTeam g) b).length)

/-- A group that exits or is stopped leaves every set; a phase with c = 0 may complete (R254). -/
def leaveBarriers (g : Nat) : M z Unit := do
  let e := groupTeam g
  forEach (List.range 16) fun b => do
    let s ← getS
    let x := barrierOf s e b
    if x.arrived.contains g then
      setBarrier e b { x with arrived := x.arrived.filter (· != g), held := x.held.filter fun h => h.1 != g }
    if x.count = 0 then settle e b (1 + (liveGroups (← getS) e b).length)

/-! Tickets -/

/-- NEXT moves past the held passes (R152); `fuel` bounds it by their number. -/
def Ticket.advance (t : Ticket) : Nat → Ticket
  | 0 => t
  | fuel + 1 =>
    if t.passes.contains t.next then { t with next := t.next + 1, passes := t.passes.filter (· != t.next) }.advance fuel else t

/-- The object's 16 bytes (R151). -/
def Ticket.encode (t : Ticket) : Nat := t.next + (if t.void then 2 ^ 63 else 0) + t.vtidx * 2 ^ 64

/-- A pass of object `j` by team `e` (R152), which releases `c`; `void`: by unwinding. -/
def passTicket (e j : Nat) (void : Bool) (c : Clock) : M z Unit := do
  let t ← getTeam e
  let gd ← getGrid t.grid
  let k ← need gd.tickets[j]?
  let k := { k with passes := k.passes ++ [t.tidx], void := k.void || void
                    clock := k.clock.join c
                    vtidx := if void && !k.void then t.tidx else k.vtidx }
  let k := k.advance k.passes.length
  modGrid t.grid fun gd => { gd with tickets := gd.tickets.set j k }
  modTeam e fun t => { t with passed := t.passed ++ [j] }
  sysWrite k.addr (natBytes k.encode 16)

/-- Passes by unwinding or retirement: a SYS record each (R351). -/
def passAll (e : Nat) (void : Bool) : M z Unit := do
  let t ← getTeam e
  let gd ← getGrid t.grid
  forEach (List.range gd.tickets.length) fun j => do
    if !t.passed.contains j then
      match gd.tickets[j]? with
      | some k => journalTeam e pointTaskUnit JType.ticket 0 k.va void
      | none => pure ()
      passTicket e j void (teamRelease (← getS) e)

end Sys2Proof.Machine
end

