-- ==== Sys2Proof/Machine/Ops.lean ====
section
/-! DEFINITION. The shared operations of every instruction word: what a unit is checked for before issue (R139, R183,
R208, R225), charging and exhaustion (R139 to R148), taking a trap (R334 to R339) and returning from it (R299), unwinding
(R148), and the step of the program counter (R41, R216). -/

namespace Sys2Proof.Machine

variable {z : State}

/-! What a word is -/

/-- A register as a word names it. -/
inductive Reg where
  | v (n : Nat) | o (n : Nat) | l (n : Nat) | q (n : Nat) | s (n : Nat) | k (n : Nat)
  deriving DecidableEq, Repr

/-- How a word uses hint.imm words (R184). -/
inductive ImmUse where
  | none | spec | simm
  deriving DecidableEq, Repr

/-- What a word does with an all-zero EXM (R189): nothing beyond its charge; its effect without a surcharge; or its
effect and cost as ever. -/
inductive EmptyMask where
  | skips | acts | ignores
  deriving DecidableEq, Repr

/-- What the checks before issue need to know of a word. -/
structure Info where
  reads : List Reg := []              -- registers read, lane files in the active lanes
  names : List Reg := []              -- registers named whose lanes read stand in `others`
  others : List (Reg × Nat × Nat) := []     -- (register, lane read, active lane that reads it) (R225)
  writes : List Reg := []
  ok : Bool := true                   -- no ILL_OPERAND of the word's own
  zeroWord : Bool := false            -- ILL_OP of the all-zero word (R180)
  imm : ImmUse := .none
  mods : ModHint → Bool := fun _ => false     -- which hint.mod words the word accepts (R186, R226)
  raises : List Detail := []          -- further causes found before issue
  surcharge : Nat := 0
  moved : Nat := 0                    -- the grant or amount of spawn and topup (R139)
  mask : EmptyMask := .skips
  pipe : Option Bool := none          -- some false: a vector word, some true: an SFU word (R327)
  waits : Bool := false               -- the word's own condition holds it before issue

/-- Where the group goes after a unit. -/
inductive Flow where
  | seq                                       -- the next word
  | jump (target : Int)                       -- a word of the same slot (R188)
  | far (slot : BitVec 1) (off : BitVec 14)   -- another slot (R304)
  | stays                                     -- the program counter and hints are as the effect left them
  | parked                                    -- the unit is not complete (R33)
  | ended                                     -- the group exited (R222)
  | raised (ds : List Detail)                 -- traps at the unit, what the effect did stays (R87)
  | after (ds : List Detail)                  -- traps with TPC at the word after (R298)

/-- The current group and where it stands. -/
structure View where
  s : State
  g : Nat
  gr : Group
  t : Team
  core : Nat

/-- A group and where it stands. -/
def viewOf (s : State) (g : Nat) : Option View :=
  match s.group? g, s.team? (groupTeam g) with
  | some gr, some t => some { s := s, g := g, gr := gr, t := t, core := t.core.getD 0 }
  | _, _ => none

def view (s : State) : Option View :=
  match s.cur with
  | none => none
  | some g => viewOf s g

namespace View

def cl (w : View) : Nat := coreCluster w.core
def eid (w : View) : Nat := groupTeam w.g
def gidx (w : View) : Nat := groupIdx w.g
def exm (w : View) : W32 := w.gr.exm
def lanes (w : View) : List Nat := lanesOf w.gr.exm
/-- The word offset of the word itself, past its hints. -/
def wordPc (w : View) : Nat := w.gr.pc.toNat + w.gr.hints.length
def unitPc (w : View) : BitVec 15 := packPc w.gr.slot w.gr.pc
/-- The first word of the unit (R339). -/
def firstWord (w : View) : W32 := fetchAt w.s w.core w.gr.slot w.gr.pc.toNat
def launch (w : View) : Option Launch := w.s.launch? w.t.launch
def phm (w : View) : Bool := phaseMode w.s w.t

/-- The hint.mod of the unit, where it has one (R186). -/
def mod? (w : View) : Option ModHint := w.gr.hints.findSome? fun h => match h with | .mod m _ => some m | _ => none
def mod (w : View) : ModHint := (w.mod?).getD { scope := 0 }
/-- The scope of an access: .dev without a hint.mod (R186). -/
def scope (w : View) : Nat := match w.mod? with | some m => m.scope.toNat | none => 3
def imms (w : View) : List (BitVec 26) := w.gr.hints.filterMap fun h => match h with | .imm p => some p | _ => none

/-- The immediate of specifier 0xDF (R184). -/
def immSpec (w : View) : W32 :=
  match w.imms with
  | p :: q :: _ => (p.zeroExtend 32 <<< 6) ||| (q.zeroExtend 32 &&& 0x3F)
  | [p] => p.zeroExtend 32 <<< 6
  | [] => 0

/-- The immediate of an S-imm word (R184). -/
def immS (w : View) (imm10 : BitVec 10) : W64 :=
  match w.imms with
  | p :: q :: _ =>
    BitVec.ofInt 64 (signedOf 62 (p.toNat * 2 ^ 36 % 2 ^ 62 ||| q.toNat * 2 ^ 10 ||| imm10.toNat))
  | [p] => BitVec.ofInt 64 (signedOf 36 (p.toNat * 2 ^ 10 ||| imm10.toNat))
  | [] => imm10.signExtend 64

end View

/-! Which hint.mod words a word accepts (R186, R209, R216, R226, R240) -/

/-- Every field zero. -/
def modZero (m : ModHint) : Bool := m == { scope := 0 }
/-- SCOPE only. -/
def modScope (m : ModHint) : Bool := modZero { m with scope := 0 }
def modDest (m : ModHint) : Bool := modZero { m with odst := false, oidx := 0 }
/-- RND and SAT as well as a destination. -/
def modRound (m : ModHint) : Bool := modDest { m with rnd := 0, sat := false }
/-- NEG and ABS as well. -/
def modFloat (m : ModHint) : Bool := modRound { m with nega := false, negb := false, absa := false, absb := false }
/-- Signs of the operands only. -/
def modSigns (m : ModHint) : Bool := modZero { m with nega := false, negb := false, absa := false, absb := false }

/-! Checks before issue -/

/-- Registers a group awaits (R225, R209). -/
def Group.awaits (gr : Group) (r : Reg) : Bool :=
  let ld := gr.ls.any fun e => !e.discard && match e.acc.dest, r with
    | .vec b, .v n => b ≤ n && n < b + (e.acc.size + 3) / 4
    | .scalar b, .s n => b == n
    | _, _ => false
  let sf := match r with | .v n => gr.sfu.any fun e => e.regs.contains n | _ => false
  ld || sf

/-- R43: v registers below the budget, o0 to o7, l0 and l1. -/
def regInBudget (budget : Nat) : Reg → Bool
  | .v n => n < budget
  | .o n | .q n => n < 8
  | .l n => n < 2
  | .s n => n < 64
  | .k n => n < 8

/-- Every register a word names. -/
def Info.named (i : Info) : List Reg := i.reads ++ i.writes ++ i.names

/-- The lanes of a register that are poisoned among `lanes`. -/
def Group.poisonLanes (gr : Group) (r : Reg) (lanes : List Nat) : List Nat :=
  match r with
  | .v n => lanes.filter fun l => NSet.has gr.poison.v (32 * n + l)
  | .o n => lanes.filter fun l => NSet.has gr.poison.o (32 * n + l)
  | .l n => lanes.filter fun l => NSet.has gr.poison.l (32 * n + l)
  | .q n => lanes.filter fun l => NSet.has gr.poison.q (32 * n + l)
  | .s n => if NSet.has gr.poison.s n then [0] else []
  | .k n => if NSet.has gr.poison.k n then [0] else []

def Reg.num : Reg → Nat
  | .v n | .o n | .l n | .q n | .s n | .k n => n

def Reg.isLanes : Reg → Bool
  | .s _ | .k _ => false
  | _ => true

/-- HWERR of the registers a word reads, and of EXM where it acts on lanes (R63, R339). -/
def hwerrOf (gr : Group) (reads : List Reg) (others : List (Reg × Nat × Nat)) (lanes : List Nat)
    (exm : Bool := true) : List Detail :=
  let one (r : Reg) (at_ : Nat → Nat) (ls : List Nat) : List Detail :=
    (gr.poisonLanes r ls).map fun l =>
      { cause := Cause.hwerr, lane := at_ l, code := (if r.isLanes then 1 else 2), value := BitVec.ofNat 64 r.num
        lanes := if r.isLanes then maskOf [at_ l] else 0 }
  reads.flatMap (fun r => one r (fun l => l) lanes) ++ others.flatMap (fun p => one p.1 (fun _ => p.2.2) [p.2.1]) ++
    (if exm && gr.poison.exm then [{ cause := Cause.hwerr, code := 2 }] else [])

/-- Whether the hints of a unit keep R183, R184, R186 for a word of this kind. -/
def hintsOk (w : View) (i : Info) : Bool :=
  let hs := w.gr.hints
  let scheds := hs.filter fun h => match h with | .sched .. => true | _ => false
  let mods := hs.filter fun h => match h with | .mod .. => true | _ => false
  let imms := w.imms
  scheds.length ≤ 1 && mods.length ≤ 1 && imms.length ≤ 2 &&
  hs.all (fun h => match h with | .sched _ _ bad => !bad | .mod m bad => !bad && i.mods m | .imm _ => true) &&
  (match i.imm with
    | .none => imms.isEmpty
    | .simm => true
    | .spec => !imms.isEmpty && (match imms with | [_, q] => q.toNat < 64 | _ => true))

/-- One detail per cause: the lowest lane's, with all the lanes that raised it (R336). -/
def mergeDetails (ds : List Detail) : List Detail :=
  (distinct (ds.map (·.cause))).map fun c =>
    let same := ds.filter fun d => d.cause = c
    let low := same.foldl (fun a d => if d.lane < a.lane then d else a) (same.headD { cause := c })
    { low with lanes := same.foldl (fun m d => m ||| d.lanes) 0 }

/-- HWERR of a poisoned AL, whose number is 0x010, or system register of the team (R63, R339). -/
def teamPoison (t : Team) : List Detail :=
  ((if t.alPoison then [0x010] else []) ++ SMap.keys t.sysPoison).map fun n =>
    { cause := Cause.hwerr, code := 4, value := BitVec.ofNat 64 n }

/-- The causes a unit meets before issue, found together (R187, R208). -/
def preCauses (w : View) (i : Info) : List Detail :=
  let word := (w.firstWord).zeroExtend 64
  let here := fetchAt w.s w.core w.gr.slot w.wordPc
  let skips := i.mask == .skips && w.exm == 0
  let budget := w.t.budget w.gidx
  let regsOk := i.named.all (regInBudget budget)
  let ds : List Detail :=
    (if i.zeroWord || unusedSet here then [{ cause := Cause.illOp, value := word, word := here }] else []) ++
    (if i.ok && regsOk && hintsOk w i then [] else [{ cause := Cause.illOperand, value := word, word := here }]) ++
    (if skips then hwerrOf w.gr [] [] [] else hwerrOf w.gr i.reads i.others w.lanes (i.mask != .ignores) ++ i.raises) ++
    teamPoison w.t
  mergeDetails ds

/-- The cost of the unit: its words and the surcharge (R140), without the amount it moves. -/
def unitCost (w : View) (i : Info) : Nat :=
  1 + w.gr.hints.length + (if w.exm = 0 && i.mask != .ignores then 0 else i.surcharge)

/-- A string whose clusters can issue: not gated, not waking (R365, R366). -/
def stringAwake (s : State) (cl : Nat) : Bool :=
  let t := s.str (clusterString cl)
  !t.gated && t.wakeAt.isNone

/-! Issue slots (R142, R179, R325) -/

def View.cyc (w : View) : Nat := (w.s.cluster w.cl).cyc

/-- The kind of slot a word takes by its class (R179): 0 scalar/control, 1 a vector slot, 3 memory. -/
def slotKind (word : W32) : Nat :=
  let c := word.toNat / 2 ^ 28
  if c < 5 then 1 else if 8 ≤ c && c ≤ 0xD then 3 else 0

/-- The word of the unit that presents: the first that is no hint, of at most four after those collected. -/
def View.unitWord (w : View) : W32 :=
  let at_ (i : Nat) : W32 := fetchAt w.s w.core w.gr.slot (w.wordPc + i)
  (((List.range 5).map at_).find? fun x => x.toNat / 2 ^ 28 != 0xF).getD (at_ 0)

/-- The units that the core of the group issued in its present cycle. -/
def View.issuedNow (w : View) : List (Nat × Nat) :=
  let c := w.s.core w.core
  if c.issueCyc = w.cyc then c.issued else []

/-- The slot that the unit would take: a vector word takes slot 1, or slot 2 once slot 1 has a unit. -/
def View.issueSlot (w : View) : Nat :=
  let k := slotKind w.unitWord
  if k = 1 && w.issuedNow.any (fun e => e.1 = 1) then 2 else k

/-- How long ago a group issued in a slot: the later in the list, the longer ago. -/
def Core.issueRank (c : Core) (slot g : Nat) : Nat := (SMap.look [] c.recent slot).idxOf g

/-- The slot is free in this cycle, and the units of the team are compared in the order of their slots (R142). -/
def slotFree (w : View) : Bool :=
  w.issuedNow.all fun e => e.1 != w.issueSlot && (groupTeam e.2 != w.eid || e.1 < w.issueSlot)

/-- Whether the group's unit may present, its pace by YIELD aside (R145, R146, R185, R325, R342, R347). -/
def canPresent (w : View) : Bool :=
  !w.gr.exited && w.gr.hold.isNone && w.gr.parked.isNone && w.gr.trap.pending.isNone && w.t.core.isSome &&
  (w.t.state == .running || (w.t.state == .starved && w.gr.inHandler)) &&
  (match w.t.stop with
    | .running => true
    | .stepping i => i == w.gidx
    | _ => false) &&
  (match w.t.preempt with
    | some 0 | some 2 => false
    | _ => true) &&
  stringAwake w.s w.cl && w.gr.stallUntil ≤ w.cyc

/-- Another group of the core whose unit needs the same slot and has not been found held in this cycle. -/
def rivalsOf (w : View) : List View :=
  (SMap.keys w.s.groups).filterMap fun h =>
    if h = w.g then none
    else match viewOf w.s h with
      | some v => if v.t.core == some w.core && canPresent v && slotKind v.unitWord == slotKind w.unitWord && v.gr.heldAt != some w.cyc
          then some v else none
      | none => none

/-- Whether the group may present a unit at all: with YIELD, in the cycle after its word, another group of the slot goes
first (R185). -/
def mayPresent (w : View) : Bool := canPresent w && !(w.gr.yielded == some w.cyc && !(rivalsOf w).isEmpty)

/-- Among the candidates of a slot, the group that issued in it least recently goes first; then the earlier team begin, then
the lower GIDX (R325). -/
def isPicked (w : View) : Bool :=
  let c := w.s.core w.core
  let k := w.issueSlot
  (rivalsOf w).all fun v =>
    let a := c.issueRank k v.g
    let b := c.issueRank k w.g
    v.gr.yielded == some w.cyc || a < b ||
      (a == b && (w.t.beginCyc < v.t.beginCyc || (w.t.beginCyc == v.t.beginCyc && w.g < v.g)))

/-- Whether the word waits for the vector or SFU current of its core (R327). -/
def needsCurrent (w : View) (i : Info) : Option Asker :=
  match i.pipe with
  | none => none
  | some sfu =>
    let who : Asker := if sfu then .sfu w.core else .vec w.core
    if w.gr.cres.isSome || (w.s.str (clusterString w.cl)).holds who then none else some who

/-- What becomes of the unit that presents: it may not present now (`wait`), or something of its own holds it. -/
inductive Verdict where
  | wait
  | hold
  | stopped (ds : List Detail)
  | current (who : Asker)
  | exhausted (cost : Nat)
  | issues (cost : Nat)
  deriving DecidableEq, Repr

/-- What is looked at while the word's own condition holds it: its further causes are those of the moment it may issue. -/
def Info.early (i : Info) : Info := if i.waits then { i with raises := [] } else i

/-- What keeps the unit from the comparison with AL: none where nothing does. -/
def gate (w : View) (i : Info) : Option Verdict :=
  if !mayPresent w || !slotFree w || !isPicked w then some .wait
  else if i.named.any w.gr.awaits then some .hold
  else
    let ds := preCauses w i.early
    if !ds.isEmpty then some (.stopped ds)
    else if i.waits then some .hold
    else (needsCurrent w i).map .current

/-- The comparison of a cost with AL (R139, R142); handler mode neither compares nor charges, but an amount that a unit moves
leaves AL all the same, so that the sum of R149 holds, and the unit waits while AL is less (log entry 89). -/
def compareAl (w : View) (i : Info) (cost : Nat) : Verdict :=
  if w.gr.inHandler then if i.moved ≤ w.t.al.toNat then .issues 0 else .hold
  else if cost + i.moved ≤ w.t.al.toNat then .issues cost
  else .exhausted (cost + i.moved)

def verdict (w : View) (i : Info) : Verdict := (gate w i).getD (compareAl w i (unitCost w i))

/-! Unwinding (R148) -/

/-- Whether team `x` is `e` or a descendant; `fuel` bounds the chain by the number of teams. -/
def isUnder (s : State) (e : Nat) : Nat → Nat → Bool
  | 0, x => x == e
  | fuel + 1, x =>
    x == e || match s.team? x with
      | some t => (match t.parent with | some p => isUnder s e fuel p | none => false)
      | none => false

/-- The events of the group's word are no longer held at their journal points (R322). -/
def dropEvents (g : Nat) : M z Unit := do
  let t ← getTeam (groupTeam g)
  modLaunch t.launch fun l => l.dropHolds t.tag (groupIdx g)

/-- A group ends: it leaves its barriers, its loads are discarded as they land, its current is released (R222, R254, R306). -/
def endGroup (g : Nat) : M z Unit := do
  let gr ← getGroup g
  let s ← getS
  match gr.parked with
  | some p => detach (p.waits.map (·.2))
  | none => pure ()
  let asks := match gr.hold with | some (.cres _ _) => true | _ => false
  if gr.cres.isSome || asks then releaseCurrent (s.groupCluster g) (.cres g)
  unlockLines g
  dropEvents g
  modGroup g fun gr =>
    { gr with exited := true, hold := none, parked := none, hints := [], stack := [], cres := none
              trap := { gr.trap with pending := none, handler := none, resume := none }
              ls := gr.ls.map fun e => { e with discard := true } }
  leaveBarriers g

/-- The groups of a list that have not ended end. -/
def endGroups (gs : List Nat) : M z Unit :=
  forEach gs fun g => do
    let gr ← getGroup g
    if !gr.exited then endGroup g

/-- One team enters UNWINDING. An amount of a topup not yet serialised returns to the team. -/
def unwindOne (e : Nat) : M z Unit := do
  let t ← getTeam e
  match t.state with
  | .done | .unwinding => pure ()
  | _ =>
    let s ← getS
    let amounts := ((s.teamGroups e).map fun g => match s.group? g with
      | some gr => (match gr.hold with | some (.topup _ _ a) => a | _ => 0)
      | none => 0)
    modTeam e fun t =>
      { t with state := .unwinding, unwound := true, pendingCost := none, preempt := none, stop := .running
               al := amounts.foldl (· + ·) t.al }
    match t.state with
    | .saved slot => modCtx t.ctx fun c => { c with saveUsed := c.saveUsed.filter (· != slot) }
    | _ => pure ()
    if t.parent.isNone then modLaunch t.launch fun l => { l with unwound := true }
    passAll e true
    forEach (s.teamGroups e) fun g => do
      match (← getS).group? g with
      | some gr => if !gr.exited then endGroup g
      | none => pure ()

/-- The team and every live descendant enter UNWINDING. -/
def unwind (e : Nat) : M z Unit := do
  let s ← getS
  forEach (SMap.keys s.teams) fun x => if isUnder s e s.teams.length x then unwindOne x else pure ()

/-! Taking a trap (R335 to R339) -/

def causeBits (ds : List Detail) : W64 := ds.foldl (fun m d => m ||| (1#64 <<< d.cause)) 0

/-- TCAUSE takes the causes, and each keeps its own detail (R334, R336). -/
def TrapState.record (t : TrapState) (ds : List Detail) : TrapState :=
  { t with tcause := t.tcause ||| causeBits ds
           details := ds ++ t.details.filter fun d => !(ds.any fun x => x.cause = d.cause) }

/-- Trap entry (R335 steps 3 to 5): the saved registers, the kept mask and stack, the handler's first word. -/
def enterHandler (g : Nat) (ds : List Detail) (tpc : BitVec 15) (tmask : W32) : M z Unit :=
  modGroup g fun gr =>
    let tr := gr.trap.record ds
    { gr with
      trap := { tr with tpc := tpc, tmask := tmask, pending := none, resume := none
                        handler := some { exm := gr.trap.resume.getD gr.exm, stack := gr.stack } }
      exm := 0xFFFFFFFF
      stack := []
      hints := []
      slot := tr.tvec.extractLsb' 14 1
      pc := tr.tvec.extractLsb' 0 14 }

/-- A debugger is attached to the group's context (R347). -/
def watched (s : State) (t : Team) : Bool := (s.ctx t.ctx).watched

def debugCause (d : Detail) : Bool := d.cause == Cause.brk || d.cause == Cause.step || d.cause == Cause.watch

/-- The causes of a unit reach the group: an attached debugger, the handler at once or once loads have drained, or a
double fault (R335, R337, R347). `tpc` names the unit of R334; `tmask` the lanes it leaves unperformed, EXM by default. -/
def takeTrap (g : Nat) (ds0 : List Detail) (tpc : BitVec 15) (tmask : Option W32) : M z Unit := do
  let ds := mergeDetails ds0
  let gr ← getGroup g
  let e := groupTeam g
  let t ← getTeam e
  let s ← getS
  unlockLines g
  dropEvents g
  if ds.any fun d => d.cause == Cause.jnlDiv then modLaunch t.launch fun l => { l with div := true, jheld := [] }
  let mask := tmask.getD gr.exm
  if watched s t && ds.any debugCause then
    modGroup g fun gr =>
      { gr with trap := { gr.trap.record ds with tpc := tpc, tmask := mask }, hints := [], parked := none, left := tmask }
    modTeam e fun t => { t with stop := .stopping }
  else if gr.inHandler || !gr.trap.tvec.getLsbD 15 then
    modGroup g fun gr => { gr with trap := gr.trap.record ds, parked := none }
    unwind e
  else if gr.lcnt = 0 && gr.fcnt = 0 then
    modGroup g fun gr => { gr with parked := none }
    enterHandler g ds tpc mask
  else
    modGroup g fun gr =>
      { gr with parked := none, hints := [], trap := { gr.trap with pending := some { raised := ds, tpc := tpc, tmask := mask } } }

/-- Return from a trap (R299): with causes left the handler is entered again, else the interrupted mask and stack are
reinstated and the unit at TPC runs with the lanes TMASK AND EXM, after which EXM holds again. -/
def returnFromTrap (g : Nat) : M z Unit :=
  modGroup g fun gr =>
    match gr.trap.handler with
    | none => gr
    | some sv =>
      if gr.trap.tcause ≠ 0 then
        { gr with exm := 0xFFFFFFFF, stack := [], hints := [], slot := gr.trap.tvec.extractLsb' 14 1
                  pc := gr.trap.tvec.extractLsb' 0 14 }
      else
        { gr with exm := gr.trap.tmask &&& sv.exm, stack := sv.stack, hints := []
                  slot := gr.trap.tpc.extractLsb' 14 1, pc := gr.trap.tpc.extractLsb' 0 14
                  trap := { gr.trap with
                    handler := none
                    resume := if gr.trap.tmask &&& sv.exm = sv.exm then none else some sv.exm } }

/-! Exhaustion (R142, R145 to R147, R156) -/

/-- A STARVED team returns to RUNNING (R147). -/
def resume (e : Nat) : M z Unit := do
  let t ← getTeam e
  modTeam e fun t => { t with state := t.state.fits, pendingCost := none }
  modGroup t.pendingGroup fun gr => { gr with trap := { gr.trap with tcause := gr.trap.tcause &&& ~~~(1#64 <<< Cause.allowExh) } }

/-- The team's point of exhaustion: its unit cost more than AL. -/
def exhaust (w : View) (cost : Nat) : M z Unit := do
  let e := w.eid
  let d : Detail := { cause := Cause.allowExh, value := BitVec.ofNat 64 cost, al := w.t.al, word := w.firstWord }
  modGroup w.g fun gr => { gr with trap := { gr.trap.record [d] with tpc := w.unitPc }, hints := [] }
  modTeam e fun t => { t with exh := true }
  modLaunch w.t.launch fun l => { l with exh := true, inFlight := false }
  if w.t.shape.pol then
    modTeam e fun t => { t with state := .starved, pendingCost := some cost, pendingGroup := w.g, al := t.al + BitVec.ofNat 64 t.heldTopup
                                heldTopup := 0 }
    let t ← getTeam e
    if w.t.heldTopup ≠ 0 && cost ≤ t.al.toNat then resume e
  else unwind e

/-! The program counter -/

/-- The overlay a slot holds, by id (R302). -/
def slotOverlay (c : Core) (slot : BitVec 1) : Nat :=
  match (if slot = 0 then c.tag0 else c.tag1) with
  | some t => t.2
  | none => 0

/-- The value of OVL_MISS (R339). -/
def ovlTarget (id : Nat) (off : Int) : W64 := BitVec.ofNat 64 (id * 65536 + wrapTo 16 off)

def ovlMiss (s : State) (core : Nat) (slot : BitVec 1) (off : Int) : Detail :=
  { cause := Cause.ovlMiss, value := ovlTarget (slotOverlay (s.core core) slot) off }

/-- Puts a group at a word; the lanes of a unit resumed by tret give way to the full mask (R299). -/
def Group.goTo (gr : Group) (slot : BitVec 1) (pc : BitVec 14) : Group :=
  { gr with slot := slot, pc := pc, hints := []
            exm := gr.trap.resume.getD gr.exm
            trap := { gr.trap with resume := none } }

/-- Finishes a unit: the program counter moves, and a resumed mask gives way to the full one. A program counter that
would leave its slot raises OVL_MISS and stays (R41). -/
def moveTo (w : View) (target : Int) : M z (Option (List Detail)) := do
  if 0 ≤ target && target < 16384 then
    modGroup w.g fun gr => gr.goTo w.gr.slot (BitVec.ofNat 14 target.toNat)
    pure none
  else pure (some [ovlMiss w.s w.core w.gr.slot target])

/-- The STALL and YIELD of the unit, where it has a hint.sched word (R185). -/
def View.sched (w : View) : Option (Nat × Bool) :=
  w.gr.hints.findSome? fun h => match h with | .sched n y _ => some (n, y) | _ => none

/-- After a unit issued: STALL, YIELD and STEP (R185, R338), and a debugger's single step (R348). -/
def afterUnit (w : View) : M z Unit := do
  let cyc := (w.s.cluster w.cl).cyc
  match w.sched with
  | some (n, y) => modGroup w.g fun gr => { gr with stallUntil := cyc + n, yielded := if y then some (cyc + 1) else none }
  | none => pure ()
  match w.t.stop with
  | .stepping _ => modTeam w.eid fun t => { t with stop := .stopping }
  | _ => pure ()

/-- STEP outside handler mode, with TPC at the next unit (R334, R338). -/
def stepTrap (w : View) : M z Unit := do
  if w.gr.trap.tmode.getLsbD 2 && !w.gr.inHandler then
    let gr ← getGroup w.g
    if !gr.exited && gr.trap.pending.isNone && !gr.inHandler then
      takeTrap w.g [{ cause := Cause.step }] (packPc gr.slot gr.pc) none

/-- The group's place after the effect of a unit. -/
def follow (w : View) : Flow → M z Unit
  | .seq => do
    match ← moveTo w (w.wordPc + 1) with
    | none => stepTrap w
    | some ds => takeTrap w.g ds w.unitPc none
  | .jump target => do
    match ← moveTo w target with
    | none => stepTrap w
    | some ds => takeTrap w.g ds w.unitPc none
  | .far slot off => do
    modGroup w.g fun gr => gr.goTo slot off
    stepTrap w
  | .stays => stepTrap w
  | .parked | .ended => pure ()
  | .raised ds => takeTrap w.g ds w.unitPc none
  | .after ds => do
    match ← moveTo w (w.wordPc + 1) with
    | none =>
      let gr ← getGroup w.g
      takeTrap w.g ds (packPc gr.slot gr.pc) none
    | some more => takeTrap w.g (ds ++ more) w.unitPc none

/-! Issuing -/

/-- The issue of the unit in its slot (R142, R325). -/
def View.issues (w : View) (c : Core) : Core :=
  { c with issueCyc := w.cyc, issued := w.issuedNow ++ [(w.issueSlot, w.g)]
           recent := SMap.put c.recent w.issueSlot (w.g :: (SMap.look [] c.recent w.issueSlot).filter (· != w.g)) }

/-- The charge of a unit (R139, R341), its slot, and the vector or SFU reservation it extends (R327). -/
def chargeUnit (w : View) (i : Info) (cost : Nat) : M z Unit := do
  modTeam w.eid fun t => { t with al := t.al - BitVec.ofNat 64 (cost + i.moved), charged := t.charged + cost }
  modGroup w.g fun gr => { gr with sysWait := none }
  let until_ := w.cyc + 64
  modCore w.core fun c =>
    let c := w.issues c
    match i.pipe with
    | none => c
    | some true => { c with sfuUntil := some until_ }
    | some false => { c with vecUntil := some until_ }

/-- What follows from the effect of a unit. A cause found after issue has undone the effect and leaves the charge (R139,
R336). -/
def afterEffect (w : View) : Except Stop Flow → M z Unit
  | .ok f => follow w f
  | .error (.trap ds tmask) => takeTrap w.g ds w.unitPc tmask
  | .error e => fun _ => .error e

/-- Issues a unit: its charge, its effect, and what follows. -/
def issueUnit (w : View) (i : Info) (cost : Nat) (effect : M z Flow) : M z Unit := do
  chargeUnit w i cost
  afterUnit w
  if i.mask == .skips && w.exm == 0 then follow w .seq
  else do
    let r ← attempt effect
    afterEffect w r

/-- What follows from the verdict on a unit. -/
def conclude (w : View) (i : Info) (effect : M z Flow) : Verdict → M z Unit
  | .wait | .hold => stay
  | .stopped ds => takeTrap w.g ds w.unitPc none
  | .current who => do
    let _ ← askCurrent w.cl who (match who with | .sfu _ => 4 | _ => 16)
    modGroup w.g fun gr => { gr with heldAt := some w.cyc }
  | .exhausted cost => exhaust w cost
  | .issues cost => issueUnit w i cost effect

/-- The unit is found held in this cycle, where it may present: the slot goes to another group (R325). -/
def View.foundHeld (w : View) (s : State) : State :=
  if mayPresent w && slotFree w && isPicked w then
    { s with groups := SMap.adjust s.groups w.g fun gr => { gr with heldAt := some w.cyc } }
  else s

/-- The outcome of a unit's turn: one that stays leaves the state but for the note that it is held. -/
def runGroup (z : State) (w : View) (m : M z Unit) : Host.Outcome State Fault Refusal :=
  outcomeOf z w.foundHeld (asWaiter (.group w.g) m ⟨z, .refl⟩)

/-- The outcome of a unit that presents: `info` says what is checked, `effect` what it does once issued. -/
def runUnit (z : State) (info : View → Info) (effect : View → M z Flow) : Host.Outcome State Fault Refusal :=
  match view z with
  | none => .next z
  | some w => runGroup z w (conclude w (info w) (effect w) (verdict w (info w)))

/-- A unit whose effect is a change of its group's registers. -/
def runRegs (z : State) (info : View → Info) (f : View → Group → Group) : Host.Outcome State Fault Refusal :=
  runUnit z info fun w => do
    modGroup w.g (f w)
    pure .seq

/-! Words whose issue reads memory before the comparison with AL (R77, R81, R84, R94) -/

/-- What the reads of issue end in: a value, causes found before issue, or a page to wait for. -/
inductive Pre (α : Type) where
  | ok (a : α)
  | bad (ds : List Detail)
  | wait (va : W64) (w : Wait)

def preBind {α β : Type} (m : M z (Pre α)) (f : α → M z (Pre β)) : M z (Pre β) := do
  match ← m with
  | .ok a => f a
  | .bad ds => pure (.bad ds)
  | .wait va w => pure (.wait va w)

def preEach {α β : Type} (f : α → M z (Pre β)) : List α → M z (Pre (List β))
  | [] => pure (.ok [])
  | x :: xs => preBind (f x) fun y => preBind (preEach f xs) fun ys => pure (.ok (y :: ys))

/-- A unit whose issue first runs `pre`; a miss parks the group before the comparison, and the reads are made afresh when
the word presents again. -/
def runStaged {α : Type} (z : State) (info : View → Info) (pre : View → M z (Pre α)) (surcharge : View → α → Nat)
    (effect : View → α → M z Flow) (moved : View → α → Nat := fun _ _ => 0) : Host.Outcome State Fault Refusal :=
  match view z with
  | none => .next z
  | some w =>
    let i := info w
    match gate w i with
    | some v => runGroup z w (conclude w i (pure .seq) v)
    | none =>
      if i.mask == .skips && w.exm == 0 then runGroup z w (conclude w i (pure .seq) (compareAl w i (unitCost w i)))
      else runGroup z w (do
        let r ← pre w
        modGroup w.g fun gr => { gr with denied := none }
        match r with
        | .bad ds => takeTrap w.g ds w.unitPc none
        | .wait va wt =>
          modGroup w.g fun gr =>
            { gr with
              nextId := gr.nextId + 1
              parked := some { unit := gr.nextId, acc := { kind := .snap, size := 64, lanes := [{ lane := 0, va := va }] }
                               waits := [(0, wt)] } }
        | .ok a =>
          let i := { i with surcharge := surcharge w a, moved := moved w a }
          conclude w i (effect w a) (compareAl w i (unitCost w i)))

end Sys2Proof.Machine
end

