-- ==== Sys2Proof/Machine/Operands.lean ====
section
/-! DEFINITION. Every operand form: source specifiers (R182), inline constants, register pairs (R43), memory offsets (R14,
R38), and what the checks before issue read of them. -/

namespace Sys2Proof.Machine

variable {z : State}

/-- How a word reads a 32-bit lane: the inline constants depend on it (R182). -/
inductive Elem where
  | int | f32 | f16 | b16 | f64
  deriving DecidableEq, Repr

/-- The integer of an inline constant 0xE0 to 0xF3. -/
def constInt (n : Nat) : Int :=
  if n < 0xF0 then n - 0xE0 else -((2 ^ (n - 0xF0) : Nat) : Int)

/-- The value of an inline constant of a float operand. -/
def constNum (n : Nat) : Num :=
  if n < 0xF4 then Num.ofInt (constInt n) else .fin false 1 (-((n : Int) - 0xF3))

def Elem.fmt : Elem → Fmt
  | .f64 => .f64
  | .f16 => .f16
  | .b16 => .b16
  | _ => .f32

/-- The bits a constant specifier gives a lane. -/
def constBits (e : Elem) (n : Nat) : Nat :=
  match e with
  | .int => wrapTo 32 (constInt n)
  | .f32 => Num.round .f32 .rne (constNum n)
  | .f64 => Num.round .f64 .rne (constNum n)
  | .f16 => Num.round .f16 .rne (constNum n) * 65537
  | .b16 => Num.round .b16 .rne (constNum n) * 65537

/-- The registers a specifier names (R43: a pair for an F64 operand). -/
def specRegs (e : Elem) (sp : BitVec 8) : List Reg :=
  let n := sp.toNat
  if n < 0x80 then (if e = .f64 then [.v n, .v (n + 1)] else [.v n])
  else if n < 0xC0 then [.s (n - 0x80)]
  else if n < 0xC8 then (if e = .f64 then [.o (n - 0xC0), .o (n - 0xC0 + 1)] else [.o (n - 0xC0)])
  else if n < 0xCA then [.l (n - 0xC8)]
  else []

/-- The operand of lane `l` (R182): 32 bits, or 64 for an F64 element. -/
def readSpec (w : View) (e : Elem) (sp : BitVec 8) (l : Nat) : Nat :=
  let n := sp.toNat
  let gr := w.gr
  if e = .f64 then
    if n < 0x80 then (gr.rv (n + 1) l).toNat * 2 ^ 32 + (gr.rv n l).toNat
    else if n < 0xC0 then (gr.rs (n - 0x80)).toNat
    else if n < 0xC8 then (gr.ro (n - 0xC0 + 1) l).toNat * 2 ^ 32 + (gr.ro (n - 0xC0) l).toNat
    else if n = 0xDF then w.immSpec.toNat * 2 ^ 32
    else constBits e n
  else
    if n < 0x80 then (gr.rv n l).toNat
    else if n < 0xC0 then (gr.rs (n - 0x80)).toNat % 2 ^ 32
    else if n < 0xC8 then (gr.ro (n - 0xC0) l).toNat
    else if n < 0xCA then (gr.rl (n - 0xC8) l).toNat
    else if n = 0xDF then w.immSpec.toNat
    else constBits e n

def isImm (sp : BitVec 8) : Bool := sp == 0xDF

def immUse (sps : List (BitVec 8)) : ImmUse := if sps.any isImm then .spec else .none

/-! Destinations (R186 ODST, R44) -/

/-- The destination register of a V word: vd, or the operand file with ODST. -/
def destReg (w : View) (vd : BitVec 7) : Reg := if w.mod.odst then .o w.mod.oidx.toNat else .v vd.toNat

def readReg (gr : Group) (r : Reg) (l : Nat) : W32 :=
  match r with
  | .v n => gr.rv n l
  | .o n => gr.ro n l
  | .l n => gr.rl n l
  | .q n => gr.rq n l
  | _ => 0

def writeReg (gr : Group) (r : Reg) (l : Nat) (x : W32) : Group :=
  match r with
  | .v n => gr.setV n l x
  | .o n => gr.setO n l x
  | .l n => gr.setL n l x
  | .q n => gr.setQ n l x
  | _ => gr

def nextReg : Reg → Reg
  | .v n => .v (n + 1)
  | .o n => .o (n + 1)
  | r => r

/-- Writes lanes of a register. -/
def writeLanes (gr : Group) (r : Reg) (xs : List (Nat × W32)) : Group := xs.foldl (fun g x => writeReg g r x.1 x.2) gr

/-- After a word wrote register `r`: l1 takes l0, and l0 the whole of the destination (R44), with its poison. -/
def updateLast (gr : Group) (r : Reg) : Group :=
  let g1 := (List.range 32).foldl (fun g l => g.setL 1 l (gr.rl 0 l)) gr
  let g2 := (List.range 32).foldl (fun g l => g.setL 0 l (readReg gr r l)) g1
  let pl (l : Nat) : Bool := match r with
    | .v n => NSet.has gr.poison.v (32 * n + l)
    | .o n => NSet.has gr.poison.o (32 * n + l)
    | _ => false
  { g2 with poison := { g2.poison with
      l := (List.range 32).foldl (fun p l => NSet.set (NSet.set p (32 + l) (NSet.has gr.poison.l l)) l (pl l)) g2.poison.l } }

/-! Memory addresses -/

/-- The lane offset of a global word (R14). -/
def globalOff (w : View) (vo : BitVec 8) (l : Nat) : W64 :=
  let n := vo.toNat
  if 0x80 ≤ n && n < 0xC0 then w.gr.rs (n - 0x80)
  else if 0xE0 ≤ n then BitVec.ofInt 64 (constInt n)
  else (BitVec.ofNat 32 (readSpec w .int vo l)).signExtend 64

/-- The lane offset of a scratchpad or neighbourhood word (R38). -/
def localOff (w : View) (vo : BitVec 8) (l : Nat) : Int :=
  let n := vo.toNat
  if 0xE0 ≤ n then constInt n else (readSpec w .int vo l : Nat)

/-- The address of each active lane (R14). -/
def globalAddrs (w : View) (sb : BitVec 6) (vo : BitVec 8) : List (Nat × W64) :=
  w.lanes.map fun l => (l, w.gr.rs sb.toNat + globalOff w vo l)

/-- The scratchpad offset of each active lane (R38). -/
def localAddrs (w : View) (sb : BitVec 6) (vo : BitVec 8) : List (Nat × Int) :=
  w.lanes.map fun l => (l, ((w.gr.rs sb.toNat).toNat % 2 ^ 32 : Nat) + localOff w vo l)

/-- Distinct aligned blocks of `size` bytes that hold a byte of an access of `n` bytes at one of the addresses (R140). -/
def blocks (size n : Nat) (addrs : List Nat) : Nat :=
  (distinct (addrs.flatMap fun a => [a / size, (a + n - 1) / size])).length

/-- Sectors of a word whose lanes access `n` bytes each (R140); addresses wrap modulo 2^64 (R14). -/
def sectors (n : Nat) (addrs : List W64) : Nat :=
  (distinct (addrs.flatMap fun a => [a.toNat / 32, (a.toNat + n - 1) % 2 ^ 64 / 32])).length

/-- The registers of a memory word's data or destination: 1, 2 or 4 v registers (R43, R240). -/
def dataRegs (n size : Nat) : List Reg := (List.range ((size + 3) / 4)).map fun i => .v (n + i)

/-- The bits a group's lane holds in a run of v registers from `n`. -/
def laneData (gr : Group) (n words l : Nat) : Nat :=
  (List.range words).foldl (fun x i => x + (gr.rv (n + i) l).toNat * 2 ^ (32 * i)) 0

end Sys2Proof.Machine
end

