-- ==== Sys2Proof/Machine/Queues.lean ====
section
/-! DEFINITION. The store queue and the load set of a group (R114): the shape of an access (R123, R124), entering the queues,
what must come before an access (R116, R119, R133), and the releases it carries (R127). Shared by global, scratchpad and
neighbourhood accesses. -/

namespace Sys2Proof.Machine

variable {z : State}

/-! Shapes -/

/-- Bytes of one part of a lane's access (R123). -/
def Access.psize (a : Access) : Nat := min a.size 8

/-- A 128-bit lane access as its two halves (R123). -/
def splitParts (acc : Access) (lanes : List LaneAcc) : List LaneAcc :=
  if acc.size = 16 then
    lanes.flatMap fun a =>
      [{ a with data := a.data % 2 ^ 64 }, { a with part := 1, va := a.va + 8, pa := a.pa + 8, data := a.data / 2 ^ 64 }]
  else lanes

def overlaps (a n b m : Nat) : Bool := a < b + m && b < a + n

def Access.touches (acc : Access) (pa n : Nat) : Bool := acc.lanes.any fun a => overlaps a.pa acc.psize pa n

def laneDetail (cause lane : Nat) (code : Nat) (value : W64) : Detail :=
  { cause := cause, lane := lane, code := BitVec.ofNat 16 code, value := value, lanes := maskOf [lane] }

/-- The place of a byte of a team's scratchpad: above every physical address. -/
def spKey (e off : Nat) : Nat := 2 ^ 60 + 2 ^ 20 * e + off
def spOwner (place : Nat) : Nat := (place - 2 ^ 60) / 2 ^ 20
def spOffset (place : Nat) : Nat := place % 2 ^ 20

/-- OP(old, v) of R242 on `w`-bit values; a cas that fails gives none. -/
def AtomOp.apply (op : AtomOp) (w old v cmp : Nat) : Option Nat :=
  match op with
  | .addI => some ((old + v) % 2 ^ w)
  | .addF32 => some (Num.round .f32 .rne (Num.add .rne (Num.decode .f32 old) (Num.decode .f32 v)))
  | .minI => some (if signedOf w v < signedOf w old then v else old)
  | .maxI => some (if signedOf w v > signedOf w old then v else old)
  | .minN => some (min old v)
  | .maxN => some (max old v)
  | .and => some (old &&& v)
  | .or => some (old ||| v)
  | .xor => some (old ^^^ v)
  | .exch => some v
  | .cas => if old = cmp then some v else none

/-! Entering the queues -/

/-- Takes `n` numbers of accesses; the first numbers the unit. -/
def takeUnit (g n : Nat) : M z Nat := do
  let gr ← getGroup g
  modGroup g fun gr => { gr with nextId := gr.nextId + max n 1 }
  pure gr.nextId

/-- Lanes of a store without those a higher lane overwrites (R124). -/
def topLanes : List LaneAcc → List LaneAcc
  | [] => []
  | a :: rest => if rest.any fun b => b.pa = a.pa then topLanes rest else a :: topLanes rest

/-- A store enters SQ(g) under the number of its unit: one entry for each lane whose bytes survive. -/
def pushStore (g unit : Nat) (acc : Access) (lanes : List LaneAcc) : M z Unit := do
  let ls := splitParts acc (topLanes lanes)
  let u ← takeUnit g ls.length
  modGroup g fun gr =>
    { gr with sq := gr.sq ++ ls.zipIdx.map fun (a, i) => { id := u + i, unit := unit, acc := { acc with lanes := [a], rels := gr.fences } } }

/-- A load enters LS(g). -/
def pushLoad (g unit : Nat) (acc : Access) (lanes : List LaneAcc) : M z Unit := do
  let u ← takeUnit g 1
  modGroup g fun gr => { gr with ls := gr.ls ++ [{ id := u, unit := unit, acc := { acc with lanes := splitParts acc lanes } }] }

/-- An atomic enters SQ(g), one entry for the lanes of each place, and LS(g) where it returns a value. -/
def pushAtom (g unit : Nat) (acc : Access) (lanes : List LaneAcc) : M z Unit := do
  let pas := distinct (lanes.map (·.pa))
  let u ← takeUnit g (pas.length + 1)
  modGroup g fun gr =>
    { gr with
      sq := gr.sq ++ pas.zipIdx.map fun (p, i) =>
        { id := u + i, unit := unit, acc := { acc with lanes := lanes.filter (fun a => a.pa = p), rels := gr.fences } }
      ls := if acc.dest = .none then gr.ls
            else gr.ls ++ [{ id := u + pas.length, unit := unit, acc := { acc with lanes := lanes }, atom := true }] }

/-- The lanes of a word that were performed at its issue: their values land as a load's do. -/
def pushDone (g unit : Nat) (acc : Access) (done : List LaneAcc) : M z Unit := do
  if acc.dest = .none then pure ()
  else do
    let u ← takeUnit g 1
    modGroup g fun gr => { gr with ls := gr.ls ++ [{ id := u, unit := unit, acc := { acc with lanes := done } }] }

/-! What comes before an access -/

/-- An acquire before access number `u` has not returned (R119). -/
def Group.acqBefore (gr : Group) (u : Nat) : Bool := gr.ls.any fun f => f.unit < u && f.acc.acq

/-- Everything before access number `u` is performed and returned (R119). -/
def Group.doneBefore (gr : Group) (u : Nat) : Bool := gr.sq.all (fun f => f.unit ≥ u) && gr.ls.all fun f => f.unit ≥ u

/-- A release marker before access number `u` is not complete (R116). -/
def Group.relBefore (gr : Group) (u : Nat) : Bool := gr.sq.any fun f => f.unit < u && f.acc.rel && !gr.doneBefore f.unit

/-- A write before access number `u` that overlaps one of the lanes is not performed (R116). -/
def Group.overlapBefore (gr : Group) (u : Nat) (acc : Access) (lanes : List LaneAcc) : Bool :=
  gr.sq.any fun f => f.unit < u && lanes.any fun a => f.acc.touches a.pa acc.psize

/-- The order a lane takes part in besides: a group's accesses to one scratchpad, and its device accesses, are performed in
program order (R133). -/
def orderOf (acc : Access) (a : LaneAcc) : Option Nat :=
  if acc.space ≠ 0 then some (spOwner a.pa + 1) else if a.mt = 2 then some 0 else none

/-- An access of the lane's order before access number `u` is not performed. -/
def Group.orderBefore (gr : Group) (u : Nat) (acc : Access) (a : LaneAcc) : Bool :=
  match orderOf acc a with
  | none => false
  | some k =>
    let open_ (f : Access) : Bool := f.lanes.any fun b => !b.done && orderOf f b == some k
    gr.sq.any (fun f => f.unit < u && open_ f.acc) || gr.ls.any fun f => f.unit < u && open_ f.acc

/-- Whether the lanes of a write or an atomic, number `u`, may be performed now (R116, R119, R133). Lanes of one word to a
device follow one another (`id`). -/
def Group.mayWrite (gr : Group) (u id : Nat) (acc : Access) (lanes : List LaneAcc) : Bool :=
  !gr.acqBefore u && !gr.overlapBefore u acc lanes && !gr.relBefore u && (!acc.rel || gr.doneBefore u) &&
    lanes.all fun a => !gr.orderBefore u acc a && (a.mt ≠ 2 || gr.sq.all fun f => f.unit ≠ u || f.id ≥ id)

/-- Whether the lanes of a load, number `u`, may be satisfied now, by a source that earlier writes do not keep back. -/
def Group.mayRead (gr : Group) (u : Nat) (acc : Access) (a : LaneAcc) : Bool := !gr.acqBefore u && !gr.orderBefore u acc a

/-- No scratchpad or neighbourhood access of the group is unperformed: a word that acts on the scratchpad at its issue takes
its place after them (R133). -/
def Group.spadQuiet (gr : Group) : Bool :=
  gr.sq.all (fun f => f.acc.space = 0) && gr.ls.all fun f => f.acc.space = 0 || f.acc.lanes.all (·.done)

/-! Who accesses, and what a write carries (R120, R127) -/

/-- A group at its access number `u`. -/
def groupWho (g : Nat) (gr : Group) (u : Nat) : Who := { id := g, unit := u, own := gr.born, clock := gr.clockAt u }

/-- Accesses to host memory and to devices synchronise at .sys only (R120). -/
def sysOnly (acc : Access) (a : LaneAcc) : Bool := acc.space = 0 && (a.mt = 2 || paRange a.pa != .dram)

/-- The releases that a write of lane `a` carries: its own, and those of earlier fences (R127). -/
def writeRels (s : State) (g : Nat) (gr : Group) (u : Nat) (acc : Access) (a : LaneAcc) : List Release :=
  let own : List Release :=
    if acc.rel then [{ party := partyOf s g, scope := acc.scope, clock := (gr.clockAt u).upTo g u }] else []
  (acc.rels ++ own).map fun r => { r with sysOnly := sysOnly acc a }

/-- What the values of lanes release: those that an acquire of the lane's access follows (R127). -/
def readRels (s : State) (acc : Access) (lanes : List LaneAcc) : List Release :=
  lanes.flatMap fun a => (releasesOf s a.stamps).map fun r => { r with sysOnly := r.sysOnly || sysOnly acc a }

/-- The lanes' values have come: the releases are met, for a later fence, and an acquire follows them (R127). -/
def meetReleases (g u : Nat) (acc : Access) (lanes : List LaneAcc) : M z Unit := do
  let s ← getS
  let rs := readRels s acc lanes
  if rs.isEmpty then pure ()
  else modGroup g fun gr =>
    let gr := { gr with seen := (gr.seen ++ rs).eraseDups }
    if acc.acq then gr.follow (u + 1) (followed (partyOf s g) acc.scope rs) else gr

/-- A fence completes (R121, R127): the group follows the releases it has met, and its later writes release what it has done. -/
def fenceDone (g scope : Nat) : M z Unit := do
  acquire g scope
  let s ← getS
  let gr ← getGroup g
  orderAfter g (followed (partyOf s g) scope gr.seen)
  modGroup g fun gr =>
    { gr with fences := gr.fences.filter (fun r => r.scope != scope) ++ [{ party := partyOf s g, scope := scope, clock := gr.release g }] }

/-- A lane of the word whose bytes are this lane's has its value: the lanes return the same one (R124). -/
def sameBytes (fixed : List LaneAcc) (a : LaneAcc) : Option LaneAcc := fixed.find? fun b => b.done && b.pa == a.pa

/-- The values of lanes, from a source for each place: lanes on the same bytes take one value (R124). -/
def readEach (read : LaneAcc → M z LaneAcc) : List LaneAcc → List LaneAcc → M z (List LaneAcc)
  | _, [] => pure []
  | fixed, a :: as => do
    let d ← match sameBytes fixed a with
      | some b => pure { a with data := b.data, poison := b.poison, stamps := b.stamps, done := true }
      | none => read a
    let rest ← readEach read (d :: fixed) as
    pure (d :: rest)

end Sys2Proof.Machine
end

