-- ==== Sys2Proof/Machine/Spad.lean ====
section
/-! DEFINITION. Scratchpads (R38, R39, R46, R246): their bytes and poison, out-of-range lanes, and one lane's access performed
at SP (R115, R133). -/

namespace Sys2Proof.Machine

variable {z : State}

/-! Bytes of a scratchpad -/

def spByte (t : Team) (off : Nat) : Byte := SMap.look 0 t.spad off
def spBytes (t : Team) (off n : Nat) : List Byte := (List.range n).map fun i => spByte t (off + i)
/-- A number in a scratchpad, little-endian (R3). -/
def spNat (t : Team) (off n : Nat) : Nat := bytesNat (spBytes t off n)
/-- Whether a range lies in the team's scratchpad (R38). -/
def spInside (t : Team) (off n : Nat) : Bool := off + n ≤ t.shape.spad
def spPoisoned (t : Team) (off n : Nat) : Bool := (List.range n).any fun i => PSet.has t.spadPoison ((off + i) / 8)

/-- Writes bytes to a team's scratchpad; a granule of 8 bytes that is written wholly, alone or with the other writes that have
the same number, loses its poison (R62, R63). -/
def spWrite (e off : Nat) (bs : List Byte) (healer : Nat := 0) : M z Unit :=
  modTeam e fun t =>
    { t with spad := bs.zipIdx.foldl (fun m b => SMap.store 0 m (off + b.2) b.1) t.spad
             spadPoison := PSet.cover t.spadPoison 8 healer off bs.length }

def spWriteNat (e off n x : Nat) : M z Unit := spWrite e off (natBytes x n)

/-- Granules of 8 bytes that hold a byte of a range become poisoned. -/
def addGranules (p : PSet) (off n : Nat) : PSet :=
  (List.range n).foldl (fun p i => PSet.add p ((off + i) / 8)) p

/-! One access at SP -/

/-- A read at SP by a party: bytes of a mixed-size overlap are free (R125). -/
def spRead (w : Who) (e off n : Nat) : M z (List Byte) := do
  noteRead w (spKey e off) (spBytes (← getTeam e) off n)

/-- A write at SP by a party: a step of coherence order (R115). -/
def spStore (w : Who) (e off : Nat) (bytes : List Byte) : M z Unit := do
  spWrite e off (← noteWrite w (spKey e off) bytes) w.healer

/-! Access words -/

/-- The team whose scratchpad a lane reaches: its own, or member `m` of its neighbourhood (R39). -/
def spadTeam (s : State) (e space m : Nat) : Nat := if space = 2 then (nbhTeams s e).getD m e else e

/-- SCRATCH_OOB and NBH_OOB of one lane at offset `off` of member `m` (R38, R39, R339). -/
def spadOob (s : State) (e space size lane m : Nat) (off : Int) : List Detail :=
  let inside (eid : Nat) : Bool := match s.team? eid with
    | some t => 0 ≤ off && off + size ≤ t.shape.spad
    | none => false
  if space = 2 then
    let ts := nbhTeams s e
    if isNbh s e && m < ts.length && inside (ts.getD m e) then []
    else [laneDetail Cause.nbhOob lane 0 (BitVec.ofNat 64 (m * 2 ^ 32 + wrapTo 32 off))]
  else if inside e then [] else [laneDetail Cause.scratchOob lane 0 (BitVec.ofInt 64 off)]

/-- A lane's read at SP. -/
def spadLoad (w : Who) (n : Nat) (a : LaneAcc) : M z LaneAcc := do
  let t ← getTeam (spOwner a.pa)
  let bs ← spRead w (spOwner a.pa) (spOffset a.pa) n
  let s ← getS
  pure { a with data := bytesNat bs, done := true, poison := spPoisoned t (spOffset a.pa) n
                stamps := (List.range n).map fun i => stampOf s (a.pa + i) }

end Sys2Proof.Machine
end

