-- ==== Sys2Proof/Machine/GMem.lean ====
section
/-! DEFINITION. Accesses to global memory: issue, parking and resumption (R31 to R37), the store queue and the load set
(R114 to R119), performing writes and atomics (R123, R124, R242), satisfying loads (R117, R118), checked pages (R58 to R60,
R128, R129), versioned and ordered accesses (R130 to R132), mixed-size debug mode (R126). -/

namespace Sys2Proof.Machine

variable {z : State}

/-- The translation kind of an access (R20, R30). -/
def AccKind.xkind : AccKind → Nat
  | .load _ | .prf | .ldVer | .snap => Kind.read
  | .store | .vstVer => Kind.write
  | .atom _ | .atomo _ => Kind.atomic
  | .fetch _ => Kind.overlay

def AccKind.readsMem : AccKind → Bool
  | .load _ | .prf | .ldVer | .atom _ | .fetch _ => true
  | _ => false

def AccKind.writesMem : AccKind → Bool
  | .store | .vstVer | .atom _ | .atomo _ => true
  | _ => false

/-- The detail of an unrecoverable translation (R37, R339). -/
def xlateDetail (lane : Nat) (code : Nat) (va : W64) : Detail :=
  { cause := if code = XCode.nonCanon || code = XCode.permission then Cause.perm else Cause.xlateNp
    lane := lane, code := BitVec.ofNat 16 code, value := va, lanes := maskOf [lane] }

/-- Watches an access hits while a debugger is attached, found before any lane of it performs, whether or not the lane has its
translation (R346, R347); never in handler mode (R337). -/
def watchHits (s : State) (t : Team) (gr : Group) (acc : Access) (lanes : List LaneAcc) : List Detail :=
  if watched s t && !gr.inHandler then
    let r := s.fn (ctxFn t.ctx)
    let one (i : Nat) (w : W64) (len : W32) : List Detail :=
      let kind := w.toNat % 4
      if (kind % 2 = 1 && acc.kind.writesMem) || (kind ≥ 2 && acc.kind.readsMem) then
        (lanes.filter fun a => overlaps (w.toNat / 4 * 4) len.toNat a.va.toNat acc.size).map fun a =>
          laneDetail Cause.watch a.lane i a.va
      else []
    one 0 r.dwatch0 r.dwlen0 ++ one 1 r.dwatch1 r.dwlen1
  else []

/-! Bytes kept by a group (R114) -/

/-- The floor of the bytes from `pa` moves up to stamps (R117). -/
def Group.raiseFloor (gr : Group) (pa : Nat) (stamps : List Nat) : Group :=
  { gr with floor := (stamps.zipIdx.foldl (fun f (st, i) =>
      if SMap.look 0 f (pa + i) < st then SMap.put f (pa + i) st else f) gr.floor) }

def Group.aboveFloor (gr : Group) (pa : Nat) (stamps : List Nat) : Bool :=
  stamps.zipIdx.all fun (st, i) => SMap.look 0 gr.floor (pa + i) ≤ st

/-- The group has performed or read the bytes as memory holds them (R114). -/
def catchUp (g pa n : Nat) : M z Unit := do
  let s ← getS
  modGroup g fun gr => gr.raiseFloor pa ((List.range n).map fun i => stampOf s (pa + i))

/-- The written bytes go into a line of the cluster's read cache where it is present (R48). -/
def crcUpdate (cl pa n : Nat) : M z Unit := do
  let s ← getS
  match SMap.get? (s.cluster cl).crc (pa / 64) with
  | none => pure ()
  | some c =>
    let cells := c.cells.zipIdx.map fun (cell, i) =>
      let a := pa / 64 * 64 + i
      if pa ≤ a && a < pa + n then (Memory.read s.mem a, stampOf s a) else cell
    modCluster cl fun x => { x with crc := SMap.put x.crc (pa / 64) { c with cells := cells } }

def crcDrop (cl pa : Nat) : M z Unit := modCluster cl fun x => { x with crc := SMap.del x.crc (pa / 64) }

/-- Room for one more line of a cluster's read cache: 4,096 lines are 256 KiB (R42). A free value chooses the line that goes
(log entry 83). -/
def crcRoom (cl line : Nat) : M z Unit := do
  let s ← getS
  let crc := (s.cluster cl).crc
  if (SMap.get? crc line).isSome || crc.length < 4096 then pure ()
  else
    let n := s.free
    modS fun s => { s with free := n + 1 }
    modCluster cl fun x => { x with crc := SMap.del x.crc ((SMap.keys crc).getD ((Config.freeWord n).toNat % crc.length) 0) }

/-- A line is filled into the read cache from its home slice (R47). -/
def crcFill (cl pa : Nat) : M z Unit := do
  bringLine pa
  crcRoom cl (pa / 64)
  let s ← getS
  modCluster cl fun x =>
    { x with crc := SMap.put x.crc (pa / 64) { cells := memCells s (pa / 64 * 64) 64, at_ := s.home.now } }

/-- Waits at the issuer or in the channel: a partition commit, metadata zeroing of a checked line, a line that another group's
word holds, a rank in refresh (R53, R56, R61, R129). -/
def laneBlocked (s : State) (g : Nat) (acc : Access) (a : LaneAcc) : Bool :=
  acc.space = 0 && (paBlocked s a.pa || (a.chk && zeroingBlocks s a.pa) || lineLocked s g a.pa)

/-! Checked pages (R60, R128, R129) -/

/-- PHASE[15:0] of a team (R154). -/
def phaseOf (s : State) (t : Team) : BitVec 16 :=
  match s.launch? t.launch with
  | some l => l.phase.extractLsb' 0 16
  | none => 0

/-- The check of every lane, in lane order, before any performs: the lanes that race (R129). -/
def raceCheck (s : State) (t : Team) (reads : Bool) (lanes : List LaneAcc) : List Detail :=
  (lanes.foldl (fun (acc : SMap Meta × List Detail) a =>
    let m := (SMap.get? acc.1 (a.pa / 64)).getD {}
    let (m', race, byWriter) := raceStep m (BitVec.ofNat 24 t.tag) (phaseOf s t) reads
    (SMap.put acc.1 (a.pa / 64) m',
      if race then acc.2 ++ [laneDetail Cause.race a.lane (if byWriter then 1 else 0) a.va] else acc.2)) (s.home.info, [])).2

def AccKind.onlyReads : AccKind → Bool
  | .load _ | .ldVer => true
  | _ => false

/-- RACE of the checked lanes of an access of a phase-mode task (R128); no other task is checked (R129). -/
def checkedCauses (s : State) (t : Team) (acc : Access) (lanes : List LaneAcc) : List Detail :=
  if phaseMode s t then raceCheck s t acc.kind.onlyReads (lanes.filter (·.chk)) else []

/-- One lane's step at the metadata of its line: R128's in phase mode, else VER and WTAG of a write (R129). Poisoned metadata
takes part as sound metadata does (R62 counts it, and no rule tells it apart). -/
def metaStep (t : Team) (acc : Access) (a : LaneAcc) : M z Unit := do
  let s ← getS
  if !a.chk then pure ()
  else if phaseMode s t then
    let m := (raceStep (metaOf s a.pa) (BitVec.ofNat 24 t.tag) (phaseOf s t) acc.kind.onlyReads).1
    modHome fun h => { h with info := SMap.put h.info (a.pa / 64) m }
  else if acc.kind.onlyReads then pure ()
  else metaWrite a.pa (some t.tag)

/-! Performing -/

/-- A write of a group's lane at the home slice, and what follows from it at the group and its cluster (R48, R114). -/
def groupWrite (g : Nat) (w : Who) (pa : Nat) (bytes : List Byte) : M z Unit := do
  hsWrite w pa bytes
  catchUp g pa bytes.length
  crcUpdate ((← getS).groupCluster g) pa bytes.length

/-- One lane of a store is performed (R48, R115, R133). A device store becomes the next move of the machine (R15). -/
def storeLane (g unit : Nat) (acc : Access) (a : LaneAcc) : M z Unit := do
  let n := acc.psize
  let gr ← getGroup g
  let s ← getS
  let w := { groupWho g gr unit with rels := writeRels s g gr unit acc a }
  if acc.space ≠ 0 then
    if (s.team? (spOwner a.pa)).isSome then spStore w (spOwner a.pa) (spOffset a.pa) (natBytes a.data n)
  else match paRange a.pa with
  | .control =>
    modS fun s => { s with moves := .regWrite 0 (a.pa - 0x8000000000) (n == 8) (BitVec.ofNat 64 a.data) :: s.moves }
  | _ => groupWrite g w a.pa (natBytes a.data n)

/-- The point at which an atomic's lane is journalled: its home slice, or the barrier unit of the core that holds the
scratchpad (R242, R246). -/
def atomPoint (s : State) (acc : Access) (a : LaneAcc) : Nat :=
  if acc.space = 0 then homeSlice s.dev a.pa
  else match s.team? (spOwner a.pa) with
    | some t => pointOfCore (t.core.getD 0)
    | none => pointOfCore 0

/-- What an atomic's lane would read now. -/
def atomOld (s : State) (acc : Access) (a : LaneAcc) : Nat :=
  if acc.space = 0 then Memory.readNat s.mem a.pa acc.size
  else match s.team? (spOwner a.pa) with
    | some t => spNat t (spOffset a.pa) acc.size
    | none => 0

/-- One lane of an atomic is one step at its home slice or at SP (R123, R242, R246), admitted or recorded by its journal point;
`others` are the lanes presented beside it. Answers the lane with its old value. The write carries on what the value read
released (R127). -/
def atomLane (g unit : Nat) (acc : Access) (op : AtomOp) (a : LaneAcc) (others : List LaneAcc) : M z LaneAcc := do
  let s ← getS
  let t ← getTeam (groupTeam g)
  let n := acc.size
  let fails := (op.apply (8 * n) (atomOld s acc a) a.data a.cmp).isNone
  let _ ← journalGroup g (atomPoint s acc a) JType.atom a.va.toNat fails (others.map fun o => (atomPoint s acc o, o.va.toNat))
  metaStep t acc a
  let gr ← getGroup g
  let w := groupWho g gr unit
  let d ← (do
    if acc.space ≠ 0 then spadLoad w n a
    else
      let bs ← hsRead w a.pa n
      let s ← getS
      pure { a with data := bytesNat bs, done := true, poison := sectorPoison s a.pa n
                    stamps := (List.range n).map fun i => stampOf s (a.pa + i) })
  let s ← getS
  let carried := ((readRels s acc [d]).filter fun r => !r.byAtomic).map fun r => { r with byAtomic := true }
  let w := { w with rels := writeRels s g gr unit acc a ++ carried }
  match op.apply (8 * n) d.data a.data a.cmp with
  | some v => if acc.space ≠ 0 then spStore w (spOwner a.pa) (spOffset a.pa) (natBytes v n) else hsWrite w a.pa (natBytes v n)
  | none => pure ()
  if acc.space = 0 then
    catchUp g a.pa n
    crcDrop ((← getS).groupCluster g) a.pa
  meetReleases g unit acc [d]
  pure d

/-- The steps of an atomic's lanes, as the journal lets them through (R124, R354). -/
def atomWord (g unit : Nat) (acc : Access) (op : AtomOp) (lanes : List LaneAcc) :
    M z (List LaneAcc × List LaneAcc × Option (Nat × JHold)) :=
  atomSteps (·.pa) (atomLane g unit acc op) lanes.length lanes

/-- What an access performed at its issue waits for: what the queues hold of earlier words, and its lines (R116, R119). -/
def readyNow (s : State) (g : Nat) (gr : Group) (unit : Nat) (acc : Access) (lanes : List LaneAcc) : Bool :=
  !(lanes.any (laneBlocked s g acc)) && !gr.overlapBefore unit acc lanes &&
  if acc.kind.onlyReads then lanes.all (gr.mayRead unit acc) else gr.mayWrite unit (unit + 1) acc lanes

/-- A lane's read at its home slice. -/
def homeLoad (g unit n : Nat) (a : LaneAcc) : M z LaneAcc := do
  let gr ← getGroup g
  let bs ← hsRead (groupWho g gr unit) a.pa n
  catchUp g a.pa n
  let s ← getS
  pure { a with data := bytesNat bs, done := true, poison := sectorPoison s a.pa n
                stamps := (List.range n).map fun i => stampOf s (a.pa + i) }

/-- Keeps the lines of the checked lanes of a word that is checked and not yet performed whole (R129). -/
def lockLines (g : Nat) (lanes : List LaneAcc) : M z Unit :=
  modHome fun h => { h with locked := (lanes.filter (·.chk)).foldl (fun m a => SMap.put m (a.pa / 64) g) h.locked }

/-- An atomic performs at its unit, lane by lane as the journal admits them (R242); the lanes held back, none in record mode
(R124). -/
def performAtom (g unit : Nat) (acc : Access) (op : AtomOp) (lanes : List LaneAcc) (replay : Bool) : M z (List LaneAcc) := do
  let (rem, done, h) ← atomWord g unit acc op lanes
  if done.isEmpty || (!rem.isEmpty && !replay) then heldOr h
  else
    pushDone g unit acc done
    pure rem

/-- An access of group `g` with a checked lane is performed at issue, after the check of every lane (R129), which is made once.
Answers the lanes held back; the lines of a phase-mode word are kept for them. -/
def performChecked (g unit : Nat) (acc : Access) (lanes : List LaneAcc) (verdict : Bool) : M z (List LaneAcc) := do
  let gr ← getGroup g
  let t ← getTeam (groupTeam g)
  let s ← getS
  guardS (readyNow s g gr unit acc lanes)
  let ds := if verdict then [] else checkedCauses s t acc lanes
  if !ds.isEmpty then raise ds
  match acc.kind with
  | .load _ => do
    forEach lanes fun a => metaStep t acc a
    pushDone g unit acc (← readEach (homeLoad g unit acc.psize) [] (splitParts acc lanes))
    pure []
  | .atom op => do
    let l ← getLaunch t.launch
    let rem ← performAtom g unit { acc with rels := gr.fences } op lanes (l.journal = 2)
    if rem.isEmpty then unlockLines g
    else if phaseMode s t then lockLines g lanes
    pure rem
  | _ => do
    forEach lanes fun a => metaStep t acc a
    forEach (splitParts acc (topLanes lanes)) fun a => storeLane g unit { acc with rels := gr.fences } a
    pure []

/-- An atomic in replay mode performs at its unit (R242). -/
def performReplayed (g unit : Nat) (acc : Access) (op : AtomOp) (lanes : List LaneAcc) : M z (List LaneAcc) := do
  let gr ← getGroup g
  guardS (readyNow (← getS) g gr unit acc lanes)
  performAtom g unit { acc with rels := gr.fences } op lanes true

/-! Mixed-size debug mode (R126) -/

/-- A part of a global access meets, at its slice, an access of another group to a shared byte at another address or size that
is accepted there and not yet performed, where one of the two writes. -/
def meets (s : State) (g : Nat) (acc : Access) (a : LaneAcc) : Bool :=
  let clash (other : Access) : Bool := other.space = 0 && other.lanes.any fun b =>
    !b.done && overlaps a.pa acc.psize b.pa other.psize && (a.pa != b.pa || acc.psize != other.psize)
  s.groups.any fun (h, gr) => h != g && (gr.sq.any (fun e => e.accepted && clash e.acc) ||
    (acc.kind.writesMem && gr.ls.any fun e => e.accepted && !e.atom && clash e.acc))

def mixedDetails (s : State) (g : Nat) (acc : Access) (parts : List LaneAcc) : List Detail :=
  (parts.filter (meets s g acc)).map fun a => laneDetail Cause.mixedSize a.lane 0 a.va

/-- MDBG.MSZ of a group's context. -/
def mszOf (s : State) (g : Nat) : Bool :=
  match s.team? (groupTeam g) with
  | some t => (s.ctx t.ctx).msz
  | none => false

/-- Every access of the unit has arrived. -/
def Group.arrived (gr : Group) (u : Nat) : Bool :=
  gr.sq.all (fun e => e.unit ≠ u || e.accepted) && gr.ls.all fun e => e.unit ≠ u || e.atom || e.accepted || e.acc.lanes.all (·.done)

/-- The lanes that a trap leaves unperformed (R335, R37): a word with one access for its group leaves EXM (R244). -/
def leftMask (gr : Group) (acc : Access) (lanes : List LaneAcc) : W32 := if acc.one then gr.exm else maskOf (lanes.map (·.lane))

/-- The later arrival of a mixed-size pair: no lane of its unit that is not yet performed performs, and the group traps. -/
def dropUnit (g u : Nat) (acc : Access) (ds : List Detail) : M z Unit := do
  let gr ← getGroup g
  let parked := match gr.parked with | some p => p.acc.lanes | none => []
  let left := ((gr.sq.filter fun e => e.unit = u).flatMap fun e => e.acc.lanes) ++
    ((gr.ls.filter fun e => e.unit = u).flatMap fun e => e.acc.lanes.filter (!·.done)) ++ parked
  match gr.parked with
  | some p => detach (p.waits.map (·.2))
  | none => pure ()
  modGroup g fun gr =>
    { gr with
      sq := gr.sq.filter fun e => e.unit ≠ u
      ls := (gr.ls.map fun e => if e.unit = u then { e with acc := { e.acc with lanes := e.acc.lanes.filter (·.done) } } else e).filter
        fun e => !e.acc.lanes.isEmpty
      hold := none }
  takeTrap g ds (packPc gr.slot gr.pc) (some (leftMask gr acc left))

/-- A queued access reaches its slice (R126). -/
def arriveAt (g id : Nat) : M z Unit := do
  let s ← getS
  let gr ← getGroup g
  let (u, acc) ← need ((((gr.sq.find? fun e => e.id = id && !e.accepted).map fun e => (e.unit, e.acc))).or
    ((gr.ls.find? fun e => e.id = id && !e.accepted && !e.atom).map fun e => (e.unit, e.acc)))
  guardS (acc.space = 0)
  let ds := if mszOf s g then mixedDetails s g acc (acc.lanes.filter (!·.done)) else []
  if !ds.isEmpty then dropUnit g u acc ds
  else modGroup g fun gr =>
    { gr with sq := gr.sq.map fun e => if e.id = id then { e with accepted := true } else e
              ls := gr.ls.map fun e => if e.id = id then { e with accepted := true } else e }

/-! Versioned accesses (R130, R262) -/

def verWord (m : Meta) : W64 := BitVec.ofNat 64 (m.wtag.toNat * 65536 + m.ver.toNat)

/-- vst.ver and ld.ver: one step for the line. -/
def performVer (g unit : Nat) (acc : Access) (lanes : List LaneAcc) : M z (List LaneAcc) := do
  let gr ← getGroup g
  let t ← getTeam (groupTeam g)
  let s ← getS
  guardS (readyNow s g gr unit acc lanes)
  let a0 ← need lanes.head?
  let m := metaOf s a0.pa
  let store := acc.kind == .vstVer
  let ok := BitVec.ofNat 16 a0.cmp == m.ver
  let line := BitVec.ofNat 64 (a0.va.toNat / 64 * 64)
  let _ ← journalGroup g (homeSlice s.dev a0.pa) JType.ver line.toNat (store && !ok)
  let ds := checkedCauses s t acc [a0]
  if !ds.isEmpty then raise ds
  if !store || ok then metaStep t acc a0
  if store then
    if ok then
      forEach lanes fun a => storeLane g unit { acc with rels := gr.fences } a
    let m := metaOf (← getS) a0.pa
    modGroup g fun gr => gr.setS acc.status (verWord m ||| (if ok then 0x8000000000000000 else 0))
    pure []
  else
    let done ← mapEach lanes fun a => homeLoad g unit 4 a
    let m := metaOf (← getS) a0.pa
    match acc.dest with
    | .vec b => modGroup g fun gr => done.foldl (fun gr a =>
        let gr := gr.setV b a.lane (BitVec.ofNat 32 a.data)
        if a.poison then { gr with poison := { gr.poison with v := NSet.add gr.poison.v (32 * b + a.lane) } } else gr) gr
    | _ => pure ()
    modGroup g fun gr => gr.setS acc.status (verWord m)
    acquire g acc.scope
    meetReleases g unit { acc with acq := true } done
    pure []

/-! Ordered atomics in phase mode (R131, R132) -/

def slicesUsed (s : State) (slice : Nat) : Nat :=
  (s.home.ordered.filter fun c => !c.spilled && homeSlice s.dev c.pa = slice).length

/-- The contributions of the active lanes are admitted, or none is and ENGINE_ERR names the lanes without room. -/
def contribute (g : Nat) (i64 : Bool) (lanes : List LaneAcc) : M z Unit := do
  let t ← getTeam (groupTeam g)
  let gd ← getGrid t.grid
  let bad ← mapEach lanes fun a => do
    let s ← getS
    guardS (!commitBlocks s.dev a.pa)
    let spill := slicesUsed s (homeSlice s.dev a.pa) ≥ 64
    let spillUsed := (s.home.ordered.filter fun c => c.spilled && c.ctx = t.ctx).length
    if spill && spillUsed ≥ (s.ctx t.ctx).oscnt.toNat then pure [laneDetail Cause.engineErr a.lane 3 a.va]
    else do
      let n := (s.home.ordered.filter fun c => c.launch = t.launch && c.pa = a.pa && c.path = gd.path && c.tidx = t.tidx &&
        c.gidx = groupIdx g && c.lane = a.lane).length
      modHome fun h => { h with ordered := h.ordered ++
        [{ launch := t.launch, ctx := t.ctx, pa := a.pa, i64 := i64, path := gd.path, tidx := t.tidx, gidx := groupIdx g
           lane := a.lane, n := n, val := BitVec.ofNat 64 a.data, chk := a.chk, spilled := spill }] }
      pure []
  let ds := bad.flatten
  if !ds.isEmpty then raise ds

/-! Translating and performing a unit's lanes -/

/-- The outcome of translating lanes: those translated, those that missed, and the causes found. -/
structure Trans where
  ok : List LaneAcc := []
  missed : List (LaneAcc × Nat × Nat × Nat) := []     -- with stage, page and kind of the miss
  bad : List Detail := []

/-- Memory type 2 does not permit the access: only loads and stores of 32 or 64 bits (R20, R241, R245). -/
def Access.noDev (acc : Access) : Bool :=
  match acc.kind with
  | .load _ | .store => acc.size ≠ 4 && acc.size ≠ 8
  | _ => true

/-- Translates lanes, each on its own (R25). -/
def translate (cl ctx : Nat) (c : CtxRec) (acc : Access) (lanes : List LaneAcc) : M z Trans := do
  foldEach lanes ({} : Trans) fun r a => do
    match ← xlate cl ctx c acc.kind.xkind acc.noDev a.va with
    | .ok x =>
      let bad := match acc.kind with
        | .vstVer | .ldVer => if x.chk then [] else [laneDetail Cause.verFault a.lane 0 a.va]
        | _ => []
      pure { r with ok := r.ok ++ [{ a with pa := x.pa, mt := x.mt, chk := x.chk, bits := x.bits }], bad := r.bad ++ bad }
    | .error .wait => stay
    | .error (.miss st page kind) => pure { r with missed := r.missed ++ [(a, st, page, kind)] }
    | .error (.bad code) => pure { r with bad := r.bad ++ [xlateDetail a.lane code a.va] }

/-- prf fills the lines of memory type 0 that wait for nothing (R245, R53, R56). -/
def performPrf (g : Nat) (acc : Access) (lanes : List LaneAcc) : M z Unit :=
  forEach (lanes.filter fun a => a.mt = 0 && !a.chk) fun a => do
    let s ← getS
    if laneBlocked s g acc a then pure () else crcFill (s.groupCluster g) a.pa

/-- The lanes of one word, access number `unit`, that are translated are performed, or enter the queues. Answers the lanes held
back. -/
def performLanes (g unit : Nat) (acc : Access) (lanes : List LaneAcc) (verdict : Bool := false) : M z (List LaneAcc) := do
  let s ← getS
  let t ← getTeam (groupTeam g)
  let l ← getLaunch t.launch
  let chk := lanes.any (·.chk)
  let atOnce := match acc.kind with
    | .load _ | .store => chk
    | .atom _ => chk || l.journal = 2
    | .vstVer | .ldVer => true
    | _ => false
  let ds := if atOnce && (s.ctx t.ctx).msz && acc.space = 0 then mixedDetails s g acc (splitParts acc lanes) else []
  if lanes.isEmpty then pure []
  else if !ds.isEmpty then raise ds
  else match acc.kind with
    | .vstVer | .ldVer => performVer g unit acc lanes
    | .atomo i64 => do contribute g i64 lanes; pure []
    | .fetch _ | .snap | .prf => pure []
    | .atom op =>
      if chk then performChecked g unit acc lanes verdict
      else if l.journal = 2 then performReplayed g unit acc op lanes
      else do pushAtom g unit acc lanes; pure []
    | .load _ => if chk then performChecked g unit acc lanes verdict else do pushLoad g unit acc lanes; pure []
    | .store => if chk then performChecked g unit acc lanes verdict else do pushStore g unit acc lanes; pure []

/-- Whether the access performs only when all its lanes have translations: R34's four kinds, and a load with acquire
ordering, as the case of R386's example asks (log entry 73). A lane that is found to lie on a checked page after a miss, when
unchecked lanes of the word have performed, is held back with the lanes still unperformed, which then perform as a whole (log
entry 85). -/
def wholeOnly (acc : Access) (ok : List LaneAcc) : Bool :=
  acc.rel || acc.aon || ok.any (·.chk) || (acc.acq && match acc.kind with
    | .load _ => true
    | _ => false)

/-- Misses take their slots in increasing order of lane (R385); the waits of each lane. -/
def attachAll (c : CtxRec) (ctx : Nat) (already : List Wait) (missed : List (LaneAcc × Nat × Nat × Nat)) :
    M z (List (Nat × Wait)) := do
  foldEach missed ([] : List (Nat × Wait)) fun ws (a, st, page, kind) => do
    let w ← attachMiss ctx c.vfn st page kind (already ++ ws.map (·.2))
    pure (ws ++ [(a.lane, w)])

/-- After a word's lanes are all performed: a non-posted one holds its group at the word until its writes and loads are
(R126, R132). -/
def postHold (g : Nat) (acc : Access) : M z Flow := do
  let s ← getS
  let t ← getTeam (groupTeam g)
  let gr ← getGroup g
  if (acc.np || ((s.ctx t.ctx).msz && acc.space = 0)) && !gr.drained then
    modGroup g fun gr => { gr with hold := some .nonPosted }
    pure .parked
  else pure .seq

/-- The first issue of a group's access word. `pre` are causes found without translation (MISALIGN). A walk that produced a
translation has set its A and D bits although the word traps (R21). -/
def startAccess (w : View) (acc : Access) (lanes : List LaneAcc) (pre : List Detail) : M z Flow := do
  let c ← teamRec w.t
  let s ← getS
  let r ← translate w.cl w.t.ctx c acc lanes
  let bad := pre ++ r.bad ++ watchHits s w.t w.gr acc lanes
  if acc.kind == .prf then
    performPrf w.g acc r.ok
    pure .seq
  else if !bad.isEmpty then pure (.raised bad)
  else
    let u ← takeUnit w.g 1
    match ← attempt (if !r.missed.isEmpty && wholeOnly acc r.ok then pure r.ok else performLanes w.g u acc r.ok) with
    | .error (.trap ds _) => pure (.raised ds)
    | .error e => fun _ => .error e
    | .ok rem =>
      if r.missed.isEmpty && rem.isEmpty then postHold w.g acc
      else
        let ws ← attachAll c w.t.ctx [] r.missed
        let left := lanes.filter fun a => rem.any (·.lane = a.lane) || r.missed.any (·.1.lane = a.lane)
        modGroup w.g fun gr =>
          { gr with parked := some { unit := u, acc := { acc with lanes := left }, waits := ws, verdict := r.missed.isEmpty } }
        pure .parked

/-- A scratchpad or neighbourhood word once issued, its lanes in range: it enters the queues, or, an atomic in replay mode,
performs as its lanes are admitted (R246, R354). -/
def startSpad (w : View) (acc : Access) (lanes : List LaneAcc) (pre : List Detail) : M z Flow := do
  if !pre.isEmpty then raise pre
  else
    let u ← takeUnit w.g 1
    let rem ← performLanes w.g u acc lanes
    if rem.isEmpty then pure .seq
    else
      modGroup w.g fun gr => { gr with parked := some { unit := u, acc := { acc with lanes := rem }, waits := [] } }
      pure .parked

/-- Whether a lane of a parked access still waits. -/
def stillWaits (s : State) (ws : List (Nat × Wait)) (lane : Nat) : Bool :=
  ws.any fun (l, wt) => l == lane && match wt with
    | .slot _ _ => true
    | .full tbl => (s.table tbl).slots.length ≥ 32

/-- A parked access ends in causes: it leaves its slots, and the lanes it has not performed stay so (R36, R37). -/
def failParked (g : Nat) (p : Parked) (ds : List Detail) (pc : BitVec 15) : M z Unit := do
  let gr ← getGroup g
  detach (p.waits.map (·.2))
  takeTrap g ds pc (some (leftMask gr p.acc p.acc.lanes))

/-- The turn of a group whose access is parked (R33, R34): lanes that wait no more translate again and are performed;
answers whether the access is complete. A failure leaves the slots and traps with the lanes not performed (R37). -/
def resumeAccess (w : View) (p : Parked) : M z Bool := do
  let c ← teamRec w.t
  let s ← getS
  let ready := p.acc.lanes.filter fun a => !stillWaits s p.waits a.lane
  let waits := p.waits.filter fun x => stillWaits s p.waits x.1
  guardS (!ready.isEmpty)
  let r ← (if p.acc.space ≠ 0 then pure { ok := ready } else translate w.cl w.t.ctx c p.acc ready)
  let bad := r.bad ++ watchHits s w.t w.gr p.acc ready
  if !bad.isEmpty then do
    failParked w.g p bad w.unitPc
    pure false
  else
    let whole := wholeOnly p.acc r.ok && !(r.missed.isEmpty && waits.isEmpty)
    match ← attempt (if whole then pure r.ok else performLanes w.g p.unit p.acc r.ok p.verdict) with
    | .error (.trap ds _) => do
      failParked w.g p ds w.unitPc
      pure false
    | .error e => fun _ => .error e
    | .ok rem => do
      let ws ← attachAll c w.t.ctx (waits.map (·.2)) r.missed
      let left := p.acc.lanes.filter fun a =>
        rem.any (·.lane = a.lane) || r.missed.any (·.1.lane = a.lane) || !(ready.any (·.lane = a.lane))
      if left.isEmpty then
        modGroup w.g fun gr => { gr with parked := none }
        let _ ← postHold w.g p.acc
        pure true
      else
        modGroup w.g fun gr =>
          { gr with parked := some { p with acc := { p.acc with lanes := left }, waits := waits ++ ws
                                            verdict := p.verdict || (!whole && r.missed.isEmpty && waits.isEmpty) } }
        pure false

/-! Performing writes: the move of R116 -/

/-- Whether a queue entry of group `g` may be performed now (R116, R119, R126, R133). -/
def mayPerform (s : State) (g : Nat) (gr : Group) (e : SqEntry) : Bool :=
  gr.mayWrite e.unit e.id e.acc e.acc.lanes && !(e.acc.lanes.any (laneBlocked s g e.acc)) &&
    (e.acc.space ≠ 0 || !mszOf s g || gr.arrived e.unit)

def performEntry (g : Nat) (e : SqEntry) : M z Unit := do
  let gr ← getGroup g
  guardS (mayPerform (← getS) g gr e)
  match e.acc.kind with
  | .atom op => do
    let (rem, done, h) ← atomWord g e.unit e.acc op e.acc.lanes
    if !rem.isEmpty then heldOr h
    modGroup g fun gr =>
      { gr with
        sq := gr.sq.filter fun f => f.id != e.id
        ls := gr.ls.map fun f =>
          if f.atom && f.unit = e.unit then
            { f with acc := { f.acc with lanes := f.acc.lanes.map fun a => (done.find? fun d => d.lane = a.lane).getD a } }
          else f }
  | _ => do
    modGroup g fun gr => { gr with sq := gr.sq.filter fun f => f.id != e.id }
    forEach e.acc.lanes fun a => storeLane g e.unit e.acc a

/-! Satisfying loads (R117, R118) -/

/-- What a source supplies for a lane: its value with the stamps of its bytes, and the floor moves. -/
def fromSource (g : Nat) (e : LsEntry) (src : LoadSource) (a : LaneAcc) : M z LaneAcc := do
  let n := e.acc.psize
  let s ← getS
  let gr ← getGroup g
  let cl := s.groupCluster g
  let w := groupWho g gr e.unit
  let older := gr.sq.filter fun f => f.unit < e.unit && f.acc.touches a.pa n
  let plain := e.acc.space = 0 && !e.acc.acq && a.mt ≤ 1
  guardS (gr.mayRead e.unit e.acc a && !laneBlocked s g e.acc a)
  let give (cells : List (Byte × Nat)) : M z LaneAcc := do
    guardS (gr.aboveFloor a.pa (cells.map (·.2)))
    let bs ← noteRead w a.pa (cells.map (·.1))
    modGroup g fun gr => gr.raiseFloor a.pa (cells.map (·.2))
    pure { a with data := bytesNat bs, done := true, poison := sectorPoison s a.pa n, stamps := cells.map (·.2) }
  match src with
  | .forward => do
    guardS plain
    let f ← need older.getLast?
    let b ← need f.acc.lanes.getLast?
    guardS (f.acc.kind == .store && b.pa ≤ a.pa && a.pa + n ≤ b.pa + f.acc.psize)
    let bs ← noteRead w a.pa (natBytes (b.data / 2 ^ (8 * (a.pa - b.pa))) n)
    pure { a with data := bytesNat bs, done := true }
  | .cache => do
    guardS (plain && a.mt = 0 && older.isEmpty)
    let c ← need (SMap.get? (s.cluster cl).crc (a.pa / 64))
    give ((c.cells.drop (a.pa % 64)).take n)
  | .merge i => do
    guardS (plain && older.isEmpty)
    let m ← need s.home.merge[i]?
    guardS (m.line = a.pa / 64 && gr.mu ≤ m.copy.at_)
    give ((m.copy.cells.drop (a.pa % 64)).take n)
  | .home => do
    guardS older.isEmpty
    if e.acc.space ≠ 0 then spadLoad w n a
    else match paRange a.pa with
    | .control => pure { a with data := w0ReadBytes s 0 (a.pa - 0x8000000000) n, done := true }
    | _ =>
      let d ← homeLoad g e.unit n a
      if plain && a.mt = 0 then crcFill cl a.pa
      if plain then
        let s ← getS
        modHome fun h => { h with merge := h.merge ++
          [{ line := a.pa / 64, copy := { cells := memCells s (a.pa / 64 * 64) 64, at_ := h.now } }] }
      pure d

/-- The sources in turn satisfy the lanes whose values are not fixed; none may be skipped. Lanes on the same bytes take the
same value (R124). -/
def satisfy (get : LoadSource → LaneAcc → M z LaneAcc) : List LaneAcc → List LaneAcc → List LoadSource → M z (List LaneAcc)
  | _, [], _ => pure []
  | fixed, a :: as, srcs =>
    if a.done then do
      let rest ← satisfy get fixed as srcs
      pure (a :: rest)
    else match sameBytes fixed a, srcs with
      | some b, _ => do
        let rest ← satisfy get fixed as srcs
        pure ({ a with data := b.data, poison := b.poison, stamps := b.stamps, done := true } :: rest)
      | none, [] => do
        let rest ← satisfy get fixed as []
        pure (a :: rest)
      | none, src :: srcs => do
        let d ← get src a
        let rest ← satisfy get (d :: fixed) as srcs
        pure (d :: rest)

/-- A loaded value in its lane's register (R241, R244). -/
def landLane (acc : Access) (gr : Group) (a : LaneAcc) : Group :=
  match acc.dest with
  | .none => gr
  | .scalar n =>
    let gr := gr.setS n (BitVec.ofNat 64 a.data)
    if a.poison then { gr with poison := { gr.poison with s := NSet.add gr.poison.s n } } else gr
  | .vec b =>
    let put (gr : Group) (n : Nat) (x : W32) : Group :=
      let gr := gr.setV n a.lane x
      if a.poison then { gr with poison := { gr.poison with v := NSet.add gr.poison.v (32 * n + a.lane) } } else gr
    if acc.size ≥ 8 then
      put (put gr (b + 2 * a.part) (BitVec.ofNat 32 a.data)) (b + 2 * a.part + 1) (BitVec.ofNat 32 (a.data / 2 ^ 32))
    else match acc.kind with
      | .load true => put gr b (BitVec.ofInt 32 (signedOf (8 * acc.size) a.data))
      | _ => put gr b (BitVec.ofNat 32 a.data)

/-- A load moves on: sources fix values, and once every lane has its value the load lands (R116, R117, R119). -/
def landLoad (g id : Nat) (srcs : List LoadSource) : M z Unit := do
  let gr ← getGroup g
  let s ← getS
  let e ← need (gr.ls.find? fun e => e.id = id)
  let fixed := e.acc.lanes.all (·.done)
  guardS (fixed || (!e.atom && !srcs.isEmpty && (e.acc.space ≠ 0 || !mszOf s g || gr.arrived e.unit)))
  let lanes ← satisfy (fromSource g e) (e.acc.lanes.filter (·.done)) e.acc.lanes srcs
  if lanes.all (·.done) then
    modGroup g fun gr =>
      let gr := { gr with ls := gr.ls.filter fun f => f.id != id }
      if e.discard then gr else lanes.foldl (landLane e.acc) gr
    if e.acc.acq then acquire g e.acc.scope
    meetReleases g e.unit e.acc lanes
  else
    modGroup g fun gr =>
      { gr with ls := gr.ls.map fun f => if f.id = id then { f with acc := { f.acc with lanes := lanes } } else f }

/-! The launch's share of memory traffic (R321) -/

def addTraffic (launch bytes : Nat) : M z Unit := do
  let s ← getS
  modLaunch launch fun l =>
    match l.msh with
    | some m =>
      let recent := (l.traffic.filter fun e => s.timer < e.1 + 100) ++ [(s.timer, bytes)]
      { l with traffic := recent, msx := l.msx || 100 * m < (recent.map (·.2)).sum }
    | none => l

end Sys2Proof.Machine
end

