-- ==== Sys2Proof/Machine/Layered.lean ====
section
/-! DEFINITION. Layered tensors: handles, layer lists and descriptors with their checks (R68 to R75), and the snapshot a
word takes as part of its issue (R76, R77, R86). -/

namespace Sys2Proof.Machine

variable {z : State}

/-! Records -/

/-- The 64-byte entry of a type (R70). -/
def entryType (v : Nat) : Nat := bitsOf v 511 504

/-- The element formats of handles (R70). -/
def isHandleFmt (f : Nat) : Bool := f = 0 || f = 1 || f = 2 || f = 3 || f = 6 || f = 7

/-- Element size in half-bytes (R71). -/
def fmtHalves (f : Nat) : Nat :=
  match f with
  | 0 => 8 | 1 => 16 | 2 => 4 | 3 => 4 | 6 => 2 | 7 => 1
  | _ => 0

def readHandle (index : Nat) (va : W64) (v : Nat) : Handle where
  index := index
  va := va.toNat
  fmt := bitsOf v 403 400
  blk := bitOf v 404
  scl := bitOf v 405
  baxis := bitOf v 406
  rows := bitsOf v 287 256
  cols := bitsOf v 319 288
  base := BitVec.ofNat 64 (bitsOf v 63 0)
  sbase := BitVec.ofNat 64 (bitsOf v 127 64)
  rstride := signedOf 64 (bitsOf v 191 128)
  sstride := signedOf 64 (bitsOf v 255 192)
  llist := BitVec.ofNat 64 (bitsOf v 383 320)
  lver := bitsOf v 399 384

/-- R70: what makes a handle malformed. -/
def handleBad (h : Handle) (v : Nat) : Bool :=
  bitsOf v 503 407 ≠ 0 || !isHandleFmt h.fmt || (h.scl && h.fmt ≠ 6 && h.fmt ≠ 7) || (h.sbase ≠ 0 && !h.scl) ||
    h.rows = 0 || h.cols = 0 || h.base.toNat % 16 ≠ 0 || h.rstride % 16 ≠ 0 || h.llist.toNat % 64 ≠ 0 ||
    (h.llist ≠ 0 && h.fmt = 1)

/-- Value size of a layer's format; 0 where it is reserved (R73). -/
def valueSize (vf : Nat) : Nat :=
  match vf with
  | 0 => 4 | 2 => 2 | 3 => 2
  | _ => 0

def valueFmt (vf : Nat) : Fmt := if vf = 0 then .f32 else if vf = 2 then .f16 else .b16

def readLayer (index v : Nat) : Layer where
  index := index
  lowRank := bitsOf v 355 352 == 2
  rank := bitsOf v 364 360 + 1
  vfmt := bitsOf v 359 356
  rows := bitsOf v 319 288
  cols := bitsOf v 351 320
  alpha := BitVec.ofNat 32 (bitsOf v 287 256)
  str0 := signedOf 64 (bitsOf v 191 128)
  str1 := signedOf 64 (bitsOf v 255 192)
  ptr0 := BitVec.ofNat 64 (bitsOf v 63 0)
  ptr1 := BitVec.ofNat 64 (bitsOf v 127 64)

/-- R73: what makes a descriptor malformed. -/
def layerBad (l : Layer) (v : Nat) : Bool :=
  let kind := bitsOf v 355 352
  let sz := valueSize l.vfmt
  bitsOf v 503 365 ≠ 0 || (kind ≠ 1 && kind ≠ 2) || sz = 0 ||
    (if kind = 1 then bitsOf v 364 360 ≠ 0 || l.alpha ≠ 0 || l.str0 ≠ 0 || l.str1 ≠ 0 || l.ptr0.toNat % 8 ≠ 0
     else l.ptr0.toNat % sz ≠ 0 || l.ptr1.toNat % sz ≠ 0 || l.str0 % (sz : Int) ≠ 0 || l.str1 % (sz : Int) ≠ 0)

/-- The layer indices of a list, in summation order (R72). -/
def listIdx (v : Nat) : List Nat := (List.range (bitsOf v 263 256)).map fun n => bitsOf v (32 * n + 31) (32 * n)

/-- R72: what makes a list malformed. -/
def listBad (v lver : Nat) : Bool :=
  let c := bitsOf v 263 256
  bitsOf v 511 280 ≠ 0 || c = 0 || 8 < c || (List.range 8).any (fun n => c ≤ n && bitsOf v (32 * n + 31) (32 * n) ≠ 0) ||
    bitsOf v 279 264 ≠ lver || (distinct (listIdx v)).length ≠ (listIdx v).length

/-- The 64 bytes of a list (R72, R81). -/
def listBits (ver : Nat) (idx : List Nat) : Nat :=
  ver * 2 ^ 264 + idx.length * 2 ^ 256 + (idx.zipIdx.foldl (fun a (i, n) => a + i * 2 ^ (32 * n)) 0)

/-! Reads of issue, by the naming group (R69) -/

/-- LAYER_BAD and LAYER_OVF with the index that failed (R86). -/
def layerFault (cause : Nat) (idx : Nat) : Detail := { cause := cause, value := BitVec.ofNat 64 idx, word := BitVec.ofNat 32 idx }

/-- The detail of an unrecoverable translation that no lane raises (R37, R339). -/
def groupXlate (code : Nat) (va : W64) : Detail := { xlateDetail 0 code va with lanes := 0 }

/-- Translates an address for a word's issue: a miss is where the group waits. A FAIL reply to a page that the reads of issue
waited for is taken first, whatever the page maps by then (R32). -/
def issueXlate (w : View) (kind : Nat) (va : W64) : M z (Pre LaneAcc) := do
  let c ← teamRec w.t
  let gr ← getGroup w.g
  if gr.denied == some (va.toNat / 4096) then
    modGroup w.g fun gr => { gr with denied := none }
    pure (.bad [groupXlate XCode.denied va])
  else match ← xlate w.cl w.t.ctx c kind false va with
  | .ok a => pure (.ok a)
  | .error (.bad code) => pure (.bad [groupXlate code va])
  | .error (.miss st page k) => do
    let wt ← attachMiss w.t.ctx c.vfn st page k []
    pure (.wait va wt)
  | .error .wait => stay

/-- A 64-byte record read whole at its home slice (R69), after the group's earlier acquires and its own writes to it.
Poison under it is not looked at: R63 names no event for the reads of issue (log entry 88). -/
def issueRead64 (w : View) (va : W64) : M z (Pre (LaneAcc × Nat)) :=
  preBind (issueXlate w Kind.read va) fun a => do
    let gr ← getGroup w.g
    guardS (!sysWaits (← getS) a && !gr.acqBefore gr.nextId && !gr.sq.any fun f => f.acc.touches a.pa 64)
    bringLine a.pa
    pure (.ok (a, bytesNat (memBytes (← getS) a.pa 64)))

/-- The address of a table entry (R68, R69). -/
def entryVa (s : State) (ctx idx : Nat) : W64 := (s.ctx ctx).htbase + BitVec.ofNat 64 (64 * idx)

/-- Reads an entry of the context's handle table of the given type. -/
def issueEntry (w : View) (typ idx : Nat) : M z (Pre (LaneAcc × Nat)) := do
  let s ← getS
  if (s.ctx w.t.ctx).htlim.toNat ≤ idx then pure (.bad [layerFault Cause.layerBad idx])
  else preBind (issueRead64 w (entryVa s w.t.ctx idx)) fun (a, v) =>
    pure (if a.chk || a.mt = 2 || entryType v ≠ typ then .bad [layerFault Cause.layerBad idx] else .ok (a, v))

/-- A handle entry, checked (R70): where it stands, its bits, the handle. -/
def issueHandle (w : View) (idx : Nat) : M z (Pre (LaneAcc × Nat × Handle)) :=
  preBind (issueEntry w 1 idx) fun (a, v) =>
    let h := readHandle idx (entryVa w.s w.t.ctx idx) v
    pure (if handleBad h v then .bad [layerFault Cause.layerBad idx] else .ok (a, v, h))

/-- A layer descriptor, checked against the shape of its handle (R73, R86). -/
def issueLayer (w : View) (h : Handle) (idx : Nat) : M z (Pre (Nat × Layer)) :=
  preBind (issueEntry w 2 idx) fun (a, v) =>
    let l := readLayer idx v
    pure (if layerBad l v || l.rows ≠ h.rows || l.cols ≠ h.cols then .bad [layerFault Cause.layerBad idx] else .ok (a.pa, l))

/-- Where a handle's current list stands, and its layer indices. A list may lie on any page that a read is permitted on: R69
excludes checked pages and memory type 2 for entries only (log entry 88). -/
def issueList (w : View) (h : Handle) : M z (Pre (List Nat × List Nat)) :=
  if h.llist = 0 then pure (.ok ([], []))
  else preBind (issueRead64 w h.llist) fun (a, v) =>
    pure (if listBad v h.lver then .bad [layerFault Cause.layerBad h.index] else .ok ([a.pa], listIdx v))

/-- A snapshot of a handle (R76), with where its entry stands. -/
def takeSnapshot (w : View) (idx : Nat) : M z (Pre (LaneAcc × Snapshot)) :=
  preBind (issueHandle w idx) fun (a, _, h) =>
    preBind (issueList w h) fun (at_, ids) =>
      preBind (preEach (issueLayer w h) ids) fun ls =>
        pure (.ok (a, { handle := h, layers := ls.map (·.2), records := a.pa :: at_ ++ ls.map (·.1) }))

/-- What the data reads of a snapshot's operation are ordered after: the lattach or ldetach whose update it read, as an acquire
of the same scope would order them (R83). -/
def snapClock (s : State) (g : Nat) (a : LaneAcc) : Clock :=
  (releasesOf s ((List.range 10).map fun i => stampOf s (a.pa + 40 + i))).foldl
    (fun c r => c.join (followed (partyOf s g) r.scope [r])) []

/-- R87: the record of a snapshot whose unit issues, or of a lattach or ldetach. -/
def journalEntry (g : Nat) (a : LaneAcc) : M z Unit := do
  let s ← getS
  let _ ← journalGroup g (homeSlice s.dev a.pa) JType.atom a.va.toNat

end Sys2Proof.Machine
end

