-- ==== Sys2Proof/Machine/Engine.lean ====
section
/-! DEFINITION. Engine agents (R89 to R91): reading and writing memory for one element, forming layered elements
(R74, R75, R78, R79, R383), barrier objects (R102, R103), dependence counts (R104), batches (R98, R101). -/

namespace Sys2Proof.Machine

variable {z : State}

/-! Accesses of one element -/

/-- The party an element is formed for: its cluster, context, the team, the operation as a party to memory (R89), and the
pages of its accesses that a FAIL reply denied this element (R32). -/
structure Eng where
  cl : Nat
  ctx : Nat
  rcd : CtxRec
  tag : Nat
  who : Who
  denied : List Nat

/-- An access of an element that missed: the page of its address, and what to request. -/
structure Missed where
  va : Nat
  stage : Nat
  page : Nat
  kind : Nat
  deriving Repr

/-- What the accesses of one element have met. -/
structure Met where
  miss : Option Missed := none
  fills : Nat := 0                           -- R37 code of the last read filled with zero, 0 where it was read
  xdet : Nat := 0
  xfail : Bool := false
  poison : Bool := false
  oob : Bool := false
  layerData : Bool := false
  reads : List (Nat × Nat) := []             -- (address, bytes): physical, or 2^60 + scratchpad offset
  deriving Repr

/-- The 57-bit space of engine addresses (R95). -/
def in57 (a : Int) (n : Nat) : Bool := -(2 ^ 56) ≤ a && a + n ≤ 2 ^ 56

/-- The page of an engine's address. -/
def engPage (a : Int) : Nat := (BitVec.ofInt 64 a).toNat / 4096

/-- Translates an address of an engine; a denied page gives the code DENIED, whatever it maps by then (R32). -/
def engXlate (x : Eng) (kind : Nat) (a : Int) : M z (Except XFail LaneAcc) :=
  if x.denied.contains (engPage a) then pure (.error (.bad XCode.denied))
  else do
    match ← xlate x.cl x.ctx x.rcd kind true (BitVec.ofInt 64 a) with
    | .error .wait => stay
    | r => pure r

def Met.fail (m : Met) (code : Nat) : Met :=
  { m with fills := code, xfail := true, xdet := if m.xdet = 0 then code else m.xdet }

/-- Bytes at the home slice as an engine reads them, an access of at most 8 bytes at a time (R89, R123). -/
def engBytes (x : Eng) (p : LaneAcc) (n : Nat) : M z (List Byte) := do
  let s ← getS
  guardS (!sysWaits s p && !sysWaits s { p with pa := p.pa + n - 1 })
  let lo ← hsRead x.who p.pa (min n 8)
  if n ≤ 8 then pure lo
  else
    let hi ← hsRead x.who (p.pa + 8) (n - 8)
    pure (lo ++ hi)

/-- Bytes of one page for an element; zero where the result is unrecoverable (R91). -/
def engPart (x : Eng) (a : Int) (n : Nat) (m : Met) : M z (List Byte × Met) := do
  if m.miss.isSome then pure (List.replicate n 0, m)
  else match ← engXlate x Kind.copyRead a with
    | .ok p => do
      let bs ← engBytes x p n
      let s ← getS
      pure (bs, { m with fills := 0, poison := m.poison || sectorPoison s p.pa n, reads := (p.pa, n) :: m.reads })
    | .error (.bad code) => pure (List.replicate n 0, m.fail code)
    | .error (.miss st page k) =>
      pure (List.replicate n 0, { m with miss := some { va := engPage a, stage := st, page := page, kind := k } })
    | .error .wait => stay

/-- A number of `n` bytes at `a`, within one page or across two. -/
def engRead (x : Eng) (a : Int) (n : Nat) (m : Met) : M z (Nat × Met) := do
  let k := (4096 - a % 4096).toNat
  if n ≤ k then
    let r ← engPart x a n m
    pure (bytesNat r.1, r.2)
  else
    let lo ← engPart x a k m
    let hi ← engPart x (a + k) (n - k) lo.2
    let m := if lo.2.fills ≠ 0 && hi.2.fills = 0 then { hi.2 with fills := lo.2.fills } else hi.2
    pure (bytesNat (lo.1 ++ hi.1), m)

/-- Writes a number of `n` bytes, aligned to its size, at a global address; dropped where the result is unrecoverable. The
bits `keep` of what stands there stay (R79). Halves of 16 bytes are written one after the other (R89). Answers where it went. -/
def engWrite (x : Eng) (a : Int) (n val : Nat) (m : Met) (keep : Nat := 0) : M z (Option Nat × Met) := do
  if m.miss.isSome then pure (none, m)
  else match ← engXlate x Kind.copyWrite a with
    | .ok p => do
      let s ← getS
      guardS (!sysWaits s p)
      let val := if keep = 0 then val else val ||| (Memory.readNat s.mem p.pa n &&& keep)
      let half := min n 8
      forEach (List.range (n / half)) fun i =>
        hsWrite x.who (p.pa + half * i) (natBytes (val / 2 ^ (8 * half * i)) half)
      if p.chk then metaWrite p.pa (some x.tag)
      if m.poison || (keep ≠ 0 && sectorPoison s p.pa n) then poisonSector p.pa
      pure (some p.pa, m)
    | .error (.bad code) => pure (none, m.fail code)
    | .error (.miss st page k) => pure (none, { m with miss := some { va := engPage a, stage := st, page := page, kind := k } })
    | .error .wait => stay

/-! Layered elements (R71, R74, R75, R78, R79) -/

def Handle.blockLen (h : Handle) : Nat := if h.blk then 16 else 32
/-- Bytes that hold one element (R71). -/
def Handle.bytes (h : Handle) : Nat := (fmtHalves h.fmt + 1) / 2
def Handle.elemAddr (h : Handle) (i j : Nat) : Int := h.base.toInt + i * h.rstride + ((j * fmtHalves h.fmt / 2 : Nat) : Int)
def Handle.scaleAddr (h : Handle) (i j : Nat) : Int :=
  if h.baxis then h.sbase.toInt + ((i / h.blockLen : Nat) : Int) * h.sstride + j
  else h.sbase.toInt + i * h.sstride + ((j / h.blockLen : Nat) : Int)
def Handle.inside (h : Handle) (i j : Int) : Bool := 0 ≤ i && i < h.rows && 0 ≤ j && j < h.cols

/-- The exact value of a stored code of a format of R70. -/
def codeNum (fmt code : Nat) : Num :=
  match fmt with
  | 0 => Num.decode .f32 code
  | 1 => Num.decode .f64 code
  | 2 => Num.decode .f16 code
  | 3 => Num.decode .b16 code
  | 6 => k8Value code
  | _ => k4Value code

/-- The stored code of an element in the byte or bytes at its address. -/
def codeOf (fmt j x : Nat) : Nat := if fmt = 7 then (if j % 2 = 1 then x / 16 % 16 else x % 16) else x

def roundF32 (x : Num) : Num := Num.decode .f32 (Num.round .f32 .rne x)

/-- What a layer adds to an element. -/
inductive Adds where
  | none | value (x : Num) | oob | bad

/-- The entries of a sparse tile, read in order up to the one that covers block `blk` and on to check the rest: a header
out of order or with other bits set makes the tile malformed (R74). `prev` is the last block number. -/
def sparseScan (x : Eng) (e0 : Int) (esize blk : Nat) : Nat → Nat → Option Nat → Option Int → Met → M z (Option (Option Int) × Met)
  | 0, _, _, found, m => pure (some found, m)
  | n + 1, k, prev, found, m => do
    let a := e0 + ((k * esize : Nat) : Int)
    let (h, m) ← engRead x a 8 m
    if m.miss.isSome then pure (some found, m)
    else if m.fills ≠ 0 then sparseScan x e0 esize blk n (k + 1) prev found m
    else
      let b := h % 256
      if h / 256 ≠ 0 || (match prev with | some p => b ≤ p | none => false) then pure (none, m)
      else sparseScan x e0 esize blk n (k + 1) (some b) (if b = blk then some (a + 8) else found) m

/-- What a sparse layer adds to (i, j). The scan of a malformed tile ends at the entry that breaks it. -/
def sparseAdds (x : Eng) (l : Layer) (cols i j : Nat) (m : Met) : M z (Adds × Met) := do
  let tc := (cols + 63) / 64
  let da := l.ptr0.toInt + ((8 * (i / 64 * tc + j / 64) : Nat) : Int)
  if !in57 da 8 then pure (.oob, m)
  else
    let (w, m) ← engRead x da 8 m
    if m.miss.isSome then pure (.none, m)
    else
      let count := w / 2 ^ 40
      let sz := valueSize l.vfmt
      let esize := 8 + 16 * sz
      let e0 := l.ptr1.toInt + ((8 * (w % 2 ^ 40) : Nat) : Int)
      if count ≠ 0 && !in57 e0 (count * esize) then pure (.oob, m)
      else
        let blk := i % 64 / 4 * 16 + j % 64 / 4
        let (r, m) ← sparseScan x e0 esize blk count 0 none none m
        if m.miss.isSome then pure (.none, m)
        else match r with
          | none => pure (.bad, { m with layerData := true })
          | some none => pure (.none, m)
          | some (some a) => do
            let (v, m) ← engRead x (a + (((i % 4 * 4 + j % 4) * sz : Nat) : Int)) sz m
            pure (if m.fills ≠ 0 then .none else .value (Num.decode (valueFmt l.vfmt) v), m)

/-- One row of factors of a low-rank layer (R75). -/
def factors (x : Eng) (l : Layer) (base : Int) : Nat → Met → M z (Option (List Num) × Met)
  | 0, m => pure (some [], m)
  | n + 1, m => do
    let sz := valueSize l.vfmt
    if !in57 base sz then pure (none, m)
    else
      let (v, m) ← engRead x base sz m
      let (rest, m) ← factors x l (base + sz) n m
      pure (rest.map (Num.decode (valueFmt l.vfmt) v :: ·), m)

/-- What a low-rank layer adds to (i, j): RoundF32(α × t) (R78). -/
def lowRankAdds (x : Eng) (l : Layer) (i j : Nat) (m : Met) : M z (Adds × Met) := do
  let (u, m) ← factors x l (l.ptr0.toInt + i * l.str0) l.rank m
  let (v, m) ← factors x l (l.ptr1.toInt + j * l.str1) l.rank m
  match u, v with
  | some u, some v =>
    let t := roundF32 (Num.sum .rne (List.zipWith Num.mul u v))
    pure (.value (roundF32 (Num.mul (Num.decode .f32 l.alpha.toNat) t)), m)
  | _, _ => pure (.oob, m)

/-- The layers in list order (R78): the running sum, or what stops it. -/
def addLayers (x : Eng) (h : Handle) (i j : Nat) : List Layer → Num → Met → M z (Adds × Met)
  | [], acc, m => pure (.value acc, m)
  | l :: ls, acc, m => do
    let (a, m) ← if l.lowRank then lowRankAdds x l i j m else sparseAdds x l h.cols i j m
    match a with
    | .none => addLayers x h i j ls acc m
    | .value v => addLayers x h i j ls (roundF32 (Num.add .rne acc v)) m
    | r => pure (r, m)

/-- Encode of R78. -/
def encodeElem (fmt s : Nat) (acc : Num) : Nat :=
  let scaled : Num := if s = 0xFF then .nan else Num.mul acc (.fin false 1 (127 - (s : Int)))
  match fmt with
  | 0 => Num.round .f32 .rne acc
  | 2 => Num.round .f16 .rne acc
  | 3 => Num.round .b16 .rne acc
  | 6 => roundK8 .rne scaled
  | _ => roundK4 .rne scaled

/-- The scale byte of an element: 127 without a scale array (R383); none where its address is out of bounds. -/
def scaleByte (x : Eng) (h : Handle) (i j : Nat) (m : Met) : M z (Option Nat × Met) := do
  if !h.scl then pure (some 127, m)
  else
    let a := h.scaleAddr i j
    if !in57 a 1 then pure (none, m)
    else
      let (b, m) ← engRead x a 1 m
      pure (some b, m)

/-- Element (i, j) of a snapshot (R78, R79): its code; none where a malformed tile leaves it unwritten. With no layers the
stored code is delivered, and the scale's address plays no part, be it out of bounds (log entry 88). -/
def layeredElem (x : Eng) (sn : Snapshot) (i j : Int) (m : Met) : M z (Option Nat × Met) := do
  let h := sn.handle
  let oob (m : Met) : M z (Option Nat × Met) := pure (some 0, { m with oob := true })
  if !h.inside i j then oob m
  else
    let (i, j) := (i.toNat, j.toNat)
    let a := h.elemAddr i j
    if !in57 a h.bytes then oob m
    else
      let (raw, m) ← engRead x a h.bytes m
      let code := codeOf h.fmt j raw
      if sn.layers.isEmpty then pure (some code, m)
      else
        let (s, m) ← scaleByte x h i j m
        match s with
        | none => oob m
        | some s => do
          let base := roundF32 (Num.mul (codeNum h.fmt code) (s8Value s))
          let (r, m) ← addLayers x h i j sn.layers base m
          match r with
          | .value acc => pure (some (encodeElem h.fmt s acc), m)
          | .oob => oob m
          | .bad => pure (none, m)
          | .none => pure (some 0, m)

/-! Barrier objects (R102, R103) -/

/-- An object's fields. -/
structure BarObj where
  phase : Bool
  bytes : Nat
  init : Nat
  pend : Nat
  deriving DecidableEq, Repr

def BarObj.decode (v : Nat) : BarObj :=
  { phase := bitOf v 63, bytes := bitsOf v 55 32, init := bitsOf v 31 16, pend := bitsOf v 15 0 }

def BarObj.encode (o : BarObj) : Nat :=
  (if o.phase then 2 ^ 63 else 0) + o.bytes * 2 ^ 32 + o.init * 2 ^ 16 + o.pend

/-- The flip rule, after every update. -/
def BarObj.flip (o : BarObj) : BarObj :=
  if o.pend = 0 && o.bytes = 0 then { o with phase := !o.phase, pend := o.init } else o

/-- What an update of an object released is kept with its phase; the end of the phase hands it to who waits (R103, R122). -/
def Team.noteObj (t : Team) (off : Nat) (ends : Bool) (c : Clock) : Team :=
  let now := Clock.join (SMap.look [] t.boClock (2 * off)) c
  if ends then
    { t with boClock := SMap.put (SMap.del t.boClock (2 * off)) (2 * off + 1) (Clock.join (SMap.look [] t.boClock (2 * off + 1)) now) }
  else { t with boClock := SMap.store [] t.boClock (2 * off) now }

/-- One atomic update of the object at a scratchpad offset by a party, which releases `c`; the phase that ends forgets the next
one's copies. -/
def updateObj (w : Who) (e off : Nat) (f : BarObj → BarObj) (c : Clock := []) : M z Unit := do
  let t ← getTeam e
  let o := BarObj.decode (spNat t off 8)
  let n := (f o).flip
  spStore w e off (natBytes n.encode 8)
  modTeam e fun t => t.noteObj off (n.phase != o.phase) c
  if n.phase != o.phase then
    modTeam e fun t => { t with boGlobal := NSet.erase t.boGlobal (2 * off + (if n.phase then 1 else 0)) }

/-- A copy subtracts bytes from the object at BOBJ; no step outside the team's scratchpad (R103). -/
def subtractBytes (w : Who) (e off n : Nat) (globalDst : Bool) (c : Clock) : M z Unit := do
  let t ← getTeam e
  if spInside t off 8 then
    let o := BarObj.decode (spNat t off 8)
    if globalDst then
      modTeam e fun t => { t with boGlobal := NSet.add t.boGlobal (2 * off + (if o.phase then 1 else 0)) }
    updateObj w e off (fun o => { o with bytes := (o.bytes + 2 ^ 24 - n % 2 ^ 24) % 2 ^ 24 }) c

/-- One arrival by the network interface: PEND − 1. -/
def arriveObj (e off : Nat) (c : Clock) : M z Unit := updateObj sysParty e off (fun o => { o with pend := (o.pend + 65535) % 65536 }) c

/-! Dependence counts (R104, R286) -/

/-- Lowers the count of the live task with a tag, which follows what the decrementer released (R122); whether it was found
waiting. -/
def lowerCount (ctx tag : Nat) (c : Clock) : M z Bool := do
  let s ← getS
  match findTag s ctx tag with
  | some e =>
    match s.team? e with
    | some t =>
      if t.wait = 0 then pure false
      else
        modTeam e fun t => { t with wait := t.wait - 1, depClock := t.depClock.join c }
        pure true
    | none => pure false
  | none => pure false

/-! Elements in any order (R116) -/

/-- Elements an operation may take up: answered and chosen ones, ones that wait for a slot while one is free, and those from
`next` on that have not been taken up before their turn. -/
def readyPoints (s : State) (retry : List Nat) (waiting : List (Nat × Wait)) (next total : Nat) (taken : NSet) (n : Nat) : List Nat :=
  let free := waiting.filterMap fun (p, w) => match w with
    | .full tbl => if (s.table tbl).slots.length < 32 then some p else none
    | .slot _ _ => none
  (retry ++ free ++ ((List.range (n + taken.length)).map (next + ·)).filter fun p => p < total && !NSet.has taken p).take n

/-- The first element not taken up in turn, once `p` has been. -/
def nextPoint (next : Nat) (taken : NSet) (p : Nat) : Nat := if NSet.has taken p then next else max next (p + 1)

/-- Every element has been taken up. -/
def exhausted (next total : Nat) (taken : NSet) : Bool := total ≤ next + (taken.filter fun e => next ≤ e.1).length

/-- The elements of a choice that may be taken up before their turn. -/
def choose (next total : Nat) (taken : NSet) (pts : List Nat) : List Nat :=
  (distinct pts).filter fun p => next ≤ p && p < total && !NSet.has taken p

/-! Batches (R98, R101) -/

/-- The batches of a class: 0 COPY, 1 MAT, 2 COLL. -/
def Group.batches (gr : Group) (cls : Nat) : Batches := if cls = 0 then gr.copy else if cls = 1 then gr.mat else gr.coll

def Group.setBatches (gr : Group) (cls : Nat) (b : Batches) : Group :=
  if cls = 0 then { gr with copy := b } else if cls = 1 then { gr with mat := b } else { gr with coll := b }

/-- BDONE moves over the complete batches at the front; one with an outcome is kept for waitb. -/
def Batches.advance (b : Batches) : List Batch → Batches
  | [] => { b with closed := [] }
  | c :: cs =>
    if c.ops.isEmpty then
      ({ b with done := c.num, finished := if c.clock.isEmpty then b.finished else b.finished ++ [(c.num, c.clock)]
                outcomes := if c.flags = 0 then b.outcomes else b.outcomes ++ [c] } : Batches).advance cs
    else { b with closed := c :: cs }

/-- An operation completes with its outcome flags; `clock` is what it is ordered after, itself included. -/
def Batches.complete (b : Batches) (op : Nat) (flags : BitVec 3) (clock : Clock) : Batches :=
  let b := if b.openOps.contains op then
      { b with openOps := b.openOps.filter (· != op), openFlags := b.openFlags ||| flags, openClock := b.openClock.join clock }
    else b
  b.advance (b.closed.map fun c =>
    if c.ops.contains op then
      { c with ops := c.ops.filter (· != op), flags := c.flags ||| flags, clock := c.clock.join clock }
    else c)

/-- close (R101). -/
def Batches.close (b : Batches) : Batches :=
  let c : Batch := { num := b.last + 1, ops := b.openOps, flags := b.openFlags, clock := b.openClock }
  ({ b with last := b.last + 1, openOps := [], openFlags := 0, openClock := [] } : Batches).advance (b.closed ++ [c])

/-- Batches closed and not complete. -/
def Batches.unfinished (b : Batches) : Nat := (b.closed.filter fun c => !c.ops.isEmpty).length

/-- A close would make a 17th closed batch whose operations are not all complete (R101). -/
def Batches.full (b : Batches) : Bool := 16 ≤ b.unfinished && !b.openOps.isEmpty

/-- Whether batch `n` and all before it are complete. -/
def Batches.reached (b : Batches) (n : W32) : Bool := (b.done - n).toNat < 2 ^ 31

/-- An operation of class `cls` is issued by group `g`. -/
def openOp (g cls op : Nat) : M z Unit :=
  modGroup g fun gr => let b := gr.batches cls; gr.setBatches cls { b with openOps := b.openOps ++ [op] }

/-- An operation counts toward its batch. -/
def countOp (g cls op : Nat) (flags : BitVec 3) (clock : Clock) : M z Unit :=
  modGroup g fun gr => gr.setBatches cls ((gr.batches cls).complete op flags (clock.upTo (engParty op) 1))

/-- An operation as a party to memory, with what its issue ordered it after (R89). -/
def opWho (op : Nat) (clock : Clock) : Who := { id := engParty op, clock := clock }

/-- A waitb of batch `n` covers batch `m`. -/
def waitCovers (n m : W32) : Bool := (n - m).toNat < 2 ^ 31

/-- A waitb whose batch is reached: it acquires at .team, follows the waited batches, and takes the outcomes it newly covers
(R98, R101, R122). -/
def takeOutcomes (g cls : Nat) (n : W32) : M z (List Detail) := do
  let gr ← getGroup g
  let b := gr.batches cls
  let covered := b.outcomes.filter fun c => waitCovers n c.num
  modGroup g fun gr => gr.setBatches cls
    { b with outcomes := b.outcomes.filter fun c => !waitCovers n c.num
             finished := b.finished.filter fun c => !waitCovers n c.1 }
  acquire g 1
  orderAfter g ((b.finished.filter fun c => waitCovers n c.1).foldl (fun c f => Clock.join c f.2) [])
  match covered with
  | [] => pure []
  | c :: cs =>
    let flags := cs.foldl (fun f d => f ||| d.flags) c.flags
    pure [{ cause := Cause.engineErr, code := 2, value := BitVec.ofNat 64 (flags.toNat * 2 ^ 61 + c.num.toNat) }]

/-- Whether every access of group `g` before number `start` is performed (R89). -/
def issuerDone (s : State) (g start : Nat) : Bool :=
  match s.group? g with
  | some gr => gr.sq.all (fun e => start ≤ e.unit) && gr.ls.all (fun e => start ≤ e.unit || e.acc.lanes.all (·.done)) &&
      (match gr.parked with | some p => start ≤ p.unit | none => true)
  | none => true

end Sys2Proof.Machine
end

