-- ==== Sys2Proof/Machine/Copy.lean ====
section
/-! DEFINITION. The copy engine (R92 to R100, R105): layout records and descriptors, one point of a copy, bursts,
completion, discard (R66, R67, R251). -/

namespace Sys2Proof.Machine

variable {z : State}

/-! Records -/

/-- A layout record (R93). -/
def readLayout (v : Nat) : Layout where
  base := BitVec.ofNat 64 (bitsOf v 63 0)
  lsize := bitsOf v 71 64
  rank := bitsOf v 79 72
  csrc := bitsOf v 81 80
  tgt := bitOf v 83
  cdim := bitsOf v 85 84
  space := bitsOf v 87 86
  ext := (List.range 4).map fun d => bitsOf v (159 + 32 * d) (128 + 32 * d)
  stride := (List.range 4).map fun d => signedOf 64 (bitsOf v (319 + 64 * d) (256 + 64 * d))

def Layout.extent (l : Layout) (d : Nat) : Nat := l.ext.getD d 0
def Layout.step (l : Layout) (d : Nat) : Int := l.stride.getD d 0
def Layout.dims (l : Layout) : List Nat := List.range l.rank
def Layout.points (l : Layout) : Nat := (l.dims.map l.extent).foldl (· * ·) 1
/-- DeclaredBytes of R97. -/
def Layout.declared (l : Layout) : Nat := l.points * 2 ^ l.lsize

/-- What R93 and R94 refuse in a record by itself. -/
def layoutBad (l : Layout) (v : Nat) : Bool :=
  bitsOf v 127 88 ≠ 0 || bitOf v 82 || l.rank = 0 || 4 < l.rank || 4 < l.lsize || l.space = 3 || l.csrc = 3 ||
    (([0, 1, 2, 3] : List Nat).any fun d => l.rank ≤ d && (l.extent d ≠ 0 || l.step d ≠ 0)) ||
    (l.space ≤ 1 && (l.base.toNat % 2 ^ l.lsize ≠ 0 || l.dims.any fun d => l.step d % ((2 ^ l.lsize : Nat) : Int) ≠ 0))

/-- A record that may not be an index record (R94). -/
def layoutPlain (l : Layout) : Bool := l.csrc = 0 && l.cdim = 0 && !l.tgt

/-- A copy descriptor (R92). -/
structure Desc where
  src : Nat
  dst : Nat
  idx : Nat
  org : List Int
  bo : Bool
  dep : Bool
  ix : Bool
  slack : Nat
  deptag : Nat
  bobj : Nat
  bad : Bool
  deriving DecidableEq, Repr

def readDesc (v : Nat) : Desc :=
  let bo := bitOf v 320
  let dep := bitOf v 321
  let ix := bitOf v 322
  { src := bitsOf v 31 0, dst := bitsOf v 95 64, idx := bitsOf v 159 128
    org := (List.range 4).map fun d => signedOf 32 (bitsOf v (223 + 32 * d) (192 + 32 * d))
    bo := bo, dep := dep, ix := ix, slack := bitsOf v 359 352, deptag := bitsOf v 407 384, bobj := bitsOf v 447 416
    bad := bitsOf v 415 408 ≠ 0 || bitsOf v 383 360 ≠ 0 || bitsOf v 351 323 ≠ 0 || (!bo && bitsOf v 447 416 ≠ 0) ||
      (!dep && bitsOf v 407 384 ≠ 0) || (!ix && bitsOf v 191 128 ≠ 0) || bitsOf v 191 160 ≠ 0 || bitsOf v 127 96 ≠ 0 ||
      bitsOf v 63 32 ≠ 0 || (bo && bitsOf v 423 416 % 8 ≠ 0) }

/-- A 64-byte record of the team's scratchpad; none where it lies outside or is not aligned. -/
def spRecord (t : Team) (off : Nat) : Option Nat := if off % 64 = 0 && spInside t off 64 then some (spNat t off 64) else none

/-- The live reservation with a number (R266). -/
def liveRes (t : Team) (rnum : Nat) : Option Reservation := t.mat.res.find? fun r => r.live && r.rnum == rnum

/-- An operation begins to use a reservation. -/
def MatrixRes.use (m : MatrixRes) (res : Option (Nat × Nat)) (op : Nat) : MatrixRes :=
  { m with res := m.res.map fun r => if res = some (r.rnum, r.gen) then { r with users := r.users ++ [op] } else r }

/-- An operation ends: released reservations without users give up their units (R268). -/
def MatrixRes.leave (m : MatrixRes) (op : Nat) : MatrixRes :=
  { m with res := (m.res.map fun r => { r with users := r.users.filter (· != op) }).filter fun r => r.live || !r.users.isEmpty }

/-- The operand-buffer destination of a copy as an address of the team's window, and its reservation. -/
def bindRes (t : Team) (d : Layout) : Layout × Option (Nat × Nat) :=
  if d.space = 2 then
    match liveRes t (bitsOf d.base.toNat 35 32) with
    | some r => ({ d with base := BitVec.ofNat 64 (4096 * r.base + bitsOf d.base.toNat 31 0) }, some (r.rnum, r.gen))
    | none => (d, none)
  else (d, none)

/-- Whether every element of an operand-buffer destination lies in its reservation (R94, R40). -/
def obufFits (t : Team) (d : Layout) : Bool :=
  match liveRes t (bitsOf d.base.toNat 35 32) with
  | none => false
  | some r =>
    let off : Int := (bitsOf d.base.toNat 31 0 : Nat)
    let span (d' : Nat) : Int := ((d.extent d' : Int) - 1) * d.step d'
    let lo := d.dims.foldl (fun a i => a + min 0 (span i)) off
    let hi := d.dims.foldl (fun a i => a + max 0 (span i)) off
    d.points = 0 || (0 ≤ lo && hi + (2 ^ d.lsize : Nat) ≤ ((4096 * r.units : Nat) : Int))

/-- The issue checks of R94 on a descriptor: the causes, or the operation's parts. `srcRank` and `srcSize` stand for the
handle of a cpyl. -/
def copyParts (t : Team) (off : Nat) (layered : Bool) : Except (List Detail) (Desc × Layout × Option Layout × Option Layout) :=
  let err : List Detail := [{ cause := Cause.engineErr, code := 1, value := BitVec.ofNat 64 off }]
  match spRecord t off with
  | none => .error err
  | some v =>
    let d := readDesc v
    let dv := spRecord t d.dst
    let sv := if layered then some 0 else spRecord t d.src
    let xv := if d.ix then spRecord t d.idx else some 0
    match dv, sv, xv with
    | some dv, some sv, some xv =>
      let dst := readLayout dv
      let src := readLayout sv
      let x := readLayout xv
      let srcRank := if layered then 2 else src.rank
      let bad := d.bad || layoutBad dst dv || !layoutPlain dst ||
        (!layered && (layoutBad src sv || !layoutPlain src || src.space = 2 || src.lsize ≠ dst.lsize)) ||
        (d.ix && (layoutBad x xv || (x.csrc ≠ 1 && x.csrc ≠ 2) || x.lsize ≠ x.csrc + 1 || x.rank ≠ dst.rank || x.ext ≠ dst.ext ||
          x.space = 2 || (x.tgt && dst.space = 2) || (x.tgt && dst.rank ≤ x.cdim) || (!x.tgt && srcRank ≤ x.cdim))) ||
        2 ^ 40 ≤ dst.declared
      if bad then .error err
      else if dst.space = 2 && !obufFits t dst then .error [{ cause := Cause.obufRes, value := Config.freeWord off }]
      else .ok (d, dst, if layered then none else some src, if d.ix then some x else none)
    | _, _, _ => .error err

/-! One point -/

/-- The coordinates of point `p`, dimension 0 varying fastest (R95). -/
def Layout.coords (l : Layout) (p : Nat) : List Int :=
  ((List.range 4).foldl (fun (a : List Int × Nat) d =>
    if d < l.rank then (a.1 ++ [((a.2 % l.extent d : Nat) : Int)], a.2 / l.extent d) else (a.1 ++ [0], a.2)) ([], p)).1

/-- ElemAddress of R95; none is OOB. -/
def Layout.addr (l : Layout) (spad : Nat) (c : List Int) : Option Int :=
  if l.dims.any fun d => c.getD d 0 < 0 || (l.extent d : Int) ≤ c.getD d 0 then none
  else
    let base : Int := if l.space = 0 then l.base.toInt else ((bitsOf l.base.toNat 31 0 : Nat) : Int)
    let a := l.dims.foldl (fun a d => a + c.getD d 0 * l.step d) base
    let n := 2 ^ l.lsize
    match l.space with
    | 0 => if in57 a n then some a else none
    | 1 => if 0 ≤ a && a + n ≤ (spad : Int) then some a else none
    | _ => some a

/-- The 8-byte halves of `n` bytes from `a`, as addresses and sizes (R89). -/
def byHalves (a n : Nat) : List (Nat × Nat) := if n ≤ 8 then [(a, n)] else [(a, 8), (a + 8, n - 8)]

/-- A write of nibbles in the operand buffer or a B-store, whose granules are 8 bytes (R62). -/
def nibbleCover (p : PSet) (healer off n : Nat) : PSet := PSet.cover p 16 healer off n

/-- Reads an element of a record at its address. -/
def readElem (x : Eng) (e : Nat) (l : Layout) (a : Int) (m : Met) : M z (Nat × Met) := do
  let n := 2 ^ l.lsize
  if l.space = 0 then engRead x a n m
  else
    let t ← getTeam e
    let bs ← mapEach (byHalves a.toNat n) fun (o, k) => spRead x.who e o k
    pure (bytesNat bs.flatten,
      { m with poison := m.poison || spPoisoned t a.toNat n, reads := (2 ^ 60 + a.toNat, n) :: m.reads })

/-- Writes an element at its address in the space of the destination: a value, and the bits of what stands there that stay
(R79); answers the bytes written. -/
def writeElem (x : Eng) (e : Nat) (l : Layout) (a : Int) (v : Nat × Nat) (m : Met) : M z (List (Nat × Nat) × Met) := do
  let n := 2 ^ l.lsize
  match l.space with
  | 0 => do
    let (w, m) ← engWrite x a n v.1 m v.2
    pure (w.toList.map fun pa => (pa, n), m)
  | 1 => do
    if m.miss.isSome then pure ([], m)
    else
      let t ← getTeam e
      let val := v.1 ||| (spNat t a.toNat n &&& v.2)
      forEach (byHalves a.toNat n) fun (o, k) => spStore x.who e o (natBytes (val / 2 ^ (8 * (o - a.toNat))) k)
      if m.poison || (v.2 ≠ 0 && spPoisoned t a.toNat n) then modTeam e fun t => { t with spadPoison := addGranules t.spadPoison a.toNat n }
      pure ([(2 ^ 60 + a.toNat, n)], m)
  | _ => do
    if m.miss.isSome then pure ([], m)
    else
      modTeam e fun t =>
        let old := bytesNat ((List.range n).map fun i => SMap.look 0 t.mat.window (a.toNat + i))
        let p := if v.2 = 0 then nibbleCover t.mat.winPoison x.who.healer (2 * a.toNat) (2 * n) else t.mat.winPoison
        { t with mat := { t.mat with
            window := (natBytes (v.1 ||| (old &&& v.2)) n).zipIdx.foldl (fun w b => SMap.store 0 w (a.toNat + b.2) b.1) t.mat.window
            winPoison := if m.poison then addGranules p a.toNat n else p } }
      pure ([], m)

/-- The byte or element at row `i`, column `j` of a snapshot for an element of the handle's size: for k4, `j` counts bytes
(R96). `none`: left unwritten; the second number keeps bits of what is there. -/
def tilePoint (x : Eng) (sn : Snapshot) (i j : Int) (m : Met) : M z (Option (Nat × Nat) × Met) := do
  if sn.handle.fmt = 7 then
    let (lo, m) ← layeredElem x sn i (2 * j) m
    let (hi, m) ← layeredElem x sn i (2 * j + 1) m
    match lo, hi with
    | none, none => pure (none, m)
    | some a, some b => pure (some (a + 16 * b, 0), m)
    | none, some b => pure (some (16 * b, 0x0F), m)
    | some a, none => pure (some (a, 0xF0), m)
  else
    let (v, m) ← layeredElem x sn i j m
    pure (v.map fun v => (v, 0), m)

/-- A scatter writes the value of the highest point that names a destination (R95). -/
def CopyOp.superseded (op : CopyOp) (p : Nat) (key : Nat) : Bool :=
  match op.idx with
  | some x => x.tgt && p < SMap.look 0 op.last key
  | none => false

/-- One point of a cpy or cpyl (R95, R96): the bytes written, and what its accesses met. -/
def copyPoint (x : Eng) (op : CopyOp) (spad p : Nat) : M z (List (Nat × Nat) × Met × Nat) := do
  let c := op.dst.coords p
  let setAt (c : List Int) (d : Nat) (v : Int) : List Int := c.set d v
  -- the index record
  let (sc, dc, m, oob) ← (do
    match op.idx with
    | none => pure (c, c, ({} : Met), false)
    | some xr =>
      match xr.addr spad c with
      | none => pure (c, c, { oob := true }, true)
      | some xa => do
        let (v, m) ← readElem x op.eid xr xa {}
        let v := signedOf (8 * 2 ^ xr.lsize) v
        pure (if xr.tgt then c else setAt c xr.cdim v, if xr.tgt then setAt c xr.cdim v else c, m, false))
  if oob || m.miss.isSome then pure ([], m, 0)
  else
    let sc := List.zipWith (· + ·) sc op.org
    match op.dst.addr spad dc with
    | none => pure ([], { m with oob := true }, 0)
    | some da => do
      let key := wrapTo 64 da
      let (v, m) ← (do
        match op.kind with
        | .copy src =>
          match src.addr spad sc with
          | none => pure (some (0, 0), { m with oob := true })
          | some sa => do
            let (v, m) ← readElem x op.eid src sa m
            pure (some (v, 0), m)
        | .layered sn => tilePoint x sn (sc.getD 1 0) (sc.getD 0 0) m
        | _ => pure (none, m))
      match v with
      | none => pure ([], m, 0)
      | some v =>
        if op.superseded p (key + 1) || m.miss.isSome then pure ([], m, 0)
        else do
          let (w, m) ← writeElem x op.eid op.dst da v m
          pure (w, m, key + 1)

/-! fold (R84, R85) -/

/-- Points of one row of a fold: bytes for k4, else elements. -/
def foldCols (h : Handle) : Nat := if h.fmt = 7 then (h.cols + 1) / 2 else h.cols
/-- Rows and columns of the scale array (R71). -/
def scaleShape (h : Handle) : Nat × Nat :=
  if !h.scl then (0, 0)
  else if h.baxis then (ceilDiv h.rows h.blockLen, h.cols) else (h.rows, ceilDiv h.cols h.blockLen)

def foldPoints (h : Handle) : Nat := h.rows * foldCols h + (scaleShape h).1 * (scaleShape h).2

/-- A record that lays a handle's element or scale byte out as one destination element. -/
def byteLayout (lsize : Nat) : Layout :=
  { base := 0, lsize := lsize, rank := 1, csrc := 0, tgt := false, cdim := 0, space := 0, ext := [], stride := [] }

/-- One point of a fold: an element, then a scale byte. A destination out of bounds drops the write. -/
def foldPoint (x : Eng) (e : Nat) (sn : Snapshot) (dst : Handle) (p : Nat) : M z (List (Nat × Nat) × Met) := do
  let h := sn.handle
  let nc := foldCols h
  if p < h.rows * nc then
    let i := p / nc
    let j := p % nc
    let (v, m) ← tilePoint x sn (i : Int) (j : Int) {}
    let a := if h.fmt = 7 then dst.elemAddr i (2 * j) else dst.elemAddr i j
    let l := byteLayout (Nat.log2 dst.bytes)
    match v with
    | some v =>
      if in57 a dst.bytes && m.miss.isNone then writeElem x e l a v m else pure ([], m)
    | none => pure ([], m)
  else
    let q := p - h.rows * nc
    let (i, j) := (q / (scaleShape h).2, q % (scaleShape h).2)
    let (i, j) := if h.baxis then (i * h.blockLen, j) else (i, j * h.blockLen)
    let (s, m) ← scaleByte x h i j {}
    let a := dst.scaleAddr i j
    if in57 a 1 && m.miss.isNone then writeElem x e (byteLayout 0) a (s.getD 0x7F, 0) m else pure ([], m)

/-! Bursts (R100) -/

def CopyOp.total (op : CopyOp) : Nat :=
  match op.kind with
  | .copy _ | .layered _ => op.dst.points
  | .fold sn _ => foldPoints sn.handle
  | .discard _ _ => 0

def CopyOp.isDiscard (op : CopyOp) : Bool :=
  match op.kind with
  | .discard _ _ => true
  | _ => false

def CopyOp.esize (op : CopyOp) : Nat :=
  match op.kind with
  | .fold sn _ => max 1 sn.handle.bytes
  | _ => 2 ^ op.dst.lsize

def CopyOp.ready (s : State) (op : CopyOp) (n : Nat) : List Nat :=
  readyPoints s op.retry op.waiting op.next op.total op.taken n

def CopyOp.hasWork (s : State) (op : CopyOp) : Bool :=
  !op.isDiscard && issuerDone s op.g op.start && !(op.ready s 1).isEmpty

def CopyOp.curSlack (op : CopyOp) : Nat := op.slack - op.passed / 64

/-- The operation served next: the least current slack, the earliest among equals. -/
def pickCopy (s : State) (q : List CopyOp) : Option CopyOp :=
  (q.filter (CopyOp.hasWork s)).foldl (fun best op =>
    match best with
    | none => some op
    | some b => if op.curSlack < b.curSlack then some op else best) none

def modCopy (cl id : Nat) (f : CopyOp → CopyOp) : M z Unit :=
  modCluster cl fun c => { c with copyq := c.copyq.map fun op => if op.id = id then f op else op }

/-- The engine of an operation for one of its points. -/
def engOf (cl op e p : Nat) (denied : List (Nat × Nat)) (clock : Clock) : M z Eng := do
  let t ← getTeam e
  let c ← teamRec t
  pure { cl := cl, ctx := t.ctx, rcd := c, tag := t.tag, who := opWho op clock
         denied := (denied.filter fun d => d.1 = p).map (·.2) }

/-- Adds the bytes of ranges to a set. -/
def addBytes (m : NSet) (rs : List (Nat × Nat)) : NSet :=
  rs.foldl (fun r a => (List.range a.2).foldl (fun r i => NSet.add r (a.1 + i)) r) m

/-- One point of a queued operation: it is done, or it waits for its page. -/
def runCopyPoint (cl id p : Nat) : M z Unit := do
  let s ← getS
  let op ← need ((s.cluster cl).copyq.find? fun o => o.id = id)
  let t ← getTeam op.eid
  let x ← engOf cl id op.eid p op.denied op.clock
  let (w, m, key) ← (do
    match op.kind with
    | .fold sn dst => do
      let r ← foldPoint x op.eid sn dst p
      pure (r.1, r.2, 0)
    | _ => copyPoint x op t.shape.spad p)
  match m.miss with
  | some r => do
    let wt ← attachMiss t.ctx x.rcd.vfn r.stage r.page r.kind (op.waiting.map (·.2))
    modCopy cl id fun op =>
      { op with
        next := nextPoint op.next op.taken p, retry := op.retry.filter (· != p)
        waiting := (op.waiting.filter fun e => e.1 ≠ p) ++ [(p, wt)], missed := SMap.put op.missed p r.va }
  | none =>
    modCopy cl id fun op =>
      { op with
        next := nextPoint op.next op.taken p, retry := op.retry.filter (· != p), waiting := op.waiting.filter fun e => e.1 ≠ p
        missed := SMap.del op.missed p, denied := op.denied.filter fun d => d.1 ≠ p
        last := if key ≠ 0 && SMap.look 0 op.last key ≤ p then SMap.put op.last key p else op.last
        oobcnt := if m.oob then op.oobcnt + 1 else op.oobcnt
        poison := op.poison || m.poison
        layerData := op.layerData || m.layerData
        xfail := op.xfail || m.xfail
        xdet := if op.xdet = 0 then m.xdet else op.xdet
        reads := addBytes op.reads m.reads
        writes := addBytes op.writes w }

/-- COPY_BURST: the chosen operation moves at most 512 bytes under a 1 A reservation (R100, R327); the others with work
are passed over once. -/
def copyBurst (cl : Nat) : M z Unit := do
  let s ← getS
  guardS (stringAwake s cl)
  let op ← need (pickCopy s (s.cluster cl).copyq)
  if ← askCurrent cl (.copy cl) 8 then
    let pts := op.ready s (max 1 (512 / op.esize))
    modCluster cl fun c =>
      { c with copyq := c.copyq.map fun o => if o.id ≠ op.id && CopyOp.hasWork s o then { o with passed := o.passed + 1 } else o }
    forEach pts fun p => runCopyPoint cl op.id p
    releaseCurrent cl (.copy cl)

/-! Completion (R98, R105) -/

/-- The bytes that an operation both read and wrote are undefined (R85, R89). -/
def freeOverlap (op : CopyOp) : M z Unit :=
  forEach ((SMap.keys op.writes).filter fun a => NSet.has op.reads a) fun a => do
    let b ← freeByte
    if a < 2 ^ 60 then hsWrite (opWho op.id op.clock) a [b] else spStore (opWho op.id op.clock) op.eid (a - 2 ^ 60) [b]

def CopyOp.status (op : CopyOp) (depLost : Bool) : Nat :=
  min op.oobcnt 0xFFFFFFFF * 2 ^ 32 + op.xdet * 256 + 0x80 + (if op.oobcnt > 0 then 0x40 else 0) +
    (if op.poison then 0x20 else 0) + (if op.layerData then 0x10 else 0) + (if op.xfail then 0x08 else 0) +
    (if depLost then 0x04 else 0)

/-- POISON, LAYER_DATA and XFAIL as R339 lays them out. -/
def outcomeFlags (poison layerData xfail : Bool) : BitVec 3 := BitVec.ofBool poison ++ BitVec.ofBool layerData ++ BitVec.ofBool xfail

/-- Every point is written, zero-filled or dropped, after the accesses that precede the operation (R89, R105); one without
points completes at once (R97). -/
def CopyOp.over (s : State) (op : CopyOp) : Bool :=
  !op.isDiscard && (op.total = 0 || issuerDone s op.g op.start) && exhausted op.next op.total op.taken && op.retry.isEmpty &&
    op.waiting.isEmpty

/-- COPY_COMPLETE: the signals of R105, in their order. -/
def completeCopy (cl id : Nat) : M z Unit := do
  let s ← getS
  let op ← need ((s.cluster cl).copyq.find? fun o => o.id = id)
  guardS (op.over s)
  let t ← getTeam op.eid
  freeOverlap op
  let w := opWho id op.clock
  let c := op.clock.upTo w.id 1
  let lost ← (do
    match op.dep with
    | some tag => do
      let found ← lowerCount t.ctx tag c
      pure !found
    | none => pure false)
  match op.descOff with
  | some off => spStore w op.eid (off + 56) (natBytes (op.status lost) 8)
  | none => pure ()
  match op.bobj with
  | some off => subtractBytes w op.eid off op.dst.declared (op.dst.space = 0) c
  | none => pure ()
  modCluster cl fun c => { c with copyq := c.copyq.filter fun o => o.id != id }
  modTeam op.eid fun t => { t with mat := t.mat.leave id }
  countOp op.g 0 id (if op.descOff.isSome then 0 else outcomeFlags op.poison op.layerData op.xfail) op.clock

/-! Discard (R66, R67, R251) -/

/-- A present line is dropped: it reads as the memory below holds it. -/
def dropLine (line : Nat) : M z Unit := do
  let s ← getS
  match SMap.get? s.home.dirty line with
  | none => modHome fun h => { h with clean := NSet.erase h.clean line }
  | some old => do
    let step ← tickHome
    modHome fun h => { h with dirty := SMap.del h.dirty line }
    forEach (List.range 64) fun i => do
      modHome fun h => { h with marks := SMap.put h.marks (64 * line + i) step }
      writeByte (64 * line + i) (old.getD i 0)

/-- The lines wholly within the range, page by page; a page that does not translate is skipped. -/
def discardPages (x : Eng) (lo hi : Int) : Nat → Int → M z Unit
  | 0, _ => pure ()
  | n + 1, page => do
    match ← engXlate x Kind.copyWrite page with
    | .error _ => pure ()
    | .ok p =>
      forEach (List.range 64) fun i => do
        let a := page + ((64 * i : Nat) : Int)
        if lo ≤ a && a + 64 ≤ hi then
          guardS (!commitBlocks (← getS).dev (p.pa + 64 * i))
          dropLine ((p.pa + 64 * i) / 64)
    discardPages x lo hi n (page + 4096)

/-- DISCARD_COMPLETE: every slice has acted. -/
def completeDiscard (cl id : Nat) : M z Unit := do
  let s ← getS
  let op ← need ((s.cluster cl).copyq.find? fun o => o.id = id)
  guardS (issuerDone s op.g op.start)
  match op.kind with
  | .discard va len => do
    let x ← engOf cl id op.eid 0 [] op.clock
    let first := va / 4096 * 4096
    discardPages x (va : Int) ((va + len : Nat) : Int) ((va + len - first + 4095) / 4096) (first : Int)
    modCluster cl fun c => { c with copyq := c.copyq.filter fun o => o.id != id }
    countOp op.g 0 id 0 op.clock
  | _ => stay

end Sys2Proof.Machine
end

