-- ==== Sys2Proof/Machine/Flags.lean ====
section
/-! DEFINITION. What a vector word leaves beside its result: the last-result file (R44), mask results of compares (R235),
the overflow and invalid causes (R164), and the shape shared by the words of classes 0x0 to 0x3. -/

namespace Sys2Proof.Machine

variable {z : State}

/-- One lane's result: its bits, and the causes of R164. -/
structure LaneRes where
  bits : Nat
  ovf : Bool := false
  invalid : Bool := false
  deriving DecidableEq, Repr

/-- FOE of TMODE (R164). -/
def View.foe (w : View) : Bool := w.gr.trap.tmode.getLsbD 1

/-- The causes of the lanes of a word (R164, R336). -/
def floatCauses (w : View) (rs : List (Nat × LaneRes)) : List Detail :=
  ((rs.filter fun r => w.foe && r.2.ovf).map fun r => laneDetail Cause.fpOvf r.1 0 0) ++
  ((rs.filter fun r => r.2.invalid).map fun r => laneDetail Cause.fpInvalid r.1 0 0)

/-- Checks of a vector word with one destination register, or a pair (R43, R186, R225). -/
def vecInfo (w : View) (ok : Bool) (e : Elem) (vd : BitVec 7) (srcs : List (BitVec 8)) (mods : ModHint → Bool)
    (readsD : Bool := false) (wide : Bool := false) (surcharge : Nat := 0) : Info :=
  let d := destReg w vd
  let ds := if wide then [d, nextReg d] else [d]
  { reads := srcs.flatMap (specRegs e) ++ (if readsD then ds else [])
    writes := ds
    ok := ok && (!w.mod.odst || (vd == 0 && (!wide || w.mod.oidx.getLsbD 0 == false)))
    imm := immUse srcs, mods := mods, surcharge := surcharge, pipe := some false }

/-- Writes 32-bit lane results and moves the last-result file (R44). -/
def writeResult (r : Reg) (xs : List (Nat × W32)) (gr : Group) : Group := updateLast (writeLanes gr r xs) r

/-- Writes F64 results to a pair; l0 and l1 stay (R44). -/
def writePair (r : Reg) (xs : List (Nat × Nat)) (gr : Group) : Group :=
  xs.foldl (fun g x => writeReg (writeReg g r x.1 (BitVec.ofNat 32 x.2)) (nextReg r) x.1 (BitVec.ofNat 32 (x.2 / 2 ^ 32))) gr

/-- The lanes of a word whose results raise nothing. -/
def laneValues (w : View) (f : Nat → W32) : List (Nat × W32) := w.lanes.map fun l => (l, f l)

/-- A word that writes a 32-bit result in each active lane and raises nothing. -/
def runLanes (z : State) (info : View → Info) (dst : View → Reg) (f : View → Nat → W32) : Host.Outcome State Fault Refusal :=
  runRegs z info fun w => writeResult (dst w) (laneValues w (f w))

/-- A floating-point word: its results, or the causes of R164 and no result. -/
def runFloat (z : State) (info : View → Info) (dst : View → Reg) (wide : Bool) (f : View → Nat → LaneRes) :
    Host.Outcome State Fault Refusal :=
  runUnit z info fun w => do
    let rs := w.lanes.map fun l => (l, f w l)
    let ds := floatCauses w rs
    if !ds.isEmpty then raise ds
    else
      modGroup w.g fun gr =>
        if wide then writePair (dst w) (rs.map fun r => (r.1, r.2.bits)) gr
        else writeResult (dst w) (rs.map fun r => (r.1, BitVec.ofNat 32 r.2.bits)) gr
      pure .seq

/-- A word that writes a lane mask: inactive lanes become 0 (R235, R236). -/
def runMask (z : State) (info : View → Info) (k : BitVec 3) (f : View → Nat → Bool) : Host.Outcome State Fault Refusal :=
  runRegs z info fun w gr => gr.setK k.toNat (maskOf (w.lanes.filter (f w)))

/-! Rounding and operands of floating-point words -/

def View.rnd (w : View) : Rnd := Rnd.ofCode w.mod.rnd

/-- NEG and ABS on the sign bit of an element of width `n` (R186). -/
def signMods (neg abs : Bool) (n x : Nat) : Nat :=
  let s := 2 ^ (n - 1)
  let x := if abs then x % s else x
  if neg then (if x < s then x + s else x - s) else x

/-- The elements of a 32-bit lane, or the one F64 element. -/
def elemsOf (e : Elem) (x : Nat) : List Nat :=
  match e with
  | .f16 | .b16 => [x % 65536, x / 65536]
  | _ => [x]

def joinElems (e : Elem) (xs : List Nat) : Nat :=
  match e, xs with
  | .f16, [a, b] | .b16, [a, b] => a + b * 65536
  | _, a :: _ => a
  | _, [] => 0

/-- The exact values of the elements of operand a or b, after NEG and ABS. -/
def operandNums (w : View) (e : Elem) (second : Bool) (x : Nat) : List Num :=
  let m := w.mod
  let (neg, abs) := if second then (m.negb, m.absb) else (m.nega, m.absa)
  (elemsOf e x).map fun y => Num.decode e.fmt (signMods neg abs e.fmt.width y)

/-- Rounds element results together into a lane (R160, R162, R163). -/
def roundElems (w : View) (e : Elem) (xs : List Num) : LaneRes :=
  let rs := xs.map fun x => Num.roundSat e.fmt w.rnd w.mod.sat x
  { bits := joinElems e (rs.map (·.1)), ovf := (xs.zip rs).any fun p => p.2.2 && !p.1.isInf }

/-- A binary element operation on every element of the operands. -/
def binElems (w : View) (e : Elem) (sa sb : BitVec 8) (op : Rnd → Num → Num → Num) (l : Nat) : LaneRes :=
  let a := operandNums w e false (readSpec w e sa l)
  let b := operandNums w e true (readSpec w e sb l)
  roundElems w e (List.zipWith (op w.rnd) a b)

/-- The old contents of the destination of an accumulating word (R225). -/
def readDest (w : View) (e : Elem) (vd : BitVec 7) (l : Nat) : Nat :=
  let d := destReg w vd
  if e = .f64 then (readReg w.gr (nextReg d) l).toNat * 2 ^ 32 + (readReg w.gr d l).toNat else (readReg w.gr d l).toNat

/-- fma: a × b + d with one rounding (R174). -/
def fmaElems (w : View) (e : Elem) (vd : BitVec 7) (sa sb : BitVec 8) (l : Nat) : LaneRes :=
  let a := operandNums w e false (readSpec w e sa l)
  let b := operandNums w e true (readSpec w e sb l)
  let d := (elemsOf e (readDest w e vd l)).map (Num.decode e.fmt)
  roundElems w e (List.zipWith (fun p x => Num.sum w.rnd [p, x]) (List.zipWith Num.mul a b) d)

/-- The product sum of a dot product with the F32 lane d (R174). -/
def dotLane (w : View) (vd : BitVec 7) (l : Nat) (products : List Num) : LaneRes :=
  roundElems w .f32 [Num.sum w.rnd (products ++ [Num.decode .f32 (readDest w .f32 vd l)])]

end Sys2Proof.Machine
end

