-- ==== Sys2Proof/Machine/Scalar.lean ====
section
/-! DEFINITION. The meanings of classes 0x5 and 0x6: scalar words (R209 to R213). -/

namespace Sys2Proof.Machine

variable {z : State}

/-- The checks of a scalar word (R209): no hint.mod field, no dependence on EXM. -/
def scalarInfo (reads writes : List Nat) (ok : Bool := true) (imm : ImmUse := .none) : Info :=
  { reads := reads.map .s, writes := writes.map .s, ok := ok, imm := imm, mods := modZero, mask := .ignores }

/-- A word `op sd, sa, sb` (R210). -/
def runScalar2 (z : State) (d a b : BitVec 6) (f : W64 → W64 → W64) : Host.Outcome State Fault Refusal :=
  runRegs z (fun _ => scalarInfo [a.toNat, b.toNat] [d.toNat]) fun w gr =>
    gr.setS d.toNat (f (w.gr.rs a.toNat) (w.gr.rs b.toNat))

/-- A word `op sd, sa` (R210). -/
def runScalar1 (z : State) (d a : BitVec 6) (f : W64 → W64) : Host.Outcome State Fault Refusal :=
  runRegs z (fun _ => scalarInfo [a.toNat] [d.toNat]) fun w gr => gr.setS d.toNat (f (w.gr.rs a.toNat))

/-- A division word: DIV0 for a zero divisor, found after issue (R209, R211). -/
def runDivide (z : State) (d a b : BitVec 6) (f : W64 → W64 → W64) : Host.Outcome State Fault Refusal :=
  runUnit z (fun _ => scalarInfo [a.toNat, b.toNat] [d.toNat]) fun w => do
    if w.gr.rs b.toNat = 0 then raise [{ cause := Cause.div0 }]
    else
      modGroup w.g fun gr => gr.setS d.toNat (f (w.gr.rs a.toNat) (w.gr.rs b.toNat))
      pure .seq

/-- A word `op sd, sa, imm` (R213). -/
def runScalarImm (z : State) (d a : BitVec 6) (imm : BitVec 10) (f : W64 → W64 → W64) : Host.Outcome State Fault Refusal :=
  runRegs z (fun _ => scalarInfo [a.toNat] [d.toNat] true .simm) fun w gr =>
    gr.setS d.toNat (f (w.gr.rs a.toNat) (w.immS imm))

/-- An immediate shift: a count outside 0 to 63 raises ILL_OPERAND (R213). -/
def runShiftImm (z : State) (d a : BitVec 6) (imm : BitVec 10) (f : W64 → Nat → W64) : Host.Outcome State Fault Refusal :=
  runRegs z (fun w => scalarInfo [a.toNat] [d.toNat] ((w.immS imm).toNat < 64) .simm) fun w gr =>
    gr.setS d.toNat (f (w.gr.rs a.toNat) (w.immS imm).toNat)

/-! The functions -/

def mulhi64S (a b : W64) : W64 := BitVec.ofInt 64 (a.toInt * b.toInt / 2 ^ 64)
def mulhi64U (a b : W64) : W64 := BitVec.ofNat 64 (a.toNat * b.toNat / 2 ^ 64)
def boolWord (b : Bool) : W64 := if b then 1 else 0
/-- Signed division toward zero, modulo 2^64: −2^63 by −1 gives −2^63 (R211). -/
def divS (a b : W64) : W64 := BitVec.ofInt 64 (Int.tdiv a.toInt b.toInt)
def remS (a b : W64) : W64 := BitVec.ofInt 64 (Int.tmod a.toInt b.toInt)

/-- add (R210). -/
def execAdd (d a b : BitVec 6) (s : State) : Host.Outcome State Fault Refusal :=
  runScalar2 s d a b fun a b => a + b

/-- sub (R210). -/
def execSub (d a b : BitVec 6) (s : State) : Host.Outcome State Fault Refusal :=
  runScalar2 s d a b fun a b => a - b

/-- mul (R210). -/
def execMul (d a b : BitVec 6) (s : State) : Host.Outcome State Fault Refusal :=
  runScalar2 s d a b fun a b => a * b

/-- mulhi.i (R210). -/
def execMulhiI (d a b : BitVec 6) (s : State) : Host.Outcome State Fault Refusal :=
  runScalar2 s d a b mulhi64S

/-- mulhi.n (R210). -/
def execMulhiN (d a b : BitVec 6) (s : State) : Host.Outcome State Fault Refusal :=
  runScalar2 s d a b mulhi64U

/-- div.i (R211). -/
def execDivI (d a b : BitVec 6) (s : State) : Host.Outcome State Fault Refusal :=
  runDivide s d a b divS

/-- div.n (R211). -/
def execDivN (d a b : BitVec 6) (s : State) : Host.Outcome State Fault Refusal :=
  runDivide s d a b fun a b => a / b

/-- rem.i (R211). -/
def execRemI (d a b : BitVec 6) (s : State) : Host.Outcome State Fault Refusal :=
  runDivide s d a b remS

/-- rem.n (R211). -/
def execRemN (d a b : BitVec 6) (s : State) : Host.Outcome State Fault Refusal :=
  runDivide s d a b fun a b => a % b

/-- and (R210). -/
def execAnd (d a b : BitVec 6) (s : State) : Host.Outcome State Fault Refusal :=
  runScalar2 s d a b fun a b => a &&& b

/-- or (R210). -/
def execOr (d a b : BitVec 6) (s : State) : Host.Outcome State Fault Refusal :=
  runScalar2 s d a b fun a b => a ||| b

/-- xor (R210). -/
def execXor (d a b : BitVec 6) (s : State) : Host.Outcome State Fault Refusal :=
  runScalar2 s d a b fun a b => a ^^^ b

/-- andn (R210). -/
def execAndn (d a b : BitVec 6) (s : State) : Host.Outcome State Fault Refusal :=
  runScalar2 s d a b fun a b => a &&& ~~~b

/-- shl (R212). -/
def execShl (d a b : BitVec 6) (s : State) : Host.Outcome State Fault Refusal :=
  runScalar2 s d a b fun a b => a <<< (b.toNat % 64)

/-- shr (R212). -/
def execShr (d a b : BitVec 6) (s : State) : Host.Outcome State Fault Refusal :=
  runScalar2 s d a b fun a b => a >>> (b.toNat % 64)

/-- sar (R212). -/
def execSar (d a b : BitVec 6) (s : State) : Host.Outcome State Fault Refusal :=
  runScalar2 s d a b fun a b => a.sshiftRight (b.toNat % 64)

/-- min.i (R210). -/
def execMinI (d a b : BitVec 6) (s : State) : Host.Outcome State Fault Refusal :=
  runScalar2 s d a b fun a b => if b.slt a then b else a

/-- max.i (R210). -/
def execMaxI (d a b : BitVec 6) (s : State) : Host.Outcome State Fault Refusal :=
  runScalar2 s d a b fun a b => if a.slt b then b else a

/-- min.n (R210). -/
def execMinN (d a b : BitVec 6) (s : State) : Host.Outcome State Fault Refusal :=
  runScalar2 s d a b fun a b => if b.ult a then b else a

/-- max.n (R210). -/
def execMaxN (d a b : BitVec 6) (s : State) : Host.Outcome State Fault Refusal :=
  runScalar2 s d a b fun a b => if a.ult b then b else a

/-- slt.i (R210). -/
def execSltI (d a b : BitVec 6) (s : State) : Host.Outcome State Fault Refusal :=
  runScalar2 s d a b fun a b => boolWord (a.slt b)

/-- slt.n (R210). -/
def execSltN (d a b : BitVec 6) (s : State) : Host.Outcome State Fault Refusal :=
  runScalar2 s d a b fun a b => boolWord (a.ult b)

/-- seq (R210). -/
def execSeq (d a b : BitVec 6) (s : State) : Host.Outcome State Fault Refusal :=
  runScalar2 s d a b fun a b => boolWord (a == b)

/-- mov (R210). -/
def execMov (d a : BitVec 6) (s : State) : Host.Outcome State Fault Refusal :=
  runScalar1 s d a fun a => a

/-- clz (R210). -/
def execClz (d a : BitVec 6) (s : State) : Host.Outcome State Fault Refusal :=
  runScalar1 s d a fun a => BitVec.ofNat 64 (leadingZeros a.toNat 64)

/-- popc (R210). -/
def execPopc (d a : BitVec 6) (s : State) : Host.Outcome State Fault Refusal :=
  runScalar1 s d a fun a => BitVec.ofNat 64 (popCount a.toNat 64)

/-- brev (R210). -/
def execBrev (d a : BitVec 6) (s : State) : Host.Outcome State Fault Refusal :=
  runScalar1 s d a fun a => BitVec.ofNat 64 (reverseBits a.toNat 64)

/-- sext32 (R210). -/
def execSext32 (d a : BitVec 6) (s : State) : Host.Outcome State Fault Refusal :=
  runScalar1 s d a fun a => (a.extractLsb' 0 32).signExtend 64

/-- zext32 (R210). -/
def execZext32 (d a : BitVec 6) (s : State) : Host.Outcome State Fault Refusal :=
  runScalar1 s d a fun a => (a.extractLsb' 0 32).zeroExtend 64

/-- lea (R212). -/
def execLea (d a b : BitVec 6) (sh : BitVec 4) (s : State) : Host.Outcome State Fault Refusal :=
  runScalar2 s d a b fun a b => a + b <<< sh.toNat

/-- addi (R213). -/
def execAddi (d a : BitVec 6) (imm : BitVec 10) (s : State) : Host.Outcome State Fault Refusal :=
  runScalarImm s d a imm fun a m => a + m

/-- andi (R213). -/
def execAndi (d a : BitVec 6) (imm : BitVec 10) (s : State) : Host.Outcome State Fault Refusal :=
  runScalarImm s d a imm fun a m => a &&& m

/-- ori (R213). -/
def execOri (d a : BitVec 6) (imm : BitVec 10) (s : State) : Host.Outcome State Fault Refusal :=
  runScalarImm s d a imm fun a m => a ||| m

/-- xori (R213). -/
def execXori (d a : BitVec 6) (imm : BitVec 10) (s : State) : Host.Outcome State Fault Refusal :=
  runScalarImm s d a imm fun a m => a ^^^ m

/-- shli (R213). -/
def execShli (d a : BitVec 6) (imm : BitVec 10) (s : State) : Host.Outcome State Fault Refusal :=
  runShiftImm s d a imm fun a m => a <<< m

/-- shri (R213). -/
def execShri (d a : BitVec 6) (imm : BitVec 10) (s : State) : Host.Outcome State Fault Refusal :=
  runShiftImm s d a imm fun a m => a >>> m

/-- sari (R213). -/
def execSari (d a : BitVec 6) (imm : BitVec 10) (s : State) : Host.Outcome State Fault Refusal :=
  runShiftImm s d a imm fun a m => a.sshiftRight m

/-- slti.i (R213). -/
def execSltiI (d a : BitVec 6) (imm : BitVec 10) (s : State) : Host.Outcome State Fault Refusal :=
  runScalarImm s d a imm fun a m => boolWord (a.slt m)

/-- slti.n (R213). -/
def execSltiN (d a : BitVec 6) (imm : BitVec 10) (s : State) : Host.Outcome State Fault Refusal :=
  runScalarImm s d a imm fun a m => boolWord (a.ult m)

/-- seqi (R213). -/
def execSeqi (d a : BitVec 6) (imm : BitVec 10) (s : State) : Host.Outcome State Fault Refusal :=
  runScalarImm s d a imm fun a m => boolWord (a == m)

/-- li (R213). -/
def execLi (d : BitVec 6) (imm : BitVec 10) (s : State) : Host.Outcome State Fault Refusal :=
  runRegs s (fun _ => scalarInfo [] [d.toNat] true .simm) fun w gr => gr.setS d.toNat (w.immS imm)

/-- muli (R213). -/
def execMuli (d a : BitVec 6) (imm : BitVec 10) (s : State) : Host.Outcome State Fault Refusal :=
  runScalarImm s d a imm fun a m => a * m

end Sys2Proof.Machine
end

