-- ==== Sys2Proof/Machine/AsyncCopy.lean ====
section
/-! DEFINITION. The meanings of class 0xA: copies, batches, barrier objects, discard, read-cache flush, collectives, layer
lists and folding (R247 to R253, R80 to R85, R377), and the events of the copy engine. -/

namespace Sys2Proof.Machine

variable {z : State}

def sreg (n : BitVec 6) : Reg := .s n.toNat
/-- The low word of an s register. -/
def View.low (w : View) (n : BitVec 6) : Nat := (w.gr.rs n.toNat).toNat % 2 ^ 32

/-! Copies (R248) -/

def copiesQueued (s : State) (cl : Nat) : Nat := ((s.cluster cl).copyq.filter fun o => !o.isDiscard).length

/-- The queue of the cluster's copy engine has no room (R99). -/
def copyFull (w : View) : Bool := 64 ≤ copiesQueued w.s w.cl

/-- Enters an operation of the COPY class. -/
def enterCopy (w : View) (mk : Nat → CopyOp) : M z Nat := do
  let id ← freshId
  modCluster w.cl fun c => { c with copyq := c.copyq ++ [mk id] }
  modTeam w.eid fun t => { t with mat := t.mat.use (mk id).res id }
  openOp w.g 0 id
  pure id

/-- An earlier acquire that has not landed holds a scratchpad step (R119), as earlier scratchpad accesses do (R133). -/
def spadHeld (w : View) : Bool := w.gr.ls.any (·.acc.acq) || !w.gr.spadQuiet

/-- The checks of cpy, cpyl (R94, R99); the descriptor is read from the scratchpad in program order (R133). -/
def copyInfo (x : BitVec 6) (w : View) : Info := { reads := [sreg x], waits := copyFull w || spadHeld w }

/-- What a cpy or cpyl has checked: the descriptor with its records, and the snapshot of a cpyl with its entry. -/
abbrev CopyPlan := (Desc × Layout × Option Layout × Option Layout) × Option (LaneAcc × Snapshot)

/-- The snapshot and the checks of R94, part of issue (R77). -/
def copyReads (x : BitVec 6) (layered : Bool) (w : View) : M z (Pre CopyPlan) := do
  let off := w.low x
  match copyParts w.t off layered with
  | .error ds => pure (.bad ds)
  | .ok p =>
    if layered then
      preBind (takeSnapshot w p.1.src) fun sn =>
        let h := sn.2.handle
        let size := if h.fmt = 7 then 0 else Nat.log2 h.bytes
        pure (if p.2.1.rank ≠ 2 || p.2.1.lsize ≠ size then
            .bad [{ cause := Cause.engineErr, code := 1, value := BitVec.ofNat 64 off }]
          else .ok (p, some sn))
    else pure (.ok (p, none))

/-- The surcharge of a copy (R97). -/
def copyCost (r : CopyPlan) : Nat :=
  let d := r.1.2.1.declared
  if d = 0 then 2 else 2 + ceilDiv d 64 * (match r.2 with | some sn => 1 + sn.2.layers.length | none => 1)

/-- The operation that a checked cpy or cpyl enters. -/
def CopyPlan.op (r : CopyPlan) (w : View) (off : Nat) (snap : Clock) (id : Nat) : CopyOp :=
  let (d, dst, src, idx) := r.1
  let (dst, res) := bindRes w.t dst
  { id := id, g := w.g, eid := w.eid, dst := dst, res := res, idx := idx, org := d.org, descOff := some off
    kind := (match r.2, src with
      | some sn, _ => .layered sn.2
      | none, some l => .copy l
      | none, none => .copy dst)
    bobj := if d.bo then some d.bobj else none
    dep := if d.dep then some d.deptag else none
    slack := d.slack, start := w.gr.nextId, clock := (w.gr.release w.g).join snap }

/-- cpy and cpyl; one with an extent of zero completes at once (R97). -/
def runCopy (z : State) (x : BitVec 6) (layered : Bool) : Host.Outcome State Fault Refusal :=
  runStaged z (copyInfo x) (copyReads x layered) (fun _ r => copyCost r) fun w r => do
    let snap ← (match r.2 with
      | some sn => do
        journalEntry w.g sn.1
        pure (snapClock w.s w.g sn.1)
      | none => pure [])
    addTraffic w.t.launch r.1.2.1.declared
    let id ← enterCopy w (r.op w (w.low x) snap)
    if r.1.2.1.declared = 0 then completeCopy w.cl id
    pure .seq

/-- cpy (R248). -/
def execCpy (x : BitVec 6) (s : State) : Host.Outcome State Fault Refusal := runCopy s x false

/-- cpyl (R248). -/
def execCpyl (x : BitVec 6) (s : State) : Host.Outcome State Fault Refusal := runCopy s x true

/-! Batches (R249) -/

/-- close.C (R101, R249): one that would make a 17th unfinished batch waits. -/
def execClose (x : BitVec 6) (c : BitVec 4) (s : State) : Host.Outcome State Fault Refusal :=
  runUnit s (fun w =>
      { writes := [sreg x], ok := c.ult 3, mask := .ignores, waits := (w.gr.batches c.toNat).full }) fun w => do
    modGroup w.g fun gr =>
      let b := (gr.batches c.toNat).close
      (gr.setBatches c.toNat b).setS x.toNat (b.last.zeroExtend 64)
    pure .seq

/-- R101: a batch number not yet closed. -/
def batchAhead (b : Batches) (n : W32) : Bool := 1 ≤ (n - b.last).toNat && (n - b.last).toNat < 2 ^ 31

def barMisuse (fn : Nat) (value : W64) : Detail := { cause := Cause.barMisuse, code := BitVec.ofNat 16 fn, value := value }

/-- waitb.C (R101, R249). -/
def execWaitb (x : BitVec 6) (c : BitVec 4) (s : State) : Host.Outcome State Fault Refusal :=
  runUnit s (fun w =>
      { reads := [sreg x], ok := c.ult 3, mask := .ignores
        raises := if batchAhead (w.gr.batches c.toNat) (BitVec.ofNat 32 (w.low x)) then
          [barMisuse 0x03 (Config.freeWord w.s.free)] else [] }) fun w => do
    let n := BitVec.ofNat 32 (w.low x)
    if (w.gr.batches c.toNat).reached n then
      let ds ← takeOutcomes w.g c.toNat n
      if ds.isEmpty then pure .seq
      else
        takeTrap w.g ds w.unitPc none
        pure .parked
    else
      modGroup w.g fun gr => { gr with hold := some (.batch c.toNat n) }
      pure .parked

/-! Barrier objects (R250) -/

/-- Raises MISALIGN and SCRATCH_OOB of an object's offset. -/
def checkObj (w : View) (off : Nat) : M z Unit := do
  let v := BitVec.ofNat 64 off
  let ds : List Detail := (if off % 8 = 0 then [] else [{ cause := Cause.misalign, code := 8, value := v }]) ++
    (if spInside w.t off 8 then [] else [{ cause := Cause.scratchOob, value := v }])
  if ds.isEmpty then pure () else raise ds

/-- A word that updates the object at s[x]. -/
def runObj (z : State) (x : BitVec 6) (reads : List Reg) (raises : View → List Detail) (f : View → BarObj → BarObj) :
    Host.Outcome State Fault Refusal :=
  runUnit z (fun w => { reads := sreg x :: reads, mask := .ignores, raises := raises w, waits := spadHeld w }) fun w => do
    checkObj w (w.low x)
    updateObj (groupWho w.g w.gr w.gr.nextId) w.eid (w.low x) (f w)
    pure .seq

/-- boinit (R250). -/
def execBoinit (x y : BitVec 6) (s : State) : Host.Outcome State Fault Refusal :=
  let n (w : View) : Nat := w.low y % 65536
  runUnit s (fun w =>
      { reads := [sreg x, sreg y], mask := .ignores, waits := spadHeld w
        raises := if n w = 0 then [barMisuse 0x04 (Config.freeWord w.s.free)] else [] }) fun w => do
    checkObj w (w.low x)
    spStore (groupWho w.g w.gr w.gr.nextId) w.eid (w.low x)
      (natBytes ({ phase := false, bytes := 0, init := n w, pend := n w } : BarObj).encode 8)
    modTeam w.eid fun t =>
      { t with boGlobal := NSet.erase (NSet.erase t.boGlobal (2 * w.low x)) (2 * w.low x + 1)
               boClock := SMap.del (SMap.del t.boClock (2 * w.low x)) (2 * w.low x + 1) }
    pure .seq

/-- boexp (R250). -/
def execBoexp (x y : BitVec 6) (s : State) : Host.Outcome State Fault Refusal :=
  runObj s x [sreg y] (fun _ => []) fun w o => { o with bytes := (o.bytes + w.low y % 2 ^ 24) % 2 ^ 24 }

/-- boarr (R250): an arrival while PEND = 0 raises BAR_MISUSE. -/
def execBoarr (x : BitVec 6) (s : State) : Host.Outcome State Fault Refusal :=
  runObj s x [] (fun w =>
      let off := w.low x
      if off % 8 = 0 && spInside w.t off 8 && (BarObj.decode (spNat w.t off 8)).pend = 0 then
        [barMisuse 0x06 (Config.freeWord w.s.free)] else []) fun _ o => { o with pend := o.pend - 1 }

/-- Whether a bowait is satisfied: PHASE ≠ p. -/
def objFlipped (t : Team) (off : Nat) (p : Bool) : Bool := (BarObj.decode (spNat t off 8)).phase != p

/-- The acquire of a bowait that observed the end of phase `p` (R103). -/
def acquireObj (g off : Nat) (p : Bool) : M z Unit := do
  let t ← getTeam (groupTeam g)
  acquire g (if NSet.has t.boGlobal (2 * off + (if p then 1 else 0)) then 3 else 1)
  orderAfter g (SMap.look [] t.boClock (2 * off + 1))

/-- bowait (R250). -/
def execBowait (x y : BitVec 6) (s : State) : Host.Outcome State Fault Refusal :=
  runUnit s (fun w => { reads := [sreg x, sreg y], mask := .ignores, waits := spadHeld w }) fun w => do
    let off := w.low x
    let p := (w.gr.rs y.toNat).getLsbD 0
    checkObj w off
    if objFlipped w.t off p then
      acquireObj w.g off p
      pure .seq
    else
      modGroup w.g fun gr => { gr with hold := some (.object off p) }
      pure .parked

/-! Discard and flush (R251, R252) -/

/-- ENGINE_ERR of a length of 2^40 or more. -/
def lengthFault (w : View) (y : BitVec 6) : List Detail :=
  if 2 ^ 40 ≤ (w.gr.rs y.toNat).toNat then
    [{ cause := Cause.engineErr, code := 1, value := Config.freeWord w.s.free }] else []

/-- discard (R251). -/
def execDiscard (x y : BitVec 6) (s : State) : Host.Outcome State Fault Refusal :=
  runUnit s (fun w => { reads := [sreg x, sreg y], raises := lengthFault w y }) fun w => do
    let len := (w.gr.rs y.toNat).toNat
    if len = 0 then pure .seq
    else
      let _ ← enterCopy w fun id =>
        { id := id, g := w.g, eid := w.eid, kind := .discard (w.gr.rs x.toNat).toNat len, dst := byteLayout 0, start := w.gr.nextId
          clock := w.gr.release w.g }
      pure .seq

/-- Drops the read-cache lines that hold a byte of [lo, hi), page by page. -/
def flushPages (w : View) (c : CtxRec) (lo hi : Nat) : Nat → Nat → M z Unit
  | 0, _ => pure ()
  | n + 1, page => do
    match ← xlate w.cl w.t.ctx c Kind.read false (BitVec.ofNat 64 page) with
    | .error .wait => stay
    | .error _ => pure ()
    | .ok a =>
      forEach (List.range 64) fun i =>
        if lo < page + 64 * i + 64 && page + 64 * i < hi then crcDrop w.cl (a.pa + 64 * i) else pure ()
    flushPages w c lo hi n (page + 4096)

/-- flushr (R252). -/
def execFlushr (x y : BitVec 6) (s : State) : Host.Outcome State Fault Refusal :=
  runUnit s (fun w => { reads := [sreg x, sreg y], raises := lengthFault w y }) fun w => do
    let c ← teamRec w.t
    let lo := (w.gr.rs x.toNat).toNat
    let hi := lo + (w.gr.rs y.toNat).toNat
    let first := lo / 4096 * 4096
    flushPages w c lo hi (if lo = hi then 0 else (hi - first + 4095) / 4096) first
    pure .seq

/-! Collectives (R253, R377) -/

/-- A collective descriptor. -/
structure CollDesc where
  op : Nat
  ep : Nat
  len : Nat
  raddr : W64
  laddr : W64
  bad : Bool
  deriving DecidableEq, Repr

def readColl (v : Nat) : CollDesc :=
  let op := bitsOf v 211 208
  let a := if op = 3 then 8 else 4
  { op := op, ep := bitsOf v 203 192, len := bitsOf v 167 128, raddr := BitVec.ofNat 64 (bitsOf v 127 64)
    laddr := BitVec.ofNat 64 (bitsOf v 63 0)
    bad := bitsOf v 511 212 ≠ 0 || bitsOf v 207 204 ≠ 0 || bitsOf v 191 168 ≠ 0 || 4 ≤ op ||
      bitsOf v 63 0 % a ≠ 0 || bitsOf v 127 64 % a ≠ 0 || bitsOf v 167 128 % a ≠ 0 }

/-- The 16 bytes of an endpoint entry of a function (R376); none at or beyond LKCNT. -/
def endpoint (s : State) (fn ep : Nat) : Option Nat :=
  let r := s.fn fn
  if ep < r.lkcnt.toNat then some (Memory.readNat s.mem (r.lkbase.toNat + 16 * ep) 16) else none

/-- An endpoint entry's reserved bits are zero (R7, R376). -/
def endpointOk (e : Nat) : Bool := bitsOf e 127 52 = 0 && bitsOf e 31 28 = 0

/-- The issue checks of coll: the descriptor and its endpoint. -/
def collParts (w : View) (off : Nat) : Option (CollDesc × Nat) :=
  match spRecord w.t off with
  | none => none
  | some v =>
    let d := readColl v
    match endpoint w.s (ctxFn w.t.ctx) d.ep with
    | none => none
    | some e => if d.bad || !endpointOk e || !bitOf e 48 || !(if d.op = 1 then bitOf e 50 else bitOf e 49) then none else some (d, e)

/-- The read of the endpoint entry waits as any access does (R53, R56). -/
def endpointHeld (w : View) (off : Nat) : Bool :=
  match spRecord w.t off with
  | some v => paBlocked w.s ((w.s.fn (ctxFn w.t.ctx)).lkbase.toNat + 16 * (readColl v).ep)
  | none => false

/-- coll (R253, R377). -/
def execColl (x : BitVec 6) (s : State) : Host.Outcome State Fault Refusal :=
  runUnit s (fun w =>
      { reads := [sreg x], waits := spadHeld w || endpointHeld w (w.low x)
        raises := if (collParts w (w.low x)).isNone then
          [{ cause := Cause.engineErr, code := 1, value := BitVec.ofNat 64 (w.low x) }] else [] }) fun w => do
    let (d, e) ← need (collParts w (w.low x))
    if d.len = 0 then pure .seq
    else
      let id ← freshId
      modS fun s => { s with colls := s.colls ++
        [{ id := id, g := w.g, eid := w.eid, op := d.op, dev := bitsOf e 21 0, vfn := bitsOf e 27 22, peerCtx := bitsOf e 47 32
           laddr := d.laddr, raddr := d.raddr, len := d.len, start := w.gr.nextId, clock := w.gr.release w.g }] }
      addTraffic w.t.launch d.len
      openOp w.g 2 id
      pure .seq

/-! Layer lists and folding (R80 to R85) -/

/-- What a lattach or ldetach has read and checked: where the handle entry and the new list stand, and the list. -/
structure ListEdit where
  entry : LaneAcc
  handle : Handle
  target : LaneAcc
  idx : List Nat

/-- The reads and checks of R81, up to the new list. -/
def editList (w : View) (attach : Bool) (hidx didx : Nat) (sn : W64) : M z (Pre ListEdit) :=
  preBind (issueHandle w hidx) fun (a, _, h) =>
    preBind (issueLayer w h didx) fun _ =>
      preBind (issueXlate w Kind.write sn) fun p =>
        if sn.toNat % 64 ≠ 0 then pure (.bad [{ cause := Cause.misalign, code := 64, value := sn }])
        else if p.chk || p.mt = 2 then pure (.bad [layerFault Cause.layerBad hidx])
        else preBind (issueList w h) fun (_, old) =>
          pure (
            if attach then
              if old.contains didx then .bad [layerFault Cause.layerBad didx]
              else if old.length = 8 then .bad [layerFault Cause.layerOvf hidx]
              else .ok { entry := a, handle := h, target := p, idx := old ++ [didx] }
            else if old.contains didx then .ok { entry := a, handle := h, target := p, idx := old.filter (· != didx) }
            else .bad [layerFault Cause.layerBad didx])

/-- The eight 8-byte parts of a list, written at its home slice. -/
def writeList (g : Nat) (who : Who) (pa v : Nat) : M z Unit :=
  forEach (List.range 8) fun i => groupWrite g who (pa + 8 * i) (natBytes (v / 2 ^ (64 * i)) 8)

/-- lattach and ldetach: a release, then one atomic step at the handle's home slice (R81, R83). LLIST and LVER are written
through the translation that read the entry: R81 asks no other, so no W permission is asked for that page and its D is not set
(log entry 88). -/
def runListEdit (z : State) (x y zr : BitVec 6) (attach : Bool) : Host.Outcome State Fault Refusal :=
  runStaged z (fun w => { reads := [sreg x, sreg y, sreg zr], mods := modScope, waits := !w.gr.drained })
    (fun w => editList w attach (w.low x) (w.low y) (w.gr.rs zr.toNat)) (fun _ _ => 0) fun w e => do
      journalEntry w.g e.entry
      let v := (e.handle.lver + 1) % 65536
      guardS (!sysWaits w.s e.target)
      let rel : Release := { party := partyOf w.s w.g, scope := w.scope, clock := w.gr.release w.g }
      let who := { groupWho w.g w.gr w.gr.nextId with rels := w.gr.fences ++ [rel] }
      if !e.idx.isEmpty then writeList w.g who e.target.pa (listBits v e.idx)
      let list := if e.idx.isEmpty then 0 else (w.gr.rs zr.toNat).toNat
      groupWrite w.g who (e.entry.pa + 40) (natBytes list 8)
      groupWrite w.g who (e.entry.pa + 48) (natBytes v 2)
      pure .seq

/-- lattach (R80, R81). -/
def execLattach (x y z : BitVec 6) (s : State) : Host.Outcome State Fault Refusal := runListEdit s x y z true

/-- ldetach (R80, R81). -/
def execLdetach (x y z : BitVec 6) (s : State) : Host.Outcome State Fault Refusal := runListEdit s x y z false

/-- R84: a destination a fold does not accept. -/
def foldBad (a b : Handle) : Bool :=
  a.fmt ≠ b.fmt || a.blk ≠ b.blk || a.scl ≠ b.scl || a.baxis ≠ b.baxis || a.rows ≠ b.rows || a.cols ≠ b.cols ||
    b.llist ≠ 0 || b.fmt = 1

/-- The snapshot and the destination handle of a fold (R84). -/
def foldReads (x y : BitVec 6) (w : View) : M z (Pre ((LaneAcc × Snapshot) × Handle)) :=
  preBind (takeSnapshot w (w.low x)) fun sn =>
    preBind (issueHandle w (w.low y)) fun (_, _, d) =>
      pure (if foldBad sn.2.handle d then .bad [layerFault Cause.layerBad (w.low y)] else .ok (sn, d))

/-- fold (R84). -/
def execFold (x y : BitVec 6) (s : State) : Host.Outcome State Fault Refusal :=
  runStaged s (fun w => { reads := [sreg x, sreg y], waits := copyFull w }) (foldReads x y) (fun _ _ => 0) fun w (sn, d) => do
    journalEntry w.g sn.1
    let _ ← enterCopy w fun id =>
      { id := id, g := w.g, eid := w.eid, kind := .fold sn.2 d, dst := byteLayout 0, start := w.gr.nextId
        clock := (w.gr.release w.g).join (snapClock w.s w.g sn.1), reads := addBytes [] (sn.2.records.map fun p => (p, 64)) }
    pure .seq

/-! Events of the engines -/

/-- COPY_BURST (R100). -/
def execCopyBurst (cl : Nat) (s : State) : Host.Outcome State Fault Refusal := runM s (copyBurst cl)

/-- COPY_COMPLETE (R105). -/
def execCopyComplete (cl op : Nat) (s : State) : Host.Outcome State Fault Refusal := runM s (completeCopy cl op)

/-- DISCARD_COMPLETE (R251). -/
def execDiscardComplete (cl op : Nat) (s : State) : Host.Outcome State Fault Refusal := runM s (completeDiscard cl op)

end Sys2Proof.Machine
end

