-- ==== Sys2Proof/Machine/Mask.lean ====
section
/-! DEFINITION. The meanings of the mask words of class 0x5 (R214, R215). -/

namespace Sys2Proof.Machine

variable {z : State}

/-- The checks of a mask word (R214). -/
def maskWordInfo (reads writes : List Reg) (mask : EmptyMask := .ignores) : Info :=
  { reads := reads, writes := writes, mods := modZero, mask := mask }

/-- A word `op kd, ka, kb` (R214). -/
def runMask2 (z : State) (d a b : BitVec 3) (f : W32 → W32 → W32) : Host.Outcome State Fault Refusal :=
  runRegs z (fun _ => maskWordInfo [.k a.toNat, .k b.toNat] [.k d.toNat]) fun w gr =>
    gr.setK d.toNat (f (w.gr.rk a.toNat) (w.gr.rk b.toNat))

/-- A word `op sd, ka` (R214). -/
def runMaskS (z : State) (d : BitVec 6) (a : BitVec 3) (f : W32 → W64) : Host.Outcome State Fault Refusal :=
  runRegs z (fun _ => maskWordInfo [.k a.toNat] [.s d.toNat]) fun w gr => gr.setS d.toNat (f (w.gr.rk a.toNat))

/-- kand (R214). -/
def execKand (d a b : BitVec 3) (s : State) : Host.Outcome State Fault Refusal := runMask2 s d a b fun a b => a &&& b

/-- kor (R214). -/
def execKor (d a b : BitVec 3) (s : State) : Host.Outcome State Fault Refusal := runMask2 s d a b fun a b => a ||| b

/-- kxor (R214). -/
def execKxor (d a b : BitVec 3) (s : State) : Host.Outcome State Fault Refusal := runMask2 s d a b fun a b => a ^^^ b

/-- kandn (R214). -/
def execKandn (d a b : BitVec 3) (s : State) : Host.Outcome State Fault Refusal := runMask2 s d a b fun a b => a &&& ~~~b

/-- knot (R214). -/
def execKnot (d a : BitVec 3) (s : State) : Host.Outcome State Fault Refusal :=
  runRegs s (fun _ => maskWordInfo [.k a.toNat] [.k d.toNat]) fun w gr => gr.setK d.toNat (~~~(w.gr.rk a.toNat))

/-- kpopc (R214). -/
def execKpopc (d : BitVec 6) (a : BitVec 3) (s : State) : Host.Outcome State Fault Refusal :=
  runMaskS s d a fun m => BitVec.ofNat 64 (popCount m.toNat 32)

/-- kffs (R214). -/
def execKffs (d : BitVec 6) (a : BitVec 3) (s : State) : Host.Outcome State Fault Refusal :=
  runMaskS s d a fun m => BitVec.ofNat 64 ((lowest? 32 (m.getLsbD ·)).getD 32)

/-- ktos (R214). -/
def execKtos (d : BitVec 6) (a : BitVec 3) (s : State) : Host.Outcome State Fault Refusal :=
  runMaskS s d a fun m => m.zeroExtend 64

/-- stok (R214). -/
def execStok (d : BitVec 3) (a : BitVec 6) (s : State) : Host.Outcome State Fault Refusal :=
  runRegs s (fun _ => maskWordInfo [.s a.toNat] [.k d.toNat]) fun w gr =>
    gr.setK d.toNat ((w.gr.rs a.toNat).extractLsb' 0 32)

/-- exmrd (R215). -/
def execExmrd (d : BitVec 6) (s : State) : Host.Outcome State Fault Refusal :=
  runRegs s (fun _ => maskWordInfo [] [.s d.toNat] .acts) fun w gr => gr.setS d.toNat (w.exm.zeroExtend 64)

/-- Bound of R215: BEGIN, or OUTER of the innermost open region. -/
def Group.bound (gr : Group) : W32 :=
  match gr.stack with
  | e :: _ => e.outer
  | [] => gr.base

/-- exmwr (R215). -/
def execExmwr (a : BitVec 6) (s : State) : Host.Outcome State Fault Refusal :=
  runRegs s (fun _ => maskWordInfo [.s a.toNat] []) fun w gr =>
    gr.setExm ((w.gr.rs a.toNat).extractLsb' 0 32 &&& gr.bound)

end Sys2Proof.Machine
end

