-- ==== Sys2Proof/Machine/Control.lean ====
section
/-! DEFINITION. The meanings of class 0x7: transfers, the mask stack, ending, idling and waiting (R216 to R224). -/

namespace Sys2Proof.Machine

variable {z : State}

/-- The checks of a control word (R216); `raises` holds ILL_CONV (R219). -/
def controlInfo (reads writes : List Reg) (raises : List Detail := []) (mask : EmptyMask := .ignores) (ok : Bool := true) : Info :=
  { reads := reads, writes := writes, mods := modZero, raises := raises, mask := mask, ok := ok }

/-- The target of a C word: the word after it plus the offset (R188). -/
def relTarget (w : View) (off : Int) : Int := (w.wordPc : Int) + 1 + off

/-- Raises OVL_MISS for a target outside the slot, before the word has any effect (R216). -/
def checkTarget (w : View) (t : Int) : M z Unit :=
  if 0 ≤ t && t < 16384 then pure () else raise [ovlMiss w.s w.core w.gr.slot t]

/-- A branch taken where `cond` holds (R216, R217). -/
def runBranch (z : State) (info : Info) (cond : View → Bool) (target : View → Int) : Host.Outcome State Fault Refusal :=
  runUnit z (fun _ => info) fun w => do
    if cond w then
      checkTarget w (target w)
      pure (.jump (target w))
    else pure .seq

/-- br (R217). -/
def execBr (off : BitVec 24) (s : State) : Host.Outcome State Fault Refusal :=
  runBranch s (controlInfo [] []) (fun _ => true) fun w => relTarget w off.toInt

/-- brz (R217). -/
def execBrz (r : BitVec 6) (off : BitVec 18) (s : State) : Host.Outcome State Fault Refusal :=
  runBranch s (controlInfo [.s r.toNat] []) (fun w => w.gr.rs r.toNat == 0) fun w => relTarget w off.toInt

/-- brnz (R217). -/
def execBrnz (r : BitVec 6) (off : BitVec 18) (s : State) : Host.Outcome State Fault Refusal :=
  runBranch s (controlInfo [.s r.toNat] []) (fun w => w.gr.rs r.toNat != 0) fun w => relTarget w off.toInt

/-- brany (R217). -/
def execBrany (k : BitVec 3) (off : BitVec 18) (s : State) : Host.Outcome State Fault Refusal :=
  runBranch s (controlInfo [.k k.toNat] [] [] .acts) (fun w => w.gr.rk k.toNat &&& w.exm != 0)
    fun w => relTarget w off.toInt

/-- brall (R217). -/
def execBrall (k : BitVec 3) (off : BitVec 18) (s : State) : Host.Outcome State Fault Refusal :=
  runBranch s (controlInfo [.k k.toNat] [] [] .acts) (fun w => w.gr.rk k.toNat &&& w.exm == w.exm)
    fun w => relTarget w off.toInt

/-- call (R218): s63 takes PC + 1. -/
def execCall (off : BitVec 24) (s : State) : Host.Outcome State Fault Refusal :=
  runUnit s (fun _ => controlInfo [] [.s 63]) fun w => do
    let t := relTarget w off.toInt
    checkTarget w t
    modGroup w.g fun gr => gr.setS 63 (BitVec.ofNat 64 (w.wordPc + 1))
    pure (.jump t)

/-- ret (R218). -/
def execRet (r : BitVec 6) (s : State) : Host.Outcome State Fault Refusal :=
  runBranch s (controlInfo [.s r.toNat] []) (fun _ => true) fun w => ((w.gr.rs r.toNat).toNat : Int)

/-- brx (R218). -/
def execBrx (r : BitVec 6) (off : BitVec 18) (s : State) : Host.Outcome State Fault Refusal :=
  runBranch s (controlInfo [.s r.toNat] []) (fun _ => true) fun w => relTarget w off.toInt + (w.gr.rs r.toNat).toInt

/-! The mask stack (R219, R220) -/

def illConv (w : View) (bad : Bool) : List Detail :=
  if bad then
    [{ cause := Cause.illConv, value := w.firstWord.zeroExtend 64, word := fetchAt w.s w.core w.gr.slot w.wordPc }]
  else []

/-- A region word: the new mask and stack, and a transfer where `jumps` holds of the new mask. -/
def runRegion (z : State) (k : Option (BitVec 3)) (bad : Group → Bool) (f : Group → W32 × List MaskEntry)
    (jumps : W32 → Bool) (off : BitVec 18) : Host.Outcome State Fault Refusal :=
  runUnit z (fun w => controlInfo (k.toList.map fun k => .k k.toNat) [] (illConv w (bad w.gr)) .acts) fun w => do
    let r := f w.gr
    let t := relTarget w off.toInt
    if jumps r.1 then checkTarget w t
    modGroup w.g fun gr => { gr with exm := r.1, stack := r.2 }
    pure (if jumps r.1 then .jump t else .seq)

/-- mif (R220). -/
def execMif (k : BitVec 3) (off : BitVec 18) (s : State) : Host.Outcome State Fault Refusal :=
  runRegion s (some k) (fun gr => gr.stack.length == 64) (fun gr =>
    let m := gr.rk k.toNat
    (gr.exm &&& m, { outer := gr.exm, alt := gr.exm &&& ~~~m, els := false } :: gr.stack)) (· == 0) off

/-- melse (R220). -/
def execMelse (off : BitVec 18) (s : State) : Host.Outcome State Fault Refusal :=
  runRegion s none (fun gr => match gr.stack with | e :: _ => e.els | [] => true) (fun gr =>
    match gr.stack with
    | e :: es => (e.alt, { e with els := true } :: es)
    | [] => (gr.exm, [])) (· == 0) off

/-- mend (R220). -/
def execMend (s : State) : Host.Outcome State Fault Refusal :=
  runRegion s none (fun gr => gr.stack.isEmpty) (fun gr =>
    match gr.stack with
    | e :: es => (e.outer, es)
    | [] => (gr.exm, [])) (fun _ => false) 0

/-- mwhile (R220). -/
def execMwhile (k : BitVec 3) (off : BitVec 18) (s : State) : Host.Outcome State Fault Refusal :=
  runRegion s (some k) (fun gr => gr.stack.isEmpty) (fun gr => (gr.exm &&& gr.rk k.toNat, gr.stack)) (· != 0) off

/-! Ending, idling, waiting (R222 to R224) -/

/-- exit (R222, R355). -/
def execExit (s : State) : Host.Outcome State Fault Refusal :=
  runUnit s (fun _ => controlInfo [] []) fun w => do
    exitDivergence w.g
    endGroup w.g
    pure .ended

/-- nop (R223). -/
def execNop (s : State) : Host.Outcome State Fault Refusal := runUnit s (fun _ => controlInfo [] []) fun _ => pure .seq

/-- Whether the counts a wait selects have fallen to its threshold (R224). -/
def Group.countsFallen (gr : Group) (sel n : Nat) : Bool :=
  match sel with
  | 0 => gr.lcnt ≤ n
  | 1 => gr.fcnt ≤ n
  | _ => gr.lcnt ≤ n && gr.fcnt ≤ n

/-- wait (R224): once issued, it holds the group until its condition holds. -/
def execWait (sel : BitVec 4) (n : BitVec 20) (s : State) : Host.Outcome State Fault Refusal :=
  runUnit s (fun _ => controlInfo [] [] [] .ignores (sel.ult 3)) fun w => do
    if w.gr.countsFallen sel.toNat n.toNat then pure .seq
    else
      modGroup w.g fun gr => { gr with hold := some (.counts sel.toNat n.toNat) }
      pure .parked

end Sys2Proof.Machine
end

