-- ==== Sys2Proof/Machine/GlobalMem.lean ====
section
/-! DEFINITION. The meanings of class 0x8: global loads, stores, atomics, compress-store, scalar accesses and prefetch
(R240 to R245). -/

namespace Sys2Proof.Machine

variable {z : State}

/-- Acquire and release of an ord field (R119). -/
def ordAcq (o : BitVec 2) : Bool := o.getLsbD 0
def ordRel (o : BitVec 2) : Bool := o.getLsbD 1

/-- MISALIGN of the lanes whose address is not a multiple of the access size (R240). -/
def misaligned (size : Nat) (lanes : List (Nat × W64)) : List Detail :=
  (lanes.filter fun a => a.2.toNat % size ≠ 0).map fun a => laneDetail Cause.misalign a.1 size a.2

/-- The checks of a class-0x8 word with lane offsets. -/
def globalInfo (w : View) (ok : Bool) (sb : BitVec 6) (vo : BitVec 8) (reads writes : List Reg) (size extra : Nat) : Info :=
  { reads := .s sb.toNat :: specRegs .int vo ++ reads, writes := writes, ok := ok, imm := immUse [vo], mods := modScope
    surcharge := sectors size ((globalAddrs w sb vo).map (·.2)) + extra }

/-- A class-0x8 access once issued: the lanes at their addresses, MISALIGN with the causes of translation. -/
def accessLanes (w : View) (acc : Access) (lanes : List LaneAcc) : M z Flow := do
  addTraffic w.t.launch (32 * sectors acc.size (lanes.map (·.va)))
  startAccess w acc lanes (misaligned acc.size (lanes.map fun a => (a.lane, a.va)))

/-- A load of `size` bytes in each active lane (R241). -/
def runLoad (z : State) (ok signed : Bool) (size : Nat) (vd : BitVec 7) (sb : BitVec 6) (vo : BitVec 8) (ord : BitVec 2) :
    Host.Outcome State Fault Refusal :=
  runUnit z (fun w => globalInfo w ok sb vo [] (dataRegs vd.toNat size) size 0) fun w =>
    accessLanes w { kind := .load signed, size := size, dest := .vec vd.toNat, acq := ordAcq ord, scope := w.scope }
      ((globalAddrs w sb vo).map fun a => { lane := a.1, va := a.2 })

/-- A store of the low `size` bytes of each active lane's data (R241). -/
def runStore (z : State) (ok : Bool) (size : Nat) (vd : BitVec 7) (sb : BitVec 6) (vo : BitVec 8) (ord : BitVec 2) :
    Host.Outcome State Fault Refusal :=
  runUnit z (fun w => globalInfo w ok sb vo (dataRegs vd.toNat size) [] size 0) fun w =>
    accessLanes w { kind := .store, size := size, rel := ordRel ord, scope := w.scope }
      ((globalAddrs w sb vo).map fun a =>
        { lane := a.1, va := a.2, data := laneData w.gr vd.toNat ((size + 3) / 4) a.1 % 2 ^ (8 * size) })

/-- An atomic; a cas takes its comparand in the lower and its swap value in the upper registers of vd (R242). -/
def runAtom (z : State) (ok : Bool) (op : AtomOp) (size : Nat) (vd : BitVec 7) (sb : BitVec 6) (vo : BitVec 8)
    (ord : BitVec 2) : Host.Outcome State Fault Refusal :=
  let n := size / 4
  let cas := op == .cas
  runUnit z (fun w => globalInfo w ok sb vo (dataRegs vd.toNat (if cas then 2 * size else size)) (dataRegs vd.toNat size) size
      w.lanes.length) fun w =>
    accessLanes w { kind := .atom op, size := size, dest := .vec vd.toNat, acq := ordAcq ord, rel := ordRel ord, scope := w.scope }
      ((globalAddrs w sb vo).map fun a =>
        { lane := a.1, va := a.2
          data := laneData w.gr (if cas then vd.toNat + n else vd.toNat) n a.1
          cmp := if cas then laneData w.gr vd.toNat n a.1 else 0 })

/-- ld.b8 (R241). -/
def execLdB8 (vd : BitVec 7) (sb : BitVec 6) (vo : BitVec 8) (ord : BitVec 2) (s : State) : Host.Outcome State Fault Refusal :=
  runLoad s (operandsOk (.ldB8 vd sb vo ord)) false 1 vd sb vo ord

/-- ld.i8 (R241). -/
def execLdI8 (vd : BitVec 7) (sb : BitVec 6) (vo : BitVec 8) (ord : BitVec 2) (s : State) : Host.Outcome State Fault Refusal :=
  runLoad s (operandsOk (.ldI8 vd sb vo ord)) true 1 vd sb vo ord

/-- ld.b16 (R241). -/
def execLdB16 (vd : BitVec 7) (sb : BitVec 6) (vo : BitVec 8) (ord : BitVec 2) (s : State) : Host.Outcome State Fault Refusal :=
  runLoad s (operandsOk (.ldB16 vd sb vo ord)) false 2 vd sb vo ord

/-- ld.i16 (R241). -/
def execLdI16 (vd : BitVec 7) (sb : BitVec 6) (vo : BitVec 8) (ord : BitVec 2) (s : State) : Host.Outcome State Fault Refusal :=
  runLoad s (operandsOk (.ldI16 vd sb vo ord)) true 2 vd sb vo ord

/-- ld.b32 (R241). -/
def execLdB32 (vd : BitVec 7) (sb : BitVec 6) (vo : BitVec 8) (ord : BitVec 2) (s : State) : Host.Outcome State Fault Refusal :=
  runLoad s (operandsOk (.ldB32 vd sb vo ord)) false 4 vd sb vo ord

/-- ld.b64 (R241). -/
def execLdB64 (vd : BitVec 7) (sb : BitVec 6) (vo : BitVec 8) (ord : BitVec 2) (s : State) : Host.Outcome State Fault Refusal :=
  runLoad s (operandsOk (.ldB64 vd sb vo ord)) false 8 vd sb vo ord

/-- ld.b128 (R241). -/
def execLdB128 (vd : BitVec 7) (sb : BitVec 6) (vo : BitVec 8) (ord : BitVec 2) (s : State) : Host.Outcome State Fault Refusal :=
  runLoad s (operandsOk (.ldB128 vd sb vo ord)) false 16 vd sb vo ord

/-- st.b8 (R241). -/
def execStB8 (vd : BitVec 7) (sb : BitVec 6) (vo : BitVec 8) (ord : BitVec 2) (s : State) : Host.Outcome State Fault Refusal :=
  runStore s (operandsOk (.stB8 vd sb vo ord)) 1 vd sb vo ord

/-- st.b16 (R241). -/
def execStB16 (vd : BitVec 7) (sb : BitVec 6) (vo : BitVec 8) (ord : BitVec 2) (s : State) : Host.Outcome State Fault Refusal :=
  runStore s (operandsOk (.stB16 vd sb vo ord)) 2 vd sb vo ord

/-- st.b32 (R241). -/
def execStB32 (vd : BitVec 7) (sb : BitVec 6) (vo : BitVec 8) (ord : BitVec 2) (s : State) : Host.Outcome State Fault Refusal :=
  runStore s (operandsOk (.stB32 vd sb vo ord)) 4 vd sb vo ord

/-- st.b64 (R241). -/
def execStB64 (vd : BitVec 7) (sb : BitVec 6) (vo : BitVec 8) (ord : BitVec 2) (s : State) : Host.Outcome State Fault Refusal :=
  runStore s (operandsOk (.stB64 vd sb vo ord)) 8 vd sb vo ord

/-- st.b128 (R241). -/
def execStB128 (vd : BitVec 7) (sb : BitVec 6) (vo : BitVec 8) (ord : BitVec 2) (s : State) : Host.Outcome State Fault Refusal :=
  runStore s (operandsOk (.stB128 vd sb vo ord)) 16 vd sb vo ord

/-- atom.add.i32 (R242). -/
def execAtomAddI32 (vd : BitVec 7) (sb : BitVec 6) (vo : BitVec 8) (ord : BitVec 2) (s : State) : Host.Outcome State Fault Refusal :=
  runAtom s (operandsOk (.atomAddI32 vd sb vo ord)) .addI 4 vd sb vo ord

/-- atom.add.i64 (R242). -/
def execAtomAddI64 (vd : BitVec 7) (sb : BitVec 6) (vo : BitVec 8) (ord : BitVec 2) (s : State) : Host.Outcome State Fault Refusal :=
  runAtom s (operandsOk (.atomAddI64 vd sb vo ord)) .addI 8 vd sb vo ord

/-- atom.add.f32 (R242). -/
def execAtomAddF32 (vd : BitVec 7) (sb : BitVec 6) (vo : BitVec 8) (ord : BitVec 2) (s : State) : Host.Outcome State Fault Refusal :=
  runAtom s (operandsOk (.atomAddF32 vd sb vo ord)) .addF32 4 vd sb vo ord

/-- atom.min.i32 (R242). -/
def execAtomMinI32 (vd : BitVec 7) (sb : BitVec 6) (vo : BitVec 8) (ord : BitVec 2) (s : State) : Host.Outcome State Fault Refusal :=
  runAtom s (operandsOk (.atomMinI32 vd sb vo ord)) .minI 4 vd sb vo ord

/-- atom.max.i32 (R242). -/
def execAtomMaxI32 (vd : BitVec 7) (sb : BitVec 6) (vo : BitVec 8) (ord : BitVec 2) (s : State) : Host.Outcome State Fault Refusal :=
  runAtom s (operandsOk (.atomMaxI32 vd sb vo ord)) .maxI 4 vd sb vo ord

/-- atom.min.n32 (R242). -/
def execAtomMinN32 (vd : BitVec 7) (sb : BitVec 6) (vo : BitVec 8) (ord : BitVec 2) (s : State) : Host.Outcome State Fault Refusal :=
  runAtom s (operandsOk (.atomMinN32 vd sb vo ord)) .minN 4 vd sb vo ord

/-- atom.max.n32 (R242). -/
def execAtomMaxN32 (vd : BitVec 7) (sb : BitVec 6) (vo : BitVec 8) (ord : BitVec 2) (s : State) : Host.Outcome State Fault Refusal :=
  runAtom s (operandsOk (.atomMaxN32 vd sb vo ord)) .maxN 4 vd sb vo ord

/-- atom.and.b32 (R242). -/
def execAtomAndB32 (vd : BitVec 7) (sb : BitVec 6) (vo : BitVec 8) (ord : BitVec 2) (s : State) : Host.Outcome State Fault Refusal :=
  runAtom s (operandsOk (.atomAndB32 vd sb vo ord)) .and 4 vd sb vo ord

/-- atom.or.b32 (R242). -/
def execAtomOrB32 (vd : BitVec 7) (sb : BitVec 6) (vo : BitVec 8) (ord : BitVec 2) (s : State) : Host.Outcome State Fault Refusal :=
  runAtom s (operandsOk (.atomOrB32 vd sb vo ord)) .or 4 vd sb vo ord

/-- atom.xor.b32 (R242). -/
def execAtomXorB32 (vd : BitVec 7) (sb : BitVec 6) (vo : BitVec 8) (ord : BitVec 2) (s : State) : Host.Outcome State Fault Refusal :=
  runAtom s (operandsOk (.atomXorB32 vd sb vo ord)) .xor 4 vd sb vo ord

/-- atom.exch.b32 (R242). -/
def execAtomExchB32 (vd : BitVec 7) (sb : BitVec 6) (vo : BitVec 8) (ord : BitVec 2) (s : State) : Host.Outcome State Fault Refusal :=
  runAtom s (operandsOk (.atomExchB32 vd sb vo ord)) .exch 4 vd sb vo ord

/-- atom.exch.b64 (R242). -/
def execAtomExchB64 (vd : BitVec 7) (sb : BitVec 6) (vo : BitVec 8) (ord : BitVec 2) (s : State) : Host.Outcome State Fault Refusal :=
  runAtom s (operandsOk (.atomExchB64 vd sb vo ord)) .exch 8 vd sb vo ord

/-- atom.cas.b32 (R242). -/
def execAtomCasB32 (vd : BitVec 7) (sb : BitVec 6) (vo : BitVec 8) (ord : BitVec 2) (s : State) : Host.Outcome State Fault Refusal :=
  runAtom s (operandsOk (.atomCasB32 vd sb vo ord)) .cas 4 vd sb vo ord

/-- atom.cas.b64 (R242). -/
def execAtomCasB64 (vd : BitVec 7) (sb : BitVec 6) (vo : BitVec 8) (ord : BitVec 2) (s : State) : Host.Outcome State Fault Refusal :=
  runAtom s (operandsOk (.atomCasB64 vd sb vo ord)) .cas 8 vd sb vo ord

/-- The one offset of cst and of the scalar forms: an s register or a constant (R243, R244). -/
def scalarAddr (w : View) (sb : BitVec 6) (vo : BitVec 8) : W64 := w.gr.rs sb.toNat + globalOff w vo 0

/-- The lanes of cst: the active lanes' words, one after another (R243). -/
def cstLanes (w : View) (vd : BitVec 7) (sb : BitVec 6) (vo : BitVec 8) : List LaneAcc :=
  w.lanes.zipIdx.map fun (l, i) =>
    { lane := l, va := scalarAddr w sb vo + BitVec.ofNat 64 (4 * i), data := (w.gr.rv vd.toNat l).toNat }

/-- cst.b32 (R243): all-or-nothing. -/
def execCstB32 (vd : BitVec 7) (sb : BitVec 6) (vo : BitVec 8) (ord : BitVec 2) (s : State) : Host.Outcome State Fault Refusal :=
  runUnit s (fun w =>
      { reads := .s sb.toNat :: specRegs .int vo ++ [.v vd.toNat], ok := operandsOk (.cstB32 vd sb vo ord), mods := modScope
        surcharge := sectors 4 ((cstLanes w vd sb vo).map (·.va)) }) fun w =>
    accessLanes w { kind := .store, size := 4, rel := ordRel ord, scope := w.scope, aon := true } (cstLanes w vd sb vo)

/-- ld.s64 (R244): one access for the group, attributed to its lowest active lane. -/
def execLdS64 (vd sb : BitVec 6) (vo : BitVec 8) (ord : BitVec 2) (s : State) : Host.Outcome State Fault Refusal :=
  runUnit s (fun w =>
      { reads := .s sb.toNat :: specRegs .int vo, writes := [.s vd.toNat], ok := operandsOk (.ldS64 vd sb vo ord), mods := modScope
        surcharge := sectors 8 [scalarAddr w sb vo] }) fun w =>
    accessLanes w { kind := .load false, size := 8, dest := .scalar vd.toNat, acq := ordAcq ord, scope := w.scope, one := true }
      [{ lane := w.lanes.headD 0, va := scalarAddr w sb vo }]

/-- st.s64 (R244). -/
def execStS64 (vd sb : BitVec 6) (vo : BitVec 8) (ord : BitVec 2) (s : State) : Host.Outcome State Fault Refusal :=
  runUnit s (fun w =>
      { reads := .s sb.toNat :: specRegs .int vo ++ [.s vd.toNat], ok := operandsOk (.stS64 vd sb vo ord), mods := modScope
        surcharge := sectors 8 [scalarAddr w sb vo] }) fun w =>
    accessLanes w { kind := .store, size := 8, rel := ordRel ord, scope := w.scope, one := true }
      [{ lane := w.lanes.headD 0, va := scalarAddr w sb vo, data := (w.gr.rs vd.toNat).toNat }]

/-- prf (R245): each active lane counts as touching the whole line it names. -/
def execPrf (sb : BitVec 6) (vo : BitVec 8) (ord : BitVec 2) (s : State) : Host.Outcome State Fault Refusal :=
  let lines (w : View) : List (Nat × W64) := (globalAddrs w sb vo).map fun a => (a.1, a.2 &&& ~~~63#64)
  runUnit s (fun w =>
      { reads := .s sb.toNat :: specRegs .int vo, ok := operandsOk (.prf sb vo ord), imm := immUse [vo], mods := modScope
        surcharge := sectors 64 ((lines w).map (·.2)) }) fun w => do
    addTraffic w.t.launch (32 * sectors 64 ((lines w).map (·.2)))
    startAccess w { kind := .prf, size := 64, scope := w.scope } ((lines w).map fun a => { lane := a.1, va := a.2 }) []

end Sys2Proof.Machine
end

