-- ==== Sys2Proof/Machine/Sync.lean ====
section
/-! DEFINITION. The meanings of class 0xB: named barriers, fences, messages, tickets, ordered atomics, versioned accesses
(R254 to R262), and the arrival of a message (R108). -/

namespace Sys2Proof.Machine

variable {z : State}

/-! Named barriers (R254 to R256) -/

/-- BAR_MISUSE of an arrival. -/
def barCauses (w : View) (fn b c : Nat) (red : Option RedKind) : List Detail :=
  let x := barrierOf w.s w.eid b
  let differs := match red, x.red with
    | some k, some k' => k != k'
    | _, _ => false
  if w.t.shape.groups < c || (c ≠ 0 && sharedBarrier w.s w.eid b) || (!x.arrived.isEmpty && x.count ≠ c) || differs then
    [barMisuse fn (BitVec.ofNat 64 b)]
  else []

/-- An arrival word: `red` names the reduction with its source and destination, `sync` whether it waits. -/
def runBar (z : State) (fn : Nat) (c : BitVec 6) (b : BitVec 4) (red : Option (RedKind × BitVec 6 × BitVec 6)) (sync : Bool) :
    Host.Outcome State Fault Refusal :=
  runUnit z (fun w =>
      { reads := (red.map fun r => [sreg r.2.1]).getD [], writes := (red.map fun r => [sreg r.2.2]).getD []
        ok := c.ult 33, surcharge := if red.isSome then 1 else 0, mask := if red.isSome then .acts else .ignores
        raises := barCauses w fn b.toNat c.toNat (red.map (·.1)), waits := !w.gr.drained }) fun w => do
    let x := barrierOf w.s w.eid b.toNat
    let r : Option (RedKind × Nat × Nat) := red.map fun r => (r.1, r.2.1.toNat, r.2.2.toNat)
    if x.arrived.contains w.g then
      modGroup w.g fun gr => { gr with hold := some (.rearrive b.toNat c.toNat x.phase r sync) }
      pure .parked
    else
      if sync then
        modGroup w.g fun gr =>
          { gr with hold := some (.barrier b.toNat c.toNat x.phase (r.map (·.1)) ((r.map (·.2.2)).getD 0)) }
      arrive w.g b.toNat c.toNat (r.map fun r => (r.1, (w.gr.rs r.2.1).extractLsb' 0 32))
        (if sync then some (r.map (·.2.2)) else none)
      let gr ← getGroup w.g
      match gr.hold with
      | some (.barrier ..) => pure .parked
      | _ =>
        modGroup w.g fun gr => { gr with hold := none }
        pure .seq

/-- bar.sync (R255). -/
def execBarSync (c : BitVec 6) (i : BitVec 4) (s : State) : Host.Outcome State Fault Refusal := runBar s 0x00 c i none true

/-- bar.arr (R255). -/
def execBarArr (c : BitVec 6) (i : BitVec 4) (s : State) : Host.Outcome State Fault Refusal := runBar s 0x01 c i none false

/-- bar.red.add.i32 (R256). -/
def execBarRedAddI32 (c y z : BitVec 6) (i : BitVec 4) (s : State) : Host.Outcome State Fault Refusal :=
  runBar s 0x02 c i (some (.addI32, y, z)) true

/-- bar.red.add.f32 (R256). -/
def execBarRedAddF32 (c y z : BitVec 6) (i : BitVec 4) (s : State) : Host.Outcome State Fault Refusal :=
  runBar s 0x03 c i (some (.addF32, y, z)) true

/-- bar.red.max.i32 (R256). -/
def execBarRedMaxI32 (c y z : BitVec 6) (i : BitVec 4) (s : State) : Host.Outcome State Fault Refusal :=
  runBar s 0x04 c i (some (.maxI32, y, z)) true

/-- bar.red.min.i32 (R256). -/
def execBarRedMinI32 (c y z : BitVec 6) (i : BitVec 4) (s : State) : Host.Outcome State Fault Refusal :=
  runBar s 0x05 c i (some (.minI32, y, z)) true

/-- bar.red.and (R256). -/
def execBarRedAnd (c y z : BitVec 6) (i : BitVec 4) (s : State) : Host.Outcome State Fault Refusal :=
  runBar s 0x06 c i (some (.and, y, z)) true

/-- bar.red.or (R256). -/
def execBarRedOr (c y z : BitVec 6) (i : BitVec 4) (s : State) : Host.Outcome State Fault Refusal :=
  runBar s 0x07 c i (some (.or, y, z)) true

/-! Fence (R121, R257) -/

/-- fence: the group waits at it until everything earlier is performed and returned. -/
def execFence (sc : BitVec 4) (s : State) : Host.Outcome State Fault Refusal :=
  runUnit s (fun _ => { ok := sc.ult 5, mask := .ignores }) fun w => do
    if w.gr.drained then
      fenceDone w.g sc.toNat
      pure .seq
    else
      modGroup w.g fun gr => { gr with hold := some (.fence sc.toNat) }
      pure .parked

/-! Messages (R106 to R112, R258, R259) -/

def misalignGroup (size : Nat) (v : Nat) : List Detail :=
  if v % size = 0 then [] else [{ cause := Cause.misalign, code := BitVec.ofNat 16 size, value := BitVec.ofNat 64 v }]

def outsideSpad (t : Team) (off n : Nat) : List Detail :=
  if spInside t off n then [] else [{ cause := Cause.scratchOob, value := BitVec.ofNat 64 off }]

/-- Slots of a payload of L bytes. -/
def msgSlots (len : Nat) : Nat := max 1 (ceilDiv (len + 8) 64)

/-- msend (R258). -/
def execMsend (x y z : BitVec 6) (s : State) : Host.Outcome State Fault Refusal :=
  let len (w : View) : Nat := (w.gr.rs z.toNat).toNat
  let dest (w : View) : Nat := (w.gr.rs x.toNat).toNat
  runUnit s (fun w =>
      { reads := [sreg x, sreg y, sreg z], mods := modScope
        raises := if 248 < len w || bitsOf (dest w) 31 24 ≠ 0 then
          [{ cause := Cause.illOperand, value := w.firstWord.zeroExtend 64, word := fetchAt w.s w.core w.gr.slot w.wordPc }] else []
        surcharge := msgSlots (len w), waits := !w.gr.drained || 8 ≤ w.gr.outbox.length }) fun w => do
    let hdr := dest w / 2 ^ 32
    let tag := dest w % 2 ^ 24
    let off := w.low y
    let ds := misalignGroup 64 hdr ++ outsideSpad w.t off (len w)
    if !ds.isEmpty then raise ds
    else
      let seq := ((w.t.rings.find? fun r => r.1 = tag && r.2.1 = hdr).map (·.2.2)).getD 0
      modTeam w.eid fun t =>
        { t with rings := (tag, hdr, (seq + 1) % 2 ^ 32) :: t.rings.filter fun r => !(r.1 = tag && r.2.1 = hdr) }
      modGroup w.g fun gr => { gr with outbox := gr.outbox ++
        [{ ctx := w.t.ctx, dst := tag, off := hdr, src := w.t.tag, seq := seq, slots := msgSlots (len w)
           payload := spBytes w.t off (len w), scope := w.scope, clock := w.gr.release w.g
           poison := ((List.range (len w)).filter fun i => spPoisoned w.t (off + i) 1).foldl NSet.add [] }] }
      pure .seq

/-- A ring header (R106). -/
structure Ring where
  head : Nat
  tail : Nat
  logn : Nat
  slots : Nat
  prod : Nat
  en : Bool
  wmode : Nat
  wobj : Nat
  drops : Nat
  bad : Bool          -- a reserved field that is not zero
  deriving DecidableEq, Repr

def readRing (v : Nat) : Ring where
  head := bitsOf v 31 0
  tail := bitsOf v 63 32
  logn := bitsOf v 67 64
  slots := bitsOf v 127 96
  prod := bitsOf v 151 128
  en := bitOf v 160
  wmode := bitsOf v 162 161
  wobj := bitsOf v 223 192
  drops := bitsOf v 255 224
  bad := bitsOf v 511 256 ≠ 0 || bitsOf v 191 163 ≠ 0 || bitsOf v 159 152 ≠ 0 || bitsOf v 95 68 ≠ 0

/-- Slots written and not released. -/
def Ring.used (r : Ring) : Nat := (r.tail + 2 ^ 32 - r.head) % 2 ^ 32

/-- Whether the ring drops a message of `src` (R108). -/
def Ring.drops? (r : Ring) (t : Team) (src : Nat) : Bool :=
  !r.en || r.bad || 12 < r.logn || r.wmode = 3 || !spInside t r.slots (64 * 2 ^ r.logn) || 2 ^ r.logn < r.used || src ≠ r.prod

/-- The bytes of a message's slots (R107). -/
def Message.bytes (m : Message) : List Byte :=
  let h := natBytes (m.slots - 1 + m.src * 256 + m.seq * 2 ^ 32) 8 ++ m.payload
  h ++ List.replicate (64 * m.slots - h.length) 0

/-- Writes the slots of a message from counter value `c` on. -/
def writeSlots (e : Nat) (r : Ring) (m : Message) : M z Unit :=
  forEach (List.range m.slots) fun i => do
    let off := r.slots + 64 * ((r.tail + i) % 2 ^ r.logn)
    spStore sysParty e off ((m.bytes.drop (64 * i)).take 64)
    modTeam e fun t =>
      { t with spadPoison := (SMap.keys m.poison).foldl (fun p k =>
          if 64 * i ≤ k + 8 && k + 8 < 64 * i + 64 then PSet.add p ((off + (k + 8 - 64 * i)) / 8) else p) t.spadPoison }

/-- The wake action of a ring (R108) by a message that releases `c`. -/
def wakeRing (e : Nat) (r : Ring) (c : Clock) : M z Unit := do
  let t ← getTeam e
  if r.wmode = 1 then (if spInside t r.wobj 8 then arriveObj e r.wobj [] else pure ())
  else if r.wmode = 2 then
    let _ ← lowerCount t.ctx (r.wobj % 2 ^ 24) c
  else pure ()

/-- Message `n` was sent before message `m`: sequence numbers wrap (R107). -/
def Message.before (n m : Message) : Bool :=
  let d := (m.seq + 2 ^ 32 - n.seq) % 2 ^ 32
  1 ≤ d && d < 2 ^ 31

/-- Whether an earlier message of the sender's team to the same ring is not yet written (R109). -/
def earlierMessage (s : State) (g : Nat) (m : Message) : Bool :=
  (s.teamGroups (groupTeam g)).any fun h =>
    match s.group? h with
    | some gr => gr.outbox.any fun n => n.dst == m.dst && n.off == m.off && n.before m
    | none => false

/-- What a written message's sender released is kept with its ring (R111, R122). -/
def noteMessage (g e : Nat) (m : Message) : M z Unit := do
  let r : Release := { party := partyOf (← getS) g, scope := m.scope, clock := m.clock }
  modTeam e fun t =>
    let old := (SMap.look [] t.ringRels m.off).filter fun x => !(x.party.id == g && x.scope == m.scope)
    { t with ringRels := SMap.put t.ringRels m.off (old ++ [r]) }

/-- A wring that returns is an acquire (R111, R122). -/
def acquireRing (g off scope : Nat) : M z Unit := do
  let s ← getS
  let t ← getTeam (groupTeam g)
  acquire g scope
  orderAfter g (followed (partyOf s g) scope (SMap.look [] t.ringRels off))

/-- The offer of a message to its ring (R108): dropped, refused (nothing happens), or written. -/
def offerMessage (g idx : Nat) : M z Unit := do
  let gr ← getGroup g
  let m ← need gr.outbox[idx]?
  let s ← getS
  guardS (!earlierMessage s g m)
  let gone : M z Unit := modGroup g fun gr => { gr with outbox := gr.outbox.eraseIdx idx }
  match findTag s m.ctx m.dst with
  | none => gone
  | some e => do
    let t ← getTeam e
    if t.state == .unwinding then gone
    else
      guardS (t.core.isSome && t.state != .notBegun)
      if !spInside t m.off 64 then gone
      else
        let r := readRing (spNat t m.off 64)
        if r.drops? t m.src then
          spStore sysParty e (m.off + 28) (natBytes (min (r.drops + 1) 0xFFFFFFFF) 4)
          gone
        else
          guardS (r.used + m.slots ≤ 2 ^ r.logn)
          let _ ← journalAt t.launch
            { point := pointOfCore (t.core.getD 0), typ := JType.msg, sys := true, src := m.src, seq := m.seq, obj := m.off }
          writeSlots e r m
          spStore sysParty e (m.off + 4) (natBytes ((r.tail + m.slots) % 2 ^ 32) 4)
          noteMessage g e m
          gone
          wakeRing e r m.clock

/-- TAIL of the ring at an offset, where it is ahead of `head` (R259). -/
def ringAhead (t : Team) (off : Nat) (head : W32) : Option Nat :=
  let tail := spNat t (off + 4) 4
  let d := (tail + 2 ^ 32 - head.toNat) % 2 ^ 32
  if 1 ≤ d && d < 2 ^ 31 then some tail else none

/-- wring (R259). -/
def execWring (x y z : BitVec 6) (s : State) : Host.Outcome State Fault Refusal :=
  runUnit s (fun w =>
      { reads := [sreg y, sreg z], writes := [sreg x], mods := modScope, mask := .ignores, waits := spadHeld w }) fun w => do
    let off := w.low y
    let head := (w.gr.rs z.toNat).extractLsb' 0 32
    let ds := misalignGroup 64 off ++ outsideSpad w.t off 64
    if !ds.isEmpty then raise ds
    else match ringAhead w.t off head with
      | some tail => do
        modGroup w.g fun gr => gr.setS x.toNat (BitVec.ofNat 64 tail)
        acquireRing w.g off w.scope
        pure .seq
      | none => do
        modGroup w.g fun gr => { gr with hold := some (.ring x.toNat off head w.scope) }
        pure .parked

/-! Tickets (R152, R260) -/

/-- Ticket object `j` of a team's grid. -/
def ticketOf (s : State) (t : Team) (j : Nat) : Option Ticket :=
  match s.grid? t.grid with
  | some gd => gd.tickets[j]?
  | none => none

/-- TICKET_VOID (R339). -/
def voidDetail (j : Nat) (k : Ticket) : Detail :=
  { cause := Cause.ticketVoid, code := BitVec.ofNat 16 j, value := BitVec.ofNat 64 k.vtidx }

/-- BAR_MISUSE of a ticket word: no such object, or `again` holds. -/
def ticketCauses (w : View) (fn : Nat) (j : BitVec 4) (again : Bool) : List Detail :=
  if (ticketOf w.s w.t j.toNat).isNone || again then [barMisuse fn (BitVec.ofNat 64 j.toNat)] else []

/-- tkt.take (R152, R260). -/
def execTktTake (j : BitVec 4) (s : State) : Host.Outcome State Fault Refusal :=
  runUnit s (fun w =>
      { ok := j.ult 2, mask := .ignores, raises := ticketCauses w 0x0B j (w.t.took.contains j.toNat) }) fun w => do
    let k ← need (ticketOf w.s w.t j.toNat)
    if k.void then raise [voidDetail j.toNat k]
    else
      modTeam w.eid fun t => { t with took := t.took ++ [j.toNat] }
      if k.next = w.t.tidx then
        acquire w.g 3
        orderAfter w.g k.clock
        pure .seq
      else
        modGroup w.g fun gr => { gr with hold := some (.ticket j.toNat) }
        pure .parked

/-- tkt.skip (R152, R260): a release where it gives up the turn. -/
def execTktSkip (j : BitVec 4) (s : State) : Host.Outcome State Fault Refusal :=
  runUnit s (fun w =>
      { ok := j.ult 2, mask := .ignores, raises := ticketCauses w 0x0C j (w.t.passed.contains j.toNat)
        waits := w.t.took.contains j.toNat && !w.gr.drained }) fun w => do
    let k ← need (ticketOf w.s w.t j.toNat)
    let _ ← journalGroup w.g pointTaskUnit JType.ticket k.va
    passTicket w.eid j.toNat false (if w.t.took.contains j.toNat then w.gr.release w.g else [])
    pure .seq

/-! Ordered atomics (R131, R132, R261) -/

def atomoAddrs (w : View) (x y : BitVec 6) : List (Nat × W64) :=
  w.lanes.map fun l => (l, w.gr.rs x.toNat + (w.gr.rv y.toNat l).signExtend 64)

/-- atomo: a contribution per active lane in phase mode, else the atomic it names without a result. -/
def runAtomo (z : State) (i64 : Bool) (x y v : BitVec 6) : Host.Outcome State Fault Refusal :=
  let size := if i64 then 8 else 4
  runUnit z (fun w =>
      { reads := sreg x :: .v y.toNat :: dataRegs v.toNat size, ok := !i64 || v.getLsbD 0 == false
        surcharge := sectors size ((atomoAddrs w x y).map (·.2)) + w.lanes.length }) fun w =>
    accessLanes w { kind := if w.phm then .atomo i64 else .atom (if i64 then .addI else .addF32), size := size, scope := 3, aon := true }
      ((atomoAddrs w x y).map fun a => { lane := a.1, va := a.2, data := laneData w.gr v.toNat (size / 4) a.1 })

/-- atomo.add.f32 (R261). -/
def execAtomoAddF32 (x y z : BitVec 6) (s : State) : Host.Outcome State Fault Refusal := runAtomo s false x y z

/-- atomo.add.i64 (R261). -/
def execAtomoAddI64 (x y z : BitVec 6) (s : State) : Host.Outcome State Fault Refusal := runAtomo s true x y z

/-! Versioned accesses (R130, R262) -/

/-- vst.ver and ld.ver: the lanes' words of one line, and the causes found without translation. -/
def runVer (z : State) (store : Bool) (x y v : BitVec 6) : Host.Outcome State Fault Refusal :=
  let addr (w : View) (l : Nat) : W64 := w.gr.rs x.toNat + BitVec.ofNat 64 (4 * l)
  runUnit z (fun w =>
      { reads := sreg x :: (if store then [sreg y, .v v.toNat] else []), writes := sreg y :: (if store then [] else [.v v.toNat])
        mods := modScope, surcharge := sectors 4 (w.lanes.map (addr w)) }) fun w => do
    let line := w.gr.rs x.toNat
    let e := w.gr.rs y.toNat
    let l0 := w.lanes.headD 0
    let pre : List Detail := (if line.toNat % 64 = 0 then [] else [laneDetail Cause.misalign l0 64 (addr w l0)]) ++
      (w.lanes.filter (16 ≤ ·)).map (fun l => laneDetail Cause.verFault l 0 (addr w l)) ++
      (if store && e.toNat / 2 ^ 16 ≠ 0 then [laneDetail Cause.verFault l0 0 (addr w l0)] else [])
    addTraffic w.t.launch (32 * sectors 4 (w.lanes.map (addr w)))
    startAccess w
      { kind := if store then .vstVer else .ldVer, size := 4, dest := if store then .none else .vec v.toNat, aon := true
        rel := store, scope := w.scope, status := y.toNat }
      ((w.lanes.filter (· < 16)).map fun l =>
        { lane := l, va := addr w l, data := (w.gr.rv v.toNat l).toNat, cmp := e.toNat % 65536 })
      pre

/-- vst.ver (R262). -/
def execVstVer (x y z : BitVec 6) (s : State) : Host.Outcome State Fault Refusal := runVer s true x y z

/-- ld.ver (R262). -/
def execLdVer (x y z : BitVec 6) (s : State) : Host.Outcome State Fault Refusal := runVer s false x y z

end Sys2Proof.Machine
end

