-- ==== Sys2Proof/Machine/Task.lean ====
section
/-! DEFINITION. The task unit: spawn descriptors and grids (R281 to R287), records of grids (R290 to R293), retirement
(R144), phases (R154 to R157), and the meanings of class 0xD. -/

namespace Sys2Proof.Machine

variable {z : State}

/-! Descriptors (R281 to R283) -/

structure SpawnDesc where
  off : Nat
  ovid : Nat
  pol : Bool
  phm : Bool
  nbh : Bool
  idem : Bool
  tcls : Nat
  teams : Nat
  g : Nat
  pg : Nat
  vp : Nat
  vc : Nat
  spad : Nat
  obuf : Nat
  grant : Nat
  argp : W64
  depw : Nat
  tktn : Nat
  tkt : List W64
  regions : List Region
  reserved : Bool      -- a reserved field is not zero
  deriving DecidableEq, Repr

def readSpawn (v : Nat) : SpawnDesc where
  off := bitsOf v 15 0
  ovid := bitsOf v 31 16
  pol := bitOf v 32
  phm := bitOf v 33
  nbh := bitOf v 34
  idem := bitOf v 35
  tcls := bitsOf v 37 36
  teams := bitsOf v 95 64
  g := bitsOf v 103 96
  pg := bitsOf v 111 104
  vp := bitsOf v 119 112
  vc := bitsOf v 127 120
  spad := bitsOf v 159 128
  obuf := bitsOf v 191 160
  grant := bitsOf v 255 192
  argp := BitVec.ofNat 64 (bitsOf v 319 256)
  depw := bitsOf v 335 320
  tktn := bitsOf v 353 352
  tkt := [BitVec.ofNat 64 (bitsOf v 447 384), BitVec.ofNat 64 (bitsOf v 511 448)]
  regions := (List.range 4).map fun n =>
    { base := bitsOf v (128 * n + 575) (128 * n + 512), len := bitsOf v (128 * n + 623) (128 * n + 576)
      mode := bitsOf v (128 * n + 639) (128 * n + 624) }
  reserved := bitsOf v 63 38 ≠ 0 || bitsOf v 351 336 ≠ 0 || bitsOf v 383 354 ≠ 0

/-- A budget field: 0 means 128. -/
def budgetOf (n : Nat) : Nat := if n = 0 then 128 else n

/-- The operand-buffer word (R263): quota and banks. -/
def obufQuota (o : Nat) : Nat := bitsOf o 19 0
def obufBanks (o : Nat) : Nat := if obufQuota o = 0 then 0 else if bitsOf o 22 20 = 0 then 1 else bitsOf o 22 20

/-- The code of R283 for the rows FORMAT, ENTRY, SHAPE and TICKET without its objects; 0 where none fails. `onum` counts
the directory's entries. -/
def descCode (d : SpawnDesc) (onum : Nat) : Nat :=
  let badRegion := d.regions.any fun r => 3 < r.mode || (r.mode = 0 && (r.base ≠ 0 || r.len ≠ 0))
  let badTicket := d.tkt.zipIdx.any fun (a, i) => d.tktn ≤ i && a ≠ 0
  if d.reserved || badRegion || badTicket then 2
  else if 0x4000 ≤ d.off || d.ovid = 0xFFFF || onum ≤ d.ovid then 3
  else if d.teams = 0 || (if d.nbh then 24 else 65536) < d.teams || d.g = 0 || 32 < d.g || d.g < d.pg || 128 < d.vc ||
      (d.pg ≠ 0 && 128 < d.vp) || d.spad % 256 ≠ 0 || 262144 < d.spad || bitsOf d.obuf 31 23 ≠ 0 ||
      obufQuota d.obuf % 4096 ≠ 0 || 524288 < obufQuota d.obuf || 4 < bitsOf d.obuf 22 20 then 4
  else if d.tktn = 3 then 5
  else 0

/-- The ticket objects a descriptor names. -/
def SpawnDesc.tickets (d : SpawnDesc) : List W64 := d.tkt.take d.tktn

/-- Whether a translated ticket object keeps R151. -/
def ticketOk (s : State) (a : LaneAcc) : Bool :=
  a.va.toNat % 16 = 0 && !a.chk && a.mt ≤ 1 && Memory.readNat s.mem a.pa 16 = 0

def SpawnDesc.shape (d : SpawnDesc) : Shape where
  groups := d.g
  producers := d.pg
  vp := budgetOf d.vp
  vc := budgetOf d.vc
  spad := d.spad
  obuf := d.obuf
  ovid := d.ovid
  off := d.off
  argp := d.argp
  idem := d.idem
  depw := d.depw
  pol := d.pol

/-! Tags, entries and grids (R134, R143, R284) -/

/-- The tags of a context's kept teams. -/
def usedTags (s : State) (ctx : Nat) : List Nat := (s.teams.filter fun e => e.2.ctx = ctx).map (·.2.tag)

def tagRunFree (used : List Nat) (c n : Nat) : Bool :=
  1 ≤ c && c + n ≤ 0x1000000 && used.all fun t => t < c || c + n ≤ t

/-- A free run of tags: which one is the task unit's choice, so a free value chooses, and the lowest stands where it names
none (log entry 5). -/
def chooseTags (s : State) (ctx n : Nat) : Option Nat :=
  let used := usedTags s ctx
  let hint := (Config.freeWord s.free).toNat % 0x1000000
  if tagRunFree used hint n then some hint
  else ((1 :: used.map (· + 1)).filter fun c => tagRunFree used c n).foldl
    (fun best c => match best with | some b => some (min b c) | none => some c) none

/-- Free team entries of the device. -/
def freeEntries (s : State) : List Nat := (List.range 65536).filter fun e => (s.team? e).isNone

/-- Creates a grid with its teams, not begun (R143, R284, R286); `start` is what its creation releases (R122). -/
def createGrid (ctx launch : Nat) (parent : Option Nat) (d : SpawnDesc) (tag0 : Nat) (tickets : List LaneAcc) (start : Clock) :
    M z Nat := do
  let gid ← freshId
  let s ← getS
  let eids := (freeEntries s).take d.teams
  let (ptag, path) := (match parent with
    | some p => (match s.team? p with
      | some t => (t.tag, match s.grid? t.grid with
          | some gd => gd.path ++ [(t.tidx, t.spawnsInPhase)]
          | none => [])
      | none => (0, []))
    | none => (0, []))
  let share := d.grant / d.teams
  forEach eids.zipIdx fun (e, i) =>
    let tm : Team :=
      { ctx := ctx, tag := tag0 + i, ptag := ptag, parent := parent, grid := gid, launch := launch, tidx := i, shape := d.shape
        wait := d.depw
        al := BitVec.ofNat 64 (share + if i = 0 then d.grant % d.teams else 0)
        share := BitVec.ofNat 64 (share + if i = 0 then d.grant % d.teams else 0) }
    modS fun s => { s with teams := SMap.put s.teams e tm }
  let gd : Grid :=
    { ctx := ctx, launch := launch, parent := parent, tag0 := tag0, count := d.teams, teams := eids, nbh := d.nbh
      tickets := tickets.map fun a => { addr := a.pa, va := a.va.toNat }, regions := d.regions, path := path, order := gid
      start := start }
  modS fun s => { s with grids := SMap.put s.grids gid gd }
  match parent with
  | some p => modTeam p fun t =>
      { t with children := t.children ++ [gid], spawned := true, spawnsInPhase := t.spawnsInPhase + 1 }
  | none => pure ()
  pure gid

def gridDone (s : State) (gd : Grid) : Bool :=
  gd.teams.all fun e => match s.team? e with
    | some t => t.state == .done
    | none => true

/-- Entries of grids no record keeps are free once their messages are written (R109, R290). -/
def sweep : M z Unit := do
  let s ← getS
  forEach s.grids fun (gid, gd) => do
    let s ← getS
    let quiet := gd.teams.all fun e => (s.teamGroups e).all fun g =>
      match s.group? g with
      | some gr => gr.outbox.isEmpty
      | none => true
    if !gd.kept && quiet then
      modS fun s =>
        { s with
          groups := gd.teams.foldl (fun m e => (s.teamGroups e).foldl SMap.del m) s.groups
          teams := gd.teams.foldl SMap.del s.teams
          grids := SMap.del s.grids gid }

/-- MESSAGE_ARRIVAL (R108). -/
def execMessageArrival (g idx : Nat) (s : State) : Host.Outcome State Fault Refusal :=
  runM s (do
    offerMessage g idx
    sweep)

/-- The record of a grid is no longer kept. -/
def dropRecord (gid : Nat) : M z Unit := modGrid gid fun gd => { gd with kept := false }

/-! spawn (R283, R284) -/

/-- What spawn finds when it presents: a rejection code, or the descriptor with its ticket objects and, in replay, the
recorded TAG0. -/
structure SpawnPlan where
  code : Nat
  d : SpawnDesc
  tickets : List LaneAcc
  tag0 : Nat

/-- Translates and checks the ticket objects: none where one fails (code 5). -/
def spawnTickets (w : View) : List W64 → M z (Pre (Option (List LaneAcc)))
  | [] => pure (.ok (some []))
  | a :: as => do
    match ← issueXlate w Kind.read a with
    | .bad _ => pure (.ok none)
    | .wait va wt => pure (.wait va wt)
    | .ok x => do
      let s ← getS
      guardS (!sysWaits s x)
      if !ticketOk s x then pure (.ok none)
      else preBind (spawnTickets w as) fun r => pure (.ok (r.map (x :: ·)))

/-- The event an accepted spawn presents (R351). -/
def spawnEvent (w : View) (tag0 n : Nat) : JEvent :=
  { point := pointTaskUnit, typ := JType.spawn, sys := false, src := w.t.tag
    seq := w.gidx * 2 ^ 27 + w.gr.journalCount % 2 ^ 27, obj := tag0 + n * 2 ^ 32 }

/-- R388: in replay the record at HEAD gives TAG0 once its run is free; none where the launch has diverged or was aborted, and
the task unit draws. A divergence is raised at the unit. -/
def replayTags (w : View) (l : Launch) (n : Nat) : M z (Pre (Option Nat)) := do
  let e := spawnEvent w 0 n
  let m : M z (Option Nat) := do
    match ← headRecord l.ctx l.rcd pointTaskUnit ringFuel with
    | .record _ v =>
      if e.matches v then
        let tag0 := bitsOf v 23 0
        if tagRunFree (usedTags (← getS) w.t.ctx) tag0 n then pure (some tag0) else waitsTurn w.t.launch e
      else
        let _ ← replayAdmit w.t.launch l.ctx l.rcd e []
        pure none
    | _ =>
      let _ ← replayAdmit w.t.launch l.ctx l.rcd e []
      pure none
  match ← attempt (atPoint w.t.launch e.hold none m) with
  | .error (.trap ds _) => pure (.bad ds)
  | .error e => fun _ => .error e
  | .ok r => pure (.ok r)

/-- The checks and holds of spawn (R283, R284). -/
def planSpawn (w : View) (off : Nat) : M z (Pre SpawnPlan) := do
  let v := spNat w.t off 128
  let d := readSpawn v
  let reject (c : Nat) : M z (Pre SpawnPlan) := pure (.ok { code := c, d := d, tickets := [], tag0 := 0 })
  let l ← getLaunch w.t.launch
  if off % 64 ≠ 0 || !spInside w.t off 128 then reject 1
  else if descCode d l.onum ≠ 0 then reject (descCode d l.onum)
  else preBind (spawnTickets w d.tickets) fun ts => do
    match ts with
    | none => reject 5
    | some ts => do
      let s ← getS
      let live := (w.t.children.filter fun c => match s.grid? c with | some gd => !gridDone s gd | none => false).length
      guardS (live < 64 && d.teams ≤ (freeEntries s).length)
      let ok (tag0 : Nat) : M z (Pre SpawnPlan) := pure (.ok { code := 0, d := d, tickets := ts, tag0 := tag0 })
      let drawn : M z (Pre SpawnPlan) := do
        let tag0 ← need (chooseTags (← getS) w.t.ctx d.teams)
        ok tag0
      if l.journal = 2 then
        preBind (replayTags w l d.teams) fun r => match r with
          | some tag0 => ok tag0
          | none => drawn
      else drawn

def gridWord (tag0 n : Nat) : W64 := BitVec.ofNat 64 (tag0 + n * 2 ^ 32)

/-- spawn (R284). -/
def execSpawn (x y : BitVec 6) (s : State) : Host.Outcome State Fault Refusal :=
  runStaged s (fun w => { reads := [sreg y], writes := [sreg x], mask := .ignores, waits := !w.gr.drained })
    (fun w => planSpawn w (w.low y)) (fun _ p => if p.code = 0 then 3 + p.d.teams else 0)
    (fun w p => do
      if p.code ≠ 0 then
        modGroup w.g fun gr => gr.setS x.toNat (BitVec.ofNat 64 (2 ^ 63 + p.code))
        pure .seq
      else
        let _ ← journalGroup w.g pointTaskUnit JType.spawn (p.tag0 + p.d.teams * 2 ^ 32)
        modS fun s => { s with free := s.free + 1 }
        let _ ← createGrid w.t.ctx w.t.launch (some w.eid) p.d p.tag0 p.tickets (w.gr.release w.g)
        modGroup w.g fun gr => gr.setS x.toNat (gridWord p.tag0 p.d.teams)
        pure .seq)
    (fun _ p => if p.code = 0 then p.d.grant else 0)

/-! Node queues (R288, R289, R314) -/

/-- The address of record `c` of a bound queue. -/
def NodeQueue.slot (q : NodeQueue) (c : Nat) : W64 := BitVec.ofNat 64 (q.sbase + 256 * (c % 2 ^ q.logc))

def modNode (ctx nq : Nat) (f : NodeQueue → NodeQueue) : M z Unit :=
  modCtx ctx fun c => { c with queues := SMap.adjust c.queues nq f }

/-- Where the task unit reaches a record; storage it cannot reach holds the word. -/
def nodeSlot (ctx : Nat) (q : NodeQueue) (c kind : Nat) : M z LaneAcc := do
  match ← sysXlate ctx q.rcd kind (q.slot c) with
  | .error _ => stay
  | .ok a => pure a

/-- Line `i` of a record of 256 bytes. -/
def LaneAcc.line (a : LaneAcc) (i : Nat) : LaneAcc := { a with pa := a.pa + 64 * i }

/-- The record's bytes, line by line. -/
def loadRecord (a : LaneAcc) : M z (List Byte) := do
  let ls ← mapEach (List.range 4) fun i => sysLoad (a.line i) 64
  pure ls.flatten

/-- Writes a whole record, line by line. -/
def storeRecord (a : LaneAcc) (bytes : List Byte) : M z Unit :=
  forEach (List.range 4) fun i => sysStore (a.line i) ((bytes.drop (64 * i)).take 64)

/-- QAPP of a spawnq or a qpop (R351). -/
def journalQueue (g nq len : Nat) (pop : Bool) : M z Unit := do
  let _ ← journalGroup g pointTaskUnit JType.qapp (nq + len * 2 ^ 32 + if pop then 2 ^ 63 else 0)

/-- spawnq (R288). -/
def execSpawnq (x y z : BitVec 6) (s : State) : Host.Outcome State Fault Refusal :=
  let len (w : View) : Nat := bitsOf (w.gr.rs y.toNat).toNat 47 32
  let bad (w : View) : Bool :=
    len w = 0 || 256 < len w || bitsOf (w.gr.rs y.toNat).toNat 63 48 ≠ 0 || bitsOf (w.gr.rs y.toNat).toNat 31 12 ≠ 0
  runUnit s (fun w =>
      { reads := [sreg y, sreg z], writes := [sreg x], mask := .ignores
        surcharge := if bad w then 2 else 2 + ceilDiv (len w) 64, waits := !w.gr.drained }) fun w => do
    let nq := bitsOf (w.gr.rs y.toNat).toNat 11 0
    let off := w.low z
    let answer (v : Nat) : M s Flow := do
      modGroup w.g fun gr => gr.setS x.toNat (BitVec.ofNat 64 v)
      pure .seq
    let ds := misalignGroup 8 off ++ (if bad w then [] else outsideSpad w.t off (len w))
    if !ds.isEmpty then raise ds
    else if bad w then answer 3
    else match SMap.get? (w.s.ctx w.t.ctx).queues nq with
      | none => answer 2
      | some q =>
        if 2 ^ q.logc ≤ q.lens.length then answer 1
        else do
          let a ← nodeSlot w.t.ctx q (q.head + q.lens.length) Kind.write
          journalQueue w.g nq (len w) false
          let rest ← mapEach (List.range (256 - len w)) fun _ => freeByte
          storeRecord a (spBytes w.t off (len w) ++ rest)
          modNode w.t.ctx nq fun q => { q with lens := q.lens ++ [len w], clocks := q.clocks ++ [w.gr.release w.g] }
          answer 0

/-- qpop (R289). -/
def execQpop (x y z : BitVec 6) (s : State) : Host.Outcome State Fault Refusal :=
  runUnit s (fun w => { reads := [sreg y, sreg z], writes := [sreg x], mask := .ignores, waits := spadHeld w }) fun w => do
    let nq := bitsOf (w.gr.rs y.toNat).toNat 11 0
    let off := w.low z
    let answer (v : Nat) : M s Flow := do
      modGroup w.g fun gr => gr.setS x.toNat (BitVec.ofNat 64 v)
      pure .seq
    if !(misalignGroup 8 off).isEmpty then raise (misalignGroup 8 off)
    else match SMap.get? (w.s.ctx w.t.ctx).queues nq with
      | none => answer 0
      | some q => match q.lens with
        | [] => answer 0
        | len :: lens => do
          if !(outsideSpad w.t off len).isEmpty then raise (outsideSpad w.t off len)
          else
            let a ← nodeSlot w.t.ctx q q.head Kind.read
            journalQueue w.g nq len true
            let bytes ← loadRecord a
            spStore sysParty w.eid off (bytes.take len)
            forEach (List.range (ceilDiv len 32)) fun i => do
              if sectorBad (← getS).home (a.pa / 32 + i) then
                modTeam w.eid fun t => { t with spadPoison := addGranules t.spadPoison (off + 32 * i) (min 32 (len - 32 * i)) }
            modNode w.t.ctx nq fun q => { q with head := (q.head + 1) % 2 ^ 32, lens := lens, clocks := q.clocks.drop 1 }
            acquire w.g 3
            orderAfter w.g (q.clocks.headD [])
            answer len

/-! Watching children (R290 to R292) -/

/-- The status word of a team. -/
def teamStatus (t : Team) : Nat :=
  let st := match t.state with
    | .done => 3
    | .unwinding => 2
    | .notBegun => 0
    | _ => if t.pendingCost.isSome then 1 else 0
  st + (if t.exh then 0x10 else 0) + (if t.unwound then 0x20 else 0) + (if t.state == .notBegun then 0x40 else 0)

/-- A kept child grid of a team by its grid word. -/
def childGrid (s : State) (e : Nat) (word : W64) : Option (Nat × Grid) :=
  s.grids.find? fun g => g.2.kept && g.2.parent == some e && g.2.tag0 == bitsOf word.toNat 23 0 &&
    g.2.count == bitsOf word.toNat 48 32 && !bitOf word.toNat 63

/-- A team of a kept child grid by its tag. -/
def childTeam (s : State) (e tag : Nat) : Option (Nat × Team) :=
  s.teams.find? fun c => c.2.parent == some e && c.2.tag == tag && (s.grid? c.2.grid).any (·.kept)

/-- The status word of a grid whose teams are all DONE. -/
def gridStatus (s : State) (gd : Grid) : Nat :=
  let ts := gd.teams.filterMap s.team?
  3 + (if ts.any (·.exh) then 0x10 else 0) + (if ts.any (·.unwound) then 0x20 else 0)

/-- A join whose grid is DONE: the record is freed and the acquire made. -/
def finishJoin (g dst gid : Nat) (gd : Grid) : M z Unit := do
  let s ← getS
  modGroup g fun gr => gr.setS dst (BitVec.ofNat 64 (gridStatus s gd))
  modTeam (groupTeam g) fun t => { t with children := t.children.filter (· != gid) }
  dropRecord gid
  acquire g 3
  orderAfter g gd.clock
  sweep

/-- join (R291). -/
def execJoin (x y : BitVec 6) (s : State) : Host.Outcome State Fault Refusal :=
  runUnit s (fun _ => { reads := [sreg y], writes := [sreg x], mask := .ignores }) fun w => do
    match childGrid w.s w.eid (w.gr.rs y.toNat) with
    | none => do
      modGroup w.g fun gr => gr.setS x.toNat 0x80
      pure .seq
    | some (gid, gd) =>
      if gridDone w.s gd then
        finishJoin w.g x.toNat gid gd
        pure .seq
      else
        modGroup w.g fun gr => { gr with hold := some (.join x.toNat gd.tag0 gd.count) }
        pure .parked

/-- tstat (R292). -/
def execTstat (x y : BitVec 6) (_z : BitVec 6) (_u : BitVec 4) (s : State) : Host.Outcome State Fault Refusal :=
  runUnit s (fun _ => { reads := [sreg y], writes := [sreg x], mask := .ignores }) fun w => do
    match childTeam w.s w.eid (w.low y % 2 ^ 24) with
    | none => modGroup w.g fun gr => gr.setS x.toNat 0x80
    | some (e, t) => do
      modGroup w.g fun gr => gr.setS x.toNat (BitVec.ofNat 64 (teamStatus t))
      if t.state == .done then
        acquire w.g 3
        orderAfter w.g (teamRelease w.s e)
    pure .seq

/-! Topups (R150, R156, R293) -/

/-- topup (R293): the amount leaves with the unit and is serialised by TOPUP_SERIALISE. -/
def execTopup (x y z : BitVec 6) (s : State) : Host.Outcome State Fault Refusal :=
  runUnit s (fun w =>
      { reads := [sreg y, sreg z], writes := [sreg x], mask := .ignores, surcharge := 2, moved := (w.gr.rs z.toNat).toNat }) fun w => do
    modGroup w.g fun gr => { gr with hold := some (.topup x.toNat (w.low y % 2 ^ 24) (w.gr.rs z.toNat)) }
    pure .parked

/-- The status an amount would have at a team's entry (R150, R156). -/
def topupStatus (phm : Bool) (t : Team) (amount : W64) : Nat :=
  match t.state with
  | .unwinding | .done => 2
  | _ => match t.pendingCost with
    | some c => if c ≤ t.al.toNat + t.due + amount.toNat then 1 else 0
    | none => if phm then 4 else 0

/-- An amount reaches a team: AL of a saved team does not change (R342), so it takes the amount when it is restored (log entry
90). -/
def Team.receive (t : Team) (amount : Nat) : Team :=
  match t.state with
  | .saved _ => { t with due := t.due + amount }
  | _ => { t with al := t.al + BitVec.ofNat 64 amount }

/-- No unit of the team has been compared in its core's present cycle: a credit meets AL before a cycle's comparisons (R381). -/
def cycleFresh (s : State) (e : Nat) (t : Team) : Bool :=
  match t.core with
  | none => true
  | some c => (s.core c).issueCyc ≠ (s.cluster (coreCluster c)).cyc || (s.core c).issued.all fun x => groupTeam x.2 ≠ e

/-- A credit reaches a team, at the start of a cycle (R144, R150, R381). -/
def creditTeam (e amount : Nat) : M z Unit := do
  let t ← getTeam e
  guardS (cycleFresh (← getS) e t)
  modTeam e fun t => t.receive amount

/-- Serialises an amount at a team's entry; answers the status. -/
def serialise (phm : Bool) (e : Nat) (amount : W64) : M z Nat := do
  let t ← getTeam e
  let st := topupStatus phm t amount
  match st with
  | 0 => modTeam e fun t => t.receive amount.toNat
  | 1 => do
    modTeam e fun t => t.receive amount.toNat
    resume e
  | 4 => modTeam e fun t => { t with heldTopup := t.heldTopup + amount.toNat }
  | _ => pure ()
  pure st

/-- Returns an amount to its issuer, or holds it for the commit in phase mode (R150, R155). -/
def creditBack (e : Nat) (amount : W64) : M z Unit := do
  let t ← getTeam e
  if phaseMode (← getS) t then modLaunch t.launch fun l => { l with held := l.held + amount.toNat }
  else creditTeam e amount.toNat

/-- TOPUP_SERIALISE: a held amount meets its child. -/
def serialiseTopup (g : Nat) : M z Unit := do
  let gr ← getGroup g
  match gr.hold with
  | some (.topup dst tag amount) => do
    let e := groupTeam g
    let s ← getS
    let t ← getTeam e
    let phm := phaseMode s t
    let target := if tag = 0 then none else childTeam s e tag
    let expect := match target with | some c => topupStatus phm c.2 amount | none => 3
    match ← attempt (journalGroup g pointTaskUnit JType.topup (tag + expect * 2 ^ 32) (expect = 2 || expect = 3)) with
    | .error (.trap ds _) => do
      creditBack e amount
      modGroup g fun gr => { gr with hold := none }
      takeTrap g ds (packPc gr.slot gr.pc) none
    | .error e => fun _ => .error e
    | .ok _ => do
      match target with
      | some c => let _ ← serialise phm c.1 amount
      | none => pure ()
      if expect = 2 || expect = 3 then creditBack e amount
      modGroup g fun gr => { gr.setS dst (BitVec.ofNat 64 expect) with hold := some .released }
  | _ => stay

/-- TOPUP_SERIALISE (R150). -/
def execTopupSerialise (g : Nat) (s : State) : Host.Outcome State Fault Refusal := runM s (serialiseTopup g)

/-! Results and phases (R154 to R157, R294, R295) -/

/-- resw (R294). -/
def execResw (x : BitVec 6) (s : State) : Host.Outcome State Fault Refusal :=
  runUnit s (fun _ => { reads := [sreg x], mask := .ignores }) fun w => do
    let v := w.gr.rs x.toNat
    let _ ← journalGroup w.g pointTaskUnit JType.atom v.toNat
    let path := match w.s.grid? w.t.grid with | some gd => gd.path | none => []
    modLaunch w.t.launch fun l =>
      if l.phm && w.t.parent.isSome then
        { l with posts := l.posts ++ [{ key := path, tidx := w.t.tidx, gidx := w.gidx, n := l.posts.length, val := v }] }
      else { l with result := v }
    pure .seq

/-- phend (R155). -/
def execPhend (s : State) : Host.Outcome State Fault Refusal :=
  runUnit s (fun w =>
      { mask := .ignores
        raises := if w.phm && w.t.parent.isNone then [] else [barMisuse 0x07 (Config.freeWord w.s.free)] }) fun w => do
    modGroup w.g fun gr => { gr with hold := some .phend }
    pure .parked

/-- Lexicographic order; a prefix comes first (R157). -/
def lexLt : List Nat → List Nat → Bool
  | _, [] => false
  | [], _ :: _ => true
  | a :: as, b :: bs => a < b || (a == b && lexLt as bs)

def pathKey (p : List (Nat × Nat)) : List Nat := p.flatMap fun x => [x.1, x.2]

/-- Spawn paths first, then the further parts of an ordinal (R131, R294). -/
def keyLt (p : List (Nat × Nat)) (as : List Nat) (q : List (Nat × Nat)) (bs : List Nat) : Bool :=
  lexLt (pathKey p) (pathKey q) || (p == q && lexLt as bs)

def Contribution.lt (a b : Contribution) : Bool :=
  keyLt a.path [a.tidx, a.gidx, a.lane, a.n] b.path [b.tidx, b.gidx, b.lane, b.n]

def insertBy {α : Type} (lt : α → α → Bool) (a : α) : List α → List α
  | [] => [a]
  | b :: bs => if lt a b then a :: b :: bs else b :: insertBy lt a bs

/-- The value of a location after the contributions to it, in ordinal order (R131). -/
def foldContributions (old : Nat) (cs : List Contribution) : Nat :=
  (cs.foldl (fun l c => insertBy Contribution.lt c l) []).foldl (fun acc c =>
    if c.i64 then (acc + c.val.toNat) % 2 ^ 64
    else Num.round .f32 .rne (Num.add .rne (Num.decode .f32 acc) (Num.decode .f32 (c.val.toNat % 2 ^ 32)))) old

/-- Applies the ordered atomics of a launch's phase. Contributions of the two widths to one address are chained apart. -/
def applyOrdered (launch : Nat) : M z Unit := do
  let s ← getS
  let mine := s.home.ordered.filter fun c => c.launch = launch
  let keys := (mine.map fun c => 2 * c.pa + (if c.i64 then 1 else 0))
  forEach (distinct keys) fun k => do
    let n := if k % 2 = 1 then 8 else 4
    let cs := mine.filter fun c => 2 * c.pa + (if c.i64 then 1 else 0) = k
    let s ← getS
    let chk := cs.any (·.chk)
    let a : LaneAcc := { lane := 0, va := 0, pa := k / 2, chk := chk }
    sysStore a (natBytes (foldContributions (Memory.readNat s.mem (k / 2) n) cs) n)
    if chk then metaWrite (k / 2) none
  modHome fun h => { h with ordered := h.ordered.filter fun c => c.launch ≠ launch }

/-- The greatest post of the phase (R294). -/
def lastPost (ps : List Post) : Option Post :=
  ps.foldl (fun best p => match best with
    | none => some p
    | some b => if keyLt b.key [b.tidx, b.gidx, b.n] p.key [p.tidx, p.gidx, p.n] then some p else best) none

/-- PHASE_COMMIT: the phase of a launch commits (R155). -/
def commitPhase (launch : Nat) : M z Unit := do
  let l ← getLaunch launch
  guardS (l.phm && l.admitted && !l.done)
  let s ← getS
  let roots := s.teams.filter fun e => e.2.launch = launch && e.2.parent.isNone
  let groups := roots.flatMap fun e => s.teamGroups e.1
  let waiting (g : Nat) : Bool := match s.group? g with | some gr => gr.hold == some .phend | none => false
  let members := s.teams.filter fun e => e.2.launch = launch && e.2.parent.isSome
  guardS (!groups.isEmpty && groups.all waiting && members.all fun e => e.2.state == .done)
  applyOrdered launch
  match roots.head? with
  | some e => creditTeam e.1 l.held
  | none => pure ()
  modLaunch launch fun l =>
    { l with held := 0, posts := [], phase := l.phase + 1, result := match lastPost l.posts with | some p => p.val | none => l.result }
  forEach roots fun e => modTeam e.1 fun t => { t with spawnsInPhase := 0 }
  let known := roots.foldl (fun c e => c.join (teamRelease s e.1)) l.clock
  forEach groups fun g => do
    modGroup g fun gr => { gr with hold := some .released }
    acquire g 3
    orderAfter g known

/-- PHASE_COMMIT (R155). -/
def execPhaseCommit (launch : Nat) (s : State) : Host.Outcome State Fault Refusal := runM s (commitPhase launch)

/-! What retirement waits for (R144) -/

/-- Whether an engine operation of a team is unfinished (R90). -/
def engineBusy (s : State) (e : Nat) : Bool :=
  s.clusters.any (fun c => c.2.copyq.any (·.eid = e) || c.2.mat.any (·.eid = e)) || s.colls.any (·.eid = e)

def childrenDone (s : State) (t : Team) : Bool :=
  t.children.all fun c => match s.grid? c with | some gd => gridDone s gd | none => true

/-- Every group has ended and its writes are performed (R144, R222). -/
def groupsEnded (s : State) (e : Nat) : Bool :=
  (s.teamGroups e).all fun g => match s.group? g with
    | some gr => gr.exited && gr.sq.isEmpty
    | none => true

/-- A team's place is given up: core, matrix resources, scratchpad. -/
def Team.leaveCore (t : Team) : Team := { t with core := none, spad := [], spadPoison := [], mat := {}, boGlobal := [] }

end Sys2Proof.Machine
end

