-- ==== Sys2Proof/Machine/Power.lean ====
section
/-! DEFINITION. Power, current and temperature: the power-state predicate with its reaction windows and forced skipping
(R357 to R360), clocks, boost and wear (R361, R362), margins (R363), gating and waking (R365, R366), DRAM samples and refresh
(R56, R57), and their events. Temperatures are in sixteenths of a degree; a microsecond of a cluster is SET cycles (R5,
R359). -/

namespace Sys2Proof.Machine

variable {z : State}

/-! Readings -/

/-- The clock a cluster's string is set to, in MHz: cycles of one microsecond (R361). -/
def setClock (s : State) (cl : Nat) : Nat := (s.str (clusterString cl)).setClk

/-- A constraint bit of the cluster is set (R358). -/
def Cluster.constrained (c : Cluster) : Bool := c.strc || c.therm || c.pkg

/-- PSTATE (R205): a DRAM emergency shows as THERM and SKIP in every cluster (R360). -/
def pstate (s : State) (cl : Nat) : Nat :=
  let c := s.cluster cl
  (if c.strc then 1 else 0) + (if c.therm || s.dev.emergency then 2 else 0) + (if c.pkg then 4 else 0) +
    (if c.skip || s.dev.emergency then 8 else 0)

/-- Whole microseconds left of the reaction window (R305, R359). Where the clock changes inside a counted interval, the whole
interval is measured at the new SET (log entry 49). -/
def windowLeft (s : State) (cl : Nat) : Nat :=
  let c := s.cluster cl
  match c.windowStart with
  | some w => if c.skip || s.dev.emergency then 0 else min 0xFFFF ((w + 10 * setClock s cl - c.cyc) / setClock s cl)
  | none => 0

/-- The hottest sample of a DRAM layer. -/
def hottest (d : Device) : Int := ([0, 1, 2, 3, 4, 5, 6, 7].map fun n => SMap.look 0 d.layerTemp n).foldl max (SMap.look 0 d.layerTemp 0)

/-- JMARG and DMARG (R363). -/
def jmarg (s : State) (cl : Nat) : Int := 105 * 16 - (s.cluster cl).dieTemp
def dmarg (s : State) : Int := 95 * 16 - hottest s.dev

/-- TALW (R363). -/
def talw (s : State) (cl : Nat) : Nat := wrapTo 16 (dmarg s) * 65536 + wrapTo 16 (jmarg s cl)

/-- CEIL (R362). -/
def Str.ceiling (t : Str) : Nat := 3400 - 25 * min 16 (t.stress / 2 ^ 20)

/-- FREQ (R361). -/
def freq (s : State) (cl : Nat) : Nat := (s.str (clusterString cl)).ceiling * 65536 + setClock s cl

/-! The predicate (R358 to R360) -/

/-- The constraint bits of a cluster change: windows open, close or start over as R359 and R360 say. -/
def Cluster.rewindow (new : Cluster) (emergency : Bool) (old : Cluster) : Cluster :=
  if emergency then { new with windowStart := none }
  else if new.skip then
    if new.constrained then { new with zeroSince := none }
    else if new.zeroSince.isNone then { new with zeroSince := some new.cyc } else new
  else if new.constrained then
    if !old.constrained && new.windowStart.isNone then { new with windowStart := some new.cyc } else new
  else { new with windowStart := none }

/-- A change of a cluster's constraint bits; a boosted string falls back to 3,000 MHz when one is set (R361). -/
def setConstraint (cl : Nat) (f : Cluster → Cluster) : M z Unit := do
  let s ← getS
  modCluster cl fun c => (f c).rewindow s.dev.emergency c
  if (f (s.cluster cl)).constrained then
    modStr (clusterString cl) fun t => { t with setClk := min t.setClk 3000 }

/-- THERM with its hysteresis (R358). -/
def evalTherm (cl : Nat) : M z Unit := do
  let s ← getS
  let j := jmarg s cl
  let d := dmarg s
  setConstraint cl fun c =>
    if j < 5 * 16 || d < 10 * 16 then { c with therm := true }
    else if 8 * 16 ≤ j && 13 * 16 ≤ d then { c with therm := false }
    else c

def allClusters : List Nat := List.range 128

/-- DIE_TEMP_CHANGE (R358): the sensor's value is the environment's. -/
def execDieTempChange (cl : Nat) (temp : Int) (s : State) : Host.Outcome State Fault Refusal :=
  runM s (do
    guardS (cl < 128)
    modCluster cl fun c => { c with dieTemp := temp }
    evalTherm cl)

/-- PKG_CURRENT_HIGH (R358): the rail's current is the environment's. -/
def execPkgCurrentHigh (s : State) : Host.Outcome State Fault Refusal :=
  runM s (forEach allClusters fun cl => setConstraint cl fun c => { c with pkg := true })

/-- PKG_CURRENT_LOW (R358). -/
def execPkgCurrentLow (s : State) : Host.Outcome State Fault Refusal :=
  runM s (forEach allClusters fun cl => setConstraint cl fun c => { c with pkg := false })

/-- REACTION_WINDOW_END (R359): a window of 10 µs ends with a bit still set. -/
def execReactionWindowEnd (cl : Nat) (s : State) : Host.Outcome State Fault Refusal :=
  runM s (do
    let c := s.cluster cl
    let w ← need c.windowStart
    guardS (c.constrained && w + 10 * setClock s cl ≤ c.cyc)
    modCluster cl fun c => { c with windowStart := none, zeroSince := none, skip := true })

/-- SKIP_END (R360): the bits have been 0 for 10 µs. -/
def execSkipEnd (cl : Nat) (s : State) : Host.Outcome State Fault Refusal :=
  runM s (do
    let c := s.cluster cl
    let q ← need c.zeroSince
    guardS (c.skip && !c.constrained && q + 10 * setClock s cl ≤ c.cyc)
    modCluster cl fun c => { c with skip := false, zeroSince := none })

/-- THERM and SKIP show in every cluster at once, with no window (R360). -/
def startEmergency : M z Unit := do
  modDev fun d => { d with emergency := true }
  forEach allClusters fun cl => do
    modCluster cl fun c => { c with windowStart := none }
    modStr (clusterString cl) fun t => { t with setClk := min t.setClk 3000 }

/-- DRAM_EMERGENCY (R360): a layer reads 95 °C. -/
def execDramEmergency (layer : Nat) (s : State) : Host.Outcome State Fault Refusal :=
  runM s (do
    guardS (layer < 8 && 95 * 16 ≤ SMap.look 0 s.dev.layerTemp layer)
    startEmergency)

/-- DRAM_TEMP_SAMPLE (R56, R57, R360): DTEMP.TEMP takes the sample. At 95 °C the emergency begins; with
every layer below 92 °C it ends, and a bit still set opens a window afresh. -/
def execDramTempSample (layer : Nat) (temp : Int) (s : State) : Host.Outcome State Fault Refusal :=
  runM s (do
    guardS (layer < 8)
    modDev fun d => { d with layerTemp := SMap.store 0 d.layerTemp layer temp }
    let ends := s.dev.emergency && hottest (← getS).dev < 92 * 16
    if ends then
      modDev fun d => { d with emergency := false }
      forEach allClusters fun cl => do
        modCluster cl fun c => if c.constrained && !c.skip then { c with windowStart := some c.cyc } else c
    forEach allClusters evalTherm
    if 95 * 16 ≤ temp then startEmergency)

/-- RANK_REFRESH (R56): a rank is blocked; the layer's rate follows its last sample from this refresh on. -/
def execRankRefresh (ch layer : Nat) (s : State) : Host.Outcome State Fault Refusal :=
  runM s (do
    guardS (ch < 128 && layer < 8)
    let t := SMap.look 0 s.dev.layerTemp layer
    modDev fun d =>
      { d with
        blocked := NSet.add d.blocked (8 * ch + layer)
        dbl := if 85 * 16 < t then NSet.add d.dbl layer else if t < 82 * 16 then NSet.erase d.dbl layer else d.dbl })

/-- RANK_REFRESH_END (R56). -/
def execRankRefreshEnd (ch layer : Nat) (s : State) : Host.Outcome State Fault Refusal :=
  runM s (modDev fun d => { d with blocked := NSet.erase d.blocked (8 * ch + layer) })

/-! The Sluice's events (R327 to R330) -/

/-- SLUICE_GRANT (R329). -/
def execSluiceGrant (string : Nat) (s : State) : Host.Outcome State Fault Refusal := runM s (grantNext string)

/-- VECTOR_RESERVATION_IDLE (R327): 64 cycles have passed without such a word. -/
def execVectorReservationIdle (core : Nat) (sfu : Bool) (s : State) : Host.Outcome State Fault Refusal :=
  runM s (do
    let cl := coreCluster core
    let who : Asker := if sfu then .sfu core else .vec core
    guardS ((s.str (clusterString cl)).holds who)
    let u := if sfu then (s.core core).sfuUntil else (s.core core).vecUntil
    guardS (u.getD 0 ≤ (s.cluster cl).cyc)
    releaseCurrent cl who
    modCore core fun c => if sfu then { c with sfuUntil := none } else { c with vecUntil := none })

/-- STRING_THROTTLE (R330): a request has waited 1 µs, counted by its own cluster, and cannot be granted. -/
def execStringThrottle (string : Nat) (s : State) : Host.Outcome State Fault Refusal :=
  runM s (do
    let t := s.str string
    guardS (string < 32 && !t.throttled)
    let c ← need (t.waiting.find? fun c => c.since + t.setClk ≤ (s.cluster (4 * string + c.tile)).cyc && !t.fits c)
    modStr string fun t => Str.measured { t with throttled := true, throttleBy := 4 * string + c.tile, quietSince := none }
    forEach [0, 1, 2, 3] fun i => setConstraint (4 * string + i) fun c => { c with strc := true })

/-- THROTTLE_END (R330): 4 µs with no request of the string waiting. -/
def execThrottleEnd (string : Nat) (s : State) : Host.Outcome State Fault Refusal :=
  runM s (do
    let t := s.str string
    let q ← need t.quietSince
    guardS (t.throttled && t.waiting.isEmpty && q + 4 * t.setClk ≤ (s.cluster t.throttleBy).cyc)
    modStr string fun t => Str.measured { t with throttled := false, quietSince := none }
    forEach [0, 1, 2, 3] fun i => setConstraint (4 * string + i) fun c => { c with strc := false })

/-! Clocks and wear (R361, R362, R364) -/

/-- CLOCK_BOOST_STEP (R361): one step of 25 MHz, between 1,200 MHz and CEIL; above 3,000 only with every constraint bit of
the string 0. -/
def execClockBoostStep (string : Nat) (up : Bool) (s : State) : Host.Outcome State Fault Refusal :=
  runM s (do
    let t := s.str string
    let free := !s.dev.emergency && [0, 1, 2, 3].all fun i => !(s.cluster (4 * string + i)).constrained
    guardS (string < 32 && (if up then t.setClk + 25 ≤ t.ceiling && (t.setClk < 3000 || free) else 1225 ≤ t.setClk))
    modStr string fun t => { t with setClk := if up then t.setClk + 25 else t.setClk - 25 })

/-- WEAR_ACCUMULATE (R362): one second of stress; a lower ceiling lowers the clock. -/
def execWearAccumulate (string : Nat) (s : State) : Host.Outcome State Fault Refusal :=
  runM s (modStr string fun t =>
    let t := { t with stress := min (2 ^ 32 - 1) (t.stress + 1) }
    { t with setClk := min t.setClk t.ceiling })

/-- TIMING_ERROR_REPLAY (R364): the replayed cycles count in CYC and change nothing else. A gated string's clusters issue
nothing to replay, and their CYC stands still (R205, R365). -/
def execTimingErrorReplay (cl cycles : Nat) (s : State) : Host.Outcome State Fault Refusal :=
  runM s (do
    guardS (!(s.str (clusterString cl)).gated)
    modCluster cl fun c => { c with cyc := c.cyc + cycles })

/-! Gating (R365, R366) -/

/-- The condition under which a string may be gated (R365). -/
def stringIdle (s : State) (string : Nat) : Bool :=
  let mine (cl : Nat) : Bool := clusterString cl == string
  !(s.teams.any fun e => match e.2.core with | some c => mine (coreCluster c) | none => false) &&
  [0, 1, 2, 3].all (fun i => (s.cluster (4 * string + i)).copyq.isEmpty && (s.cluster (4 * string + i)).mat.isEmpty) &&
  (s.str string).held.isEmpty && (s.str string).waiting.isEmpty

/-- STRING_GATE (R365): the first event finds the string idle, a later one gates it once that has held for 5 µs. A team's
placement breaks the wait (`wakeString`). -/
def execStringGate (string : Nat) (s : State) : Host.Outcome State Fault Refusal :=
  runM s (do
    let t := s.str string
    guardS (string < 32 && !t.gated && stringIdle s string)
    match t.idleSince with
    | none => modStr string fun t => { t with idleSince := some s.timer }
    | some q =>
      guardS (q + 5 ≤ s.timer)
      modStr string fun t => { t with gated := true, idleSince := none }
      forEach [0, 1, 2, 3] fun i => modCluster (4 * string + i) fun c => { c with crc := [] })

/-- The moment a string woken now issues (R366): at most 4 strings ramp at once for 1 µs each, in request order, and 1 µs
for the clock and the state. -/
def wakeTime (s : State) : Nat :=
  let pending := s.strings.filterMap fun e => e.2.wakeAt
  let start := pending.foldl (fun m w => max m (w - 2)) s.timer
  if (pending.filter (· = start + 2)).length < 4 then start + 2 else start + 3

/-- A team is placed on the string: an idle wait ends, and a gated string is asked to wake. -/
def wakeString (string : Nat) : M z Unit := do
  let s ← getS
  modStr string fun t =>
    { t with idleSince := none, wakeAt := if t.gated && t.wakeAt.isNone then some (wakeTime s) else t.wakeAt }

/-- STRING_WAKE (R366). -/
def execStringWake (string : Nat) (s : State) : Host.Outcome State Fault Refusal :=
  runM s (do
    let w ← need (s.str string).wakeAt
    guardS (w ≤ s.timer)
    modStr string fun t => { t with gated := false, wakeAt := none })

/-! Time -/

/-- Cycles pass in a cluster; CYC stands still while its string is gated (R205, R365). -/
def passTime (cl n : Nat) : M z Unit := do
  let s ← getS
  guardS (cl < 128 && !(s.str (clusterString cl)).gated)
  modCluster cl fun c => { c with cyc := c.cyc + n }

end Sys2Proof.Machine
end

