-- ==== Sys2Proof/Machine/Place.lean ====
section
/-! DEFINITION. The dispatcher: which core may hold a team (R38, R43, R263, R302, R323), which core it takes (R323, R324,
R387), what a team waits for before it begins (R137, R286, R287), what it holds when it begins (R285), and its retirement
(R144). -/

namespace Sys2Proof.Machine

variable {z : State}

/-! Eligible cores -/

/-- The vector registers of a team (R138). -/
def Shape.vectors (p : Shape) : Nat := p.producers * p.vp + (p.groups - p.producers) * p.vc

/-- The teams resident on a core. -/
def residents (s : State) (core : Nat) : List (Nat × Team) := s.teams.filter fun e => e.2.core == some core

/-- The tag of the team's entry overlay in slot 0 (R302). -/
def overlayKey (s : State) (t : Team) : Nat × Nat :=
  (t.ctx * 2 ^ 64 + (match s.launch? t.launch with | some l => l.odir | none => 0), t.shape.ovid)

/-- The matrix teams resident on a cluster: those with a quota (R263). -/
def matrixTeams (s : State) (cl : Nat) : List Team :=
  (s.teams.filter fun e => obufQuota e.2.shape.obuf != 0 && match e.2.core with | some c => coreCluster c == cl | none => false).map (·.2)

def unitsOf (p : Shape) : Nat := obufQuota p.obuf / 4096

/-- The lowest run of consecutive free units of a cluster's operand buffer that holds `n` units (R263). Which run is taken
is not seen by any program. -/
def freeUnits (ts : List Team) (n : Nat) : Option Nat :=
  lowest? (129 - n) fun u => ts.all fun t => u + n ≤ t.mat.unit0 || t.mat.unit0 + unitsOf t.shape ≤ u

/-- What a cluster gives a matrix team at once (R263). -/
def matrixFits (s : State) (cl : Nat) (p : Shape) : Bool :=
  obufQuota p.obuf == 0 ||
  (let ts := matrixTeams s cl
   ts.length < 4 && (ts.map fun t => obufBanks t.shape.obuf).sum + obufBanks p.obuf ≤ 4 && (freeUnits ts (unitsOf p)).isSome)

/-- Whether `n` teams like `t` fit beside the matrix teams `ts` of a cluster, each in the lowest run free then. -/
def matrixRoom (t : Team) : Nat → List Team → Bool
  | 0, _ => true
  | n + 1, ts => match freeUnits ts (unitsOf t.shape) with
    | some u => ts.length < 4 && (ts.map fun t => obufBanks t.shape.obuf).sum + obufBanks t.shape.obuf ≤ 4 &&
        matrixRoom t n ({ t with mat := { unit0 := u } } :: ts)
    | none => false

/-- Whether the dispatcher may begin team `t` on a core (R323). -/
def coreEligible (s : State) (t : Team) (core : Nat) : Bool :=
  let rs := residents s core
  (rs.map fun e => e.2.shape.vectors).sum + t.shape.vectors ≤ 4096 &&
  (rs.map fun e => e.2.shape.spad).sum + t.shape.spad ≤ 262144 &&
  (rs.isEmpty || (s.core core).tag0 == some (overlayKey s t)) &&
  matrixFits s (coreCluster core) t.shape

/-! The choice of a core (R323); `hot` are clusters counted as having no eligible core (R387) -/

def eligibleIn (s : State) (t : Team) (hot : Nat → Bool) (free : Nat → Bool) (cl : Nat) : List Nat :=
  if hot cl then [] else (clusterCores cl).filter fun c => free c && coreEligible s t c

def eligibleCount (s : State) (t : Team) (hot free : Nat → Bool) (string : Nat) : Nat :=
  (([0, 1, 2, 3] : List Nat).map fun i => (eligibleIn s t hot free (4 * string + i)).length).sum

/-- The string with the most eligible cores, lowest number on a tie. -/
def bestString (s : State) (t : Team) (hot free : Nat → Bool) : Option Nat :=
  ((List.range 32).foldl (fun (best : Option (Nat × Nat)) i =>
    let n := eligibleCount s t hot free i
    match best with
    | some b => if b.2 < n then some (i, n) else best
    | none => if 0 < n then some (i, n) else none) none).map (·.1)

/-- The teams of a grid resident on a cluster. -/
def gridTeamsIn (s : State) (gd : Grid) (cl : Nat) : Nat :=
  (gd.teams.filter fun e => match s.team? e with
    | some t => (match t.core with | some c => coreCluster c == cl | none => false)
    | none => false).length

/-- The string and the core a team takes. -/
def chooseCore (s : State) (t : Team) (gd : Grid) (hot free : Nat → Bool) : Option (Nat × Nat) := do
  let string ← match gd.string with
    | some i => if 0 < eligibleCount s t hot free i then some i else bestString s t hot free
    | none => bestString s t hot free
  let has := ([0, 1, 2, 3] : List Nat).filter fun i => !(eligibleIn s t hot free (4 * string + i)).isEmpty
  let i ← if has.contains (t.tidx % 4) then some (t.tidx % 4)
    else has.foldl (fun best i => match best with
      | some b => if gridTeamsIn s gd (4 * string + i) < gridTeamsIn s gd (4 * string + b) then some i else some b
      | none => some i) none
  let core ← (eligibleIn s t hot free (4 * string + i)).head?
  some (string, core)

/-! Neighbourhoods (R324) -/

/-- The shape of a rectangle for `n` teams: least area, then least |w − h|, then least h. -/
def rectShape (n : Nat) : Nat × Nat :=
  let key (p : Nat × Nat) : Nat := (p.1 * p.2) * 4096 + (max p.1 p.2 - min p.1 p.2) * 64 + p.2
  ((List.range 16).flatMap fun h => (List.range 32).map fun w => (w + 1, h + 1)).foldl
    (fun best p => if n ≤ p.1 * p.2 && key p < key best then p else best) (32, 16)

/-- The core of member `i` of a rectangle at an origin. -/
def rectCore (shape origin : Nat × Nat) (i : Nat) : Nat := 32 * (origin.2 + i / shape.1) + origin.1 + i % shape.1

/-- Whether each cluster can give its members of a neighbourhood their matrix resources together (R263). -/
def rectRoom (s : State) (t : Team) (cores : List Nat) : Bool :=
  obufQuota t.shape.obuf == 0 || cores.all fun c =>
    matrixRoom t (cores.filter fun d => coreCluster d == coreCluster c).length (matrixTeams s (coreCluster c))

/-- The origin a neighbourhood takes: lowest y0, then lowest x0, at which all its cores are eligible. -/
def rectOrigin (s : State) (t : Team) (n : Nat) (free : Nat → Bool) : Option (Nat × Nat) :=
  let shape := rectShape n
  ((List.range (17 - shape.2)).flatMap fun y => (List.range (33 - shape.1)).map fun x => (x, y)).find? fun o =>
    ((List.range n).all fun i => free (rectCore shape o i) && coreEligible s t (rectCore shape o i)) &&
      rectRoom s t ((List.range n).map (rectCore shape o))

/-! What a team waits for -/

/-- Two region descriptors share a byte, and one of them writes (R287); a region of no bytes overlaps nothing (R282). -/
def regionsClash (a b : Region) : Bool :=
  a.mode ≠ 0 && b.mode ≠ 0 && a.len ≠ 0 && b.len ≠ 0 && (2 ≤ a.mode || 2 ≤ b.mode) &&
    a.base < b.base + b.len && b.base < a.base + a.len

/-- Grid `b` waits for its sibling `a`, spawned before it, whose regions clash with its own (R287). -/
def waitsFor (b a : Grid) : Bool :=
  b.parent.isSome && a.parent == b.parent && a.order < b.order && a.regions.any fun x => b.regions.any (regionsClash x)

/-- Sibling grids spawned before, whose regions clash, are not all DONE (R287). -/
def siblingBlocks (s : State) (gd : Grid) : Bool := s.grids.any fun g => waitsFor gd g.2 && !gridDone s g.2

/-- A retirement in grid `gid` releases to the siblings that wait for it (R287). -/
def releaseSiblings (gid : Nat) (c : Clock) : M z Unit := do
  let gd ← getGrid gid
  forEach (← getS).grids fun (i, b) =>
    if waitsFor b gd then modGrid i fun b => { b with start := b.start.join c } else pure ()

/-- A launch with SER = 1 begins only after every earlier launch of its queue has written its record (R311). -/
def serBlocks (s : State) (launch : Nat) : Bool :=
  match s.launch? launch with
  | some l => l.ser && s.launches.any fun k =>
      k.2.consumer.isNone && k.2.queue == l.queue && k.2.order < l.order && !k.2.done
  | none => false

/-- A team may begin as far as its grid goes: R137 (a neighbourhood's teams begin together), R286, R287. -/
def mayBegin (s : State) (t : Team) (gd : Grid) : Bool :=
  t.state == .notBegun && !siblingBlocks s gd && !serBlocks s t.launch &&
  gd.teams.all fun e => match s.team? e with
    | some u => if gd.nbh then u.wait == 0 && u.state == .notBegun else u.tidx > t.tidx || (u.wait == 0 && (u.tidx == t.tidx || u.state != .notBegun))
    | none => true

/-- Launches are served by timing class, then in admission order; the root grid's identity gives that order (R323). -/
def launchBefore (a b : Launch) : Bool := a.tcls < b.tcls || (a.tcls == b.tcls && a.grid < b.grid)

/-- Whether grid `i` is served before grid `j`: by its launch, then by its identity. -/
def gridBefore (s : State) (i j : Nat) : Bool :=
  match (s.grid? i).bind fun g => s.launch? g.launch, (s.grid? j).bind fun g => s.launch? g.launch with
  | some k, some l => launchBefore k l || (k.grid == l.grid && i < j)
  | _, _ => false

/-- The cores that waiting neighbourhoods keep free of the teams of grid `gid`, until they are placed (R324); of two that wait,
the one served first does. -/
def keptCores (s : State) (gid : Nat) : List Nat :=
  let nbh := (s.grid? gid).any (·.nbh)
  s.grids.flatMap fun (i, gd) =>
    if i != gid && gd.waits && (!nbh || gridBefore s i gid) then
      match gd.teams.head?.bind s.team? with
      | some t =>
        if t.state == .notBegun then
          (List.range ((rectShape gd.count).1 * (rectShape gd.count).2)).map (rectCore (rectShape gd.count) (0, 0))
        else []
      | none => []
    else []

/-- A neighbourhood that may begin and that no origin fits begins to wait (R324). Noted before a core is given up and around
each placement: nothing else lets an origin fit again. -/
def noteWaiting : M z Unit := do
  let s ← getS
  forEach s.grids fun (i, gd) =>
    if gd.nbh && !gd.waits then
      match gd.teams.head?.bind s.team? with
      | some t =>
        if mayBegin s t gd && (rectOrigin s t gd.count fun c => !(keptCores s i).contains c).isNone then
          modGrid i fun gd => { gd with waits := true }
        else pure ()
      | none => pure ()
    else pure ()

/-- Where the dispatcher would begin a team now: the string (none for a neighbourhood) and the core of its first member. -/
def placeOf (s : State) (t : Team) : Option (Option Nat × Nat) := do
  let gd ← s.grid? t.grid
  let kept := keptCores s t.grid
  let free (c : Nat) : Bool := !kept.contains c
  if !mayBegin s t gd then none
  else if gd.nbh then
    let o ← rectOrigin s t gd.count free
    some (none, rectCore (rectShape gd.count) o t.tidx)
  else
    let r ← chooseCore s t gd (fun _ => false) free
    some (some r.1, r.2)

/-- No team of a launch that is served earlier could be placed (R323). -/
def firstInOrder (s : State) (t : Team) : Bool :=
  match s.launch? t.launch with
  | none => false
  | some l => !(s.teams.any fun e => e.2.state == .notBegun && e.2.launch != t.launch &&
      (match s.launch? e.2.launch with | some k => launchBefore k l | none => false) && (placeOf s e.2).isSome)

/-! Slot 0 (R302) -/

/-- An overlay directory entry: NWORDS and ADDR; none where it breaks R302. -/
def readOverlay (v : Nat) : Option (Nat × W64) :=
  let n := bitsOf v 79 64
  if v / 2 ^ 80 = 0 && 1 ≤ n && n ≤ 16384 && v % 64 = 0 then some (n, BitVec.ofNat 64 v) else none

/-- Where a read of `n` bytes at `va` meets each of its pages: its first byte there. -/
def pagesOf (va : W64) (n : Nat) : List W64 :=
  (List.range ((va.toNat + n - 1) / 4096 - va.toNat / 4096 + 1)).map fun i =>
    if i = 0 then va else BitVec.ofNat 64 (4096 * (va.toNat / 4096 + i))

/-- The place of byte `i` of a read at `va`, from the places of its pages. -/
def placeIn (va : W64) (ps : List LaneAcc) (i : Nat) : LaneAcc :=
  let a := va.toNat + i
  let p := ps.getD (a / 4096 - va.toNat / 4096) { lane := 0, va := va }
  { p with pa := p.pa / 4096 * 4096 + a % 4096 }

/-- The `n` words of a read at `va`, each with the poison under it. -/
def fetchWords (va : W64) (n : Nat) (ps : List LaneAcc) : M z (List (W32 × Bool)) := do
  let s ← getS
  let places := (List.range n).map fun i => placeIn va ps (4 * i)
  guardS (places.all fun a => !sysWaits s a)
  pure (places.map fun a => (BitVec.ofNat 32 (Memory.readNat s.mem a.pa 4), sectorPoison s a.pa 4))

/-- The number that words make, the first lowest (R3). -/
def wordsNat (ws : List (W32 × Bool)) : Nat := ws.foldr (fun w n => w.1.toNat + 2 ^ 32 * n) 0

/-- Reads words for a system party under the overlay-fetch permission, page by page; none where a read is unrecoverable. -/
def sysFetch (ctx : Nat) (c : CtxRec) (va : W64) (n : Nat) : M z (Option (List (W32 × Bool))) := do
  let ps ← mapEach (pagesOf va (4 * n)) fun p => do
    match ← sysXlate ctx c Kind.overlay p with
    | .ok a => pure (some a)
    | .error _ => pure none
  if ps.any (·.isNone) then pure none
  else pure (some (← fetchWords va n (ps.filterMap id)))

/-- The words of an overlay of a directory: none where the entry breaks R302 or a read is unrecoverable. -/
def overlayWords (ctx : Nat) (c : CtxRec) (odir ovid : Nat) : M z (Option (List (W32 × Bool))) := do
  match ← sysFetch ctx c (BitVec.ofNat 64 (odir + 16 * ovid)) 4 with
  | none => pure none
  | some e => match readOverlay (wordsNat e) with
    | some (n, addr) => sysFetch ctx c addr n
    | none => pure none

/-- A slot takes an overlay's words; words beyond it read 0 (R303). -/
def fillSlot (core slot : Nat) (key : Option (Nat × Nat)) (ws : List (W32 × Bool)) : M z Unit :=
  modCore core fun c =>
    let numbered : List ((W32 × Bool) × Nat) := ws.zipIdx
    let im := numbered.foldl (fun m x => SMap.store 0 m (16384 * slot + x.2) x.1.1) (SMap.delRange c.imem (16384 * slot) 16384)
    let po := numbered.foldl (fun m x => if x.1.2 then NSet.add m (16384 * slot + x.2) else m)
      (SMap.delRange c.imemPoison (16384 * slot) 16384)
    if slot = 0 then { c with imem := im, imemPoison := po, tag0 := key } else { c with imem := im, imemPoison := po, tag1 := key }

/-! Beginning (R285, R302) -/

/-- A group at team begin; `known` is what its first access is ordered after (R122). -/
def freshGroup (t : Team) (gidx now : Nat) (known : Clock) : Group :=
  let first := 2 ^ 40 * t.grid
  let g : Group := { pc := BitVec.ofNat 14 t.shape.off, mu := now, nextId := first, born := first, acqs := [(first, known)] }
  ((g.setS 0 t.shape.argp).setS 1 (BitVec.ofNat 64 t.tidx)).setS 2 (BitVec.ofNat 64 gidx)

/-- The matrix resources of a team as they are placed on a cluster, zero (R263). -/
def freshMatrix (s : State) (cl : Nat) (t : Team) : MatrixRes :=
  if obufQuota t.shape.obuf = 0 then {}
  else { quota := obufQuota t.shape.obuf, banks := obufBanks t.shape.obuf
         unit0 := (freeUnits (matrixTeams s cl) (unitsOf t.shape)).getD 0 }

/-- What a team's beginning is ordered after: its grid's creation and the siblings it waited for, and what brought its
dependence count to 0 (R104, R122, R287). -/
def knownAtBegin (s : State) (t : Team) : Clock := (match s.grid? t.grid with | some gd => gd.start | none => []).join t.depClock

/-- A scratchpad begins anew: nothing is known of accesses to what its team's entry had before. -/
def forgetSpad (eid : Nat) : M z Unit :=
  modHome fun h => { h with past := SMap.delRange h.past (spKey eid 0) (2 ^ 20), marks := SMap.delRange h.marks (spKey eid 0) (2 ^ 20) }

/-- The groups of a new team have issued nothing on the core (R325). -/
def forgetIssues (eid core : Nat) : M z Unit :=
  modCore core fun c => { c with recent := c.recent.map fun (k, gs) => (k, gs.filter fun g => groupTeam g ≠ eid) }

/-- A team begins on a core. -/
def beginOn (eid core : Nat) : M z Unit := do
  let t ← getTeam eid
  let l ← getLaunch t.launch
  let s ← getS
  let key := overlayKey s t
  let cl := coreCluster core
  let words ← if (s.core core).tag0 == some key then pure (some none) else do
    match ← asWaiter (.team eid) (overlayWords t.ctx l.rcd l.odir t.shape.ovid) with
    | some ws => pure (some (some ws))
    | none => pure none
  journalTeam eid pointCommand JType.place 0 (t.tag + coreReg core * 2 ^ 32)
  match words with
  | some (some ws) => fillSlot core 0 (some key) ws
  | some none => pure ()
  | none => fillSlot core 0 none []
  forgetSpad eid
  forgetIssues eid core
  if t.tidx = 0 then modGrid t.grid fun gd => { gd with core0 := core }
  let s ← getS
  modTeam eid fun t =>
    { t with state := .running, core := some core, sysWait := none, beginCyc := (s.cluster cl).cyc, charged := 0, barriers := []
             mat := freshMatrix s cl t, spad := [], spadPoison := [], boGlobal := [], boClock := [], ringRels := [] }
  modLaunch t.launch fun l => { l with began := true }
  wakeString (clusterString cl)
  forEach (List.range t.shape.groups) fun i => do
    putGroup (32 * eid + i) (freshGroup t i s.home.now (knownAtBegin s t))
    acquire (32 * eid + i) 3
  if words.isNone then
    let entry := packPc 0 (BitVec.ofNat 14 t.shape.off)
    forEach (List.range t.shape.groups) fun i => do
      modGroup (32 * eid + i) fun gr => { gr with trap := { gr.trap with tpc := entry } }
      takeTrap (32 * eid + i) [{ cause := Cause.ovlMiss, value := ovlTarget t.shape.ovid t.shape.off }] entry none

/-- TEAM_BEGIN: a team begins on the core the dispatcher chooses; a neighbourhood's teams begin together (R137, R323, R324). -/
def beginTeam (eid core : Nat) : M z Unit := do
  noteWaiting
  let s ← getS
  let t ← getTeam eid
  let gd ← getGrid t.grid
  let p ← need (placeOf s t)
  guardS (p.2 == core && firstInOrder s t)
  if gd.nbh then
    let o ← need (rectOrigin s t gd.count fun c => !(keptCores s t.grid).contains c)
    forEach gd.teams.zipIdx fun (e, i) => beginOn e (rectCore (rectShape gd.count) o i)
  else
    modGrid t.grid fun gd => { gd with string := p.1 }
    beginOn eid core
  noteWaiting

/-- TEAM_BEGIN (R323). -/
def execTeamBegin (eid core : Nat) (s : State) : Host.Outcome State Fault Refusal := runM s (beginTeam eid core)

/-! Retirement (R144) -/

/-- TEAM_RETIRE: a team becomes DONE and its AL goes to its parent, its launch, or the commit, which also takes the topups
held for it (R144, R155, R156). What its groups have done is released (R122). -/
def retireTeam (e : Nat) : M z Unit := do
  let t ← getTeam e
  let s ← getS
  guardS ((t.state == .running || t.state == .unwinding) && groupsEnded s e && !engineBusy s e && childrenDone s t)
  journalTeam e pointTaskUnit JType.retire t.jseq.toNat (if t.unwound then 1 else 0)
  passAll e false
  noteWaiting
  let t ← getTeam e
  let known := teamRelease (← getS) e
  modTeam e fun t =>
    { t.leaveCore with state := .done, al := 0, due := 0, heldTopup := 0, stop := .running, preempt := none, migrate := false
                       moving := false, children := [] }
  forEach t.children dropRecord
  modGrid t.grid fun gd => { gd with clock := gd.clock.join known }
  releaseSiblings t.grid known
  modLaunch t.launch fun l => { l with clock := l.clock.join known }
  let rest := t.al.toNat + t.due
  match t.parent with
  | none => modLaunch t.launch fun l => { l with credited := l.credited + rest + t.heldTopup }
  | some p =>
    if phaseMode s t then modLaunch t.launch fun l => { l with held := l.held + rest + t.heldTopup }
    else creditTeam p rest
  sweep

/-- TEAM_RETIRE (R144). -/
def execTeamRetire (eid : Nat) (s : State) : Host.Outcome State Fault Refusal := runM s (retireTeam eid)

end Sys2Proof.Machine
end

