-- ==== Sys2Proof/Machine/System.lean ====
section
/-! DEFINITION. System registers (R202 to R205, R338, R339), the meanings of class 0xE (R297 to R306), and the hint words
(R183 to R186). -/

namespace Sys2Proof.Machine

variable {z : State}

/-! Detail of a trap (R339) -/

/-- The compatibility groups in their order, each with its causes. -/
def causeGroups : List (Nat × List Nat) :=
  [(1, [0]), (2, [4, 5, 6, 7, 8, 9, 12, 13, 14]), (3, [15]), (4, [1, 2, 3, 10, 11, 23]), (5, [19, 20, 21]), (6, [22]),
   (7, [16, 17, 18]), (8, [24, 25, 26, 27, 28])]

/-- The selected cause of TCAUSE, its group and its position in the group. -/
def TrapState.selected (t : TrapState) : Option (Nat × Nat × Nat) :=
  let place (c : Nat) : Option (Nat × Nat × Nat) :=
    causeGroups.findSome? fun g => (g.2.findIdx? (· = c)).map fun i => (c, g.1, i)
  if t.tmode.getLsbD 0 then
    (causeGroups.findSome? fun g => g.2.find? fun c => t.tcause.getLsbD c).bind place
  else (lowest? 29 fun c => t.tcause.getLsbD c).bind place

def TrapState.detail (t : TrapState) (c : Nat) : Detail := (t.details.find? fun d => d.cause = c).getD { cause := c }

/-- TDET0 to TDET2: bits [31:0] of each (R339). -/
def TrapState.tdet (t : TrapState) (n : Nat) : Nat :=
  match t.selected with
  | none => 0
  | some (c, grp, pos) =>
    let d := t.detail c
    if t.tmode.getLsbD 0 then
      match n with
      | 0 => d.code.toNat * 65536 + d.lane % 32 * 512 + pos * 32 + grp
      | 1 => if grp = 3 then min 0xFFFFFFFF d.value.toNat
             else if grp = 4 then (if c = Cause.layerOvf || c = Cause.layerBad || c = Cause.ovlMiss then d.value.toNat % 2 ^ 32
               else d.word.toNat)
             else if grp = 7 then d.lanes.toNat
             else d.value.toNat % 2 ^ 32
      | _ => if grp = 3 then d.al.toNat % 2 ^ 32
             else if grp = 4 then t.tpc.toNat
             else if grp = 7 then 0
             else d.value.toNat / 2 ^ 32
    else
      match n with
      | 0 => c * 2 ^ 24 + d.lane % 32 * 65536 + d.code.toNat
      | 1 => d.value.toNat % 2 ^ 32
      | _ => d.value.toNat / 2 ^ 32

/-! System registers (R203) -/

def sysNumbers : List Nat :=
  [0x000, 0x001, 0x002, 0x003, 0x004, 0x005, 0x006, 0x007, 0x008, 0x009, 0x010, 0x011, 0x020, 0x021, 0x022, 0x023, 0x024,
   0x025, 0x026, 0x027, 0x030, 0x031, 0x032, 0x033, 0x034, 0x040, 0x041, 0x042, 0x043, 0x044, 0x045, 0x046, 0x047, 0x048,
   0x050, 0x051, 0x060, 0x070]

def sysWritable : List Nat := [0x041, 0x042, 0x046, 0x047]

/-- Read as 0 in phase mode (R158). -/
def sysPhaseZero : List Nat := [0x008, 0x009, 0x020, 0x021, 0x025, 0x026, 0x027, 0x030, 0x031, 0x032, 0x033, 0x034]

/-- ROLE (R138): a budget of 128 reads as 0. -/
def roleWord (t : Team) (gidx : Nat) : Nat :=
  t.budget gidx % 128 * 256 + (if gidx < t.shape.producers then 1 else 0)

/-- A system register of group `g` (R203, R205). -/
def sysWord (s : State) (g : Nat) (gr : Group) (t : Team) (n : Nat) : Nat :=
  let core := t.core.getD 0
  let cl := coreCluster core
  let l := s.launch? t.launch
  match n with
  | 0x000 => gr.exm.toNat
  | 0x001 => groupIdx g
  | 0x002 => t.shape.groups
  | 0x003 => t.tidx
  | 0x004 => (match s.grid? t.grid with | some gd => gd.count | none => 0)
  | 0x005 => t.tag
  | 0x006 => t.ptag
  | 0x007 => roleWord t (groupIdx g)
  | 0x008 => coreReg core
  | 0x009 => cl + clusterString cl * 256
  | 0x010 => t.al.toNat
  | 0x011 => (if phaseMode s t then 4 else 0) + (if t.exh then 2 else 0) + (if t.shape.pol then 1 else 0)
  | 0x020 => gr.lcnt
  | 0x021 => gr.fcnt
  | 0x022 => gr.copy.last.toNat
  | 0x023 => gr.mat.last.toNat
  | 0x024 => gr.coll.last.toNat
  | 0x025 => gr.copy.done.toNat
  | 0x026 => gr.mat.done.toNat
  | 0x027 => gr.coll.done.toNat
  | 0x030 => pstate s cl
  | 0x031 => talw s cl
  | 0x032 => (s.str (clusterString cl)).reading.getD (cl % 4) 0
  | 0x033 => freq s cl
  | 0x034 => (s.cluster cl).cyc
  | 0x040 => gr.trap.tcause.toNat
  | 0x041 => gr.trap.tpc.toNat
  | 0x042 => gr.trap.tmask.toNat
  | 0x043 => gr.trap.tdet 0
  | 0x044 => gr.trap.tdet 1
  | 0x045 => gr.trap.tdet 2
  | 0x046 => gr.trap.tmode.toNat
  | 0x047 => gr.trap.tvec.toNat
  | 0x050 => (match l with | some l => l.jmode + (if l.div then 4 else 0) | none => 0)
  | 0x051 => t.jseq.toNat
  | 0x060 => (match l with | some l => l.phase.toNat | none => 0)
  | 0x070 => gr.slot.toNat
  | _ => 0

/-- What srd gives: the registers of R158 read 0 in phase mode. -/
def sysValue (s : State) (g : Nat) (gr : Group) (t : Team) (n : Nat) : W64 :=
  if phaseMode s t && sysPhaseZero.contains n then 0 else BitVec.ofNat 64 (sysWord s g gr t n)

/-- Writes a trap register of a group; reserved fields ignore the write (R204). -/
def TrapState.write (t : TrapState) (n : Nat) (x : W64) : TrapState :=
  match n with
  | 0x041 => { t with tpc := x.extractLsb' 0 15 }
  | 0x042 => { t with tmask := x.extractLsb' 0 32 }
  | 0x046 => { t with tmode := x.extractLsb' 0 4 }
  | 0x047 => { t with tvec := x.extractLsb' 0 16 }
  | _ => t

/-- HWERR of a read of EXM as a system register (R63, R339). -/
def exmPoison (w : View) (reg : Nat) : List Detail :=
  if reg = 0 && w.gr.poison.exm then [{ cause := Cause.hwerr, code := 2 }] else []

/-- srd (R204, R297): the register as it is when the word issues, after its own charge. -/
def execSrd (x : BitVec 6) (reg : BitVec 12) (s : State) : Host.Outcome State Fault Refusal :=
  runUnit s (fun w =>
      { writes := [sreg x], ok := sysNumbers.contains reg.toNat, mask := .ignores, raises := exmPoison w reg.toNat }) fun w => do
    let t ← getTeam w.eid
    modGroup w.g fun gr => gr.setS x.toNat (sysValue w.s w.g w.gr t reg.toNat)
    pure .seq

/-- swr (R204, R297). -/
def execSwr (x : BitVec 6) (reg : BitVec 12) (s : State) : Host.Outcome State Fault Refusal :=
  runRegs s (fun _ => { reads := [sreg x], ok := sysWritable.contains reg.toNat, mask := .ignores }) fun w gr =>
    { gr with trap := gr.trap.write reg.toNat (w.gr.rs x.toNat) }

/-! Traps (R298 to R300) -/

/-- trap (R298). -/
def execTrap (n : BitVec 16) (s : State) : Host.Outcome State Fault Refusal :=
  runUnit s (fun _ => { mask := .ignores }) fun _ => pure (.after [{ cause := Cause.trapi, code := n }])

/-- brk (R298). -/
def execBrk (n : BitVec 16) (s : State) : Host.Outcome State Fault Refusal :=
  runUnit s (fun _ => { mask := .ignores }) fun _ => pure (.after [{ cause := Cause.brk, code := n }])

/-- tret (R299). -/
def execTret (s : State) : Host.Outcome State Fault Refusal :=
  runUnit s (fun w => { mask := .ignores, raises := illConv w (!w.gr.inHandler) }) fun w => do
    returnFromTrap w.g
    pure .stays

/-- tclr (R300): bits 29 to 63 are ignored. -/
def execTclr (x : BitVec 6) (s : State) : Host.Outcome State Fault Refusal :=
  runRegs s (fun _ => { reads := [sreg x], mask := .ignores }) fun w gr =>
    let m := w.gr.rs x.toNat &&& 0x1FFFFFFF
    { gr with trap := { gr.trap with tcause := gr.trap.tcause &&& ~~~m } }

/-- jmark (R301). -/
def execJmark (x : BitVec 6) (s : State) : Host.Outcome State Fault Refusal :=
  runUnit s (fun _ => { reads := [sreg x], mask := .ignores }) fun w => do
    let _ ← journalGroup w.g (pointOfCore w.core) JType.mark (w.gr.rs x.toNat).toNat
    pure .seq

/-! Overlays (R302 to R304) -/

/-- The slot of a core that holds an overlay of the team's directory. -/
def slotHolding (s : State) (core : Nat) (t : Team) (id : Nat) : Option (BitVec 1) :=
  let key := some ((overlayKey s t).1, id)
  if (s.core core).tag0 == key then some 0 else if (s.core core).tag1 == key then some 1 else none

/-- OVL_MISS of ovld: its target is the overlay's first word. -/
def ovldMiss (id : Nat) : Detail := { cause := Cause.ovlMiss, value := ovlTarget id 0 }

/-- Reads words for ovld under the overlay-fetch permission; a detail names the address read (R37). -/
def issueWords (w : View) (va : W64) (n : Nat) : M z (Pre (List (W32 × Bool))) :=
  preBind (preEach (issueXlate w Kind.overlay) (pagesOf va (4 * n))) fun ps => do
    pure (.ok (← fetchWords va n ps))

/-- ovld's reads: the words of the overlay (R303). -/
def issueOverlay (w : View) (id : Nat) : M z (Pre (List (W32 × Bool))) := do
  let l ← getLaunch w.t.launch
  preBind (issueWords w (BitVec.ofNat 64 (l.odir + 16 * id)) 4) fun e =>
    match readOverlay (wordsNat e) with
    | none => pure (.bad [ovldMiss id])
    | some (n, addr) => issueWords w addr n

/-- No group of the core runs in slot 1 (R303). -/
def slotOneFree (s : State) (core : Nat) : Bool :=
  !(s.groups.any fun g => g.2.slot == 1 && !g.2.exited && s.groupCore? g.1 == some core)

/-- One attempt of ovld: complete, held until slot 1 is free, parked on a page, or the causes found. -/
def tryOverlay (w : View) (id : Nat) : M z Flow := do
  let s ← getS
  let hold (waits : List (Nat × Wait)) (va : W64) : M z Flow := do
    modGroup w.g fun gr =>
      { gr with nextId := gr.nextId + 1
                parked := some { unit := gr.nextId, waits := waits
                                 acc := { kind := .fetch id, size := 4, one := true, lanes := [{ lane := 0, va := va }] } } }
    pure .parked
  if (slotHolding s w.core w.t id).isSome then pure .seq
  else if !slotOneFree s w.core then hold [] 0
  else match ← issueOverlay w id with
    | .bad ds => pure (.raised ds)
    | .wait va wt => hold [(0, wt)] va
    | .ok ws => do
      fillSlot w.core 1 (some ((overlayKey s w.t).1, id)) ws
      pure .seq

/-- ovld (R303). -/
def execOvld (x : BitVec 6) (s : State) : Host.Outcome State Fault Refusal :=
  runUnit s (fun _ => { reads := [sreg x], mask := .ignores }) fun w => do
    let id := bitsOf (w.gr.rs x.toNat).toNat 15 0
    let l ← getLaunch w.t.launch
    if w.gr.slot = 1 || l.onum ≤ id then raise [ovldMiss id]
    else tryOverlay w id

/-- The transfer of ovcall and ovret (R304). -/
def overlayJump (w : View) (target : W64) (link : Bool) : M z Flow := do
  let id := bitsOf target.toNat 31 16
  let off := bitsOf target.toNat 15 0
  match (if 0x4000 ≤ off then none else slotHolding w.s w.core w.t id) with
  | none => raise [{ cause := Cause.ovlMiss, value := ovlTarget id off }]
  | some slot => do
    if link then
      modGroup w.g fun gr =>
        gr.setS 63 (BitVec.ofNat 64 (slotOverlay (w.s.core w.core) w.gr.slot * 65536 + w.wordPc + 1))
    pure (.far slot (BitVec.ofNat 14 off))

/-- ovcall (R304). -/
def execOvcall (x : BitVec 6) (s : State) : Host.Outcome State Fault Refusal :=
  runUnit s (fun _ => { reads := [sreg x], writes := [.s 63], mask := .ignores }) fun w => overlayJump w (w.gr.rs x.toNat) true

/-- ovret (R304). -/
def execOvret (x : BitVec 6) (s : State) : Host.Outcome State Fault Refusal :=
  runUnit s (fun _ => { reads := [sreg x], mask := .ignores }) fun w => overlayJump w (w.gr.rs x.toNat) false

/-! Power state and current (R305, R306) -/

/-- pwrq (R305). -/
def execPwrq (x : BitVec 6) (s : State) : Host.Outcome State Fault Refusal :=
  runRegs s (fun _ => { writes := [sreg x], mask := .ignores }) fun w gr =>
    gr.setS x.toNat (if w.phm then 0 else BitVec.ofNat 64 (windowLeft w.s w.cl * 65536 + pstate w.s w.cl))

/-- cres (R306). -/
def execCres (x y : BitVec 6) (s : State) : Host.Outcome State Fault Refusal :=
  runUnit s (fun _ => { reads := [sreg y], writes := [sreg x], mask := .ignores }) fun w => do
    let amount := bitsOf (w.gr.rs y.toNat).toNat 7 0
    if amount = 0 || 64 < amount || w.gr.cres.isSome then raise [barMisuse 0x0B (BitVec.ofNat 64 amount)]
    else if ← askCurrent w.cl (.cres w.g) amount then
      modGroup w.g fun gr => { gr.setS x.toNat (BitVec.ofNat 64 amount) with cres := some amount }
      pure .seq
    else
      modGroup w.g fun gr => { gr with hold := some (.cres x.toNat amount) }
      pure .parked

/-- crel (R306). -/
def execCrel (s : State) : Host.Outcome State Fault Refusal :=
  runUnit s (fun _ => { mask := .ignores }) fun w => do
    if w.gr.cres.isNone then raise [barMisuse 0x0C (Config.freeWord w.s.free)]
    else
      releaseCurrent w.cl (.cres w.g)
      modGroup w.g fun gr => { gr with cres := none }
      pure .seq

/-! Hints (R183 to R186): a hint joins the unit being presented; nothing issues until its word does (R187) -/

/-- The word that the group would present is poisoned (R63). -/
def wordPoisoned (w : View) : Bool := NSet.has (w.s.core w.core).imemPoison (16384 * w.gr.slot.toNat + w.wordPc)

/-- The causes of a unit that ends at a word without a meaning of its own: a poisoned word, or a hint that may not stand there.
They come together with those that any unit meets: hints that break R183 whatever the word, and HWERR of AL and of the system
registers (R187, R208). -/
def brokenCauses (w : View) (ds : List Detail) : List Detail :=
  let here := fetchAt w.s w.core w.gr.slot w.wordPc
  let hints := if hintsOk w { mods := fun _ => true, imm := .simm } then [] else
    [{ cause := Cause.illOperand, value := w.firstWord.zeroExtend 64, word := here }]
  mergeDetails ((if wordPoisoned w then [{ cause := Cause.hwerr, code := 3, value := BitVec.ofNat 64 w.wordPc }] else []) ++
    ds ++ hints ++ teamPoison w.t)

/-- The causes of a unit that ends in a hint: a poisoned word (R63), a fifth hint (R183), a hint at the last word (R41). -/
def hintCauses (w : View) : List Detail :=
  let last : List Detail :=
    if 4 ≤ w.gr.hints.length then
      [{ cause := Cause.illOperand, value := w.firstWord.zeroExtend 64, word := fetchAt w.s w.core w.gr.slot w.wordPc }]
    else if 16383 ≤ w.wordPc then [ovlMiss w.s w.core w.gr.slot 16384]
    else []
  if wordPoisoned w || !last.isEmpty then brokenCauses w last else []

/-- A hint word presents. -/
def runHint (z : State) (h : Hint) : Host.Outcome State Fault Refusal :=
  match view z with
  | none => .next z
  | some w =>
    if !mayPresent w then .next z
    else
      let ds := hintCauses w
      runM z (if ds.isEmpty then modGroup w.g fun gr => { gr with hints := gr.hints ++ [h] }
        else takeTrap w.g ds w.unitPc none)

/-- hint.imm (R184). -/
def execHintImm (p : BitVec 26) (s : State) : Host.Outcome State Fault Refusal := runHint s (.imm p)

/-- hint.sched (R185). -/
def execHintSched (stall : BitVec 6) (yld : BitVec 1) (rsv : BitVec 19) (s : State) : Host.Outcome State Fault Refusal :=
  runHint s (.sched stall.toNat (yld == 1) (rsv != 0))

/-- hint.mod (R186). -/
def execHintMod (rnd : BitVec 2) (sat nega negb absa absb odst : BitVec 1) (oidx : BitVec 3) (ef : BitVec 1)
    (qidx scope : BitVec 3) (rsv : BitVec 8) (s : State) : Host.Outcome State Fault Refusal :=
  runHint s (.mod
    { rnd := rnd, sat := sat == 1, nega := nega == 1, negb := negb == 1, absa := absa == 1, absb := absb == 1
      odst := odst == 1, oidx := oidx, ef := ef == 1, qidx := qidx, scope := scope }
    (rsv != 0 || 5 ≤ scope.toNat))

end Sys2Proof.Machine
end

