-- ==== Sys2Proof/Machine/Preempt.lean ====
section
/-! DEFINITION. Trap entry (R335), pre-emption: the treatments of R341, saving (R342, R344), flushing (R343), restoring
(R345), and migration (R332, R387). -/

namespace Sys2Proof.Machine

variable {z : State}

/-! Trap entry -/

/-- TRAP_ENTRY (R335 steps 2 to 5): the loads and SFU results of a group with causes have drained. -/
def execTrapEntry (g : Nat) (s : State) : Host.Outcome State Fault Refusal :=
  runM s (do
    let gr ← getGroup g
    let p ← need gr.trap.pending
    guardS (gr.lcnt = 0 && gr.fcnt = 0 && (s.groupCore? g).isSome)
    enterHandler g p.raised p.tpc p.tmask)

/-! Requests (R341, R353) -/

/-- The members of a team's neighbourhood, which is treated as one team, or the team alone (R341). -/
def together (s : State) (e : Nat) : List Nat := nbhTeams s e

/-- A PREEMPT record, in record mode only (R353): SEQ is the count of saves after the event. -/
def recordPreempt (eid obj saves : Nat) : M z Unit := do
  let t ← getTeam eid
  let l ← getLaunch t.launch
  if l.journal = 1 then
    let _ ← journalAt t.launch
      { point := pointCommand, typ := JType.preempt, sys := true, src := t.tag, seq := saves, obj := obj }

/-- The function's limits (R340). -/
def flushLimit (s : State) (t : Team) : Nat := (s.fn (ctxFn t.ctx)).prctl.toNat / 2 ^ 32
def drainLimit (s : State) (t : Team) : Nat := (s.fn (ctxFn t.ctx)).prctl.toNat % 2 ^ 32

/-- The free slots of a context's save area. -/
def freeSlots (s : State) (ctx : Nat) : List Nat :=
  (List.range (s.ctx ctx).svcnt.toNat).filter fun i => !(s.ctx ctx).saveUsed.contains i

/-- The free slots that no team on its way out has been promised (R341, R387). -/
def openSlots (s : State) (ctx : Nat) : Nat :=
  (freeSlots s ctx).length - (s.teams.filter fun e => e.2.ctx == ctx && e.2.core.isSome && e.2.preempt == some 0).length

/-- A team that may be treated: resident, at work, with no treatment under way. -/
def treatable (t : Team) : Bool :=
  t.core.isSome && (t.state == .running || t.state == .starved) && t.preempt.isNone

/-- The first row of R341 that applies: 2 flush, 1 drain, 0 save. A neighbourhood is never flushed; a member that is DONE or
unwinding takes no part. -/
def treatment (s : State) (e : Nat) (t : Team) : Nat :=
  let ms := ((together s e).filterMap s.team?).filter treatable
  let jmode := match s.launch? t.launch with | some l => l.jmode | none => 0
  if !isNbh s e && t.shape.idem && t.children.all (fun c => match s.grid? c with | some gd => gridDone s gd | none => true) &&
      !t.spawned && t.charged ≤ flushLimit s t && jmode = 0 then 2
  else if ms.all fun m => m.al.toNat ≤ drainLimit s m then 1
  else if ms.length ≤ openSlots s t.ctx then 0
  else 1

/-- A team's residency in cycles of its cluster, against 250 µs (R332). -/
def residentLong (s : State) (t : Team) : Bool :=
  match t.core with
  | some c => t.beginCyc + 250 * setClock s (coreCluster c) ≤ (s.cluster (coreCluster c)).cyc
  | none => false

/-- PSTATE.THERM of a cluster. -/
def hot (s : State) (cl : Nat) : Bool := (s.cluster cl).therm || s.dev.emergency

/-- A migration request proceeds, is withdrawn, or waits on (R387). -/
def proceedMigration (eid : Nat) : M z Unit := do
  let s ← getS
  let t ← getTeam eid
  let gd ← getGrid t.grid
  match t.core with
  | none => pure ()
  | some c =>
    if !residentLong s t then pure ()
    else if !hot s (coreCluster c) then modTeam eid fun t => { t with migrate := false }
    else if (chooseCore s t gd (hot s) fun _ => true).isNone || openSlots s t.ctx = 0 then pure ()
    else modTeam eid fun t => { t with preempt := some 0, migrate := false, moving := true }

/-- A migration request (R332): never of a neighbourhood's member, only off a cluster with THERM = 1. -/
def requestMigration (eid : Nat) : M z Unit := do
  let s ← getS
  let t ← getTeam eid
  let c ← need t.core
  guardS (treatable t && !isNbh s eid && !t.migrate && hot s (coreCluster c))
  modTeam eid fun t => { t with migrate := true }
  proceedMigration eid

/-- MIGRATION_REQUEST (R387). -/
def execMigrationRequest (eid : Nat) (s : State) : Host.Outcome State Fault Refusal := runM s (requestMigration eid)

/-- MIGRATION_RESIDENCY_REACHED (R387): a waiting request meets a team of 250 µs or more; it may find its conditions anew. -/
def execMigrationResidencyReached (eid : Nat) (s : State) : Host.Outcome State Fault Refusal :=
  runM s (do
    let t ← getTeam eid
    guardS (t.migrate && treatable t && residentLong s t)
    proceedMigration eid)

/-- PREEMPT_REQUEST (R341): the treatment is chosen now; a drained team runs on. -/
def execPreemptRequest (eid : Nat) (purpose : PreemptPurpose) (s : State) : Host.Outcome State Fault Refusal :=
  runM s (match purpose with
    | .migrate => requestMigration eid
    | _ => do
      let t ← getTeam eid
      let ms := together s eid
      guardS (ms.all fun e => match s.team? e with | some m => treatable m || m.state == .done || m.state == .unwinding | none => true)
      guardS (treatable t)
      let k := treatment s eid t
      forEach ms fun e => do
        let m ← getTeam e
        if treatable m then
          if k = 1 then recordPreempt e 2 m.saves
          modTeam e fun t => { t with preempt := some k })

/-! Saving (R342, R344) -/

/-- The register block of a group: the byte at an offset, none where R344 leaves it opaque. -/
def groupImage (gr : Group) (off : Nat) : Option Byte :=
  let word32 (x : W32) (i : Nat) : Option Byte := some (BitVec.ofNat 8 (x.toNat / 256 ^ i))
  let word64 (x : W64) (i : Nat) : Option Byte := some (BitVec.ofNat 8 (x.toNat / 256 ^ i))
  if off < 0x4000 then word32 (gr.rv (off / 128) (off % 128 / 4)) (off % 4)
  else if off < 0x4400 then word32 (gr.ro ((off - 0x4000) / 128) (off % 128 / 4)) (off % 4)
  else if off < 0x4500 then word32 (gr.rl ((off - 0x4400) / 128) (off % 128 / 4)) (off % 4)
  else if off < 0x4900 then word32 (gr.rq ((off - 0x4500) / 128) (off % 128 / 4)) (off % 4)
  else if off < 0x4B00 then word64 (gr.rs ((off - 0x4900) / 8)) (off % 8)
  else if off < 0x4B20 then word32 (gr.rk ((off - 0x4B00) / 4)) (off % 4)
  else if off < 0x4B50 then
    let x : Nat := match (off - 0x4B20) / 8 with
      | 0 => gr.exm.toNat
      | 1 => gr.trap.tpc.toNat
      | 2 => gr.trap.tmask.toNat
      | 3 => gr.trap.tcause.toNat
      | 4 => gr.trap.tmode.toNat
      | _ => gr.trap.tvec.toNat
    word64 (BitVec.ofNat 64 x) (off % 8)
  else none

/-- The header (R344). -/
def saveHeader (t : Team) : Nat :=
  (if t.pendingCost.isSome then 1 else 0) + t.tag * 2 ^ 24 + t.ptag * 2 ^ 48 + t.tidx * 2 ^ 96 + t.shape.groups * 2 ^ 128 +
    ctxId t.ctx * 2 ^ 144 + (t.saves + 1) % 2 ^ 32 * 2 ^ 160 + t.al.toNat * 2 ^ 192

/-- The byte of a slot image at an offset; none where R344 leaves it opaque. -/
def imageByte (s : State) (e : Nat) (t : Team) (off : Nat) : Option Byte :=
  let byteOf (x i : Nat) : Option Byte := some (BitVec.ofNat 8 (x / 256 ^ i))
  if off < 0x40 then byteOf (saveHeader t) off
  else if off < 0x1000 then none
  else if off < 0x1000 + 0x6000 * t.shape.groups then
    match s.group? (32 * e + (off - 0x1000) / 0x6000) with
    | some gr => groupImage gr ((off - 0x1000) % 0x6000)
    | none => none
  else if off < 0xC1000 then none
  else if off < 0x101000 then some (spByte t (off - 0xC1000))
  else if off < 0x181000 then some (SMap.look 0 t.mat.window (off - 0x101000))
  else if off < 0x191000 then byteOf (SMap.look 0 t.mat.acc ((off - 0x181000) / 4)).toNat ((off - 0x181000) % 4)
  else if off < 0x391000 then some (SMap.look 0 t.mat.bstore (off - 0x191000))
  else none

/-- Writes the image of a team into its slot, page by page; opaque bytes are free (log entry 5). -/
def writeImage (e slot : Nat) : M z Unit := do
  let t ← getTeam e
  let l ← getLaunch t.launch
  let s ← getS
  let base : W64 := (s.ctx t.ctx).svbase + BitVec.ofNat 64 (0x400000 * slot)
  forEach (List.range 1024) fun p => do
    match ← sysXlate t.ctx l.rcd Kind.write (base + BitVec.ofNat 64 (4096 * p)) true with
    | .error _ => stay
    | .ok a =>
      forEach (List.range 64) fun j => do
        let bytes ← mapEach (List.range 64) fun i =>
          match imageByte s e t (4096 * p + 64 * j + i) with
          | some b => pure b
          | none => freeByte
        sysWrite (a.pa + 64 * j) bytes

/-- Whether a group of a team that stops has drained (R342 step 2); a parked access is not waited for. -/
def groupDrained (gr : Group) : Bool :=
  gr.exited || (gr.ls.isEmpty && gr.sfu.isEmpty && gr.sq.isEmpty && gr.trap.pending.isNone)

/-- The overlay in slot 1 of the team's core, where one of its groups runs there. -/
def slotOneKey (s : State) (e core : Nat) : Option (Nat × Nat) :=
  if (s.teamGroups e).any fun g => match s.group? g with | some gr => gr.slot == 1 && !gr.exited | none => false
  then (s.core core).tag1 else none

/-- The slot a save takes: which free one is not fixed, so a free value chooses, and the lowest stands where it names none. -/
def chooseSlot (s : State) (ctx : Nat) : Option Nat :=
  let free := freeSlots s ctx
  let hint := (Config.freeWord s.free).toNat % 65536
  if free.contains hint then some hint else free.head?

/-- A group as it is saved (R342): one that is held or parked keeps its unit's hints, so that the unit ends after them when it
goes on; any other presents its unit from the first word. A parked one translates its lanes again (R36). -/
def Group.saved (gr : Group) : Group :=
  { gr with hints := if gr.hold.isSome || gr.parked.isSome then gr.hints else []
            stallUntil := 0, yielded := none, heldAt := none, sysWait := none
            parked := gr.parked.map fun p => { p with waits := [] } }

/-- PREEMPT_SAVE (R342). -/
def saveTeam (e : Nat) : M z Unit := do
  let s ← getS
  let t ← getTeam e
  let core ← need t.core
  guardS (t.preempt == some 0 && t.stop == .running && (t.state == .running || t.state == .starved) && !engineBusy s e)
  guardS ((s.teamGroups e).all fun g => match s.group? g with | some gr => groupDrained gr | none => true)
  let slot ← need (chooseSlot s t.ctx)
  modS fun s => { s with free := s.free + 1 }
  noteWaiting
  recordPreempt e 0 (t.saves + 1)
  writeImage e slot
  forEach (s.teamGroups e) fun g => do
    let gr ← getGroup g
    match gr.parked with
    | some p => detach (p.waits.map (·.2))
    | none => pure ()
    releaseCurrent (coreCluster core) (.cres g)
    modGroup g Group.saved
  modTeam e fun t =>
    { t with state := .saved slot, core := none, preempt := none, saves := t.saves + 1, ov1 := slotOneKey s e core }
  modCtx t.ctx fun c => { c with saveUsed := c.saveUsed ++ [slot] }

/-- PREEMPT_SAVE (R342). -/
def execPreemptSave (eid : Nat) (s : State) : Host.Outcome State Fault Refusal := runM s (saveTeam eid)

/-! Flushing (R343) -/

/-- TEAM_FLUSH (R343): the team returns to not begun with its share; its taken tickets are given up, its passes stand. -/
def flushTeam (e : Nat) : M z Unit := do
  let s ← getS
  let t ← getTeam e
  guardS (t.preempt == some 2 && t.stop == .running && (t.state == .running || t.state == .starved) && t.core.isSome && !engineBusy s e)
  guardS ((s.teamGroups e).all fun g => match s.group? g with
    | some gr => gr.sq.isEmpty && gr.outbox.isEmpty && match gr.hold with | some (.topup _ _ _) => false | _ => true
    | none => true)
  noteWaiting
  endGroups (s.teamGroups e)
  modS fun s => { s with groups := (s.teamGroups e).foldl SMap.del s.groups }
  modTeam e fun t =>
    { t.leaveCore with state := .notBegun, al := t.share, preempt := none, migrate := false, moving := false, pendingCost := none, charged := 0
                       barriers := [], took := [], stop := .running }

/-- TEAM_FLUSH (R343). -/
def execTeamFlush (eid : Nat) (s : State) : Host.Outcome State Fault Refusal := runM s (flushTeam eid)

/-! Restoring (R345) -/

/-- Slot 1 of the new core suits a team that was saved with groups there (log entry 36). -/
def slotOneSuits (s : State) (core : Nat) (t : Team) : Bool :=
  match t.ov1 with
  | none => true
  | some k => (s.core core).tag1 == some k || slotOneFree s core

/-- One saved team returns on a core. -/
def restoreOn (e core : Nat) : M z Unit := do
  let s ← getS
  let t ← getTeam e
  let l ← getLaunch t.launch
  let cl := coreCluster core
  guardS (slotOneSuits s core t)
  match t.state with
  | .saved slot => do
    if (s.core core).tag0 != some (overlayKey s t) then
      match ← asWaiter (.team e) (overlayWords t.ctx l.rcd l.odir t.shape.ovid) with
      | some ws => fillSlot core 0 (some (overlayKey s t)) ws
      | none => fillSlot core 0 none []
    match t.ov1 with
    | some k =>
      if (s.core core).tag1 != some k then
        match ← asWaiter (.team e) (overlayWords t.ctx l.rcd l.odir k.2) with
        | some ws => fillSlot core 1 (some k) ws
        | none => fillSlot core 1 none []
    | none => pure ()
    recordPreempt e 1 t.saves
    modTeam e fun t =>
      { t with
        state := if t.pendingCost.isSome then .starved else .running
        core := some core, beginCyc := (s.cluster cl).cyc, moving := false, ov1 := none
        al := t.al + BitVec.ofNat 64 t.due, due := 0, sysWait := none
        mat := { t.mat with unit0 := (freeUnits (matrixTeams s cl) (unitsOf t.shape)).getD 0 } }
    forEach (s.teamGroups e) fun g => modGroup g fun gr =>
      if gr.trap.tmode.getLsbD 3 && !gr.exited then { gr with preemptDue := some (if t.moving then 1 else 0) } else gr
    if t.tidx = 0 then modGrid t.grid fun gd => { gd with core0 := core }
    modCluster cl fun c => { c with crc := [] }
    modCtx t.ctx fun c => { c with saveUsed := c.saveUsed.filter (· != slot) }
    wakeString (clusterString cl)
  | _ => stay

def isSaved (s : State) (e : Nat) : Bool :=
  match s.team? e with
  | some t => (match t.state with | .saved _ => true | _ => false)
  | none => false

/-- The cores open to a saved team: those no waiting neighbourhood keeps, with a slot 1 that suits what is saved. -/
def restoreFree (s : State) (e : Nat) (t : Team) (core : Nat) : Bool :=
  !(keptCores s t.grid).contains core && (together s e).all fun m => match s.team? m with
    | some u => slotOneSuits s core u
    | none => true

/-- TEAM_RESTORE (R345): on the core R323 chooses, for a migrated team without clusters of THERM = 1 (R387); a
neighbourhood's saved members return together on a rectangle (R324). -/
def restoreTeam (eid core : Nat) : M z Unit := do
  noteWaiting
  let s ← getS
  let t ← getTeam eid
  let gd ← getGrid t.grid
  guardS (isSaved s eid)
  if gd.nbh then
    guardS (gd.teams.all fun e => isSaved s e || match s.team? e with | some u => u.state == .done | none => true)
    let o ← need (rectOrigin s t gd.count (restoreFree s eid t))
    guardS (rectCore (rectShape gd.count) o t.tidx == core)
    forEach gd.teams.zipIdx fun (e, i) => if isSaved s e then restoreOn e (rectCore (rectShape gd.count) o i) else pure ()
  else
    let r ← need (chooseCore s t gd (if t.moving then hot s else fun _ => false) (restoreFree s eid t))
    guardS (r.2 == core)
    if !t.moving then modGrid t.grid fun gd => { gd with string := some r.1 }
    restoreOn eid core
  noteWaiting

/-- TEAM_RESTORE (R345). -/
def execTeamRestore (eid core : Nat) (s : State) : Host.Outcome State Fault Refusal := runM s (restoreTeam eid core)

/-- PREEMPT is raised in a restored group before its first unit (R345). -/
def raisePreempt (w : View) (code : Nat) : M z Unit := do
  modGroup w.g fun gr => { gr with preemptDue := none }
  takeTrap w.g [{ cause := Cause.preempt, code := BitVec.ofNat 16 code, value := BitVec.ofNat 64 w.t.saves }] w.unitPc none

end Sys2Proof.Machine
end

