-- ==== Sys2Proof/Machine/Debug.lean ====
section
/-! DEFINITION. The debugger of a function: attaching, stopping, resuming, stepping, reading and writing registers (R346 to
R348). Each operation completes in its own step, so BUSY is never seen. -/

namespace Sys2Proof.Machine

variable {z : State}

/-- The fields of DBGCTL (R346). -/
def dbgCtx (s : State) (f : Nat) : Nat := f * 65536 + bitsOf (s.fn f).dbgctl.toNat 63 48
def dbgGidx (s : State) (f : Nat) : Nat := bitsOf (s.fn f).dbgctl.toNat 23 19

/-- An operation that is refused sets DBGSTAT.ERR. -/
def dbgRefuse (f : Nat) : M z Unit := modFn f fun r => { r with dbgErr := true }

/-- Attach and detach: the context must be live (R346). -/
def dbgAttach (f : Nat) (on : Bool) : M z Unit := do
  let s ← getS
  match liveCtx s f (dbgCtx s f % 65536) with
  | some _ => modCtx (dbgCtx s f) fun c => { c with watched := on }
  | none => dbgRefuse f

/-- The named team where it satisfies `ok`, or a refusal. -/
def dbgTeam (f : Nat) (ok : Team → Bool) (act : Nat → Team → M z Unit) : M z Unit := do
  let s ← getS
  match debugTeam s f with
  | some e => do
    let t ← getTeam e
    if ok t then act e t else dbgRefuse f
  | none => dbgRefuse f

/-- Stop (R347). -/
def dbgStop (f : Nat) : M z Unit :=
  dbgTeam f (fun t => t.core.isSome && t.stop != .stopped) fun e _ => modTeam e fun t => { t with stop := .stopping }

/-- The wait of a group that enters its handler at a debugger's resume ends without effect, and a parked access withdraws, as
under R148 (log entry 91). -/
def endWait (g : Nat) : M z Unit := do
  let gr ← getGroup g
  let e := groupTeam g
  match gr.parked with
  | some p => detach (p.waits.map (·.2))
  | none => pure ()
  unlockLines g
  dropEvents g
  match gr.hold with
  | some (.cres _ _) => releaseCurrent ((← getS).groupCluster g) (.cres g)
  | some (.topup _ _ a) => creditBack e a
  | some (.ticket j) => modTeam e fun t => { t with took := t.took.filter (· != j) }
  | some (.barrier b _ _ _ _) => do
    let x := barrierOf (← getS) e b
    setBarrier e b { x with held := x.held.filter (·.1 != g) }
  | _ => pure ()
  modGroup g fun gr => { gr with hold := none, parked := none, hints := [] }

/-- The lanes that a stop left of a group's unit are those it goes on with (R336, R347). -/
def Group.continued (gr : Group) : Group :=
  match gr.left with
  | some m =>
    let full := gr.trap.resume.getD gr.exm
    { gr with left := none, exm := m &&& full
              trap := { gr.trap with resume := if m &&& full = full then none else some full } }
  | none => gr

/-- A group with causes enters its handler as its team resumes (R348); ALLOW_EXH never does (R334). Any other goes on, with the
lanes of its unit that are not performed (R336). -/
def resumeGroup (g : Nat) : M z Unit := do
  let gr ← getGroup g
  if gr.trap.tcause &&& ~~~(1#64 <<< Cause.allowExh) ≠ 0 && !gr.inHandler && !gr.exited then
    modGroup g fun gr => { gr with left := none }
    if gr.trap.tvec.getLsbD 15 then
      endWait g
      enterHandler g [] gr.trap.tpc gr.trap.tmask
    else unwind (groupTeam g)
  else modGroup g Group.continued

/-- Resume (R348). -/
def dbgResume (f : Nat) : M z Unit :=
  dbgTeam f (fun t => t.stop == .stopped) fun e _ => do
    modTeam e fun t => { t with stop := .running }
    forEach ((← getS).teamGroups e) resumeGroup

/-- Step one unit of the named group (R348). -/
def dbgStep (f : Nat) : M z Unit := do
  let i := dbgGidx (← getS) f
  dbgTeam f (fun t => t.stop == .stopped && i < t.shape.groups) fun e _ => do
    let gr ← getGroup (32 * e + i)
    if gr.exited then dbgRefuse f
    else
      modTeam e fun t => { t with stop := .stepping i }
      resumeGroup (32 * e + i)

/-- Registers the debugger may reach by FILE 5 (R348): those R203 marks RW, with TCAUSE, TDET0 to TDET2 and EXM. -/
def dbgSystem (n : Nat) : Bool := sysWritable.contains n || n = 0x040 || (0x043 ≤ n && n ≤ 0x045) || n = 0x000

/-- The register DBGREG names for a group of a budget, by FILE, NUM and LANE (R346); none where R348 refuses it. -/
def dbgReg (r : Nat) (budget : Nat) : Option (Nat × Nat × Nat) :=
  let file := bitsOf r 15 12
  let num := bitsOf r 11 5
  let lane := bitsOf r 4 0
  let ok : Bool := match file with
    | 0 => num < budget
    | 1 | 4 => num < 8
    | 2 => num < 64
    | 3 => num < 8
    | 5 => dbgSystem (num + 128 * lane)
    | 6 => num < 2
    | _ => false
  if ok then some (file, num, lane) else none

/-- A register's value for the debugger. -/
def dbgValue (s : State) (g : Nat) (gr : Group) (t : Team) (file num lane : Nat) : W64 :=
  match file with
  | 0 => (gr.rv num lane).zeroExtend 64
  | 1 => (gr.ro num lane).zeroExtend 64
  | 2 => gr.rs num
  | 3 => (gr.rk num).zeroExtend 64
  | 4 => (gr.rq num lane).zeroExtend 64
  | 5 => BitVec.ofNat 64 (sysWord s g gr t (num + 128 * lane))
  | _ => (gr.rl num lane).zeroExtend 64

/-- A write to TDETn changes the detail it shows (R339, log entry 37). -/
def TrapState.writeTdet (t : TrapState) (n : Nat) (x : Nat) : TrapState :=
  match t.selected with
  | none => t
  | some (c, grp, _) =>
    let d := t.detail c
    let lowVal (d : Detail) : Detail := { d with value := BitVec.ofNat 64 (d.value.toNat / 2 ^ 32 * 2 ^ 32 + x % 2 ^ 32) }
    let highVal (d : Detail) : Detail := { d with value := BitVec.ofNat 64 (x % 2 ^ 32 * 2 ^ 32 + d.value.toNat % 2 ^ 32) }
    let compat := t.tmode.getLsbD 0
    let d := match n with
      | 0 => if compat then { d with code := BitVec.ofNat 16 (x / 65536), lane := x / 512 % 32 }
             else { d with code := BitVec.ofNat 16 x, lane := x / 65536 % 32 }
      | 1 => if compat && grp = 7 then { d with lanes := BitVec.ofNat 32 x }
             else if compat && grp = 4 && c ≠ Cause.layerOvf && c ≠ Cause.layerBad && c ≠ Cause.ovlMiss then
               { d with word := BitVec.ofNat 32 x }
             else lowVal d
      | _ => if compat && grp = 3 then { d with al := BitVec.ofNat 64 x }
             else if compat && (grp = 4 || grp = 7) then d
             else highVal d
    { t with details := d :: t.details.filter fun d => d.cause ≠ c }

/-- A detail no trap gave: every value of it is free (log entry 5). -/
def freeDetail (c n : Nat) : Detail where
  cause := c
  lane := (Config.freeWord n).toNat % 32
  code := (Config.freeWord (n + 1)).extractLsb' 0 16
  value := Config.freeWord (n + 2)
  lanes := (Config.freeWord (n + 3)).extractLsb' 0 32
  word := (Config.freeWord (n + 4)).extractLsb' 0 32
  al := Config.freeWord (n + 5)

/-- A write of TCAUSE replaces it whole; causes it newly sets have no detail of a trap. -/
def TrapState.writeCause (t : TrapState) (x : W64) (free : Nat) : TrapState :=
  let new := (List.range 29).filter fun c => x.getLsbD c && !t.tcause.getLsbD c
  { t with tcause := x &&& 0x1FFFFFFF
           details := new.map (fun c => freeDetail c (free + 6 * c)) ++ t.details.filter fun d => !new.contains d.cause }

/-- A group after the debugger's write. -/
def dbgWritten (gr : Group) (file num lane : Nat) (x : W64) (free : Nat) : Group :=
  let x32 := x.extractLsb' 0 32
  match file with
  | 0 => gr.setV num lane x32
  | 1 => gr.setO num lane x32
  | 2 => gr.setS num x
  | 3 => gr.setK num x32
  | 4 => gr.setQ num lane x32
  | _ =>
    let n := num + 128 * lane
    if n = 0x000 then gr.setExm (x32 &&& gr.bound)
    else if n = 0x040 then { gr with trap := gr.trap.writeCause x free }
    else if 0x043 ≤ n && n ≤ 0x045 then { gr with trap := gr.trap.writeTdet (n - 0x043) x.toNat }
    else { gr with trap := gr.trap.write n x }

/-- Read (R348). -/
def dbgRead (f : Nat) : M z Unit := do
  let s ← getS
  let i := dbgGidx s f
  dbgTeam f (fun t => t.stop == .stopped && i < t.shape.groups) fun e t => do
    let gr ← getGroup (32 * e + i)
    match dbgReg (s.fn f).dbgreg.toNat (t.budget i) with
    | some (file, num, lane) => modFn f fun r => { r with dbgdata := dbgValue s (32 * e + i) gr t file num lane }
    | none => dbgRefuse f

/-- Write (R348): l0 and l1 may only be read. -/
def dbgWrite (f : Nat) : M z Unit := do
  let s ← getS
  let i := dbgGidx s f
  dbgTeam f (fun t => t.stop == .stopped && i < t.shape.groups) fun e t => do
    match dbgReg (s.fn f).dbgreg.toNat (t.budget i) with
    | some (6, _, _) | none => dbgRefuse f
    | some (file, num, lane) => do
      modS fun s => { s with free := s.free + 256 }
      modGroup (32 * e + i) fun gr => dbgWritten gr file num lane (s.fn f).dbgdata s.free

/-- DEBUG_ATTACH (R346). -/
def execDebugAttach (fn : Nat) (s : State) : Host.Outcome State Fault Refusal := runM s (dbgAttach fn true)
/-- DEBUG_DETACH (R346). -/
def execDebugDetach (fn : Nat) (s : State) : Host.Outcome State Fault Refusal := runM s (dbgAttach fn false)
/-- DEBUG_STOP (R347). -/
def execDebugStop (fn : Nat) (s : State) : Host.Outcome State Fault Refusal := runM s (dbgStop fn)
/-- DEBUG_RESUME (R348). -/
def execDebugResume (fn : Nat) (s : State) : Host.Outcome State Fault Refusal := runM s (dbgResume fn)
/-- DEBUG_STEP (R348). -/
def execDebugStep (fn : Nat) (s : State) : Host.Outcome State Fault Refusal := runM s (dbgStep fn)
/-- DEBUG_READ (R348). -/
def execDebugRead (fn : Nat) (s : State) : Host.Outcome State Fault Refusal := runM s (dbgRead fn)
/-- DEBUG_WRITE (R348). -/
def execDebugWrite (fn : Nat) (s : State) : Host.Outcome State Fault Refusal := runM s (dbgWrite fn)

/-- TEAM_STOPPED (R347): every group has LCNT = 0 and FCNT = 0. -/
def execTeamStopped (eid : Nat) (s : State) : Host.Outcome State Fault Refusal :=
  runM s (do
    let t ← getTeam eid
    guardS (t.stop == .stopping && (s.teamGroups eid).all fun g => match s.group? g with
      | some gr => gr.lcnt = 0 && gr.fcnt = 0 && gr.trap.pending.isNone
      | none => true)
    modTeam eid fun t => { t with stop := .stopped }
    forEach (s.teamGroups eid) fun g => modGroup g fun gr =>
      { gr with hints := if gr.hold.isSome || gr.parked.isSome then gr.hints else [] })

end Sys2Proof.Machine
end

