-- ==== Sys2Proof/Machine/Reply.lean ====
section
/-! DEFINITION. The server of misses: replies to page requests (R32, R36, R386), and invalidation of cached translations
(R26, R27). -/

namespace Sys2Proof.Machine

variable {z : State}

/-! Replies (R32) -/

/-- Points of an engine operation that wait on a slot become ready; a FAIL reply also denies them the access that missed
(R91). -/
def answerPoints (wt : Wait) (fail : Bool) (waiting : List (Nat × Wait)) (retry : List Nat) (missed : SMap Nat)
    (denied : List (Nat × Nat)) : List (Nat × Wait) × List Nat × List (Nat × Nat) :=
  let mine := (waiting.filter fun e => e.2 = wt).map (·.1)
  (waiting.filter fun e => e.2 ≠ wt, retry ++ mine.filter (fun p => !retry.contains p),
    if fail then denied ++ mine.filterMap fun p => (SMap.get? missed p).map fun page => (p, page) else denied)

def CopyOp.answer (op : CopyOp) (wt : Wait) (fail : Bool) : CopyOp :=
  let r := answerPoints wt fail op.waiting op.retry op.missed op.denied
  { op with waiting := r.1, retry := r.2.1, denied := r.2.2 }

def MatOp.answer (op : MatOp) (wt : Wait) (fail : Bool) : MatOp :=
  let r := answerPoints wt fail op.waiting op.retry op.missed op.denied
  { op with waiting := r.1, retry := r.2.1, denied := r.2.2 }

def CollOp.answer (op : CollOp) (wt : Wait) (fail : Bool) : CollOp :=
  let r := answerPoints wt fail op.waiting op.retry op.missed op.denied
  { op with waiting := r.1, retry := r.2.1, denied := r.2.2 }

/-- Every engine operation that waits on the slot takes its reply. -/
def answerEngines (wt : Wait) (fail : Bool) : M z Unit :=
  modS fun s =>
    { s with
      clusters := s.clusters.map fun (i, c) =>
        (i, { c with copyq := c.copyq.map fun op => op.answer wt fail, mat := c.mat.map fun op => op.answer wt fail })
      colls := s.colls.map fun op => op.answer wt fail }

/-- What waits for the page while a system party reads it waits no more (R322). -/
def answerWaiters (wt : Wait) : M z Unit :=
  let gone (w : Option Wait) : Option Wait := if w = some wt then none else w
  modS fun s =>
    { s with groups := s.groups.map fun (i, gr) => (i, { gr with sysWait := gone gr.sysWait })
             teams := s.teams.map fun (i, t) => (i, { t with sysWait := gone t.sysWait })
             launches := s.launches.map fun (i, l) => (i, { l with sysWait := gone l.sysWait }) }

/-- The trap of a parked access whose page was denied (R32, R37): it names the lanes that waited on the slot, and leaves
every lane not yet performed. -/
def failAccess (g : Nat) (gr : Group) (p : Parked) (wt : Wait) : M z Unit :=
  let mine := (p.waits.filter fun e => e.2 = wt).map (·.1)
  failParked g p ((p.acc.lanes.filter fun a => mine.contains a.lane).map fun a => xlateDetail a.lane XCode.denied a.va)
    (packPc gr.slot gr.pc)

/-- A parked group takes the reply of its slot: its lanes translate again at its next turn, or the FAIL is acted on at once. A
read of issue meets the denial as its own unrecoverable result when its word presents again (R77, R283). -/
def answerGroup (g : Nat) (wt : Wait) (fail : Bool) : M z Unit := do
  let gr ← getGroup g
  match gr.parked with
  | none => pure ()
  | some p =>
    if p.waits.any fun e => e.2 = wt then
      let staged := match p.acc.kind with | .snap => true | _ => false
      if fail && !staged then failAccess g gr p wt
      else
        let page := match p.acc.lanes.head? with | some a => some (a.va.toNat / 4096) | none => none
        modGroup g fun gr =>
          { gr with parked := some { p with waits := p.waits.filter fun e => e.2 ≠ wt }, denied := if fail then page else none }

/-- A reply (R32): it frees its slot and acts on the waiters of that slot only; one that names a free slot or another
function is ignored and sets BADREPLY. -/
def reply (tbl vfn tag : Nat) (fail : Bool) : M z Unit := do
  let s ← getS
  let bad := 64 ≤ tbl && vfn ≠ tbl - 64
  match (if bad then none else SMap.get? (s.table tbl).slots tag) with
  | none => modTable tbl fun t => { t with bad := true }
  | some sl => do
    modTable tbl fun t =>
      { t with slots := SMap.del t.slots tag
               denied := if fail && sl.sys then t.denied ++ [(sl.page, sl.ctx, sl.stage)] else t.denied }
    let wt : Wait := .slot tbl tag
    answerEngines wt fail
    answerWaiters wt
    forEach s.groups fun e => answerGroup e.1 wt fail

/-- PRREPLY_RETRY (R32, R386). -/
def execPrreplyRetry (tbl vfn tag : Nat) (s : State) : Host.Outcome State Fault Refusal := runM s (reply tbl vfn tag false)

/-- PRREPLY_FAIL (R32, R386). -/
def execPrreplyFail (tbl vfn tag : Nat) (s : State) : Host.Outcome State Fault Refusal := runM s (reply tbl vfn tag true)

/-! Invalidation (R27) -/

/-- Whether a request covers a context: its own function's context, or every context of a function. -/
def covers (req : Nat × Nat × Nat × Nat) (ctx : Nat) : Bool :=
  if req.2.1 = 2 then ctxFn ctx = req.2.2.1 else ctx = req.2.2.1

/-- Whether two 4 KiB pages lie in one page of 2^bits bytes. -/
def samePage (bits a b : Nat) : Bool := a / 2 ^ (bits - 12) == b / 2 ^ (bits - 12)

/-- Whether a request (stage, scope, context or function, page) covers a cached translation: one page of stage 2 covers the
combined translations built on it. -/
def coversEntry (req : Nat × Nat × Nat × Nat) (e : TlbEntry) : Bool :=
  covers req e.ctx && (req.2.1 ≠ 0 || (if req.1 = 0 then samePage e.bits e.page req.2.2.2
    else e.ipas.any fun p => samePage (12 + p.2) p.1 req.2.2.2))

def dropCovered (req : Nat × Nat × Nat × Nat) : M z Unit :=
  modS fun s => { s with clusters := s.clusters.map fun (i, c) => (i, { c with tlb := c.tlb.filter fun e => !coversEntry req e }) }

/-- An access in a queue that a removed translation may have served. -/
def usesCovered (s : State) (req : Nat × Nat × Nat × Nat) : Bool :=
  s.groups.any fun (g, gr) =>
    let ctx := match s.team? (groupTeam g) with | some t => t.ctx | none => 0
    let hits (acc : Access) : Bool := acc.lanes.any fun a =>
      acc.space = 0 && !a.done && (req.2.1 ≠ 0 || req.1 = 1 || samePage a.bits (a.va.toNat / 4096) req.2.2.2)
    covers req ctx && (gr.sq.any (fun e => hits e.acc) || gr.ls.any fun e => hits e.acc)

/-- An invalidation starts (R27): ignored while BUSY, and where the function may not ask for it. -/
def startXinv (f stg scope ctx : Nat) : M z Unit := do
  let s ← getS
  let r := s.fn f
  let page := r.xinvAddr.toNat / 4096
  let allowed := f = 0 || (stg = 0 && scope ≤ 1)
  if r.xinvBusy.isNone && allowed && scope ≤ 2 then
    let target := if scope = 2 then page % 64 else f * 65536 + ctx % 65536
    let req := (stg, scope, target, page)
    modFn f fun r => { r with xinvBusy := some req }
    dropCovered req

/-- XINV_PAGE (R27): one page at XINVADDR. -/
def execXinvPage (fn stg ctx : Nat) (s : State) : Host.Outcome State Fault Refusal := runM s (startXinv fn stg 0 ctx)

/-- XINV_CONTEXT (R27). -/
def execXinvContext (fn stg ctx : Nat) (s : State) : Host.Outcome State Fault Refusal := runM s (startXinv fn stg 1 ctx)

/-- XINV_VFN (R27): the function is XINVADDR[17:12]. -/
def execXinvVfn (fn stg : Nat) (s : State) : Host.Outcome State Fault Refusal := runM s (startXinv fn stg 2 0)

/-- XINV_DONE (R27): no covered translation remains, and no access that used one is pending. -/
def execXinvDone (fn : Nat) (s : State) : Host.Outcome State Fault Refusal :=
  runM s (do
    let req ← need (s.fn fn).xinvBusy
    guardS (!usesCovered s req)
    dropCovered req
    modFn fn fun r => { r with xinvBusy := none })

end Sys2Proof.Machine
end

