-- ==== Sys2Proof/Machine/Mem.lean ====
section
/-! DEFINITION. The events of the memory system: queued writes and loads (R116, R117), evictions (R47, R67), partition commits
(R53), metadata zeroing (R61), and storage errors (R62 to R64). -/

namespace Sys2Proof.Machine

variable {z : State}

/-- STORE_PERFORM (R116). -/
def execStorePerform (g id : Nat) (s : State) : Host.Outcome State Fault Refusal :=
  runM s (do
    let gr ← getGroup g
    let e ← need (gr.sq.find? fun e => e.id = id)
    performEntry g e)

/-- LOAD_LAND (R117). -/
def execLoadLand (g id : Nat) (srcs : List LoadSource) (s : State) : Host.Outcome State Fault Refusal := runM s (landLoad g id srcs)

/-- CRC_EVICT (R47). -/
def execCrcEvict (cl line : Nat) (s : State) : Host.Outcome State Fault Refusal :=
  runM s (modCluster cl fun c => { c with crc := SMap.del c.crc line })

/-! Write-back (R63, R66, R67) -/

/-- L2_EVICT (R67): a dirty line is written back, and a rank in refresh keeps the write-back waiting (R56); another line
just leaves its slice. -/
def execL2Evict (line : Nat) (s : State) : Host.Outcome State Fault Refusal :=
  runM s (do
    guardS (linePresent s.home line && !rankBlocked s.dev (64 * line))
    evictLine line)

/-! Partitions (R51 to R53) -/

/-- HCOMMIT (R53): ignored while BUSY. -/
def startCommit (psel : BitVec 7) : M z Unit := do
  let s ← getS
  if s.dev.hcommit.isNone then modDev fun d => { d with hcommit := some psel }

/-- HCOMMIT (R53). -/
def execHcommit (psel : BitVec 7) (s : State) : Host.Outcome State Fault Refusal := runM s (startCommit psel)

/-- The shadow values of the selected partitions become current, as they stand when the commit ends: a shadow written while
BUSY is 1 takes part (log entry 86). -/
def Device.commit (d : Device) (sel : BitVec 7) : Device :=
  let ps := ([1, 2, 3, 4, 5, 6, 7] : List Nat).filter fun p => sel.getLsbD (p - 1)
  let masks := ps.flatMap fun p => (List.range 7).map fun i => 8 * p + i
  { d with
    hmask := masks.foldl (fun m k => match SMap.get? d.hmaskShadow k with | some v => SMap.put m k v | none => m) d.hmask
    partRng := ps.foldl (fun m p => match SMap.get? d.partRngShadow p with | some v => SMap.put m p v | none => m) d.partRng
    hcommit := none }

/-- HCOMMIT_DONE (R53): the slices have written back and dropped every line of the old and new ranges; a rank in refresh
keeps its write-back waiting (R56). -/
def execHcommitDone (s : State) : Host.Outcome State Fault Refusal :=
  runM s (do
    let sel ← need s.dev.hcommit
    let lines := (SMap.keys s.home.dirty ++ SMap.keys s.home.clean).filter fun l => commitBlocks s.dev (64 * l)
    guardS (lines.all fun l => (SMap.get? s.home.dirty l).isNone || !rankBlocked s.dev (64 * l))
    forEach lines evictLine
    modDev fun d => d.commit sel)

/-! Metadata zeroing (R61) -/

/-- MDZ_GO: PAGES is written, and GO is ignored while BUSY. -/
def startZeroing (pages : BitVec 20) : M z Unit := do
  let s ← getS
  modDev fun d => { d with mdzPages := pages }
  if s.home.zeroing.isNone then
    modHome fun h => { h with zeroing := some (s.dev.mdzAddr.toNat / 4096, pages.toNat) }

/-- MDZ_GO (R61). -/
def execMdzGo (pages : BitVec 20) (s : State) : Host.Outcome State Fault Refusal := runM s (startZeroing pages)

/-- MDZ_DONE (R61): the metadata of the range is zero; lines outside the window have none. -/
def execMdzDone (s : State) : Host.Outcome State Fault Refusal :=
  runM s (do
    let (page, n) ← need s.home.zeroing
    modHome fun h =>
      { h with info := SMap.delRange h.info (64 * page) (64 * n), infoPoison := SMap.delRange h.infoPoison (64 * page) (64 * n)
               zeroing := none })

/-! Errors (R62 to R64) -/

/-- The level of R64 that counts an error in a granule. An accumulator bank counts with the operand buffer and the B-store,
whose row of R62 names it (log entry 87). -/
def levelOf : Granule → Nat
  | .vlane _ _ _ | .olane _ _ _ | .llane _ _ _ | .qlane _ _ _ | .sreg _ _ | .kreg _ _ | .exm _ | .allowance _ | .sysreg _ _ => 0
  | .imem _ _ => 1
  | .spad _ _ => 2
  | .cacheLine _ _ => 3
  | .obuf _ _ | .bstore _ _ | .bank _ _ => 4
  | .sector _ => 5
  | .dram _ => 6
  | .metadata _ => 7

def modPoison (g : Nat) (f : RegPoison → RegPoison) : M z Unit := modGroup g fun gr => { gr with poison := f gr.poison }

/-- The matrix team whose banks hold the physical bank `n` of a cluster, and its name there: the banks of the resident
matrix teams stand one after the other. -/
def bankOwner (s : State) (cl n : Nat) : Option (Nat × Nat) :=
  let ts := s.teams.filter fun e => e.2.shape.obuf != 0 && match e.2.core with | some c => coreCluster c == cl | none => false
  (ts.foldl (fun (acc : Nat × Option (Nat × Nat)) e =>
    let k := obufBanks e.2.shape.obuf
    (acc.1 + k, if acc.2.isNone && acc.1 ≤ n && n < acc.1 + k then some (e.1, n - acc.1) else acc.2)) (0, none)).2

def modMatrix (e : Nat) (f : MatrixRes → MatrixRes) : M z Unit := modTeam e fun t => { t with mat := f t.mat }

/-- An uncorrectable error marks its granule (R62, R63); a read-cache line is dropped instead (R48). -/
def poisonGranule : Granule → M z Unit
  | .vlane g r l => modPoison g fun p => { p with v := NSet.add p.v (32 * r + l) }
  | .olane g r l => modPoison g fun p => { p with o := NSet.add p.o (32 * r + l) }
  | .llane g r l => modPoison g fun p => { p with l := NSet.add p.l (32 * r + l) }
  | .qlane g r l => modPoison g fun p => { p with q := NSet.add p.q (32 * r + l) }
  | .sreg g n => modPoison g fun p => { p with s := NSet.add p.s n }
  | .kreg g n => modPoison g fun p => { p with k := NSet.add p.k n }
  | .exm g => modPoison g fun p => { p with exm := true }
  | .allowance e => modTeam e fun t => { t with alPoison := true }
  | .sysreg e n => modTeam e fun t => { t with sysPoison := NSet.add t.sysPoison n }
  | .imem core w => modCore core fun c => { c with imemPoison := NSet.add c.imemPoison w }
  | .spad e off => modTeam e fun t => { t with spadPoison := PSet.add t.spadPoison (off / 8) }
  | .cacheLine cl line => modCluster cl fun c => { c with crc := SMap.del c.crc line }
  | .obuf cl off => do
    let s ← getS
    forEach s.teams fun (e, t) =>
      if t.shape.obuf != 0 && (match t.core with | some c => coreCluster c == cl | none => false) && 4096 * t.mat.unit0 ≤ off &&
          off < 4096 * t.mat.unit0 + t.mat.quota then
        modMatrix e fun m => { m with winPoison := PSet.add m.winPoison ((off - 4096 * t.mat.unit0) / 8) }
      else pure ()
  | .bstore cl off => do
    let s ← getS
    match bankOwner s cl (off % 32768 / 8192) with
    | some (e, b) => modMatrix e fun m =>
        { m with bPoison := PSet.add m.bPoison ((off / 32768 * 32768 + 8192 * b + off % 8192) / 8) }
    | none => pure ()
  | .bank cl n => do
    let s ← getS
    match bankOwner s cl n with
    | some (e, b) => modMatrix e fun m => { m with bankPoison := NSet.add m.bankPoison b }
    | none => pure ()
  | .sector pa => poisonSector pa
  | .dram pa => modHome fun h => { h with dramPoison := NSet.add h.dramPoison (pa / 64) }
  | .metadata line => modHome fun h => { h with infoPoison := NSet.add h.infoPoison line }

def bump (m : SMap W32) (v : Nat) : SMap W32 :=
  SMap.store 0 m v (sat32 ((SMap.look 0 m v).toNat + 1))

/-- UNCORRECTABLE_ERROR (R63, R64). -/
def execUncorrectableError (granule : Granule) (s : State) : Host.Outcome State Fault Refusal :=
  runM s (do
    poisonGranule granule
    modDev fun d => { d with ue := bump d.ue (levelOf granule) })

/-- CORRECTED_ERROR (R62, R64). -/
def execCorrectedError (level : Nat) (s : State) : Host.Outcome State Fault Refusal :=
  runM s (do
    guardS (level < 8)
    modDev fun d => { d with ce := bump d.ce level })

end Sys2Proof.Machine
end

