-- ==== Sys2Proof/Machine/CmdProc.lean ====
section
/-! DEFINITION. The command processor: doorbells and queues (R308 to R310), packets (R311 to R314), completion records (R315),
host control of a live launch (R316), queue slots (R317, R318), and the Weir (R319 to R322). -/

namespace Sys2Proof.Machine

variable {z : State}

/-! Registers it raises -/

/-- QERR gains a bit: the error vector is raised (R370). -/
def setQerr (f bit : Nat) : M z Unit := do
  let r := (← getS).fn f
  if !r.qerr.getLsbD bit then
    modFn f fun r => { r with qerr := r.qerr ||| BitVec.ofNat 4 (2 ^ bit) }
    raiseMsix f 3

/-- 32 or 64 bytes at an aligned address, as a number; none where the translation is unrecoverable. -/
def sysNat (ctx : Nat) (c : CtxRec) (va : W64) (n : Nat) : M z (Option Nat) := do
  let r ← sysRead ctx c va n
  pure (r.map bytesNat)

/-! Queues (R308, R309) -/

def queueKey (ctx q : Nat) : Nat := ctx * 65536 + q

/-- A queue record (R308). -/
structure QueueRec where
  cls : Nat
  en : Bool
  logn : Nat
  rptr : W32
  rbase : W64
  bad : Bool
  deriving DecidableEq, Repr

/-- A record that breaks R308: LOGN, a reserved field, or RBASE not 64-aligned. -/
def readQueueRec (v : Nat) : QueueRec where
  cls := bitsOf v 327 326
  en := bitOf v 325
  logn := bitsOf v 324 320
  rptr := BitVec.ofNat 32 (bitsOf v 287 256)
  rbase := BitVec.ofNat 64 v
  bad := bitsOf v 511 328 ≠ 0 || bitsOf v 319 288 ≠ 0 || bitsOf v 255 64 ≠ 0 || bitsOf v 324 320 < 4 || 20 < bitsOf v 324 320 ||
    v % 64 ≠ 0

namespace HostQueue

/-- Packets written and not taken. -/
def unread (q : HostQueue) : Nat := (q.wptr - q.rptr).toNat

/-- The packet at RPTR has been written (R312). -/
def hasPacket (q : HostQueue) : Bool := 1 ≤ q.unread && q.unread < 2 ^ 31

def waiting (q : HostQueue) : Bool := q.hasPacket && q.slot.isNone && !q.stopped
def idle (q : HostQueue) : Bool := q.slot.isSome && !q.hasPacket && q.opened.isNone

end HostQueue

/-- A doorbell the command processor ignores (R309); an idle queue loses its slot (R318). -/
def refuseDoorbell (f key : Nat) : M z Unit := do
  setQerr f 0
  modQueue key fun q => if q.idle then { q with slot := none, reclaim := false } else q

/-- Where the record of context `n` of a function stands (R307). -/
def ctxRecAt (s : State) (f n : Nat) : Nat := (s.fn f).ctbase.toNat + 32 * n

/-- A read of the context record waits as any access does (R53, R56). -/
def awaitCtxRec (f n : Nat) : M z Unit := do
  let s ← getS
  guardS (!paBlocked s (ctxRecAt s f n))

/-- A doorbell acts once its record has been read (R309). RPTR is kept by the command processor, which alone writes it; a
record at another place, or of a context that has changed, is a queue that is new (R308). -/
def doorbell (f : Nat) (val : W64) : M z Unit := do
  awaitCtxRec f (bitsOf val.toNat 63 48)
  let s ← getS
  let ctx := f * 65536 + bitsOf val.toNat 63 48
  let q := bitsOf val.toNat 47 32
  let wptr := BitVec.ofNat 32 (bitsOf val.toNat 31 0)
  let key := queueKey ctx q
  match (if q < (s.ctx ctx).qtlim.toNat then liveCtx s f (bitsOf val.toNat 63 48) else none) with
  | none => refuseDoorbell f key
  | some c => do
    let record := (s.ctx ctx).qtbase + BitVec.ofNat 64 (64 * q)
    match (← sysNat ctx c record 64).map readQueueRec with
    | none => refuseDoorbell f key
    | some r => do
      let known := (s.queue? key).filter fun k => k.record == record && k.rcd == c
      let rptr := match known with | some k => k.rptr | none => r.rptr
      if r.bad || !r.en || 2 ^ r.logn < (wptr - rptr).toNat then refuseDoorbell f key
      else
        let now ← freshId
        match known with
        | some k => modQueue key fun q =>
            { q with wptr := wptr, cls := r.cls, record := record, rbase := r.rbase, logn := r.logn, rcd := c
                     since := if k.hasPacket then q.since else now }
        | none =>
          let new : HostQueue :=
            { ctx := ctx, q := q, wptr := wptr, rptr := r.rptr, cls := r.cls, record := record, rbase := r.rbase, logn := r.logn
              rcd := c, since := now, order := match s.queue? key with | some k => k.order | none => 0 }
          modS fun s => { s with queues := SMap.put s.queues key new }

/-- Two doorbells are of one queue. -/
def sameQueue (a b : Nat × W64) : Bool := a.1 == b.1 && a.2.toNat / 2 ^ 32 == b.2.toNat / 2 ^ 32

/-- A doorbell is rung: it is acted on, or kept until its record can be read, behind those of its queue (R309). -/
def ringDoorbell (f : Nat) (val : W64) : M z Unit := do
  let keep : M z Unit := modS fun s => { s with doorbells := s.doorbells ++ [(f, val)] }
  if (← getS).doorbells.any (sameQueue (f, val)) then keep
  else match ← attempt (doorbell f val) with
    | .ok _ => pure ()
    | .error (.request ctx vfn st page kind who) => do
      attachSys ctx vfn st page kind who
      keep
    | .error .stay => keep
    | .error e => fun _ => .error e

/-- A kept doorbell is acted on (R309). -/
def retryDoorbell (i : Nat) : M z Unit := do
  let s ← getS
  let d ← need s.doorbells[i]?
  guardS (!((s.doorbells.take i).any (sameQueue d)))
  doorbell d.1 d.2
  modS fun s => { s with doorbells := s.doorbells.eraseIdx i }

/-- What a read of a function's window W2 gives: QDB is write-only, and every other offset reads zero (R309, R368). -/
def w2Read (_f _off : Nat) : W64 := 0

/-- A write of 64 bits through W2: QDB at offset 0; writes at other offsets are ignored (R368). The command processor acts once
its firmware has been released (R371). -/
def w2Write (f off : Nat) (val : W64) : M z Unit := do
  let s ← getS
  if off = 0 && 1 ≤ s.boot.stage && !s.boot.recovery then ringDoorbell f val else pure ()

/-- QDB (R309). -/
def execQdb (fn : Nat) (val : W64) (s : State) : Host.Outcome State Fault Refusal := runM s (w2Write fn 0 val)

/-! Slots (R317, R318) -/

/-- Reserved minimum of a class; 112 slots are shared. -/
def slotMin (cls : Nat) : Nat := if cls = 0 then 32 else if cls = 3 then 16 else 48

def slotsHeld (s : State) (cls : Nat) : Nat := (s.queues.filter fun e => e.2.slot.isSome && e.2.cls = cls).length

/-- Slots held beyond the minima. -/
def sharedHeld (s : State) : Nat := (([0, 1, 2, 3] : List Nat).map fun k => slotsHeld s k - slotMin k).sum

def slotQueue (s : State) (slot : Nat) : Option (Nat × HostQueue) := s.queues.find? fun e => e.2.slot == some slot

def freeSlot (s : State) : Option Nat := lowest? 256 fun i => (slotQueue s i).isNone

/-- The slot a waiting queue of a class is mapped to: free under its minimum, free and shared, or borrowed from an idle
queue of another class. -/
def mapSlot (s : State) (cls : Nat) : Option Nat :=
  let free := if slotsHeld s cls < slotMin cls || sharedHeld s < 112 then freeSlot s else none
  match free with
  | some i => some i
  | none => lowest? 256 fun i => match slotQueue s i with
    | some (_, q) => q.cls != cls && q.idle
    | none => false

/-- Realtime first; within a class the longest waiting. -/
def waitsBefore (a b : HostQueue) : Bool := a.cls < b.cls || (a.cls == b.cls && a.since < b.since)

/-- QUEUE_MAP: a waiting queue that no mappable queue precedes takes its slot. -/
def mapQueue (key : Nat) : M z Unit := do
  let s ← getS
  let q ← need (s.queue? key)
  guardS (q.waiting && !(s.queues.any fun e => e.2.waiting && waitsBefore e.2 q && (mapSlot s e.2.cls).isSome))
  let i ← need (mapSlot s q.cls)
  match slotQueue s i with
  | some (k, _) => modQueue k fun q => { q with slot := none, reclaim := false }
  | none => pure ()
  modQueue key fun q => { q with slot := some i, boundary := false }

/-- QUEUE_MAP (R317). -/
def execQueueMap (fn ctx q : Nat) (s : State) : Host.Outcome State Fault Refusal :=
  runM s (mapQueue (queueKey (fn * 65536 + ctx) q))

/-- A class under its minimum with a waiting queue that no slot is open to. -/
def reclaims (s : State) (cls : Nat) : Bool :=
  slotsHeld s cls < slotMin cls && (s.queues.any fun e => e.2.waiting && e.2.cls = cls) && (freeSlot s).isNone

/-- How good a victim a mapped queue is: idle first, then the lowest class; 0 where it is none. -/
def victimRank (s : State) (cls : Nat) (q : HostQueue) : Nat :=
  if q.slot.isSome && q.cls ≠ cls && slotMin q.cls < slotsHeld s q.cls && !q.reclaim then
    (if q.idle then 8 else 0) + q.cls + 1
  else 0

/-- The slot goes now at a command boundary, where RPTR has just advanced or the queue is idle, else at the queue's next
one. -/
def giveUp (key : Nat) : M z Unit := do
  let now ← freshId
  modQueue key fun q =>
    if q.boundary || q.idle then { q with slot := none, reclaim := false, since := now } else { q with reclaim := true }

/-- SLOT_RECLAIM (R318). -/
def execSlotReclaim (slot : Nat) (s : State) : Host.Outcome State Fault Refusal :=
  runM s (do
    let (key, q) ← need (slotQueue s slot)
    let cls ← need ([0, 1, 2, 3].find? fun k => reclaims s k && victimRank s k q ≠ 0)
    guardS (s.queues.all fun e => victimRank s cls e.2 ≤ victimRank s cls q)
    giveUp key)

/-! Packets (R310 to R313) -/

/-- The queue stops at its packet (R309, R310). -/
def stopQueue (key : Nat) (q : HostQueue) : M z Unit := do
  modQueue key fun q => { q with stopped := true, opened := none, boundary := false }
  setQerr (ctxFn q.ctx) 1

/-- RPTR moves, in the queue's record too, and the packet is no longer open: a command boundary (R318). -/
def advanceQueue (key : Nat) (q : HostQueue) (rptr : W32) : M z Unit := do
  match ← sysXlate q.ctx q.rcd Kind.write (q.record + 32) true with
  | .ok a => sysStore a (natBytes rptr.toNat 4)
  | .error _ => pure ()
  modQueue key fun q => { q with rptr := rptr, opened := none, boundary := true }
  if q.reclaim then giveUp key

/-- A packet that R310 to R313 do not allow: TYPE, a reserved field or code, or the low bits of an aligned address. -/
def badPacket (v : Nat) : Bool :=
  match v % 256 with
  | 1 => bitsOf v 367 360 ≠ 0 || bitsOf v 354 320 ≠ 0 || bitsOf v 255 8 ≠ 0 || bitsOf v 359 358 = 3 || bitsOf v 452 448 ≠ 0
  | 2 => bitsOf v 255 11 ≠ 0 || 4 ≤ bitsOf v 10 8 || bitsOf v 452 448 ≠ 0
  | 3 => v / 256 ≠ 0
  | 4 =>
    if bitOf v 8 then bitsOf v 511 32 ≠ 0 || bitsOf v 19 9 ≠ 0
    else bitsOf v 319 37 ≠ 0 || bitsOf v 19 9 ≠ 0 || 16 < bitsOf v 36 32 || bitsOf v 327 320 ≠ 0 || bitsOf v 452 448 ≠ 0 ||
      (bitsOf v 447 384 = 0 && bitsOf v 511 448 ≠ 0)
  | _ => true

/-- The packet at RPTR of the queue in a slot: one R310 does not allow stops the queue, one the event takes is given to
`act`. -/
def takePacket (key : Nat) (q : HostQueue) (want : Nat → Bool) (act : Nat → HostQueue → Nat → M z Unit) : M z Unit := do
  modQueue key fun q => { q with boundary := false }
  match ← sysNat q.ctx q.rcd (q.rbase + BitVec.ofNat 64 (64 * (q.rptr.toNat % 2 ^ q.logn))) 64 with
  | none => stopQueue key q
  | some v =>
    if badPacket v then stopQueue key q
    else do
      guardS (want v)
      act key q v

/-- The packet at RPTR is taken up: one that a missing page holds is begun all the same (R318). -/
def onPacket (slot : Nat) (want : Nat → Bool) (act : Nat → HostQueue → Nat → M z Unit) : M z Unit := do
  let s ← getS
  let (key, q) ← need (slotQueue s slot)
  guardS (q.hasPacket && !q.stopped && (q.opened.isNone || q.opened == some 0))
  match ← attempt (takePacket key q want act) with
  | .ok _ => pure ()
  | .error (.request ctx vfn st page kind who) => do
    attachSys ctx vfn st page kind who
    modQueue key fun q => { q with boundary := false }
  | .error e => fun _ => .error e

/-- The packet holds its queue open. -/
def holdOpen (key : Nat) : M z Unit := modQueue key fun q => { q with opened := some 0 }

/-- COND's comparison (R312). -/
def packetCond (cc a b : Nat) : Bool :=
  match cc with | 0 => a = b | 1 => a ≠ b | 2 => a < b | _ => b ≤ a

/-- COND (R312). -/
def takeCond (key : Nat) (q : HostQueue) (v : Nat) : M z Unit := do
  match ← sysNat q.ctx q.rcd (BitVec.ofNat 64 (bitsOf v 511 448)) 32 with
  | none => stopQueue key q
  | some r =>
    if bitOf r 0 then
      let t := packetCond (bitsOf v 10 8) (bitsOf r 255 192 &&& bitsOf v 383 320) (bitsOf v 447 384)
      advanceQueue key q (q.rptr + 1 + BitVec.ofNat 32 (if t then bitsOf v 319 288 else bitsOf v 287 256))
    else holdOpen key

/-- COND (R312). -/
def execCond (slot : Nat) (s : State) : Host.Outcome State Fault Refusal := runM s (onPacket slot (· % 256 = 2) takeCond)

/-- Earlier launches of a queue whose record is not yet written. -/
def unwrittenLaunch (s : State) (key : Nat) : Bool :=
  s.launches.any fun l => l.2.consumer.isNone && l.2.queue == key && !l.2.done

/-- WAIT (R313). -/
def execWaitPacket (slot : Nat) (s : State) : Host.Outcome State Fault Refusal :=
  runM s (onPacket slot (· % 256 = 3) fun key q _ =>
    if unwrittenLaunch s key then holdOpen key else advanceQueue key q (q.rptr + 1))

/-- BINDQ (R313, R314): a binding starts empty. -/
def execBindq (slot : Nat) (s : State) : Host.Outcome State Fault Refusal :=
  runM s (onPacket slot (fun v => v % 256 = 4 && !bitOf v 8) fun key q v => do
    let nq : NodeQueue :=
      { sbase := bitsOf v 383 320, logc := bitsOf v 36 32, cdesc := bitsOf v 447 384, crec := bitsOf v 511 448, cls := q.cls
        rcd := q.rcd }
    modCtx q.ctx fun c => { c with queues := SMap.put c.queues (bitsOf v 31 20) nq }
    advanceQueue key q (q.rptr + 1))

/-- BINDQ with UNB (R313). -/
def execBindqUnbind (slot : Nat) (s : State) : Host.Outcome State Fault Refusal :=
  runM s (onPacket slot (fun v => v % 256 = 4 && bitOf v 8) fun key q v => do
    modCtx q.ctx fun c => { c with queues := SMap.del c.queues (bitsOf v 31 20) }
    advanceQueue key q (q.rptr + 1))

/-! Completion (R315) -/

/-- The record's 256 bits; a launch that did not run has zero amounts. -/
def completionRecord (s : State) (l : Launch) : Nat :=
  if l.code ≠ 0 then l.code * 256 + 1
  else
    let elapsed := min (s.timer - l.admitTime) (2 ^ 32 - 1)
    let fst := min l.fst (2 ^ 32 - 1)
    let late : Bool := match l.bound with | some b => b < s.timer - l.admitTime - l.fst | none => false
    l.result.toNat * 2 ^ 192 + l.credited % 2 ^ 64 * 2 ^ 128 + elapsed * 2 ^ 96 + fst * 2 ^ 64 + (if l.msx then 16 else 0) +
      (if late then 8 else 0) + (if l.exh then 4 else 0) + (if l.unwound then 2 else 0) + 1

/-- The root teams of a launch. -/
def rootTeams (s : State) (launch : Nat) : List (Nat × Team) := s.teams.filter fun e => e.2.launch = launch && e.2.parent.isNone

/-- Whether a launch may complete: it did not run, or every root team is DONE. -/
def mayComplete (s : State) (id : Nat) (l : Launch) : Bool :=
  !l.done && (l.code ≠ 0 || (l.admitted && (rootTeams s id).all fun e => e.2.state == .done))

/-- A launch is over: its root grid's record is dropped, and its node queue may start another. -/
def finishLaunch (id : Nat) (l : Launch) : M z Unit := do
  modLaunch id fun l => { l with done := true, inFlight := false }
  match l.consumer with
  | some nq => modNode l.ctx nq fun q => if q.live == some id then { q with live := none } else q
  | none => pure ()
  dropRecord l.grid
  sweep

/-- The record is written as a release at .sys, DONE last, which the host's later accesses follow; where it cannot be, QERR.CREC is set and no completion vector is
raised. -/
def completeLaunch (id : Nat) : M z Unit := do
  let l ← getLaunch id
  let s ← getS
  guardS (mayComplete s id l)
  let bytes := natBytes (completionRecord s l) 32
  match ← sysXlate l.ctx l.rcd Kind.write (BitVec.ofNat 64 l.crec) true with
  | .error _ => setQerr (ctxFn l.ctx) 3
  | .ok a => do
    sysStore { a with pa := a.pa + 8 } (bytes.drop 8)
    sysStore a (bytes.take 8)
    modHome fun h => { h with outside := h.outside.join l.clock }
    if l.irq then raiseMsix (ctxFn l.ctx) 0
  finishLaunch id l

/-- LAUNCH_COMPLETE (R315). -/
def execLaunchComplete (launch : Nat) (s : State) : Host.Outcome State Fault Refusal :=
  runM s (asWaiter (.record launch) (completeLaunch launch))

/-- A refused or rejected launch completes at once; a record that misses waits for its reply. -/
def completeNow (id : Nat) : M z Unit := do
  match ← attempt (asWaiter (.record id) (completeLaunch id)) with
  | .ok _ => pure ()
  | .error (.request ctx vfn st page kind who) => attachSys ctx vfn st page kind who
  | .error e => fun _ => .error e

/-! Launches (R311, R320) -/

/-- An entry of the journal directory keeps R350. -/
def ringEntryOk (ctx : Nat) (c : CtxRec) (point : Nat) : M z Bool := do
  match ← sysXlate ctx c Kind.write (((← getS).ctx ctx).jdbase + BitVec.ofNat 64 (32 * point)) true with
  | .error _ => pure false
  | .ok a =>
    let e := bytesNat (← sysLoad a 32)
    pure (6 ≤ bitsOf e 4 0 && bitsOf e 4 0 ≤ 24 && e / 2 ^ 128 = 0)

def directoryOk (ctx : Nat) (c : CtxRec) : List Nat → M z Bool
  | [] => pure true
  | p :: ps => do if ← ringEntryOk ctx c p then directoryOk ctx c ps else pure false

/-- The ticket objects of a root descriptor; none where one fails R151. -/
def rootTickets (ctx : Nat) (c : CtxRec) : List W64 → M z (Option (List LaneAcc))
  | [] => pure (some [])
  | a :: as => do
    match ← sysXlate ctx c Kind.read a true with
    | .error _ => pure none
    | .ok x =>
      guardS (!sysWaits (← getS) x)
      let ok := ticketOk (← getS) x
      let rest ← rootTickets ctx c as
      pure (if ok then rest.map (x :: ·) else none)

/-- The 128 bytes of a root descriptor, of which each half lies in one page. -/
def rootDescriptor (ctx : Nat) (c : CtxRec) (va : Nat) : M z (Option Nat) := do
  if va % 64 ≠ 0 then pure none
  else
    let lo ← sysNat ctx c (BitVec.ofNat 64 va) 64
    let hi ← sysNat ctx c (BitVec.ofNat 64 (va + 64)) 64
    pure (lo.bind fun a => hi.map fun b => a + b * 2 ^ 512)

/-- The CODE of R315 that a launch's checks give, 0 where it is accepted, with its descriptor and ticket objects. -/
def checkLaunch (ctx : Nat) (jmode rdesc onum : Nat) : M z (Nat × Nat × List LaneAcc) := do
  awaitCtxRec (ctxFn ctx) (ctxId ctx)
  match liveCtx (← getS) (ctxFn ctx) (ctxId ctx) with
  | none => pure (0x02, 0, [])
  | some c => do
    if !(← if jmode = 0 then pure true else directoryOk ctx c (List.range 642)) then pure (0x02, 0, [])
    else match ← rootDescriptor ctx c rdesc with
      | none => pure (0x11, 0, [])
      | some v => do
        let d := readSpawn v
        if descCode d onum ≠ 0 then pure (0x10 + descCode d onum, v, [])
        else match ← rootTickets ctx c d.tickets with
          | none => pure (0x15, v, [])
          | some ts => pure (0, v, ts)

/-- LAUNCH (R311): a launch that fails its checks completes at once and its packet is taken; an accepted one passes to the
Weir with its packet open. -/
def takeLaunch (key : Nat) (q : HostQueue) (v : Nat) : M z Unit := do
  let onum := bitsOf v 383 368
  let (code, d, ts) ← checkLaunch q.ctx (bitsOf v 359 358) (bitsOf v 319 256) onum
  let id ← freshId
  let l : Launch :=
    { ctx := q.ctx, rcd := (liveCtx (← getS) (ctxFn q.ctx) (ctxId q.ctx)).getD q.rcd, crec := bitsOf v 511 448
      odir := bitsOf v 447 384, onum := onum, rdesc := bitsOf v 319 256, jmode := bitsOf v 359 358, irq := bitOf v 357
      rwait := bitOf v 356, ser := bitOf v 355, queue := key, order := q.order, cls := q.cls, tcls := (readSpawn d).tcls
      code := code, desc := d, tickets := ts }
  modS fun s => { s with launches := SMap.put s.launches id l }
  modQueue key fun q => { q with order := q.order + 1 }
  if code = 0 then modQueue key fun q => { q with opened := some id }
  else
    advanceQueue key q (q.rptr + 1)
    completeNow id

/-- LAUNCH (R311). -/
def execLaunch (slot : Nat) (s : State) : Host.Outcome State Fault Refusal :=
  runM s (onPacket slot (· % 256 = 1) takeLaunch)

/-- Launches of a timing class in flight (R320). -/
def inFlight (s : State) (k : Nat) : Nat := (s.launches.filter fun e => e.2.inFlight && e.2.tcls = k).length

def classFull (s : State) (k : Nat) : Bool := k < 3 && (SMap.look 0 s.dev.wmax k).toNat ≤ inFlight s k

/-- TAG0 of a replayed launch's root grid: SRC of the first PLACE record of point 641 (R388). -/
def replayRoot (id : Nat) (l : Launch) : M z (Option Nat) :=
  let e : JEvent := { point := pointCommand, typ := JType.place, sys := true, src := 0, seq := 0, obj := 0 }
  atPoint id e.hold none do
    match ← headRecord l.ctx l.rcd pointCommand ringFuel with
    | .empty => stay
    | .unknown r => do
      passRecord r
      setDiv id
      pure none
    | .record _ v => if v / 2 ^ 122 = JType.place then pure (some (bitsOf v 119 96)) else waitsTurn id e

/-- The tags of a root grid of `n` teams. -/
def rootTags (id : Nat) (l : Launch) (n : Nat) : M z Nat := do
  let s ← getS
  let recorded ← if l.journal = 2 then replayRoot id l else pure none
  match recorded with
  | some tag => do
    guardS (tagRunFree (usedTags s l.ctx) tag n)
    pure tag
  | none => do
    let tag ← need (chooseTags s l.ctx n)
    modS fun s => { s with free := s.free + 1 }
    pure tag

/-- The packet of a launch is taken. -/
def passPacket (id : Nat) (l : Launch) : M z Unit := do
  let s ← getS
  match (if l.consumer.isNone then s.queue? l.queue else none) with
  | some q => if q.opened == some id then advanceQueue l.queue q (q.rptr + 1)
  | none => pure ()

/-- The bound of R321 that the class gives now. -/
def weirBound (s : State) (k grant : Nat) : Option Nat :=
  let rho := (SMap.look 0 s.dev.wrate k).toNat
  if k < 3 && rho ≠ 0 then some (ceilDiv grant rho + (SMap.look 0 s.dev.wlat k).toNat) else none

/-- An admitted launch's root grid is created (R311, R320). -/
def admitLaunch (id : Nat) (l : Launch) : M z Unit := do
  let s ← getS
  let d := readSpawn l.desc
  guardS (d.teams ≤ (freeEntries s).length)
  let tag0 ← rootTags id l d.teams
  let gid ← createGrid l.ctx id none d tag0 l.tickets s.home.outside
  modLaunch id fun l =>
    { l with admitted := true, inFlight := l.tcls < 3, admitTime := s.timer, grid := gid, phm := d.phm, grant := d.grant
             bound := weirBound s l.tcls d.grant
             msh := if l.tcls < 3 then some (SMap.look 0 s.dev.wmsh l.tcls).toNat else none }
  passPacket id l

/-- LAUNCH_ADMIT (R320). -/
def execLaunchAdmit (launch : Nat) (s : State) : Host.Outcome State Fault Refusal :=
  runM s (do
    let l ← getLaunch launch
    guardS (!l.admitted && !l.done && l.code = 0)
    if classFull s l.tcls then
      guardS (!l.rwait)
      modLaunch launch fun l => { l with code := 1 }
      passPacket launch l
      completeNow launch
    else admitLaunch launch l)

/-- CONSUMER_LAUNCH (R314): a launch from CDESC with RWAIT = 1. The spec gives it no overlay directory: ODIR and ONUM are
free (log entry 5). -/
def execConsumerLaunch (fn ctx nq : Nat) (s : State) : Host.Outcome State Fault Refusal :=
  runM s (do
    let c := fn * 65536 + ctx
    let q ← need (SMap.get? (s.ctx c).queues nq)
    guardS (q.cdesc ≠ 0 && !q.lens.isEmpty && q.live.isNone)
    let odir := (Config.freeWord s.free).toNat / 16 * 16
    let onum := (Config.freeWord (s.free + 1)).toNat % 65536
    modS fun s => { s with free := s.free + 2 }
    let (code, d, ts) ← checkLaunch c 0 q.cdesc onum
    let id ← freshId
    let l : Launch :=
      { ctx := c, rcd := q.rcd, crec := q.crec, odir := odir, onum := onum, rdesc := q.cdesc, rwait := true, cls := q.cls
        tcls := (readSpawn d).tcls, code := code, desc := d, tickets := ts, consumer := some nq }
    modS fun s => { s with launches := SMap.put s.launches id l }
    modNode c nq fun q => { q with live := some id }
    if code ≠ 0 then completeNow id)

/-! Host control (R316) -/

/-- The live launch that LCADDR and LCCTL.CTXID name. -/
def liveLaunch (s : State) (f : Nat) : Option (Nat × Launch) :=
  let r := s.fn f
  s.launches.find? fun e =>
    e.2.ctx == f * 65536 + r.lcctx.toNat && e.2.crec == r.lcaddr.toNat && e.2.admitted && !e.2.done

/-- LCCTL.CTXID names an entry of the function's table that is another function's context (R316). -/
def foreignCtx (s : State) (f : Nat) : Bool :=
  let n := (s.fn f).lcctx.toNat
  n < (s.fn f).ctlim.toNat && bitsOf (Memory.readNat s.mem (ctxRecAt s f n) 32) 223 218 ≠ f

def setRes (f : Nat) (r : BitVec 2) : M z Unit := modFn f fun x => { x with lcres := r }

/-- ABORT (R316). -/
def hostAbort (f : Nat) : M z Unit := do
  let s ← getS
  if foreignCtx s f then setRes f 2
  else match liveLaunch s f with
  | none => setRes f 1
  | some (id, _) => do
    if (rootTeams s id).any fun e => e.2.state != .done then
      modLaunch id fun l => { l with aborted := true }
      forEach (rootTeams s id) fun e => unwind e.1
    setRes f 0

/-- TOPUP (R316): serialised at the root team's entry under R150, outside phase mode's hold. -/
def hostTopup (f : Nat) : M z Unit := do
  let s ← getS
  let tidx := bitsOf (s.fn f).lcarg.toNat 63 48
  let amount := bitsOf (s.fn f).lcarg.toNat 47 0
  if foreignCtx s f then setRes f 2
  else match liveLaunch s f with
  | none => setRes f 1
  | some (id, _) =>
    match (rootTeams s id).find? fun e => e.2.tidx = tidx with
    | none => setRes f 1
    | some (e, _) => do
      let st ← serialise false e (BitVec.ofNat 64 amount)
      if st = 2 then setRes f 2
      else
        modLaunch id fun l => { l with hostAdded := l.hostAdded + amount }
        setRes f 0

/-- A request of LCCTL (R316): OP 2 and 3 are refused. -/
def hostControl (f : Nat) (op : BitVec 2) (ctx : BitVec 16) : M z Unit := do
  modFn f fun r => { r with lcop := op, lcctx := ctx }
  match op with
  | 0 => hostAbort f
  | 1 => hostTopup f
  | _ => setRes f 2

/-- LAUNCH_ABORT (R316). -/
def execLaunchAbort (fn : Nat) (s : State) : Host.Outcome State Fault Refusal := runM s (hostAbort fn)

/-- HOST_TOPUP (R316). -/
def execHostTopup (fn : Nat) (s : State) : Host.Outcome State Fault Refusal := runM s (hostTopup fn)

/-! The Weir's registers (R319) -/

/-- Σ RHO × NMAX with class `k` at the given values. -/
def weirSum (d : Device) (k rho nmax : Nat) : Nat :=
  (([0, 1, 2] : List Nat).map fun i =>
    if i = k then rho * nmax else (SMap.look 0 d.wrate i).toNat * (SMap.look 0 d.wmax i).toNat).sum

/-- A write of WRATE, WLAT or WMAX; CAP is read-only. -/
def weirWrite (k : Nat) (which : WeirReg) (val : W64) : M z Unit := do
  let d := (← getS).dev
  let rho := (SMap.look 0 d.wrate k).toNat
  let nmax := (SMap.look 0 d.wmax k).toNat
  let lo : W32 := val.extractLsb' 0 32
  if 3 ≤ k then pure ()
  else match which with
    | .rate =>
      if 614400 < weirSum d k lo.toNat nmax then setQerr 0 2 else modDev fun d => { d with wrate := SMap.store 0 d.wrate k lo }
    | .max =>
      if 614400 < weirSum d k rho (lo.toNat % 65536) then setQerr 0 2
      else modDev fun d => { d with wmax := SMap.store 0 d.wmax k (lo &&& 0xFFFF) }
    | .latency => modDev fun d => { d with wlat := SMap.store 0 d.wlat k lo }
    | .cap => pure ()

/-- WEIR_LIMIT_WRITE (R319). -/
def execWeirLimitWrite (cls : Nat) (which : WeirReg) (val : W64) (s : State) : Host.Outcome State Fault Refusal :=
  runM s (weirWrite cls which val)

/-! Journal events of the host (R350, R354) -/

/-- JKICK (R350): a journal point reads its entry and software's counter anew at each event that is presented to it, so the
write leaves nothing behind; what was held is admitted when it presents again. -/
def execJkick (fn : Nat) (s : State) : Host.Outcome State Fault Refusal :=
  runM s (modFn fn fun r => r)

/-- REPLAY_ADMIT (R351, R354, R355): a point's own work at HEAD: PAD and PREEMPT records are skipped; a record of no listed
code, or of a team that is DONE, sets DIV. The event that matches is admitted as its party presents it again. -/
def execReplayAdmit (launch point : Nat) (s : State) : Host.Outcome State Fault Refusal :=
  runM s (do
    let l ← getLaunch launch
    guardS (l.journal = 2 && point < 642)
    match ← headRecord l.ctx l.rcd point ringFuel with
    | .empty => pure ()
    | .unknown r => do
      passRecord r
      setDiv launch
    | .record _ v => if sysStale s l.ctx v then setDiv launch)

end Sys2Proof.Machine
end

