-- ==== Sys2Proof/Machine/Compare.lean ====
section
/-! DEFINITION. The meanings of class 0x3: compares, classification, test and select (R235, R236). -/

namespace Sys2Proof.Machine

/-- The condition of R235 over an order: NaN operands answer only to ne and unord. -/
def condHolds (cc : Nat) (unord lt eq : Bool) : Bool :=
  match cc with
  | 0 => !unord && eq
  | 1 => unord || !eq
  | 2 => !unord && lt
  | 3 => !unord && (lt || eq)
  | 4 => !unord && !(lt || eq)
  | 5 => !unord && !lt
  | 6 => unord
  | _ => !unord

/-- The condition on two exact values. -/
def condNum (cc : Nat) (a b : Num) : Bool := condHolds cc (a.isNan || b.isNan) (Num.lt a b) (Num.eq a b)

/-- The checks of a word that writes a lane mask. -/
def maskInfo (ok : Bool) (e : Elem) (k : BitVec 3) (sa sb : BitVec 8) (mods : ModHint → Bool) (surcharge : Nat) (_ : View) :
    Info :=
  { reads := specRegs e sa ++ specRegs e sb, writes := [.k k.toNat], ok := ok, imm := immUse [sa, sb], mods := mods
    surcharge := surcharge, pipe := some false }

/-- A floating-point compare. -/
def runCmpFloat (z : State) (ok : Bool) (e : Elem) (cc : BitVec 4) (k : BitVec 3) (sa sb : BitVec 8) :
    Host.Outcome State Fault Refusal :=
  runMask z (maskInfo ok e k sa sb modSigns (if e == .f64 then 1 else 0)) k fun w l =>
    match operandNums w e false (readSpec w e sa l), operandNums w e true (readSpec w e sb l) with
    | [a], [b] => condNum cc.toNat a b
    | _, _ => false

/-- An integer compare. -/
def runCmpInt (z : State) (ok : Bool) (signed : Bool) (cc : BitVec 4) (k : BitVec 3) (sa sb : BitVec 8) :
    Host.Outcome State Fault Refusal :=
  runMask z (maskInfo ok .int k sa sb modZero 0) k fun w l =>
    let a := BitVec.ofNat 32 (readSpec w .int sa l)
    let b := BitVec.ofNat 32 (readSpec w .int sb l)
    condHolds cc.toNat false (if signed then a.slt b else a.ult b) (a == b)

/-- vcmp.f32 (R235). -/
def execVcmpF32 (cc : BitVec 4) (k : BitVec 3) (sa sb : BitVec 8) (s : State) : Host.Outcome State Fault Refusal :=
  runCmpFloat s (operandsOk (.vcmpF32 cc k sa sb)) .f32 cc k sa sb

/-- vcmp.f64 (R235). -/
def execVcmpF64 (cc : BitVec 4) (k : BitVec 3) (sa sb : BitVec 8) (s : State) : Host.Outcome State Fault Refusal :=
  runCmpFloat s (operandsOk (.vcmpF64 cc k sa sb)) .f64 cc k sa sb

/-- vcmp.i32 (R235). -/
def execVcmpI32 (cc : BitVec 4) (k : BitVec 3) (sa sb : BitVec 8) (s : State) : Host.Outcome State Fault Refusal :=
  runCmpInt s (operandsOk (.vcmpI32 cc k sa sb)) true cc k sa sb

/-- vcmp.n32 (R235). -/
def execVcmpN32 (cc : BitVec 4) (k : BitVec 3) (sa sb : BitVec 8) (s : State) : Host.Outcome State Fault Refusal :=
  runCmpInt s (operandsOk (.vcmpN32 cc k sa sb)) false cc k sa sb

/-- The one-hot class of an F32 code (R236). -/
def classBits (x : Nat) : W32 :=
  let sub := x / 2 ^ 23 % 256 = 0
  match Num.decode .f32 x with
  | .nan => 0x001
  | .inf true => 0x002
  | .inf false => 0x100
  | .fin neg m _ =>
    if m = 0 then (if neg then 0x010 else 0x020)
    else if sub then (if neg then 0x008 else 0x040)
    else (if neg then 0x004 else 0x080)

/-- The hint.mod words of vcls.f32 (R226). -/
def modClass (m : ModHint) : Bool := modDest { m with nega := false, negb := false, absa := false, absb := false }

/-- vcls.f32 (R236). -/
def execVclsF32 (vd : BitVec 7) (sa : BitVec 8) (s : State) : Host.Outcome State Fault Refusal :=
  runLanes s (fun w => vecInfo w (operandsOk (.vclsF32 vd sa)) .f32 vd [sa] modClass) (destReg · vd) fun w l =>
    classBits (signMods w.mod.nega w.mod.absa 32 (readSpec w .f32 sa l))

/-- vtest (R236). -/
def execVtest (k : BitVec 3) (sa sb : BitVec 8) (s : State) : Host.Outcome State Fault Refusal :=
  runMask s (maskInfo (operandsOk (.vtest k sa sb)) .int k sa sb modZero 0) k fun w l =>
    BitVec.ofNat 32 (readSpec w .int sa l) &&& BitVec.ofNat 32 (readSpec w .int sb l) != 0

/-- vsel.kN (R236). -/
def runSel (z : State) (ok : Bool) (k : Nat) (vd : BitVec 7) (sa sb : BitVec 8) : Host.Outcome State Fault Refusal :=
  runLanes z (fun w =>
      let i := vecInfo w ok .int vd [sa, sb] modDest
      { i with reads := i.reads ++ [.k k] }) (destReg · vd)
    fun w l => BitVec.ofNat 32 (if (w.gr.rk k).getLsbD l then readSpec w .int sa l else readSpec w .int sb l)

/-- vsel.k0 (R236). -/
def execVselK0 (vd : BitVec 7) (sa sb : BitVec 8) (s : State) : Host.Outcome State Fault Refusal :=
  runSel s (operandsOk (.vselK0 vd sa sb)) 0 vd sa sb

/-- vsel.k1 (R236). -/
def execVselK1 (vd : BitVec 7) (sa sb : BitVec 8) (s : State) : Host.Outcome State Fault Refusal :=
  runSel s (operandsOk (.vselK1 vd sa sb)) 1 vd sa sb

/-- vsel.k2 (R236). -/
def execVselK2 (vd : BitVec 7) (sa sb : BitVec 8) (s : State) : Host.Outcome State Fault Refusal :=
  runSel s (operandsOk (.vselK2 vd sa sb)) 2 vd sa sb

/-- vsel.k3 (R236). -/
def execVselK3 (vd : BitVec 7) (sa sb : BitVec 8) (s : State) : Host.Outcome State Fault Refusal :=
  runSel s (operandsOk (.vselK3 vd sa sb)) 3 vd sa sb

/-- vsel.k4 (R236). -/
def execVselK4 (vd : BitVec 7) (sa sb : BitVec 8) (s : State) : Host.Outcome State Fault Refusal :=
  runSel s (operandsOk (.vselK4 vd sa sb)) 4 vd sa sb

/-- vsel.k5 (R236). -/
def execVselK5 (vd : BitVec 7) (sa sb : BitVec 8) (s : State) : Host.Outcome State Fault Refusal :=
  runSel s (operandsOk (.vselK5 vd sa sb)) 5 vd sa sb

/-- vsel.k6 (R236). -/
def execVselK6 (vd : BitVec 7) (sa sb : BitVec 8) (s : State) : Host.Outcome State Fault Refusal :=
  runSel s (operandsOk (.vselK6 vd sa sb)) 6 vd sa sb

/-- vsel.k7 (R236). -/
def execVselK7 (vd : BitVec 7) (sa sb : BitVec 8) (s : State) : Host.Outcome State Fault Refusal :=
  runSel s (operandsOk (.vselK7 vd sa sb)) 7 vd sa sb

end Sys2Proof.Machine
end

