-- ==== Sys2Proof/Machine/Links.lean ====
section
/-! DEFINITION. What lies outside the device: the Mladin links (R375 to R379), the host's window W1 (R369), boot, recovery and
attestation (R371 to R374). -/

namespace Sys2Proof.Machine

variable {z : State}

/-! Routes (R375) -/

/-- Where a device's entry of the route table stands. -/
def routeAt (s : State) (dev : Nat) : Nat :=
  s.dev.rtbase.toNat + 2 * (if dev / 1024 = s.dev.ldevid.toNat / 1024 then 4096 + dev % 1024 else dev / 1024)

/-- The ports that lead to a device. -/
def routeMask (s : State) (dev : Nat) : Nat := Memory.readNat s.mem (routeAt s dev) 2 % 4096

/-- A request to the device itself, or with no working port in its mask, fails at once. -/
def routed (s : State) (dev : Nat) : Bool :=
  dev != s.dev.ldevid.toNat && (List.range 12).any fun p => (routeMask s dev).testBit p && !NSet.has s.dev.portsDown p

/-! Collectives (R377 to R379) -/

def CollOp.esize (op : CollOp) : Nat := if op.op = 3 then 8 else 4
def CollOp.total (op : CollOp) : Nat := op.len / op.esize

/-- The local party of an operation for one of its elements. -/
def CollOp.eng (op : CollOp) (p : Nat) : M z Eng := do
  let cl := (← getS).groupCluster op.g
  engOf cl op.id op.eid p op.denied op.clock

/-- Sends an element's request where it has a route; answers whether the peer performed it, and what a GET read with its
poison. The read of the route table waits as any access does (R53, R56). -/
def askPeer (op : CollOp) (ctx p : Nat) (bytes : List Byte) (poison : Bool) (r : PeerReply) : M z (Option (List Byte × Bool)) := do
  let s ← getS
  guardS (!paBlocked s (routeAt s op.dev))
  if routed s op.dev then
    let va := op.raddr + BitVec.ofNat 64 (op.esize * p)
    modS fun s => { s with linkOut := s.linkOut ++
      [.request op.dev op.vfn op.peerCtx (ctxFn ctx) (ctxId ctx) op.op va op.esize bytes poison] }
    pure (match r with
      | .data bs bad => some (bs, bad)
      | .done => some ([], false)
      | .refused | .lost => none)
  else pure none

/-- One element (R378): what its local access met, after the request it made. A failed read fills zero and a failed write
is dropped (R91). -/
def collElement (op : CollOp) (p : Nat) (r : PeerReply) : M z Met := do
  let x ← op.eng p
  let la : Int := (op.laddr + BitVec.ofNat 64 (op.esize * p)).toInt
  if op.op = 1 then
    match ← engXlate x Kind.copyWrite la with
    | .error (.miss st page k) => pure { miss := some { va := engPage la, stage := st, page := page, kind := k } }
    | .error .wait => stay
    | .error (.bad code) => do
      let _ ← askPeer op x.ctx p [] false r
      pure (({} : Met).fail code)
    | .ok _ => do
      let got ← askPeer op x.ctx p [] false r
      let (bs, bad) := got.getD ([], false)
      let (_, m) ← engWrite x la op.esize (bytesNat (bs.take op.esize)) { poison := bad }
      pure { m with xfail := m.xfail || got.isNone }
  else
    let (v, m) ← engRead x la op.esize {}
    if m.miss.isSome then pure m
    else
      let got ← askPeer op x.ctx p (natBytes v op.esize) m.poison r
      pure { m with xfail := m.xfail || got.isNone }

/-- An element is done, or it waits for its page. -/
def runCollElement (id p : Nat) (r : PeerReply) : M z Unit := do
  let op ← need ((← getS).colls.find? fun o => o.id = id)
  let t ← getTeam op.eid
  let x ← op.eng p
  let m ← collElement op p r
  match m.miss with
  | some r => do
    let wt ← attachMiss t.ctx x.rcd.vfn r.stage r.page r.kind (op.waiting.map (·.2))
    modColl id fun op =>
      { op with
        next := nextPoint op.next op.taken p, retry := op.retry.filter (· != p)
        waiting := (op.waiting.filter fun e => e.1 ≠ p) ++ [(p, wt)], missed := SMap.put op.missed p r.va }
  | none =>
    modColl id fun op =>
      { op with
        next := nextPoint op.next op.taken p, retry := op.retry.filter (· != p)
        waiting := op.waiting.filter fun e => e.1 ≠ p, missed := SMap.del op.missed p
        denied := op.denied.filter fun d => d.1 ≠ p, xfail := op.xfail || m.xfail, poison := op.poison || m.poison }

/-- COLL_COMPLETE (R379): the elements the peer has answered, one reply each; after the last, the operation counts toward its
batch. -/
def execCollComplete (op : Nat) (replies : List PeerReply) (s : State) : Host.Outcome State Fault Refusal :=
  runM s (do
    let o ← need (s.colls.find? fun o => o.id = op)
    guardS (issuerDone s o.g o.start)
    let pts := readyPoints s o.retry o.waiting o.next o.total o.taken replies.length
    forEach (pts.zip replies) fun (p, r) => runCollElement op p r
    let o ← need ((← getS).colls.find? fun o => o.id = op)
    if exhausted o.next o.total o.taken && o.retry.isEmpty && o.waiting.isEmpty then
      modS fun s => { s with colls := s.colls.filter fun c => c.id ≠ op }
      countOp o.g 2 op (outcomeFlags o.poison false o.xfail) o.clock)

/-! The host and the peers as parties to memory (R125, R127) -/

/-- The host or a peer as it stands outside the device: no scope but .sys covers it (R120). -/
def outsideParty (id : Nat) : Party := { id := id, group := false, device := false }

/-- An access of the host or a peer. Its writes release at .sys what has come to it before (log entry 6). -/
def outsideWho (id : Nat) : M z Who := do
  let unit ← freshId
  let c := (← getS).home.outside
  pure { id := id, unit := unit, clock := c
         rels := [{ party := outsideParty id, scope := 4, clock := c.upTo id (unit + 1) }] }

/-- Bytes that the host or a peer reads at the home slice; what it reads there, it follows (log entry 6). -/
def outsideRead (w : Who) (pa n : Nat) : M z (List Byte) := do
  let bs ← hsRead w pa n
  let s ← getS
  let rs := releasesOf s ((List.range n).map fun i => stampOf s (pa + i))
  modHome fun h => { h with outside := h.outside.join (followed (outsideParty w.id) 4 rs) }
  pure bs

/-- An endpoint of the target function that lets the peer act on it (R376); an entry with a reserved bit set names no peer
(R7). -/
def admitsPeer (s : State) (r : PeerAccess) : Bool :=
  (List.range (s.fn r.fn).lkcnt.toNat).any fun i => match endpoint s r.fn i with
    | some e => endpointOk e && bitOf e 48 && bitOf e 51 && bitsOf e 21 0 = r.dev && bitsOf e 27 22 = r.vfn && bitsOf e 47 32 = r.ctx
    | none => false

def answerPeer (dev : Nat) (data : Option (List Byte)) (poison : Bool := false) : M z Unit :=
  modS fun s => { s with linkOut := s.linkOut ++ [.answer dev data poison] }

/-- The kind of a peer's access: GET reads, PUT writes, the ADDs do both. -/
def peerKind (op : Nat) : Nat := if op = 1 then Kind.copyRead else if op = 0 then Kind.copyWrite else Kind.atomic

/-- The value a peer's operation leaves at an element (R378). -/
def peerValue (op old val : Nat) : Nat :=
  match op with
  | 2 => Num.round .f32 .rne (Num.add .rne (Num.decode .f32 old) (Num.decode .f32 val))
  | 3 => (old + val) % 2 ^ 64
  | _ => val

/-- The reads of a function's endpoint table wait as any access does (R53, R56). -/
def awaitEndpoints (f : Nat) : M z Unit := do
  let s ← getS
  guardS ((List.range (s.fn f).lkcnt.toNat).all fun i => !paBlocked s ((s.fn f).lkbase.toNat + 16 * i))

/-- An admitted request acts on its element at the home slice, in one step (R378). Poison moves with the data (R63). -/
def servePeer (req : PeerAccess) (a : LaneAcc) : M z Unit := do
  guardS (!sysWaits (← getS) a)
  let w ← outsideWho (2 ^ 41 + req.dev)
  let bad := sectorPoison (← getS) a.pa req.len
  if req.op = 1 then
    let bs ← outsideRead w a.pa req.len
    answerPeer req.dev (some bs) bad
  else
    let old ← (if req.op = 0 then pure [] else outsideRead w a.pa req.len)
    hsWrite w a.pa (natBytes (peerValue req.op (bytesNat old) (bytesNat (req.bytes.take req.len))) req.len)
    if a.chk then metaWrite a.pa none
    if req.poison then poisonSector a.pa
    answerPeer req.dev (some [])

/-- PEER_REQUEST (R376, R378): an element's access is performed, or refused. A denied one leaves the tables as they are (R21).
The links work once the third image has released them (R371). -/
def execPeerRequest (port : Nat) (req : PeerAccess) (s : State) : Host.Outcome State Fault Refusal :=
  runM s (do
    guardS (3 ≤ s.boot.stage && !s.boot.recovery && port < 12 && !NSet.has s.dev.portsDown port && req.op < 4 &&
      req.len = (if req.op = 3 then 8 else 4) && req.va.toNat % req.len = 0)
    awaitEndpoints req.fn
    if admitsPeer s req then
      awaitCtxRec req.fn req.tctx
      match liveCtx s req.fn req.tctx with
      | none => answerPeer req.dev none
      | some c => do
        match ← sysXlate (req.fn * 65536 + req.tctx) c (peerKind req.op) req.va with
        | .error _ => answerPeer req.dev none
        | .ok a => servePeer req a
    else answerPeer req.dev none)

/-- LINK_DOWN (R370, R375): the port takes no more requests; every function's error vector is raised. -/
def execLinkDown (port : Nat) (s : State) : Host.Outcome State Fault Refusal :=
  runM s (do
    guardS (port < 12 && !NSet.has s.dev.portsDown port)
    modDev fun d => { d with portsDown := NSet.add d.portsDown port }
    forEach (List.range 64) fun f => raiseMsix f 3)

/-! W1 (R368, R369) -/

/-- Bytes of a function's W1: a power of two from 1 GiB to 512 GiB (R368). -/
def w1Bytes (f : Nat) : Nat := 2 ^ (30 + (Config.w1Size f).val)

/-- The physical address an offset of a function's W1 reaches; none beyond W1L or in a reserved range. A control register is
reached by 4 or 8 bytes aligned to their size (R15, log entry 92). -/
def w1Address (s : State) (f off n : Nat) : Option Nat :=
  let pa := if f = 0 then off else (s.fn f).w1base.toNat + off
  if f ≠ 0 && (s.fn f).w1lim.toNat < off + n then none
  else match paRange pa with
    | .dram | .host => some pa
    | .control => if (n = 4 || n = 8) && pa % n = 0 then some pa else none
    | .reserved => none

/-- A byte of the metadata region shows its line's entry (R58, R59). -/
def metaByte (s : State) (pa : Nat) : Byte :=
  let m := metaOf s (cwStart + (pa - mdStart) / 8 * 64)
  let v := m.ver.toNat * 2 ^ 48 + m.wtag.toNat * 2 ^ 24 + m.ptag.toNat * 2 ^ 8 + (if m.written then 128 else 0) +
    (if m.read then 64 else 0) + (if m.multi then 32 else 0)
  BitVec.ofNat 8 (v / 2 ^ (8 * ((pa - mdStart) % 8)))

/-- What the host reads through W1 at a physical address: a control register of the physical function's view (R15), the
metadata region, or memory at its home slice. -/
def w1Load (w : Who) (pa n : Nat) : M z (List Byte) := do
  let s ← getS
  match paRange pa with
  | .control => pure (natBytes (w0ReadBytes s 0 (pa - 0x8000000000) n) n)
  | _ => if inMetadata s pa then pure ((List.range n).map fun i => metaByte s (pa + i)) else outsideRead w pa n

/-- What the host's write through W1 does there; one to a control register performs as the next move (R15). -/
def w1Store (w : Who) (pa : Nat) (bytes : List Byte) : M z Unit := do
  let s ← getS
  match paRange pa with
  | .control =>
    let m := Move.regWrite 0 (pa - 0x8000000000) (bytes.length = 8) (BitVec.ofNat 64 (bytesNat bytes))
    modS fun s => { s with moves := m :: s.moves }
  | _ => if inMetadata s pa then pure () else hsWrite w pa bytes

/-- HOST_W1_ACCESS (R369): performed at the home slice, past every read cache; beyond the window a read gives all ones and a
write is dropped. A read takes as many bytes as it is given. The slices work once the second image has released them
(R371). -/
def execHostW1Access (fn link : Nat) (write : Bool) (off : Nat) (bytes : List Byte) (s : State) :
    Host.Outcome State Fault Refusal :=
  let n := bytes.length
  let seen (v : List Byte) : M s Unit := modFn fn fun r => { r with w1data := v }
  runM s (do
    guardS (2 ≤ s.boot.stage && fn < 64 && link < 2 && 1 ≤ n && off % 64 + n ≤ 64 && off + n ≤ w1Bytes fn)
    match w1Address s fn off n with
    | none => if write then pure () else seen (List.replicate n 0xFF)
    | some pa => do
      guardS (!sysWaits s { lane := 0, va := 0, pa := pa })
      let w ← outsideWho (2 ^ 42 + link)
      if write then w1Store w pa bytes
      else do
        let v ← w1Load w pa n
        seen v)

/-! Boot (R371 to R374) -/

/-- BOOTSTAT.ERR changes: every function's error vector is raised (R370). -/
def setBootErr (err img : Nat) : M z Unit := do
  let s ← getS
  modBoot fun b => { b with err := err, failImg := img }
  if s.boot.err ≠ err then forEach (List.range 64) fun f => raiseMsix f 3

/-- POWER_ON (R371): the root-of-trust core starts; nothing else is released. -/
def execPowerOn (s : State) : Host.Outcome State Fault Refusal :=
  runM s (do
    guardS (!s.boot.started)
    modBoot fun b => { b with started := true, lastReport := s.timer })

/-- The fused slots whose hash is that of an image's key. -/
def keySlots (f : Fuses) (i : BootImage) : List Nat :=
  (List.range f.keyHashes.length).filter fun k => f.keyHashes[k]? == some (Config.sm3 i.key)

/-- The code of R372 that an image fails with, 0 where every check of R371 holds: 2 where no slot has its key, 3 where every
slot that has it is revoked. -/
def imageCode (f : Fuses) (i : BootImage) : Nat :=
  if (keySlots f i).isEmpty then 2
  else if (keySlots f i).all f.revoked.contains then 3
  else if i.version < f.minVersions.getD (i.index - 1) 0 then 4
  else if !Config.sm2Verifies i.key (Config.sm3 i.bytes) i.signature then 5
  else 0

/-- MEAS[i] takes the digest of an image, and the report its version. -/
def Boot.measure (b : Boot) (i : BootImage) : Boot :=
  { b with
    measured := b.measured.set (i.index - 1) (Config.sm3 (b.measured.getD (i.index - 1) [] ++ Config.sm3 i.bytes))
    versions := b.versions.set (i.index - 1) i.version }

/-- Bring-up sets partition 0's masks and the device's id (R51, R375, log entry 4). -/
def Device.broughtUp (d : Device) : Device :=
  { d with
    ldevid := Config.deviceId
    hmask := (List.range 7).foldl (fun m i => SMap.put m i ((Config.mask0 i ++ 0#6).zeroExtend 64)) d.hmask }

/-- The bring-up firmware is the fourth image. -/
def bringUp (i : BootImage) : M z Unit := if i.index = 4 then modDev Device.broughtUp else pure ()

/-- BOOT_IMAGE_CHECK (R371): the next image of the manifest is measured and its unit released, or the sequence stops. -/
def execBootImageCheck (image : BootImage) (s : State) : Host.Outcome State Fault Refusal :=
  runM s (do
    let b := s.boot
    guardS (b.started && !b.recovery && b.stage < 4 && image.index = b.stage + 1)
    let code := imageCode s.fuses image
    if code = 0 then
      modBoot fun b =>
        { b.measure image with stage := b.stage + 1, lastReport := if image.index = 1 then s.timer else b.lastReport }
      bringUp image
    else
      modBoot fun b => { b with recovery := true }
      setBootErr code image.index)

/-- FIRMWARE_REPORT (R373): within 100 ms of the last one, or of the release of the command processor. -/
def execFirmwareReport (s : State) : Host.Outcome State Fault Refusal :=
  runM s (do
    guardS (1 ≤ s.boot.stage && !s.boot.recovery && s.timer < s.boot.lastReport + 100000)
    modBoot fun b => { b with lastReport := s.timer })

/-- WATCHDOG_EXPIRE (R373): with no report for 100 ms the command-processor complex and every cluster are reset. Live launches
end without a record; the requests in the page-request tables keep their slots, with no waiter left. -/
def execWatchdogExpire (s : State) : Host.Outcome State Fault Refusal :=
  runM s (do
    guardS (1 ≤ s.boot.stage && !s.boot.recovery && s.boot.lastReport + 100000 ≤ s.timer)
    modS fun s =>
      { s with
        cur := none, groups := [], teams := [], grids := [], launches := [], cores := [], colls := [], queues := [], doorbells := []
        home := { s.home with locked := [], ordered := [] }
        clusters := s.clusters.map fun (i, c) => (i, ({ dieTemp := c.dieTemp } : Cluster))
        strings := s.strings.map fun (i, t) => (i, ({ stress := t.stress, setClk := min 3000 t.ceiling } : Str))
        tables := s.tables.map fun (i, t) =>
          (i, { t with denied := [], slots := t.slots.map fun (j, sl) => (j, { sl with waiters := 0, sys := false }) })
        ctxs := s.ctxs.map fun (i, c) => (i, { c with saveUsed := [], queues := [], watched := false }) }
    modBoot fun b => { b with recovery := true }
    setBootErr 6 0)

/-- RECOVERY_RELOAD (R373): an image under the same checks takes the device out of recovery: the failed image where boot
stopped, the command processor's firmware after a missed report. -/
def execRecoveryReload (image : BootImage) (s : State) : Host.Outcome State Fault Refusal :=
  runM s (do
    let b := s.boot
    guardS (b.started && b.recovery && image.index = (if b.failImg = 0 then 1 else b.failImg))
    let code := imageCode s.fuses image
    if code = 0 then
      modBoot fun b => { b.measure image with recovery := false, stage := max b.stage image.index, lastReport := s.timer }
      setBootErr 0 0
      bringUp image
    else setBootErr code image.index)

/-- A list cut or filled to `n` bytes. -/
def fixLength (n : Nat) (bs : List Byte) : List Byte := (bs ++ List.replicate n 0).take n

/-- The report of R374. -/
def attestation (f : Fuses) (b : Boot) : List Byte :=
  let body := fixLength 16 f.serial ++ (b.measured.map (fixLength 32)).flatten ++ (b.versions.map fun v => natBytes v 4).flatten ++
    fixLength 32 b.nonce ++ fixLength 64 f.attestKey
  body ++ fixLength 64 (Config.sm2Sign (Config.sm3 body))

def attest : M z Unit := do
  let s ← getS
  if s.boot.started then modBoot fun b => { b with report := attestation s.fuses b, reported := true }

/-- ATTESTATION_REQUEST (R374). -/
def execAttestationRequest (s : State) : Host.Outcome State Fault Refusal := runM s attest

end Sys2Proof.Machine
end

