-- ==== Sys2Proof/Machine/Matrix.lean ====
section
/-! DEFINITION. The meanings of class 0xC (R263 to R279, R389) and the events of the matrix engine: reservations, operand
fetches, passes, zeroing and storing accumulators. -/

namespace Sys2Proof.Machine

variable {z : State}

/-! Records and words -/

/-- OBUF_RES; where a rule names a record or a B word it is the value (R339). -/
def obufRes (w : View) (rec : Option W64) : List Detail :=
  [{ cause := Cause.obufRes, value := rec.getD (Config.freeWord w.s.free) }]

/-- A reservation record's fields (R266). -/
structure ResRec where
  gen : Nat
  rnum : Nat
  f : Nat
  soff : Nat
  units : Nat
  off : Nat
  fmt : Nat
  blk : Bool
  scl : Bool
  zero : Bool         -- the reserved fields are zero
  deriving DecidableEq, Repr

def readRes (r : W64) : ResRec :=
  let x := r.toNat
  { gen := bitsOf x 63 56, rnum := bitsOf x 55 52, f := bitsOf x 51 46, soff := bitsOf x 42 32, units := bitsOf x 31 24
    off := bitsOf x 19 0, fmt := bitsOf x 51 48, blk := bitOf x 47, scl := bitOf x 46
    zero := bitsOf x 45 43 = 0 && bitsOf x 23 20 = 0 }

/-- The live reservation a record names (R266). -/
def namedRes (t : Team) (r : ResRec) : Option Reservation :=
  if r.zero then t.mat.res.find? fun x => x.live && x.rnum == r.rnum && x.gen == r.gen && x.f == r.f && x.soff == r.soff &&
    x.units == r.units
  else none

/-- Bytes of a row of `n` elements, and the row stride of an A tile (R269). -/
def rowBytes (fmt n : Nat) : Nat := (n * fmtHalves fmt + 1) / 2
def rowStride (fmt kt : Nat) : Nat := (rowBytes fmt kt + 15) / 16 * 16

/-- Whether a tile of KT columns is valid in its record (R269). -/
def tileValid (r : ResRec) (kt : Nat) : Bool :=
  r.off % 16 = 0 && r.off + 64 * rowStride r.fmt kt ≤ 4096 * r.units && (!r.scl || r.off + 256 * r.soff + 2048 ≤ 4096 * r.units)

def blockOf (blk : Bool) : Nat := if blk then 16 else 32

/-- A B word (R271). -/
structure BWord where
  kt : Nat
  scl : Bool
  blk : Bool
  fmt : Nat
  unit : Nat
  zero : Bool
  deriving DecidableEq, Repr

def readBWord (b : W64) : BWord :=
  let x := b.toNat
  { kt := bitsOf x 25 16, scl := bitOf x 14, blk := bitOf x 13, fmt := bitsOf x 11 8, unit := bitsOf x 6 0
    zero := bitsOf x 63 26 = 0 && !bitOf x 15 && !bitOf x 12 && !bitOf x 7 }

/-- Units of a B tile's elements. -/
def BWord.ne (b : BWord) : Nat := ceilDiv (rowBytes b.fmt b.kt) 256

def BWord.valid (b : BWord) (banks : Nat) : Bool :=
  b.zero && isHandleFmt b.fmt && (!b.scl || b.fmt = 6 || b.fmt = 7) && 1 ≤ b.kt && b.kt ≤ 512 &&
    b.unit + b.ne + (if b.scl then 1 else 0) ≤ 32 * banks

/-! Rules common to the class (R264) -/

/-- The checks of a class-0xC word. -/
def matInfo (w : View) (reads : List Reg) (surcharge : Nat) (queues : Bool) : Info :=
  { reads := reads, surcharge := surcharge, raises := illConv w (w.exm != 0xFFFFFFFF)
    waits := queues && 16 ≤ (w.s.cluster w.cl).mat.length }

/-- Enters an operation of the MAT class (R264). -/
def enterMat (w : View) (mk : Nat → MatOp) : M z Unit := do
  let id ← freshId
  modCluster w.cl fun c => { c with mat := c.mat ++ [mk id] }
  modTeam w.eid fun t => { t with mat := t.mat.use (mk id).res id }
  openOp w.g 1 id

/-! Reservations (R267, R268) -/

/-- Whether no reservation that `keep` selects covers a unit of a run. -/
def runFree (t : Team) (keep : Reservation → Bool) (u n : Nat) : Bool :=
  !(t.mat.res.any fun r => keep r && overlaps r.base r.units u n)

/-- What obres would create: its number and base, or none (OBUF_RES). -/
def chooseRes (t : Team) (bytes f : Nat) : Option (Nat × Nat) :=
  let fmt := bitsOf f 51 48
  let scl := bitOf f 46
  if bytes = 0 || bytes % 4096 ≠ 0 || t.mat.quota < bytes || bitsOf f 63 52 ≠ 0 || bitsOf f 45 43 ≠ 0 || bitsOf f 31 0 ≠ 0 ||
      !isHandleFmt fmt || (scl && fmt ≠ 6 && fmt ≠ 7) || (scl && bytes < 256 * bitsOf f 42 32 + 2048) then none
  else
    let n := bytes / 4096
    match lowest? 4 (fun i => (liveRes t i).isNone),
        lowest? (t.mat.quota / 4096) (fun u => u + n ≤ t.mat.quota / 4096 && runFree t (·.live) u n) with
    | some i, some u => some (i, u)
    | _, _ => none

/-- obres (R267): a run that still drains holds the word. -/
def execObres (x y z : BitVec 6) (s : State) : Host.Outcome State Fault Refusal :=
  let bytes (w : View) : Nat := (w.gr.rs y.toNat).toNat
  let f (w : View) : Nat := (w.gr.rs z.toNat).toNat
  runUnit s (fun w =>
      { matInfo w [sreg y, sreg z] 0 false with
        writes := [sreg x]
        waits := match chooseRes w.t (bytes w) (f w) with
          | some (_, u) => w.exm == 0xFFFFFFFF && !runFree w.t (fun r => !r.live) u (bytes w / 4096)
          | none => false }) fun w => do
    match chooseRes w.t (bytes w) (f w) with
    | none => raise (obufRes w none)
    | some (n, u) => do
      let gen := (w.t.mat.gens.getD n 0 + 1) % 256
      let units := bytes w / 4096
      let r : Reservation :=
        { rnum := n, gen := gen, f := bitsOf (f w) 51 46, soff := bitsOf (f w) 42 32, base := u, units := units }
      modTeam w.eid fun t =>
        { t with mat := { t.mat with
            gens := t.mat.gens.set n gen, res := t.mat.res ++ [r]
            window := SMap.delRange t.mat.window (4096 * u) (4096 * units)
            winPoison := SMap.delRange t.mat.winPoison (512 * u) (512 * units) } }
      modGroup w.g fun gr => gr.setS x.toNat
        (BitVec.ofNat 64 (gen * 2 ^ 56 + n * 2 ^ 52 + r.f * 2 ^ 46 + r.soff * 2 ^ 32 + units * 2 ^ 24))
      pure .seq

/-- obrel (R268). -/
def execObrel (x : BitVec 6) (s : State) : Host.Outcome State Fault Refusal :=
  runUnit s (fun w => matInfo w [sreg x] 0 false) fun w => do
    let rcd := w.gr.rs x.toNat
    match namedRes w.t (readRes rcd) with
    | none => raise (obufRes w (some rcd))
    | some r => do
      modTeam w.eid fun t =>
        { t with mat := { t.mat with
            res := (t.mat.res.map fun y => if y.rnum = r.rnum && y.gen = r.gen && y.live then { y with live := false } else y).filter
              fun y => y.live || !y.users.isEmpty } }
      pure .seq

/-! Filling A and B (R269 to R272) -/

/-- Whether a fetch's handle agrees with the formats of its target (R270, R272). -/
def handleAgrees (h : Handle) (fmt : Nat) (blk scl baxis : Bool) (scalePos col0 : Nat) : Bool :=
  h.fmt = fmt && h.blk == blk && h.scl == scl && (!scl || (h.baxis == baxis && scalePos % blockOf blk = 0)) &&
    (fmt ≠ 7 || col0 % 2 = 0)

/-- mfetcha (R270). -/
def execMfetcha (x y z : BitVec 6) (s : State) : Host.Outcome State Fault Refusal :=
  runStaged s (fun w => matInfo w [sreg x, sreg y, sreg z] 0 true) (fun w => takeSnapshot w (w.low x)) (fun _ _ => 0) fun w sn => do
    journalEntry w.g sn.1
    let a := (w.gr.rs x.toNat).toNat
    let kt := bitsOf a 41 32
    let rcd := w.gr.rs y.toNat
    let r := readRes rcd
    let row0 := (w.gr.rs z.toNat).toNat / 2 ^ 32
    let col0 := (w.gr.rs z.toNat).toNat % 2 ^ 32
    match namedRes w.t r with
    | none => pure (.raised (obufRes w (some rcd)))
    | some res =>
      if bitsOf a 63 42 ≠ 0 || kt = 0 || 512 < kt || !tileValid r kt ||
          !handleAgrees sn.2.handle r.fmt r.blk r.scl false col0 col0 then pure (.raised (obufRes w (some rcd)))
      else
        addTraffic w.t.launch (rowBytes r.fmt (64 * kt))
        enterMat w fun id =>
          { id := id, g := w.g, eid := w.eid, kind := .fetchA sn.2 rcd kt row0 col0, rbase := 4096 * res.base
            res := some (res.rnum, res.gen), start := w.gr.nextId, clock := (w.gr.release w.g).join (snapClock w.s w.g sn.1) }
        pure .seq

/-- DeclaredBytes of a B word (R389). -/
def BWord.declared (b : BWord) : Nat := rowBytes b.fmt (64 * b.kt)

/-- mloadb (R272). -/
def execMloadb (x y z : BitVec 6) (s : State) : Host.Outcome State Fault Refusal :=
  let bw (w : View) : BWord := readBWord (w.gr.rs y.toNat)
  runStaged s (fun w => matInfo w [sreg x, sreg y, sreg z] 0 true) (fun w => takeSnapshot w (w.low x))
    (fun w sn => 2 + ceilDiv (bw w).declared 64 * (1 + sn.2.layers.length)) fun w sn => do
    journalEntry w.g sn.1
    let b := bw w
    let row0 := (w.gr.rs z.toNat).toNat / 2 ^ 32
    let col0 := (w.gr.rs z.toNat).toNat % 2 ^ 32
    if (w.gr.rs x.toNat).toNat / 2 ^ 32 ≠ 0 || !b.valid w.t.mat.banks || !handleAgrees sn.2.handle b.fmt b.blk b.scl true row0 col0 then
      pure (.raised (obufRes w (some (w.gr.rs y.toNat))))
    else
      addTraffic w.t.launch b.declared
      enterMat w fun id =>
        { id := id, g := w.g, eid := w.eid, kind := .loadB sn.2 (w.gr.rs y.toNat) row0 col0, start := w.gr.nextId
          clock := (w.gr.release w.g).join (snapClock w.s w.g sn.1) }
      pure .seq

/-! Passes (R273 to R275) -/

/-- Four times the rate of a pair of formats; 0 where the table does not list it. -/
def passRate4 (fa fb : Nat) : Nat :=
  if fa = 7 && fb = 7 then 32
  else if (fa = 6 || fa = 7) && (fb = 6 || fb = 7) then 16
  else if fa ≠ fb then 0
  else match fa with
    | 2 | 3 => 8
    | 0 => 2
    | 1 => 1
    | _ => 0

/-- The architected cycles of a pass, and its surcharge (R273, R389). -/
def passCycles (batched : Bool) (fa fb kt : Nat) : Nat :=
  let r := passRate4 fa fb
  let k := if batched then ceilDiv kt 4 else kt
  if r = 0 then 0 else (if batched then 4 else 1) * ceilDiv (4 * k) r

/-- Whether a bank, or the pair for f64, is held. -/
def bankOk (t : Team) (n : Nat) (wide : Bool) : Bool :=
  if wide then n % 2 = 0 && n + 1 < t.mat.banks else n < t.mat.banks

/-- mma.d and mma.b (R273). -/
def runPass (z : State) (batched : Bool) (x y : BitVec 6) (n : BitVec 2) : Host.Outcome State Fault Refusal :=
  let ra (w : View) : ResRec := readRes (w.gr.rs x.toNat)
  let bw (w : View) : BWord := readBWord (w.gr.rs y.toNat)
  runUnit z (fun w => matInfo w [sreg x, sreg y] (passCycles batched (ra w).fmt (bw w).fmt (bw w).kt) true) fun w => do
    let r := ra w
    let b := bw w
    let k := if batched then b.kt / 4 else b.kt
    let scaled := r.fmt = 6 || r.fmt = 7
    match namedRes w.t r with
    | none => raise (obufRes w (some (w.gr.rs x.toNat)))
    | some res =>
      if !tileValid r b.kt then raise (obufRes w (some (w.gr.rs x.toNat)))
      else if !b.valid w.t.mat.banks then raise (obufRes w (some (w.gr.rs y.toNat)))
      else if passRate4 r.fmt b.fmt = 0 || k = 0 || 512 < k || (batched && (128 < k || b.kt % 4 ≠ 0)) || (scaled && r.blk != b.blk) ||
          (batched && scaled && k % blockOf r.blk ≠ 0) || !bankOk w.t n.toNat (r.fmt = 1) then raise (obufRes w none)
      else
        enterMat w fun id =>
          { id := id, g := w.g, eid := w.eid, kind := .pass batched (w.gr.rs x.toNat) (w.gr.rs y.toNat) n.toNat
            rbase := 4096 * res.base, res := some (res.rnum, res.gen), start := w.gr.nextId, clock := w.gr.release w.g }
        pure .seq

/-- mma.d (R273, R274). -/
def execMmaD (x y : BitVec 6) (n : BitVec 2) (s : State) : Host.Outcome State Fault Refusal := runPass s false x y n

/-- mma.b (R273, R275). -/
def execMmaB (x y : BitVec 6) (n : BitVec 2) (s : State) : Host.Outcome State Fault Refusal := runPass s true x y n

/-! Zeroing and storing (R276, R277) -/

/-- mzero (R276). -/
def execMzero (n : BitVec 2) (s : State) : Host.Outcome State Fault Refusal :=
  runUnit s (fun w => matInfo w [] 0 true) fun w => do
    if !bankOk w.t n.toNat false then raise (obufRes w none)
    else
      enterMat w fun id => { id := id, g := w.g, eid := w.eid, kind := .zero n.toNat, start := w.gr.nextId, clock := w.gr.release w.g }
      pure .seq

/-- Element size of a DFMT. -/
def dfmtSize (d : Nat) : Nat := if d = 0 then 4 else if d = 1 then 8 else 2

/-- Address of an element of an mstore. -/
def storeAddr (addr stride : W64) (e i j : Nat) : Int := addr.toInt + i * stride.toInt + ((j * e : Nat) : Int)

/-- Sectors of the region an mstore writes (R389). -/
def storeSectors (addr stride : W64) (dfmt : Nat) : Nat :=
  if 3 < dfmt then 0
  else
    let e := dfmtSize dfmt
    let keys : NSet := (List.range 64).foldl (fun m i => (List.range 64).foldl (fun m j =>
      let a := storeAddr addr stride e i j
      if in57 a e then NSet.add (NSet.add m ((a + 2 ^ 57) / 32).toNat) ((a + 2 ^ 57 + e - 1) / 32).toNat else m) m) []
    keys.length

/-- mstore (R277). -/
def execMstore (x y z : BitVec 6) (n : BitVec 2) (s : State) : Host.Outcome State Fault Refusal :=
  let dfmt (w : View) : Nat := (w.gr.rs z.toNat).toNat % 16
  runUnit s (fun w =>
      matInfo w [sreg x, sreg y, sreg z] (storeSectors (w.gr.rs x.toNat) (w.gr.rs y.toNat) (dfmt w)) true) fun w => do
    let d := dfmt w
    let e := dfmtSize d
    let a := w.gr.rs x.toNat
    let st := w.gr.rs y.toNat
    let ds : List Detail :=
      (if 3 < d || (w.gr.rs z.toNat).toNat / 16 ≠ 0 then [{ cause := Cause.engineErr, code := 4, value := w.gr.rs z.toNat }] else []) ++
      (if bankOk w.t n.toNat (d = 1) then [] else obufRes w none) ++
      (if d ≤ 3 && (a.toNat % e ≠ 0 || st.toNat % e ≠ 0) then
        [{ cause := Cause.misalign, code := BitVec.ofNat 16 e, value := a }] else [])
    if !ds.isEmpty then raise ds
    else
      addTraffic w.t.launch (32 * storeSectors a st d)
      enterMat w fun id =>
        { id := id, g := w.g, eid := w.eid, kind := .store n.toNat a st d, start := w.gr.nextId, clock := w.gr.release w.g }
      pure .seq

/-! The engine: what an entry does -/

def winByte (m : MatrixRes) (a : Nat) : Nat := (SMap.look 0 m.window a).toNat
def bByte (m : MatrixRes) (slice a : Nat) : Nat := (SMap.look 0 m.bstore (32768 * slice + a)).toNat
def bankWord (m : MatrixRes) (bank i j : Nat) : Nat := (SMap.look 0 m.acc (4096 * bank + 64 * i + j)).toNat

/-- Bytes of a little-endian number read by `rd`. -/
def numAt (rd : Nat → Nat) (a n : Nat) : Nat := (List.range n).foldl (fun x i => x + rd (a + i) * 256 ^ i) 0

/-- The stored code of element `k` of a row or column whose bytes `rd` reads. -/
def codeAt (rd : Nat → Nat) (base fmt k : Nat) : Nat :=
  codeOf fmt k (numAt rd (base + k * fmtHalves fmt / 2) ((fmtHalves fmt + 1) / 2))

/-- Values of A[i, k] and B[k, j], and their scales by block (R269, R271, R274). -/
structure Tiles where
  a : Nat → Nat → Num
  b : Nat → Nat → Num
  sa : Nat → Nat → Num
  sb : Nat → Nat → Num

def tilesOf (m : MatrixRes) (rbase : Nat) (r : ResRec) (b : BWord) : Tiles :=
  let a0 := rbase + r.off
  let rs := rowStride r.fmt b.kt
  { a := fun i k => codeNum r.fmt (codeAt (winByte m) (a0 + i * rs) r.fmt k)
    b := fun k j => codeNum b.fmt (codeAt (bByte m j) (256 * b.unit) b.fmt k)
    sa := fun i n => if r.scl then s8Value (winByte m (a0 + 256 * r.soff + 32 * i + n)) else .fin false 1 0
    sb := fun n j => if b.scl then s8Value (bByte m j (256 * (b.unit + b.ne) + n)) else .fin false 1 0 }

/-- Terms of a group along k (R175). -/
def groupLen (fmt : Nat) (blk : Bool) : Nat :=
  match fmt with
  | 6 | 7 => blockOf blk
  | 2 | 3 => 8
  | 0 => 4
  | _ => 1

/-- One element of a pass (R175): `n` groups are left, from group `g`; ka and kb are the first columns of A and rows of B. -/
def passElem (t : Tiles) (f : Fmt) (len k i j ka kb : Nat) (scaled : Bool) : Nat → Nat → Num → Num
  | 0, _, c => c
  | n + 1, g, c =>
    let ks := (List.range (min len (k - g * len))).map (g * len + ·)
    let s := if scaled then Num.mul (t.sa i (ka / len + g)) (t.sb (kb / len + g) j) else .fin false 1 0
    let terms := ks.map fun x => Num.mul s (Num.mul (t.a i (ka + x)) (t.b (kb + x) j))
    passElem t f len k i j ka kb scaled n (g + 1) (Num.decode f (Num.round f .rne (Num.sum .rne (c :: terms))))

/-- The new accumulator bits of element (i, j) (R274, R275). -/
def passBits (m : MatrixRes) (rbase : Nat) (batched : Bool) (r : ResRec) (b : BWord) (bank i j : Nat) : Nat :=
  let wide := r.fmt = 1
  let f := if wide then Fmt.f64 else .f32
  let k := if batched then b.kt / 4 else b.kt
  let len := groupLen r.fmt r.blk
  let c := bankWord m bank i j + (if wide then bankWord m (bank + 1) i j * 2 ^ 32 else 0)
  let c := passElem (tilesOf m rbase r b) f len k i j (if batched then j / 16 * k else 0) (if batched then i / 16 * k else 0)
    (r.fmt = 6 || r.fmt = 7) (ceilDiv k len) 0 (Num.decode f c)
  Num.round f .rne c

/-- Whether a pass reads a poisoned granule of its operands. -/
def passPoison (m : MatrixRes) (rbase : Nat) (r : ResRec) (b : BWord) : Bool :=
  let a0 := rbase + r.off
  let rs := rowStride r.fmt b.kt
  let nb := if r.scl then ceilDiv b.kt (blockOf r.blk) else 0
  let nbB := if b.scl then ceilDiv b.kt (blockOf b.blk) else 0
  m.winPoison.any (fun p => (List.range 64).any fun i =>
      overlaps (8 * p.1) 8 (a0 + i * rs) (rowBytes r.fmt b.kt) || (0 < nb && overlaps (8 * p.1) 8 (a0 + 256 * r.soff + 32 * i) nb)) ||
    m.bPoison.any fun p => (List.range 64).any fun j =>
      overlaps (8 * p.1) 8 (32768 * j + 256 * b.unit) (rowBytes b.fmt b.kt) ||
        (0 < nbB && overlaps (8 * p.1) 8 (32768 * j + 256 * (b.unit + b.ne)) nbB)

/-- A pass on a team's banks, and whether it read poisoned data. -/
def MatrixRes.pass (m : MatrixRes) (rbase : Nat) (batched : Bool) (r : ResRec) (b : BWord) (bank : Nat) : MatrixRes × Bool :=
  let wide := r.fmt = 1
  let cells := (List.range 4096).map fun e => (e, passBits m rbase batched r b bank (e / 64) (e % 64))
  let acc := cells.foldl (fun a c =>
    let a := SMap.store 0 a (4096 * bank + c.1) (BitVec.ofNat 32 c.2)
    if wide then SMap.store 0 a (4096 * (bank + 1) + c.1) (BitVec.ofNat 32 (c.2 / 2 ^ 32)) else a) m.acc
  let bad := passPoison m rbase r b
  let banks := if wide then [bank, bank + 1] else [bank]
  ({ m with acc := acc, bankPoison := if bad then banks.foldl NSet.add m.bankPoison else m.bankPoison },
    bad || banks.any (NSet.has m.bankPoison))

def MatrixRes.zeroBank (m : MatrixRes) (bank : Nat) : MatrixRes :=
  { m with acc := SMap.delRange m.acc (4096 * bank) 4096, bankPoison := NSet.erase m.bankPoison bank }

/-! Fetch and store elements -/

/-- Points of a fetcher operation: elements, then scale bytes. -/
def MatOp.total (op : MatOp) : Nat :=
  match op.kind with
  | .fetchA _ rcd kt _ _ =>
    let r := readRes rcd
    64 * kt + (if r.scl then 64 * ceilDiv kt (blockOf r.blk) else 0)
  | .loadB _ w _ _ =>
    let b := readBWord w
    64 * b.kt + (if b.scl then 64 * ceilDiv b.kt (blockOf b.blk) else 0)
  | .store _ _ _ _ => 4096
  | _ => 0

/-- Half-bytes that a point moves: an element, or a scale byte. -/
def MatOp.pointHalves (op : MatOp) (p : Nat) : Nat :=
  match op.kind with
  | .fetchA sn _ kt _ _ => if p < 64 * kt then fmtHalves sn.handle.fmt else 2
  | .loadB sn w _ _ => if p / 64 < (readBWord w).kt then fmtHalves sn.handle.fmt else 2
  | .store _ _ _ d => 2 * dfmtSize d
  | _ => 0

/-- The first points of a list that move at most `room` half-bytes. -/
def MatOp.fit (op : MatOp) : Nat → List Nat → List Nat
  | _, [] => []
  | room, p :: ps => if op.pointHalves p ≤ room then p :: op.fit (room - op.pointHalves p) ps else []

/-- The points of the next burst: at most 512 bytes (R279). -/
def MatOp.burst (s : State) (op : MatOp) : List Nat :=
  op.fit 1024 (readyPoints s op.retry op.waiting op.next op.total op.taken 1024)

/-- Whether the entry uses the array; the others use the fetcher (R326). -/
def MatOp.usesArray (op : MatOp) : Bool :=
  match op.kind with
  | .pass .. | .zero _ => true
  | _ => false

def MatOp.isPass (op : MatOp) : Bool :=
  match op.kind with
  | .pass .. => true
  | _ => false

/-- A code written at a byte address of a sparse store, a nibble for k4. -/
def putCode (m : SMap Byte) (a fmt k code : Nat) : SMap Byte :=
  if fmt = 7 then
    let old := (SMap.look 0 m a).toNat
    SMap.store 0 m a (BitVec.ofNat 8 (if k % 2 = 1 then old % 16 + 16 * code else old / 16 * 16 + code))
  else (natBytes code ((fmtHalves fmt + 1) / 2)).zipIdx.foldl (fun m b => SMap.store 0 m (a + b.2) b.1) m

/-- The scale byte a fetch delivers: 0x7F outside the handle or out of bounds (R270, R272). -/
def fetchScale (x : Eng) (h : Handle) (i j : Nat) (m : Met) : M z (Nat × Met) := do
  if h.inside i j then
    let (s, m) ← scaleByte x h i j m
    pure (s.getD 0x7F, m)
  else pure (0x7F, m)

/-- The poison of the granule that `n` nibbles from `off` are written to (R63). -/
def elemPoison (p : PSet) (x : Eng) (off n : Nat) (bad : Bool) : PSet :=
  let p := nibbleCover p x.who.healer off n
  if bad then PSet.add p (off / 16) else p

/-- One point of a fetcher operation. -/
def matPoint (x : Eng) (op : MatOp) (p : Nat) : M z Met := do
  match op.kind with
  | .fetchA sn rcd kt row0 col0 => do
    let r := readRes rcd
    let base := op.rbase + r.off
    if p < 64 * kt then
      let (i, k) := (p / kt, p % kt)
      let a := base + i * rowStride r.fmt kt + k * fmtHalves r.fmt / 2
      let (v, m) ← layeredElem x sn ((row0 + i : Nat) : Int) ((col0 + k : Nat) : Int) {}
      match v, m.miss with
      | some v, none => modTeam op.eid fun t => { t with mat := { t.mat with
          window := putCode t.mat.window a r.fmt k v
          winPoison := elemPoison t.mat.winPoison x (2 * a + (if r.fmt = 7 then k % 2 else 0)) (fmtHalves r.fmt) m.poison } }
      | _, _ => pure ()
      pure m
    else
      let nb := ceilDiv kt (blockOf r.blk)
      let q := p - 64 * kt
      let (i, b) := (q / nb, q % nb)
      let a := base + 256 * r.soff + 32 * i + b
      let (v, m) ← fetchScale x sn.handle (row0 + i) (col0 + b * blockOf r.blk) {}
      if m.miss.isNone then
        modTeam op.eid fun t => { t with mat := { t.mat with
          window := SMap.store 0 t.mat.window a (BitVec.ofNat 8 v)
          winPoison := elemPoison t.mat.winPoison x (2 * a) 2 m.poison } }
      pure m
  | .loadB sn w row0 col0 => do
    let b := readBWord w
    let (pos, j) := (p / 64, p % 64)
    if pos < b.kt then
      let a := 32768 * j + 256 * b.unit + pos * fmtHalves b.fmt / 2
      let (v, m) ← layeredElem x sn ((row0 + pos : Nat) : Int) ((col0 + j : Nat) : Int) {}
      match v, m.miss with
      | some v, none => modTeam op.eid fun t => { t with mat := { t.mat with
          bstore := putCode t.mat.bstore a b.fmt pos v
          bPoison := elemPoison t.mat.bPoison x (2 * a + (if b.fmt = 7 then pos % 2 else 0)) (fmtHalves b.fmt) m.poison } }
      | _, _ => pure ()
      pure m
    else
      let n := pos - b.kt
      let a := 32768 * j + 256 * (b.unit + b.ne) + n
      let (v, m) ← fetchScale x sn.handle (row0 + n * blockOf b.blk) (col0 + j) {}
      if m.miss.isNone then
        modTeam op.eid fun t => { t with mat := { t.mat with
          bstore := SMap.store 0 t.mat.bstore a (BitVec.ofNat 8 v)
          bPoison := elemPoison t.mat.bPoison x (2 * a) 2 m.poison } }
      pure m
  | .store bank addr stride d => do
    let t ← getTeam op.eid
    let (i, j) := (p / 64, p % 64)
    let e := dfmtSize d
    let a := storeAddr addr stride e i j
    let bits := bankWord t.mat bank i j
    let v := match d with
      | 0 => bits
      | 1 => bits + bankWord t.mat (bank + 1) i j * 2 ^ 32
      | 2 => Num.round .f16 .rne (Num.decode .f32 bits)
      | _ => Num.round .b16 .rne (Num.decode .f32 bits)
    let bad := NSet.has t.mat.bankPoison bank || (d = 1 && NSet.has t.mat.bankPoison (bank + 1))
    if in57 a e then
      let (_, m) ← engWrite x a e v { poison := bad }
      pure m
    else pure { poison := bad }
  | _ => pure {}

def modMat (cl id : Nat) (f : MatOp → MatOp) : M z Unit :=
  modCluster cl fun c => { c with mat := c.mat.map fun op => if op.id = id then f op else op }

/-- A point of a fetcher operation is done, or waits for its page. -/
def runMatPoint (cl id p : Nat) : M z Unit := do
  let s ← getS
  let op ← need ((s.cluster cl).mat.find? fun o => o.id = id)
  let x ← engOf cl id op.eid p op.denied op.clock
  let m ← matPoint x op p
  match m.miss with
  | some r => do
    let wt ← attachMiss x.ctx x.rcd.vfn r.stage r.page r.kind (op.waiting.map (·.2))
    modMat cl id fun op =>
      { op with
        next := nextPoint op.next op.taken p, retry := op.retry.filter (· != p)
        waiting := (op.waiting.filter fun e => e.1 ≠ p) ++ [(p, wt)], missed := SMap.put op.missed p r.va }
  | none =>
    modMat cl id fun op =>
      { op with
        next := nextPoint op.next op.taken p, retry := op.retry.filter (· != p), waiting := op.waiting.filter fun e => e.1 ≠ p
        missed := SMap.del op.missed p, denied := op.denied.filter fun d => d.1 ≠ p
        flags := op.flags ||| outcomeFlags m.poison m.layerData m.xfail }

/-! Arbitration (R326) -/

/-- Its team's oldest unfinished entry, its group's earlier accesses performed (R89, R265). -/
def MatOp.oldest (s : State) (q : List MatOp) (op : MatOp) : Bool :=
  (q.find? fun o => o.eid = op.eid).any (·.id = op.id) && issuerDone s op.g op.start

/-- The timing class an entry counts as: realtime once passed over 64 times. -/
def MatOp.cls (s : State) (op : MatOp) : Nat :=
  if 64 ≤ op.passed then 0
  else match s.team? op.eid with
    | some t => (match s.launch? t.launch with | some l => l.tcls | none => 3)
    | none => 3

/-- The current an entry asks for, in eighths of an ampere: a pass, or a burst of the fetcher; none for mzero (R279). -/
def MatOp.current (cl : Nat) (op : MatOp) : Option (Asker × Nat) :=
  if op.isPass then some (.pass cl op.id, 56) else if op.usesArray then none else some (.fetch cl op.id, 8)

/-- The entry's Sluice grant is held. -/
def MatOp.paid (s : State) (cl : Nat) (op : MatOp) : Bool :=
  match op.current cl with
  | some (who, _) => (s.str (clusterString cl)).holds who
  | none => true

/-- Eligible for its resource: its team's oldest entry, its grant held (R326). -/
def MatOp.eligible (s : State) (cl : Nat) (q : List MatOp) (op : MatOp) : Bool :=
  !op.granted && op.oldest s q && op.paid s cl

/-- The entry a resource takes: the highest timing class, then the oldest. -/
def pickMat (s : State) (cl : Nat) (q : List MatOp) (array : Bool) : Option MatOp :=
  if q.any fun o => o.granted && o.usesArray == array then none
  else (q.filter fun o => o.usesArray == array && o.eligible s cl q).foldl (fun best op =>
    match best with
    | none => some op
    | some b => if op.cls s < b.cls s then some op else best) none

/-- MAT_GRANT: an entry that lacks its grant asks for it; the resource takes the entry where the arbiter chooses it. -/
def grantMat (cl id : Nat) : M z Unit := do
  let s ← getS
  let q := (s.cluster cl).mat
  let op ← need (q.find? fun o => o.id = id)
  guardS (stringAwake s cl && !op.granted && op.oldest s q)
  let asks := !op.paid s cl
  let held ← (match op.current cl with
    | some (who, amount) => askCurrent cl who amount
    | none => pure true)
  let s ← getS
  let chosen := (pickMat s cl q op.usesArray).any (·.id = id)
  guardS (chosen || asks)
  if held && chosen then
    let cyc := (s.cluster cl).cyc
    let run := match op.kind with
      | .pass batched rcd b _ => passCycles batched (readRes rcd).fmt (readBWord b).fmt (readBWord b).kt
      | _ => 0
    modCluster cl fun c => { c with mat := c.mat.map fun o =>
      if o.id = id then { o with granted := true, doneAt := cyc + run }
      else if o.usesArray == op.usesArray && o.eligible s cl q then { o with passed := o.passed + 1 } else o }

/-- MAT_GRANT (R326). -/
def execMatGrant (cl op : Nat) (s : State) : Host.Outcome State Fault Refusal := runM s (grantMat cl op)

/-- FETCHER_BURST (R279): at most 512 bytes of the fetcher's entry under a 1 A reservation, the first under that with which it
took the fetcher. -/
def fetcherBurst (cl : Nat) : M z Unit := do
  let s ← getS
  guardS (stringAwake s cl)
  let op ← need ((s.cluster cl).mat.find? fun o => o.granted && !o.usesArray)
  let pts := op.burst s
  guardS !pts.isEmpty
  if ← askCurrent cl (.fetch cl op.id) 8 then
    forEach pts fun p => runMatPoint cl op.id p
    releaseCurrent cl (.fetch cl op.id)

/-- FETCHER_BURST (R279). -/
def execFetcherBurst (cl : Nat) (s : State) : Host.Outcome State Fault Refusal := runM s (fetcherBurst cl)

/-- MAT_OP_COMPLETE: an array entry takes its effect at the end of its cycles; a fetch has moved every element (R278). -/
def completeMat (cl id : Nat) : M z Unit := do
  let s ← getS
  let op ← need ((s.cluster cl).mat.find? fun o => o.id = id)
  guardS (op.granted && exhausted op.next op.total op.taken && op.retry.isEmpty && op.waiting.isEmpty && op.doneAt ≤ (s.cluster cl).cyc)
  let t ← getTeam op.eid
  let flags ← (do
    match op.kind with
    | .pass batched rcd b bank => do
      let r := t.mat.pass op.rbase batched (readRes rcd) (readBWord b) bank
      modTeam op.eid fun t => { t with mat := r.1 }
      releaseCurrent cl (.pass cl id)
      pure (outcomeFlags r.2 false false)
    | .zero bank => do
      modTeam op.eid fun t => { t with mat := t.mat.zeroBank bank }
      pure 0
    | _ => pure op.flags)
  modCluster cl fun c => { c with mat := c.mat.filter fun o => o.id != id }
  modTeam op.eid fun t => { t with mat := t.mat.leave id }
  countOp op.g 1 id flags op.clock

/-- MAT_OP_COMPLETE (R278). -/
def execMatOpComplete (cl op : Nat) (s : State) : Host.Outcome State Fault Refusal := runM s (completeMat cl op)

end Sys2Proof.Machine
end

