-- ==== Sys2Proof/Machine/Registers.lean ====
section
/-! DEFINITION. Writing the control registers of a function's W0 view (R15, R368): the fields kept, and the actions that GO,
write-only and write-one-to-clear fields start. -/

namespace Sys2Proof.Machine

variable {z : State}

/-! What a write covers (R15) -/

/-- The bits a write of 32 or 64 bits at an offset covers. -/
def coverMask (off : Nat) (wide : Bool) : W64 :=
  if wide then BitVec.allOnes 64 else if off % 8 = 4 then 0xFFFFFFFF00000000 else 0xFFFFFFFF

/-- The register as if the whole of it had been written: the covered bits are new, the rest keeps its value. -/
def covered (off : Nat) (wide : Bool) (old val : W64) : W64 :=
  if wide then val
  else if off % 8 = 4 then (val.extractLsb' 0 32) ++ (old.extractLsb' 0 32) else (old.extractLsb' 32 32) ++ (val.extractLsb' 0 32)

/-! A function's own registers -/

/-- A register of the context that a select register names; ignored without a live context (R68, R126). -/
def writeSelected (f : Nat) (sel : BitVec 16) (g : CtxRegs → CtxRegs) : M z Unit := do
  match liveCtx (← getS) f sel.toNat with
  | some _ => modCtx (f * 65536 + sel.toNat) g
  | none => pure ()

/-- The operation of DBGCTL (R346); the reserved one is refused. -/
def debugOp (f op : Nat) : M z Unit :=
  match op with
  | 0 => dbgAttach f true
  | 1 => dbgAttach f false
  | 2 => dbgStop f
  | 3 => dbgResume f
  | 4 => dbgStep f
  | 5 => dbgRead f
  | 6 => dbgWrite f
  | _ => dbgRefuse f

/-- PRREPLY (R32): a reserved code or field makes it a bad reply. -/
def writeReply (tbl val : Nat) : M z Unit :=
  let code := bitsOf val 9 8
  if bitsOf val 31 16 ≠ 0 || bitsOf val 7 5 ≠ 0 || 2 ≤ code then modTable tbl fun t => { t with bad := true }
  else reply tbl (bitsOf val 15 10) (bitsOf val 4 0) (code = 1)

/-- A register of a page-request table (R29, R32); `cov` are the covered bits. -/
def writeTable (tbl off : Nat) (new cov : W64) : M z Unit := do
  if off = 0x400 then (if cov.getLsbD 0 then writeReply tbl (new.toNat % 2 ^ 32) else pure ())
  else if off = 0x408 then (if (new &&& cov).getLsbD 31 then modTable tbl fun t => { t with bad := false } else pure ())
  else pure ()

/-- LKBASE, LKCNT, CTBASE and CTLIM, which a virtual function only reads (R307, R376). -/
def writeBinding (f off : Nat) (new : W64) : M z Unit :=
  match off with
  | 0x800 => modFn f fun r => { r with ctbase := new &&& 0xFFFFFFFFFFFE0 }
  | 0x808 => modFn f fun r => { r with ctlim := new.extractLsb' 0 16 }
  | 0x810 => modFn f fun r => { r with lkbase := new &&& 0xFFFFFFFFFFFF0 }
  | 0x818 => modFn f fun r => { r with lkcnt := new.extractLsb' 0 13 }
  | 0x820 => modFn f fun r => { r with w1base := new &&& 0xFFFFFFFFC0000000 }
  | 0x828 => modFn f fun r => { r with w1lim := new &&& 0xFFFFFFFFC0000000 }
  | _ => pure ()

/-- A register below 0x0020_0000, outside the boot registers, the mailbox and the function's request table. -/
def writeOwn (f off : Nat) (new cov : W64) : M z Unit := do
  let r := (← getS).fn f
  let act := new &&& cov
  match off with
  | 0x100800 => modFn f fun r => { r with xinvAddr := new &&& 0xFFFFFFFFFFFFF000 }
  | 0x100808 =>
    if act.getLsbD 31 then startXinv f (if new.getLsbD 16 then 1 else 0) (bitsOf new.toNat 18 17) (bitsOf new.toNat 15 0)
    else pure ()
  | 0x100A00 => modFn f fun r => { r with htsel := new.extractLsb' 0 16 }
  | 0x100A08 => writeSelected f r.htsel fun c => { c with htbase := new &&& 0xFFFFFFFFFFFFFFC0 }
  | 0x100A10 => writeSelected f r.htsel fun c => { c with htlim := new.extractLsb' 0 24 }
  | 0x100B00 => modFn f fun r => { r with cmsel := new.extractLsb' 0 16 }
  | 0x100B08 => writeSelected f r.cmsel fun c => { c with osbase := new &&& 0xFFFFFFFFFFFFFFC0 }
  | 0x100B10 => writeSelected f r.cmsel fun c => { c with oscnt := new.extractLsb' 0 32 }
  | 0x100B18 => writeSelected f r.cmsel fun c => { c with msz := new.getLsbD 0 }
  | 0x100C00 => if f = 0 then writeBinding 0 0x800 new else pure ()
  | 0x100C08 => if f = 0 then writeBinding 0 0x808 new else pure ()
  | 0x100C10 => modFn f fun r => { r with qtsel := new.extractLsb' 0 16 }
  | 0x100C18 => writeSelected f r.qtsel fun c => { c with qtbase := new &&& 0xFFFFFFFFFFFFFFC0 }
  | 0x100C20 => writeSelected f r.qtsel fun c => { c with qtlim := new.extractLsb' 0 17 }
  | 0x100C28 => modFn f fun r => { r with qerr := r.qerr &&& ~~~(act.extractLsb' 0 4) }
  | 0x100C30 => modFn f fun r => { r with lcaddr := new &&& 0xFFFFFFFFFFFFFFE0 }
  | 0x100C38 => modFn f fun r => { r with lcarg := new }
  | 0x100C40 =>
    if act.getLsbD 31 then hostControl f (new.extractLsb' 26 2) (new.extractLsb' 0 16) else pure ()
  | 0x100D00 => modFn f fun r => { r with svsel := new.extractLsb' 0 16 }
  | 0x100D08 => writeSelected f r.svsel fun c => { c with svbase := new &&& 0xFFFFFFFFFFC00000 }
  | 0x100D10 => writeSelected f r.svsel fun c => { c with svcnt := new.extractLsb' 0 16 }
  | 0x100D18 => modFn f fun r => { r with prctl := new }
  | 0x100E00 => do
    modFn f fun r => { r with dbgctl := new &&& 0xFFFFFFFFFFF80000 }
    if act.getLsbD 0 then debugOp f (bitsOf new.toNat 3 1)
  | 0x100E08 => if act.getLsbD 2 then modFn f fun r => { r with dbgErr := false } else pure ()
  | 0x100E10 => modFn f fun r => { r with dbgreg := new.extractLsb' 0 16 }
  | 0x100E18 => modFn f fun r => { r with dbgdata := new }
  | 0x100E20 => modFn f fun r => { r with dwatch0 := new }
  | 0x100E28 => modFn f fun r => { r with dwlen0 := new.extractLsb' 0 32 }
  | 0x100E30 => modFn f fun r => { r with dwatch1 := new }
  | 0x100E38 => modFn f fun r => { r with dwlen1 := new.extractLsb' 0 32 }
  | 0x100F00 => modFn f fun r => { r with jdsel := new.extractLsb' 0 16 }
  | 0x100F08 => writeSelected f r.jdsel fun c => { c with jdbase := new &&& 0xFFFFFFFFFFFFFFC0 }
  | 0x101000 => if f = 0 then writeBinding 0 0x810 new else pure ()
  | 0x101008 => if f = 0 then writeBinding 0 0x818 new else pure ()
  | 0x101010 => modFn f fun r => { r with flink := new.extractLsb' 0 1 }
  | _ => pure ()

/-! The physical function's registers -/

/-- A mask or a range of partitions 1 to 7: the shadow takes it (R51, R52). -/
def writePartition (off : Nat) (new : W64) : M z Unit :=
  let p := (off - 0x300000) / 0x40
  let i := off / 8 % 8
  if p = 0 then pure ()
  else modDev fun d =>
    if i = 7 then { d with partRngShadow := SMap.put d.partRngShadow p (new &&& 0x803FFFFF003FFFFF) }
    else { d with hmaskShadow := SMap.put d.hmaskShadow (8 * p + i) (new &&& 0xFFFFFFFFFFFC0) }

/-- A register of the Weir (R319). -/
def writeWeir (off : Nat) (new : W64) : M z Unit :=
  let k := (off - 0x300700) / 0x20
  match off % 0x20 with
  | 0x00 => weirWrite k .rate new
  | 0x08 => weirWrite k .latency new
  | 0x10 => weirWrite k .max new
  | _ => modDev fun d => { d with wmsh := SMap.store 0 d.wmsh k (new.extractLsb' 0 32) }

/-- A register at 0x0020_0000 or above. -/
def writePhysical (off : Nat) (new cov : W64) : M z Unit :=
  let act := new &&& cov
  if off < 0x240000 then
    let n := (off - 0x200000) / 0x1000
    if off % 0x1000 < 0x800 then writeTable (64 + n) (off % 0x1000) new cov
    else if n = 0 then pure ()
    else writeBinding n (off % 0x1000) new
  else if 0x300000 ≤ off && off < 0x300200 then writePartition off new
  else if off = 0x300200 then (if cov.getLsbD 0 then startCommit (new.extractLsb' 1 7) else pure ())
  else if off = 0x300320 then modDev fun d => { d with mdzAddr := new &&& 0xFFFFFFFFFF000 }
  else if off = 0x300328 then
    (do
      modDev fun d => { d with mdzPages := new.extractLsb' 0 20 }
      if act.getLsbD 30 then startZeroing (new.extractLsb' 0 20))
  else if 0x300500 ≤ off && off < 0x300540 then
    let v := (off - 0x300500) / 8
    modDev fun d =>
      { d with ue := SMap.store 0 d.ue v (new.extractLsb' 32 32), ce := SMap.store 0 d.ce v (new.extractLsb' 0 32) }
  else if 0x300700 ≤ off && off < 0x300760 then writeWeir off new
  else if off = 0x300A08 then modDev fun d => { d with rtbase := new &&& 0xFFFFFFFFFFFFF }
  else pure ()

/-! Any register -/

/-- What the half that a write does not cover keeps: the shadow of a partition's register where it has one (R51). -/
def keptValue (s : State) (f off : Nat) : W64 :=
  let p := (off - 0x300000) / 0x40
  let i := off / 8 % 8
  let shadow : Option W64 :=
    if f = 0 && 0x300000 ≤ off && off < 0x300200 then
      (if i = 7 then SMap.get? s.dev.partRngShadow p else SMap.get? s.dev.hmaskShadow (8 * p + i))
    else none
  shadow.getD (w0Read s f off)

/-- The nonce of the mailbox (R374). -/
def writeNonce (i : Nat) (new : W64) : M z Unit :=
  modBoot fun b => { b with nonce := b.nonce.take i ++ natBytes new.toNat 8 ++ b.nonce.drop (i + 8) }

/-- A write of 32 or 64 bits, aligned to its size, at an offset of a function's view. In recovery only the mailbox takes
writes (R371); a virtual function's view ends at 0x0020_0000 (R368). -/
def w0Write (f off : Nat) (wide : Bool) (val : W64) : M z Unit := do
  let s ← getS
  let o := off / 8 * 8
  let cov := coverMask off wide
  let new := covered off wide (keptValue s f o) val
  if o = 0x10 then (if (new &&& cov).getLsbD 0 then attest else pure ())
  else if 0x1000 ≤ o && o < 0x1020 then writeNonce (o - 0x1000) new
  else if s.boot.recovery then pure ()
  else if o < 0x100000 then pure ()
  else if o < 0x100800 then writeTable f (o - 0x100000) new cov
  else if o < 0x200000 then writeOwn f o new cov
  else if f = 0 then writePhysical o new cov
  else pure ()

/-- REGISTER_WRITE (R15), once the device has been powered on (R371). -/
def execRegisterWrite (fn off : Nat) (wide : Bool) (val : W64) (s : State) : Host.Outcome State Fault Refusal :=
  runM s (do
    guardS (s.boot.started && fn < 64 && off < 0x4000000 && off % (if wide then 8 else 4) = 0)
    w0Write fn off wide val)

end Sys2Proof.Machine
end

