-- ==== Sys2Proof/Machine/Scratch.lean ====
section
/-! DEFINITION. The meanings of class 0x9: scratchpad and neighbourhood words (R246). -/

namespace Sys2Proof.Machine

variable {z : State}

/-- Lane, member and offset of each active lane (R38, R39). -/
def spadAddrs (w : View) (space : Nat) (sb : BitVec 6) (vo : BitVec 8) : List (Nat × Nat × Int) :=
  let m := if space = 2 then (w.gr.rs sb.toNat).toNat / 2 ^ 32 else 0
  (localAddrs w sb vo).map fun a => (a.1, m, a.2)

/-- Blocks128 of a scratchpad word, Blocks64 of a neighbourhood word (R140). -/
def spadBlocks (space size : Nat) (addrs : List (Nat × Nat × Int)) : Nat :=
  let b : Int := if space = 2 then 64 else 128
  (addrs.flatMap fun a => [(a.2.1, a.2.2 / b), (a.2.1, (a.2.2 + size - 1) / b)]).eraseDups.length

/-- The causes of the lanes of a scratchpad word. -/
def spadCauses (w : View) (space size : Nat) (addrs : List (Nat × Nat × Int)) : List Detail :=
  addrs.flatMap fun a =>
    (if a.2.2 % (size : Int) ≠ 0 then [laneDetail Cause.misalign a.1 size (BitVec.ofInt 64 a.2.2)] else []) ++
      spadOob w.s w.eid space size a.1 a.2.1 a.2.2

/-- A lane's access at a member and an offset, at its place in that member's scratchpad. -/
def spadLane (w : View) (space : Nat) (a : Nat × Nat × Int) (data cmp : Nat) : LaneAcc :=
  { lane := a.1, va := BitVec.ofNat 64 (a.2.1 * 2 ^ 32 + wrapTo 32 a.2.2)
    pa := spKey (spadTeam w.s w.eid space a.2.1) a.2.2.toNat, data := data, cmp := cmp }

/-- The checks of a class-0x9 word. -/
def spadInfo (w : View) (ok : Bool) (space : Nat) (sb : BitVec 6) (vo : BitVec 8) (reads writes : List Reg) (size : Nat) : Info :=
  { reads := .s sb.toNat :: specRegs .int vo ++ reads, writes := writes, ok := ok, imm := immUse [vo], mods := modScope
    surcharge := spadBlocks space size (spadAddrs w space sb vo) }

/-- A scratchpad or neighbourhood load. -/
def runSpLoad (z : State) (ok : Bool) (space size : Nat) (vd : BitVec 7) (sb : BitVec 6) (vo : BitVec 8) (ord : BitVec 2) :
    Host.Outcome State Fault Refusal :=
  runUnit z (fun w => spadInfo w ok space sb vo [] (dataRegs vd.toNat size) size) fun w =>
    let addrs := spadAddrs w space sb vo
    startSpad w { kind := .load false, size := size, dest := .vec vd.toNat, acq := ordAcq ord, scope := w.scope, space := space }
      (addrs.map fun a => spadLane w space a 0 0) (spadCauses w space size addrs)

/-- A scratchpad or neighbourhood store. -/
def runSpStore (z : State) (ok : Bool) (space size : Nat) (vd : BitVec 7) (sb : BitVec 6) (vo : BitVec 8) (ord : BitVec 2) :
    Host.Outcome State Fault Refusal :=
  runUnit z (fun w => spadInfo w ok space sb vo (dataRegs vd.toNat size) [] size) fun w =>
    let addrs := spadAddrs w space sb vo
    startSpad w { kind := .store, size := size, rel := ordRel ord, scope := w.scope, space := space }
      (addrs.map fun a => spadLane w space a (laneData w.gr vd.toNat ((size + 3) / 4) a.1 % 2 ^ (8 * size)) 0)
      (spadCauses w space size addrs)

/-- A scratchpad or neighbourhood atomic (R246). -/
def runSpAtom (z : State) (ok : Bool) (space : Nat) (op : AtomOp) (vd : BitVec 7) (sb : BitVec 6) (vo : BitVec 8)
    (ord : BitVec 2) : Host.Outcome State Fault Refusal :=
  let cas := op == .cas
  runUnit z (fun w => spadInfo w ok space sb vo (dataRegs vd.toNat (if cas then 8 else 4)) (dataRegs vd.toNat 4) 4) fun w =>
    let addrs := spadAddrs w space sb vo
    startSpad w { kind := .atom op, size := 4, dest := .vec vd.toNat, acq := ordAcq ord, rel := ordRel ord, scope := w.scope
                  space := space }
      (addrs.map fun a => spadLane w space a (w.gr.rv (if cas then vd.toNat + 1 else vd.toNat) a.1).toNat
        (if cas then (w.gr.rv vd.toNat a.1).toNat else 0))
      (spadCauses w space 4 addrs)

/-- lds.b8 (R246). -/
def execLdsB8 (vd : BitVec 7) (sb : BitVec 6) (vo : BitVec 8) (ord : BitVec 2) (s : State) : Host.Outcome State Fault Refusal :=
  runSpLoad s (operandsOk (.ldsB8 vd sb vo ord)) 1 1 vd sb vo ord

/-- sts.b8 (R246). -/
def execStsB8 (vd : BitVec 7) (sb : BitVec 6) (vo : BitVec 8) (ord : BitVec 2) (s : State) : Host.Outcome State Fault Refusal :=
  runSpStore s (operandsOk (.stsB8 vd sb vo ord)) 1 1 vd sb vo ord

/-- lds.b16 (R246). -/
def execLdsB16 (vd : BitVec 7) (sb : BitVec 6) (vo : BitVec 8) (ord : BitVec 2) (s : State) : Host.Outcome State Fault Refusal :=
  runSpLoad s (operandsOk (.ldsB16 vd sb vo ord)) 1 2 vd sb vo ord

/-- sts.b16 (R246). -/
def execStsB16 (vd : BitVec 7) (sb : BitVec 6) (vo : BitVec 8) (ord : BitVec 2) (s : State) : Host.Outcome State Fault Refusal :=
  runSpStore s (operandsOk (.stsB16 vd sb vo ord)) 1 2 vd sb vo ord

/-- lds.b32 (R246). -/
def execLdsB32 (vd : BitVec 7) (sb : BitVec 6) (vo : BitVec 8) (ord : BitVec 2) (s : State) : Host.Outcome State Fault Refusal :=
  runSpLoad s (operandsOk (.ldsB32 vd sb vo ord)) 1 4 vd sb vo ord

/-- sts.b32 (R246). -/
def execStsB32 (vd : BitVec 7) (sb : BitVec 6) (vo : BitVec 8) (ord : BitVec 2) (s : State) : Host.Outcome State Fault Refusal :=
  runSpStore s (operandsOk (.stsB32 vd sb vo ord)) 1 4 vd sb vo ord

/-- lds.b64 (R246). -/
def execLdsB64 (vd : BitVec 7) (sb : BitVec 6) (vo : BitVec 8) (ord : BitVec 2) (s : State) : Host.Outcome State Fault Refusal :=
  runSpLoad s (operandsOk (.ldsB64 vd sb vo ord)) 1 8 vd sb vo ord

/-- sts.b64 (R246). -/
def execStsB64 (vd : BitVec 7) (sb : BitVec 6) (vo : BitVec 8) (ord : BitVec 2) (s : State) : Host.Outcome State Fault Refusal :=
  runSpStore s (operandsOk (.stsB64 vd sb vo ord)) 1 8 vd sb vo ord

/-- lds.b128 (R246). -/
def execLdsB128 (vd : BitVec 7) (sb : BitVec 6) (vo : BitVec 8) (ord : BitVec 2) (s : State) : Host.Outcome State Fault Refusal :=
  runSpLoad s (operandsOk (.ldsB128 vd sb vo ord)) 1 16 vd sb vo ord

/-- sts.b128 (R246). -/
def execStsB128 (vd : BitVec 7) (sb : BitVec 6) (vo : BitVec 8) (ord : BitVec 2) (s : State) : Host.Outcome State Fault Refusal :=
  runSpStore s (operandsOk (.stsB128 vd sb vo ord)) 1 16 vd sb vo ord

/-- ldn.b32 (R246). -/
def execLdnB32 (vd : BitVec 7) (sb : BitVec 6) (vo : BitVec 8) (ord : BitVec 2) (s : State) : Host.Outcome State Fault Refusal :=
  runSpLoad s (operandsOk (.ldnB32 vd sb vo ord)) 2 4 vd sb vo ord

/-- stn.b32 (R246). -/
def execStnB32 (vd : BitVec 7) (sb : BitVec 6) (vo : BitVec 8) (ord : BitVec 2) (s : State) : Host.Outcome State Fault Refusal :=
  runSpStore s (operandsOk (.stnB32 vd sb vo ord)) 2 4 vd sb vo ord

/-- atoms.add.i32 (R246). -/
def execAtomsAddI32 (vd : BitVec 7) (sb : BitVec 6) (vo : BitVec 8) (ord : BitVec 2) (s : State) : Host.Outcome State Fault Refusal :=
  runSpAtom s (operandsOk (.atomsAddI32 vd sb vo ord)) 1 .addI vd sb vo ord

/-- atoms.min.i32 (R246). -/
def execAtomsMinI32 (vd : BitVec 7) (sb : BitVec 6) (vo : BitVec 8) (ord : BitVec 2) (s : State) : Host.Outcome State Fault Refusal :=
  runSpAtom s (operandsOk (.atomsMinI32 vd sb vo ord)) 1 .minI vd sb vo ord

/-- atoms.max.i32 (R246). -/
def execAtomsMaxI32 (vd : BitVec 7) (sb : BitVec 6) (vo : BitVec 8) (ord : BitVec 2) (s : State) : Host.Outcome State Fault Refusal :=
  runSpAtom s (operandsOk (.atomsMaxI32 vd sb vo ord)) 1 .maxI vd sb vo ord

/-- atoms.exch.b32 (R246). -/
def execAtomsExchB32 (vd : BitVec 7) (sb : BitVec 6) (vo : BitVec 8) (ord : BitVec 2) (s : State) : Host.Outcome State Fault Refusal :=
  runSpAtom s (operandsOk (.atomsExchB32 vd sb vo ord)) 1 .exch vd sb vo ord

/-- atoms.cas.b32 (R246). -/
def execAtomsCasB32 (vd : BitVec 7) (sb : BitVec 6) (vo : BitVec 8) (ord : BitVec 2) (s : State) : Host.Outcome State Fault Refusal :=
  runSpAtom s (operandsOk (.atomsCasB32 vd sb vo ord)) 1 .cas vd sb vo ord

/-- atomn.add.i32 (R246). -/
def execAtomnAddI32 (vd : BitVec 7) (sb : BitVec 6) (vo : BitVec 8) (ord : BitVec 2) (s : State) : Host.Outcome State Fault Refusal :=
  runSpAtom s (operandsOk (.atomnAddI32 vd sb vo ord)) 2 .addI vd sb vo ord

/-- The one offset of the scalar forms, attributed to the lowest active lane (R244, R246). -/
def scalarSpad (w : View) (sb : BitVec 6) (vo : BitVec 8) : Nat × Nat × Int :=
  (w.lanes.headD 0, 0, ((w.gr.rs sb.toNat).toNat % 2 ^ 32 : Nat) + localOff w vo 0)

/-- lds.s64 (R246). -/
def execLdsS64 (vd sb : BitVec 6) (vo : BitVec 8) (ord : BitVec 2) (s : State) : Host.Outcome State Fault Refusal :=
  runUnit s (fun w =>
      { reads := .s sb.toNat :: specRegs .int vo, writes := [.s vd.toNat], ok := operandsOk (.ldsS64 vd sb vo ord)
        mods := modScope, surcharge := spadBlocks 1 8 [scalarSpad w sb vo] }) fun w =>
    let a := scalarSpad w sb vo
    startSpad w { kind := .load false, size := 8, dest := .scalar vd.toNat, acq := ordAcq ord, scope := w.scope, space := 1
                  one := true }
      [spadLane w 1 a 0 0] (spadCauses w 1 8 [a])

/-- sts.s64 (R246). -/
def execStsS64 (vd sb : BitVec 6) (vo : BitVec 8) (ord : BitVec 2) (s : State) : Host.Outcome State Fault Refusal :=
  runUnit s (fun w =>
      { reads := .s sb.toNat :: specRegs .int vo ++ [.s vd.toNat], ok := operandsOk (.stsS64 vd sb vo ord)
        mods := modScope, surcharge := spadBlocks 1 8 [scalarSpad w sb vo] }) fun w =>
    let a := scalarSpad w sb vo
    startSpad w { kind := .store, size := 8, rel := ordRel ord, scope := w.scope, space := 1, one := true }
      [spadLane w 1 a (w.gr.rs vd.toNat).toNat 0] (spadCauses w 1 8 [a])

end Sys2Proof.Machine
end

