-- ==== Sys2Proof/Machine/Sfu.lean ====
section
/-! DEFINITION. The meanings of class 0x4: special functions (R237 to R239). Where R238 gives a bound, the result is a
free value held to that bound: the bits of `Config.sfuBits` where they lie within it, else the nearest code. The exact
values the bound is measured from are computed in fixed point with 520 fraction bits; no code but one of frsq can stand exactly
on its bound, and frsq is compared exactly (log entry 8). -/

namespace Sys2Proof.Machine

variable {z : State}

/-! Fixed point: an integer n stands for n / 2^520 -/

def fxBits : Nat := 520
def fxOne : Nat := 2 ^ fxBits
def fxMul (a b : Int) : Int := a * b / (fxOne : Int)
def fxDiv (a b : Int) : Int := a * (fxOne : Int) / b

/-- A finite value in fixed point; exact for exponents from −520. -/
def fxOf : Num → Int
  | .fin neg m e =>
    let v : Nat := if 0 ≤ e + fxBits then m * 2 ^ (e + fxBits).toNat else m / 2 ^ (-(e + fxBits)).toNat
    if neg then -(v : Int) else v
  | _ => 0

def fxNum (v : Int) : Num := .fin (v < 0) v.natAbs (-(fxBits : Int))

/-- Σ over k of term × ratio / ((step k)), the terms falling off: the shared loop of the series. -/
def fxSeries (next : Nat → Int → Int) : Nat → Nat → Int → Int
  | 0, _, _ => 0
  | n + 1, k, t => t + fxSeries next n (k + 1) (next k t)

/-- e^t for 0 ≤ t < 1. -/
def fxExp (t : Int) : Int := fxSeries (fun k x => fxMul x t / (k + 1 : Nat)) 110 0 fxOne

/-- sin t for 0 ≤ t ≤ π/2. -/
def fxSin (t : Int) : Int :=
  let t2 := fxMul t t
  fxSeries (fun k x => -(fxMul x t2) / (((2 * k + 2) * (2 * k + 3) : Nat) : Int)) 70 0 t

/-- Σ (±1)^k u^(2k+1) / (2k+1): atanh, or atan with `alt`. -/
def fxAtan (alt : Bool) (terms : Nat) (u : Int) : Int :=
  let u2 := if alt then -(fxMul u u) else fxMul u u
  let rec go : Nat → Nat → Int → Int
    | 0, _, _ => 0
    | n + 1, k, p => p / ((2 * k + 1 : Nat) : Int) + go n (k + 1) (fxMul p u2)
  go terms 0 u

def fxLn2 : Int := 2 * fxAtan false 170 (fxOne / 3 : Nat)
def fxPi : Int := 16 * fxAtan true 120 (fxOne / 5 : Nat) - 4 * fxAtan true 40 (fxOne / 239 : Nat)

/-- 2^x. -/
def exp2Num (x : Int) : Num :=
  .fin false (fxExp (fxMul (x % (fxOne : Int)) fxLn2)).natAbs (x / (fxOne : Int) - fxBits)

/-- e^x in fixed point for x ≤ 0; never 0. -/
def fxExpNeg (x : Int) : Int :=
  if x < -(1024 * fxOne : Nat) then 1 else max 1 (fxOf (exp2Num (fxDiv x fxLn2)))

/-- log₂ (m × 2^e), m > 0. -/
def log2Num (m : Nat) (e : Int) : Num :=
  let l := Num.bitLen m
  let u : Nat := m * fxOne / 2 ^ (l - 1)
  let k : Int := e + (l : Int) - 1
  let (u, k) := if 2 * u > 3 * fxOne then (u / 2, k + 1) else (u, k)
  let w := fxDiv ((u : Int) - fxOne) ((u : Int) + fxOne)
  fxNum (fxDiv (2 * fxAtan false 120 w) fxLn2 + k * fxOne)

/-- sin π x. -/
def sinpNum (x : Int) : Num :=
  let one : Int := fxOne
  let r := x % (2 * one)
  let (neg, r) := if one ≤ r then (true, r - one) else (false, r)
  let r := if one < 2 * r then one - r else r
  let v := fxSin (fxMul fxPi r)
  fxNum (if neg then -v else v)

/-- tanh x. -/
def tanhNum (neg : Bool) (x : Int) : Num :=
  let one : Int := fxOne
  let t := fxExpNeg (-2 * x.natAbs)
  let v := fxDiv (one - t) (one + t)
  fxNum (if neg then -v else v)

/-- 1 / (1 + e^−x). -/
def sigmNum (x : Int) : Num :=
  let one : Int := fxOne
  if 0 ≤ x then fxNum (fxDiv one (one + fxExpNeg (-x)))
  else
    let t := fxExpNeg x
    fxNum (fxDiv t (one + t))

/-- 1 / √(m × 2^e) to a hundred bits and more. -/
def rsqNum (m : Nat) (e : Int) : Num :=
  match recipNum false m e with
  | .fin _ n f => sqrtNum n f
  | x => x

/-! Bounds (R238) -/

/-- One unit in the last place of an exact result. -/
def ulpOf (f : Fmt) : Num → Num
  | .fin _ m e => .fin false 1 ((if m = 0 then f.emin else max (e + Num.bitLen m - 1) f.emin) - f.fb)
  | x => x

/-- A bound: `ulps` units in the last place, or 2^-`abs` where that is given and larger. -/
structure Bound where
  ulps : Nat := 1
  abs : Option Nat := none
  deriving DecidableEq, Repr

/-- Whether code `y` lies within the bound of the exact value `x`. -/
def Bound.holds (b : Bound) (f : Fmt) (x : Num) (y : Nat) : Bool :=
  match Num.decode f y with
  | .fin n m e =>
    let ulp := Num.mul (Num.ofNat b.ulps) (ulpOf f x)
    let lim := match b.abs with
      | some k => if Num.lt ulp (.fin false 1 (-(k : Int))) then .fin false 1 (-(k : Int)) else ulp
      | none => ulp
    !Num.lt lim (Num.sub .rne (.fin n m e) x).abs
  | _ => false

/-- The free result of an operand: a fixed function of the function and the operand bits, held to its bound. -/
def sfuBits (holds : Nat → Bool) (f : Fmt) (fn code : Nat) (x : Num) : Nat :=
  let y := Config.sfuBits fn code % 2 ^ f.width
  if holds y then y else Num.round f .rne x

def boundedBits (b : Bound) (f : Fmt) (fn code : Nat) (x : Num) : Nat := sfuBits (b.holds f x) f fn code x

/-- Whether code `y` lies within 1 ulp of 1/√x: (y − u)² x ≤ 1 ≤ (y + u)² x, exactly. -/
def rsqHolds (f : Fmt) (m : Nat) (e : Int) (y : Nat) : Bool :=
  match Num.decode f y with
  | .fin n k g =>
    let u := ulpOf f (rsqNum m e)
    let one : Num := .fin false 1 0
    let sq (a : Num) : Num := Num.mul (Num.mul a a) (.fin false m e)
    let lo := Num.sub .rne (.fin n k g) u
    let hi := Num.add .rne (.fin n k g) u
    (Num.lt lo (.zero false) || !Num.lt one (sq lo)) && Num.lt (.zero false) hi && !Num.lt (sq hi) one
  | _ => false

/-! The functions -/

inductive SfuFn where
  | rcp | rsq | sqrt | exp2 | log2 | sinp | cosp | tanh | sigm
  deriving DecidableEq, Repr

/-- The result of one element: its bits, and whether a finite operand overflowed (R164, R237). -/
structure SfuRes where
  bits : Nat
  ovf : Bool := false
  deriving DecidableEq, Repr

/-- A correctly rounded result that may overflow. -/
def roundedRes (f : Fmt) (sat : Bool) (x : Num) : SfuRes :=
  let r := Num.roundSat f .rne sat x
  { bits := r.1, ovf := r.2 }

/-- The largest x of 2^x that stays finite is below this (R239). -/
def expTop (f : Fmt) : Int := f.bias + 1

/-- Results of finite, non-zero operands: exact cases of R238 and R239, else the bound. -/
def sfuFinite (fn : SfuFn) (f : Fmt) (num code : Nat) (sat : Bool) (neg : Bool) (m : Nat) (e : Int) : SfuRes :=
  let x : Num := .fin neg m e
  let v := fxOf x
  let one : Int := fxOne
  let nan : SfuRes := { bits := f.nanBits }
  let whole (y : Num) : SfuRes := { bits := Num.round f .rne y }
  match fn with
  | .rcp => roundedRes f sat (recipNum neg m e)
  | .sqrt => if neg then nan else whole (sqrtNum m e)
  | .rsq => if neg then nan else { bits := sfuBits (rsqHolds f m e) f num code (rsqNum m e) }
  | .exp2 =>
    if expTop f * one ≤ v then roundedRes f sat (.fin false 1 (expTop f))
    else if v < (f.emin - f.fb - 1) * one then { bits := 0 }
    else if v % one = 0 && (f.emin - f.fb) * one ≤ v then whole (.fin false 1 (v / one))
    else { bits := boundedBits {} f num code (exp2Num v) }
  | .log2 =>
    if neg then nan
    else
      let k : Int := e + Num.bitLen m - 1
      if 2 ^ (Num.bitLen m - 1) = m then whole (Num.ofInt k)
      else
        let near := one ≤ 2 * v && v ≤ 2 * one
        { bits := boundedBits (if near then { ulps := 0, abs := some 22 } else {}) f num code (log2Num m e) }
  | .sinp =>
    if v % one = 0 then whole (.zero neg)
    else if 2 * v % one = 0 then whole (.fin (2 * v % (4 * one) ≠ one) 1 0)
    else { bits := boundedBits { abs := some 24 } f num code (sinpNum v) }
  | .cosp =>
    if v % one = 0 then whole (.fin (v % (2 * one) ≠ 0) 1 0)
    else if 2 * v % one = 0 then { bits := 0 }
    else { bits := boundedBits { abs := some 24 } f num code (sinpNum (v + one / 2)) }
  | .tanh =>
    if 10 * one ≤ (v.natAbs : Int) then whole (.fin neg 1 0)
    else { bits := boundedBits { ulps := if f.width = 16 then 1 else 2 } f num code (tanhNum neg v) }
  | .sigm => { bits := boundedBits { ulps := 2 } f num code (sigmNum v) }

/-- The special operands of R239; `none` where the table has a dash. -/
def sfuSpecial (fn : SfuFn) (f : Fmt) (x : Num) : Option Nat :=
  let c (y : Num) : Option Nat := some (Num.round f .rne y)
  let one : Num := .fin false 1 0
  match fn, x with
  | _, .nan => c .nan
  | .rcp, .inf n => c (.zero n)
  | .rsq, .inf n => c (if n then .nan else .zero false)
  | .sqrt, .inf n => c (if n then .nan else .inf false)
  | .exp2, .inf n => c (if n then .zero false else .inf false)
  | .log2, .inf n => c (if n then .nan else .inf false)
  | .sinp, .inf _ | .cosp, .inf _ => c .nan
  | .tanh, .inf n => c (.fin n 1 0)
  | .sigm, .inf n => c (if n then .zero false else one)
  | fn, .fin n 0 _ =>
    match fn with
    | .rcp | .rsq => c (.inf n)
    | .sqrt | .sinp | .tanh => c (.zero n)
    | .exp2 | .cosp => c one
    | .log2 => c (.inf true)
    | .sigm => c (.fin false 1 (-1))
  | _, .fin _ _ _ => none

/-- One element's result. R239 gives frsq of −0 as −infinity. -/
def sfuElem (fn : SfuFn) (f : Fmt) (num : Nat) (sat : Bool) (code : Nat) : SfuRes :=
  let x := Num.decode f code
  match sfuSpecial fn f x, x with
  | some bits, _ => { bits := bits }
  | none, .fin neg m e => sfuFinite fn f num code sat neg m e
  | none, _ => { bits := f.nanBits }

/-- One lane's result. -/
def sfuLane (w : View) (fn : SfuFn) (e : Elem) (num : Nat) (sa : BitVec 8) (l : Nat) : LaneRes :=
  let rs := (elemsOf e (readSpec w e sa l)).map fun x =>
    sfuElem fn e.fmt num w.mod.sat (signMods w.mod.nega w.mod.absa e.fmt.width x)
  { bits := joinElems e (rs.map (·.bits)), ovf := rs.any (·.ovf) }

/-- The hint.mod words of class 0x4 (R226). -/
def modSfu (m : ModHint) : Bool := modZero { m with sat := false, nega := false, absa := false }

/-- Issues an SFU word: the result lands later (R237). With FOE = 1 the group waits at the word for the landing. -/
def runSfu (z : State) (ok : Bool) (fn : SfuFn) (e : Elem) (num : Nat) (vd : BitVec 7) (sa : BitVec 8) :
    Host.Outcome State Fault Refusal :=
  let wide := e == .f64
  runUnit z (fun w => { vecInfo w ok e vd [sa] modSfu false wide 3 with pipe := some true }) fun w => do
    let rs := w.lanes.map fun l => (l, sfuLane w fn e num sa l)
    let lo := rs.map fun r => (32 * vd.toNat + r.1, BitVec.ofNat 32 r.2.bits)
    let hi := if wide then rs.map fun r => (32 * (vd.toNat + 1) + r.1, BitVec.ofNat 32 (r.2.bits / 2 ^ 32)) else []
    modGroup w.g fun gr =>
      { gr with
        nextId := gr.nextId + 1
        sfu := gr.sfu ++ [{ id := gr.nextId, vals := lo ++ hi, regs := if wide then [vd.toNat, vd.toNat + 1] else [vd.toNat]
                            ovf := if w.foe then maskOf ((rs.filter (·.2.ovf)).map (·.1)) else 0 }]
        hold := if w.foe then some (.sfu gr.nextId) else gr.hold }
    pure (if w.foe then .parked else .seq)

/-- An SFU result lands (SFU_LAND, R237): its lanes are written, or, with FOE = 1, its lanes that overflowed trap at the
word and nothing is written (R164). The group held for this result, and for no other, moves on. -/
def landSfu (g id : Nat) : M z Unit := do
  let gr ← getGroup g
  let en ← need (gr.sfu.find? fun x => x.id = id)
  modGroup g fun gr => { gr with sfu := gr.sfu.filter fun x => x.id != id }
  if gr.exited then pure ()
  else if en.ovf ≠ 0 then
    modGroup g fun gr => { gr with hold := if gr.hold = some (.sfu id) then none else gr.hold }
    takeTrap g ((lanesOf en.ovf).map fun l => laneDetail Cause.fpOvf l 0 0) (packPc gr.slot gr.pc) none
  else
    modGroup g fun gr => en.vals.foldl (fun gr v => gr.setV (v.1 / 32) (v.1 % 32) v.2) gr
    if gr.hold = some (.sfu id) then
      modGroup g fun gr => { gr with hold := none }
      let s ← getS
      match view { s with cur := some g } with
      | some w => follow w .seq
      | none => pure ()

/-- frcp.f32 (R238). -/
def execFrcpF32 (vd : BitVec 7) (sa : BitVec 8) (s : State) : Host.Outcome State Fault Refusal :=
  runSfu s (operandsOk (.frcpF32 vd sa)) .rcp .f32 0x00 vd sa

/-- frsq.f32 (R238). -/
def execFrsqF32 (vd : BitVec 7) (sa : BitVec 8) (s : State) : Host.Outcome State Fault Refusal :=
  runSfu s (operandsOk (.frsqF32 vd sa)) .rsq .f32 0x01 vd sa

/-- fsqrt.f32 (R238). -/
def execFsqrtF32 (vd : BitVec 7) (sa : BitVec 8) (s : State) : Host.Outcome State Fault Refusal :=
  runSfu s (operandsOk (.fsqrtF32 vd sa)) .sqrt .f32 0x02 vd sa

/-- fexp2.f32 (R238). -/
def execFexp2F32 (vd : BitVec 7) (sa : BitVec 8) (s : State) : Host.Outcome State Fault Refusal :=
  runSfu s (operandsOk (.fexp2F32 vd sa)) .exp2 .f32 0x03 vd sa

/-- flog2.f32 (R238). -/
def execFlog2F32 (vd : BitVec 7) (sa : BitVec 8) (s : State) : Host.Outcome State Fault Refusal :=
  runSfu s (operandsOk (.flog2F32 vd sa)) .log2 .f32 0x04 vd sa

/-- fsinp.f32 (R238). -/
def execFsinpF32 (vd : BitVec 7) (sa : BitVec 8) (s : State) : Host.Outcome State Fault Refusal :=
  runSfu s (operandsOk (.fsinpF32 vd sa)) .sinp .f32 0x05 vd sa

/-- fcosp.f32 (R238). -/
def execFcospF32 (vd : BitVec 7) (sa : BitVec 8) (s : State) : Host.Outcome State Fault Refusal :=
  runSfu s (operandsOk (.fcospF32 vd sa)) .cosp .f32 0x06 vd sa

/-- ftanh.f32 (R238). -/
def execFtanhF32 (vd : BitVec 7) (sa : BitVec 8) (s : State) : Host.Outcome State Fault Refusal :=
  runSfu s (operandsOk (.ftanhF32 vd sa)) .tanh .f32 0x07 vd sa

/-- fsigm.f32 (R238). -/
def execFsigmF32 (vd : BitVec 7) (sa : BitVec 8) (s : State) : Host.Outcome State Fault Refusal :=
  runSfu s (operandsOk (.fsigmF32 vd sa)) .sigm .f32 0x08 vd sa

/-- frcp.f64 (R238). -/
def execFrcpF64 (vd : BitVec 7) (sa : BitVec 8) (s : State) : Host.Outcome State Fault Refusal :=
  runSfu s (operandsOk (.frcpF64 vd sa)) .rcp .f64 0x09 vd sa

/-- frsq.f64 (R238). -/
def execFrsqF64 (vd : BitVec 7) (sa : BitVec 8) (s : State) : Host.Outcome State Fault Refusal :=
  runSfu s (operandsOk (.frsqF64 vd sa)) .rsq .f64 0x0A vd sa

/-- fexp2.f16x2 (R238). -/
def execFexp2F16x2 (vd : BitVec 7) (sa : BitVec 8) (s : State) : Host.Outcome State Fault Refusal :=
  runSfu s (operandsOk (.fexp2F16x2 vd sa)) .exp2 .f16 0x0B vd sa

/-- ftanh.f16x2 (R238). -/
def execFtanhF16x2 (vd : BitVec 7) (sa : BitVec 8) (s : State) : Host.Outcome State Fault Refusal :=
  runSfu s (operandsOk (.ftanhF16x2 vd sa)) .tanh .f16 0x0C vd sa

/-- SFU_LAND (R237). -/
def execSfuLand (g id : Nat) (s : State) : Host.Outcome State Fault Refusal := runM s (landSfu g id)

end Sys2Proof.Machine
end

