-- ==== Sys2Proof/Machine/VectorFloat.lean ====
section
/-! DEFINITION. The meanings of class 0x0: floating-point vector words (R226, R227, R174). -/

namespace Sys2Proof.Machine

/-- The checks of a class-0x0 word; d is read by the accumulating ones (R225). -/
def floatInfo (ok : Bool) (e : Elem) (vd : BitVec 7) (srcs : List (BitVec 8)) (readsD : Bool) (w : View) : Info :=
  vecInfo w ok e vd srcs modFloat readsD (e == .f64) (if e == .f64 then 1 else 0)

/-- MinF and MaxF take no rounding (R176, R226). -/
def exactOp (f : Num → Num → Num) (_ : Rnd) (a b : Num) : Num := f a b
def mulOp (_ : Rnd) (a b : Num) : Num := Num.mul a b

/-- A two-operand class-0x0 word (R227). -/
def runBinFloat (z : State) (ok : Bool) (e : Elem) (vd : BitVec 7) (sa sb : BitVec 8) (op : Rnd → Num → Num → Num) :
    Host.Outcome State Fault Refusal :=
  runFloat z (floatInfo ok e vd [sa, sb] false) (destReg · vd) (e == .f64) fun w l => binElems w e sa sb op l

/-- A fused multiply-add (R174, R227). -/
def runFma (z : State) (ok : Bool) (e : Elem) (vd : BitVec 7) (sa sb : BitVec 8) : Host.Outcome State Fault Refusal :=
  runFloat z (floatInfo ok e vd [sa, sb] true) (destReg · vd) (e == .f64) fun w l => fmaElems w e vd sa sb l

/-- The products of the elements of a lane (R174). -/
def dotProducts (w : View) (e : Elem) (sa sb : BitVec 8) (l : Nat) : List Num :=
  List.zipWith Num.mul (operandNums w e false (readSpec w e sa l)) (operandNums w e true (readSpec w e sb l))

/-- The four K8 values of a lane under NEG and ABS, which leave 0x00 and 0x80 unchanged (R186, R226). -/
def k8Nums (neg abs : Bool) (x : Nat) : List Num :=
  (List.range 4).map fun i =>
    let c := x / 2 ^ (8 * i) % 256
    k8Value (if c = 0 ∨ c = 0x80 then c else signMods neg abs 8 c)

/-- vadd.f32 (R227; the all-zero word is ILL_OP, R180). -/
def execVaddF32 (vd : BitVec 7) (sa sb : BitVec 8) (s : State) : Host.Outcome State Fault Refusal :=
  runFloat s (fun w => { floatInfo (operandsOk (.vaddF32 vd sa sb)) .f32 vd [sa, sb] false w with
      zeroWord := vd == 0 && sa == 0 && sb == 0 }) (destReg · vd) false fun w l => binElems w .f32 sa sb Num.add l

/-- vsub.f32 (R227). -/
def execVsubF32 (vd : BitVec 7) (sa sb : BitVec 8) (s : State) : Host.Outcome State Fault Refusal :=
  runBinFloat s (operandsOk (.vsubF32 vd sa sb)) .f32 vd sa sb Num.sub

/-- vmul.f32 (R227). -/
def execVmulF32 (vd : BitVec 7) (sa sb : BitVec 8) (s : State) : Host.Outcome State Fault Refusal :=
  runBinFloat s (operandsOk (.vmulF32 vd sa sb)) .f32 vd sa sb mulOp

/-- vfma.f32 (R174, R227). -/
def execVfmaF32 (vd : BitVec 7) (sa sb : BitVec 8) (s : State) : Host.Outcome State Fault Refusal :=
  runFma s (operandsOk (.vfmaF32 vd sa sb)) .f32 vd sa sb

/-- vmin.f32 (R227). -/
def execVminF32 (vd : BitVec 7) (sa sb : BitVec 8) (s : State) : Host.Outcome State Fault Refusal :=
  runBinFloat s (operandsOk (.vminF32 vd sa sb)) .f32 vd sa sb (exactOp Num.minF)

/-- vmax.f32 (R227). -/
def execVmaxF32 (vd : BitVec 7) (sa sb : BitVec 8) (s : State) : Host.Outcome State Fault Refusal :=
  runBinFloat s (operandsOk (.vmaxF32 vd sa sb)) .f32 vd sa sb (exactOp Num.maxF)

/-- vadd.f16x2 (R227). -/
def execVaddF16x2 (vd : BitVec 7) (sa sb : BitVec 8) (s : State) : Host.Outcome State Fault Refusal :=
  runBinFloat s (operandsOk (.vaddF16x2 vd sa sb)) .f16 vd sa sb Num.add

/-- vsub.f16x2 (R227). -/
def execVsubF16x2 (vd : BitVec 7) (sa sb : BitVec 8) (s : State) : Host.Outcome State Fault Refusal :=
  runBinFloat s (operandsOk (.vsubF16x2 vd sa sb)) .f16 vd sa sb Num.sub

/-- vmul.f16x2 (R227). -/
def execVmulF16x2 (vd : BitVec 7) (sa sb : BitVec 8) (s : State) : Host.Outcome State Fault Refusal :=
  runBinFloat s (operandsOk (.vmulF16x2 vd sa sb)) .f16 vd sa sb mulOp

/-- vfma.f16x2 (R174, R227). -/
def execVfmaF16x2 (vd : BitVec 7) (sa sb : BitVec 8) (s : State) : Host.Outcome State Fault Refusal :=
  runFma s (operandsOk (.vfmaF16x2 vd sa sb)) .f16 vd sa sb

/-- vmin.f16x2 (R227). -/
def execVminF16x2 (vd : BitVec 7) (sa sb : BitVec 8) (s : State) : Host.Outcome State Fault Refusal :=
  runBinFloat s (operandsOk (.vminF16x2 vd sa sb)) .f16 vd sa sb (exactOp Num.minF)

/-- vmax.f16x2 (R227). -/
def execVmaxF16x2 (vd : BitVec 7) (sa sb : BitVec 8) (s : State) : Host.Outcome State Fault Refusal :=
  runBinFloat s (operandsOk (.vmaxF16x2 vd sa sb)) .f16 vd sa sb (exactOp Num.maxF)

/-- vadd.b16x2 (R227). -/
def execVaddB16x2 (vd : BitVec 7) (sa sb : BitVec 8) (s : State) : Host.Outcome State Fault Refusal :=
  runBinFloat s (operandsOk (.vaddB16x2 vd sa sb)) .b16 vd sa sb Num.add

/-- vsub.b16x2 (R227). -/
def execVsubB16x2 (vd : BitVec 7) (sa sb : BitVec 8) (s : State) : Host.Outcome State Fault Refusal :=
  runBinFloat s (operandsOk (.vsubB16x2 vd sa sb)) .b16 vd sa sb Num.sub

/-- vmul.b16x2 (R227). -/
def execVmulB16x2 (vd : BitVec 7) (sa sb : BitVec 8) (s : State) : Host.Outcome State Fault Refusal :=
  runBinFloat s (operandsOk (.vmulB16x2 vd sa sb)) .b16 vd sa sb mulOp

/-- vfma.b16x2 (R174, R227). -/
def execVfmaB16x2 (vd : BitVec 7) (sa sb : BitVec 8) (s : State) : Host.Outcome State Fault Refusal :=
  runFma s (operandsOk (.vfmaB16x2 vd sa sb)) .b16 vd sa sb

/-- vadd.f64 (R227). -/
def execVaddF64 (vd : BitVec 7) (sa sb : BitVec 8) (s : State) : Host.Outcome State Fault Refusal :=
  runBinFloat s (operandsOk (.vaddF64 vd sa sb)) .f64 vd sa sb Num.add

/-- vsub.f64 (R227). -/
def execVsubF64 (vd : BitVec 7) (sa sb : BitVec 8) (s : State) : Host.Outcome State Fault Refusal :=
  runBinFloat s (operandsOk (.vsubF64 vd sa sb)) .f64 vd sa sb Num.sub

/-- vmul.f64 (R227). -/
def execVmulF64 (vd : BitVec 7) (sa sb : BitVec 8) (s : State) : Host.Outcome State Fault Refusal :=
  runBinFloat s (operandsOk (.vmulF64 vd sa sb)) .f64 vd sa sb mulOp

/-- vfma.f64 (R174, R227). -/
def execVfmaF64 (vd : BitVec 7) (sa sb : BitVec 8) (s : State) : Host.Outcome State Fault Refusal :=
  runFma s (operandsOk (.vfmaF64 vd sa sb)) .f64 vd sa sb

/-- vmin.f64 (R227). -/
def execVminF64 (vd : BitVec 7) (sa sb : BitVec 8) (s : State) : Host.Outcome State Fault Refusal :=
  runBinFloat s (operandsOk (.vminF64 vd sa sb)) .f64 vd sa sb (exactOp Num.minF)

/-- vmax.f64 (R227). -/
def execVmaxF64 (vd : BitVec 7) (sa sb : BitVec 8) (s : State) : Host.Outcome State Fault Refusal :=
  runBinFloat s (operandsOk (.vmaxF64 vd sa sb)) .f64 vd sa sb (exactOp Num.maxF)

/-- vdot2.f16x2 (R174). -/
def execVdot2F16x2 (vd : BitVec 7) (sa sb : BitVec 8) (s : State) : Host.Outcome State Fault Refusal :=
  runFloat s (floatInfo (operandsOk (.vdot2F16x2 vd sa sb)) .f16 vd [sa, sb] true) (destReg · vd) false
    fun w l => dotLane w vd l (dotProducts w .f16 sa sb l)

/-- vdot2.b16x2 (R174). -/
def execVdot2B16x2 (vd : BitVec 7) (sa sb : BitVec 8) (s : State) : Host.Outcome State Fault Refusal :=
  runFloat s (floatInfo (operandsOk (.vdot2B16x2 vd sa sb)) .b16 vd [sa, sb] true) (destReg · vd) false
    fun w l => dotLane w vd l (dotProducts w .b16 sa sb l)

/-- vdot4.k8 (R174): a NaR among the bytes gives the canonical NaN. -/
def execVdot4K8 (vd : BitVec 7) (sa sb : BitVec 8) (s : State) : Host.Outcome State Fault Refusal :=
  runFloat s (floatInfo (operandsOk (.vdot4K8 vd sa sb)) .int vd [sa, sb] true) (destReg · vd) false fun w l =>
    dotLane w vd l (List.zipWith Num.mul (k8Nums w.mod.nega w.mod.absa (readSpec w .int sa l))
      (k8Nums w.mod.negb w.mod.absb (readSpec w .int sb l)))

/-- x − RoundInt(x, RZ), a zero taking the sign of x (R227). -/
def fracNum (x : Num) : Num :=
  match x with
  | .fin neg _ _ =>
    let r := Num.sub .rne x (x.roundInt .rz)
    if r.isZero then .zero neg else r
  | _ => .nan

/-- vfrac.f32 (R227). -/
def execVfracF32 (vd : BitVec 7) (sa : BitVec 8) (s : State) : Host.Outcome State Fault Refusal :=
  runFloat s (floatInfo (operandsOk (.vfracF32 vd sa)) .f32 vd [sa] false) (destReg · vd) false fun w l =>
    roundElems w .f32 ((operandNums w .f32 false (readSpec w .f32 sa l)).map fracNum)

end Sys2Proof.Machine
end

