-- ==== Sys2Proof/Machine/VectorInt.lean ====
section
/-! DEFINITION. The meanings of class 0x1: integer and bit words of vectors (R228, R229, R174). -/

namespace Sys2Proof.Machine

/-- The checks of an integer vector word. -/
def intInfo (ok : Bool) (vd : BitVec 7) (srcs : List (BitVec 8)) (readsD : Bool) (w : View) : Info :=
  vecInfo w ok .int vd srcs modDest readsD

/-- Lane operands of an integer word. -/
def laneInt (w : View) (sp : BitVec 8) (l : Nat) : W32 := BitVec.ofNat 32 (readSpec w .int sp l)

/-- A two-operand integer word. -/
def runBinInt (z : State) (ok : Bool) (vd : BitVec 7) (sa sb : BitVec 8) (f : W32 → W32 → W32) : Host.Outcome State Fault Refusal :=
  runLanes z (intInfo ok vd [sa, sb] false) (destReg · vd) fun w l => f (laneInt w sa l) (laneInt w sb l)

/-- An accumulating integer word: the old contents of the destination come last. -/
def runAccInt (z : State) (ok : Bool) (vd : BitVec 7) (sa sb : BitVec 8) (f : W32 → W32 → W32 → W32) :
    Host.Outcome State Fault Refusal :=
  runLanes z (intInfo ok vd [sa, sb] true) (destReg · vd) fun w l =>
    f (laneInt w sa l) (laneInt w sb l) (readReg w.gr (destReg w vd) l)

/-- A one-operand integer word. -/
def runUnInt (z : State) (ok : Bool) (vd : BitVec 7) (sa : BitVec 8) (f : W32 → W32) : Host.Outcome State Fault Refusal :=
  runLanes z (intInfo ok vd [sa] false) (destReg · vd) fun w l => f (laneInt w sa l)

/-! The lane functions (R228) -/

def mulhiS (a b : W32) : W32 := BitVec.ofInt 32 (a.toInt * b.toInt / 2 ^ 32)
def mulhiU (a b : W32) : W32 := BitVec.ofNat 32 (a.toNat * b.toNat / 2 ^ 32)
def minS (a b : W32) : W32 := if a.toInt ≤ b.toInt then a else b
def maxS (a b : W32) : W32 := if a.toInt ≤ b.toInt then b else a
def minU (a b : W32) : W32 := if a.toNat ≤ b.toNat then a else b
def maxU (a b : W32) : W32 := if a.toNat ≤ b.toNat then b else a
def satS (x : Int) : W32 := BitVec.ofInt 32 (clampInt 32 true x)
def satU (x : Int) : W32 := BitVec.ofInt 32 (clampInt 32 false x)

/-- Two 16-bit halves, each on its own modulo 2^16. -/
def halves (f : BitVec 16 → BitVec 16 → BitVec 16) (a b : W32) : W32 :=
  f (a.extractLsb' 16 16) (b.extractLsb' 16 16) ++ f (a.extractLsb' 0 16) (b.extractLsb' 0 16)

def fieldPos (b : W32) : Nat := b.toNat % 32
def fieldWidth (b : W32) : Nat := min (bitsOf b.toNat 13 8) 32

/-- vbfx of R229. -/
def bitExtract (a b : W32) : W32 := (a >>> fieldPos b) &&& BitVec.ofNat 32 (2 ^ fieldWidth b - 1)

/-- vbfi of R229. -/
def bitInsert (a b d : W32) : W32 :=
  let m : W32 := BitVec.ofNat 32 ((2 ^ fieldWidth b - 1) * 2 ^ fieldPos b)
  (d &&& ~~~m) ||| ((a <<< fieldPos b) &&& m)

/-- The byte dot product of R174, bytes read by `val`. -/
def byteDot (val : Nat → Int) (a b d : W32) : W32 :=
  let byte (x : W32) (i : Nat) : Int := val (x.toNat / 2 ^ (8 * i) % 256)
  BitVec.ofInt 32 ((List.range 4).foldl (fun t i => t + byte a i * byte b i) (d.toNat : Int))

/-- vadd.i32 (R228). -/
def execVaddI32 (vd : BitVec 7) (sa sb : BitVec 8) (s : State) : Host.Outcome State Fault Refusal :=
  runBinInt s (operandsOk (.vaddI32 vd sa sb)) vd sa sb fun a b => a + b

/-- vsub.i32 (R228). -/
def execVsubI32 (vd : BitVec 7) (sa sb : BitVec 8) (s : State) : Host.Outcome State Fault Refusal :=
  runBinInt s (operandsOk (.vsubI32 vd sa sb)) vd sa sb fun a b => a - b

/-- vmul.i32 (R228). -/
def execVmulI32 (vd : BitVec 7) (sa sb : BitVec 8) (s : State) : Host.Outcome State Fault Refusal :=
  runBinInt s (operandsOk (.vmulI32 vd sa sb)) vd sa sb fun a b => a * b

/-- vmad.i32 (R228). -/
def execVmadI32 (vd : BitVec 7) (sa sb : BitVec 8) (s : State) : Host.Outcome State Fault Refusal :=
  runAccInt s (operandsOk (.vmadI32 vd sa sb)) vd sa sb fun a b d => a * b + d

/-- vmulhi.i32 (R228). -/
def execVmulhiI32 (vd : BitVec 7) (sa sb : BitVec 8) (s : State) : Host.Outcome State Fault Refusal :=
  runBinInt s (operandsOk (.vmulhiI32 vd sa sb)) vd sa sb mulhiS

/-- vmulhi.n32 (R228). -/
def execVmulhiN32 (vd : BitVec 7) (sa sb : BitVec 8) (s : State) : Host.Outcome State Fault Refusal :=
  runBinInt s (operandsOk (.vmulhiN32 vd sa sb)) vd sa sb mulhiU

/-- vmin.i32 (R228). -/
def execVminI32 (vd : BitVec 7) (sa sb : BitVec 8) (s : State) : Host.Outcome State Fault Refusal :=
  runBinInt s (operandsOk (.vminI32 vd sa sb)) vd sa sb minS

/-- vmax.i32 (R228). -/
def execVmaxI32 (vd : BitVec 7) (sa sb : BitVec 8) (s : State) : Host.Outcome State Fault Refusal :=
  runBinInt s (operandsOk (.vmaxI32 vd sa sb)) vd sa sb maxS

/-- vmin.n32 (R228). -/
def execVminN32 (vd : BitVec 7) (sa sb : BitVec 8) (s : State) : Host.Outcome State Fault Refusal :=
  runBinInt s (operandsOk (.vminN32 vd sa sb)) vd sa sb minU

/-- vmax.n32 (R228). -/
def execVmaxN32 (vd : BitVec 7) (sa sb : BitVec 8) (s : State) : Host.Outcome State Fault Refusal :=
  runBinInt s (operandsOk (.vmaxN32 vd sa sb)) vd sa sb maxU

/-- vadds.i32 (R228). -/
def execVaddsI32 (vd : BitVec 7) (sa sb : BitVec 8) (s : State) : Host.Outcome State Fault Refusal :=
  runBinInt s (operandsOk (.vaddsI32 vd sa sb)) vd sa sb fun a b => satS (a.toInt + b.toInt)

/-- vsubs.i32 (R228). -/
def execVsubsI32 (vd : BitVec 7) (sa sb : BitVec 8) (s : State) : Host.Outcome State Fault Refusal :=
  runBinInt s (operandsOk (.vsubsI32 vd sa sb)) vd sa sb fun a b => satS (a.toInt - b.toInt)

/-- vadds.n32 (R228). -/
def execVaddsN32 (vd : BitVec 7) (sa sb : BitVec 8) (s : State) : Host.Outcome State Fault Refusal :=
  runBinInt s (operandsOk (.vaddsN32 vd sa sb)) vd sa sb fun a b => satU ((a.toNat : Int) + b.toNat)

/-- vsubs.n32 (R228). -/
def execVsubsN32 (vd : BitVec 7) (sa sb : BitVec 8) (s : State) : Host.Outcome State Fault Refusal :=
  runBinInt s (operandsOk (.vsubsN32 vd sa sb)) vd sa sb fun a b => satU ((a.toNat : Int) - b.toNat)

/-- vand (R228). -/
def execVand (vd : BitVec 7) (sa sb : BitVec 8) (s : State) : Host.Outcome State Fault Refusal :=
  runBinInt s (operandsOk (.vand vd sa sb)) vd sa sb fun a b => a &&& b

/-- vor (R228). -/
def execVor (vd : BitVec 7) (sa sb : BitVec 8) (s : State) : Host.Outcome State Fault Refusal :=
  runBinInt s (operandsOk (.vor vd sa sb)) vd sa sb fun a b => a ||| b

/-- vxor (R228). -/
def execVxor (vd : BitVec 7) (sa sb : BitVec 8) (s : State) : Host.Outcome State Fault Refusal :=
  runBinInt s (operandsOk (.vxor vd sa sb)) vd sa sb fun a b => a ^^^ b

/-- vandn (R228). -/
def execVandn (vd : BitVec 7) (sa sb : BitVec 8) (s : State) : Host.Outcome State Fault Refusal :=
  runBinInt s (operandsOk (.vandn vd sa sb)) vd sa sb fun a b => a &&& ~~~b

/-- vshl (R228). -/
def execVshl (vd : BitVec 7) (sa sb : BitVec 8) (s : State) : Host.Outcome State Fault Refusal :=
  runBinInt s (operandsOk (.vshl vd sa sb)) vd sa sb fun a b => a <<< (b.toNat % 32)

/-- vshr (R228). -/
def execVshr (vd : BitVec 7) (sa sb : BitVec 8) (s : State) : Host.Outcome State Fault Refusal :=
  runBinInt s (operandsOk (.vshr vd sa sb)) vd sa sb fun a b => a >>> (b.toNat % 32)

/-- vsar (R228). -/
def execVsar (vd : BitVec 7) (sa sb : BitVec 8) (s : State) : Host.Outcome State Fault Refusal :=
  runBinInt s (operandsOk (.vsar vd sa sb)) vd sa sb fun a b => a.sshiftRight (b.toNat % 32)

/-- vpopc (R228). -/
def execVpopc (vd : BitVec 7) (sa : BitVec 8) (s : State) : Host.Outcome State Fault Refusal :=
  runUnInt s (operandsOk (.vpopc vd sa)) vd sa fun a => BitVec.ofNat 32 (popCount a.toNat 32)

/-- vclz (R228). -/
def execVclz (vd : BitVec 7) (sa : BitVec 8) (s : State) : Host.Outcome State Fault Refusal :=
  runUnInt s (operandsOk (.vclz vd sa)) vd sa fun a => BitVec.ofNat 32 (leadingZeros a.toNat 32)

/-- vbrev (R228). -/
def execVbrev (vd : BitVec 7) (sa : BitVec 8) (s : State) : Host.Outcome State Fault Refusal :=
  runUnInt s (operandsOk (.vbrev vd sa)) vd sa fun a => BitVec.ofNat 32 (reverseBits a.toNat 32)

/-- vbfx (R229). -/
def execVbfx (vd : BitVec 7) (sa sb : BitVec 8) (s : State) : Host.Outcome State Fault Refusal :=
  runBinInt s (operandsOk (.vbfx vd sa sb)) vd sa sb bitExtract

/-- vbfi (R229). -/
def execVbfi (vd : BitVec 7) (sa sb : BitVec 8) (s : State) : Host.Outcome State Fault Refusal :=
  runAccInt s (operandsOk (.vbfi vd sa sb)) vd sa sb bitInsert

/-- vadd.i16x2 (R228). -/
def execVaddI16x2 (vd : BitVec 7) (sa sb : BitVec 8) (s : State) : Host.Outcome State Fault Refusal :=
  runBinInt s (operandsOk (.vaddI16x2 vd sa sb)) vd sa sb (halves fun a b => a + b)

/-- vsub.i16x2 (R228). -/
def execVsubI16x2 (vd : BitVec 7) (sa sb : BitVec 8) (s : State) : Host.Outcome State Fault Refusal :=
  runBinInt s (operandsOk (.vsubI16x2 vd sa sb)) vd sa sb (halves fun a b => a - b)

/-- vdot4.i8 (R174). -/
def execVdot4I8 (vd : BitVec 7) (sa sb : BitVec 8) (s : State) : Host.Outcome State Fault Refusal :=
  runAccInt s (operandsOk (.vdot4I8 vd sa sb)) vd sa sb (byteDot (signedOf 8))

/-- vdot4.n8 (R174). -/
def execVdot4N8 (vd : BitVec 7) (sa sb : BitVec 8) (s : State) : Host.Outcome State Fault Refusal :=
  runAccInt s (operandsOk (.vdot4N8 vd sa sb)) vd sa sb (byteDot fun x => x)

end Sys2Proof.Machine
end

