-- ==== Sys2Proof/Machine/VectorMisc.lean ====
section
/-! DEFINITION. The meanings of class 0x2: conversions, moves, lane movement, scans, reductions, ballot, compress and
expand (R230 to R234, R170 to R172, R176, R177). -/

namespace Sys2Proof.Machine

/-! Conversions (R230, R170 to R172) -/

/-- How a word reads a source of type `t`; a K operand takes a constant as its integer pattern (R182). -/
def typeElem : NumType → Elem
  | .f64 => .f64
  | .f32 => .f32
  | .f16 => .f16
  | .b16 => .b16
  | _ => .int

/-- Bits of a narrow source, from the low bits of its lane (R230). -/
def typeBits : NumType → Nat
  | .f64 => 64
  | .f32 | .i32 | .n32 => 32
  | .f16 | .b16 | .i16 | .n16 => 16
  | .k8 | .i8 | .n8 => 8
  | .k4 => 4

/-- A narrow destination in its lane: i8 and i16 sign-extended, the rest zero-extended (R230). -/
def placeNarrow (t : NumType) (x : Nat) : Nat :=
  match t with
  | .i8 => wrapTo 32 (signedOf 8 x)
  | .i16 => wrapTo 32 (signedOf 16 x)
  | _ => x

/-- Whether .ef applies to a conversion (R172). -/
def efAllowed (d s : NumType) : Bool := s == .f32 && (d == .f16 || d == .b16 || d == .k8 || d == .k4)

/-- The hint.mod words vcvt accepts (R226). -/
def cvtMods (d s : NumType) (m : ModHint) : Bool :=
  let m1 := if s.isFloat then { m with nega := false, absa := false, negb := false, absb := false } else m
  let m2 := if efAllowed d s then { m1 with ef := false, qidx := 0 } else m1
  modRound m2

/-- The source value of a lane, after NEG and ABS. -/
def cvtSource (w : View) (s : NumType) (sa : BitVec 8) (l : Nat) : Nat :=
  let x := readSpec w (typeElem s) sa l % 2 ^ typeBits s
  if s.isFloat then signMods w.mod.nega w.mod.absa (typeBits s) x else x

/-- The value of a converted code (R172). -/
def codeValue (d : NumType) (x : Nat) : Num := numValue d x

/-- One lane of an error-feedback conversion: the result and the new residue (R172). -/
def efLane (w : View) (d : NumType) (x : Nat) (q : W32) : Conv × W32 :=
  let m := w.rnd
  let x' := Num.sum m [Num.decode .f32 x, Num.decode .f32 q.toNat]
  let y := convertTo d m w.mod.sat false x'
  let r := match x' with
    | .fin .. =>
      match codeValue d y.bits with
      | .fin n k e => BitVec.ofNat 32 (Num.round .f32 .rne (Num.sub .rne x' (.fin n k e)))
      | v => BitVec.ofNat 32 (Num.round .f32 .rne (Num.sub .rne x' v))
    | _ => 0
  (y, r)

/-- The result of one lane. -/
def cvtLane (w : View) (d s : NumType) (sa : BitVec 8) (l : Nat) : Conv × Option W32 :=
  let x := cvtSource w s sa l
  if w.mod.ef then
    let r := efLane w d x (w.gr.rq w.mod.qidx.toNat l)
    (r.1, some r.2)
  else (convert s d w.rnd w.mod.sat x, none)

/-- The checks of vcvt; one of a reserved type reads the register its operand names (R208). -/
def cvtInfo (vd : BitVec 7) (sa : BitVec 8) (dt st : BitVec 4) (w : View) : Info :=
  match NumType.ofCode dt, NumType.ofCode st with
  | some d, some s =>
    let wide := d == .f64
    let i := vecInfo w (operandsOk (.vcvt vd sa dt st)) (typeElem s) vd [sa] (cvtMods d s) false wide
      (if wide || s == .f64 then 1 else 0)
    if w.mod.ef then { i with reads := i.reads ++ [.q w.mod.qidx.toNat] } else i
  | _, _ => { vecInfo w false .f32 vd [sa] (fun _ => true) with pipe := some false }

/-- vcvt.D.S (R230). -/
def execVcvt (vd : BitVec 7) (sa : BitVec 8) (dt st : BitVec 4) (s : State) : Host.Outcome State Fault Refusal :=
  runUnit s (cvtInfo vd sa dt st) fun w => do
    match NumType.ofCode dt, NumType.ofCode st with
    | some d, some t =>
      let rs := w.lanes.map fun l => (l, cvtLane w d t sa l)
      let ds := floatCauses w (rs.map fun r => (r.1, { bits := r.2.1.bits, ovf := r.2.1.ovf, invalid := r.2.1.invalid }))
      if !ds.isEmpty then raise ds
      else
        modGroup w.g fun gr =>
          let gr := rs.foldl (fun gr r => match r.2.2 with
            | some q => gr.setQ w.mod.qidx.toNat r.1 q
            | none => gr) gr
          let r := destReg w vd
          if d == .f64 then writePair r (rs.map fun x => (x.1, x.2.1.bits)) gr
          else writeResult r (rs.map fun x => (x.1, BitVec.ofNat 32 (placeNarrow d x.2.1.bits))) gr
        pure .seq
    | _, _ => pure .seq

/-- vrnd.f32 (R231). -/
def execVrndF32 (vd : BitVec 7) (sa : BitVec 8) (s : State) : Host.Outcome State Fault Refusal :=
  runFloat s (fun w => vecInfo w (operandsOk (.vrndF32 vd sa)) .f32 vd [sa] modFloat) (destReg · vd) false fun w l =>
    roundElems w .f32 ((operandNums w .f32 false (readSpec w .f32 sa l)).map (Num.roundInt w.rnd))

/-! Moves (R231) -/

/-- A class-0x2 word with one 32-bit destination that accepts ODST alone (R226). -/
def moveInfo (ok : Bool) (vd : BitVec 7) (srcs : List (BitVec 8)) (w : View) : Info :=
  vecInfo w ok .int vd srcs modDest

/-- vmov (R231). -/
def execVmov (vd : BitVec 7) (sa : BitVec 8) (s : State) : Host.Outcome State Fault Refusal :=
  runLanes s (moveInfo (operandsOk (.vmov vd sa)) vd [sa]) (destReg · vd) fun w l => BitVec.ofNat 32 (readSpec w .int sa l)

/-- The destination of vmovo: oN, or o[OIDX] with ODST and N zero (R186, R231). -/
def movoReg (w : View) (on : BitVec 3) : Reg := if w.mod.odst then .o w.mod.oidx.toNat else .o on.toNat

/-- vmovo (R231). -/
def execVmovo (on : BitVec 3) (sa : BitVec 8) (s : State) : Host.Outcome State Fault Refusal :=
  runLanes s (fun w =>
      { reads := specRegs .int sa, writes := [movoReg w on], ok := operandsOk (.vmovo on sa) && (!w.mod.odst || on == 0)
        imm := immUse [sa], mods := modDest, pipe := some false }) (movoReg · on)
    fun w l => BitVec.ofNat 32 (readSpec w .int sa l)

/-- vlaneid (R231). -/
def execVlaneid (vd : BitVec 7) (s : State) : Host.Outcome State Fault Refusal :=
  runLanes s (moveInfo (operandsOk (.vlaneid vd)) vd []) (destReg · vd) fun _ l => BitVec.ofNat 32 l

/-- vpack (R231). -/
def execVpack (vd : BitVec 7) (sa sb : BitVec 8) (s : State) : Host.Outcome State Fault Refusal :=
  runLanes s (moveInfo (operandsOk (.vpack vd sa sb)) vd [sa, sb]) (destReg · vd) fun w l =>
    BitVec.ofNat 32 (readSpec w .int sb l % 65536 * 65536 + readSpec w .int sa l % 65536)

/-! Lane movement (R232) -/

/-- The source lane of each active lane by the word's rule. -/
def moveSource (w : View) (sb : BitVec 8) (j : Nat → Nat → Nat) (l : Nat) : Nat := j l (readSpec w .int sb l % 32)

/-- A lane-movement word: lane j of a is read whatever EXM holds there (R225). -/
def runMove (z : State) (ok : Bool) (vd : BitVec 7) (sa sb : BitVec 8) (j : Nat → Nat → Nat) :
    Host.Outcome State Fault Refusal :=
  runLanes z (fun w =>
      { moveInfo ok vd [sa, sb] w with
        reads := specRegs .int sb
        names := specRegs .int sa
        others := (specRegs .int sa).flatMap fun r => w.lanes.map fun l => (r, moveSource w sb j l, l) }) (destReg · vd)
    fun w l => BitVec.ofNat 32 (readSpec w .int sa (moveSource w sb j l))

/-- vlane (R232). -/
def execVlane (vd : BitVec 7) (sa sb : BitVec 8) (s : State) : Host.Outcome State Fault Refusal :=
  runMove s (operandsOk (.vlane vd sa sb)) vd sa sb fun _ n => n

/-- vxswap (R232). -/
def execVxswap (vd : BitVec 7) (sa sb : BitVec 8) (s : State) : Host.Outcome State Fault Refusal :=
  runMove s (operandsOk (.vxswap vd sa sb)) vd sa sb fun l n => Nat.xor l n

/-- vup (R232). -/
def execVup (vd : BitVec 7) (sa sb : BitVec 8) (s : State) : Host.Outcome State Fault Refusal :=
  runMove s (operandsOk (.vup vd sa sb)) vd sa sb fun l n => if n ≤ l then l - n else l

/-- vdown (R232). -/
def execVdown (vd : BitVec 7) (sa sb : BitVec 8) (s : State) : Host.Outcome State Fault Refusal :=
  runMove s (operandsOk (.vdown vd sa sb)) vd sa sb fun l n => if l + n ≤ 31 then l + n else l

/-! Scans and reductions (R233, R176, R177) -/

/-- A result of a scan or a reduction: an F32 NaN is canonical even where one lane stands alone (R9). -/
def canonLane (e : Elem) (x : W32) : W32 := if e == .f32 then canonF32 x else x

/-- The inclusive chain of R177 over a list of values, with the running value and whether any step overflowed. -/
def scanChain {α : Type} (op : α → α → α) (ovf : α → α → Bool) : Option (α × Bool) → List α → List α × Bool
  | acc, [] => ([], (acc.map (·.2)).getD false)
  | none, x :: xs => let r := scanChain op ovf (some (x, false)) xs; (x :: r.1, r.2)
  | some (a, o), x :: xs =>
    let y := op a x
    let r := scanChain op ovf (some (y, o || ovf a x)) xs
    (y :: r.1, r.2)

/-- The sum of two F32 codes under the word's mode and .sat. -/
def addCodes (w : View) (a b : W32) : W32 :=
  BitVec.ofNat 32 (Num.roundSat .f32 w.rnd w.mod.sat (Num.add w.rnd (Num.decode .f32 a.toNat) (Num.decode .f32 b.toNat))).1

/-- Whether that sum rounds to an infinity from finite operands (R164). -/
def addOverflows (w : View) (a b : W32) : Bool :=
  let x := Num.add w.rnd (Num.decode .f32 a.toNat) (Num.decode .f32 b.toNat)
  !x.isInf && (Num.roundSat .f32 w.rnd w.mod.sat x).2

/-- Lane values of the operand in the active lanes. -/
def activeValues (w : View) (e : Elem) (sa : BitVec 8) : List W32 := w.lanes.map fun l => BitVec.ofNat 32 (readSpec w e sa l)

/-- A scan word (R177). -/
def runScan (z : State) (ok : Bool) (e : Elem) (vd : BitVec 7) (sa : BitVec 8) (mods : ModHint → Bool)
    (op : View → W32 → W32 → W32) (ovf : View → W32 → W32 → Bool) : Host.Outcome State Fault Refusal :=
  runUnit z (fun w => vecInfo w ok e vd [sa] mods) fun w => do
    let r := scanChain (op w) (ovf w) none (activeValues w e sa)
    if w.foe && r.2 then raise (w.lanes.map fun l => laneDetail Cause.fpOvf l 0 0)
    else
      modGroup w.g (writeResult (destReg w vd) (w.lanes.zip (r.1.map (canonLane e))))
      pure .seq

/-- vscan.i32 (R177). -/
def execVscanI32 (vd : BitVec 7) (sa : BitVec 8) (s : State) : Host.Outcome State Fault Refusal :=
  runScan s (operandsOk (.vscanI32 vd sa)) .int vd sa modDest (fun _ a b => a + b) fun _ _ _ => false

/-- vscan.f32 (R177). -/
def execVscanF32 (vd : BitVec 7) (sa : BitVec 8) (s : State) : Host.Outcome State Fault Refusal :=
  runScan s (operandsOk (.vscanF32 vd sa)) .f32 vd sa modRound addCodes addOverflows

/-- A reduction over the pairwise tree of lanes (R176): its value, and whether a rounding overflowed. -/
def redTree (w : View) (e : Elem) (sa : BitVec 8) (op : W32 → W32 → W32) (ovf : W32 → W32 → Bool) : W32 × Bool :=
  let nodes : List (Option (W32 × Bool)) := (List.range 32).map fun l =>
    if w.exm.getLsbD l then some (BitVec.ofNat 32 (readSpec w e sa l), false) else none
  let comb (a b : W32 × Bool) : W32 × Bool := (op a.1 b.1, a.2 || b.2 || ovf a.1 b.1)
  let r := (treeReduce comb 5 nodes).getD (0, false)
  (canonLane e r.1, r.2)

/-- A reduction word (R233). -/
def runRed (z : State) (ok : Bool) (e : Elem) (vd : BitVec 7) (sa : BitVec 8) (mods : ModHint → Bool)
    (op : View → W32 → W32 → W32) (ovf : View → W32 → W32 → Bool) : Host.Outcome State Fault Refusal :=
  runUnit z (fun w => vecInfo w ok e vd [sa] mods) fun w => do
    let r := redTree w e sa (op w) (ovf w)
    if w.foe && r.2 then raise (w.lanes.map fun l => laneDetail Cause.fpOvf l 0 0)
    else
      modGroup w.g (writeResult (destReg w vd) (laneValues w fun _ => r.1))
      pure .seq

/-- MaxF or MinF of two F32 codes. -/
def codesBy (f : Num → Num → Num) (a b : W32) : W32 :=
  BitVec.ofNat 32 (Num.round .f32 .rne (f (Num.decode .f32 a.toNat) (Num.decode .f32 b.toNat)))

/-- vred.add.i32 (R176). -/
def execVredAddI32 (vd : BitVec 7) (sa : BitVec 8) (s : State) : Host.Outcome State Fault Refusal :=
  runRed s (operandsOk (.vredAddI32 vd sa)) .int vd sa modDest (fun _ a b => a + b) fun _ _ _ => false

/-- vred.add.f32 (R176). -/
def execVredAddF32 (vd : BitVec 7) (sa : BitVec 8) (s : State) : Host.Outcome State Fault Refusal :=
  runRed s (operandsOk (.vredAddF32 vd sa)) .f32 vd sa modRound addCodes addOverflows

/-- vred.max.f32 (R176). -/
def execVredMaxF32 (vd : BitVec 7) (sa : BitVec 8) (s : State) : Host.Outcome State Fault Refusal :=
  runRed s (operandsOk (.vredMaxF32 vd sa)) .f32 vd sa modDest (fun _ => codesBy Num.maxF) fun _ _ _ => false

/-- vred.min.f32 (R176). -/
def execVredMinF32 (vd : BitVec 7) (sa : BitVec 8) (s : State) : Host.Outcome State Fault Refusal :=
  runRed s (operandsOk (.vredMinF32 vd sa)) .f32 vd sa modDest (fun _ => codesBy Num.minF) fun _ _ _ => false

/-! Ballot, compress, expand (R234) -/

/-- vballot (R234). -/
def execVballot (sd : BitVec 6) (sa : BitVec 8) (s : State) : Host.Outcome State Fault Refusal :=
  runRegs s (fun _ =>
      { reads := specRegs .int sa, writes := [.s sd.toNat], ok := operandsOk (.vballot sd sa), imm := immUse [sa]
        mods := modZero, pipe := some false })
    fun w gr => gr.setS sd.toNat ((maskOf (w.lanes.filter fun l => readSpec w .int sa l ≠ 0)).zeroExtend 64)

/-- The selected lanes of vcompress and vexpand, lowest first. -/
def selLanes (w : View) (k : BitVec 3) : List Nat := lanesOf (w.exm &&& w.gr.rk k.toNat)

/-- The checks of vcompress and vexpand: `from_` gives the (lane read, reading lane) pairs. -/
def selInfo (ok : Bool) (vd : BitVec 7) (sa : BitVec 8) (k : BitVec 3) (from_ : View → List (Nat × Nat)) (w : View) : Info :=
  { moveInfo ok vd [sa] w with
    reads := [.k k.toNat]
    names := specRegs .int sa
    others := (specRegs .int sa).flatMap fun r => (from_ w).map fun p => (r, p) }

/-- vcompress (R234). -/
def execVcompress (vd : BitVec 7) (sa : BitVec 8) (k : BitVec 3) (s : State) : Host.Outcome State Fault Refusal :=
  runRegs s (selInfo (operandsOk (.vcompress vd sa k)) vd sa k fun w => (selLanes w k).map fun l => (l, l))
    fun w => writeResult (destReg w vd)
      ((List.range (selLanes w k).length).zip ((selLanes w k).map fun l => BitVec.ofNat 32 (readSpec w .int sa l)))

/-- vexpand (R234). -/
def execVexpand (vd : BitVec 7) (sa : BitVec 8) (k : BitVec 3) (s : State) : Host.Outcome State Fault Refusal :=
  runRegs s (selInfo (operandsOk (.vexpand vd sa k)) vd sa k fun w =>
      (List.range (selLanes w k).length).zip (selLanes w k))
    fun w => writeResult (destReg w vd)
      ((selLanes w k).zip ((List.range (selLanes w k).length).map fun i => BitVec.ofNat 32 (readSpec w .int sa i)))

end Sys2Proof.Machine
end

