-- ==== Sys2Proof/Machine/Dispatch.lean ====
section
/-! DEFINITION. What each instruction, hint and event does: one direct call of its meaning. -/

namespace Sys2Proof.Machine

def exec (i : Instr) (s : State) : Host.Outcome State Fault Refusal :=
  match i with
  | .vaddF32 vd sa sb => Sys2Proof.Machine.execVaddF32 vd sa sb s
  | .vsubF32 vd sa sb => Sys2Proof.Machine.execVsubF32 vd sa sb s
  | .vmulF32 vd sa sb => Sys2Proof.Machine.execVmulF32 vd sa sb s
  | .vfmaF32 vd sa sb => Sys2Proof.Machine.execVfmaF32 vd sa sb s
  | .vminF32 vd sa sb => Sys2Proof.Machine.execVminF32 vd sa sb s
  | .vmaxF32 vd sa sb => Sys2Proof.Machine.execVmaxF32 vd sa sb s
  | .vaddF16x2 vd sa sb => Sys2Proof.Machine.execVaddF16x2 vd sa sb s
  | .vsubF16x2 vd sa sb => Sys2Proof.Machine.execVsubF16x2 vd sa sb s
  | .vmulF16x2 vd sa sb => Sys2Proof.Machine.execVmulF16x2 vd sa sb s
  | .vfmaF16x2 vd sa sb => Sys2Proof.Machine.execVfmaF16x2 vd sa sb s
  | .vminF16x2 vd sa sb => Sys2Proof.Machine.execVminF16x2 vd sa sb s
  | .vmaxF16x2 vd sa sb => Sys2Proof.Machine.execVmaxF16x2 vd sa sb s
  | .vaddB16x2 vd sa sb => Sys2Proof.Machine.execVaddB16x2 vd sa sb s
  | .vsubB16x2 vd sa sb => Sys2Proof.Machine.execVsubB16x2 vd sa sb s
  | .vmulB16x2 vd sa sb => Sys2Proof.Machine.execVmulB16x2 vd sa sb s
  | .vfmaB16x2 vd sa sb => Sys2Proof.Machine.execVfmaB16x2 vd sa sb s
  | .vaddF64 vd sa sb => Sys2Proof.Machine.execVaddF64 vd sa sb s
  | .vsubF64 vd sa sb => Sys2Proof.Machine.execVsubF64 vd sa sb s
  | .vmulF64 vd sa sb => Sys2Proof.Machine.execVmulF64 vd sa sb s
  | .vfmaF64 vd sa sb => Sys2Proof.Machine.execVfmaF64 vd sa sb s
  | .vminF64 vd sa sb => Sys2Proof.Machine.execVminF64 vd sa sb s
  | .vmaxF64 vd sa sb => Sys2Proof.Machine.execVmaxF64 vd sa sb s
  | .vdot2F16x2 vd sa sb => Sys2Proof.Machine.execVdot2F16x2 vd sa sb s
  | .vdot2B16x2 vd sa sb => Sys2Proof.Machine.execVdot2B16x2 vd sa sb s
  | .vdot4K8 vd sa sb => Sys2Proof.Machine.execVdot4K8 vd sa sb s
  | .vfracF32 vd sa => Sys2Proof.Machine.execVfracF32 vd sa s
  | .vaddI32 vd sa sb => Sys2Proof.Machine.execVaddI32 vd sa sb s
  | .vsubI32 vd sa sb => Sys2Proof.Machine.execVsubI32 vd sa sb s
  | .vmulI32 vd sa sb => Sys2Proof.Machine.execVmulI32 vd sa sb s
  | .vmadI32 vd sa sb => Sys2Proof.Machine.execVmadI32 vd sa sb s
  | .vmulhiI32 vd sa sb => Sys2Proof.Machine.execVmulhiI32 vd sa sb s
  | .vmulhiN32 vd sa sb => Sys2Proof.Machine.execVmulhiN32 vd sa sb s
  | .vminI32 vd sa sb => Sys2Proof.Machine.execVminI32 vd sa sb s
  | .vmaxI32 vd sa sb => Sys2Proof.Machine.execVmaxI32 vd sa sb s
  | .vminN32 vd sa sb => Sys2Proof.Machine.execVminN32 vd sa sb s
  | .vmaxN32 vd sa sb => Sys2Proof.Machine.execVmaxN32 vd sa sb s
  | .vaddsI32 vd sa sb => Sys2Proof.Machine.execVaddsI32 vd sa sb s
  | .vsubsI32 vd sa sb => Sys2Proof.Machine.execVsubsI32 vd sa sb s
  | .vaddsN32 vd sa sb => Sys2Proof.Machine.execVaddsN32 vd sa sb s
  | .vsubsN32 vd sa sb => Sys2Proof.Machine.execVsubsN32 vd sa sb s
  | .vand vd sa sb => Sys2Proof.Machine.execVand vd sa sb s
  | .vor vd sa sb => Sys2Proof.Machine.execVor vd sa sb s
  | .vxor vd sa sb => Sys2Proof.Machine.execVxor vd sa sb s
  | .vandn vd sa sb => Sys2Proof.Machine.execVandn vd sa sb s
  | .vshl vd sa sb => Sys2Proof.Machine.execVshl vd sa sb s
  | .vshr vd sa sb => Sys2Proof.Machine.execVshr vd sa sb s
  | .vsar vd sa sb => Sys2Proof.Machine.execVsar vd sa sb s
  | .vpopc vd sa => Sys2Proof.Machine.execVpopc vd sa s
  | .vclz vd sa => Sys2Proof.Machine.execVclz vd sa s
  | .vbrev vd sa => Sys2Proof.Machine.execVbrev vd sa s
  | .vbfx vd sa sb => Sys2Proof.Machine.execVbfx vd sa sb s
  | .vbfi vd sa sb => Sys2Proof.Machine.execVbfi vd sa sb s
  | .vaddI16x2 vd sa sb => Sys2Proof.Machine.execVaddI16x2 vd sa sb s
  | .vsubI16x2 vd sa sb => Sys2Proof.Machine.execVsubI16x2 vd sa sb s
  | .vdot4I8 vd sa sb => Sys2Proof.Machine.execVdot4I8 vd sa sb s
  | .vdot4N8 vd sa sb => Sys2Proof.Machine.execVdot4N8 vd sa sb s
  | .vcvt vd sa dt st => Sys2Proof.Machine.execVcvt vd sa dt st s
  | .vrndF32 vd sa => Sys2Proof.Machine.execVrndF32 vd sa s
  | .vmov vd sa => Sys2Proof.Machine.execVmov vd sa s
  | .vmovo on sa => Sys2Proof.Machine.execVmovo on sa s
  | .vlane vd sa sb => Sys2Proof.Machine.execVlane vd sa sb s
  | .vxswap vd sa sb => Sys2Proof.Machine.execVxswap vd sa sb s
  | .vup vd sa sb => Sys2Proof.Machine.execVup vd sa sb s
  | .vdown vd sa sb => Sys2Proof.Machine.execVdown vd sa sb s
  | .vscanI32 vd sa => Sys2Proof.Machine.execVscanI32 vd sa s
  | .vscanF32 vd sa => Sys2Proof.Machine.execVscanF32 vd sa s
  | .vredAddI32 vd sa => Sys2Proof.Machine.execVredAddI32 vd sa s
  | .vredAddF32 vd sa => Sys2Proof.Machine.execVredAddF32 vd sa s
  | .vredMaxF32 vd sa => Sys2Proof.Machine.execVredMaxF32 vd sa s
  | .vredMinF32 vd sa => Sys2Proof.Machine.execVredMinF32 vd sa s
  | .vballot sd sa => Sys2Proof.Machine.execVballot sd sa s
  | .vcompress vd sa k => Sys2Proof.Machine.execVcompress vd sa k s
  | .vexpand vd sa k => Sys2Proof.Machine.execVexpand vd sa k s
  | .vlaneid vd => Sys2Proof.Machine.execVlaneid vd s
  | .vpack vd sa sb => Sys2Proof.Machine.execVpack vd sa sb s
  | .vcmpF32 cc k sa sb => Sys2Proof.Machine.execVcmpF32 cc k sa sb s
  | .vcmpF64 cc k sa sb => Sys2Proof.Machine.execVcmpF64 cc k sa sb s
  | .vcmpI32 cc k sa sb => Sys2Proof.Machine.execVcmpI32 cc k sa sb s
  | .vcmpN32 cc k sa sb => Sys2Proof.Machine.execVcmpN32 cc k sa sb s
  | .vclsF32 vd sa => Sys2Proof.Machine.execVclsF32 vd sa s
  | .vtest k sa sb => Sys2Proof.Machine.execVtest k sa sb s
  | .vselK0 vd sa sb => Sys2Proof.Machine.execVselK0 vd sa sb s
  | .vselK1 vd sa sb => Sys2Proof.Machine.execVselK1 vd sa sb s
  | .vselK2 vd sa sb => Sys2Proof.Machine.execVselK2 vd sa sb s
  | .vselK3 vd sa sb => Sys2Proof.Machine.execVselK3 vd sa sb s
  | .vselK4 vd sa sb => Sys2Proof.Machine.execVselK4 vd sa sb s
  | .vselK5 vd sa sb => Sys2Proof.Machine.execVselK5 vd sa sb s
  | .vselK6 vd sa sb => Sys2Proof.Machine.execVselK6 vd sa sb s
  | .vselK7 vd sa sb => Sys2Proof.Machine.execVselK7 vd sa sb s
  | .frcpF32 vd sa => Sys2Proof.Machine.execFrcpF32 vd sa s
  | .frsqF32 vd sa => Sys2Proof.Machine.execFrsqF32 vd sa s
  | .fsqrtF32 vd sa => Sys2Proof.Machine.execFsqrtF32 vd sa s
  | .fexp2F32 vd sa => Sys2Proof.Machine.execFexp2F32 vd sa s
  | .flog2F32 vd sa => Sys2Proof.Machine.execFlog2F32 vd sa s
  | .fsinpF32 vd sa => Sys2Proof.Machine.execFsinpF32 vd sa s
  | .fcospF32 vd sa => Sys2Proof.Machine.execFcospF32 vd sa s
  | .ftanhF32 vd sa => Sys2Proof.Machine.execFtanhF32 vd sa s
  | .fsigmF32 vd sa => Sys2Proof.Machine.execFsigmF32 vd sa s
  | .frcpF64 vd sa => Sys2Proof.Machine.execFrcpF64 vd sa s
  | .frsqF64 vd sa => Sys2Proof.Machine.execFrsqF64 vd sa s
  | .fexp2F16x2 vd sa => Sys2Proof.Machine.execFexp2F16x2 vd sa s
  | .ftanhF16x2 vd sa => Sys2Proof.Machine.execFtanhF16x2 vd sa s
  | .add d a b => Sys2Proof.Machine.execAdd d a b s
  | .sub d a b => Sys2Proof.Machine.execSub d a b s
  | .mul d a b => Sys2Proof.Machine.execMul d a b s
  | .mulhiI d a b => Sys2Proof.Machine.execMulhiI d a b s
  | .mulhiN d a b => Sys2Proof.Machine.execMulhiN d a b s
  | .divI d a b => Sys2Proof.Machine.execDivI d a b s
  | .divN d a b => Sys2Proof.Machine.execDivN d a b s
  | .remI d a b => Sys2Proof.Machine.execRemI d a b s
  | .remN d a b => Sys2Proof.Machine.execRemN d a b s
  | .and d a b => Sys2Proof.Machine.execAnd d a b s
  | .or d a b => Sys2Proof.Machine.execOr d a b s
  | .xor d a b => Sys2Proof.Machine.execXor d a b s
  | .andn d a b => Sys2Proof.Machine.execAndn d a b s
  | .shl d a b => Sys2Proof.Machine.execShl d a b s
  | .shr d a b => Sys2Proof.Machine.execShr d a b s
  | .sar d a b => Sys2Proof.Machine.execSar d a b s
  | .minI d a b => Sys2Proof.Machine.execMinI d a b s
  | .maxI d a b => Sys2Proof.Machine.execMaxI d a b s
  | .minN d a b => Sys2Proof.Machine.execMinN d a b s
  | .maxN d a b => Sys2Proof.Machine.execMaxN d a b s
  | .sltI d a b => Sys2Proof.Machine.execSltI d a b s
  | .sltN d a b => Sys2Proof.Machine.execSltN d a b s
  | .seq d a b => Sys2Proof.Machine.execSeq d a b s
  | .mov d a => Sys2Proof.Machine.execMov d a s
  | .clz d a => Sys2Proof.Machine.execClz d a s
  | .popc d a => Sys2Proof.Machine.execPopc d a s
  | .brev d a => Sys2Proof.Machine.execBrev d a s
  | .sext32 d a => Sys2Proof.Machine.execSext32 d a s
  | .zext32 d a => Sys2Proof.Machine.execZext32 d a s
  | .lea d a b sh => Sys2Proof.Machine.execLea d a b sh s
  | .kand d a b => Sys2Proof.Machine.execKand d a b s
  | .kor d a b => Sys2Proof.Machine.execKor d a b s
  | .kxor d a b => Sys2Proof.Machine.execKxor d a b s
  | .kandn d a b => Sys2Proof.Machine.execKandn d a b s
  | .knot d a => Sys2Proof.Machine.execKnot d a s
  | .kpopc d a => Sys2Proof.Machine.execKpopc d a s
  | .kffs d a => Sys2Proof.Machine.execKffs d a s
  | .ktos d a => Sys2Proof.Machine.execKtos d a s
  | .stok d a => Sys2Proof.Machine.execStok d a s
  | .exmrd d => Sys2Proof.Machine.execExmrd d s
  | .exmwr a => Sys2Proof.Machine.execExmwr a s
  | .addi d a imm => Sys2Proof.Machine.execAddi d a imm s
  | .andi d a imm => Sys2Proof.Machine.execAndi d a imm s
  | .ori d a imm => Sys2Proof.Machine.execOri d a imm s
  | .xori d a imm => Sys2Proof.Machine.execXori d a imm s
  | .shli d a imm => Sys2Proof.Machine.execShli d a imm s
  | .shri d a imm => Sys2Proof.Machine.execShri d a imm s
  | .sari d a imm => Sys2Proof.Machine.execSari d a imm s
  | .sltiI d a imm => Sys2Proof.Machine.execSltiI d a imm s
  | .sltiN d a imm => Sys2Proof.Machine.execSltiN d a imm s
  | .seqi d a imm => Sys2Proof.Machine.execSeqi d a imm s
  | .li d imm => Sys2Proof.Machine.execLi d imm s
  | .muli d a imm => Sys2Proof.Machine.execMuli d a imm s
  | .br off => Sys2Proof.Machine.execBr off s
  | .brz r off => Sys2Proof.Machine.execBrz r off s
  | .brnz r off => Sys2Proof.Machine.execBrnz r off s
  | .brany k off => Sys2Proof.Machine.execBrany k off s
  | .brall k off => Sys2Proof.Machine.execBrall k off s
  | .call off => Sys2Proof.Machine.execCall off s
  | .ret r => Sys2Proof.Machine.execRet r s
  | .brx r off => Sys2Proof.Machine.execBrx r off s
  | .mif k off => Sys2Proof.Machine.execMif k off s
  | .melse off => Sys2Proof.Machine.execMelse off s
  | .mend => Sys2Proof.Machine.execMend s
  | .mwhile k off => Sys2Proof.Machine.execMwhile k off s
  | .exit => Sys2Proof.Machine.execExit s
  | .nop => Sys2Proof.Machine.execNop s
  | .wait sel n => Sys2Proof.Machine.execWait sel n s
  | .ldB8 vd sb vo ord => Sys2Proof.Machine.execLdB8 vd sb vo ord s
  | .ldI8 vd sb vo ord => Sys2Proof.Machine.execLdI8 vd sb vo ord s
  | .ldB16 vd sb vo ord => Sys2Proof.Machine.execLdB16 vd sb vo ord s
  | .ldI16 vd sb vo ord => Sys2Proof.Machine.execLdI16 vd sb vo ord s
  | .ldB32 vd sb vo ord => Sys2Proof.Machine.execLdB32 vd sb vo ord s
  | .ldB64 vd sb vo ord => Sys2Proof.Machine.execLdB64 vd sb vo ord s
  | .ldB128 vd sb vo ord => Sys2Proof.Machine.execLdB128 vd sb vo ord s
  | .stB8 vd sb vo ord => Sys2Proof.Machine.execStB8 vd sb vo ord s
  | .stB16 vd sb vo ord => Sys2Proof.Machine.execStB16 vd sb vo ord s
  | .stB32 vd sb vo ord => Sys2Proof.Machine.execStB32 vd sb vo ord s
  | .stB64 vd sb vo ord => Sys2Proof.Machine.execStB64 vd sb vo ord s
  | .stB128 vd sb vo ord => Sys2Proof.Machine.execStB128 vd sb vo ord s
  | .atomAddI32 vd sb vo ord => Sys2Proof.Machine.execAtomAddI32 vd sb vo ord s
  | .atomAddI64 vd sb vo ord => Sys2Proof.Machine.execAtomAddI64 vd sb vo ord s
  | .atomAddF32 vd sb vo ord => Sys2Proof.Machine.execAtomAddF32 vd sb vo ord s
  | .atomMinI32 vd sb vo ord => Sys2Proof.Machine.execAtomMinI32 vd sb vo ord s
  | .atomMaxI32 vd sb vo ord => Sys2Proof.Machine.execAtomMaxI32 vd sb vo ord s
  | .atomMinN32 vd sb vo ord => Sys2Proof.Machine.execAtomMinN32 vd sb vo ord s
  | .atomMaxN32 vd sb vo ord => Sys2Proof.Machine.execAtomMaxN32 vd sb vo ord s
  | .atomAndB32 vd sb vo ord => Sys2Proof.Machine.execAtomAndB32 vd sb vo ord s
  | .atomOrB32 vd sb vo ord => Sys2Proof.Machine.execAtomOrB32 vd sb vo ord s
  | .atomXorB32 vd sb vo ord => Sys2Proof.Machine.execAtomXorB32 vd sb vo ord s
  | .atomExchB32 vd sb vo ord => Sys2Proof.Machine.execAtomExchB32 vd sb vo ord s
  | .atomExchB64 vd sb vo ord => Sys2Proof.Machine.execAtomExchB64 vd sb vo ord s
  | .atomCasB32 vd sb vo ord => Sys2Proof.Machine.execAtomCasB32 vd sb vo ord s
  | .atomCasB64 vd sb vo ord => Sys2Proof.Machine.execAtomCasB64 vd sb vo ord s
  | .cstB32 vd sb vo ord => Sys2Proof.Machine.execCstB32 vd sb vo ord s
  | .ldS64 vd sb vo ord => Sys2Proof.Machine.execLdS64 vd sb vo ord s
  | .stS64 vd sb vo ord => Sys2Proof.Machine.execStS64 vd sb vo ord s
  | .prf sb vo ord => Sys2Proof.Machine.execPrf sb vo ord s
  | .ldsB32 vd sb vo ord => Sys2Proof.Machine.execLdsB32 vd sb vo ord s
  | .ldsB64 vd sb vo ord => Sys2Proof.Machine.execLdsB64 vd sb vo ord s
  | .ldsB128 vd sb vo ord => Sys2Proof.Machine.execLdsB128 vd sb vo ord s
  | .stsB32 vd sb vo ord => Sys2Proof.Machine.execStsB32 vd sb vo ord s
  | .stsB64 vd sb vo ord => Sys2Proof.Machine.execStsB64 vd sb vo ord s
  | .stsB128 vd sb vo ord => Sys2Proof.Machine.execStsB128 vd sb vo ord s
  | .ldsB8 vd sb vo ord => Sys2Proof.Machine.execLdsB8 vd sb vo ord s
  | .stsB8 vd sb vo ord => Sys2Proof.Machine.execStsB8 vd sb vo ord s
  | .ldsB16 vd sb vo ord => Sys2Proof.Machine.execLdsB16 vd sb vo ord s
  | .stsB16 vd sb vo ord => Sys2Proof.Machine.execStsB16 vd sb vo ord s
  | .ldnB32 vd sb vo ord => Sys2Proof.Machine.execLdnB32 vd sb vo ord s
  | .stnB32 vd sb vo ord => Sys2Proof.Machine.execStnB32 vd sb vo ord s
  | .atomsAddI32 vd sb vo ord => Sys2Proof.Machine.execAtomsAddI32 vd sb vo ord s
  | .atomsMinI32 vd sb vo ord => Sys2Proof.Machine.execAtomsMinI32 vd sb vo ord s
  | .atomsMaxI32 vd sb vo ord => Sys2Proof.Machine.execAtomsMaxI32 vd sb vo ord s
  | .atomsExchB32 vd sb vo ord => Sys2Proof.Machine.execAtomsExchB32 vd sb vo ord s
  | .atomsCasB32 vd sb vo ord => Sys2Proof.Machine.execAtomsCasB32 vd sb vo ord s
  | .atomnAddI32 vd sb vo ord => Sys2Proof.Machine.execAtomnAddI32 vd sb vo ord s
  | .ldsS64 vd sb vo ord => Sys2Proof.Machine.execLdsS64 vd sb vo ord s
  | .stsS64 vd sb vo ord => Sys2Proof.Machine.execStsS64 vd sb vo ord s
  | .cpy x => Sys2Proof.Machine.execCpy x s
  | .cpyl x => Sys2Proof.Machine.execCpyl x s
  | .close x c => Sys2Proof.Machine.execClose x c s
  | .waitb x c => Sys2Proof.Machine.execWaitb x c s
  | .boinit x y => Sys2Proof.Machine.execBoinit x y s
  | .boexp x y => Sys2Proof.Machine.execBoexp x y s
  | .boarr x => Sys2Proof.Machine.execBoarr x s
  | .bowait x y => Sys2Proof.Machine.execBowait x y s
  | .discard x y => Sys2Proof.Machine.execDiscard x y s
  | .flushr x y => Sys2Proof.Machine.execFlushr x y s
  | .coll x => Sys2Proof.Machine.execColl x s
  | .lattach x y z => Sys2Proof.Machine.execLattach x y z s
  | .ldetach x y z => Sys2Proof.Machine.execLdetach x y z s
  | .fold x y => Sys2Proof.Machine.execFold x y s
  | .barSync c bar => Sys2Proof.Machine.execBarSync c bar s
  | .barArr c bar => Sys2Proof.Machine.execBarArr c bar s
  | .barRedAddI32 c y z bar => Sys2Proof.Machine.execBarRedAddI32 c y z bar s
  | .barRedAddF32 c y z bar => Sys2Proof.Machine.execBarRedAddF32 c y z bar s
  | .barRedMaxI32 c y z bar => Sys2Proof.Machine.execBarRedMaxI32 c y z bar s
  | .barRedMinI32 c y z bar => Sys2Proof.Machine.execBarRedMinI32 c y z bar s
  | .barRedAnd c y z bar => Sys2Proof.Machine.execBarRedAnd c y z bar s
  | .barRedOr c y z bar => Sys2Proof.Machine.execBarRedOr c y z bar s
  | .fence sc => Sys2Proof.Machine.execFence sc s
  | .msend x y z => Sys2Proof.Machine.execMsend x y z s
  | .wring x y z => Sys2Proof.Machine.execWring x y z s
  | .tktTake j => Sys2Proof.Machine.execTktTake j s
  | .tktSkip j => Sys2Proof.Machine.execTktSkip j s
  | .atomoAddF32 x y z => Sys2Proof.Machine.execAtomoAddF32 x y z s
  | .atomoAddI64 x y z => Sys2Proof.Machine.execAtomoAddI64 x y z s
  | .vstVer x y z => Sys2Proof.Machine.execVstVer x y z s
  | .ldVer x y z => Sys2Proof.Machine.execLdVer x y z s
  | .obres x y z => Sys2Proof.Machine.execObres x y z s
  | .obrel x => Sys2Proof.Machine.execObrel x s
  | .mfetcha x y z => Sys2Proof.Machine.execMfetcha x y z s
  | .mloadb x y z => Sys2Proof.Machine.execMloadb x y z s
  | .mmaD x y n => Sys2Proof.Machine.execMmaD x y n s
  | .mmaB x y n => Sys2Proof.Machine.execMmaB x y n s
  | .mzero n => Sys2Proof.Machine.execMzero n s
  | .mstore x y z n => Sys2Proof.Machine.execMstore x y z n s
  | .spawn x y => Sys2Proof.Machine.execSpawn x y s
  | .spawnq x y z => Sys2Proof.Machine.execSpawnq x y z s
  | .qpop x y z => Sys2Proof.Machine.execQpop x y z s
  | .join x y => Sys2Proof.Machine.execJoin x y s
  | .topup x y z => Sys2Proof.Machine.execTopup x y z s
  | .tstat x y z u => Sys2Proof.Machine.execTstat x y z u s
  | .resw x => Sys2Proof.Machine.execResw x s
  | .phend => Sys2Proof.Machine.execPhend s
  | .srd x reg => Sys2Proof.Machine.execSrd x reg s
  | .swr x reg => Sys2Proof.Machine.execSwr x reg s
  | .trap n => Sys2Proof.Machine.execTrap n s
  | .tret => Sys2Proof.Machine.execTret s
  | .tclr x => Sys2Proof.Machine.execTclr x s
  | .brk n => Sys2Proof.Machine.execBrk n s
  | .jmark x => Sys2Proof.Machine.execJmark x s
  | .ovld x => Sys2Proof.Machine.execOvld x s
  | .ovcall x => Sys2Proof.Machine.execOvcall x s
  | .ovret x => Sys2Proof.Machine.execOvret x s
  | .pwrq x => Sys2Proof.Machine.execPwrq x s
  | .cres x y => Sys2Proof.Machine.execCres x y s
  | .crel => Sys2Proof.Machine.execCrel s
  | .hintImm p => Sys2Proof.Machine.execHintImm p s
  | .hintSched stall yld rsv => Sys2Proof.Machine.execHintSched stall yld rsv s
  | .hintMod rnd sat nega negb absa absb odst oidx ef qidx scope rsv => Sys2Proof.Machine.execHintMod rnd sat nega negb absa absb odst oidx ef qidx scope rsv s
  | .prreplyRetry tbl vfn tag => Sys2Proof.Machine.execPrreplyRetry tbl vfn tag s
  | .prreplyFail tbl vfn tag => Sys2Proof.Machine.execPrreplyFail tbl vfn tag s
  | .xinvPage fn stg ctx => Sys2Proof.Machine.execXinvPage fn stg ctx s
  | .xinvContext fn stg ctx => Sys2Proof.Machine.execXinvContext fn stg ctx s
  | .xinvVfn fn stg => Sys2Proof.Machine.execXinvVfn fn stg s
  | .xinvDone fn => Sys2Proof.Machine.execXinvDone fn s
  | .hcommit psel => Sys2Proof.Machine.execHcommit psel s
  | .hcommitDone => Sys2Proof.Machine.execHcommitDone s
  | .mdzGo pages => Sys2Proof.Machine.execMdzGo pages s
  | .mdzDone => Sys2Proof.Machine.execMdzDone s
  | .registerWrite fn off wide val => Sys2Proof.Machine.execRegisterWrite fn off wide val s
  | .storePerform g id => Sys2Proof.Machine.execStorePerform g id s
  | .loadLand g id srcs => Sys2Proof.Machine.execLoadLand g id srcs s
  | .sfuLand g id => Sys2Proof.Machine.execSfuLand g id s
  | .crcEvict cl line => Sys2Proof.Machine.execCrcEvict cl line s
  | .l2Evict line => Sys2Proof.Machine.execL2Evict line s
  | .copyBurst cl => Sys2Proof.Machine.execCopyBurst cl s
  | .copyComplete cl op => Sys2Proof.Machine.execCopyComplete cl op s
  | .discardComplete cl op => Sys2Proof.Machine.execDiscardComplete cl op s
  | .matGrant cl op => Sys2Proof.Machine.execMatGrant cl op s
  | .matOpComplete cl op => Sys2Proof.Machine.execMatOpComplete cl op s
  | .collComplete op replies => Sys2Proof.Machine.execCollComplete op replies s
  | .messageArrival g idx => Sys2Proof.Machine.execMessageArrival g idx s
  | .teamBegin eid core => Sys2Proof.Machine.execTeamBegin eid core s
  | .teamRetire eid => Sys2Proof.Machine.execTeamRetire eid s
  | .topupSerialise g => Sys2Proof.Machine.execTopupSerialise g s
  | .phaseCommit launch => Sys2Proof.Machine.execPhaseCommit launch s
  | .trapEntry g => Sys2Proof.Machine.execTrapEntry g s
  | .preemptRequest eid purpose => Sys2Proof.Machine.execPreemptRequest eid purpose s
  | .preemptSave eid => Sys2Proof.Machine.execPreemptSave eid s
  | .teamFlush eid => Sys2Proof.Machine.execTeamFlush eid s
  | .teamRestore eid core => Sys2Proof.Machine.execTeamRestore eid core s
  | .migrationRequest eid => Sys2Proof.Machine.execMigrationRequest eid s
  | .debugAttach fn => Sys2Proof.Machine.execDebugAttach fn s
  | .debugDetach fn => Sys2Proof.Machine.execDebugDetach fn s
  | .debugStop fn => Sys2Proof.Machine.execDebugStop fn s
  | .teamStopped eid => Sys2Proof.Machine.execTeamStopped eid s
  | .debugResume fn => Sys2Proof.Machine.execDebugResume fn s
  | .debugStep fn => Sys2Proof.Machine.execDebugStep fn s
  | .debugRead fn => Sys2Proof.Machine.execDebugRead fn s
  | .debugWrite fn => Sys2Proof.Machine.execDebugWrite fn s
  | .jkick fn => Sys2Proof.Machine.execJkick fn s
  | .replayAdmit launch point => Sys2Proof.Machine.execReplayAdmit launch point s
  | .qdb fn val => Sys2Proof.Machine.execQdb fn val s
  | .queueMap fn ctx q => Sys2Proof.Machine.execQueueMap fn ctx q s
  | .slotReclaim slot => Sys2Proof.Machine.execSlotReclaim slot s
  | .launch slot => Sys2Proof.Machine.execLaunch slot s
  | .cond slot => Sys2Proof.Machine.execCond slot s
  | .waitPacket slot => Sys2Proof.Machine.execWaitPacket slot s
  | .bindq slot => Sys2Proof.Machine.execBindq slot s
  | .bindqUnbind slot => Sys2Proof.Machine.execBindqUnbind slot s
  | .launchAdmit launch => Sys2Proof.Machine.execLaunchAdmit launch s
  | .consumerLaunch fn ctx nq => Sys2Proof.Machine.execConsumerLaunch fn ctx nq s
  | .launchComplete launch => Sys2Proof.Machine.execLaunchComplete launch s
  | .launchAbort fn => Sys2Proof.Machine.execLaunchAbort fn s
  | .hostTopup fn => Sys2Proof.Machine.execHostTopup fn s
  | .weirLimitWrite cls which val => Sys2Proof.Machine.execWeirLimitWrite cls which val s
  | .sluiceGrant string => Sys2Proof.Machine.execSluiceGrant string s
  | .vectorReservationIdle core sfu => Sys2Proof.Machine.execVectorReservationIdle core sfu s
  | .stringThrottle string => Sys2Proof.Machine.execStringThrottle string s
  | .throttleEnd string => Sys2Proof.Machine.execThrottleEnd string s
  | .reactionWindowEnd cl => Sys2Proof.Machine.execReactionWindowEnd cl s
  | .skipEnd cl => Sys2Proof.Machine.execSkipEnd cl s
  | .pkgCurrentHigh => Sys2Proof.Machine.execPkgCurrentHigh s
  | .pkgCurrentLow => Sys2Proof.Machine.execPkgCurrentLow s
  | .dieTempChange cl temp => Sys2Proof.Machine.execDieTempChange cl temp s
  | .dramEmergency layer => Sys2Proof.Machine.execDramEmergency layer s
  | .dramTempSample layer temp => Sys2Proof.Machine.execDramTempSample layer temp s
  | .rankRefresh ch layer => Sys2Proof.Machine.execRankRefresh ch layer s
  | .rankRefreshEnd ch layer => Sys2Proof.Machine.execRankRefreshEnd ch layer s
  | .clockBoostStep string up => Sys2Proof.Machine.execClockBoostStep string up s
  | .wearAccumulate string => Sys2Proof.Machine.execWearAccumulate string s
  | .timingErrorReplay cl cycles => Sys2Proof.Machine.execTimingErrorReplay cl cycles s
  | .stringGate string => Sys2Proof.Machine.execStringGate string s
  | .stringWake string => Sys2Proof.Machine.execStringWake string s
  | .uncorrectableError granule => Sys2Proof.Machine.execUncorrectableError granule s
  | .correctedError level => Sys2Proof.Machine.execCorrectedError level s
  | .powerOn => Sys2Proof.Machine.execPowerOn s
  | .bootImageCheck image => Sys2Proof.Machine.execBootImageCheck image s
  | .firmwareReport => Sys2Proof.Machine.execFirmwareReport s
  | .watchdogExpire => Sys2Proof.Machine.execWatchdogExpire s
  | .recoveryReload image => Sys2Proof.Machine.execRecoveryReload image s
  | .attestationRequest => Sys2Proof.Machine.execAttestationRequest s
  | .hostW1Access fn link write off bytes => Sys2Proof.Machine.execHostW1Access fn link write off bytes s
  | .peerRequest port req => Sys2Proof.Machine.execPeerRequest port req s
  | .linkDown port => Sys2Proof.Machine.execLinkDown port s
  | .migrationResidencyReached eid => Sys2Proof.Machine.execMigrationResidencyReached eid s
  | .fetcherBurst cl => Sys2Proof.Machine.execFetcherBurst cl s

end Sys2Proof.Machine
end

