-- ==== Sys2Proof/Machine/Turn.lean ====
section
/-! DEFINITION. The turn of a group: what it was held or parked for may be over; else it presents the word at its program
counter (R187). Also the moves of the schedule that are no event of the opcode table: time at the command processor, and
the quiet loss of cached translations and merge-buffer entries. -/

namespace Sys2Proof.Machine

variable {z : State}

/-! Held groups (R146, R280) -/

/-- The wait of the group is over: the unit ends and the program counter moves. -/
def endHold (w : View) : M z Unit := do
  modGroup w.g fun gr => { gr with hold := none }
  follow w .seq

/-- The wait of the group ends in causes at its unit. -/
def endHoldTrap (w : View) (ds : List Detail) : M z Unit := do
  modGroup w.g fun gr => { gr with hold := none }
  takeTrap w.g ds w.unitPc none

/-- A held group at its turn: where its condition holds it moves on. -/
def heldTurn (w : View) : Hold → M z Unit
  | .released => endHold w
  | .counts sel n => do
    guardS (w.gr.countsFallen sel n)
    endHold w
  | .batch cls n => do
    guardS ((w.gr.batches cls).reached n)
    let ds ← takeOutcomes w.g cls n
    if ds.isEmpty then endHold w else endHoldTrap w ds
  | .object off p => do
    guardS (objFlipped w.t off p)
    acquireObj w.g off p
    endHold w
  | .ring dst off head scope => do
    let tail ← need (ringAhead w.t off head)
    modGroup w.g fun gr => gr.setS dst (BitVec.ofNat 64 tail)
    acquireRing w.g off scope
    endHold w
  | .ticket j => do
    let k ← need (ticketOf w.s w.t j)
    if k.void then
      modTeam w.eid fun t => { t with took := t.took.filter (· != j) }
      endHoldTrap w [voidDetail j k]
    else
      guardS (k.next = w.t.tidx)
      acquire w.g 3
      orderAfter w.g k.clock
      endHold w
  | .join dst tag0 count => do
    match childGrid w.s w.eid (gridWord tag0 count) with
    | none => do
      modGroup w.g fun gr => gr.setS dst 0x80
      endHold w
    | some (gid, gd) =>
      guardS (gridDone w.s gd)
      finishJoin w.g dst gid gd
      endHold w
  | .fence scope => do
    guardS w.gr.drained
    fenceDone w.g scope
    endHold w
  | .misuse fn b => endHoldTrap w [barMisuse fn (BitVec.ofNat 64 b)]
  | .nonPosted => do
    guardS w.gr.drained
    endHold w
  | .cres dst amount => do
    if ← askCurrent w.cl (.cres w.g) amount then
      modGroup w.g fun gr => { gr.setS dst (BitVec.ofNat 64 amount) with cres := some amount }
      endHold w
  | .barrier .. | .rearrive .. | .topup .. | .sfu _ | .phend => stay

/-! Parked groups (R33, R76, R303) -/

/-- A parked group at its turn. A read of issue presents its word again once its reply has come; an overlay load goes on;
an access goes on with the lanes that wait no more. -/
def parkedTurn (w : View) (p : Parked) : M z Unit := do
  let clear : M z Unit := do
    guardS (!(p.waits.any fun x => stillWaits w.s p.waits x.1))
    modGroup w.g fun gr => { gr with parked := none }
  match p.acc.kind with
  | .snap => clear
  | .fetch id => do
    clear
    match ← attempt (tryOverlay w id) with
    | .ok f => do
      modGroup w.g fun gr => { gr with denied := none }
      follow w f
    | .error (.trap ds tm) => takeTrap w.g ds w.unitPc tm
    | .error e => fun _ => .error e
  | _ => do
    if ← resumeAccess w p then
      let gr ← getGroup w.g
      if gr.hold.isNone then follow w .seq

/-! The turn -/

/-- What a group's turn leads to. -/
inductive Turn where
  | done (o : Host.Outcome State Fault Refusal)
  | word (w : W32)

/-- A group restored with a current reservation has not been granted it again (R306, R345). -/
def lacksCurrent (w : View) : Option Nat :=
  match w.gr.cres with
  | some a => if (w.s.str (clusterString w.cl)).holds (.cres w.g) then none else some a
  | none => none

/-- It asks for it, and the slot goes to another group meanwhile (R325). -/
def askAgain (w : View) (amount : Nat) : M z Unit := do
  let _ ← askCurrent w.cl (.cres w.g) amount
  modGroup w.g fun gr => { gr with heldAt := some w.cyc }

/-- What a group's turn comes to: nothing while its string is gated or wakes (R366); the wait of a held or parked group; else
the word at its program counter. -/
def beginTurn (z : State) : Turn :=
  match view z with
  | none => .done (.next z)
  | some w =>
    if w.gr.exited || w.t.core.isNone || w.gr.trap.pending.isSome || !stringAwake z w.cl then .done (.next z)
    else match w.gr.parked, w.gr.hold with
    | some p, _ => .done (runM z (parkedTurn w p))
    | none, some h => .done (runM z (heldTurn w h))
    | none, none =>
      if !mayPresent w then .done (.next z)
      else match w.gr.preemptDue, lacksCurrent w with
      | some code, _ => .done (runM z (raisePreempt w code))
      | none, some a => .done (runM z (askAgain w a))
      | none, none =>
        if wordPoisoned w then .done (runM z (takeTrap w.g (brokenCauses w []) w.unitPc none))
        else .word (fetchAt z w.core w.gr.slot w.wordPc)

/-- What is checked of a word that decodes to nothing: its hints may break R183, which a following word of class 0xF does
(R208); no field of a hint.mod is judged by a word that has no description; a word of class 0x6 is an S-imm word (R179),
which takes hint.imm. -/
def illegalInfo (w : View) : Info :=
  let cls := (fetchAt w.s w.core w.gr.slot w.wordPc).extractLsb' 28 4
  { zeroWord := true, mask := .ignores, mods := fun _ => true, imm := if cls == 6#4 then .simm else .none
    ok := w.gr.hints.isEmpty || cls != 15#4 }

/-- A word that decodes to nothing raises ILL_OP, with the other causes its unit meets (R180, R187, R208). -/
def illegalWord (z : State) : Host.Outcome State Fault Refusal :=
  match view z with
  | none => .next z
  | some w => runM z (takeTrap w.g (preCauses w (illegalInfo w)) w.unitPc none)

/-! Other moves -/

/-- A wait for a reply, or for a free slot while the table has none (R31). -/
def waitHolds (s : State) : Wait → Bool
  | .slot _ _ => true
  | .full tbl => 32 ≤ (s.table tbl).slots.length

/-- A group waits for a page: its access is parked, or its word waits for one read for it. -/
def groupWaits (s : State) (gr : Group) : Bool :=
  !gr.exited && (gr.sysWait.any (waitHolds s) || match gr.parked with | some p => p.waits.any fun x => waitHolds s x.2 | none => false)

/-- A group or an engine operation of the launch waits for a page-request slot or reply (R322). -/
def waitsForPages (s : State) (id : Nat) : Bool :=
  let mine (e : Nat) : Bool := match s.team? e with | some t => t.launch == id | none => false
  let op (e : Nat) (ws : List (Nat × Wait)) : Bool := mine e && ws.any fun x => waitHolds s x.2
  (s.groups.any fun (g, gr) => mine (groupTeam g) && groupWaits s gr) ||
  (s.clusters.any fun (_, c) => (c.copyq.any fun o => op o.eid o.waiting) || c.mat.any fun o => op o.eid o.waiting) ||
  (s.colls.any fun o => op o.eid o.waiting)

/-- The begin of a team of the launch waits for a page of its overlay (R302). -/
def beginWaits (s : State) (id : Nat) : Bool := s.teams.any fun e => e.2.launch == id && e.2.sysWait.any (waitHolds s)

/-- A launch waits for a page, for a journal point or for the page of its completion record (R322). -/
def launchWaits (s : State) (id : Nat) (l : Launch) : Bool :=
  !l.jheld.isEmpty || waitsForPages s id || l.sysWait.any (waitHolds s) || beginWaits s id

/-- Microseconds pass on the command processor's timer; those in which a launch waits count in its FST. -/
def tickTimer (us : Nat) : M z Unit := do
  let s ← getS
  modS fun s => { s with timer := s.timer + us }
  forEach s.launches fun (id, l) =>
    if !l.done && (l.admitted || l.code ≠ 0) && launchWaits s id l then modLaunch id fun l => { l with fst := l.fst + us }
    else pure ()

/-- An engine operation takes up elements before their turn (R116). -/
def pickElements (op : Nat) (pts : List Nat) : M z Unit := do
  modS fun s => { s with clusters := s.clusters.map fun (i, c) =>
    (i, { c with
          copyq := c.copyq.map fun o => if o.id = op && !o.isDiscard then
            (let ps := choose o.next o.total o.taken pts
             { o with retry := o.retry ++ ps, taken := ps.foldl NSet.add o.taken }) else o
          mat := c.mat.map fun o => if o.id = op then
            (let ps := choose o.next o.total o.taken pts
             { o with retry := o.retry ++ ps, taken := ps.foldl NSet.add o.taken }) else o }) }
  modColl op fun o =>
    let ps := choose o.next o.total o.taken pts
    { o with retry := o.retry ++ ps, taken := ps.foldl NSet.add o.taken }

/-- A cluster drops a cached translation at a time of its own (R26). -/
def dropTlbEntry (cl i : Nat) : M z Unit := modCluster cl fun c => { c with tlb := c.tlb.eraseIdx i }

/-- A merge-buffer entry goes (R118). -/
def dropMergeEntry (i : Nat) : M z Unit := modHome fun h => { h with merge := h.merge.eraseIdx i }

end Sys2Proof.Machine
end

