-- ==== Sys2Proof/Machine/Step.lean ====
section
/-! DEFINITION. One step of the machine: the next move of the schedule, or the turn of the current group; and placing an
instruction where the next step fetches. -/

namespace Sys2Proof.Machine

/-- The word a group presents: the instruction whose checks it meets, or the causes of a word without one. -/
noncomputable def runWord (s : State) (w : W32) : Host.Outcome State Fault Refusal :=
  match decodeChecked w with
  | .ok i => exec i s
  | .error _ => illegalWord s

/-- The turn of the current group. -/
noncomputable def turn (s : State) : Host.Outcome State Fault Refusal :=
  match beginTurn s with
  | .done o => o
  | .word w => runWord s w

/-- One step (log entry 1). -/
noncomputable def step (s : State) : Host.Outcome State Fault Refusal :=
  match s.moves with
  | [] => turn s
  | .go g :: ms => turn { s with moves := ms, cur := some g }
  | .event i :: ms => exec i { s with moves := ms }
  | .pass cl n :: ms => runM { s with moves := ms } (passTime cl n)
  | .tick us :: ms => runM { s with moves := ms } (tickTimer us)
  | .dropTlb cl i :: ms => runM { s with moves := ms } (dropTlbEntry cl i)
  | .dropMerge i :: ms => runM { s with moves := ms } (dropMergeEntry i)
  | .arrive g id :: ms => runM { s with moves := ms } (arriveAt g id)
  | .pick op pts :: ms => runM { s with moves := ms } (pickElements op pts)
  | .ring i :: ms => runM { s with moves := ms } (retryDoorbell i)
  | .regWrite f off wide val :: ms => runM { s with moves := ms } (w0Write f off wide val)

/-! Placing an instruction (log entry 10) -/

/-- A machine without pending moves whose current group presents the word at its program counter. -/
def presents (s : State) : Bool :=
  s.moves.isEmpty && match beginTurn s with
  | .word _ => true
  | .done _ => false

/-- A running team of one group on core 0, with its launch, its grid, allowance, and the current of its core. -/
def State.withTeam (s : State) : State :=
  let rcd : CtxRec := { vfn := 0, ctxid := 0, prqe := false, hwad := false, s2en := false, s1root := 0, s2root := 0 }
  let l : Launch := { ctx := 0, rcd := rcd, admitted := true, began := true }
  let gd : Grid := { ctx := 0, launch := 0, parent := none, tag0 := 1, count := 1, teams := [0] }
  let t : Team := { ctx := 0, tag := 1, state := .running, core := some 0, al := 0x1000000000 }
  let st := s.str 0
  { s with
    moves := []
    cur := some 0
    launches := SMap.put s.launches 0 l
    grids := SMap.put s.grids 0 gd
    teams := SMap.put s.teams 0 t
    groups := SMap.put s.groups 0 {}
    strings := SMap.put s.strings 0
      { st with gated := false, wakeAt := none
                held := [{ who := .vec 0, tile := 0, amount := 16 }, { who := .sfu 0, tile := 0, amount := 4 }] } }

/-- The state with a word in the instruction memory where the current group presents its next one. -/
def State.placeWord (s : State) (w : W32) : State :=
  match view s with
  | none => s
  | some v =>
    let k := 16384 * v.gr.slot.toNat + v.wordPc
    let c := s.core v.core
    let c' : Core := { c with imem := SMap.store 0 c.imem k w, imemPoison := NSet.erase c.imemPoison k }
    { s with cores := SMap.put s.cores v.core c' }

/-- `s` with an instruction where `step` fetches its next one. Where no group of `s` would present a word at the next step,
a team of one group is placed on core 0 first. -/
def State.withFetchWord (s : State) (nbits w : Nat) : State :=
  let word := BitVec.ofNat 32 (w % 2 ^ nbits)
  let s' := s.placeWord word
  if presents s' then s' else s.withTeam.placeWord word

end Sys2Proof.Machine
end

