-- ==== Sys2Proof/Safety.lean ====
section
/-! DEFINITION. The terms statements are made in: when a unit is ready to issue, the state that an issued unit leaves, and
what every step keeps. -/

namespace Sys2Proof.Machine

/-- `m` runs from `t` to `u` and gives `a`, in a step that began at `z`. -/
def Gives {z : State} {α : Type} (m : M z α) (t : State) (a : α) (u : State) : Prop :=
  ∀ p, ∃ q, m ⟨t, p⟩ = .ok (a, ⟨u, q⟩)

/-! What every step keeps -/

/-- Physical memory is in its canonical form. -/
def State.wf (s : State) : Bool := Memory.wf s.mem

/-- The machine goes on: a step neither faults nor refuses. -/
def Goes (o : Host.Outcome State Fault Refusal) : Prop := ∃ t, o = .next t

/-! Ready units (R139, R187, R208, R225, R327) -/

/-- The charge of the unit: nothing in handler mode (R139). -/
def View.cost (w : View) (i : Info) : Nat := if w.gr.inHandler then 0 else unitCost w i

/-- The unit of `w` issues: its group may present it, its slot is free and picks it, it meets no cause before issue, it awaits
no register, nothing of its own holds it, its core has the current it needs, and AL covers its charge and the amount it
moves. -/
structure Ready (w : View) (i : Info) : Prop where
  presents : mayPresent w = true
  free : slotFree w = true
  picked : isPicked w = true
  sound : preCauses w i = []
  landed : i.named.any w.gr.awaits = false
  own : i.waits = false
  current : needsCurrent w i = none
  paid : w.cost i + i.moved ≤ w.t.al.toNat

/-- The word does not skip: EXM has a lane, or the word's effect does not depend on it (R189). -/
def Acts (w : View) (i : Info) : Prop := i.mask = .skips → w.exm ≠ 0

/-- The unit raises no STEP after it (R338). -/
def NoStep (w : View) : Prop := w.gr.trap.tmode.getLsbD 2 = false ∨ w.gr.inHandler = true

/-- The word after the unit lies in its slot and the unit raises no STEP (R41, R338). -/
structure PlainEnd (w : View) : Prop where
  inSlot : w.wordPc + 1 < 16384
  noStep : NoStep w

/-- The state once the unit has issued, before its effect: AL and the team's charges (R139), the unit in its slot (R142, R325),
the use of the vector or SFU reservation (R327), STALL and YIELD (R185), and the end of a debugger's single unit (R348). -/
def View.paidAt (w : View) (i : Info) (s : State) : State :=
  let c := w.issues (s.core w.core)
  let charged := SMap.adjust s.teams w.eid fun t =>
    { t with al := t.al - BitVec.ofNat 64 (w.cost i + i.moved), charged := t.charged + w.cost i }
  let told := SMap.adjust s.groups w.g fun gr => { gr with sysWait := none }
  { s with
    teams := match w.t.stop with
      | .stepping _ => SMap.adjust charged w.eid fun t => { t with stop := .stopping }
      | _ => charged
    cores := SMap.put s.cores w.core (match i.pipe with
      | none => c
      | some true => { c with sfuUntil := some (w.cyc + 64) }
      | some false => { c with vecUntil := some (w.cyc + 64) })
    groups := match w.sched with
      | some (n, y) => SMap.adjust told w.g fun gr =>
          { gr with stallUntil := w.cyc + n, yielded := if y then some (w.cyc + 1) else none }
      | none => told }

/-- The same from the state that the unit presents in. -/
def View.paid (w : View) (i : Info) : State := w.paidAt i w.s

/-- The state with the group of `w` at a word. -/
def View.at (w : View) (slot : BitVec 1) (pc : BitVec 14) (s : State) : State :=
  { s with groups := SMap.adjust s.groups w.g fun gr => gr.goTo slot pc }

/-- The state with the group of `w` at the word after the unit. -/
def View.next (w : View) (s : State) : State := w.at w.gr.slot (BitVec.ofNat 14 (w.wordPc + 1)) s

/-- The state with a change of the registers of the group of `w`. -/
def View.onGroup (w : View) (f : Group → Group) (s : State) : State :=
  { s with groups := SMap.adjust s.groups w.g f }

/-- The state a ready unit leaves whose effect is the change `f` of the state. -/
def View.issued (w : View) (i : Info) (f : State → State) : State := w.next (f (w.paid i))

/-- A word completes at `s` where `cond` holds: whenever its unit is ready and acts, `exec` answers the state that issuing
it and its effect `f` leave, the group at the word after. -/
def CompletesIf (i : Instr) (info : View → Info) (cond : View → Prop) (f : View → State → State) (s : State) : Prop :=
  ∀ w, view s = some w → Ready w (info w) → Acts w (info w) → PlainEnd w → cond w →
    exec i s = .next (w.issued (info w) (f w))

/-- A word whose effect is a change of its group's registers, where `cond` holds. -/
def WritesIf (i : Instr) (info : View → Info) (cond : View → Prop) (f : View → Group → Group) (s : State) : Prop :=
  CompletesIf i info cond (fun w => w.onGroup (f w)) s

/-- A word whose effect is a change of its group's registers. -/
def Writes (i : Instr) (info : View → Info) (f : View → Group → Group) (s : State) : Prop :=
  WritesIf i info (fun _ => True) f s

/-! Words of the vector pipe (R225 to R239) -/

/-- A class-0x1 word of two operands gives `f` of them in each active lane (R228). -/
def BinInt (i : BitVec 7 → BitVec 8 → BitVec 8 → Instr) (f : W32 → W32 → W32) : Prop :=
  ∀ s vd sa sb, Writes (i vd sa sb) (intInfo (operandsOk (i vd sa sb)) vd [sa, sb] false)
    (fun w => writeResult (destReg w vd) (laneValues w fun l => f (laneInt w sa l) (laneInt w sb l))) s

/-- A class-0x1 word that also reads its destination (R225, R228). -/
def AccInt (i : BitVec 7 → BitVec 8 → BitVec 8 → Instr) (f : W32 → W32 → W32 → W32) : Prop :=
  ∀ s vd sa sb, Writes (i vd sa sb) (intInfo (operandsOk (i vd sa sb)) vd [sa, sb] true)
    (fun w => writeResult (destReg w vd) (laneValues w fun l =>
      f (laneInt w sa l) (laneInt w sb l) (readReg w.gr (destReg w vd) l))) s

/-- A class-0x1 word of one operand. -/
def UnInt (i : BitVec 7 → BitVec 8 → Instr) (f : W32 → W32) : Prop :=
  ∀ s vd sa, Writes (i vd sa) (intInfo (operandsOk (i vd sa)) vd [sa] false)
    (fun w => writeResult (destReg w vd) (laneValues w fun l => f (laneInt w sa l))) s

/-- The lanes of a word with their results. -/
def laneResults (w : View) (f : View → Nat → LaneRes) : List (Nat × LaneRes) := w.lanes.map fun l => (l, f w l)

/-- The destination takes floating-point results: a pair for F64 (R43), else one register and the last-result file (R44). -/
def putResults (w : View) (vd : BitVec 7) (wide : Bool) (f : View → Nat → LaneRes) (gr : Group) : Group :=
  if wide then writePair (destReg w vd) ((laneResults w f).map fun r => (r.1, r.2.bits)) gr
  else writeResult (destReg w vd) ((laneResults w f).map fun r => (r.1, BitVec.ofNat 32 r.2.bits)) gr

/-- A floating-point word writes the results `f` where no lane of it raises a cause (R164). -/
def FloatWrites (i : Instr) (info : View → Info) (vd : BitVec 7) (wide : Bool) (f : View → Nat → LaneRes) (s : State) : Prop :=
  WritesIf i info (fun w => floatCauses w (laneResults w f) = []) (fun w => putResults w vd wide f) s

/-- A class-0x0 word of two operands (R227). -/
def BinFloat (i : BitVec 7 → BitVec 8 → BitVec 8 → Instr) (e : Elem) (op : Rnd → Num → Num → Num) : Prop :=
  ∀ s vd sa sb, FloatWrites (i vd sa sb) (floatInfo (operandsOk (i vd sa sb)) e vd [sa, sb] false) vd (e == .f64)
    (fun w l => binElems w e sa sb op l) s

/-- A class-0x0 word that also reads its destination (R174, R225). -/
def AccFloat (i : BitVec 7 → BitVec 8 → BitVec 8 → Instr) (e : Elem)
    (f : View → BitVec 7 → BitVec 8 → BitVec 8 → Nat → LaneRes) : Prop :=
  ∀ s vd sa sb, FloatWrites (i vd sa sb) (floatInfo (operandsOk (i vd sa sb)) e vd [sa, sb] true) vd (e == .f64)
    (fun w l => f w vd sa sb l) s

/-- A word of class 0x2 whose lane l takes what `f` gives for it (R231). -/
def Moves (i : Instr) (vd : BitVec 7) (srcs : List (BitVec 8)) (f : View → Nat → W32) : Prop :=
  ∀ s, Writes i (moveInfo (operandsOk i) vd srcs) (fun w => writeResult (destReg w vd) (laneValues w (f w))) s

/-- A lane-movement word: lane l takes lane `j l n` of the first operand, n the low five bits of the second (R232). -/
def LaneMove (i : BitVec 7 → BitVec 8 → BitVec 8 → Instr) (j : Nat → Nat → Nat) : Prop :=
  ∀ s vd sa sb, Writes (i vd sa sb)
    (fun w => { moveInfo (operandsOk (i vd sa sb)) vd [sa, sb] w with
        reads := specRegs .int sb
        names := specRegs .int sa
        others := (specRegs .int sa).flatMap fun r => w.lanes.map fun l => (r, j l (readSpec w .int sb l % 32), l) })
    (fun w => writeResult (destReg w vd) (laneValues w fun l =>
      BitVec.ofNat 32 (readSpec w .int sa (j l (readSpec w .int sb l % 32))))) s

/-- A scan word where its chain raises nothing (R177, R233). -/
def Scans (i : BitVec 7 → BitVec 8 → Instr) (e : Elem) (mods : ModHint → Bool) (op : View → W32 → W32 → W32)
    (ovf : View → W32 → W32 → Bool) : Prop :=
  ∀ s vd sa, WritesIf (i vd sa) (fun w => vecInfo w (operandsOk (i vd sa)) e vd [sa] mods)
    (fun w => w.foe = false ∨ (scanChain (op w) (ovf w) none (activeValues w e sa)).2 = false)
    (fun w => writeResult (destReg w vd) (w.lanes.zip ((scanChain (op w) (ovf w) none (activeValues w e sa)).1.map (canonLane e)))) s

/-- A reduction word where its tree raises nothing (R176, R233). -/
def Reduces (i : BitVec 7 → BitVec 8 → Instr) (e : Elem) (mods : ModHint → Bool) (op : View → W32 → W32 → W32)
    (ovf : View → W32 → W32 → Bool) : Prop :=
  ∀ s vd sa, WritesIf (i vd sa) (fun w => vecInfo w (operandsOk (i vd sa)) e vd [sa] mods)
    (fun w => w.foe = false ∨ (redTree w e sa (op w) (ovf w)).2 = false)
    (fun w => writeResult (destReg w vd) (laneValues w fun _ => (redTree w e sa (op w) (ovf w)).1)) s

/-- A floating-point compare: k holds the active lanes whose values meet the condition (R235). -/
def CmpFloat (i : BitVec 4 → BitVec 3 → BitVec 8 → BitVec 8 → Instr) (e : Elem) : Prop :=
  ∀ s cc k sa sb, Writes (i cc k sa sb)
    (maskInfo (operandsOk (i cc k sa sb)) e k sa sb modSigns (if e == .f64 then 1 else 0))
    (fun w gr => gr.setK k.toNat (maskOf (w.lanes.filter fun l =>
      condNum cc.toNat (Num.decode e.fmt (signMods w.mod.nega w.mod.absa e.fmt.width (readSpec w e sa l)))
        (Num.decode e.fmt (signMods w.mod.negb w.mod.absb e.fmt.width (readSpec w e sb l)))))) s

/-- An integer compare (R235). -/
def CmpInt (i : BitVec 4 → BitVec 3 → BitVec 8 → BitVec 8 → Instr) (lt : W32 → W32 → Bool) : Prop :=
  ∀ s cc k sa sb, Writes (i cc k sa sb) (maskInfo (operandsOk (i cc k sa sb)) .int k sa sb modZero 0)
    (fun w gr => gr.setK k.toNat (maskOf (w.lanes.filter fun l =>
      condHolds cc.toNat false (lt (laneInt w sa l) (laneInt w sb l)) (laneInt w sa l == laneInt w sb l)))) s

/-- vsel: lane l takes the first operand where bit l of k is 1, else the second (R236). -/
def Selects (i : BitVec 7 → BitVec 8 → BitVec 8 → Instr) (k : Nat) : Prop :=
  ∀ s vd sa sb, Writes (i vd sa sb)
    (fun w =>
      let c := vecInfo w (operandsOk (i vd sa sb)) .int vd [sa, sb] modDest
      { c with reads := c.reads ++ [.k k] })
    (fun w => writeResult (destReg w vd) (laneValues w fun l =>
      if (w.gr.rk k).getLsbD l then laneInt w sa l else laneInt w sb l)) s

/-- The entry that an SFU word leaves until its result lands (R237). -/
def sfuEntry (w : View) (fn : SfuFn) (e : Elem) (num : Nat) (vd : BitVec 7) (sa : BitVec 8) (id : Nat) : SfuEntry :=
  let rs := w.lanes.map fun l => (l, sfuLane w fn e num sa l)
  { id := id
    vals := (rs.map fun r => (32 * vd.toNat + r.1, BitVec.ofNat 32 r.2.bits)) ++
      (if e == .f64 then rs.map fun r => (32 * (vd.toNat + 1) + r.1, BitVec.ofNat 32 (r.2.bits / 2 ^ 32)) else [])
    regs := if e == .f64 then [vd.toNat, vd.toNat + 1] else [vd.toNat]
    ovf := if w.foe then maskOf ((rs.filter (·.2.ovf)).map (·.1)) else 0 }

/-- The group with an SFU result outstanding; with FOE = 1 it waits for it at the word (R237). -/
def withSfu (w : View) (fn : SfuFn) (e : Elem) (num : Nat) (vd : BitVec 7) (sa : BitVec 8) (gr : Group) : Group :=
  { gr with
    nextId := gr.nextId + 1
    sfu := gr.sfu ++ [sfuEntry w fn e num vd sa gr.nextId]
    hold := if w.foe then some (.sfu gr.nextId) else gr.hold }

/-- An SFU word: with FOE = 0 the group goes on; with FOE = 1 it stays at the word until the result lands (R237). -/
def SfuWord (i : BitVec 7 → BitVec 8 → Instr) (fn : SfuFn) (e : Elem) (num : Nat) : Prop :=
  ∀ s vd sa,
    let info := fun w => { vecInfo w (operandsOk (i vd sa)) e vd [sa] modSfu false (e == .f64) 3 with pipe := some true }
    WritesIf (i vd sa) info (fun w => w.foe = false) (fun w => withSfu w fn e num vd sa) s ∧
    ∀ w, view s = some w → Ready w (info w) → Acts w (info w) → w.foe = true →
      exec (i vd sa) s = .next (w.onGroup (withSfu w fn e num vd sa) (w.paid (info w)))

/-! Scalar, mask and control words (R209 to R224) -/

/-- A scalar word of two registers (R210). -/
def Scalar2 (i : BitVec 6 → BitVec 6 → BitVec 6 → Instr) (f : W64 → W64 → W64) : Prop :=
  ∀ s d a b, Writes (i d a b) (fun _ => scalarInfo [a.toNat, b.toNat] [d.toNat])
    (fun w gr => gr.setS d.toNat (f (w.gr.rs a.toNat) (w.gr.rs b.toNat))) s

/-- A scalar word of one register (R210). -/
def Scalar1 (i : BitVec 6 → BitVec 6 → Instr) (f : W64 → W64) : Prop :=
  ∀ s d a, Writes (i d a) (fun _ => scalarInfo [a.toNat] [d.toNat])
    (fun w gr => gr.setS d.toNat (f (w.gr.rs a.toNat))) s

/-- A scalar word of a register and an immediate (R213). -/
def ScalarImm (i : BitVec 6 → BitVec 6 → BitVec 10 → Instr) (f : W64 → W64 → W64) : Prop :=
  ∀ s d a imm, Writes (i d a imm) (fun _ => scalarInfo [a.toNat] [d.toNat] true .simm)
    (fun w gr => gr.setS d.toNat (f (w.gr.rs a.toNat) (w.immS imm))) s

/-- An immediate shift by 0 to 63 places (R213). -/
def ShiftImm (i : BitVec 6 → BitVec 6 → BitVec 10 → Instr) (f : W64 → Nat → W64) : Prop :=
  ∀ s d a imm, Writes (i d a imm) (fun w => scalarInfo [a.toNat] [d.toNat] ((w.immS imm).toNat < 64) .simm)
    (fun w gr => gr.setS d.toNat (f (w.gr.rs a.toNat) (w.immS imm).toNat)) s

/-- A division by a divisor that is not zero (R211). -/
def Divides (i : BitVec 6 → BitVec 6 → BitVec 6 → Instr) (f : W64 → W64 → W64) : Prop :=
  ∀ s d a b, WritesIf (i d a b) (fun _ => scalarInfo [a.toNat, b.toNat] [d.toNat]) (fun w => w.gr.rs b.toNat ≠ 0)
    (fun w gr => gr.setS d.toNat (f (w.gr.rs a.toNat) (w.gr.rs b.toNat))) s

/-- A mask word of two masks (R214). -/
def Mask2 (i : BitVec 3 → BitVec 3 → BitVec 3 → Instr) (f : W32 → W32 → W32) : Prop :=
  ∀ s d a b, Writes (i d a b) (fun _ => maskWordInfo [.k a.toNat, .k b.toNat] [.k d.toNat])
    (fun w gr => gr.setK d.toNat (f (w.gr.rk a.toNat) (w.gr.rk b.toNat))) s

/-- A mask word that writes a scalar register (R214). -/
def MaskToScalar (i : BitVec 6 → BitVec 3 → Instr) (f : W32 → W64) : Prop :=
  ∀ s d a, Writes (i d a) (fun _ => maskWordInfo [.k a.toNat] [.s d.toNat])
    (fun w gr => gr.setS d.toNat (f (w.gr.rk a.toNat))) s

/-- A word that may transfer: where `cond` holds it goes to `target`, if that is a word of the slot, else to the next
word; nothing else changes (R216, R217). -/
def Branches (i : Instr) (info : Info) (cond : View → Bool) (target : View → Int) : Prop :=
  ∀ s w, view s = some w → Ready w info → Acts w info →
    (cond w = true → NoStep w → 0 ≤ target w → target w < 16384 →
      exec i s = .next (w.at w.gr.slot (BitVec.ofNat 14 (target w).toNat) (w.paid info))) ∧
    (cond w = false → PlainEnd w → exec i s = .next (w.next (w.paid info)))

/-- A region word that may run gives the mask and the mask stack `f`; where `jumps` holds of the new mask the group goes
to the target, else to the next word (R219, R220). -/
def Regions (i : Instr) (k : Option (BitVec 3)) (bad : Group → Bool) (f : Group → W32 × List MaskEntry)
    (jumps : W32 → Bool) (off : BitVec 18) : Prop :=
  ∀ s w,
    let info := controlInfo (k.toList.map fun k => .k k.toNat) [] (illConv w (bad w.gr)) .acts
    let set (gr : Group) : Group := { gr with exm := (f w.gr).1, stack := (f w.gr).2 }
    view s = some w → Ready w info → Acts w info →
    (jumps (f w.gr).1 = true → NoStep w → 0 ≤ relTarget w off.toInt → relTarget w off.toInt < 16384 →
      exec i s = .next (w.at w.gr.slot (BitVec.ofNat 14 (relTarget w off.toInt).toNat) (w.onGroup set (w.paid info)))) ∧
    (jumps (f w.gr).1 = false → PlainEnd w → exec i s = .next (w.next (w.onGroup set (w.paid info))))

/-! Global memory words (R240 to R245) -/

/-- The launch of a team with more bytes of memory traffic counted (R321). -/
def withTraffic (launch bytes : Nat) (t : State) : State :=
  { t with launches := SMap.adjust t.launches launch fun l =>
      match l.msh with
      | some m =>
        let recent := (l.traffic.filter fun e => t.timer < e.1 + 100) ++ [(t.timer, bytes)]
        { l with traffic := recent, msx := l.msx || 100 * m < (recent.map (·.2)).sum }
      | none => l }

/-- The lanes of an access reach memory at state `t` of a step from `s`: they are aligned, all of them translate with no
cause and no miss (R25, R37) to `ok`, leaving `u`, and no watch of a debugger is hit (R347). -/
structure Reaches (s : State) (w : View) (t : State) (acc : Access) (lanes ok : List LaneAcc) (u : State) : Prop where
  translates : ∃ l, s.launch? w.t.launch = some l ∧ Gives (z := s) (translate w.cl w.t.ctx l.rcd acc lanes) t { ok := ok } u
  aligned : misaligned acc.size (lanes.map fun a => (a.lane, a.va)) = []
  unwatched : watchHits t w.t w.gr acc lanes = []
  some : ok ≠ []

/-- The group of `w` with a load outstanding, numbered after its unit (R114). -/
def withLoad (w : View) (acc : Access) (ok : List LaneAcc) (gr : Group) : Group :=
  { gr with
    nextId := w.gr.nextId + 2
    ls := gr.ls ++ [{ id := w.gr.nextId + 1, unit := w.gr.nextId, acc := { acc with lanes := splitParts acc ok } }] }

/-- The group of `w` with a store queued: one entry for each lane whose bytes no higher lane overwrites (R114, R124), with the
releases of the group's fences (R127). -/
def withStore (w : View) (acc : Access) (ok : List LaneAcc) (gr : Group) : Group :=
  let ls := splitParts acc (topLanes ok)
  { gr with
    nextId := w.gr.nextId + 1 + max ls.length 1
    sq := gr.sq ++ ls.zipIdx.map fun a =>
      { id := w.gr.nextId + 1 + a.2, unit := w.gr.nextId, acc := { acc with lanes := [a.1], rels := gr.fences } } }

/-- The group of `w` with an atomic queued: one entry for the lanes of each address, and the load of its old values (R114,
R242). -/
def withAtom (w : View) (acc : Access) (ok : List LaneAcc) (gr : Group) : Group :=
  let pas := distinct (ok.map (·.pa))
  { gr with
    nextId := w.gr.nextId + 1 + (pas.length + 1)
    sq := gr.sq ++ pas.zipIdx.map fun p =>
      { id := w.gr.nextId + 1 + p.2, unit := w.gr.nextId
        acc := { acc with lanes := ok.filter fun a => a.pa = p.1, rels := gr.fences } }
    ls := gr.ls ++ [{ id := w.gr.nextId + 1 + pas.length, unit := w.gr.nextId, acc := { acc with lanes := ok }, atom := true }] }

/-- A global access word queues its access `push` where its lanes reach memory outside checked pages: the group goes on,
or, in mixed-size debug mode, stays at the word until it is performed (R126). -/
def Queues (i : Instr) (info : View → Info) (acc : View → Access) (lanes : View → List LaneAcc)
    (push : View → Access → List LaneAcc → Group → Group) (s : State) : Prop :=
  ∀ w ok u, view s = some w → Ready w (info w) → Acts w (info w) → PlainEnd w →
    Reaches s w (withTraffic w.t.launch (32 * sectors (acc w).size ((lanes w).map (·.va))) (w.paid (info w))) (acc w) (lanes w)
      ok u →
    ok.any (·.chk) = false →
    exec i s = .next
      (if (u.ctx w.t.ctx).msz then
        w.onGroup (fun gr => { push w (acc w) ok gr with hold := some .nonPosted }) u
      else w.next (w.onGroup (push w (acc w) ok) u))

/-- A global load of `size` bytes a lane (R241). -/
def Loads (i : BitVec 7 → BitVec 6 → BitVec 8 → BitVec 2 → Instr) (signed : Bool) (size : Nat) : Prop :=
  ∀ s vd sb vo ord, Queues (i vd sb vo ord)
    (fun w => globalInfo w (operandsOk (i vd sb vo ord)) sb vo [] (dataRegs vd.toNat size) size 0)
    (fun w => { kind := .load signed, size := size, dest := .vec vd.toNat, acq := ordAcq ord, scope := w.scope })
    (fun w => (globalAddrs w sb vo).map fun a => { lane := a.1, va := a.2 }) withLoad s

/-- A global store of the low `size` bytes of each lane's data (R241). -/
def Stores (i : BitVec 7 → BitVec 6 → BitVec 8 → BitVec 2 → Instr) (size : Nat) : Prop :=
  ∀ s vd sb vo ord, Queues (i vd sb vo ord)
    (fun w => globalInfo w (operandsOk (i vd sb vo ord)) sb vo (dataRegs vd.toNat size) [] size 0)
    (fun w => { kind := .store, size := size, rel := ordRel ord, scope := w.scope })
    (fun w => (globalAddrs w sb vo).map fun a =>
      { lane := a.1, va := a.2, data := laneData w.gr vd.toNat ((size + 3) / 4) a.1 % 2 ^ (8 * size) }) withStore s

/-- A global atomic outside replay mode (R242). -/
def Atomics (i : BitVec 7 → BitVec 6 → BitVec 8 → BitVec 2 → Instr) (op : AtomOp) (size : Nat) : Prop :=
  ∀ s vd sb vo ord,
    (∀ w l, view s = some w → s.launch? w.t.launch = some l → l.journal ≠ 2) →
    Queues (i vd sb vo ord)
      (fun w => globalInfo w (operandsOk (i vd sb vo ord)) sb vo (dataRegs vd.toNat (if op == .cas then 2 * size else size))
        (dataRegs vd.toNat size) size w.lanes.length)
      (fun w => { kind := .atom op, size := size, dest := .vec vd.toNat, acq := ordAcq ord, rel := ordRel ord
                  scope := w.scope })
      (fun w => (globalAddrs w sb vo).map fun a =>
        { lane := a.1, va := a.2
          data := laneData w.gr (if op == .cas then vd.toNat + size / 4 else vd.toNat) (size / 4) a.1
          cmp := if op == .cas then laneData w.gr vd.toNat (size / 4) a.1 else 0 }) withAtom s

/-! Scratchpad and neighbourhood words (R246) -/

/-- A scratchpad or neighbourhood word whose lanes lie in range and are aligned enters the queues as a global access does
(R114, R246); its lanes are performed at the scratchpads later. -/
def SpQueues (i : Instr) (info : View → Info) (acc : View → Access) (addrs : View → List (Nat × Nat × Int))
    (lane : View → Nat × Nat × Int → LaneAcc) (push : View → Access → List LaneAcc → Group → Group) (s : State) : Prop :=
  ∀ w l, view s = some w → Ready w (info w) → Acts w (info w) → PlainEnd w → s.launch? w.t.launch = some l →
    (∀ op, (acc w).kind = .atom op → l.journal ≠ 2) →
    spadCauses w (acc w).space (acc w).size (addrs w) = [] →
    exec i s = .next (w.issued (info w) (w.onGroup (push w (acc w) ((addrs w).map (lane w)))))

/-- A group's acquire completes (R119, R120). -/
def acquired (g scope : Nat) (t : State) : State :=
  let c := t.groupCluster g
  { t with
    groups := SMap.adjust t.groups g fun gr => { gr with mu := t.home.now }
    clusters := if scope ≥ 2 then SMap.put t.clusters c { t.cluster c with crc := [] } else t.clusters }

/-- A scratchpad or neighbourhood load of `size` bytes a lane (R246). -/
def SpLoads (i : BitVec 7 → BitVec 6 → BitVec 8 → BitVec 2 → Instr) (space size : Nat) : Prop :=
  ∀ s vd sb vo ord, SpQueues (i vd sb vo ord)
    (fun w => spadInfo w (operandsOk (i vd sb vo ord)) space sb vo [] (dataRegs vd.toNat size) size)
    (fun w => { kind := .load false, size := size, dest := .vec vd.toNat, acq := ordAcq ord, scope := w.scope, space := space })
    (fun w => spadAddrs w space sb vo) (fun w a => spadLane w space a 0 0) withLoad s

/-- A scratchpad or neighbourhood store of the low `size` bytes of each lane's data (R246). -/
def SpStores (i : BitVec 7 → BitVec 6 → BitVec 8 → BitVec 2 → Instr) (space size : Nat) : Prop :=
  ∀ s vd sb vo ord, SpQueues (i vd sb vo ord)
    (fun w => spadInfo w (operandsOk (i vd sb vo ord)) space sb vo (dataRegs vd.toNat size) [] size)
    (fun w => { kind := .store, size := size, rel := ordRel ord, scope := w.scope, space := space })
    (fun w => spadAddrs w space sb vo)
    (fun w a => spadLane w space a (laneData w.gr vd.toNat ((size + 3) / 4) a.1 % 2 ^ (8 * size)) 0) withStore s

/-- A scratchpad or neighbourhood atomic outside replay mode (R246). -/
def SpAtomics (i : BitVec 7 → BitVec 6 → BitVec 8 → BitVec 2 → Instr) (space : Nat) (op : AtomOp) : Prop :=
  ∀ s vd sb vo ord, SpQueues (i vd sb vo ord)
    (fun w => spadInfo w (operandsOk (i vd sb vo ord)) space sb vo (dataRegs vd.toNat (if op == .cas then 8 else 4))
      (dataRegs vd.toNat 4) 4)
    (fun w => { kind := .atom op, size := 4, dest := .vec vd.toNat, acq := ordAcq ord, rel := ordRel ord, scope := w.scope
                space := space })
    (fun w => spadAddrs w space sb vo)
    (fun w a => spadLane w space a (w.gr.rv (if op == .cas then vd.toNat + 1 else vd.toNat) a.1).toNat
      (if op == .cas then (w.gr.rv vd.toNat a.1).toNat else 0)) withAtom s

end Sys2Proof.Machine
end

