-- ==== Sys2Proof/Effects.lean ====
section
/-! DEFINITION. What operations leave, as functions of the state they run from: the terms in which statements about words
of several parts say their next state. -/

namespace Sys2Proof.Machine

/-! Forms -/

/-- A word that issues and leaves `f` of the charged state where `cond` holds; its group may stay at it. -/
def IssuesIf (i : Instr) (info : View → Info) (cond : View → Prop) (f : View → State → State) (s : State) : Prop :=
  ∀ w, view s = some w → Ready w (info w) → Acts w (info w) → cond w → exec i s = .next (f w (w.paid (info w)))

/-- The group is held at its word. -/
def View.held (w : View) (h : Hold) : State → State := w.onGroup fun gr => { gr with hold := some h }

/-- The launch of the group's team keeps no journal (R349). -/
def NoJournal (w : View) : Prop := ∃ l, w.s.launch? w.t.launch = some l ∧ l.journal = 0

/-- A word whose reads of issue (R77) give `a` and leave `u`: its unit is charged with what they determine, and it leaves
`f`. -/
def Staged {α : Type} (i : Instr) (info : View → Info) (pre : {z : State} → View → M z (Pre α)) (cost : View → α → Nat)
    (cond : View → α → State → Prop) (f : View → α → State → State) (moved : View → α → Nat := fun _ _ => 0) : Prop :=
  ∀ s w a u, view s = some w → Gives (z := s) (pre w) s (.ok a) u →
    let j : Info := { info w with surcharge := cost w a, moved := moved w a }
    Ready w j → Acts w j → PlainEnd w → cond w a u →
    exec i s = .next (w.next (f w a (w.paidAt j (w.onGroup (fun gr => { gr with denied := none }) u))))

/-! Memory (R42, R49, R115, R123, R125) -/

/-- The line of an address is in its slice, or its channel can fill it into a slice that has room for two more (R42, R49,
R56). -/
def HasRoom (t : State) (pa : Nat) : Prop :=
  linePresent t.home (pa / 64) = true ∨
    (rankBlocked t.dev pa = false ∧ t.home.dirty.length + t.home.clean.length + 2 ≤ 32768)

/-- Both ends of a range of at most 64 bytes have room. -/
def Room (t : State) (pa n : Nat) : Prop := HasRoom t pa ∧ HasRoom t (pa + n - 1)

/-- No byte of the range has an access of another party, at another address or size, one of the two a write, that nothing
orders before this one (R125). -/
def Clean (t : State) (who : Who) (base n : Nat) (wr : Bool) : Prop := ∀ i, i < n → mixed t who base n wr (base + i) = false

/-- The state with a line that was not in its slice filled into it, with the poison DRAM holds (R49, R63). -/
def lineBrought (pa : Nat) (t : State) : State :=
  let line := pa / 64
  if linePresent t.home line then t
  else
    { t with home := { t.home with
        clean := NSet.add t.home.clean line
        poison := if NSet.has t.home.dramPoison line
          then PSet.add (PSet.add t.home.poison (2 * line)) (2 * line + 1) else t.home.poison } }

/-- The state with a line dirty in its slice: what DRAM holds beneath it is kept (R49, R66). -/
def lineTouched (pa : Nat) (t : State) : State :=
  let u := lineBrought pa t
  let line := pa / 64
  if (SMap.get? u.home.dirty line).isSome then u
  else
    { u with home := { u.home with
        clean := NSet.erase u.home.clean line, dirty := SMap.put u.home.dirty line (memBytes u (64 * line) 64) } }

/-- A party's access to a byte is on record (R125). -/
def pastWith (who : Who) (base n : Nat) (wr : Bool) (m : SMap (List Past)) (pa : Nat) : SMap (List Past) :=
  let old := (SMap.look [] m pa).filter fun p => !(p.writer == who.id && p.base == base && p.size == n && p.write == wr)
  SMap.put m pa ({ writer := who.id, unit := who.unit, base := base, size := n, write := wr } :: old)

/-- The accesses of `n` bytes from `base` on record. -/
def pastOf (who : Who) (base n : Nat) (wr : Bool) (m : SMap (List Past)) : SMap (List Past) :=
  if who.sys then m else (List.range n).foldl (fun m i => pastWith who base n wr m (base + i)) m

/-- A read of `n` bytes has been made (R125). -/
def seenAt (who : Who) (base n : Nat) (t : State) : State :=
  { t with home := { t.home with past := pastOf who base n false t.home.past } }

/-- A write of `n` bytes has been made: one step of coherence order (R115), with what it releases (R127). -/
def markedAt (who : Who) (base n : Nat) (t : State) : State :=
  let h := t.home
  { t with home := { h with
      now := h.now + 1
      marks := (List.range n).foldl (fun m i => SMap.put m (base + i) (h.now + 1)) h.marks
      past := pastOf who base n true h.past
      released := if who.rels.isEmpty then h.released else SMap.put h.released (h.now + 1) who.rels } }

/-- Bytes read at their home slice. -/
def readAt (who : Who) (pa n : Nat) (t : State) : State := seenAt who pa n (lineBrought (pa + n - 1) (lineBrought pa t))

/-- Bytes written at their home slice, in one step of coherence order (R115); sectors wholly written lose their poison
(R63). -/
def written (who : Who) (pa : Nat) (bs : List Byte) (t : State) : State :=
  let u := markedAt who pa bs.length (lineTouched (pa + bs.length - 1) (lineTouched pa t))
  { u with mem := Memory.writeBytes u.mem pa bs
           home := { u.home with poison := PSet.cover u.home.poison 32 who.healer pa bs.length } }

/-- The bytes of a range in the read cache of a cluster, where its line is present (R48). -/
def cacheUpdated (cl pa n : Nat) (t : State) : State :=
  match SMap.get? (t.cluster cl).crc (pa / 64) with
  | none => t
  | some c =>
    let cells := c.cells.zipIdx.map fun (cell, i) =>
      let a := pa / 64 * 64 + i
      if pa ≤ a && a < pa + n then (Memory.read t.mem a, stampOf t a) else cell
    let x := t.cluster cl
    { t with clusters := SMap.put t.clusters cl { x with crc := SMap.put x.crc (pa / 64) { c with cells := cells } } }

/-- The floor of group `g` for a byte range is at its last writes (R117). -/
def floorRaised (g pa n : Nat) (t : State) : State :=
  { t with groups := SMap.adjust t.groups g fun gr => gr.raiseFloor pa ((List.range n).map fun i => stampOf t (pa + i)) }

/-- Bytes that group `g` writes, at home and in its cluster's read cache (R48). -/
def groupWritten (g : Nat) (who : Who) (pa : Nat) (bs : List Byte) (t : State) : State :=
  let u := floorRaised g pa bs.length (written who pa bs t)
  cacheUpdated (u.groupCluster g) pa bs.length u

/-- The party that performs a lane of access number `u` of group `g`, with the releases its write carries. -/
def laneWho (g u : Nat) (acc : Access) (a : LaneAcc) (gr : Group) (t : State) : Who :=
  { groupWho g gr u with rels := writeRels t g gr u acc a }

/-- A lane's store performed by group `g`, whose record is `gr` (R48, R115, R117). -/
def stored (g u : Nat) (acc : Access) (gr : Group) (a : LaneAcc) (t : State) : State :=
  groupWritten g (laneWho g u acc a gr t) a.pa (natBytes a.data acc.psize) t

/-- A lane with the `n` bytes it reads at home, once group `g` has read them. -/
def laneRead (n : Nat) (a : LaneAcc) (t : State) : LaneAcc :=
  { a with data := bytesNat (memBytes t a.pa n), done := true, poison := sectorPoison t a.pa n
           stamps := (List.range n).map fun i => stampOf t (a.pa + i) }

/-- The releases that the lanes' values carry are met by group `g` (R127). -/
def releasesMet (g u : Nat) (acc : Access) (lanes : List LaneAcc) (t : State) : State :=
  let rs := readRels t acc lanes
  if rs.isEmpty then t
  else
    { t with groups := SMap.adjust t.groups g fun gr =>
        let gr := { gr with seen := (gr.seen ++ rs).eraseDups }
        if acc.acq then gr.follow (u + 1) (followed (partyOf t g) acc.scope rs) else gr }

/-- From its next access on, group `g` is ordered after a clock (R122). -/
def ordered (g : Nat) (c : Clock) (t : State) : State :=
  { t with groups := SMap.adjust t.groups g fun gr => gr.follow gr.nextId c }

/-- A fence of group `g` completes (R121, R127). -/
def fenced (g scope : Nat) (t : State) : State :=
  let u := acquired g scope t
  let met := (u.group? g).elim [] fun gr => followed (partyOf u g) scope gr.seen
  let v := ordered g met u
  { v with groups := SMap.adjust v.groups g fun gr =>
      { gr with fences := gr.fences.filter (fun r => r.scope != scope) ++
                  [{ party := partyOf u g, scope := scope, clock := gr.release g }] } }

/-- Bytes written to a team's scratchpad (R38); a granule that the writer has now covered wholly loses its poison (R63). -/
def spPut (e off : Nat) (bs : List Byte) (healer : Nat) (t : State) : State :=
  { t with teams := SMap.adjust t.teams e fun tm =>
      { tm with spad := bs.zipIdx.foldl (fun m b => SMap.store 0 m (off + b.2) b.1) tm.spad
                spadPoison := PSet.cover tm.spadPoison 8 healer off bs.length } }

/-- Bytes that a party writes at SP (R115). -/
def spWritten (who : Who) (e off : Nat) (bs : List Byte) (t : State) : State :=
  spPut e off bs who.healer (markedAt who (spKey e off) bs.length t)

/-- What was kept for the word of the group of `w` is let go: lines (R129) and held events (R322). -/
def View.letGo (w : View) (t : State) : State :=
  { t with home := { t.home with locked := t.home.locked.filter (·.2 != w.g) }
           launches := SMap.adjust t.launches w.t.launch fun l => l.dropHolds w.t.tag w.gidx }

/-- The read cache of a cluster without the line of an address. -/
def lineDropped (cl pa : Nat) (t : State) : State :=
  let x := t.cluster cl
  { t with clusters := SMap.put t.clusters cl { x with crc := SMap.del x.crc (pa / 64) } }

/-- The read cache of a cluster with the line of an address, which comes through its home slice (R47). -/
def lineFilled (cl pa : Nat) (t0 : State) : State :=
  let t := lineBrought pa t0
  let x := t.cluster cl
  let c : LineCopy := { cells := memCells t (pa / 64 * 64) 64, at_ := t.home.now }
  { t with clusters := SMap.put t.clusters cl { x with crc := SMap.put x.crc (pa / 64) c } }

/-! Engine operations (R89, R99, R101) -/

/-- An operation counts in the open batch of its class. -/
def opened (w : View) (cls id : Nat) : State → State :=
  w.onGroup fun gr => gr.setBatches cls { gr.batches cls with openOps := (gr.batches cls).openOps ++ [id] }

/-- An operation begins to use the reservation it names (R268). -/
def using_ (w : View) (res : Option (Nat × Nat)) (id : Nat) (t : State) : State :=
  { t with teams := SMap.adjust t.teams w.eid fun tm => { tm with mat := tm.mat.use res id } }

/-- An operation of the COPY class enters the queue of the group's cluster. -/
def copyEntered (w : View) (mk : Nat → CopyOp) (t : State) : State :=
  let id := t.fresh
  let c := t.cluster w.cl
  opened w 0 id (using_ w (mk id).res id
    { t with fresh := id + 1, clusters := SMap.put t.clusters w.cl { c with copyq := c.copyq ++ [mk id] } })

/-- An operation of the MAT class enters the reservation table of the group's cluster (R264). -/
def matEntered (w : View) (mk : Nat → MatOp) (t : State) : State :=
  let id := t.fresh
  let c := t.cluster w.cl
  opened w 1 id (using_ w (mk id).res id
    { t with fresh := id + 1, clusters := SMap.put t.clusters w.cl { c with mat := c.mat ++ [mk id] } })

/-- An operation of the COLL class (R377). -/
def collEntered (w : View) (mk : Nat → CollOp) (t : State) : State :=
  opened w 2 t.fresh { t with fresh := t.fresh + 1, colls := t.colls ++ [mk t.fresh] }

/-! Barrier objects (R102, R103) -/

/-- A barrier object lies aligned in the team's scratchpad. -/
def ObjectAt (w : View) (off : Nat) : Prop := off % 8 = 0 ∧ spInside w.t off 8 = true

/-- One update of the object at an offset, with the flip rule. -/
def objectPut (w : View) (off : Nat) (f : BarObj → BarObj) (t : State) : State :=
  let o := BarObj.decode (spNat w.t off 8)
  let n := (f o).flip
  let u := spWritten (groupWho w.g w.gr w.gr.nextId) w.eid off (natBytes n.encode 8) t
  let u := { u with teams := SMap.adjust u.teams w.eid fun tm => tm.noteObj off (n.phase != o.phase) [] }
  if n.phase != o.phase then
    { u with teams := SMap.adjust u.teams w.eid fun tm =>
        { tm with boGlobal := NSet.erase tm.boGlobal (2 * off + (if n.phase then 1 else 0)) } }
  else u

/-! Named barriers (R254, R256) -/

def barrierPut (w : View) (b : Nat) (x : Barrier) (t : State) : State :=
  if sharedBarrier w.s w.eid b then
    { t with grids := SMap.adjust t.grids w.t.grid fun gd => { gd with barrier0 := x } }
  else { t with teams := SMap.adjust t.teams w.eid fun tm => { tm with barriers := SMap.put tm.barriers b x } }

/-- The barrier with the arrival of the group. -/
def arrivedAt (w : View) (b c : Nat) (red : Option (RedKind × W32)) (held : Option (Option Nat)) : Barrier :=
  let x := barrierOf w.s w.eid b
  let x := { x with count := c, arrived := x.arrived ++ [w.g], clock := x.clock.join (w.gr.release w.g)
                    held := match held with | some d => x.held ++ [(w.g, d)] | none => x.held }
  match red with
  | some (k, v) =>
    { x with red := some k
             contrib := if w.gr.exm != 0 then x.contrib ++ [(barPosition w.s b w.g, v)] else x.contrib }
  | none => x

/-- The phase has its arrivals: c of them, or every live group of the barrier's teams. -/
def Full (w : View) (b : Nat) (x : Barrier) : Prop :=
  x.arrived.length = if x.count = 0 then (liveGroups w.s w.eid b).length else x.count

/-- The phase ends: its held groups go on with the result, as an acquire, and the next one begins. -/
def phaseReleased (w : View) (b : Nat) (x : Barrier) (t : State) : State :=
  let r := match x.red with | some k => redResult k x.contrib | none => 0
  let scope := if sharedBarrier w.s w.eid b then 2 else 1
  barrierPut w b { phase := x.phase + 1, lastResult := r } (x.held.foldl (fun t h =>
    ordered h.1 x.clock (acquired h.1 scope { t with groups := SMap.adjust t.groups h.1 fun gr =>
      let gr := { gr with hold := some .released }
      match h.2, x.red with
      | some d, some k => gr.setS d (k.extend r)
      | _, _ => gr })) t)

/-- Nothing of a barrier's end is journalled, and no group waits to arrive a second time. -/
def FreshPhase (w : View) (b : Nat) : Prop :=
  (∃ o l, w.s.team? (if sharedBarrier w.s w.eid b then (nbhTeams w.s w.eid).headD w.eid else w.eid) = some o ∧
    w.s.launch? o.launch = some l ∧ l.journal = 0) ∧
  ∀ g gr c p r sy, w.s.group? g = some gr → gr.hold ≠ some (.rearrive b c p r sy)

/-- An arrival word (R254 to R256): a second arrival of the group in one phase is held until the phase ends; a first one
joins the phase, and where it fills it the phase ends; else the group is held in it, or goes on where it does not wait. -/
def Arrives (i : Instr) (fn : Nat) (c : BitVec 6) (b : BitVec 4) (red : Option (RedKind × BitVec 6 × BitVec 6))
    (sync : Bool) : Prop :=
  ∀ s,
    let info : View → Info := fun w =>
      { reads := (red.map fun r => [sreg r.2.1]).getD [], writes := (red.map fun r => [sreg r.2.2]).getD []
        ok := c.ult 33, surcharge := if red.isSome then 1 else 0, mask := if red.isSome then .acts else .ignores
        raises := barCauses w fn b.toNat c.toNat (red.map (·.1)), waits := !w.gr.drained }
    let dst := red.map (·.2.2.toNat)
    let before (w : View) : Barrier := barrierOf w.s w.eid b.toNat
    let x (w : View) : Barrier := arrivedAt w b.toNat c.toNat (red.map fun r => (r.1, (w.gr.rs r.2.1.toNat).extractLsb' 0 32))
      (if sync then some dst else none)
    let set (w : View) (t : State) : State := barrierPut w b.toNat (x w)
      (if sync then w.held (.barrier b.toNat c.toNat (before w).phase (red.map (·.1)) (dst.getD 0)) t else t)
    let on (w : View) : State → State := w.onGroup fun gr => { gr with hold := none }
    IssuesIf i info (fun w => w.g ∈ (before w).arrived)
      (fun w => w.held (.rearrive b.toNat c.toNat (before w).phase (red.map fun r => (r.1, r.2.1.toNat, r.2.2.toNat)) sync)) s ∧
    IssuesIf i info (fun w => sync = true ∧ w.g ∉ (before w).arrived ∧ ¬Full w b.toNat (x w)) set s ∧
    CompletesIf i info (fun w => sync = false ∧ w.g ∉ (before w).arrived ∧ ¬Full w b.toNat (x w)) (fun w t => on w (set w t)) s ∧
    CompletesIf i info (fun w => w.g ∉ (before w).arrived ∧ Full w b.toNat (x w) ∧ FreshPhase w b.toNat)
      (fun w t => on w (phaseReleased w b.toNat (x w) (set w t))) s

/-! Ordered atomics and tickets (R131, R152) -/

/-- The group of `w` with an atomic queued that gives no result. -/
def withBareAtom (w : View) (acc : Access) (ok : List LaneAcc) (gr : Group) : Group :=
  let pas := distinct (ok.map (·.pa))
  { gr with
    nextId := w.gr.nextId + 1 + (pas.length + 1)
    sq := gr.sq ++ pas.zipIdx.map fun p =>
      { id := w.gr.nextId + 1 + p.2, unit := w.gr.nextId
        acc := { acc with lanes := ok.filter fun a => a.pa = p.1, rels := gr.fences } } }

/-- The ticket object with the pass of the team, which releases `c`. -/
def Ticket.passedBy (k : Ticket) (t : Team) (c : Clock) : Ticket :=
  let k := { k with passes := k.passes ++ [t.tidx], clock := k.clock.join c }
  k.advance k.passes.length

/-- A team passes ticket object `j` of its grid: NEXT moves on, and the object's bytes follow. -/
def ticketPassed (e j : Nat) (tm : Team) (k : Ticket) (c : Clock) (t : State) : State :=
  let k' := k.passedBy tm c
  written sysParty k.addr (natBytes k'.encode 16)
    { t with
      grids := SMap.adjust t.grids tm.grid fun gd => { gd with tickets := gd.tickets.set j k' }
      teams := SMap.adjust t.teams e fun q => { q with passed := q.passed ++ [j] } }

/-- The contribution of one lane, after those in `os` (R131). -/
def contribution (w : View) (path : List (Nat × Nat)) (i64 : Bool) (os : List Contribution) (a : LaneAcc) : Contribution :=
  { launch := w.t.launch, ctx := w.t.ctx, pa := a.pa, i64 := i64, path := path, tidx := w.t.tidx
    gidx := groupIdx w.g, lane := a.lane
    n := (os.filter fun c => c.launch = w.t.launch && c.pa = a.pa && c.path = path && c.tidx = w.t.tidx &&
      c.gidx = groupIdx w.g && c.lane = a.lane).length
    val := BitVec.ofNat 64 a.data, chk := a.chk, spilled := false }

/-- The contributions of an ordered atomic in phase mode, in lane order (R131); the access takes a number. -/
def contributed (w : View) (path : List (Nat × Nat)) (i64 : Bool) (ok : List LaneAcc) (t : State) : State :=
  let os := ok.foldl (fun os a => os ++ [contribution w path i64 os a]) t.home.ordered
  { t with groups := SMap.adjust t.groups w.g fun gr => { gr with nextId := gr.nextId + 1 }
           home := { t.home with ordered := os } }

/-- An ordered atomic (R131, R132, R261): outside phase mode it queues the atomic it names, without a result; in phase
mode its lanes' contributions are kept at the home slices, where there is room for them. -/
def OrderedAtomic (i : BitVec 6 → BitVec 6 → BitVec 6 → Instr) (i64 : Bool) : Prop :=
  ∀ s x y v,
    let size := if i64 then 8 else 4
    let info (w : View) : Info :=
      { reads := sreg x :: .v y.toNat :: dataRegs v.toNat size, ok := !i64 || v.getLsbD 0 == false
        surcharge := sectors size ((atomoAddrs w x y).map (·.2)) + w.lanes.length }
    let acc (w : View) : Access :=
      { kind := if w.phm then .atomo i64 else .atom (if i64 then .addI else .addF32), size := size, scope := 3, aon := true }
    let lanes (w : View) : List LaneAcc := (atomoAddrs w x y).map fun a =>
      { lane := a.1, va := a.2, data := laneData w.gr v.toNat (size / 4) a.1 }
    ((∀ w l, view s = some w → s.launch? w.t.launch = some l → w.phm = false ∧ l.journal ≠ 2) →
      Queues (i x y v) info acc lanes withBareAtom s) ∧
    ∀ w ok u gd, view s = some w → Ready w (info w) → Acts w (info w) → PlainEnd w → w.phm = true →
      Reaches s w (withTraffic w.t.launch (32 * sectors size ((lanes w).map (·.va))) (w.paid (info w))) (acc w) (lanes w)
        ok u →
      s.grid? w.t.grid = some gd → u.dev.hcommit = none → u.home.ordered.length + ok.length ≤ 64 →
      (u.ctx w.t.ctx).msz = false →
      exec (i x y v) s = .next (w.next (contributed w gd.path i64 ok u))

/-! Versioned accesses (R130, R262) -/

def metaWritten (pa : Nat) (tag : Nat) (t : State) : State :=
  let m := (SMap.get? t.home.info (pa / 64)).getD {}
  { t with home := { t.home with info := SMap.put t.home.info (pa / 64) { m with ver := m.ver + 1, wtag := BitVec.ofNat 24 tag } } }

/-- The group's record once its access has a number. -/
def numbered (gr : Group) : Group := { gr with nextId := gr.nextId + 1 }

/-- vst.ver of the line at `pa` where the version is the expected one: the version moves on, the lanes' words are written by
access number `u`, with the releases of the group's fences, and the status register takes the new version with bit 63. -/
def verStored (w : View) (acc : Access) (gr : Group) (ok : List LaneAcc) (pa : Nat) (t : State) : State :=
  let v := ok.foldl (fun t a => stored w.g w.gr.nextId { acc with rels := gr.fences } ((t.group? w.g).getD gr) a t)
    (metaWritten pa w.t.tag t)
  w.onGroup (fun gr => gr.setS acc.status (verWord (metaOf v pa) ||| 0x8000000000000000)) v

/-- The lanes' words read by access number `u` of group `g`, one after another. -/
def lanesRead (g u n : Nat) (gr : Group) : List LaneAcc → State → List LaneAcc × State
  | [], t => ([], t)
  | a :: as, t =>
    let v := floorRaised g a.pa n (readAt (groupWho g ((t.group? g).getD gr) u) a.pa n t)
    let r := lanesRead g u n gr as v
    (laneRead n a v :: r.1, r.2)

/-- ld.ver: the lanes' words and the version land at once, as an acquire. -/
def verLoaded (w : View) (acc : Access) (gr : Group) (ok : List LaneAcc) (dst pa : Nat) (t : State) : State :=
  let r := lanesRead w.g w.gr.nextId 4 gr ok t
  let v := w.onGroup (fun gr => r.1.foldl (fun gr a =>
    let gr := gr.setV dst a.lane (BitVec.ofNat 32 a.data)
    if a.poison then { gr with poison := { gr.poison with v := NSet.add gr.poison.v (32 * dst + a.lane) } } else gr) gr) r.2
  releasesMet w.g w.gr.nextId { acc with acq := true } r.1
    (acquired w.g acc.scope (w.onGroup (fun gr => gr.setS acc.status (verWord (metaOf r.2 pa))) v))

/-- The unit of vst.ver or ld.ver. -/
def verInfo (store : Bool) (x y v : BitVec 6) (w : View) : Info :=
  { reads := sreg x :: (if store then [sreg y, .v v.toNat] else []), writes := sreg y :: (if store then [] else [.v v.toNat])
    mods := modScope, surcharge := sectors 4 (w.lanes.map fun l => w.gr.rs x.toNat + BitVec.ofNat 64 (4 * l)) }

def verAccess (store : Bool) (y v : BitVec 6) (w : View) : Access :=
  { kind := if store then .vstVer else .ldVer, size := 4, dest := if store then .none else .vec v.toNat, aon := true
    rel := store, scope := w.scope, status := y.toNat }

def verLanes (x y v : BitVec 6) (w : View) : List LaneAcc :=
  w.lanes.map fun l =>
    { lane := l, va := w.gr.rs x.toNat + BitVec.ofNat 64 (4 * l), data := (w.gr.rv v.toNat l).toNat
      cmp := (w.gr.rs y.toNat).toNat % 65536 }

/-- The lanes of a versioned access reach their line: `ok`, whose first lane stands at `pa`, at state `u`. -/
structure ReachesLine (s : State) (w : View) (store : Bool) (x y v : BitVec 6) (ok : List LaneAcc) (pa : Nat) (u : State) :
    Prop where
  reach : Reaches s w (withTraffic w.t.launch (32 * sectors 4 ((verLanes x y v w).map (·.va))) (w.paid (verInfo store x y v w)))
    (verAccess store y v w) (verLanes x y v w) ok u
  low : ∀ l ∈ w.lanes, l < 16
  line : (w.gr.rs x.toNat).toNat % 64 = 0
  first : ok.head?.map (fun a => (a.pa, a.cmp, a.chk)) = some (pa, (w.gr.rs y.toNat).toNat % 65536, true)
  free : ∃ gr, u.group? w.g = some gr ∧ readyNow u w.g (numbered gr) w.gr.nextId (verAccess store y v w) ok = true
  posted : (u.ctx w.t.ctx).msz = false

/-- The lanes' words can be written, or read, one after another: each range has room in its slice and meets no access that
R125 looks at. -/
def Follows (g u n : Nat) (gr : Group) (wr : Bool) : List LaneAcc → (LaneAcc → State → State) → State → Prop
  | [], _, _ => True
  | a :: as, f, t =>
    Room t a.pa n ∧ paRange a.pa ≠ .control ∧ Clean t (groupWho g ((t.group? g).getD gr) u) a.pa n wr ∧
      Follows g u n gr wr as f (f a t)

/-! Tasks (R284, R288, R291) -/

/-- The grid of an accepted spawn of the group of `w`, with its teams, not begun. -/
def gridCreated (w : View) (d : SpawnDesc) (tag0 : Nat) (tickets : List LaneAcc) (t : State) : State :=
  let gid := t.fresh
  let eids := (freeEntries t).take d.teams
  let path := match t.grid? w.t.grid with
    | some gd => gd.path ++ [(w.t.tidx, w.t.spawnsInPhase)]
    | none => []
  let teams := eids.zipIdx.foldl (fun m p =>
    let al := BitVec.ofNat 64 (d.grant / d.teams + if p.2 = 0 then d.grant % d.teams else 0)
    let tm : Team :=
      { ctx := w.t.ctx, tag := tag0 + p.2, ptag := w.t.tag, parent := some w.eid, grid := gid, launch := w.t.launch
        tidx := p.2, shape := d.shape, wait := d.depw, al := al, share := al }
    SMap.put m p.1 tm) t.teams
  let gd : Grid :=
    { ctx := w.t.ctx, launch := w.t.launch, parent := some w.eid, tag0 := tag0, count := d.teams, teams := eids
      nbh := d.nbh, tickets := tickets.map fun a => { addr := a.pa, va := a.va.toNat }, regions := d.regions, path := path
      order := gid, start := w.gr.release w.g }
  { t with
    fresh := gid + 1
    grids := SMap.put t.grids gid gd
    teams := SMap.adjust teams w.eid fun q =>
      { q with children := q.children ++ [gid], spawned := true, spawnsInPhase := q.spawnsInPhase + 1 } }

/-- A change of a bound node queue of a context. -/
def nodePut (ctx nq : Nat) (f : NodeQueue → NodeQueue) (t : State) : State :=
  let c := t.ctx ctx
  { t with ctxs := SMap.put t.ctxs ctx { c with queues := SMap.adjust c.queues nq f } }

/-- The entries of grids no record keeps, and whose messages are written, are free (R109, R290). -/
def swept (t : State) : State :=
  t.grids.foldl (fun s p =>
    if !p.2.kept && p.2.teams.all (fun e => (s.teamGroups e).all fun g =>
        match s.group? g with
        | some gr => gr.outbox.isEmpty
        | none => true) then
      { s with
        groups := p.2.teams.foldl (fun m e => (s.teamGroups e).foldl SMap.del m) s.groups
        teams := p.2.teams.foldl SMap.del s.teams
        grids := SMap.del s.grids p.1 }
    else s) t

/-- A join of a grid that is DONE: its status, the record dropped, an acquire at .dev. -/
def joined (w : View) (dst gid : Nat) (gd : Grid) (t : State) : State :=
  let u := w.onGroup (fun gr => gr.setS dst (BitVec.ofNat 64 (gridStatus t gd))) t
  swept (ordered w.g gd.clock (acquired w.g 3
    { u with
      teams := SMap.adjust u.teams w.eid fun tm => { tm with children := tm.children.filter (· != gid) }
      grids := SMap.adjust u.grids gid fun gd => { gd with kept := false } }))

/-! Traps, overlays and current (R303, R327, R335) -/

/-- Entry to the handler: the causes recorded, TPC and TMASK saved, the mask and stack kept, the handler's first word. -/
def handlerEntered (ds : List Detail) (tpc : BitVec 15) (gr : Group) : Group :=
  let tr := gr.trap.record ds
  { gr with
    parked := none
    trap := { tr with tpc := tpc, tmask := gr.exm, pending := none, resume := none
                      handler := some { exm := gr.trap.resume.getD gr.exm, stack := gr.stack } }
    exm := 0xFFFFFFFF
    stack := []
    hints := []
    slot := tr.tvec.extractLsb' 14 1
    pc := tr.tvec.extractLsb' 0 14 }

/-- Slot 1 of a core with the words of an overlay; words beyond them read 0. -/
def slotOneFilled (core : Nat) (key : Nat × Nat) (ws : List (W32 × Bool)) (t : State) : State :=
  let c := t.core core
  let im := ws.zipIdx.foldl (fun m x => SMap.store 0 m (16384 * 1 + x.2) x.1.1) (SMap.delRange c.imem (16384 * 1) 16384)
  let po := ws.zipIdx.foldl (fun m x => if x.1.2 then NSet.add m (16384 * 1 + x.2) else m)
    (SMap.delRange c.imemPoison (16384 * 1) 16384)
  { t with cores := SMap.put t.cores core { c with imem := im, imemPoison := po, tag1 := some key } }

/-- A change of a string's current. -/
def strPut (i : Nat) (f : Str → Str) (t : State) : State := { t with strings := SMap.put t.strings i (f (t.str i)) }

end Sys2Proof.Machine
end

