-- ==== Sys2Proof/EventEffects.lean ====
section
/-! DEFINITION. What events leave, as functions of the state they happen in: the terms in which statements about the
agents that no word starts say their next state. -/

namespace Sys2Proof.Machine

/-- An event that happens where `cond` holds, and leaves `f` of the state. -/
def Fires (i : Instr) (cond : State → Prop) (f : State → State) : Prop := ∀ s, cond s → exec i s = .next (f s)

/-! Changes of one part -/

def groupPut (g : Nat) (f : Group → Group) (t : State) : State := { t with groups := SMap.adjust t.groups g f }
def teamPut (e : Nat) (f : Team → Team) (t : State) : State := { t with teams := SMap.adjust t.teams e f }
def gridPut (i : Nat) (f : Grid → Grid) (t : State) : State := { t with grids := SMap.adjust t.grids i f }
def launchPut (i : Nat) (f : Launch → Launch) (t : State) : State := { t with launches := SMap.adjust t.launches i f }
def queuePut (i : Nat) (f : HostQueue → HostQueue) (t : State) : State := { t with queues := SMap.adjust t.queues i f }
def corePut (i : Nat) (f : Core → Core) (t : State) : State := { t with cores := SMap.put t.cores i (f (t.core i)) }
def clusterPut (i : Nat) (f : Cluster → Cluster) (t : State) : State :=
  { t with clusters := SMap.put t.clusters i (f (t.cluster i)) }
def tablePut (i : Nat) (f : PrTable → PrTable) (t : State) : State := { t with tables := SMap.put t.tables i (f (t.table i)) }
def ctxPut (i : Nat) (f : CtxRegs → CtxRegs) (t : State) : State := { t with ctxs := SMap.put t.ctxs i (f (t.ctx i)) }
def fnPut (i : Nat) (f : Fn → Fn) (t : State) : State := { t with fns := SMap.put t.fns i (f (t.fn i)) }
def devPut (f : Device → Device) (t : State) : State := { t with dev := f t.dev }
def homePut (f : Home → Home) (t : State) : State := { t with home := f t.home }
def bootPut (f : Boot → Boot) (t : State) : State := { t with boot := f t.boot }

/-- A vector of a function is raised: a write that leaves by the link FLINK names (R367, R370). -/
def vectorRaised (f v : Nat) : State → State := fnPut f fun r => { r with msix := r.msix ++ [(v, r.flink)] }

/-- Vector 3 of every function is raised. -/
def errorsRaised (t : State) : State := (List.range 64).foldl (fun t f => vectorRaised f 3 t) t

/-! Power and temperature (R358 to R360) -/

/-- A change of a cluster's constraint bits, and what it does to its window and to a boosted clock. -/
def constrainedAs (cl : Nat) (f : Cluster → Cluster) (t : State) : State :=
  let u := clusterPut cl (fun c => (f c).rewindow t.dev.emergency c) t
  if (f (t.cluster cl)).constrained then strPut (clusterString cl) (fun q => { q with setClk := min q.setClk 3000 }) u else u

/-- THERM after its rule: set below 5 °C of JMARG or 10 °C of DMARG, cleared from 8 and 13, else kept. -/
def thermSet (cl : Nat) (t : State) : State :=
  constrainedAs cl (fun c =>
    if jmarg t cl < 80 ∨ dmarg t < 160 then { c with therm := true }
    else if 128 ≤ jmarg t cl ∧ 208 ≤ dmarg t then { c with therm := false }
    else c) t

/-- The emergency of R360 begins: no window is open, and no clock is above 3,000 MHz. -/
def emergencyBegun (t : State) : State :=
  allClusters.foldl (fun t cl =>
    strPut (clusterString cl) (fun q => { q with setClk := min q.setClk 3000 })
      (clusterPut cl (fun c => { c with windowStart := none }) t)) (devPut (fun d => { d with emergency := true }) t)

/-- It ends: a bit still set opens a window afresh. -/
def emergencyEnded (t : State) : State :=
  allClusters.foldl (fun t cl =>
    clusterPut cl (fun c => if c.constrained && !c.skip then { c with windowStart := some c.cyc } else c) t)
    (devPut (fun d => { d with emergency := false }) t)

/-! The Sluice (R327 to R330) -/

/-- While throttled, the time with no request waiting starts when the last one leaves. -/
def quieted (i : Nat) (t : State) : State :=
  strPut i (fun q => if q.throttled && q.waiting.isEmpty && q.quietSince.isNone
    then { q with quietSince := some (t.cluster q.throttleBy).cyc } else q) t

/-- A vector or SFU reservation starts its 64 cycles. -/
def reservationBegun (cl : Nat) (who : Asker) (t : State) : State :=
  let lasts := some ((t.cluster cl).cyc + 64)
  match who with
  | .vec core => corePut core (fun c => { c with vecUntil := lasts }) t
  | .sfu core => corePut core (fun c => { c with sfuUntil := lasts }) t
  | _ => t

/-- An asker's reservation and request are gone. -/
def currentReleased (cl : Nat) (who : Asker) (t : State) : State :=
  quieted (clusterString cl) (strPut (clusterString cl) (fun q => q.release who) t)

/-- A change of the four clusters of a string. -/
def tilesPut (string : Nat) (f : Nat → State → State) (t : State) : State :=
  [0, 1, 2, 3].foldl (fun t i => f (4 * string + i) t) t

/-! The walk of stage 1 (R16 to R24) -/

/-- The table of level 4 − n that a walk from `root` reads (R16). -/
def tableAt (s : State) (root va : Nat) : Nat → Nat
  | 0 => root
  | n + 1 => bitsOf (entryAt s (tableAt s root va n + 8 * (va / 2 ^ (48 - 9 * n) % 512))) 51 12 * 4096

/-- Where its entry of level 4 − n stands. -/
def entryPlace (s : State) (root va n : Nat) : Nat := tableAt s root va n + 8 * (va / 2 ^ (48 - 9 * n) % 512)

/-- A valid entry of stage 1 that is malformed at a level (R19). -/
def BadEntry (lvl e : Nat) : Prop :=
  let leaf : Prop := bitOf e 1 = true
  bitsOf e 58 52 ≠ 0 ∨ bitOf e 10 = true ∨ bitsOf e 7 5 ≠ 0 ∨ (leaf ∧ 3 ≤ lvl) ∨ (¬leaf ∧ lvl = 0) ∨
    (leaf ∧ 3 ≤ bitsOf e 61 59) ∨ (leaf ∧ bitOf e 3 = true ∧ bitOf e 2 = false) ∨
    (leaf ∧ bitsOf e 51 12 % 2 ^ (9 * lvl) ≠ 0) ∨ (¬leaf ∧ (bitOf e 62 = true ∨ bitOf e 4 = true))

/-- A walk of a context without stage 2 comes down to level 4 − n: above it stand pointers, in tables that R24 permits, and no
entry of them is being committed. -/
def Descends (s : State) (c : CtxRec) (va n : Nat) : Prop :=
  c.s2en = false ∧ n ≤ 4 ∧ ∀ j, j < n →
    tableOk s (tableAt s c.s1root va j) = true ∧ paBlocked s (entryPlace s c.s1root va j) = false ∧
      let e := entryAt s (entryPlace s c.s1root va j)
      bitOf e 0 = true ∧ bitOf e 1 = false ∧ ¬BadEntry (4 - j) e

/-- A range, a memory type or the checked window does not allow the page at `pa` (R15, R58). -/
def OutOfRange (s : State) (c : CtxRec) (pa e : Nat) : Prop :=
  rangePermits pa (bitsOf e 61 59) = false ∨ (paRange pa = .control ∧ c.vfn ≠ 0) ∨ inMetadata s pa = true ∨
    (bitOf e 62 = true ∧ (inWindow s pa = false ∨ bitsOf e 61 59 = 2))

/-- The leaf denies the access (R20). -/
def Denies (kind : Nat) (noDev : Bool) (e : Nat) : Prop :=
  bitOf e 4 = true ∨ (needsRd kind = true ∧ bitOf e 2 = false) ∨ (needsW kind = true ∧ bitOf e 3 = false) ∨
    (kind = Kind.overlay ∧ bitOf e 63 = true) ∨
    (bitsOf e 61 59 = 2 ∧ (kind = Kind.atomic ∨ kind = Kind.overlay ∨ noDev = true))

/-- A translating access has set A in the entries it used, and, a write, D in the leaf (R21); `us`: where each entry stands,
what it holds, whether it is the leaf. -/
def adMarked (wr : Bool) (us : List (Nat × Nat × Bool)) (t : State) : State :=
  us.foldl (fun t u =>
    let setD := wr && u.2.2 && !bitOf u.2.1 9
    if !bitOf u.2.1 8 || setD then
      written sysParty (u.1 + 1) [Memory.read t.mem (u.1 + 1) ||| (if setD then 3 else 1)] t
    else t) t

/-! Page requests and invalidation (R27, R31 to R36) -/

/-- What was kept for the word of a group is let go: lines (R129) and held events (R322). -/
def groupLetGo (g : Nat) (tm : Team) (t : State) : State :=
  { t with home := { t.home with locked := t.home.locked.filter (·.2 != g) }
           launches := SMap.adjust t.launches tm.launch fun l => l.dropHolds tm.tag (groupIdx g) }

/-- A party has left its slots (R36). -/
def slotsLeft (ws : List Wait) (t : State) : State :=
  ws.eraseDups.foldl (fun t w => match w with
    | .slot tbl tag => tablePut tbl (fun q =>
        { q with slots := SMap.adjust q.slots tag fun sl => { sl with waiters := sl.waiters - 1 } }) t
    | .full _ => t) t

/-- A group enters its handler for a parked access that ends in causes: with one lane for the group TMASK is EXM (R37, R244). -/
def parkedFailed (p : Parked) (ds : List Detail) (gr : Group) : Group :=
  let tr := gr.trap.record (mergeDetails ds)
  { gr with
    parked := none
    trap := { tr with tpc := packPc gr.slot gr.pc, pending := none, resume := none
                      tmask := if p.acc.one then gr.exm else maskOf (p.acc.lanes.map (·.lane))
                      handler := some { exm := gr.trap.resume.getD gr.exm, stack := gr.stack } }
    exm := 0xFFFFFFFF
    stack := []
    hints := []
    slot := tr.tvec.extractLsb' 14 1
    pc := tr.tvec.extractLsb' 0 14 }

/-- Or, while loads or SFU results of its own are outstanding, the causes wait until they have landed (R335). -/
def parkedDraining (p : Parked) (ds : List Detail) (gr : Group) : Group :=
  { gr with
    parked := none
    hints := []
    trap := { gr.trap with
      pending := some { raised := mergeDetails ds, tpc := packPc gr.slot gr.pc
                        tmask := if p.acc.one then gr.exm else maskOf (p.acc.lanes.map (·.lane)) } } }

/-- An access whose translations an issuing word reads (R77, R283): its denial is met when the word presents again. -/
def ReadOfIssue (p : Parked) : Prop := p.acc.kind = .snap

/-- A parked group's access takes a reply: the lanes that waited on the slot wait no more, and a denial stands for its
first page. -/
def groupAnswered (wt : Wait) (fail : Bool) (g : Nat) (t : State) : State :=
  match (t.group? g).bind (·.parked) with
  | some p =>
    if p.waits.any fun e => e.2 = wt then
      groupPut g (fun gr =>
        { gr with
          parked := some { p with waits := p.waits.filter fun e => e.2 ≠ wt }
          denied := if fail then p.acc.lanes.head?.map (fun a => a.va.toNat / 4096) else none }) t
    else t
  | none => t

/-- A reply to a page request: its slot is free, and engine operations and system parties that waited on it take it. -/
def pageReplied (tbl tag : Nat) (sl : PrSlot) (fail : Bool) (s : State) : State :=
  let wt : Wait := .slot tbl tag
  let gone (w : Option Wait) : Option Wait := if w = some wt then none else w
  let t := tablePut tbl (fun t =>
    { t with slots := SMap.del t.slots tag
             denied := if fail && sl.sys then t.denied ++ [(sl.page, sl.ctx, sl.stage)] else t.denied }) s
  { t with
    clusters := t.clusters.map fun (i, c) =>
      (i, { c with copyq := c.copyq.map fun op => op.answer wt fail, mat := c.mat.map fun op => op.answer wt fail })
    colls := t.colls.map fun op => op.answer wt fail
    groups := t.groups.map fun (i, gr) => (i, { gr with sysWait := gone gr.sysWait })
    teams := t.teams.map fun (i, tm) => (i, { tm with sysWait := gone tm.sysWait })
    launches := t.launches.map fun (i, l) => (i, { l with sysWait := gone l.sysWait }) }

/-- The same, and every group that waited on the slot takes it. -/
def pageAnswered (tbl tag : Nat) (sl : PrSlot) (fail : Bool) (s : State) : State :=
  s.groups.foldl (fun t e => groupAnswered (.slot tbl tag) fail e.1 t) (pageReplied tbl tag sl fail s)

/-- The cached translations that a request covers are gone from every cluster. -/
def translationsDropped (req : Nat × Nat × Nat × Nat) (t : State) : State :=
  { t with clusters := t.clusters.map fun (i, c) => (i, { c with tlb := c.tlb.filter fun e => !coversEntry req e }) }

/-- An invalidation has started: BUSY, with what it covers. -/
def invalidating (f : Nat) (req : Nat × Nat × Nat × Nat) (t : State) : State :=
  translationsDropped req (fnPut f (fun r => { r with xinvBusy := some req }) t)

/-! Write-back and storage errors (R49, R62 to R67) -/

/-- A dirty line is in DRAM, which holds it poisoned where a sector of it was. -/
def writtenBack (line : Nat) : State → State := homePut fun h =>
  let bad := PSet.has h.poison (2 * line) || PSet.has h.poison (2 * line + 1)
  { h with dirty := SMap.del h.dirty line
           poison := SMap.del (SMap.del h.poison (2 * line)) (2 * line + 1)
           dramPoison := NSet.set h.dramPoison line bad }

/-- A line has left its slice, written back where it was dirty. -/
def lineLeft (line : Nat) (t : State) : State :=
  if (SMap.get? t.home.dirty line).isSome then writtenBack line t
  else homePut (fun h => { h with clean := NSet.erase h.clean line }) t

/-- A register's, a sector's or a DRAM line's granule is marked, a read-cache line is dropped. -/
def granuleMarked : Granule → State → State
  | .vlane g r l => groupPut g fun gr => { gr with poison := { gr.poison with v := NSet.add gr.poison.v (32 * r + l) } }
  | .olane g r l => groupPut g fun gr => { gr with poison := { gr.poison with o := NSet.add gr.poison.o (32 * r + l) } }
  | .llane g r l => groupPut g fun gr => { gr with poison := { gr.poison with l := NSet.add gr.poison.l (32 * r + l) } }
  | .qlane g r l => groupPut g fun gr => { gr with poison := { gr.poison with q := NSet.add gr.poison.q (32 * r + l) } }
  | .sreg g n => groupPut g fun gr => { gr with poison := { gr.poison with s := NSet.add gr.poison.s n } }
  | .kreg g n => groupPut g fun gr => { gr with poison := { gr.poison with k := NSet.add gr.poison.k n } }
  | .exm g => groupPut g fun gr => { gr with poison := { gr.poison with exm := true } }
  | .allowance e => teamPut e fun t => { t with alPoison := true }
  | .sysreg e n => teamPut e fun t => { t with sysPoison := NSet.add t.sysPoison n }
  | .imem core w => corePut core fun c => { c with imemPoison := NSet.add c.imemPoison w }
  | .spad e off => teamPut e fun t => { t with spadPoison := PSet.add t.spadPoison (off / 8) }
  | .cacheLine cl line => clusterPut cl fun c => { c with crc := SMap.del c.crc line }
  | .sector pa => homePut fun h => { h with poison := PSet.add h.poison (pa / 32) }
  | .dram pa => homePut fun h => { h with dramPoison := NSet.add h.dramPoison (pa / 64) }
  | .metadata line => homePut fun h => { h with infoPoison := NSet.add h.infoPoison line }
  | .obuf _ _ | .bstore _ _ | .bank _ _ => id

/-- A granule outside the matrix unit's storage. -/
def Unshared : Granule → Prop
  | .obuf _ _ | .bstore _ _ | .bank _ _ => False
  | _ => True

/-! Queued writes and loads (R116 to R119, R123, R127, R242) -/

/-- A queue entry of a group is gone. -/
def unqueued (id : Nat) (gr : Group) : Group := { gr with sq := gr.sq.filter fun f => f.id != id }

/-- One lane of an atomic of access number `u`, performed by group `g`: the value is read, the new one written where the
operation gives one, with what the value read released carried on, and the cluster's copy of the line is dropped. -/
def atomPerformed (g u : Nat) (acc : Access) (op : AtomOp) (gr : Group) (a : LaneAcc) (t : State) : State :=
  let n := acc.size
  let v := readAt (groupWho g gr u) a.pa n t
  let d := laneRead n a v
  let carried := ((readRels v acc [d]).filter fun r => !r.byAtomic).map fun r => { r with byAtomic := true }
  let x := match op.apply (8 * n) d.data a.data a.cmp with
    | some y => written { groupWho g gr u with rels := writeRels v g gr u acc a ++ carried } a.pa (natBytes y n) v
    | none => v
  let y := floorRaised g a.pa n x
  releasesMet g u acc [d] (lineDropped (y.groupCluster g) a.pa y)

/-- The lanes of an atomic, one after the other, with the values they find. -/
def atomsPerformed (g u : Nat) (acc : Access) (op : AtomOp) (gr : Group) : List LaneAcc → State → State × List LaneAcc
  | [], t => (t, [])
  | a :: as, t =>
    let gr := (t.group? g).getD gr
    let r := atomsPerformed g u acc op gr as (atomPerformed g u acc op gr a t)
    (r.1, laneRead acc.size a (readAt (groupWho g gr u) a.pa acc.size t) :: r.2)

/-- Each of the lanes meets room in its slice and no access that R125 looks at. -/
def AtomsFollow (g u : Nat) (acc : Access) (op : AtomOp) (gr : Group) : List LaneAcc → State → Prop
  | [], _ => True
  | a :: as, t =>
    let gr := (t.group? g).getD gr
    Room t a.pa acc.size ∧ Clean t (groupWho g gr u) a.pa acc.size true ∧
      AtomsFollow g u acc op gr as (atomPerformed g u acc op gr a t)

/-- A load has landed: its entry is gone, its lanes hold their values, an acquire has returned, the releases that the values
carry are met. -/
def loadLanded (g : Nat) (e : LsEntry) (lanes : List LaneAcc) (t : State) : State :=
  let u := groupPut g (fun gr =>
    let gr := { gr with ls := gr.ls.filter fun f => f.id != e.id }
    if e.discard then gr else lanes.foldl (landLane e.acc) gr) t
  releasesMet g e.unit e.acc lanes (if e.acc.acq then acquired g e.acc.scope u else u)

/-- A load that another source than the home slice may satisfy (R117). -/
def PlainLoad (e : LsEntry) (a : LaneAcc) : Prop := e.acc.space = 0 ∧ e.acc.acq = false ∧ a.mt ≤ 1

/-- A load takes a byte range at its home slice: where another source could have satisfied it, the line also fills the
cluster's read cache, if it may, and a merge buffer. -/
def homeRead (g n : Nat) (gr : Group) (e : LsEntry) (a : LaneAcc) (t : State) : State :=
  let v := floorRaised g a.pa n (readAt (groupWho g gr e.unit) a.pa n t)
  if e.acc.acq = false ∧ a.mt ≤ 1 then
    homePut (fun h => { h with merge := h.merge ++
      [{ line := a.pa / 64, copy := { cells := memCells v (a.pa / 64 * 64) 64, at_ := h.now } }] })
      (if a.mt = 0 then lineFilled (t.groupCluster g) a.pa v else v)
  else v

/-- The read cache of a cluster takes the line of an address with no other line leaving it (R42). -/
def CacheRoom (t : State) (cl pa : Nat) : Prop :=
  (SMap.get? (t.cluster cl).crc (pa / 64)).isSome = true ∨ (t.cluster cl).crc.length < 4096

/-- A load takes cells that a copy of the line holds, at their stamps. -/
def cellsRead (g n : Nat) (gr : Group) (e : LsEntry) (a : LaneAcc) (cells : List (Byte × Nat)) (t : State) : State :=
  groupPut g (fun gr => gr.raiseFloor a.pa (cells.map (·.2))) (seenAt (groupWho g gr e.unit) a.pa n t)

/-- The lane with those cells. -/
def cellsLane (n : Nat) (a : LaneAcc) (cells : List (Byte × Nat)) (t : State) : LaneAcc :=
  { a with data := bytesNat (cells.map (·.1)), done := true, poison := sectorPoison t a.pa n, stamps := cells.map (·.2) }

/-! Messages (R108) -/

/-- A message's slots in its ring, from TAIL on, with the poison of its payload (R63). -/
def slotsWritten (e : Nat) (r : Ring) (m : Message) (t : State) : State :=
  (List.range m.slots).foldl (fun t i =>
    let off := r.slots + 64 * ((r.tail + i) % 2 ^ r.logn)
    teamPut e (fun tm =>
      { tm with spadPoison := (SMap.keys m.poison).foldl (fun p k =>
          if 64 * i ≤ k + 8 && k + 8 < 64 * i + 64 then PSet.add p ((off + (k + 8 - 64 * i)) / 8) else p) tm.spadPoison })
      (spWritten sysParty e off ((m.bytes.drop (64 * i)).take 64) t)) t

/-- What the message's sender released is kept with its ring (R111, R122). -/
def messageNoted (g e : Nat) (m : Message) (t : State) : State :=
  let r : Release := { party := partyOf t g, scope := m.scope, clock := m.clock }
  teamPut e (fun tm =>
    let old := (SMap.look [] tm.ringRels m.off).filter fun x => !(x.party.id == g && x.scope == m.scope)
    { tm with ringRels := SMap.put tm.ringRels m.off (old ++ [r]) }) t

/-- The message leaves its sender. -/
def messageGone (g idx : Nat) (t : State) : State :=
  swept (groupPut g (fun gr => { gr with outbox := gr.outbox.eraseIdx idx }) t)

/-- The dependence count of the live task with a tag falls by one where it is not 0; the task follows what its counter released
(R104, R122). -/
def countLowered (ctx tag : Nat) (c : Clock) (t : State) : State :=
  match findTag t ctx tag with
  | some e => teamPut e (fun q => if q.wait = 0 then q else { q with wait := q.wait - 1, depClock := q.depClock.join c }) t
  | none => t

/-! Checked pages (R60, R128, R129) -/

/-- Causes of the group lead to its handler at once (R335). -/
structure Handles (w : View) (ds : List Detail) : Prop where
  handler : w.gr.inHandler = false ∧ w.gr.trap.tvec.getLsbD 15 = true
  drained : w.gr.lcnt = 0 ∧ w.gr.fcnt = 0
  plain : watched w.s w.t = false ∧ ∀ d ∈ mergeDetails ds, d.cause ≠ Cause.jnlDiv

/-- The step of one lane at the metadata of its line: R128's in phase mode, else VER and WTAG of a write. -/
def metaStepped (w : View) (reads : Bool) (a : LaneAcc) (t : State) : State :=
  if a.chk then
    match w.launch with
    | some l =>
      if l.phm then homePut (fun h => { h with
          info := SMap.put h.info (a.pa / 64) (raceStep (metaOf t a.pa) (BitVec.ofNat 24 w.t.tag) (l.phase.extractLsb' 0 16) reads).1 }) t
      else if reads then t else metaWritten a.pa w.t.tag t
    | none => t
  else t

/-- The parts of a load's lanes, read at the home slices one after another; parts on the same bytes take one value (R124). -/
def partsRead (g u n : Nat) (gr : Group) : List LaneAcc → List LaneAcc → State → List LaneAcc × State
  | _, [], t => ([], t)
  | fixed, a :: as, t =>
    match sameBytes fixed a with
    | some b =>
      let d := { a with data := b.data, poison := b.poison, stamps := b.stamps, done := true }
      let r := partsRead g u n gr (d :: fixed) as t
      (d :: r.1, r.2)
    | none =>
      let v := floorRaised g a.pa n (readAt (groupWho g ((t.group? g).getD gr) u) a.pa n t)
      let d := laneRead n a v
      let r := partsRead g u n gr (d :: fixed) as v
      (d :: r.1, r.2)

/-- A load of checked pages has been performed at its issue, every lane: its values are outstanding. -/
def checkedLoad (w : View) (acc : Access) (gr : Group) (ok : List LaneAcc) (t : State) : State :=
  let r := partsRead w.g w.gr.nextId acc.psize gr [] (splitParts acc ok) (ok.foldl (fun t a => metaStepped w true a t) t)
  w.onGroup (fun gr => { gr with
    nextId := gr.nextId + 1
    ls := gr.ls ++ [{ id := gr.nextId, unit := w.gr.nextId, acc := { acc with lanes := r.1 } }] }) r.2

/-- A store to checked pages has been performed at its issue, every lane. -/
def checkedStore (w : View) (acc : Access) (gr : Group) (ok : List LaneAcc) (t : State) : State :=
  (splitParts acc (topLanes ok)).foldl (fun t a =>
      stored w.g w.gr.nextId { acc with rels := gr.fences } ((t.group? w.g).getD gr) a t)
    (ok.foldl (fun t a => metaStepped w false a t) t)

/-- One lane of an atomic on checked pages, with the step at its line's metadata. -/
def checkedAtomLanes (w : View) (acc : Access) (op : AtomOp) (gr : Group) : List LaneAcc → State → State × List LaneAcc
  | [], t => (t, [])
  | a :: as, t =>
    let t1 := metaStepped w false a t
    let gr := (t1.group? w.g).getD gr
    let r := checkedAtomLanes w acc op gr as (atomPerformed w.g w.gr.nextId acc op gr a t1)
    (r.1, laneRead acc.size a (readAt (groupWho w.g gr w.gr.nextId) a.pa acc.size t1) :: r.2)

/-- An atomic on checked pages has been performed at its issue, every lane: its old values are outstanding. -/
def checkedAtom (w : View) (acc : Access) (op : AtomOp) (gr : Group) (ok : List LaneAcc) (t : State) : State :=
  let r := checkedAtomLanes w { acc with rels := gr.fences } op gr ok t
  w.onGroup (fun q => { q with
    nextId := q.nextId + 1
    ls := q.ls ++ [{ id := q.nextId, unit := w.gr.nextId, acc := { acc with lanes := r.2, rels := gr.fences } }] })
    (homePut (fun h => { h with locked := h.locked.filter (·.2 != w.g) }) r.1)

/-- The parts of a load meet room, and no access that R125 looks at, one after another. -/
def PartsFollow (g u n : Nat) (gr : Group) : List LaneAcc → List LaneAcc → State → Prop
  | _, [], _ => True
  | fixed, a :: as, t =>
    match sameBytes fixed a with
    | some b => PartsFollow g u n gr ({ a with data := b.data, poison := b.poison, stamps := b.stamps, done := true } :: fixed) as t
    | none =>
      let who := groupWho g ((t.group? g).getD gr) u
      let v := floorRaised g a.pa n (readAt who a.pa n t)
      Room t a.pa n ∧ Clean t who a.pa n false ∧ PartsFollow g u n gr (laneRead n a v :: fixed) as v

/-- So do the lanes of an atomic on checked pages. -/
def CheckedAtomFollows (w : View) (acc : Access) (op : AtomOp) (gr : Group) : List LaneAcc → State → Prop
  | [], _ => True
  | a :: as, t =>
    let t1 := metaStepped w false a t
    let gr := (t1.group? w.g).getD gr
    Room t1 a.pa acc.size ∧ Clean t1 (groupWho w.g gr w.gr.nextId) a.pa acc.size true ∧
      CheckedAtomFollows w acc op gr as (atomPerformed w.g w.gr.nextId acc op gr a t1)

/-- The lanes of an access reach checked pages at state `u`, and nothing holds it back. -/
structure ReachesChecked (s : State) (w : View) (info : Info) (acc : Access) (lanes ok : List LaneAcc) (gr : Group) (u : State) :
    Prop where
  reach : Reaches s w (withTraffic w.t.launch (32 * sectors acc.size (lanes.map (·.va))) (w.paid info)) acc lanes ok u
  checked : ok.any (·.chk) = true
  group : u.group? w.g = some gr
  free : readyNow u w.g (numbered gr) w.gr.nextId acc ok = true
  posted : (u.ctx w.t.ctx).msz = false

/-- A global access word whose lanes reach checked pages: where its task is in phase mode and a lane races, RACE leads to the
handler and nothing is performed; else it is performed whole, at once, and leaves `f` (R129). -/
def Checked (i : Instr) (info : View → Info) (acc : View → Access) (lanes : View → List LaneAcc)
    (f : View → Access → Group → List LaneAcc → State → State)
    (follows : View → Access → Group → List LaneAcc → State → Prop) (s : State) : Prop :=
  ∀ w ok gr u, view s = some w → Ready w (info w) → Acts w (info w) → PlainEnd w →
    ReachesChecked s w (info w) (acc w) (lanes w) ok gr u →
    let t := w.onGroup numbered u
    (checkedCauses u w.t (acc w) ok = [] → follows w (acc w) (numbered gr) ok t →
      exec i s = .next (w.next (f w (acc w) (numbered gr) ok t))) ∧
    (checkedCauses u w.t (acc w) ok ≠ [] → Handles w (checkedCauses u w.t (acc w) ok) →
      exec i s = .next (w.onGroup (handlerEntered (mergeDetails (checkedCauses u w.t (acc w) ok)) w.unitPc) (w.letGo t)))

/-! Engines (R89 to R91, R98 to R101, R105, R251, R278, R279, R326, R379) -/

/-- The request of a cluster's engine for current. -/
def currentAsk (s : State) (cl : Nat) (who : Asker) (amount : Nat) : Current :=
  { who := who, tile := cl % 4, amount := amount, since := (s.cluster cl).cyc }

/-- The Sluice grants a new request at once: it is what R329 grants next, which leaves the requests of `rest` waiting. -/
def Grantable (s : State) (cl : Nat) (who : Asker) (amount : Nat) (rest : List Current) : Prop :=
  let q := s.str (clusterString cl)
  q.holds who = false ∧ q.waits who = false ∧
    q.next [] (q.waiting ++ [currentAsk s cl who amount]) = some (currentAsk s cl who amount, rest)

def currentTaken (cl : Nat) (who : Asker) (amount : Nat) (rest : List Current) (t : State) : State :=
  strPut (clusterString cl) (fun q => q.grant (currentAsk t cl who amount) rest) t

/-- The party a point of an engine operation is moved for. -/
def engAt (cl id : Nat) (tm : Team) (l : Launch) (denied : List (Nat × Nat)) (clock : Clock) (p : Nat) : Eng :=
  { cl := cl, ctx := tm.ctx, rcd := l.rcd, tag := tm.tag, who := opWho id clock
    denied := (denied.filter fun d => d.1 = p).map (·.2) }

/-- A copy whose point `p` is done. -/
def CopyOp.moved (op : CopyOp) (p : Nat) (w : List (Nat × Nat)) (m : Met) (key : Nat) : CopyOp :=
  { op with
    next := nextPoint op.next op.taken p, retry := op.retry.filter (· != p)
    waiting := op.waiting.filter fun e => e.1 ≠ p
    missed := SMap.del op.missed p, denied := op.denied.filter fun d => d.1 ≠ p
    last := if key ≠ 0 && SMap.look 0 op.last key ≤ p then SMap.put op.last key p else op.last
    oobcnt := if m.oob then op.oobcnt + 1 else op.oobcnt
    poison := op.poison || m.poison
    layerData := op.layerData || m.layerData
    xfail := op.xfail || m.xfail
    xdet := if op.xdet = 0 then m.xdet else op.xdet
    reads := addBytes op.reads m.reads
    writes := addBytes op.writes w }

/-- A copy whose point `p` waits for the page it missed. -/
def CopyOp.held (op : CopyOp) (p : Nat) (wt : Wait) (page : Nat) : CopyOp :=
  { op with
    next := nextPoint op.next op.taken p, retry := op.retry.filter (· != p)
    waiting := (op.waiting.filter fun e => e.1 ≠ p) ++ [(p, wt)], missed := SMap.put op.missed p page }

/-- A fetcher's operation whose point `p` is done. -/
def MatOp.moved (op : MatOp) (p : Nat) (m : Met) : MatOp :=
  { op with
    next := nextPoint op.next op.taken p, retry := op.retry.filter (· != p)
    waiting := op.waiting.filter fun e => e.1 ≠ p
    missed := SMap.del op.missed p, denied := op.denied.filter fun d => d.1 ≠ p
    flags := op.flags ||| outcomeFlags m.poison m.layerData m.xfail }

/-- An operation counts in the batch of its class, which a waitb of it follows (R101, R122). -/
def opCounted (g cls id : Nat) (flags : BitVec 3) (clock : Clock) : State → State :=
  groupPut g fun gr => gr.setBatches cls ((gr.batches cls).complete id flags (clock.upTo (engParty id) 1))

/-- A copy leaves its cluster's queue, with the reservation it used. -/
def copyGone (cl : Nat) (op : CopyOp) (t : State) : State :=
  teamPut op.eid (fun tm => { tm with mat := tm.mat.leave op.id })
    (clusterPut cl (fun c => { c with copyq := c.copyq.filter fun o => o.id != op.id }) t)

/-- An operation leaves the matrix unit of its cluster. -/
def matGone (cl : Nat) (op : MatOp) (t : State) : State :=
  teamPut op.eid (fun tm => { tm with mat := tm.mat.leave op.id })
    (clusterPut cl (fun c => { c with mat := c.mat.filter fun o => o.id != op.id }) t)

/-- A present line leaves its slice and reads again as the memory below holds it. -/
def lineDiscarded (line : Nat) (t : State) : State :=
  match SMap.get? t.home.dirty line with
  | none => homePut (fun h => { h with clean := NSet.erase h.clean line }) t
  | some old =>
    (List.range 64).foldl (fun u i =>
      { u with
        mem := Memory.write u.mem (64 * line + i) (old.getD i 0)
        home := { u.home with marks := SMap.put u.home.marks (64 * line + i) (t.home.now + 1) } })
      { t with home := { t.home with now := t.home.now + 1, dirty := SMap.del t.home.dirty line } }

/-! Teams (R144, R150, R155, R285, R302, R335) -/

/-- A team was placed on a string: an idle wait ends, a gated string is asked to wake. -/
def stringWoken (i : Nat) (t : State) : State :=
  strPut i (fun q =>
    { q with idleSince := none, wakeAt := if q.gated && q.wakeAt.isNone then some (wakeTime t) else q.wakeAt }) t

/-- A neighbourhood may begin, and no origin fits it (R324). -/
def findsNoPlace (s : State) (i : Nat) (gd : Grid) : Bool :=
  gd.nbh && !gd.waits && (gd.teams.head?.bind s.team?).any fun t =>
    mayBegin s t gd && (rectOrigin s t gd.count fun c => !(keptCores s i).contains c).isNone

/-- Such neighbourhoods begin to wait (R324). -/
def waitsNoted (s : State) : State :=
  s.grids.foldl (fun t p => if findsNoPlace s p.1 p.2 then gridPut p.1 (fun gd => { gd with waits := true }) t else t) s

/-- A team has begun on a core, with its groups as they are at team begin: nothing is known of accesses to a scratchpad of
its entry before, and each group follows what the team's beginning is ordered after (R122, R285). -/
def begun (eid core : Nat) (tm : Team) (t : State) : State :=
  let cl := coreCluster core
  let a := corePut core (fun c => { c with recent := c.recent.map fun (k, gs) => (k, gs.filter fun g => groupTeam g ≠ eid) })
    (homePut (fun h => { h with past := SMap.delRange h.past (spKey eid 0) (2 ^ 20)
                                marks := SMap.delRange h.marks (spKey eid 0) (2 ^ 20) }) t)
  let b := if tm.tidx = 0 then gridPut tm.grid (fun gd => { gd with core0 := core }) a else a
  let u := stringWoken (clusterString cl) (launchPut tm.launch (fun l => { l with began := true }) (teamPut eid (fun q =>
    { q with state := .running, core := some core, sysWait := none, beginCyc := (b.cluster cl).cyc, charged := 0, barriers := []
             mat := freshMatrix b cl q, spad := [], spadPoison := [], boGlobal := [], boClock := [], ringRels := [] }) b))
  (List.range tm.shape.groups).foldl (fun v i =>
    acquired (32 * eid + i) 3 { v with
      groups := SMap.put v.groups (32 * eid + i) (freshGroup tm i b.home.now (knownAtBegin b tm)) }) u

/-- Slot 0 of a core with the words of an overlay; words beyond them read 0. -/
def slotZeroFilled (core : Nat) (key : Nat × Nat) (ws : List (W32 × Bool)) : State → State := corePut core fun c =>
  { c with
    imem := ws.zipIdx.foldl (fun m x => SMap.store 0 m (16384 * 0 + x.2) x.1.1) (SMap.delRange c.imem (16384 * 0) 16384)
    imemPoison := ws.zipIdx.foldl (fun m x => if x.1.2 then NSet.add m (16384 * 0 + x.2) else m)
      (SMap.delRange c.imemPoison (16384 * 0) 16384)
    tag0 := some key }

/-- What a retirement in a grid releases reaches the siblings that wait for it (R287). -/
def siblingsReleased (gid : Nat) (c : Clock) (t : State) : State :=
  match t.grid? gid with
  | some gd => t.grids.foldl (fun v p =>
      if waitsFor p.2 gd then gridPut p.1 (fun b => { b with start := b.start.join c }) v else v) t
  | none => t

/-- A team is DONE, with nothing left of its place; its grid, the siblings that wait for it and its launch take what its groups
have released (R122, R144, R287). -/
def retired (eid : Nat) (tm : Team) (t : State) : State :=
  let known := teamRelease t eid
  let u := tm.children.foldl (fun t c => gridPut c (fun gd => { gd with kept := false }) t)
    (teamPut eid (fun q =>
      { q.leaveCore with state := .done, al := 0, due := 0, heldTopup := 0, stop := .running, preempt := none, migrate := false
                         moving := false, children := [] }) t)
  launchPut tm.launch (fun l => { l with clock := l.clock.join known })
    (siblingsReleased tm.grid known (gridPut tm.grid (fun gd => { gd with clock := gd.clock.join known }) u))

/-- A starved team goes on. -/
def resumed (e : Nat) (tm : Team) (t : State) : State :=
  groupPut tm.pendingGroup (fun gr =>
    { gr with trap := { gr.trap with tcause := gr.trap.tcause &&& ~~~(1#64 <<< Cause.allowExh) } })
    (teamPut e (fun q => { q with state := q.state.fits, pendingCost := none }) t)

/-- The end of a topup: its status, and the group goes on. -/
def toppedUp (g dst st : Nat) : State → State :=
  groupPut g fun gr => { gr.setS dst (BitVec.ofNat 64 st) with hold := some .released }

/-- The commit of a launch's phase, without ordered atomics: held amounts go to the first root team, the greatest post is
the result, every group at phend goes on after an acquire at .dev, ordered after the members and the other groups (R122). -/
def phaseCommitted (launch : Nat) (l : Launch) (roots : List (Nat × Team)) (groups : List Nat) (s : State) : State :=
  let t := homePut (fun h => { h with ordered := h.ordered.filter fun c => c.launch ≠ launch }) s
  let t := match roots.head? with
    | some e => teamPut e.1 (fun q => q.receive l.held) t
    | none => t
  let t := launchPut launch (fun k =>
    { k with held := 0, posts := [], phase := k.phase + 1
             result := match lastPost k.posts with | some p => p.val | none => k.result }) t
  let t := roots.foldl (fun t e => teamPut e.1 (fun q => { q with spawnsInPhase := 0 }) t) t
  let known := roots.foldl (fun c e => c.join (teamRelease s e.1)) l.clock
  groups.foldl (fun t g => ordered g known (acquired g 3 (groupPut g (fun gr => { gr with hold := some .released }) t))) t

/-! Pre-emption (R342, R343, R345) -/

/-- The groups of a team leave its core as it is saved: a parked access leaves its slots (R36). -/
def groupsSaved (gs : List Nat) (core : Nat) (t : State) : State :=
  gs.foldl (fun t g => groupPut g Group.saved (currentReleased (coreCluster core) (.cres g)
    (match (t.group? g).bind (·.parked) with
      | some p => slotsLeft (p.waits.map (·.2)) t
      | none => t))) t

/-- A saved team is back on a core, with the amounts that reached it while it was away. -/
def restored (eid core slot : Nat) (tm : Team) (t : State) : State :=
  let cl := coreCluster core
  let u := teamPut eid (fun q =>
    { q with
      state := if q.pendingCost.isSome then .starved else .running
      core := some core, beginCyc := (t.cluster cl).cyc, moving := false, ov1 := none
      al := q.al + BitVec.ofNat 64 q.due, due := 0, sysWait := none
      mat := { q.mat with unit0 := (freeUnits (matrixTeams t cl) (unitsOf q.shape)).getD 0 } }) t
  let u := (t.teamGroups eid).foldl (fun u g => groupPut g (fun gr =>
    if gr.trap.tmode.getLsbD 3 && !gr.exited then { gr with preemptDue := some (if tm.moving then 1 else 0) } else gr) u) u
  let v := if tm.tidx = 0 then gridPut tm.grid (fun gd => { gd with core0 := core }) u else u
  stringWoken (clusterString cl) (ctxPut tm.ctx (fun c => { c with saveUsed := c.saveUsed.filter (· != slot) })
    (clusterPut cl (fun c => { c with crc := [] }) v))

/-- A group enters its handler: the causes recorded, TPC and TMASK saved, the mask and stack kept, the handler's first word. -/
def handlerBegun (ds : List Detail) (tpc : BitVec 15) (tmask : W32) (gr : Group) : Group :=
  let tr := gr.trap.record ds
  { gr with
    trap := { tr with tpc := tpc, tmask := tmask, pending := none, resume := none
                      handler := some { exm := gr.trap.resume.getD gr.exm, stack := gr.stack } }
    exm := 0xFFFFFFFF
    stack := []
    hints := []
    slot := tr.tvec.extractLsb' 14 1
    pc := tr.tvec.extractLsb' 0 14 }

/-! Units that do not issue, and the turn of a group (R142, R146, R187) -/

/-- An instruction whose meaning is one unit with the checks of `info`. -/
def IsUnit (i : Instr) (info : View → Info) : Prop :=
  ∃ eff : (s : State) → View → M s Flow, ∀ s, exec i s = runUnit s info (eff s)

/-- The unit reaches the comparison with AL outside handler mode and costs more than AL (R142). -/
structure Exhausts (w : View) (i : Info) : Prop where
  presents : mayPresent w = true
  free : slotFree w = true
  picked : isPicked w = true
  sound : preCauses w i = []
  landed : i.named.any w.gr.awaits = false
  own : i.waits = false
  current : needsCurrent w i = none
  outside : w.gr.inHandler = false
  exceeds : w.t.al.toNat < unitCost w i + i.moved

/-- The unit may present in its slot. -/
structure Candidate (w : View) : Prop where
  presents : mayPresent w = true
  free : slotFree w = true
  picked : isPicked w = true

/-- What the group of an exhausting unit and the team's ALPOL keep (R146). -/
def exhaustionMarked (w : View) (cost : Nat) (t : State) : State :=
  let d : Detail := { cause := Cause.allowExh, value := BitVec.ofNat 64 cost, al := w.t.al, word := w.firstWord }
  launchPut w.t.launch (fun l => { l with exh := true, inFlight := false })
    (teamPut w.eid (fun t => { t with exh := true })
      (groupPut w.g (fun gr => { gr with trap := { gr.trap.record [d] with tpc := w.unitPc }, hints := [] }) t))

/-- A group presents the word at its program counter, and can take its causes in its handler at once. -/
structure Presents (s : State) (w : View) : Prop where
  view : view s = some w
  may : mayPresent w = true
  whole : w.gr.preemptDue = none ∧ lacksCurrent w = none
  sound : wordPoisoned w = false

/-! The command processor (R309 to R316) -/

/-- A bit of QERR is set; the error vector is raised where it was clear. -/
def qerrRaised (f bit : Nat) (t : State) : State :=
  if (t.fn f).qerr.getLsbD bit then t
  else vectorRaised f 3 (fnPut f (fun r => { r with qerr := r.qerr ||| BitVec.ofNat 4 (2 ^ bit) }) t)

/-- A packet that begins is no command boundary (R318). -/
def packetBegun (key : Nat) : State → State := queuePut key fun q => { q with boundary := false }

/-- The queue in a slot has a packet that R310 allows, not a launch under way: `v`, read at state `u`. -/
def PacketAt (s : State) (slot key : Nat) (q : HostQueue) (v : Nat) (u : State) : Prop :=
  slotQueue s slot = some (key, q) ∧ q.hasPacket = true ∧ q.stopped = false ∧ (q.opened = none ∨ q.opened = some 0) ∧
    q.reclaim = false ∧ badPacket v = false ∧
    Gives (z := s) (sysNat q.ctx q.rcd (q.rbase + BitVec.ofNat 64 (64 * (q.rptr.toNat % 2 ^ q.logn))) 64) (packetBegun key s)
      (some v) u

/-- A system party's write of a place is performed at once. -/
def SysRoom (t : State) (a : LaneAcc) (n : Nat) : Prop := sysWaits t a = false ∧ Room t a.pa n

/-- The queue's record is reached from state `u`: RPTR's word stands at the address of `a`. -/
def RecordAt (s u : State) (q : HostQueue) (a : LaneAcc) (t : State) : Prop :=
  Gives (z := s) (sysXlate q.ctx q.rcd Kind.write (q.record + 32) true) u (.ok a) t ∧ SysRoom t a 4

/-- A packet is taken: RPTR moves, in the queue's record at `pa` too, nothing is open, and the queue is at a command
boundary. -/
def packetTaken (key : Nat) (rptr : W32) (pa : Nat) (t : State) : State :=
  queuePut key (fun q => { q with rptr := rptr, opened := none, boundary := true })
    (written sysParty pa (natBytes rptr.toNat 4) t)

/-- A launch is made, under the next fresh number. -/
def launchMade (l : Launch) (t : State) : State :=
  { t with fresh := t.fresh + 1, launches := SMap.put t.launches t.fresh l }

/-- The root grid of a launch, with its teams, not begun (R143). -/
def rootCreated (ctx launch : Nat) (d : SpawnDesc) (tag0 : Nat) (tickets : List LaneAcc) (t : State) : State :=
  let eids := (freeEntries t).take d.teams
  let teams := eids.zipIdx.foldl (fun m p =>
    let al := BitVec.ofNat 64 (d.grant / d.teams + if p.2 = 0 then d.grant % d.teams else 0)
    let tm : Team :=
      { ctx := ctx, tag := tag0 + p.2, ptag := 0, parent := none, grid := t.fresh, launch := launch, tidx := p.2
        shape := d.shape, wait := d.depw, al := al, share := al }
    SMap.put m p.1 tm) t.teams
  let gd : Grid :=
    { ctx := ctx, launch := launch, parent := none, tag0 := tag0, count := d.teams, teams := eids, nbh := d.nbh
      tickets := tickets.map fun a => { addr := a.pa, va := a.va.toNat }, regions := d.regions, path := [], order := t.fresh
      start := t.home.outside }
  { t with fresh := t.fresh + 1, grids := SMap.put t.grids t.fresh gd, teams := teams }

/-- A launch is over. -/
def launchOver (id : Nat) (l : Launch) (t : State) : State :=
  let u := launchPut id (fun l => { l with done := true, inFlight := false }) t
  let u := match l.consumer with
    | some nq => nodePut l.ctx nq (fun q => if q.live == some id then { q with live := none } else q) u
    | none => u
  swept (gridPut l.grid (fun gd => { gd with kept := false }) u)

/-! The host and the peers (R127, R369, R378) -/

/-- The host or a peer at the access it makes next. -/
def outsideAt (id : Nat) (s : State) : Who :=
  let c := s.home.outside
  { id := id, unit := s.fresh, clock := c, rels := [{ party := outsideParty id, scope := 4, clock := c.upTo id (s.fresh + 1) }] }

/-- A fresh number is taken. -/
def numberTaken (t : State) : State := { t with fresh := t.fresh + 1 }

/-- The host or a peer has read bytes at the home slice; what it read there, it follows. -/
def outsideSaw (w : Who) (pa n : Nat) (t : State) : State :=
  let u := readAt w pa n t
  let rs := releasesOf u ((List.range n).map fun i => stampOf u (pa + i))
  homePut (fun h => { h with outside := h.outside.join (followed (outsideParty w.id) 4 rs) }) u

/-- An answer has left for a peer. -/
def peerAnswered (r : PeerAccess) (data : Option (List Byte)) (poison : Bool) (t : State) : State :=
  { t with linkOut := t.linkOut ++ [.answer r.dev data poison] }

/-- An element written for a peer: the version of a checked line moves on, poisoned data poison their sector. -/
def peerWritten (w : Who) (r : PeerAccess) (a : LaneAcc) (bs : List Byte) (t : State) : State :=
  let u := written w a.pa bs t
  let u := if a.chk then homePut (fun h =>
    let m := (SMap.get? h.info (a.pa / 64)).getD {}
    { h with info := SMap.put h.info (a.pa / 64) { m with ver := m.ver + 1 } }) u else u
  if r.poison then homePut (fun h => { h with poison := PSet.add h.poison (a.pa / 32) }) u else u

/-! Boot (R370 to R373) -/

/-- BOOTSTAT.ERR and FAILIMG; the error vectors are raised where ERR changes. -/
def bootFailed (err img : Nat) (t : State) : State :=
  let u := bootPut (fun b => { b with err := err, failImg := img }) t
  if t.boot.err = err then u else errorsRaised u

/-- What a released image's unit does: the bring-up firmware sets partition 0's masks. -/
def imageReleased (i : BootImage) (t : State) : State := if i.index = 4 then devPut Device.broughtUp t else t

/-- The command-processor complex and every cluster are reset: what runs is gone, sensors and wear stay. -/
def complexReset (t : State) : State :=
  { t with
    cur := none, groups := [], teams := [], grids := [], launches := [], cores := [], colls := [], queues := [], doorbells := []
    home := { t.home with locked := [], ordered := [] }
    clusters := t.clusters.map fun (i, c) => (i, ({ dieTemp := c.dieTemp } : Cluster))
    strings := t.strings.map fun (i, q) => (i, ({ stress := q.stress, setClk := min 3000 q.ceiling } : Str))
    tables := t.tables.map fun (i, q) =>
      (i, { q with denied := [], slots := q.slots.map fun (j, sl) => (j, { sl with waiters := 0, sys := false }) })
    ctxs := t.ctxs.map fun (i, c) => (i, { c with saveUsed := [], queues := [], watched := false }) }

end Sys2Proof.Machine
end

