-- ==== Sys2Proof/Certificates/Slice0/Obligations.lean ====
section
/-! DEFINITION. The statements for the provers. -/

section Statements

open Sys2Proof Sys2Proof.Machine

/-- R228, R229, R174: the integer and bit words of class 0x1 give each active lane the stated function of its operands. -/
def Obligations.IntegerVectorWords : Prop :=
  BinInt .vaddI32 (fun a b => a + b) ∧ BinInt .vsubI32 (fun a b => a - b) ∧ BinInt .vmulI32 (fun a b => a * b) ∧
  AccInt .vmadI32 (fun a b d => a * b + d) ∧
  BinInt .vmulhiI32 (fun a b => BitVec.ofInt 32 (a.toInt * b.toInt / 2 ^ 32)) ∧
  BinInt .vmulhiN32 (fun a b => BitVec.ofNat 32 (a.toNat * b.toNat / 2 ^ 32)) ∧
  BinInt .vminI32 (fun a b => if a.toInt ≤ b.toInt then a else b) ∧
  BinInt .vmaxI32 (fun a b => if a.toInt ≤ b.toInt then b else a) ∧
  BinInt .vminN32 (fun a b => if a.toNat ≤ b.toNat then a else b) ∧
  BinInt .vmaxN32 (fun a b => if a.toNat ≤ b.toNat then b else a) ∧
  BinInt .vaddsI32 (fun a b => satS (a.toInt + b.toInt)) ∧ BinInt .vsubsI32 (fun a b => satS (a.toInt - b.toInt)) ∧
  BinInt .vaddsN32 (fun a b => satU ((a.toNat : Int) + b.toNat)) ∧
  BinInt .vsubsN32 (fun a b => satU ((a.toNat : Int) - b.toNat)) ∧
  BinInt .vand (fun a b => a &&& b) ∧ BinInt .vor (fun a b => a ||| b) ∧ BinInt .vxor (fun a b => a ^^^ b) ∧
  BinInt .vandn (fun a b => a &&& ~~~b) ∧ BinInt .vshl (fun a b => a <<< (b.toNat % 32)) ∧
  BinInt .vshr (fun a b => a >>> (b.toNat % 32)) ∧ BinInt .vsar (fun a b => a.sshiftRight (b.toNat % 32)) ∧
  UnInt .vpopc (fun a => BitVec.ofNat 32 (popCount a.toNat 32)) ∧
  UnInt .vclz (fun a => BitVec.ofNat 32 (leadingZeros a.toNat 32)) ∧
  UnInt .vbrev (fun a => BitVec.ofNat 32 (reverseBits a.toNat 32)) ∧
  BinInt .vbfx bitExtract ∧ AccInt .vbfi bitInsert ∧
  BinInt .vaddI16x2 (halves fun a b => a + b) ∧ BinInt .vsubI16x2 (halves fun a b => a - b) ∧
  AccInt .vdot4I8 (byteDot (signedOf 8)) ∧ AccInt .vdot4N8 (byteDot fun x => x)

/-- R227, R174: the floating-point words of class 0x0 give each active lane the rounded result, where no lane raises a cause of
R164; the all-zero word is the ILL_OP of R180. -/
def Obligations.FloatVectorWords : Prop :=
  (∀ s vd sa sb, FloatWrites (.vaddF32 vd sa sb)
    (fun w => { floatInfo (operandsOk (.vaddF32 vd sa sb)) .f32 vd [sa, sb] false w with
      zeroWord := vd == 0 && sa == 0 && sb == 0 }) vd false (fun w l => binElems w .f32 sa sb Machine.Num.add l) s) ∧
  BinFloat .vsubF32 .f32 Machine.Num.sub ∧ BinFloat .vmulF32 .f32 (fun _ => Machine.Num.mul) ∧ AccFloat .vfmaF32 .f32 (fmaElems · .f32) ∧
  BinFloat .vminF32 .f32 (fun _ => Machine.Num.minF) ∧ BinFloat .vmaxF32 .f32 (fun _ => Machine.Num.maxF) ∧
  BinFloat .vaddF16x2 .f16 Machine.Num.add ∧ BinFloat .vsubF16x2 .f16 Machine.Num.sub ∧ BinFloat .vmulF16x2 .f16 (fun _ => Machine.Num.mul) ∧
  AccFloat .vfmaF16x2 .f16 (fmaElems · .f16) ∧ BinFloat .vminF16x2 .f16 (fun _ => Machine.Num.minF) ∧
  BinFloat .vmaxF16x2 .f16 (fun _ => Machine.Num.maxF) ∧
  BinFloat .vaddB16x2 .b16 Machine.Num.add ∧ BinFloat .vsubB16x2 .b16 Machine.Num.sub ∧ BinFloat .vmulB16x2 .b16 (fun _ => Machine.Num.mul) ∧
  AccFloat .vfmaB16x2 .b16 (fmaElems · .b16) ∧
  BinFloat .vaddF64 .f64 Machine.Num.add ∧ BinFloat .vsubF64 .f64 Machine.Num.sub ∧ BinFloat .vmulF64 .f64 (fun _ => Machine.Num.mul) ∧
  AccFloat .vfmaF64 .f64 (fmaElems · .f64) ∧ BinFloat .vminF64 .f64 (fun _ => Machine.Num.minF) ∧
  BinFloat .vmaxF64 .f64 (fun _ => Machine.Num.maxF) ∧
  AccFloat .vdot2F16x2 .f16 (fun w vd sa sb l => dotLane w vd l (dotProducts w .f16 sa sb l)) ∧
  AccFloat .vdot2B16x2 .b16 (fun w vd sa sb l => dotLane w vd l (dotProducts w .b16 sa sb l)) ∧
  AccFloat .vdot4K8 .int (fun w vd sa sb l => dotLane w vd l
    (List.zipWith Machine.Num.mul (k8Nums w.mod.nega w.mod.absa (readSpec w .int sa l))
      (k8Nums w.mod.negb w.mod.absb (readSpec w .int sb l)))) ∧
  ∀ s vd sa, FloatWrites (.vfracF32 vd sa) (floatInfo (operandsOk (.vfracF32 vd sa)) .f32 vd [sa] false) vd false
    (fun w l => roundElems w .f32 ((operandNums w .f32 false (readSpec w .f32 sa l)).map fracNum)) s

/-- R230, R231: vcvt converts each active lane and, with .ef, updates the residue in q; vrnd.f32 rounds to an integer; both
where no lane raises a cause of R164. -/
def Obligations.ConversionWords : Prop :=
  (∀ s vd sa dt st d t, NumType.ofCode dt = some d → NumType.ofCode st = some t →
    let results (w : View) := w.lanes.map fun l => (l, cvtLane w d t sa l)
    WritesIf (.vcvt vd sa dt st) (cvtInfo vd sa dt st)
      (fun w => floatCauses w ((results w).map fun r =>
        (r.1, { bits := r.2.1.bits, ovf := r.2.1.ovf, invalid := r.2.1.invalid })) = [])
      (fun w gr =>
        let gr := (results w).foldl (fun gr r => match r.2.2 with
          | some q => gr.setQ w.mod.qidx.toNat r.1 q
          | none => gr) gr
        if d == .f64 then writePair (destReg w vd) ((results w).map fun r => (r.1, r.2.1.bits)) gr
        else writeResult (destReg w vd)
          ((results w).map fun r => (r.1, BitVec.ofNat 32 (placeNarrow d r.2.1.bits))) gr) s) ∧
  ∀ s vd sa, FloatWrites (.vrndF32 vd sa) (fun w => vecInfo w (operandsOk (.vrndF32 vd sa)) .f32 vd [sa] modFloat) vd false
    (fun w l => roundElems w .f32 ((operandNums w .f32 false (readSpec w .f32 sa l)).map (Machine.Num.roundInt w.rnd))) s

/-- R231, R232: moves, lane numbers, packing and lane movement. -/
def Obligations.MoveWords : Prop :=
  (∀ vd sa, Moves (.vmov vd sa) vd [sa] fun w l => laneInt w sa l) ∧
  (∀ s on sa, Writes (.vmovo on sa)
    (fun w => { reads := specRegs .int sa, writes := [movoReg w on], ok := operandsOk (.vmovo on sa) && (!w.mod.odst || on == 0)
                imm := immUse [sa], mods := modDest, pipe := some false })
    (fun w => writeResult (movoReg w on) (laneValues w fun l => laneInt w sa l)) s) ∧
  (∀ vd, Moves (.vlaneid vd) vd [] fun _ l => BitVec.ofNat 32 l) ∧
  (∀ vd sa sb, Moves (.vpack vd sa sb) vd [sa, sb] fun w l =>
    BitVec.ofNat 32 (readSpec w .int sb l % 65536 * 65536 + readSpec w .int sa l % 65536)) ∧
  LaneMove .vlane (fun _ n => n) ∧ LaneMove .vxswap (fun l n => Nat.xor l n) ∧
  LaneMove .vup (fun l n => if n ≤ l then l - n else l) ∧
  LaneMove .vdown (fun l n => if l + n ≤ 31 then l + n else l)

/-- R176, R177, R233: scans and reductions over the active lanes, where no rounding of them raises FP_OVF. -/
def Obligations.ScanReduceWords : Prop :=
  Scans .vscanI32 .int modDest (fun _ a b => a + b) (fun _ _ _ => false) ∧
  Scans .vscanF32 .f32 modRound addCodes addOverflows ∧
  Reduces .vredAddI32 .int modDest (fun _ a b => a + b) (fun _ _ _ => false) ∧
  Reduces .vredAddF32 .f32 modRound addCodes addOverflows ∧
  Reduces .vredMaxF32 .f32 modDest (fun _ => codesBy Machine.Num.maxF) (fun _ _ _ => false) ∧
  Reduces .vredMinF32 .f32 modDest (fun _ => codesBy Machine.Num.minF) (fun _ _ _ => false)

/-- R234: vballot sets the bits of the active lanes whose value is not zero; vcompress packs the lanes of EXM AND k from lane 0
up; vexpand spreads them back. -/
def Obligations.BallotCompressExpand : Prop :=
  (∀ s sd sa, Writes (.vballot sd sa)
    (fun _ => { reads := specRegs .int sa, writes := [.s sd.toNat], ok := operandsOk (.vballot sd sa), imm := immUse [sa]
                mods := modZero, pipe := some false })
    (fun w gr => gr.setS sd.toNat ((maskOf (w.lanes.filter fun l => readSpec w .int sa l ≠ 0)).zeroExtend 64)) s) ∧
  (∀ s vd sa k, Writes (.vcompress vd sa k)
    (selInfo (operandsOk (.vcompress vd sa k)) vd sa k fun w => (selLanes w k).map fun l => (l, l))
    (fun w => writeResult (destReg w vd)
      ((List.range (selLanes w k).length).zip ((selLanes w k).map fun l => laneInt w sa l))) s) ∧
  ∀ s vd sa k, Writes (.vexpand vd sa k)
    (selInfo (operandsOk (.vexpand vd sa k)) vd sa k fun w => (List.range (selLanes w k).length).zip (selLanes w k))
    (fun w => writeResult (destReg w vd)
      ((selLanes w k).zip ((List.range (selLanes w k).length).map fun i => laneInt w sa i))) s

/-- R235, R236: compares, tests, classes and selects. -/
def Obligations.CompareWords : Prop :=
  CmpFloat .vcmpF32 .f32 ∧ CmpFloat .vcmpF64 .f64 ∧ CmpInt .vcmpI32 BitVec.slt ∧ CmpInt .vcmpN32 BitVec.ult ∧
  (∀ s vd sa, Writes (.vclsF32 vd sa) (fun w => vecInfo w (operandsOk (.vclsF32 vd sa)) .f32 vd [sa] modClass)
    (fun w => writeResult (destReg w vd) (laneValues w fun l =>
      classBits (signMods w.mod.nega w.mod.absa 32 (readSpec w .f32 sa l)))) s) ∧
  (∀ s k sa sb, Writes (.vtest k sa sb) (maskInfo (operandsOk (.vtest k sa sb)) .int k sa sb modZero 0)
    (fun w gr => gr.setK k.toNat (maskOf (w.lanes.filter fun l => laneInt w sa l &&& laneInt w sb l != 0))) s) ∧
  Selects .vselK0 0 ∧ Selects .vselK1 1 ∧ Selects .vselK2 2 ∧ Selects .vselK3 3 ∧
  Selects .vselK4 4 ∧ Selects .vselK5 5 ∧ Selects .vselK6 6 ∧ Selects .vselK7 7

/-- R237, R239: an SFU word leaves its result outstanding and the group goes on, or with FOE = 1 waits for it; the special
operands of R239 give the table's results, whatever the bound, and the exact results beyond the table are as listed. The values
that R238 only bounds are free (log entry 8); that the group waits at its word for its own result alone is log entry 58. -/
def Obligations.SfuWords : Prop :=
  let gives (fn : SfuFn) (f : Fmt) (p : Machine.Num → Prop) (y : Machine.Num) : Prop := ∀ num sat code, p (Machine.Num.decode f code) →
    sfuElem fn f num sat code = { bits := Machine.Num.round f .rne y }
  let zero (neg : Bool) (x : Machine.Num) : Prop := ∃ e, x = .fin neg 0 e
  let below (x : Machine.Num) : Prop := ∃ m e, 0 < m ∧ x = .fin true m e
  let one : Machine.Num := .fin false 1 0
  let row (fn : SfuFn) (f : Fmt) (ninf nzero pzero pinf : Machine.Num) : Prop :=
    gives fn f (· = .inf true) ninf ∧ gives fn f (zero true) nzero ∧ gives fn f (zero false) pzero ∧
    gives fn f (· = .inf false) pinf ∧ gives fn f (· = .nan) .nan
  let ends (fn : SfuFn) (f : Fmt) : Prop := gives fn f below .nan
  SfuWord .frcpF32 .rcp .f32 0x00 ∧ SfuWord .frsqF32 .rsq .f32 0x01 ∧ SfuWord .fsqrtF32 .sqrt .f32 0x02 ∧
  SfuWord .fexp2F32 .exp2 .f32 0x03 ∧ SfuWord .flog2F32 .log2 .f32 0x04 ∧ SfuWord .fsinpF32 .sinp .f32 0x05 ∧
  SfuWord .fcospF32 .cosp .f32 0x06 ∧ SfuWord .ftanhF32 .tanh .f32 0x07 ∧ SfuWord .fsigmF32 .sigm .f32 0x08 ∧
  SfuWord .frcpF64 .rcp .f64 0x09 ∧ SfuWord .frsqF64 .rsq .f64 0x0A ∧ SfuWord .fexp2F16x2 .exp2 .f16 0x0B ∧
  SfuWord .ftanhF16x2 .tanh .f16 0x0C ∧
  (∀ f ∈ [Fmt.f32, Fmt.f64],
    row .rcp f (.zero true) (.inf true) (.inf false) (.zero false) ∧
    row .rsq f .nan (.inf true) (.inf false) (.zero false) ∧ ends .rsq f) ∧
  row .sqrt .f32 .nan (.zero true) (.zero false) (.inf false) ∧ ends .sqrt .f32 ∧
  (∀ f ∈ [Fmt.f32, Fmt.f16],
    row .exp2 f (.zero false) one one (.inf false) ∧ row .tanh f (.fin true 1 0) (.zero true) (.zero false) one) ∧
  row .log2 .f32 .nan (.inf true) (.inf true) (.inf false) ∧ ends .log2 .f32 ∧
  row .sinp .f32 .nan (.zero true) (.zero false) .nan ∧ row .cosp .f32 .nan one one .nan ∧
  row .sigm .f32 (.zero false) (.fin false 1 (-1)) (.fin false 1 (-1)) one ∧
  (∀ neg, gives .sinp .f32 (fun x => ∃ m k : Nat, 0 < m ∧ (x = .fin neg m k ∨ x = .fin neg (m * 2 ^ k) (-(k : Int)))) (.zero neg)) ∧
  gives .cosp .f32 (fun x => ∃ neg, ∃ n k : Nat, x = .fin neg ((2 * n + 1) * 2 ^ k) (-(k : Int) - 1)) (.zero false) ∧
  gives .log2 .f32 (fun x => ∃ k : Nat, x = .fin false (2 ^ k) (-(k : Int))) (.zero false) ∧
  (∀ num sat code m e, Machine.Num.decode .f32 code = .fin false m e → ¬Machine.Num.lt (.fin false m e) (.fin false 128 0) →
    sfuElem .exp2 .f32 num sat code =
      if sat then { bits := Fmt.f32.maxBits false } else { bits := Fmt.f32.infBits false, ovf := true }) ∧
  gives .exp2 .f32 (fun x => ∃ m e, x = .fin true m e ∧ Machine.Num.lt x (.fin true 150 0)) (.zero false)

/-- R210, R212: the scalar words of two and of one register. -/
def Obligations.ScalarRegisterWords : Prop :=
  Scalar2 .add (fun a b => a + b) ∧ Scalar2 .sub (fun a b => a - b) ∧ Scalar2 .mul (fun a b => a * b) ∧
  Scalar2 .mulhiI (fun a b => BitVec.ofInt 64 (a.toInt * b.toInt / 2 ^ 64)) ∧
  Scalar2 .mulhiN (fun a b => BitVec.ofNat 64 (a.toNat * b.toNat / 2 ^ 64)) ∧
  Scalar2 .and (fun a b => a &&& b) ∧ Scalar2 .or (fun a b => a ||| b) ∧ Scalar2 .xor (fun a b => a ^^^ b) ∧
  Scalar2 .andn (fun a b => a &&& ~~~b) ∧ Scalar2 .shl (fun a b => a <<< (b.toNat % 64)) ∧
  Scalar2 .shr (fun a b => a >>> (b.toNat % 64)) ∧ Scalar2 .sar (fun a b => a.sshiftRight (b.toNat % 64)) ∧
  Scalar2 .minI (fun a b => if b.slt a then b else a) ∧ Scalar2 .maxI (fun a b => if a.slt b then b else a) ∧
  Scalar2 .minN (fun a b => if b.ult a then b else a) ∧ Scalar2 .maxN (fun a b => if a.ult b then b else a) ∧
  Scalar2 .sltI (fun a b => if a.slt b then 1 else 0) ∧ Scalar2 .sltN (fun a b => if a.ult b then 1 else 0) ∧
  Scalar2 .seq (fun a b => if a == b then 1 else 0) ∧ (∀ sh, Scalar2 (.lea · · · sh) (fun a b => a + b <<< sh.toNat)) ∧
  Scalar1 .mov (fun a => a) ∧ Scalar1 .clz (fun a => BitVec.ofNat 64 (leadingZeros a.toNat 64)) ∧
  Scalar1 .popc (fun a => BitVec.ofNat 64 (popCount a.toNat 64)) ∧
  Scalar1 .brev (fun a => BitVec.ofNat 64 (reverseBits a.toNat 64)) ∧
  Scalar1 .sext32 (fun a => (a.extractLsb' 0 32).signExtend 64) ∧
  Scalar1 .zext32 (fun a => (a.extractLsb' 0 32).zeroExtend 64)

/-- R213: the scalar words with an immediate. -/
def Obligations.ScalarImmediateWords : Prop :=
  ScalarImm .addi (fun a m => a + m) ∧ ScalarImm .andi (fun a m => a &&& m) ∧ ScalarImm .ori (fun a m => a ||| m) ∧
  ScalarImm .xori (fun a m => a ^^^ m) ∧ ScalarImm .muli (fun a m => a * m) ∧
  ShiftImm .shli (fun a n => a <<< n) ∧ ShiftImm .shri (fun a n => a >>> n) ∧ ShiftImm .sari (fun a n => a.sshiftRight n) ∧
  ScalarImm .sltiI (fun a m => if a.slt m then 1 else 0) ∧ ScalarImm .sltiN (fun a m => if a.ult m then 1 else 0) ∧
  ScalarImm .seqi (fun a m => if a == m then 1 else 0) ∧
  ∀ s d imm, Writes (.li d imm) (fun _ => scalarInfo [] [d.toNat] true .simm) (fun w gr => gr.setS d.toNat (w.immS imm)) s

/-- R211: division rounds toward zero and the remainder takes the sign of the dividend, with −2^63 by −1 as R211 gives it; a
zero divisor raises DIV0 at the word, after its charge, and writes no register. -/
def Obligations.DivisionWords : Prop :=
  let div0 : Detail := { cause := Cause.div0 }
  let traps (i : BitVec 6 → BitVec 6 → BitVec 6 → Instr) : Prop := ∀ s d a b,
    IssuesIf (i d a b) (fun _ => scalarInfo [a.toNat, b.toNat] [d.toNat]) (fun w => w.gr.rs b.toNat = 0 ∧ Handles w [div0])
      (fun w t => w.onGroup (handlerEntered [div0] w.unitPc) (w.letGo t)) s
  Divides .divI (fun a b => BitVec.ofInt 64 (Int.tdiv a.toInt b.toInt)) ∧ Divides .divN (fun a b => a / b) ∧
  Divides .remI (fun a b => BitVec.ofInt 64 (Int.tmod a.toInt b.toInt)) ∧ Divides .remN (fun a b => a % b) ∧
  traps .divI ∧ traps .divN ∧ traps .remI ∧ traps .remN

/-- R214, R215: the words over masks and EXM. -/
def Obligations.MaskWords : Prop :=
  Mask2 .kand (fun a b => a &&& b) ∧ Mask2 .kor (fun a b => a ||| b) ∧ Mask2 .kxor (fun a b => a ^^^ b) ∧
  Mask2 .kandn (fun a b => a &&& ~~~b) ∧
  (∀ s d a, Writes (.knot d a) (fun _ => maskWordInfo [.k a.toNat] [.k d.toNat])
    (fun w gr => gr.setK d.toNat (~~~(w.gr.rk a.toNat))) s) ∧
  MaskToScalar .kpopc (fun m => BitVec.ofNat 64 (popCount m.toNat 32)) ∧
  MaskToScalar .kffs (fun m => BitVec.ofNat 64 ((lowest? 32 (m.getLsbD ·)).getD 32)) ∧
  MaskToScalar .ktos (fun m => m.zeroExtend 64) ∧
  (∀ s d a, Writes (.stok d a) (fun _ => maskWordInfo [.s a.toNat] [.k d.toNat])
    (fun w gr => gr.setK d.toNat ((w.gr.rs a.toNat).extractLsb' 0 32)) s) ∧
  (∀ s d, Writes (.exmrd d) (fun _ => maskWordInfo [] [.s d.toNat] .acts)
    (fun w gr => gr.setS d.toNat (w.exm.zeroExtend 64)) s) ∧
  ∀ s a, Writes (.exmwr a) (fun _ => maskWordInfo [.s a.toNat] [])
    (fun w gr => gr.setExm ((w.gr.rs a.toNat).extractLsb' 0 32 &&& gr.bound)) s

/-- R216 to R218: branches go to their target where their condition holds and to the next word elsewhere; call also writes s63
with the word offset after it. -/
def Obligations.BranchWords : Prop :=
  (∀ off, Branches (.br off) (controlInfo [] []) (fun _ => true) fun w => relTarget w off.toInt) ∧
  (∀ r off, Branches (.brz r off) (controlInfo [.s r.toNat] []) (fun w => w.gr.rs r.toNat == 0) fun w =>
    relTarget w off.toInt) ∧
  (∀ r off, Branches (.brnz r off) (controlInfo [.s r.toNat] []) (fun w => w.gr.rs r.toNat != 0) fun w =>
    relTarget w off.toInt) ∧
  (∀ k off, Branches (.brany k off) (controlInfo [.k k.toNat] [] [] .acts) (fun w => w.gr.rk k.toNat &&& w.exm != 0) fun w =>
    relTarget w off.toInt) ∧
  (∀ k off, Branches (.brall k off) (controlInfo [.k k.toNat] [] [] .acts)
    (fun w => w.gr.rk k.toNat &&& w.exm == w.exm) fun w => relTarget w off.toInt) ∧
  (∀ r, Branches (.ret r) (controlInfo [.s r.toNat] []) (fun _ => true) fun w => ((w.gr.rs r.toNat).toNat : Int)) ∧
  (∀ r off, Branches (.brx r off) (controlInfo [.s r.toNat] []) (fun _ => true) fun w =>
    relTarget w off.toInt + (w.gr.rs r.toNat).toInt) ∧
  ∀ off s w, view s = some w → Ready w (controlInfo [] [.s 63]) → NoStep w →
    0 ≤ relTarget w off.toInt → relTarget w off.toInt < 16384 →
    exec (.call off) s = .next (w.at w.gr.slot (BitVec.ofNat 14 (relTarget w off.toInt).toNat)
      (w.onGroup (fun gr => gr.setS 63 (BitVec.ofNat 64 (w.wordPc + 1))) (w.paid (controlInfo [] [.s 63]))))

/-- R219, R220: mif, melse, mend and mwhile change EXM and the mask stack and may transfer. -/
def Obligations.RegionWords : Prop :=
  (∀ k off, Regions (.mif k off) (some k) (fun gr => gr.stack.length == 64)
    (fun gr => (gr.exm &&& gr.rk k.toNat,
      { outer := gr.exm, alt := gr.exm &&& ~~~(gr.rk k.toNat), els := false } :: gr.stack)) (· == 0) off) ∧
  (∀ off, Regions (.melse off) none (fun gr => match gr.stack with | e :: _ => e.els | [] => true)
    (fun gr => match gr.stack with
      | e :: es => (e.alt, { e with els := true } :: es)
      | [] => (gr.exm, [])) (· == 0) off) ∧
  Regions .mend none (fun gr => gr.stack.isEmpty)
    (fun gr => match gr.stack with
      | e :: es => (e.outer, es)
      | [] => (gr.exm, [])) (fun _ => false) 0 ∧
  ∀ k off, Regions (.mwhile k off) (some k) (fun gr => gr.stack.isEmpty)
    (fun gr => (gr.exm &&& gr.rk k.toNat, gr.stack)) (· != 0) off

/-- R222 to R224: nop does nothing; wait goes on where its counts have fallen and holds its group elsewhere; exit ends its
group: what was kept for its word is let go, and where no barrier of the team has it among its arrivals nothing else of the
machine changes but its charge. -/
def Obligations.IdleAndExitWords : Prop :=
  (∀ s, IssuesIf .exit (fun _ => controlInfo [] [])
    (fun w => w.gr.cres = none ∧ (∃ l, w.s.launch? w.t.launch = some l ∧ l.journal ≠ 2) ∧
      ∀ b, b < 16 → w.g ∉ (barrierOf w.s w.eid b).arrived ∧
        ((barrierOf w.s w.eid b).count = 0 → (barrierOf w.s w.eid b).arrived = []))
    (fun w t => w.onGroup (fun gr =>
      { gr with
        exited := true, hold := none, parked := none, hints := [], stack := [], cres := none
        trap := { gr.trap with pending := none, handler := none, resume := none }
        ls := gr.ls.map fun e => { e with discard := true } }) (w.letGo t)) s) ∧
  (∀ s, CompletesIf .nop (fun _ => controlInfo [] []) (fun _ => True) (fun _ t => t) s) ∧
  (∀ s sel n, CompletesIf (.wait sel n) (fun _ => controlInfo [] [] [] .ignores (sel.ult 3))
    (fun w => w.gr.countsFallen sel.toNat n.toNat = true) (fun _ t => t) s) ∧
  ∀ s sel n w, view s = some w → Ready w (controlInfo [] [] [] .ignores (sel.ult 3)) →
    w.gr.countsFallen sel.toNat n.toNat = false →
    exec (.wait sel n) s = .next (w.onGroup (fun gr => { gr with hold := some (.counts sel.toNat n.toNat) })
      (w.paid (controlInfo [] [] [] .ignores (sel.ult 3))))

/-- R240, R241, R244: a global load whose lanes reach memory outside checked pages is outstanding in the group's load set;
nothing else of the machine changes but its charge, its traffic and what translation leaves. The traffic counts at issue (log
entry 60), a 128-bit lane has two entries (log entry 65), and with MDBG.MSZ the group stays at the word (log entry 67). -/
def Obligations.GlobalLoads : Prop :=
  Loads .ldB8 false 1 ∧ Loads .ldI8 true 1 ∧ Loads .ldB16 false 2 ∧ Loads .ldI16 true 2 ∧ Loads .ldB32 false 4 ∧
  Loads .ldB64 false 8 ∧ Loads .ldB128 false 16 ∧
  ∀ s vd sb vo ord, Queues (.ldS64 vd sb vo ord)
    (fun w => { reads := .s sb.toNat :: specRegs .int vo, writes := [.s vd.toNat], ok := operandsOk (.ldS64 vd sb vo ord)
                mods := modScope, surcharge := sectors 8 [scalarAddr w sb vo] })
    (fun w => { kind := .load false, size := 8, dest := .scalar vd.toNat, acq := ordAcq ord, scope := w.scope, one := true })
    (fun w => [{ lane := w.lanes.headD 0, va := scalarAddr w sb vo }]) withLoad s

/-- R240, R241, R243, R244: a global store whose lanes reach memory outside checked pages waits in the group's store queue, its
data fixed. The traffic counts at issue (log entry 60), each lane has an entry, a 128-bit lane two (log entry 65), and with
MDBG.MSZ the group stays at the word (log entry 67). -/
def Obligations.GlobalStores : Prop :=
  Stores .stB8 1 ∧ Stores .stB16 2 ∧ Stores .stB32 4 ∧ Stores .stB64 8 ∧ Stores .stB128 16 ∧
  (∀ s vd sb vo ord, Queues (.stS64 vd sb vo ord)
    (fun w => { reads := .s sb.toNat :: specRegs .int vo ++ [.s vd.toNat], ok := operandsOk (.stS64 vd sb vo ord)
                mods := modScope, surcharge := sectors 8 [scalarAddr w sb vo] })
    (fun w => { kind := .store, size := 8, rel := ordRel ord, scope := w.scope, one := true })
    (fun w => [{ lane := w.lanes.headD 0, va := scalarAddr w sb vo, data := (w.gr.rs vd.toNat).toNat }]) withStore s) ∧
  ∀ s vd sb vo ord, Queues (.cstB32 vd sb vo ord)
    (fun w => { reads := .s sb.toNat :: specRegs .int vo ++ [.v vd.toNat], ok := operandsOk (.cstB32 vd sb vo ord)
                mods := modScope, surcharge := sectors 4 ((cstLanes w vd sb vo).map (·.va)) })
    (fun w => { kind := .store, size := 4, rel := ordRel ord, scope := w.scope, aon := true })
    (fun w => cstLanes w vd sb vo) withStore s

/-- R240, R242: a global atomic whose lanes reach memory outside checked pages, and outside replay, waits in the store queue,
and its old values are outstanding. The traffic counts at issue (log entry 60), the lanes of one address share an entry (log
entry 65), and with MDBG.MSZ the group stays at the word (log entry 67). -/
def Obligations.GlobalAtomics : Prop :=
  Atomics .atomAddI32 .addI 4 ∧ Atomics .atomAddI64 .addI 8 ∧ Atomics .atomAddF32 .addF32 4 ∧
  Atomics .atomMinI32 .minI 4 ∧ Atomics .atomMaxI32 .maxI 4 ∧ Atomics .atomMinN32 .minN 4 ∧ Atomics .atomMaxN32 .maxN 4 ∧
  Atomics .atomAndB32 .and 4 ∧ Atomics .atomOrB32 .or 4 ∧ Atomics .atomXorB32 .xor 4 ∧
  Atomics .atomExchB32 .exch 4 ∧ Atomics .atomExchB64 .exch 8 ∧ Atomics .atomCasB32 .cas 4 ∧ Atomics .atomCasB64 .cas 8

/-- R60, R128, R129, R241, R242: a load, a store or an atomic whose lanes reach checked pages. In a phase-mode task the check of
every lane comes first: where a lane races, RACE leads to the handler and nothing is performed or written. Else the word is
performed whole at its issue, with the step of R128 at the metadata of each lane's line; in a task outside phase mode nothing is
checked, and VER and WTAG of a written line move on. The step itself is as R128 tabulates it. That such words are performed
whole at issue is log entry 64. -/
def Obligations.CheckedAccesses : Prop :=
  let loadFollows (w : View) (acc : Access) (gr : Group) (ok : List LaneAcc) (t : State) : Prop :=
    PartsFollow w.g w.gr.nextId acc.psize gr [] (splitParts acc ok) (ok.foldl (fun t a => metaStepped w true a t) t)
  let storeFollows (w : View) (acc : Access) (gr : Group) (ok : List LaneAcc) (t : State) : Prop :=
    Follows w.g w.gr.nextId acc.psize gr true (splitParts acc (topLanes ok))
      (fun a t => stored w.g w.gr.nextId { acc with rels := gr.fences } ((t.group? w.g).getD gr) a t)
      (ok.foldl (fun t a => metaStepped w false a t) t)
  let loads (i : BitVec 7 → BitVec 6 → BitVec 8 → BitVec 2 → Instr) (signed : Bool) (size : Nat) : Prop :=
    ∀ s vd sb vo ord, Checked (i vd sb vo ord)
      (fun w => globalInfo w (operandsOk (i vd sb vo ord)) sb vo [] (dataRegs vd.toNat size) size 0)
      (fun w => { kind := .load signed, size := size, dest := .vec vd.toNat, acq := ordAcq ord, scope := w.scope })
      (fun w => (globalAddrs w sb vo).map fun a => { lane := a.1, va := a.2 })
      checkedLoad loadFollows s
  let stores (i : BitVec 7 → BitVec 6 → BitVec 8 → BitVec 2 → Instr) (size : Nat) : Prop :=
    ∀ s vd sb vo ord, Checked (i vd sb vo ord)
      (fun w => globalInfo w (operandsOk (i vd sb vo ord)) sb vo (dataRegs vd.toNat size) [] size 0)
      (fun w => { kind := .store, size := size, rel := ordRel ord, scope := w.scope })
      (fun w => (globalAddrs w sb vo).map fun a =>
        { lane := a.1, va := a.2, data := laneData w.gr vd.toNat ((size + 3) / 4) a.1 % 2 ^ (8 * size) })
      checkedStore storeFollows s
  let atomics (i : BitVec 7 → BitVec 6 → BitVec 8 → BitVec 2 → Instr) (op : AtomOp) (size : Nat) : Prop :=
    ∀ s vd sb vo ord, Checked (i vd sb vo ord)
      (fun w => globalInfo w (operandsOk (i vd sb vo ord)) sb vo (dataRegs vd.toNat (if op == .cas then 2 * size else size))
        (dataRegs vd.toNat size) size w.lanes.length)
      (fun w => { kind := .atom op, size := size, dest := .vec vd.toNat, acq := ordAcq ord, rel := ordRel ord
                  scope := w.scope })
      (fun w => (globalAddrs w sb vo).map fun a =>
        { lane := a.1, va := a.2
          data := laneData w.gr (if op == .cas then vd.toNat + size / 4 else vd.toNat) (size / 4) a.1
          cmp := if op == .cas then laneData w.gr vd.toNat (size / 4) a.1 else 0 })
      (fun w acc gr ok t => checkedAtom w acc op gr ok t)
      (fun w acc gr ok t => NoJournal w ∧ CheckedAtomFollows w { acc with rels := gr.fences } op gr ok t) s
  loads .ldB8 false 1 ∧ loads .ldI8 true 1 ∧ loads .ldB16 false 2 ∧ loads .ldI16 true 2 ∧ loads .ldB32 false 4 ∧
  loads .ldB64 false 8 ∧ loads .ldB128 false 16 ∧
  stores .stB8 1 ∧ stores .stB16 2 ∧ stores .stB32 4 ∧ stores .stB64 8 ∧ stores .stB128 16 ∧
  atomics .atomAddI32 .addI 4 ∧ atomics .atomAddI64 .addI 8 ∧ atomics .atomAddF32 .addF32 4 ∧
  atomics .atomMinI32 .minI 4 ∧ atomics .atomMaxI32 .maxI 4 ∧ atomics .atomMinN32 .minN 4 ∧ atomics .atomMaxN32 .maxN 4 ∧
  atomics .atomAndB32 .and 4 ∧ atomics .atomOrB32 .or 4 ∧ atomics .atomXorB32 .xor 4 ∧
  atomics .atomExchB32 .exch 4 ∧ atomics .atomExchB64 .exch 8 ∧ atomics .atomCasB32 .cas 4 ∧ atomics .atomCasB64 .cas 8 ∧
  (∀ s vd sb vo ord, Checked (.ldS64 vd sb vo ord)
    (fun w => { reads := .s sb.toNat :: specRegs .int vo, writes := [.s vd.toNat], ok := operandsOk (.ldS64 vd sb vo ord)
                mods := modScope, surcharge := sectors 8 [scalarAddr w sb vo] })
    (fun w => { kind := .load false, size := 8, dest := .scalar vd.toNat, acq := ordAcq ord, scope := w.scope, one := true })
    (fun w => [{ lane := w.lanes.headD 0, va := scalarAddr w sb vo }]) checkedLoad loadFollows s) ∧
  (∀ s vd sb vo ord, Checked (.stS64 vd sb vo ord)
    (fun w => { reads := .s sb.toNat :: specRegs .int vo ++ [.s vd.toNat], ok := operandsOk (.stS64 vd sb vo ord)
                mods := modScope, surcharge := sectors 8 [scalarAddr w sb vo] })
    (fun w => { kind := .store, size := 8, rel := ordRel ord, scope := w.scope, one := true })
    (fun w => [{ lane := w.lanes.headD 0, va := scalarAddr w sb vo, data := (w.gr.rs vd.toNat).toNat }])
    checkedStore storeFollows s) ∧
  (∀ s vd sb vo ord, Checked (.cstB32 vd sb vo ord)
    (fun w => { reads := .s sb.toNat :: specRegs .int vo ++ [.v vd.toNat], ok := operandsOk (.cstB32 vd sb vo ord)
                mods := modScope, surcharge := sectors 4 ((cstLanes w vd sb vo).map (·.va)) })
    (fun w => { kind := .store, size := 4, rel := ordRel ord, scope := w.scope, aon := true })
    (fun w => cstLanes w vd sb vo) checkedStore storeFollows s) ∧
  (∀ m tag ph,
    let n : Meta := if m.ptag = ph then m else { m with ptag := ph, written := false, read := false, multi := false }
    let r := raceStep m tag ph true
    let x := raceStep m tag ph false
    r.1 = { n with multi := if tag ≠ n.wtag then true else n.multi, read := true } ∧
    (r.2.1 = true ↔ n.written = true ∧ n.wtag ≠ tag) ∧
    x.1 = { n with written := true, wtag := tag, ver := n.ver + 1 } ∧
    (x.2.1 = true ↔ (n.written = true ∧ n.wtag ≠ tag) ∨ (n.read = true ∧ (n.multi = true ∨ n.wtag ≠ tag)))) ∧
  ∀ s t acc lanes,
    (phaseMode s t = false → checkedCauses s t acc lanes = []) ∧
    (phaseMode s t = true → (lanes.map fun a => a.pa / 64).Nodup →
      (checkedCauses s t acc lanes = [] ↔ ∀ a ∈ lanes, a.chk = true →
        (raceStep (metaOf s a.pa) (BitVec.ofNat 24 t.tag) (phaseOf s t) acc.kind.onlyReads).2.1 = false))

/-- R246: scratchpad and neighbourhood words whose lanes lie in range and are aligned enter the queues; their lanes are
performed at the scratchpads of the team or of the members they name. The atomics are stated outside replay. Each lane has an
entry of the queue, and the lanes of one address of an atomic share one (log entry 65). -/
def Obligations.ScratchpadWords : Prop :=
  SpLoads .ldsB8 1 1 ∧ SpLoads .ldsB16 1 2 ∧ SpLoads .ldsB32 1 4 ∧ SpLoads .ldsB64 1 8 ∧ SpLoads .ldsB128 1 16 ∧
  SpLoads .ldnB32 2 4 ∧
  (∀ s vd sb vo ord, SpQueues (.ldsS64 vd sb vo ord)
    (fun w => { reads := .s sb.toNat :: specRegs .int vo, writes := [.s vd.toNat], ok := operandsOk (.ldsS64 vd sb vo ord)
                mods := modScope, surcharge := spadBlocks 1 8 [scalarSpad w sb vo] })
    (fun w => { kind := .load false, size := 8, dest := .scalar vd.toNat, acq := ordAcq ord, scope := w.scope, space := 1
                one := true })
    (fun w => [scalarSpad w sb vo]) (fun w a => spadLane w 1 a 0 0) withLoad s) ∧
  SpStores .stsB8 1 1 ∧ SpStores .stsB16 1 2 ∧ SpStores .stsB32 1 4 ∧ SpStores .stsB64 1 8 ∧ SpStores .stsB128 1 16 ∧
  SpStores .stnB32 2 4 ∧
  (∀ s vd sb vo ord, SpQueues (.stsS64 vd sb vo ord)
    (fun w => { reads := .s sb.toNat :: specRegs .int vo ++ [.s vd.toNat], ok := operandsOk (.stsS64 vd sb vo ord)
                mods := modScope, surcharge := spadBlocks 1 8 [scalarSpad w sb vo] })
    (fun w => { kind := .store, size := 8, rel := ordRel ord, scope := w.scope, space := 1, one := true })
    (fun w => [scalarSpad w sb vo]) (fun w a => spadLane w 1 a (w.gr.rs vd.toNat).toNat 0) withStore s) ∧
  SpAtomics .atomsAddI32 1 .addI ∧ SpAtomics .atomsMinI32 1 .minI ∧ SpAtomics .atomsMaxI32 1 .maxI ∧
  SpAtomics .atomsExchB32 1 .exch ∧ SpAtomics .atomsCasB32 1 .cas ∧ SpAtomics .atomnAddI32 2 .addI

/-- R183 to R187: a hint word joins the unit being presented and changes nothing else: nothing issues, and nothing is charged,
until the unit's word does. -/
def Obligations.HintWords : Prop :=
  let joins (i : Instr) (h : Hint) : Prop := ∀ s w, view s = some w → mayPresent w = true → hintCauses w = [] →
    exec i s = .next (w.onGroup (fun gr => { gr with hints := gr.hints ++ [h] }) s)
  (∀ p, joins (.hintImm p) (.imm p)) ∧
  (∀ stall yld rsv, joins (.hintSched stall yld rsv) (.sched stall.toNat (yld == 1) (rsv != 0))) ∧
  ∀ rnd sat nega negb absa absb odst oidx ef qidx scope rsv,
    joins (.hintMod rnd sat nega negb absa absb odst oidx ef qidx scope rsv)
      (.mod { rnd := rnd, sat := sat == 1, nega := nega == 1, negb := negb == 1, absa := absa == 1, absb := absb == 1
              odst := odst == 1, oidx := oidx, ef := ef == 1, qidx := qidx, scope := scope }
        (rsv != 0 || 5 ≤ scope.toNat))

/-- R245: prf fills the read cache of its cluster with the lines of its lanes that translate to cacheable unchecked pages; lanes
that miss or fail raise nothing, and lines that would have to wait are left (R53, R56). The traffic counts at issue (log entry
60). Its ord field is zero (log entry 22). -/
def Obligations.PrefetchWord : Prop :=
  ∀ s sb vo ord,
    let lines (w : View) : List (Nat × W64) := (globalAddrs w sb vo).map fun a => (a.1, a.2 &&& ~~~63#64)
    let info (w : View) : Info :=
      { reads := .s sb.toNat :: specRegs .int vo, ok := operandsOk (.prf sb vo ord), imm := immUse [vo], mods := modScope
        surcharge := sectors 64 ((lines w).map (·.2)) }
    ∀ w l r u, view s = some w → Ready w (info w) → Acts w (info w) → PlainEnd w → s.launch? w.t.launch = some l →
      Gives (z := s) (translate w.cl w.t.ctx l.rcd { kind := .prf, size := 64, scope := w.scope }
          ((lines w).map fun a => { lane := a.1, va := a.2 }))
        (withTraffic w.t.launch (32 * sectors 64 ((lines w).map (·.2))) (w.paid (info w))) r u →
      u.home.dirty.length + u.home.clean.length + 32 ≤ 32768 →
      (u.cluster (u.groupCluster w.g)).crc.length + 32 ≤ 4096 →
      exec (.prf sb vo ord) s = .next (w.next
        ((r.ok.filter fun a => a.mt = 0 && !a.chk && !laneBlocked u w.g { kind := .prf, size := 64, scope := w.scope } a).foldl
          (fun t a => lineFilled (t.groupCluster w.g) a.pa t) u))

/-- R84, R92 to R99, R248, R251: cpy, cpyl and fold enter their operation in the COPY queue of the cluster and in the open batch
of the group, ordered after what the group has issued and what its snapshot reads; a copy with a zero extent completes at once,
here one without BO and DEP; discard enters, unless its length is zero. The traffic counts at issue (log entry 60). -/
def Obligations.CopyWords : Prop :=
  let snap (w : View) (r : CopyPlan) : Clock := match r.2 with | some sn => snapClock w.s w.g sn.1 | none => []
  let queues (i : Instr) (x : BitVec 6) (layered : Bool) : Prop :=
    Staged i (copyInfo x) (copyReads x layered) (fun _ => copyCost) (fun w r _ => NoJournal w ∧ r.1.2.1.declared ≠ 0)
      fun w r t => copyEntered w (r.op w (w.low x) (snap w r)) (withTraffic w.t.launch r.1.2.1.declared t)
  let ends (i : Instr) (x : BitVec 6) (layered : Bool) : Prop :=
    Staged i (copyInfo x) (copyReads x layered) (fun _ => copyCost)
      (fun w r u => NoJournal w ∧ r.1.2.1.declared = 0 ∧ r.1.1.dep = false ∧ r.1.1.bo = false ∧
        (∀ o ∈ (u.cluster w.cl).copyq, o.id ≠ u.fresh) ∧
        Clean u (opWho u.fresh (r.op w (w.low x) (snap w r) u.fresh).clock) (spKey w.eid (w.low x + 56)) 8 true)
      fun w r t =>
        let op := r.op w (w.low x) (snap w r) t.fresh
        opCounted w.g 0 t.fresh 0 op.clock (copyGone w.cl op
          (spWritten (opWho op.id op.clock) w.eid (w.low x + 56) (natBytes (op.status false) 8)
            (copyEntered w (r.op w (w.low x) (snap w r)) (withTraffic w.t.launch 0 t))))
  (∀ x, queues (.cpy x) x false ∧ ends (.cpy x) x false) ∧ (∀ x, queues (.cpyl x) x true ∧ ends (.cpyl x) x true) ∧
  (∀ x y, Staged (.fold x y) (fun w => { reads := [sreg x, sreg y], waits := copyFull w }) (foldReads x y) (fun _ _ => 0)
    (fun w _ _ => NoJournal w) fun w r => copyEntered w fun id =>
      { id := id, g := w.g, eid := w.eid, kind := .fold r.1.2 r.2, dst := byteLayout 0, start := w.gr.nextId
        clock := (w.gr.release w.g).join (snapClock w.s w.g r.1.1), reads := addBytes [] (r.1.2.records.map fun p => (p, 64)) }) ∧
  ∀ s x y, CompletesIf (.discard x y) (fun w => { reads := [sreg x, sreg y], raises := lengthFault w y }) (fun _ => True)
    (fun w t => if (w.gr.rs y.toNat).toNat = 0 then t else copyEntered w (fun id =>
      { id := id, g := w.g, eid := w.eid, kind := .discard (w.gr.rs x.toNat).toNat (w.gr.rs y.toNat).toNat
        dst := byteLayout 0, start := w.gr.nextId, clock := w.gr.release w.g }) t) s

/-- R101, R249: close ends the open batch of its class and gives its number; waitb goes on, as an acquire at .team ordered after
the batches it covers, where its batch is reached, and holds its group where it is not. The value of a BAR_MISUSE is free (log
entry 30). -/
def Obligations.BatchWords : Prop :=
  ∀ s x c,
    let n (w : View) : W32 := BitVec.ofNat 32 (w.low x)
    let info (w : View) : Info :=
      { reads := [sreg x], ok := c.ult 3, mask := .ignores
        raises := if batchAhead (w.gr.batches c.toNat) (n w) then [barMisuse 0x03 (Config.freeWord w.s.free)] else [] }
    Writes (.close x c) (fun w =>
        { writes := [sreg x], ok := c.ult 3, mask := .ignores, waits := (w.gr.batches c.toNat).full })
      (fun _ gr =>
        let b := (gr.batches c.toNat).close
        (gr.setBatches c.toNat b).setS x.toNat (b.last.zeroExtend 64)) s ∧
    CompletesIf (.waitb x c) info
      (fun w => (w.gr.batches c.toNat).reached (n w) = true ∧ (w.gr.batches c.toNat).outcomes = [])
      (fun w t =>
        let b := w.gr.batches c.toNat
        ordered w.g ((b.finished.filter fun f => waitCovers (n w) f.1).foldl (fun k f => Clock.join k f.2) [])
          (acquired w.g 1 (w.onGroup (fun gr => gr.setBatches c.toNat
            { b with finished := b.finished.filter fun f => !waitCovers (n w) f.1 }) t))) s ∧
    IssuesIf (.waitb x c) info (fun w => (w.gr.batches c.toNat).reached (n w) = false)
      (fun w => w.held (.batch c.toNat (n w))) s

/-- R102, R103, R250: boinit, boexp and boarr are one atomic update of the object at s[x], with the flip rule; bowait goes on,
as an acquire ordered after the updates of the ended phase, where the phase has ended, and else holds its group. The value of a
BAR_MISUSE is free (log entry 30). -/
def Obligations.BarrierObjectWords : Prop :=
  ∀ s x y,
    let apart (w : View) : Prop :=
      ObjectAt w (w.low x) ∧ Clean w.s (groupWho w.g w.gr w.gr.nextId) (spKey w.eid (w.low x)) 8 true
    (let n (w : View) : Nat := w.low y % 65536
     CompletesIf (.boinit x y) (fun w =>
        { reads := [sreg x, sreg y], mask := .ignores, waits := spadHeld w
          raises := if n w = 0 then [barMisuse 0x04 (Config.freeWord w.s.free)] else [] })
      apart
      (fun w t =>
        let u := spWritten (groupWho w.g w.gr w.gr.nextId) w.eid (w.low x)
          (natBytes ({ phase := false, bytes := 0, init := n w, pend := n w } : BarObj).encode 8) t
        { u with teams := SMap.adjust u.teams w.eid fun tm =>
            { tm with boGlobal := NSet.erase (NSet.erase tm.boGlobal (2 * w.low x)) (2 * w.low x + 1)
                      boClock := SMap.del (SMap.del tm.boClock (2 * w.low x)) (2 * w.low x + 1) } }) s) ∧
    CompletesIf (.boexp x y) (fun w => { reads := [sreg x, sreg y], mask := .ignores, waits := spadHeld w })
      apart
      (fun w => objectPut w (w.low x) fun o => { o with bytes := (o.bytes + w.low y % 2 ^ 24) % 2 ^ 24 }) s ∧
    CompletesIf (.boarr x) (fun w =>
        { reads := [sreg x], mask := .ignores, waits := spadHeld w
          raises := if w.low x % 8 = 0 && spInside w.t (w.low x) 8 &&
              (BarObj.decode (spNat w.t (w.low x) 8)).pend = 0 then
            [barMisuse 0x06 (Config.freeWord w.s.free)] else [] })
      apart (fun w => objectPut w (w.low x) fun o => { o with pend := o.pend - 1 }) s ∧
    (let p (w : View) : Bool := (w.gr.rs y.toNat).getLsbD 0
     let info (w : View) : Info := { reads := [sreg x, sreg y], mask := .ignores, waits := spadHeld w }
     CompletesIf (.bowait x y) info (fun w => ObjectAt w (w.low x) ∧ objFlipped w.t (w.low x) (p w) = true)
       (fun w t => ordered w.g (SMap.look [] w.t.boClock (2 * w.low x + 1))
         (acquired w.g (if NSet.has w.t.boGlobal (2 * w.low x + (if p w then 1 else 0)) then 3 else 1) t)) s ∧
     IssuesIf (.bowait x y) info (fun w => ObjectAt w (w.low x) ∧ objFlipped w.t (w.low x) (p w) = false)
       (fun w => w.held (.object (w.low x) (p w))) s)

/-- R252, R253, R377: flushr drops the lines of its range, here within one page, from the read cache of its cluster; coll enters
its operation, unless its length is zero. flushr acts in one step (log entry 31). -/
def Obligations.FlushAndCollective : Prop :=
  (∀ s x y w l a u,
    let info : Info := { reads := [sreg x, sreg y], raises := lengthFault w y }
    let lo := (w.gr.rs x.toNat).toNat
    let hi := lo + (w.gr.rs y.toNat).toNat
    let page := lo / 4096 * 4096
    view s = some w → Ready w info → Acts w info → PlainEnd w → s.launch? w.t.launch = some l →
    lo < hi → hi ≤ page + 4096 →
    Gives (z := s) (xlate w.cl w.t.ctx l.rcd Kind.read false (BitVec.ofNat 64 page)) (w.paid info) (.ok a) u →
    exec (.flushr x y) s = .next (w.next (((List.range 64).filter fun i => lo < page + 64 * i + 64 && page + 64 * i < hi).foldl
      (fun t i => lineDropped w.cl (a.pa + 64 * i) t) u))) ∧
  ∀ s x, CompletesIf (.coll x)
    (fun w =>
      { reads := [sreg x], waits := spadHeld w || endpointHeld w (w.low x)
        raises := if (collParts w (w.low x)).isNone then
          [{ cause := Cause.engineErr, code := 1, value := BitVec.ofNat 64 (w.low x) }] else [] })
    (fun _ => True)
    (fun w t => match collParts w (w.low x) with
      | none => t
      | some (d, e) =>
        if d.len = 0 then t
        else
          let u := { t with fresh := t.fresh + 1, colls := t.colls ++
            [{ id := t.fresh, g := w.g, eid := w.eid, op := d.op, dev := bitsOf e 21 0, vfn := bitsOf e 27 22
               peerCtx := bitsOf e 47 32, laddr := d.laddr, raddr := d.raddr, len := d.len, start := w.gr.nextId
               clock := w.gr.release w.g }] }
          opened w 2 t.fresh (withTraffic w.t.launch d.len u)) s

/-- R80, R81, R83: lattach and ldetach write the new list, in eight parts of 8 bytes, then the handle's list address and its
version, in one step that is a release at the word's scope. The handle entry is written through the translation that read it
(log entry 88). -/
def Obligations.LayerListWords : Prop :=
  let info (x y z : BitVec 6) (w : View) : Info := { reads := [sreg x, sreg y, sreg z], mods := modScope, waits := !w.gr.drained }
  let who (w : View) : Who :=
    { groupWho w.g w.gr w.gr.nextId with
      rels := w.gr.fences ++ [{ party := partyOf w.s w.g, scope := w.scope, clock := w.gr.release w.g }] }
  let writes (z : BitVec 6) (w : View) (e : ListEdit) : List (Nat × List Byte) :=
    (if e.idx = [] then []
      else (List.range 8).map fun i => (e.target.pa + 8 * i, natBytes (listBits ((e.handle.lver + 1) % 65536) e.idx / 2 ^ (64 * i)) 8)) ++
    [(e.entry.pa + 40, natBytes (if e.idx = [] then 0 else (w.gr.rs z.toNat).toNat) 8),
     (e.entry.pa + 48, natBytes ((e.handle.lver + 1) % 65536) 2)]
  let edited (w : View) (ws : List (Nat × List Byte)) (t : State) : State :=
    ws.foldl (fun t x => groupWritten w.g (who w) x.1 x.2 t) t
  let reachable (z : BitVec 6) (w : View) (e : ListEdit) (u : State) : Prop :=
    NoJournal w ∧ sysWaits w.s e.target = false ∧
    ∀ k x, (writes z w e)[k]? = some x →
      Room (edited w ((writes z w e).take k) u) x.1 x.2.length ∧
        Clean (edited w ((writes z w e).take k) u) (who w) x.1 x.2.length true
  (∀ x y z, Staged (.lattach x y z) (info x y z) (fun w => editList w true (w.low x) (w.low y) (w.gr.rs z.toNat))
    (fun _ _ => 0) (reachable z) (fun w e => edited w (writes z w e))) ∧
  ∀ x y z, Staged (.ldetach x y z) (info x y z) (fun w => editList w false (w.low x) (w.low y) (w.gr.rs z.toNat))
    (fun _ _ => 0) (reachable z) (fun w e => edited w (writes z w e))

/-- R254 to R256: the arrival words at named barriers. A second arrival is charged as it issues and joins the next phase at its
beginning (log entry 24). -/
def Obligations.BarrierWords : Prop :=
  (∀ c i, Arrives (.barSync c i) 0x00 c i none true) ∧ (∀ c i, Arrives (.barArr c i) 0x01 c i none false) ∧
  (∀ c y z i, Arrives (.barRedAddI32 c y z i) 0x02 c i (some (.addI32, y, z)) true) ∧
  (∀ c y z i, Arrives (.barRedAddF32 c y z i) 0x03 c i (some (.addF32, y, z)) true) ∧
  (∀ c y z i, Arrives (.barRedMaxI32 c y z i) 0x04 c i (some (.maxI32, y, z)) true) ∧
  (∀ c y z i, Arrives (.barRedMinI32 c y z i) 0x05 c i (some (.minI32, y, z)) true) ∧
  (∀ c y z i, Arrives (.barRedAnd c y z i) 0x06 c i (some (.and, y, z)) true) ∧
  ∀ c y z i, Arrives (.barRedOr c y z i) 0x07 c i (some (.or, y, z)) true

/-- R121, R257 to R259: fence goes on, as an acquire at its scope and a release of later writes, once everything of its group is
performed and returned; msend queues its message with the next sequence number of its ring; wring goes on, as an acquire of the
ring's messages, where the ring's TAIL is ahead. Numbers are kept for each sending team, receiver and ring (log entry 32). -/
def Obligations.FenceAndMessageWords : Prop :=
  (∀ s sc, CompletesIf (.fence sc) (fun _ => { ok := sc.ult 5, mask := .ignores }) (fun w => w.gr.drained = true)
      (fun w => fenced w.g sc.toNat) s ∧
    IssuesIf (.fence sc) (fun _ => { ok := sc.ult 5, mask := .ignores }) (fun w => w.gr.drained = false)
      (fun w => w.held (.fence sc.toNat)) s) ∧
  (∀ s x y z,
    let len (w : View) : Nat := (w.gr.rs z.toNat).toNat
    let dest (w : View) : Nat := (w.gr.rs x.toNat).toNat
    CompletesIf (.msend x y z)
      (fun w =>
        { reads := [sreg x, sreg y, sreg z], mods := modScope
          raises := if 248 < len w || bitsOf (dest w) 31 24 ≠ 0 then
            [{ cause := Cause.illOperand, value := w.firstWord.zeroExtend 64
               word := fetchAt w.s w.core w.gr.slot w.wordPc }] else []
          surcharge := msgSlots (len w), waits := !w.gr.drained || 8 ≤ w.gr.outbox.length })
      (fun w => dest w / 2 ^ 32 % 64 = 0 ∧ spInside w.t (w.low y) (len w) = true)
      (fun w t =>
        let hdr := dest w / 2 ^ 32
        let tag := dest w % 2 ^ 24
        let seq := ((w.t.rings.find? fun r => r.1 = tag && r.2.1 = hdr).map (·.2.2)).getD 0
        let m : Message :=
          { ctx := w.t.ctx, dst := tag, off := hdr, src := w.t.tag, seq := seq, slots := msgSlots (len w)
            payload := spBytes w.t (w.low y) (len w), scope := w.scope, clock := w.gr.release w.g
            poison := ((List.range (len w)).filter fun i => spPoisoned w.t (w.low y + i) 1).foldl NSet.add [] }
        w.onGroup (fun gr => { gr with outbox := gr.outbox ++ [m] })
          { t with teams := SMap.adjust t.teams w.eid fun tm =>
              { tm with rings := (tag, hdr, (seq + 1) % 2 ^ 32) :: tm.rings.filter fun r => !(r.1 = tag && r.2.1 = hdr) } }) s) ∧
  ∀ s x y z,
    let info (w : View) : Info :=
      { reads := [sreg y, sreg z], writes := [sreg x], mods := modScope, mask := .ignores, waits := spadHeld w }
    let head (w : View) : W32 := (w.gr.rs z.toNat).extractLsb' 0 32
    let ring (w : View) : Prop := w.low y % 64 = 0 ∧ spInside w.t (w.low y) 64 = true
    (∀ n, CompletesIf (.wring x y z) info (fun w => ring w ∧ ringAhead w.t (w.low y) (head w) = some n)
      (fun w t => ordered w.g (followed (partyOf t w.g) w.scope (SMap.look [] w.t.ringRels (w.low y)))
        (acquired w.g w.scope (w.onGroup (fun gr => gr.setS x.toNat (BitVec.ofNat 64 n)) t))) s) ∧
    IssuesIf (.wring x y z) info (fun w => ring w ∧ ringAhead w.t (w.low y) (head w) = none)
      (fun w => w.held (.ring x.toNat (w.low y) (head w) w.scope)) s

/-- R152, R260: tkt.take goes on, as an acquire at .dev ordered after the passes before, at its team's turn, and else holds its
group; tkt.skip passes, and releases what its group has done where the team held the turn. A take marks its object at issue (log
entry 62). -/
def Obligations.TicketWords : Prop :=
  ∀ s j,
    let info (w : View) : Info :=
      { ok := j.ult 2, mask := .ignores, raises := ticketCauses w 0x0B j (w.t.took.contains j.toNat) }
    let took (w : View) (t : State) : State :=
      { t with teams := SMap.adjust t.teams w.eid fun tm => { tm with took := tm.took ++ [j.toNat] } }
    (∀ k, CompletesIf (.tktTake j) info
      (fun w => ticketOf w.s w.t j.toNat = some k ∧ k.void = false ∧ k.next = w.t.tidx)
      (fun w t => ordered w.g k.clock (acquired w.g 3 (took w t))) s) ∧
    IssuesIf (.tktTake j) info
      (fun w => ∃ k, ticketOf w.s w.t j.toNat = some k ∧ k.void = false ∧ k.next ≠ w.t.tidx) (fun w t => w.held (.ticket j.toNat) (took w t)) s ∧
    ∀ k, CompletesIf (.tktSkip j)
      (fun w =>
        { ok := j.ult 2, mask := .ignores, raises := ticketCauses w 0x0C j (w.t.passed.contains j.toNat)
          waits := w.t.took.contains j.toNat && !w.gr.drained })
      (fun w => NoJournal w ∧ ticketOf w.s w.t j.toNat = some k ∧ commitBlocks w.s.dev k.addr = false ∧ Room w.s k.addr 16)
      (fun w => ticketPassed w.eid j.toNat w.t k (if w.t.took.contains j.toNat then w.gr.release w.g else [])) s

/-- R131, R132, R261: the ordered atomics. The traffic counts at issue (log entry 60), the lanes of one address share an entry
(log entry 65), and with MDBG.MSZ the group stays at the word (log entry 67). In phase mode the contributions are kept as the
word issues (log entry 64). -/
def Obligations.OrderedAtomicWords : Prop := OrderedAtomic .atomoAddF32 false ∧ OrderedAtomic .atomoAddI64 true

/-- R130, R262: vst.ver and ld.ver of a line, outside phase mode and journalling: vst.ver writes where the version is the
expected one and else only reports the version; ld.ver loads. The traffic counts at issue (log entry 60). A mismatch changes no
metadata (log entry 25); both words are performed as they issue (log entry 64). -/
def Obligations.VersionedWords : Prop :=
  ∀ s x y v w ok pa u gr, view s = some w → PlainEnd w → w.phm = false → NoJournal w → u.group? w.g = some gr →
    let t := w.onGroup numbered u
    let hit (m : Meta) : Prop := m.ver.toNat = (w.gr.rs y.toNat).toNat % 65536
    (Ready w (verInfo true x y v w) → Acts w (verInfo true x y v w) → (w.gr.rs y.toNat).toNat / 2 ^ 16 = 0 →
      ReachesLine s w true x y v ok pa u →
      (hit (metaOf u pa) → Follows w.g w.gr.nextId 4 (numbered gr) true ok
        (fun a t => stored w.g w.gr.nextId { verAccess true y v w with rels := gr.fences } ((t.group? w.g).getD (numbered gr)) a t)
        (metaWritten pa w.t.tag t)) →
      exec (.vstVer x y v) s = .next (w.next (
        if (metaOf u pa).ver.toNat = (w.gr.rs y.toNat).toNat % 65536 then
          verStored w (verAccess true y v w) (numbered gr) ok pa t
        else w.onGroup (fun gr => gr.setS y.toNat (verWord (metaOf u pa))) t))) ∧
    (Ready w (verInfo false x y v w) → Acts w (verInfo false x y v w) → ReachesLine s w false x y v ok pa u →
      Follows w.g w.gr.nextId 4 (numbered gr) false ok
        (fun a t => floorRaised w.g a.pa 4 (readAt (groupWho w.g ((t.group? w.g).getD (numbered gr)) w.gr.nextId) a.pa 4 t)) t →
      exec (.ldVer x y v) s = .next (w.next (verLoaded w (verAccess false y v w) (numbered gr) ok v.toNat pa t)))

/-- R266 to R268: obres creates the reservation that its rules choose, its window bytes zero; obrel releases one. Units are
placed lowest first (log entry 33). -/
def Obligations.MatrixReservationWords : Prop :=
  (∀ s x y z n u,
    let bytes (w : View) : Nat := (w.gr.rs y.toNat).toNat
    let f (w : View) : Nat := (w.gr.rs z.toNat).toNat
    CompletesIf (.obres x y z)
      (fun w =>
        { matInfo w [sreg y, sreg z] 0 false with
          writes := [sreg x]
          waits := match chooseRes w.t (bytes w) (f w) with
            | some (_, u) => w.exm == 0xFFFFFFFF && !runFree w.t (fun r => !r.live) u (bytes w / 4096)
            | none => false })
      (fun w => chooseRes w.t (bytes w) (f w) = some (n, u))
      (fun w t =>
        let gen := (w.t.mat.gens.getD n 0 + 1) % 256
        let units := bytes w / 4096
        let r : Reservation :=
          { rnum := n, gen := gen, f := bitsOf (f w) 51 46, soff := bitsOf (f w) 42 32, base := u, units := units }
        w.onGroup (fun gr => gr.setS x.toNat
            (BitVec.ofNat 64 (gen * 2 ^ 56 + n * 2 ^ 52 + r.f * 2 ^ 46 + r.soff * 2 ^ 32 + units * 2 ^ 24)))
          { t with teams := SMap.adjust t.teams w.eid fun tm =>
              { tm with mat := { tm.mat with
                  gens := tm.mat.gens.set n gen, res := tm.mat.res ++ [r]
                  window := SMap.delRange tm.mat.window (4096 * u) (4096 * units)
                  winPoison := SMap.delRange tm.mat.winPoison (512 * u) (512 * units) } } }) s) ∧
  ∀ s x r, CompletesIf (.obrel x) (fun w => matInfo w [sreg x] 0 false)
    (fun w => namedRes w.t (readRes (w.gr.rs x.toNat)) = some r)
    (fun w t => { t with teams := SMap.adjust t.teams w.eid fun tm =>
      { tm with mat := { tm.mat with
          res := (tm.mat.res.map fun y =>
              if y.rnum = r.rnum && y.gen = r.gen && y.live then { y with live := false } else y).filter
            fun y => y.live || !y.users.isEmpty } } }) s

/-- R264, R270 to R277: mfetcha, mloadb, mma.d, mma.b, mzero and mstore enter their operation in the reservation table of the
cluster and in the open batch of the group, where their records and banks are good, ordered after what the group has issued and
what their snapshot reads. The traffic counts at issue (log entry 60). The value of an OBUF_RES without a record is free (log
entry 30). -/
def Obligations.MatrixOperationWords : Prop :=
  let row0 (w : View) (z : BitVec 6) : Nat := (w.gr.rs z.toNat).toNat / 2 ^ 32
  let col0 (w : View) (z : BitVec 6) : Nat := (w.gr.rs z.toNat).toNat % 2 ^ 32
  let kt (w : View) (x : BitVec 6) : Nat := bitsOf (w.gr.rs x.toNat).toNat 41 32
  let passes (i : Instr) (batched : Bool) (x y : BitVec 6) (n : BitVec 2) : Prop := ∀ s res,
    let r (w : View) : ResRec := readRes (w.gr.rs x.toNat)
    let b (w : View) : BWord := readBWord (w.gr.rs y.toNat)
    let k (w : View) : Nat := if batched then (b w).kt / 4 else (b w).kt
    let scaled (w : View) : Prop := (r w).fmt = 6 ∨ (r w).fmt = 7
    CompletesIf i (fun w => matInfo w [sreg x, sreg y] (passCycles batched (r w).fmt (b w).fmt (b w).kt) true)
      (fun w => namedRes w.t (r w) = some res ∧ tileValid (r w) (b w).kt = true ∧ (b w).valid w.t.mat.banks = true ∧
        passRate4 (r w).fmt (b w).fmt ≠ 0 ∧ 0 < k w ∧ k w ≤ 512 ∧
        (batched = true → k w ≤ 128 ∧ (b w).kt % 4 = 0) ∧ (scaled w → (r w).blk = (b w).blk) ∧
        (batched = true → scaled w → k w % blockOf (r w).blk = 0) ∧ bankOk w.t n.toNat ((r w).fmt = 1) = true)
      (fun w => matEntered w fun id =>
        { id := id, g := w.g, eid := w.eid, kind := .pass batched (w.gr.rs x.toNat) (w.gr.rs y.toNat) n.toNat
          rbase := 4096 * res.base, res := some (res.rnum, res.gen), start := w.gr.nextId, clock := w.gr.release w.g }) s
  (∀ x y z res, Staged (.mfetcha x y z) (fun w => matInfo w [sreg x, sreg y, sreg z] 0 true)
    (fun w => takeSnapshot w (w.low x)) (fun _ _ => 0)
    (fun w sn _ =>
      let r := readRes (w.gr.rs y.toNat)
      NoJournal w ∧ namedRes w.t r = some res ∧ bitsOf (w.gr.rs x.toNat).toNat 63 42 = 0 ∧ 0 < kt w x ∧ kt w x ≤ 512 ∧
        tileValid r (kt w x) = true ∧
        handleAgrees sn.2.handle r.fmt r.blk r.scl false (col0 w z) (col0 w z) = true)
    (fun w sn t =>
      matEntered w (fun id =>
          { id := id, g := w.g, eid := w.eid, kind := .fetchA sn.2 (w.gr.rs y.toNat) (kt w x) (row0 w z) (col0 w z)
            rbase := 4096 * res.base, res := some (res.rnum, res.gen), start := w.gr.nextId
            clock := (w.gr.release w.g).join (snapClock w.s w.g sn.1) })
        (withTraffic w.t.launch (rowBytes (readRes (w.gr.rs y.toNat)).fmt (64 * kt w x)) t))) ∧
  (∀ x y z,
    let b (w : View) : BWord := readBWord (w.gr.rs y.toNat)
    Staged (.mloadb x y z) (fun w => matInfo w [sreg x, sreg y, sreg z] 0 true) (fun w => takeSnapshot w (w.low x))
      (fun w sn => 2 + ceilDiv (b w).declared 64 * (1 + sn.2.layers.length))
      (fun w sn _ => NoJournal w ∧ (w.gr.rs x.toNat).toNat / 2 ^ 32 = 0 ∧ (b w).valid w.t.mat.banks = true ∧
        handleAgrees sn.2.handle (b w).fmt (b w).blk (b w).scl true (row0 w z) (col0 w z) = true)
      (fun w sn t =>
        matEntered w (fun id =>
            { id := id, g := w.g, eid := w.eid, kind := .loadB sn.2 (w.gr.rs y.toNat) (row0 w z) (col0 w z)
              start := w.gr.nextId, clock := (w.gr.release w.g).join (snapClock w.s w.g sn.1) })
          (withTraffic w.t.launch (b w).declared t))) ∧
  (∀ x y n, passes (.mmaD x y n) false x y n) ∧ (∀ x y n, passes (.mmaB x y n) true x y n) ∧
  (∀ s n, CompletesIf (.mzero n) (fun w => matInfo w [] 0 true) (fun w => bankOk w.t n.toNat false = true)
    (fun w => matEntered w fun id =>
      { id := id, g := w.g, eid := w.eid, kind := .zero n.toNat, start := w.gr.nextId, clock := w.gr.release w.g }) s) ∧
  ∀ s x y z n,
    let d (w : View) : Nat := (w.gr.rs z.toNat).toNat
    let e (w : View) : Nat := dfmtSize (d w)
    CompletesIf (.mstore x y z n)
      (fun w => matInfo w [sreg x, sreg y, sreg z] (storeSectors (w.gr.rs x.toNat) (w.gr.rs y.toNat) (d w % 16)) true)
      (fun w => d w ≤ 3 ∧ bankOk w.t n.toNat (d w = 1) = true ∧ (w.gr.rs x.toNat).toNat % e w = 0 ∧
        (w.gr.rs y.toNat).toNat % e w = 0)
      (fun w t =>
        matEntered w (fun id =>
            { id := id, g := w.g, eid := w.eid, kind := .store n.toNat (w.gr.rs x.toNat) (w.gr.rs y.toNat) (d w)
              start := w.gr.nextId, clock := w.gr.release w.g })
          (withTraffic w.t.launch (32 * storeSectors (w.gr.rs x.toNat) (w.gr.rs y.toNat) (d w)) t)) s

/-- R283, R284, R288, R289, R314: spawn answers a rejection code, or the word of the grid it creates; spawnq and qpop answer
what they find, and move one record: the first L bytes of the record that spawnq appends are those of the scratchpad, and qpop
puts the bytes of the record there. Which free run of tags a spawn draws is open (log entry 5), and so are the bytes of a record
beyond its L (log entry 5). An aligned address is asked for before the length is looked at (log entry 34), and a spawn's amount
leaves AL in handler mode too (log entry 89). -/
def Obligations.SpawnAndQueueWords : Prop :=
  let answered (w : View) (x : BitVec 6) (v : Nat) : State → State := w.onGroup fun gr => gr.setS x.toNat (BitVec.ofNat 64 v)
  let linesPut (a : LaneAcc) (bs : List Byte) (k : Nat) (t : State) : State :=
    (List.range k).foldl (fun t i => written sysParty (a.pa + 64 * i) ((bs.drop (64 * i)).take 64) t) t
  (∀ x y, Staged (.spawn x y)
    (fun w => { reads := [sreg y], writes := [sreg x], mask := .ignores, waits := !w.gr.drained })
    (fun w => planSpawn w (w.low y)) (fun _ p => if p.code = 0 then 3 + p.d.teams else 0)
    (fun w p _ => p.code ≠ 0 ∨ NoJournal w)
    (fun w p t =>
      if p.code ≠ 0 then answered w x (2 ^ 63 + p.code) t
      else answered w x (p.tag0 + p.d.teams * 2 ^ 32) (gridCreated w p.d p.tag0 p.tickets { t with free := t.free + 1 }))
    (fun _ p => if p.code = 0 then p.d.grant else 0)) ∧
  (∀ s x y z,
    let nq (w : View) : Nat := bitsOf (w.gr.rs y.toNat).toNat 11 0
    let len (w : View) : Nat := bitsOf (w.gr.rs y.toNat).toNat 47 32
    let bad (w : View) : Bool :=
      len w = 0 || 256 < len w || bitsOf (w.gr.rs y.toNat).toNat 63 48 ≠ 0 || bitsOf (w.gr.rs y.toNat).toNat 31 12 ≠ 0
    let info (w : View) : Info :=
      { reads := [sreg y, sreg z], writes := [sreg x], mask := .ignores
        surcharge := if bad w then 2 else 2 + ceilDiv (len w) 64, waits := !w.gr.drained }
    let inside (w : View) : Prop := w.low z % 8 = 0 ∧ bad w = false ∧ spInside w.t (w.low z) (len w) = true
    CompletesIf (.spawnq x y z) info (fun w => w.low z % 8 = 0 ∧ bad w = true) (fun w => answered w x 3) s ∧
    CompletesIf (.spawnq x y z) info (fun w => inside w ∧ SMap.get? (w.s.ctx w.t.ctx).queues (nq w) = none)
      (fun w => answered w x 2) s ∧
    (∀ q, CompletesIf (.spawnq x y z) info
      (fun w => inside w ∧ SMap.get? (w.s.ctx w.t.ctx).queues (nq w) = some q ∧ 2 ^ q.logc ≤ q.lens.length)
      (fun w => answered w x 1) s) ∧
    ∀ w q a u, view s = some w → Ready w (info w) → PlainEnd w → inside w → NoJournal w →
      SMap.get? (s.ctx w.t.ctx).queues (nq w) = some q → q.lens.length < 2 ^ q.logc →
      Gives (z := s) (nodeSlot w.t.ctx q (q.head + q.lens.length) Kind.write) (w.paid (info w)) a u →
      let record : List Byte :=
        spBytes w.t (w.low z) (len w) ++ (List.range (256 - len w)).map fun i => Config.freeByte (u.free + i)
      let v : State := { u with free := u.free + (256 - len w) }
      (∀ i, i < 4 → sysWaits (linesPut a record i v) (a.line i) = false ∧ Room (linesPut a record i v) (a.pa + 64 * i) 64) →
      exec (.spawnq x y z) s = .next (w.next (answered w x 0 (nodePut w.t.ctx (nq w)
        (fun q => { q with lens := q.lens ++ [len w], clocks := q.clocks ++ [w.gr.release w.g] }) (linesPut a record 4 v)))) ) ∧
  ∀ s x y z,
    let nq (w : View) : Nat := bitsOf (w.gr.rs y.toNat).toNat 11 0
    let info (w : View) : Info :=
      { reads := [sreg y, sreg z], writes := [sreg x], mask := .ignores, waits := spadHeld w }
    CompletesIf (.qpop x y z) info
      (fun w => w.low z % 8 = 0 ∧ ∀ q, SMap.get? (w.s.ctx w.t.ctx).queues (nq w) = some q → q.lens = [])
      (fun w => answered w x 0) s ∧
    ∀ w q len lens a u, view s = some w → Ready w (info w) → PlainEnd w → NoJournal w → w.low z % 8 = 0 →
      SMap.get? (s.ctx w.t.ctx).queues (nq w) = some q → q.lens = len :: lens → len ≤ 256 →
      spInside w.t (w.low z) len = true →
      Gives (z := s) (nodeSlot w.t.ctx q q.head Kind.read) (w.paid (info w)) a u →
      (∀ i, i < 4 → sysWaits u (a.line i) = false) → (∀ i, i < ceilDiv len 32 → sectorBad u.home (a.pa / 32 + i) = false) →
      exec (.qpop x y z) s = .next (w.next (answered w x len (ordered w.g (q.clocks.headD []) (acquired w.g 3
        (nodePut w.t.ctx (nq w) (fun q' => { q' with head := (q'.head + 1) % 2 ^ 32, lens := lens, clocks := q'.clocks.drop 1 })
          (spWritten sysParty w.eid (w.low z) (memBytes u a.pa len) u))))))

/-- R291 to R295: join, tstat, topup, resw and phend. That a child not begun counts as RUNNING is log entry 69; the value of a
BAR_MISUSE is free (log entry 30), and a topup's amount leaves AL in handler mode too (log entry 89). -/
def Obligations.TeamWords : Prop :=
  (∀ s x y,
    let info : View → Info := fun _ => { reads := [sreg y], writes := [sreg x], mask := .ignores }
    let child (w : View) : Option (Nat × Grid) := childGrid w.s w.eid (w.gr.rs y.toNat)
    CompletesIf (.join x y) info (fun w => child w = none) (fun w => w.onGroup fun gr => gr.setS x.toNat 0x80) s ∧
    ∀ gid gd, CompletesIf (.join x y) info (fun w => child w = some (gid, gd) ∧ gridDone w.s gd = true)
        (fun w t => joined w x.toNat gid gd t) s ∧
      IssuesIf (.join x y) info (fun w => child w = some (gid, gd) ∧ gridDone w.s gd = false)
        (fun w => w.held (.join x.toNat gd.tag0 gd.count)) s) ∧
  (∀ s x y z u,
    let info : View → Info := fun _ => { reads := [sreg y], writes := [sreg x], mask := .ignores }
    let child (w : View) : Option (Nat × Team) := childTeam w.s w.eid (w.low y % 2 ^ 24)
    CompletesIf (.tstat x y z u) info (fun w => child w = none) (fun w => w.onGroup fun gr => gr.setS x.toNat 0x80) s ∧
    ∀ e tm, CompletesIf (.tstat x y z u) info (fun w => child w = some (e, tm))
      (fun w t =>
        let v := w.onGroup (fun gr => gr.setS x.toNat (BitVec.ofNat 64 (teamStatus tm))) t
        if tm.state = .done then ordered w.g (teamRelease w.s e) (acquired w.g 3 v) else v) s) ∧
  (∀ s x y z, IssuesIf (.topup x y z)
    (fun w =>
      { reads := [sreg y, sreg z], writes := [sreg x], mask := .ignores, surcharge := 2, moved := (w.gr.rs z.toNat).toNat })
    (fun _ => True) (fun w => w.held (.topup x.toNat (w.low y % 2 ^ 24) (w.gr.rs z.toNat))) s) ∧
  (∀ s x, CompletesIf (.resw x) (fun _ => { reads := [sreg x], mask := .ignores }) NoJournal
    (fun w t =>
      let v := w.gr.rs x.toNat
      let path := match w.s.grid? w.t.grid with | some gd => gd.path | none => []
      { t with launches := SMap.adjust t.launches w.t.launch fun l =>
          if l.phm && w.t.parent.isSome then
            { l with posts := l.posts ++ [{ key := path, tidx := w.t.tidx, gidx := w.gidx, n := l.posts.length, val := v }] }
          else { l with result := v } }) s) ∧
  ∀ s, IssuesIf .phend
    (fun w =>
      { mask := .ignores
        raises := if w.phm && w.t.parent.isNone then [] else [barMisuse 0x07 (Config.freeWord w.s.free)] })
    (fun _ => True) (fun w => w.held .phend) s

/-- R138, R141, R158, R204, R205, R297, R300, R301, R305, R363: srd, swr, tclr, pwrq and jmark, and what srd gives for each
register: the fields that the tables lay out, and 0 for the registers of R158 in phase mode. Atomics count in LCNT (log entry
12), and the window that pwrq shows is measured at the present SET (log entry 49). -/
def Obligations.SystemRegisterWords : Prop :=
  (∀ s g gr t,
    let core := t.core.getD 0
    let cl := 16 * (core / 32 / 2) + core % 32 / 2
    let c := s.cluster cl
    let str := s.str (cl / 4)
    let bit (b : Bool) : Nat := if b then 1 else 0
    let margin (x : Int) : Nat := (x % 65536).toNat
    let ofLaunch (f : Launch → Nat) : Nat := match s.launch? t.launch with | some l => f l | none => 0
    let lists : List (Nat × Nat) :=
      [(0x000, gr.exm.toNat), (0x001, g % 32), (0x002, t.shape.groups), (0x003, t.tidx),
       (0x004, match s.grid? t.grid with | some gd => gd.count | none => 0), (0x005, t.tag), (0x006, t.ptag),
       (0x007, (if g % 32 < t.shape.producers then t.shape.vp else t.shape.vc) % 128 * 256 + bit (g % 32 < t.shape.producers)),
       (0x008, core % 32 + 256 * (core / 32)), (0x009, cl + cl / 4 * 256), (0x010, t.al.toNat),
       (0x011, 4 * ofLaunch (fun l => bit l.phm) + 2 * bit t.exh + bit t.shape.pol), (0x020, gr.lcnt), (0x021, gr.sfu.length)] ++
      [(0x022, gr.copy.last.toNat), (0x023, gr.mat.last.toNat), (0x024, gr.coll.last.toNat), (0x025, gr.copy.done.toNat),
       (0x026, gr.mat.done.toNat), (0x027, gr.coll.done.toNat),
       (0x030, bit c.strc + 2 * bit (c.therm || s.dev.emergency) + 4 * bit c.pkg + 8 * bit (c.skip || s.dev.emergency)),
       (0x031, margin (95 * 16 - hottest s.dev) * 65536 + margin (105 * 16 - c.dieTemp)), (0x032, str.reading.getD (cl % 4) 0),
       (0x033, str.ceiling * 65536 + str.setClk), (0x034, c.cyc)] ++
      [(0x040, gr.trap.tcause.toNat), (0x041, gr.trap.tpc.toNat), (0x042, gr.trap.tmask.toNat), (0x043, gr.trap.tdet 0),
       (0x044, gr.trap.tdet 1), (0x045, gr.trap.tdet 2), (0x046, gr.trap.tmode.toNat), (0x047, gr.trap.tvec.toNat), (0x048, 0),
       (0x050, ofLaunch fun l => l.jmode + 4 * bit l.div), (0x051, t.jseq.toNat), (0x060, ofLaunch fun l => l.phase.toNat),
       (0x070, gr.slot.toNat)]
    (∀ e ∈ lists, sysValue s g gr t e.1 =
      if phaseMode s t = true ∧ e.1 ∈ [0x008, 0x009, 0x020, 0x021, 0x025, 0x026, 0x027, 0x030, 0x031, 0x032, 0x033, 0x034] then 0
      else BitVec.ofNat 64 e.2) ∧
    ∀ n, sysNumbers.contains n = true ↔ n ∈ lists.map (·.1)) ∧
  (∀ s x reg, CompletesIf (.srd x reg)
    (fun w =>
      { writes := [sreg x], ok := sysNumbers.contains reg.toNat, mask := .ignores, raises := exmPoison w reg.toNat }) (fun _ => True)
    (fun w t => match t.team? w.eid with
      | some tm => w.onGroup (fun gr => gr.setS x.toNat (sysValue w.s w.g w.gr tm reg.toNat)) t
      | none => t) s) ∧
  (∀ s x reg, Writes (.swr x reg) (fun _ => { reads := [sreg x], ok := sysWritable.contains reg.toNat, mask := .ignores })
    (fun w gr => { gr with trap := gr.trap.write reg.toNat (w.gr.rs x.toNat) }) s) ∧
  (∀ s x, Writes (.tclr x) (fun _ => { reads := [sreg x], mask := .ignores })
    (fun w gr => { gr with trap := { gr.trap with
      tcause := gr.trap.tcause &&& ~~~(w.gr.rs x.toNat &&& 0x1FFFFFFF) } }) s) ∧
  (∀ s x, Writes (.pwrq x) (fun _ => { writes := [sreg x], mask := .ignores })
    (fun w gr => gr.setS x.toNat
      (if w.phm then 0 else BitVec.ofNat 64 (windowLeft w.s w.cl * 65536 + pstate w.s w.cl))) s) ∧
  ∀ s x, CompletesIf (.jmark x) (fun _ => { reads := [sreg x], mask := .ignores }) NoJournal (fun _ t => t) s

/-- R298, R299, R334, R335: trap and brk enter the handler after their word, with their cause in TCAUSE, TPC at the next word
and TMASK the active lanes; tret goes back to the unit at TPC with the interrupted stack and the lanes of TMASK, or to the
handler where a cause is left. The lanes after tret are those of log entry 11; trap and brk raise no STEP (log entry 52). -/
def Obligations.TrapWords : Prop :=
  let takes (i : Instr) (d : Detail) : Prop := ∀ s, IssuesIf i (fun _ => { mask := .ignores })
    (fun w => w.wordPc + 1 < 16384 ∧ w.gr.inHandler = false ∧ w.gr.trap.tvec.getLsbD 15 = true ∧ w.gr.lcnt = 0 ∧
      w.gr.fcnt = 0 ∧ (w.s.ctx w.t.ctx).watched = false)
    (fun w t =>
      let pc := BitVec.ofNat 14 (w.wordPc + 1)
      w.onGroup (handlerEntered [d] (packPc w.gr.slot pc)) (w.letGo (w.at w.gr.slot pc t))) s
  (∀ n, takes (.trap n) { cause := Cause.trapi, code := n }) ∧
  (∀ n, takes (.brk n) { cause := Cause.brk, code := n }) ∧
  ∀ s sv,
    let info (w : View) : Info := { mask := .ignores, raises := illConv w (!w.gr.inHandler) }
    IssuesIf .tret info (fun w => w.gr.trap.handler = some sv ∧ w.gr.trap.tcause = 0)
      (fun w => w.onGroup fun gr =>
        { gr with
          exm := gr.trap.tmask &&& sv.exm, stack := sv.stack, hints := []
          slot := gr.trap.tpc.extractLsb' 14 1, pc := gr.trap.tpc.extractLsb' 0 14
          trap := { gr.trap with
            handler := none
            resume := if gr.trap.tmask &&& sv.exm = sv.exm then none else some sv.exm } }) s ∧
    IssuesIf .tret info (fun w => w.gr.trap.handler = some sv ∧ w.gr.trap.tcause ≠ 0)
      (fun w => w.onGroup fun gr =>
        { gr with
          exm := 0xFFFFFFFF, stack := [], hints := []
          slot := gr.trap.tvec.extractLsb' 14 1, pc := gr.trap.tvec.extractLsb' 0 14 }) s

/-- R303, R304: ovld leaves a held overlay alone and fills slot 1 with one that is not held; ovcall and ovret go to a word of an
overlay that a slot holds, ovcall with its return in s63. -/
def Obligations.OverlayWords : Prop :=
  (∀ s x,
    let id (w : View) : Nat := bitsOf (w.gr.rs x.toNat).toNat 15 0
    let info : View → Info := fun _ => { reads := [sreg x], mask := .ignores }
    let listed (w : View) : Prop := w.gr.slot = 0 ∧ ∃ l, w.s.launch? w.t.launch = some l ∧ id w < l.onum
    CompletesIf (.ovld x) info (fun w => listed w ∧ (slotHolding w.s w.core w.t (id w)).isSome = true) (fun _ t => t) s ∧
    ∀ w ws u, view s = some w → Ready w (info w) → PlainEnd w → listed w → slotHolding s w.core w.t (id w) = none →
      slotOneFree (w.paid (info w)) w.core = true →
      Gives (z := s) (issueOverlay w (id w)) (w.paid (info w)) (.ok ws) u →
      exec (.ovld x) s = .next (w.next (slotOneFilled w.core ((overlayKey (w.paid (info w)) w.t).1, id w) ws u))) ∧
  (let goes (i : Instr) (x : BitVec 6) (writes : List Reg) (link : View → Group → Group) : Prop := ∀ s w slot,
    let info : Info := { reads := [sreg x], writes := writes, mask := .ignores }
    let off := bitsOf (w.gr.rs x.toNat).toNat 15 0
    view s = some w → Ready w info → NoStep w → off < 0x4000 →
    slotHolding s w.core w.t (bitsOf (w.gr.rs x.toNat).toNat 31 16) = some slot →
    exec i s = .next (w.at slot (BitVec.ofNat 14 off) (w.onGroup (link w) (w.paid info)))
  (∀ x, goes (.ovcall x) x [.s 63] fun w gr =>
    gr.setS 63 (BitVec.ofNat 64 (slotOverlay (w.s.core w.core) w.gr.slot * 65536 + w.wordPc + 1))) ∧
  ∀ s x w slot,
    let info : Info := { reads := [sreg x], mask := .ignores }
    let off := bitsOf (w.gr.rs x.toNat).toNat 15 0
    view s = some w → Ready w info → NoStep w → off < 0x4000 →
    slotHolding s w.core w.t (bitsOf (w.gr.rs x.toNat).toNat 31 16) = some slot →
    exec (.ovret x) s = .next (w.at slot (BitVec.ofNat 14 off) (w.paid info)))

/-- R306, R328, R329: cres takes its current where the string's Sluice can grant it, else waits for it; crel gives it back. -/
def Obligations.CurrentWords : Prop :=
  ∀ s x y,
    let amount (w : View) : Nat := bitsOf (w.gr.rs y.toNat).toNat 7 0
    let info : View → Info := fun _ => { reads := [sreg y], writes := [sreg x], mask := .ignores }
    let ask (w : View) : Current :=
      { who := .cres w.g, tile := w.cl % 4, amount := amount w, since := (w.s.cluster w.cl).cyc }
    let str (w : View) : Str := w.s.str (clusterString w.cl)
    let asks (w : View) : Prop := 0 < amount w ∧ amount w ≤ 64 ∧ w.gr.cres = none ∧ (str w).holds (.cres w.g) = false ∧
      (str w).waits (.cres w.g) = false
    let chosen (w : View) (rest : List Current) : Prop := (str w).next [] ((str w).waiting ++ [ask w]) = some (ask w, rest)
    (∀ rest, CompletesIf (.cres x y) info (fun w => asks w ∧ chosen w rest)
      (fun w t =>
        w.onGroup (fun gr => { gr.setS x.toNat (BitVec.ofNat 64 (amount w)) with cres := some (amount w) })
          (strPut (clusterString w.cl) (fun q => q.grant (ask w) rest) t)) s) ∧
    IssuesIf (.cres x y) info (fun w => asks w ∧ ∀ rest, ¬chosen w rest)
      (fun w t => w.held (.cres x.toNat (amount w))
        (strPut (clusterString w.cl) (fun q => { q with waiting := q.waiting ++ [ask w], quietSince := none }) t)) s ∧
    CompletesIf .crel (fun _ => { mask := .ignores }) (fun w => w.gr.cres.isSome = true)
      (fun w t => w.onGroup (fun gr => { gr with cres := none }) (currentReleased w.cl (.cres w.g) t)) s ∧
    ∀ q : Str, (∀ c, q.fits c = true ↔ ∀ tile ∈ [0, 1, 2, 3], q.maxOwn (c :: q.held) ≤ q.sum (c :: q.held) tile + 32 * q.frac.2) ∧
      (∀ c rest, q.next [] (c :: rest) = if q.fits c then some (c, rest) else if c.passed < 64 then q.next [c] rest else none)

/-- R56, R327 to R330, R358 to R366: what the events of sensors, power states, the Sluice, clocks and DRAM refresh leave. The
emergency ends and a string is gated as log entries 39 and 40 say, currents are counted in eighths of an ampere (log entry 59),
a window is measured at the present SET (log entry 49), and DTEMP.DBL follows as log entry 71 says. -/
def Obligations.PowerEvents : Prop :=
  (∀ cl temp, Fires (.dieTempChange cl temp) (fun _ => cl < 128)
    (fun s => thermSet cl (clusterPut cl (fun c => { c with dieTemp := temp }) s))) ∧
  Fires .pkgCurrentHigh (fun _ => True)
    (fun s => allClusters.foldl (fun t cl => constrainedAs cl (fun c => { c with pkg := true }) t) s) ∧
  Fires .pkgCurrentLow (fun _ => True)
    (fun s => allClusters.foldl (fun t cl => constrainedAs cl (fun c => { c with pkg := false }) t) s) ∧
  (∀ cl w, Fires (.reactionWindowEnd cl)
    (fun s => (s.cluster cl).windowStart = some w ∧ (s.cluster cl).constrained = true ∧
      w + 10 * setClock s cl ≤ (s.cluster cl).cyc)
    (clusterPut cl fun c => { c with windowStart := none, zeroSince := none, skip := true })) ∧
  (∀ cl q, Fires (.skipEnd cl)
    (fun s => (s.cluster cl).zeroSince = some q ∧ (s.cluster cl).skip = true ∧ (s.cluster cl).constrained = false ∧
      q + 10 * setClock s cl ≤ (s.cluster cl).cyc)
    (clusterPut cl fun c => { c with skip := false, zeroSince := none })) ∧
  (∀ layer, Fires (.dramEmergency layer) (fun s => layer < 8 ∧ 95 * 16 ≤ SMap.look 0 s.dev.layerTemp layer) emergencyBegun) ∧
  (∀ layer temp, Fires (.dramTempSample layer temp) (fun _ => layer < 8) (fun s =>
    let t := devPut (fun d => { d with layerTemp := SMap.store 0 d.layerTemp layer temp }) s
    let u := if s.dev.emergency = true ∧ hottest t.dev < 92 * 16 then emergencyEnded t else t
    let v := allClusters.foldl (fun t cl => thermSet cl t) u
    if 95 * 16 ≤ temp then emergencyBegun v else v)) ∧
  (∀ ch layer, Fires (.rankRefresh ch layer) (fun _ => ch < 128 ∧ layer < 8) (fun s =>
    let temp := SMap.look 0 s.dev.layerTemp layer
    devPut (fun d => { d with
      blocked := NSet.add d.blocked (8 * ch + layer)
      dbl := if 85 * 16 < temp then NSet.add d.dbl layer else if temp < 82 * 16 then NSet.erase d.dbl layer else d.dbl }) s)) ∧
  (∀ ch layer, Fires (.rankRefreshEnd ch layer) (fun _ => True)
    (devPut fun d => { d with blocked := NSet.erase d.blocked (8 * ch + layer) })) ∧
  (∀ i c rest, Fires (.sluiceGrant i) (fun s => (s.str i).next [] (s.str i).waiting = some (c, rest))
    (fun s => quieted i (reservationBegun (4 * i + c.tile) c.who
      (strPut i (fun q => q.grant c rest) s)))) ∧
  (∀ core sfu,
    let who : Asker := if sfu then .sfu core else .vec core
    Fires (.vectorReservationIdle core sfu)
      (fun s => (s.str (clusterString (coreCluster core))).holds who = true ∧
        (if sfu then (s.core core).sfuUntil else (s.core core).vecUntil).getD 0 ≤ (s.cluster (coreCluster core)).cyc)
      (fun s => corePut core (fun c => if sfu then { c with sfuUntil := none } else { c with vecUntil := none })
        (currentReleased (coreCluster core) who s))) ∧
  (∀ i c, Fires (.stringThrottle i)
    (fun s => i < 32 ∧ (s.str i).throttled = false ∧ (s.str i).waiting.find? (fun c =>
      c.since + (s.str i).setClk ≤ (s.cluster (4 * i + c.tile)).cyc && !(s.str i).fits c) = some c)
    (fun s => tilesPut i (fun cl => constrainedAs cl fun x => { x with strc := true })
      (strPut i (fun q => Str.measured { q with throttled := true, throttleBy := 4 * i + c.tile, quietSince := none }) s))) ∧
  (∀ i q, Fires (.throttleEnd i)
    (fun s => (s.str i).quietSince = some q ∧ (s.str i).throttled = true ∧ (s.str i).waiting = [] ∧
      q + 4 * (s.str i).setClk ≤ (s.cluster (s.str i).throttleBy).cyc)
    (fun s => tilesPut i (fun cl => constrainedAs cl fun x => { x with strc := false })
      (strPut i (fun q => Str.measured { q with throttled := false, quietSince := none }) s))) ∧
  (∀ i, Fires (.clockBoostStep i true)
    (fun s => i < 32 ∧ (s.str i).setClk + 25 ≤ (s.str i).ceiling ∧ ((s.str i).setClk < 3000 ∨ (s.dev.emergency = false ∧
      ∀ k ∈ [0, 1, 2, 3], (s.cluster (4 * i + k)).constrained = false)))
    (strPut i fun q => { q with setClk := q.setClk + 25 })) ∧
  (∀ i, Fires (.clockBoostStep i false) (fun s => i < 32 ∧ 1225 ≤ (s.str i).setClk)
    (strPut i fun q => { q with setClk := q.setClk - 25 })) ∧
  (∀ i, Fires (.wearAccumulate i) (fun _ => True) (strPut i fun q =>
    let q := { q with stress := min (2 ^ 32 - 1) (q.stress + 1) }
    { q with setClk := min q.setClk q.ceiling })) ∧
  (∀ cl n, Fires (.timingErrorReplay cl n) (fun s => (s.str (clusterString cl)).gated = false)
    (clusterPut cl fun c => { c with cyc := c.cyc + n })) ∧
  (∀ cl n, Fires (.timingErrorReplay cl n) (fun s => (s.str (clusterString cl)).gated = true) id) ∧
  (∀ i, Fires (.stringGate i)
    (fun s => i < 32 ∧ (s.str i).gated = false ∧ stringIdle s i = true ∧ (s.str i).idleSince = none)
    (fun s => strPut i (fun q => { q with idleSince := some s.timer }) s)) ∧
  (∀ i q, Fires (.stringGate i)
    (fun s => i < 32 ∧ (s.str i).gated = false ∧ stringIdle s i = true ∧ (s.str i).idleSince = some q ∧ q + 5 ≤ s.timer)
    (fun s => tilesPut i (fun cl => clusterPut cl fun c => { c with crc := [] })
      (strPut i (fun q => { q with gated := true, idleSince := none }) s))) ∧
  ∀ i w, Fires (.stringWake i) (fun s => (s.str i).wakeAt = some w ∧ w ≤ s.timer)
    (strPut i fun q => { q with gated := false, wakeAt := none })

/-- R27, R29, R31 to R33, R36, R37: a miss takes the slot of its page, else the lowest free one, whose vector is raised, else it
waits for one; a reply frees its slot and acts on the waiters of that slot only; a reply that names no slot of its function, or
has a reserved field, sets BADREPLY; lanes of a parked load that wait no more perform. An invalidation drops what it covers and
is BUSY until no access uses it; one that the function may not ask for, or that meets BUSY, is ignored. When an answered access
is presented again is the model's choice (log entry 9). -/
def Obligations.TranslationEvents : Prop :=
  let slot (s : State) (tbl tag : Nat) : Option PrSlot := SMap.get? (s.table tbl).slots tag
  let named (tbl vfn : Nat) : Prop := tbl < 64 ∨ vfn = tbl - 64
  let attached (gr : Group) (tbl tag : Nat) (p : Parked) : Prop :=
    gr.parked = some p ∧ ∃ l, (l, Wait.slot tbl tag) ∈ p.waits
  let staged (s : State) (tbl tag : Nat) : Prop := ∀ g gr p, s.group? g = some gr → attached gr tbl tag p → ReadOfIssue p
  let answer (tbl vfn tag : Nat) (fail : Bool) : Instr := if fail then .prreplyFail tbl vfn tag else .prreplyRetry tbl vfn tag
  (∀ (s : State) ctx vfn stage page kind,
    let tbl := tableFor vfn stage
    let found := (s.table tbl).slots.find? fun e => e.2.page == page && e.2.ctx == ctx && e.2.stage == stage
    let attach : M s Wait := attachMiss ctx vfn stage page kind []
    (∀ tag sl, found = some (tag, sl) → Gives attach s (.slot tbl tag)
      (tablePut tbl (fun q => { q with slots := SMap.put q.slots tag { sl with
        kind := if strength sl.kind < strength kind then kind else sl.kind, waiters := sl.waiters + 1 } }) s)) ∧
    (∀ tag, found = none → tag < 32 → slot s tbl tag = none → (∀ i, i < tag → slot s tbl i ≠ none) →
      Gives attach s (.slot tbl tag) (vectorRaised (if stage = 1 then vfn else 0) 1 (tablePut tbl (fun q =>
        { q with slots := SMap.put q.slots tag { page := page, ctx := ctx, stage := stage, kind := kind, waiters := 1 } }) s))) ∧
    (found = none → (∀ i, i < 32 → slot s tbl i ≠ none) → Gives attach s (.full tbl) s)) ∧
  (∀ tbl vfn tag sl, Fires (.prreplyRetry tbl vfn tag) (fun s => named tbl vfn ∧ slot s tbl tag = some sl)
    (pageAnswered tbl tag sl false)) ∧
  (∀ tbl vfn tag sl, Fires (.prreplyFail tbl vfn tag)
    (fun s => named tbl vfn ∧ slot s tbl tag = some sl ∧ staged s tbl tag) (pageAnswered tbl tag sl true)) ∧
  (∀ tbl vfn tag sl g gr p tm, Fires (.prreplyFail tbl vfn tag)
    (fun s => named tbl vfn ∧ slot s tbl tag = some sl ∧ s.group? g = some gr ∧ attached gr tbl tag p ∧ ¬ReadOfIssue p ∧
      (∀ h gr' p', h ≠ g → s.group? h = some gr' → ¬attached gr' tbl tag p') ∧
      s.team? (groupTeam g) = some tm ∧ watched s tm = false ∧ gr.inHandler = false ∧ gr.trap.tvec.getLsbD 15 = true)
    (fun s =>
      let mine := p.acc.lanes.filter fun a => (a.lane, Wait.slot tbl tag) ∈ p.waits
      let ds := mine.map fun a => xlateDetail a.lane XCode.denied a.va
      groupPut g (if gr.lcnt = 0 ∧ gr.fcnt = 0 then parkedFailed p ds else parkedDraining p ds)
        (groupLetGo g tm (slotsLeft (p.waits.map (·.2)) (pageReplied tbl tag sl true s))))) ∧
  (∀ tbl vfn tag fail, Fires (answer tbl vfn tag fail)
    (fun s => ¬named tbl vfn ∨ slot s tbl tag = none) (tablePut tbl fun t => { t with bad := true })) ∧
  (∀ f (val : W64) s, f < 64 → s.boot.started = true → s.boot.recovery = false →
    let v := val.toNat % 2 ^ 32
    (bitsOf v 31 16 ≠ 0 ∨ bitsOf v 7 5 ≠ 0 ∨ 2 ≤ bitsOf v 9 8 →
      exec (.registerWrite f 0x100400 true val) s = .next (tablePut f (fun t => { t with bad := true }) s)) ∧
    (bitsOf v 31 16 = 0 → bitsOf v 7 5 = 0 → bitsOf v 9 8 < 2 →
      exec (.registerWrite f 0x100400 true val) s =
        exec (answer f (bitsOf v 15 10) (bitsOf v 4 0) (bitsOf v 9 8 == 1)) s)) ∧
  (∀ (s u : State) w p l ok, s.moves = [] → view s = some w → w.gr.exited = false → w.t.core.isSome = true →
    w.gr.trap.pending = none → stringAwake s w.cl = true → w.gr.parked = some p → (∃ sg, p.acc.kind = .load sg) →
    p.acc.space = 0 → p.acc.acq = false → p.acc.rel = false → p.acc.aon = false → p.acc.np = false → ok ≠ [] →
    ok.any (·.chk) = false → (u.ctx w.t.ctx).msz = false → s.launch? w.t.launch = some l →
    let ready := p.acc.lanes.filter fun a => !stillWaits s p.waits a.lane
    let rest := p.acc.lanes.filter fun a => !(ready.any (·.lane = a.lane))
    watchHits s w.t w.gr p.acc ready = [] → Gives (z := s) (translate w.cl w.t.ctx l.rcd p.acc ready) s { ok := ok } u →
    let push (gr : Group) : Group :=
      { gr with nextId := gr.nextId + 1
                ls := gr.ls ++ [{ id := gr.nextId, unit := p.unit, acc := { p.acc with lanes := splitParts p.acc ok } }] }
    (rest ≠ [] → step s = .next (w.onGroup (fun gr => { push gr with
      parked := some { p with acc := { p.acc with lanes := rest }, waits := p.waits.filter fun x => stillWaits s p.waits x.1 } }) u)) ∧
    (rest = [] → w.gr.hold = none → PlainEnd w → step s = .next (w.next (w.onGroup (fun gr => { push gr with parked := none }) u)))) ∧
  (∀ f stg ctx, Fires (.xinvPage f stg ctx) (fun s => (s.fn f).xinvBusy = none ∧ (f = 0 ∨ stg = 0))
    (fun s => invalidating f (stg, 0, f * 65536 + ctx % 65536, (s.fn f).xinvAddr.toNat / 4096) s)) ∧
  (∀ f stg ctx, Fires (.xinvContext f stg ctx) (fun s => (s.fn f).xinvBusy = none ∧ (f = 0 ∨ stg = 0))
    (fun s => invalidating f (stg, 1, f * 65536 + ctx % 65536, (s.fn f).xinvAddr.toNat / 4096) s)) ∧
  (∀ stg, Fires (.xinvVfn 0 stg) (fun s => (s.fn 0).xinvBusy = none)
    (fun s => invalidating 0 (stg, 2, (s.fn 0).xinvAddr.toNat / 4096 % 64, (s.fn 0).xinvAddr.toNat / 4096) s)) ∧
  (∀ f stg ctx (page : Bool), Fires (if page then .xinvPage f stg ctx else .xinvContext f stg ctx)
    (fun s => (s.fn f).xinvBusy ≠ none ∨ (f ≠ 0 ∧ stg ≠ 0)) id) ∧
  (∀ f stg, Fires (.xinvVfn f stg) (fun s => (s.fn f).xinvBusy ≠ none ∨ f ≠ 0) id) ∧
  ∀ f req, Fires (.xinvDone f) (fun s => (s.fn f).xinvBusy = some req ∧ usesCovered s req = false)
    (fun s => fnPut f (fun r => { r with xinvBusy := none }) (translationsDropped req s))

/-- R13, R15 to R26, R37: a translation of a virtual address by the walk of stage 1: a cached translation serves it; else the
walk reads the entries down to a leaf, and reports a table outside DRAM, an entry that is not present, a malformed one, a page
its range or type forbids, a permission it lacks, or an A or D bit that hardware does not set; else it sets A and D, caches the
translation and gives the address. With stage 2 the two walks combine. Where a range and a permission are both broken ADDRSIZE
is reported (log entry 84); of an intact run the entry at the address's own index is used (log entry 15). -/
def Obligations.TranslationWalk : Prop :=
  ∀ (s : State) (cl ctx : Nat) (c : CtxRec) (kind : Nat) (nd : Bool) (va : W64),
    let x : M s (Except XFail LaneAcc) := xlate cl ctx c kind nd va
    let page := va.toNat / 4096
    let t : State := { s with free := s.free + 1 }
    let fails (f : XFail) : Prop := Gives x s (.error f) t
    (canonical va = false → Gives x s (.error (.bad XCode.nonCanon)) s) ∧
    (∀ h, canonical va = true → tlbHit (s.cluster cl) ctx page kind nd = some h →
      Gives x s (.ok { lane := 0, va := va, pa := h.frame + va.toNat % 4096, mt := h.mt, chk := h.chk, bits := h.bits }) s) ∧
    (∀ n, canonical va = true → tlbHit (s.cluster cl) ctx page kind nd = none → Descends s c va.toNat n →
      let table := tableAt s c.s1root va.toNat
      let place := entryPlace s c.s1root va.toNat
      let at_ (j : Nat) : Nat := entryAt s (place j)
      let e := at_ n
      let lvl := 4 - n
      let out := bitsOf e 51 12 * 4096 + va.toNat % 2 ^ (12 + 9 * lvl)
      let unset : Prop := c.hwad = false ∧ ((∃ j, j ≤ n ∧ bitOf (at_ j) 8 = false) ∨ (needsW kind = true ∧ bitOf e 9 = false))
      let bits := 12 + (if lvl = 0 ∧ bitOf e 11 = true then 4 else 9 * lvl)
      (tableOk s (table n) = false → fails (.bad XCode.addrSize)) ∧
      (tableOk s (table n) = true → paBlocked s (place n) = false →
        (bitOf e 0 = false → fails (if c.prqe then .miss 1 page kind else .bad XCode.notPresent1)) ∧
        (bitOf e 0 = true → BadEntry lvl e → fails (.bad XCode.malformed)) ∧
        (bitOf e 0 = true → ¬BadEntry lvl e → bitOf e 1 = true →
          (lvl = 0 → bitOf e 11 = true → runOk s (table n) (page % 512) = true) →
          (OutOfRange s c out e → fails (.bad XCode.addrSize)) ∧
          (¬OutOfRange s c out e → Denies kind nd e → fails (.bad XCode.permission)) ∧
          (¬OutOfRange s c out e → ¬Denies kind nd e → unset →
            fails (if c.prqe then .miss 1 page Kind.adUpdate else .bad XCode.adClear)) ∧
          (¬OutOfRange s c out e → ¬Denies kind nd e → ¬unset → s.home.dirty.length + s.home.clean.length + 8 ≤ 32768 →
            Gives x s (.ok { lane := 0, va := va, pa := out, mt := bitsOf e 61 59, chk := bitOf e 62, bits := bits })
              (clusterPut cl (fun k => { k with
                  tlb := { ctx := ctx, page := page, frame := out / 4096 * 4096, rd := bitOf e 2, w := bitOf e 3, xn := bitOf e 63
                           mt := bitsOf e 61 59, chk := bitOf e 62, syso := false, dirty := needsW kind || bitOf e 9, bits := bits
                           ipas := [] } :: k.tlb.filter fun q => !(q.ctx == ctx && q.page == page) })
                (adMarked (needsW kind) ((List.range (n + 1)).map fun j => (place j, at_ j, j == n)) t)))))) ∧
    ∀ l1 u1, c.s2en = true → walkLevels s 1 va.toNat kind (table1 s c) 5 c.s1root = .ok (l1, u1) →
      (∀ f, walk2 s c kind (l1.out % 2 ^ 52) = .error f → walk s c kind va.toNat = .error f) ∧
      ∀ l2 u2, walk2 s c kind (l1.out % 2 ^ 52) = .ok (l2, u2) → walk s c kind va.toNat = .ok
        ({ out := l2.out, bits := min l1.bits l2.bits, rd := l1.rd && l2.rd, w := l1.w && l2.w, xn := l1.xn || l2.xn
           mt := max l1.mt l2.mt, chk := l1.chk, syso := l1.syso }, u1 ++ u2)

/-- R15, R47, R49, R51 to R53, R56, R61 to R67: partition commits, metadata zeroing, evictions, storage errors, and writes of
registers. A shadow written while BUSY is 1 takes part in the commit (log entry 86), and an error in an accumulator bank counts
at level 4 (log entry 87): the model's choices. A discard is one step (log entry 31), reads of masks show current values (log
entry 45), and a GO bit acts in the write (log entry 61). -/
def Obligations.DeviceEvents : Prop :=
  let lines (s : State) : List Nat :=
    (SMap.keys s.home.dirty ++ SMap.keys s.home.clean).filter fun l => commitBlocks s.dev (64 * l)
  let up (s : State) : Prop := s.boot.started = true ∧ s.boot.recovery = false
  (∀ sel, Fires (.hcommit sel) (fun s => s.dev.hcommit = none) (devPut fun d => { d with hcommit := some sel })) ∧
  (∀ sel, Fires (.hcommit sel) (fun s => s.dev.hcommit ≠ none) id) ∧
  (∀ sel, Fires .hcommitDone
    (fun s => s.dev.hcommit = some sel ∧ ∀ l ∈ lines s, (SMap.get? s.home.dirty l).isSome = true → rankBlocked s.dev (64 * l) = false)
    (fun s => devPut (fun d => d.commit sel) ((lines s).foldl (fun t l => lineLeft l t) s))) ∧
  (∀ n, Fires (.mdzGo n) (fun s => s.home.zeroing = none)
    (fun s => homePut (fun h => { h with zeroing := some (s.dev.mdzAddr.toNat / 4096, n.toNat) })
      (devPut (fun d => { d with mdzPages := n }) s))) ∧
  (∀ n, Fires (.mdzGo n) (fun s => s.home.zeroing ≠ none) (devPut fun d => { d with mdzPages := n })) ∧
  (∀ page n, Fires .mdzDone (fun s => s.home.zeroing = some (page, n)) (homePut fun h =>
    { h with info := SMap.delRange h.info (64 * page) (64 * n), infoPoison := SMap.delRange h.infoPoison (64 * page) (64 * n)
             zeroing := none })) ∧
  (∀ cl line, Fires (.crcEvict cl line) (fun _ => True) (clusterPut cl fun c => { c with crc := SMap.del c.crc line })) ∧
  (∀ line, Fires (.l2Evict line) (fun s => linePresent s.home line = true ∧ rankBlocked s.dev (64 * line) = false)
    (lineLeft line)) ∧
  (∀ gran, Unshared gran → Fires (.uncorrectableError gran) (fun _ => True)
    (fun s => devPut (fun d => { d with ue := bump d.ue (levelOf gran) }) (granuleMarked gran s))) ∧
  (∀ level, Fires (.correctedError level) (fun _ => level < 8) (devPut fun d => { d with ce := bump d.ce level })) ∧
  (∀ p i (v : W64), 1 ≤ p → p ≤ 7 → i < 7 →
    Fires (.registerWrite 0 (0x300000 + 0x40 * p + 8 * i) true v) up (devPut fun d =>
      { d with hmaskShadow := SMap.put d.hmaskShadow (8 * p + i) (v &&& 0xFFFFFFFFFFFC0) })) ∧
  (∀ v : W64, v.getLsbD 30 = false → Fires (.registerWrite 0 0x300328 true v) up (devPut fun d =>
    { d with mdzPages := v.extractLsb' 0 20 })) ∧
  (∀ (v : W64) s, v.getLsbD 30 = true → up s →
    exec (.registerWrite 0 0x300328 true v) s = exec (.mdzGo (v.extractLsb' 0 20)) s) ∧
  ∀ f v, f < 64 →
    let writes (off : Nat) (g : Fn → Fn) : Prop := Fires (.registerWrite f off true v) up (fnPut f g)
    writes 0x100800 (fun r => { r with xinvAddr := v &&& 0xFFFFFFFFFFFFF000 }) ∧
    writes 0x100A00 (fun r => { r with htsel := v.extractLsb' 0 16 }) ∧
    writes 0x100B00 (fun r => { r with cmsel := v.extractLsb' 0 16 }) ∧
    writes 0x100C10 (fun r => { r with qtsel := v.extractLsb' 0 16 }) ∧
    writes 0x100C30 (fun r => { r with lcaddr := v &&& 0xFFFFFFFFFFFFFFE0 }) ∧
    writes 0x100C38 (fun r => { r with lcarg := v }) ∧
    writes 0x100D18 (fun r => { r with prctl := v }) ∧
    writes 0x100E18 (fun r => { r with dbgdata := v }) ∧
    writes 0x101010 (fun r => { r with flink := v.extractLsb' 0 1 }) ∧
    Fires (.registerWrite f 0x100C38 false v) up
      (fnPut f fun r => { r with lcarg := r.lcarg.extractLsb' 32 32 ++ v.extractLsb' 0 32 }) ∧
    Fires (.registerWrite f 0x100C3C false v) up
      (fnPut f fun r => { r with lcarg := v.extractLsb' 0 32 ++ r.lcarg.extractLsb' 0 32 })

/-- R48, R115 to R119, R123, R127, R133, R237, R242, R246: a queued store or atomic is performed at its home slice or at its
scratchpad where nothing before it in the group's order is in its way, a load takes its value from the home slice, the read
cache, a merge buffer or an older store, and SFU results land: a group that waited for one goes on with the next word. Which
accesses a party is ordered after is kept as clocks (log entry 6). -/
def Obligations.PerformingEvents : Prop :=
  let entry (s : State) (g id : Nat) (gr : Group) (e : SqEntry) : Prop :=
    s.group? g = some gr ∧ gr.sq.find? (fun e => e.id = id) = some e ∧ mayPerform s g gr e = true
  let stores (s : State) (g id : Nat) (gr : Group) (e : SqEntry) (a : LaneAcc) : Prop :=
    entry s g id gr e ∧ e.acc.kind = .store ∧ e.acc.lanes = [a]
  (∀ g id gr e a, Fires (.storePerform g id)
    (fun s => stores s g id gr e a ∧ e.acc.space = 0 ∧ paRange a.pa ≠ .control ∧ Room s a.pa e.acc.psize ∧
      Clean s (groupWho g gr e.unit) a.pa e.acc.psize true)
    (fun s => stored g e.unit e.acc gr a (groupPut g (unqueued id) s))) ∧
  (∀ g id gr e a, Fires (.storePerform g id)
    (fun s => stores s g id gr e a ∧ e.acc.space = 0 ∧ paRange a.pa = .control)
    (fun s => { groupPut g (unqueued id) s with
      moves := .regWrite 0 (a.pa - 0x8000000000) (e.acc.psize == 8) (BitVec.ofNat 64 a.data) :: s.moves })) ∧
  (∀ g id gr e a, Fires (.storePerform g id)
    (fun s => stores s g id gr e a ∧ e.acc.space ≠ 0 ∧ (s.team? (spOwner a.pa)).isSome = true ∧
      Clean s (groupWho g gr e.unit) (spKey (spOwner a.pa) (spOffset a.pa)) e.acc.psize true)
    (fun s =>
      let t := groupPut g (unqueued id) s
      spWritten (laneWho g e.unit e.acc a gr t) (spOwner a.pa) (spOffset a.pa) (natBytes a.data e.acc.psize) t)) ∧
  (∀ g id gr e op pa, Fires (.storePerform g id)
    (fun s => entry s g id gr e ∧ e.acc.kind = .atom op ∧ e.acc.space = 0 ∧
      (∀ a ∈ e.acc.lanes, a.pa = pa ∧ a.chk = false) ∧ (e.acc.lanes.map (·.lane)).Pairwise (· < ·) ∧
      AtomsFollow g e.unit e.acc op gr e.acc.lanes s ∧
      ∃ tm l, s.team? (groupTeam g) = some tm ∧ s.launch? tm.launch = some l ∧ l.journal = 0)
    (fun s =>
      let r := atomsPerformed g e.unit e.acc op gr e.acc.lanes s
      groupPut g (fun gr => { unqueued id gr with
        ls := gr.ls.map fun f =>
          if f.atom && f.unit = e.unit then
            { f with acc := { f.acc with lanes := f.acc.lanes.map fun a => (r.2.find? fun d => d.lane = a.lane).getD a } }
          else f }) r.1)) ∧
  (let load (s : State) (g id : Nat) (gr : Group) (e : LsEntry) (a : LaneAcc) : Prop :=
    s.group? g = some gr ∧ gr.ls.find? (fun e => e.id = id) = some e ∧ e.acc.lanes = [a] ∧ a.done = false ∧
      e.atom = false ∧ e.acc.space = 0 ∧ (mszOf s g = false ∨ gr.arrived e.unit = true) ∧
      gr.mayRead e.unit e.acc a = true ∧ laneBlocked s g e.acc a = false ∧
      Clean s (groupWho g gr e.unit) a.pa e.acc.psize false
  let older (gr : Group) (e : LsEntry) (a : LaneAcc) : List SqEntry :=
    gr.sq.filter fun f => f.unit < e.unit && f.acc.touches a.pa e.acc.psize
  (∀ g id gr e a, Fires (.loadLand g id [.home])
    (fun s => load s g id gr e a ∧ older gr e a = [] ∧ paRange a.pa ≠ .control ∧ Room s a.pa e.acc.psize ∧
      (e.acc.acq = false → a.mt = 0 → CacheRoom s (s.groupCluster g) a.pa))
    (fun s =>
      let n := e.acc.psize
      loadLanded g e [laneRead n a (readAt (groupWho g gr e.unit) a.pa n s)] (homeRead g n gr e a s))) ∧
  (∀ g id gr e a, Fires (.loadLand g id [.home])
    (fun s => load s g id gr e a ∧ older gr e a = [] ∧ paRange a.pa = .control)
    (fun s => loadLanded g e [{ a with data := w0ReadBytes s 0 (a.pa - 0x8000000000) e.acc.psize, done := true }] s)) ∧
  (∀ g id gr e a c,
    let cells (e : LsEntry) : List (Byte × Nat) := (c.cells.drop (a.pa % 64)).take e.acc.psize
    let taken (s : State) : Prop := load s g id gr e a ∧ PlainLoad e a ∧ older gr e a = [] ∧
      (cells e).length = e.acc.psize ∧ gr.aboveFloor a.pa ((cells e).map (·.2)) = true
    let lands (s : State) : State :=
      loadLanded g e [cellsLane e.acc.psize a (cells e) s] (cellsRead g e.acc.psize gr e a (cells e) s)
    Fires (.loadLand g id [.cache])
      (fun s => taken s ∧ a.mt = 0 ∧ SMap.get? (s.cluster (s.groupCluster g)).crc (a.pa / 64) = some c) lands ∧
    ∀ i, Fires (.loadLand g id [.merge i])
      (fun s => taken s ∧ s.home.merge[i]? = some { line := a.pa / 64, copy := c } ∧ gr.mu ≤ c.at_) lands) ∧
  ∀ g id gr e a f b, Fires (.loadLand g id [.forward])
    (fun s => load s g id gr e a ∧ PlainLoad e a ∧ (older gr e a).getLast? = some f ∧ f.acc.lanes.getLast? = some b ∧
      f.acc.kind = .store ∧ b.pa ≤ a.pa ∧ a.pa + e.acc.psize ≤ b.pa + f.acc.psize)
    (fun s => loadLanded g e
      [{ a with data := b.data / 2 ^ (8 * (a.pa - b.pa)) % 2 ^ (8 * e.acc.psize), done := true }]
      (seenAt (groupWho g gr e.unit) a.pa e.acc.psize s))) ∧
  ∀ g id gr e,
    let land (s : State) : Prop :=
      s.group? g = some gr ∧ gr.sfu.find? (fun x => x.id = id) = some e ∧ gr.exited = false ∧ e.ovf = 0
    let lands (gr : Group) : Group := e.vals.foldl (fun gr v => gr.setV (v.1 / 32) (v.1 % 32) v.2)
      { gr with sfu := gr.sfu.filter fun x => x.id != id }
    Fires (.sfuLand g id) (fun s => land s ∧ gr.hold ≠ some (.sfu id)) (groupPut g lands) ∧
    ∀ s w, land s → gr.hold = some (.sfu id) → viewOf s g = some w → PlainEnd w →
      exec (.sfuLand g id) s = .next (w.next (w.onGroup (fun gr => { lands gr with hold := none }) s))

/-- R63, R107 to R109, R111, R115: a message is written into the receiver's ring, in slots from TAIL on, with the poison of its
payload; a ring that refuses its sender counts the drop; a message whose receiver is gone is dropped. -/
def Obligations.MessageEvents : Prop :=
  let sends (s : State) (g idx : Nat) (gr : Group) (m : Message) : Prop :=
    s.group? g = some gr ∧ gr.outbox[idx]? = some m ∧ earlierMessage s g m = false
  let takes (s : State) (m : Message) (e : Nat) (tm : Team) : Prop :=
    findTag s m.ctx m.dst = some e ∧ s.team? e = some tm ∧ tm.state ≠ .unwinding ∧ tm.state ≠ .notBegun ∧
      tm.core.isSome = true ∧ spInside tm m.off 64 = true
  (∀ g idx gr m, Fires (.messageArrival g idx) (fun s => sends s g idx gr m ∧ findTag s m.ctx m.dst = none) (messageGone g idx)) ∧
  (∀ g idx gr m e tm, Fires (.messageArrival g idx)
    (fun s => sends s g idx gr m ∧ findTag s m.ctx m.dst = some e ∧ s.team? e = some tm ∧ tm.state = .unwinding) (messageGone g idx)) ∧
  (∀ g idx gr m e tm,
    let r := readRing (spNat tm m.off 64)
    Fires (.messageArrival g idx) (fun s => sends s g idx gr m ∧ takes s m e tm ∧ r.drops? tm m.src = true)
      (fun s => messageGone g idx (spWritten sysParty e (m.off + 28) (natBytes (min (r.drops + 1) 0xFFFFFFFF) 4) s))) ∧
  ∀ g idx gr m e tm,
    let r := readRing (spNat tm m.off 64)
    Fires (.messageArrival g idx)
      (fun s => sends s g idx gr m ∧ takes s m e tm ∧ r.drops? tm m.src = false ∧ r.used + m.slots ≤ 2 ^ r.logn ∧
        r.wmode = 0 ∧ ∃ l, s.launch? tm.launch = some l ∧ l.journal = 0)
      (fun s => messageGone g idx (messageNoted g e m
        (spWritten sysParty e (m.off + 4) (natBytes ((r.tail + m.slots) % 2 ^ 32) 4) (slotsWritten e r m s))))

/-- R53, R63, R66, R89, R91, R95, R98 to R101, R105, R115, R116, R251, R278, R279, R326, R327, R329, R379: what the events of
the engines leave: a burst moves the points of the operation chosen, under its current; a point that misses waits for its page;
an operation that is done gives its signals and counts in its batch; an entry takes its resource with its current held. Elements
of one operation are taken up in turn, or before it where the schedule picks them (log entry 56); which accesses an operation is
ordered after is kept as a clock (log entry 6). A burst is a step (log entry 19), a completion is one step (log entry 31), and a
pass gives its result at its end (log entry 33). -/
def Obligations.EngineEvents : Prop :=
  let own (s : State) (e : Nat) (tm : Team) (l : Launch) : Prop := s.team? e = some tm ∧ s.launch? tm.launch = some l
  let paid (s : State) (cl : Nat) (who : Asker) (amount : Nat) (v : State) : Prop :=
    ((s.str (clusterString cl)).holds who = true ∧ v = s) ∨
      ∃ rest, Grantable s cl who amount rest ∧ v = currentTaken cl who amount rest s
  let runs (op : MatOp) : Nat :=
    match op.kind with
    | .pass batched rcd b _ => passCycles batched (readRes rcd).fmt (readBWord b).fmt (readBWord b).kt
    | _ => 0
  (∀ s cl op p tm l w m key v u,
    let v' := clusterPut cl (fun c => { c with
      copyq := c.copyq.map fun o => if o.id ≠ op.id && CopyOp.hasWork s o then { o with passed := o.passed + 1 } else o }) v
    let done (f : CopyOp → CopyOp) (t : State) : State := currentReleased cl (.copy cl)
      (clusterPut cl (fun c => { c with copyq := c.copyq.map fun o => if o.id = op.id then f o else o }) t)
    stringAwake s cl = true → pickCopy s (s.cluster cl).copyq = some op →
    (s.cluster cl).copyq.find? (fun o => o.id = op.id) = some op → own s op.eid tm l → paid s cl (.copy cl) 8 v →
    (∀ sn d, op.kind ≠ .fold sn d) → op.ready s (max 1 (512 / op.esize)) = [p] →
    Gives (z := s) (copyPoint (engAt cl op.id tm l op.denied op.clock p) op tm.shape.spad p) v' (w, m, key) u →
    (m.miss = none → exec (.copyBurst cl) s = .next (done (fun o => o.moved p w m key) u)) ∧
    ∀ r wt u', m.miss = some r →
      Gives (z := s) (attachMiss tm.ctx l.rcd.vfn r.stage r.page r.kind (op.waiting.map (·.2))) u wt u' →
      exec (.copyBurst cl) s = .next (done (fun o => o.held p wt r.va) u')) ∧
  (∀ s x op src tm p sa da, s.team? op.eid = some tm → op.kind = .copy src → op.idx = none → src.space = 1 →
    op.dst.space = 1 → src.lsize = op.dst.lsize → src.lsize ≤ 3 → spPoisoned tm sa.toNat (2 ^ src.lsize) = false →
    src.addr tm.shape.spad (List.zipWith (· + ·) (op.dst.coords p) op.org) = some sa →
    op.dst.addr tm.shape.spad (op.dst.coords p) = some da →
    let n := 2 ^ src.lsize
    let v := seenAt x.who (spKey op.eid sa.toNat) n s
    Clean s x.who (spKey op.eid sa.toNat) n false → Clean v x.who (spKey op.eid da.toNat) n true →
    Gives (z := s) (copyPoint x op tm.shape.spad p) s
      ([(2 ^ 60 + da.toNat, n)], { reads := [(2 ^ 60 + sa.toNat, n)] }, wrapTo 64 da + 1)
      (spWritten x.who op.eid da.toNat (spBytes tm sa.toNat n) v)) ∧
  (∀ cl id op tm, Fires (.copyComplete cl id)
    (fun s => (s.cluster cl).copyq.find? (fun o => o.id = id) = some op ∧ op.over s = true ∧ s.team? op.eid = some tm ∧
      (∀ a ∈ SMap.keys op.writes, NSet.has op.reads a = false) ∧ op.dep = none ∧ op.bobj = none ∧
      ∀ off, op.descOff = some off → Clean s (opWho id op.clock) (spKey op.eid (off + 56)) 8 true)
    (fun s => opCounted op.g 0 id (if op.descOff.isSome then 0 else outcomeFlags op.poison op.layerData op.xfail) op.clock
      (copyGone cl op (match op.descOff with
        | some off => spWritten (opWho id op.clock) op.eid (off + 56) (natBytes (op.status false) 8) s
        | none => s)))) ∧
  (∀ s cl id op va len tm l a u, (s.cluster cl).copyq.find? (fun o => o.id = id) = some op → op.kind = .discard va len →
    issuerDone s op.g op.start = true → own s op.eid tm l → 0 < len → va / 4096 = (va + len - 1) / 4096 →
    Gives (z := s) (engXlate (engAt cl id tm l [] op.clock 0) Kind.copyWrite ((va / 4096 * 4096 : Nat) : Int)) s (.ok a) u →
    u.dev.hcommit = none →
    exec (.discardComplete cl id) s = .next (opCounted op.g 0 id 0 op.clock
      (clusterPut cl (fun c => { c with copyq := c.copyq.filter fun o => o.id != id })
        ((List.range 64).foldl (fun t i =>
          if va ≤ va / 4096 * 4096 + 64 * i ∧ va / 4096 * 4096 + 64 * i + 64 ≤ va + len
          then lineDiscarded ((a.pa + 64 * i) / 64) t else t) u)))) ∧
  (∀ s cl id op v, (s.cluster cl).mat.find? (fun o => o.id = id) = some op → stringAwake s cl = true → op.granted = false →
    op.oldest s (s.cluster cl).mat = true →
    (match op.current cl with
      | some (who, amount) => paid s cl who amount v
      | none => v = s) →
    (∃ o, pickMat v cl (s.cluster cl).mat op.usesArray = some o ∧ o.id = id) →
    exec (.matGrant cl id) s = .next (clusterPut cl (fun c => { c with mat := c.mat.map fun o =>
      if o.id = id then { o with granted := true, doneAt := (s.cluster cl).cyc + runs op }
      else if o.usesArray == op.usesArray && (o.eligible v cl (s.cluster cl).mat) then { o with passed := o.passed + 1 }
      else o }) v)) ∧
  (∀ s cl op p tm l m v u, stringAwake s cl = true →
    (s.cluster cl).mat.find? (fun o => o.granted && !o.usesArray) = some op →
    (s.cluster cl).mat.find? (fun o => o.id = op.id) = some op → own s op.eid tm l → paid s cl (.fetch cl op.id) 8 v →
    op.burst s = [p] →
    Gives (z := s) (matPoint (engAt cl op.id tm l op.denied op.clock p) op p) v m u → m.miss = none →
    exec (.fetcherBurst cl) s = .next (currentReleased cl (.fetch cl op.id) (clusterPut cl (fun c =>
      { c with mat := c.mat.map fun o => if o.id = op.id then o.moved p m else o }) u))) ∧
  (let done (s : State) (cl id : Nat) (op : MatOp) (tm : Team) : Prop :=
    (s.cluster cl).mat.find? (fun o => o.id = id) = some op ∧ op.granted = true ∧ exhausted op.next op.total op.taken = true ∧
      op.retry = [] ∧ op.waiting = [] ∧ op.doneAt ≤ (s.cluster cl).cyc ∧ s.team? op.eid = some tm
  (∀ cl id op tm bank, Fires (.matOpComplete cl id) (fun s => done s cl id op tm ∧ op.kind = .zero bank)
    (fun s => opCounted op.g 1 id 0 op.clock (matGone cl op (teamPut op.eid (fun t => { t with mat := t.mat.zeroBank bank }) s)))) ∧
  (∀ cl id op tm batched rcd b bank,
    let r := tm.mat.pass op.rbase batched (readRes rcd) (readBWord b) bank
    Fires (.matOpComplete cl id) (fun s => done s cl id op tm ∧ op.kind = .pass batched rcd b bank)
      (fun s => opCounted op.g 1 id (outcomeFlags r.2 false false) op.clock (matGone cl op (currentReleased cl (.pass cl id)
        (teamPut op.eid (fun t => { t with mat := r.1 }) s))))) ∧
  ∀ cl id op tm, Fires (.matOpComplete cl id) (fun s => done s cl id op tm ∧ op.usesArray = false)
    (fun s => opCounted op.g 1 id op.flags op.clock (matGone cl op s))) ∧
  ∀ s id op tm l v m u (reply : PeerReply),
    let x := engAt (s.groupCluster op.g) id tm l op.denied op.clock 0
    let sent : LinkMsg := .request op.dev op.vfn op.peerCtx (ctxFn tm.ctx) (ctxId tm.ctx) 0 op.raddr op.esize
      (natBytes v op.esize) m.poison
    s.colls.find? (fun o => o.id = id) = some op → issuerDone s op.g op.start = true → own s op.eid tm l → op.op = 0 →
    op.total = 1 → op.next = 0 → op.retry = [] → op.waiting = [] → op.taken = [] →
    Gives (z := s) (engRead x op.laddr.toInt op.esize {}) s (v, m) u → m.miss = none → u.colls = s.colls →
    paBlocked u (routeAt u op.dev) = false → (reply = .done ∨ reply = .refused) →
    let failed : Bool := !routed u op.dev || reply == .refused
    exec (.collComplete id [reply]) s = .next
      (opCounted op.g 2 id (outcomeFlags (op.poison || m.poison) false (op.xfail || (m.xfail || failed))) op.clock
        { u with
          linkOut := if routed u op.dev then u.linkOut ++ [sent] else u.linkOut
          colls := u.colls.filter fun c => c.id ≠ id })

/-- R144, R150, R155, R156, R285, R287, R302, R323, R335, R381: a team begins on the core chosen for it, with its overlay; it
retires and gives up its place and its AL, with what was held for it; a topup meets its child; a phase commits; a group whose
results have drained enters its handler. A credit meets AL before a cycle's comparisons; an amount that reaches a saved team is
kept for its restoration (log entry 90), and when a neighbourhood begins to wait is noted at placements and where a core is
given up (log entry 64). An amount credited to a launch goes to its first root team (log entry 35), and an entry is free as log
entry 38 says. -/
def Obligations.TeamEvents : Prop :=
  let own (s : State) (e : Nat) (tm : Team) (l : Launch) : Prop :=
    s.team? e = some tm ∧ s.launch? tm.launch = some l ∧ l.journal = 0
  (let places (s : State) (eid core : Nat) (tm : Team) (l : Launch) (string : Option Nat) : Prop :=
    own s eid tm l ∧ placeOf (waitsNoted s) tm = some (string, core) ∧ firstInOrder (waitsNoted s) tm = true ∧
      ∃ gd, s.grid? tm.grid = some gd ∧ gd.nbh = false
  let on (tm : Team) (string : Option Nat) (s : State) : State := gridPut tm.grid (fun gd => { gd with string := string }) (waitsNoted s)
  (∀ eid core tm l string, Fires (.teamBegin eid core)
    (fun s => places s eid core tm l string ∧ (s.core core).tag0 = some (overlayKey s tm))
    (fun s => waitsNoted (begun eid core tm (on tm string s)))) ∧
  ∀ s eid core tm l string ws u, places s eid core tm l string → (s.core core).tag0 ≠ some (overlayKey s tm) →
    Gives (z := s) (overlayWords tm.ctx l.rcd l.odir tm.shape.ovid) (on tm string s) (some ws) u →
    u.team? eid = some tm → u.launch? tm.launch = some l →
    exec (.teamBegin eid core) s = .next (waitsNoted (begun eid core tm (slotZeroFilled core (overlayKey s tm) ws u)))) ∧
  (∀ eid tm l gd, Fires (.teamRetire eid)
    (fun s => own s eid tm l ∧ (tm.state = .running ∨ tm.state = .unwinding) ∧ groupsEnded s eid = true ∧
      engineBusy s eid = false ∧ childrenDone s tm = true ∧ s.grid? tm.grid = some gd ∧ gd.tickets = [] ∧
      ∀ p, tm.parent = some p → l.phm = false → p ≠ eid ∧ ∃ pt, s.team? p = some pt ∧ cycleFresh s p pt = true)
    (fun s => swept (
      let u := retired eid tm (waitsNoted s)
      let rest := tm.al.toNat + tm.due
      match tm.parent with
      | none => launchPut tm.launch (fun l => { l with credited := l.credited + rest + tm.heldTopup }) u
      | some p =>
        if l.phm then launchPut tm.launch (fun l => { l with held := l.held + rest + tm.heldTopup }) u
        else teamPut p (fun q => q.receive rest) u))) ∧
  (let tops (s : State) (g dst tag : Nat) (amount : W64) (tm : Team) (l : Launch) : Prop :=
    own s (groupTeam g) tm l ∧ ∃ gr, s.group? g = some gr ∧ gr.hold = some (.topup dst tag amount)
  let child (s : State) (g tag c : Nat) (ch : Team) : Prop :=
    tag ≠ 0 ∧ childTeam s (groupTeam g) tag = some (c, ch) ∧ s.team? c = some ch
  let back (g : Nat) (amount : W64) (tm : Team) (l : Launch) : State → State :=
    if l.phm then launchPut tm.launch fun l => { l with held := l.held + amount.toNat }
    else teamPut (groupTeam g) fun q => q.receive amount.toNat
  let returns (s : State) (g : Nat) (tm : Team) (l : Launch) : Prop := l.phm = true ∨ cycleFresh s (groupTeam g) tm = true
  (∀ g dst tag amount tm l c ch, Fires (.topupSerialise g)
    (fun s => tops s g dst tag amount tm l ∧ child s g tag c ch ∧ topupStatus l.phm ch amount = 0)
    (fun s => toppedUp g dst 0 (teamPut c (fun q => q.receive amount.toNat) s))) ∧
  (∀ g dst tag amount tm l c ch, Fires (.topupSerialise g)
    (fun s => tops s g dst tag amount tm l ∧ child s g tag c ch ∧ topupStatus l.phm ch amount = 1)
    (fun s => toppedUp g dst 1 (resumed c ch (teamPut c (fun q => q.receive amount.toNat) s)))) ∧
  (∀ g dst tag amount tm l c ch, Fires (.topupSerialise g)
    (fun s => tops s g dst tag amount tm l ∧ child s g tag c ch ∧ topupStatus l.phm ch amount = 4)
    (fun s => toppedUp g dst 4 (teamPut c (fun q => { q with heldTopup := q.heldTopup + amount.toNat }) s))) ∧
  (∀ g dst tag amount tm l c ch, Fires (.topupSerialise g)
    (fun s => tops s g dst tag amount tm l ∧ child s g tag c ch ∧ topupStatus l.phm ch amount = 2 ∧ returns s g tm l)
    (fun s => toppedUp g dst 2 (back g amount tm l s))) ∧
  ∀ g dst tag amount tm l, Fires (.topupSerialise g)
    (fun s => tops s g dst tag amount tm l ∧ (tag = 0 ∨ childTeam s (groupTeam g) tag = none) ∧ returns s g tm l)
    (fun s => toppedUp g dst 3 (back g amount tm l s))) ∧
  (∀ launch l roots members groups, Fires (.phaseCommit launch)
    (fun s => s.launch? launch = some l ∧ l.phm = true ∧ l.admitted = true ∧ l.done = false ∧
      roots = s.teams.filter (fun e => e.2.launch = launch && e.2.parent.isNone) ∧
      members = s.teams.filter (fun e => e.2.launch = launch && e.2.parent.isSome) ∧
      groups = roots.flatMap (fun e => s.teamGroups e.1) ∧ groups ≠ [] ∧
      (∀ g ∈ groups, ∃ gr, s.group? g = some gr ∧ gr.hold = some .phend) ∧ (∀ e ∈ members, e.2.state = .done) ∧
      s.home.ordered.filter (fun c => c.launch = launch) = [] ∧
      ∀ e, roots.head? = some e → s.team? e.1 = some e.2 ∧ cycleFresh s e.1 e.2 = true)
    (phaseCommitted launch l roots groups)) ∧
  ∀ g gr p, Fires (.trapEntry g)
    (fun s => s.group? g = some gr ∧ gr.trap.pending = some p ∧ gr.lcnt = 0 ∧ gr.fcnt = 0 ∧ (s.groupCore? g).isSome = true)
    (groupPut g (handlerBegun p.raised p.tpc p.tmask))

/-- R148, R151, R152: unwinding a team. The team and every descendant that is not DONE enters UNWINDING, lets go of what it
waited for, gives its save slot back and keeps its AL; its groups issue nothing more; the tickets it has not passed it passes; a
root team's launch is marked. No other team changes its state or its AL, and no other group ends. That this happens in one step
is log entry 16. -/
def Obligations.Unwinding : Prop :=
  ∀ s e u, Gives (z := s) (unwind e) s () u →
    let ends (x : Nat) (tm : Team) : Prop :=
      s.team? x = some tm ∧ isUnder s e s.teams.length x = true ∧ tm.state ≠ .done ∧ tm.state ≠ .unwinding
    (∀ x tm, ends x tm → ∃ tm', u.team? x = some tm' ∧ tm'.state = .unwinding ∧ tm'.unwound = true ∧ tm'.pendingCost = none ∧
      tm'.preempt = none ∧ tm'.stop = .running ∧
      ((∀ g ∈ s.teamGroups x, ∀ gr, s.group? g = some gr → ∀ d t a, gr.hold ≠ some (.topup d t a)) → tm'.al = tm.al) ∧
      ∀ gd, s.grid? tm.grid = some gd → ∀ j < gd.tickets.length, j ∈ tm'.passed) ∧
    (∀ x tm, ends x tm → ∀ g ∈ s.teamGroups x, ∀ gr, s.group? g = some gr →
      ∃ gr', u.group? g = some gr' ∧ gr'.exited = true ∧ (gr.exited = false → gr'.parked = none)) ∧
    (∀ x tm slot, ends x tm → tm.state = .saved slot → slot ∉ (u.ctx tm.ctx).saveUsed) ∧
    (∀ x tm l, ends x tm → tm.parent = none → u.launch? tm.launch = some l → l.unwound = true) ∧
    (∀ x, (∀ tm, ¬ends x tm) →
      (u.team? x).map (fun t => (t.state, t.al, t.unwound)) = (s.team? x).map fun t => (t.state, t.al, t.unwound)) ∧
    ∀ g, (∀ x tm, ends x tm → g ∉ s.teamGroups x) → (u.group? g).map (·.exited) = (s.group? g).map (·.exited)

/-- R36, R324, R332, R341 to R343, R345, R387: a team that is pre-empted is treated as R341 says; it is saved into a slot of its
context, or flushed back to not begun; a saved team returns on the core chosen; a migration waits, goes on or is withdrawn, and
a slot promised to one team is promised to no other. The bytes of the image that R344 leaves opaque, and which free slot is
taken, are free values (log entries 5, 36); an amount that reached the team meanwhile is added as it returns (log entry 90).
Treatments are chosen as log entry 42 reads R341, and a restored team finds an empty read cache (log entry 41). -/
def Obligations.PreemptionEvents : Prop :=
  let quiet (s : State) (tm : Team) : Prop := ∃ l, s.launch? tm.launch = some l ∧ l.journal = 0
  (∀ eid purpose tm, purpose ≠ .migrate → Fires (.preemptRequest eid purpose)
    (fun s => s.team? eid = some tm ∧ quiet s tm ∧ together s eid = [eid] ∧ treatable tm = true)
    (fun s => teamPut eid (fun q => { q with preempt := some (treatment s eid tm) }) s)) ∧
  (∀ eid s, exec (.preemptRequest eid .migrate) s = exec (.migrationRequest eid) s) ∧
  (∀ s eid tm core slot u, s.team? eid = some tm → quiet s tm → tm.core = some core → tm.preempt = some 0 → tm.stop = .running →
    (tm.state = .running ∨ tm.state = .starved) → engineBusy s eid = false →
    (∀ g ∈ s.teamGroups eid, ∃ gr, s.group? g = some gr ∧ groupDrained gr = true) →
    chooseSlot s tm.ctx = some slot →
    Gives (z := s) (writeImage eid slot) (waitsNoted { s with free := s.free + 1 }) () u → u.groups = s.groups →
    exec (.preemptSave eid) s = .next (ctxPut tm.ctx (fun c => { c with saveUsed := c.saveUsed ++ [slot] })
      (teamPut eid (fun q =>
        { q with state := .saved slot, core := none, preempt := none, saves := q.saves + 1, ov1 := slotOneKey s eid core })
        (groupsSaved (s.teamGroups eid) core u)))) ∧
  (∀ s eid tm u, s.team? eid = some tm → tm.preempt = some 2 → tm.stop = .running → (tm.state = .running ∨ tm.state = .starved) →
    tm.core.isSome = true → engineBusy s eid = false →
    (∀ g ∈ s.teamGroups eid, ∃ gr, s.group? g = some gr ∧ gr.sq = [] ∧ gr.outbox = [] ∧ ∀ d t a, gr.hold ≠ some (.topup d t a)) →
    Gives (z := s) (endGroups (s.teamGroups eid)) (waitsNoted s) () u →
    exec (.teamFlush eid) s = .next (teamPut eid (fun q =>
      { q.leaveCore with state := .notBegun, al := q.share, preempt := none, migrate := false, moving := false
                         pendingCost := none, charged := 0, barriers := [], took := [], stop := .running })
      { u with groups := (u.teamGroups eid).foldl SMap.del u.groups })) ∧
  (∀ eid core tm gd slot string, Fires (.teamRestore eid core)
    (fun s => s.team? eid = some tm ∧ quiet s tm ∧ s.grid? tm.grid = some gd ∧ gd.nbh = false ∧ tm.state = .saved slot ∧
      tm.ov1 = none ∧ (s.core core).tag0 = some (overlayKey s tm) ∧
      chooseCore (waitsNoted s) tm gd (if tm.moving then hot s else fun _ => false) (restoreFree (waitsNoted s) eid tm) =
        some (string, core))
    (fun s => waitsNoted (restored eid core slot tm
      (if tm.moving then waitsNoted s else gridPut tm.grid (fun gd => { gd with string := some string }) (waitsNoted s))))) ∧
  (let may (s : State) (eid : Nat) (tm : Team) (c : Nat) (gd : Grid) : Prop :=
    s.team? eid = some tm ∧ tm.core = some c ∧ s.grid? tm.grid = some gd ∧ gd.nbh = false ∧ treatable tm = true
  let asked (eid : Nat) : State → State := teamPut eid fun q => { q with migrate := true }
  let goes (eid : Nat) : State → State := teamPut eid fun q => { q with preempt := some 0, migrate := false, moving := true }
  let room (s : State) (tm : Team) (gd : Grid) : Prop :=
    (chooseCore s tm gd (hot s) fun _ => true).isSome = true ∧ openSlots s tm.ctx ≠ 0
  (∀ eid tm c gd, Fires (.migrationRequest eid)
    (fun s => may s eid tm c gd ∧ tm.migrate = false ∧ hot s (coreCluster c) = true ∧
      (residentLong s tm = false ∨ ¬room (asked eid s) { tm with migrate := true } gd))
    (asked eid)) ∧
  (∀ eid tm c gd, Fires (.migrationRequest eid)
    (fun s => may s eid tm c gd ∧ tm.migrate = false ∧ hot s (coreCluster c) = true ∧ residentLong s tm = true ∧
      room (asked eid s) { tm with migrate := true } gd)
    (fun s => goes eid (asked eid s))) ∧
  (∀ eid tm c gd, Fires (.migrationResidencyReached eid)
    (fun s => may s eid tm c gd ∧ tm.migrate = true ∧ residentLong s tm = true ∧ hot s (coreCluster c) = false)
    (teamPut eid fun q => { q with migrate := false })) ∧
  (∀ eid tm c gd, Fires (.migrationResidencyReached eid)
    (fun s => may s eid tm c gd ∧ tm.migrate = true ∧ residentLong s tm = true ∧ hot s (coreCluster c) = true ∧ ¬room s tm gd) id) ∧
  ∀ eid tm c gd, Fires (.migrationResidencyReached eid)
    (fun s => may s eid tm c gd ∧ tm.migrate = true ∧ residentLong s tm = true ∧ hot s (coreCluster c) = true ∧ room s tm gd)
    (goes eid))

/-- R336, R346 to R348: attaching and detaching; a team that is stopped, resumed, stepped; the debugger's reads and writes of
its registers. That the wait of a group that enters its handler so ends without effect is the model's choice (log entry 91), as
is what a write of TDETn changes (log entry 37). Which registers DBGREG reaches is log entry 43. -/
def Obligations.DebugEvents : Prop :=
  let live (s : State) (f : Nat) : Prop := (liveCtx s f (dbgCtx s f % 65536)).isSome = true
  let named (s : State) (f e : Nat) (tm : Team) : Prop := debugTeam s f = some e ∧ s.team? e = some tm
  let enters (gr : Group) : Prop :=
    gr.trap.tcause &&& ~~~(1#64 <<< Cause.allowExh) ≠ 0 ∧ gr.inHandler = false ∧ gr.exited = false
  let halted (s : State) (f e : Nat) (tm : Team) (gr : Group) : Prop :=
    named s f e tm ∧ tm.stop = .stopped ∧ dbgGidx s f < tm.shape.groups ∧ s.group? (32 * e + dbgGidx s f) = some gr
  let plain (h : Option Hold) : Prop :=
    match h with
    | some (.cres ..) | some (.topup ..) | some (.ticket ..) | some (.barrier ..) => False
    | _ => True
  (∀ f, Fires (.debugAttach f) (live · f) (fun s => ctxPut (dbgCtx s f) (fun c => { c with watched := true }) s)) ∧
  (∀ f, Fires (.debugDetach f) (live · f) (fun s => ctxPut (dbgCtx s f) (fun c => { c with watched := false }) s)) ∧
  (∀ f e tm, Fires (.debugStop f) (fun s => named s f e tm ∧ tm.core.isSome = true ∧ tm.stop ≠ .stopped)
    (teamPut e fun t => { t with stop := .stopping })) ∧
  (∀ f, Fires (.debugStop f) (fun s => debugTeam s f = none) (fnPut f fun r => { r with dbgErr := true })) ∧
  (∀ eid tm, Fires (.teamStopped eid)
    (fun s => s.team? eid = some tm ∧ tm.stop = .stopping ∧
      ∀ g ∈ s.teamGroups eid, ∃ gr, s.group? g = some gr ∧ gr.lcnt = 0 ∧ gr.fcnt = 0 ∧ gr.trap.pending = none)
    (fun s => (s.teamGroups eid).foldl (fun t g => groupPut g (fun gr =>
        { gr with hints := if gr.hold.isSome || gr.parked.isSome then gr.hints else [] }) t)
      (teamPut eid (fun t => { t with stop := .stopped }) s))) ∧
  (∀ f e tm, Fires (.debugResume f)
    (fun s => named s f e tm ∧ tm.stop = .stopped ∧ ∀ g ∈ s.teamGroups e, ∃ gr, s.group? g = some gr ∧ ¬enters gr)
    (fun s => (s.teamGroups e).foldl (fun t g => groupPut g Group.continued t)
      (teamPut e (fun t => { t with stop := .running }) s))) ∧
  (∀ f e tm gr i, Fires (.debugStep f) (fun s => halted s f e tm gr ∧ gr.exited = false ∧ ¬enters gr ∧ i = dbgGidx s f)
    (fun s => groupPut (32 * e + i) Group.continued (teamPut e (fun t => { t with stop := .stepping i }) s))) ∧
  (∀ f e tm gr i, Fires (.debugStep f)
    (fun s => halted s f e tm gr ∧ enters gr ∧ gr.trap.tvec.getLsbD 15 = true ∧ plain gr.hold ∧ i = dbgGidx s f)
    (fun s => groupPut (32 * e + i) (fun gr =>
        { handlerBegun [] gr.trap.tpc gr.trap.tmask gr with left := none, hold := none, parked := none })
      (groupLetGo (32 * e + i) tm (slotsLeft (match gr.parked with | some p => p.waits.map (·.2) | none => [])
        (teamPut e (fun t => { t with stop := .stepping i }) s))))) ∧
  (∀ f e tm gr file num lane, Fires (.debugRead f)
    (fun s => halted s f e tm gr ∧ dbgReg (s.fn f).dbgreg.toNat (tm.budget (dbgGidx s f)) = some (file, num, lane))
    (fun s => fnPut f (fun r => { r with dbgdata := dbgValue s (32 * e + dbgGidx s f) gr tm file num lane }) s)) ∧
  ∀ f e tm gr file num lane, Fires (.debugWrite f)
    (fun s => halted s f e tm gr ∧ file ≠ 6 ∧
      dbgReg (s.fn f).dbgreg.toNat (tm.budget (dbgGidx s f)) = some (file, num, lane))
    (fun s => groupPut (32 * e + dbgGidx s f) (fun gr => dbgWritten gr file num lane (s.fn f).dbgdata s.free)
      { s with free := s.free + 256 })

/-- R308 to R313, R317, R318: doorbells, the mapping of queues to slots, and the packets that are no launches. A doorbell of a
queue that has one waiting waits behind it (log entry 9). When RPTR is written is log entry 46. -/
def Obligations.QueueEvents : Prop :=
  let on (s : State) : Prop := 1 ≤ s.boot.stage ∧ s.boot.recovery = false
  let quiet (s : State) (f : Nat) (val : W64) : Prop := on s ∧ s.doorbells.any (sameQueue (f, val)) = false ∧
    paBlocked s (ctxRecAt s f (bitsOf val.toNat 63 48)) = false
  let fits (q : Nat) (s : State) (ctx : Nat) : Prop := q < (s.ctx ctx).qtlim.toNat
  let place (s : State) (ctx q : Nat) : W64 := (s.ctx ctx).qtbase + BitVec.ofNat 64 (64 * q)
  let rings (s : State) (f : Nat) (val : W64) (ctx q : Nat) (c : CtxRec) (r : QueueRec) (u : State) : Prop :=
    quiet s f val ∧ ctx = f * 65536 + bitsOf val.toNat 63 48 ∧ q = bitsOf val.toNat 47 32 ∧ fits q s ctx ∧
      liveCtx s f (bitsOf val.toNat 63 48) = some c ∧ r.bad = false ∧ r.en = true ∧
      ∃ n, Gives (z := s) (sysNat ctx c (place s ctx q) 64) s (some n) u ∧ readQueueRec n = r
  let known (s : State) (ctx q : Nat) (c : CtxRec) (k : HostQueue) : Prop :=
    s.queue? (queueKey ctx q) = some k ∧ k.record = place s ctx q ∧ k.rcd = c
  let wptr (val : W64) : W32 := BitVec.ofNat 32 (bitsOf val.toNat 31 0)
  let next (u : State) : State := { u with fresh := u.fresh + 1 }
  (∀ s f val ctx q c r u, rings s f val ctx q c r u → (∀ k, ¬known s ctx q c k) →
    (wptr val - r.rptr).toNat ≤ 2 ^ r.logn →
    exec (.qdb f val) s = .next { next u with
      queues := SMap.put u.queues (queueKey ctx q)
        { ctx := ctx, q := q, wptr := wptr val, rptr := r.rptr, cls := r.cls
          record := place s ctx q, rbase := r.rbase, logn := r.logn, rcd := c, since := u.fresh
          order := match s.queue? (queueKey ctx q) with | some k => k.order | none => 0 } }) ∧
  (∀ s f val ctx q c r u k, rings s f val ctx q c r u → known s ctx q c k →
    (wptr val - k.rptr).toNat ≤ 2 ^ r.logn →
    exec (.qdb f val) s = .next (queuePut (queueKey ctx q) (fun e =>
      { e with wptr := wptr val, cls := r.cls, record := place s ctx q, rbase := r.rbase
               logn := r.logn, rcd := c, since := if k.hasPacket then e.since else u.fresh }) (next u))) ∧
  (∀ f val ctx q, Fires (.qdb f val)
    (fun s => quiet s f val ∧ ctx = f * 65536 + bitsOf val.toNat 63 48 ∧ q = bitsOf val.toNat 47 32 ∧
      (¬fits q s ctx ∨ liveCtx s f (bitsOf val.toNat 63 48) = none))
    (fun s => queuePut (queueKey ctx q) (fun q => if q.idle then { q with slot := none, reclaim := false } else q)
      (qerrRaised f 0 s))) ∧
  (∀ f val, Fires (.qdb f val) (fun s => on s ∧ s.doorbells.any (sameQueue (f, val)) = true)
    (fun s => { s with doorbells := s.doorbells ++ [(f, val)] })) ∧
  (∀ f val, Fires (.qdb f val) (fun s => s.boot.stage = 0 ∨ s.boot.recovery = true) id) ∧
  (∀ f ctx q hq i, Fires (.queueMap f ctx q)
    (fun s => s.queue? (queueKey (f * 65536 + ctx) q) = some hq ∧ hq.waiting = true ∧ mapSlot s hq.cls = some i ∧
      ∀ e ∈ s.queues, e.2.waiting = true → waitsBefore e.2 hq = true → mapSlot s e.2.cls = none)
    (fun s => queuePut (queueKey (f * 65536 + ctx) q) (fun q => { q with slot := some i, boundary := false })
      (match slotQueue s i with
        | some (k, _) => queuePut k (fun q => { q with slot := none, reclaim := false }) s
        | none => s))) ∧
  (∀ slot key hq cls, Fires (.slotReclaim slot)
    (fun s => slotQueue s slot = some (key, hq) ∧
      [0, 1, 2, 3].find? (fun k => reclaims s k && decide (victimRank s k hq ≠ 0)) = some cls ∧
      ∀ e ∈ s.queues, victimRank s cls e.2 ≤ victimRank s cls hq)
    (fun s => queuePut key (fun q =>
      if q.boundary || q.idle then { q with slot := none, reclaim := false, since := s.fresh } else { q with reclaim := true })
        (next s))) ∧
  (∀ s slot key hq v u r t, PacketAt s slot key hq v u → v % 256 = 2 →
    Gives (z := s) (sysNat hq.ctx hq.rcd (BitVec.ofNat 64 (bitsOf v 511 448)) 32) u (some r) t →
    (bitOf r 0 = false → exec (.cond slot) s = .next (queuePut key (fun q => { q with opened := some 0 }) t)) ∧
    ∀ a x, bitOf r 0 = true → RecordAt s t hq a x →
      exec (.cond slot) s = .next (packetTaken key (hq.rptr + 1 + BitVec.ofNat 32
        (if packetCond (bitsOf v 10 8) (bitsOf r 255 192 &&& bitsOf v 383 320) (bitsOf v 447 384) then bitsOf v 319 288
          else bitsOf v 287 256)) a.pa x)) ∧
  (∀ s slot key hq v u, PacketAt s slot key hq v u → v % 256 = 3 →
    (unwrittenLaunch s key = true → exec (.waitPacket slot) s = .next (queuePut key (fun q => { q with opened := some 0 }) u)) ∧
    ∀ a x, unwrittenLaunch s key = false → RecordAt s u hq a x →
      exec (.waitPacket slot) s = .next (packetTaken key (hq.rptr + 1) a.pa x)) ∧
  (let bound (hq : HostQueue) (v : Nat) : NodeQueue :=
    { sbase := bitsOf v 383 320, logc := bitsOf v 36 32, cdesc := bitsOf v 447 384, crec := bitsOf v 511 448, cls := hq.cls
      rcd := hq.rcd }
  ∀ s slot key hq v u a x, PacketAt s slot key hq v u → v % 256 = 4 → bitOf v 8 = false →
    RecordAt s (ctxPut hq.ctx (fun c => { c with queues := SMap.put c.queues (bitsOf v 31 20) (bound hq v) }) u) hq a x →
    exec (.bindq slot) s = .next (packetTaken key (hq.rptr + 1) a.pa x)) ∧
  ∀ s slot key hq v u a x, PacketAt s slot key hq v u → v % 256 = 4 → bitOf v 8 = true →
    RecordAt s (ctxPut hq.ctx (fun c => { c with queues := SMap.del c.queues (bitsOf v 31 20) }) u) hq a x →
    exec (.bindqUnbind slot) s = .next (packetTaken key (hq.rptr + 1) a.pa x)

/-- R311 to R316, R319, R320, R350, R351: launches that are taken, admitted, started for a queue, completed, aborted and topped
up; the Weir's registers; the host's journal events. Events held at the journal present again themselves (log entry 17), RPTR is
written as log entry 46 says, and a class's bound is fixed at admission (log entry 60). -/
def Obligations.LaunchEvents : Prop :=
  (∀ s slot key hq v u d ts w l, PacketAt s slot key hq v u → v % 256 = 1 →
    Gives (z := s) (checkLaunch hq.ctx (bitsOf v 359 358) (bitsOf v 319 256) (bitsOf v 383 368)) u (0, d, ts) w →
    l = { ctx := hq.ctx, rcd := (liveCtx w (ctxFn hq.ctx) (ctxId hq.ctx)).getD hq.rcd, crec := bitsOf v 511 448
          odir := bitsOf v 447 384, onum := bitsOf v 383 368, rdesc := bitsOf v 319 256, jmode := bitsOf v 359 358
          irq := bitOf v 357, rwait := bitOf v 356, ser := bitOf v 355, queue := key, order := hq.order, cls := hq.cls
          tcls := (readSpawn d).tcls, code := 0, desc := d, tickets := ts } →
    exec (.launch slot) s = .next (queuePut key (fun q => { q with opened := some w.fresh })
      (queuePut key (fun q => { q with order := q.order + 1 }) (launchMade l w)))) ∧
  (let admits (s : State) (id : Nat) (l : Launch) (d : SpawnDesc) (tag0 : Nat) : Prop :=
    s.launch? id = some l ∧ l.admitted = false ∧ l.done = false ∧ l.code = 0 ∧ classFull s l.tcls = false ∧
      d = readSpawn l.desc ∧ d.teams ≤ (freeEntries s).length ∧ l.journal ≠ 2 ∧ chooseTags s l.ctx d.teams = some tag0
  let admitted (s : State) (id : Nat) (l : Launch) (d : SpawnDesc) (tag0 : Nat) : State :=
    let t := { s with free := s.free + 1 }
    launchPut id (fun l =>
      { l with admitted := true, inFlight := l.tcls < 3, admitTime := s.timer, grid := s.fresh, phm := d.phm, grant := d.grant
               bound := weirBound s l.tcls d.grant
               msh := if l.tcls < 3 then some (SMap.look 0 s.dev.wmsh l.tcls).toNat else none })
      (rootCreated l.ctx id d tag0 l.tickets t)
  (∀ id l d tag0, Fires (.launchAdmit id) (fun s => admits s id l d tag0 ∧ l.consumer.isSome = true)
    (fun s => admitted s id l d tag0)) ∧
  ∀ s id l d tag0 q a x, admits s id l d tag0 → l.consumer = none → s.queue? l.queue = some q → q.opened = some id →
    q.reclaim = false → RecordAt s (admitted s id l d tag0) q a x →
    exec (.launchAdmit id) s = .next (packetTaken l.queue (q.rptr + 1) a.pa x)) ∧
  (∀ s f c nq q d ts u l, SMap.get? (s.ctx (f * 65536 + c)).queues nq = some q → q.cdesc ≠ 0 → q.lens ≠ [] → q.live = none →
    l = ({ ctx := f * 65536 + c, rcd := q.rcd, crec := q.crec, odir := (Config.freeWord s.free).toNat / 16 * 16
           onum := (Config.freeWord (s.free + 1)).toNat % 65536, rdesc := q.cdesc, rwait := true, cls := q.cls
           tcls := (readSpawn d).tcls, code := 0, desc := d, tickets := ts, consumer := some nq } : Launch) →
    Gives (z := s) (checkLaunch (f * 65536 + c) 0 q.cdesc l.onum) { s with free := s.free + 2 } (0, d, ts) u →
    exec (.consumerLaunch f c nq) s = .next (nodePut (f * 65536 + c) nq (fun q => { q with live := some u.fresh }) (launchMade l u))) ∧
  (∀ s id l a u, s.launch? id = some l → mayComplete s id l = true →
    Gives (z := s) (sysXlate l.ctx l.rcd Kind.write (BitVec.ofNat 64 l.crec) true) s (.ok a) u →
    SysRoom u { a with pa := a.pa + 8 } 24 →
    let bytes := natBytes (completionRecord s l) 32
    let t := written sysParty (a.pa + 8) (bytes.drop 8) u
    SysRoom t a 8 →
    exec (.launchComplete id) s = .next (launchOver id l
      (let t := homePut (fun h => { h with outside := h.outside.join l.clock }) (written sysParty a.pa (bytes.take 8) t)
       if l.irq then vectorRaised (ctxFn l.ctx) 0 t else t))) ∧
  (∀ f, Fires (.launchAbort f) (fun s => foreignCtx s f = true) (fnPut f fun r => { r with lcres := 2 })) ∧
  (∀ f, Fires (.launchAbort f) (fun s => foreignCtx s f = false ∧ liveLaunch s f = none)
    (fnPut f fun r => { r with lcres := 1 })) ∧
  (∀ f id l, Fires (.launchAbort f) (fun s => foreignCtx s f = false ∧ liveLaunch s f = some (id, l) ∧ ∀ e ∈ rootTeams s id, e.2.state = .done)
    (fnPut f fun r => { r with lcres := 0 })) ∧
  (∀ s f id l u, foreignCtx s f = false → liveLaunch s f = some (id, l) → (∃ e ∈ rootTeams s id, e.2.state ≠ .done) →
    Gives (z := s) (forEach (rootTeams s id) fun e => unwind e.1) (launchPut id (fun l => { l with aborted := true }) s) () u →
    exec (.launchAbort f) s = .next (fnPut f (fun r => { r with lcres := 0 }) u)) ∧
  (let names (s : State) (f id : Nat) (l : Launch) (e : Nat) (tm : Team) : Prop :=
    foreignCtx s f = false ∧ liveLaunch s f = some (id, l) ∧ s.team? e = some tm ∧
      (rootTeams s id).find? (fun x => x.2.tidx = bitsOf (s.fn f).lcarg.toNat 63 48) = some (e, tm)
  let amount (s : State) (f : Nat) : Nat := bitsOf (s.fn f).lcarg.toNat 47 0
  (∀ f id l e tm, Fires (.hostTopup f)
    (fun s => names s f id l e tm ∧ topupStatus false tm (BitVec.ofNat 64 (amount s f)) = 0)
    (fun s => fnPut f (fun r => { r with lcres := 0 }) (launchPut id (fun l => { l with hostAdded := l.hostAdded + amount s f })
      (teamPut e (fun t => t.receive (amount s f)) s)))) ∧
  (∀ f id l e tm, Fires (.hostTopup f)
    (fun s => names s f id l e tm ∧ topupStatus false tm (BitVec.ofNat 64 (amount s f)) = 1)
    (fun s => fnPut f (fun r => { r with lcres := 0 }) (launchPut id (fun l => { l with hostAdded := l.hostAdded + amount s f })
      (resumed e tm (teamPut e (fun t => t.receive (amount s f)) s))))) ∧
  (∀ f id l e tm, Fires (.hostTopup f)
    (fun s => names s f id l e tm ∧ topupStatus false tm (BitVec.ofNat 64 (amount s f)) = 2)
    (fnPut f fun r => { r with lcres := 2 })) ∧
  (∀ f, Fires (.hostTopup f) (fun s => foreignCtx s f = true) (fnPut f fun r => { r with lcres := 2 })) ∧
  ∀ f, Fires (.hostTopup f) (fun s => foreignCtx s f = false ∧ liveLaunch s f = none) (fnPut f fun r => { r with lcres := 1 })) ∧
  (let w (s : State) (k : Nat) : Nat × Nat := ((SMap.look 0 s.dev.wrate k).toNat, (SMap.look 0 s.dev.wmax k).toNat)
  (∀ k (val : W64), Fires (.weirLimitWrite k .rate val)
    (fun s => k < 3 ∧ weirSum s.dev k (val.toNat % 2 ^ 32) (w s k).2 ≤ 614400)
    (devPut fun d => { d with wrate := SMap.store 0 d.wrate k (val.extractLsb' 0 32) })) ∧
  (∀ k (val : W64), Fires (.weirLimitWrite k .max val)
    (fun s => k < 3 ∧ weirSum s.dev k (w s k).1 (val.toNat % 65536) ≤ 614400)
    (devPut fun d => { d with wmax := SMap.store 0 d.wmax k (val.extractLsb' 0 32 &&& 0xFFFF) })) ∧
  (∀ k (val : W64), Fires (.weirLimitWrite k .rate val)
    (fun s => k < 3 ∧ 614400 < weirSum s.dev k (val.toNat % 2 ^ 32) (w s k).2) (qerrRaised 0 2)) ∧
  (∀ k (val : W64), Fires (.weirLimitWrite k .max val)
    (fun s => k < 3 ∧ 614400 < weirSum s.dev k (w s k).1 (val.toNat % 65536)) (qerrRaised 0 2)) ∧
  (∀ k (val : W64), Fires (.weirLimitWrite k .latency val) (fun _ => k < 3)
    (devPut fun d => { d with wlat := SMap.store 0 d.wlat k (val.extractLsb' 0 32) })) ∧
  ∀ k (val : W64), Fires (.weirLimitWrite k .cap val) (fun _ => True) id) ∧
  (∀ f, Fires (.jkick f) (fun _ => True) (fnPut f id)) ∧
  let looks (s : State) (id point : Nat) (l : Launch) (h : Head) (u : State) : Prop :=
    s.launch? id = some l ∧ l.journal = 2 ∧ point < 642 ∧ Gives (z := s) (headRecord l.ctx l.rcd point ringFuel) s h u
  let diverged (id : Nat) : State → State := launchPut id fun l => { l with div := true, jheld := [] }
  (∀ s id point l u, looks s id point l .empty u → exec (.replayAdmit id point) s = .next u) ∧
  (∀ s id point l r u, looks s id point l (.unknown r) u → commitBlocks u.dev (r.pa + 12) = false → Room u (r.pa + 12) 4 →
    exec (.replayAdmit id point) s =
      .next (diverged id (written sysParty (r.pa + 12) (natBytes ((r.head + 1) % 2 ^ 32) 4) u))) ∧
  ∀ s id point l r v u, looks s id point l (.record r v) u →
    exec (.replayAdmit id point) s = .next (if sysStale s l.ctx v then diverged id u else u)

/-- R15, R53, R56, R369 to R376, R378: boot, the watchdog and recovery, attestation, the host's window, and a peer's requests.
What a reset keeps is log entry 47, the order of the host and the peers is log entries 6 and 48, and the size of W1 is log entry
92. -/
def Obligations.BootEvents : Prop :=
  (Fires .powerOn (fun s => s.boot.started = false) (fun s => bootPut (fun b => { b with started := true, lastReport := s.timer }) s)) ∧
  (let expected (s : State) (i : BootImage) : Prop :=
    s.boot.started = true ∧ s.boot.recovery = false ∧ s.boot.stage < 4 ∧ i.index = s.boot.stage + 1
  (∀ i, Fires (.bootImageCheck i) (expected · i) (fun s =>
    if imageCode s.fuses i = 0 then
      imageReleased i (bootPut (fun b =>
        { b.measure i with stage := b.stage + 1, lastReport := if i.index = 1 then s.timer else b.lastReport }) s)
    else bootFailed (imageCode s.fuses i) i.index (bootPut (fun b => { b with recovery := true }) s)))) ∧
  (Fires .firmwareReport (fun s => 1 ≤ s.boot.stage ∧ s.boot.recovery = false ∧ s.timer < s.boot.lastReport + 100000)
    (fun s => bootPut (fun b => { b with lastReport := s.timer }) s)) ∧
  (Fires .watchdogExpire (fun s => 1 ≤ s.boot.stage ∧ s.boot.recovery = false ∧ s.boot.lastReport + 100000 ≤ s.timer)
    (fun s => bootFailed 6 0 (bootPut (fun b => { b with recovery := true }) (complexReset s)))) ∧
  (let expected (s : State) (i : BootImage) : Prop :=
    s.boot.started = true ∧ s.boot.recovery = true ∧ i.index = if s.boot.failImg = 0 then 1 else s.boot.failImg
  (∀ i, Fires (.recoveryReload i) (expected · i) (fun s =>
    if imageCode s.fuses i = 0 then
      imageReleased i (bootFailed 0 0
        (bootPut (fun b => { b.measure i with recovery := false, stage := max b.stage i.index, lastReport := s.timer }) s))
    else bootFailed (imageCode s.fuses i) i.index s))) ∧
  (Fires .attestationRequest (fun s => s.boot.started = true)
    (fun s => bootPut (fun b => { b with report := attestation s.fuses b, reported := true }) s)) ∧
  (let admits (s : State) (f link off n : Nat) : Prop :=
    2 ≤ s.boot.stage ∧ f < 64 ∧ link < 2 ∧ 1 ≤ n ∧ off % 64 + n ≤ 64 ∧ off + n ≤ w1Bytes f
  let reaches (s : State) (f link off n pa : Nat) : Prop :=
    admits s f link off n ∧ w1Address s f off n = some pa ∧ sysWaits s { lane := 0, va := 0, pa := pa } = false
  let plain (s : State) (pa : Nat) : Prop := paRange pa ≠ .control ∧ inMetadata s pa = false
  let who (s : State) (link : Nat) : Who := outsideAt (2 ^ 42 + link) s
  let gets (f : Nat) (v : List Byte) : State → State := fnPut f fun r => { r with w1data := v }
  (∀ f link off bytes pa, Fires (.hostW1Access f link false off bytes)
    (fun s => reaches s f link off bytes.length pa ∧ plain s pa ∧ Room s pa bytes.length ∧
      Clean s (who s link) pa bytes.length false)
    (fun s => gets f (memBytes s pa bytes.length) (outsideSaw (who s link) pa bytes.length (numberTaken s)))) ∧
  (∀ f link off bytes pa, Fires (.hostW1Access f link true off bytes)
    (fun s => reaches s f link off bytes.length pa ∧ plain s pa ∧ Room s pa bytes.length ∧
      Clean s (who s link) pa bytes.length true)
    (fun s => written (who s link) pa bytes (numberTaken s))) ∧
  (∀ f link off bytes pa, Fires (.hostW1Access f link false off bytes)
    (fun s => reaches s f link off bytes.length pa ∧ paRange pa = .control)
    (fun s => gets f (natBytes (w0ReadBytes s 0 (pa - 0x8000000000) bytes.length) bytes.length) (numberTaken s))) ∧
  (∀ f link off bytes pa, Fires (.hostW1Access f link true off bytes)
    (fun s => reaches s f link off bytes.length pa ∧ paRange pa = .control)
    (fun s =>
      let m := Move.regWrite 0 (pa - 0x8000000000) (bytes.length = 8) (BitVec.ofNat 64 (bytesNat bytes))
      { numberTaken s with moves := m :: s.moves })) ∧
  (∀ f link off bytes pa, Fires (.hostW1Access f link false off bytes)
    (fun s => reaches s f link off bytes.length pa ∧ paRange pa ≠ .control ∧ inMetadata s pa = true)
    (fun s => gets f ((List.range bytes.length).map fun i => metaByte s (pa + i)) (numberTaken s))) ∧
  (∀ f link off bytes pa, Fires (.hostW1Access f link true off bytes)
    (fun s => reaches s f link off bytes.length pa ∧ paRange pa ≠ .control ∧ inMetadata s pa = true) numberTaken) ∧
  (∀ f link off bytes, Fires (.hostW1Access f link false off bytes)
    (fun s => admits s f link off bytes.length ∧ w1Address s f off bytes.length = none)
    (gets f (List.replicate bytes.length 0xFF))) ∧
  ∀ f link off bytes, Fires (.hostW1Access f link true off bytes)
    (fun s => admits s f link off bytes.length ∧ w1Address s f off bytes.length = none) id) ∧
  (let asks (s : State) (port : Nat) (r : PeerAccess) : Prop :=
    3 ≤ s.boot.stage ∧ s.boot.recovery = false ∧ port < 12 ∧ NSet.has s.dev.portsDown port = false ∧ r.op < 4 ∧
      r.len = (if r.op = 3 then 8 else 4) ∧ r.va.toNat % r.len = 0 ∧
      ∀ i < (s.fn r.fn).lkcnt.toNat, paBlocked s ((s.fn r.fn).lkbase.toNat + 16 * i) = false
  let who (r : PeerAccess) (u : State) : Who := outsideAt (2 ^ 41 + r.dev) u
  let reaches (s : State) (port : Nat) (r : PeerAccess) (a : LaneAcc) (u : State) : Prop :=
    asks s port r ∧ admitsPeer s r = true ∧ paBlocked s (ctxRecAt s r.fn r.tctx) = false ∧ SysRoom u a r.len ∧
      ∃ c, liveCtx s r.fn r.tctx = some c ∧
        Gives (z := s) (sysXlate (r.fn * 65536 + r.tctx) c (peerKind r.op) r.va) s (.ok a) u
  let saw (r : PeerAccess) (a : LaneAcc) (u : State) : State := outsideSaw (who r u) a.pa r.len (numberTaken u)
  let val (r : PeerAccess) (old : List Byte) : List Byte :=
    natBytes (peerValue r.op (bytesNat old) (bytesNat (r.bytes.take r.len))) r.len
  (∀ s port r a u, reaches s port r a u → r.op = 1 → Clean u (who r u) a.pa r.len false →
    exec (.peerRequest port r) s =
      .next (peerAnswered r (some (memBytes u a.pa r.len)) (sectorPoison u a.pa r.len) (saw r a u))) ∧
  (∀ s port r a u, reaches s port r a u → r.op = 0 → Clean u (who r u) a.pa r.len true →
    exec (.peerRequest port r) s =
      .next (peerAnswered r (some []) false (peerWritten (who r u) r a (val r []) (numberTaken u)))) ∧
  (∀ s port r a u, reaches s port r a u → 2 ≤ r.op → Clean u (who r u) a.pa r.len true →
    exec (.peerRequest port r) s =
      .next (peerAnswered r (some []) false (peerWritten (who r u) r a (val r (memBytes u a.pa r.len)) (saw r a u)))) ∧
  (∀ port r, Fires (.peerRequest port r) (fun s => asks s port r ∧ admitsPeer s r = false) (peerAnswered r none false)) ∧
  ∀ port r, Fires (.peerRequest port r)
    (fun s => asks s port r ∧ admitsPeer s r = true ∧ paBlocked s (ctxRecAt s r.fn r.tctx) = false ∧ liveCtx s r.fn r.tctx = none)
    (peerAnswered r none false)) ∧
  ∀ port, Fires (.linkDown port) (fun s => port < 12 ∧ NSet.has s.dev.portsDown port = false)
    (fun s => errorsRaised (devPut (fun d => { d with portsDown := NSet.add d.portsDown port }) s))

/-- R142, R146, R156, R187, R189, R225, R335: what a unit does that does not issue in full. Where no lane is active a lane-wise
word only moves on, charged; a unit of more than AL is its team's point of exhaustion, where amounts held for the team are
added; causes found before issue lead to the handler and charge nothing; a unit that names a register of an outstanding load
waits, found held in this cycle. That causes found before issue charge nothing is log entry 53. -/
def Obligations.UnitOutcomes : Prop :=
  (∀ i info s w, IsUnit i info → view s = some w → Ready w (info w) → (info w).mask = .skips → w.exm = 0 → PlainEnd w →
    exec i s = .next (w.next (w.paid (info w)))) ∧
  (let cost (info : View → Info) (w : View) : Nat := unitCost w (info w) + (info w).moved
  (∀ i info s w, IsUnit i info → view s = some w → Exhausts w (info w) → w.t.shape.pol = true →
    exec i s = .next
      (let al := w.t.al + BitVec.ofNat 64 w.t.heldTopup
       let t := teamPut w.eid (fun t =>
         { t with state := .starved, pendingCost := some (cost info w), pendingGroup := w.g, al := al, heldTopup := 0 })
           (exhaustionMarked w (cost info w) s)
       if w.t.heldTopup ≠ 0 ∧ cost info w ≤ al.toNat then resumed w.eid { w.t with pendingGroup := w.g } t else t)) ∧
  ∀ i info s w u, IsUnit i info → view s = some w → Exhausts w (info w) → w.t.shape.pol = false →
    Gives (z := s) (unwind w.eid) (exhaustionMarked w (cost info w) s) () u → exec i s = .next u) ∧
  (∀ i info s w, IsUnit i info → view s = some w → Candidate w → (info w).named.any w.gr.awaits = false →
    preCauses w (info w).early ≠ [] → Handles w (preCauses w (info w).early) →
    exec i s = .next (w.onGroup (handlerEntered (mergeDetails (preCauses w (info w).early)) w.unitPc) (w.letGo s))) ∧
  ∀ i info s w, IsUnit i info → view s = some w → Candidate w → (info w).named.any w.gr.awaits = true →
    exec i s = .next (w.foundHeld s)

/-- R113, R180, R187, R208: a step runs what stands next: the event the schedule names, or the instruction that the word at the
current group's program counter decodes to; a word that decodes to nothing raises ILL_OP and leads to the handler, and one of a
listed instruction with a field it does not use set runs that instruction's checks with ILL_OP among the causes. The schedule is
the model's (log entry 1); the hints before a word that decodes to nothing are judged as log entry 74 says, and a set unused
field is one cause among others (log entry 81). -/
def Obligations.StepRunsDecoded : Prop :=
  let word (s : State) (w : View) : W32 := fetchAt s w.core w.gr.slot w.wordPc
  let illegal (w : View) : List Detail := preCauses w (illegalInfo w)
  (∀ s w i, s.moves = [] → Presents s w → decode (word s w) = .ok i → step s = exec i s) ∧
  (∀ s g ms w i, s.moves = .go g :: ms → Presents { s with moves := ms, cur := some g } w →
    decode (word { s with moves := ms, cur := some g } w) = .ok i → step s = exec i { s with moves := ms, cur := some g }) ∧
  (∀ s i ms, s.moves = .event i :: ms → step s = exec i { s with moves := ms }) ∧
  (∀ s w i, s.moves = [] → Presents s w → decode (word s w) = .error .unusedField →
    decode (word s w &&& ~~~unusedMask (word s w)) = .ok i →
    step s = exec i s ∧ ∀ info, ∃ d ∈ preCauses w info, d.cause = Cause.illOp) ∧
  ∀ s w e, s.moves = [] → Presents s w → decodeChecked (word s w) = .error e → Handles w (illegal w) →
    (∃ d ∈ illegal w, d.cause = Cause.illOp) ∧
    step s = .next (w.onGroup (handlerEntered (mergeDetails (illegal w)) w.unitPc) (w.letGo s))

/-- R179, R180, R206: the words that the spec itself writes out for an instruction of each class decode to that instruction; the
all-zero word, a code R206 does not list and an unused field that is not zero decode to none. -/
def Obligations.DecodedWords : Prop :=
  decode 0x01830182#32 = .ok (.vfmaF32 3 1 0x82) ∧ decode 0x10101008#32 = .ok (.vaddI32 16 16 8) ∧
  decode 0x25020100#32 = .ok (.vredAddI32 2 1) ∧ decode 0x50030420#32 = .ok (.add 3 1 2) ∧
  decode 0x58010830#32 = .ok (.kand 1 2 3) ∧ decode 0x600413FF#32 = .ok (.addi 4 4 0x3FF) ∧
  decode 0x7213FFFD#32 = .ok (.brnz 4 0x3FFFD) ∧ decode 0x8209101C#32 = .ok (.ldB32 9 4 7 0) ∧
  decode 0x90010C14#32 = .ok (.ldsB32 1 3 5 0) ∧ decode 0xA2C51870#32 = .ok (.lattach 5 6 7) ∧
  decode 0xB0440001#32 = .ok (.barArr 4 1) ∧ decode 0xC00B0830#32 = .ok (.obres 11 2 3) ∧
  decode 0xD0040C00#32 = .ok (.spawn 4 3) ∧ decode 0xE0430460#32 = .ok (.swr 3 0x046) ∧
  decode 0xF9800000#32 = .ok (.hintMod 1 1 0 0 0 0 0 0 0 0 0 0) ∧
  decode 0x0#32 = .error .zeroWord ∧ decode 0xFC000000#32 = .error .reservedCode ∧ decode 0x0C800001#32 = .error .unusedField

/-- R29, R50 to R53, R56, R58, R61, R64, R202, R203, R285, R319, R346, R369, R371, R376: after reset nothing is resident and
every control register the spec gives a reset value holds it, HMASK and WCAP among them; R54's worked address has its home
slice. A group begins with its registers zero but for s0, s1 and s2, every lane active, and its trap registers zero. -/
def Obligations.ResetState : Prop :=
  let reads (f off : Nat) : W64 := w0Read State.reset f off
  State.reset.wf = true ∧ State.reset.groups = [] ∧ State.reset.teams = [] ∧ State.reset.launches = [] ∧
  State.reset.boot.started = false ∧
  (∀ f < 64, reads f 0 = 0 ∧ reads f 0x10 = 0) ∧
  (∀ p < 8, ∀ i < 7, reads 0 (0x300000 + 0x40 * p + 8 * i) = 0x20408102040#64 <<< i) ∧
  (∀ p < 8, reads 0 (0x300000 + 0x40 * p + 0x38) = 0) ∧
  (∀ f < 64, ∀ off ∈ [0x100000, 0x100100, 0x100408, 0x100800, 0x100810, 0x100A00, 0x100A08, 0x100A10, 0x100B00, 0x100B08, 0x100B10,
    0x100B18, 0x100C00, 0x100C08, 0x100C10, 0x100C18, 0x100C20, 0x100C28, 0x100C30, 0x100C38, 0x100C40, 0x100D00, 0x100D08,
    0x100D10, 0x100D18, 0x100E00, 0x100E08, 0x100E10, 0x100E18, 0x100E20, 0x100E28, 0x100E30, 0x100E38, 0x100F00, 0x100F08,
    0x101000, 0x101008, 0x101010],
    reads f off = 0) ∧
  (∀ n < 64, ∀ off ∈ [0, 0x100, 0x408, 0x800, 0x808, 0x810, 0x818, 0x820, 0x828], reads 0 (0x200000 + 0x1000 * n + off) = 0) ∧
  (∀ off ∈ [0x300200, 0x300300, 0x300308, 0x300310, 0x300320, 0x300328], reads 0 off = 0) ∧
  (∀ n < 8, (reads 0 (0x300400 + 8 * n)).getLsbD 16 = false ∧ reads 0 (0x300500 + 8 * n) = 0) ∧
  (∀ k < 3, ∀ off ∈ [0x00, 0x08, 0x10, 0x18], reads 0 (0x300700 + 0x20 * k + off) = 0) ∧
  reads 0 0x300780 = 614400 ∧
  homeSlice State.reset.dev 0x1234567880 = 86 ∧
  ∀ tm gidx now known, let gr := freshGroup tm gidx now known
    gr.exm = 0xFFFFFFFF ∧ gr.pc = BitVec.ofNat 14 tm.shape.off ∧ gr.slot = 0 ∧
    gr.rs 0 = tm.shape.argp ∧ gr.rs 1 = BitVec.ofNat 64 tm.tidx ∧ gr.rs 2 = BitVec.ofNat 64 gidx ∧
    (∀ n, 2 < n → gr.rs n = 0) ∧ (∀ n l, gr.rv n l = 0) ∧ (∀ n l, gr.ro n l = 0) ∧ (∀ n l, gr.rl n l = 0) ∧
    (∀ n l, gr.rq n l = 0) ∧ (∀ n, gr.rk n = 0) ∧
    gr.trap.tcause = 0 ∧ gr.trap.tpc = 0 ∧ gr.trap.tmask = 0 ∧ gr.trap.tmode = 0 ∧ gr.trap.tvec = 0

/-- R179, R180, R206: every word but the all-zero one is decoded to the instruction it encodes, and to no other; every
instruction that is no event has a word; what decodes to an instruction is that instruction's word. -/
def Obligations.EncodingRoundTrip : Prop :=
  (∀ i w, encode i = some w → w ≠ 0 → decode w = .ok i) ∧
  (∀ w i, decode w = .ok i → encode i = some w) ∧
  (∀ i, i.isEvent = false → ∃ w, encode i = some w) ∧
  ∀ i, encode i = some 0 → i = .vaddF32 0 0 0

/-- R15, R334, R371: whatever runs, the machine goes on: a step answers a next state, never a fault or a refusal; physical
memory keeps its canonical form, and the fuses keep their values. -/
def Obligations.StepKeeps : Prop :=
  ∀ s, s.wf = true → ∃ t, step s = .next t ∧ t.wf = true ∧ t.fuses = s.fuses

end Statements
end

