-- ==== Sys2Proof/Laws/Sparse.lean ====
section
/-! SUPPORT. The laws of sparse storage and of memory. -/

namespace Sys2Proof.Machine

namespace SMap

variable {α : Type}

@[simp] theorem get?_put_self (m : SMap α) (k : Nat) (a : α) : get? (put m k a) k = some a := by
  induction m with
  | nil => simp [put, get?]
  | cons e m ih =>
    obtain ⟨i, b⟩ := e
    simp only [put]
    split
    · simp [get?]
    · split
      · simp [get?]
      · simp [get?, *]

theorem get?_put_ne (m : SMap α) {k j : Nat} (a : α) (h : k ≠ j) : get? (put m k a) j = get? m j := by
  induction m with
  | nil => simp [put, get?, h]
  | cons e m ih =>
    obtain ⟨i, b⟩ := e
    simp only [put]
    split
    · subst i; simp [get?, h]
    · split
      · simp [get?, h]
      · simp [get?, ih]

@[simp] theorem put_put (m : SMap α) (k : Nat) (a b : α) : put (put m k a) k b = put m k b := by
  induction m with
  | nil => simp [put]
  | cons e m ih =>
    obtain ⟨i, c⟩ := e
    simp only [put]
    split
    · simp [put]
    · split
      · simp [put]
      · simp [put, *]

@[simp] theorem adjust_adjust (m : SMap α) (k : Nat) (f g : α → α) :
    adjust (adjust m k f) k g = adjust m k fun a => g (f a) := by
  unfold adjust
  cases h : get? m k <;> simp [h]

theorem adjust_congr {m : SMap α} {k : Nat} {f g : α → α} {a : α} (h : get? m k = some a) (e : f a = g a) :
    adjust m k f = adjust m k g := by
  simp only [adjust, h, e]

theorem get?_adjust_self (m : SMap α) (k : Nat) (f : α → α) : get? (adjust m k f) k = (get? m k).map f := by
  unfold adjust
  cases h : get? m k <;> simp [h]

theorem get?_adjust_ne (m : SMap α) {k j : Nat} (f : α → α) (h : k ≠ j) : get? (adjust m k f) j = get? m j := by
  unfold adjust
  cases get? m k
  · rfl
  · exact get?_put_ne _ _ h

/-! Sorted maps -/

/-- Every key is above `k`. -/
theorem sorted_cons {i : Nat} {a : α} {m : SMap α} : sorted ((i, a) :: m) = true ↔ (∀ e ∈ m, i < e.1) ∧ sorted m = true := by
  induction m generalizing i a with
  | nil => simp [sorted]
  | cons e m ih =>
    obtain ⟨j, b⟩ := e
    simp only [sorted, Bool.and_eq_true, decide_eq_true_eq, List.mem_cons, forall_eq_or_imp]
    constructor
    · rintro ⟨h, k⟩
      exact ⟨⟨h, fun e he => Nat.lt_trans h ((ih.1 k).1 e he)⟩, k⟩
    · rintro ⟨⟨h, -⟩, k⟩
      exact ⟨h, k⟩

theorem mem_put {m : SMap α} {k : Nat} {a : α} {e : Nat × α} (h : e ∈ put m k a) : e = (k, a) ∨ e ∈ m := by
  induction m with
  | nil => simpa [put] using h
  | cons x m ih =>
    obtain ⟨i, b⟩ := x
    simp only [put] at h
    split at h
    · rcases List.mem_cons.1 h with rfl | h
      · exact .inl rfl
      · exact .inr (List.mem_cons_of_mem _ h)
    · split at h
      · rcases List.mem_cons.1 h with rfl | h
        · exact .inl rfl
        · exact .inr h
      · rcases List.mem_cons.1 h with rfl | h
        · exact .inr List.mem_cons_self
        · exact (ih h).imp_right (List.mem_cons_of_mem _)

theorem mem_del {m : SMap α} {k : Nat} {e : Nat × α} (h : e ∈ del m k) : e ∈ m := by
  induction m with
  | nil => simp [del] at h
  | cons x m ih =>
    obtain ⟨i, b⟩ := x
    simp only [del] at h
    split at h
    · exact List.mem_cons_of_mem _ h
    · split at h
      · exact h
      · rcases List.mem_cons.1 h with rfl | h
        · exact List.mem_cons_self
        · exact List.mem_cons_of_mem _ (ih h)

theorem sorted_put {m : SMap α} (k : Nat) (a : α) (h : sorted m = true) : sorted (put m k a) = true := by
  induction m with
  | nil => simp [put, sorted]
  | cons x m ih =>
    obtain ⟨i, b⟩ := x
    obtain ⟨h1, h2⟩ := sorted_cons.1 h
    simp only [put]
    split
    · next e => subst e; exact sorted_cons.2 ⟨h1, h2⟩
    · next n =>
      split
      · next l =>
        refine sorted_cons.2 ⟨fun e he => ?_, h⟩
        rcases List.mem_cons.1 he with rfl | he
        · exact l
        · exact Nat.lt_trans l (h1 e he)
      · next l =>
        refine sorted_cons.2 ⟨fun e he => ?_, ih h2⟩
        rcases mem_put he with rfl | he
        · exact Nat.lt_of_le_of_ne (Nat.le_of_not_lt l) n
        · exact h1 e he

theorem sorted_del {m : SMap α} (k : Nat) (h : sorted m = true) : sorted (del m k) = true := by
  induction m with
  | nil => simp [del, sorted]
  | cons x m ih =>
    obtain ⟨i, b⟩ := x
    obtain ⟨h1, h2⟩ := sorted_cons.1 h
    simp only [del]
    split
    · exact h2
    · split
      · exact h
      · exact sorted_cons.2 ⟨fun e he => h1 e (mem_del he), ih h2⟩

theorem get?_none_of_lt {m : SMap α} {k : Nat} (h : ∀ e ∈ m, k < e.1) : get? m k = none := by
  induction m with
  | nil => rfl
  | cons x m ih =>
    obtain ⟨i, b⟩ := x
    have : i ≠ k := Nat.ne_of_gt (h _ List.mem_cons_self)
    simp [get?, this, ih fun e he => h e (List.mem_cons_of_mem _ he)]

theorem get?_del_self {m : SMap α} (k : Nat) (h : sorted m = true) : get? (del m k) k = none := by
  induction m with
  | nil => rfl
  | cons x m ih =>
    obtain ⟨i, b⟩ := x
    obtain ⟨h1, h2⟩ := sorted_cons.1 h
    simp only [del]
    split
    · next e => subst e; exact get?_none_of_lt h1
    · next n =>
      split
      · next l => simp only [get?, n, if_false]; exact get?_none_of_lt fun e he => Nat.lt_trans l (h1 e he)
      · simp [get?, n, ih h2]

theorem get?_del_ne (m : SMap α) {k j : Nat} (h : k ≠ j) : get? (del m k) j = get? m j := by
  induction m with
  | nil => rfl
  | cons x m ih =>
    obtain ⟨i, b⟩ := x
    simp only [del]
    split
    · next e => subst e; simp [get?, h]
    · split
      · rfl
      · simp [get?, ih]

variable [DecidableEq α]

/-- A total storage reads back what it was given. -/
theorem look_store_self {d : α} {m : SMap α} (k : Nat) (a : α) (h : sorted m = true) : look d (store d m k a) k = a := by
  unfold look store
  split
  · next e => simp [get?_del_self k h, e]
  · simp

/-- A total storage reads as before at every other key. -/
theorem look_store_ne (d : α) (m : SMap α) {k j : Nat} (a : α) (h : k ≠ j) : look d (store d m k a) j = look d m j := by
  unfold look store
  split
  · rw [get?_del_ne m h]
  · rw [get?_put_ne m a h]

theorem sorted_store {d : α} {m : SMap α} (k : Nat) (a : α) (h : sorted m = true) : sorted (store d m k a) = true := by
  unfold store
  split
  · exact sorted_del k h
  · exact sorted_put k a h

theorem wf_store {d : α} {m : SMap α} (k : Nat) (a : α) (h : wf d m = true) : wf d (store d m k a) = true := by
  simp only [wf, Bool.and_eq_true, List.all_eq_true, decide_eq_true_eq] at h ⊢
  refine ⟨sorted_store k a h.1, fun e he => ?_⟩
  unfold store at he
  split at he
  · exact h.2 e (mem_del he)
  · next n =>
    rcases mem_put he with rfl | he
    · exact n
    · exact h.2 e he

end SMap

namespace Memory

theorem wf_sorted {m : Memory} (h : wf m = true) : SMap.sorted m = true := by
  simp only [wf, SMap.wf, Bool.and_eq_true] at h
  exact h.1.1

/-- A write keeps the canonical form. -/
theorem wf_write {m : Memory} (a : Nat) (b : Byte) (h : wf m = true) : wf (write m a b) = true := by
  unfold write
  split
  · next l =>
    simp only [wf, Bool.and_eq_true, List.all_eq_true, decide_eq_true_eq] at h ⊢
    refine ⟨SMap.wf_store a b h.1, fun e he => ?_⟩
    unfold SMap.store at he
    split at he
    · exact h.2 e (SMap.mem_del he)
    · rcases SMap.mem_put he with rfl | he
      · exact l
      · exact h.2 e he
  · exact h

theorem wf_writeBytes {m : Memory} (a : Nat) (bs : List Byte) (h : wf m = true) : wf (writeBytes m a bs) = true := by
  induction bs generalizing m a with
  | nil => exact h
  | cons b bs ih => exact ih (a + 1) (wf_write a b h)

/-- A byte reads back as it was written. -/
theorem read_write_self {m : Memory} {a : Nat} (b : Byte) (h : wf m = true) (l : a < size) : read (write m a b) a = b := by
  simp only [read, write, l, if_true]
  exact SMap.look_store_self a b (wf_sorted h)

/-- Every other byte reads as before. -/
theorem read_write_ne (m : Memory) {a c : Nat} (b : Byte) (h : a ≠ c) : read (write m a b) c = read m c := by
  unfold read write
  split
  · exact SMap.look_store_ne _ m b h
  · rfl

end Memory

end Sys2Proof.Machine
end

