-- ==== Sys2Proof/Laws/Frame.lean ====
section
/-! SUPPORT. What a meaning leaves: a relation between the state it runs from and the state it ends in, closed under the
ways meanings are built. -/

namespace Sys2Proof.Machine

variable {z : State}

/-- A relation that what a meaning leaves can be measured by. -/
structure Order (R : State → State → Prop) : Prop where
  refl : ∀ t, R t t
  trans : ∀ {t u v}, R t u → R u v → R t v

/-- Wherever `m` runs, it leaves its state in relation `R`. -/
def Leaves {α : Type} (R : State → State → Prop) (m : M z α) : Prop :=
  ∀ t a u, m t = .ok (a, u) → R t.1 u.1

variable {R : State → State → Prop}

theorem Leaves.pure {α : Type} (o : Order R) (a : α) : Leaves R (pure a : M z α) := by
  intro t b u h
  cases h
  exact o.refl _

theorem Leaves.bind {α β : Type} (o : Order R) {m : M z α} {f : α → M z β} (h : Leaves R m) (k : ∀ a, Leaves R (f a)) :
    Leaves R (m >>= f) := by
  intro t b v e
  simp only [Bind.bind, StateT.bind, Except.bind] at e
  split at e
  · cases e
  · next x hx => exact o.trans (h _ _ _ hx) (k _ _ _ _ e)

theorem Leaves.get (o : Order R) : Leaves R (getS : M z State) := by
  intro t b u h
  cases h
  exact o.refl _

theorem Leaves.mod {f : State → State} (h : Keeps f) (k : ∀ t, R t (f t)) : Leaves R (modS f h : M z Unit) := by
  intro t b u e
  cases e
  exact k _

theorem Leaves.stop {α : Type} (e : Stop) : Leaves R (fun _ => .error e : M z α) := by
  intro t b u h
  cases h

theorem Leaves.stay {α : Type} : Leaves R (Machine.stay : M z α) := Leaves.stop .stay

theorem Leaves.raise {α : Type} (ds : List Detail) (tm : Option W32) : Leaves R (Machine.raise ds tm : M z α) :=
  Leaves.stop _

theorem Leaves.need {α : Type} (o : Order R) (x : Option α) : Leaves R (Machine.need x : M z α) := by
  cases x
  · exact Leaves.stay
  · exact Leaves.pure o _

theorem Leaves.guard (o : Order R) (b : Bool) : Leaves R (guardS b : M z Unit) := by
  unfold guardS
  split
  · exact Leaves.pure o _
  · exact Leaves.stay

theorem Leaves.attempt {α : Type} (o : Order R) {m : M z α} (h : Leaves R m) : Leaves R (Machine.attempt m) := by
  intro t b u e
  unfold Machine.attempt at e
  split at e
  · next hx => cases e; exact h _ _ _ hx
  · cases e; exact o.refl _

theorem Leaves.forEach {α : Type} (o : Order R) (xs : List α) {f : α → M z Unit} (h : ∀ x, Leaves R (f x)) :
    Leaves R (Machine.forEach xs f) := by
  induction xs with
  | nil => exact Leaves.pure o _
  | cons x xs ih => exact (h x).bind o fun _ => ih

theorem Leaves.mapEach {α β : Type} (o : Order R) (xs : List α) {f : α → M z β} (h : ∀ x, Leaves R (f x)) :
    Leaves R (Machine.mapEach xs f) := by
  induction xs with
  | nil => exact Leaves.pure o _
  | cons x xs ih => exact (h x).bind o fun _ => ih.bind o fun _ => Leaves.pure o _

theorem Leaves.foldEach {α β : Type} (o : Order R) (xs : List α) (b : β) {f : β → α → M z β} (h : ∀ b x, Leaves R (f b x)) :
    Leaves R (Machine.foldEach xs b f) := by
  induction xs generalizing b with
  | nil => exact Leaves.pure o _
  | cons x xs ih => exact (h b x).bind o fun _ => ih _

theorem Leaves.ite {α : Type} {c : Prop} [Decidable c] {m n : M z α} (h : Leaves R m) (k : Leaves R n) :
    Leaves R (if c then m else n) := by
  split
  · exact h
  · exact k

/-- What a run gives, it leaves. -/
theorem Gives.leaves {α : Type} {m : M z α} {t u : State} {a : α} (g : Gives m t a u) (h : Leaves R m) (p : Path z t) :
    R t u := by
  obtain ⟨q, e⟩ := g p
  exact h _ _ _ e

/-! Translation changes memory, the home slices, the translation caches and the free counter only -/

/-- The parts of the state that translation leaves alone. -/
structure Still (t u : State) : Prop where
  moves : u.moves = t.moves
  cur : u.cur = t.cur
  fresh : u.fresh = t.fresh
  groups : u.groups = t.groups
  teams : u.teams = t.teams
  grids : u.grids = t.grids
  launches : u.launches = t.launches
  cores : u.cores = t.cores
  strings : u.strings = t.strings
  tables : u.tables = t.tables
  colls : u.colls = t.colls
  queues : u.queues = t.queues
  doorbells : u.doorbells = t.doorbells
  ctxs : u.ctxs = t.ctxs
  fns : u.fns = t.fns
  dev : u.dev = t.dev
  boot : u.boot = t.boot
  fuses : u.fuses = t.fuses
  linkOut : u.linkOut = t.linkOut
  timer : u.timer = t.timer

theorem still_order : Order Still where
  refl _ := ⟨rfl, rfl, rfl, rfl, rfl, rfl, rfl, rfl, rfl, rfl, rfl, rfl, rfl, rfl, rfl, rfl, rfl, rfl, rfl, rfl⟩
  trans h k := ⟨k.1.trans h.1, k.2.trans h.2, k.3.trans h.3, k.4.trans h.4, k.5.trans h.5, k.6.trans h.6, k.7.trans h.7,
    k.8.trans h.8, k.9.trans h.9, k.10.trans h.10, k.11.trans h.11, k.12.trans h.12, k.13.trans h.13, k.14.trans h.14,
    k.15.trans h.15, k.16.trans h.16, k.17.trans h.17, k.18.trans h.18, k.19.trans h.19,
    k.20.trans h.20⟩

theorem writeByte_still (a : Nat) (b : Byte) : Leaves Still (writeByte a b : M z Unit) := by
  intro t c u h
  cases h
  exact ⟨rfl, rfl, rfl, rfl, rfl, rfl, rfl, rfl, rfl, rfl, rfl, rfl, rfl, rfl, rfl, rfl, rfl, rfl, rfl, rfl⟩

theorem modHome_still (f : Home → Home) : Leaves Still (modHome f : M z Unit) :=
  Leaves.mod _ fun _ => ⟨rfl, rfl, rfl, rfl, rfl, rfl, rfl, rfl, rfl, rfl, rfl, rfl, rfl, rfl, rfl, rfl, rfl, rfl, rfl, rfl⟩

theorem modCluster_still (i : Nat) (f : Cluster → Cluster) : Leaves Still (modCluster i f : M z Unit) :=
  Leaves.mod _ fun _ => ⟨rfl, rfl, rfl, rfl, rfl, rfl, rfl, rfl, rfl, rfl, rfl, rfl, rfl, rfl, rfl, rfl, rfl, rfl, rfl, rfl⟩

theorem free_still : Leaves Still (modS (fun s => { s with free := s.free + 1 }) : M z Unit) :=
  Leaves.mod _ fun _ => ⟨rfl, rfl, rfl, rfl, rfl, rfl, rfl, rfl, rfl, rfl, rfl, rfl, rfl, rfl, rfl, rfl, rfl, rfl, rfl, rfl⟩

theorem freeByte_still : Leaves Still (freeByte : M z Byte) :=
  (Leaves.get still_order).bind still_order fun _ =>
    (Leaves.mod _ fun _ => ⟨rfl, rfl, rfl, rfl, rfl, rfl, rfl, rfl, rfl, rfl, rfl, rfl, rfl, rfl, rfl, rfl, rfl, rfl, rfl, rfl⟩).bind
      still_order fun _ => Leaves.pure still_order _

theorem tickHome_still : Leaves Still (tickHome : M z Nat) :=
  (Leaves.get still_order).bind still_order fun _ => (modHome_still _).bind still_order fun _ => Leaves.pure still_order _

theorem writeBack_still (line : Nat) : Leaves Still (writeBack line : M z Unit) := modHome_still _

theorem evictLine_still (line : Nat) : Leaves Still (evictLine line : M z Unit) := by
  refine (Leaves.get still_order).bind still_order fun s => ?_
  split
  · exact writeBack_still _
  · exact modHome_still _

theorem makeRoom_still (pa : Nat) : Leaves Still (makeRoom pa : M z Unit) := by
  refine (Leaves.get still_order).bind still_order fun s => Leaves.ite (Leaves.pure still_order _) ?_
  refine Leaves.ite (Leaves.pure still_order _) ((Leaves.guard still_order _).bind still_order fun _ => ?_)
  exact (Leaves.mod _ fun _ => ⟨rfl, rfl, rfl, rfl, rfl, rfl, rfl, rfl, rfl, rfl, rfl, rfl, rfl, rfl, rfl, rfl, rfl, rfl, rfl, rfl⟩).bind
    still_order fun _ => evictLine_still _

theorem bringLine_still (pa : Nat) : Leaves Still (bringLine pa : M z Unit) :=
  (Leaves.get still_order).bind still_order fun _ => Leaves.ite (Leaves.pure still_order _)
    ((Leaves.guard still_order _).bind still_order fun _ => (makeRoom_still _).bind still_order fun _ => modHome_still _)

theorem touchLine_still (pa : Nat) : Leaves Still (touchLine pa : M z Unit) := by
  refine (bringLine_still _).bind still_order fun _ => (Leaves.get still_order).bind still_order fun s => ?_
  dsimp only
  split
  · exact Leaves.pure still_order _
  · exact modHome_still _

theorem recordPast_still (w : Who) (base n : Nat) (wr : Bool) (pa : Nat) : Leaves Still (recordPast w base n wr pa : M z Unit) :=
  Leaves.ite (Leaves.pure still_order _) (modHome_still _)

theorem writeBytes_still (pa : Nat) (bs : List Byte) : Leaves Still (writeBytes pa bs : M z Unit) := by
  induction bs generalizing pa with
  | nil => exact Leaves.pure still_order _
  | cons b bs ih => exact (writeByte_still _ _).bind still_order fun _ => ih _

theorem noteWrite_still (w : Who) (at_ : Nat) (bs : List Byte) : Leaves Still (noteWrite w at_ bs : M z (List Byte)) := by
  refine tickHome_still.bind still_order fun _ => (Leaves.mapEach still_order _ fun x => ?_).bind still_order fun _ =>
    Leaves.ite ((modHome_still _).bind still_order fun _ => Leaves.pure still_order _) (Leaves.pure still_order _)
  refine (Leaves.get still_order).bind still_order fun s => (recordPast_still _ _ _ _ _).bind still_order fun _ =>
    (modHome_still _).bind still_order fun _ => ?_
  exact Leaves.ite freeByte_still (Leaves.pure still_order _)

theorem hsWrite_still (w : Who) (pa : Nat) (bs : List Byte) : Leaves Still (hsWrite w pa bs : M z Unit) :=
  (touchLine_still _).bind still_order fun _ => (touchLine_still _).bind still_order fun _ =>
    (noteWrite_still _ _ _).bind still_order fun _ => (writeBytes_still _ _).bind still_order fun _ => modHome_still _

theorem sysWrite_still (pa : Nat) (bs : List Byte) : Leaves Still (sysWrite pa bs : M z Unit) :=
  (Leaves.get still_order).bind still_order fun _ => (Leaves.guard still_order _).bind still_order fun _ => hsWrite_still _ _ _

theorem setAD_still (d : Bool) (us : List Use) : Leaves Still (setAD d us : M z Unit) := by
  refine Leaves.forEach still_order _ fun u => ?_
  refine Leaves.ite ((Leaves.get still_order).bind still_order fun _ => sysWrite_still _ _) (Leaves.pure still_order _)

theorem xlate_still (cl ctx : Nat) (c : CtxRec) (k : Nat) (e : Bool) (va : W64) :
    Leaves Still (xlate cl ctx c k e va : M z (Except XFail LaneAcc)) := by
  unfold xlate
  refine Leaves.ite (Leaves.pure still_order _) ((Leaves.get still_order).bind still_order fun s => ?_)
  dsimp only
  split
  · exact Leaves.pure still_order _
  · refine free_still.bind still_order fun _ => ?_
    split
    · exact Leaves.stay
    · exact Leaves.pure still_order _
    · exact Leaves.pure still_order _
    · split
      · exact Leaves.pure still_order _
      · split
        · exact Leaves.pure still_order _
        · exact (setAD_still _ _).bind still_order fun _ => (modCluster_still _ _).bind still_order fun _ =>
            Leaves.pure still_order _

theorem translate_still (cl ctx : Nat) (c : CtxRec) (acc : Access) (lanes : List LaneAcc) :
    Leaves Still (translate cl ctx c acc lanes : M z Trans) := by
  refine Leaves.foldEach still_order _ _ fun r a => (xlate_still _ _ _ _ _ _).bind still_order fun x => ?_
  split
  · exact Leaves.pure still_order _
  · exact Leaves.stay
  · exact Leaves.pure still_order _
  · exact Leaves.pure still_order _

end Sys2Proof.Machine
end

