-- ==== Sys2Proof/Laws/Unit.lean ====
section
/-! SUPPORT. What a unit that is ready does: its charge, its effect, and the word after it. Later proofs cite these lemmas
and do not unfold the operations. -/

namespace Sys2Proof.Machine

variable {z : State}

/-! Running a meaning -/

theorem bind_run {α β : Type} {m : M z α} {f : α → M z β} {t u : Run z} {a : α} (h : m t = .ok (a, u)) :
    (m >>= f) t = f a u := by
  simp only [bind, StateT.bind, h, Except.bind]

theorem pure_run {α : Type} (a : α) (t : Run z) : (pure a : M z α) t = .ok (a, t) := rfl

theorem runM_of {m : M z Unit} {t : State} (h : ∃ p, m ⟨z, .refl⟩ = .ok ((), ⟨t, p⟩)) : runM z m = .next t := by
  obtain ⟨p, h⟩ := h
  unfold runM
  rw [h]
  rfl

theorem Gives.pure {α : Type} (a : α) (t : State) : Gives (pure a : M z α) t a t := fun p => ⟨p, rfl⟩

theorem Gives.bind {α β : Type} {m : M z α} {f : α → M z β} {t u v : State} {a : α} {b : β}
    (h : Gives m t a u) (k : Gives (f a) u b v) : Gives (m >>= f) t b v := fun p => by
  obtain ⟨q, h⟩ := h p
  obtain ⟨r, k⟩ := k q
  exact ⟨r, (bind_run h).trans k⟩

theorem Gives.as {α : Type} {m : M z α} {t u v : State} {a : α} (h : Gives m t a u) (e : u = v) : Gives m t a v := e ▸ h

theorem Gives.mod (f : State → State) (h : Keeps f) (t : State) : Gives (modS f h : M z Unit) t () (f t) :=
  fun _ => ⟨_, rfl⟩

theorem Gives.get (t : State) : Gives (getS : M z State) t t t := fun p => ⟨p, rfl⟩

theorem Gives.write (a : Nat) (b : Byte) (t : State) :
    Gives (writeByte a b : M z Unit) t () { t with mem := Memory.write t.mem a b } := fun _ => ⟨_, rfl⟩

theorem Gives.attempt {α : Type} {m : M z α} {t u : State} {a : α} (h : Gives m t a u) :
    Gives (attempt m) t (.ok a) u := fun p => by
  obtain ⟨q, h⟩ := h p
  exact ⟨q, by simp only [Machine.attempt, h]⟩

theorem Gives.modGroup (g : Nat) (f : Group → Group) (t : State) :
    Gives (modGroup g f : M z Unit) t () { t with groups := SMap.adjust t.groups g f } := Gives.mod _ _ t

/-- A change of a group, then a result. -/
theorem Gives.modThen {α : Type} (g : Nat) (f : Group → Group) (a : α) (t : State) :
    Gives (do Machine.modGroup g f; Pure.pure a : M z α) t a { t with groups := SMap.adjust t.groups g f } :=
  (Gives.modGroup g f t).bind (Gives.pure a _)

theorem Gives.modTeam (e : Nat) (f : Team → Team) (t : State) :
    Gives (modTeam e f : M z Unit) t () { t with teams := SMap.adjust t.teams e f } := Gives.mod _ _ t

theorem Gives.modCore (i : Nat) (f : Core → Core) (t : State) :
    Gives (modCore i f : M z Unit) t () { t with cores := SMap.put t.cores i (f (t.core i)) } := Gives.mod _ _ t

theorem Gives.getGroup {g : Nat} {t : State} {gr : Group} (h : t.group? g = some gr) :
    Gives (getGroup g : M z Group) t gr t := by
  refine (Gives.get t).bind ?_
  simp only [h, need]
  exact Gives.pure gr t

theorem Gives.getTeam {e : Nat} {t : State} {tm : Team} (h : t.team? e = some tm) :
    Gives (getTeam e : M z Team) t tm t := by
  refine (Gives.get t).bind ?_
  simp only [h, need]
  exact Gives.pure tm t

theorem Gives.getLaunch {l : Nat} {t : State} {k : Launch} (h : t.launch? l = some k) :
    Gives (getLaunch l : M z Launch) t k t := by
  refine (Gives.get t).bind ?_
  simp only [h, need]
  exact Gives.pure k t

theorem Gives.getGrid {i : Nat} {t : State} {gd : Grid} (h : t.grid? i = some gd) :
    Gives (getGrid i : M z Grid) t gd t := by
  refine (Gives.get t).bind ?_
  simp only [h, need]
  exact Gives.pure gd t

theorem Gives.guard {b : Bool} (h : b = true) (t : State) : Gives (guardS b : M z Unit) t () t := by
  unfold guardS
  rw [if_pos h]
  exact Gives.pure _ _

theorem runM_gives {m : M z Unit} {t : State} (h : Gives m z () t) : runM z m = .next t := runM_of (h .refl)

theorem Gives.asWaiter {α : Type} (who : SysWaiter) {m : M z α} {t u : State} {a : α} (h : Gives m t a u) :
    Gives (asWaiter who m) t a u := fun p => by
  obtain ⟨q, h⟩ := h p
  exact ⟨q, by simp only [Machine.asWaiter, h]⟩

theorem runGroup_gives {w : View} {m : M z Unit} {t : State} (h : Gives m z () t) : runGroup z w m = .next t := by
  obtain ⟨q, h⟩ := h.asWaiter (.group w.g) .refl
  unfold runGroup
  rw [h]
  rfl

/-! Views -/

theorem view_cases {s : State} {w : View} (h : view s = some w) :
    w.s = s ∧ s.cur = some w.g ∧ s.group? w.g = some w.gr ∧ s.team? w.eid = some w.t ∧ w.core = w.t.core.getD 0 := by
  unfold view at h
  split at h
  · cases h
  · next g hg =>
    unfold viewOf at h
    split at h
    · next gr t h1 h2 =>
      cases h
      exact ⟨rfl, hg, h1, h2, rfl⟩
    · cases h

/-! Ready units -/

theorem Ready.gate {w : View} {i : Info} (h : Ready w i) : gate w i = none := by
  simp [Machine.gate, Info.early, h.presents, h.free, h.picked, h.sound, h.landed, h.own, h.current]

theorem Ready.verdict {w : View} {i : Info} (h : Ready w i) :
    verdict w i = .issues (w.cost i) := by
  have p := h.paid
  simp only [Machine.verdict, h.gate, Option.getD_none, compareAl, View.cost] at p ⊢
  split <;> simp_all

theorem charge_gives (w : View) (i : Info) (c : Nat) (t : State) :
    Gives (z := z) (chargeUnit w i c) t ()
      { t with
        teams := SMap.adjust t.teams w.eid fun t => { t with al := t.al - BitVec.ofNat 64 (c + i.moved), charged := t.charged + c }
        groups := SMap.adjust t.groups w.g fun gr => { gr with sysWait := none }
        cores := SMap.put t.cores w.core
          (let c := w.issues (t.core w.core)
           match i.pipe with
           | none => c
           | some true => { c with sfuUntil := some (w.cyc + 64) }
           | some false => { c with vecUntil := some (w.cyc + 64) }) } :=
  (Gives.modTeam _ _ _).bind ((Gives.modGroup _ _ _).bind (Gives.modCore _ _ _))

theorem after_gives (w : View) (t : State) :
    Gives (z := z) (afterUnit w) t ()
      { t with
        teams := match w.t.stop with
          | .stepping _ => SMap.adjust t.teams w.eid fun t => { t with stop := .stopping }
          | _ => t.teams
        groups := match w.sched with
          | some (n, y) => SMap.adjust t.groups w.g fun gr =>
              { gr with stallUntil := w.cyc + n, yielded := if y then some (w.cyc + 1) else none }
          | none => t.groups } := by
  unfold afterUnit
  rcases hd : w.sched with _ | ⟨n, y⟩ <;> rcases hst : w.t.stop with _ | _ | _ | k
  · exact Gives.pure _ _
  · exact Gives.pure _ _
  · exact Gives.pure _ _
  · exact Gives.modTeam _ _ _
  · exact (Gives.modGroup _ _ _).bind (Gives.pure _ _)
  · exact (Gives.modGroup _ _ _).bind (Gives.pure _ _)
  · exact (Gives.modGroup _ _ _).bind (Gives.pure _ _)
  · exact (Gives.modGroup _ _ _).bind (Gives.modTeam _ _ _)

/-- What a ready unit does before its effect leaves `View.paid`. -/
theorem paid_gives {w : View} {i : Info} (hs : w.s = z) :
    Gives (z := z) (do chargeUnit w i (w.cost i); afterUnit w) z () (w.paid i) := by
  subst hs
  exact (charge_gives w i _ w.s).bind (after_gives w _)

theorem moveTo_gives (w : View) {n : Nat} (h : n < 16384) (t : State) :
    Gives (z := z) (moveTo w n) t none (w.at w.gr.slot (BitVec.ofNat 14 n) t) := by
  have k : (0 ≤ (n : Int) && (n : Int) < 16384) = true := by simp; omega
  unfold moveTo
  rw [if_pos k]
  exact (Gives.modGroup _ _ _).bind (Gives.pure _ _)

theorem stepTrap_gives {w : View} (h : NoStep w) (t : State) :
    Gives (z := z) (stepTrap w) t () t := by
  unfold stepTrap
  rw [if_neg (by rcases h with h | h <;> simp only [h, Bool.false_and, Bool.not_true, Bool.and_false, Bool.false_eq_true,
    not_false_eq_true])]
  exact Gives.pure _ _

/-- The flow to the next word. -/
theorem seq_gives {w : View} (e : PlainEnd w) (t : State) : Gives (z := z) (follow w .seq) t () (w.next t) :=
  (moveTo_gives (z := z) w e.inSlot t).bind (stepTrap_gives e.noStep _)

/-- A jump inside the slot. -/
theorem jump_gives {w : View} {n : Nat} (h : n < 16384) (e : NoStep w) (t : State) :
    Gives (z := z) (follow w (.jump n)) t () (w.at w.gr.slot (BitVec.ofNat 14 n) t) :=
  (moveTo_gives (z := z) w h t).bind (stepTrap_gives e _)

theorem far_gives {w : View} (slot : BitVec 1) (off : BitVec 14) (e : NoStep w) (t : State) :
    Gives (z := z) (follow w (.far slot off)) t () (w.at slot off t) :=
  (Gives.modGroup _ _ _).bind (stepTrap_gives e _)

/-- A ready unit whose effect gives a flow issues. -/
theorem issue_gives {w : View} {i : Info} {eff : M z Flow} {u v : State} {f : Flow} (hs : w.s = z) (r : Ready w i)
    (a : Acts w i) (he : Gives eff (w.paid i) f u) (hf : Gives (z := z) (follow w f) u () v) :
    Gives (z := z) (conclude w i eff (verdict w i)) z () v := by
  rw [r.verdict]
  have h : (i.mask == .skips && w.exm == 0) = false := by
    cases hm : i.mask == .skips
    · rfl
    · have := a (by simpa using hm)
      simpa using this
  have k : Gives (z := z) (do let r ← attempt eff; afterEffect w r) (w.paid i) () v := he.attempt.bind hf
  have l := (paid_gives (i := i) hs).bind (f := fun _ => do let r ← attempt eff; afterEffect w r) k
  rw [bind_assoc] at l
  unfold conclude issueUnit
  rw [h]
  exact l

/-- A ready unit of `runUnit` answers the state its flow leaves. -/
theorem runUnit_gives {s : State} {info : View → Info} {eff : View → M s Flow} {w : View} {u v : State} {f : Flow}
    (hw : view s = some w) (r : Ready w (info w)) (a : Acts w (info w)) (he : Gives (eff w) (w.paid (info w)) f u)
    (hf : Gives (z := s) (follow w f) u () v) : runUnit s info eff = .next v := by
  unfold runUnit
  rw [hw]
  exact runGroup_gives (issue_gives (view_cases hw).1 r a he hf)

/-- A ready unit of `runUnit` whose effect ends at the next word. -/
theorem runUnit_seq {s : State} {info : View → Info} {eff : View → M s Flow} {f : View → State → State} {w : View}
    (hw : view s = some w) (r : Ready w (info w)) (a : Acts w (info w)) (e : PlainEnd w)
    (he : Gives (eff w) (w.paid (info w)) .seq (f w (w.paid (info w)))) :
    runUnit s info eff = .next (w.issued (info w) (f w)) := runUnit_gives hw r a he (seq_gives e _)

/-- A ready unit whose effect is a change of registers. -/
theorem runRegs_ready {s : State} {info : View → Info} {f : View → Group → Group} {w : View}
    (hw : view s = some w) (r : Ready w (info w)) (a : Acts w (info w)) (e : PlainEnd w) :
    runRegs s info f = .next (w.issued (info w) (w.onGroup (f w))) :=
  runUnit_seq (f := fun w => w.onGroup (f w)) hw r a e ((Gives.modGroup _ _ _).bind (Gives.pure _ _))

end Sys2Proof.Machine
end

