-- ==== Sys2Proof/Laws/Access.lean ====
section
/-! SUPPORT. What the words of global memory do: an access whose lanes reach memory is queued. -/

namespace Sys2Proof.Machine

variable {z : State}

/-- The group a unit leaves before its effect. -/
theorem paid_group_eq {s : State} {w : View} {i : Info} (hw : view s = some w) :
    ∃ n y, (w.paid i).group? w.g = some { w.gr with stallUntil := n, yielded := y, sysWait := none } := by
  obtain ⟨h1, -, h3, -, -⟩ := view_cases hw
  have h3' : SMap.get? w.s.groups w.g = some w.gr := by rw [h1]; exact h3
  unfold View.paid View.paidAt State.group?
  dsimp only
  rcases w.sched with _ | ⟨n, y⟩ <;> simp only [SMap.get?_adjust_self, h3', Option.map_some]
  · exact ⟨_, _, rfl⟩
  · exact ⟨_, _, rfl⟩

theorem paid_group {s : State} {w : View} {i : Info} (hw : view s = some w) :
    ∃ gr, (w.paid i).group? w.g = some gr ∧ gr.nextId = w.gr.nextId ∧ gr.sq = w.gr.sq ∧ gr.ls = w.gr.ls ∧ gr.hold =
      w.gr.hold := by
  obtain ⟨n, y, h⟩ := paid_group_eq (i := i) hw
  exact ⟨_, h, rfl, rfl, rfl, rfl⟩

/-- The team a unit leaves before its effect: its charges moved, its stop may end. -/
theorem paid_team_eq {s : State} {w : View} {i : Info} (hw : view s = some w) :
    ∃ al ch st, (w.paid i).team? w.eid = some { w.t with al := al, charged := ch, stop := st } := by
  obtain ⟨h1, -, -, h4, -⟩ := view_cases hw
  have h4' : SMap.get? w.s.teams w.eid = some w.t := by rw [h1]; exact h4
  unfold View.paid View.paidAt State.team?
  dsimp only
  rcases hst : w.t.stop with _ | _ | _ | k <;> simp only [SMap.get?_adjust_self, h4', Option.map_some] <;>
    exact ⟨_, _, _, rfl⟩

theorem paid_team {s : State} {w : View} {i : Info} (hw : view s = some w) :
    ∃ t, (w.paid i).team? w.eid = some t ∧ t.launch = w.t.launch ∧ t.ctx = w.t.ctx := by
  obtain ⟨al, ch, st, h⟩ := paid_team_eq (i := i) hw
  exact ⟨_, h, rfl, rfl⟩

theorem traffic_gives (l n : Nat) (t : State) : Gives (z := z) (addTraffic l n) t () (withTraffic l n t) :=
  (Gives.get t).bind (Gives.mod _ _ t)

theorem groups_eq {t : State} {g : Nat} {gr : Group} {f k : Group → Group} (h : t.group? g = some gr) (e : f gr = k gr) :
    { t with groups := SMap.adjust t.groups g f } = { t with groups := SMap.adjust t.groups g k } := by
  rw [SMap.adjust_congr h e]

theorem takeUnit_gives {g n : Nat} {t : State} {gr : Group} (h : t.group? g = some gr) :
    Gives (z := z) (takeUnit g n) t gr.nextId
      { t with groups := SMap.adjust t.groups g fun gr => { gr with nextId := gr.nextId + max n 1 } } :=
  (Gives.getGroup h).bind (Gives.modThen _ _ _ _)

theorem takeThen_gives {g n : Nat} {f : Nat → Group → Group} {t : State} {gr : Group} (h : t.group? g = some gr) :
    Gives (z := z) (do let u ← takeUnit g n; modGroup g (f u)) t ()
      { t with groups := SMap.adjust t.groups g fun gr => f gr.nextId { gr with nextId := gr.nextId + max n 1 } } := by
  refine ((takeUnit_gives h).bind (f := fun u => modGroup g (f u)) (Gives.modGroup _ _ _)).as ?_
  simp only [SMap.adjust_adjust]
  exact groups_eq h rfl

/-- A unit number, then an access that enters the queues under it. -/
theorem push_gives {w : View} {t : State} {gr : Group} {n : Nat} {f : Nat → Group → Group} {k : Group → Group}
    (h : t.group? w.g = some gr) (e : f (gr.nextId + 1) { gr with nextId := gr.nextId + 1 + max n 1 } = k gr) :
    Gives (z := z) (do let u ← takeUnit w.g n; modGroup w.g (f u))
      { t with groups := SMap.adjust t.groups w.g fun gr => { gr with nextId := gr.nextId + max 1 1 } } () (w.onGroup k t) := by
  refine (takeThen_gives (gr := { gr with nextId := gr.nextId + 1 }) ?_).as ?_
  · exact (SMap.get?_adjust_self _ _ _).trans (congrArg _ h)
  · simp only [View.onGroup, SMap.adjust_adjust]
    exact groups_eq h e

/-- The state once an access word has its number. -/
def View.numbered (w : View) (t : State) : State :=
  { t with groups := SMap.adjust t.groups w.g fun gr => { gr with nextId := gr.nextId + max 1 1 } }

theorem pushLoad_gives {w : View} {acc : Access} {ok : List LaneAcc} {t : State} {gr : Group} (h : t.group? w.g = some
    gr) (k : gr.nextId = w.gr.nextId) :
    Gives (z := z) (pushLoad w.g w.gr.nextId acc ok) (w.numbered t) () (w.onGroup (withLoad w acc ok) t) := by
  refine push_gives (k := withLoad w acc ok) h ?_
  simp only [withLoad, k, Nat.max_self]

theorem pushStore_gives {w : View} {acc : Access} {ok : List LaneAcc} {t : State} {gr : Group} (h : t.group? w.g = some
    gr) (k : gr.nextId = w.gr.nextId) :
    Gives (z := z) (pushStore w.g w.gr.nextId acc ok) (w.numbered t) () (w.onGroup (withStore w acc ok) t) := by
  refine push_gives (k := withStore w acc ok) h ?_
  simp only [withStore, k]

theorem pushAtom_gives {w : View} {acc : Access} {ok : List LaneAcc} {t : State} {gr : Group} (h : t.group? w.g = some
    gr) (k : gr.nextId = w.gr.nextId) (d : acc.dest ≠ .none) :
    Gives (z := z) (pushAtom w.g w.gr.nextId acc ok) (w.numbered t) () (w.onGroup (withAtom w acc ok) t) := by
  refine push_gives (k := withAtom w acc ok) h ?_
  simp only [withAtom, k, if_neg d]
  have : max ((distinct (ok.map (·.pa))).length + 1) 1 = (distinct (ok.map (·.pa))).length + 1 := by omega
  rw [this]

theorem traffic_launch {l n : Nat} {t : State} {k : Launch} (h : t.launch? l = some k) :
    ∃ k', (withTraffic l n t).launch? l = some k' ∧ k'.rcd = k.rcd ∧ k'.journal = k.journal := by
  refine ⟨_, (SMap.get?_adjust_self _ _ _).trans (congrArg _ h), ?_, ?_⟩ <;> dsimp only <;> cases k.msh <;> rfl

/-- A group of `w` that is not drained stays at its word in mixed-size debug mode and goes on elsewhere. -/
theorem postHold_gives {w : View} {acc : Access} {t : State} {gr : Group} {tm : Team} (hg : t.group? w.g = some gr)
    (ht : t.team? w.eid = some tm) (np : acc.np = false) (sp : acc.space = 0) (hd : gr.drained = false) :
    Gives (z := z) (postHold w.g acc) t (if (t.ctx tm.ctx).msz then .parked else .seq)
      (if (t.ctx tm.ctx).msz then w.onGroup (fun gr => { gr with hold := some .nonPosted }) t else t) := by
  refine (Gives.get t).bind ((Gives.getTeam ht).bind ((Gives.getGroup hg).bind ?_))
  simp only [np, sp, Bool.false_or, hd, Bool.not_false, Bool.and_true, decide_true]
  cases (t.ctx tm.ctx).msz
  · exact Gives.pure _ _
  · exact Gives.modThen _ _ _ _

/-- What the words that queue an access share. -/
theorem start_gives {s : State} {w : View} {i : Info} {acc : Access} {lanes ok : List LaneAcc} {u : State}
    {push : View → Access → List LaneAcc → Group → Group} (n : Nat)
    (hw : view s = some w) (r : Reaches s w (withTraffic w.t.launch n (w.paid i)) acc lanes ok u)
    (np : acc.np = false) (sp : acc.space = 0) (kp : acc.kind ≠ .prf)
    (hp : ∀ gr l tm, u.group? w.g = some gr → gr.nextId = w.gr.nextId → u.team? w.eid = some tm → tm.launch = w.t.launch →
      u.launch? w.t.launch = some l → (∀ k, s.launch? w.t.launch = some k → l.journal = k.journal) →
      Gives (z := s) (performLanes w.g w.gr.nextId acc ok) (w.numbered u) [] (w.onGroup (push w acc ok) u))
    (hq : ∀ gr, (push w acc ok gr).drained = false) :
    Gives (z := s) (do addTraffic w.t.launch n; startAccess w acc lanes (misaligned acc.size (lanes.map fun a =>
      (a.lane, a.va))))
      (w.paid i)
      (if (u.ctx w.t.ctx).msz then .parked else .seq)
      (if (u.ctx w.t.ctx).msz then w.onGroup (fun gr => { push w acc ok gr with hold := some .nonPosted }) u
        else w.onGroup (push w acc ok) u) := by
  obtain ⟨⟨l, hl, hg⟩, hm, hu, hs⟩ := r
  obtain ⟨gr, hgr, hid, -, -, -⟩ := paid_group (i := i) hw
  have hl' : (w.paid i).launch? w.t.launch = some l := by
    have := (view_cases hw).1
    rw [← this] at hl
    exact hl
  obtain ⟨l', hl2, hr, hj⟩ := traffic_launch (n := n) hl'
  intro p
  refine (traffic_gives _ _ _).bind ?_ p
  clear p
  intro p
  have st := hg.leaves (translate_still _ _ _ _ _) p
  revert p
  show Gives _ _ _ _
  have ug : u.group? w.g = some gr := by
    unfold State.group?; rw [st.groups]; exact hgr
  have ul : u.launch? w.t.launch = some l' := by
    unfold State.launch?; rw [st.launches]; exact hl2
  obtain ⟨tm, ht0, hla, hc⟩ := paid_team (i := i) hw
  have ht : u.team? w.eid = some tm := by
    unfold State.team?; rw [st.teams]; exact ht0
  have hpp := hp gr l' tm ug hid ht hla ul (fun k hk => by rw [hl] at hk; cases hk; exact hj)
  have h1 : Gives (z := s) (teamRec w.t) (withTraffic w.t.launch n (w.paid i)) l.rcd (withTraffic w.t.launch n (w.paid
      i)) := by
    rw [← hr]
    refine ((Gives.get _).bind (f := fun s => need (s.launch? w.t.launch)) (a := _) (b := l') ?_).bind (f := fun l =>
      pure l.rcd) (Gives.pure _ _)
    rw [hl2]; exact Gives.pure _ _
  have og : (w.onGroup (push w acc ok) u).group? w.g = some (push w acc ok gr) := by
    unfold State.group? at ug ⊢
    exact (SMap.get?_adjust_self _ _ _).trans (by rw [ug]; rfl)
  have k := postHold_gives (z := s) (w := w) (acc := acc) og (tm := tm) ht np sp (hq gr)
  rw [hc] at k
  unfold startAccess
  refine h1.bind ((Gives.get _).bind (hg.bind ?_))
  have kb : (acc.kind == .prf) = false := by simpa using kp
  simp only [hm, hu, List.append_nil, kb, Bool.false_eq_true, if_false, List.isEmpty_nil, Bool.not_true, Bool.false_and]
  have tu := takeUnit_gives (z := s) (g := w.g) (n := 1) ug
  rw [hid] at tu
  refine Gives.as (tu.bind (hpp.attempt.bind k)) ?_
  have e : (w.onGroup (push w acc ok) u).ctx w.t.ctx = u.ctx w.t.ctx := rfl
  rw [e]
  split
  · simp only [View.onGroup, SMap.adjust_adjust]
  · rfl

theorem topLanes_ne {l : List LaneAcc} (h : l ≠ []) : topLanes l ≠ [] := by
  induction l with
  | nil => exact absurd rfl h
  | cons a r ih =>
    simp only [topLanes]
    split
    · next hr => exact ih (by rintro rfl; simp at hr)
    · simp

theorem splitParts_ne {acc : Access} {l : List LaneAcc} (h : l ≠ []) : splitParts acc l ≠ [] := by
  unfold splitParts
  split
  · cases l with
    | nil => exact absurd rfl h
    | cons a r => simp
  · exact h

/-- A group's record and its launch, where an access performs its lanes. -/
structure Performs (w : View) (u : State) (gr : Group) (tm : Team) (l : Launch) (ok : List LaneAcc) : Prop where
  group : u.group? w.g = some gr
  next : gr.nextId = w.gr.nextId
  team : u.team? w.eid = some tm
  launch : u.launch? tm.launch = some l
  some : ok ≠ []
  unchecked : ok.any (·.chk) = false

/-- The lanes outside checked pages of a plain load. -/
theorem performLoad_gives {s : State} {w : View} {acc : Access} {ok : List LaneAcc} {u : State} {gr : Group} {l : Launch}
    {tm : Team} {sg : Bool} (hk : acc.kind = .load sg) (p : Performs w u gr tm l ok) :
    Gives (z := s) (performLanes w.g w.gr.nextId acc ok) (w.numbered u) [] (w.onGroup (withLoad w acc ok) u) := by
  refine (Gives.get (w.numbered u)).bind ((Gives.getTeam (t := w.numbered u) p.team).bind
    ((Gives.getLaunch (t := w.numbered u) p.launch).bind ?_))
  have he : ok.isEmpty = false := by simpa using p.some
  simp only [he, hk, p.unchecked, Bool.false_eq_true, Bool.false_and, if_false, List.isEmpty_nil, Bool.not_true]
  exact Gives.bind (f := fun _ => pure []) (pushLoad_gives p.group p.next) (Gives.pure _ _)

theorem performStore_gives {s : State} {w : View} {acc : Access} {ok : List LaneAcc} {u : State} {gr : Group} {l : Launch}
    {tm : Team} (hk : acc.kind = .store) (p : Performs w u gr tm l ok) :
    Gives (z := s) (performLanes w.g w.gr.nextId acc ok) (w.numbered u) [] (w.onGroup (withStore w acc ok) u) := by
  refine (Gives.get (w.numbered u)).bind ((Gives.getTeam (t := w.numbered u) p.team).bind
    ((Gives.getLaunch (t := w.numbered u) p.launch).bind ?_))
  have he : ok.isEmpty = false := by simpa using p.some
  simp only [he, hk, p.unchecked, Bool.false_eq_true, Bool.false_and, if_false, List.isEmpty_nil, Bool.not_true]
  exact Gives.bind (f := fun _ => pure []) (pushStore_gives p.group p.next) (Gives.pure _ _)

theorem performAtom_gives {s : State} {w : View} {acc : Access} {ok : List LaneAcc} {u : State} {gr : Group} {l : Launch}
    {tm : Team} {op : AtomOp} (hk : acc.kind = .atom op) (hd : acc.dest ≠ .none) (hj : l.journal ≠ 2) (p : Performs w u gr tm l ok) :
    Gives (z := s) (performLanes w.g w.gr.nextId acc ok) (w.numbered u) [] (w.onGroup (withAtom w acc ok) u) := by
  refine (Gives.get (w.numbered u)).bind ((Gives.getTeam (t := w.numbered u) p.team).bind
    ((Gives.getLaunch (t := w.numbered u) p.launch).bind ?_))
  have he : ok.isEmpty = false := by simpa using p.some
  simp only [he, hk, hj, p.unchecked, Bool.false_eq_true, Bool.false_and, if_false, List.isEmpty_nil, Bool.not_true, Bool.false_or,
    decide_false]
  exact Gives.bind (f := fun _ => pure []) (pushAtom_gives p.group p.next hd) (Gives.pure _ _)

theorem queues {i : Instr} {info : View → Info} {acc : View → Access} {lanes : View → List LaneAcc}
    {push : View → Access → List LaneAcc → Group → Group} {s : State}
    (he : exec i s = runUnit s info fun w => accessLanes w (acc w) (lanes w))
    (np : ∀ w, (acc w).np = false) (sp : ∀ w, (acc w).space = 0) (kp : ∀ w, (acc w).kind ≠ .prf)
    (hp : ∀ w ok u gr l tm, view s = some w → Performs w u gr tm l ok →
      (∀ k, s.launch? w.t.launch = some k → l.journal = k.journal) →
      Gives (z := s) (performLanes w.g w.gr.nextId (acc w) ok) (w.numbered u) [] (w.onGroup (push w (acc w) ok) u))
    (hq : ∀ w ok gr, ok ≠ [] → (push w (acc w) ok gr).drained = false) : Queues i info acc lanes push s := by
  intro w ok u hw r a e re hc
  rw [he]
  refine runUnit_gives hw r a (f := if (u.ctx w.t.ctx).msz then .parked else .seq) (start_gives _ hw re (np w) (sp w) (kp w)
      ?_ (fun gr => hq w ok gr re.some)) ?_
  · intro gr l tm hg hid ht hla hl hj
    exact hp w ok u gr l tm hw ⟨hg, hid, ht, by rw [hla]; exact hl, re.some, hc⟩ hj
  · split
    · exact Gives.pure _ _
    · exact seq_gives e _

theorem loads {i : BitVec 7 → BitVec 6 → BitVec 8 → BitVec 2 → Instr} {sg : Bool} {size : Nat}
    (he : ∀ s vd sb vo ord, exec (i vd sb vo ord) s = runLoad s (operandsOk (i vd sb vo ord)) sg size vd sb vo ord) :
    Loads i sg size := fun s vd sb vo ord =>
  queues (push := withLoad) (he s vd sb vo ord) (fun _ => rfl) (fun _ => rfl) (fun _ => by simp)
    (fun _ _ _ _ _ _ _ p _ => performLoad_gives rfl p) fun _ _ _ _ => by simp [withLoad, Group.drained]

theorem stores {i : BitVec 7 → BitVec 6 → BitVec 8 → BitVec 2 → Instr} {size : Nat}
    (he : ∀ s vd sb vo ord, exec (i vd sb vo ord) s = runStore s (operandsOk (i vd sb vo ord)) size vd sb vo ord) :
    Stores i size := fun s vd sb vo ord =>
  queues (push := withStore) (he s vd sb vo ord) (fun _ => rfl) (fun _ => rfl) (fun _ => by simp)
    (fun _ _ _ _ _ _ _ p _ => performStore_gives rfl p) fun _ _ _ h => by
      simp [withStore, Group.drained, splitParts_ne (topLanes_ne h)]

theorem atomics {i : BitVec 7 → BitVec 6 → BitVec 8 → BitVec 2 → Instr} {op : AtomOp} {size : Nat}
    (he : ∀ s vd sb vo ord, exec (i vd sb vo ord) s = runAtom s (operandsOk (i vd sb vo ord)) op size vd sb vo ord) :
      Atomics i op size := by
  intro s vd sb vo ord hn w ok u hw r a e re hc
  obtain ⟨k, hk, -⟩ := re.translates
  have hjn := hn w k hw hk
  refine queues (push := withAtom) (he s vd sb vo ord) (fun _ => rfl) (fun _ => rfl) (fun _ => by simp)
    (fun w ok u gr l tm hw' p hj => performAtom_gives rfl (by simp) ?_ p)
    (fun _ _ _ h => by simp [withAtom, Group.drained]) w ok u hw r a e re hc
  rw [hw] at hw'
  cases hw'
  rw [hj k hk]
  exact hjn

end Sys2Proof.Machine
end

