-- ==== Sys2Proof/Laws/Home.lean ====
section
/-! SUPPORT. What reads and writes at home slices and scratchpads leave, where lines have room and no mixed-size overlap stands. -/

namespace Sys2Proof.Machine

variable {z : State}

theorem Gives.modCluster (i : Nat) (f : Cluster → Cluster) (t : State) :
    Gives (modCluster i f : M z Unit) t () { t with clusters := SMap.put t.clusters i (f (t.cluster i)) } := Gives.mod _ _ t

theorem Gives.modHome (f : Home → Home) (t : State) : Gives (modHome f : M z Unit) t () { t with home := f t.home } := Gives.mod _ _ t

/-! Sizes -/

theorem SMap.length_put {α : Type} (m : SMap α) (k : Nat) (a : α) : (SMap.put m k a).length ≤ m.length + 1 := by
  induction m with
  | nil => simp [SMap.put]
  | cons e m ih =>
    unfold SMap.put
    split <;> try split
    all_goals simp only [List.length_cons]; omega

theorem SMap.length_del {α : Type} (m : SMap α) (k : Nat) : (SMap.del m k).length ≤ m.length := by
  induction m with
  | nil => simp [SMap.del]
  | cons e m ih =>
    unfold SMap.del
    split <;> try split
    all_goals simp only [List.length_cons]; omega

theorem SMap.length_del_put {α : Type} {m : SMap α} {k : Nat} (a : α) (h : SMap.get? m k = none) :
    (SMap.del (SMap.put m k a) k).length ≤ m.length := by
  induction m with
  | nil => simp [SMap.put, SMap.del]
  | cons e m ih =>
    obtain ⟨i, b⟩ := e
    unfold SMap.get? at h
    unfold SMap.put
    by_cases h1 : i = k
    · simp [h1] at h
    · rw [if_neg h1] at h
      by_cases h2 : k < i
      · simp [h2, h1, SMap.del]
      · simp only [h1, h2, if_false]
        unfold SMap.del
        simp only [h1, h2, if_false, List.length_cons]
        have := ih (by simpa [h2] using h)
        omega

/-! Lines -/

/-- How many lines the slices hold. -/
def linesHeld (t : State) : Nat := t.home.dirty.length + t.home.clean.length

/-- The line is in its slice, or may be filled with one place left. -/
def OneRoom (t : State) (pa : Nat) : Prop :=
  linePresent t.home (pa / 64) = true ∨ (rankBlocked t.dev pa = false ∧ linesHeld t < 32768)

theorem HasRoom.one {t : State} {pa : Nat} (h : HasRoom t pa) : OneRoom t pa :=
  h.imp id fun k => ⟨k.1, by unfold linesHeld; omega⟩

theorem bringLine_gives {pa : Nat} {t : State} (h : OneRoom t pa) : Gives (z := z) (bringLine pa) t () (lineBrought pa t) := by
  unfold bringLine lineBrought
  refine (Gives.get t).bind ?_
  dsimp only
  by_cases hp : linePresent t.home (pa / 64) = true
  · rw [if_pos hp, if_pos hp]
    exact Gives.pure _ _
  · obtain ⟨h1, h2⟩ := h.resolve_left hp
    rw [if_neg hp, if_neg hp]
    refine (Gives.guard (by rw [h1]; rfl) t).bind (Gives.bind (a := ()) ?_ (Gives.modHome _ t))
    exact (Gives.get t).bind (by unfold linesHeld at h2; rw [if_pos h2]; exact Gives.pure _ _)

theorem brought_present (pa : Nat) (t : State) : linePresent (lineBrought pa t).home (pa / 64) = true := by
  unfold lineBrought
  dsimp only
  split
  · assumption
  · simp [linePresent, NSet.has, NSet.add]

theorem brought_keeps {pa line : Nat} {t : State} (h : linePresent t.home line = true) :
    linePresent (lineBrought pa t).home line = true := by
  unfold lineBrought
  dsimp only
  split
  · exact h
  · by_cases e : pa / 64 = line
    · subst e; simp [linePresent, NSet.has, NSet.add]
    · simpa [linePresent, NSet.has, NSet.add, SMap.get?_put_ne _ _ e] using h

theorem brought_held (pa : Nat) (t : State) : linesHeld (lineBrought pa t) ≤ linesHeld t + 1 := by
  unfold lineBrought
  dsimp only
  split
  · omega
  · have := SMap.length_put t.home.clean (pa / 64) ()
    unfold linesHeld NSet.add
    dsimp only
    omega

theorem brought_dev (pa : Nat) (t : State) : (lineBrought pa t).dev = t.dev := by
  unfold lineBrought
  dsimp only
  split <;> rfl

theorem brought_room {pa qa : Nat} {t : State} (h : HasRoom t qa) : OneRoom (lineBrought pa t) qa := by
  refine h.imp brought_keeps fun k => ⟨by rw [brought_dev]; exact k.1, ?_⟩
  have := brought_held pa t
  have := k.2
  unfold linesHeld at *
  omega

theorem touchLine_gives {pa : Nat} {t : State} (h : OneRoom t pa) : Gives (z := z) (touchLine pa) t () (lineTouched pa t) := by
  unfold touchLine lineTouched
  refine (bringLine_gives h).bind ((Gives.get _).bind ?_)
  dsimp only
  cases SMap.get? (lineBrought pa t).home.dirty (pa / 64)
  · exact Gives.modHome _ _
  · exact Gives.pure _ _

theorem touched_present (pa : Nat) (t : State) : linePresent (lineTouched pa t).home (pa / 64) = true := by
  unfold lineTouched
  dsimp only
  split
  · exact brought_present _ _
  · simp [linePresent]

theorem touched_keeps {pa line : Nat} {t : State} (h : linePresent t.home line = true) :
    linePresent (lineTouched pa t).home line = true := by
  have k := brought_keeps (pa := pa) h
  unfold lineTouched
  dsimp only
  split
  · exact k
  · by_cases e : pa / 64 = line
    · subst e; simp [linePresent]
    · unfold linePresent NSet.has at k ⊢
      unfold NSet.erase
      dsimp only
      rw [SMap.get?_put_ne _ _ e, SMap.get?_del_ne _ e]
      exact k

theorem touched_held (pa : Nat) (t : State) : linesHeld (lineTouched pa t) ≤ linesHeld t + 1 := by
  unfold lineTouched
  dsimp only
  split
  · exact brought_held _ _
  · have h1 := SMap.length_put (lineBrought pa t).home.dirty (pa / 64) (memBytes (lineBrought pa t) (64 * (pa / 64)) 64)
    have h2 : (NSet.erase (lineBrought pa t).home.clean (pa / 64)).length + (lineBrought pa t).home.dirty.length ≤ linesHeld t := by
      unfold lineBrought
      dsimp only
      split
      · have := SMap.length_del t.home.clean (pa / 64)
        unfold linesHeld NSet.erase
        omega
      · next hp =>
        have hn : SMap.get? t.home.clean (pa / 64) = none := by
          simp only [linePresent, NSet.has, Bool.or_eq_true, not_or, Bool.not_eq_true, Option.isSome_eq_false_iff,
            Option.isNone_iff_eq_none] at hp
          exact hp.2
        have := SMap.length_del_put () hn
        unfold linesHeld NSet.erase NSet.add
        dsimp only
        omega
    unfold linesHeld at *
    dsimp only
    omega

theorem touched_dev (pa : Nat) (t : State) : (lineTouched pa t).dev = t.dev := by
  unfold lineTouched
  dsimp only
  split <;> exact brought_dev _ _

theorem touched_room {pa qa : Nat} {t : State} (h : HasRoom t qa) : OneRoom (lineTouched pa t) qa := by
  refine h.imp touched_keeps fun k => ⟨by rw [touched_dev]; exact k.1, ?_⟩
  have := touched_held pa t
  have := k.2
  unfold linesHeld at *
  omega

/-! What filling lines leaves alone -/

theorem brought_form (pa : Nat) (t : State) : ∃ h : Home, lineBrought pa t = { t with home := h } := by
  unfold lineBrought; dsimp only; split <;> exact ⟨_, rfl⟩

theorem touched_form (pa : Nat) (t : State) : ∃ h : Home, lineTouched pa t = { t with home := h } := by
  obtain ⟨h, e⟩ := brought_form pa t
  unfold lineTouched; dsimp only; rw [e]; split <;> exact ⟨_, rfl⟩


theorem brought_mem (pa : Nat) (t : State) : (lineBrought pa t).mem = t.mem := by
  unfold lineBrought; dsimp only; split <;> rfl

theorem touched_mem (pa : Nat) (t : State) : (lineTouched pa t).mem = t.mem := by
  unfold lineTouched; dsimp only; split <;> exact brought_mem _ _

theorem brought_past (pa : Nat) (t : State) : (lineBrought pa t).home.past = t.home.past := by
  unfold lineBrought; dsimp only; split <;> rfl

theorem touched_past (pa : Nat) (t : State) : (lineTouched pa t).home.past = t.home.past := by
  unfold lineTouched; dsimp only; split <;> exact brought_past _ _

theorem Clean.congr {t u : State} {who : Who} {base n : Nat} {wr : Bool} (h : u.home.past = t.home.past) (c : Clean t who base n wr) :
    Clean u who base n wr := by
  intro i hi
  have := c i hi
  unfold mixed at this ⊢
  rw [h]
  exact this

theorem natBytes_length (x k : Nat) : (natBytes x k).length = k := by
  induction k generalizing x with
  | zero => rfl
  | succ k ih => simp [natBytes, ih]

/-! Accesses on record -/

theorem recordPast_gives (w : Who) (base n : Nat) (wr : Bool) (pa : Nat) (t : State) :
    Gives (z := z) (recordPast w base n wr pa) t ()
      { t with home := { t.home with past := if w.sys then t.home.past else pastWith w base n wr t.home.past pa } } := by
  unfold recordPast
  cases w.sys
  · simp only [Bool.false_eq_true, if_false]
    exact Gives.modHome _ _
  · exact Gives.pure _ _

theorem pastWith_ne {w : Who} {base n : Nat} {wr : Bool} {m : SMap (List Past)} {pa qa : Nat} (h : pa ≠ qa) :
    SMap.look [] (pastWith w base n wr m pa) qa = SMap.look [] m qa := by
  unfold pastWith SMap.look
  rw [SMap.get?_put_ne _ _ h]

/-- The accesses of the bytes from number `k` on are on record. -/
def pastFrom (w : Who) (base n : Nat) (wr : Bool) (k l : Nat) (m : SMap (List Past)) : SMap (List Past) :=
  if w.sys then m else (List.range' k l).foldl (fun m i => pastWith w base n wr m (base + i)) m

theorem pastFrom_zero (w : Who) (base n : Nat) (wr : Bool) (m : SMap (List Past)) :
    pastFrom w base n wr 0 n m = pastOf w base n wr m := by
  unfold pastFrom pastOf
  rw [List.range_eq_range']

theorem pastFrom_succ (w : Who) (base n : Nat) (wr : Bool) (k l : Nat) (m : SMap (List Past)) :
    pastFrom w base n wr (k + 1) l (if w.sys then m else pastWith w base n wr m (base + k)) = pastFrom w base n wr k (l + 1) m := by
  unfold pastFrom
  cases w.sys
  · simp [List.range'_succ]
  · simp

theorem mixed_later {t : State} {w : Who} {base n k i : Nat} {wr : Bool} (h : k ≠ i) {m : SMap (List Past)} {t' : State}
    (hm : t'.home.past = (if w.sys then m else pastWith w base n wr m (base + k))) (ht : t.home.past = m) :
    mixed t' w base n wr (base + i) = mixed t w base n wr (base + i) := by
  unfold mixed
  rw [hm, ht]
  cases w.sys
  · simp only [Bool.false_eq_true, if_false]
    rw [pastWith_ne (by omega)]
  · rfl

theorem readEach_gives {w : Who} {base n : Nat} (bs : List Byte) : ∀ (k : Nat) (t : State),
    (∀ i, k ≤ i → i < k + bs.length → mixed t w base n false (base + i) = false) →
    Gives (z := z) (mapEach (bs.zipIdx k) fun (b, i) => do
      let s ← getS
      recordPast w base n false (base + i)
      if mixed s w base n false (base + i) then freeByte else pure b) t bs
      { t with home := { t.home with past := pastFrom w base n false k bs.length t.home.past } } := by
  induction bs with
  | nil => intro k t _; refine Gives.as (Gives.pure _ _) ?_; unfold pastFrom; cases w.sys <;> rfl
  | cons b bs ih =>
    intro k t c
    have h0 := c k (Nat.le_refl _) (by simp)
    rw [List.zipIdx_cons]
    refine Gives.bind (a := b) (u := { t with home := { t.home with past :=
        (if w.sys then t.home.past else pastWith w base n false t.home.past (base + k)) } })
      ((Gives.get t).bind ((recordPast_gives w base n false (base + k) t).bind ?_))
      (Gives.bind (ih (k + 1) _ ?_) (Gives.as (Gives.pure _ _) ?_))
    · simp only [h0, Bool.false_eq_true, if_false]
      exact Gives.pure _ _
    · intro i h1 h2
      rw [mixed_later (t := t) (k := k) (m := t.home.past) (by omega) rfl rfl]
      exact c i (by omega) (by simp only [List.length_cons]; omega)
    · simp only [pastFrom_succ, List.length_cons]

theorem noteRead_gives {w : Who} {base : Nat} {bs : List Byte} {t : State} (c : Clean t w base bs.length false) :
    Gives (z := z) (noteRead w base bs) t bs (seenAt w base bs.length t) := by
  unfold noteRead seenAt
  refine (readEach_gives bs 0 t fun i _ h => c i (by omega)).as ?_
  rw [pastFrom_zero]

theorem memBytes_length (t : State) (pa n : Nat) : (memBytes t pa n).length = n := by
  induction n generalizing pa with
  | zero => rfl
  | succ n ih => simp [memBytes, ih]

theorem memBytes_congr {t u : State} (h : u.mem = t.mem) (pa n : Nat) : memBytes u pa n = memBytes t pa n := by
  induction n generalizing pa with
  | zero => rfl
  | succ n ih => simp [memBytes, ih, h]

theorem hsRead_gives {w : Who} {pa n : Nat} {t : State} (r : Room t pa n) (c : Clean t w pa n false) :
    Gives (z := z) (hsRead w pa n) t (memBytes t pa n) (readAt w pa n t) := by
  unfold hsRead readAt
  refine (bringLine_gives r.1.one).bind ((bringLine_gives (brought_room r.2)).bind ((Gives.get _).bind ?_))
  have e : (lineBrought (pa + n - 1) (lineBrought pa t)).mem = t.mem := (brought_mem _ _).trans (brought_mem _ _)
  rw [memBytes_congr e]
  have l := memBytes_length t pa n
  have k := noteRead_gives (z := z) (bs := memBytes t pa n) (t := lineBrought (pa + n - 1) (lineBrought pa t)) (w := w) (base := pa)
    (by rw [l]; exact c.congr ((brought_past _ _).trans (brought_past _ _)))
  rw [l] at k
  exact k

/-- The writes of the bytes from number `k` on are marked and on record. -/
def marksFrom (base st k l : Nat) (m : SMap Nat) : SMap Nat := (List.range' k l).foldl (fun m i => SMap.put m (base + i) st) m

theorem writeEach_gives {w : Who} {base n st : Nat} (bs : List Byte) : ∀ (k : Nat) (t : State),
    (∀ i, k ≤ i → i < k + bs.length → mixed t w base n true (base + i) = false) →
    Gives (z := z) (mapEach (bs.zipIdx k) fun (b, i) => do
      let s ← getS
      recordPast w base n true (base + i)
      modHome fun h => { h with marks := SMap.put h.marks (base + i) st }
      if mixed s w base n true (base + i) then freeByte else pure b) t bs
      { t with home := { t.home with past := pastFrom w base n true k bs.length t.home.past
                                     marks := marksFrom base st k bs.length t.home.marks } } := by
  induction bs with
  | nil => intro k t _; refine Gives.as (Gives.pure _ _) ?_; unfold pastFrom; cases w.sys <;> rfl
  | cons b bs ih =>
    intro k t c
    have h0 := c k (Nat.le_refl _) (by simp)
    rw [List.zipIdx_cons]
    refine Gives.bind (a := b) (u := { t with home := { t.home with
        past := (if w.sys then t.home.past else pastWith w base n true t.home.past (base + k)),
        marks := SMap.put t.home.marks (base + k) st } })
      ((Gives.get t).bind ((recordPast_gives w base n true (base + k) t).bind ((Gives.modHome _ _).bind ?_)))
      (Gives.bind (ih (k + 1) _ ?_) (Gives.as (Gives.pure _ _) ?_))
    · simp only [h0, Bool.false_eq_true, if_false]
      exact Gives.pure _ _
    · intro i h1 h2
      rw [mixed_later (t := t) (k := k) (m := t.home.past) (by omega) rfl rfl]
      exact c i (by omega) (by simp only [List.length_cons]; omega)
    · simp only [pastFrom_succ, List.length_cons, marksFrom, List.range'_succ, List.foldl_cons]

theorem noteWrite_gives {w : Who} {base : Nat} {bs : List Byte} {t : State} (c : Clean t w base bs.length true) :
    Gives (z := z) (noteWrite w base bs) t bs (markedAt w base bs.length t) := by
  unfold noteWrite markedAt
  refine Gives.bind (a := t.home.now + 1) (u := { t with home := { t.home with now := t.home.now + 1 } })
    ((Gives.get t).bind ((Gives.modHome _ _).bind (Gives.pure _ _))) (Gives.bind (writeEach_gives bs 0 _ fun i _ h => ?_) ?_)
  · exact c.congr rfl i (by omega)
  · cases hr : w.rels.isEmpty
    · simp only [Bool.not_false, if_true]
      refine (Gives.modHome _ _).bind ((Gives.pure _ _).as ?_)
      simp only [pastFrom_zero, marksFrom, List.range_eq_range', Bool.false_eq_true, if_false]
    · simp only [Bool.not_true, Bool.false_eq_true, if_false]
      refine (Gives.pure _ _).as ?_
      simp only [pastFrom_zero, marksFrom, List.range_eq_range', if_true]

theorem writeBytes_gives (bs : List Byte) : ∀ (pa : Nat) (t : State),
    Gives (z := z) (writeBytes pa bs) t () { t with mem := Memory.writeBytes t.mem pa bs } := by
  induction bs with
  | nil => intro pa t; exact Gives.pure _ _
  | cons b bs ih => intro pa t; exact (Gives.write _ _ _).bind (ih _ _)

theorem hsWrite_gives {w : Who} {pa : Nat} {bs : List Byte} {t : State} (r : Room t pa bs.length) (c : Clean t w pa bs.length true) :
    Gives (z := z) (hsWrite w pa bs) t () (written w pa bs t) := by
  unfold hsWrite written
  refine (touchLine_gives r.1.one).bind ((touchLine_gives (touched_room r.2)).bind (Gives.bind (noteWrite_gives ?_)
    ((writeBytes_gives _ _ _).bind (Gives.modHome _ _))))
  exact c.congr ((touched_past _ _).trans (touched_past _ _))

/-- The handshakes that system parties take part in order their accesses. -/
theorem sys_clean (t : State) (base n : Nat) (wr : Bool) : Clean t sysParty base n wr := fun _ _ => rfl

theorem sysWrite_gives {pa : Nat} {bs : List Byte} {t : State} (b : commitBlocks t.dev pa = false) (r : Room t pa bs.length) :
    Gives (z := z) (sysWrite pa bs) t () (written sysParty pa bs t) :=
  (Gives.get t).bind ((Gives.guard (by rw [b]; rfl) t).bind (hsWrite_gives r (sys_clean _ _ _ _)))

/-! Scratchpads -/

theorem spWrite_gives (e off : Nat) (bs : List Byte) (h : Nat) (t : State) :
    Gives (z := z) (spWrite e off bs h) t () (spPut e off bs h t) := Gives.modTeam _ _ _

theorem spWriteNat_gives (e off n x : Nat) (t : State) : Gives (z := z) (spWriteNat e off n x) t () (spPut e off (natBytes x n) 0 t) :=
  Gives.modTeam _ _ _

theorem spStore_gives {w : Who} {e off : Nat} {bs : List Byte} {t : State} (c : Clean t w (spKey e off) bs.length true) :
    Gives (z := z) (spStore w e off bs) t () (spWritten w e off bs t) :=
  (noteWrite_gives c).bind (spWrite_gives _ _ _ _ _)

theorem spRead_gives {w : Who} {e off n : Nat} {t : State} {tm : Team} (h : t.team? e = some tm) (c : Clean t w (spKey e off) n false) :
    Gives (z := z) (spRead w e off n) t (spBytes tm off n) (seenAt w (spKey e off) n t) := by
  have l : (spBytes tm off n).length = n := by simp [spBytes]
  unfold spRead
  refine (Gives.getTeam h).bind ?_
  have k := noteRead_gives (z := z) (t := t) (w := w) (base := spKey e off) (bs := spBytes tm off n) (by rw [l]; exact c)
  rw [l] at k
  exact k

/-! Read caches -/

theorem crcUpdate_gives (cl pa n : Nat) (t : State) : Gives (z := z) (crcUpdate cl pa n) t () (cacheUpdated cl pa n t) := by
  unfold crcUpdate cacheUpdated
  refine (Gives.get t).bind ?_
  cases SMap.get? (t.cluster cl).crc (pa / 64)
  · exact Gives.pure _ _
  · exact Gives.modCluster _ _ _

theorem crcDrop_gives (cl pa : Nat) (t : State) : Gives (z := z) (crcDrop cl pa) t () (lineDropped cl pa t) := Gives.modCluster _ _ _

theorem brought_clusters (pa : Nat) (t : State) : (lineBrought pa t).clusters = t.clusters := by
  unfold lineBrought; dsimp only; split <;> rfl

theorem crcFill_gives {cl pa : Nat} {t : State} (h : OneRoom t pa) (c : CacheRoom t cl pa) :
    Gives (z := z) (crcFill cl pa) t () (lineFilled cl pa t) := by
  unfold crcFill lineFilled
  refine (bringLine_gives h).bind (Gives.bind (a := ()) (u := lineBrought pa t) ((Gives.get _).bind ?_) ((Gives.get _).bind (Gives.modCluster _ _ _)))
  have e : (lineBrought pa t).cluster cl = t.cluster cl := by unfold State.cluster; rw [brought_clusters]
  have k : ((SMap.get? ((lineBrought pa t).cluster cl).crc (pa / 64)).isSome ||
      decide (((lineBrought pa t).cluster cl).crc.length < 4096)) = true := by
    rw [e]; simpa [CacheRoom] using c
  simp only [k, if_true]
  exact Gives.pure _ _

theorem catchUp_gives (g pa n : Nat) (t : State) : Gives (z := z) (catchUp g pa n) t () (floorRaised g pa n t) :=
  (Gives.get t).bind (Gives.modGroup _ _ _)

end Sys2Proof.Machine
end

