-- ==== Sys2Proof/Laws/Spad.lean ====
section
/-! SUPPORT. What the words of the scratchpad do: a word whose lanes lie in range is queued. -/

namespace Sys2Proof.Machine

variable {z : State}

theorem acquire_gives (g scope : Nat) (t : State) : Gives (z := z) (acquire g scope) t () (acquired g scope t) := by
  unfold acquire acquired
  by_cases h : scope ≥ 2
  · simp only [h, if_true]
    exact (Gives.get t).bind ((Gives.modGroup _ _ _).bind (Gives.mod _ _ _))
  · simp only [h, if_false]
    exact (Gives.get t).bind ((Gives.modGroup _ _ _).bind (Gives.pure _ _))

theorem acquireIf_gives (b : Bool) (g scope : Nat) (t : State) :
    Gives (z := z) (if b then acquire g scope else pure ()) t () (if b then acquired g scope t else t) := by
  cases b
  · exact Gives.pure _ _
  · exact acquire_gives _ _ _

theorem orderAfter_gives (g : Nat) (c : Clock) (t : State) :
    Gives (z := z) (orderAfter g c) t ()
      { t with groups := SMap.adjust t.groups g fun gr => gr.follow gr.nextId c } := Gives.modGroup _ _ _

theorem forEach_gives {α : Type} {f : α → M z Unit} {F : State → α → State} (h : ∀ t x, Gives (f x) t () (F t x)) (xs :
    List α) (t : State) :
    Gives (forEach xs f) t () (xs.foldl F t) := by
  induction xs generalizing t with
  | nil => exact Gives.pure _ _
  | cons x xs ih => exact (h t x).bind (ih _)

theorem guard_gives {b : Bool} {t : State} (h : b = true) : Gives (z := z) (guardS b) t () t := by
  unfold guardS
  rw [if_pos h]
  exact Gives.pure _ _

theorem lanes_ne {m : W32} (h : m ≠ 0) : lanesOf m ≠ [] := by
  intro e
  apply h
  ext i hi
  have k := List.filter_eq_nil_iff.1 e i (List.mem_range.2 hi)
  simpa [BitVec.getElem_eq_testBit_toNat, BitVec.getLsbD] using k

/-- The state a unit has once its number is taken, and what the performing of its lanes needs. -/
theorem startSpad_gives {s : State} {w : View} {i : Info} {acc : Access} {lanes : List LaneAcc} {pre : List Detail} {l : Launch}
    {push : Group → Group} (hw : view s = some w) (h : pre = []) (hl : s.launch? w.t.launch = some l) (hn : lanes ≠ [])
    (hc : lanes.any (·.chk) = false)
    (hp : ∀ gr tm, Performs w (w.paid i) gr tm l lanes →
      Gives (z := s) (performLanes w.g w.gr.nextId acc lanes) (w.numbered (w.paid i)) [] (w.onGroup push (w.paid i))) :
    Gives (z := s) (startSpad w acc lanes pre) (w.paid i) .seq (w.onGroup push (w.paid i)) := by
  subst h
  obtain ⟨gr, hg, hid, -⟩ := paid_group (i := i) hw
  obtain ⟨tm, ht, hla, -⟩ := paid_team (i := i) hw
  have hs := (view_cases hw).1
  have hl' : (w.paid i).launch? tm.launch = some l := by rw [hla]; rw [← hs] at hl; exact hl
  have k := hp gr tm ⟨hg, hid, ht, hl', hn, hc⟩
  rw [← hid] at k
  unfold startSpad
  refine (takeUnit_gives (n := 1) hg).bind (Gives.bind k (f := fun rem => if rem.isEmpty then pure Flow.seq else do
      modGroup w.g fun x => { x with parked := some { unit := gr.nextId, acc := { acc with lanes := rem }, waits := [] } }
      pure .parked) (Gives.pure _ _))

theorem spQueues {i : Instr} {info : View → Info} {acc : View → Access} {addrs : View → List (Nat × Nat × Int)}
    {lane : View → Nat × Nat × Int → LaneAcc} {push : View → Access → List LaneAcc → Group → Group} {s : State}
    (he : exec i s = runUnit s info fun w =>
      startSpad w (acc w) ((addrs w).map (lane w)) (spadCauses w (acc w).space (acc w).size (addrs w)))
    (hn : ∀ w, Acts w (info w) → addrs w ≠ []) (hc : ∀ w a, (lane w a).chk = false)
    (hp : ∀ w u gr tm l ok, (∀ op, (acc w).kind = .atom op → l.journal ≠ 2) → Performs w u gr tm l ok →
      Gives (z := s) (performLanes w.g w.gr.nextId (acc w) ok) (w.numbered u) [] (w.onGroup (push w (acc w) ok) u)) :
    SpQueues i info acc addrs lane push s := by
  intro w l hw r a e hl hj c
  rw [he]
  refine runUnit_seq (f := fun w t => w.onGroup (push w (acc w) ((addrs w).map (lane w))) t) hw r a e ?_
  refine startSpad_gives hw c hl (by simpa using hn w a) ?_ fun gr tm p => hp w _ gr tm l _ hj p
  simp only [List.any_map, List.any_eq_false, Function.comp_apply, hc]
  simp

theorem spadAddrs_ne {w : View} {space : Nat} {sb : BitVec 6} {vo : BitVec 8} (h : w.lanes ≠ []) : spadAddrs w space sb vo ≠ [] := by
  simpa [spadAddrs, localAddrs] using h

theorem spLoads {i : BitVec 7 → BitVec 6 → BitVec 8 → BitVec 2 → Instr} {space size : Nat}
    (he : ∀ s vd sb vo ord, exec (i vd sb vo ord) s = runSpLoad s (operandsOk (i vd sb vo ord)) space size vd sb vo ord) :
    SpLoads i space size := fun s vd sb vo ord =>
  spQueues (push := withLoad) (he s vd sb vo ord) (fun _ a => spadAddrs_ne (lanes_ne (a rfl))) (fun _ _ => rfl)
    fun _ _ _ _ _ _ _ p => performLoad_gives rfl p

theorem spStores {i : BitVec 7 → BitVec 6 → BitVec 8 → BitVec 2 → Instr} {space size : Nat}
    (he : ∀ s vd sb vo ord, exec (i vd sb vo ord) s = runSpStore s (operandsOk (i vd sb vo ord)) space size vd sb vo ord) :
    SpStores i space size := fun s vd sb vo ord =>
  spQueues (push := withStore) (he s vd sb vo ord) (fun _ a => spadAddrs_ne (lanes_ne (a rfl))) (fun _ _ => rfl)
    fun _ _ _ _ _ _ _ p => performStore_gives rfl p

theorem spAtomics {i : BitVec 7 → BitVec 6 → BitVec 8 → BitVec 2 → Instr} {space : Nat} {op : AtomOp}
    (he : ∀ s vd sb vo ord, exec (i vd sb vo ord) s = runSpAtom s (operandsOk (i vd sb vo ord)) space op vd sb vo ord) :
    SpAtomics i space op := fun s vd sb vo ord =>
  spQueues (push := withAtom) (he s vd sb vo ord) (fun _ a => spadAddrs_ne (lanes_ne (a rfl))) (fun _ _ => rfl)
    fun _ _ _ _ _ _ j p => performAtom_gives rfl (by simp) (j op rfl) p

end Sys2Proof.Machine
end

