-- ==== Sys2Proof/Laws/Words.lean ====
section
/-! SUPPORT. The statement forms of `Safety` for the shared meanings of register words. -/

namespace Sys2Proof.Machine

variable {z : State}

/-- A word whose meaning is `runRegs` writes what its function says. -/
theorem writes_of_runRegs {i : Instr} {info f s} (h : exec i s = runRegs s info f) : Writes i info f s :=
  fun _ hw r a e _ => h.trans (runRegs_ready hw r a e)

/-- A word whose meaning is `runFloat` writes its results where none raises a cause. -/
theorem floatWrites_of_runFloat {i : Instr} {info vd wide f s} (h : exec i s = runFloat s info (destReg · vd) wide f) :
    FloatWrites i info vd wide f s := by
  intro w hw r a e c
  rw [h]
  refine runUnit_seq (f := fun w => w.onGroup (putResults w vd wide f)) hw r a e ?_
  have c' : floatCauses w (w.lanes.map fun l => (l, f w l)) = [] := c
  simp only [c', List.isEmpty_nil, Bool.not_true, Bool.false_eq_true, if_false]
  exact (Gives.modGroup _ _ _).bind (Gives.pure _ _)

theorem check_gives {w : View} {n : Int} (h : 0 ≤ n) (k : n < 16384) (t : State) : Gives (z := z) (checkTarget w n) t
    () t := by
  unfold checkTarget
  rw [if_pos (by simp [h, k])]
  exact Gives.pure _ _

theorem jumpInt_gives {w : View} {n : Int} (h : 0 ≤ n) (k : n < 16384) (e : NoStep w) (t : State) :
    Gives (z := z) (follow w (.jump n)) t () (w.at w.gr.slot (BitVec.ofNat 14 n.toNat) t) := by
  obtain ⟨m, rfl⟩ := Int.eq_ofNat_of_zero_le h
  exact jump_gives (by omega) e t

theorem branches_of_runBranch {i : Instr} {info cond target} (h : ∀ s, exec i s = runBranch s info cond target) :
    Branches i info cond target := by
  intro s w hw r a
  rw [h]
  refine ⟨fun c e p q => ?_, fun c e => ?_⟩
  · refine runUnit_gives hw r a (f := .jump (target w)) ?_ (jumpInt_gives p q e _)
    rw [c]
    exact (check_gives p q _).bind (Gives.pure _ _)
  · refine runUnit_gives hw r a (f := .seq) ?_ (seq_gives e _)
    rw [c]
    exact Gives.pure _ _

theorem regions_of_runRegion {i : Instr} {k bad f jumps off} (h : ∀ s, exec i s = runRegion s k bad f jumps off) :
    Regions i k bad f jumps off := by
  intro s w info set hw r a
  rw [h]
  refine ⟨fun c e p q => ?_, fun c e => ?_⟩
  · refine runUnit_gives hw r a (f := .jump (relTarget w off.toInt)) ?_ (jumpInt_gives p q e _)
    simp only [c, if_true]
    exact (check_gives p q _).bind (Gives.modThen w.g set _ _)
  · refine runUnit_gives hw r a (f := .seq) ?_ (seq_gives e _)
    simp only [c, if_false, Bool.false_eq_true]
    exact Gives.modThen w.g set _ _

end Sys2Proof.Machine
end

