-- ==== Sys2Proof/Laws/Gives.lean ====
section
/-! SUPPORT. What the primitive operations, checks and charges of a unit leave. -/

namespace Sys2Proof.Machine

variable {z : State}

theorem Gives.thenPure {β : Type} {m : M z Unit} {t u : State} (h : Gives m t () u) (b : β) :
    Gives (do m; Pure.pure b) t b u := h.bind (Gives.pure _ _)

/-- A loop whose every turn leaves the state as it is. -/
theorem forEach_stay {α : Type} {f : α → M z Unit} {xs : List α} {t : State} (h : ∀ x ∈ xs, Gives (f x) t () t) :
    Gives (forEach xs f) t () t := by
  induction xs with
  | nil => exact Gives.pure _ _
  | cons x xs ih => exact (h x List.mem_cons_self).bind (ih fun y hy => h y (List.mem_cons_of_mem _ hy))

theorem distinct_nil {l : List Nat} (h : distinct l = []) : l = [] := by
  cases l with
  | nil => rfl
  | cons a l => simp [distinct] at h

theorem merge_nil {ds : List Detail} (h : mergeDetails ds = []) : ds = [] := by
  unfold mergeDetails at h
  have := distinct_nil (List.map_eq_nil_iff.1 h)
  exact List.map_eq_nil_iff.1 this

/-- A ready unit that acts raises no cause of its own. -/
theorem Ready.raises {w : View} {i : Info} (r : Ready w i) (a : Acts w i) : i.raises = [] := by
  have h := merge_nil r.sound
  have hs : (i.mask == .skips && w.exm == 0) = false := by
    cases hm : i.mask == .skips
    · rfl
    · have := a (by simpa using hm)
      simpa using this
  simp only [hs, Bool.false_eq_true, if_false, List.append_eq_nil_iff] at h
  exact h.1.2.2

theorem completes {i : Instr} {s : State} {info cond f} {eff : View → M s Flow} (h : exec i s = runUnit s info eff)
    (k : ∀ w, view s = some w → Ready w (info w) → Acts w (info w) → cond w →
      Gives (z := s) (eff w) (w.paid (info w)) .seq (f w (w.paid (info w)))) : CompletesIf i info cond f s :=
  fun w hw r a e c => h.trans (runUnit_seq (f := f) hw r a e (k w hw r a c))

theorem issues {i : Instr} {s : State} {info cond f} {eff : View → M s Flow} {fl : Flow} (h : exec i s = runUnit s info eff)
    (hf : fl = .parked ∨ fl = .ended)
    (k : ∀ w, view s = some w → Ready w (info w) → Acts w (info w) → cond w →
      Gives (z := s) (eff w) (w.paid (info w)) fl (f w (w.paid (info w)))) : IssuesIf i info cond f s := by
  intro w hw r a c
  refine h.trans (runUnit_gives hw r a (k w hw r a c) ?_)
  rcases hf with rfl | rfl <;> exact Gives.pure _ _

theorem Gives.held {w : View} (h : Hold) (t : State) :
    Gives (z := z) (do Machine.modGroup w.g fun gr => { gr with hold := some h }; Pure.pure Flow.parked) t .parked (w.held h t) :=
  Gives.modThen _ _ _ _

theorem Gives.raise_none {t : State} : Gives (z := z) (Pure.pure () : M z Unit) t () t := Gives.pure _ _

/-! fence -/

theorem paid_journal {s : State} {w : View} {i : Info} (hw : view s = some w) (hj : NoJournal w) :
    ∃ l t, (w.paid i).launch? w.t.launch = some l ∧ l.journal = 0 ∧ (w.paid i).team? w.eid = some t ∧ t.launch = w.t.launch := by
  obtain ⟨l, hl, j⟩ := hj
  obtain ⟨t, ht, k, -⟩ := paid_team (i := i) hw
  exact ⟨l, t, hl, j, ht, k⟩

theorem journalGroup_off {g point typ obj : Nat} {st : Bool} {t : State} {tm : Team} {l : Launch} (ht : t.team? (groupTeam g) = some tm)
    (hl : t.launch? tm.launch = some l) (hj : l.journal = 0) :
    Gives (z := z) (journalGroup g point typ obj st) t none t := by
  refine (Gives.getTeam ht).bind ((Gives.getLaunch hl).bind ?_)
  simp only [hj, if_true]
  exact Gives.pure _ _

theorem checkObj_gives {w : View} {off : Nat} {t : State} (h : ObjectAt w off) : Gives (z := z) (checkObj w off) t () t := by
  unfold checkObj
  simp only [h.1, h.2, if_true, List.append_nil, List.isEmpty_nil]
  exact Gives.pure _ _

/-- The home slices, with their accesses on record, are as before a unit. -/
theorem paid_home (w : View) (i : Info) : (w.paid i).home = w.s.home := rfl

theorem objectPut_gives {s : State} {w : View} {i : Info} (hw : view s = some w) {off : Nat} (f : BarObj → BarObj)
    (c : Clean w.s (groupWho w.g w.gr w.gr.nextId) (spKey w.eid off) 8 true) :
    Gives (z := s) (updateObj (groupWho w.g w.gr w.gr.nextId) w.eid off f) (w.paid i) () (objectPut w off f (w.paid i)) := by
  obtain ⟨al, ch, st, ht⟩ := paid_team_eq (i := i) hw
  refine (Gives.getTeam ht).bind ?_
  unfold objectPut
  have e : spNat { w.t with al := al, charged := ch, stop := st } off 8 = spNat w.t off 8 := rfl
  rw [e]
  dsimp only
  refine (spStore_gives (by rw [natBytes_length]; exact c.congr rfl)).bind ((Gives.modTeam _ _ _).bind ?_)
  split
  · exact Gives.modTeam _ _ _
  · exact Gives.pure _ _

theorem teamRec_gives {t : State} {tm : Team} {l : Launch} (h : t.launch? tm.launch = some l) :
    Gives (z := z) (teamRec tm) t l.rcd t := (Gives.getLaunch h).bind (Gives.pure _ _)

end Sys2Proof.Machine
end

