-- ==== Sys2Proof/Laws/Bytes.lean ====
section
/-! SUPPORT. What the lanes of an access leave at the home slices. -/

namespace Sys2Proof.Machine

variable {z : State}

theorem groupWrite_gives {g : Nat} {w : Who} {pa : Nat} {bs : List Byte} {t : State} (r : Room t pa bs.length)
    (c : Clean t w pa bs.length true) : Gives (z := z) (groupWrite g w pa bs) t () (groupWritten g w pa bs t) :=
  (hsWrite_gives r c).bind ((catchUp_gives _ _ _ _).bind ((Gives.get _).bind (crcUpdate_gives _ _ _ _)))

theorem storeLane_gives {g u : Nat} {acc : Access} {a : LaneAcc} {t : State} {gr : Group} (hg : t.group? g = some gr)
    (sp : acc.space = 0) (hr : paRange a.pa ≠ .control) (r : Room t a.pa acc.psize)
    (c : Clean t (groupWho g gr u) a.pa acc.psize true) :
    Gives (z := z) (storeLane g u acc a) t () (stored g u acc gr a t) := by
  unfold storeLane
  refine (Gives.getGroup hg).bind ((Gives.get t).bind ?_)
  dsimp only
  rw [if_neg (by simp [sp])]
  have l := natBytes_length a.data acc.psize
  have k : Gives (z := z) (groupWrite g (laneWho g u acc a gr t) a.pa (natBytes a.data acc.psize)) t ()
      (stored g u acc gr a t) := groupWrite_gives (by rw [l]; exact r) (by rw [l]; exact c)
  split
  · next h => exact absurd h hr
  · exact k

theorem cacheUpdated_home (cl pa n : Nat) (t : State) : (cacheUpdated cl pa n t).home = t.home := by
  unfold cacheUpdated
  split <;> rfl

theorem cacheUpdated_groups (cl pa n : Nat) (t : State) : (cacheUpdated cl pa n t).groups = t.groups := by
  unfold cacheUpdated
  split <;> rfl

theorem written_still (who : Who) (pa : Nat) (bs : List Byte) (t : State) :
    ∃ (m : Memory) (h : Home), written who pa bs t = { t with mem := m, home := h } := by
  obtain ⟨h, e⟩ := touched_form pa t
  obtain ⟨k, f⟩ := touched_form (pa + bs.length - 1) (lineTouched pa t)
  unfold written markedAt
  rw [f, e]
  exact ⟨_, _, rfl⟩

/-- What a group's write leaves of the state: memory, the home slices, the group's floor, its read cache. -/
theorem groupWritten_form (g : Nat) (who : Who) (pa : Nat) (bs : List Byte) (t : State) :
    ∃ (m : Memory) (h : Home) (c : SMap Cluster) (l : List Nat),
      groupWritten g who pa bs t =
        { t with mem := m, home := h, clusters := c, groups := SMap.adjust t.groups g fun gr => gr.raiseFloor pa l } := by
  obtain ⟨m, h, e⟩ := written_still who pa bs t
  unfold groupWritten floorRaised cacheUpdated
  rw [e]
  dsimp only
  split <;> exact ⟨_, _, _, _, rfl⟩

theorem groupWritten_group {g : Nat} {who : Who} {pa : Nat} {bs : List Byte} {t : State} {gr : Group} (hg : t.group? g = some gr) :
    ∃ l, (groupWritten g who pa bs t).group? g = some (gr.raiseFloor pa l) := by
  obtain ⟨m, h, c, l, e⟩ := groupWritten_form g who pa bs t
  refine ⟨l, ?_⟩
  rw [e]
  unfold State.group? at hg ⊢
  dsimp only
  rw [SMap.get?_adjust_self, hg]
  rfl

theorem stored_group {g u : Nat} {acc : Access} {a : LaneAcc} {t : State} {gr gr' : Group} (hg : t.group? g = some gr') :
    ∃ l, (stored g u acc gr a t).group? g = some (gr'.raiseFloor a.pa l) := groupWritten_group hg

/-- Lanes stored one after the other. -/
theorem storeLanes_gives {g u : Nat} {acc : Access} {d : Group} (sp : acc.space = 0) (ls : List LaneAcc) : ∀ {t : State} {gr : Group},
    t.group? g = some gr →
    Follows g u acc.psize d true ls (fun a t => stored g u acc ((t.group? g).getD d) a t) t →
    Gives (z := z) (forEach ls fun a => storeLane g u acc a) t ()
      (ls.foldl (fun t a => stored g u acc ((t.group? g).getD d) a t) t) := by
  induction ls with
  | nil => intro t gr _ _; exact Gives.pure _ _
  | cons a ls ih =>
    intro t gr hg h
    obtain ⟨h1, h2, h3, h4⟩ := h
    have e : (t.group? g).getD d = gr := by rw [hg]; rfl
    rw [e] at h3
    obtain ⟨l, hg'⟩ := stored_group (u := u) (acc := acc) (a := a) (gr := gr) hg
    have k := ih hg' (by rw [← e]; exact h4)
    exact (storeLane_gives hg sp h2 h1 h3).bind (k.as (by rw [List.foldl_cons, e]))

/-! Writes of a group one after another -/

/-- The state after a list of writes of a party by a group. -/
def wroteAll (g : Nat) (who : Who) (ws : List (Nat × List Byte)) (t : State) : State :=
  ws.foldl (fun t x => groupWritten g who x.1 x.2 t) t

theorem brought_congr {t u : State} (h : u.home = t.home) (pa : Nat) : (lineBrought pa u).home = (lineBrought pa t).home := by
  unfold lineBrought
  dsimp only
  rw [h]
  split
  · exact h
  · rfl

theorem touched_congr {t u : State} (h : u.home = t.home) (m : u.mem = t.mem) (pa : Nat) :
    (lineTouched pa u).home = (lineTouched pa t).home := by
  have k := brought_congr h pa
  have e : (lineBrought pa u).mem = (lineBrought pa t).mem := by rw [brought_mem, brought_mem, m]
  unfold lineTouched
  dsimp only
  rw [k]
  split
  · exact k
  · dsimp only
    rw [memBytes_congr e]

theorem written_congr {t u : State} (h : u.home = t.home) (m : u.mem = t.mem) (who : Who) (pa : Nat) (bs : List Byte) :
    (written who pa bs u).home = (written who pa bs t).home ∧ (written who pa bs u).mem = (written who pa bs t).mem := by
  have k := touched_congr (touched_congr h m pa) (by rw [touched_mem, touched_mem, m]) (pa + bs.length - 1)
  have e : (lineTouched (pa + bs.length - 1) (lineTouched pa u)).mem = (lineTouched (pa + bs.length - 1) (lineTouched pa t)).mem := by
    simp only [touched_mem, m]
  unfold written markedAt
  dsimp only
  rw [k, e]
  exact ⟨rfl, rfl⟩

theorem groupWritten_home (g : Nat) (who : Who) (pa : Nat) (bs : List Byte) (t : State) :
    (groupWritten g who pa bs t).home = (written who pa bs t).home ∧ (groupWritten g who pa bs t).mem = (written who pa bs t).mem ∧
      (groupWritten g who pa bs t).dev = t.dev := by
  obtain ⟨m, h, e⟩ := written_still who pa bs t
  unfold groupWritten floorRaised cacheUpdated
  dsimp only
  rw [e]
  split <;> exact ⟨rfl, rfl, rfl⟩

theorem wroteAll_congr {g : Nat} {who : Who} (ws : List (Nat × List Byte)) : ∀ {t u : State}, u.home = t.home → u.mem = t.mem →
    u.dev = t.dev → (wroteAll g who ws u).home = (wroteAll g who ws t).home ∧ (wroteAll g who ws u).mem = (wroteAll g who ws t).mem ∧
      (wroteAll g who ws u).dev = (wroteAll g who ws t).dev := by
  induction ws with
  | nil => intro t u h m d; exact ⟨h, m, d⟩
  | cons x ws ih =>
    intro t u h m d
    obtain ⟨h1, m1, d1⟩ := groupWritten_home g who x.1 x.2 t
    obtain ⟨h2, m2, d2⟩ := groupWritten_home g who x.1 x.2 u
    obtain ⟨k1, k2⟩ := written_congr h m who x.1 x.2
    exact ih (by rw [h1, h2, k1]) (by rw [m1, m2, k2]) (by rw [d1, d2, d])

theorem Room.congr {t u : State} (h : u.home = t.home) (d : u.dev = t.dev) {pa n : Nat} (r : Room t pa n) : Room u pa n := by
  unfold Room HasRoom at *
  rw [h, d]
  exact r

theorem wroteAll_gives {g : Nat} {who : Who} (ws : List (Nat × List Byte)) : ∀ {t : State},
    (∀ k x, ws[k]? = some x → Room (wroteAll g who (ws.take k) t) x.1 x.2.length ∧
      Clean (wroteAll g who (ws.take k) t) who x.1 x.2.length true) →
    Gives (z := z) (forEach ws fun x => groupWrite g who x.1 x.2) t () (wroteAll g who ws t) := by
  induction ws with
  | nil => intro t _; exact Gives.pure _ _
  | cons x ws ih =>
    intro t h
    obtain ⟨r, c⟩ := h 0 x rfl
    exact (groupWrite_gives r c).bind (ih fun k y e => h (k + 1) y e)

end Sys2Proof.Machine
end

