-- ==== Sys2Proof/Laws/Firm.lean ====
section
/-! SUPPORT. Units that read before they are charged, and what such reads keep. -/

namespace Sys2Proof.Machine

variable {z : State}

theorem paidAt_gives {w : View} {i : Info} (t : State) :
    Gives (z := z) (do chargeUnit w i (w.cost i); afterUnit w) t () (w.paidAt i t) :=
  (charge_gives w i _ t).bind (after_gives (z := z) w _)

theorem issueUnit_gives {w : View} {i : Info} {eff : M z Flow} {t u v : State} {f : Flow} (a : Acts w i)
    (he : Gives eff (w.paidAt i t) f u) (hf : Gives (z := z) (follow w f) u () v) :
    Gives (z := z) (issueUnit w i (w.cost i) eff) t () v := by
  have h : (i.mask == .skips && w.exm == 0) = false := by
    cases hm : i.mask == .skips
    · rfl
    · have := a (by simpa using hm)
      simpa using this
  have k : Gives (z := z) (do let r ← attempt eff; afterEffect w r) (w.paidAt i t) () v := he.attempt.bind hf
  have l := (paidAt_gives (i := i) t).bind (f := fun _ => do let r ← attempt eff; afterEffect w r) k
  rw [bind_assoc] at l
  unfold issueUnit
  rw [h]
  exact l

theorem compare_ready {w : View} {j : Info} (r : Ready w j) : compareAl w j (unitCost w j) = .issues (w.cost j) := by
  have := r.verdict
  rw [verdict, r.gate] at this
  exact this

/-- The gate looks at neither the surcharge nor the amount moved. -/
theorem gate_cost (w : View) (i : Info) (a b : Nat) : gate w { i with surcharge := a, moved := b } = gate w i := by
  unfold gate Info.early
  dsimp only
  cases i.waits <;> rfl

theorem staged {α : Type} {i : Instr} {info : View → Info} {pre : {z : State} → View → M z (Pre α)} {cost moved : View → α → Nat}
    {cond : View → α → State → Prop} {f : View → α → State → State} {eff : {z : State} → View → α → M z Flow}
    (h : ∀ s, exec i s = runStaged s info pre cost eff moved)
    (k : ∀ s w a u j, view s = some w → cond w a u →
      Gives (z := s) (pre w) s (.ok a) u →
      Gives (z := s) (eff w a) (w.paidAt j (w.onGroup (fun gr => { gr with denied := none }) u)) .seq
        (f w a (w.paidAt j (w.onGroup (fun gr => { gr with denied := none }) u)))) :
    Staged i info pre cost cond f moved := by
  intro s w a u hw hp j r ac e c
  rw [h]
  have hg : gate w (info w) = none := (gate_cost w (info w) (cost w a) (moved w a)).symm.trans r.gate
  have hs : ((info w).mask == .skips && w.exm == 0) = false := by
    cases hm : (info w).mask == .skips
    · rfl
    · have := ac (by simpa using hm)
      simpa using this
  unfold runStaged
  rw [hw]
  simp only [hg, hs, Bool.false_eq_true, if_false]
  refine runGroup_gives (hp.bind ((Gives.modGroup _ _ _).bind ?_))
  have hc : compareAl w { info w with surcharge := cost w a, moved := moved w a } (unitCost w { info w with surcharge := cost w a, moved := moved w a }) = _ := compare_ready r
  dsimp only
  rw [hc]
  exact issueUnit_gives ac (k s w a u j hw c hp) (seq_gives e _)

theorem freshThen {β : Type} {f : Nat → M z β} {t u : State} {b : β} (h : Gives (f t.fresh) { t with fresh := t.fresh + 1 } b u) :
    Gives (do let id ← freshId; f id) t b u := by
  refine Gives.bind (a := t.fresh) (u := { t with fresh := t.fresh + 1 }) ?_ h
  exact (Gives.get t).bind ((Gives.mod _ _ _).bind (Gives.pure _ _))

theorem openOp_gives (w : View) (cls id : Nat) (t : State) : Gives (z := z) (openOp w.g cls id) t () (opened w cls id t) :=
  Gives.modGroup _ _ _

theorem enterCopy_gives (w : View) (mk : Nat → CopyOp) (t : State) :
    Gives (z := z) (enterCopy w mk) t t.fresh (copyEntered w mk t) :=
  freshThen ((Gives.modCluster _ _ _).bind ((Gives.modTeam _ _ _).bind ((openOp_gives _ _ _ _).bind (Gives.pure _ _))))

theorem enterMat_gives (w : View) (mk : Nat → MatOp) (t : State) : Gives (z := z) (enterMat w mk) t () (matEntered w mk t) :=
  freshThen ((Gives.modCluster _ _ _).bind ((Gives.modTeam _ _ _).bind (openOp_gives _ _ _ _)))

/-- Teams, launches and grids are as before. -/
structure Firm (t u : State) : Prop where
  teams : u.teams = t.teams
  launches : u.launches = t.launches
  grids : u.grids = t.grids

theorem firm_order : Order Firm where
  refl _ := ⟨rfl, rfl, rfl⟩
  trans h k := ⟨k.1.trans h.1, k.2.trans h.2, k.3.trans h.3⟩

theorem Still.firm {t u : State} (h : Still t u) : Firm t u := ⟨h.teams, h.launches, h.grids⟩

theorem Leaves.mono {R S : State → State → Prop} {α : Type} {m : M z α} (h : Leaves R m) (k : ∀ t u, R t u → S t u) : Leaves S m :=
  fun t a u e => k _ _ (h t a u e)

theorem getLaunch_firm (l : Nat) : Leaves Firm (getLaunch l : M z Launch) :=
  (Leaves.get firm_order).bind firm_order fun _ => Leaves.need firm_order _

theorem getGroup_firm (g : Nat) : Leaves Firm (getGroup g : M z Group) :=
  (Leaves.get firm_order).bind firm_order fun _ => Leaves.need firm_order _

theorem modTable_firm (i : Nat) (f : PrTable → PrTable) : Leaves Firm (modTable i f : M z Unit) :=
  Leaves.mod _ fun _ => ⟨rfl, rfl, rfl⟩

theorem raiseMsix_firm (f v : Nat) : Leaves Firm (raiseMsix f v : M z Unit) := by
  unfold raiseMsix modFn
  exact Leaves.mod _ fun _ => ⟨rfl, rfl, rfl⟩

theorem modDenied_firm (g : Nat) : Leaves Firm (modGroup g fun gr => { gr with denied := none } : M z Unit) :=
  Leaves.mod _ fun _ => ⟨rfl, rfl, rfl⟩

theorem attachMiss_firm (ctx vfn st page kind : Nat) (ws : List Wait) : Leaves Firm (attachMiss ctx vfn st page kind ws : M z Wait) := by
  refine (Leaves.get firm_order).bind firm_order fun s => ?_
  dsimp only
  split
  · exact (modTable_firm _ _).bind firm_order fun _ => Leaves.pure firm_order _
  · split
    · exact (modTable_firm _ _).bind firm_order fun _ => (raiseMsix_firm _ _).bind firm_order fun _ => Leaves.pure firm_order _
    · exact Leaves.pure firm_order _

theorem issueXlate_firm (w : View) (kind : Nat) (va : W64) : Leaves Firm (issueXlate w kind va : M z (Pre LaneAcc)) := by
  refine ((getLaunch_firm _).bind firm_order fun _ => Leaves.pure firm_order _).bind firm_order fun c => ?_
  refine (getGroup_firm _).bind firm_order fun gr => ?_
  split
  · exact (modDenied_firm _).bind firm_order fun _ => Leaves.pure firm_order _
  · refine ((xlate_still _ _ _ _ _ _).mono fun _ _ => Still.firm).bind firm_order fun r => ?_
    split
    · exact Leaves.pure firm_order _
    · exact Leaves.pure firm_order _
    · exact (attachMiss_firm _ _ _ _ _ _).bind firm_order fun _ => Leaves.pure firm_order _
    · exact Leaves.stay

theorem preBind_leaves {R : State → State → Prop} (o : Order R) {α β : Type} {m : M z (Pre α)} {f : α → M z (Pre β)}
    (h : Leaves R m) (k : ∀ a, Leaves R (f a)) : Leaves R (preBind m f) := by
  refine h.bind o fun r => ?_
  split
  · exact k _
  · exact Leaves.pure o _
  · exact Leaves.pure o _

theorem preEach_leaves {R : State → State → Prop} (o : Order R) {α β : Type} {f : α → M z (Pre β)} (k : ∀ a, Leaves R (f a)) :
    ∀ xs, Leaves R (preEach f xs)
  | [] => Leaves.pure o _
  | x :: xs => preBind_leaves o (k x) fun _ => preBind_leaves o (preEach_leaves o k xs) fun _ => Leaves.pure o _

theorem issueRead64_firm (w : View) (va : W64) : Leaves Firm (issueRead64 w va : M z (Pre (LaneAcc × Nat))) :=
  preBind_leaves firm_order (issueXlate_firm _ _ _) fun _ => (getGroup_firm _).bind firm_order fun _ =>
    (Leaves.get firm_order).bind firm_order fun _ => (Leaves.guard firm_order _).bind firm_order fun _ =>
      ((bringLine_still _).mono fun _ _ => Still.firm).bind firm_order fun _ => (Leaves.get firm_order).bind firm_order fun _ =>
        Leaves.pure firm_order _

theorem issueEntry_firm (w : View) (typ idx : Nat) : Leaves Firm (issueEntry w typ idx : M z (Pre (LaneAcc × Nat))) := by
  refine (Leaves.get firm_order).bind firm_order fun s => ?_
  split
  · exact Leaves.pure firm_order _
  · exact preBind_leaves firm_order (issueRead64_firm _ _) fun _ => Leaves.pure firm_order _

theorem issueHandle_firm (w : View) (idx : Nat) : Leaves Firm (issueHandle w idx : M z (Pre (LaneAcc × Nat × Handle))) :=
  preBind_leaves firm_order (issueEntry_firm _ _ _) fun _ => Leaves.pure firm_order _

theorem issueLayer_firm (w : View) (h : Handle) (idx : Nat) : Leaves Firm (issueLayer w h idx : M z (Pre (Nat × Layer))) :=
  preBind_leaves firm_order (issueEntry_firm _ _ _) fun _ => Leaves.pure firm_order _

theorem issueList_firm (w : View) (h : Handle) : Leaves Firm (issueList w h : M z (Pre (List Nat × List Nat))) := by
  unfold issueList
  split
  · exact Leaves.pure firm_order _
  · exact preBind_leaves firm_order (issueRead64_firm _ _) fun _ => Leaves.pure firm_order _

theorem takeSnapshot_firm (w : View) (idx : Nat) : Leaves Firm (takeSnapshot w idx : M z (Pre (LaneAcc × Snapshot))) :=
  preBind_leaves firm_order (issueHandle_firm _ _) fun _ => preBind_leaves firm_order (issueList_firm _ _) fun _ =>
    preBind_leaves firm_order (preEach_leaves firm_order (fun _ => issueLayer_firm _ _ _) _) fun _ => Leaves.pure firm_order _

theorem copyReads_firm (x : BitVec 6) (l : Bool) (w : View) : Leaves Firm (copyReads x l w : M z (Pre CopyPlan)) := by
  unfold copyReads
  dsimp only
  split
  · exact Leaves.pure firm_order _
  · split
    · exact preBind_leaves firm_order (takeSnapshot_firm _ _) fun _ => Leaves.pure firm_order _
    · exact Leaves.pure firm_order _

theorem foldReads_firm (x y : BitVec 6) (w : View) : Leaves Firm (foldReads x y w : M z (Pre ((LaneAcc × Snapshot) × Handle))) :=
  preBind_leaves firm_order (takeSnapshot_firm _ _) fun _ => preBind_leaves firm_order (issueHandle_firm _ _) fun _ =>
    Leaves.pure firm_order _

theorem editList_firm (w : View) (b : Bool) (h d : Nat) (sn : W64) : Leaves Firm (editList w b h d sn : M z (Pre ListEdit)) := by
  refine preBind_leaves firm_order (issueHandle_firm _ _) fun _ => preBind_leaves firm_order (issueLayer_firm _ _ _) fun _ =>
    preBind_leaves firm_order (issueXlate_firm _ _ _) fun _ => ?_
  split
  · exact Leaves.pure firm_order _
  · split
    · exact Leaves.pure firm_order _
    · exact preBind_leaves firm_order (issueList_firm _ _) fun _ => Leaves.pure firm_order _

theorem Gives.firm {α : Type} {s u : State} {m : M s α} {a : α} (g : Gives m s a u) (h : Leaves Firm m) : Firm s u := g.leaves h .refl

/-- The group's team and launch after its reads of issue and its charge. -/
theorem staged_team {s u : State} {w : View} {j : Info} (hw : view s = some w) (f : Firm s u) (hj : NoJournal w) (k : Group → Group) :
    ∃ l t, (w.paidAt j (w.onGroup k u)).launch? w.t.launch = some l ∧ l.journal = 0 ∧
      (w.paidAt j (w.onGroup k u)).team? w.eid = some t ∧ t.launch = w.t.launch := by
  obtain ⟨h1, -, -, h4, -⟩ := view_cases hw
  obtain ⟨l, hl, j0⟩ := hj
  have hl' : u.launch? w.t.launch = some l := by unfold State.launch?; rw [f.launches, ← h1]; exact hl
  have h4' : SMap.get? u.teams w.eid = some w.t := by rw [f.teams]; exact h4
  refine ⟨l, ?_⟩
  unfold View.paidAt View.onGroup State.launch? State.team?
  dsimp only
  rcases hst : w.t.stop with _ | _ | _ | k <;>
    simp only [SMap.get?_adjust_self, h4', Option.map_some] <;>
    exact ⟨_, hl', j0, rfl, rfl⟩

theorem journalEntry_off {s u : State} {w : View} {j : Info} (hw : view s = some w) (f : Firm s u) (hj : NoJournal w) (k : Group → Group) (a : LaneAcc) :
    Gives (z := s) (journalEntry w.g a) (w.paidAt j (w.onGroup k u)) () (w.paidAt j (w.onGroup k u)) := by
  obtain ⟨l, t, hl, j0, ht, e⟩ := staged_team (j := j) hw f hj k
  exact (Gives.get _).bind ((journalGroup_off ht (e ▸ hl) j0).bind (Gives.pure _ _))

theorem journalEntry_staged {s u : State} {w : View} {j : Info} {α : Type} {m : M s (Pre α)} {a : α} (hw : view s = some w)
    (hp : Gives m s (.ok a) u) (hf : Leaves Firm m) (hj : NoJournal w) (k : Group → Group) (e : LaneAcc) :
    Gives (z := s) (journalEntry w.g e) (w.paidAt j (w.onGroup k u)) () (w.paidAt j (w.onGroup k u)) :=
  journalEntry_off hw (hp.firm hf) hj k e

/-! Copies -/

/-- The snapshot's record, which a journal that is off does not take, and what the snapshot orders the operation after. -/
theorem snapped_gives {s u : State} {w : View} {j : Info} {α : Type} {m : M s (Pre α)} {a : α} {sn : Option (LaneAcc × Snapshot)}
    (hw : view s = some w) (hp : Gives m s (.ok a) u) (hf : Leaves Firm m) (hj : NoJournal w) (k : Group → Group) :
    Gives (z := s) (match sn with
      | some sn => do
        journalEntry w.g sn.1
        pure (snapClock w.s w.g sn.1)
      | none => pure []) (w.paidAt j (w.onGroup k u))
      (match sn with | some sn => snapClock w.s w.g sn.1 | none => []) (w.paidAt j (w.onGroup k u)) := by
  cases sn
  · exact Gives.pure _ _
  · exact (journalEntry_staged hw hp hf hj k _).bind (Gives.pure _ _)

theorem copy_queues {x : BitVec 6} {l : Bool} {i : Instr} (h : ∀ s, exec i s = runCopy s x l) :
    Staged i (copyInfo x) (copyReads x l) (fun _ => copyCost) (fun w r _ => NoJournal w ∧ r.1.2.1.declared ≠ 0)
      fun w r t => copyEntered w (r.op w (w.low x) (match r.2 with | some sn => snapClock w.s w.g sn.1 | none => []))
        (withTraffic w.t.launch r.1.2.1.declared t) := by
  refine staged (moved := fun _ _ => 0) h fun s w a u j hw c hp => ?_
  refine (snapped_gives hw hp (copyReads_firm _ _ _) c.1 _).bind ((traffic_gives _ _ _).bind ((enterCopy_gives _ _ _).bind ?_))
  rw [if_neg c.2]
  exact Gives.pure _ _

theorem SMap.get?_adjust_map {α : Type} {m : SMap α} {k : Nat} {f : α → α} {a : α} (h : SMap.get? m k = some a) :
    SMap.get? (SMap.adjust m k f) k = some (f a) := by rw [SMap.get?_adjust_self, h]; rfl

theorem declared_zero {l : Layout} (h : l.declared = 0) : l.points = 0 := by
  unfold Layout.declared at h
  have := Nat.two_pow_pos l.lsize
  rcases Nat.mul_eq_zero.1 h with k | k
  · exact k
  · omega

theorem bindRes_points (t : Team) (d : Layout) : (bindRes t d).1.points = d.points := by
  unfold bindRes
  split
  · split <;> rfl
  · rfl

/-- What completing an operation of the COPY class without points, DEP or BO leaves. -/
theorem completeCopy_gives {cl : Nat} {op : CopyOp} {off : Nat} {t : State} {tm : Team}
    (hf : (t.cluster cl).copyq.find? (fun o => o.id = op.id) = some op) (ho : op.over t = true) (ht : t.team? op.eid = some tm)
    (hw : op.writes = []) (hd : op.dep = none) (hb : op.bobj = none) (hs : op.descOff = some off)
    (c : Clean t (opWho op.id op.clock) (spKey op.eid (off + 56)) 8 true) :
    Gives (z := z) (completeCopy cl op.id) t ()
      (opCounted op.g 0 op.id 0 op.clock (copyGone cl op
        (spWritten (opWho op.id op.clock) op.eid (off + 56) (natBytes (op.status false) 8) t))) := by
  unfold completeCopy
  refine (Gives.get t).bind (Gives.bind (a := op) (u := t) ?_ ((Gives.guard ho t).bind ((Gives.getTeam ht).bind ?_)))
  · rw [hf]; exact Gives.pure _ _
  refine Gives.bind (a := ()) (u := t) ?_ ?_
  · unfold freeOverlap
    rw [hw]
    exact Gives.pure _ _
  dsimp only
  rw [hd, hs, hb]
  refine (Gives.pure false t).bind ((spStore_gives (by rw [natBytes_length]; exact c)).bind
    ((Gives.modCluster _ _ _).bind ((Gives.modTeam _ _ _).bind (Gives.modGroup _ _ _))))

theorem copy_ends {x : BitVec 6} {l : Bool} {i : Instr} (h : ∀ s, exec i s = runCopy s x l) :
    Staged i (copyInfo x) (copyReads x l) (fun _ => copyCost)
      (fun w r u => NoJournal w ∧ r.1.2.1.declared = 0 ∧ r.1.1.dep = false ∧ r.1.1.bo = false ∧
        (∀ o ∈ (u.cluster w.cl).copyq, o.id ≠ u.fresh) ∧
        Clean u (opWho u.fresh (r.op w (w.low x) (match r.2 with | some sn => snapClock w.s w.g sn.1 | none => []) u.fresh).clock)
          (spKey w.eid (w.low x + 56)) 8 true)
      fun w r t =>
        let op := r.op w (w.low x) (match r.2 with | some sn => snapClock w.s w.g sn.1 | none => []) t.fresh
        opCounted w.g 0 t.fresh 0 op.clock (copyGone w.cl op
          (spWritten (opWho op.id op.clock) w.eid (w.low x + 56) (natBytes (op.status false) 8)
            (copyEntered w (r.op w (w.low x) (match r.2 with | some sn => snapClock w.s w.g sn.1 | none => []))
              (withTraffic w.t.launch 0 t)))) := by
  refine staged (moved := fun _ _ => 0) h fun s w a u j hw c hp => ?_
  obtain ⟨hj, hz, hdep, hbo, hfr, hcl⟩ := c
  have fm := hp.firm (copyReads_firm x l w)
  refine (snapped_gives hw hp (copyReads_firm _ _ _) hj _).bind ((traffic_gives _ _ _).bind ((enterCopy_gives _ _ _).bind ?_))
  rw [if_pos hz, hz]
  generalize hc : (match a.2 with | some sn => snapClock w.s w.g sn.1 | none => []) = snap at hcl ⊢
  obtain ⟨k, tm, -, -, ht, -⟩ := staged_team (j := j) hw fm hj (fun gr => { gr with denied := none })
  refine (Gives.bind (f := fun _ => pure Flow.seq) (completeCopy_gives (op := a.op w (w.low x) snap u.fresh) (off := w.low x)
    (tm := { tm with mat := tm.mat.use (a.op w (w.low x) snap u.fresh).res u.fresh }) ?_ ?_ ?_ rfl ?_ ?_ rfl ?_) (Gives.pure _ _)).as rfl
  · have e : ((copyEntered w (a.op w (w.low x) snap) (withTraffic w.t.launch 0
        (w.paidAt j (w.onGroup (fun gr => { gr with denied := none }) u)))).cluster w.cl).copyq =
        (u.cluster w.cl).copyq ++ [a.op w (w.low x) snap u.fresh] := by
      unfold copyEntered opened using_ State.cluster View.onGroup
      simp only [SMap.get?_put_self, Option.getD_some]
      rfl
    rw [e, List.find?_append]
    have n : (u.cluster w.cl).copyq.find? (fun o => o.id = u.fresh) = none := by
      rw [List.find?_eq_none]
      intro o ho
      simpa using hfr o ho
    show ((u.cluster w.cl).copyq.find? (fun o => o.id = u.fresh)).or _ = _
    rw [n]
    simp [CopyPlan.op]
  · have hp0 : (a.op w (w.low x) snap u.fresh).total = 0 := by
      have k := (bindRes_points w.t a.1.2.1).trans (declared_zero hz)
      unfold CopyOp.total CopyPlan.op
      dsimp only
      split
      · exact k
      · exact k
      · next e => split at e <;> cases e
      · rfl
    unfold CopyOp.over
    rw [hp0]
    have hk : (a.op w (w.low x) snap u.fresh).isDiscard = false := by
      unfold CopyOp.isDiscard CopyPlan.op
      dsimp only
      split
      · next e => split at e <;> cases e
      · rfl
    rw [hk]
    rfl
  · exact SMap.get?_adjust_map ht
  · show (if a.1.1.dep then some a.1.1.deptag else none) = none
    rw [hdep]; rfl
  · show (if a.1.1.bo then some a.1.1.bobj else none) = none
    rw [hbo]; rfl
  · exact hcl.congr rfl

/-! Layer lists -/

theorem forEach_map {α β : Type} {f : β → M z Unit} {h : α → β} (xs : List α) : forEach (xs.map h) f = forEach xs fun x => f (h x) := by
  induction xs with
  | nil => rfl
  | cons x xs ih => simp only [List.map_cons, forEach, ih]

/-- Writes in parts: a list of them, then two more. -/
theorem writes_gives {g : Nat} {who : Who} {ws : List (Nat × List Byte)} {x y : Nat × List Byte} {t : State}
    (h : ∀ k e, (ws ++ [x, y])[k]? = some e → Room (wroteAll g who ((ws ++ [x, y]).take k) t) e.1 e.2.length ∧
      Clean (wroteAll g who ((ws ++ [x, y]).take k) t) who e.1 e.2.length true) :
    Gives (z := z) (do
      forEach ws fun e => groupWrite g who e.1 e.2
      groupWrite g who x.1 x.2
      groupWrite g who y.1 y.2
      pure Flow.seq) t .seq (wroteAll g who (ws ++ [x, y]) t) := by
  have h1 : ∀ k e, ws[k]? = some e → Room (wroteAll g who (ws.take k) t) e.1 e.2.length ∧
      Clean (wroteAll g who (ws.take k) t) who e.1 e.2.length true := by
    intro k e he
    have hk : k < ws.length := (List.getElem?_eq_some_iff.1 he).1
    have := h k e (by rw [List.getElem?_append_left hk]; exact he)
    rwa [List.take_append_of_le_length (by omega)] at this
  have h2 := h ws.length x (by simp)
  have h3 := h (ws.length + 1) y (by simp)
  rw [List.take_append_of_le_length (by omega), List.take_length] at h2
  have e3 : (ws ++ [x, y]).take (ws.length + 1) = ws ++ [x] := by
    rw [List.take_append]
    simp
  have f1 : wroteAll g who (ws ++ [x]) t = groupWritten g who x.1 x.2 (wroteAll g who ws t) := by simp [wroteAll]
  have f2 : wroteAll g who (ws ++ [x, y]) t = groupWritten g who y.1 y.2 (groupWritten g who x.1 x.2 (wroteAll g who ws t)) := by
    simp [wroteAll]
  rw [e3, f1] at h3
  rw [f2]
  exact (wroteAll_gives ws h1).bind ((groupWrite_gives h2.1 h2.2).bind ((groupWrite_gives h3.1 h3.2).bind (Gives.pure _ _)))

/-- The writes of a lattach or ldetach. -/
def listWrites (zr : BitVec 6) (w : View) (e : ListEdit) : List (Nat × List Byte) :=
  (if e.idx = [] then []
    else (List.range 8).map fun i => (e.target.pa + 8 * i, natBytes (listBits ((e.handle.lver + 1) % 65536) e.idx / 2 ^ (64 * i)) 8)) ++
  [(e.entry.pa + 40, natBytes (if e.idx = [] then 0 else (w.gr.rs zr.toNat).toNat) 8),
   (e.entry.pa + 48, natBytes ((e.handle.lver + 1) % 65536) 2)]

def listWho (w : View) : Who :=
  { groupWho w.g w.gr w.gr.nextId with
    rels := w.gr.fences ++ [{ party := partyOf w.s w.g, scope := w.scope, clock := w.gr.release w.g }] }

theorem list_edit {x y zr : BitVec 6} {b : Bool} {i : Instr} (h : ∀ s, exec i s = runListEdit s x y zr b) :
    Staged i (fun w => { reads := [sreg x, sreg y, sreg zr], mods := modScope, waits := !w.gr.drained })
      (fun w => editList w b (w.low x) (w.low y) (w.gr.rs zr.toNat)) (fun _ _ => 0)
      (fun w e u => NoJournal w ∧ sysWaits w.s e.target = false ∧
        ∀ k x, (listWrites zr w e)[k]? = some x →
          Room (wroteAll w.g (listWho w) ((listWrites zr w e).take k) u) x.1 x.2.length ∧
            Clean (wroteAll w.g (listWho w) ((listWrites zr w e).take k) u) (listWho w) x.1 x.2.length true)
      fun w e => wroteAll w.g (listWho w) (listWrites zr w e) := by
  refine staged (moved := fun _ _ => 0) h fun s w e u j hw c hp => ?_
  obtain ⟨hj, hs, hr⟩ := c
  refine (journalEntry_staged hw hp (editList_firm _ _ _ _ _) hj _ _).bind ((Gives.guard (by rw [hs]; rfl) _).bind ?_)
  have k := writes_gives (z := s) (g := w.g) (who := listWho w) (t := w.paidAt j (w.onGroup (fun gr => { gr with denied := none }) u))
    (ws := if e.idx = [] then []
      else (List.range 8).map fun i => (e.target.pa + 8 * i, natBytes (listBits ((e.handle.lver + 1) % 65536) e.idx / 2 ^ (64 * i)) 8))
    (x := (e.entry.pa + 40, natBytes (if e.idx = [] then 0 else (w.gr.rs zr.toNat).toNat) 8))
    (y := (e.entry.pa + 48, natBytes ((e.handle.lver + 1) % 65536) 2)) (fun k a ha => by
      obtain ⟨r1, r2⟩ := hr k a ha
      obtain ⟨c1, -, c3⟩ := wroteAll_congr (g := w.g) (who := listWho w) ((listWrites zr w e).take k)
        (t := u) (u := w.paidAt j (w.onGroup (fun gr => { gr with denied := none }) u)) rfl rfl rfl
      exact ⟨r1.congr c1 c3, r2.congr (congrArg Home.past c1)⟩)
  by_cases he : e.idx = []
  · simp only [he, List.isEmpty_nil, Bool.not_true, Bool.false_eq_true, if_false, if_true] at k ⊢
    simp only [listWrites, he, if_true]
    exact k
  · have he' : e.idx.isEmpty = false := by simpa using he
    simp only [he', he, Bool.not_false, Bool.false_eq_true, if_false, if_true] at k ⊢
    simp only [listWrites, he, if_false]
    rw [forEach_map] at k
    exact k

end Sys2Proof.Machine
end

