-- ==== Sys2Proof/Laws/Sync.lean ====
section
/-! SUPPORT. What fences, messages, tickets and ordered atomics leave. -/

namespace Sys2Proof.Machine

variable {z : State}

theorem present_free {w : View} (h : mayPresent w = true) :
    w.gr.parked = none ∧ w.gr.hold = none ∧ w.gr.exited = false ∧ w.gr.trap.pending = none ∧ w.t.core.isSome = true := by
  replace h := (Bool.and_eq_true_iff.1 h).1
  unfold canPresent at h
  simp only [Bool.and_eq_true, Bool.not_eq_true'] at h
  obtain ⟨⟨⟨⟨⟨⟨⟨⟨⟨h1, h2⟩, h3⟩, h4⟩, h5⟩, h6⟩, h7⟩, h8⟩, h9⟩, h10⟩ := h
  exact ⟨by simpa using h3, by simpa using h2, h1, by simpa using h4, h5⟩

/-- What a step's barriers depend on, in states whose teams and grids keep their places. -/
structure SameBarriers (e : Nat) (t u : State) : Prop where
  bar : ∀ b, barrierOf u e b = barrierOf t e b

theorem paid_barrier {s : State} {w : View} {i : Info} (hw : view s = some w) (b : Nat) (k : Group → Group) :
    barrierOf (w.onGroup k (w.paid i)) w.eid b = barrierOf w.s w.eid b := by
  obtain ⟨h1, -, -, h4, -⟩ := view_cases hw
  obtain ⟨al, ch, st, ht⟩ := paid_team_eq (i := i) hw
  have h5 : w.s.team? w.eid = some w.t := h1 ▸ h4
  have ht' : (w.onGroup k (w.paid i)).team? w.eid = some { w.t with al := al, charged := ch, stop := st } := ht
  have hg : ∀ x, (w.onGroup k (w.paid i)).grid? x = w.s.grid? x := fun _ => rfl
  have hs : sharedBarrier (w.onGroup k (w.paid i)) w.eid b = sharedBarrier w.s w.eid b := by
    unfold sharedBarrier isNbh
    rw [ht', h5]
    simp only [hg]
  unfold barrierOf
  rw [ht', h5]
  simp only [hs, hg]

theorem forEach_if {α : Type} {f : α → M z Unit} {p : α → Bool} {F : State → α → State} (h : ∀ t x, Gives (f x) t () (F t x))
    (xs : List α) : ∀ t, Gives (forEach xs fun x => if p x then f x else pure ()) t () ((xs.filter p).foldl F t) := by
  induction xs with
  | nil => intro t; exact Gives.pure _ _
  | cons x xs ih =>
    intro t
    rw [List.filter_cons]
    cases hp : p x
    · simp only [Bool.false_eq_true, if_false]
      exact Gives.bind (a := ()) (u := t) (by simp only [hp, Bool.false_eq_true, if_false]; exact Gives.pure _ _) (ih t)
    · simp only [if_true, List.foldl_cons]
      exact Gives.bind (a := ()) (u := F t x) (by simp only [hp, if_true]; exact h t x) (ih _)

theorem paid_grid {s : State} {w : View} {i : Info} (hw : view s = some w) (g : Nat) : (w.paid i).grid? g = s.grid? g := by
  have := (view_cases hw).1
  rw [← this]
  rfl

theorem ticket_grid {s : State} {t : Team} {j : Nat} {k : Ticket} (h : ticketOf s t j = some k) :
    ∃ gd, s.grid? t.grid = some gd ∧ gd.tickets[j]? = some k := by
  unfold ticketOf at h
  split at h
  · next gd hg => exact ⟨gd, hg, h⟩
  · cases h

theorem advance_addr (k : Ticket) (n : Nat) : (k.advance n).addr = k.addr := by
  induction n generalizing k with
  | zero => rfl
  | succ n ih =>
    unfold Ticket.advance
    split
    · rw [ih]
    · rfl

theorem passTicket_gives {e j : Nat} {t : State} {tm w : Team} {k : Ticket} {gd : Grid} {c : Clock} (ht : t.team? e = some tm)
    (e1 : tm.grid = w.grid) (e2 : tm.tidx = w.tidx) (hg : t.grid? w.grid = some gd) (hk : gd.tickets[j]? = some k)
    (b : commitBlocks t.dev k.addr = false) (r : Room t k.addr 16) :
    Gives (z := z) (passTicket e j false c) t () (ticketPassed e j w k c t) := by
  have hk' : ({ k with passes := k.passes ++ [w.tidx], void := k.void || false, clock := k.clock.join c
                       vtidx := if false && !k.void then w.tidx else k.vtidx } : Ticket) =
      { k with passes := k.passes ++ [w.tidx], clock := k.clock.join c } := by
    simp
  refine (Gives.getTeam ht).bind ((Gives.getGrid (gd := gd) (by rw [e1]; exact hg)).bind ?_)
  simp only [hk, need]
  refine (Gives.pure _ _).bind ?_
  rw [e1, e2, hk']
  have ha : (k.passedBy w c).addr = k.addr := advance_addr _ _
  have key : ∀ u : State, u.home = t.home → u.dev = t.dev →
      Gives (z := z) (sysWrite (k.passedBy w c).addr (natBytes (k.passedBy w c).encode 16)) u ()
        (written sysParty k.addr (natBytes (k.passedBy w c).encode 16) u) := by
    intro u h d
    rw [ha]
    refine sysWrite_gives (by rw [d]; exact b) ?_
    rw [natBytes_length]
    exact r.congr h d
  exact (Gives.mod _ _ _).bind ((Gives.modTeam _ _ _).bind (key _ rfl rfl))

theorem bareAtom_gives {w : View} {acc : Access} {ok : List LaneAcc} {t : State} {gr : Group} (h : t.group? w.g = some
    gr) (k : gr.nextId = w.gr.nextId) (d : acc.dest = .none) :
    Gives (z := z) (pushAtom w.g w.gr.nextId acc ok) (w.numbered t) () (w.onGroup (withBareAtom w acc ok) t) := by
  refine push_gives (k := withBareAtom w acc ok) h ?_
  simp only [withBareAtom, k, if_pos d]
  have : max ((distinct (ok.map (·.pa))).length + 1) 1 = (distinct (ok.map (·.pa))).length + 1 := by omega
  rw [this]

theorem performBare_gives {s : State} {w : View} {acc : Access} {ok : List LaneAcc} {u : State} {gr : Group} {l : Launch}
    {tm : Team} {op : AtomOp} (hk : acc.kind = .atom op) (hd : acc.dest = .none) (hj : l.journal ≠ 2) (p : Performs w u gr tm l ok) :
    Gives (z := s) (performLanes w.g w.gr.nextId acc ok) (w.numbered u) [] (w.onGroup (withBareAtom w acc ok) u) := by
  refine (Gives.get (w.numbered u)).bind ((Gives.getTeam (t := w.numbered u) p.team).bind
    ((Gives.getLaunch (t := w.numbered u) p.launch).bind ?_))
  have he : ok.isEmpty = false := by simpa using p.some
  simp only [he, hk, hj, p.unchecked, Bool.false_eq_true, Bool.false_and, if_false, List.isEmpty_nil, Bool.not_true, Bool.false_or,
    decide_false]
  exact Gives.bind (f := fun _ => pure []) (bareAtom_gives p.group p.next hd) (Gives.pure _ _)

/-- What holds of the state an access reaches. -/
structure Reached (s : State) (w : View) (n : Nat) (i : Info) (u : State) (l : Launch) (tm : Team) (gr : Group) : Prop where
  launch : u.launch? w.t.launch = some l
  team : u.team? w.eid = some tm
  group : u.group? w.g = some gr
  same : ∃ al ch st, tm = { w.t with al := al, charged := ch, stop := st }
  next : gr.nextId = w.gr.nextId
  still : Still (withTraffic w.t.launch n (w.paid i)) u

theorem reached {s : State} {w : View} {i : Info} {acc : Access} {lanes ok : List LaneAcc} {u : State} (n : Nat)
    (hw : view s = some w) (r : Reaches s w (withTraffic w.t.launch n (w.paid i)) acc lanes ok u) :
    ∃ l l' tm gr, Gives (z := s) (translate w.cl w.t.ctx l.rcd acc lanes) (withTraffic w.t.launch n (w.paid i)) { ok := ok } u ∧
      s.launch? w.t.launch = some l ∧ (withTraffic w.t.launch n (w.paid i)).launch? w.t.launch = some l' ∧ l'.rcd = l.rcd ∧ l'.journal = l.journal ∧
      Reached s w n i u l' tm gr := by
  obtain ⟨⟨l, hl, hg⟩, hm, hu, hs⟩ := r
  have hl' : (w.paid i).launch? w.t.launch = some l := by
    have := (view_cases hw).1
    rw [← this] at hl
    exact hl
  obtain ⟨l', hl2, hr, hj⟩ := traffic_launch (n := n) hl'
  obtain ⟨al, ch, sp, ht0⟩ := paid_team_eq (i := i) hw
  obtain ⟨gr, hg0, hid, -⟩ := paid_group (i := i) hw
  refine ⟨l, l', { w.t with al := al, charged := ch, stop := sp }, gr, hg, hl, hl2, hr, hj, ?_⟩
  obtain ⟨p, -⟩ := paid_gives (z := s) (i := i) (view_cases hw).1 .refl
  obtain ⟨q, -⟩ := traffic_gives (z := s) w.t.launch n (w.paid i) p
  have st := hg.leaves (translate_still _ _ _ _ _) q
  exact ⟨by unfold State.launch?; rw [st.launches]; exact hl2, by unfold State.team?; rw [st.teams]; exact ht0,
    by unfold State.group?; rw [st.groups]; exact hg0, ⟨al, ch, sp, rfl⟩, hid, st⟩

/-- An access word whose lanes reach memory and whose performance leaves `v`, outside mixed-size debug mode. -/
theorem access_gives {s : State} {w : View} {i : Info} {acc : Access} {lanes ok : List LaneAcc} {u v : State} {n : Nat}
    (hw : view s = some w) (r : Reaches s w (withTraffic w.t.launch n (w.paid i)) acc lanes ok u)
    (np : acc.np = false) (kp : acc.kind ≠ .prf)
    (hp : Gives (z := s) (performLanes w.g w.gr.nextId acc ok) (w.numbered u) [] v) (hg : (v.group? w.g).isSome)
    (ht : (v.team? w.eid).map (·.ctx) = some w.t.ctx) (hm : (v.ctx w.t.ctx).msz = false) (pre : List Detail) (hpre : pre = []) :
    Gives (z := s) (do addTraffic w.t.launch n; startAccess w acc lanes pre) (w.paid i) .seq v := by
  obtain ⟨l, l', tm, gr, htr, -, hl2, hr, -, re⟩ := reached n hw r
  subst hpre
  refine (traffic_gives _ _ _).bind ?_
  unfold startAccess
  refine (teamRec_gives hl2).bind ((Gives.get _).bind ((hr ▸ htr).bind ?_))
  have kb : (acc.kind == .prf) = false := by simpa using kp
  have hu := r.unwatched
  have tu := takeUnit_gives (z := s) (g := w.g) (n := 1) re.group
  rw [re.next] at tu
  simp only [hu, List.append_nil, kb, Bool.false_eq_true, if_false, List.isEmpty_nil, Bool.not_true, Bool.false_and]
  refine tu.bind (hp.attempt.bind ?_)
  simp only [List.isEmpty_nil, Bool.and_self, if_true]
  cases hg' : v.group? w.g with
  | none => rw [hg'] at hg; cases hg
  | some gr =>
    cases ht' : v.team? w.eid with
    | none => rw [ht'] at ht; cases ht
    | some tm =>
      rw [ht'] at ht
      have hc : tm.ctx = w.t.ctx := by simpa using ht
      refine (Gives.get _).bind ((Gives.getTeam ht').bind ((Gives.getGroup hg').bind ?_))
      simp only [np, hc, hm, Bool.or_self, Bool.false_and, Bool.false_eq_true, if_false]
      exact Gives.pure _ _

/-- The contributions of lanes, where their slices have room (R131, R132). -/
theorem contributions_gives {w : View} {gd : Grid} {i64 : Bool} (ok : List LaneAcc) : ∀ {t : State},
    t.dev.hcommit = none → t.home.ordered.length + ok.length ≤ 64 → ∀ {tm : Team}, tm.launch = w.t.launch → tm.ctx = w.t.ctx → tm.tidx = w.t.tidx →
    ∃ r, Gives (z := z) (mapEach ok fun a => do
      let s ← getS
      guardS (!commitBlocks s.dev a.pa)
      let spill := slicesUsed s (homeSlice s.dev a.pa) ≥ 64
      let spillUsed := (s.home.ordered.filter fun c => c.spilled && c.ctx = tm.ctx).length
      if spill && spillUsed ≥ (s.ctx tm.ctx).oscnt.toNat then pure [laneDetail Cause.engineErr a.lane 3 a.va]
      else do
        let n := (s.home.ordered.filter fun c => c.launch = tm.launch && c.pa = a.pa && c.path = gd.path && c.tidx = tm.tidx &&
          c.gidx = groupIdx w.g && c.lane = a.lane).length
        modHome fun h => { h with ordered := h.ordered ++
          [{ launch := tm.launch, ctx := tm.ctx, pa := a.pa, i64 := i64, path := gd.path, tidx := tm.tidx, gidx := groupIdx w.g
             lane := a.lane, n := n, val := BitVec.ofNat 64 a.data, chk := a.chk, spilled := spill }] }
        pure []) t r
      { t with home := { t.home with ordered := ok.foldl (fun os a => os ++ [contribution w gd.path i64 os a]) t.home.ordered } } ∧
      r.flatten = [] := by
  induction ok with
  | nil => intro t _ _ tm _ _ _; exact ⟨[], Gives.pure _ _, rfl⟩
  | cons a ok ih =>
    intro t hc hn tm e1 e2 e3
    have hs : ¬ slicesUsed t (homeSlice t.dev a.pa) ≥ 64 := by
      have : slicesUsed t (homeSlice t.dev a.pa) ≤ t.home.ordered.length := List.length_filter_le _ _
      simp only [List.length_cons] at hn
      omega
    obtain ⟨r, h2, h3⟩ := ih (t := { t with home := { t.home with ordered := t.home.ordered ++ [contribution w gd.path i64 t.home.ordered a] } })
      hc (by simp only [List.length_append, List.length_cons, List.length_nil] at hn ⊢; omega) e1 e2 e3
    refine ⟨[] :: r, Gives.bind (a := ([] : List Detail))
      (u := { t with home := { t.home with ordered := t.home.ordered ++ [contribution w gd.path i64 t.home.ordered a] } }) ?_
      (h2.bind (Gives.pure _ _)), by simpa using h3⟩
    refine (Gives.get t).bind ((guard_gives (by simp [commitBlocks, hc])).bind ?_)
    simp only [decide_eq_false hs, Bool.false_and, Bool.false_eq_true, if_false]
    refine Gives.as (Gives.bind (f := fun _ => pure ([] : List Detail)) (Gives.mod _ _ t) (Gives.pure _ _)) ?_
    unfold contribution
    simp only [e1, e2, e3]

theorem contribute_gives {s : State} {w : View} {i64 : Bool} {acc : Access} {ok : List LaneAcc} {u : State} {l : Launch}
    {tm : Team} {gd : Grid} (hk : acc.kind = .atomo i64) (ht : u.team? w.eid = some tm) (hl : u.launch? tm.launch = some l) (hs : ok ≠ [])
    (e1 : tm.launch = w.t.launch) (e2 : tm.ctx = w.t.ctx) (e3 : tm.tidx = w.t.tidx) (e4 : tm.grid = w.t.grid)
    (hg : u.grid? w.t.grid = some gd) (hc : u.dev.hcommit = none) (hn : u.home.ordered.length + ok.length ≤ 64) :
    Gives (z := s) (performLanes w.g w.gr.nextId acc ok) (w.numbered u) [] (contributed w gd.path i64 ok u) := by
  refine (Gives.get (w.numbered u)).bind ((Gives.getTeam (t := w.numbered u) ht).bind ((Gives.getLaunch (t := w.numbered u) hl).bind ?_))
  have he : ok.isEmpty = false := by simpa using hs
  simp only [he, hk, Bool.false_eq_true, Bool.false_and, if_false, List.isEmpty_nil, Bool.not_true]
  obtain ⟨r, hr, hf⟩ := contributions_gives (z := s) (w := w) (gd := gd) (i64 := i64) ok (t := w.numbered u) hc hn e1 e2 e3
  refine Gives.bind (a := ()) ?_ (Gives.pure _ _)
  refine (Gives.getTeam (t := w.numbered u) ht).bind ((Gives.getGrid (gd := gd) (t := w.numbered u) (by rw [e4]; exact hg)).bind (hr.bind ?_))
  rw [hf]
  exact Gives.pure _ _

theorem ordered_atomic {i : BitVec 6 → BitVec 6 → BitVec 6 → Instr} {i64 : Bool}
    (he : ∀ s x y v, exec (i x y v) s = runAtomo s i64 x y v) : OrderedAtomic i i64 := by
  intro s x y v size info acc lanes
  refine ⟨fun hn w ok u hw r a e re hc => ?_, fun w ok u gd hw r a e ph re hg hcm hr hm => ?_⟩
  · obtain ⟨k, hk, -⟩ := re.translates
    obtain ⟨hp, hj⟩ := hn w k hw hk
    refine queues (push := withBareAtom) (acc := acc) (lanes := lanes) (info := info) (he s x y v) (fun _ => rfl) (fun _ => rfl)
      (fun w => by show (if w.phm then AccKind.atomo i64 else _) ≠ _; split <;> simp)
      (fun w' ok u gr l tm hw' p h => ?_) (fun _ _ _ h => ?_) w ok u hw r a e re hc
    · rw [hw] at hw'
      cases hw'
      exact performBare_gives (op := if i64 then .addI else .addF32) (by show (if w.phm then _ else _) = _; rw [hp]; rfl) rfl
        (by rw [h k hk]; exact hj) p
    · obtain ⟨b, t, rfl⟩ := List.exists_cons_of_ne_nil h
      simp [withBareAtom, Group.drained, distinct]
  · obtain ⟨l, l', tm, gr, -, -, -, -, -, rc⟩ := reached _ hw re
    obtain ⟨al, ch, st, rfl⟩ := rc.same
    have hgu : u.grid? w.t.grid = some gd := by
      unfold State.grid? at hg ⊢
      rw [rc.still.grids]
      exact hg ▸ paid_grid (i := info w) hw w.t.grid
    have hp := contribute_gives (s := s) (acc := acc w) (i64 := i64) (by show (if w.phm then _ else _) = _; rw [ph]; rfl)
      rc.team rc.launch re.some rfl rfl rfl rfl hgu hcm hr
    rw [he]
    refine runUnit_gives hw r a (access_gives hw re rfl (by show (if w.phm then _ else _) ≠ _; rw [ph]; simp) hp ?_ ?_ hm _ re.aligned)
      (seq_gives e _)
    · exact (congrArg Option.isSome (SMap.get?_adjust_map rc.group)).trans rfl
    · exact (congrArg _ rc.team).trans rfl

end Sys2Proof.Machine
end

