-- ==== Sys2Proof/Laws/Versions.lean ====
section
/-! SUPPORT. What versioned accesses, and releases that are met, leave. -/

namespace Sys2Proof.Machine

variable {z : State}

theorem meetReleases_gives (g u : Nat) (acc : Access) (lanes : List LaneAcc) (t : State) :
    Gives (z := z) (meetReleases g u acc lanes) t () (releasesMet g u acc lanes t) := by
  unfold meetReleases releasesMet
  refine (Gives.get t).bind ?_
  dsimp only
  cases (readRels t acc lanes).isEmpty
  · exact Gives.modGroup _ _ _
  · exact Gives.pure _ _

/-- A fence completes (R121, R127). -/
theorem fenceDone_gives {g scope : Nat} {t : State} {gr : Group} (h : t.group? g = some gr) :
    Gives (z := z) (fenceDone g scope) t () (fenced g scope t) := by
  have hg : (acquired g scope t).group? g = some { gr with mu := t.home.now } := SMap.get?_adjust_map h
  refine (acquire_gives _ _ _).bind ((Gives.get _).bind ((Gives.getGroup hg).bind ((orderAfter_gives _ _ _).bind
    ((Gives.modGroup _ _ _).as ?_))))
  unfold fenced ordered
  dsimp only
  rw [hg]
  rfl

theorem readAt_form (who : Who) (pa n : Nat) (t : State) : ∃ h : Home, readAt who pa n t = { t with home := h } := by
  obtain ⟨h, e⟩ := brought_form pa t
  obtain ⟨k, f⟩ := brought_form (pa + n - 1) (lineBrought pa t)
  unfold readAt seenAt
  rw [f, e]
  exact ⟨_, rfl⟩

/-- A lane's read at its home slice by group `g`. -/
theorem homeLoad_gives {g u n : Nat} {a : LaneAcc} {t : State} {gr : Group} (hg : t.group? g = some gr) (r : Room t a.pa n)
    (c : Clean t (groupWho g gr u) a.pa n false) :
    Gives (z := z) (homeLoad g u n a) t (laneRead n a (floorRaised g a.pa n (readAt (groupWho g gr u) a.pa n t)))
      (floorRaised g a.pa n (readAt (groupWho g gr u) a.pa n t)) := by
  unfold homeLoad
  refine (Gives.getGroup hg).bind ((hsRead_gives r c).bind ((catchUp_gives _ _ _ _).bind ((Gives.get _).bind ?_)))
  have e : memBytes (floorRaised g a.pa n (readAt (groupWho g gr u) a.pa n t)) a.pa n = memBytes t a.pa n := by
    obtain ⟨h, f⟩ := readAt_form (groupWho g gr u) a.pa n t
    refine memBytes_congr ?_ _ _
    unfold floorRaised
    rw [f]
  rw [← e]
  exact Gives.pure _ _

theorem floored_group {g n : Nat} {a : LaneAcc} {who : Who} {t : State} {gr : Group} (hg : t.group? g = some gr) :
    ∃ l, (floorRaised g a.pa n (readAt who a.pa n t)).group? g = some (gr.raiseFloor a.pa l) := by
  obtain ⟨h, e⟩ := readAt_form who a.pa n t
  unfold floorRaised State.group?
  rw [e]
  exact ⟨_, SMap.get?_adjust_map hg⟩

/-- Lanes read one after the other. -/
theorem readLanes_gives {g u n : Nat} {d : Group} (ls : List LaneAcc) : ∀ {t : State} {gr : Group}, t.group? g = some gr →
    Follows g u n d false ls (fun a t => floorRaised g a.pa n (readAt (groupWho g ((t.group? g).getD d) u) a.pa n t)) t →
    Gives (z := z) (mapEach ls fun a => homeLoad g u n a) t (lanesRead g u n d ls t).1 (lanesRead g u n d ls t).2 := by
  induction ls with
  | nil => intro t gr _ _; exact Gives.pure _ _
  | cons a ls ih =>
    intro t gr hg h
    obtain ⟨h1, -, h3, h4⟩ := h
    have e : (t.group? g).getD d = gr := by rw [hg]; rfl
    rw [e] at h3
    obtain ⟨l, hg'⟩ := floored_group (a := a) (n := n) (who := groupWho g gr u) hg
    have k := ih hg' (by rw [← e]; exact h4)
    unfold lanesRead
    dsimp only
    rw [e]
    exact (homeLoad_gives hg h1 h3).bind (k.bind (Gives.pure _ _))

theorem metaWrite_gives (pa tag : Nat) (t : State) : Gives (z := z) (metaWrite pa (some tag)) t () (metaWritten pa tag t) :=
  Gives.mod _ (by exact ⟨fun _ => rfl, fun _ => rfl⟩) t

/-- What a versioned access of `w`, whose lanes reach their line, finds. -/
structure VerState (s : State) (w : View) (u : State) (tm : Team) (l : Launch) (gr : Group) : Prop where
  team : u.team? w.eid = some tm
  launch : u.launch? tm.launch = some l
  group : u.group? w.g = some gr
  next : gr.nextId = w.gr.nextId
  tag : tm.tag = w.t.tag
  ctx : tm.ctx = w.t.ctx
  plain : phaseMode u tm = false
  journal : l.journal = 0

theorem traffic_phm {l n : Nat} {t : State} {k : Launch} (h : t.launch? l = some k) :
    ∃ k', (withTraffic l n t).launch? l = some k' ∧ k'.phm = k.phm := by
  refine ⟨_, (SMap.get?_adjust_self _ _ _).trans (congrArg _ h), ?_⟩
  dsimp only
  cases k.msh <;> rfl

theorem verState {s : State} {w : View} {store : Bool} {x y v : BitVec 6} {ok : List LaneAcc} {pa : Nat} {u : State}
    (hw : view s = some w) (r : ReachesLine s w store x y v ok pa u) (hp : w.phm = false) (hj : NoJournal w) :
    ∃ tm l gr, VerState s w u tm l gr := by
  obtain ⟨l, l', tm, gr, -, hl, hl2, -, hjj, rc⟩ := reached _ hw r.reach
  obtain ⟨al, ch, sp, rfl⟩ := rc.same
  obtain ⟨v1, -, -, -, -⟩ := view_cases hw
  obtain ⟨lj, hlj, j0⟩ := hj
  have e : lj = l := by rw [v1] at hlj; rw [hl] at hlj; cases hlj; rfl
  subst e
  have hphm : lj.phm = false := by
    unfold View.phm phaseMode at hp
    rw [hlj] at hp
    exact hp
  obtain ⟨l'', h4, h5⟩ := traffic_phm (n := 32 * sectors 4 ((verLanes x y v w).map (·.va))) (t := w.paid (verInfo store x y v w)) (l := w.t.launch) (k := lj) hlj
  rw [hl2] at h4
  cases h4
  refine ⟨_, l', gr, rc.team, rc.launch, rc.group, rc.next, rfl, rfl, ?_, hjj.trans j0⟩
  unfold phaseMode
  rw [show u.launch? _ = some l' from rc.launch]
  exact h5.trans hphm

/-- The checks of a versioned access outside phase mode and journalling, then what it does. -/
theorem performVer_gives {s : State} {w : View} {store : Bool} {x y v : BitVec 6} {ok : List LaneAcc} {pa : Nat} {u t : State}
    {tm : Team} {l : Launch} {gr : Group} (r : ReachesLine s w store x y v ok pa u) (k : VerState s w u tm l gr)
    (hp : ∀ a0, ok.head? = some a0 → a0.pa = pa → a0.cmp = (w.gr.rs y.toNat).toNat % 65536 → a0.chk = true →
      Gives (z := s) (do
        if !store || BitVec.ofNat 16 a0.cmp == (metaOf u pa).ver then metaStep tm (verAccess store y v w) a0
        if store then
          if BitVec.ofNat 16 a0.cmp == (metaOf u pa).ver then
            forEach ok fun a => storeLane w.g w.gr.nextId { verAccess store y v w with rels := gr.fences } a
          let m := metaOf (← getS) pa
          modGroup w.g fun g => g.setS y.toNat
            (verWord m ||| (if BitVec.ofNat 16 a0.cmp == (metaOf u pa).ver then 0x8000000000000000 else 0))
          pure []
        else
          let done ← mapEach ok fun a => homeLoad w.g w.gr.nextId 4 a
          let m := metaOf (← getS) pa
          match (verAccess store y v w).dest with
          | .vec b => modGroup w.g fun gr => done.foldl (fun gr a =>
              let gr := gr.setV b a.lane (BitVec.ofNat 32 a.data)
              if a.poison then { gr with poison := { gr.poison with v := NSet.add gr.poison.v (32 * b + a.lane) } } else gr) gr
          | _ => pure ()
          modGroup w.g fun gr => gr.setS y.toNat (verWord m)
          acquire w.g w.scope
          meetReleases w.g w.gr.nextId { verAccess store y v w with acq := true } done
          pure []) (w.numbered u) ([] : List LaneAcc) t) :
    Gives (z := s) (performLanes w.g w.gr.nextId (verAccess store y v w) ok) (w.numbered u) [] t := by
  have hne := r.reach.some
  obtain ⟨a0, rest, rfl⟩ := List.exists_cons_of_ne_nil hne
  have hf := r.first
  simp only [List.head?_cons, Option.map_some, Option.some.injEq, Prod.mk.injEq] at hf
  obtain ⟨e1, e2, e3⟩ := hf
  have core := hp a0 rfl e1 e2 e3
  obtain ⟨gr', hgr, hready⟩ := r.free
  rw [k.group] at hgr
  cases hgr
  have hgn : (w.numbered u).group? w.g = some (numbered gr) := SMap.get?_adjust_map k.group
  have hph : phaseMode (w.numbered u) tm = false := k.plain
  have hm : ((w.numbered u).ctx tm.ctx).msz = false := by rw [k.ctx]; exact r.posted
  refine (Gives.get (w.numbered u)).bind ((Gives.getTeam (t := w.numbered u) k.team).bind
    ((Gives.getLaunch (t := w.numbered u) k.launch).bind ?_))
  simp only [hm, Bool.and_false, Bool.false_and, Bool.false_eq_true, if_false, List.isEmpty_cons, List.isEmpty_nil, Bool.not_true]
  have main : Gives (z := s) (performVer w.g w.gr.nextId (verAccess store y v w) (a0 :: rest)) (w.numbered u) [] t := by
    unfold performVer
    refine (Gives.getGroup hgn).bind ((Gives.getTeam (t := w.numbered u) k.team).bind ((Gives.get _).bind
      ((Gives.guard (b := readyNow _ _ _ _ _ _) hready _).bind (Gives.bind (a := a0) (Gives.pure _ _)
        ((journalGroup_off (t := w.numbered u) k.team k.launch k.journal).bind ?_)))))
    have hcc : checkedCauses (w.numbered u) tm (verAccess store y v w) [a0] = [] := by unfold checkedCauses; rw [hph]; rfl
    rw [hcc, e1]
    have hk : ((verAccess store y v w).kind == AccKind.vstVer) = store := by unfold verAccess; cases store <;> rfl
    rw [hk]
    exact core
  cases store <;> exact main

theorem verWord_or (x : W64) : x ||| 0 = x := BitVec.or_zero

/-- vst.ver of the expected version. -/
theorem verHit_gives {s : State} {w : View} {x y v : BitVec 6} {ok : List LaneAcc} {pa : Nat} {u : State} {tm : Team} {l : Launch}
    {gr : Group} (r : ReachesLine s w true x y v ok pa u) (k : VerState s w u tm l gr)
    (he : (metaOf u pa).ver.toNat = (w.gr.rs y.toNat).toNat % 65536)
    (hf : Follows w.g w.gr.nextId 4 (numbered gr) true ok
      (fun a t => stored w.g w.gr.nextId { verAccess true y v w with rels := gr.fences } ((t.group? w.g).getD (numbered gr)) a t)
      (metaWritten pa w.t.tag (w.numbered u))) :
    Gives (z := s) (performLanes w.g w.gr.nextId (verAccess true y v w) ok) (w.numbered u) []
      (verStored w (verAccess true y v w) (numbered gr) ok pa (w.numbered u)) := by
  refine performVer_gives r k fun a0 h0 h1 h2 h3 => ?_
  have hv : (BitVec.ofNat 16 a0.cmp == (metaOf u pa).ver) = true := by
    rw [h2, ← he]
    simp
  simp only [hv, Bool.not_true, Bool.false_or, if_true]
  have hph : phaseMode (w.numbered u) tm = false := k.plain
  have hg1 : (metaWritten pa w.t.tag (w.numbered u)).group? w.g = some (numbered gr) := SMap.get?_adjust_map k.group
  have st : Gives (z := s) (metaStep tm (verAccess true y v w) a0) (w.numbered u) () (metaWritten pa w.t.tag (w.numbered u)) := by
    refine (Gives.get _).bind ?_
    simp only [h3, Bool.not_true, Bool.false_eq_true, if_false, hph]
    rw [← h1, ← k.tag]
    exact metaWrite_gives _ _ _
  exact st.bind ((storeLanes_gives rfl ok hg1 hf).bind ((Gives.get _).bind ((Gives.modGroup _ _ _).bind (Gives.pure _ _))))

/-- vst.ver of another version. -/
theorem verMiss_gives {s : State} {w : View} {x y v : BitVec 6} {ok : List LaneAcc} {pa : Nat} {u : State} {tm : Team} {l : Launch}
    {gr : Group} (r : ReachesLine s w true x y v ok pa u) (k : VerState s w u tm l gr)
    (he : (metaOf u pa).ver.toNat ≠ (w.gr.rs y.toNat).toNat % 65536) :
    Gives (z := s) (performLanes w.g w.gr.nextId (verAccess true y v w) ok) (w.numbered u) []
      (w.onGroup (fun gr => gr.setS y.toNat (verWord (metaOf u pa))) (w.numbered u)) := by
  refine performVer_gives r k fun a0 h0 h1 h2 h3 => ?_
  have hv : (BitVec.ofNat 16 a0.cmp == (metaOf u pa).ver) = false := by
    rw [h2, beq_eq_false_iff_ne]
    intro e
    apply he
    rw [← e, BitVec.toNat_ofNat]
    omega
  simp only [hv, Bool.not_true, Bool.or_self, Bool.false_eq_true, if_false, if_true, verWord_or]
  exact (Gives.get _).bind ((Gives.modGroup _ _ _).bind (Gives.pure _ _))

/-- ld.ver. -/
theorem verLoad_gives {s : State} {w : View} {x y v : BitVec 6} {ok : List LaneAcc} {pa : Nat} {u : State} {tm : Team} {l : Launch}
    {gr : Group} (r : ReachesLine s w false x y v ok pa u) (k : VerState s w u tm l gr)
    (hf : Follows w.g w.gr.nextId 4 (numbered gr) false ok
      (fun a t => floorRaised w.g a.pa 4 (readAt (groupWho w.g ((t.group? w.g).getD (numbered gr)) w.gr.nextId) a.pa 4 t))
      (w.numbered u)) :
    Gives (z := s) (performLanes w.g w.gr.nextId (verAccess false y v w) ok) (w.numbered u) []
      (verLoaded w (verAccess false y v w) (numbered gr) ok v.toNat pa (w.numbered u)) := by
  refine performVer_gives r k fun a0 h0 h1 h2 h3 => ?_
  have hph : phaseMode (w.numbered u) tm = false := k.plain
  have hg1 : (w.numbered u).group? w.g = some (numbered gr) := SMap.get?_adjust_map k.group
  have st : Gives (z := s) (metaStep tm (verAccess false y v w) a0) (w.numbered u) () (w.numbered u) := by
    refine (Gives.get _).bind ?_
    simp only [h3, Bool.not_true, Bool.false_eq_true, if_false, hph]
    exact Gives.pure _ _
  simp only [Bool.not_false, Bool.true_or, if_true, Bool.false_eq_true, if_false]
  exact st.bind ((readLanes_gives ok hg1 hf).bind ((Gives.get _).bind ((Gives.modGroup _ _ _).bind ((Gives.modGroup _ _ _).bind
    ((acquire_gives _ _ _).bind ((meetReleases_gives _ _ _ _ _).bind (Gives.pure _ _)))))))

/-- A versioned word whose lanes reach their line, once performed. -/
theorem ver_gives {s : State} {w : View} {store : Bool} {x y v : BitVec 6} {ok : List LaneAcc} {pa : Nat} {u t : State} {i : Instr}
    (he : exec i s = runVer s store x y v) (hw : view s = some w) (rd : Ready w (verInfo store x y v w))
    (ac : Acts w (verInfo store x y v w)) (e : PlainEnd w) (r : ReachesLine s w store x y v ok pa u)
    (hz : (w.gr.rs y.toNat).toNat / 2 ^ 16 = 0 ∨ store = false)
    (hp : Gives (z := s) (performLanes w.g w.gr.nextId (verAccess store y v w) ok) (w.numbered u) [] t) (hg : (t.group? w.g).isSome)
    (ht : (t.team? w.eid).map (·.ctx) = some w.t.ctx) (hm : (t.ctx w.t.ctx).msz = false) : exec i s = .next (w.next t) := by
  have h1 : w.lanes.filter (· < 16) = w.lanes := List.filter_eq_self.2 fun l hl => by simpa using r.low l hl
  have h2 : w.lanes.filter (16 ≤ ·) = [] := List.filter_eq_nil_iff.2 fun l hl => by simpa using r.low l hl
  have h3 : (store && (w.gr.rs y.toNat).toNat / 2 ^ 16 ≠ 0 : Bool) = false := by
    rcases hz with h | h
    · simp only [h, ne_eq, not_true, decide_false, Bool.and_false]
    · simp only [h, Bool.false_and]
  rw [he]
  refine runUnit_gives hw rd ac ?_ (seq_gives e t)
  dsimp only
  rw [h1, h2, h3, if_pos r.line]
  have hr := r.reach
  unfold verLanes at hr
  rw [List.map_map] at hr
  exact access_gives hw hr rfl (by unfold verAccess; cases store <;> simp) hp hg ht hm _ rfl

end Sys2Proof.Machine
end

