-- ==== Sys2Proof/Laws/Barriers.lean ====
section
/-! SUPPORT. What arrivals at named barriers leave. -/

namespace Sys2Proof.Machine

variable {z : State}

/-- The places of teams and grids and the exits of groups, which named barriers rest on. -/
structure Alike (t u : State) : Prop where
  team : ∀ x, (u.team? x).map (fun a => (a.grid, a.launch, a.tidx, a.shape)) = (t.team? x).map fun a => (a.grid, a.launch, a.tidx, a.shape)
  grid : ∀ x, (u.grid? x).map (fun a => (a.nbh, a.teams)) = (t.grid? x).map fun a => (a.nbh, a.teams)
  group : ∀ x, (u.group? x).map (·.exited) = (t.group? x).map (·.exited)
  launch : u.launches = t.launches

theorem Alike.trans {t u v : State} (h : Alike t u) (k : Alike u v) : Alike t v :=
  ⟨fun x => (k.team x).trans (h.team x), fun x => (k.grid x).trans (h.grid x), fun x => (k.group x).trans (h.group x), k.launch.trans h.launch⟩

theorem Alike.refl (t : State) : Alike t t := ⟨fun _ => rfl, fun _ => rfl, fun _ => rfl, rfl⟩

theorem adjust_map {α β : Type} (m : SMap α) (k x : Nat) (f : α → α) (p : α → β) (h : ∀ a, p (f a) = p a) :
    (SMap.get? (SMap.adjust m k f) x).map p = (SMap.get? m x).map p := by
  by_cases e : k = x
  · subst e
    rw [SMap.get?_adjust_self, Option.map_map]
    congr 1
    funext a
    exact h a
  · rw [SMap.get?_adjust_ne _ _ e]

theorem Alike.onGroup (w : View) (f : Group → Group) (h : ∀ gr, (f gr).exited = gr.exited) (t : State) : Alike t (w.onGroup f t) :=
  ⟨fun _ => rfl, fun _ => rfl, fun x => adjust_map t.groups w.g x f (·.exited) h, rfl⟩

theorem Alike.group_ {t : State} (g : Nat) (f : Group → Group) (h : ∀ gr, (f gr).exited = gr.exited) :
    Alike t { t with groups := SMap.adjust t.groups g f } :=
  ⟨fun _ => rfl, fun _ => rfl, fun x => adjust_map t.groups g x f (·.exited) h, rfl⟩

theorem Alike.acquired (g scope : Nat) (t : State) : Alike t (acquired g scope t) :=
  ⟨fun _ => rfl, fun _ => rfl, fun x => adjust_map t.groups g x _ (·.exited) fun _ => rfl, rfl⟩

theorem Group.follow_exited (gr : Group) (u : Nat) (c : Clock) : (gr.follow u c).exited = gr.exited := by
  unfold Group.follow
  split <;> rfl

theorem Group.follow_hold (gr : Group) (u : Nat) (c : Clock) : (gr.follow u c).hold = gr.hold := by
  unfold Group.follow
  split <;> rfl

theorem Alike.ordered (g : Nat) (c : Clock) (t : State) : Alike t (ordered g c t) :=
  ⟨fun _ => rfl, fun _ => rfl, fun x => adjust_map t.groups g x _ (·.exited) fun gr => gr.follow_exited _ _, rfl⟩

theorem Alike.barrierPut (w : View) (b : Nat) (x : Barrier) (t : State) : Alike t (barrierPut w b x t) := by
  unfold Machine.barrierPut
  split
  · exact ⟨fun _ => rfl, fun y => adjust_map t.grids w.t.grid y _ (fun a => (a.nbh, a.teams)) fun _ => rfl, fun _ => rfl, rfl⟩
  · exact ⟨fun y => adjust_map t.teams w.eid y _ (fun a => (a.grid, a.launch, a.tidx, a.shape)) fun _ => rfl, fun _ => rfl, fun _ => rfl, rfl⟩

theorem Alike.paid {w : View} (i : Info) : Alike w.s (w.paid i) := by
  unfold View.paid View.paidAt
  refine ⟨fun x => ?_, fun _ => rfl, fun x => ?_, rfl⟩
  · unfold State.team?
    dsimp only
    split
    · exact (adjust_map _ _ _ _ _ (by intro _; rfl)).trans (adjust_map _ _ _ _ _ (by intro _; rfl))
    · exact adjust_map _ _ _ _ _ (by intro _; rfl)
  · unfold State.group?
    dsimp only
    split
    · exact (adjust_map _ _ _ _ _ (by intro _; rfl)).trans (adjust_map _ _ _ _ _ (by intro _; rfl))
    · exact adjust_map _ _ _ _ _ (by intro _; rfl)

theorem Alike.key {t u : State} (h : Alike t u) (x : Nat) :
    (t.team? x = none ∧ u.team? x = none) ∨ ∃ a b, t.team? x = some a ∧ u.team? x = some b ∧ b.grid = a.grid ∧ b.launch = a.launch ∧ b.tidx = a.tidx ∧ b.shape = a.shape := by
  have := h.team x
  cases h1 : t.team? x <;> cases h2 : u.team? x <;> rw [h1, h2] at this <;> simp at this ⊢
  exact this

theorem Alike.gkey {t u : State} (h : Alike t u) (x : Nat) :
    (t.grid? x = none ∧ u.grid? x = none) ∨ ∃ a b, t.grid? x = some a ∧ u.grid? x = some b ∧ b.nbh = a.nbh ∧ b.teams = a.teams := by
  have := h.grid x
  cases h1 : t.grid? x <;> cases h2 : u.grid? x <;> rw [h1, h2] at this <;> simp at this ⊢
  exact this

theorem Alike.shared {t u : State} (h : Alike t u) (e b : Nat) : sharedBarrier u e b = sharedBarrier t e b := by
  unfold sharedBarrier isNbh
  rcases h.key e with ⟨h1, h2⟩ | ⟨x, y, h1, h2, h3, -⟩
  · rw [h1, h2]
  · rw [h1, h2, ]
    dsimp only
    rw [h3]
    rcases h.gkey x.grid with ⟨k1, k2⟩ | ⟨p, q, k1, k2, k3, -⟩
    · rw [k1, k2]
    · rw [k1, k2]
      dsimp only
      rw [k3]

theorem Alike.nbh {t u : State} (h : Alike t u) (e : Nat) : nbhTeams u e = nbhTeams t e := by
  unfold nbhTeams
  rcases h.key e with ⟨h1, h2⟩ | ⟨x, y, h1, h2, h3, -⟩
  · rw [h1, h2]
  · rw [h1, h2]
    dsimp only
    rw [h3]
    rcases h.gkey x.grid with ⟨k1, k2⟩ | ⟨p, q, k1, k2, k3, k4⟩
    · rw [k1, k2]
    · rw [k1, k2]
      dsimp only
      rw [k3, k4]

theorem Alike.live {t u : State} (h : Alike t u) (e b : Nat) : liveGroups u e b = liveGroups t e b := by
  unfold liveGroups
  rw [h.shared, h.nbh]
  have h1 : (u.teamGroups ·) = (t.teamGroups ·) := by
    funext x
    unfold State.teamGroups
    rcases h.key x with ⟨h1, h2⟩ | ⟨x, y, h1, h2, -, -, -, h3⟩
    · rw [h1, h2]
    · rw [h1, h2]
      dsimp only
      rw [h3]
  refine (congrArg (fun f => List.filter _ (List.flatMap f _)) h1).trans (List.filter_congr fun g _ => ?_)
  have := h.group g
  cases a : t.group? g <;> cases b : u.group? g <;> rw [a, b] at this <;> simp at this ⊢
  exact this

theorem setBarrier_gives {w : View} {b : Nat} {x : Barrier} {t : State} (hw : w.s = z) (ht : z.team? w.eid = some w.t) (a : Alike z t) :
    Gives (z := z) (setBarrier w.eid b x) t () (barrierPut w b x t) := by
  subst hw
  rcases a.key w.eid with ⟨h1, -⟩ | ⟨x', y, h1, h2, h3, -⟩
  · rw [h1] at ht; cases ht
  · rw [ht] at h1
    cases h1
    refine (Gives.get t).bind ((Gives.getTeam h2).bind ?_)
    unfold barrierPut
    rw [a.shared, h3]
    split
    · exact Gives.mod _ _ _
    · exact Gives.modTeam _ _ _

theorem barrierOf_put {w : View} {b : Nat} {x : Barrier} {t : State} (ht : w.s.team? w.eid = some w.t) (a : Alike w.s t)
    (hg : sharedBarrier w.s w.eid b = true → (t.grid? w.t.grid).isSome) : barrierOf (barrierPut w b x t) w.eid b = x := by
  have a2 := a.trans (Alike.barrierPut w b x t)
  rcases a.key w.eid with ⟨h1, -⟩ | ⟨x', y, h1, h2, h3, -⟩
  · rw [h1] at ht; cases ht
  rcases a2.key w.eid with ⟨h1', -⟩ | ⟨x'', y', h1', h2', h3', -⟩
  · rw [h1'] at ht; cases ht
  rw [ht] at h1 h1'
  cases h1
  cases h1'
  unfold barrierOf
  rw [h2']
  dsimp only
  rw [a2.shared, h3']
  unfold barrierPut at h2' ⊢
  cases hs : sharedBarrier w.s w.eid b
  · rw [hs] at h2'
    simp only [Bool.false_eq_true, if_false] at h2' ⊢
    have : SMap.get? (SMap.adjust t.teams w.eid fun tm => { tm with barriers := SMap.put tm.barriers b x }) w.eid = some y' := h2'
    rw [SMap.get?_adjust_self] at this
    have h2'' : SMap.get? t.teams w.eid = some y := h2
    rw [h2''] at this
    cases this
    dsimp only
    rw [SMap.get?_put_self]
    rfl
  · simp only [if_true]
    have hg' := hg hs
    cases hgd : t.grid? w.t.grid with
    | none => rw [hgd] at hg'; cases hg'
    | some gd =>
    have : ({ t with grids := SMap.adjust t.grids w.t.grid fun gd => { gd with barrier0 := x } } : State).grid? w.t.grid = some { gd with barrier0 := x } := by
      unfold State.grid? at hgd ⊢
      refine (SMap.get?_adjust_self _ _ _).trans ?_
      rw [hgd]
      rfl
    rw [this]

theorem shared_grid {s : State} {e b : Nat} {tm : Team} (ht : s.team? e = some tm) (h : sharedBarrier s e b = true) : ∃ gd, s.grid? tm.grid = some gd := by
  unfold sharedBarrier isNbh at h
  rw [ht] at h
  dsimp only at h
  cases hg : s.grid? tm.grid with
  | none => rw [hg] at h; simp at h
  | some gd => exact ⟨gd, rfl⟩

theorem enterSet_gives {w : View} {b c : Nat} {red : Option (RedKind × W32)} {held : Option (Option Nat)} {t : State} {gr : Group}
    (hw : w.s = z) (ht : z.team? w.eid = some w.t) (a : Alike z t) (hb : barrierOf t w.eid b = barrierOf z w.eid b)
    (hg : t.group? w.g = some gr) (he : gr.exm = w.gr.exm) (hr : gr.release w.g = w.gr.release w.g) :
    Gives (z := z) (enterSet w.g b c red held) t () (barrierPut w b (arrivedAt w b c red held) t) := by
  subst hw
  refine (Gives.get t).bind ?_
  have hp : barPosition t b w.g = barPosition w.s b w.g := by
    unfold barPosition
    rcases a.key (groupTeam w.g) with ⟨h1, h2⟩ | ⟨x, y, h1, h2, -, -, h3, -⟩
    · rw [h1, h2]
    · rw [h1, h2]
      dsimp only
      rw [a.shared, h3]
  have : groupTeam w.g = w.eid := rfl
  rw [this, hb]
  rw [hp, hg]
  refine Gives.as (setBarrier_gives rfl ht a) (congrArg (fun x => barrierPut w b x t) ?_)
  unfold arrivedAt
  dsimp only
  rw [hr]
  rcases red with _ | ⟨k, v⟩
  · rfl
  · have h2 : ((some gr).any fun gr => gr.exm != 0) = (w.gr.exm != 0) := by rw [← he]; rfl
    first | (rw [h2]; done) | (rw [h2]; rfl)

/-- The holds of the groups after a phase is released. -/
theorem release_fold (x : Barrier) (r : W32) (scope : Nat) (held : List (Nat × Option Nat)) : ∀ t : State,
    let u := held.foldl (fun t h =>
      ordered h.1 x.clock (acquired h.1 scope { t with groups := SMap.adjust t.groups h.1 fun gr =>
        let gr := { gr with hold := some .released }
        match h.2, x.red with
        | some d, some k => gr.setS d (k.extend r)
        | _, _ => gr })) t
    Alike t u ∧ u.grids = t.grids ∧ ∀ g gr, u.group? g = some gr → gr.hold = some .released ∨
      (g ∉ held.map (·.1) ∧ ∃ gr0, t.group? g = some gr0 ∧ gr.hold = gr0.hold) := by
  induction held with
  | nil => intro t; exact ⟨Alike.refl _, rfl, fun g gr h => Or.inr ⟨by simp, gr, h, rfl⟩⟩
  | cons h held ih =>
    intro t
    obtain ⟨h1, h2, h3⟩ := ih (ordered h.1 x.clock (acquired h.1 scope { t with groups := SMap.adjust t.groups h.1 fun gr =>
        let gr := { gr with hold := some .released }
        match h.2, x.red with
        | some d, some k => gr.setS d (k.extend r)
        | _, _ => gr }))
    refine ⟨Alike.trans (Alike.trans (Alike.trans (Alike.group_ h.1 _ ?_) (Alike.acquired _ _ _)) (Alike.ordered _ _ _)) h1, h2, fun g gr hg => ?_⟩
    · intro gr
      dsimp only
      split <;> rfl
    · rcases h3 g gr hg with k | ⟨k1, gr0, k2, k3⟩
      · exact Or.inl k
      · have e : SMap.get? (SMap.adjust (SMap.adjust (SMap.adjust t.groups h.1 fun gr =>
          let gr := { gr with hold := some .released }
          match h.2, x.red with
          | some d, some k => gr.setS d (k.extend r)
          | _, _ => gr) h.1 fun gr => { gr with mu := t.home.now }) h.1 fun gr => gr.follow gr.nextId x.clock) g = some gr0 := k2
        by_cases q : h.1 = g
        · subst q
          rw [SMap.adjust_adjust, SMap.adjust_adjust, SMap.get?_adjust_self] at e
          cases hh : SMap.get? t.groups h.1 with
          | none => rw [hh] at e; cases e
          | some g1 =>
            rw [hh] at e
            left
            rw [k3]
            cases e
            rw [Group.follow_hold]
            dsimp only
            split <;> rfl
        · rw [SMap.get?_adjust_ne _ _ q, SMap.get?_adjust_ne _ _ q, SMap.get?_adjust_ne _ _ q] at e
          exact Or.inr ⟨by simp only [List.map_cons, List.mem_cons, not_or]; exact ⟨fun h => q h.symm, k1⟩, gr0, e, k3⟩

theorem journalTeam_off {e p ty sq ob : Nat} {st : Bool} {t : State} {tm : Team} {l : Launch} (ht : t.team? e = some tm)
    (hl : t.launch? tm.launch = some l) (hj : l.journal = 0) : Gives (z := z) (journalTeam e p ty sq ob st) t () t := by
  refine (Gives.getTeam ht).bind (Gives.bind (a := none) (u := t) ?_ (Gives.pure _ _))
  refine (Gives.getLaunch hl).bind ?_
  rw [hj]
  exact Gives.pure _ _

theorem release_gives {w : View} {b : Nat} {x : Barrier} {t : State} (hw : w.s = z) (ht : z.team? w.eid = some w.t) (a : Alike z t)
    (hb : barrierOf t w.eid b = x)
    (hj : ∃ o l, z.team? (if sharedBarrier z w.eid b then (nbhTeams z w.eid).headD w.eid else w.eid) = some o ∧
      z.launch? o.launch = some l ∧ l.journal = 0) :
    Gives (z := z) (releasePhase w.eid b) t () (phaseReleased w b x t) := by
  subst hw
  obtain ⟨o, l, h1, h2, h3⟩ := hj
  refine (Gives.get t).bind ?_
  simp only [a.shared, a.nbh, hb]
  rcases a.key (if sharedBarrier w.s w.eid b then (nbhTeams w.s w.eid).headD w.eid else w.eid) with ⟨k1, -⟩ | ⟨p, q, k1, k2, -, k4, -⟩
  · rw [k1] at h1; cases h1
  rw [h1] at k1
  cases k1
  have h2' : t.launch? q.launch = some l := by unfold State.launch? at h2 ⊢; rw [a.launch, k4]; exact h2
  refine (journalTeam_off k2 h2' h3).bind ?_
  refine (forEach_gives (F := fun t h =>
      ordered h.1 x.clock (acquired h.1 (if sharedBarrier w.s w.eid b then 2 else 1)
        { t with groups := SMap.adjust t.groups h.1 fun gr =>
          let gr := { gr with hold := some .released }
          match h.2, x.red with
          | some d, some k => gr.setS d (k.extend (match x.red with | some k => redResult k x.contrib | none => 0))
          | _, _ => gr })) (fun t h => (Gives.modGroup _ _ _).bind ((acquire_gives _ _ _).bind (orderAfter_gives _ _ _))) x.held t).bind ?_
  exact setBarrier_gives rfl ht (a.trans (release_fold x _ _ x.held t).1)

theorem arrive_part {w : View} {b c : Nat} {red : Option (RedKind × W32)} {held : Option (Option Nat)} {t : State} {gr : Group}
    (hw : w.s = z) (ht : z.team? w.eid = some w.t) (a : Alike z t) (hb : barrierOf t w.eid b = barrierOf z w.eid b)
    (hgd : t.grids = z.grids)
    (hg : t.group? w.g = some gr) (he : gr.exm = w.gr.exm) (hr : gr.release w.g = w.gr.release w.g) (hf : ¬Full w b (arrivedAt w b c red held)) :
    Gives (z := z) (arrive w.g b c red held) t () (barrierPut w b (arrivedAt w b c red held) t) := by
  refine (enterSet_gives hw ht a hb hg he hr).bind ((Gives.get _).bind ?_)
  subst hw
  have a2 := a.trans (Alike.barrierPut w b (arrivedAt w b c red held) t)
  rw [Nat.add_comm]
  refine (Gives.get _).bind ?_
  have hq : barrierOf (barrierPut w b (arrivedAt w b c red held) t) w.eid b = arrivedAt w b c red held := by
    cases hs : sharedBarrier w.s w.eid b
    · exact barrierOf_put ht a (by rw [hs]; intro h; cases h)
    · obtain ⟨gd, hgd'⟩ := shared_grid ht hs
      exact barrierOf_put ht a (fun _ => by unfold State.grid? at hgd' ⊢; rw [hgd, hgd']; rfl)
  have hp : phaseFull (barrierPut w b (arrivedAt w b c red held) t) (groupTeam w.g) b = false := by
    have e : groupTeam w.g = w.eid := rfl
    unfold phaseFull
    rw [e, hq, a2.live]
    unfold Full at hf
    cases h : (!(arrivedAt w b c red held).arrived.isEmpty)
    · dsimp only
      rw [h]
      rfl
    · simp only [Bool.and_eq_false_iff, beq_eq_false_iff_ne]
      exact Or.inr hf
  rw [hp]
  exact Gives.pure _ _

/-- No group waits to arrive again at `b`. -/
def NoRearrive (b : Nat) (t : State) : Prop := ∀ g gr c p r sy, t.group? g = some gr → gr.hold ≠ some (.rearrive b c p r sy)

theorem again_gives {b g : Nat} {t : State} {gr : Group} (h : NoRearrive b t) (hg : t.group? g = some gr) :
    Gives (z := z) (enterAgain g b) t () t := by
  refine (Gives.getGroup hg).bind ?_
  have := h g gr
  rcases hh : gr.hold with _ | x
  · exact Gives.pure _ _
  · cases x
    case rearrive b' c p r sy =>
      have ne : b' ≠ b := by
        intro e
        subst e
        exact this c p r sy hg hh
      dsimp only
      rw [if_neg ne]
      exact Gives.pure _ _
    all_goals exact Gives.pure _ _

theorem forEach_id {α : Type} {f : α → M z Unit} {t : State} (xs : List α) (h : ∀ x ∈ xs, Gives (f x) t () t) : Gives (forEach xs f) t () t := by
  induction xs with
  | nil => exact Gives.pure _ _
  | cons x xs ih => exact (h x List.mem_cons_self).bind (ih fun y hy => h y (List.mem_cons_of_mem _ hy))

theorem arrive_full {w : View} {b c : Nat} {red : Option (RedKind × W32)} {held : Option (Option Nat)} {t : State} {gr : Group}
    (hw : w.s = z) (ht : z.team? w.eid = some w.t) (a : Alike z t) (hb : barrierOf t w.eid b = barrierOf z w.eid b)
    (hgd : t.grids = z.grids)
    (hg : t.group? w.g = some gr) (he : gr.exm = w.gr.exm) (hr : gr.release w.g = w.gr.release w.g) (hf : Full w b (arrivedAt w b c red held)) (fp : FreshPhase w b)
    (hn : NoRearrive b t) :
    Gives (z := z) (arrive w.g b c red held) t ()
      (phaseReleased w b (arrivedAt w b c red held) (barrierPut w b (arrivedAt w b c red held) t)) := by
  refine (enterSet_gives hw ht a hb hg he hr).bind ((Gives.get _).bind ?_)
  subst hw
  generalize hx : arrivedAt w b c red held = x at *
  have a2 := a.trans (Alike.barrierPut w b x t)
  have hgp : (barrierPut w b x t).groups = t.groups := by unfold barrierPut; split <;> rfl
  have hq : barrierOf (barrierPut w b x t) w.eid b = x := by
    cases hs : sharedBarrier w.s w.eid b
    · exact barrierOf_put ht a (by rw [hs]; intro h; cases h)
    · obtain ⟨gd, hgd'⟩ := shared_grid ht hs
      exact barrierOf_put ht a (fun _ => by unfold State.grid? at hgd' ⊢; rw [hgd, hgd']; rfl)
  have e : groupTeam w.g = w.eid := rfl
  have hp : phaseFull (barrierPut w b x t) w.eid b = true := by
    unfold phaseFull
    rw [hq, a2.live]
    unfold Full at hf
    have : x.arrived.isEmpty = false := by
      rw [← hx]
      unfold arrivedAt
      rcases red with _ | ⟨k, v⟩ <;> simp
    simp [this, hf]
  rw [e, Nat.add_comm]
  refine (Gives.get _).bind ?_
  rw [hp]
  simp only [if_true]
  refine (release_gives rfl ht a2 hq fp.1).bind ?_
  obtain ⟨f1, f2, f3⟩ := release_fold x (match x.red with | some k => redResult k x.contrib | none => 0)
    (if sharedBarrier w.s w.eid b then 2 else 1) x.held (barrierPut w b x t)
  have a3 := a2.trans (f1.trans (Alike.barrierPut w b { phase := x.phase + 1, lastResult := (match x.red with | some k => redResult k x.contrib | none => 0) } _))
  have hgr : ∀ g gr, (phaseReleased w b x (barrierPut w b x t)).group? g = some gr → gr.hold = some .released ∨
      ∃ gr0, t.group? g = some gr0 ∧ gr.hold = gr0.hold := by
    intro g gr h
    have h' : ∀ y (u : State), (barrierPut w b y u).group? g = u.group? g := by
      intro y u
      unfold barrierPut
      split <;> rfl
    have := f3 g gr ((h' _ _).symm.trans h)
    rcases this with k | ⟨-, gr0, k, k2⟩
    · exact Or.inl k
    · rw [h'] at k
      exact Or.inr ⟨gr0, k, k2⟩
  have hn2 : NoRearrive b (phaseReleased w b x (barrierPut w b x t)) := by
    intro g gr c p r sy hg' hh
    rcases hgr g gr hg' with k | ⟨gr0, k, k2⟩
    · rw [k] at hh; cases hh
    · exact hn g gr0 c p r sy k (k2 ▸ hh)
  refine (Gives.get _).bind ?_
  refine (forEach_id _ fun g hg' => ?_).bind ?_
  · have : ∃ gr, (phaseReleased w b x (barrierPut w b x t)).group? g = some gr := by
      have := (List.mem_filter.1 hg').2
      split at this
      · next gr h => exact ⟨gr, h⟩
      · cases this
    obtain ⟨gr, h⟩ := this
    exact again_gives hn2 h
  · generalize hlen : (liveGroups (barrierPut w b x t) w.eid b).length = n
    cases n with
    | zero => exact Gives.pure _ _
    | succ n =>
      refine (Gives.get _).bind ?_
      have hp2 : phaseFull (phaseReleased w b x (barrierPut w b x t)) w.eid b = false := by
        have : barrierOf (phaseReleased w b x (barrierPut w b x t)) w.eid b = { phase := x.phase + 1, lastResult := (match x.red with | some k => redResult k x.contrib | none => 0) } := by
          cases hs : sharedBarrier w.s w.eid b
          · exact barrierOf_put ht (a2.trans f1) (by rw [hs]; intro h; cases h)
          · obtain ⟨gd, hgd'⟩ := shared_grid ht hs
            have hgk := (a2.trans f1).gkey w.t.grid
            rcases hgk with ⟨k1, -⟩ | ⟨p, q, k1, k2, -⟩
            · rw [k1] at hgd'; cases hgd'
            · exact barrierOf_put ht (a2.trans f1) (fun _ => (congrArg Option.isSome k2).trans rfl)
        unfold phaseFull
        rw [this]
        rfl
      rw [hp2]
      exact Gives.pure _ _

theorem put_group (w : View) (b : Nat) (x : Barrier) (u : State) (g : Nat) : (barrierPut w b x u).group? g = u.group? g := by
  unfold barrierPut
  split <;> rfl

/-- The hold of the arriving group after its phase is released. -/
theorem released_hold {w : View} {b : Nat} {x y : Barrier} {t : State} {gr : Group}
    (hg : (phaseReleased w b x (barrierPut w b y t)).group? w.g = some gr)
    (h : w.g ∈ x.held.map (·.1) ∨ ∃ gr0, t.group? w.g = some gr0 ∧ gr0.hold = none) : gr.hold = some .released ∨ gr.hold = none := by
  obtain ⟨-, -, f3⟩ := release_fold x (match x.red with | some k => redResult k x.contrib | none => 0)
    (if sharedBarrier w.s w.eid b then 2 else 1) x.held (barrierPut w b y t)
  rcases f3 w.g gr ((put_group w b _ _ w.g).symm.trans hg) with k | ⟨k, gr0, k2, k3⟩
  · exact Or.inl k
  · rcases h with h | ⟨g1, h1, h2⟩
    · exact absurd h k
    · rw [put_group, h1] at k2
      cases k2
      exact Or.inr (k3.trans h2)

end Sys2Proof.Machine
end

