-- ==== Sys2Proof/Laws/Tasks.lean ====
section
/-! SUPPORT. What spawns, queues and their records leave. -/

namespace Sys2Proof.Machine

variable {z : State}

theorem sweep_gives (t : State) : Gives (z := z) sweep t () (swept t) := by
  refine (Gives.get t).bind ?_
  refine forEach_gives (F := fun s (p : Nat × Grid) =>
    if !p.2.kept && p.2.teams.all (fun e => (s.teamGroups e).all fun g =>
        match s.group? g with
        | some gr => gr.outbox.isEmpty
        | none => true) then
      { s with
        groups := p.2.teams.foldl (fun m e => (s.teamGroups e).foldl SMap.del m) s.groups
        teams := p.2.teams.foldl SMap.del s.teams
        grids := SMap.del s.grids p.1 }
    else s) (fun s p => ?_) t.grids t
  obtain ⟨gid, gd⟩ := p
  refine (Gives.get s).bind ?_
  dsimp only
  split
  · next h => first | exact Gives.mod _ _ _ | exact (Gives.mod _ _ _).as (by rw [if_pos]; exact h)
  · next h => first | exact Gives.pure _ _ | exact (Gives.pure _ _).as (by rw [if_neg]; exact h)

theorem foldl_teams {α : Type} (f : SMap Team → α → SMap Team) (ps : List α) : ∀ t : State,
    ps.foldl (fun (t : State) p => { t with teams := f t.teams p }) t = { t with teams := ps.foldl f t.teams } := by
  induction ps with
  | nil => intro t; rfl
  | cons p ps ih => intro t; exact ih _

theorem createGrid_gives {w : View} {d : SpawnDesc} {tag0 : Nat} {tickets : List LaneAcc} {t : State} {al : W64} {ch : Nat} {sp : DebugStop}
    (ht : t.team? w.eid = some { w.t with al := al, charged := ch, stop := sp }) :
    ∃ gid, Gives (z := z) (createGrid w.t.ctx w.t.launch (some w.eid) d tag0 tickets (w.gr.release w.g)) t gid (gridCreated w d tag0 tickets t) := by
  refine ⟨t.fresh, ?_⟩
  refine freshThen ?_
  refine (Gives.get _).bind ?_
  have hx : ({ t with fresh := t.fresh + 1 } : State).team? w.eid = some { w.t with al := al, charged := ch, stop := sp } := ht
  dsimp only
  split
  case h_2 e => exact absurd (hx.symm.trans e) (by simp)
  case h_1 tm' e =>
  cases Option.some.inj (hx.symm.trans e)
  refine (forEach_gives (F := fun (t' : State) (p : Nat × Nat) => { t' with teams := SMap.put t'.teams p.1 (
      { ctx := w.t.ctx, tag := tag0 + p.2, ptag := w.t.tag, parent := some w.eid, grid := t.fresh, launch := w.t.launch
        tidx := p.2, shape := d.shape, wait := d.depw
        al := BitVec.ofNat 64 (d.grant / d.teams + if p.2 = 0 then d.grant % d.teams else 0)
        share := BitVec.ofNat 64 (d.grant / d.teams + if p.2 = 0 then d.grant % d.teams else 0) } : Team) })
    (by intro t' p; obtain ⟨e, i⟩ := p; exact Gives.mod _ _ _) _ _).bind ?_
  refine Gives.bind (Gives.mod _ (by exact ⟨fun _ => rfl, fun _ => rfl⟩) _) ((Gives.modTeam _ _ _).bind ?_)
  refine Gives.as (Gives.pure _ _) ?_
  have := foldl_teams (fun m (p : Nat × Nat) => SMap.put m p.1 (
      { ctx := w.t.ctx, tag := tag0 + p.2, ptag := w.t.tag, parent := some w.eid, grid := t.fresh, launch := w.t.launch
        tidx := p.2, shape := d.shape, wait := d.depw
        al := BitVec.ofNat 64 (d.grant / d.teams + if p.2 = 0 then d.grant % d.teams else 0)
        share := BitVec.ofNat 64 (d.grant / d.teams + if p.2 = 0 then d.grant % d.teams else 0) } : Team))
    ((freeEntries t).take d.teams).zipIdx { t with fresh := t.fresh + 1 }
  unfold gridCreated
  exact congrArg (fun u : State => ({ u with grids := SMap.put u.grids t.fresh _, teams := SMap.adjust u.teams w.eid fun q =>
      { q with children := q.children ++ [t.fresh], spawned := true, spawnsInPhase := q.spawnsInPhase + 1 } } : State)) this

theorem staged_team_eq {s u : State} {w : View} {j : Info} (hw : view s = some w) (f : Firm s u) (k : Group → Group) :
    ∃ al ch sp, (w.paidAt j (w.onGroup k u)).team? w.eid = some { w.t with al := al, charged := ch, stop := sp } := by
  obtain ⟨h1, -, -, h4, -⟩ := view_cases hw
  have h4' : SMap.get? u.teams w.eid = some w.t := by rw [f.teams]; exact h4
  unfold View.paidAt View.onGroup State.team?
  dsimp only
  rcases hst : w.t.stop with _ | _ | _ | k <;>
    simp only [SMap.get?_adjust_self, h4', Option.map_some] <;>
    exact ⟨_, _, _, rfl⟩

theorem spawnTickets_firm (w : View) : ∀ as, Leaves Firm (spawnTickets w as : M z (Pre (Option (List LaneAcc))))
  | [] => Leaves.pure firm_order _
  | a :: as => by
    refine (issueXlate_firm _ _ _).bind firm_order fun r => ?_
    split
    · exact Leaves.pure firm_order _
    · exact Leaves.pure firm_order _
    · refine (Leaves.get firm_order).bind firm_order fun s => (Leaves.guard firm_order _).bind firm_order fun _ => ?_
      split
      · exact Leaves.pure firm_order _
      · exact preBind_leaves firm_order (spawnTickets_firm w as) fun _ => Leaves.pure firm_order _

theorem planSpawn_firm {s u : State} {w : View} {off : Nat} {p : Pre SpawnPlan} (hw : view s = some w) (hj : NoJournal w)
    (h : Gives (z := s) (planSpawn w off) s p u) : Firm s u := by
  obtain ⟨l, hl, j⟩ := hj
  rw [(view_cases hw).1] at hl
  obtain ⟨q, e⟩ := h .refl
  unfold planSpawn at e
  dsimp only at e
  rw [bind_run (show getLaunch w.t.launch (⟨s, .refl⟩ : Run s) = .ok (l, ⟨s, .refl⟩) by
    simp only [getLaunch, getS, hl, need, Bind.bind, StateT.bind, Except.bind]; rfl)] at e
  have key : ∀ (m : M s (Pre SpawnPlan)), Leaves Firm m → m ⟨s, .refl⟩ = .ok (p, ⟨u, q⟩) → Firm s u := fun m hm e => hm _ _ _ e
  refine key _ ?_ e
  have h2 : l.journal ≠ 2 := by rw [j]; decide
  split
  · exact Leaves.pure firm_order _
  · split
    · exact Leaves.pure firm_order _
    · refine preBind_leaves firm_order (spawnTickets_firm _ _) fun ts => ?_
      split
      · exact Leaves.pure firm_order _
      · refine (Leaves.get firm_order).bind firm_order fun s => (Leaves.guard firm_order _).bind firm_order fun _ => ?_
        exact (Leaves.get firm_order).bind firm_order fun s => (Leaves.need firm_order _).bind firm_order fun _ => Leaves.pure firm_order _

theorem Gives.pos {α : Type} {c : Prop} [Decidable c] {a b : M z α} {t u : State} {x : α} (h : c) (g : Gives a t x u) :
    Gives (if c then a else b) t x u := by rw [if_pos h]; exact g

theorem Gives.neg {α : Type} {c : Prop} [Decidable c] {a b : M z α} {t u : State} {x : α} (h : ¬c) (g : Gives b t x u) :
    Gives (if c then a else b) t x u := by rw [if_neg h]; exact g

theorem answered_gives {w : View} {x : BitVec 6} {v : Nat} {t : State} :
    Gives (z := z) (do modGroup w.g fun gr => gr.setS x.toNat (BitVec.ofNat 64 v); pure Flow.seq) t .seq
      (w.onGroup (fun gr => gr.setS x.toNat (BitVec.ofNat 64 v)) t) := Gives.modThen _ _ _ _

theorem nodePut_gives {ctx nq : Nat} {f : NodeQueue → NodeQueue} {t : State} : Gives (z := z) (modNode ctx nq f) t () (nodePut ctx nq f t) := by
  unfold modNode modCtx
  exact Gives.mod _ _ _

theorem sysXlate_firm (ctx : Nat) (c : CtxRec) (kind : Nat) (va : W64) (own : Bool) : Leaves Firm (sysXlate ctx c kind va own : M z (Except Nat LaneAcc)) := by
  unfold sysXlate
  refine Leaves.ite (Leaves.pure firm_order _) ((Leaves.get firm_order).bind firm_order fun s => ?_)
  dsimp only
  split
  · exact (modTable_firm _ _).bind firm_order fun _ => Leaves.pure firm_order _
  split
  · exact Leaves.stay
  · exact Leaves.ite (Leaves.pure firm_order _) (Leaves.stop _)
  · exact Leaves.pure firm_order _
  · split
    · exact Leaves.pure firm_order _
    · split
      · exact Leaves.ite (Leaves.stop _) (Leaves.pure firm_order _)
      · exact ((setAD_still _ _).mono fun _ _ => Still.firm).bind firm_order fun _ => Leaves.pure firm_order _

theorem nodeSlot_firm (ctx : Nat) (q : NodeQueue) (c kind : Nat) : Leaves Firm (nodeSlot ctx q c kind : M z LaneAcc) := by
  refine (sysXlate_firm _ _ _ _ _).bind firm_order fun r => ?_
  split
  · exact Leaves.stay
  · exact Leaves.pure firm_order _

/-! Records -/

theorem sysLoad_gives {a : LaneAcc} {n : Nat} {t : State} (h : sysWaits t a = false) :
    Gives (z := z) (sysLoad a n) t (memBytes t a.pa n) t := by
  refine (Gives.get t).bind ((Gives.guard ?_ t).bind (Gives.pure _ _))
  rw [h]; rfl

theorem sysStore_gives {a : LaneAcc} {bs : List Byte} {t : State} (h : sysWaits t a = false) (r : Room t a.pa bs.length) :
    Gives (z := z) (sysStore a bs) t () (written sysParty a.pa bs t) := by
  refine (Gives.get t).bind ((Gives.guard ?_ t).bind (hsWrite_gives r (sys_clean _ _ _ _)))
  rw [h]; rfl

theorem memBytes_append (t : State) (pa m n : Nat) : memBytes t pa (m + n) = memBytes t pa m ++ memBytes t (pa + m) n := by
  induction m generalizing pa with
  | zero => simp [memBytes]
  | succ m ih =>
    rw [show m + 1 + n = (m + n) + 1 by omega, show pa + (m + 1) = (pa + 1) + m by omega]
    simp only [memBytes, List.cons_append, ih]

theorem memBytes_take (t : State) (pa m n : Nat) (h : m ≤ n) : (memBytes t pa n).take m = memBytes t pa m := by
  obtain ⟨k, rfl⟩ := Nat.exists_eq_add_of_le h
  rw [memBytes_append]
  have := memBytes_length t pa m
  exact (List.take_append_of_le_length (by omega)).trans (List.take_of_length_le (by omega))

/-- The record of 256 bytes that a node queue's slot holds (R286, R289). -/
theorem loadRecord_gives {a : LaneAcc} {t : State} (h : ∀ i, i < 4 → sysWaits t (a.line i) = false) :
    Gives (z := z) (loadRecord a) t (memBytes t a.pa 256) t := by
  have g (i : Nat) (hi : i < 4) : Gives (z := z) (sysLoad (a.line i) 64) t (memBytes t (a.pa + 64 * i) 64) t := sysLoad_gives (h i hi)
  refine Gives.bind ((g 0 (by omega)).bind (Gives.bind ((g 1 (by omega)).bind (Gives.bind ((g 2 (by omega)).bind
    (Gives.bind ((g 3 (by omega)).bind (Gives.bind (Gives.pure _ _) (Gives.pure _ _))) (Gives.pure _ _))) (Gives.pure _ _))) (Gives.pure _ _))) ?_
  have e : memBytes t a.pa 256 = [memBytes t (a.pa + 64 * 0) 64, memBytes t (a.pa + 64 * 1) 64, memBytes t (a.pa + 64 * 2) 64,
      memBytes t (a.pa + 64 * 3) 64].flatten := by
    simp only [List.flatten_cons, List.flatten_nil, List.append_nil, Nat.mul_zero, Nat.add_zero]
    rw [show (256 : Nat) = 64 + (64 + (64 + 64)) from rfl, memBytes_append, memBytes_append, memBytes_append]
  rw [e]
  exact Gives.pure _ _

/-- The first `k` lines of a record are in the slot. -/
def linesPut (a : LaneAcc) (bs : List Byte) (k : Nat) (t : State) : State :=
  (List.range k).foldl (fun t i => written sysParty (a.pa + 64 * i) ((bs.drop (64 * i)).take 64) t) t

theorem linesPut_succ (a : LaneAcc) (bs : List Byte) (k : Nat) (t : State) :
    linesPut a bs (k + 1) t = written sysParty (a.pa + 64 * k) ((bs.drop (64 * k)).take 64) (linesPut a bs k t) := by
  unfold linesPut
  rw [List.range_succ, List.foldl_append]
  rfl

theorem storeRecord_gives {a : LaneAcc} {bs : List Byte} {t : State} (l : bs.length = 256)
    (h : ∀ i, i < 4 → sysWaits (linesPut a bs i t) (a.line i) = false ∧ Room (linesPut a bs i t) (a.pa + 64 * i) 64) :
    Gives (z := z) (storeRecord a bs) t () (linesPut a bs 4 t) := by
  have g (i : Nat) (hi : i < 4) : Gives (z := z) (sysStore (a.line i) ((bs.drop (64 * i)).take 64)) (linesPut a bs i t) ()
      (linesPut a bs (i + 1) t) := by
    rw [linesPut_succ]
    have e : ((bs.drop (64 * i)).take 64).length = 64 := by simp only [List.length_take, List.length_drop]; omega
    exact sysStore_gives (h i hi).1 (by rw [e]; exact (h i hi).2)
  exact (g 0 (by omega)).bind ((g 1 (by omega)).bind ((g 2 (by omega)).bind ((g 3 (by omega)).bind (Gives.pure _ _))))

theorem spBytes_length (t : Team) (off n : Nat) : (spBytes t off n).length = n := by
  simp [spBytes]

theorem marked_poison (w : Who) (base n : Nat) (t : State) : (markedAt w base n t).home.poison = t.home.poison := by
  rfl

theorem freeBytes_gives (l : List Nat) : ∀ t : State,
    Gives (z := z) (mapEach l fun _ => freeByte) t ((List.range l.length).map fun i => Config.freeByte (t.free + i))
      { t with free := t.free + l.length } := by
  induction l with
  | nil => intro t; exact Gives.pure _ _
  | cons x l ih =>
    intro t
    refine Gives.bind (a := Config.freeByte t.free) (u := { t with free := t.free + 1 })
      ((Gives.get t).bind ((Gives.mod _ _ t).bind (Gives.pure _ _))) ((ih _).bind ?_)
    rw [List.length_cons, List.range_succ_eq_map, List.map_cons, List.map_map]
    have e : (Config.freeByte ∘ fun i => ({ t with free := t.free + 1 } : State).free + i) =
        ((fun i => Config.freeByte (t.free + i)) ∘ Nat.succ) := by funext i; simp only [Function.comp_apply]; congr 1; omega
    rw [show t.free + (l.length + 1) = t.free + 1 + l.length by omega]
    have e' : (List.range l.length).map (fun i => Config.freeByte (({ t with free := t.free + 1 } : State).free + i)) =
        (List.range l.length).map ((fun i => Config.freeByte (t.free + i)) ∘ Nat.succ) := congrArg (fun f => (List.range l.length).map f) e
    rw [e']
    exact Gives.pure _ _

theorem paid_path {s : State} {w : View} {i : Info} (hw : view s = some w) : Nonempty (Path s (w.paid i)) := by
  have hp : Gives (z := s) (do chargeUnit w i (w.cost i); afterUnit w) s () (w.paid i) := paid_gives (view_cases hw).1
  obtain ⟨p, -⟩ := hp .refl
  exact ⟨p⟩

theorem journalQueue_off {w : View} {i : Info} {u : State} {nq len : Nat} {pop : Bool} (hw : view z = some w) (hj : NoJournal w)
    (f : Firm (w.paid i) u) : Gives (z := z) (journalQueue w.g nq len pop) u () u := by
  obtain ⟨l, t, hl, j0, ht, e⟩ := paid_journal (i := i) hw hj
  have hl' : u.launch? t.launch = some l := by unfold State.launch?; rw [f.launches, e]; exact hl
  have ht' : u.team? w.eid = some t := by unfold State.team?; rw [f.teams]; exact ht
  exact (journalGroup_off ht' hl' j0).bind (Gives.pure _ _)

/-- What spawnq does once its queue has room (R288). -/
theorem appended_gives {s u : State} {w : View} {i : Info} {q : NodeQueue} {a : LaneAcc} {nq len : Nat} {bs : List Byte} {x : BitVec 6}
    (hw : view s = some w) (hj : NoJournal w) (l : bs.length = len) (h : len ≤ 256)
    (hs : Gives (z := s) (nodeSlot w.t.ctx q (q.head + q.lens.length) Kind.write) (w.paid i) a u) :
    let record := bs ++ (List.range (256 - len)).map fun i => Config.freeByte (u.free + i)
    let v : State := { u with free := u.free + (256 - len) }
    (∀ i, i < 4 → sysWaits (linesPut a record i v) (a.line i) = false ∧ Room (linesPut a record i v) (a.pa + 64 * i) 64) →
    Gives (z := s) (do
      let a ← nodeSlot w.t.ctx q (q.head + q.lens.length) Kind.write
      journalQueue w.g nq len false
      let rest ← mapEach (List.range (256 - len)) fun _ => freeByte
      storeRecord a (bs ++ rest)
      modNode w.t.ctx nq fun q => { q with lens := q.lens ++ [len], clocks := q.clocks ++ [w.gr.release w.g] }
      modGroup w.g fun gr => gr.setS x.toNat (BitVec.ofNat 64 0)
      pure Flow.seq) (w.paid i) .seq
      (w.onGroup (fun gr => gr.setS x.toNat (BitVec.ofNat 64 0)) (nodePut w.t.ctx nq
        (fun q => { q with lens := q.lens ++ [len], clocks := q.clocks ++ [w.gr.release w.g] }) (linesPut a record 4 v))) := by
  intro record v hr
  have hf := nodeSlot_firm (z := s) w.t.ctx q (q.head + q.lens.length) Kind.write
  have f : Firm (w.paid i) u := by
    obtain ⟨p⟩ := paid_path (i := i) hw
    exact hs.leaves hf p
  have k := freeBytes_gives (z := s) (List.range (256 - len)) u
  rw [List.length_range] at k
  refine hs.bind ((journalQueue_off hw hj f).bind (k.bind ((storeRecord_gives ?_ hr).bind (nodePut_gives.bind answered_gives))))
  simp [record, l]
  omega

/-- What qpop does with the oldest record (R289). -/
theorem moved_gives {s u : State} {w : View} {i : Info} {q : NodeQueue} {a : LaneAcc} {nq len off : Nat} {lens : List Nat} {x : BitVec 6}
    (hw : view s = some w) (hj : NoJournal w) (h : len ≤ 256)
    (hs : Gives (z := s) (nodeSlot w.t.ctx q q.head Kind.read) (w.paid i) a u)
    (hr : ∀ i, i < 4 → sysWaits u (a.line i) = false) (hb : ∀ i, i < ceilDiv len 32 → sectorBad u.home (a.pa / 32 + i) = false) :
    Gives (z := s) (do
      let a ← nodeSlot w.t.ctx q q.head Kind.read
      journalQueue w.g nq len true
      let bytes ← loadRecord a
      spStore sysParty w.eid off (bytes.take len)
      forEach (List.range (ceilDiv len 32)) fun i => do
        if sectorBad (← getS).home (a.pa / 32 + i) then
          modTeam w.eid fun t => { t with spadPoison := addGranules t.spadPoison (off + 32 * i) (min 32 (len - 32 * i)) }
      modNode w.t.ctx nq fun q => { q with head := (q.head + 1) % 2 ^ 32, lens := lens, clocks := q.clocks.drop 1 }
      acquire w.g 3
      orderAfter w.g (q.clocks.headD [])
      modGroup w.g fun gr => gr.setS x.toNat (BitVec.ofNat 64 len)
      pure Flow.seq) (w.paid i) .seq
      (w.onGroup (fun gr => gr.setS x.toNat (BitVec.ofNat 64 len)) (ordered w.g (q.clocks.headD []) (acquired w.g 3
        (nodePut w.t.ctx nq (fun q' => { q' with head := (q'.head + 1) % 2 ^ 32, lens := lens, clocks := q'.clocks.drop 1 })
          (spWritten sysParty w.eid off (memBytes u a.pa len) u))))) := by
  have hf := nodeSlot_firm (z := s) w.t.ctx q q.head Kind.read
  have f : Firm (w.paid i) u := by
    obtain ⟨p⟩ := paid_path (i := i) hw
    exact hs.leaves hf p
  refine hs.bind ((journalQueue_off hw hj f).bind ((loadRecord_gives hr).bind ?_))
  rw [memBytes_take _ _ _ _ h]
  refine (spStore_gives (sys_clean _ _ _ _)).bind (Gives.bind (forEach_stay fun i hi => ?_) (nodePut_gives.bind
    ((acquire_gives _ _ _).bind ((orderAfter_gives _ _ _).bind answered_gives))))
  have e : sectorBad (spWritten sysParty w.eid off (memBytes u a.pa len) u).home (a.pa / 32 + i) = false := by
    rw [← hb i (List.mem_range.1 hi)]
    rfl
  refine (Gives.get _).bind ?_
  simp only [e, Bool.false_eq_true, if_false]
  exact Gives.pure _ _

end Sys2Proof.Machine
end

