-- ==== Sys2Proof/Laws/Traps.lean ====
section
/-! SUPPORT. What entry to the handler, overlays and currents leave. -/

namespace Sys2Proof.Machine

variable {z : State}

theorem trap_enters {w : View} {ds ms : List Detail} {t : State} {gr : Group} {tm : Team} {tpc : BitVec 15}
    (hg : t.group? w.g = some gr) (ht : t.team? w.eid = some tm) (hd : mergeDetails ds = ms) (hc : ∀ d ∈ ms, d.cause ≠ Cause.jnlDiv)
    (hw : (t.ctx tm.ctx).watched = false ∨ ∀ d ∈ ms, debugCause d = false)
    (hl' : tm.launch = w.t.launch) (ht' : tm.tag = w.t.tag) (hh : gr.inHandler = false) (hv : gr.trap.tvec.getLsbD 15 = true) (hl : gr.lcnt = 0) (hf : gr.fcnt = 0) :
    Gives (z := z) (takeTrap w.g ds tpc none) t () (w.onGroup (handlerEntered ms tpc) (w.letGo t)) := by
  unfold takeTrap
  dsimp only
  rw [hd]
  refine (Gives.getGroup hg).bind ((Gives.getTeam ht).bind ((Gives.get t).bind ?_))
  have hd' : Gives (z := z) (dropEvents w.g) { t with home := { t.home with locked := t.home.locked.filter (·.2 != w.g) } } () (w.letGo t) := by
    have e : Gives (z := z) (modLaunch tm.launch fun l => l.dropHolds tm.tag (groupIdx w.g))
        { t with home := { t.home with locked := t.home.locked.filter (·.2 != w.g) } } () (w.letGo t) := by
      rw [hl', ht']
      exact Gives.mod _ _ _
    unfold dropEvents
    exact Gives.bind (Gives.getTeam (by exact ht)) e
  refine Gives.bind (Gives.modHome _ _) (hd'.bind ?_)
  have h1 : (ms.any fun d => d.cause == Cause.jnlDiv) = false := by
    rw [List.any_eq_false]; intro d hd'; simpa using hc d hd'
  have h2 : (watched t tm && ms.any debugCause) = false := by
    rcases hw with h | h
    · unfold watched; rw [h]; rfl
    · rw [Bool.and_eq_false_iff]; right
      rw [List.any_eq_false]; intro d hd'; rw [h d hd']; simp
  rw [h1, h2, hh, hv, hl, hf]
  simp only [Bool.false_eq_true, if_false, Bool.not_true, Bool.or_false, Bool.and_true, if_true, decide_true]
  refine (Gives.modGroup _ _ _).bind ?_
  refine Gives.as (Gives.modGroup _ _ _) ?_
  exact congrArg (fun m => ({ w.letGo t with groups := m } : State)) ((SMap.adjust_adjust _ _ _ _).trans (SMap.adjust_congr hg rfl))

theorem wrap_trap {w : View} {ds : List Detail} {t : State} {gr : Group} {tm : Team} {tpc : BitVec 15}
    (hg : t.group? w.g = some gr) (ht : t.team? w.eid = some tm) (hd : mergeDetails ds = ds) (hc : ∀ d ∈ ds, d.cause ≠ Cause.jnlDiv)
    (hw : (t.ctx tm.ctx).watched = false ∨ ∀ d ∈ ds, debugCause d = false)
    (hl' : tm.launch = w.t.launch) (ht' : tm.tag = w.t.tag) (hh : gr.inHandler = false) (hv : gr.trap.tvec.getLsbD 15 = true) (hl : gr.lcnt = 0) (hf : gr.fcnt = 0) :
    Gives (z := z) (takeTrap w.g ds tpc none) t () (w.onGroup (handlerEntered ds tpc) (w.letGo t)) :=
  trap_enters hg ht hd hc hw hl' ht' hh hv hl hf

theorem merge_one (d : Detail) : mergeDetails [d] = [d] := by
  simp [mergeDetails, distinct]

theorem holding_paid {w : View} {i : Info} (id : Nat) : slotHolding (w.paid i) w.core w.t id = slotHolding w.s w.core w.t id := by
  have hl : ∀ x, (w.paid i).launch? x = w.s.launch? x := fun _ => rfl
  have hc : ((w.paid i).core w.core).tag0 = (w.s.core w.core).tag0 ∧ ((w.paid i).core w.core).tag1 = (w.s.core w.core).tag1 := by
    unfold View.paid View.paidAt State.core
    dsimp only
    rw [SMap.get?_put_self]
    unfold View.issues
    split <;> exact ⟨rfl, rfl⟩
  unfold slotHolding
  have hk : overlayKey (w.paid i) w.t = overlayKey w.s w.t := by
    unfold overlayKey
    rfl
  rw [hk, hc.1, hc.2]

theorem slotFilled_gives {core : Nat} {key : Nat × Nat} {ws : List (W32 × Bool)} {t : State} :
    Gives (z := z) (fillSlot core 1 (some key) ws) t () (slotOneFilled core key ws t) := by
  exact Gives.modCore _ _ _

theorem str_paid {w : View} {i : Info} (k : Nat) : (w.paid i).str k = w.s.str k := rfl

theorem strPut_strPut (i : Nat) (f g : Str → Str) (t : State) : strPut i g (strPut i f t) = strPut i (fun q => g (f q)) t := by
  unfold strPut State.str
  dsimp only
  rw [SMap.get?_put_self, SMap.put_put]
  rfl

theorem strPut_gives {i : Nat} {f : Str → Str} {t : State} : Gives (z := z) (modStr i f) t () (strPut i f t) := by
  unfold modStr
  exact Gives.mod _ _ _

theorem issue_traps {w : View} {i : Info} {eff : M z Flow} {v : State} {ds : List Detail} {tm : Option W32} (hs : w.s = z) (r : Ready w i)
    (a : Acts w i) (he : ∀ p, eff ⟨w.paid i, p⟩ = .error (.trap ds tm)) (hf : Gives (z := z) (takeTrap w.g ds w.unitPc tm) (w.paid i) () v) :
    Gives (z := z) (conclude w i eff (verdict w i)) z () v := by
  rw [r.verdict]
  have h : (i.mask == .skips && w.exm == 0) = false := by
    cases hm : i.mask == .skips
    · rfl
    · have := a (by simpa using hm)
      simpa using this
  have hat : Gives (z := z) (attempt eff) (w.paid i) (.error (.trap ds tm)) (w.paid i) := fun p =>
    ⟨p, by simp only [Machine.attempt, he p]⟩
  have k : Gives (z := z) (do let r ← attempt eff; afterEffect w r) (w.paid i) () v := hat.bind hf
  have l := (paid_gives (i := i) hs).bind (f := fun _ => do let r ← attempt eff; afterEffect w r) k
  rw [bind_assoc] at l
  unfold conclude issueUnit
  rw [h]
  exact l

theorem runUnit_traps {s : State} {info : View → Info} {eff : View → M s Flow} {w : View} {v : State} {ds : List Detail} {tm : Option W32}
    (hw : view s = some w) (r : Ready w (info w)) (a : Acts w (info w)) (he : ∀ p, eff w ⟨w.paid (info w), p⟩ = .error (.trap ds tm))
    (hf : Gives (z := s) (takeTrap w.g ds w.unitPc tm) (w.paid (info w)) () v) : runUnit s info eff = .next v := by
  unfold runUnit
  rw [hw]
  exact runGroup_gives (issue_traps (view_cases hw).1 r a he hf)

end Sys2Proof.Machine
end

