-- ==== Sys2Proof/Laws/Parts.lean ====
section
/-! SUPPORT. What a change of one part leaves, and events of power and clocks. -/

namespace Sys2Proof.Machine

variable {z : State}

theorem fires {i : Instr} {cond : State → Prop} {f : State → State} {m : (z : State) → M z Unit}
    (e : ∀ s, exec i s = runM s (m s)) (h : ∀ s, cond s → Gives (m s) s () (f s)) : Fires i cond f := fun s c => by
  rw [e]; exact runM_gives (h s c)

theorem Gives.guardThen {β : Type} {b : Bool} {m : M z β} {t u : State} {x : β} (h : b = true) (k : Gives m t x u) :
    Gives (do guardS b; m) t x u := (Gives.guard h t).bind k

theorem Gives.need {α : Type} {x : Option α} {a : α} {t : State} (h : x = some a) : Gives (need x : M z α) t a t := by
  subst h; exact Gives.pure _ _

theorem Gives.needThen {α β : Type} {x : Option α} {a : α} {f : α → M z β} {t u : State} {y : β} (h : x = some a)
    (k : Gives (f a) t y u) : Gives (Machine.need x >>= f) t y u := (Gives.need h).bind k

theorem Gives.getThen {β : Type} {f : State → M z β} {t u : State} {y : β} (k : Gives (f t) t y u) : Gives (getS >>= f) t y u :=
  (Gives.get t).bind k

/-- A loop leaves the fold of what its turns leave. -/
theorem forEach_fold {α : Type} {f : α → M z Unit} {F : State → α → State} (h : ∀ t x, Gives (f x) t () (F t x)) (xs : List α) :
    ∀ t, Gives (forEach xs f) t () (xs.foldl F t) := by
  induction xs with
  | nil => exact fun t => Gives.pure _ _
  | cons x xs ih => exact fun t => (h t x).bind (ih _)

theorem groupPut_gives {g : Nat} {f : Group → Group} {t : State} : Gives (z := z) (modGroup g f) t () (groupPut g f t) := Gives.mod _ _ t

theorem teamPut_gives {g : Nat} {f : Team → Team} {t : State} : Gives (z := z) (modTeam g f) t () (teamPut g f t) := Gives.mod _ _ t

theorem gridPut_gives {g : Nat} {f : Grid → Grid} {t : State} : Gives (z := z) (modGrid g f) t () (gridPut g f t) := Gives.mod _ _ t

theorem launchPut_gives {g : Nat} {f : Launch → Launch} {t : State} : Gives (z := z) (modLaunch g f) t () (launchPut g f t) := Gives.mod _ _ t

theorem queuePut_gives {g : Nat} {f : HostQueue → HostQueue} {t : State} : Gives (z := z) (modQueue g f) t () (queuePut g f t) := Gives.mod _ _ t

theorem corePut_gives {g : Nat} {f : Core → Core} {t : State} : Gives (z := z) (modCore g f) t () (corePut g f t) := Gives.mod _ _ t

theorem clusterPut_gives {g : Nat} {f : Cluster → Cluster} {t : State} : Gives (z := z) (modCluster g f) t () (clusterPut g f t) := Gives.mod _ _ t

theorem tablePut_gives {g : Nat} {f : PrTable → PrTable} {t : State} : Gives (z := z) (modTable g f) t () (tablePut g f t) := Gives.mod _ _ t

theorem ctxPut_gives {g : Nat} {f : CtxRegs → CtxRegs} {t : State} : Gives (z := z) (modCtx g f) t () (ctxPut g f t) := Gives.mod _ _ t

theorem fnPut_gives {g : Nat} {f : Fn → Fn} {t : State} : Gives (z := z) (modFn g f) t () (fnPut g f t) := Gives.mod _ _ t

theorem strPut_gives' {g : Nat} {f : Str → Str} {t : State} : Gives (z := z) (modStr g f) t () (strPut g f t) := Gives.mod _ _ t

theorem devPut_gives {f : Device → Device} {t : State} : Gives (z := z) (modDev f) t () (devPut f t) := Gives.mod _ _ t

theorem homePut_gives {f : Home → Home} {t : State} : Gives (z := z) (modHome f) t () (homePut f t) := Gives.mod _ _ t

theorem bootPut_gives {f : Boot → Boot} {t : State} : Gives (z := z) (modBoot f) t () (bootPut f t) := Gives.mod _ _ t

theorem vectorRaised_gives {f v : Nat} {t : State} : Gives (z := z) (raiseMsix f v) t () (vectorRaised f v t) := fnPut_gives

theorem errorsRaised_gives {t : State} : Gives (z := z) (forEach (List.range 64) fun f => raiseMsix f 3) t () (errorsRaised t) :=
  forEach_fold (fun _ _ => vectorRaised_gives) _ _

theorem find_id {α : Type} {l : List α} {f : α → Nat} {k : Nat} {a : α} (h : l.find? (fun x => decide (f x = k)) = some a) : f a = k := by
  simpa using List.find?_some h

theorem group_put {g : Nat} {f : Group → Group} {t : State} {gr : Group} (h : t.group? g = some gr) :
    (groupPut g f t).group? g = some (f gr) := by
  refine (SMap.get?_adjust_self _ _ _).trans ?_
  rw [show SMap.get? t.groups g = some gr from h]
  rfl

theorem bytes_memBytes (t : State) (n : Nat) : ∀ pa, bytesNat (memBytes t pa n) = Memory.readNat t.mem pa n := by
  induction n with
  | zero => exact fun _ => rfl
  | succ n ih => exact fun pa => by simp only [memBytes, bytesNat, Memory.readNat, ih]

theorem has_adjust {α : Type} {m : SMap α} {e k : Nat} {f : α → α} (h : ∃ a, SMap.get? m e = some a) :
    ∃ a, SMap.get? (SMap.adjust m k f) e = some a := by
  obtain ⟨a, h⟩ := h
  by_cases hk : k = e
  · subst hk; exact ⟨f a, by rw [SMap.get?_adjust_self, h]; rfl⟩
  · exact ⟨a, by rw [SMap.get?_adjust_ne _ _ hk, h]⟩

theorem journalAt_off {n : Nat} {e : JEvent} {t : State} {l : Launch} (hl : t.launch? n = some l) (hj : l.journal = 0) :
    Gives (z := z) (journalAt n e) t none t := by
  unfold journalAt
  refine (Gives.getLaunch hl).bind ?_
  rw [hj]
  exact Gives.pure _ _

theorem team_put {g : Nat} {f : Team → Team} {t : State} {tm : Team} (h : t.team? g = some tm) : (teamPut g f t).team? g = some (f tm) := by
  refine (SMap.get?_adjust_self _ _ _).trans ?_
  rw [show SMap.get? t.teams g = some tm from h]
  rfl

theorem need_isSome {α : Type} {x : Option α} (h : x.isSome = true) : x.isNone = false := by cases x <;> simp_all

theorem resume_gives {e : Nat} {t : State} {tm : Team} (ht : t.team? e = some tm) : Gives (z := z) (resume e) t () (resumed e tm t) := by
  unfold resume
  exact (Gives.getTeam ht).bind (teamPut_gives.bind groupPut_gives)

theorem resumed_eq (e : Nat) (tm tm' : Team) (t : State) (h : tm.pendingGroup = tm'.pendingGroup) : resumed e tm t = resumed e tm' t := by
  unfold resumed; rw [h]

theorem constrainedAs_gives (cl : Nat) (f : Cluster → Cluster) (t : State) :
    Gives (z := z) (setConstraint cl f) t () (constrainedAs cl f t) := by
  unfold setConstraint constrainedAs
  refine Gives.getThen (clusterPut_gives.bind ?_)
  by_cases h : (f (t.cluster cl)).constrained = true
  · rw [if_pos h, if_pos h]; exact strPut_gives'
  · rw [if_neg h, if_neg h]; exact Gives.pure _ _

theorem thermSet_gives (cl : Nat) (t : State) : Gives (z := z) (evalTherm cl) t () (thermSet cl t) := by
  unfold evalTherm thermSet
  refine Gives.getThen ((constrainedAs_gives _ _ _).as ?_)
  congr 1; funext c
  simp

theorem emergencyBegun_gives (t : State) : Gives (z := z) startEmergency t () (emergencyBegun t) :=
  devPut_gives.bind (forEach_fold (fun _ _ => clusterPut_gives.bind strPut_gives') _ _)

theorem quieted_gives (i : Nat) (t : State) : Gives (z := z) (markQuiet i) t () (quieted i t) := Gives.getThen (Gives.mod _ _ _)

theorem reservationBegun_gives (cl : Nat) (who : Asker) (t : State) :
    Gives (z := z) (startReservation cl who) t () (reservationBegun cl who t) := by
  unfold startReservation reservationBegun
  refine Gives.getThen ?_
  cases who
  case vec => exact corePut_gives
  case sfu => exact corePut_gives
  all_goals exact Gives.pure _ _

theorem currentReleased_gives (cl : Nat) (who : Asker) (t : State) :
    Gives (z := z) (releaseCurrent cl who) t () (currentReleased cl who t) := strPut_gives'.bind (quieted_gives _ _)

theorem tilesPut_gives {i : Nat} {f : Nat → M z Unit} {F : Nat → State → State} (h : ∀ t cl, Gives (f cl) t () (F cl t)) (t : State) :
    Gives (forEach [0, 1, 2, 3] fun k => f (4 * i + k)) t () (tilesPut i F t) :=
  forEach_fold (f := fun k => f (4 * i + k)) (F := fun t k => F (4 * i + k) t) (fun t k => h t _) _ t

end Sys2Proof.Machine
end

