-- ==== Sys2Proof/Laws/Replies.lean ====
section
/-! SUPPORT. What replies to page requests, invalidations and storage errors leave. -/

namespace Sys2Proof.Machine

variable {z : State}

theorem groupAnswered_gives {g : Nat} {wt : Wait} {fail : Bool} {t : State} {gr : Group} (hg : t.group? g = some gr)
    (hs : fail = true → ∀ p, gr.parked = some p → (∃ l, (l, wt) ∈ p.waits) → ReadOfIssue p) :
    Gives (z := z) (answerGroup g wt fail) t () (groupAnswered wt fail g t) := by
  unfold answerGroup groupAnswered
  refine (Gives.getGroup hg).bind ?_
  rw [hg]
  show Gives (match gr.parked with | none => _ | some p => _) _ _ (match gr.parked with | some p => _ | none => _)
  rcases hp : gr.parked with _ | p
  · exact Gives.pure _ _
  · dsimp only
    by_cases ha : (p.waits.any fun e => decide (e.2 = wt)) = true
    · rw [if_pos ha, if_pos ha]
      have hst : ¬(fail && !(match p.acc.kind with | .snap => true | x => false)) = true := by
        cases fail
        · exact Bool.false_ne_true
        · obtain ⟨e, he, hw⟩ := List.any_eq_true.1 ha
          have := hs rfl p hp ⟨e.1, by simpa [← of_decide_eq_true hw] using he⟩
          unfold ReadOfIssue at this
          rw [this]
          simp
      refine Gives.neg hst ?_
      refine groupPut_gives.as ?_
      unfold groupPut
      cases p.acc.lanes.head? <;> rfl
    · rw [if_neg ha, if_neg ha]
      exact Gives.pure _ _

/-- Every group stays, with the access of its parked unit. -/
def Kept (t u : State) : Prop := ∀ g gr, t.group? g = some gr → ∃ gr', u.group? g = some gr' ∧
  ∀ p, gr'.parked = some p → ∃ q, gr.parked = some q ∧ q.acc = p.acc ∧ ∀ x ∈ p.waits, x ∈ q.waits

theorem Kept.trans {t u v : State} (h : Kept t u) (k : Kept u v) : Kept t v := fun g gr hg => by
  obtain ⟨gr', h1, h2⟩ := h g gr hg
  obtain ⟨gr'', h3, h4⟩ := k g gr' h1
  refine ⟨gr'', h3, fun p hp => ?_⟩
  obtain ⟨q, a, b, c⟩ := h4 p hp
  obtain ⟨q', a', b', c'⟩ := h2 q a
  exact ⟨q', a', b'.trans b, fun x hx => c' x (c x hx)⟩

theorem Kept.refl (t : State) : Kept t t := fun _ gr hg => ⟨gr, hg, fun p hp => ⟨p, hp, rfl, fun _ h => h⟩⟩

theorem groupAnswered_kept (wt : Wait) (fail : Bool) (g : Nat) (t : State) : Kept t (groupAnswered wt fail g t) := by
  unfold groupAnswered
  split
  · next p hp =>
    split
    · intro g' gr hg
      by_cases e : g' = g
      · subst e
        refine ⟨_, (SMap.get?_adjust_self _ _ _).trans (by rw [show SMap.get? t.groups g' = some gr from hg]; rfl), ?_⟩
        rintro q hq
        rw [hg] at hp
        have hp' : gr.parked = some p := hp
        simp only [Option.some.injEq] at hq
        subst hq
        exact ⟨p, hp', rfl, fun x hx => List.mem_of_mem_filter hx⟩
      · exact ⟨gr, (SMap.get?_adjust_ne _ _ (Ne.symm e)).trans hg, fun p hp => ⟨p, hp, rfl, fun _ h => h⟩⟩
    · exact Kept.refl t
  · exact Kept.refl t

theorem answer_fold {wt : Wait} {fail : Bool} {s : State}
    (hs : fail = true → ∀ g gr p, s.group? g = some gr → gr.parked = some p → (∃ l, (l, wt) ∈ p.waits) → ReadOfIssue p)
    (l : List (Nat × Group)) : ∀ t, (∀ e ∈ l, ∃ gr, s.group? e.1 = some gr) → Kept s t →
    Gives (z := z) (forEach l fun e => answerGroup e.1 wt fail) t () (l.foldl (fun t e => groupAnswered wt fail e.1 t) t) := by
  induction l with
  | nil => exact fun t _ _ => Gives.pure _ _
  | cons e l ih =>
    intro t hl hk
    obtain ⟨gr, hg⟩ := hl e List.mem_cons_self
    obtain ⟨gr', hg', hp'⟩ := hk _ _ hg
    refine Gives.bind (groupAnswered_gives hg' fun hf p hp hw => ?_) (ih _ (fun x hx => hl x (List.mem_cons_of_mem _ hx))
      (hk.trans (groupAnswered_kept _ _ _ _)))
    obtain ⟨q, hq, ha, hw'⟩ := hp' p hp
    obtain ⟨l, hl⟩ := hw
    have := hs hf e.1 gr q hg hq ⟨l, hw' _ hl⟩
    unfold ReadOfIssue at *
    rwa [ha] at this

theorem get?_map {α β : Type} (m : SMap α) (f : α → β) (k : Nat) :
    SMap.get? (m.map fun e => (e.1, f e.2)) k = (SMap.get? m k).map f := by
  induction m with
  | nil => rfl
  | cons b m ih =>
    simp only [List.map_cons, SMap.get?]
    split
    · rfl
    · exact ih

theorem get_of_mem {α : Type} {m : SMap α} {e : Nat × α} (h : e ∈ m) : ∃ a, SMap.get? m e.1 = some a := by
  induction m with
  | nil => cases h
  | cons b m ih =>
    unfold SMap.get?
    by_cases hb : b.1 = e.1
    · exact ⟨b.2, by rw [if_pos hb]⟩
    · rw [if_neg hb]
      rcases List.mem_cons.1 h with rfl | h
      · exact absurd rfl hb
      · exact ih h

/-- Every group takes an engine's and a system party's reply with its parked access as it was. -/
theorem replied_kept (tbl tag : Nat) (sl : PrSlot) (fail : Bool) (s : State) : Kept s (pageReplied tbl tag sl fail s) := by
  intro g gr hg
  refine ⟨{ gr with sysWait := if gr.sysWait = some (.slot tbl tag) then none else gr.sysWait }, ?_, fun p hp => ⟨p, hp, rfl, fun _ h => h⟩⟩
  refine (get?_map s.groups (fun gr : Group => { gr with sysWait := if gr.sysWait = some (Wait.slot tbl tag) then none else gr.sysWait }) g).trans ?_
  rw [show SMap.get? s.groups g = some gr from hg]
  rfl

theorem reply_gives {tbl vfn tag : Nat} {fail : Bool} {s : State} {sl : PrSlot} (hn : tbl < 64 ∨ vfn = tbl - 64)
    (hsl : SMap.get? (s.table tbl).slots tag = some sl)
    (hs : fail = true → ∀ g gr p, s.group? g = some gr → gr.parked = some p → (∃ l, (l, Wait.slot tbl tag) ∈ p.waits) → ReadOfIssue p) :
    Gives (z := s) (reply tbl vfn tag fail) s () (pageAnswered tbl tag sl fail s) := by
  unfold reply pageAnswered
  refine Gives.getThen ?_
  have hb : ¬(64 ≤ tbl && decide (vfn ≠ tbl - 64)) = true := by
    rcases hn with h | h
    · simp; omega
    · simp [h]
  dsimp only
  rw [if_neg hb, hsl]
  exact tablePut_gives.bind (Gives.bind (Gives.mod _ _ _) (Gives.bind (by unfold answerWaiters; exact Gives.mod _ _ _)
    (answer_fold hs _ _ (fun e he => get_of_mem he) (replied_kept tbl tag sl fail s))))

theorem answered_bad {tbl vfn tag : Nat} {fail : Bool} {s : State} (h : ¬(tbl < 64 ∨ vfn = tbl - 64) ∨ SMap.get? (s.table tbl).slots tag = none) :
    Gives (z := s) (reply tbl vfn tag fail) s () (tablePut tbl (fun t => { t with bad := true }) s) := by
  unfold reply
  refine Gives.getThen ?_
  dsimp only
  have : (if (64 ≤ tbl && decide (vfn ≠ tbl - 64)) = true then none else SMap.get? (s.table tbl).slots tag) = none := by
    rcases h with h | h
    · rw [if_pos]; simp; omega
    · rw [h]; simp
  rw [this]
  exact tablePut_gives

theorem xinv_gives {f stg scope ctx : Nat} {s : State} (h : (s.fn f).xinvBusy = none) (k : f = 0 ∨ stg = 0 ∧ scope ≤ 1) (hsc : scope ≤ 2)  :
    Gives (z := s) (startXinv f stg scope ctx) s () (invalidating f (stg, scope,
      if scope = 2 then (s.fn f).xinvAddr.toNat / 4096 % 64 else f * 65536 + ctx % 65536, (s.fn f).xinvAddr.toNat / 4096) s) := by
  unfold startXinv
  refine Gives.getThen (Gives.pos ?_ (fnPut_gives.bind (Gives.mod _ _ _)))
  have h' := h
  rcases k with rfl | k <;> simp_all

theorem writtenBack_gives (line : Nat) (t : State) : Gives (z := z) (writeBack line) t () (writtenBack line t) := homePut_gives

theorem granuleMarked_gives {gran : Granule} (h : Unshared gran) (t : State) :
    Gives (z := z) (poisonGranule gran) t () (granuleMarked gran t) := by
  cases gran
  case obuf => exact h.elim
  case bstore => exact h.elim
  case bank => exact h.elim
  all_goals
    simp only [poisonGranule, granuleMarked, poisonSector, modPoison]
    first | exact groupPut_gives | exact teamPut_gives | exact corePut_gives | exact clusterPut_gives | exact homePut_gives

theorem kept_lcarg (s : State) (f : Nat) (hc : s.boot.recovery = false) : keptValue s f 0x100C38 = (s.fn f).lcarg := by
  have h1 : keptValue s f 0x100C38 = w0Read s f 0x100C38 := by
    unfold keptValue
    have : (decide (f = 0) && decide (0x300000 ≤ 0x100C38) && decide (0x100C38 < 0x300200)) = false := by simp
    rw [this]; rfl
  rw [h1]
  unfold w0Read
  simp only [hc]
  show BitVec.ofNat 64 (w0Own s f 0x100C38) = _
  show BitVec.ofNat 64 (s.fn f).lcarg.toNat = _
  simp

end Sys2Proof.Machine
end

