-- ==== Sys2Proof/Laws/Performing.lean ====
section
/-! SUPPORT. What queued stores, atomics, loads and messages leave. -/

namespace Sys2Proof.Machine

variable {z : State}

theorem entry_gives {g id : Nat} {s : State} {gr : Group} {e : SqEntry} {f : SqEntry → M z Unit} {u : State}
    (hg : s.group? g = some gr) (he : gr.sq.find? (fun e => e.id = id) = some e) (k : Gives (f e) s () u) :
    Gives (z := z) (do let gr ← getGroup g; let e ← need (gr.sq.find? fun e => e.id = id); f e) s () u :=
  (Gives.getGroup hg).bind (Gives.needThen he k)

/-- A queued store of one lane leaves what storing its lane leaves. -/
theorem storeEntry_gives {g id : Nat} {gr : Group} {e : SqEntry} {a : LaneAcc} {s u : State} (hg : s.group? g = some gr)
    (he : gr.sq.find? (fun e => e.id = id) = some e) (hm : mayPerform s g gr e = true) (hk : e.acc.kind = .store)
    (hl : e.acc.lanes = [a]) (k : Gives (z := s) (storeLane g e.unit e.acc a) (groupPut g (unqueued id) s) () u) :
    Gives (z := s) (do let gr ← getGroup g; let e ← need (gr.sq.find? fun e => e.id = id); performEntry g e) s () u := by
  refine entry_gives hg he ?_
  have hid : e.id = id := find_id (f := SqEntry.id) he
  unfold performEntry
  refine (Gives.getGroup hg).bind (Gives.getThen (Gives.guardThen hm ?_))
  rw [hk, hid, hl]
  exact groupPut_gives.bind (k.bind (Gives.pure _ _))

/-! Clean reads before a write at the same place -/

theorem Clean.reads {t : State} {w : Who} {base n : Nat} (c : Clean t w base n true) : Clean t w base n false := by
  intro i hi
  have h := c i hi
  unfold mixed at *
  rw [Bool.and_eq_false_iff] at *
  refine h.imp id fun h => ?_
  rw [List.any_eq_false] at *
  intro p hp k
  refine h p hp ?_
  simp only [Bool.false_or, Bool.true_or, Bool.true_and, Bool.and_eq_true] at *
  exact ⟨⟨⟨k.1.1.1.2, k.1.1.2⟩, k.1.2⟩, k.2⟩

/-- A record of the same address and size is no mixed overlap. -/
theorem clean_pastWith {w : Who} {base n : Nat} {wr : Bool} {m : SMap (List Past)} {pa qa : Nat} {p : Past}
    (h : p ∈ SMap.look [] (pastWith w base n wr m pa) qa) : p ∈ SMap.look [] m qa ∨ p.base = base ∧ p.size = n := by
  by_cases e : pa = qa
  · subst e
    unfold pastWith SMap.look at h
    rw [SMap.get?_put_self] at h
    rcases List.mem_cons.1 h with rfl | h
    · exact .inr ⟨rfl, rfl⟩
    · exact .inl (List.mem_of_mem_filter h)
  · rw [pastWith_ne e] at h
    exact .inl h

theorem clean_seen {w : Who} {base n : Nat} {t : State} (c : Clean t w base n true) : Clean (seenAt w base n t) w base n true := by
  have key (l : List Nat) : ∀ (m : SMap (List Past)) (p : Past) (qa : Nat),
      p ∈ SMap.look [] (l.foldl (fun m i => pastWith w base n false m (base + i)) m) qa →
      p ∈ SMap.look [] m qa ∨ p.base = base ∧ p.size = n := by
    induction l with
    | nil => exact fun m p qa h => .inl h
    | cons i l ih =>
      intro m p qa h
      rcases ih _ p qa h with h | h
      · exact clean_pastWith h
      · exact .inr h
  intro i hi
  have h := c i hi
  unfold mixed at *
  rw [Bool.and_eq_false_iff] at *
  refine h.imp id fun h => ?_
  rw [List.any_eq_false] at *
  intro p hp k
  have hp' : p ∈ SMap.look [] t.home.past (base + i) ∨ p.base = base ∧ p.size = n := by
    unfold seenAt pastOf at hp
    dsimp only at hp
    split at hp
    · exact .inl hp
    · exact key _ _ _ _ hp
  rcases hp' with hp' | ⟨e1, e2⟩
  · exact h p hp' k
  · simp [e1, e2] at k

theorem readAt_room {who : Who} {pa n : Nat} (t : State) : HasRoom (readAt who pa n t) pa ∧ HasRoom (readAt who pa n t) (pa + n - 1) := by
  have h1 : linePresent (readAt who pa n t).home (pa / 64) = true := brought_keeps (brought_present pa t)
  have h2 : linePresent (readAt who pa n t).home ((pa + n - 1) / 64) = true := brought_present _ _
  exact ⟨.inl h1, .inl h2⟩

/-! Atomics -/

theorem journalWord_off {g point typ obj : Nat} {st : Bool} {others : List (Nat × Nat)} {t : State} {tm : Team} {l : Launch}
    (ht : t.team? (groupTeam g) = some tm) (hl : t.launch? tm.launch = some l) (hj : l.journal = 0) :
    Gives (z := z) (journalGroup g point typ obj st others) t none t := by
  refine (Gives.getTeam ht).bind ((Gives.getLaunch hl).bind ?_)
  simp only [hj, if_true]
  exact Gives.pure _ _

theorem atomLane_gives {g u : Nat} {acc : Access} {op : AtomOp} {a : LaneAcc} {others : List LaneAcc} {t : State} {gr : Group}
    {tm : Team} {l : Launch} (hg : t.group? g = some gr) (ht : t.team? (groupTeam g) = some tm) (hl : t.launch? tm.launch = some l)
    (hj : l.journal = 0) (sp : acc.space = 0) (hc : a.chk = false) (r : Room t a.pa acc.size)
    (c : Clean t (groupWho g gr u) a.pa acc.size true) :
    Gives (z := z) (atomLane g u acc op a others) t (laneRead acc.size a (readAt (groupWho g gr u) a.pa acc.size t))
      (atomPerformed g u acc op gr a t) := by
  have hms : Gives (z := z) (metaStep tm acc a) t () t := by
    unfold metaStep
    refine (Gives.get t).bind ?_
    rw [hc]
    exact Gives.pure _ _
  unfold atomLane
  refine (Gives.get t).bind ((Gives.getTeam ht).bind ((journalWord_off ht hl hj).bind (hms.bind ((Gives.getGroup hg).bind ?_))))
  dsimp only
  have e : memBytes (readAt (groupWho g gr u) a.pa acc.size t) a.pa acc.size = memBytes t a.pa acc.size := by
    obtain ⟨h, f⟩ := readAt_form (groupWho g gr u) a.pa acc.size t
    exact memBytes_congr (by rw [f]) _ _
  generalize hv : readAt (groupWho g gr u) a.pa acc.size t = v at *
  have hroom : Room v a.pa acc.size := hv ▸ readAt_room t
  have hcl : Clean v (groupWho g gr u) a.pa acc.size true := by
    rw [← hv]
    exact clean_seen (c.congr ((brought_past _ _).trans (brought_past _ _)))
  refine Gives.bind (a := laneRead acc.size a v) (u := v) ?_ ?_
  · rw [if_neg (by simp [sp])]
    refine (hsRead_gives r c.reads).bind ?_
    rw [hv]
    refine (Gives.get v).bind ?_
    rw [← e]
    exact Gives.pure _ _
  · refine (Gives.get v).bind ?_
    unfold atomPerformed
    dsimp only
    rw [hv]
    have fin (x : State) : Gives (z := z) (do
        if acc.space = 0 then
          catchUp g a.pa acc.size
          crcDrop ((← getS).groupCluster g) a.pa
        meetReleases g u acc [laneRead acc.size a v]
        pure (laneRead acc.size a v)) x (laneRead acc.size a v)
        (releasesMet g u acc [laneRead acc.size a v] (lineDropped ((floorRaised g a.pa acc.size x).groupCluster g) a.pa (floorRaised g a.pa acc.size x))) := by
      simp only [sp, if_true]
      exact (catchUp_gives _ _ _ _).bind ((Gives.get _).bind ((crcDrop_gives _ _ _).bind ((meetReleases_gives _ _ _ _ _).bind (Gives.pure _ _))))
    cases hy : op.apply (8 * acc.size) (laneRead acc.size a v).data a.data a.cmp with
    | none => exact fin v
    | some y =>
      exact Gives.neg (by simp [sp])
        (Gives.bind (hsWrite_gives (by rw [natBytes_length]; exact hroom) (by rw [natBytes_length]; exact hcl)) (fin _))

theorem met_rest (g u : Nat) (acc : Access) (lanes : List LaneAcc) (t : State) :
    (releasesMet g u acc lanes t).teams = t.teams ∧ (releasesMet g u acc lanes t).launches = t.launches ∧
      ∀ gr, t.group? g = some gr → ∃ gr', (releasesMet g u acc lanes t).group? g = some gr' := by
  unfold releasesMet
  dsimp only
  split
  · exact ⟨rfl, rfl, fun gr h => ⟨gr, h⟩⟩
  · exact ⟨rfl, rfl, fun gr h => ⟨_, SMap.get?_adjust_map h⟩⟩

/-- An atomic's lane leaves the group, teams and launches in their places. -/
theorem atom_rest (g u : Nat) (acc : Access) (op : AtomOp) (gr : Group) (a : LaneAcc) (t : State) {gr0 : Group} (hg : t.group? g = some gr0) :
    (∃ gr', (atomPerformed g u acc op gr a t).group? g = some gr') ∧ (atomPerformed g u acc op gr a t).teams = t.teams ∧
      (atomPerformed g u acc op gr a t).launches = t.launches := by
  obtain ⟨h, f⟩ := readAt_form (groupWho g gr u) a.pa acc.size t
  unfold atomPerformed
  dsimp only
  generalize readAt (groupWho g gr u) a.pa acc.size t = v at *
  have key (x : State) (e1 : x.groups = t.groups) (e2 : x.teams = t.teams) (e3 : x.launches = t.launches) :
      let y := floorRaised g a.pa acc.size x
      let r := releasesMet g u acc [laneRead acc.size a v] (lineDropped (y.groupCluster g) a.pa y)
      (∃ gr', r.group? g = some gr') ∧ r.teams = t.teams ∧ r.launches = t.launches := by
    intro y r
    obtain ⟨m1, m2, m3⟩ := met_rest g u acc [laneRead acc.size a v] (lineDropped (y.groupCluster g) a.pa y)
    refine ⟨m3 _ (SMap.get?_adjust_map (by rw [e1]; exact hg)), m1.trans e2, m2.trans e3⟩
  cases op.apply (8 * acc.size) (laneRead acc.size a v).data a.data a.cmp with
  | none => exact key v (by rw [f]) (by rw [f]) (by rw [f])
  | some y =>
    dsimp only
    obtain ⟨m, k, e⟩ := written_still { groupWho g gr u with rels := writeRels v g gr u acc a ++
      ((readRels v acc [laneRead acc.size a v]).filter fun r => !r.byAtomic).map fun r => { r with byAtomic := true } } a.pa
      (natBytes y acc.size) v
    refine key _ ?_ ?_ ?_
    · rw [e, f]
    · rw [e, f]
    · rw [e, f]

theorem first_lane {pa : Nat} {a : LaneAcc} {ls : List LaneAcc} (hp : ∀ b ∈ a :: ls, b.pa = pa)
    (ho : ((a :: ls).map (·.lane)).Pairwise (· < ·)) : ∃ r, firstLanes (·.pa) (a :: ls) = a :: r := by
  have hlt : ∀ b ∈ ls, a.lane < b.lane := fun b hb => by
    have := (List.pairwise_cons.1 ho).1
    exact this _ (List.mem_map_of_mem hb)
  unfold firstLanes
  rw [List.filter_cons, if_pos]
  · exact ⟨_, rfl⟩
  · rw [Bool.not_eq_true', List.any_eq_false]
    intro b hb
    rcases List.mem_cons.1 hb with rfl | hb
    · simp
    · have := hlt b hb
      simp; omega

theorem rest_lanes {a : LaneAcc} {ls : List LaneAcc} (ho : ((a :: ls).map (·.lane)).Pairwise (· < ·)) :
    (a :: ls).filter (fun b => b.lane != a.lane) = ls := by
  rw [List.filter_cons, if_neg (by simp)]
  rw [List.filter_eq_self]
  intro b hb
  have h : a.lane < b.lane := (List.pairwise_cons.1 ho).1 _ (List.mem_map_of_mem hb)
  simp; omega

theorem atomSteps_gives {g u pa : Nat} {acc : Access} {op : AtomOp} {gr0 : Group} {tm : Team} {l : Launch} (hj : l.journal = 0)
    (sp : acc.space = 0) (ls : List LaneAcc) : ∀ {t : State} {gr : Group}, t.group? g = some gr → t.team? (groupTeam g) = some tm →
    t.launch? tm.launch = some l → (∀ a ∈ ls, a.pa = pa ∧ a.chk = false) → (ls.map (·.lane)).Pairwise (· < ·) →
    AtomsFollow g u acc op gr0 ls t →
    Gives (z := z) (atomSteps (·.pa) (atomLane g u acc op) ls.length ls) t ([], (atomsPerformed g u acc op gr0 ls t).2, none)
      (atomsPerformed g u acc op gr0 ls t).1 := by
  induction ls generalizing gr0 with
  | nil => intro t gr _ _ _ _ _ _; exact Gives.pure _ _
  | cons a ls ih =>
    intro t gr hg ht hl hp ho hf
    have e : (t.group? g).getD gr0 = gr := by rw [hg]; rfl
    unfold AtomsFollow at hf
    dsimp only at hf
    rw [e] at hf
    obtain ⟨f1, f2, f3⟩ := hf
    obtain ⟨r, hr⟩ := first_lane (fun b hb => (hp b hb).1) ho
    obtain ⟨⟨gr', hg'⟩, h2, h3⟩ := atom_rest g u acc op gr a t hg
    have k := ih (t := atomPerformed g u acc op gr a t) hg' (by unfold State.team?; rw [h2]; exact ht)
      (by unfold State.launch?; rw [h3]; exact hl) (fun b hb => hp b (List.mem_cons_of_mem _ hb)) (List.pairwise_cons.1 ho).2 f3
    have st := atomLane_gives (z := z) (op := op) (others := (a :: ls).filter fun b => b.lane != a.lane) hg ht hl hj sp (hp a List.mem_cons_self).2 f1 f2
    have e1 : atomsPerformed g u acc op gr0 (a :: ls) t =
        ((atomsPerformed g u acc op gr ls (atomPerformed g u acc op gr a t)).1,
          laneRead acc.size a (readAt (groupWho g gr u) a.pa acc.size t) :: (atomsPerformed g u acc op gr ls (atomPerformed g u acc op gr a t)).2) := by
      show ((atomsPerformed g u acc op ((t.group? g).getD gr0) ls _).1, _ :: _) = _
      rw [e]
    rw [e1]
    unfold atomSteps
    refine Gives.neg (by simp) (Gives.bind (a := .ok (laneRead acc.size a (readAt (groupWho g gr u) a.pa acc.size t)))
      (u := atomPerformed g u acc op gr a t) ?_ ?_)
    · rw [hr]
      unfold tryLanes
      exact st.attempt.bind (Gives.pure _ _)
    · dsimp only
      rw [show (laneRead acc.size a (readAt (groupWho g gr u) a.pa acc.size t)).lane = a.lane from rfl, rest_lanes ho]
      exact k.bind (Gives.pure _ _)

/-- A queued atomic whose journal is off leaves what its lanes leave, and its old values wait at its load entry. -/
theorem atomEntry_gives {g id pa : Nat} {gr : Group} {e : SqEntry} {op : AtomOp} {s : State} {tm : Team} {l : Launch}
    (hg : s.group? g = some gr) (he : gr.sq.find? (fun e => e.id = id) = some e) (hm : mayPerform s g gr e = true)
    (hk : e.acc.kind = .atom op) (sp : e.acc.space = 0) (hp : ∀ a ∈ e.acc.lanes, a.pa = pa ∧ a.chk = false)
    (ho : (e.acc.lanes.map (·.lane)).Pairwise (· < ·)) (hf : AtomsFollow g e.unit e.acc op gr e.acc.lanes s)
    (ht : s.team? (groupTeam g) = some tm) (hl : s.launch? tm.launch = some l) (hj : l.journal = 0) :
    let r := atomsPerformed g e.unit e.acc op gr e.acc.lanes s
    Gives (z := s) (do let gr ← getGroup g; let e ← need (gr.sq.find? fun e => e.id = id); performEntry g e) s ()
      (groupPut g (fun gr => { unqueued id gr with
        ls := gr.ls.map fun f =>
          if f.atom && f.unit = e.unit then
            { f with acc := { f.acc with lanes := f.acc.lanes.map fun a => (r.2.find? fun d => d.lane = a.lane).getD a } }
          else f }) r.1) := by
  refine entry_gives hg he ?_
  have hid : e.id = id := find_id (f := SqEntry.id) he
  unfold performEntry
  refine (Gives.getGroup hg).bind (Gives.getThen (Gives.guardThen hm ?_))
  rw [hk, hid]
  exact (atomSteps_gives hj sp e.acc.lanes hg ht hl hp ho hf).bind (Gives.neg (by simp) groupPut_gives)

/-! Loads -/

theorem landLoad_gives {g id : Nat} {s : State} {gr : Group} {e : LsEntry} {a b : LaneAcc} {src : LoadSource} {u : State}
    (hg : s.group? g = some gr) (he : gr.ls.find? (fun e => e.id = id) = some e) (hl : e.acc.lanes = [a]) (hd : a.done = false)
    (hat : e.atom = false) (sp : e.acc.space = 0) (hm : mszOf s g = false ∨ gr.arrived e.unit = true)
    (k : Gives (z := s) (fromSource g e src a) s b u) (hb : b.done = true) :
    Gives (z := s) (landLoad g id [src]) s () (loadLanded g e [b] u) := by
  have hid : e.id = id := find_id (f := LsEntry.id) he
  unfold landLoad
  refine (Gives.getGroup hg).bind (Gives.getThen (Gives.needThen he ?_))
  have hfix : e.acc.lanes.all (·.done) = false := by rw [hl]; simp [hd]
  have hfil : e.acc.lanes.filter (·.done) = [] := by rw [hl]; simp [hd]
  dsimp only
  rw [hfix, hfil]
  refine Gives.guardThen ?_ (Gives.bind (a := [b]) (u := u) ?_ ?_)
  · rcases hm with h | h <;> simp [hat, sp, h]
  · rw [hl]
    unfold satisfy
    rw [if_neg (by simp [hd])]
    exact k.bind (by unfold satisfy; exact (Gives.pure _ _).bind (Gives.pure _ _))
  · refine Gives.pos (by simp [hb]) ?_
    unfold loadLanded
    subst hid
    refine groupPut_gives.bind ?_
    cases e.acc.acq
    · exact meetReleases_gives _ _ _ _ _
    · exact (acquire_gives _ _ _).bind (meetReleases_gives _ _ _ _ _)

theorem source_gives {g : Nat} {e : LsEntry} {a b : LaneAcc} {src : LoadSource} {s u : State} {gr : Group} (hg : s.group? g = some gr)
    (hr : gr.mayRead e.unit e.acc a = true) (hb : laneBlocked s g e.acc a = false)
    (k : Gives (z := z) (do
      let n := e.acc.psize
      let cl := s.groupCluster g
      let w := groupWho g gr e.unit
      let older := gr.sq.filter fun f => f.unit < e.unit && f.acc.touches a.pa n
      let plain := e.acc.space = 0 && !e.acc.acq && a.mt ≤ 1
      let give (cells : List (Byte × Nat)) : M z LaneAcc := do
        guardS (gr.aboveFloor a.pa (cells.map (·.2)))
        let bs ← noteRead w a.pa (cells.map (·.1))
        modGroup g fun gr => gr.raiseFloor a.pa (cells.map (·.2))
        pure { a with data := bytesNat bs, done := true, poison := sectorPoison s a.pa n, stamps := cells.map (·.2) }
      match src with
      | .forward => do
        guardS plain
        let f ← need older.getLast?
        let b ← need f.acc.lanes.getLast?
        guardS (f.acc.kind == .store && b.pa ≤ a.pa && a.pa + n ≤ b.pa + f.acc.psize)
        let bs ← noteRead w a.pa (natBytes (b.data / 2 ^ (8 * (a.pa - b.pa))) n)
        pure { a with data := bytesNat bs, done := true }
      | .cache => do
        guardS (plain && a.mt = 0 && older.isEmpty)
        let c ← need (SMap.get? (s.cluster cl).crc (a.pa / 64))
        give ((c.cells.drop (a.pa % 64)).take n)
      | .merge i => do
        guardS (plain && older.isEmpty)
        let m ← need s.home.merge[i]?
        guardS (m.line = a.pa / 64 && gr.mu ≤ m.copy.at_)
        give ((m.copy.cells.drop (a.pa % 64)).take n)
      | .home => do
        guardS older.isEmpty
        if e.acc.space ≠ 0 then spadLoad w n a
        else match paRange a.pa with
        | .control => pure { a with data := w0ReadBytes s 0 (a.pa - 0x8000000000) n, done := true }
        | _ =>
          let d ← homeLoad g e.unit n a
          if plain && a.mt = 0 then crcFill cl a.pa
          if plain then
            let s ← getS
            modHome fun h => { h with merge := h.merge ++
              [{ line := a.pa / 64, copy := { cells := memCells s (a.pa / 64 * 64) 64, at_ := h.now } }] }
          pure d) s b u) : Gives (z := z) (fromSource g e src a) s b u := by
  unfold fromSource
  exact Gives.getThen ((Gives.getGroup hg).bind (Gives.guardThen (by rw [hr, hb]; rfl) k))

/-- A copy's cells supply a lane. -/
theorem cells_gives {g : Nat} {e : LsEntry} {a : LaneAcc} {s : State} {gr : Group} {cells : List (Byte × Nat)}
    (l : cells.length = e.acc.psize) (hf : gr.aboveFloor a.pa (cells.map (·.2)) = true)
    (c : Clean s (groupWho g gr e.unit) a.pa e.acc.psize false) :
    Gives (z := z) (do
      guardS (gr.aboveFloor a.pa (cells.map (·.2)))
      let bs ← noteRead (groupWho g gr e.unit) a.pa (cells.map (·.1))
      modGroup g fun gr => gr.raiseFloor a.pa (cells.map (·.2))
      pure { a with data := bytesNat bs, done := true, poison := sectorPoison s a.pa e.acc.psize, stamps := cells.map (·.2) }) s
      (cellsLane e.acc.psize a cells s) (cellsRead g e.acc.psize gr e a cells s) := by
  have l' : (cells.map (·.1)).length = e.acc.psize := by simpa using l
  refine Gives.guardThen hf (Gives.bind (noteRead_gives (by rw [l']; exact c)) ?_)
  rw [l']
  exact groupPut_gives.bind (Gives.pure _ _)

theorem laneRead_congr {t u : State} {n : Nat} {a : LaneAcc} (h : u.mem = t.mem) (k : u.home = t.home) : laneRead n a u = laneRead n a t := by
  unfold laneRead sectorPoison stampOf
  rw [memBytes_congr h, k]

theorem memCells_congr {t u : State} (h : u.mem = t.mem) (k : u.home.marks = t.home.marks) (pa n : Nat) : memCells u pa n = memCells t pa n := by
  simp only [memCells, h, stampOf, k]

theorem filled_mem (cl pa : Nat) (t : State) : (lineFilled cl pa t).mem = t.mem := brought_mem pa t

theorem filled_marks (cl pa : Nat) (t : State) : (lineFilled cl pa t).home.marks = t.home.marks := by
  show (lineBrought pa t).home.marks = _
  unfold lineBrought; dsimp only; split <;> rfl

/-- A load's lane at home, with the fills that follow (R47, R48). -/
theorem homeSource_gives {g : Nat} {e : LsEntry} {a : LaneAcc} {s : State} {gr : Group} (hg : s.group? g = some gr)
    (hr : gr.mayRead e.unit e.acc a = true) (hb : laneBlocked s g e.acc a = false) (sp : e.acc.space = 0)
    (ho : (gr.sq.filter fun f => f.unit < e.unit && f.acc.touches a.pa e.acc.psize) = []) (hc : paRange a.pa ≠ .control)
    (r : Room s a.pa e.acc.psize) (cr : e.acc.acq = false → a.mt = 0 → CacheRoom s (s.groupCluster g) a.pa)
    (c : Clean s (groupWho g gr e.unit) a.pa e.acc.psize false) :
    Gives (z := s) (fromSource g e .home a) s (laneRead e.acc.psize a (readAt (groupWho g gr e.unit) a.pa e.acc.psize s))
      (homeRead g e.acc.psize gr e a s) := by
  refine source_gives hg hr hb ?_
  dsimp only
  rw [ho]
  refine Gives.guardThen rfl (Gives.neg (by simp [sp]) ?_)
  have k := homeLoad_gives (z := s) hg r c
  have e1 : laneRead e.acc.psize a (floorRaised g a.pa e.acc.psize (readAt (groupWho g gr e.unit) a.pa e.acc.psize s)) =
      laneRead e.acc.psize a (readAt (groupWho g gr e.unit) a.pa e.acc.psize s) := by
    exact laneRead_congr rfl rfl
  rw [e1] at k
  generalize hd : laneRead e.acc.psize a (readAt (groupWho g gr e.unit) a.pa e.acc.psize s) = d at *
  have hv : linePresent (floorRaised g a.pa e.acc.psize (readAt (groupWho g gr e.unit) a.pa e.acc.psize s)).home (a.pa / 64) = true :=
    brought_keeps (brought_present a.pa s)
  have hcl : (floorRaised g a.pa e.acc.psize (readAt (groupWho g gr e.unit) a.pa e.acc.psize s)).clusters = s.clusters := by
    obtain ⟨h, f⟩ := readAt_form (groupWho g gr e.unit) a.pa e.acc.psize s
    unfold floorRaised
    rw [f]
  unfold homeRead
  dsimp only
  generalize floorRaised g a.pa e.acc.psize (readAt (groupWho g gr e.unit) a.pa e.acc.psize s) = v at *
  have fin (x : State) : Gives (z := s) (do
      modHome fun h => { h with merge := h.merge ++
          [{ line := a.pa / 64, copy := { cells := memCells x (a.pa / 64 * 64) 64, at_ := h.now } }] }
      pure d) x d (homePut (fun h => { h with merge := h.merge ++
        [{ line := a.pa / 64, copy := { cells := memCells x (a.pa / 64 * 64) 64, at_ := h.now } }] }) x) :=
    homePut_gives.bind (Gives.pure _ _)
  split
  · next hh => exact absurd hh hc
  · refine k.bind ?_
    by_cases hp : e.acc.acq = false ∧ a.mt ≤ 1
    · rw [if_pos hp]
      have hpl : (decide (e.acc.space = 0) && !e.acc.acq && decide (a.mt ≤ 1)) = true := by simp [sp, hp.1, hp.2]
      rw [hpl]
      simp only [Bool.true_and, if_true]
      by_cases hmt : a.mt = 0
      · simp only [hmt, decide_true, if_true]
        have hcr : CacheRoom v (s.groupCluster g) a.pa := by
          have := cr hp.1 hmt
          unfold CacheRoom State.cluster at *
          rw [hcl]
          exact this
        exact (crcFill_gives (.inl hv) hcr).bind (Gives.getThen ((fin _).as (by
          have e2 : memCells (lineFilled (s.groupCluster g) a.pa v) (a.pa / 64 * 64) 64 = memCells v (a.pa / 64 * 64) 64 :=
            memCells_congr (filled_mem _ _ _) (filled_marks _ _ _) _ _
          rw [e2])))
      · simp only [hmt, decide_false, Bool.false_eq_true, if_false]
        exact Gives.getThen (fin v)
    · rw [if_neg hp]
      have hpl : (decide (e.acc.space = 0) && !e.acc.acq && decide (a.mt ≤ 1)) = false := by
        cases hq : e.acc.acq
        · have : ¬a.mt ≤ 1 := fun h => hp ⟨hq, h⟩
          simp [this]
        · simp
      rw [hpl]
      simp only [Bool.false_and, Bool.false_eq_true, if_false]
      exact Gives.pure _ _

/-- A load of a control register reads it there (R15). -/
theorem controlSource_gives {g : Nat} {e : LsEntry} {a : LaneAcc} {s : State} {gr : Group} (hg : s.group? g = some gr)
    (hr : gr.mayRead e.unit e.acc a = true) (hb : laneBlocked s g e.acc a = false) (sp : e.acc.space = 0)
    (ho : (gr.sq.filter fun f => f.unit < e.unit && f.acc.touches a.pa e.acc.psize) = []) (hc : paRange a.pa = .control) :
    Gives (z := s) (fromSource g e .home a) s { a with data := w0ReadBytes s 0 (a.pa - 0x8000000000) e.acc.psize, done := true } s := by
  refine source_gives hg hr hb ?_
  dsimp only
  rw [ho]
  refine Gives.guardThen rfl (Gives.neg (by simp [sp]) ?_)
  rw [hc]
  exact Gives.pure _ _

theorem plain_load {e : LsEntry} {a : LaneAcc} (p : PlainLoad e a) :
    (decide (e.acc.space = 0) && !e.acc.acq && decide (a.mt ≤ 1)) = true := by
  obtain ⟨h1, h2, h3⟩ := p
  simp [h1, h2, h3]

theorem cacheSource_gives {g : Nat} {e : LsEntry} {a : LaneAcc} {s : State} {gr : Group} {c : LineCopy} (hg : s.group? g = some gr)
    (hr : gr.mayRead e.unit e.acc a = true) (hb : laneBlocked s g e.acc a = false) (p : PlainLoad e a) (hm : a.mt = 0)
    (ho : (gr.sq.filter fun f => f.unit < e.unit && f.acc.touches a.pa e.acc.psize) = [])
    (hc : SMap.get? (s.cluster (s.groupCluster g)).crc (a.pa / 64) = some c)
    (l : ((c.cells.drop (a.pa % 64)).take e.acc.psize).length = e.acc.psize)
    (hf : gr.aboveFloor a.pa (((c.cells.drop (a.pa % 64)).take e.acc.psize).map (·.2)) = true)
    (cl : Clean s (groupWho g gr e.unit) a.pa e.acc.psize false) :
    Gives (z := s) (fromSource g e .cache a) s (cellsLane e.acc.psize a ((c.cells.drop (a.pa % 64)).take e.acc.psize) s)
      (cellsRead g e.acc.psize gr e a ((c.cells.drop (a.pa % 64)).take e.acc.psize) s) := by
  refine source_gives hg hr hb ?_
  dsimp only
  rw [ho, plain_load p]
  exact Gives.guardThen (by simp [hm]) (Gives.needThen hc (cells_gives l hf cl))

theorem mergeSource_gives {g i : Nat} {e : LsEntry} {a : LaneAcc} {s : State} {gr : Group} {c : LineCopy} (hg : s.group? g = some gr)
    (hr : gr.mayRead e.unit e.acc a = true) (hb : laneBlocked s g e.acc a = false) (p : PlainLoad e a)
    (ho : (gr.sq.filter fun f => f.unit < e.unit && f.acc.touches a.pa e.acc.psize) = [])
    (hc : s.home.merge[i]? = some { line := a.pa / 64, copy := c }) (hmu : gr.mu ≤ c.at_)
    (l : ((c.cells.drop (a.pa % 64)).take e.acc.psize).length = e.acc.psize)
    (hf : gr.aboveFloor a.pa (((c.cells.drop (a.pa % 64)).take e.acc.psize).map (·.2)) = true)
    (cl : Clean s (groupWho g gr e.unit) a.pa e.acc.psize false) :
    Gives (z := s) (fromSource g e (.merge i) a) s (cellsLane e.acc.psize a ((c.cells.drop (a.pa % 64)).take e.acc.psize) s)
      (cellsRead g e.acc.psize gr e a ((c.cells.drop (a.pa % 64)).take e.acc.psize) s) := by
  refine source_gives hg hr hb ?_
  dsimp only
  rw [ho, plain_load p]
  exact Gives.guardThen rfl (Gives.needThen hc (Gives.guardThen (by simp [hmu]) (cells_gives l hf cl)))

theorem bytesNat_natBytes (x n : Nat) : bytesNat (natBytes x n) = x % 2 ^ (8 * n) := by
  induction n generalizing x with
  | zero => simp [natBytes, bytesNat, Nat.mod_one]
  | succ n ih =>
    simp only [natBytes, bytesNat, ih, BitVec.toNat_ofNat]
    rw [show 8 * (n + 1) = 8 + 8 * n by omega, Nat.pow_add, Nat.mod_mul]

/-- A load that an older store of its group satisfies (R117). -/
theorem forwardSource_gives {g : Nat} {e : LsEntry} {a b : LaneAcc} {f : SqEntry} {s : State} {gr : Group} (hg : s.group? g = some gr)
    (hr : gr.mayRead e.unit e.acc a = true) (hb : laneBlocked s g e.acc a = false) (p : PlainLoad e a)
    (ho : (gr.sq.filter fun f => f.unit < e.unit && f.acc.touches a.pa e.acc.psize).getLast? = some f)
    (hl : f.acc.lanes.getLast? = some b) (hk : f.acc.kind = .store) (h1 : b.pa ≤ a.pa) (h2 : a.pa + e.acc.psize ≤ b.pa + f.acc.psize)
    (cl : Clean s (groupWho g gr e.unit) a.pa e.acc.psize false) :
    Gives (z := s) (fromSource g e .forward a) s
      { a with data := b.data / 2 ^ (8 * (a.pa - b.pa)) % 2 ^ (8 * e.acc.psize), done := true }
      (seenAt (groupWho g gr e.unit) a.pa e.acc.psize s) := by
  refine source_gives hg hr hb ?_
  dsimp only
  rw [plain_load p]
  have l := natBytes_length (b.data / 2 ^ (8 * (a.pa - b.pa))) e.acc.psize
  have k := noteRead_gives (z := s) (t := s) (w := groupWho g gr e.unit) (base := a.pa)
    (bs := natBytes (b.data / 2 ^ (8 * (a.pa - b.pa))) e.acc.psize) (by rw [l]; exact cl)
  rw [l] at k
  refine Gives.guardThen rfl (Gives.needThen ho (Gives.needThen hl (Gives.guardThen (by simp [hk, h1, h2]) (k.bind ?_))))
  rw [bytesNat_natBytes]
  exact Gives.pure _ _

/-! Messages -/

theorem slots_gives (e : Nat) (r : Ring) (m : Message) (t : State) :
    Gives (z := z) (writeSlots e r m) t () (slotsWritten e r m t) := by
  unfold writeSlots slotsWritten
  refine forEach_fold (fun t i => ?_) _ _
  exact (spStore_gives (sys_clean _ _ _ _)).bind teamPut_gives

theorem slots_team (e : Nat) (r : Ring) (m : Message) {t : State} {x : Nat} (h : ∃ a, t.team? x = some a) :
    ∃ a, (slotsWritten e r m t).team? x = some a := by
  unfold slotsWritten
  generalize List.range m.slots = l
  induction l generalizing t with
  | nil => exact h
  | cons i l ih => exact ih (has_adjust (has_adjust h))

theorem gone_gives {g idx : Nat} {t : State} : Gives (z := z) (do
    modGroup g fun gr => { gr with outbox := gr.outbox.eraseIdx idx }
    sweep) t () (messageGone g idx t) := groupPut_gives.bind (sweep_gives _)

theorem noted_gives (g e : Nat) (m : Message) (t : State) : Gives (z := z) (noteMessage g e m) t () (messageNoted g e m t) :=
  Gives.getThen teamPut_gives

end Sys2Proof.Machine
end

