-- ==== Sys2Proof/Laws/Engines.lean ====
section
/-! SUPPORT. What the steps of the engines leave. -/

namespace Sys2Proof.Machine

variable {z : State}

theorem currentTaken_gives {cl amount : Nat} {who : Asker} {rest : List Current} {s : State} (h : Grantable s cl who amount rest)
    (hw : ∀ c, who ≠ .vec c ∧ who ≠ .sfu c) : Gives (z := z) (askCurrent cl who amount) s true (currentTaken cl who amount rest s) := by
  obtain ⟨h1, h2, h3⟩ := h
  unfold currentAsk at h3
  unfold askCurrent
  refine Gives.getThen (Gives.neg (by simp [h1]) (Gives.neg (by simp [h2]) ?_))
  dsimp only
  rw [h3]
  refine Gives.pos (by cases who <;> simp) (strPut_gives'.bind (Gives.bind (a := ()) (u := currentTaken cl who amount rest s) ?_ (Gives.pure _ _)))
  unfold startReservation
  refine Gives.getThen ?_
  cases who
  case vec c => exact absurd rfl (hw c).1
  case sfu c => exact absurd rfl (hw c).2
  all_goals exact Gives.pure _ _

theorem engAt_gives {cl id e p : Nat} {denied : List (Nat × Nat)} {clock : Clock} {t : State} {tm : Team} {l : Launch} (ht : t.team? e = some tm)
    (hl : t.launch? tm.launch = some l) : Gives (z := z) (engOf cl id e p denied clock) t (engAt cl id tm l denied clock p) t := by
  unfold engOf
  exact (Gives.getTeam ht).bind ((teamRec_gives hl).bind (Gives.pure _ _))

theorem find_map {α : Type} {l : List α} {p : α → Bool} {f : α → α} {a : α} (h : l.find? p = some a) (k : ∀ x, p (f x) = p x) :
    (l.map f).find? p = some (f a) := by
  induction l with
  | nil => cases h
  | cons b l ih =>
    rw [List.map_cons, List.find?_cons, k]
    rw [List.find?_cons] at h
    cases hb : p b <;> rw [hb] at h
    · exact ih h
    · simp only [Option.some.injEq] at h; rw [h]

theorem map_id_congr {α : Type} {l : List α} {p : α → Bool} {f g : α → α} (h : ∀ x, p x = true → f x = g x) :
    l.map (fun x => if p x then f x else x) = l.map (fun x => if p x then g x else x) := by
  apply List.map_congr_left
  intro x _
  by_cases hp : p x = true
  · simp [hp, h x hp]
  · simp [hp]

theorem copyPoint_run {cl p : Nat} {op : CopyOp} {tm : Team} {l : Launch} {w : List (Nat × Nat)} {m : Met} {key : Nat} {v u : State}
    (hf : (v.cluster cl).copyq.find? (fun o => o.id = op.id) = some op) (ht : v.team? op.eid = some tm)
    (hl : v.launch? tm.launch = some l) (hk : ∀ sn d, op.kind ≠ .fold sn d)
    (k : Gives (z := z) (copyPoint (engAt cl op.id tm l op.denied op.clock p) op tm.shape.spad p) v (w, m, key) u) (hm : m.miss = none) :
    Gives (z := z) (runCopyPoint cl op.id p) v () (clusterPut cl (fun c =>
      { c with copyq := c.copyq.map fun o => if o.id = op.id then o.moved p w m key else o }) u) := by
  unfold runCopyPoint
  refine Gives.getThen (Gives.needThen hf ((Gives.getTeam ht).bind ((engAt_gives ht hl).bind ?_)))
  dsimp only
  refine Gives.bind (a := (w, m, key)) (u := u) ?_ ?_
  · split
    · next sn d h => exact absurd h (hk sn d)
    · exact k
  · dsimp only
    rw [hm]
    exact clusterPut_gives

theorem matPoint_run {cl p : Nat} {op : MatOp} {tm : Team} {l : Launch} {m : Met} {v u : State}
    (hf : (v.cluster cl).mat.find? (fun o => o.id = op.id) = some op) (ht : v.team? op.eid = some tm)
    (hl : v.launch? tm.launch = some l)
    (k : Gives (z := z) (matPoint (engAt cl op.id tm l op.denied op.clock p) op p) v m u) (hm : m.miss = none) :
    Gives (z := z) (runMatPoint cl op.id p) v () (clusterPut cl (fun c =>
      { c with mat := c.mat.map fun o => if o.id = op.id then o.moved p m else o }) u) := by
  unfold runMatPoint
  refine Gives.getThen (Gives.needThen hf ((engAt_gives ht hl).bind (k.bind ?_)))
  rw [hm]
  exact clusterPut_gives

theorem nat_bytes (bs : List Byte) : natBytes (bytesNat bs) bs.length = bs := by
  induction bs with
  | nil => rfl
  | cons b bs ih =>
    have h1 : (b.toNat + 256 * bytesNat bs) / 256 = bytesNat bs := by have := b.isLt; omega
    have h2 : BitVec.ofNat 8 (b.toNat + 256 * bytesNat bs) = b := by
      apply BitVec.eq_of_toNat_eq
      have := b.isLt
      simp only [BitVec.toNat_ofNat]
      omega
    simp only [bytesNat, List.length_cons, natBytes, h1, h2, ih]

theorem spPut_bytes {tm : Team} (off n : Nat) : natBytes (spNat tm off n) n = spBytes tm off n := by
  have h := nat_bytes (spBytes tm off n)
  rw [show (spBytes tm off n).length = n from by simp [spBytes]] at h
  exact h

theorem forEach_one {α : Type} {f : α → M z Unit} {a : α} {t u : State} (h : Gives (f a) t () u) : Gives (forEach [a] f) t () u :=
  Gives.bind (a := ()) h (Gives.pure _ _)

theorem cluster_put {t : State} {i : Nat} {f : Cluster → Cluster} : (clusterPut i f t).cluster i = f (t.cluster i) := by
  unfold State.cluster clusterPut
  rw [SMap.get?_put_self]
  rfl

theorem lineDiscarded_gives (line : Nat) (t : State) : Gives (z := z) (dropLine line) t () (lineDiscarded line t) := by
  unfold dropLine lineDiscarded
  refine Gives.getThen ?_
  dsimp only
  cases SMap.get? t.home.dirty line with
  | none => exact homePut_gives
  | some old =>
    dsimp only
    refine Gives.bind (a := t.home.now + 1) (u := homePut (fun h => { h with now := t.home.now + 1 }) t) (fun _ => ⟨_, rfl⟩) (homePut_gives.bind ?_)
    exact forEach_fold (fun u i => homePut_gives.bind (Gives.write (64 * line + i) (old.getD i 0) _)) _ _

theorem filter_off {l : List CollOp} {k : Nat} {f : CollOp → CollOp} (h : ∀ c, (f c).id = c.id) :
    (l.map fun c => if c.id = k then f c else c).filter (fun c => decide (c.id ≠ k)) = l.filter fun c => decide (c.id ≠ k) := by
  induction l with
  | nil => rfl
  | cons c l ih =>
    by_cases e : c.id = k
    · simp only [List.map_cons, e, if_true, List.filter_cons, h, ne_eq, not_true_eq_false, decide_false, Bool.false_eq_true, if_false]
      exact ih
    · simp only [List.map_cons, e, if_false, List.filter_cons, ne_eq, not_false_eq_true, decide_true, if_true]
      rw [← ih]

end Sys2Proof.Machine
end

