-- ==== Sys2Proof/Laws/Teams.lean ====
section
/-! SUPPORT. What begin, retire, save and restore of a team leave. -/

namespace Sys2Proof.Machine

variable {z : State}

theorem stringWoken_gives (i : Nat) (t : State) : Gives (z := z) (wakeString i) t () (stringWoken i t) := Gives.getThen strPut_gives'

theorem fetchWords_firm (va : W64) (n : Nat) (ps : List LaneAcc) : Leaves Firm (fetchWords va n ps : M z (List (W32 × Bool))) :=
  (Leaves.get firm_order).bind firm_order fun _ => (Leaves.guard firm_order _).bind firm_order fun _ => Leaves.pure firm_order _

theorem sysFetch_firm (ctx : Nat) (c : CtxRec) (va : W64) (n : Nat) : Leaves Firm (sysFetch ctx c va n : M z (Option (List (W32 × Bool)))) := by
  unfold sysFetch
  refine (Leaves.mapEach firm_order _ fun i => (sysXlate_firm _ _ _ _ _).bind firm_order fun r => ?_).bind firm_order fun fs =>
    Leaves.ite (Leaves.pure firm_order _) ((fetchWords_firm _ _ _).bind firm_order fun _ => Leaves.pure firm_order _)
  split <;> exact Leaves.pure firm_order _

theorem overlayWords_firm (ctx : Nat) (c : CtxRec) (a b : Nat) : Leaves Firm (overlayWords ctx c a b : M z (Option (List (W32 × Bool)))) := by
  refine (sysFetch_firm _ _ _ _).bind firm_order fun r => ?_
  split
  · exact Leaves.pure firm_order _
  · split
    · exact sysFetch_firm _ _ _ _
    · exact Leaves.pure firm_order _

/-- The words of a read that reaches its pages are those of memory, with the poison under them. -/
theorem fetchWords_gives {va : W64} {n : Nat} {ps : List LaneAcc} {t : State}
    (h : ∀ i, i < n → sysWaits t (placeIn va ps (4 * i)) = false) :
    Gives (z := z) (fetchWords va n ps) t ((List.range n).map fun i =>
      (BitVec.ofNat 32 (Memory.readNat t.mem (placeIn va ps (4 * i)).pa 4), sectorPoison t (placeIn va ps (4 * i)).pa 4)) t := by
  unfold fetchWords
  refine (Gives.get t).bind (Gives.bind (Gives.guard ?_ t) ?_)
  · simp only [List.all_map, List.all_eq_true, List.mem_range]
    intro i hi
    simp [h i hi]
  · rw [List.map_map]
    exact Gives.pure _ _

theorem slotZero_gives {core : Nat} {key : Nat × Nat} {ws : List (W32 × Bool)} {t : State} :
    Gives (z := z) (fillSlot core 0 (some key) ws) t () (slotZeroFilled core key ws t) := by
  exact corePut_gives

theorem teams_firm {t u : State} (h : Firm t u) (e : Nat) : u.team? e = t.team? e := by unfold State.team?; rw [h.teams]

theorem launches_firm {t u : State} (h : Firm t u) (e : Nat) : u.launch? e = t.launch? e := by unfold State.launch?; rw [h.launches]

/-- The waits that are noted: neighbourhoods that find no place (R324). -/
theorem waitsNoted_gives (t : State) : Gives (z := z) noteWaiting t () (waitsNoted t) := by
  unfold noteWaiting waitsNoted
  refine Gives.getThen (forEach_fold (f := fun (p : Nat × Grid) => if p.2.nbh && !p.2.waits then _ else _)
    (F := fun u (p : Nat × Grid) => if findsNoPlace t p.1 p.2 then gridPut p.1 (fun gd => { gd with waits := true }) u else u)
    (fun u p => ?_) _ _)
  unfold findsNoPlace
  cases h : p.2.nbh && !p.2.waits
  · simp only [Bool.false_eq_true, if_false, Bool.false_and]
    exact Gives.pure _ _
  · simp only [if_true, Bool.true_and]
    cases p.2.teams.head?.bind t.team? with
    | none => exact Gives.pure _ _
    | some tm =>
      simp only [Option.any_some]
      split
      · exact gridPut_gives
      · exact Gives.pure _ _

theorem noted_grids (s : State) : ∃ g, waitsNoted s = { s with grids := g } := by
  unfold waitsNoted
  generalize s.grids = l
  have key (l : SMap Grid) : ∀ t : State, (∃ g, t = { s with grids := g }) → ∃ g, l.foldl (fun t (p : Nat × Grid) =>
      if findsNoPlace s p.1 p.2 then gridPut p.1 (fun gd => { gd with waits := true }) t else t) t = { s with grids := g } := by
    induction l with
    | nil => exact fun t h => h
    | cons p l ih =>
      intro t h
      refine ih _ ?_
      obtain ⟨g, rfl⟩ := h
      by_cases hp : findsNoPlace s p.1 p.2 = true
      · exact ⟨_, if_pos hp⟩
      · exact ⟨g, if_neg hp⟩
  exact key l s ⟨s.grids, rfl⟩

/-- What begins a team once its words are in slot 0 (R285). -/
theorem begun_gives {eid core : Nat} {tm : Team} {t : State} {words : Option (Option (List (W32 × Bool)))} {k : M z Unit}
    (h : words.isNone = false) :
    Gives (z := z) (do
      forgetSpad eid
      forgetIssues eid core
      if tm.tidx = 0 then modGrid tm.grid fun gd => { gd with core0 := core }
      let s ← getS
      modTeam eid fun t =>
        { t with state := .running, core := some core, sysWait := none, beginCyc := (s.cluster (coreCluster core)).cyc, charged := 0, barriers := []
                 mat := freshMatrix s (coreCluster core) t, spad := [], spadPoison := [], boGlobal := [], boClock := [], ringRels := [] }
      modLaunch tm.launch fun l => { l with began := true }
      wakeString (clusterString (coreCluster core))
      forEach (List.range tm.shape.groups) fun i => do
        putGroup (32 * eid + i) (freshGroup tm i s.home.now (knownAtBegin s tm))
        acquire (32 * eid + i) 3
      if words.isNone = true then k else pure ()) t () (begun eid core tm t) := by
  have fin (b : State) : Gives (z := z) (do
      let s ← getS
      modTeam eid fun t =>
        { t with state := .running, core := some core, sysWait := none, beginCyc := (s.cluster (coreCluster core)).cyc, charged := 0, barriers := []
                 mat := freshMatrix s (coreCluster core) t, spad := [], spadPoison := [], boGlobal := [], boClock := [], ringRels := [] }
      modLaunch tm.launch fun l => { l with began := true }
      wakeString (clusterString (coreCluster core))
      forEach (List.range tm.shape.groups) fun i => do
        putGroup (32 * eid + i) (freshGroup tm i s.home.now (knownAtBegin s tm))
        acquire (32 * eid + i) 3
      if words.isNone = true then k else pure ()) b () ((List.range tm.shape.groups).foldl (fun v i =>
        acquired (32 * eid + i) 3 { v with
          groups := SMap.put v.groups (32 * eid + i) (freshGroup tm i b.home.now (knownAtBegin b tm)) })
        (stringWoken (clusterString (coreCluster core)) (launchPut tm.launch (fun l => { l with began := true }) (teamPut eid (fun q =>
          { q with state := .running, core := some core, sysWait := none, beginCyc := (b.cluster (coreCluster core)).cyc, charged := 0, barriers := []
                   mat := freshMatrix b (coreCluster core) q, spad := [], spadPoison := [], boGlobal := [], boClock := [], ringRels := [] }) b)))) :=
    Gives.getThen (teamPut_gives.bind (launchPut_gives.bind ((stringWoken_gives _ _).bind
      ((forEach_fold (fun _ _ => Gives.bind (Gives.mod _ _ _) (acquire_gives _ _ _)) _ _).bind
        (Gives.neg (by simp [h]) (Gives.pure _ _))))))
  refine homePut_gives.bind (corePut_gives.bind ?_)
  unfold begun
  dsimp only
  by_cases h0 : tm.tidx = 0
  · rw [if_pos h0, if_pos h0]
    exact gridPut_gives.bind (fin _)
  · rw [if_neg h0, if_neg h0]
    exact fin _

theorem journalTeam_quiet {e p ty sq ob : Nat} {st : Bool} {t : State} {tm : Team} {l : Launch} (ht : t.team? e = some tm)
    (hl : t.launch? tm.launch = some l) (hj : l.journal = 0) : Gives (z := z) (journalTeam e p ty sq ob st) t () t :=
  (Gives.getTeam ht).bind ((journalAt_off hl hj).bind (Gives.pure _ _))

theorem siblingsReleased_gives {gid : Nat} {c : Clock} {t : State} {gd : Grid} (hg : t.grid? gid = some gd) :
    Gives (z := z) (releaseSiblings gid c) t () (siblingsReleased gid c t) := by
  unfold releaseSiblings siblingsReleased
  rw [hg]
  refine (Gives.getGrid hg).bind (Gives.getThen ?_)
  refine forEach_fold (f := fun (p : Nat × Grid) => if waitsFor p.2 gd then _ else _)
    (F := fun v (p : Nat × Grid) => if waitsFor p.2 gd then gridPut p.1 (fun b => { b with start := b.start.join c }) v else v)
    (fun v p => ?_) _ _
  split
  · exact gridPut_gives
  · exact Gives.pure _ _

theorem credited_gives {e amount : Nat} {t : State} {tm : Team} (ht : t.team? e = some tm) (hc : cycleFresh t e tm = true) :
    Gives (z := z) (creditTeam e amount) t () (teamPut e (fun q => q.receive amount) t) :=
  (Gives.getTeam ht).bind (Gives.getThen (Gives.guardThen hc teamPut_gives))

/-- Grids change, and their sizes and teams do not: what a fold over grids leaves. -/
theorem grids_fold {α : Type} (l : List α) (f : α → State → State) (hf : ∀ x t, ∃ g, f x t = { t with grids := g }) : ∀ t,
    ∃ g, l.foldl (fun t x => f x t) t = { t with grids := g } := by
  induction l with
  | nil => exact fun t => ⟨t.grids, rfl⟩
  | cons x l ih =>
    intro t
    obtain ⟨g, e⟩ := hf x t
    obtain ⟨g', e'⟩ := ih (f x t)
    exact ⟨g', by rw [List.foldl_cons, e', e]⟩

theorem released_form (gid : Nat) (c : Clock) (t : State) : ∃ g, siblingsReleased gid c t = { t with grids := g } := by
  unfold siblingsReleased
  split
  · next gd _ =>
    refine grids_fold t.grids (fun (p : Nat × Grid) v => if waitsFor p.2 gd then gridPut p.1 (fun b => { b with start := b.start.join c }) v else v)
      (fun p v => ?_) t
    by_cases h : waitsFor p.2 gd = true
    · exact ⟨_, if_pos h⟩
    · exact ⟨v.grids, if_neg h⟩
  · exact ⟨t.grids, rfl⟩

/-- A retired team changes no other team and no core. -/
theorem retired_form (eid : Nat) (tm : Team) (t : State) : ∃ g l, retired eid tm t = { t with
    grids := g, launches := l, teams := SMap.adjust t.teams eid fun q =>
      { q.leaveCore with state := .done, al := 0, due := 0, heldTopup := 0, stop := .running, preempt := none, migrate := false
                         moving := false, children := [] } } := by
  unfold retired
  dsimp only
  obtain ⟨g, e⟩ := grids_fold tm.children (fun c t => gridPut c (fun gd => { gd with kept := false }) t) (fun _ _ => ⟨_, rfl⟩)
    (teamPut eid (fun q => { q.leaveCore with state := .done, al := 0, due := 0, heldTopup := 0, stop := .running, preempt := none
                                              migrate := false, moving := false, children := [] }) t)
  obtain ⟨g', e'⟩ := released_form tm.grid (teamRelease t eid) (gridPut tm.grid (fun gd => { gd with clock := gd.clock.join (teamRelease t eid) })
    (tm.children.foldl (fun t c => gridPut c (fun gd => { gd with kept := false }) t)
      (teamPut eid (fun q => { q.leaveCore with state := .done, al := 0, due := 0, heldTopup := 0, stop := .running, preempt := none
                                                migrate := false, moving := false, children := [] }) t)))
  rw [e', e]
  exact ⟨_, _, rfl⟩

theorem get?_fold_grids {l : List Nat} {i : Nat} {gd : Grid} : ∀ {t : State}, t.grid? i = some gd →
    ∃ gd', (l.foldl (fun t c => gridPut c (fun gd => { gd with kept := false }) t) t).grid? i = some gd' := by
  induction l generalizing gd with
  | nil => exact fun h => ⟨gd, h⟩
  | cons c l ih =>
    intro t h
    obtain ⟨gd', e⟩ := has_adjust (k := c) (f := fun gd => { gd with kept := false }) ⟨gd, show SMap.get? t.grids i = some gd from h⟩
    exact ih (t := gridPut c (fun gd => { gd with kept := false }) t) e

/-- A team retires (R144, R155, R287): the forms that pass no ticket. -/
theorem retired_gives {eid : Nat} {tm : Team} {s : State} (ht : s.team? eid = some tm) {l : Launch} {gd : Grid}
    (hl : s.launch? tm.launch = some l) (hj : l.journal = 0) (hst : tm.state = .running ∨ tm.state = .unwinding) (h1 : groupsEnded s eid = true)
    (h2 : engineBusy s eid = false) (h3 : childrenDone s tm = true) (hg : s.grid? tm.grid = some gd) (hk : gd.tickets = [])
    (hp : ∀ p, tm.parent = some p → l.phm = false → p ≠ eid ∧ ∃ pt, s.team? p = some pt ∧ cycleFresh s p pt = true) :
    Gives (z := s) (retireTeam eid) s () (swept (
      let u := retired eid tm (waitsNoted s)
      let rest := tm.al.toNat + tm.due
      match tm.parent with
      | none => launchPut tm.launch (fun l => { l with credited := l.credited + rest + tm.heldTopup }) u
      | some p =>
        if l.phm then launchPut tm.launch (fun l => { l with held := l.held + rest + tm.heldTopup }) u
        else teamPut p (fun q => q.receive rest) u)) := by
  have hph : phaseMode s tm = l.phm := by unfold phaseMode; rw [hl]
  unfold retireTeam
  refine (Gives.getTeam ht).bind (Gives.getThen (Gives.guardThen ?_ ((journalTeam_quiet ht hl hj).bind ?_)))
  · rcases hst with h | h <;> simp [h, h1, h2, h3]
  refine Gives.bind (a := ()) (u := s) ?_ ?_
  · unfold passAll
    refine (Gives.getTeam ht).bind ((Gives.getGrid hg).bind ?_)
    rw [hk]
    exact Gives.pure _ _
  refine (waitsNoted_gives s).bind ?_
  obtain ⟨g, en⟩ := noted_grids s
  have ht' : (waitsNoted s).team? eid = some tm := by rw [en]; exact ht
  have hg' : ∃ gd, (waitsNoted s).grid? tm.grid = some gd := by
    have key : ∀ (l : SMap Grid) (t : State), (∃ gd, t.grid? tm.grid = some gd) → ∃ gd, (l.foldl (fun t (p : Nat × Grid) =>
        if findsNoPlace s p.1 p.2 then gridPut p.1 (fun gd => { gd with waits := true }) t else t) t).grid? tm.grid = some gd := by
      intro l
      induction l with
      | nil => exact fun t h => h
      | cons p l ih =>
        intro t h
        refine ih _ ?_
        by_cases hc : findsNoPlace s p.1 p.2 = true
        · simp only [hc, if_true]
          exact has_adjust h
        · simp only [hc]
          exact h
    exact key s.grids s ⟨gd, hg⟩
  refine (Gives.getTeam ht').bind (Gives.getThen ?_)
  dsimp only
  have hr : Gives (z := s) (do
      modTeam eid fun t => { t.leaveCore with state := .done, al := 0, due := 0, heldTopup := 0, stop := .running, preempt := none, migrate := false, moving := false, children := [] }
      forEach tm.children dropRecord
      modGrid tm.grid fun gd => { gd with clock := gd.clock.join (teamRelease (waitsNoted s) eid) }
      releaseSiblings tm.grid (teamRelease (waitsNoted s) eid)
      modLaunch tm.launch fun l => { l with clock := l.clock.join (teamRelease (waitsNoted s) eid) }) (waitsNoted s) () (retired eid tm (waitsNoted s)) := by
    obtain ⟨gd1, e1⟩ := hg'
    obtain ⟨gd2, e2⟩ := get?_fold_grids (l := tm.children) (i := tm.grid) (t := teamPut eid (fun q =>
      { q.leaveCore with state := .done, al := 0, due := 0, heldTopup := 0, stop := .running, preempt := none, migrate := false
                         moving := false, children := [] }) (waitsNoted s)) (gd := gd1) e1
    obtain ⟨gd3, e3⟩ := has_adjust (k := tm.grid) (f := fun gd => { gd with clock := gd.clock.join (teamRelease (waitsNoted s) eid) }) ⟨gd2, e2⟩
    exact teamPut_gives.bind ((forEach_fold (fun _ _ => gridPut_gives) _ _).bind (gridPut_gives.bind
      ((siblingsReleased_gives (gd := gd3) (by exact e3)).bind launchPut_gives)))
  have fin {k : M s Unit} {v : State} (h : Gives k (retired eid tm (waitsNoted s)) () v) : Gives (z := s) (do
      modTeam eid fun t => { t.leaveCore with state := .done, al := 0, due := 0, heldTopup := 0, stop := .running, preempt := none, migrate := false, moving := false, children := [] }
      forEach tm.children dropRecord
      modGrid tm.grid fun gd => { gd with clock := gd.clock.join (teamRelease (waitsNoted s) eid) }
      releaseSiblings tm.grid (teamRelease (waitsNoted s) eid)
      modLaunch tm.launch fun l => { l with clock := l.clock.join (teamRelease (waitsNoted s) eid) }
      k) (waitsNoted s) () v := by
    have := hr.bind (f := fun _ => k) h
    simpa only [bind_assoc] using this
  rw [hph]
  cases hpa : tm.parent with
  | none => exact fin (launchPut_gives.bind (sweep_gives _))
  | some p =>
    dsimp only
    cases h : l.phm
    · obtain ⟨hne, pt, hpt, hf⟩ := hp p hpa h
      obtain ⟨g2, l2, e2⟩ := retired_form eid tm (waitsNoted s)
      have hpt' : (retired eid tm (waitsNoted s)).team? p = some pt := by
        rw [e2, en]
        exact (SMap.get?_adjust_ne _ _ (Ne.symm hne)).trans hpt
      have hf' : cycleFresh (retired eid tm (waitsNoted s)) p pt = true := by
        rw [e2, en]
        exact hf
      exact fin ((credited_gives hpt' hf').bind (sweep_gives _))
    · exact fin (launchPut_gives.bind (sweep_gives _))

theorem creditBack_gives {e : Nat} {amount : W64} {t : State} {tm : Team} (ht : t.team? e = some tm)
    (hf : phaseMode t tm = true ∨ cycleFresh t e tm = true) :
    Gives (z := z) (creditBack e amount) t () (if phaseMode t tm then launchPut tm.launch (fun l => { l with held := l.held + amount.toNat }) t
      else teamPut e (fun q => q.receive amount.toNat) t) := by
  unfold creditBack
  refine (Gives.getTeam ht).bind (Gives.getThen ?_)
  by_cases h : phaseMode t tm = true
  · rw [if_pos h, if_pos h]
    exact launchPut_gives
  · rw [if_neg h, if_neg h]
    exact credited_gives ht (hf.resolve_left h)

/-- The statuses of a topup that reaches its child (R150). -/
theorem serialise_gives {phm : Bool} {c : Nat} {amount : W64} {t : State} {ch : Team} (hc : t.team? c = some ch) {st : Nat}
    (hst : topupStatus phm ch amount = st) {u : State}
    (h : (st = 0 ∧ u = teamPut c (fun q => q.receive amount.toNat) t) ∨
      (st = 1 ∧ u = resumed c ch (teamPut c (fun q => q.receive amount.toNat) t)) ∨
      (st = 4 ∧ u = teamPut c (fun q => { q with heldTopup := q.heldTopup + amount.toNat }) t) ∨ (st = 2 ∧ u = t)) :
    Gives (z := z) (serialise phm c amount) t st u := by
  unfold serialise
  refine (Gives.getTeam hc).bind ?_
  dsimp only
  rw [hst]
  rcases h with ⟨rfl, rfl⟩ | ⟨rfl, rfl⟩ | ⟨rfl, rfl⟩ | ⟨rfl, rfl⟩
  · exact teamPut_gives.bind (Gives.pure _ _)
  · have k := resume_gives (z := z) (team_put (f := fun q => q.receive amount.toNat) hc)
    have e : (ch.receive amount.toNat).pendingGroup = ch.pendingGroup := by unfold Team.receive; split <;> rfl
    rw [resumed_eq _ _ ch _ e] at k
    exact teamPut_gives.bind (k.bind (Gives.pure _ _))
  · exact teamPut_gives.bind (Gives.pure _ _)
  · exact Gives.pure _ _

theorem topupChild_gives {g dst tag c : Nat} {amount : W64} {s u : State} {gr : Group} {tm ch : Team} {l : Launch} {st : Nat}
    (hg : s.group? g = some gr) (hh : gr.hold = some (.topup dst tag amount)) (ht : s.team? (groupTeam g) = some tm)
    (hl : s.launch? tm.launch = some l) (hj : l.journal = 0) (h0 : tag ≠ 0) (h1 : childTeam s (groupTeam g) tag = some (c, ch))
    (h2 : topupStatus l.phm ch amount = st) (k : Gives (z := s) (serialise l.phm c amount) s st u)
    (hst : st ≠ 2 ∧ st ≠ 3) : Gives (z := s) (serialiseTopup g) s () (toppedUp g dst st u) := by
  have hph : phaseMode s tm = l.phm := by unfold phaseMode; rw [hl]
  unfold serialiseTopup
  refine (Gives.getGroup hg).bind ?_
  rw [hh]
  refine Gives.getThen ((Gives.getTeam ht).bind ?_)
  dsimp only
  rw [hph, if_neg h0, h1]
  dsimp only
  subst h2
  refine (Gives.attempt (journalGroup_off ht hl hj)).bind (k.bind ?_)
  exact Gives.neg (by simp [hst.1, hst.2]) groupPut_gives

/-- An amount goes back to its issuer, whose child is DONE or unwinding (status 2). -/
theorem topupBack_gives {g dst tag c : Nat} {amount : W64} {s : State} {gr : Group} {tm ch : Team} {l : Launch}
    (hg : s.group? g = some gr) (hh : gr.hold = some (.topup dst tag amount)) (ht : s.team? (groupTeam g) = some tm)
    (hl : s.launch? tm.launch = some l) (hj : l.journal = 0) (h0 : tag ≠ 0) (h1 : childTeam s (groupTeam g) tag = some (c, ch))
    (hc : s.team? c = some ch) (h2 : topupStatus l.phm ch amount = 2) (hf : l.phm = true ∨ cycleFresh s (groupTeam g) tm = true) :
    Gives (z := s) (serialiseTopup g) s () (toppedUp g dst 2
      (if l.phm then launchPut tm.launch (fun l => { l with held := l.held + amount.toNat }) s
        else teamPut (groupTeam g) (fun q => q.receive amount.toNat) s)) := by
  have hph : phaseMode s tm = l.phm := by unfold phaseMode; rw [hl]
  have k := creditBack_gives (z := s) (amount := amount) ht (by rw [hph]; exact hf)
  rw [hph] at k
  unfold serialiseTopup
  refine (Gives.getGroup hg).bind ?_
  rw [hh]
  refine Gives.getThen ((Gives.getTeam ht).bind ?_)
  dsimp only
  rw [hph, if_neg h0, h1]
  dsimp only
  simp only [h2]
  refine (Gives.attempt (journalGroup_off ht hl hj)).bind ((serialise_gives hc h2 (.inr (.inr (.inr ⟨rfl, rfl⟩)))).bind ?_)
  exact Gives.pos rfl (k.bind groupPut_gives)

theorem topupNone_gives {g dst tag : Nat} {amount : W64} {s : State} {gr : Group} {tm : Team} {l : Launch}
    (hg : s.group? g = some gr) (hh : gr.hold = some (.topup dst tag amount)) (ht : s.team? (groupTeam g) = some tm)
    (hl : s.launch? tm.launch = some l) (hj : l.journal = 0) (h1 : tag = 0 ∨ childTeam s (groupTeam g) tag = none)
    (hf : l.phm = true ∨ cycleFresh s (groupTeam g) tm = true) :
    Gives (z := s) (serialiseTopup g) s () (toppedUp g dst 3
      (if l.phm then launchPut tm.launch (fun l => { l with held := l.held + amount.toNat }) s
        else teamPut (groupTeam g) (fun q => q.receive amount.toNat) s)) := by
  have hph : phaseMode s tm = l.phm := by unfold phaseMode; rw [hl]
  have k := creditBack_gives (z := s) (amount := amount) ht (by rw [hph]; exact hf)
  rw [hph] at k
  have hn : (if tag = 0 then none else childTeam s (groupTeam g) tag) = none := by
    rcases h1 with h | h
    · rw [if_pos h]
    · rw [h]; exact ite_self _
  unfold serialiseTopup
  refine (Gives.getGroup hg).bind ?_
  rw [hh]
  refine Gives.getThen ((Gives.getTeam ht).bind ?_)
  dsimp only
  rw [hn]
  dsimp only
  refine (Gives.attempt (journalGroup_off ht hl hj)).bind ?_
  exact Gives.pos rfl (k.bind groupPut_gives)

theorem applyOrdered_none {launch : Nat} {t : State} (h : t.home.ordered.filter (fun c => decide (c.launch = launch)) = []) :
    Gives (z := z) (applyOrdered launch) t () (homePut (fun h => { h with ordered := h.ordered.filter fun c => c.launch ≠ launch }) t) := by
  unfold applyOrdered
  refine Gives.getThen ?_
  dsimp only
  rw [h]
  exact Gives.bind (Gives.pure _ _) homePut_gives

theorem recordPreempt_quiet {e ob sv : Nat} {t : State} {tm : Team} {l : Launch} (ht : t.team? e = some tm)
    (hl : t.launch? tm.launch = some l) (hj : l.journal = 0) : Gives (z := z) (recordPreempt e ob sv) t () t := by
  have h1 : l.journal ≠ 1 := by rw [hj]; decide
  unfold recordPreempt
  exact (Gives.getTeam ht).bind ((Gives.getLaunch hl).bind (Gives.neg (by simpa using h1) (Gives.pure _ _)))

theorem nbh_off {s : State} {e : Nat} {tm : Team} {gd : Grid} (ht : s.team? e = some tm) (hg : s.grid? tm.grid = some gd)
    (hn : gd.nbh = false) : isNbh s e = false := by
  unfold isNbh; rw [ht]; dsimp only; rw [hg]; exact hn

theorem currentReleased_groups (cl : Nat) (who : Asker) (t : State) : (currentReleased cl who t).groups = t.groups := by
  unfold currentReleased quieted
  rfl

theorem slotsLeft_gives (ws : List Wait) (t : State) : Gives (z := z) (detach ws) t () (slotsLeft ws t) := by
  unfold detach slotsLeft
  refine forEach_fold (fun t w => ?_) _ _
  cases w
  · exact tablePut_gives
  · exact Gives.pure _ _

theorem slotsLeft_groups (ws : List Wait) (t : State) : (slotsLeft ws t).groups = t.groups := by
  unfold slotsLeft
  generalize ws.eraseDups = l
  induction l generalizing t with
  | nil => rfl
  | cons w l ih =>
    rw [List.foldl_cons, ih]
    cases w <;> rfl

theorem groupsSaved_gives (core : Nat) (gs : List Nat) : ∀ t : State, (∀ g ∈ gs, ∃ gr, t.group? g = some gr) →
    Gives (z := z) (forEach gs fun g => do
      let gr ← getGroup g
      match gr.parked with
      | some p => detach (p.waits.map (·.2))
      | none => pure ()
      releaseCurrent (coreCluster core) (.cres g)
      modGroup g Group.saved) t () (groupsSaved gs core t) := by
  induction gs with
  | nil => exact fun t _ => Gives.pure _ _
  | cons g gs ih =>
    intro t h
    obtain ⟨gr, e⟩ := h g (List.mem_cons_self ..)
    let v : State := match (t.group? g).bind Group.parked with
      | some p => slotsLeft (p.waits.map (·.2)) t
      | none => t
    have hv : v.groups = t.groups := by
      dsimp only [v]
      split
      · exact slotsLeft_groups _ _
      · rfl
    refine Gives.bind (a := ()) (u := groupPut g Group.saved (currentReleased (coreCluster core) (.cres g) v))
      ((Gives.getGroup e).bind ?_) (ih _ fun i hi => ?_)
    · have k : v = (match gr.parked with | some p => slotsLeft (p.waits.map (·.2)) t | none => t) := by
        dsimp only [v]
        rw [e]
        rfl
      rw [k]
      cases gr.parked with
      | none => exact (currentReleased_gives _ _ _).bind groupPut_gives
      | some p => exact (slotsLeft_gives _ _).bind ((currentReleased_gives _ _ _).bind groupPut_gives)
    · obtain ⟨gi, e'⟩ := h i (List.mem_cons_of_mem _ hi)
      exact has_adjust ⟨gi, by rw [currentReleased_groups, hv]; exact e'⟩

theorem proceedShort_gives {eid c : Nat} {t : State} {tm : Team} {gd : Grid} (ht : t.team? eid = some tm) (hc : tm.core = some c)
    (hg : t.grid? tm.grid = some gd) (hr : residentLong t tm = false) : Gives (z := z) (proceedMigration eid) t () t := by
  refine Gives.getThen ((Gives.getTeam ht).bind ((Gives.getGrid hg).bind ?_))
  rw [hc]
  exact Gives.pos (by simp [hr]) (Gives.pure _ _)

theorem proceed_gives {eid c : Nat} {t : State} {tm : Team} {gd : Grid} (ht : t.team? eid = some tm) (hc : tm.core = some c)
    (hg : t.grid? tm.grid = some gd) (hr : residentLong t tm = true) (hh : hot t (coreCluster c) = true)
    (hch : (chooseCore t tm gd (hot t) fun _ => true).isSome = true) (hf : openSlots t tm.ctx ≠ 0) :
    Gives (z := z) (proceedMigration eid) t () (teamPut eid (fun q => { q with preempt := some 0, migrate := false, moving := true }) t) := by
  refine Gives.getThen ((Gives.getTeam ht).bind ((Gives.getGrid hg).bind ?_))
  rw [hc]
  exact Gives.neg (by simp [hr]) (Gives.neg (by simp [hh]) (Gives.neg (by simp [need_isSome hch, hf]) teamPut_gives))

theorem restoreOn_gives {eid core slot : Nat} {t : State} {tm : Team} {l : Launch} (ht : t.team? eid = some tm)
    (hl : t.launch? tm.launch = some l) (hj : l.journal = 0) (hs : tm.state = .saved slot) (ho : tm.ov1 = none)
    (hk : (t.core core).tag0 = some (overlayKey t tm)) : Gives (z := z) (restoreOn eid core) t () (restored eid core slot tm t) := by
  unfold restoreOn
  refine Gives.getThen ((Gives.getTeam ht).bind ((Gives.getLaunch hl).bind (Gives.guardThen (by unfold slotOneSuits; rw [ho]) ?_)))
  rw [hs, ho]
  refine Gives.neg (by simp [hk]) ((recordPreempt_quiet ht hl hj).bind (teamPut_gives.bind (Gives.bind (a := ()) (forEach_fold (fun _ _ => groupPut_gives) _ _) ?_)))
  by_cases h0 : tm.tidx = 0
  · rw [if_pos h0]
    dsimp only [restored]
    rw [if_pos h0]
    exact gridPut_gives.bind (clusterPut_gives.bind (ctxPut_gives.bind (stringWoken_gives _ _)))
  · rw [if_neg h0]
    dsimp only [restored]
    rw [if_neg h0]
    exact clusterPut_gives.bind (ctxPut_gives.bind (stringWoken_gives _ _))

end Sys2Proof.Machine
end

