-- ==== Sys2Proof/Laws/Command.lean ====
section
/-! SUPPORT. What the debugger, the command processor, boot and the links leave. -/

namespace Sys2Proof.Machine

variable {z : State}

theorem refuse_gives {f : Nat} {t : State} : Gives (z := z) (dbgRefuse f) t () (fnPut f (fun r => { r with dbgErr := true }) t) := fnPut_gives

theorem dbgTeam_gives {f e : Nat} {tm : Team} {ok : Team → Bool} {act : Nat → Team → M z Unit} {t u : State} (hn : debugTeam t f = some e)
    (ht : t.team? e = some tm) (ho : ok tm = true) (k : Gives (act e tm) t () u) : Gives (z := z) (dbgTeam f ok act) t () u := by
  unfold dbgTeam
  refine Gives.getThen ?_
  rw [hn]
  refine (Gives.getTeam ht).bind (Gives.pos ho k)

/-- A group that enters no handler goes on with the lanes a stop left it. -/
theorem resumeGroup_gives {g : Nat} {gr : Group} {t : State} (hg : t.group? g = some gr)
    (h : ¬(gr.trap.tcause &&& ~~~(1#64 <<< Cause.allowExh) ≠ 0 ∧ gr.inHandler = false ∧ gr.exited = false)) :
    Gives (z := z) (resumeGroup g) t () (groupPut g Group.continued t) := by
  unfold resumeGroup
  refine (Gives.getGroup hg).bind (Gives.neg ?_ ?_)
  · intro e
    simp only [Bool.and_eq_true, decide_eq_true_eq, Bool.not_eq_true'] at e
    exact h ⟨e.1.1, e.1.2, e.2⟩
  · exact groupPut_gives

theorem forEach_stays {α : Type} {f : α → M z Unit} (xs : List α) {t : State} (h : ∀ x ∈ xs, Gives (f x) t () t) :
    Gives (forEach xs f) t () t := by
  induction xs with
  | nil => exact Gives.pure _ _
  | cons x xs ih => exact (h x (List.mem_cons_self ..)).bind (ih fun y hy => h y (List.mem_cons_of_mem _ hy))

theorem freshId_gives (t : State) : Gives (z := z) freshId t t.fresh { t with fresh := t.fresh + 1 } :=
  (Gives.get t).bind (Gives.bind (Gives.mod _ _ _) (Gives.pure _ _))

theorem setQerr_gives {f bit : Nat} {t : State} : Gives (z := z) (setQerr f bit) t () (qerrRaised f bit t) := by
  unfold setQerr qerrRaised
  refine Gives.getThen ?_
  by_cases h : (t.fn f).qerr.getLsbD bit = true
  · rw [if_pos h]; exact Gives.neg (by simp [h]) (Gives.pure _ _)
  · rw [if_neg h]; exact Gives.pos (by simp [h]) (fnPut_gives.bind vectorRaised_gives)

theorem refuseDoorbell_gives {f key : Nat} {t : State} : Gives (z := z) (refuseDoorbell f key) t ()
    (queuePut key (fun q => if q.idle then { q with slot := none, reclaim := false } else q) (qerrRaised f 0 t)) :=
  setQerr_gives.bind queuePut_gives

theorem advance_gives {key : Nat} {q : HostQueue} {rptr : W32} {t u : State} {a : LaneAcc} (hr : q.reclaim = false)
    (hx : RecordAt z t q a u) : Gives (z := z) (advanceQueue key q rptr) t () (packetTaken key rptr a.pa u) := by
  unfold advanceQueue packetTaken
  refine hx.1.bind ?_
  refine (sysStore_gives hx.2.1 (by rw [natBytes_length]; exact hx.2.2)).bind (queuePut_gives.bind (Gives.neg (by simp [hr]) (Gives.pure _ _)))

theorem attempt_gives {α : Type} {m : M z α} {t u : State} {a : α} (h : Gives m t a u) : Gives (attempt m) t (.ok a) u := by
  intro p
  obtain ⟨q, e⟩ := h p
  exact ⟨q, by unfold attempt; rw [e]⟩

theorem packet_gives {slot key : Nat} {hq : HostQueue} {v : Nat} {want : Nat → Bool} {act : Nat → HostQueue → Nat → M z Unit} {u t : State}
    (h : PacketAt z slot key hq v u) (hw : want v = true) (k : Gives (act key hq v) u () t) :
    Gives (z := z) (onPacket slot want act) z () t := by
  obtain ⟨h1, h2, h3, h4, _, h5, h6⟩ := h
  unfold onPacket
  refine Gives.getThen (Gives.needThen h1 ?_)
  dsimp only
  refine Gives.guardThen ?_ (Gives.bind (a := .ok ()) (u := t) (attempt_gives ?_) (Gives.pure _ _))
  · rcases h4 with h | h <;> simp [h, h2, h3]
  · unfold takePacket
    refine queuePut_gives.bind (h6.bind ?_)
    dsimp only
    exact Gives.neg (by simp [h5]) (Gives.guardThen hw k)

theorem foldl_roots {α : Type} (f : SMap Team → α → SMap Team) (ps : List α) : ∀ t : State,
    ps.foldl (fun (t : State) p => { t with teams := f t.teams p }) t = { t with teams := ps.foldl f t.teams } := by
  induction ps with
  | nil => intro t; rfl
  | cons p ps ih => intro t; exact ih _

theorem createRoot_gives {ctx launch tag0 : Nat} {d : SpawnDesc} {tickets : List LaneAcc} {t : State} :
    Gives (z := z) (createGrid ctx launch none d tag0 tickets t.home.outside) t t.fresh (rootCreated ctx launch d tag0 tickets t) := by
  refine (freshId_gives t).bind ((Gives.get _).bind ?_)
  dsimp only
  refine (forEach_fold (F := fun (t' : State) (p : Nat × Nat) => { t' with teams := SMap.put t'.teams p.1 (
      { ctx := ctx, tag := tag0 + p.2, ptag := 0, parent := none, grid := t.fresh, launch := launch
        tidx := p.2, shape := d.shape, wait := d.depw
        al := BitVec.ofNat 64 (d.grant / d.teams + if p.2 = 0 then d.grant % d.teams else 0)
        share := BitVec.ofNat 64 (d.grant / d.teams + if p.2 = 0 then d.grant % d.teams else 0) } : Team) })
    (by intro t' p; obtain ⟨e, i⟩ := p; exact Gives.mod _ _ _) _ _).bind ?_
  refine Gives.bind (Gives.mod _ (by exact ⟨fun _ => rfl, fun _ => rfl⟩) _) ?_
  refine Gives.as (Gives.pure _ _) ?_
  have := foldl_roots (fun m (p : Nat × Nat) => SMap.put m p.1 (
      { ctx := ctx, tag := tag0 + p.2, ptag := 0, parent := none, grid := t.fresh, launch := launch
        tidx := p.2, shape := d.shape, wait := d.depw
        al := BitVec.ofNat 64 (d.grant / d.teams + if p.2 = 0 then d.grant % d.teams else 0)
        share := BitVec.ofNat 64 (d.grant / d.teams + if p.2 = 0 then d.grant % d.teams else 0) } : Team))
    ((freeEntries t).take d.teams).zipIdx { t with fresh := t.fresh + 1 }
  unfold rootCreated
  exact congrArg (fun u : State => ({ u with grids := SMap.put u.grids t.fresh _ } : State)) this

theorem nodePut_gives' {ctx nq : Nat} {f : NodeQueue → NodeQueue} {t : State} : Gives (z := z) (modNode ctx nq f) t () (nodePut ctx nq f t) :=
  ctxPut_gives

theorem finish_gives {id : Nat} {l : Launch} {t : State} : Gives (z := z) (finishLaunch id l) t () (launchOver id l t) := by
  unfold finishLaunch launchOver
  refine launchPut_gives.bind ?_
  cases l.consumer with
  | none => exact Gives.bind (m := dropRecord l.grid) gridPut_gives (sweep_gives _)
  | some nq => exact nodePut_gives'.bind (Gives.bind (m := dropRecord l.grid) gridPut_gives (sweep_gives _))

theorem admit_gives {id : Nat} {l : Launch} {d : SpawnDesc} {tag0 : Nat} {s u : State}
    (hd : d = readSpawn l.desc) (hf : d.teams ≤ (freeEntries s).length) (hj : l.journal ≠ 2)
    (ht : chooseTags s l.ctx d.teams = some tag0)
    (k : Gives (z := z) (passPacket id l) (launchPut id (fun l =>
      { l with admitted := true, inFlight := l.tcls < 3, admitTime := s.timer, grid := s.fresh, phm := d.phm, grant := d.grant
               bound := weirBound s l.tcls d.grant
               msh := if l.tcls < 3 then some (SMap.look 0 s.dev.wmsh l.tcls).toNat else none })
      (rootCreated l.ctx id d tag0 l.tickets { s with free := s.free + 1 })) () u) :
    Gives (z := z) (admitLaunch id l) s () u := by
  subst hd
  unfold admitLaunch
  refine Gives.getThen (Gives.guardThen (decide_eq_true hf) ?_)
  refine Gives.bind (a := tag0) (u := { s with free := s.free + 1 }) ?_ (createRoot_gives.bind (launchPut_gives.bind k))
  unfold rootTags
  refine Gives.getThen ?_
  rw [if_neg hj]
  exact (Gives.pure none _).bind (Gives.needThen ht (Gives.bind (Gives.mod _ _ _) (Gives.pure _ _)))

theorem setRes_gives {f : Nat} {r : BitVec 2} {t : State} : Gives (z := z) (setRes f r) t () (fnPut f (fun x => { x with lcres := r }) t) := fnPut_gives

theorem bringUp_gives {i : BootImage} {t : State} : Gives (z := z) (bringUp i) t () (imageReleased i t) := by
  unfold bringUp imageReleased
  by_cases h : i.index = 4
  · rw [if_pos h, if_pos h]; exact Gives.mod _ _ _
  · rw [if_neg h, if_neg h]; exact Gives.pure _ _

theorem setBootErr_gives {err img : Nat} {t : State} : Gives (z := z) (setBootErr err img) t () (bootFailed err img t) := by
  unfold setBootErr bootFailed
  refine Gives.getThen (bootPut_gives.bind ?_)
  by_cases h : t.boot.err = err
  · rw [if_pos h]; exact Gives.neg (by simp [h]) (Gives.pure _ _)
  · rw [if_neg h]; exact Gives.pos h errorsRaised_gives

theorem linkOut_gives {dev : Nat} {data : Option (List Byte)} {p : Bool} {t : State} :
    Gives (z := z) (answerPeer dev data p) t () { t with linkOut := t.linkOut ++ [.answer dev data p] } := Gives.mod _ _ _

end Sys2Proof.Machine
end

