-- ==== Sys2Proof/Laws/Layout.lean ====
section
/-! SUPPORT. The fields of a word built from its layout (R179). -/

namespace Sys2Proof.Laws

/-- A field above the lower part of a concatenation. -/
theorem extract_high {m n : Nat} (x : BitVec m) (y : BitVec n) {s l : Nat} (h : n ≤ s) :
    (x ++ y).extractLsb' s l = x.extractLsb' (s - n) l := by
  ext i hi
  simp only [BitVec.getElem_extractLsb', BitVec.getLsbD_append]
  have h1 : ¬ (s + i < n) := by omega
  have h2 : s + i - n = s - n + i := by omega
  simp [h1, h2]

/-- A field inside the lower part of a concatenation. -/
theorem extract_low {m n : Nat} (x : BitVec m) (y : BitVec n) {s l : Nat} (h : s + l ≤ n) :
    (x ++ y).extractLsb' s l = y.extractLsb' s l := by
  ext i hi
  have h1 : s + i < n := by omega
  simp only [BitVec.getElem_extractLsb', BitVec.getLsbD_append, h1, if_true]

/-- The whole of a field. -/
theorem extract_all {n : Nat} (x : BitVec n) : x.extractLsb' 0 n = x := by
  ext i hi
  simp

/-! The fields of layoutV -/

section layoutV

variable (c : BitVec 4) (f : BitVec 5) (d : BitVec 7) (a : BitVec 8) (b : BitVec 8)

theorem layoutV_c {s l : Nat} (p : 28 ≤ s) :
    (layoutV c f d a b).extractLsb' s l = c.extractLsb' (s - 28) l := by
  unfold layoutV
  rw [extract_high _ _ (by omega), extract_high _ _ (by omega), extract_high _ _ (by omega), extract_high _ _ (by omega)]
  simp only [Nat.sub_sub]

theorem layoutV_f {s l : Nat} (p : 23 ≤ s) (q : s + l ≤ 28) :
    (layoutV c f d a b).extractLsb' s l = f.extractLsb' (s - 23) l := by
  unfold layoutV
  rw [extract_high _ _ (by omega), extract_high _ _ (by omega), extract_high _ _ (by omega), extract_low _ _ (by omega)]
  simp only [Nat.sub_sub]

theorem layoutV_d {s l : Nat} (p : 16 ≤ s) (q : s + l ≤ 23) :
    (layoutV c f d a b).extractLsb' s l = d.extractLsb' (s - 16) l := by
  unfold layoutV
  rw [extract_high _ _ (by omega), extract_high _ _ (by omega), extract_low _ _ (by omega)]
  simp only [Nat.sub_sub]

theorem layoutV_a {s l : Nat} (p : 8 ≤ s) (q : s + l ≤ 16) :
    (layoutV c f d a b).extractLsb' s l = a.extractLsb' (s - 8) l := by
  unfold layoutV
  rw [extract_high _ _ (by omega), extract_low _ _ (by omega)]

theorem layoutV_b {s l : Nat} (q : s + l ≤ 8) :
    (layoutV c f d a b).extractLsb' s l = b.extractLsb' s l := by
  unfold layoutV
  rw [extract_low _ _ (by omega)]

end layoutV

/-! The fields of layoutS -/

section layoutS

variable (c : BitVec 4) (f : BitVec 6) (d : BitVec 6) (a : BitVec 6) (b : BitVec 6) (h : BitVec 4)

theorem layoutS_c {s l : Nat} (p : 28 ≤ s) :
    (layoutS c f d a b h).extractLsb' s l = c.extractLsb' (s - 28) l := by
  unfold layoutS
  rw [extract_high _ _ (by omega), extract_high _ _ (by omega), extract_high _ _ (by omega), extract_high _ _ (by omega),
    extract_high _ _ (by omega)]
  simp only [Nat.sub_sub]

theorem layoutS_f {s l : Nat} (p : 22 ≤ s) (q : s + l ≤ 28) :
    (layoutS c f d a b h).extractLsb' s l = f.extractLsb' (s - 22) l := by
  unfold layoutS
  rw [extract_high _ _ (by omega), extract_high _ _ (by omega), extract_high _ _ (by omega), extract_high _ _ (by omega),
    extract_low _ _ (by omega)]
  simp only [Nat.sub_sub]

theorem layoutS_d {s l : Nat} (p : 16 ≤ s) (q : s + l ≤ 22) :
    (layoutS c f d a b h).extractLsb' s l = d.extractLsb' (s - 16) l := by
  unfold layoutS
  rw [extract_high _ _ (by omega), extract_high _ _ (by omega), extract_high _ _ (by omega), extract_low _ _ (by omega)]
  simp only [Nat.sub_sub]

theorem layoutS_a {s l : Nat} (p : 10 ≤ s) (q : s + l ≤ 16) :
    (layoutS c f d a b h).extractLsb' s l = a.extractLsb' (s - 10) l := by
  unfold layoutS
  rw [extract_high _ _ (by omega), extract_high _ _ (by omega), extract_low _ _ (by omega)]
  simp only [Nat.sub_sub]

theorem layoutS_b {s l : Nat} (p : 4 ≤ s) (q : s + l ≤ 10) :
    (layoutS c f d a b h).extractLsb' s l = b.extractLsb' (s - 4) l := by
  unfold layoutS
  rw [extract_high _ _ (by omega), extract_low _ _ (by omega)]

theorem layoutS_h {s l : Nat} (q : s + l ≤ 4) :
    (layoutS c f d a b h).extractLsb' s l = h.extractLsb' s l := by
  unfold layoutS
  rw [extract_low _ _ (by omega)]

end layoutS

/-! The fields of layoutI -/

section layoutI

variable (c : BitVec 4) (f : BitVec 6) (d : BitVec 6) (a : BitVec 6) (i : BitVec 10)

theorem layoutI_c {s l : Nat} (p : 28 ≤ s) :
    (layoutI c f d a i).extractLsb' s l = c.extractLsb' (s - 28) l := by
  unfold layoutI
  rw [extract_high _ _ (by omega), extract_high _ _ (by omega), extract_high _ _ (by omega), extract_high _ _ (by omega)]
  simp only [Nat.sub_sub]

theorem layoutI_f {s l : Nat} (p : 22 ≤ s) (q : s + l ≤ 28) :
    (layoutI c f d a i).extractLsb' s l = f.extractLsb' (s - 22) l := by
  unfold layoutI
  rw [extract_high _ _ (by omega), extract_high _ _ (by omega), extract_high _ _ (by omega), extract_low _ _ (by omega)]
  simp only [Nat.sub_sub]

theorem layoutI_d {s l : Nat} (p : 16 ≤ s) (q : s + l ≤ 22) :
    (layoutI c f d a i).extractLsb' s l = d.extractLsb' (s - 16) l := by
  unfold layoutI
  rw [extract_high _ _ (by omega), extract_high _ _ (by omega), extract_low _ _ (by omega)]
  simp only [Nat.sub_sub]

theorem layoutI_a {s l : Nat} (p : 10 ≤ s) (q : s + l ≤ 16) :
    (layoutI c f d a i).extractLsb' s l = a.extractLsb' (s - 10) l := by
  unfold layoutI
  rw [extract_high _ _ (by omega), extract_low _ _ (by omega)]

theorem layoutI_i {s l : Nat} (q : s + l ≤ 10) :
    (layoutI c f d a i).extractLsb' s l = i.extractLsb' s l := by
  unfold layoutI
  rw [extract_low _ _ (by omega)]

end layoutI

/-! The fields of layoutC -/

section layoutC

variable (c : BitVec 4) (f : BitVec 4) (r : BitVec 6) (o : BitVec 18)

theorem layoutC_c {s l : Nat} (p : 28 ≤ s) :
    (layoutC c f r o).extractLsb' s l = c.extractLsb' (s - 28) l := by
  unfold layoutC
  rw [extract_high _ _ (by omega), extract_high _ _ (by omega), extract_high _ _ (by omega)]
  simp only [Nat.sub_sub]

theorem layoutC_f {s l : Nat} (p : 24 ≤ s) (q : s + l ≤ 28) :
    (layoutC c f r o).extractLsb' s l = f.extractLsb' (s - 24) l := by
  unfold layoutC
  rw [extract_high _ _ (by omega), extract_high _ _ (by omega), extract_low _ _ (by omega)]
  simp only [Nat.sub_sub]

theorem layoutC_r {s l : Nat} (p : 18 ≤ s) (q : s + l ≤ 24) :
    (layoutC c f r o).extractLsb' s l = r.extractLsb' (s - 18) l := by
  unfold layoutC
  rw [extract_high _ _ (by omega), extract_low _ _ (by omega)]

theorem layoutC_o {s l : Nat} (q : s + l ≤ 18) :
    (layoutC c f r o).extractLsb' s l = o.extractLsb' s l := by
  unfold layoutC
  rw [extract_low _ _ (by omega)]

end layoutC

/-! The fields of layoutC24 -/

section layoutC24

variable (c : BitVec 4) (f : BitVec 4) (o : BitVec 24)

theorem layoutC24_c {s l : Nat} (p : 28 ≤ s) :
    (layoutC24 c f o).extractLsb' s l = c.extractLsb' (s - 28) l := by
  unfold layoutC24
  rw [extract_high _ _ (by omega), extract_high _ _ (by omega)]
  simp only [Nat.sub_sub]

theorem layoutC24_f {s l : Nat} (p : 24 ≤ s) (q : s + l ≤ 28) :
    (layoutC24 c f o).extractLsb' s l = f.extractLsb' (s - 24) l := by
  unfold layoutC24
  rw [extract_high _ _ (by omega), extract_low _ _ (by omega)]

theorem layoutC24_o {s l : Nat} (q : s + l ≤ 24) :
    (layoutC24 c f o).extractLsb' s l = o.extractLsb' s l := by
  unfold layoutC24
  rw [extract_low _ _ (by omega)]

end layoutC24

/-! The fields of layoutW -/

section layoutW

variable (c : BitVec 4) (f : BitVec 4) (e : BitVec 4) (n : BitVec 20)

theorem layoutW_c {s l : Nat} (p : 28 ≤ s) :
    (layoutW c f e n).extractLsb' s l = c.extractLsb' (s - 28) l := by
  unfold layoutW
  rw [extract_high _ _ (by omega), extract_high _ _ (by omega), extract_high _ _ (by omega)]
  simp only [Nat.sub_sub]

theorem layoutW_f {s l : Nat} (p : 24 ≤ s) (q : s + l ≤ 28) :
    (layoutW c f e n).extractLsb' s l = f.extractLsb' (s - 24) l := by
  unfold layoutW
  rw [extract_high _ _ (by omega), extract_high _ _ (by omega), extract_low _ _ (by omega)]
  simp only [Nat.sub_sub]

theorem layoutW_e {s l : Nat} (p : 20 ≤ s) (q : s + l ≤ 24) :
    (layoutW c f e n).extractLsb' s l = e.extractLsb' (s - 20) l := by
  unfold layoutW
  rw [extract_high _ _ (by omega), extract_low _ _ (by omega)]

theorem layoutW_n {s l : Nat} (q : s + l ≤ 20) :
    (layoutW c f e n).extractLsb' s l = n.extractLsb' s l := by
  unfold layoutW
  rw [extract_low _ _ (by omega)]

end layoutW

/-! The fields of layoutM -/

section layoutM

variable (c : BitVec 4) (f : BitVec 5) (d : BitVec 7) (b : BitVec 6) (o : BitVec 8) (r : BitVec 2)

theorem layoutM_c {s l : Nat} (p : 28 ≤ s) :
    (layoutM c f d b o r).extractLsb' s l = c.extractLsb' (s - 28) l := by
  unfold layoutM
  rw [extract_high _ _ (by omega), extract_high _ _ (by omega), extract_high _ _ (by omega), extract_high _ _ (by omega),
    extract_high _ _ (by omega)]
  simp only [Nat.sub_sub]

theorem layoutM_f {s l : Nat} (p : 23 ≤ s) (q : s + l ≤ 28) :
    (layoutM c f d b o r).extractLsb' s l = f.extractLsb' (s - 23) l := by
  unfold layoutM
  rw [extract_high _ _ (by omega), extract_high _ _ (by omega), extract_high _ _ (by omega), extract_high _ _ (by omega),
    extract_low _ _ (by omega)]
  simp only [Nat.sub_sub]

theorem layoutM_d {s l : Nat} (p : 16 ≤ s) (q : s + l ≤ 23) :
    (layoutM c f d b o r).extractLsb' s l = d.extractLsb' (s - 16) l := by
  unfold layoutM
  rw [extract_high _ _ (by omega), extract_high _ _ (by omega), extract_high _ _ (by omega), extract_low _ _ (by omega)]
  simp only [Nat.sub_sub]

theorem layoutM_b {s l : Nat} (p : 10 ≤ s) (q : s + l ≤ 16) :
    (layoutM c f d b o r).extractLsb' s l = b.extractLsb' (s - 10) l := by
  unfold layoutM
  rw [extract_high _ _ (by omega), extract_high _ _ (by omega), extract_low _ _ (by omega)]
  simp only [Nat.sub_sub]

theorem layoutM_o {s l : Nat} (p : 2 ≤ s) (q : s + l ≤ 10) :
    (layoutM c f d b o r).extractLsb' s l = o.extractLsb' (s - 2) l := by
  unfold layoutM
  rw [extract_high _ _ (by omega), extract_low _ _ (by omega)]

theorem layoutM_r {s l : Nat} (q : s + l ≤ 2) :
    (layoutM c f d b o r).extractLsb' s l = r.extractLsb' s l := by
  unfold layoutM
  rw [extract_low _ _ (by omega)]

end layoutM

/-! The fields of layoutA -/

section layoutA

variable (c : BitVec 4) (f : BitVec 6) (x : BitVec 6) (y : BitVec 6) (z : BitVec 6) (u : BitVec 4)

theorem layoutA_c {s l : Nat} (p : 28 ≤ s) :
    (layoutA c f x y z u).extractLsb' s l = c.extractLsb' (s - 28) l := by
  unfold layoutA
  rw [extract_high _ _ (by omega), extract_high _ _ (by omega), extract_high _ _ (by omega), extract_high _ _ (by omega),
    extract_high _ _ (by omega)]
  simp only [Nat.sub_sub]

theorem layoutA_f {s l : Nat} (p : 22 ≤ s) (q : s + l ≤ 28) :
    (layoutA c f x y z u).extractLsb' s l = f.extractLsb' (s - 22) l := by
  unfold layoutA
  rw [extract_high _ _ (by omega), extract_high _ _ (by omega), extract_high _ _ (by omega), extract_high _ _ (by omega),
    extract_low _ _ (by omega)]
  simp only [Nat.sub_sub]

theorem layoutA_x {s l : Nat} (p : 16 ≤ s) (q : s + l ≤ 22) :
    (layoutA c f x y z u).extractLsb' s l = x.extractLsb' (s - 16) l := by
  unfold layoutA
  rw [extract_high _ _ (by omega), extract_high _ _ (by omega), extract_high _ _ (by omega), extract_low _ _ (by omega)]
  simp only [Nat.sub_sub]

theorem layoutA_y {s l : Nat} (p : 10 ≤ s) (q : s + l ≤ 16) :
    (layoutA c f x y z u).extractLsb' s l = y.extractLsb' (s - 10) l := by
  unfold layoutA
  rw [extract_high _ _ (by omega), extract_high _ _ (by omega), extract_low _ _ (by omega)]
  simp only [Nat.sub_sub]

theorem layoutA_z {s l : Nat} (p : 4 ≤ s) (q : s + l ≤ 10) :
    (layoutA c f x y z u).extractLsb' s l = z.extractLsb' (s - 4) l := by
  unfold layoutA
  rw [extract_high _ _ (by omega), extract_low _ _ (by omega)]

theorem layoutA_u {s l : Nat} (q : s + l ≤ 4) :
    (layoutA c f x y z u).extractLsb' s l = u.extractLsb' s l := by
  unfold layoutA
  rw [extract_low _ _ (by omega)]

end layoutA

/-! The fields of layoutR -/

section layoutR

variable (c : BitVec 4) (f : BitVec 6) (x : BitVec 6) (r : BitVec 12) (u : BitVec 4)

theorem layoutR_c {s l : Nat} (p : 28 ≤ s) :
    (layoutR c f x r u).extractLsb' s l = c.extractLsb' (s - 28) l := by
  unfold layoutR
  rw [extract_high _ _ (by omega), extract_high _ _ (by omega), extract_high _ _ (by omega), extract_high _ _ (by omega)]
  simp only [Nat.sub_sub]

theorem layoutR_f {s l : Nat} (p : 22 ≤ s) (q : s + l ≤ 28) :
    (layoutR c f x r u).extractLsb' s l = f.extractLsb' (s - 22) l := by
  unfold layoutR
  rw [extract_high _ _ (by omega), extract_high _ _ (by omega), extract_high _ _ (by omega), extract_low _ _ (by omega)]
  simp only [Nat.sub_sub]

theorem layoutR_x {s l : Nat} (p : 16 ≤ s) (q : s + l ≤ 22) :
    (layoutR c f x r u).extractLsb' s l = x.extractLsb' (s - 16) l := by
  unfold layoutR
  rw [extract_high _ _ (by omega), extract_high _ _ (by omega), extract_low _ _ (by omega)]
  simp only [Nat.sub_sub]

theorem layoutR_r {s l : Nat} (p : 4 ≤ s) (q : s + l ≤ 16) :
    (layoutR c f x r u).extractLsb' s l = r.extractLsb' (s - 4) l := by
  unfold layoutR
  rw [extract_high _ _ (by omega), extract_low _ _ (by omega)]

theorem layoutR_u {s l : Nat} (q : s + l ≤ 4) :
    (layoutR c f x r u).extractLsb' s l = u.extractLsb' s l := by
  unfold layoutR
  rw [extract_low _ _ (by omega)]

end layoutR

/-! The fields of layoutN -/

section layoutN

variable (c : BitVec 4) (f : BitVec 6) (x : BitVec 6) (n : BitVec 16)

theorem layoutN_c {s l : Nat} (p : 28 ≤ s) :
    (layoutN c f x n).extractLsb' s l = c.extractLsb' (s - 28) l := by
  unfold layoutN
  rw [extract_high _ _ (by omega), extract_high _ _ (by omega), extract_high _ _ (by omega)]
  simp only [Nat.sub_sub]

theorem layoutN_f {s l : Nat} (p : 22 ≤ s) (q : s + l ≤ 28) :
    (layoutN c f x n).extractLsb' s l = f.extractLsb' (s - 22) l := by
  unfold layoutN
  rw [extract_high _ _ (by omega), extract_high _ _ (by omega), extract_low _ _ (by omega)]
  simp only [Nat.sub_sub]

theorem layoutN_x {s l : Nat} (p : 16 ≤ s) (q : s + l ≤ 22) :
    (layoutN c f x n).extractLsb' s l = x.extractLsb' (s - 16) l := by
  unfold layoutN
  rw [extract_high _ _ (by omega), extract_low _ _ (by omega)]

theorem layoutN_n {s l : Nat} (q : s + l ≤ 16) :
    (layoutN c f x n).extractLsb' s l = n.extractLsb' s l := by
  unfold layoutN
  rw [extract_low _ _ (by omega)]

end layoutN

/-! The fields of layoutH -/

section layoutH

variable (c : BitVec 4) (k : BitVec 2) (b : BitVec 26)

theorem layoutH_c {s l : Nat} (p : 28 ≤ s) :
    (layoutH c k b).extractLsb' s l = c.extractLsb' (s - 28) l := by
  unfold layoutH
  rw [extract_high _ _ (by omega), extract_high _ _ (by omega)]
  simp only [Nat.sub_sub]

theorem layoutH_k {s l : Nat} (p : 26 ≤ s) (q : s + l ≤ 28) :
    (layoutH c k b).extractLsb' s l = k.extractLsb' (s - 26) l := by
  unfold layoutH
  rw [extract_high _ _ (by omega), extract_low _ _ (by omega)]

theorem layoutH_b {s l : Nat} (q : s + l ≤ 26) :
    (layoutH c k b).extractLsb' s l = b.extractLsb' s l := by
  unfold layoutH
  rw [extract_low _ _ (by omega)]

end layoutH

/-! The fields of layoutJ -/

section layoutJ

variable (c : BitVec 4) (k : BitVec 2) (t : BitVec 6) (y : BitVec 1) (r : BitVec 19)

theorem layoutJ_c {s l : Nat} (p : 28 ≤ s) :
    (layoutJ c k t y r).extractLsb' s l = c.extractLsb' (s - 28) l := by
  unfold layoutJ
  rw [extract_high _ _ (by omega), extract_high _ _ (by omega), extract_high _ _ (by omega), extract_high _ _ (by omega)]
  simp only [Nat.sub_sub]

theorem layoutJ_k {s l : Nat} (p : 26 ≤ s) (q : s + l ≤ 28) :
    (layoutJ c k t y r).extractLsb' s l = k.extractLsb' (s - 26) l := by
  unfold layoutJ
  rw [extract_high _ _ (by omega), extract_high _ _ (by omega), extract_high _ _ (by omega), extract_low _ _ (by omega)]
  simp only [Nat.sub_sub]

theorem layoutJ_t {s l : Nat} (p : 20 ≤ s) (q : s + l ≤ 26) :
    (layoutJ c k t y r).extractLsb' s l = t.extractLsb' (s - 20) l := by
  unfold layoutJ
  rw [extract_high _ _ (by omega), extract_high _ _ (by omega), extract_low _ _ (by omega)]
  simp only [Nat.sub_sub]

theorem layoutJ_y {s l : Nat} (p : 19 ≤ s) (q : s + l ≤ 20) :
    (layoutJ c k t y r).extractLsb' s l = y.extractLsb' (s - 19) l := by
  unfold layoutJ
  rw [extract_high _ _ (by omega), extract_low _ _ (by omega)]

theorem layoutJ_r {s l : Nat} (q : s + l ≤ 19) :
    (layoutJ c k t y r).extractLsb' s l = r.extractLsb' s l := by
  unfold layoutJ
  rw [extract_low _ _ (by omega)]

end layoutJ

/-! The fields of layoutK -/

section layoutK

variable (c : BitVec 4)
  (k : BitVec 2)
  (m : BitVec 2)
  (sat : BitVec 1)
  (na : BitVec 1)
  (nb : BitVec 1)
  (aa : BitVec 1)
  (ab : BitVec 1)
  (od : BitVec 1)
  (oi : BitVec 3)
  (e : BitVec 1)
  (qi : BitVec 3)
  (sc : BitVec 3)
  (r : BitVec 8)

theorem layoutK_c {s l : Nat} (p : 28 ≤ s) :
    (layoutK c k m sat na nb aa ab od oi e qi sc r).extractLsb' s l = c.extractLsb' (s - 28) l := by
  unfold layoutK
  rw [extract_high _ _ (by omega), extract_high _ _ (by omega), extract_high _ _ (by omega), extract_high _ _ (by omega),
    extract_high _ _ (by omega), extract_high _ _ (by omega), extract_high _ _ (by omega), extract_high _ _ (by omega),
    extract_high _ _ (by omega), extract_high _ _ (by omega), extract_high _ _ (by omega), extract_high _ _ (by omega),
    extract_high _ _ (by omega)]
  simp only [Nat.sub_sub]

theorem layoutK_k {s l : Nat} (p : 26 ≤ s) (q : s + l ≤ 28) :
    (layoutK c k m sat na nb aa ab od oi e qi sc r).extractLsb' s l = k.extractLsb' (s - 26) l := by
  unfold layoutK
  rw [extract_high _ _ (by omega), extract_high _ _ (by omega), extract_high _ _ (by omega), extract_high _ _ (by omega),
    extract_high _ _ (by omega), extract_high _ _ (by omega), extract_high _ _ (by omega), extract_high _ _ (by omega),
    extract_high _ _ (by omega), extract_high _ _ (by omega), extract_high _ _ (by omega), extract_high _ _ (by omega),
    extract_low _ _ (by omega)]
  simp only [Nat.sub_sub]

theorem layoutK_m {s l : Nat} (p : 24 ≤ s) (q : s + l ≤ 26) :
    (layoutK c k m sat na nb aa ab od oi e qi sc r).extractLsb' s l = m.extractLsb' (s - 24) l := by
  unfold layoutK
  rw [extract_high _ _ (by omega), extract_high _ _ (by omega), extract_high _ _ (by omega), extract_high _ _ (by omega),
    extract_high _ _ (by omega), extract_high _ _ (by omega), extract_high _ _ (by omega), extract_high _ _ (by omega),
    extract_high _ _ (by omega), extract_high _ _ (by omega), extract_high _ _ (by omega), extract_low _ _ (by omega)]
  simp only [Nat.sub_sub]

theorem layoutK_sat {s l : Nat} (p : 23 ≤ s) (q : s + l ≤ 24) :
    (layoutK c k m sat na nb aa ab od oi e qi sc r).extractLsb' s l = sat.extractLsb' (s - 23) l := by
  unfold layoutK
  rw [extract_high _ _ (by omega), extract_high _ _ (by omega), extract_high _ _ (by omega), extract_high _ _ (by omega),
    extract_high _ _ (by omega), extract_high _ _ (by omega), extract_high _ _ (by omega), extract_high _ _ (by omega),
    extract_high _ _ (by omega), extract_high _ _ (by omega), extract_low _ _ (by omega)]
  simp only [Nat.sub_sub]

theorem layoutK_na {s l : Nat} (p : 22 ≤ s) (q : s + l ≤ 23) :
    (layoutK c k m sat na nb aa ab od oi e qi sc r).extractLsb' s l = na.extractLsb' (s - 22) l := by
  unfold layoutK
  rw [extract_high _ _ (by omega), extract_high _ _ (by omega), extract_high _ _ (by omega), extract_high _ _ (by omega),
    extract_high _ _ (by omega), extract_high _ _ (by omega), extract_high _ _ (by omega), extract_high _ _ (by omega),
    extract_high _ _ (by omega), extract_low _ _ (by omega)]
  simp only [Nat.sub_sub]

theorem layoutK_nb {s l : Nat} (p : 21 ≤ s) (q : s + l ≤ 22) :
    (layoutK c k m sat na nb aa ab od oi e qi sc r).extractLsb' s l = nb.extractLsb' (s - 21) l := by
  unfold layoutK
  rw [extract_high _ _ (by omega), extract_high _ _ (by omega), extract_high _ _ (by omega), extract_high _ _ (by omega),
    extract_high _ _ (by omega), extract_high _ _ (by omega), extract_high _ _ (by omega), extract_high _ _ (by omega),
    extract_low _ _ (by omega)]
  simp only [Nat.sub_sub]

theorem layoutK_aa {s l : Nat} (p : 20 ≤ s) (q : s + l ≤ 21) :
    (layoutK c k m sat na nb aa ab od oi e qi sc r).extractLsb' s l = aa.extractLsb' (s - 20) l := by
  unfold layoutK
  rw [extract_high _ _ (by omega), extract_high _ _ (by omega), extract_high _ _ (by omega), extract_high _ _ (by omega),
    extract_high _ _ (by omega), extract_high _ _ (by omega), extract_high _ _ (by omega), extract_low _ _ (by omega)]
  simp only [Nat.sub_sub]

theorem layoutK_ab {s l : Nat} (p : 19 ≤ s) (q : s + l ≤ 20) :
    (layoutK c k m sat na nb aa ab od oi e qi sc r).extractLsb' s l = ab.extractLsb' (s - 19) l := by
  unfold layoutK
  rw [extract_high _ _ (by omega), extract_high _ _ (by omega), extract_high _ _ (by omega), extract_high _ _ (by omega),
    extract_high _ _ (by omega), extract_high _ _ (by omega), extract_low _ _ (by omega)]
  simp only [Nat.sub_sub]

theorem layoutK_od {s l : Nat} (p : 18 ≤ s) (q : s + l ≤ 19) :
    (layoutK c k m sat na nb aa ab od oi e qi sc r).extractLsb' s l = od.extractLsb' (s - 18) l := by
  unfold layoutK
  rw [extract_high _ _ (by omega), extract_high _ _ (by omega), extract_high _ _ (by omega), extract_high _ _ (by omega),
    extract_high _ _ (by omega), extract_low _ _ (by omega)]
  simp only [Nat.sub_sub]

theorem layoutK_oi {s l : Nat} (p : 15 ≤ s) (q : s + l ≤ 18) :
    (layoutK c k m sat na nb aa ab od oi e qi sc r).extractLsb' s l = oi.extractLsb' (s - 15) l := by
  unfold layoutK
  rw [extract_high _ _ (by omega), extract_high _ _ (by omega), extract_high _ _ (by omega), extract_high _ _ (by omega),
    extract_low _ _ (by omega)]
  simp only [Nat.sub_sub]

theorem layoutK_e {s l : Nat} (p : 14 ≤ s) (q : s + l ≤ 15) :
    (layoutK c k m sat na nb aa ab od oi e qi sc r).extractLsb' s l = e.extractLsb' (s - 14) l := by
  unfold layoutK
  rw [extract_high _ _ (by omega), extract_high _ _ (by omega), extract_high _ _ (by omega), extract_low _ _ (by omega)]
  simp only [Nat.sub_sub]

theorem layoutK_qi {s l : Nat} (p : 11 ≤ s) (q : s + l ≤ 14) :
    (layoutK c k m sat na nb aa ab od oi e qi sc r).extractLsb' s l = qi.extractLsb' (s - 11) l := by
  unfold layoutK
  rw [extract_high _ _ (by omega), extract_high _ _ (by omega), extract_low _ _ (by omega)]
  simp only [Nat.sub_sub]

theorem layoutK_sc {s l : Nat} (p : 8 ≤ s) (q : s + l ≤ 11) :
    (layoutK c k m sat na nb aa ab od oi e qi sc r).extractLsb' s l = sc.extractLsb' (s - 8) l := by
  unfold layoutK
  rw [extract_high _ _ (by omega), extract_low _ _ (by omega)]

theorem layoutK_r {s l : Nat} (q : s + l ≤ 8) :
    (layoutK c k m sat na nb aa ab od oi e qi sc r).extractLsb' s l = r.extractLsb' s l := by
  unfold layoutK
  rw [extract_low _ _ (by omega)]

end layoutK

/-! Unused fields that stand side by side -/

/-- Two zero fields that meet are one zero field. -/
theorem extract_join {n : Nat} (x : BitVec n) {s k m : Nat} (h : x.extractLsb' s k = 0)
    (j : x.extractLsb' (s + k) m = 0) : x.extractLsb' s (k + m) = 0 := by
  ext i hi
  rcases Nat.lt_or_ge i k with p | p
  · have e := congrArg (fun y : BitVec k => y.getLsbD i) h
    simpa [BitVec.getLsbD_extractLsb', p] using e
  · have e := congrArg (fun y : BitVec m => y.getLsbD (i - k)) j
    have q : i - k < m := by omega
    have r : s + k + (i - k) = s + i := by omega
    simpa [BitVec.getLsbD_extractLsb', q, r] using e

theorem layoutV_unused (c : BitVec 4) (f : BitVec 5) (d : BitVec 7) : (layoutV c f d 0#8 0#8).extractLsb' 0 16 = 0#16 :=
  extract_join (k := 8) (m := 8) _ (by rw [layoutV_b _ _ _ _ _ (by decide)]; rfl)
    (by rw [layoutV_a _ _ _ _ _ (by decide) (by decide)]; rfl)

theorem layoutC_unused : ∀ c f : BitVec 4, (layoutC c f 0#6 0#18).extractLsb' 0 24 = 0#24 := by decide

theorem layoutA_unused : ∀ (c : BitVec 4) (f : BitVec 6), (layoutA c f 0#6 0#6 0#6 0#4).extractLsb' 0 22 = 0#22 := by decide

theorem layoutS_unused10 (c : BitVec 4) (f d a : BitVec 6) : (layoutS c f d a 0#6 0#4).extractLsb' 0 10 = 0#10 :=
  extract_join (k := 4) (m := 6) _ (by rw [layoutS_h _ _ _ _ _ _ (by decide)]; rfl)
    (by rw [layoutS_b _ _ _ _ _ _ (by decide) (by decide)]; rfl)

theorem layoutS_unused16 (c : BitVec 4) (f d : BitVec 6) : (layoutS c f d 0#6 0#6 0#4).extractLsb' 0 16 = 0#16 :=
  extract_join (k := 10) (m := 6) _ (layoutS_unused10 _ _ _ _)
    (by rw [layoutS_a _ _ _ _ _ _ (by decide) (by decide)]; rfl)

theorem layoutA_unused10 (c : BitVec 4) (f x y : BitVec 6) : (layoutA c f x y 0#6 0#4).extractLsb' 0 10 = 0#10 :=
  extract_join (k := 4) (m := 6) _ (by rw [layoutA_u _ _ _ _ _ _ (by decide)]; rfl)
    (by rw [layoutA_z _ _ _ _ _ _ (by decide) (by decide)]; rfl)

theorem layoutA_unused16 (c : BitVec 4) (f x : BitVec 6) : (layoutA c f x 0#6 0#6 0#4).extractLsb' 0 16 = 0#16 :=
  extract_join (k := 10) (m := 6) _ (layoutA_unused10 _ _ _ _)
    (by rw [layoutA_y _ _ _ _ _ _ (by decide) (by decide)]; rfl)

theorem layoutA_unused12 (c : BitVec 4) (f x : BitVec 6) (u : BitVec 4) :
    (layoutA c f x 0#6 0#6 u).extractLsb' 4 12 = 0#12 :=
  extract_join (k := 6) (m := 6) _ (by rw [layoutA_z _ _ _ _ _ _ (by decide) (by decide)]; rfl)
    (by rw [layoutA_y _ _ _ _ _ _ (by decide) (by decide)]; rfl)

theorem layoutA_unused18 (c : BitVec 4) (f : BitVec 6) (u : BitVec 4) :
    (layoutA c f 0#6 0#6 0#6 u).extractLsb' 4 18 = 0#18 :=
  extract_join (k := 12) (m := 6) _ (layoutA_unused12 _ _ _ _)
    (by rw [layoutA_x _ _ _ _ _ _ (by decide) (by decide)]; rfl)

theorem layoutA_unused8 (c : BitVec 4) (f x y : BitVec 6) (n : BitVec 2) :
    (layoutA c f x y 0#6 (0#2 ++ n)).extractLsb' 2 8 = 0#8 :=
  extract_join (k := 2) (m := 6) _
    (by rw [layoutA_u _ _ _ _ _ _ (by decide), extract_high _ _ (by decide)]; rfl)
    (by rw [layoutA_z _ _ _ _ _ _ (by decide) (by decide)]; rfl)

theorem layoutA_unused20 (c : BitVec 4) (f : BitVec 6) (n : BitVec 2) :
    (layoutA c f 0#6 0#6 0#6 (0#2 ++ n)).extractLsb' 2 20 = 0#20 :=
  extract_join (k := 8) (m := 12) _ (layoutA_unused8 _ _ _ _ _)
    (extract_join (k := 6) (m := 6) _ (by rw [layoutA_y _ _ _ _ _ _ (by decide) (by decide)]; rfl)
      (by rw [layoutA_x _ _ _ _ _ _ (by decide) (by decide)]; rfl))

/-! Fields made of two parts -/

theorem pair44_high (x : BitVec 4) (y : BitVec 4) : BitVec.extractLsb' 4 4 (x ++ y : BitVec 8) = x := by
  rw [extract_high _ _ (by decide)]
  exact extract_all x

theorem pair44_low (x : BitVec 4) (y : BitVec 4) : BitVec.extractLsb' 0 4 (x ++ y : BitVec 8) = y := by
  rw [extract_low _ _ (by decide)]
  exact extract_all y

theorem pair43_high (x : BitVec 4) (y : BitVec 3) : BitVec.extractLsb' 3 4 (x ++ y : BitVec 7) = x := by
  rw [extract_high _ _ (by decide)]
  exact extract_all x

theorem pair43_low (x : BitVec 4) (y : BitVec 3) : BitVec.extractLsb' 0 3 (x ++ y : BitVec 7) = y := by
  rw [extract_low _ _ (by decide)]
  exact extract_all y

theorem pair16_high (x : BitVec 1) (y : BitVec 6) : BitVec.extractLsb' 6 1 (x ++ y : BitVec 7) = x := by
  rw [extract_high _ _ (by decide)]
  exact extract_all x

theorem pair16_low (x : BitVec 1) (y : BitVec 6) : BitVec.extractLsb' 0 6 (x ++ y : BitVec 7) = y := by
  rw [extract_low _ _ (by decide)]
  exact extract_all y

theorem pair53_high (x : BitVec 5) (y : BitVec 3) : BitVec.extractLsb' 3 5 (x ++ y : BitVec 8) = x := by
  rw [extract_high _ _ (by decide)]
  exact extract_all x

theorem pair53_low (x : BitVec 5) (y : BitVec 3) : BitVec.extractLsb' 0 3 (x ++ y : BitVec 8) = y := by
  rw [extract_low _ _ (by decide)]
  exact extract_all y

theorem pair33_high (x : BitVec 3) (y : BitVec 3) : BitVec.extractLsb' 3 3 (x ++ y : BitVec 6) = x := by
  rw [extract_high _ _ (by decide)]
  exact extract_all x

theorem pair33_low (x : BitVec 3) (y : BitVec 3) : BitVec.extractLsb' 0 3 (x ++ y : BitVec 6) = y := by
  rw [extract_low _ _ (by decide)]
  exact extract_all y

theorem pair22_high (x : BitVec 2) (y : BitVec 2) : BitVec.extractLsb' 2 2 (x ++ y : BitVec 4) = x := by
  rw [extract_high _ _ (by decide)]
  exact extract_all x

theorem pair22_low (x : BitVec 2) (y : BitVec 2) : BitVec.extractLsb' 0 2 (x ++ y : BitVec 4) = y := by
  rw [extract_low _ _ (by decide)]
  exact extract_all y

end Sys2Proof.Laws
end

