-- ==== Sys2Proof/Laws/PerInstr.lean ====
section
/-! SUPPORT. The round trip of the encoder and the decoder, one lemma per instruction. -/

namespace Sys2Proof.Laws.Encoding

/-- The decoder reads every word of an instruction, but the all-zero word, as that instruction (R179, R180, R206). -/
def Statement (i : Instr) : Prop := ∀ w, encode i = some w → w ≠ 0 → decode w = .ok i

theorem vaddF32 (vd : BitVec 7) (sa : BitVec 8) (sb : BitVec 8) : Statement (.vaddF32 vd sa sb) := by
  intro w h hw
  obtain rfl : (layoutV 0x0#4 0x0#5 vd sa sb) = w := Option.some.inj h
  rw [decode, if_neg hw]
  simp only [decodeClass0, layoutV_c, layoutV_f, layoutV_d, layoutV_a, layoutV_b, extract_all, BitVec.toNat_ofNat,
    Nat.reducePow, Nat.reduceMod, Nat.reduceSub, Nat.reduceLeDiff, Nat.reduceAdd]

theorem vsubF32 (vd : BitVec 7) (sa : BitVec 8) (sb : BitVec 8) : Statement (.vsubF32 vd sa sb) := by
  intro w h hw
  obtain rfl : (layoutV 0x0#4 0x1#5 vd sa sb) = w := Option.some.inj h
  rw [decode, if_neg hw]
  simp only [decodeClass0, layoutV_c, layoutV_f, layoutV_d, layoutV_a, layoutV_b, extract_all, BitVec.toNat_ofNat,
    Nat.reducePow, Nat.reduceMod, Nat.reduceSub, Nat.reduceLeDiff, Nat.reduceAdd]

theorem vmulF32 (vd : BitVec 7) (sa : BitVec 8) (sb : BitVec 8) : Statement (.vmulF32 vd sa sb) := by
  intro w h hw
  obtain rfl : (layoutV 0x0#4 0x2#5 vd sa sb) = w := Option.some.inj h
  rw [decode, if_neg hw]
  simp only [decodeClass0, layoutV_c, layoutV_f, layoutV_d, layoutV_a, layoutV_b, extract_all, BitVec.toNat_ofNat,
    Nat.reducePow, Nat.reduceMod, Nat.reduceSub, Nat.reduceLeDiff, Nat.reduceAdd]

theorem vfmaF32 (vd : BitVec 7) (sa : BitVec 8) (sb : BitVec 8) : Statement (.vfmaF32 vd sa sb) := by
  intro w h hw
  obtain rfl : (layoutV 0x0#4 0x3#5 vd sa sb) = w := Option.some.inj h
  rw [decode, if_neg hw]
  simp only [decodeClass0, layoutV_c, layoutV_f, layoutV_d, layoutV_a, layoutV_b, extract_all, BitVec.toNat_ofNat,
    Nat.reducePow, Nat.reduceMod, Nat.reduceSub, Nat.reduceLeDiff, Nat.reduceAdd]

theorem vminF32 (vd : BitVec 7) (sa : BitVec 8) (sb : BitVec 8) : Statement (.vminF32 vd sa sb) := by
  intro w h hw
  obtain rfl : (layoutV 0x0#4 0x4#5 vd sa sb) = w := Option.some.inj h
  rw [decode, if_neg hw]
  simp only [decodeClass0, layoutV_c, layoutV_f, layoutV_d, layoutV_a, layoutV_b, extract_all, BitVec.toNat_ofNat,
    Nat.reducePow, Nat.reduceMod, Nat.reduceSub, Nat.reduceLeDiff, Nat.reduceAdd]

theorem vmaxF32 (vd : BitVec 7) (sa : BitVec 8) (sb : BitVec 8) : Statement (.vmaxF32 vd sa sb) := by
  intro w h hw
  obtain rfl : (layoutV 0x0#4 0x5#5 vd sa sb) = w := Option.some.inj h
  rw [decode, if_neg hw]
  simp only [decodeClass0, layoutV_c, layoutV_f, layoutV_d, layoutV_a, layoutV_b, extract_all, BitVec.toNat_ofNat,
    Nat.reducePow, Nat.reduceMod, Nat.reduceSub, Nat.reduceLeDiff, Nat.reduceAdd]

theorem vaddF16x2 (vd : BitVec 7) (sa : BitVec 8) (sb : BitVec 8) : Statement (.vaddF16x2 vd sa sb) := by
  intro w h hw
  obtain rfl : (layoutV 0x0#4 0x6#5 vd sa sb) = w := Option.some.inj h
  rw [decode, if_neg hw]
  simp only [decodeClass0, layoutV_c, layoutV_f, layoutV_d, layoutV_a, layoutV_b, extract_all, BitVec.toNat_ofNat,
    Nat.reducePow, Nat.reduceMod, Nat.reduceSub, Nat.reduceLeDiff, Nat.reduceAdd]

theorem vsubF16x2 (vd : BitVec 7) (sa : BitVec 8) (sb : BitVec 8) : Statement (.vsubF16x2 vd sa sb) := by
  intro w h hw
  obtain rfl : (layoutV 0x0#4 0x7#5 vd sa sb) = w := Option.some.inj h
  rw [decode, if_neg hw]
  simp only [decodeClass0, layoutV_c, layoutV_f, layoutV_d, layoutV_a, layoutV_b, extract_all, BitVec.toNat_ofNat,
    Nat.reducePow, Nat.reduceMod, Nat.reduceSub, Nat.reduceLeDiff, Nat.reduceAdd]

theorem vmulF16x2 (vd : BitVec 7) (sa : BitVec 8) (sb : BitVec 8) : Statement (.vmulF16x2 vd sa sb) := by
  intro w h hw
  obtain rfl : (layoutV 0x0#4 0x8#5 vd sa sb) = w := Option.some.inj h
  rw [decode, if_neg hw]
  simp only [decodeClass0, layoutV_c, layoutV_f, layoutV_d, layoutV_a, layoutV_b, extract_all, BitVec.toNat_ofNat,
    Nat.reducePow, Nat.reduceMod, Nat.reduceSub, Nat.reduceLeDiff, Nat.reduceAdd]

theorem vfmaF16x2 (vd : BitVec 7) (sa : BitVec 8) (sb : BitVec 8) : Statement (.vfmaF16x2 vd sa sb) := by
  intro w h hw
  obtain rfl : (layoutV 0x0#4 0x9#5 vd sa sb) = w := Option.some.inj h
  rw [decode, if_neg hw]
  simp only [decodeClass0, layoutV_c, layoutV_f, layoutV_d, layoutV_a, layoutV_b, extract_all, BitVec.toNat_ofNat,
    Nat.reducePow, Nat.reduceMod, Nat.reduceSub, Nat.reduceLeDiff, Nat.reduceAdd]

theorem vminF16x2 (vd : BitVec 7) (sa : BitVec 8) (sb : BitVec 8) : Statement (.vminF16x2 vd sa sb) := by
  intro w h hw
  obtain rfl : (layoutV 0x0#4 0xA#5 vd sa sb) = w := Option.some.inj h
  rw [decode, if_neg hw]
  simp only [decodeClass0, layoutV_c, layoutV_f, layoutV_d, layoutV_a, layoutV_b, extract_all, BitVec.toNat_ofNat,
    Nat.reducePow, Nat.reduceMod, Nat.reduceSub, Nat.reduceLeDiff, Nat.reduceAdd]

theorem vmaxF16x2 (vd : BitVec 7) (sa : BitVec 8) (sb : BitVec 8) : Statement (.vmaxF16x2 vd sa sb) := by
  intro w h hw
  obtain rfl : (layoutV 0x0#4 0xB#5 vd sa sb) = w := Option.some.inj h
  rw [decode, if_neg hw]
  simp only [decodeClass0, layoutV_c, layoutV_f, layoutV_d, layoutV_a, layoutV_b, extract_all, BitVec.toNat_ofNat,
    Nat.reducePow, Nat.reduceMod, Nat.reduceSub, Nat.reduceLeDiff, Nat.reduceAdd]

theorem vaddB16x2 (vd : BitVec 7) (sa : BitVec 8) (sb : BitVec 8) : Statement (.vaddB16x2 vd sa sb) := by
  intro w h hw
  obtain rfl : (layoutV 0x0#4 0xC#5 vd sa sb) = w := Option.some.inj h
  rw [decode, if_neg hw]
  simp only [decodeClass0, layoutV_c, layoutV_f, layoutV_d, layoutV_a, layoutV_b, extract_all, BitVec.toNat_ofNat,
    Nat.reducePow, Nat.reduceMod, Nat.reduceSub, Nat.reduceLeDiff, Nat.reduceAdd]

theorem vsubB16x2 (vd : BitVec 7) (sa : BitVec 8) (sb : BitVec 8) : Statement (.vsubB16x2 vd sa sb) := by
  intro w h hw
  obtain rfl : (layoutV 0x0#4 0xD#5 vd sa sb) = w := Option.some.inj h
  rw [decode, if_neg hw]
  simp only [decodeClass0, layoutV_c, layoutV_f, layoutV_d, layoutV_a, layoutV_b, extract_all, BitVec.toNat_ofNat,
    Nat.reducePow, Nat.reduceMod, Nat.reduceSub, Nat.reduceLeDiff, Nat.reduceAdd]

theorem vmulB16x2 (vd : BitVec 7) (sa : BitVec 8) (sb : BitVec 8) : Statement (.vmulB16x2 vd sa sb) := by
  intro w h hw
  obtain rfl : (layoutV 0x0#4 0xE#5 vd sa sb) = w := Option.some.inj h
  rw [decode, if_neg hw]
  simp only [decodeClass0, layoutV_c, layoutV_f, layoutV_d, layoutV_a, layoutV_b, extract_all, BitVec.toNat_ofNat,
    Nat.reducePow, Nat.reduceMod, Nat.reduceSub, Nat.reduceLeDiff, Nat.reduceAdd]

theorem vfmaB16x2 (vd : BitVec 7) (sa : BitVec 8) (sb : BitVec 8) : Statement (.vfmaB16x2 vd sa sb) := by
  intro w h hw
  obtain rfl : (layoutV 0x0#4 0xF#5 vd sa sb) = w := Option.some.inj h
  rw [decode, if_neg hw]
  simp only [decodeClass0, layoutV_c, layoutV_f, layoutV_d, layoutV_a, layoutV_b, extract_all, BitVec.toNat_ofNat,
    Nat.reducePow, Nat.reduceMod, Nat.reduceSub, Nat.reduceLeDiff, Nat.reduceAdd]

theorem vaddF64 (vd : BitVec 7) (sa : BitVec 8) (sb : BitVec 8) : Statement (.vaddF64 vd sa sb) := by
  intro w h hw
  obtain rfl : (layoutV 0x0#4 0x10#5 vd sa sb) = w := Option.some.inj h
  rw [decode, if_neg hw]
  simp only [decodeClass0, layoutV_c, layoutV_f, layoutV_d, layoutV_a, layoutV_b, extract_all, BitVec.toNat_ofNat,
    Nat.reducePow, Nat.reduceMod, Nat.reduceSub, Nat.reduceLeDiff, Nat.reduceAdd]

theorem vsubF64 (vd : BitVec 7) (sa : BitVec 8) (sb : BitVec 8) : Statement (.vsubF64 vd sa sb) := by
  intro w h hw
  obtain rfl : (layoutV 0x0#4 0x11#5 vd sa sb) = w := Option.some.inj h
  rw [decode, if_neg hw]
  simp only [decodeClass0, layoutV_c, layoutV_f, layoutV_d, layoutV_a, layoutV_b, extract_all, BitVec.toNat_ofNat,
    Nat.reducePow, Nat.reduceMod, Nat.reduceSub, Nat.reduceLeDiff, Nat.reduceAdd]

theorem vmulF64 (vd : BitVec 7) (sa : BitVec 8) (sb : BitVec 8) : Statement (.vmulF64 vd sa sb) := by
  intro w h hw
  obtain rfl : (layoutV 0x0#4 0x12#5 vd sa sb) = w := Option.some.inj h
  rw [decode, if_neg hw]
  simp only [decodeClass0, layoutV_c, layoutV_f, layoutV_d, layoutV_a, layoutV_b, extract_all, BitVec.toNat_ofNat,
    Nat.reducePow, Nat.reduceMod, Nat.reduceSub, Nat.reduceLeDiff, Nat.reduceAdd]

theorem vfmaF64 (vd : BitVec 7) (sa : BitVec 8) (sb : BitVec 8) : Statement (.vfmaF64 vd sa sb) := by
  intro w h hw
  obtain rfl : (layoutV 0x0#4 0x13#5 vd sa sb) = w := Option.some.inj h
  rw [decode, if_neg hw]
  simp only [decodeClass0, layoutV_c, layoutV_f, layoutV_d, layoutV_a, layoutV_b, extract_all, BitVec.toNat_ofNat,
    Nat.reducePow, Nat.reduceMod, Nat.reduceSub, Nat.reduceLeDiff, Nat.reduceAdd]

theorem vminF64 (vd : BitVec 7) (sa : BitVec 8) (sb : BitVec 8) : Statement (.vminF64 vd sa sb) := by
  intro w h hw
  obtain rfl : (layoutV 0x0#4 0x14#5 vd sa sb) = w := Option.some.inj h
  rw [decode, if_neg hw]
  simp only [decodeClass0, layoutV_c, layoutV_f, layoutV_d, layoutV_a, layoutV_b, extract_all, BitVec.toNat_ofNat,
    Nat.reducePow, Nat.reduceMod, Nat.reduceSub, Nat.reduceLeDiff, Nat.reduceAdd]

theorem vmaxF64 (vd : BitVec 7) (sa : BitVec 8) (sb : BitVec 8) : Statement (.vmaxF64 vd sa sb) := by
  intro w h hw
  obtain rfl : (layoutV 0x0#4 0x15#5 vd sa sb) = w := Option.some.inj h
  rw [decode, if_neg hw]
  simp only [decodeClass0, layoutV_c, layoutV_f, layoutV_d, layoutV_a, layoutV_b, extract_all, BitVec.toNat_ofNat,
    Nat.reducePow, Nat.reduceMod, Nat.reduceSub, Nat.reduceLeDiff, Nat.reduceAdd]

theorem vdot2F16x2 (vd : BitVec 7) (sa : BitVec 8) (sb : BitVec 8) : Statement (.vdot2F16x2 vd sa sb) := by
  intro w h hw
  obtain rfl : (layoutV 0x0#4 0x16#5 vd sa sb) = w := Option.some.inj h
  rw [decode, if_neg hw]
  simp only [decodeClass0, layoutV_c, layoutV_f, layoutV_d, layoutV_a, layoutV_b, extract_all, BitVec.toNat_ofNat,
    Nat.reducePow, Nat.reduceMod, Nat.reduceSub, Nat.reduceLeDiff, Nat.reduceAdd]

theorem vdot2B16x2 (vd : BitVec 7) (sa : BitVec 8) (sb : BitVec 8) : Statement (.vdot2B16x2 vd sa sb) := by
  intro w h hw
  obtain rfl : (layoutV 0x0#4 0x17#5 vd sa sb) = w := Option.some.inj h
  rw [decode, if_neg hw]
  simp only [decodeClass0, layoutV_c, layoutV_f, layoutV_d, layoutV_a, layoutV_b, extract_all, BitVec.toNat_ofNat,
    Nat.reducePow, Nat.reduceMod, Nat.reduceSub, Nat.reduceLeDiff, Nat.reduceAdd]

theorem vdot4K8 (vd : BitVec 7) (sa : BitVec 8) (sb : BitVec 8) : Statement (.vdot4K8 vd sa sb) := by
  intro w h hw
  obtain rfl : (layoutV 0x0#4 0x18#5 vd sa sb) = w := Option.some.inj h
  rw [decode, if_neg hw]
  simp only [decodeClass0, layoutV_c, layoutV_f, layoutV_d, layoutV_a, layoutV_b, extract_all, BitVec.toNat_ofNat,
    Nat.reducePow, Nat.reduceMod, Nat.reduceSub, Nat.reduceLeDiff, Nat.reduceAdd]

theorem vfracF32 (vd : BitVec 7) (sa : BitVec 8) : Statement (.vfracF32 vd sa) := by
  intro w h hw
  obtain rfl : (layoutV 0x0#4 0x19#5 vd sa 0#8) = w := Option.some.inj h
  rw [decode, if_neg hw]
  simp only [decodeClass0, unusedZero, layoutV_c, layoutV_f, layoutV_d, layoutV_a, layoutV_b, extract_all,
    BitVec.toNat_ofNat, Nat.reducePow, Nat.reduceMod, Nat.reduceSub, Nat.reduceLeDiff, Nat.reduceAdd,
    beq_self_eq_true, if_true]

theorem vaddI32 (vd : BitVec 7) (sa : BitVec 8) (sb : BitVec 8) : Statement (.vaddI32 vd sa sb) := by
  intro w h hw
  obtain rfl : (layoutV 0x1#4 0x0#5 vd sa sb) = w := Option.some.inj h
  rw [decode, if_neg hw]
  simp only [decodeClass1, layoutV_c, layoutV_f, layoutV_d, layoutV_a, layoutV_b, extract_all, BitVec.toNat_ofNat,
    Nat.reducePow, Nat.reduceMod, Nat.reduceSub, Nat.reduceLeDiff, Nat.reduceAdd]

theorem vsubI32 (vd : BitVec 7) (sa : BitVec 8) (sb : BitVec 8) : Statement (.vsubI32 vd sa sb) := by
  intro w h hw
  obtain rfl : (layoutV 0x1#4 0x1#5 vd sa sb) = w := Option.some.inj h
  rw [decode, if_neg hw]
  simp only [decodeClass1, layoutV_c, layoutV_f, layoutV_d, layoutV_a, layoutV_b, extract_all, BitVec.toNat_ofNat,
    Nat.reducePow, Nat.reduceMod, Nat.reduceSub, Nat.reduceLeDiff, Nat.reduceAdd]

theorem vmulI32 (vd : BitVec 7) (sa : BitVec 8) (sb : BitVec 8) : Statement (.vmulI32 vd sa sb) := by
  intro w h hw
  obtain rfl : (layoutV 0x1#4 0x2#5 vd sa sb) = w := Option.some.inj h
  rw [decode, if_neg hw]
  simp only [decodeClass1, layoutV_c, layoutV_f, layoutV_d, layoutV_a, layoutV_b, extract_all, BitVec.toNat_ofNat,
    Nat.reducePow, Nat.reduceMod, Nat.reduceSub, Nat.reduceLeDiff, Nat.reduceAdd]

theorem vmadI32 (vd : BitVec 7) (sa : BitVec 8) (sb : BitVec 8) : Statement (.vmadI32 vd sa sb) := by
  intro w h hw
  obtain rfl : (layoutV 0x1#4 0x3#5 vd sa sb) = w := Option.some.inj h
  rw [decode, if_neg hw]
  simp only [decodeClass1, layoutV_c, layoutV_f, layoutV_d, layoutV_a, layoutV_b, extract_all, BitVec.toNat_ofNat,
    Nat.reducePow, Nat.reduceMod, Nat.reduceSub, Nat.reduceLeDiff, Nat.reduceAdd]

theorem vmulhiI32 (vd : BitVec 7) (sa : BitVec 8) (sb : BitVec 8) : Statement (.vmulhiI32 vd sa sb) := by
  intro w h hw
  obtain rfl : (layoutV 0x1#4 0x4#5 vd sa sb) = w := Option.some.inj h
  rw [decode, if_neg hw]
  simp only [decodeClass1, layoutV_c, layoutV_f, layoutV_d, layoutV_a, layoutV_b, extract_all, BitVec.toNat_ofNat,
    Nat.reducePow, Nat.reduceMod, Nat.reduceSub, Nat.reduceLeDiff, Nat.reduceAdd]

theorem vmulhiN32 (vd : BitVec 7) (sa : BitVec 8) (sb : BitVec 8) : Statement (.vmulhiN32 vd sa sb) := by
  intro w h hw
  obtain rfl : (layoutV 0x1#4 0x5#5 vd sa sb) = w := Option.some.inj h
  rw [decode, if_neg hw]
  simp only [decodeClass1, layoutV_c, layoutV_f, layoutV_d, layoutV_a, layoutV_b, extract_all, BitVec.toNat_ofNat,
    Nat.reducePow, Nat.reduceMod, Nat.reduceSub, Nat.reduceLeDiff, Nat.reduceAdd]

theorem vminI32 (vd : BitVec 7) (sa : BitVec 8) (sb : BitVec 8) : Statement (.vminI32 vd sa sb) := by
  intro w h hw
  obtain rfl : (layoutV 0x1#4 0x6#5 vd sa sb) = w := Option.some.inj h
  rw [decode, if_neg hw]
  simp only [decodeClass1, layoutV_c, layoutV_f, layoutV_d, layoutV_a, layoutV_b, extract_all, BitVec.toNat_ofNat,
    Nat.reducePow, Nat.reduceMod, Nat.reduceSub, Nat.reduceLeDiff, Nat.reduceAdd]

theorem vmaxI32 (vd : BitVec 7) (sa : BitVec 8) (sb : BitVec 8) : Statement (.vmaxI32 vd sa sb) := by
  intro w h hw
  obtain rfl : (layoutV 0x1#4 0x7#5 vd sa sb) = w := Option.some.inj h
  rw [decode, if_neg hw]
  simp only [decodeClass1, layoutV_c, layoutV_f, layoutV_d, layoutV_a, layoutV_b, extract_all, BitVec.toNat_ofNat,
    Nat.reducePow, Nat.reduceMod, Nat.reduceSub, Nat.reduceLeDiff, Nat.reduceAdd]

theorem vminN32 (vd : BitVec 7) (sa : BitVec 8) (sb : BitVec 8) : Statement (.vminN32 vd sa sb) := by
  intro w h hw
  obtain rfl : (layoutV 0x1#4 0x8#5 vd sa sb) = w := Option.some.inj h
  rw [decode, if_neg hw]
  simp only [decodeClass1, layoutV_c, layoutV_f, layoutV_d, layoutV_a, layoutV_b, extract_all, BitVec.toNat_ofNat,
    Nat.reducePow, Nat.reduceMod, Nat.reduceSub, Nat.reduceLeDiff, Nat.reduceAdd]

theorem vmaxN32 (vd : BitVec 7) (sa : BitVec 8) (sb : BitVec 8) : Statement (.vmaxN32 vd sa sb) := by
  intro w h hw
  obtain rfl : (layoutV 0x1#4 0x9#5 vd sa sb) = w := Option.some.inj h
  rw [decode, if_neg hw]
  simp only [decodeClass1, layoutV_c, layoutV_f, layoutV_d, layoutV_a, layoutV_b, extract_all, BitVec.toNat_ofNat,
    Nat.reducePow, Nat.reduceMod, Nat.reduceSub, Nat.reduceLeDiff, Nat.reduceAdd]

theorem vaddsI32 (vd : BitVec 7) (sa : BitVec 8) (sb : BitVec 8) : Statement (.vaddsI32 vd sa sb) := by
  intro w h hw
  obtain rfl : (layoutV 0x1#4 0xA#5 vd sa sb) = w := Option.some.inj h
  rw [decode, if_neg hw]
  simp only [decodeClass1, layoutV_c, layoutV_f, layoutV_d, layoutV_a, layoutV_b, extract_all, BitVec.toNat_ofNat,
    Nat.reducePow, Nat.reduceMod, Nat.reduceSub, Nat.reduceLeDiff, Nat.reduceAdd]

theorem vsubsI32 (vd : BitVec 7) (sa : BitVec 8) (sb : BitVec 8) : Statement (.vsubsI32 vd sa sb) := by
  intro w h hw
  obtain rfl : (layoutV 0x1#4 0xB#5 vd sa sb) = w := Option.some.inj h
  rw [decode, if_neg hw]
  simp only [decodeClass1, layoutV_c, layoutV_f, layoutV_d, layoutV_a, layoutV_b, extract_all, BitVec.toNat_ofNat,
    Nat.reducePow, Nat.reduceMod, Nat.reduceSub, Nat.reduceLeDiff, Nat.reduceAdd]

theorem vaddsN32 (vd : BitVec 7) (sa : BitVec 8) (sb : BitVec 8) : Statement (.vaddsN32 vd sa sb) := by
  intro w h hw
  obtain rfl : (layoutV 0x1#4 0xC#5 vd sa sb) = w := Option.some.inj h
  rw [decode, if_neg hw]
  simp only [decodeClass1, layoutV_c, layoutV_f, layoutV_d, layoutV_a, layoutV_b, extract_all, BitVec.toNat_ofNat,
    Nat.reducePow, Nat.reduceMod, Nat.reduceSub, Nat.reduceLeDiff, Nat.reduceAdd]

theorem vsubsN32 (vd : BitVec 7) (sa : BitVec 8) (sb : BitVec 8) : Statement (.vsubsN32 vd sa sb) := by
  intro w h hw
  obtain rfl : (layoutV 0x1#4 0xD#5 vd sa sb) = w := Option.some.inj h
  rw [decode, if_neg hw]
  simp only [decodeClass1, layoutV_c, layoutV_f, layoutV_d, layoutV_a, layoutV_b, extract_all, BitVec.toNat_ofNat,
    Nat.reducePow, Nat.reduceMod, Nat.reduceSub, Nat.reduceLeDiff, Nat.reduceAdd]

theorem vand (vd : BitVec 7) (sa : BitVec 8) (sb : BitVec 8) : Statement (.vand vd sa sb) := by
  intro w h hw
  obtain rfl : (layoutV 0x1#4 0xE#5 vd sa sb) = w := Option.some.inj h
  rw [decode, if_neg hw]
  simp only [decodeClass1, layoutV_c, layoutV_f, layoutV_d, layoutV_a, layoutV_b, extract_all, BitVec.toNat_ofNat,
    Nat.reducePow, Nat.reduceMod, Nat.reduceSub, Nat.reduceLeDiff, Nat.reduceAdd]

theorem vor (vd : BitVec 7) (sa : BitVec 8) (sb : BitVec 8) : Statement (.vor vd sa sb) := by
  intro w h hw
  obtain rfl : (layoutV 0x1#4 0xF#5 vd sa sb) = w := Option.some.inj h
  rw [decode, if_neg hw]
  simp only [decodeClass1, layoutV_c, layoutV_f, layoutV_d, layoutV_a, layoutV_b, extract_all, BitVec.toNat_ofNat,
    Nat.reducePow, Nat.reduceMod, Nat.reduceSub, Nat.reduceLeDiff, Nat.reduceAdd]

theorem vxor (vd : BitVec 7) (sa : BitVec 8) (sb : BitVec 8) : Statement (.vxor vd sa sb) := by
  intro w h hw
  obtain rfl : (layoutV 0x1#4 0x10#5 vd sa sb) = w := Option.some.inj h
  rw [decode, if_neg hw]
  simp only [decodeClass1, layoutV_c, layoutV_f, layoutV_d, layoutV_a, layoutV_b, extract_all, BitVec.toNat_ofNat,
    Nat.reducePow, Nat.reduceMod, Nat.reduceSub, Nat.reduceLeDiff, Nat.reduceAdd]

theorem vandn (vd : BitVec 7) (sa : BitVec 8) (sb : BitVec 8) : Statement (.vandn vd sa sb) := by
  intro w h hw
  obtain rfl : (layoutV 0x1#4 0x11#5 vd sa sb) = w := Option.some.inj h
  rw [decode, if_neg hw]
  simp only [decodeClass1, layoutV_c, layoutV_f, layoutV_d, layoutV_a, layoutV_b, extract_all, BitVec.toNat_ofNat,
    Nat.reducePow, Nat.reduceMod, Nat.reduceSub, Nat.reduceLeDiff, Nat.reduceAdd]

theorem vshl (vd : BitVec 7) (sa : BitVec 8) (sb : BitVec 8) : Statement (.vshl vd sa sb) := by
  intro w h hw
  obtain rfl : (layoutV 0x1#4 0x12#5 vd sa sb) = w := Option.some.inj h
  rw [decode, if_neg hw]
  simp only [decodeClass1, layoutV_c, layoutV_f, layoutV_d, layoutV_a, layoutV_b, extract_all, BitVec.toNat_ofNat,
    Nat.reducePow, Nat.reduceMod, Nat.reduceSub, Nat.reduceLeDiff, Nat.reduceAdd]

theorem vshr (vd : BitVec 7) (sa : BitVec 8) (sb : BitVec 8) : Statement (.vshr vd sa sb) := by
  intro w h hw
  obtain rfl : (layoutV 0x1#4 0x13#5 vd sa sb) = w := Option.some.inj h
  rw [decode, if_neg hw]
  simp only [decodeClass1, layoutV_c, layoutV_f, layoutV_d, layoutV_a, layoutV_b, extract_all, BitVec.toNat_ofNat,
    Nat.reducePow, Nat.reduceMod, Nat.reduceSub, Nat.reduceLeDiff, Nat.reduceAdd]

theorem vsar (vd : BitVec 7) (sa : BitVec 8) (sb : BitVec 8) : Statement (.vsar vd sa sb) := by
  intro w h hw
  obtain rfl : (layoutV 0x1#4 0x14#5 vd sa sb) = w := Option.some.inj h
  rw [decode, if_neg hw]
  simp only [decodeClass1, layoutV_c, layoutV_f, layoutV_d, layoutV_a, layoutV_b, extract_all, BitVec.toNat_ofNat,
    Nat.reducePow, Nat.reduceMod, Nat.reduceSub, Nat.reduceLeDiff, Nat.reduceAdd]

theorem vpopc (vd : BitVec 7) (sa : BitVec 8) : Statement (.vpopc vd sa) := by
  intro w h hw
  obtain rfl : (layoutV 0x1#4 0x15#5 vd sa 0#8) = w := Option.some.inj h
  rw [decode, if_neg hw]
  simp only [decodeClass1, unusedZero, layoutV_c, layoutV_f, layoutV_d, layoutV_a, layoutV_b, extract_all,
    BitVec.toNat_ofNat, Nat.reducePow, Nat.reduceMod, Nat.reduceSub, Nat.reduceLeDiff, Nat.reduceAdd,
    beq_self_eq_true, if_true]

theorem vclz (vd : BitVec 7) (sa : BitVec 8) : Statement (.vclz vd sa) := by
  intro w h hw
  obtain rfl : (layoutV 0x1#4 0x16#5 vd sa 0#8) = w := Option.some.inj h
  rw [decode, if_neg hw]
  simp only [decodeClass1, unusedZero, layoutV_c, layoutV_f, layoutV_d, layoutV_a, layoutV_b, extract_all,
    BitVec.toNat_ofNat, Nat.reducePow, Nat.reduceMod, Nat.reduceSub, Nat.reduceLeDiff, Nat.reduceAdd,
    beq_self_eq_true, if_true]

theorem vbrev (vd : BitVec 7) (sa : BitVec 8) : Statement (.vbrev vd sa) := by
  intro w h hw
  obtain rfl : (layoutV 0x1#4 0x17#5 vd sa 0#8) = w := Option.some.inj h
  rw [decode, if_neg hw]
  simp only [decodeClass1, unusedZero, layoutV_c, layoutV_f, layoutV_d, layoutV_a, layoutV_b, extract_all,
    BitVec.toNat_ofNat, Nat.reducePow, Nat.reduceMod, Nat.reduceSub, Nat.reduceLeDiff, Nat.reduceAdd,
    beq_self_eq_true, if_true]

theorem vbfx (vd : BitVec 7) (sa : BitVec 8) (sb : BitVec 8) : Statement (.vbfx vd sa sb) := by
  intro w h hw
  obtain rfl : (layoutV 0x1#4 0x18#5 vd sa sb) = w := Option.some.inj h
  rw [decode, if_neg hw]
  simp only [decodeClass1, layoutV_c, layoutV_f, layoutV_d, layoutV_a, layoutV_b, extract_all, BitVec.toNat_ofNat,
    Nat.reducePow, Nat.reduceMod, Nat.reduceSub, Nat.reduceLeDiff, Nat.reduceAdd]

theorem vbfi (vd : BitVec 7) (sa : BitVec 8) (sb : BitVec 8) : Statement (.vbfi vd sa sb) := by
  intro w h hw
  obtain rfl : (layoutV 0x1#4 0x19#5 vd sa sb) = w := Option.some.inj h
  rw [decode, if_neg hw]
  simp only [decodeClass1, layoutV_c, layoutV_f, layoutV_d, layoutV_a, layoutV_b, extract_all, BitVec.toNat_ofNat,
    Nat.reducePow, Nat.reduceMod, Nat.reduceSub, Nat.reduceLeDiff, Nat.reduceAdd]

theorem vaddI16x2 (vd : BitVec 7) (sa : BitVec 8) (sb : BitVec 8) : Statement (.vaddI16x2 vd sa sb) := by
  intro w h hw
  obtain rfl : (layoutV 0x1#4 0x1A#5 vd sa sb) = w := Option.some.inj h
  rw [decode, if_neg hw]
  simp only [decodeClass1, layoutV_c, layoutV_f, layoutV_d, layoutV_a, layoutV_b, extract_all, BitVec.toNat_ofNat,
    Nat.reducePow, Nat.reduceMod, Nat.reduceSub, Nat.reduceLeDiff, Nat.reduceAdd]

theorem vsubI16x2 (vd : BitVec 7) (sa : BitVec 8) (sb : BitVec 8) : Statement (.vsubI16x2 vd sa sb) := by
  intro w h hw
  obtain rfl : (layoutV 0x1#4 0x1B#5 vd sa sb) = w := Option.some.inj h
  rw [decode, if_neg hw]
  simp only [decodeClass1, layoutV_c, layoutV_f, layoutV_d, layoutV_a, layoutV_b, extract_all, BitVec.toNat_ofNat,
    Nat.reducePow, Nat.reduceMod, Nat.reduceSub, Nat.reduceLeDiff, Nat.reduceAdd]

theorem vdot4I8 (vd : BitVec 7) (sa : BitVec 8) (sb : BitVec 8) : Statement (.vdot4I8 vd sa sb) := by
  intro w h hw
  obtain rfl : (layoutV 0x1#4 0x1C#5 vd sa sb) = w := Option.some.inj h
  rw [decode, if_neg hw]
  simp only [decodeClass1, layoutV_c, layoutV_f, layoutV_d, layoutV_a, layoutV_b, extract_all, BitVec.toNat_ofNat,
    Nat.reducePow, Nat.reduceMod, Nat.reduceSub, Nat.reduceLeDiff, Nat.reduceAdd]

theorem vdot4N8 (vd : BitVec 7) (sa : BitVec 8) (sb : BitVec 8) : Statement (.vdot4N8 vd sa sb) := by
  intro w h hw
  obtain rfl : (layoutV 0x1#4 0x1D#5 vd sa sb) = w := Option.some.inj h
  rw [decode, if_neg hw]
  simp only [decodeClass1, layoutV_c, layoutV_f, layoutV_d, layoutV_a, layoutV_b, extract_all, BitVec.toNat_ofNat,
    Nat.reducePow, Nat.reduceMod, Nat.reduceSub, Nat.reduceLeDiff, Nat.reduceAdd]

theorem vcvt (vd : BitVec 7) (sa : BitVec 8) (dt : BitVec 4) (st : BitVec 4) : Statement (.vcvt vd sa dt st) := by
  intro w h hw
  obtain rfl : (layoutV 0x2#4 0x0#5 vd sa (dt ++ st)) = w := Option.some.inj h
  rw [decode, if_neg hw]
  simp only [decodeClass2, layoutV_c, layoutV_f, layoutV_d, layoutV_a, layoutV_b, pair44_high, pair44_low,
    extract_all, BitVec.toNat_ofNat, Nat.reducePow, Nat.reduceMod, Nat.reduceSub, Nat.reduceLeDiff, Nat.reduceAdd]

theorem vrndF32 (vd : BitVec 7) (sa : BitVec 8) : Statement (.vrndF32 vd sa) := by
  intro w h hw
  obtain rfl : (layoutV 0x2#4 0x1#5 vd sa 0#8) = w := Option.some.inj h
  rw [decode, if_neg hw]
  simp only [decodeClass2, unusedZero, layoutV_c, layoutV_f, layoutV_d, layoutV_a, layoutV_b, extract_all,
    BitVec.toNat_ofNat, Nat.reducePow, Nat.reduceMod, Nat.reduceSub, Nat.reduceLeDiff, Nat.reduceAdd,
    beq_self_eq_true, if_true]

theorem vmov (vd : BitVec 7) (sa : BitVec 8) : Statement (.vmov vd sa) := by
  intro w h hw
  obtain rfl : (layoutV 0x2#4 0x2#5 vd sa 0#8) = w := Option.some.inj h
  rw [decode, if_neg hw]
  simp only [decodeClass2, unusedZero, layoutV_c, layoutV_f, layoutV_d, layoutV_a, layoutV_b, extract_all,
    BitVec.toNat_ofNat, Nat.reducePow, Nat.reduceMod, Nat.reduceSub, Nat.reduceLeDiff, Nat.reduceAdd,
    beq_self_eq_true, if_true]

theorem vmovo (on : BitVec 3) (sa : BitVec 8) : Statement (.vmovo on sa) := by
  intro w h hw
  obtain rfl : (layoutV 0x2#4 0x3#5 (0#4 ++ on) sa 0#8) = w := Option.some.inj h
  rw [decode, if_neg hw]
  simp only [decodeClass2, unusedZero, layoutV_c, layoutV_f, layoutV_d, layoutV_a, layoutV_b, pair43_high, pair43_low,
    extract_all, BitVec.toNat_ofNat, Nat.reducePow, Nat.reduceMod, Nat.reduceSub, Nat.reduceLeDiff, Nat.reduceAdd,
    beq_self_eq_true, Bool.and_self, if_true]

theorem vlane (vd : BitVec 7) (sa : BitVec 8) (sb : BitVec 8) : Statement (.vlane vd sa sb) := by
  intro w h hw
  obtain rfl : (layoutV 0x2#4 0x4#5 vd sa sb) = w := Option.some.inj h
  rw [decode, if_neg hw]
  simp only [decodeClass2, layoutV_c, layoutV_f, layoutV_d, layoutV_a, layoutV_b, extract_all, BitVec.toNat_ofNat,
    Nat.reducePow, Nat.reduceMod, Nat.reduceSub, Nat.reduceLeDiff, Nat.reduceAdd]

theorem vxswap (vd : BitVec 7) (sa : BitVec 8) (sb : BitVec 8) : Statement (.vxswap vd sa sb) := by
  intro w h hw
  obtain rfl : (layoutV 0x2#4 0x5#5 vd sa sb) = w := Option.some.inj h
  rw [decode, if_neg hw]
  simp only [decodeClass2, layoutV_c, layoutV_f, layoutV_d, layoutV_a, layoutV_b, extract_all, BitVec.toNat_ofNat,
    Nat.reducePow, Nat.reduceMod, Nat.reduceSub, Nat.reduceLeDiff, Nat.reduceAdd]

theorem vup (vd : BitVec 7) (sa : BitVec 8) (sb : BitVec 8) : Statement (.vup vd sa sb) := by
  intro w h hw
  obtain rfl : (layoutV 0x2#4 0x6#5 vd sa sb) = w := Option.some.inj h
  rw [decode, if_neg hw]
  simp only [decodeClass2, layoutV_c, layoutV_f, layoutV_d, layoutV_a, layoutV_b, extract_all, BitVec.toNat_ofNat,
    Nat.reducePow, Nat.reduceMod, Nat.reduceSub, Nat.reduceLeDiff, Nat.reduceAdd]

theorem vdown (vd : BitVec 7) (sa : BitVec 8) (sb : BitVec 8) : Statement (.vdown vd sa sb) := by
  intro w h hw
  obtain rfl : (layoutV 0x2#4 0x7#5 vd sa sb) = w := Option.some.inj h
  rw [decode, if_neg hw]
  simp only [decodeClass2, layoutV_c, layoutV_f, layoutV_d, layoutV_a, layoutV_b, extract_all, BitVec.toNat_ofNat,
    Nat.reducePow, Nat.reduceMod, Nat.reduceSub, Nat.reduceLeDiff, Nat.reduceAdd]

theorem vscanI32 (vd : BitVec 7) (sa : BitVec 8) : Statement (.vscanI32 vd sa) := by
  intro w h hw
  obtain rfl : (layoutV 0x2#4 0x8#5 vd sa 0#8) = w := Option.some.inj h
  rw [decode, if_neg hw]
  simp only [decodeClass2, unusedZero, layoutV_c, layoutV_f, layoutV_d, layoutV_a, layoutV_b, extract_all,
    BitVec.toNat_ofNat, Nat.reducePow, Nat.reduceMod, Nat.reduceSub, Nat.reduceLeDiff, Nat.reduceAdd,
    beq_self_eq_true, if_true]

theorem vscanF32 (vd : BitVec 7) (sa : BitVec 8) : Statement (.vscanF32 vd sa) := by
  intro w h hw
  obtain rfl : (layoutV 0x2#4 0x9#5 vd sa 0#8) = w := Option.some.inj h
  rw [decode, if_neg hw]
  simp only [decodeClass2, unusedZero, layoutV_c, layoutV_f, layoutV_d, layoutV_a, layoutV_b, extract_all,
    BitVec.toNat_ofNat, Nat.reducePow, Nat.reduceMod, Nat.reduceSub, Nat.reduceLeDiff, Nat.reduceAdd,
    beq_self_eq_true, if_true]

theorem vredAddI32 (vd : BitVec 7) (sa : BitVec 8) : Statement (.vredAddI32 vd sa) := by
  intro w h hw
  obtain rfl : (layoutV 0x2#4 0xA#5 vd sa 0#8) = w := Option.some.inj h
  rw [decode, if_neg hw]
  simp only [decodeClass2, unusedZero, layoutV_c, layoutV_f, layoutV_d, layoutV_a, layoutV_b, extract_all,
    BitVec.toNat_ofNat, Nat.reducePow, Nat.reduceMod, Nat.reduceSub, Nat.reduceLeDiff, Nat.reduceAdd,
    beq_self_eq_true, if_true]

theorem vredAddF32 (vd : BitVec 7) (sa : BitVec 8) : Statement (.vredAddF32 vd sa) := by
  intro w h hw
  obtain rfl : (layoutV 0x2#4 0xB#5 vd sa 0#8) = w := Option.some.inj h
  rw [decode, if_neg hw]
  simp only [decodeClass2, unusedZero, layoutV_c, layoutV_f, layoutV_d, layoutV_a, layoutV_b, extract_all,
    BitVec.toNat_ofNat, Nat.reducePow, Nat.reduceMod, Nat.reduceSub, Nat.reduceLeDiff, Nat.reduceAdd,
    beq_self_eq_true, if_true]

theorem vredMaxF32 (vd : BitVec 7) (sa : BitVec 8) : Statement (.vredMaxF32 vd sa) := by
  intro w h hw
  obtain rfl : (layoutV 0x2#4 0xC#5 vd sa 0#8) = w := Option.some.inj h
  rw [decode, if_neg hw]
  simp only [decodeClass2, unusedZero, layoutV_c, layoutV_f, layoutV_d, layoutV_a, layoutV_b, extract_all,
    BitVec.toNat_ofNat, Nat.reducePow, Nat.reduceMod, Nat.reduceSub, Nat.reduceLeDiff, Nat.reduceAdd,
    beq_self_eq_true, if_true]

theorem vredMinF32 (vd : BitVec 7) (sa : BitVec 8) : Statement (.vredMinF32 vd sa) := by
  intro w h hw
  obtain rfl : (layoutV 0x2#4 0xD#5 vd sa 0#8) = w := Option.some.inj h
  rw [decode, if_neg hw]
  simp only [decodeClass2, unusedZero, layoutV_c, layoutV_f, layoutV_d, layoutV_a, layoutV_b, extract_all,
    BitVec.toNat_ofNat, Nat.reducePow, Nat.reduceMod, Nat.reduceSub, Nat.reduceLeDiff, Nat.reduceAdd,
    beq_self_eq_true, if_true]

theorem vballot (sd : BitVec 6) (sa : BitVec 8) : Statement (.vballot sd sa) := by
  intro w h hw
  obtain rfl : (layoutV 0x2#4 0xE#5 (0#1 ++ sd) sa 0#8) = w := Option.some.inj h
  rw [decode, if_neg hw]
  simp only [decodeClass2, unusedZero, layoutV_c, layoutV_f, layoutV_d, layoutV_a, layoutV_b, pair16_high, pair16_low,
    extract_all, BitVec.toNat_ofNat, Nat.reducePow, Nat.reduceMod, Nat.reduceSub, Nat.reduceLeDiff, Nat.reduceAdd,
    beq_self_eq_true, Bool.and_self, if_true]

theorem vcompress (vd : BitVec 7) (sa : BitVec 8) (k : BitVec 3) : Statement (.vcompress vd sa k) := by
  intro w h hw
  obtain rfl : (layoutV 0x2#4 0xF#5 vd sa (0#5 ++ k)) = w := Option.some.inj h
  rw [decode, if_neg hw]
  simp only [decodeClass2, unusedZero, layoutV_c, layoutV_f, layoutV_d, layoutV_a, layoutV_b, pair53_high, pair53_low,
    extract_all, BitVec.toNat_ofNat, Nat.reducePow, Nat.reduceMod, Nat.reduceSub, Nat.reduceLeDiff, Nat.reduceAdd,
    beq_self_eq_true, if_true]

theorem vexpand (vd : BitVec 7) (sa : BitVec 8) (k : BitVec 3) : Statement (.vexpand vd sa k) := by
  intro w h hw
  obtain rfl : (layoutV 0x2#4 0x10#5 vd sa (0#5 ++ k)) = w := Option.some.inj h
  rw [decode, if_neg hw]
  simp only [decodeClass2, unusedZero, layoutV_c, layoutV_f, layoutV_d, layoutV_a, layoutV_b, pair53_high, pair53_low,
    extract_all, BitVec.toNat_ofNat, Nat.reducePow, Nat.reduceMod, Nat.reduceSub, Nat.reduceLeDiff, Nat.reduceAdd,
    beq_self_eq_true, if_true]

theorem vlaneid (vd : BitVec 7) : Statement (.vlaneid vd) := by
  intro w h hw
  obtain rfl : (layoutV 0x2#4 0x11#5 vd 0#8 0#8) = w := Option.some.inj h
  rw [decode, if_neg hw]
  simp only [decodeClass2, unusedZero, layoutV_c, layoutV_f, layoutV_d, layoutV_unused, extract_all,
    BitVec.toNat_ofNat, Nat.reducePow, Nat.reduceMod, Nat.reduceSub, Nat.reduceLeDiff, Nat.reduceAdd,
    beq_self_eq_true, if_true]

theorem vpack (vd : BitVec 7) (sa : BitVec 8) (sb : BitVec 8) : Statement (.vpack vd sa sb) := by
  intro w h hw
  obtain rfl : (layoutV 0x2#4 0x12#5 vd sa sb) = w := Option.some.inj h
  rw [decode, if_neg hw]
  simp only [decodeClass2, layoutV_c, layoutV_f, layoutV_d, layoutV_a, layoutV_b, extract_all, BitVec.toNat_ofNat,
    Nat.reducePow, Nat.reduceMod, Nat.reduceSub, Nat.reduceLeDiff, Nat.reduceAdd]

theorem vcmpF32 (cc : BitVec 4) (k : BitVec 3) (sa : BitVec 8) (sb : BitVec 8) : Statement (.vcmpF32 cc k sa sb) := by
  intro w h hw
  obtain rfl : (layoutV 0x3#4 0x0#5 (cc ++ k) sa sb) = w := Option.some.inj h
  rw [decode, if_neg hw]
  simp only [decodeClass3, layoutV_c, layoutV_f, layoutV_d, layoutV_a, layoutV_b, pair43_high, pair43_low,
    extract_all, BitVec.toNat_ofNat, Nat.reducePow, Nat.reduceMod, Nat.reduceSub, Nat.reduceLeDiff, Nat.reduceAdd]

theorem vcmpF64 (cc : BitVec 4) (k : BitVec 3) (sa : BitVec 8) (sb : BitVec 8) : Statement (.vcmpF64 cc k sa sb) := by
  intro w h hw
  obtain rfl : (layoutV 0x3#4 0x1#5 (cc ++ k) sa sb) = w := Option.some.inj h
  rw [decode, if_neg hw]
  simp only [decodeClass3, layoutV_c, layoutV_f, layoutV_d, layoutV_a, layoutV_b, pair43_high, pair43_low,
    extract_all, BitVec.toNat_ofNat, Nat.reducePow, Nat.reduceMod, Nat.reduceSub, Nat.reduceLeDiff, Nat.reduceAdd]

theorem vcmpI32 (cc : BitVec 4) (k : BitVec 3) (sa : BitVec 8) (sb : BitVec 8) : Statement (.vcmpI32 cc k sa sb) := by
  intro w h hw
  obtain rfl : (layoutV 0x3#4 0x2#5 (cc ++ k) sa sb) = w := Option.some.inj h
  rw [decode, if_neg hw]
  simp only [decodeClass3, layoutV_c, layoutV_f, layoutV_d, layoutV_a, layoutV_b, pair43_high, pair43_low,
    extract_all, BitVec.toNat_ofNat, Nat.reducePow, Nat.reduceMod, Nat.reduceSub, Nat.reduceLeDiff, Nat.reduceAdd]

theorem vcmpN32 (cc : BitVec 4) (k : BitVec 3) (sa : BitVec 8) (sb : BitVec 8) : Statement (.vcmpN32 cc k sa sb) := by
  intro w h hw
  obtain rfl : (layoutV 0x3#4 0x3#5 (cc ++ k) sa sb) = w := Option.some.inj h
  rw [decode, if_neg hw]
  simp only [decodeClass3, layoutV_c, layoutV_f, layoutV_d, layoutV_a, layoutV_b, pair43_high, pair43_low,
    extract_all, BitVec.toNat_ofNat, Nat.reducePow, Nat.reduceMod, Nat.reduceSub, Nat.reduceLeDiff, Nat.reduceAdd]

theorem vclsF32 (vd : BitVec 7) (sa : BitVec 8) : Statement (.vclsF32 vd sa) := by
  intro w h hw
  obtain rfl : (layoutV 0x3#4 0x4#5 vd sa 0#8) = w := Option.some.inj h
  rw [decode, if_neg hw]
  simp only [decodeClass3, unusedZero, layoutV_c, layoutV_f, layoutV_d, layoutV_a, layoutV_b, extract_all,
    BitVec.toNat_ofNat, Nat.reducePow, Nat.reduceMod, Nat.reduceSub, Nat.reduceLeDiff, Nat.reduceAdd,
    beq_self_eq_true, if_true]

theorem vtest (k : BitVec 3) (sa : BitVec 8) (sb : BitVec 8) : Statement (.vtest k sa sb) := by
  intro w h hw
  obtain rfl : (layoutV 0x3#4 0x5#5 (0#4 ++ k) sa sb) = w := Option.some.inj h
  rw [decode, if_neg hw]
  simp only [decodeClass3, unusedZero, layoutV_c, layoutV_f, layoutV_d, layoutV_a, layoutV_b, pair43_high, pair43_low,
    extract_all, BitVec.toNat_ofNat, Nat.reducePow, Nat.reduceMod, Nat.reduceSub, Nat.reduceLeDiff, Nat.reduceAdd,
    beq_self_eq_true, if_true]

theorem vselK0 (vd : BitVec 7) (sa : BitVec 8) (sb : BitVec 8) : Statement (.vselK0 vd sa sb) := by
  intro w h hw
  obtain rfl : (layoutV 0x3#4 0x8#5 vd sa sb) = w := Option.some.inj h
  rw [decode, if_neg hw]
  simp only [decodeClass3, layoutV_c, layoutV_f, layoutV_d, layoutV_a, layoutV_b, extract_all, BitVec.toNat_ofNat,
    Nat.reducePow, Nat.reduceMod, Nat.reduceSub, Nat.reduceLeDiff, Nat.reduceAdd]

theorem vselK1 (vd : BitVec 7) (sa : BitVec 8) (sb : BitVec 8) : Statement (.vselK1 vd sa sb) := by
  intro w h hw
  obtain rfl : (layoutV 0x3#4 0x9#5 vd sa sb) = w := Option.some.inj h
  rw [decode, if_neg hw]
  simp only [decodeClass3, layoutV_c, layoutV_f, layoutV_d, layoutV_a, layoutV_b, extract_all, BitVec.toNat_ofNat,
    Nat.reducePow, Nat.reduceMod, Nat.reduceSub, Nat.reduceLeDiff, Nat.reduceAdd]

theorem vselK2 (vd : BitVec 7) (sa : BitVec 8) (sb : BitVec 8) : Statement (.vselK2 vd sa sb) := by
  intro w h hw
  obtain rfl : (layoutV 0x3#4 0xA#5 vd sa sb) = w := Option.some.inj h
  rw [decode, if_neg hw]
  simp only [decodeClass3, layoutV_c, layoutV_f, layoutV_d, layoutV_a, layoutV_b, extract_all, BitVec.toNat_ofNat,
    Nat.reducePow, Nat.reduceMod, Nat.reduceSub, Nat.reduceLeDiff, Nat.reduceAdd]

theorem vselK3 (vd : BitVec 7) (sa : BitVec 8) (sb : BitVec 8) : Statement (.vselK3 vd sa sb) := by
  intro w h hw
  obtain rfl : (layoutV 0x3#4 0xB#5 vd sa sb) = w := Option.some.inj h
  rw [decode, if_neg hw]
  simp only [decodeClass3, layoutV_c, layoutV_f, layoutV_d, layoutV_a, layoutV_b, extract_all, BitVec.toNat_ofNat,
    Nat.reducePow, Nat.reduceMod, Nat.reduceSub, Nat.reduceLeDiff, Nat.reduceAdd]

theorem vselK4 (vd : BitVec 7) (sa : BitVec 8) (sb : BitVec 8) : Statement (.vselK4 vd sa sb) := by
  intro w h hw
  obtain rfl : (layoutV 0x3#4 0xC#5 vd sa sb) = w := Option.some.inj h
  rw [decode, if_neg hw]
  simp only [decodeClass3, layoutV_c, layoutV_f, layoutV_d, layoutV_a, layoutV_b, extract_all, BitVec.toNat_ofNat,
    Nat.reducePow, Nat.reduceMod, Nat.reduceSub, Nat.reduceLeDiff, Nat.reduceAdd]

theorem vselK5 (vd : BitVec 7) (sa : BitVec 8) (sb : BitVec 8) : Statement (.vselK5 vd sa sb) := by
  intro w h hw
  obtain rfl : (layoutV 0x3#4 0xD#5 vd sa sb) = w := Option.some.inj h
  rw [decode, if_neg hw]
  simp only [decodeClass3, layoutV_c, layoutV_f, layoutV_d, layoutV_a, layoutV_b, extract_all, BitVec.toNat_ofNat,
    Nat.reducePow, Nat.reduceMod, Nat.reduceSub, Nat.reduceLeDiff, Nat.reduceAdd]

theorem vselK6 (vd : BitVec 7) (sa : BitVec 8) (sb : BitVec 8) : Statement (.vselK6 vd sa sb) := by
  intro w h hw
  obtain rfl : (layoutV 0x3#4 0xE#5 vd sa sb) = w := Option.some.inj h
  rw [decode, if_neg hw]
  simp only [decodeClass3, layoutV_c, layoutV_f, layoutV_d, layoutV_a, layoutV_b, extract_all, BitVec.toNat_ofNat,
    Nat.reducePow, Nat.reduceMod, Nat.reduceSub, Nat.reduceLeDiff, Nat.reduceAdd]

theorem vselK7 (vd : BitVec 7) (sa : BitVec 8) (sb : BitVec 8) : Statement (.vselK7 vd sa sb) := by
  intro w h hw
  obtain rfl : (layoutV 0x3#4 0xF#5 vd sa sb) = w := Option.some.inj h
  rw [decode, if_neg hw]
  simp only [decodeClass3, layoutV_c, layoutV_f, layoutV_d, layoutV_a, layoutV_b, extract_all, BitVec.toNat_ofNat,
    Nat.reducePow, Nat.reduceMod, Nat.reduceSub, Nat.reduceLeDiff, Nat.reduceAdd]

theorem frcpF32 (vd : BitVec 7) (sa : BitVec 8) : Statement (.frcpF32 vd sa) := by
  intro w h hw
  obtain rfl : (layoutV 0x4#4 0x0#5 vd sa 0#8) = w := Option.some.inj h
  rw [decode, if_neg hw]
  simp only [decodeClass4, unusedZero, layoutV_c, layoutV_f, layoutV_d, layoutV_a, layoutV_b, extract_all,
    BitVec.toNat_ofNat, Nat.reducePow, Nat.reduceMod, Nat.reduceSub, Nat.reduceLeDiff, Nat.reduceAdd,
    beq_self_eq_true, if_true]

theorem frsqF32 (vd : BitVec 7) (sa : BitVec 8) : Statement (.frsqF32 vd sa) := by
  intro w h hw
  obtain rfl : (layoutV 0x4#4 0x1#5 vd sa 0#8) = w := Option.some.inj h
  rw [decode, if_neg hw]
  simp only [decodeClass4, unusedZero, layoutV_c, layoutV_f, layoutV_d, layoutV_a, layoutV_b, extract_all,
    BitVec.toNat_ofNat, Nat.reducePow, Nat.reduceMod, Nat.reduceSub, Nat.reduceLeDiff, Nat.reduceAdd,
    beq_self_eq_true, if_true]

theorem fsqrtF32 (vd : BitVec 7) (sa : BitVec 8) : Statement (.fsqrtF32 vd sa) := by
  intro w h hw
  obtain rfl : (layoutV 0x4#4 0x2#5 vd sa 0#8) = w := Option.some.inj h
  rw [decode, if_neg hw]
  simp only [decodeClass4, unusedZero, layoutV_c, layoutV_f, layoutV_d, layoutV_a, layoutV_b, extract_all,
    BitVec.toNat_ofNat, Nat.reducePow, Nat.reduceMod, Nat.reduceSub, Nat.reduceLeDiff, Nat.reduceAdd,
    beq_self_eq_true, if_true]

theorem fexp2F32 (vd : BitVec 7) (sa : BitVec 8) : Statement (.fexp2F32 vd sa) := by
  intro w h hw
  obtain rfl : (layoutV 0x4#4 0x3#5 vd sa 0#8) = w := Option.some.inj h
  rw [decode, if_neg hw]
  simp only [decodeClass4, unusedZero, layoutV_c, layoutV_f, layoutV_d, layoutV_a, layoutV_b, extract_all,
    BitVec.toNat_ofNat, Nat.reducePow, Nat.reduceMod, Nat.reduceSub, Nat.reduceLeDiff, Nat.reduceAdd,
    beq_self_eq_true, if_true]

theorem flog2F32 (vd : BitVec 7) (sa : BitVec 8) : Statement (.flog2F32 vd sa) := by
  intro w h hw
  obtain rfl : (layoutV 0x4#4 0x4#5 vd sa 0#8) = w := Option.some.inj h
  rw [decode, if_neg hw]
  simp only [decodeClass4, unusedZero, layoutV_c, layoutV_f, layoutV_d, layoutV_a, layoutV_b, extract_all,
    BitVec.toNat_ofNat, Nat.reducePow, Nat.reduceMod, Nat.reduceSub, Nat.reduceLeDiff, Nat.reduceAdd,
    beq_self_eq_true, if_true]

theorem fsinpF32 (vd : BitVec 7) (sa : BitVec 8) : Statement (.fsinpF32 vd sa) := by
  intro w h hw
  obtain rfl : (layoutV 0x4#4 0x5#5 vd sa 0#8) = w := Option.some.inj h
  rw [decode, if_neg hw]
  simp only [decodeClass4, unusedZero, layoutV_c, layoutV_f, layoutV_d, layoutV_a, layoutV_b, extract_all,
    BitVec.toNat_ofNat, Nat.reducePow, Nat.reduceMod, Nat.reduceSub, Nat.reduceLeDiff, Nat.reduceAdd,
    beq_self_eq_true, if_true]

theorem fcospF32 (vd : BitVec 7) (sa : BitVec 8) : Statement (.fcospF32 vd sa) := by
  intro w h hw
  obtain rfl : (layoutV 0x4#4 0x6#5 vd sa 0#8) = w := Option.some.inj h
  rw [decode, if_neg hw]
  simp only [decodeClass4, unusedZero, layoutV_c, layoutV_f, layoutV_d, layoutV_a, layoutV_b, extract_all,
    BitVec.toNat_ofNat, Nat.reducePow, Nat.reduceMod, Nat.reduceSub, Nat.reduceLeDiff, Nat.reduceAdd,
    beq_self_eq_true, if_true]

theorem ftanhF32 (vd : BitVec 7) (sa : BitVec 8) : Statement (.ftanhF32 vd sa) := by
  intro w h hw
  obtain rfl : (layoutV 0x4#4 0x7#5 vd sa 0#8) = w := Option.some.inj h
  rw [decode, if_neg hw]
  simp only [decodeClass4, unusedZero, layoutV_c, layoutV_f, layoutV_d, layoutV_a, layoutV_b, extract_all,
    BitVec.toNat_ofNat, Nat.reducePow, Nat.reduceMod, Nat.reduceSub, Nat.reduceLeDiff, Nat.reduceAdd,
    beq_self_eq_true, if_true]

theorem fsigmF32 (vd : BitVec 7) (sa : BitVec 8) : Statement (.fsigmF32 vd sa) := by
  intro w h hw
  obtain rfl : (layoutV 0x4#4 0x8#5 vd sa 0#8) = w := Option.some.inj h
  rw [decode, if_neg hw]
  simp only [decodeClass4, unusedZero, layoutV_c, layoutV_f, layoutV_d, layoutV_a, layoutV_b, extract_all,
    BitVec.toNat_ofNat, Nat.reducePow, Nat.reduceMod, Nat.reduceSub, Nat.reduceLeDiff, Nat.reduceAdd,
    beq_self_eq_true, if_true]

theorem frcpF64 (vd : BitVec 7) (sa : BitVec 8) : Statement (.frcpF64 vd sa) := by
  intro w h hw
  obtain rfl : (layoutV 0x4#4 0x9#5 vd sa 0#8) = w := Option.some.inj h
  rw [decode, if_neg hw]
  simp only [decodeClass4, unusedZero, layoutV_c, layoutV_f, layoutV_d, layoutV_a, layoutV_b, extract_all,
    BitVec.toNat_ofNat, Nat.reducePow, Nat.reduceMod, Nat.reduceSub, Nat.reduceLeDiff, Nat.reduceAdd,
    beq_self_eq_true, if_true]

theorem frsqF64 (vd : BitVec 7) (sa : BitVec 8) : Statement (.frsqF64 vd sa) := by
  intro w h hw
  obtain rfl : (layoutV 0x4#4 0xA#5 vd sa 0#8) = w := Option.some.inj h
  rw [decode, if_neg hw]
  simp only [decodeClass4, unusedZero, layoutV_c, layoutV_f, layoutV_d, layoutV_a, layoutV_b, extract_all,
    BitVec.toNat_ofNat, Nat.reducePow, Nat.reduceMod, Nat.reduceSub, Nat.reduceLeDiff, Nat.reduceAdd,
    beq_self_eq_true, if_true]

theorem fexp2F16x2 (vd : BitVec 7) (sa : BitVec 8) : Statement (.fexp2F16x2 vd sa) := by
  intro w h hw
  obtain rfl : (layoutV 0x4#4 0xB#5 vd sa 0#8) = w := Option.some.inj h
  rw [decode, if_neg hw]
  simp only [decodeClass4, unusedZero, layoutV_c, layoutV_f, layoutV_d, layoutV_a, layoutV_b, extract_all,
    BitVec.toNat_ofNat, Nat.reducePow, Nat.reduceMod, Nat.reduceSub, Nat.reduceLeDiff, Nat.reduceAdd,
    beq_self_eq_true, if_true]

theorem ftanhF16x2 (vd : BitVec 7) (sa : BitVec 8) : Statement (.ftanhF16x2 vd sa) := by
  intro w h hw
  obtain rfl : (layoutV 0x4#4 0xC#5 vd sa 0#8) = w := Option.some.inj h
  rw [decode, if_neg hw]
  simp only [decodeClass4, unusedZero, layoutV_c, layoutV_f, layoutV_d, layoutV_a, layoutV_b, extract_all,
    BitVec.toNat_ofNat, Nat.reducePow, Nat.reduceMod, Nat.reduceSub, Nat.reduceLeDiff, Nat.reduceAdd,
    beq_self_eq_true, if_true]

theorem add (d : BitVec 6) (a : BitVec 6) (b : BitVec 6) : Statement (.add d a b) := by
  intro w h hw
  obtain rfl : (layoutS 0x5#4 0x0#6 d a b 0#4) = w := Option.some.inj h
  rw [decode, if_neg hw]
  simp only [decodeClass5, unusedZero, layoutS_c, layoutS_f, layoutS_d, layoutS_a, layoutS_b, layoutS_h, extract_all,
    BitVec.toNat_ofNat, Nat.reducePow, Nat.reduceMod, Nat.reduceSub, Nat.reduceLeDiff, Nat.reduceAdd,
    beq_self_eq_true, if_true]

theorem sub (d : BitVec 6) (a : BitVec 6) (b : BitVec 6) : Statement (.sub d a b) := by
  intro w h hw
  obtain rfl : (layoutS 0x5#4 0x1#6 d a b 0#4) = w := Option.some.inj h
  rw [decode, if_neg hw]
  simp only [decodeClass5, unusedZero, layoutS_c, layoutS_f, layoutS_d, layoutS_a, layoutS_b, layoutS_h, extract_all,
    BitVec.toNat_ofNat, Nat.reducePow, Nat.reduceMod, Nat.reduceSub, Nat.reduceLeDiff, Nat.reduceAdd,
    beq_self_eq_true, if_true]

theorem mul (d : BitVec 6) (a : BitVec 6) (b : BitVec 6) : Statement (.mul d a b) := by
  intro w h hw
  obtain rfl : (layoutS 0x5#4 0x2#6 d a b 0#4) = w := Option.some.inj h
  rw [decode, if_neg hw]
  simp only [decodeClass5, unusedZero, layoutS_c, layoutS_f, layoutS_d, layoutS_a, layoutS_b, layoutS_h, extract_all,
    BitVec.toNat_ofNat, Nat.reducePow, Nat.reduceMod, Nat.reduceSub, Nat.reduceLeDiff, Nat.reduceAdd,
    beq_self_eq_true, if_true]

theorem mulhiI (d : BitVec 6) (a : BitVec 6) (b : BitVec 6) : Statement (.mulhiI d a b) := by
  intro w h hw
  obtain rfl : (layoutS 0x5#4 0x3#6 d a b 0#4) = w := Option.some.inj h
  rw [decode, if_neg hw]
  simp only [decodeClass5, unusedZero, layoutS_c, layoutS_f, layoutS_d, layoutS_a, layoutS_b, layoutS_h, extract_all,
    BitVec.toNat_ofNat, Nat.reducePow, Nat.reduceMod, Nat.reduceSub, Nat.reduceLeDiff, Nat.reduceAdd,
    beq_self_eq_true, if_true]

theorem mulhiN (d : BitVec 6) (a : BitVec 6) (b : BitVec 6) : Statement (.mulhiN d a b) := by
  intro w h hw
  obtain rfl : (layoutS 0x5#4 0x4#6 d a b 0#4) = w := Option.some.inj h
  rw [decode, if_neg hw]
  simp only [decodeClass5, unusedZero, layoutS_c, layoutS_f, layoutS_d, layoutS_a, layoutS_b, layoutS_h, extract_all,
    BitVec.toNat_ofNat, Nat.reducePow, Nat.reduceMod, Nat.reduceSub, Nat.reduceLeDiff, Nat.reduceAdd,
    beq_self_eq_true, if_true]

theorem divI (d : BitVec 6) (a : BitVec 6) (b : BitVec 6) : Statement (.divI d a b) := by
  intro w h hw
  obtain rfl : (layoutS 0x5#4 0x5#6 d a b 0#4) = w := Option.some.inj h
  rw [decode, if_neg hw]
  simp only [decodeClass5, unusedZero, layoutS_c, layoutS_f, layoutS_d, layoutS_a, layoutS_b, layoutS_h, extract_all,
    BitVec.toNat_ofNat, Nat.reducePow, Nat.reduceMod, Nat.reduceSub, Nat.reduceLeDiff, Nat.reduceAdd,
    beq_self_eq_true, if_true]

theorem divN (d : BitVec 6) (a : BitVec 6) (b : BitVec 6) : Statement (.divN d a b) := by
  intro w h hw
  obtain rfl : (layoutS 0x5#4 0x6#6 d a b 0#4) = w := Option.some.inj h
  rw [decode, if_neg hw]
  simp only [decodeClass5, unusedZero, layoutS_c, layoutS_f, layoutS_d, layoutS_a, layoutS_b, layoutS_h, extract_all,
    BitVec.toNat_ofNat, Nat.reducePow, Nat.reduceMod, Nat.reduceSub, Nat.reduceLeDiff, Nat.reduceAdd,
    beq_self_eq_true, if_true]

theorem remI (d : BitVec 6) (a : BitVec 6) (b : BitVec 6) : Statement (.remI d a b) := by
  intro w h hw
  obtain rfl : (layoutS 0x5#4 0x7#6 d a b 0#4) = w := Option.some.inj h
  rw [decode, if_neg hw]
  simp only [decodeClass5, unusedZero, layoutS_c, layoutS_f, layoutS_d, layoutS_a, layoutS_b, layoutS_h, extract_all,
    BitVec.toNat_ofNat, Nat.reducePow, Nat.reduceMod, Nat.reduceSub, Nat.reduceLeDiff, Nat.reduceAdd,
    beq_self_eq_true, if_true]

theorem remN (d : BitVec 6) (a : BitVec 6) (b : BitVec 6) : Statement (.remN d a b) := by
  intro w h hw
  obtain rfl : (layoutS 0x5#4 0x8#6 d a b 0#4) = w := Option.some.inj h
  rw [decode, if_neg hw]
  simp only [decodeClass5, unusedZero, layoutS_c, layoutS_f, layoutS_d, layoutS_a, layoutS_b, layoutS_h, extract_all,
    BitVec.toNat_ofNat, Nat.reducePow, Nat.reduceMod, Nat.reduceSub, Nat.reduceLeDiff, Nat.reduceAdd,
    beq_self_eq_true, if_true]

theorem and (d : BitVec 6) (a : BitVec 6) (b : BitVec 6) : Statement (.and d a b) := by
  intro w h hw
  obtain rfl : (layoutS 0x5#4 0x9#6 d a b 0#4) = w := Option.some.inj h
  rw [decode, if_neg hw]
  simp only [decodeClass5, unusedZero, layoutS_c, layoutS_f, layoutS_d, layoutS_a, layoutS_b, layoutS_h, extract_all,
    BitVec.toNat_ofNat, Nat.reducePow, Nat.reduceMod, Nat.reduceSub, Nat.reduceLeDiff, Nat.reduceAdd,
    beq_self_eq_true, if_true]

theorem or (d : BitVec 6) (a : BitVec 6) (b : BitVec 6) : Statement (.or d a b) := by
  intro w h hw
  obtain rfl : (layoutS 0x5#4 0xA#6 d a b 0#4) = w := Option.some.inj h
  rw [decode, if_neg hw]
  simp only [decodeClass5, unusedZero, layoutS_c, layoutS_f, layoutS_d, layoutS_a, layoutS_b, layoutS_h, extract_all,
    BitVec.toNat_ofNat, Nat.reducePow, Nat.reduceMod, Nat.reduceSub, Nat.reduceLeDiff, Nat.reduceAdd,
    beq_self_eq_true, if_true]

theorem xor (d : BitVec 6) (a : BitVec 6) (b : BitVec 6) : Statement (.xor d a b) := by
  intro w h hw
  obtain rfl : (layoutS 0x5#4 0xB#6 d a b 0#4) = w := Option.some.inj h
  rw [decode, if_neg hw]
  simp only [decodeClass5, unusedZero, layoutS_c, layoutS_f, layoutS_d, layoutS_a, layoutS_b, layoutS_h, extract_all,
    BitVec.toNat_ofNat, Nat.reducePow, Nat.reduceMod, Nat.reduceSub, Nat.reduceLeDiff, Nat.reduceAdd,
    beq_self_eq_true, if_true]

theorem andn (d : BitVec 6) (a : BitVec 6) (b : BitVec 6) : Statement (.andn d a b) := by
  intro w h hw
  obtain rfl : (layoutS 0x5#4 0xC#6 d a b 0#4) = w := Option.some.inj h
  rw [decode, if_neg hw]
  simp only [decodeClass5, unusedZero, layoutS_c, layoutS_f, layoutS_d, layoutS_a, layoutS_b, layoutS_h, extract_all,
    BitVec.toNat_ofNat, Nat.reducePow, Nat.reduceMod, Nat.reduceSub, Nat.reduceLeDiff, Nat.reduceAdd,
    beq_self_eq_true, if_true]

theorem shl (d : BitVec 6) (a : BitVec 6) (b : BitVec 6) : Statement (.shl d a b) := by
  intro w h hw
  obtain rfl : (layoutS 0x5#4 0xD#6 d a b 0#4) = w := Option.some.inj h
  rw [decode, if_neg hw]
  simp only [decodeClass5, unusedZero, layoutS_c, layoutS_f, layoutS_d, layoutS_a, layoutS_b, layoutS_h, extract_all,
    BitVec.toNat_ofNat, Nat.reducePow, Nat.reduceMod, Nat.reduceSub, Nat.reduceLeDiff, Nat.reduceAdd,
    beq_self_eq_true, if_true]

theorem shr (d : BitVec 6) (a : BitVec 6) (b : BitVec 6) : Statement (.shr d a b) := by
  intro w h hw
  obtain rfl : (layoutS 0x5#4 0xE#6 d a b 0#4) = w := Option.some.inj h
  rw [decode, if_neg hw]
  simp only [decodeClass5, unusedZero, layoutS_c, layoutS_f, layoutS_d, layoutS_a, layoutS_b, layoutS_h, extract_all,
    BitVec.toNat_ofNat, Nat.reducePow, Nat.reduceMod, Nat.reduceSub, Nat.reduceLeDiff, Nat.reduceAdd,
    beq_self_eq_true, if_true]

theorem sar (d : BitVec 6) (a : BitVec 6) (b : BitVec 6) : Statement (.sar d a b) := by
  intro w h hw
  obtain rfl : (layoutS 0x5#4 0xF#6 d a b 0#4) = w := Option.some.inj h
  rw [decode, if_neg hw]
  simp only [decodeClass5, unusedZero, layoutS_c, layoutS_f, layoutS_d, layoutS_a, layoutS_b, layoutS_h, extract_all,
    BitVec.toNat_ofNat, Nat.reducePow, Nat.reduceMod, Nat.reduceSub, Nat.reduceLeDiff, Nat.reduceAdd,
    beq_self_eq_true, if_true]

theorem minI (d : BitVec 6) (a : BitVec 6) (b : BitVec 6) : Statement (.minI d a b) := by
  intro w h hw
  obtain rfl : (layoutS 0x5#4 0x10#6 d a b 0#4) = w := Option.some.inj h
  rw [decode, if_neg hw]
  simp only [decodeClass5, unusedZero, layoutS_c, layoutS_f, layoutS_d, layoutS_a, layoutS_b, layoutS_h, extract_all,
    BitVec.toNat_ofNat, Nat.reducePow, Nat.reduceMod, Nat.reduceSub, Nat.reduceLeDiff, Nat.reduceAdd,
    beq_self_eq_true, if_true]

theorem maxI (d : BitVec 6) (a : BitVec 6) (b : BitVec 6) : Statement (.maxI d a b) := by
  intro w h hw
  obtain rfl : (layoutS 0x5#4 0x11#6 d a b 0#4) = w := Option.some.inj h
  rw [decode, if_neg hw]
  simp only [decodeClass5, unusedZero, layoutS_c, layoutS_f, layoutS_d, layoutS_a, layoutS_b, layoutS_h, extract_all,
    BitVec.toNat_ofNat, Nat.reducePow, Nat.reduceMod, Nat.reduceSub, Nat.reduceLeDiff, Nat.reduceAdd,
    beq_self_eq_true, if_true]

theorem minN (d : BitVec 6) (a : BitVec 6) (b : BitVec 6) : Statement (.minN d a b) := by
  intro w h hw
  obtain rfl : (layoutS 0x5#4 0x12#6 d a b 0#4) = w := Option.some.inj h
  rw [decode, if_neg hw]
  simp only [decodeClass5, unusedZero, layoutS_c, layoutS_f, layoutS_d, layoutS_a, layoutS_b, layoutS_h, extract_all,
    BitVec.toNat_ofNat, Nat.reducePow, Nat.reduceMod, Nat.reduceSub, Nat.reduceLeDiff, Nat.reduceAdd,
    beq_self_eq_true, if_true]

theorem maxN (d : BitVec 6) (a : BitVec 6) (b : BitVec 6) : Statement (.maxN d a b) := by
  intro w h hw
  obtain rfl : (layoutS 0x5#4 0x13#6 d a b 0#4) = w := Option.some.inj h
  rw [decode, if_neg hw]
  simp only [decodeClass5, unusedZero, layoutS_c, layoutS_f, layoutS_d, layoutS_a, layoutS_b, layoutS_h, extract_all,
    BitVec.toNat_ofNat, Nat.reducePow, Nat.reduceMod, Nat.reduceSub, Nat.reduceLeDiff, Nat.reduceAdd,
    beq_self_eq_true, if_true]

theorem sltI (d : BitVec 6) (a : BitVec 6) (b : BitVec 6) : Statement (.sltI d a b) := by
  intro w h hw
  obtain rfl : (layoutS 0x5#4 0x14#6 d a b 0#4) = w := Option.some.inj h
  rw [decode, if_neg hw]
  simp only [decodeClass5, unusedZero, layoutS_c, layoutS_f, layoutS_d, layoutS_a, layoutS_b, layoutS_h, extract_all,
    BitVec.toNat_ofNat, Nat.reducePow, Nat.reduceMod, Nat.reduceSub, Nat.reduceLeDiff, Nat.reduceAdd,
    beq_self_eq_true, if_true]

theorem sltN (d : BitVec 6) (a : BitVec 6) (b : BitVec 6) : Statement (.sltN d a b) := by
  intro w h hw
  obtain rfl : (layoutS 0x5#4 0x15#6 d a b 0#4) = w := Option.some.inj h
  rw [decode, if_neg hw]
  simp only [decodeClass5, unusedZero, layoutS_c, layoutS_f, layoutS_d, layoutS_a, layoutS_b, layoutS_h, extract_all,
    BitVec.toNat_ofNat, Nat.reducePow, Nat.reduceMod, Nat.reduceSub, Nat.reduceLeDiff, Nat.reduceAdd,
    beq_self_eq_true, if_true]

theorem seq (d : BitVec 6) (a : BitVec 6) (b : BitVec 6) : Statement (.seq d a b) := by
  intro w h hw
  obtain rfl : (layoutS 0x5#4 0x16#6 d a b 0#4) = w := Option.some.inj h
  rw [decode, if_neg hw]
  simp only [decodeClass5, unusedZero, layoutS_c, layoutS_f, layoutS_d, layoutS_a, layoutS_b, layoutS_h, extract_all,
    BitVec.toNat_ofNat, Nat.reducePow, Nat.reduceMod, Nat.reduceSub, Nat.reduceLeDiff, Nat.reduceAdd,
    beq_self_eq_true, if_true]

theorem mov (d : BitVec 6) (a : BitVec 6) : Statement (.mov d a) := by
  intro w h hw
  obtain rfl : (layoutS 0x5#4 0x17#6 d a 0#6 0#4) = w := Option.some.inj h
  rw [decode, if_neg hw]
  simp only [decodeClass5, unusedZero, layoutS_c, layoutS_f, layoutS_d, layoutS_a, layoutS_unused10, extract_all,
    BitVec.toNat_ofNat, Nat.reducePow, Nat.reduceMod, Nat.reduceSub, Nat.reduceLeDiff, Nat.reduceAdd,
    beq_self_eq_true, if_true]

theorem clz (d : BitVec 6) (a : BitVec 6) : Statement (.clz d a) := by
  intro w h hw
  obtain rfl : (layoutS 0x5#4 0x18#6 d a 0#6 0#4) = w := Option.some.inj h
  rw [decode, if_neg hw]
  simp only [decodeClass5, unusedZero, layoutS_c, layoutS_f, layoutS_d, layoutS_a, layoutS_unused10, extract_all,
    BitVec.toNat_ofNat, Nat.reducePow, Nat.reduceMod, Nat.reduceSub, Nat.reduceLeDiff, Nat.reduceAdd,
    beq_self_eq_true, if_true]

theorem popc (d : BitVec 6) (a : BitVec 6) : Statement (.popc d a) := by
  intro w h hw
  obtain rfl : (layoutS 0x5#4 0x19#6 d a 0#6 0#4) = w := Option.some.inj h
  rw [decode, if_neg hw]
  simp only [decodeClass5, unusedZero, layoutS_c, layoutS_f, layoutS_d, layoutS_a, layoutS_unused10, extract_all,
    BitVec.toNat_ofNat, Nat.reducePow, Nat.reduceMod, Nat.reduceSub, Nat.reduceLeDiff, Nat.reduceAdd,
    beq_self_eq_true, if_true]

theorem brev (d : BitVec 6) (a : BitVec 6) : Statement (.brev d a) := by
  intro w h hw
  obtain rfl : (layoutS 0x5#4 0x1A#6 d a 0#6 0#4) = w := Option.some.inj h
  rw [decode, if_neg hw]
  simp only [decodeClass5, unusedZero, layoutS_c, layoutS_f, layoutS_d, layoutS_a, layoutS_unused10, extract_all,
    BitVec.toNat_ofNat, Nat.reducePow, Nat.reduceMod, Nat.reduceSub, Nat.reduceLeDiff, Nat.reduceAdd,
    beq_self_eq_true, if_true]

theorem sext32 (d : BitVec 6) (a : BitVec 6) : Statement (.sext32 d a) := by
  intro w h hw
  obtain rfl : (layoutS 0x5#4 0x1B#6 d a 0#6 0#4) = w := Option.some.inj h
  rw [decode, if_neg hw]
  simp only [decodeClass5, unusedZero, layoutS_c, layoutS_f, layoutS_d, layoutS_a, layoutS_unused10, extract_all,
    BitVec.toNat_ofNat, Nat.reducePow, Nat.reduceMod, Nat.reduceSub, Nat.reduceLeDiff, Nat.reduceAdd,
    beq_self_eq_true, if_true]

theorem zext32 (d : BitVec 6) (a : BitVec 6) : Statement (.zext32 d a) := by
  intro w h hw
  obtain rfl : (layoutS 0x5#4 0x1C#6 d a 0#6 0#4) = w := Option.some.inj h
  rw [decode, if_neg hw]
  simp only [decodeClass5, unusedZero, layoutS_c, layoutS_f, layoutS_d, layoutS_a, layoutS_unused10, extract_all,
    BitVec.toNat_ofNat, Nat.reducePow, Nat.reduceMod, Nat.reduceSub, Nat.reduceLeDiff, Nat.reduceAdd,
    beq_self_eq_true, if_true]

theorem lea (d : BitVec 6) (a : BitVec 6) (b : BitVec 6) (sh : BitVec 4) : Statement (.lea d a b sh) := by
  intro w h hw
  obtain rfl : (layoutS 0x5#4 0x1D#6 d a b sh) = w := Option.some.inj h
  rw [decode, if_neg hw]
  simp only [decodeClass5, layoutS_c, layoutS_f, layoutS_d, layoutS_a, layoutS_b, layoutS_h, extract_all,
    BitVec.toNat_ofNat, Nat.reducePow, Nat.reduceMod, Nat.reduceSub, Nat.reduceLeDiff, Nat.reduceAdd]

theorem kand (d : BitVec 3) (a : BitVec 3) (b : BitVec 3) : Statement (.kand d a b) := by
  intro w h hw
  obtain rfl : (layoutS 0x5#4 0x20#6 (0#3 ++ d) (0#3 ++ a) (0#3 ++ b) 0#4) = w := Option.some.inj h
  rw [decode, if_neg hw]
  simp only [decodeClass5, unusedZero, layoutS_c, layoutS_f, layoutS_d, layoutS_a, layoutS_b, layoutS_h, pair33_high,
    pair33_low, extract_all, BitVec.toNat_ofNat, Nat.reducePow, Nat.reduceMod, Nat.reduceSub, Nat.reduceLeDiff,
    Nat.reduceAdd, beq_self_eq_true, Bool.and_self, if_true]

theorem kor (d : BitVec 3) (a : BitVec 3) (b : BitVec 3) : Statement (.kor d a b) := by
  intro w h hw
  obtain rfl : (layoutS 0x5#4 0x21#6 (0#3 ++ d) (0#3 ++ a) (0#3 ++ b) 0#4) = w := Option.some.inj h
  rw [decode, if_neg hw]
  simp only [decodeClass5, unusedZero, layoutS_c, layoutS_f, layoutS_d, layoutS_a, layoutS_b, layoutS_h, pair33_high,
    pair33_low, extract_all, BitVec.toNat_ofNat, Nat.reducePow, Nat.reduceMod, Nat.reduceSub, Nat.reduceLeDiff,
    Nat.reduceAdd, beq_self_eq_true, Bool.and_self, if_true]

theorem kxor (d : BitVec 3) (a : BitVec 3) (b : BitVec 3) : Statement (.kxor d a b) := by
  intro w h hw
  obtain rfl : (layoutS 0x5#4 0x22#6 (0#3 ++ d) (0#3 ++ a) (0#3 ++ b) 0#4) = w := Option.some.inj h
  rw [decode, if_neg hw]
  simp only [decodeClass5, unusedZero, layoutS_c, layoutS_f, layoutS_d, layoutS_a, layoutS_b, layoutS_h, pair33_high,
    pair33_low, extract_all, BitVec.toNat_ofNat, Nat.reducePow, Nat.reduceMod, Nat.reduceSub, Nat.reduceLeDiff,
    Nat.reduceAdd, beq_self_eq_true, Bool.and_self, if_true]

theorem kandn (d : BitVec 3) (a : BitVec 3) (b : BitVec 3) : Statement (.kandn d a b) := by
  intro w h hw
  obtain rfl : (layoutS 0x5#4 0x23#6 (0#3 ++ d) (0#3 ++ a) (0#3 ++ b) 0#4) = w := Option.some.inj h
  rw [decode, if_neg hw]
  simp only [decodeClass5, unusedZero, layoutS_c, layoutS_f, layoutS_d, layoutS_a, layoutS_b, layoutS_h, pair33_high,
    pair33_low, extract_all, BitVec.toNat_ofNat, Nat.reducePow, Nat.reduceMod, Nat.reduceSub, Nat.reduceLeDiff,
    Nat.reduceAdd, beq_self_eq_true, Bool.and_self, if_true]

theorem knot (d : BitVec 3) (a : BitVec 3) : Statement (.knot d a) := by
  intro w h hw
  obtain rfl : (layoutS 0x5#4 0x24#6 (0#3 ++ d) (0#3 ++ a) 0#6 0#4) = w := Option.some.inj h
  rw [decode, if_neg hw]
  simp only [decodeClass5, unusedZero, layoutS_c, layoutS_f, layoutS_d, layoutS_a, layoutS_unused10, pair33_high,
    pair33_low, extract_all, BitVec.toNat_ofNat, Nat.reducePow, Nat.reduceMod, Nat.reduceSub, Nat.reduceLeDiff,
    Nat.reduceAdd, beq_self_eq_true, Bool.and_self, if_true]

theorem kpopc (d : BitVec 6) (a : BitVec 3) : Statement (.kpopc d a) := by
  intro w h hw
  obtain rfl : (layoutS 0x5#4 0x25#6 d (0#3 ++ a) 0#6 0#4) = w := Option.some.inj h
  rw [decode, if_neg hw]
  simp only [decodeClass5, unusedZero, layoutS_c, layoutS_f, layoutS_d, layoutS_a, layoutS_unused10, pair33_high,
    pair33_low, extract_all, BitVec.toNat_ofNat, Nat.reducePow, Nat.reduceMod, Nat.reduceSub, Nat.reduceLeDiff,
    Nat.reduceAdd, beq_self_eq_true, Bool.and_self, if_true]

theorem kffs (d : BitVec 6) (a : BitVec 3) : Statement (.kffs d a) := by
  intro w h hw
  obtain rfl : (layoutS 0x5#4 0x26#6 d (0#3 ++ a) 0#6 0#4) = w := Option.some.inj h
  rw [decode, if_neg hw]
  simp only [decodeClass5, unusedZero, layoutS_c, layoutS_f, layoutS_d, layoutS_a, layoutS_unused10, pair33_high,
    pair33_low, extract_all, BitVec.toNat_ofNat, Nat.reducePow, Nat.reduceMod, Nat.reduceSub, Nat.reduceLeDiff,
    Nat.reduceAdd, beq_self_eq_true, Bool.and_self, if_true]

theorem ktos (d : BitVec 6) (a : BitVec 3) : Statement (.ktos d a) := by
  intro w h hw
  obtain rfl : (layoutS 0x5#4 0x27#6 d (0#3 ++ a) 0#6 0#4) = w := Option.some.inj h
  rw [decode, if_neg hw]
  simp only [decodeClass5, unusedZero, layoutS_c, layoutS_f, layoutS_d, layoutS_a, layoutS_unused10, pair33_high,
    pair33_low, extract_all, BitVec.toNat_ofNat, Nat.reducePow, Nat.reduceMod, Nat.reduceSub, Nat.reduceLeDiff,
    Nat.reduceAdd, beq_self_eq_true, Bool.and_self, if_true]

theorem stok (d : BitVec 3) (a : BitVec 6) : Statement (.stok d a) := by
  intro w h hw
  obtain rfl : (layoutS 0x5#4 0x28#6 (0#3 ++ d) a 0#6 0#4) = w := Option.some.inj h
  rw [decode, if_neg hw]
  simp only [decodeClass5, unusedZero, layoutS_c, layoutS_f, layoutS_d, layoutS_a, layoutS_unused10, pair33_high,
    pair33_low, extract_all, BitVec.toNat_ofNat, Nat.reducePow, Nat.reduceMod, Nat.reduceSub, Nat.reduceLeDiff,
    Nat.reduceAdd, beq_self_eq_true, Bool.and_self, if_true]

theorem exmrd (d : BitVec 6) : Statement (.exmrd d) := by
  intro w h hw
  obtain rfl : (layoutS 0x5#4 0x29#6 d 0#6 0#6 0#4) = w := Option.some.inj h
  rw [decode, if_neg hw]
  simp only [decodeClass5, unusedZero, layoutS_c, layoutS_f, layoutS_d, layoutS_unused16, extract_all,
    BitVec.toNat_ofNat, Nat.reducePow, Nat.reduceMod, Nat.reduceSub, Nat.reduceLeDiff, Nat.reduceAdd,
    beq_self_eq_true, if_true]

theorem exmwr (a : BitVec 6) : Statement (.exmwr a) := by
  intro w h hw
  obtain rfl : (layoutS 0x5#4 0x2A#6 0#6 a 0#6 0#4) = w := Option.some.inj h
  rw [decode, if_neg hw]
  simp only [decodeClass5, unusedZero, layoutS_c, layoutS_f, layoutS_d, layoutS_a, layoutS_unused10, extract_all,
    BitVec.toNat_ofNat, Nat.reducePow, Nat.reduceMod, Nat.reduceSub, Nat.reduceLeDiff, Nat.reduceAdd,
    beq_self_eq_true, Bool.and_self, if_true]

theorem addi (d : BitVec 6) (a : BitVec 6) (imm : BitVec 10) : Statement (.addi d a imm) := by
  intro w h hw
  obtain rfl : (layoutI 0x6#4 0x0#6 d a imm) = w := Option.some.inj h
  rw [decode, if_neg hw]
  simp only [decodeClass6, layoutI_c, layoutI_f, layoutI_d, layoutI_a, layoutI_i, extract_all, BitVec.toNat_ofNat,
    Nat.reducePow, Nat.reduceMod, Nat.reduceSub, Nat.reduceLeDiff, Nat.reduceAdd]

theorem andi (d : BitVec 6) (a : BitVec 6) (imm : BitVec 10) : Statement (.andi d a imm) := by
  intro w h hw
  obtain rfl : (layoutI 0x6#4 0x1#6 d a imm) = w := Option.some.inj h
  rw [decode, if_neg hw]
  simp only [decodeClass6, layoutI_c, layoutI_f, layoutI_d, layoutI_a, layoutI_i, extract_all, BitVec.toNat_ofNat,
    Nat.reducePow, Nat.reduceMod, Nat.reduceSub, Nat.reduceLeDiff, Nat.reduceAdd]

theorem ori (d : BitVec 6) (a : BitVec 6) (imm : BitVec 10) : Statement (.ori d a imm) := by
  intro w h hw
  obtain rfl : (layoutI 0x6#4 0x2#6 d a imm) = w := Option.some.inj h
  rw [decode, if_neg hw]
  simp only [decodeClass6, layoutI_c, layoutI_f, layoutI_d, layoutI_a, layoutI_i, extract_all, BitVec.toNat_ofNat,
    Nat.reducePow, Nat.reduceMod, Nat.reduceSub, Nat.reduceLeDiff, Nat.reduceAdd]

theorem xori (d : BitVec 6) (a : BitVec 6) (imm : BitVec 10) : Statement (.xori d a imm) := by
  intro w h hw
  obtain rfl : (layoutI 0x6#4 0x3#6 d a imm) = w := Option.some.inj h
  rw [decode, if_neg hw]
  simp only [decodeClass6, layoutI_c, layoutI_f, layoutI_d, layoutI_a, layoutI_i, extract_all, BitVec.toNat_ofNat,
    Nat.reducePow, Nat.reduceMod, Nat.reduceSub, Nat.reduceLeDiff, Nat.reduceAdd]

theorem shli (d : BitVec 6) (a : BitVec 6) (imm : BitVec 10) : Statement (.shli d a imm) := by
  intro w h hw
  obtain rfl : (layoutI 0x6#4 0x4#6 d a imm) = w := Option.some.inj h
  rw [decode, if_neg hw]
  simp only [decodeClass6, layoutI_c, layoutI_f, layoutI_d, layoutI_a, layoutI_i, extract_all, BitVec.toNat_ofNat,
    Nat.reducePow, Nat.reduceMod, Nat.reduceSub, Nat.reduceLeDiff, Nat.reduceAdd]

theorem shri (d : BitVec 6) (a : BitVec 6) (imm : BitVec 10) : Statement (.shri d a imm) := by
  intro w h hw
  obtain rfl : (layoutI 0x6#4 0x5#6 d a imm) = w := Option.some.inj h
  rw [decode, if_neg hw]
  simp only [decodeClass6, layoutI_c, layoutI_f, layoutI_d, layoutI_a, layoutI_i, extract_all, BitVec.toNat_ofNat,
    Nat.reducePow, Nat.reduceMod, Nat.reduceSub, Nat.reduceLeDiff, Nat.reduceAdd]

theorem sari (d : BitVec 6) (a : BitVec 6) (imm : BitVec 10) : Statement (.sari d a imm) := by
  intro w h hw
  obtain rfl : (layoutI 0x6#4 0x6#6 d a imm) = w := Option.some.inj h
  rw [decode, if_neg hw]
  simp only [decodeClass6, layoutI_c, layoutI_f, layoutI_d, layoutI_a, layoutI_i, extract_all, BitVec.toNat_ofNat,
    Nat.reducePow, Nat.reduceMod, Nat.reduceSub, Nat.reduceLeDiff, Nat.reduceAdd]

theorem sltiI (d : BitVec 6) (a : BitVec 6) (imm : BitVec 10) : Statement (.sltiI d a imm) := by
  intro w h hw
  obtain rfl : (layoutI 0x6#4 0x7#6 d a imm) = w := Option.some.inj h
  rw [decode, if_neg hw]
  simp only [decodeClass6, layoutI_c, layoutI_f, layoutI_d, layoutI_a, layoutI_i, extract_all, BitVec.toNat_ofNat,
    Nat.reducePow, Nat.reduceMod, Nat.reduceSub, Nat.reduceLeDiff, Nat.reduceAdd]

theorem sltiN (d : BitVec 6) (a : BitVec 6) (imm : BitVec 10) : Statement (.sltiN d a imm) := by
  intro w h hw
  obtain rfl : (layoutI 0x6#4 0x8#6 d a imm) = w := Option.some.inj h
  rw [decode, if_neg hw]
  simp only [decodeClass6, layoutI_c, layoutI_f, layoutI_d, layoutI_a, layoutI_i, extract_all, BitVec.toNat_ofNat,
    Nat.reducePow, Nat.reduceMod, Nat.reduceSub, Nat.reduceLeDiff, Nat.reduceAdd]

theorem seqi (d : BitVec 6) (a : BitVec 6) (imm : BitVec 10) : Statement (.seqi d a imm) := by
  intro w h hw
  obtain rfl : (layoutI 0x6#4 0x9#6 d a imm) = w := Option.some.inj h
  rw [decode, if_neg hw]
  simp only [decodeClass6, layoutI_c, layoutI_f, layoutI_d, layoutI_a, layoutI_i, extract_all, BitVec.toNat_ofNat,
    Nat.reducePow, Nat.reduceMod, Nat.reduceSub, Nat.reduceLeDiff, Nat.reduceAdd]

theorem li (d : BitVec 6) (imm : BitVec 10) : Statement (.li d imm) := by
  intro w h hw
  obtain rfl : (layoutI 0x6#4 0xA#6 d 0#6 imm) = w := Option.some.inj h
  rw [decode, if_neg hw]
  simp only [decodeClass6, unusedZero, layoutI_c, layoutI_f, layoutI_d, layoutI_a, layoutI_i, extract_all,
    BitVec.toNat_ofNat, Nat.reducePow, Nat.reduceMod, Nat.reduceSub, Nat.reduceLeDiff, Nat.reduceAdd,
    beq_self_eq_true, if_true]

theorem muli (d : BitVec 6) (a : BitVec 6) (imm : BitVec 10) : Statement (.muli d a imm) := by
  intro w h hw
  obtain rfl : (layoutI 0x6#4 0xB#6 d a imm) = w := Option.some.inj h
  rw [decode, if_neg hw]
  simp only [decodeClass6, layoutI_c, layoutI_f, layoutI_d, layoutI_a, layoutI_i, extract_all, BitVec.toNat_ofNat,
    Nat.reducePow, Nat.reduceMod, Nat.reduceSub, Nat.reduceLeDiff, Nat.reduceAdd]

theorem br (off : BitVec 24) : Statement (.br off) := by
  intro w h hw
  obtain rfl : (layoutC24 0x7#4 0x0#4 off) = w := Option.some.inj h
  rw [decode, if_neg hw]
  simp only [decodeClass7, layoutC24_c, layoutC24_f, layoutC24_o, extract_all, BitVec.toNat_ofNat, Nat.reducePow,
    Nat.reduceMod, Nat.reduceSub, Nat.reduceLeDiff, Nat.reduceAdd]

theorem brz (r : BitVec 6) (off : BitVec 18) : Statement (.brz r off) := by
  intro w h hw
  obtain rfl : (layoutC 0x7#4 0x1#4 r off) = w := Option.some.inj h
  rw [decode, if_neg hw]
  simp only [decodeClass7, layoutC_c, layoutC_f, layoutC_r, layoutC_o, extract_all, BitVec.toNat_ofNat, Nat.reducePow,
    Nat.reduceMod, Nat.reduceSub, Nat.reduceLeDiff, Nat.reduceAdd]

theorem brnz (r : BitVec 6) (off : BitVec 18) : Statement (.brnz r off) := by
  intro w h hw
  obtain rfl : (layoutC 0x7#4 0x2#4 r off) = w := Option.some.inj h
  rw [decode, if_neg hw]
  simp only [decodeClass7, layoutC_c, layoutC_f, layoutC_r, layoutC_o, extract_all, BitVec.toNat_ofNat, Nat.reducePow,
    Nat.reduceMod, Nat.reduceSub, Nat.reduceLeDiff, Nat.reduceAdd]

theorem brany (k : BitVec 3) (off : BitVec 18) : Statement (.brany k off) := by
  intro w h hw
  obtain rfl : (layoutC 0x7#4 0x3#4 (0#3 ++ k) off) = w := Option.some.inj h
  rw [decode, if_neg hw]
  simp only [decodeClass7, unusedZero, layoutC_c, layoutC_f, layoutC_r, layoutC_o, pair33_high, pair33_low,
    extract_all, BitVec.toNat_ofNat, Nat.reducePow, Nat.reduceMod, Nat.reduceSub, Nat.reduceLeDiff, Nat.reduceAdd,
    beq_self_eq_true, if_true]

theorem brall (k : BitVec 3) (off : BitVec 18) : Statement (.brall k off) := by
  intro w h hw
  obtain rfl : (layoutC 0x7#4 0x4#4 (0#3 ++ k) off) = w := Option.some.inj h
  rw [decode, if_neg hw]
  simp only [decodeClass7, unusedZero, layoutC_c, layoutC_f, layoutC_r, layoutC_o, pair33_high, pair33_low,
    extract_all, BitVec.toNat_ofNat, Nat.reducePow, Nat.reduceMod, Nat.reduceSub, Nat.reduceLeDiff, Nat.reduceAdd,
    beq_self_eq_true, if_true]

theorem call (off : BitVec 24) : Statement (.call off) := by
  intro w h hw
  obtain rfl : (layoutC24 0x7#4 0x5#4 off) = w := Option.some.inj h
  rw [decode, if_neg hw]
  simp only [decodeClass7, layoutC24_c, layoutC24_f, layoutC24_o, extract_all, BitVec.toNat_ofNat, Nat.reducePow,
    Nat.reduceMod, Nat.reduceSub, Nat.reduceLeDiff, Nat.reduceAdd]

theorem ret (r : BitVec 6) : Statement (.ret r) := by
  intro w h hw
  obtain rfl : (layoutC 0x7#4 0x6#4 r 0#18) = w := Option.some.inj h
  rw [decode, if_neg hw]
  simp only [decodeClass7, unusedZero, layoutC_c, layoutC_f, layoutC_r, layoutC_o, extract_all, BitVec.toNat_ofNat,
    Nat.reducePow, Nat.reduceMod, Nat.reduceSub, Nat.reduceLeDiff, Nat.reduceAdd, beq_self_eq_true, if_true]

theorem brx (r : BitVec 6) (off : BitVec 18) : Statement (.brx r off) := by
  intro w h hw
  obtain rfl : (layoutC 0x7#4 0x7#4 r off) = w := Option.some.inj h
  rw [decode, if_neg hw]
  simp only [decodeClass7, layoutC_c, layoutC_f, layoutC_r, layoutC_o, extract_all, BitVec.toNat_ofNat, Nat.reducePow,
    Nat.reduceMod, Nat.reduceSub, Nat.reduceLeDiff, Nat.reduceAdd]

theorem mif (k : BitVec 3) (off : BitVec 18) : Statement (.mif k off) := by
  intro w h hw
  obtain rfl : (layoutC 0x7#4 0x8#4 (0#3 ++ k) off) = w := Option.some.inj h
  rw [decode, if_neg hw]
  simp only [decodeClass7, unusedZero, layoutC_c, layoutC_f, layoutC_r, layoutC_o, pair33_high, pair33_low,
    extract_all, BitVec.toNat_ofNat, Nat.reducePow, Nat.reduceMod, Nat.reduceSub, Nat.reduceLeDiff, Nat.reduceAdd,
    beq_self_eq_true, if_true]

theorem melse (off : BitVec 18) : Statement (.melse off) := by
  intro w h hw
  obtain rfl : (layoutC 0x7#4 0x9#4 0#6 off) = w := Option.some.inj h
  rw [decode, if_neg hw]
  simp only [decodeClass7, unusedZero, layoutC_c, layoutC_f, layoutC_r, layoutC_o, extract_all, BitVec.toNat_ofNat,
    Nat.reducePow, Nat.reduceMod, Nat.reduceSub, Nat.reduceLeDiff, Nat.reduceAdd, beq_self_eq_true, if_true]

theorem mend : Statement (.mend) := by
  intro w h hw
  obtain rfl : (layoutC 0x7#4 0xA#4 0#6 0#18) = w := Option.some.inj h
  rw [decode, if_neg hw]
  simp only [decodeClass7, unusedZero, layoutC_c, layoutC_f, layoutC_unused, extract_all, BitVec.toNat_ofNat,
    Nat.reducePow, Nat.reduceMod, Nat.reduceSub, Nat.reduceLeDiff, Nat.reduceAdd, beq_self_eq_true, if_true]

theorem mwhile (k : BitVec 3) (off : BitVec 18) : Statement (.mwhile k off) := by
  intro w h hw
  obtain rfl : (layoutC 0x7#4 0xB#4 (0#3 ++ k) off) = w := Option.some.inj h
  rw [decode, if_neg hw]
  simp only [decodeClass7, unusedZero, layoutC_c, layoutC_f, layoutC_r, layoutC_o, pair33_high, pair33_low,
    extract_all, BitVec.toNat_ofNat, Nat.reducePow, Nat.reduceMod, Nat.reduceSub, Nat.reduceLeDiff, Nat.reduceAdd,
    beq_self_eq_true, if_true]

theorem exit : Statement (.exit) := by
  intro w h hw
  obtain rfl : (layoutC 0x7#4 0xC#4 0#6 0#18) = w := Option.some.inj h
  rw [decode, if_neg hw]
  simp only [decodeClass7, unusedZero, layoutC_c, layoutC_f, layoutC_unused, extract_all, BitVec.toNat_ofNat,
    Nat.reducePow, Nat.reduceMod, Nat.reduceSub, Nat.reduceLeDiff, Nat.reduceAdd, beq_self_eq_true, if_true]

theorem nop : Statement (.nop) := by
  intro w h hw
  obtain rfl : (layoutC 0x7#4 0xD#4 0#6 0#18) = w := Option.some.inj h
  rw [decode, if_neg hw]
  simp only [decodeClass7, unusedZero, layoutC_c, layoutC_f, layoutC_unused, extract_all, BitVec.toNat_ofNat,
    Nat.reducePow, Nat.reduceMod, Nat.reduceSub, Nat.reduceLeDiff, Nat.reduceAdd, beq_self_eq_true, if_true]

theorem wait (sel : BitVec 4) (n : BitVec 20) : Statement (.wait sel n) := by
  intro w h hw
  obtain rfl : (layoutW 0x7#4 0xE#4 sel n) = w := Option.some.inj h
  rw [decode, if_neg hw]
  simp only [decodeClass7, layoutW_c, layoutW_f, layoutW_e, layoutW_n, extract_all, BitVec.toNat_ofNat, Nat.reducePow,
    Nat.reduceMod, Nat.reduceSub, Nat.reduceLeDiff, Nat.reduceAdd]

theorem ldB8 (vd : BitVec 7) (sb : BitVec 6) (vo : BitVec 8) (ord : BitVec 2) : Statement (.ldB8 vd sb vo ord) := by
  intro w h hw
  obtain rfl : (layoutM 0x8#4 0x0#5 vd sb vo ord) = w := Option.some.inj h
  rw [decode, if_neg hw]
  simp only [decodeClass8, layoutM_c, layoutM_f, layoutM_d, layoutM_b, layoutM_o, layoutM_r, extract_all,
    BitVec.toNat_ofNat, Nat.reducePow, Nat.reduceMod, Nat.reduceSub, Nat.reduceLeDiff, Nat.reduceAdd]

theorem ldI8 (vd : BitVec 7) (sb : BitVec 6) (vo : BitVec 8) (ord : BitVec 2) : Statement (.ldI8 vd sb vo ord) := by
  intro w h hw
  obtain rfl : (layoutM 0x8#4 0x1#5 vd sb vo ord) = w := Option.some.inj h
  rw [decode, if_neg hw]
  simp only [decodeClass8, layoutM_c, layoutM_f, layoutM_d, layoutM_b, layoutM_o, layoutM_r, extract_all,
    BitVec.toNat_ofNat, Nat.reducePow, Nat.reduceMod, Nat.reduceSub, Nat.reduceLeDiff, Nat.reduceAdd]

theorem ldB16 (vd : BitVec 7) (sb : BitVec 6) (vo : BitVec 8) (ord : BitVec 2) : Statement (.ldB16 vd sb vo ord) := by
  intro w h hw
  obtain rfl : (layoutM 0x8#4 0x2#5 vd sb vo ord) = w := Option.some.inj h
  rw [decode, if_neg hw]
  simp only [decodeClass8, layoutM_c, layoutM_f, layoutM_d, layoutM_b, layoutM_o, layoutM_r, extract_all,
    BitVec.toNat_ofNat, Nat.reducePow, Nat.reduceMod, Nat.reduceSub, Nat.reduceLeDiff, Nat.reduceAdd]

theorem ldI16 (vd : BitVec 7) (sb : BitVec 6) (vo : BitVec 8) (ord : BitVec 2) : Statement (.ldI16 vd sb vo ord) := by
  intro w h hw
  obtain rfl : (layoutM 0x8#4 0x3#5 vd sb vo ord) = w := Option.some.inj h
  rw [decode, if_neg hw]
  simp only [decodeClass8, layoutM_c, layoutM_f, layoutM_d, layoutM_b, layoutM_o, layoutM_r, extract_all,
    BitVec.toNat_ofNat, Nat.reducePow, Nat.reduceMod, Nat.reduceSub, Nat.reduceLeDiff, Nat.reduceAdd]

theorem ldB32 (vd : BitVec 7) (sb : BitVec 6) (vo : BitVec 8) (ord : BitVec 2) : Statement (.ldB32 vd sb vo ord) := by
  intro w h hw
  obtain rfl : (layoutM 0x8#4 0x4#5 vd sb vo ord) = w := Option.some.inj h
  rw [decode, if_neg hw]
  simp only [decodeClass8, layoutM_c, layoutM_f, layoutM_d, layoutM_b, layoutM_o, layoutM_r, extract_all,
    BitVec.toNat_ofNat, Nat.reducePow, Nat.reduceMod, Nat.reduceSub, Nat.reduceLeDiff, Nat.reduceAdd]

theorem ldB64 (vd : BitVec 7) (sb : BitVec 6) (vo : BitVec 8) (ord : BitVec 2) : Statement (.ldB64 vd sb vo ord) := by
  intro w h hw
  obtain rfl : (layoutM 0x8#4 0x5#5 vd sb vo ord) = w := Option.some.inj h
  rw [decode, if_neg hw]
  simp only [decodeClass8, layoutM_c, layoutM_f, layoutM_d, layoutM_b, layoutM_o, layoutM_r, extract_all,
    BitVec.toNat_ofNat, Nat.reducePow, Nat.reduceMod, Nat.reduceSub, Nat.reduceLeDiff, Nat.reduceAdd]

theorem ldB128 (vd : BitVec 7) (sb : BitVec 6) (vo : BitVec 8) (ord : BitVec 2) : Statement (.ldB128 vd sb vo ord) := by
  intro w h hw
  obtain rfl : (layoutM 0x8#4 0x6#5 vd sb vo ord) = w := Option.some.inj h
  rw [decode, if_neg hw]
  simp only [decodeClass8, layoutM_c, layoutM_f, layoutM_d, layoutM_b, layoutM_o, layoutM_r, extract_all,
    BitVec.toNat_ofNat, Nat.reducePow, Nat.reduceMod, Nat.reduceSub, Nat.reduceLeDiff, Nat.reduceAdd]

theorem stB8 (vd : BitVec 7) (sb : BitVec 6) (vo : BitVec 8) (ord : BitVec 2) : Statement (.stB8 vd sb vo ord) := by
  intro w h hw
  obtain rfl : (layoutM 0x8#4 0x7#5 vd sb vo ord) = w := Option.some.inj h
  rw [decode, if_neg hw]
  simp only [decodeClass8, layoutM_c, layoutM_f, layoutM_d, layoutM_b, layoutM_o, layoutM_r, extract_all,
    BitVec.toNat_ofNat, Nat.reducePow, Nat.reduceMod, Nat.reduceSub, Nat.reduceLeDiff, Nat.reduceAdd]

theorem stB16 (vd : BitVec 7) (sb : BitVec 6) (vo : BitVec 8) (ord : BitVec 2) : Statement (.stB16 vd sb vo ord) := by
  intro w h hw
  obtain rfl : (layoutM 0x8#4 0x8#5 vd sb vo ord) = w := Option.some.inj h
  rw [decode, if_neg hw]
  simp only [decodeClass8, layoutM_c, layoutM_f, layoutM_d, layoutM_b, layoutM_o, layoutM_r, extract_all,
    BitVec.toNat_ofNat, Nat.reducePow, Nat.reduceMod, Nat.reduceSub, Nat.reduceLeDiff, Nat.reduceAdd]

theorem stB32 (vd : BitVec 7) (sb : BitVec 6) (vo : BitVec 8) (ord : BitVec 2) : Statement (.stB32 vd sb vo ord) := by
  intro w h hw
  obtain rfl : (layoutM 0x8#4 0x9#5 vd sb vo ord) = w := Option.some.inj h
  rw [decode, if_neg hw]
  simp only [decodeClass8, layoutM_c, layoutM_f, layoutM_d, layoutM_b, layoutM_o, layoutM_r, extract_all,
    BitVec.toNat_ofNat, Nat.reducePow, Nat.reduceMod, Nat.reduceSub, Nat.reduceLeDiff, Nat.reduceAdd]

theorem stB64 (vd : BitVec 7) (sb : BitVec 6) (vo : BitVec 8) (ord : BitVec 2) : Statement (.stB64 vd sb vo ord) := by
  intro w h hw
  obtain rfl : (layoutM 0x8#4 0xA#5 vd sb vo ord) = w := Option.some.inj h
  rw [decode, if_neg hw]
  simp only [decodeClass8, layoutM_c, layoutM_f, layoutM_d, layoutM_b, layoutM_o, layoutM_r, extract_all,
    BitVec.toNat_ofNat, Nat.reducePow, Nat.reduceMod, Nat.reduceSub, Nat.reduceLeDiff, Nat.reduceAdd]

theorem stB128 (vd : BitVec 7) (sb : BitVec 6) (vo : BitVec 8) (ord : BitVec 2) : Statement (.stB128 vd sb vo ord) := by
  intro w h hw
  obtain rfl : (layoutM 0x8#4 0xB#5 vd sb vo ord) = w := Option.some.inj h
  rw [decode, if_neg hw]
  simp only [decodeClass8, layoutM_c, layoutM_f, layoutM_d, layoutM_b, layoutM_o, layoutM_r, extract_all,
    BitVec.toNat_ofNat, Nat.reducePow, Nat.reduceMod, Nat.reduceSub, Nat.reduceLeDiff, Nat.reduceAdd]

theorem atomAddI32 (vd : BitVec 7) (sb : BitVec 6) (vo : BitVec 8) (ord : BitVec 2) : Statement (.atomAddI32 vd sb vo ord) := by
  intro w h hw
  obtain rfl : (layoutM 0x8#4 0xC#5 vd sb vo ord) = w := Option.some.inj h
  rw [decode, if_neg hw]
  simp only [decodeClass8, layoutM_c, layoutM_f, layoutM_d, layoutM_b, layoutM_o, layoutM_r, extract_all,
    BitVec.toNat_ofNat, Nat.reducePow, Nat.reduceMod, Nat.reduceSub, Nat.reduceLeDiff, Nat.reduceAdd]

theorem atomAddI64 (vd : BitVec 7) (sb : BitVec 6) (vo : BitVec 8) (ord : BitVec 2) : Statement (.atomAddI64 vd sb vo ord) := by
  intro w h hw
  obtain rfl : (layoutM 0x8#4 0xD#5 vd sb vo ord) = w := Option.some.inj h
  rw [decode, if_neg hw]
  simp only [decodeClass8, layoutM_c, layoutM_f, layoutM_d, layoutM_b, layoutM_o, layoutM_r, extract_all,
    BitVec.toNat_ofNat, Nat.reducePow, Nat.reduceMod, Nat.reduceSub, Nat.reduceLeDiff, Nat.reduceAdd]

theorem atomAddF32 (vd : BitVec 7) (sb : BitVec 6) (vo : BitVec 8) (ord : BitVec 2) : Statement (.atomAddF32 vd sb vo ord) := by
  intro w h hw
  obtain rfl : (layoutM 0x8#4 0xE#5 vd sb vo ord) = w := Option.some.inj h
  rw [decode, if_neg hw]
  simp only [decodeClass8, layoutM_c, layoutM_f, layoutM_d, layoutM_b, layoutM_o, layoutM_r, extract_all,
    BitVec.toNat_ofNat, Nat.reducePow, Nat.reduceMod, Nat.reduceSub, Nat.reduceLeDiff, Nat.reduceAdd]

theorem atomMinI32 (vd : BitVec 7) (sb : BitVec 6) (vo : BitVec 8) (ord : BitVec 2) : Statement (.atomMinI32 vd sb vo ord) := by
  intro w h hw
  obtain rfl : (layoutM 0x8#4 0xF#5 vd sb vo ord) = w := Option.some.inj h
  rw [decode, if_neg hw]
  simp only [decodeClass8, layoutM_c, layoutM_f, layoutM_d, layoutM_b, layoutM_o, layoutM_r, extract_all,
    BitVec.toNat_ofNat, Nat.reducePow, Nat.reduceMod, Nat.reduceSub, Nat.reduceLeDiff, Nat.reduceAdd]

theorem atomMaxI32 (vd : BitVec 7) (sb : BitVec 6) (vo : BitVec 8) (ord : BitVec 2) : Statement (.atomMaxI32 vd sb vo ord) := by
  intro w h hw
  obtain rfl : (layoutM 0x8#4 0x10#5 vd sb vo ord) = w := Option.some.inj h
  rw [decode, if_neg hw]
  simp only [decodeClass8, layoutM_c, layoutM_f, layoutM_d, layoutM_b, layoutM_o, layoutM_r, extract_all,
    BitVec.toNat_ofNat, Nat.reducePow, Nat.reduceMod, Nat.reduceSub, Nat.reduceLeDiff, Nat.reduceAdd]

theorem atomMinN32 (vd : BitVec 7) (sb : BitVec 6) (vo : BitVec 8) (ord : BitVec 2) : Statement (.atomMinN32 vd sb vo ord) := by
  intro w h hw
  obtain rfl : (layoutM 0x8#4 0x11#5 vd sb vo ord) = w := Option.some.inj h
  rw [decode, if_neg hw]
  simp only [decodeClass8, layoutM_c, layoutM_f, layoutM_d, layoutM_b, layoutM_o, layoutM_r, extract_all,
    BitVec.toNat_ofNat, Nat.reducePow, Nat.reduceMod, Nat.reduceSub, Nat.reduceLeDiff, Nat.reduceAdd]

theorem atomMaxN32 (vd : BitVec 7) (sb : BitVec 6) (vo : BitVec 8) (ord : BitVec 2) : Statement (.atomMaxN32 vd sb vo ord) := by
  intro w h hw
  obtain rfl : (layoutM 0x8#4 0x12#5 vd sb vo ord) = w := Option.some.inj h
  rw [decode, if_neg hw]
  simp only [decodeClass8, layoutM_c, layoutM_f, layoutM_d, layoutM_b, layoutM_o, layoutM_r, extract_all,
    BitVec.toNat_ofNat, Nat.reducePow, Nat.reduceMod, Nat.reduceSub, Nat.reduceLeDiff, Nat.reduceAdd]

theorem atomAndB32 (vd : BitVec 7) (sb : BitVec 6) (vo : BitVec 8) (ord : BitVec 2) : Statement (.atomAndB32 vd sb vo ord) := by
  intro w h hw
  obtain rfl : (layoutM 0x8#4 0x13#5 vd sb vo ord) = w := Option.some.inj h
  rw [decode, if_neg hw]
  simp only [decodeClass8, layoutM_c, layoutM_f, layoutM_d, layoutM_b, layoutM_o, layoutM_r, extract_all,
    BitVec.toNat_ofNat, Nat.reducePow, Nat.reduceMod, Nat.reduceSub, Nat.reduceLeDiff, Nat.reduceAdd]

theorem atomOrB32 (vd : BitVec 7) (sb : BitVec 6) (vo : BitVec 8) (ord : BitVec 2) : Statement (.atomOrB32 vd sb vo ord) := by
  intro w h hw
  obtain rfl : (layoutM 0x8#4 0x14#5 vd sb vo ord) = w := Option.some.inj h
  rw [decode, if_neg hw]
  simp only [decodeClass8, layoutM_c, layoutM_f, layoutM_d, layoutM_b, layoutM_o, layoutM_r, extract_all,
    BitVec.toNat_ofNat, Nat.reducePow, Nat.reduceMod, Nat.reduceSub, Nat.reduceLeDiff, Nat.reduceAdd]

theorem atomXorB32 (vd : BitVec 7) (sb : BitVec 6) (vo : BitVec 8) (ord : BitVec 2) : Statement (.atomXorB32 vd sb vo ord) := by
  intro w h hw
  obtain rfl : (layoutM 0x8#4 0x15#5 vd sb vo ord) = w := Option.some.inj h
  rw [decode, if_neg hw]
  simp only [decodeClass8, layoutM_c, layoutM_f, layoutM_d, layoutM_b, layoutM_o, layoutM_r, extract_all,
    BitVec.toNat_ofNat, Nat.reducePow, Nat.reduceMod, Nat.reduceSub, Nat.reduceLeDiff, Nat.reduceAdd]

theorem atomExchB32 (vd : BitVec 7) (sb : BitVec 6) (vo : BitVec 8) (ord : BitVec 2) : Statement (.atomExchB32 vd sb vo ord) := by
  intro w h hw
  obtain rfl : (layoutM 0x8#4 0x16#5 vd sb vo ord) = w := Option.some.inj h
  rw [decode, if_neg hw]
  simp only [decodeClass8, layoutM_c, layoutM_f, layoutM_d, layoutM_b, layoutM_o, layoutM_r, extract_all,
    BitVec.toNat_ofNat, Nat.reducePow, Nat.reduceMod, Nat.reduceSub, Nat.reduceLeDiff, Nat.reduceAdd]

theorem atomExchB64 (vd : BitVec 7) (sb : BitVec 6) (vo : BitVec 8) (ord : BitVec 2) : Statement (.atomExchB64 vd sb vo ord) := by
  intro w h hw
  obtain rfl : (layoutM 0x8#4 0x17#5 vd sb vo ord) = w := Option.some.inj h
  rw [decode, if_neg hw]
  simp only [decodeClass8, layoutM_c, layoutM_f, layoutM_d, layoutM_b, layoutM_o, layoutM_r, extract_all,
    BitVec.toNat_ofNat, Nat.reducePow, Nat.reduceMod, Nat.reduceSub, Nat.reduceLeDiff, Nat.reduceAdd]

theorem atomCasB32 (vd : BitVec 7) (sb : BitVec 6) (vo : BitVec 8) (ord : BitVec 2) : Statement (.atomCasB32 vd sb vo ord) := by
  intro w h hw
  obtain rfl : (layoutM 0x8#4 0x18#5 vd sb vo ord) = w := Option.some.inj h
  rw [decode, if_neg hw]
  simp only [decodeClass8, layoutM_c, layoutM_f, layoutM_d, layoutM_b, layoutM_o, layoutM_r, extract_all,
    BitVec.toNat_ofNat, Nat.reducePow, Nat.reduceMod, Nat.reduceSub, Nat.reduceLeDiff, Nat.reduceAdd]

theorem atomCasB64 (vd : BitVec 7) (sb : BitVec 6) (vo : BitVec 8) (ord : BitVec 2) : Statement (.atomCasB64 vd sb vo ord) := by
  intro w h hw
  obtain rfl : (layoutM 0x8#4 0x19#5 vd sb vo ord) = w := Option.some.inj h
  rw [decode, if_neg hw]
  simp only [decodeClass8, layoutM_c, layoutM_f, layoutM_d, layoutM_b, layoutM_o, layoutM_r, extract_all,
    BitVec.toNat_ofNat, Nat.reducePow, Nat.reduceMod, Nat.reduceSub, Nat.reduceLeDiff, Nat.reduceAdd]

theorem cstB32 (vd : BitVec 7) (sb : BitVec 6) (vo : BitVec 8) (ord : BitVec 2) : Statement (.cstB32 vd sb vo ord) := by
  intro w h hw
  obtain rfl : (layoutM 0x8#4 0x1A#5 vd sb vo ord) = w := Option.some.inj h
  rw [decode, if_neg hw]
  simp only [decodeClass8, layoutM_c, layoutM_f, layoutM_d, layoutM_b, layoutM_o, layoutM_r, extract_all,
    BitVec.toNat_ofNat, Nat.reducePow, Nat.reduceMod, Nat.reduceSub, Nat.reduceLeDiff, Nat.reduceAdd]

theorem ldS64 (vd : BitVec 6) (sb : BitVec 6) (vo : BitVec 8) (ord : BitVec 2) : Statement (.ldS64 vd sb vo ord) := by
  intro w h hw
  obtain rfl : (layoutM 0x8#4 0x1B#5 (0#1 ++ vd) sb vo ord) = w := Option.some.inj h
  rw [decode, if_neg hw]
  simp only [decodeClass8, unusedZero, layoutM_c, layoutM_f, layoutM_d, layoutM_b, layoutM_o, layoutM_r, pair16_high,
    pair16_low, extract_all, BitVec.toNat_ofNat, Nat.reducePow, Nat.reduceMod, Nat.reduceSub, Nat.reduceLeDiff,
    Nat.reduceAdd, beq_self_eq_true, if_true]

theorem stS64 (vd : BitVec 6) (sb : BitVec 6) (vo : BitVec 8) (ord : BitVec 2) : Statement (.stS64 vd sb vo ord) := by
  intro w h hw
  obtain rfl : (layoutM 0x8#4 0x1C#5 (0#1 ++ vd) sb vo ord) = w := Option.some.inj h
  rw [decode, if_neg hw]
  simp only [decodeClass8, unusedZero, layoutM_c, layoutM_f, layoutM_d, layoutM_b, layoutM_o, layoutM_r, pair16_high,
    pair16_low, extract_all, BitVec.toNat_ofNat, Nat.reducePow, Nat.reduceMod, Nat.reduceSub, Nat.reduceLeDiff,
    Nat.reduceAdd, beq_self_eq_true, if_true]

theorem prf (sb : BitVec 6) (vo : BitVec 8) (ord : BitVec 2) : Statement (.prf sb vo ord) := by
  intro w h hw
  obtain rfl : (layoutM 0x8#4 0x1D#5 0#7 sb vo ord) = w := Option.some.inj h
  rw [decode, if_neg hw]
  simp only [decodeClass8, unusedZero, layoutM_c, layoutM_f, layoutM_d, layoutM_b, layoutM_o, layoutM_r, extract_all,
    BitVec.toNat_ofNat, Nat.reducePow, Nat.reduceMod, Nat.reduceSub, Nat.reduceLeDiff, Nat.reduceAdd,
    beq_self_eq_true, if_true]

theorem ldsB32 (vd : BitVec 7) (sb : BitVec 6) (vo : BitVec 8) (ord : BitVec 2) : Statement (.ldsB32 vd sb vo ord) := by
  intro w h hw
  obtain rfl : (layoutM 0x9#4 0x0#5 vd sb vo ord) = w := Option.some.inj h
  rw [decode, if_neg hw]
  simp only [decodeClass9, layoutM_c, layoutM_f, layoutM_d, layoutM_b, layoutM_o, layoutM_r, extract_all,
    BitVec.toNat_ofNat, Nat.reducePow, Nat.reduceMod, Nat.reduceSub, Nat.reduceLeDiff, Nat.reduceAdd]

theorem ldsB64 (vd : BitVec 7) (sb : BitVec 6) (vo : BitVec 8) (ord : BitVec 2) : Statement (.ldsB64 vd sb vo ord) := by
  intro w h hw
  obtain rfl : (layoutM 0x9#4 0x1#5 vd sb vo ord) = w := Option.some.inj h
  rw [decode, if_neg hw]
  simp only [decodeClass9, layoutM_c, layoutM_f, layoutM_d, layoutM_b, layoutM_o, layoutM_r, extract_all,
    BitVec.toNat_ofNat, Nat.reducePow, Nat.reduceMod, Nat.reduceSub, Nat.reduceLeDiff, Nat.reduceAdd]

theorem ldsB128 (vd : BitVec 7) (sb : BitVec 6) (vo : BitVec 8) (ord : BitVec 2) : Statement (.ldsB128 vd sb vo ord) := by
  intro w h hw
  obtain rfl : (layoutM 0x9#4 0x2#5 vd sb vo ord) = w := Option.some.inj h
  rw [decode, if_neg hw]
  simp only [decodeClass9, layoutM_c, layoutM_f, layoutM_d, layoutM_b, layoutM_o, layoutM_r, extract_all,
    BitVec.toNat_ofNat, Nat.reducePow, Nat.reduceMod, Nat.reduceSub, Nat.reduceLeDiff, Nat.reduceAdd]

theorem stsB32 (vd : BitVec 7) (sb : BitVec 6) (vo : BitVec 8) (ord : BitVec 2) : Statement (.stsB32 vd sb vo ord) := by
  intro w h hw
  obtain rfl : (layoutM 0x9#4 0x3#5 vd sb vo ord) = w := Option.some.inj h
  rw [decode, if_neg hw]
  simp only [decodeClass9, layoutM_c, layoutM_f, layoutM_d, layoutM_b, layoutM_o, layoutM_r, extract_all,
    BitVec.toNat_ofNat, Nat.reducePow, Nat.reduceMod, Nat.reduceSub, Nat.reduceLeDiff, Nat.reduceAdd]

theorem stsB64 (vd : BitVec 7) (sb : BitVec 6) (vo : BitVec 8) (ord : BitVec 2) : Statement (.stsB64 vd sb vo ord) := by
  intro w h hw
  obtain rfl : (layoutM 0x9#4 0x4#5 vd sb vo ord) = w := Option.some.inj h
  rw [decode, if_neg hw]
  simp only [decodeClass9, layoutM_c, layoutM_f, layoutM_d, layoutM_b, layoutM_o, layoutM_r, extract_all,
    BitVec.toNat_ofNat, Nat.reducePow, Nat.reduceMod, Nat.reduceSub, Nat.reduceLeDiff, Nat.reduceAdd]

theorem stsB128 (vd : BitVec 7) (sb : BitVec 6) (vo : BitVec 8) (ord : BitVec 2) : Statement (.stsB128 vd sb vo ord) := by
  intro w h hw
  obtain rfl : (layoutM 0x9#4 0x5#5 vd sb vo ord) = w := Option.some.inj h
  rw [decode, if_neg hw]
  simp only [decodeClass9, layoutM_c, layoutM_f, layoutM_d, layoutM_b, layoutM_o, layoutM_r, extract_all,
    BitVec.toNat_ofNat, Nat.reducePow, Nat.reduceMod, Nat.reduceSub, Nat.reduceLeDiff, Nat.reduceAdd]

theorem ldsB8 (vd : BitVec 7) (sb : BitVec 6) (vo : BitVec 8) (ord : BitVec 2) : Statement (.ldsB8 vd sb vo ord) := by
  intro w h hw
  obtain rfl : (layoutM 0x9#4 0x6#5 vd sb vo ord) = w := Option.some.inj h
  rw [decode, if_neg hw]
  simp only [decodeClass9, layoutM_c, layoutM_f, layoutM_d, layoutM_b, layoutM_o, layoutM_r, extract_all,
    BitVec.toNat_ofNat, Nat.reducePow, Nat.reduceMod, Nat.reduceSub, Nat.reduceLeDiff, Nat.reduceAdd]

theorem stsB8 (vd : BitVec 7) (sb : BitVec 6) (vo : BitVec 8) (ord : BitVec 2) : Statement (.stsB8 vd sb vo ord) := by
  intro w h hw
  obtain rfl : (layoutM 0x9#4 0x7#5 vd sb vo ord) = w := Option.some.inj h
  rw [decode, if_neg hw]
  simp only [decodeClass9, layoutM_c, layoutM_f, layoutM_d, layoutM_b, layoutM_o, layoutM_r, extract_all,
    BitVec.toNat_ofNat, Nat.reducePow, Nat.reduceMod, Nat.reduceSub, Nat.reduceLeDiff, Nat.reduceAdd]

theorem ldsB16 (vd : BitVec 7) (sb : BitVec 6) (vo : BitVec 8) (ord : BitVec 2) : Statement (.ldsB16 vd sb vo ord) := by
  intro w h hw
  obtain rfl : (layoutM 0x9#4 0x8#5 vd sb vo ord) = w := Option.some.inj h
  rw [decode, if_neg hw]
  simp only [decodeClass9, layoutM_c, layoutM_f, layoutM_d, layoutM_b, layoutM_o, layoutM_r, extract_all,
    BitVec.toNat_ofNat, Nat.reducePow, Nat.reduceMod, Nat.reduceSub, Nat.reduceLeDiff, Nat.reduceAdd]

theorem stsB16 (vd : BitVec 7) (sb : BitVec 6) (vo : BitVec 8) (ord : BitVec 2) : Statement (.stsB16 vd sb vo ord) := by
  intro w h hw
  obtain rfl : (layoutM 0x9#4 0x9#5 vd sb vo ord) = w := Option.some.inj h
  rw [decode, if_neg hw]
  simp only [decodeClass9, layoutM_c, layoutM_f, layoutM_d, layoutM_b, layoutM_o, layoutM_r, extract_all,
    BitVec.toNat_ofNat, Nat.reducePow, Nat.reduceMod, Nat.reduceSub, Nat.reduceLeDiff, Nat.reduceAdd]

theorem ldnB32 (vd : BitVec 7) (sb : BitVec 6) (vo : BitVec 8) (ord : BitVec 2) : Statement (.ldnB32 vd sb vo ord) := by
  intro w h hw
  obtain rfl : (layoutM 0x9#4 0xA#5 vd sb vo ord) = w := Option.some.inj h
  rw [decode, if_neg hw]
  simp only [decodeClass9, layoutM_c, layoutM_f, layoutM_d, layoutM_b, layoutM_o, layoutM_r, extract_all,
    BitVec.toNat_ofNat, Nat.reducePow, Nat.reduceMod, Nat.reduceSub, Nat.reduceLeDiff, Nat.reduceAdd]

theorem stnB32 (vd : BitVec 7) (sb : BitVec 6) (vo : BitVec 8) (ord : BitVec 2) : Statement (.stnB32 vd sb vo ord) := by
  intro w h hw
  obtain rfl : (layoutM 0x9#4 0xB#5 vd sb vo ord) = w := Option.some.inj h
  rw [decode, if_neg hw]
  simp only [decodeClass9, layoutM_c, layoutM_f, layoutM_d, layoutM_b, layoutM_o, layoutM_r, extract_all,
    BitVec.toNat_ofNat, Nat.reducePow, Nat.reduceMod, Nat.reduceSub, Nat.reduceLeDiff, Nat.reduceAdd]

theorem atomsAddI32 (vd : BitVec 7) (sb : BitVec 6) (vo : BitVec 8) (ord : BitVec 2) : Statement (.atomsAddI32 vd sb vo ord) := by
  intro w h hw
  obtain rfl : (layoutM 0x9#4 0xC#5 vd sb vo ord) = w := Option.some.inj h
  rw [decode, if_neg hw]
  simp only [decodeClass9, layoutM_c, layoutM_f, layoutM_d, layoutM_b, layoutM_o, layoutM_r, extract_all,
    BitVec.toNat_ofNat, Nat.reducePow, Nat.reduceMod, Nat.reduceSub, Nat.reduceLeDiff, Nat.reduceAdd]

theorem atomsMinI32 (vd : BitVec 7) (sb : BitVec 6) (vo : BitVec 8) (ord : BitVec 2) : Statement (.atomsMinI32 vd sb vo ord) := by
  intro w h hw
  obtain rfl : (layoutM 0x9#4 0xD#5 vd sb vo ord) = w := Option.some.inj h
  rw [decode, if_neg hw]
  simp only [decodeClass9, layoutM_c, layoutM_f, layoutM_d, layoutM_b, layoutM_o, layoutM_r, extract_all,
    BitVec.toNat_ofNat, Nat.reducePow, Nat.reduceMod, Nat.reduceSub, Nat.reduceLeDiff, Nat.reduceAdd]

theorem atomsMaxI32 (vd : BitVec 7) (sb : BitVec 6) (vo : BitVec 8) (ord : BitVec 2) : Statement (.atomsMaxI32 vd sb vo ord) := by
  intro w h hw
  obtain rfl : (layoutM 0x9#4 0xE#5 vd sb vo ord) = w := Option.some.inj h
  rw [decode, if_neg hw]
  simp only [decodeClass9, layoutM_c, layoutM_f, layoutM_d, layoutM_b, layoutM_o, layoutM_r, extract_all,
    BitVec.toNat_ofNat, Nat.reducePow, Nat.reduceMod, Nat.reduceSub, Nat.reduceLeDiff, Nat.reduceAdd]

theorem atomsExchB32 (vd : BitVec 7) (sb : BitVec 6) (vo : BitVec 8) (ord : BitVec 2) : Statement (.atomsExchB32 vd sb vo ord) := by
  intro w h hw
  obtain rfl : (layoutM 0x9#4 0xF#5 vd sb vo ord) = w := Option.some.inj h
  rw [decode, if_neg hw]
  simp only [decodeClass9, layoutM_c, layoutM_f, layoutM_d, layoutM_b, layoutM_o, layoutM_r, extract_all,
    BitVec.toNat_ofNat, Nat.reducePow, Nat.reduceMod, Nat.reduceSub, Nat.reduceLeDiff, Nat.reduceAdd]

theorem atomsCasB32 (vd : BitVec 7) (sb : BitVec 6) (vo : BitVec 8) (ord : BitVec 2) : Statement (.atomsCasB32 vd sb vo ord) := by
  intro w h hw
  obtain rfl : (layoutM 0x9#4 0x10#5 vd sb vo ord) = w := Option.some.inj h
  rw [decode, if_neg hw]
  simp only [decodeClass9, layoutM_c, layoutM_f, layoutM_d, layoutM_b, layoutM_o, layoutM_r, extract_all,
    BitVec.toNat_ofNat, Nat.reducePow, Nat.reduceMod, Nat.reduceSub, Nat.reduceLeDiff, Nat.reduceAdd]

theorem atomnAddI32 (vd : BitVec 7) (sb : BitVec 6) (vo : BitVec 8) (ord : BitVec 2) : Statement (.atomnAddI32 vd sb vo ord) := by
  intro w h hw
  obtain rfl : (layoutM 0x9#4 0x11#5 vd sb vo ord) = w := Option.some.inj h
  rw [decode, if_neg hw]
  simp only [decodeClass9, layoutM_c, layoutM_f, layoutM_d, layoutM_b, layoutM_o, layoutM_r, extract_all,
    BitVec.toNat_ofNat, Nat.reducePow, Nat.reduceMod, Nat.reduceSub, Nat.reduceLeDiff, Nat.reduceAdd]

theorem ldsS64 (vd : BitVec 6) (sb : BitVec 6) (vo : BitVec 8) (ord : BitVec 2) : Statement (.ldsS64 vd sb vo ord) := by
  intro w h hw
  obtain rfl : (layoutM 0x9#4 0x12#5 (0#1 ++ vd) sb vo ord) = w := Option.some.inj h
  rw [decode, if_neg hw]
  simp only [decodeClass9, unusedZero, layoutM_c, layoutM_f, layoutM_d, layoutM_b, layoutM_o, layoutM_r, pair16_high,
    pair16_low, extract_all, BitVec.toNat_ofNat, Nat.reducePow, Nat.reduceMod, Nat.reduceSub, Nat.reduceLeDiff,
    Nat.reduceAdd, beq_self_eq_true, if_true]

theorem stsS64 (vd : BitVec 6) (sb : BitVec 6) (vo : BitVec 8) (ord : BitVec 2) : Statement (.stsS64 vd sb vo ord) := by
  intro w h hw
  obtain rfl : (layoutM 0x9#4 0x13#5 (0#1 ++ vd) sb vo ord) = w := Option.some.inj h
  rw [decode, if_neg hw]
  simp only [decodeClass9, unusedZero, layoutM_c, layoutM_f, layoutM_d, layoutM_b, layoutM_o, layoutM_r, pair16_high,
    pair16_low, extract_all, BitVec.toNat_ofNat, Nat.reducePow, Nat.reduceMod, Nat.reduceSub, Nat.reduceLeDiff,
    Nat.reduceAdd, beq_self_eq_true, if_true]

theorem cpy (x : BitVec 6) : Statement (.cpy x) := by
  intro w h hw
  obtain rfl : (layoutA 0xA#4 0x0#6 x 0#6 0#6 0#4) = w := Option.some.inj h
  rw [decode, if_neg hw]
  simp only [decodeClassA, unusedZero, layoutA_c, layoutA_f, layoutA_x, layoutA_unused16, extract_all,
    BitVec.toNat_ofNat, Nat.reducePow, Nat.reduceMod, Nat.reduceSub, Nat.reduceLeDiff, Nat.reduceAdd,
    beq_self_eq_true, if_true]

theorem cpyl (x : BitVec 6) : Statement (.cpyl x) := by
  intro w h hw
  obtain rfl : (layoutA 0xA#4 0x1#6 x 0#6 0#6 0#4) = w := Option.some.inj h
  rw [decode, if_neg hw]
  simp only [decodeClassA, unusedZero, layoutA_c, layoutA_f, layoutA_x, layoutA_unused16, extract_all,
    BitVec.toNat_ofNat, Nat.reducePow, Nat.reduceMod, Nat.reduceSub, Nat.reduceLeDiff, Nat.reduceAdd,
    beq_self_eq_true, if_true]

theorem close (x : BitVec 6) (c : BitVec 4) : Statement (.close x c) := by
  intro w h hw
  obtain rfl : (layoutA 0xA#4 0x2#6 x 0#6 0#6 c) = w := Option.some.inj h
  rw [decode, if_neg hw]
  simp only [decodeClassA, unusedZero, layoutA_c, layoutA_f, layoutA_x, layoutA_u, layoutA_unused12, extract_all,
    BitVec.toNat_ofNat, Nat.reducePow, Nat.reduceMod, Nat.reduceSub, Nat.reduceLeDiff, Nat.reduceAdd,
    beq_self_eq_true, if_true]

theorem waitb (x : BitVec 6) (c : BitVec 4) : Statement (.waitb x c) := by
  intro w h hw
  obtain rfl : (layoutA 0xA#4 0x3#6 x 0#6 0#6 c) = w := Option.some.inj h
  rw [decode, if_neg hw]
  simp only [decodeClassA, unusedZero, layoutA_c, layoutA_f, layoutA_x, layoutA_u, layoutA_unused12, extract_all,
    BitVec.toNat_ofNat, Nat.reducePow, Nat.reduceMod, Nat.reduceSub, Nat.reduceLeDiff, Nat.reduceAdd,
    beq_self_eq_true, if_true]

theorem boinit (x : BitVec 6) (y : BitVec 6) : Statement (.boinit x y) := by
  intro w h hw
  obtain rfl : (layoutA 0xA#4 0x4#6 x y 0#6 0#4) = w := Option.some.inj h
  rw [decode, if_neg hw]
  simp only [decodeClassA, unusedZero, layoutA_c, layoutA_f, layoutA_x, layoutA_y, layoutA_unused10, extract_all,
    BitVec.toNat_ofNat, Nat.reducePow, Nat.reduceMod, Nat.reduceSub, Nat.reduceLeDiff, Nat.reduceAdd,
    beq_self_eq_true, if_true]

theorem boexp (x : BitVec 6) (y : BitVec 6) : Statement (.boexp x y) := by
  intro w h hw
  obtain rfl : (layoutA 0xA#4 0x5#6 x y 0#6 0#4) = w := Option.some.inj h
  rw [decode, if_neg hw]
  simp only [decodeClassA, unusedZero, layoutA_c, layoutA_f, layoutA_x, layoutA_y, layoutA_unused10, extract_all,
    BitVec.toNat_ofNat, Nat.reducePow, Nat.reduceMod, Nat.reduceSub, Nat.reduceLeDiff, Nat.reduceAdd,
    beq_self_eq_true, if_true]

theorem boarr (x : BitVec 6) : Statement (.boarr x) := by
  intro w h hw
  obtain rfl : (layoutA 0xA#4 0x6#6 x 0#6 0#6 0#4) = w := Option.some.inj h
  rw [decode, if_neg hw]
  simp only [decodeClassA, unusedZero, layoutA_c, layoutA_f, layoutA_x, layoutA_unused16, extract_all,
    BitVec.toNat_ofNat, Nat.reducePow, Nat.reduceMod, Nat.reduceSub, Nat.reduceLeDiff, Nat.reduceAdd,
    beq_self_eq_true, if_true]

theorem bowait (x : BitVec 6) (y : BitVec 6) : Statement (.bowait x y) := by
  intro w h hw
  obtain rfl : (layoutA 0xA#4 0x7#6 x y 0#6 0#4) = w := Option.some.inj h
  rw [decode, if_neg hw]
  simp only [decodeClassA, unusedZero, layoutA_c, layoutA_f, layoutA_x, layoutA_y, layoutA_unused10, extract_all,
    BitVec.toNat_ofNat, Nat.reducePow, Nat.reduceMod, Nat.reduceSub, Nat.reduceLeDiff, Nat.reduceAdd,
    beq_self_eq_true, if_true]

theorem discard (x : BitVec 6) (y : BitVec 6) : Statement (.discard x y) := by
  intro w h hw
  obtain rfl : (layoutA 0xA#4 0x8#6 x y 0#6 0#4) = w := Option.some.inj h
  rw [decode, if_neg hw]
  simp only [decodeClassA, unusedZero, layoutA_c, layoutA_f, layoutA_x, layoutA_y, layoutA_unused10, extract_all,
    BitVec.toNat_ofNat, Nat.reducePow, Nat.reduceMod, Nat.reduceSub, Nat.reduceLeDiff, Nat.reduceAdd,
    beq_self_eq_true, if_true]

theorem flushr (x : BitVec 6) (y : BitVec 6) : Statement (.flushr x y) := by
  intro w h hw
  obtain rfl : (layoutA 0xA#4 0x9#6 x y 0#6 0#4) = w := Option.some.inj h
  rw [decode, if_neg hw]
  simp only [decodeClassA, unusedZero, layoutA_c, layoutA_f, layoutA_x, layoutA_y, layoutA_unused10, extract_all,
    BitVec.toNat_ofNat, Nat.reducePow, Nat.reduceMod, Nat.reduceSub, Nat.reduceLeDiff, Nat.reduceAdd,
    beq_self_eq_true, if_true]

theorem coll (x : BitVec 6) : Statement (.coll x) := by
  intro w h hw
  obtain rfl : (layoutA 0xA#4 0xA#6 x 0#6 0#6 0#4) = w := Option.some.inj h
  rw [decode, if_neg hw]
  simp only [decodeClassA, unusedZero, layoutA_c, layoutA_f, layoutA_x, layoutA_unused16, extract_all,
    BitVec.toNat_ofNat, Nat.reducePow, Nat.reduceMod, Nat.reduceSub, Nat.reduceLeDiff, Nat.reduceAdd,
    beq_self_eq_true, if_true]

theorem lattach (x : BitVec 6) (y : BitVec 6) (z : BitVec 6) : Statement (.lattach x y z) := by
  intro w h hw
  obtain rfl : (layoutA 0xA#4 0xB#6 x y z 0#4) = w := Option.some.inj h
  rw [decode, if_neg hw]
  simp only [decodeClassA, unusedZero, layoutA_c, layoutA_f, layoutA_x, layoutA_y, layoutA_z, layoutA_u, extract_all,
    BitVec.toNat_ofNat, Nat.reducePow, Nat.reduceMod, Nat.reduceSub, Nat.reduceLeDiff, Nat.reduceAdd,
    beq_self_eq_true, if_true]

theorem ldetach (x : BitVec 6) (y : BitVec 6) (z : BitVec 6) : Statement (.ldetach x y z) := by
  intro w h hw
  obtain rfl : (layoutA 0xA#4 0xC#6 x y z 0#4) = w := Option.some.inj h
  rw [decode, if_neg hw]
  simp only [decodeClassA, unusedZero, layoutA_c, layoutA_f, layoutA_x, layoutA_y, layoutA_z, layoutA_u, extract_all,
    BitVec.toNat_ofNat, Nat.reducePow, Nat.reduceMod, Nat.reduceSub, Nat.reduceLeDiff, Nat.reduceAdd,
    beq_self_eq_true, if_true]

theorem fold (x : BitVec 6) (y : BitVec 6) : Statement (.fold x y) := by
  intro w h hw
  obtain rfl : (layoutA 0xA#4 0xD#6 x y 0#6 0#4) = w := Option.some.inj h
  rw [decode, if_neg hw]
  simp only [decodeClassA, unusedZero, layoutA_c, layoutA_f, layoutA_x, layoutA_y, layoutA_unused10, extract_all,
    BitVec.toNat_ofNat, Nat.reducePow, Nat.reduceMod, Nat.reduceSub, Nat.reduceLeDiff, Nat.reduceAdd,
    beq_self_eq_true, if_true]

theorem barSync (c : BitVec 6) (i : BitVec 4) : Statement (.barSync c i) := by
  intro w h hw
  obtain rfl : (layoutA 0xB#4 0x0#6 c 0#6 0#6 i) = w := Option.some.inj h
  rw [decode, if_neg hw]
  simp only [decodeClassB, unusedZero, layoutA_c, layoutA_f, layoutA_x, layoutA_u, layoutA_unused12, extract_all,
    BitVec.toNat_ofNat, Nat.reducePow, Nat.reduceMod, Nat.reduceSub, Nat.reduceLeDiff, Nat.reduceAdd,
    beq_self_eq_true, if_true]

theorem barArr (c : BitVec 6) (i : BitVec 4) : Statement (.barArr c i) := by
  intro w h hw
  obtain rfl : (layoutA 0xB#4 0x1#6 c 0#6 0#6 i) = w := Option.some.inj h
  rw [decode, if_neg hw]
  simp only [decodeClassB, unusedZero, layoutA_c, layoutA_f, layoutA_x, layoutA_u, layoutA_unused12, extract_all,
    BitVec.toNat_ofNat, Nat.reducePow, Nat.reduceMod, Nat.reduceSub, Nat.reduceLeDiff, Nat.reduceAdd,
    beq_self_eq_true, if_true]

theorem barRedAddI32 (c : BitVec 6) (y : BitVec 6) (z : BitVec 6) (i : BitVec 4) : Statement (.barRedAddI32 c y z i) := by
  intro w h hw
  obtain rfl : (layoutA 0xB#4 0x2#6 c y z i) = w := Option.some.inj h
  rw [decode, if_neg hw]
  simp only [decodeClassB, layoutA_c, layoutA_f, layoutA_x, layoutA_y, layoutA_z, layoutA_u, extract_all,
    BitVec.toNat_ofNat, Nat.reducePow, Nat.reduceMod, Nat.reduceSub, Nat.reduceLeDiff, Nat.reduceAdd]

theorem barRedAddF32 (c : BitVec 6) (y : BitVec 6) (z : BitVec 6) (i : BitVec 4) : Statement (.barRedAddF32 c y z i) := by
  intro w h hw
  obtain rfl : (layoutA 0xB#4 0x3#6 c y z i) = w := Option.some.inj h
  rw [decode, if_neg hw]
  simp only [decodeClassB, layoutA_c, layoutA_f, layoutA_x, layoutA_y, layoutA_z, layoutA_u, extract_all,
    BitVec.toNat_ofNat, Nat.reducePow, Nat.reduceMod, Nat.reduceSub, Nat.reduceLeDiff, Nat.reduceAdd]

theorem barRedMaxI32 (c : BitVec 6) (y : BitVec 6) (z : BitVec 6) (i : BitVec 4) : Statement (.barRedMaxI32 c y z i) := by
  intro w h hw
  obtain rfl : (layoutA 0xB#4 0x4#6 c y z i) = w := Option.some.inj h
  rw [decode, if_neg hw]
  simp only [decodeClassB, layoutA_c, layoutA_f, layoutA_x, layoutA_y, layoutA_z, layoutA_u, extract_all,
    BitVec.toNat_ofNat, Nat.reducePow, Nat.reduceMod, Nat.reduceSub, Nat.reduceLeDiff, Nat.reduceAdd]

theorem barRedMinI32 (c : BitVec 6) (y : BitVec 6) (z : BitVec 6) (i : BitVec 4) : Statement (.barRedMinI32 c y z i) := by
  intro w h hw
  obtain rfl : (layoutA 0xB#4 0x5#6 c y z i) = w := Option.some.inj h
  rw [decode, if_neg hw]
  simp only [decodeClassB, layoutA_c, layoutA_f, layoutA_x, layoutA_y, layoutA_z, layoutA_u, extract_all,
    BitVec.toNat_ofNat, Nat.reducePow, Nat.reduceMod, Nat.reduceSub, Nat.reduceLeDiff, Nat.reduceAdd]

theorem barRedAnd (c : BitVec 6) (y : BitVec 6) (z : BitVec 6) (i : BitVec 4) : Statement (.barRedAnd c y z i) := by
  intro w h hw
  obtain rfl : (layoutA 0xB#4 0x6#6 c y z i) = w := Option.some.inj h
  rw [decode, if_neg hw]
  simp only [decodeClassB, layoutA_c, layoutA_f, layoutA_x, layoutA_y, layoutA_z, layoutA_u, extract_all,
    BitVec.toNat_ofNat, Nat.reducePow, Nat.reduceMod, Nat.reduceSub, Nat.reduceLeDiff, Nat.reduceAdd]

theorem barRedOr (c : BitVec 6) (y : BitVec 6) (z : BitVec 6) (i : BitVec 4) : Statement (.barRedOr c y z i) := by
  intro w h hw
  obtain rfl : (layoutA 0xB#4 0x7#6 c y z i) = w := Option.some.inj h
  rw [decode, if_neg hw]
  simp only [decodeClassB, layoutA_c, layoutA_f, layoutA_x, layoutA_y, layoutA_z, layoutA_u, extract_all,
    BitVec.toNat_ofNat, Nat.reducePow, Nat.reduceMod, Nat.reduceSub, Nat.reduceLeDiff, Nat.reduceAdd]

theorem fence (s : BitVec 4) : Statement (.fence s) := by
  intro w h hw
  obtain rfl : (layoutA 0xB#4 0x8#6 0#6 0#6 0#6 s) = w := Option.some.inj h
  rw [decode, if_neg hw]
  simp only [decodeClassB, unusedZero, layoutA_c, layoutA_f, layoutA_u, layoutA_unused18, extract_all,
    BitVec.toNat_ofNat, Nat.reducePow, Nat.reduceMod, Nat.reduceSub, Nat.reduceLeDiff, Nat.reduceAdd,
    beq_self_eq_true, if_true]

theorem msend (x : BitVec 6) (y : BitVec 6) (z : BitVec 6) : Statement (.msend x y z) := by
  intro w h hw
  obtain rfl : (layoutA 0xB#4 0x9#6 x y z 0#4) = w := Option.some.inj h
  rw [decode, if_neg hw]
  simp only [decodeClassB, unusedZero, layoutA_c, layoutA_f, layoutA_x, layoutA_y, layoutA_z, layoutA_u, extract_all,
    BitVec.toNat_ofNat, Nat.reducePow, Nat.reduceMod, Nat.reduceSub, Nat.reduceLeDiff, Nat.reduceAdd,
    beq_self_eq_true, if_true]

theorem wring (x : BitVec 6) (y : BitVec 6) (z : BitVec 6) : Statement (.wring x y z) := by
  intro w h hw
  obtain rfl : (layoutA 0xB#4 0xA#6 x y z 0#4) = w := Option.some.inj h
  rw [decode, if_neg hw]
  simp only [decodeClassB, unusedZero, layoutA_c, layoutA_f, layoutA_x, layoutA_y, layoutA_z, layoutA_u, extract_all,
    BitVec.toNat_ofNat, Nat.reducePow, Nat.reduceMod, Nat.reduceSub, Nat.reduceLeDiff, Nat.reduceAdd,
    beq_self_eq_true, if_true]

theorem tktTake (j : BitVec 4) : Statement (.tktTake j) := by
  intro w h hw
  obtain rfl : (layoutA 0xB#4 0xB#6 0#6 0#6 0#6 j) = w := Option.some.inj h
  rw [decode, if_neg hw]
  simp only [decodeClassB, unusedZero, layoutA_c, layoutA_f, layoutA_u, layoutA_unused18, extract_all,
    BitVec.toNat_ofNat, Nat.reducePow, Nat.reduceMod, Nat.reduceSub, Nat.reduceLeDiff, Nat.reduceAdd,
    beq_self_eq_true, if_true]

theorem tktSkip (j : BitVec 4) : Statement (.tktSkip j) := by
  intro w h hw
  obtain rfl : (layoutA 0xB#4 0xC#6 0#6 0#6 0#6 j) = w := Option.some.inj h
  rw [decode, if_neg hw]
  simp only [decodeClassB, unusedZero, layoutA_c, layoutA_f, layoutA_u, layoutA_unused18, extract_all,
    BitVec.toNat_ofNat, Nat.reducePow, Nat.reduceMod, Nat.reduceSub, Nat.reduceLeDiff, Nat.reduceAdd,
    beq_self_eq_true, if_true]

theorem atomoAddF32 (x : BitVec 6) (y : BitVec 6) (z : BitVec 6) : Statement (.atomoAddF32 x y z) := by
  intro w h hw
  obtain rfl : (layoutA 0xB#4 0xD#6 x y z 0#4) = w := Option.some.inj h
  rw [decode, if_neg hw]
  simp only [decodeClassB, unusedZero, layoutA_c, layoutA_f, layoutA_x, layoutA_y, layoutA_z, layoutA_u, extract_all,
    BitVec.toNat_ofNat, Nat.reducePow, Nat.reduceMod, Nat.reduceSub, Nat.reduceLeDiff, Nat.reduceAdd,
    beq_self_eq_true, if_true]

theorem atomoAddI64 (x : BitVec 6) (y : BitVec 6) (z : BitVec 6) : Statement (.atomoAddI64 x y z) := by
  intro w h hw
  obtain rfl : (layoutA 0xB#4 0xE#6 x y z 0#4) = w := Option.some.inj h
  rw [decode, if_neg hw]
  simp only [decodeClassB, unusedZero, layoutA_c, layoutA_f, layoutA_x, layoutA_y, layoutA_z, layoutA_u, extract_all,
    BitVec.toNat_ofNat, Nat.reducePow, Nat.reduceMod, Nat.reduceSub, Nat.reduceLeDiff, Nat.reduceAdd,
    beq_self_eq_true, if_true]

theorem vstVer (x : BitVec 6) (y : BitVec 6) (z : BitVec 6) : Statement (.vstVer x y z) := by
  intro w h hw
  obtain rfl : (layoutA 0xB#4 0xF#6 x y z 0#4) = w := Option.some.inj h
  rw [decode, if_neg hw]
  simp only [decodeClassB, unusedZero, layoutA_c, layoutA_f, layoutA_x, layoutA_y, layoutA_z, layoutA_u, extract_all,
    BitVec.toNat_ofNat, Nat.reducePow, Nat.reduceMod, Nat.reduceSub, Nat.reduceLeDiff, Nat.reduceAdd,
    beq_self_eq_true, if_true]

theorem ldVer (x : BitVec 6) (y : BitVec 6) (z : BitVec 6) : Statement (.ldVer x y z) := by
  intro w h hw
  obtain rfl : (layoutA 0xB#4 0x10#6 x y z 0#4) = w := Option.some.inj h
  rw [decode, if_neg hw]
  simp only [decodeClassB, unusedZero, layoutA_c, layoutA_f, layoutA_x, layoutA_y, layoutA_z, layoutA_u, extract_all,
    BitVec.toNat_ofNat, Nat.reducePow, Nat.reduceMod, Nat.reduceSub, Nat.reduceLeDiff, Nat.reduceAdd,
    beq_self_eq_true, if_true]

theorem obres (x : BitVec 6) (y : BitVec 6) (z : BitVec 6) : Statement (.obres x y z) := by
  intro w h hw
  obtain rfl : (layoutA 0xC#4 0x0#6 x y z 0#4) = w := Option.some.inj h
  rw [decode, if_neg hw]
  simp only [decodeClassC, unusedZero, layoutA_c, layoutA_f, layoutA_x, layoutA_y, layoutA_z, layoutA_u, extract_all,
    BitVec.toNat_ofNat, Nat.reducePow, Nat.reduceMod, Nat.reduceSub, Nat.reduceLeDiff, Nat.reduceAdd,
    beq_self_eq_true, if_true]

theorem obrel (x : BitVec 6) : Statement (.obrel x) := by
  intro w h hw
  obtain rfl : (layoutA 0xC#4 0x1#6 x 0#6 0#6 0#4) = w := Option.some.inj h
  rw [decode, if_neg hw]
  simp only [decodeClassC, unusedZero, layoutA_c, layoutA_f, layoutA_x, layoutA_unused16, extract_all,
    BitVec.toNat_ofNat, Nat.reducePow, Nat.reduceMod, Nat.reduceSub, Nat.reduceLeDiff, Nat.reduceAdd,
    beq_self_eq_true, if_true]

theorem mfetcha (x : BitVec 6) (y : BitVec 6) (z : BitVec 6) : Statement (.mfetcha x y z) := by
  intro w h hw
  obtain rfl : (layoutA 0xC#4 0x2#6 x y z 0#4) = w := Option.some.inj h
  rw [decode, if_neg hw]
  simp only [decodeClassC, unusedZero, layoutA_c, layoutA_f, layoutA_x, layoutA_y, layoutA_z, layoutA_u, extract_all,
    BitVec.toNat_ofNat, Nat.reducePow, Nat.reduceMod, Nat.reduceSub, Nat.reduceLeDiff, Nat.reduceAdd,
    beq_self_eq_true, if_true]

theorem mloadb (x : BitVec 6) (y : BitVec 6) (z : BitVec 6) : Statement (.mloadb x y z) := by
  intro w h hw
  obtain rfl : (layoutA 0xC#4 0x3#6 x y z 0#4) = w := Option.some.inj h
  rw [decode, if_neg hw]
  simp only [decodeClassC, unusedZero, layoutA_c, layoutA_f, layoutA_x, layoutA_y, layoutA_z, layoutA_u, extract_all,
    BitVec.toNat_ofNat, Nat.reducePow, Nat.reduceMod, Nat.reduceSub, Nat.reduceLeDiff, Nat.reduceAdd,
    beq_self_eq_true, if_true]

theorem mmaD (x : BitVec 6) (y : BitVec 6) (n : BitVec 2) : Statement (.mmaD x y n) := by
  intro w h hw
  obtain rfl : (layoutA 0xC#4 0x4#6 x y 0#6 (0#2 ++ n)) = w := Option.some.inj h
  rw [decode, if_neg hw]
  simp only [decodeClassC, unusedZero, layoutA_c, layoutA_f, layoutA_x, layoutA_y, layoutA_u, layoutA_unused8,
    pair22_low, extract_all, BitVec.toNat_ofNat, Nat.reducePow, Nat.reduceMod, Nat.reduceSub, Nat.reduceLeDiff,
    Nat.reduceAdd, beq_self_eq_true, if_true]

theorem mmaB (x : BitVec 6) (y : BitVec 6) (n : BitVec 2) : Statement (.mmaB x y n) := by
  intro w h hw
  obtain rfl : (layoutA 0xC#4 0x5#6 x y 0#6 (0#2 ++ n)) = w := Option.some.inj h
  rw [decode, if_neg hw]
  simp only [decodeClassC, unusedZero, layoutA_c, layoutA_f, layoutA_x, layoutA_y, layoutA_u, layoutA_unused8,
    pair22_low, extract_all, BitVec.toNat_ofNat, Nat.reducePow, Nat.reduceMod, Nat.reduceSub, Nat.reduceLeDiff,
    Nat.reduceAdd, beq_self_eq_true, if_true]

theorem mzero (n : BitVec 2) : Statement (.mzero n) := by
  intro w h hw
  obtain rfl : (layoutA 0xC#4 0x6#6 0#6 0#6 0#6 (0#2 ++ n)) = w := Option.some.inj h
  rw [decode, if_neg hw]
  simp only [decodeClassC, unusedZero, layoutA_c, layoutA_f, layoutA_u, layoutA_unused20, pair22_low, extract_all,
    BitVec.toNat_ofNat, Nat.reducePow, Nat.reduceMod, Nat.reduceSub, Nat.reduceLeDiff, Nat.reduceAdd,
    beq_self_eq_true, if_true]

theorem mstore (x : BitVec 6) (y : BitVec 6) (z : BitVec 6) (n : BitVec 2) : Statement (.mstore x y z n) := by
  intro w h hw
  obtain rfl : (layoutA 0xC#4 0x7#6 x y z (0#2 ++ n)) = w := Option.some.inj h
  rw [decode, if_neg hw]
  simp only [decodeClassC, unusedZero, layoutA_c, layoutA_f, layoutA_x, layoutA_y, layoutA_z, layoutA_u, pair22_high,
    pair22_low, extract_all, BitVec.toNat_ofNat, Nat.reducePow, Nat.reduceMod, Nat.reduceSub, Nat.reduceLeDiff,
    Nat.reduceAdd, beq_self_eq_true, if_true]

theorem spawn (x : BitVec 6) (y : BitVec 6) : Statement (.spawn x y) := by
  intro w h hw
  obtain rfl : (layoutA 0xD#4 0x0#6 x y 0#6 0#4) = w := Option.some.inj h
  rw [decode, if_neg hw]
  simp only [decodeClassD, unusedZero, layoutA_c, layoutA_f, layoutA_x, layoutA_y, layoutA_unused10, extract_all,
    BitVec.toNat_ofNat, Nat.reducePow, Nat.reduceMod, Nat.reduceSub, Nat.reduceLeDiff, Nat.reduceAdd,
    beq_self_eq_true, if_true]

theorem spawnq (x : BitVec 6) (y : BitVec 6) (z : BitVec 6) : Statement (.spawnq x y z) := by
  intro w h hw
  obtain rfl : (layoutA 0xD#4 0x1#6 x y z 0#4) = w := Option.some.inj h
  rw [decode, if_neg hw]
  simp only [decodeClassD, unusedZero, layoutA_c, layoutA_f, layoutA_x, layoutA_y, layoutA_z, layoutA_u, extract_all,
    BitVec.toNat_ofNat, Nat.reducePow, Nat.reduceMod, Nat.reduceSub, Nat.reduceLeDiff, Nat.reduceAdd,
    beq_self_eq_true, if_true]

theorem qpop (x : BitVec 6) (y : BitVec 6) (z : BitVec 6) : Statement (.qpop x y z) := by
  intro w h hw
  obtain rfl : (layoutA 0xD#4 0x2#6 x y z 0#4) = w := Option.some.inj h
  rw [decode, if_neg hw]
  simp only [decodeClassD, unusedZero, layoutA_c, layoutA_f, layoutA_x, layoutA_y, layoutA_z, layoutA_u, extract_all,
    BitVec.toNat_ofNat, Nat.reducePow, Nat.reduceMod, Nat.reduceSub, Nat.reduceLeDiff, Nat.reduceAdd,
    beq_self_eq_true, if_true]

theorem join (x : BitVec 6) (y : BitVec 6) : Statement (.join x y) := by
  intro w h hw
  obtain rfl : (layoutA 0xD#4 0x3#6 x y 0#6 0#4) = w := Option.some.inj h
  rw [decode, if_neg hw]
  simp only [decodeClassD, unusedZero, layoutA_c, layoutA_f, layoutA_x, layoutA_y, layoutA_unused10, extract_all,
    BitVec.toNat_ofNat, Nat.reducePow, Nat.reduceMod, Nat.reduceSub, Nat.reduceLeDiff, Nat.reduceAdd,
    beq_self_eq_true, if_true]

theorem topup (x : BitVec 6) (y : BitVec 6) (z : BitVec 6) : Statement (.topup x y z) := by
  intro w h hw
  obtain rfl : (layoutA 0xD#4 0x4#6 x y z 0#4) = w := Option.some.inj h
  rw [decode, if_neg hw]
  simp only [decodeClassD, unusedZero, layoutA_c, layoutA_f, layoutA_x, layoutA_y, layoutA_z, layoutA_u, extract_all,
    BitVec.toNat_ofNat, Nat.reducePow, Nat.reduceMod, Nat.reduceSub, Nat.reduceLeDiff, Nat.reduceAdd,
    beq_self_eq_true, if_true]

theorem tstat (x : BitVec 6) (y : BitVec 6) (z : BitVec 6) (u : BitVec 4) : Statement (.tstat x y z u) := by
  intro w h hw
  obtain rfl : (layoutA 0xD#4 0x5#6 x y z u) = w := Option.some.inj h
  rw [decode, if_neg hw]
  simp only [decodeClassD, layoutA_c, layoutA_f, layoutA_x, layoutA_y, layoutA_z, layoutA_u, extract_all,
    BitVec.toNat_ofNat, Nat.reducePow, Nat.reduceMod, Nat.reduceSub, Nat.reduceLeDiff, Nat.reduceAdd]

theorem resw (x : BitVec 6) : Statement (.resw x) := by
  intro w h hw
  obtain rfl : (layoutA 0xD#4 0x6#6 x 0#6 0#6 0#4) = w := Option.some.inj h
  rw [decode, if_neg hw]
  simp only [decodeClassD, unusedZero, layoutA_c, layoutA_f, layoutA_x, layoutA_unused16, extract_all,
    BitVec.toNat_ofNat, Nat.reducePow, Nat.reduceMod, Nat.reduceSub, Nat.reduceLeDiff, Nat.reduceAdd,
    beq_self_eq_true, if_true]

theorem phend : Statement (.phend) := by
  intro w h hw
  obtain rfl : (layoutA 0xD#4 0x7#6 0#6 0#6 0#6 0#4) = w := Option.some.inj h
  rw [decode, if_neg hw]
  simp only [decodeClassD, unusedZero, layoutA_c, layoutA_f, layoutA_unused, extract_all, BitVec.toNat_ofNat,
    Nat.reducePow, Nat.reduceMod, Nat.reduceSub, Nat.reduceLeDiff, Nat.reduceAdd, beq_self_eq_true, if_true]

theorem srd (x : BitVec 6) (reg : BitVec 12) : Statement (.srd x reg) := by
  intro w h hw
  obtain rfl : (layoutR 0xE#4 0x0#6 x reg 0#4) = w := Option.some.inj h
  rw [decode, if_neg hw]
  simp only [decodeClassE, unusedZero, layoutR_c, layoutR_f, layoutR_x, layoutR_r, layoutR_u, extract_all,
    BitVec.toNat_ofNat, Nat.reducePow, Nat.reduceMod, Nat.reduceSub, Nat.reduceLeDiff, Nat.reduceAdd,
    beq_self_eq_true, if_true]

theorem swr (x : BitVec 6) (reg : BitVec 12) : Statement (.swr x reg) := by
  intro w h hw
  obtain rfl : (layoutR 0xE#4 0x1#6 x reg 0#4) = w := Option.some.inj h
  rw [decode, if_neg hw]
  simp only [decodeClassE, unusedZero, layoutR_c, layoutR_f, layoutR_x, layoutR_r, layoutR_u, extract_all,
    BitVec.toNat_ofNat, Nat.reducePow, Nat.reduceMod, Nat.reduceSub, Nat.reduceLeDiff, Nat.reduceAdd,
    beq_self_eq_true, if_true]

theorem trap (n : BitVec 16) : Statement (.trap n) := by
  intro w h hw
  obtain rfl : (layoutN 0xE#4 0x2#6 0#6 n) = w := Option.some.inj h
  rw [decode, if_neg hw]
  simp only [decodeClassE, unusedZero, layoutN_c, layoutN_f, layoutN_x, layoutN_n, extract_all, BitVec.toNat_ofNat,
    Nat.reducePow, Nat.reduceMod, Nat.reduceSub, Nat.reduceLeDiff, Nat.reduceAdd, beq_self_eq_true, if_true]

theorem tret : Statement (.tret) := by
  intro w h hw
  obtain rfl : (layoutA 0xE#4 0x3#6 0#6 0#6 0#6 0#4) = w := Option.some.inj h
  rw [decode, if_neg hw]
  simp only [decodeClassE, unusedZero, layoutA_c, layoutA_f, layoutA_unused, extract_all, BitVec.toNat_ofNat,
    Nat.reducePow, Nat.reduceMod, Nat.reduceSub, Nat.reduceLeDiff, Nat.reduceAdd, beq_self_eq_true, if_true]

theorem tclr (x : BitVec 6) : Statement (.tclr x) := by
  intro w h hw
  obtain rfl : (layoutA 0xE#4 0x4#6 x 0#6 0#6 0#4) = w := Option.some.inj h
  rw [decode, if_neg hw]
  simp only [decodeClassE, unusedZero, layoutA_c, layoutA_f, layoutA_x, layoutA_unused16, extract_all,
    BitVec.toNat_ofNat, Nat.reducePow, Nat.reduceMod, Nat.reduceSub, Nat.reduceLeDiff, Nat.reduceAdd,
    beq_self_eq_true, if_true]

theorem brk (n : BitVec 16) : Statement (.brk n) := by
  intro w h hw
  obtain rfl : (layoutN 0xE#4 0x5#6 0#6 n) = w := Option.some.inj h
  rw [decode, if_neg hw]
  simp only [decodeClassE, unusedZero, layoutN_c, layoutN_f, layoutN_x, layoutN_n, extract_all, BitVec.toNat_ofNat,
    Nat.reducePow, Nat.reduceMod, Nat.reduceSub, Nat.reduceLeDiff, Nat.reduceAdd, beq_self_eq_true, if_true]

theorem jmark (x : BitVec 6) : Statement (.jmark x) := by
  intro w h hw
  obtain rfl : (layoutA 0xE#4 0x6#6 x 0#6 0#6 0#4) = w := Option.some.inj h
  rw [decode, if_neg hw]
  simp only [decodeClassE, unusedZero, layoutA_c, layoutA_f, layoutA_x, layoutA_unused16, extract_all,
    BitVec.toNat_ofNat, Nat.reducePow, Nat.reduceMod, Nat.reduceSub, Nat.reduceLeDiff, Nat.reduceAdd,
    beq_self_eq_true, if_true]

theorem ovld (x : BitVec 6) : Statement (.ovld x) := by
  intro w h hw
  obtain rfl : (layoutA 0xE#4 0x7#6 x 0#6 0#6 0#4) = w := Option.some.inj h
  rw [decode, if_neg hw]
  simp only [decodeClassE, unusedZero, layoutA_c, layoutA_f, layoutA_x, layoutA_unused16, extract_all,
    BitVec.toNat_ofNat, Nat.reducePow, Nat.reduceMod, Nat.reduceSub, Nat.reduceLeDiff, Nat.reduceAdd,
    beq_self_eq_true, if_true]

theorem ovcall (x : BitVec 6) : Statement (.ovcall x) := by
  intro w h hw
  obtain rfl : (layoutA 0xE#4 0x8#6 x 0#6 0#6 0#4) = w := Option.some.inj h
  rw [decode, if_neg hw]
  simp only [decodeClassE, unusedZero, layoutA_c, layoutA_f, layoutA_x, layoutA_unused16, extract_all,
    BitVec.toNat_ofNat, Nat.reducePow, Nat.reduceMod, Nat.reduceSub, Nat.reduceLeDiff, Nat.reduceAdd,
    beq_self_eq_true, if_true]

theorem ovret (x : BitVec 6) : Statement (.ovret x) := by
  intro w h hw
  obtain rfl : (layoutA 0xE#4 0x9#6 x 0#6 0#6 0#4) = w := Option.some.inj h
  rw [decode, if_neg hw]
  simp only [decodeClassE, unusedZero, layoutA_c, layoutA_f, layoutA_x, layoutA_unused16, extract_all,
    BitVec.toNat_ofNat, Nat.reducePow, Nat.reduceMod, Nat.reduceSub, Nat.reduceLeDiff, Nat.reduceAdd,
    beq_self_eq_true, if_true]

theorem pwrq (x : BitVec 6) : Statement (.pwrq x) := by
  intro w h hw
  obtain rfl : (layoutA 0xE#4 0xA#6 x 0#6 0#6 0#4) = w := Option.some.inj h
  rw [decode, if_neg hw]
  simp only [decodeClassE, unusedZero, layoutA_c, layoutA_f, layoutA_x, layoutA_unused16, extract_all,
    BitVec.toNat_ofNat, Nat.reducePow, Nat.reduceMod, Nat.reduceSub, Nat.reduceLeDiff, Nat.reduceAdd,
    beq_self_eq_true, if_true]

theorem cres (x : BitVec 6) (y : BitVec 6) : Statement (.cres x y) := by
  intro w h hw
  obtain rfl : (layoutA 0xE#4 0xB#6 x y 0#6 0#4) = w := Option.some.inj h
  rw [decode, if_neg hw]
  simp only [decodeClassE, unusedZero, layoutA_c, layoutA_f, layoutA_x, layoutA_y, layoutA_unused10, extract_all,
    BitVec.toNat_ofNat, Nat.reducePow, Nat.reduceMod, Nat.reduceSub, Nat.reduceLeDiff, Nat.reduceAdd,
    beq_self_eq_true, if_true]

theorem crel : Statement (.crel) := by
  intro w h hw
  obtain rfl : (layoutA 0xE#4 0xC#6 0#6 0#6 0#6 0#4) = w := Option.some.inj h
  rw [decode, if_neg hw]
  simp only [decodeClassE, unusedZero, layoutA_c, layoutA_f, layoutA_unused, extract_all, BitVec.toNat_ofNat,
    Nat.reducePow, Nat.reduceMod, Nat.reduceSub, Nat.reduceLeDiff, Nat.reduceAdd, beq_self_eq_true, if_true]

theorem hintImm (p : BitVec 26) : Statement (.hintImm p) := by
  intro w h hw
  obtain rfl : (layoutH 0xF#4 0#2 p) = w := Option.some.inj h
  rw [decode, if_neg hw]
  simp only [decodeClassF, layoutH_c, layoutH_k, layoutH_b, extract_all, BitVec.toNat_ofNat, Nat.reducePow,
    Nat.reduceMod, Nat.reduceSub, Nat.reduceLeDiff, Nat.reduceAdd]

theorem hintSched (stall : BitVec 6) (yld : BitVec 1) (rsv : BitVec 19) : Statement (.hintSched stall yld rsv) := by
  intro w h hw
  obtain rfl : (layoutJ 0xF#4 1#2 stall yld rsv) = w := Option.some.inj h
  rw [decode, if_neg hw]
  simp only [decodeClassF, layoutJ_c, layoutJ_k, layoutJ_t, layoutJ_y, layoutJ_r, extract_all, BitVec.toNat_ofNat,
    Nat.reducePow, Nat.reduceMod, Nat.reduceSub, Nat.reduceLeDiff, Nat.reduceAdd]

theorem hintMod (rnd : BitVec 2) (sat : BitVec 1) (nega : BitVec 1) (negb : BitVec 1) (absa : BitVec 1) (absb : BitVec 1) (odst : BitVec 1) (oidx : BitVec 3) (ef : BitVec 1) (qidx : BitVec 3) (scope : BitVec 3) (rsv : BitVec 8) : Statement (.hintMod rnd sat nega negb absa absb odst oidx ef qidx scope rsv) := by
  intro w h hw
  obtain rfl : (layoutK 0xF#4 2#2 rnd sat nega negb absa absb odst oidx ef qidx scope rsv) = w := Option.some.inj h
  rw [decode, if_neg hw]
  simp only [decodeClassF, layoutK_c, layoutK_k, layoutK_m, layoutK_sat, layoutK_na, layoutK_nb, layoutK_aa,
    layoutK_ab, layoutK_od, layoutK_oi, layoutK_e, layoutK_qi, layoutK_sc, layoutK_r, extract_all, BitVec.toNat_ofNat,
    Nat.reducePow, Nat.reduceMod, Nat.reduceSub, Nat.reduceLeDiff, Nat.reduceAdd]

theorem prreplyRetry (tbl vfn tag : Nat) : Statement (.prreplyRetry tbl vfn tag) := fun _ h => nomatch h

theorem prreplyFail (tbl vfn tag : Nat) : Statement (.prreplyFail tbl vfn tag) := fun _ h => nomatch h

theorem xinvPage (fn stg ctx : Nat) : Statement (.xinvPage fn stg ctx) := fun _ h => nomatch h

theorem xinvContext (fn stg ctx : Nat) : Statement (.xinvContext fn stg ctx) := fun _ h => nomatch h

theorem xinvVfn (fn stg : Nat) : Statement (.xinvVfn fn stg) := fun _ h => nomatch h

theorem xinvDone (fn : Nat) : Statement (.xinvDone fn) := fun _ h => nomatch h

theorem hcommit (psel : BitVec 7) : Statement (.hcommit psel) := fun _ h => nomatch h

theorem hcommitDone : Statement (.hcommitDone) := fun _ h => nomatch h

theorem mdzGo (pages : BitVec 20) : Statement (.mdzGo pages) := fun _ h => nomatch h

theorem mdzDone : Statement (.mdzDone) := fun _ h => nomatch h

theorem registerWrite (fn off : Nat) (wide : Bool) (val : W64) : Statement (.registerWrite fn off wide val) := fun _ h => nomatch h

theorem storePerform (g id : Nat) : Statement (.storePerform g id) := fun _ h => nomatch h

theorem loadLand (g id : Nat) (srcs : List LoadSource) : Statement (.loadLand g id srcs) := fun _ h => nomatch h

theorem sfuLand (g id : Nat) : Statement (.sfuLand g id) := fun _ h => nomatch h

theorem crcEvict (cl line : Nat) : Statement (.crcEvict cl line) := fun _ h => nomatch h

theorem l2Evict (line : Nat) : Statement (.l2Evict line) := fun _ h => nomatch h

theorem copyBurst (cl : Nat) : Statement (.copyBurst cl) := fun _ h => nomatch h

theorem copyComplete (cl op : Nat) : Statement (.copyComplete cl op) := fun _ h => nomatch h

theorem discardComplete (cl op : Nat) : Statement (.discardComplete cl op) := fun _ h => nomatch h

theorem matGrant (cl op : Nat) : Statement (.matGrant cl op) := fun _ h => nomatch h

theorem matOpComplete (cl op : Nat) : Statement (.matOpComplete cl op) := fun _ h => nomatch h

theorem collComplete (op : Nat) (replies : List PeerReply) : Statement (.collComplete op replies) := fun _ h => nomatch h

theorem messageArrival (g idx : Nat) : Statement (.messageArrival g idx) := fun _ h => nomatch h

theorem teamBegin (eid core : Nat) : Statement (.teamBegin eid core) := fun _ h => nomatch h

theorem teamRetire (eid : Nat) : Statement (.teamRetire eid) := fun _ h => nomatch h

theorem topupSerialise (g : Nat) : Statement (.topupSerialise g) := fun _ h => nomatch h

theorem phaseCommit (launch : Nat) : Statement (.phaseCommit launch) := fun _ h => nomatch h

theorem trapEntry (g : Nat) : Statement (.trapEntry g) := fun _ h => nomatch h

theorem preemptRequest (eid : Nat) (purpose : PreemptPurpose) : Statement (.preemptRequest eid purpose) := fun _ h => nomatch h

theorem preemptSave (eid : Nat) : Statement (.preemptSave eid) := fun _ h => nomatch h

theorem teamFlush (eid : Nat) : Statement (.teamFlush eid) := fun _ h => nomatch h

theorem teamRestore (eid core : Nat) : Statement (.teamRestore eid core) := fun _ h => nomatch h

theorem migrationRequest (eid : Nat) : Statement (.migrationRequest eid) := fun _ h => nomatch h

theorem debugAttach (fn : Nat) : Statement (.debugAttach fn) := fun _ h => nomatch h

theorem debugDetach (fn : Nat) : Statement (.debugDetach fn) := fun _ h => nomatch h

theorem debugStop (fn : Nat) : Statement (.debugStop fn) := fun _ h => nomatch h

theorem teamStopped (eid : Nat) : Statement (.teamStopped eid) := fun _ h => nomatch h

theorem debugResume (fn : Nat) : Statement (.debugResume fn) := fun _ h => nomatch h

theorem debugStep (fn : Nat) : Statement (.debugStep fn) := fun _ h => nomatch h

theorem debugRead (fn : Nat) : Statement (.debugRead fn) := fun _ h => nomatch h

theorem debugWrite (fn : Nat) : Statement (.debugWrite fn) := fun _ h => nomatch h

theorem jkick (fn : Nat) : Statement (.jkick fn) := fun _ h => nomatch h

theorem replayAdmit (launch point : Nat) : Statement (.replayAdmit launch point) := fun _ h => nomatch h

theorem qdb (fn : Nat) (val : W64) : Statement (.qdb fn val) := fun _ h => nomatch h

theorem queueMap (fn ctx q : Nat) : Statement (.queueMap fn ctx q) := fun _ h => nomatch h

theorem slotReclaim (slot : Nat) : Statement (.slotReclaim slot) := fun _ h => nomatch h

theorem launch (slot : Nat) : Statement (.launch slot) := fun _ h => nomatch h

theorem cond (slot : Nat) : Statement (.cond slot) := fun _ h => nomatch h

theorem waitPacket (slot : Nat) : Statement (.waitPacket slot) := fun _ h => nomatch h

theorem bindq (slot : Nat) : Statement (.bindq slot) := fun _ h => nomatch h

theorem bindqUnbind (slot : Nat) : Statement (.bindqUnbind slot) := fun _ h => nomatch h

theorem launchAdmit (launch : Nat) : Statement (.launchAdmit launch) := fun _ h => nomatch h

theorem consumerLaunch (fn ctx nq : Nat) : Statement (.consumerLaunch fn ctx nq) := fun _ h => nomatch h

theorem launchComplete (launch : Nat) : Statement (.launchComplete launch) := fun _ h => nomatch h

theorem launchAbort (fn : Nat) : Statement (.launchAbort fn) := fun _ h => nomatch h

theorem hostTopup (fn : Nat) : Statement (.hostTopup fn) := fun _ h => nomatch h

theorem weirLimitWrite (cls : Nat) (which : WeirReg) (val : W64) : Statement (.weirLimitWrite cls which val) := fun _ h => nomatch h

theorem sluiceGrant (string : Nat) : Statement (.sluiceGrant string) := fun _ h => nomatch h

theorem vectorReservationIdle (core : Nat) (sfu : Bool) : Statement (.vectorReservationIdle core sfu) := fun _ h => nomatch h

theorem stringThrottle (string : Nat) : Statement (.stringThrottle string) := fun _ h => nomatch h

theorem throttleEnd (string : Nat) : Statement (.throttleEnd string) := fun _ h => nomatch h

theorem reactionWindowEnd (cl : Nat) : Statement (.reactionWindowEnd cl) := fun _ h => nomatch h

theorem skipEnd (cl : Nat) : Statement (.skipEnd cl) := fun _ h => nomatch h

theorem pkgCurrentHigh : Statement (.pkgCurrentHigh) := fun _ h => nomatch h

theorem pkgCurrentLow : Statement (.pkgCurrentLow) := fun _ h => nomatch h

theorem dieTempChange (cl : Nat) (temp : Int) : Statement (.dieTempChange cl temp) := fun _ h => nomatch h

theorem dramEmergency (layer : Nat) : Statement (.dramEmergency layer) := fun _ h => nomatch h

theorem dramTempSample (layer : Nat) (temp : Int) : Statement (.dramTempSample layer temp) := fun _ h => nomatch h

theorem rankRefresh (ch layer : Nat) : Statement (.rankRefresh ch layer) := fun _ h => nomatch h

theorem rankRefreshEnd (ch layer : Nat) : Statement (.rankRefreshEnd ch layer) := fun _ h => nomatch h

theorem clockBoostStep (string : Nat) (up : Bool) : Statement (.clockBoostStep string up) := fun _ h => nomatch h

theorem wearAccumulate (string : Nat) : Statement (.wearAccumulate string) := fun _ h => nomatch h

theorem timingErrorReplay (cl cycles : Nat) : Statement (.timingErrorReplay cl cycles) := fun _ h => nomatch h

theorem stringGate (string : Nat) : Statement (.stringGate string) := fun _ h => nomatch h

theorem stringWake (string : Nat) : Statement (.stringWake string) := fun _ h => nomatch h

theorem uncorrectableError (granule : Granule) : Statement (.uncorrectableError granule) := fun _ h => nomatch h

theorem correctedError (level : Nat) : Statement (.correctedError level) := fun _ h => nomatch h

theorem powerOn : Statement (.powerOn) := fun _ h => nomatch h

theorem bootImageCheck (image : BootImage) : Statement (.bootImageCheck image) := fun _ h => nomatch h

theorem firmwareReport : Statement (.firmwareReport) := fun _ h => nomatch h

theorem watchdogExpire : Statement (.watchdogExpire) := fun _ h => nomatch h

theorem recoveryReload (image : BootImage) : Statement (.recoveryReload image) := fun _ h => nomatch h

theorem attestationRequest : Statement (.attestationRequest) := fun _ h => nomatch h

theorem hostW1Access (fn link : Nat) (write : Bool) (off : Nat) (bytes : List Byte) : Statement (.hostW1Access fn link write off bytes) := fun _ h => nomatch h

theorem peerRequest (port : Nat) (req : PeerAccess) : Statement (.peerRequest port req) := fun _ h => nomatch h

theorem linkDown (port : Nat) : Statement (.linkDown port) := fun _ h => nomatch h

theorem migrationResidencyReached (eid : Nat) : Statement (.migrationResidencyReached eid) := fun _ h => nomatch h

theorem fetcherBurst (cl : Nat) : Statement (.fetcherBurst cl) := fun _ h => nomatch h

end Sys2Proof.Laws.Encoding
end

