-- ==== Sys2Proof/Laws/State.lean ====
section
/-! SUPPORT. What each change of one part leaves of each field of the state, and what a register write leaves of each
field of a group. -/

namespace Sys2Proof.Machine

@[simp] theorem View.onGroup_moves (w : View) (f : Group → Group) (t : State) : (View.onGroup w f t).moves = t.moves := rfl
@[simp] theorem View.onGroup_cur (w : View) (f : Group → Group) (t : State) : (View.onGroup w f t).cur = t.cur := rfl
@[simp] theorem View.onGroup_free (w : View) (f : Group → Group) (t : State) : (View.onGroup w f t).free = t.free := rfl
@[simp] theorem View.onGroup_fresh (w : View) (f : Group → Group) (t : State) : (View.onGroup w f t).fresh = t.fresh := rfl
@[simp] theorem View.onGroup_mem (w : View) (f : Group → Group) (t : State) : (View.onGroup w f t).mem = t.mem := rfl
@[simp] theorem View.onGroup_home (w : View) (f : Group → Group) (t : State) : (View.onGroup w f t).home = t.home := rfl
@[simp] theorem View.onGroup_groups (w : View) (f : Group → Group) (t : State) : (View.onGroup w f t).groups = SMap.adjust t.groups w.g f := rfl
@[simp] theorem View.onGroup_teams (w : View) (f : Group → Group) (t : State) : (View.onGroup w f t).teams = t.teams := rfl
@[simp] theorem View.onGroup_grids (w : View) (f : Group → Group) (t : State) : (View.onGroup w f t).grids = t.grids := rfl
@[simp] theorem View.onGroup_launches (w : View) (f : Group → Group) (t : State) : (View.onGroup w f t).launches = t.launches := rfl
@[simp] theorem View.onGroup_cores (w : View) (f : Group → Group) (t : State) : (View.onGroup w f t).cores = t.cores := rfl
@[simp] theorem View.onGroup_clusters (w : View) (f : Group → Group) (t : State) : (View.onGroup w f t).clusters = t.clusters := rfl
@[simp] theorem View.onGroup_strings (w : View) (f : Group → Group) (t : State) : (View.onGroup w f t).strings = t.strings := rfl
@[simp] theorem View.onGroup_tables (w : View) (f : Group → Group) (t : State) : (View.onGroup w f t).tables = t.tables := rfl
@[simp] theorem View.onGroup_colls (w : View) (f : Group → Group) (t : State) : (View.onGroup w f t).colls = t.colls := rfl
@[simp] theorem View.onGroup_queues (w : View) (f : Group → Group) (t : State) : (View.onGroup w f t).queues = t.queues := rfl
@[simp] theorem View.onGroup_ctxs (w : View) (f : Group → Group) (t : State) : (View.onGroup w f t).ctxs = t.ctxs := rfl
@[simp] theorem View.onGroup_fns (w : View) (f : Group → Group) (t : State) : (View.onGroup w f t).fns = t.fns := rfl
@[simp] theorem View.onGroup_dev (w : View) (f : Group → Group) (t : State) : (View.onGroup w f t).dev = t.dev := rfl
@[simp] theorem View.onGroup_boot (w : View) (f : Group → Group) (t : State) : (View.onGroup w f t).boot = t.boot := rfl
@[simp] theorem View.onGroup_fuses (w : View) (f : Group → Group) (t : State) : (View.onGroup w f t).fuses = t.fuses := rfl
@[simp] theorem View.onGroup_doorbells (w : View) (f : Group → Group) (t : State) : (View.onGroup w f t).doorbells = t.doorbells := rfl
@[simp] theorem View.onGroup_linkOut (w : View) (f : Group → Group) (t : State) : (View.onGroup w f t).linkOut = t.linkOut := rfl
@[simp] theorem View.onGroup_timer (w : View) (f : Group → Group) (t : State) : (View.onGroup w f t).timer = t.timer := rfl

@[simp] theorem View.at_moves (w : View) (x : BitVec 1) (pc : BitVec 14) (t : State) : (View.at w x pc t).moves = t.moves := rfl
@[simp] theorem View.at_cur (w : View) (x : BitVec 1) (pc : BitVec 14) (t : State) : (View.at w x pc t).cur = t.cur := rfl
@[simp] theorem View.at_free (w : View) (x : BitVec 1) (pc : BitVec 14) (t : State) : (View.at w x pc t).free = t.free := rfl
@[simp] theorem View.at_fresh (w : View) (x : BitVec 1) (pc : BitVec 14) (t : State) : (View.at w x pc t).fresh = t.fresh := rfl
@[simp] theorem View.at_mem (w : View) (x : BitVec 1) (pc : BitVec 14) (t : State) : (View.at w x pc t).mem = t.mem := rfl
@[simp] theorem View.at_home (w : View) (x : BitVec 1) (pc : BitVec 14) (t : State) : (View.at w x pc t).home = t.home := rfl
@[simp] theorem View.at_groups (w : View) (x : BitVec 1) (pc : BitVec 14) (t : State) : (View.at w x pc t).groups = SMap.adjust t.groups w.g fun gr => gr.goTo x pc := rfl
@[simp] theorem View.at_teams (w : View) (x : BitVec 1) (pc : BitVec 14) (t : State) : (View.at w x pc t).teams = t.teams := rfl
@[simp] theorem View.at_grids (w : View) (x : BitVec 1) (pc : BitVec 14) (t : State) : (View.at w x pc t).grids = t.grids := rfl
@[simp] theorem View.at_launches (w : View) (x : BitVec 1) (pc : BitVec 14) (t : State) : (View.at w x pc t).launches = t.launches := rfl
@[simp] theorem View.at_cores (w : View) (x : BitVec 1) (pc : BitVec 14) (t : State) : (View.at w x pc t).cores = t.cores := rfl
@[simp] theorem View.at_clusters (w : View) (x : BitVec 1) (pc : BitVec 14) (t : State) : (View.at w x pc t).clusters = t.clusters := rfl
@[simp] theorem View.at_strings (w : View) (x : BitVec 1) (pc : BitVec 14) (t : State) : (View.at w x pc t).strings = t.strings := rfl
@[simp] theorem View.at_tables (w : View) (x : BitVec 1) (pc : BitVec 14) (t : State) : (View.at w x pc t).tables = t.tables := rfl
@[simp] theorem View.at_colls (w : View) (x : BitVec 1) (pc : BitVec 14) (t : State) : (View.at w x pc t).colls = t.colls := rfl
@[simp] theorem View.at_queues (w : View) (x : BitVec 1) (pc : BitVec 14) (t : State) : (View.at w x pc t).queues = t.queues := rfl
@[simp] theorem View.at_ctxs (w : View) (x : BitVec 1) (pc : BitVec 14) (t : State) : (View.at w x pc t).ctxs = t.ctxs := rfl
@[simp] theorem View.at_fns (w : View) (x : BitVec 1) (pc : BitVec 14) (t : State) : (View.at w x pc t).fns = t.fns := rfl
@[simp] theorem View.at_dev (w : View) (x : BitVec 1) (pc : BitVec 14) (t : State) : (View.at w x pc t).dev = t.dev := rfl
@[simp] theorem View.at_boot (w : View) (x : BitVec 1) (pc : BitVec 14) (t : State) : (View.at w x pc t).boot = t.boot := rfl
@[simp] theorem View.at_fuses (w : View) (x : BitVec 1) (pc : BitVec 14) (t : State) : (View.at w x pc t).fuses = t.fuses := rfl
@[simp] theorem View.at_doorbells (w : View) (x : BitVec 1) (pc : BitVec 14) (t : State) : (View.at w x pc t).doorbells = t.doorbells := rfl
@[simp] theorem View.at_linkOut (w : View) (x : BitVec 1) (pc : BitVec 14) (t : State) : (View.at w x pc t).linkOut = t.linkOut := rfl
@[simp] theorem View.at_timer (w : View) (x : BitVec 1) (pc : BitVec 14) (t : State) : (View.at w x pc t).timer = t.timer := rfl

@[simp] theorem View.next_moves (w : View) (t : State) : (View.next w t).moves = t.moves := rfl
@[simp] theorem View.next_cur (w : View) (t : State) : (View.next w t).cur = t.cur := rfl
@[simp] theorem View.next_free (w : View) (t : State) : (View.next w t).free = t.free := rfl
@[simp] theorem View.next_fresh (w : View) (t : State) : (View.next w t).fresh = t.fresh := rfl
@[simp] theorem View.next_mem (w : View) (t : State) : (View.next w t).mem = t.mem := rfl
@[simp] theorem View.next_home (w : View) (t : State) : (View.next w t).home = t.home := rfl
@[simp] theorem View.next_groups (w : View) (t : State) : (View.next w t).groups = SMap.adjust t.groups w.g fun gr => gr.goTo w.gr.slot (BitVec.ofNat 14 (w.wordPc + 1)) := rfl
@[simp] theorem View.next_teams (w : View) (t : State) : (View.next w t).teams = t.teams := rfl
@[simp] theorem View.next_grids (w : View) (t : State) : (View.next w t).grids = t.grids := rfl
@[simp] theorem View.next_launches (w : View) (t : State) : (View.next w t).launches = t.launches := rfl
@[simp] theorem View.next_cores (w : View) (t : State) : (View.next w t).cores = t.cores := rfl
@[simp] theorem View.next_clusters (w : View) (t : State) : (View.next w t).clusters = t.clusters := rfl
@[simp] theorem View.next_strings (w : View) (t : State) : (View.next w t).strings = t.strings := rfl
@[simp] theorem View.next_tables (w : View) (t : State) : (View.next w t).tables = t.tables := rfl
@[simp] theorem View.next_colls (w : View) (t : State) : (View.next w t).colls = t.colls := rfl
@[simp] theorem View.next_queues (w : View) (t : State) : (View.next w t).queues = t.queues := rfl
@[simp] theorem View.next_ctxs (w : View) (t : State) : (View.next w t).ctxs = t.ctxs := rfl
@[simp] theorem View.next_fns (w : View) (t : State) : (View.next w t).fns = t.fns := rfl
@[simp] theorem View.next_dev (w : View) (t : State) : (View.next w t).dev = t.dev := rfl
@[simp] theorem View.next_boot (w : View) (t : State) : (View.next w t).boot = t.boot := rfl
@[simp] theorem View.next_fuses (w : View) (t : State) : (View.next w t).fuses = t.fuses := rfl
@[simp] theorem View.next_doorbells (w : View) (t : State) : (View.next w t).doorbells = t.doorbells := rfl
@[simp] theorem View.next_linkOut (w : View) (t : State) : (View.next w t).linkOut = t.linkOut := rfl
@[simp] theorem View.next_timer (w : View) (t : State) : (View.next w t).timer = t.timer := rfl

@[simp] theorem groupPut_moves (i : Nat) (f : Group → Group) (t : State) : (groupPut i f t).moves = t.moves := rfl
@[simp] theorem groupPut_cur (i : Nat) (f : Group → Group) (t : State) : (groupPut i f t).cur = t.cur := rfl
@[simp] theorem groupPut_free (i : Nat) (f : Group → Group) (t : State) : (groupPut i f t).free = t.free := rfl
@[simp] theorem groupPut_fresh (i : Nat) (f : Group → Group) (t : State) : (groupPut i f t).fresh = t.fresh := rfl
@[simp] theorem groupPut_mem (i : Nat) (f : Group → Group) (t : State) : (groupPut i f t).mem = t.mem := rfl
@[simp] theorem groupPut_home (i : Nat) (f : Group → Group) (t : State) : (groupPut i f t).home = t.home := rfl
@[simp] theorem groupPut_groups (i : Nat) (f : Group → Group) (t : State) : (groupPut i f t).groups = SMap.adjust t.groups i f := rfl
@[simp] theorem groupPut_teams (i : Nat) (f : Group → Group) (t : State) : (groupPut i f t).teams = t.teams := rfl
@[simp] theorem groupPut_grids (i : Nat) (f : Group → Group) (t : State) : (groupPut i f t).grids = t.grids := rfl
@[simp] theorem groupPut_launches (i : Nat) (f : Group → Group) (t : State) : (groupPut i f t).launches = t.launches := rfl
@[simp] theorem groupPut_cores (i : Nat) (f : Group → Group) (t : State) : (groupPut i f t).cores = t.cores := rfl
@[simp] theorem groupPut_clusters (i : Nat) (f : Group → Group) (t : State) : (groupPut i f t).clusters = t.clusters := rfl
@[simp] theorem groupPut_strings (i : Nat) (f : Group → Group) (t : State) : (groupPut i f t).strings = t.strings := rfl
@[simp] theorem groupPut_tables (i : Nat) (f : Group → Group) (t : State) : (groupPut i f t).tables = t.tables := rfl
@[simp] theorem groupPut_colls (i : Nat) (f : Group → Group) (t : State) : (groupPut i f t).colls = t.colls := rfl
@[simp] theorem groupPut_queues (i : Nat) (f : Group → Group) (t : State) : (groupPut i f t).queues = t.queues := rfl
@[simp] theorem groupPut_ctxs (i : Nat) (f : Group → Group) (t : State) : (groupPut i f t).ctxs = t.ctxs := rfl
@[simp] theorem groupPut_fns (i : Nat) (f : Group → Group) (t : State) : (groupPut i f t).fns = t.fns := rfl
@[simp] theorem groupPut_dev (i : Nat) (f : Group → Group) (t : State) : (groupPut i f t).dev = t.dev := rfl
@[simp] theorem groupPut_boot (i : Nat) (f : Group → Group) (t : State) : (groupPut i f t).boot = t.boot := rfl
@[simp] theorem groupPut_fuses (i : Nat) (f : Group → Group) (t : State) : (groupPut i f t).fuses = t.fuses := rfl
@[simp] theorem groupPut_doorbells (i : Nat) (f : Group → Group) (t : State) : (groupPut i f t).doorbells = t.doorbells := rfl
@[simp] theorem groupPut_linkOut (i : Nat) (f : Group → Group) (t : State) : (groupPut i f t).linkOut = t.linkOut := rfl
@[simp] theorem groupPut_timer (i : Nat) (f : Group → Group) (t : State) : (groupPut i f t).timer = t.timer := rfl

@[simp] theorem teamPut_moves (i : Nat) (f : Team → Team) (t : State) : (teamPut i f t).moves = t.moves := rfl
@[simp] theorem teamPut_cur (i : Nat) (f : Team → Team) (t : State) : (teamPut i f t).cur = t.cur := rfl
@[simp] theorem teamPut_free (i : Nat) (f : Team → Team) (t : State) : (teamPut i f t).free = t.free := rfl
@[simp] theorem teamPut_fresh (i : Nat) (f : Team → Team) (t : State) : (teamPut i f t).fresh = t.fresh := rfl
@[simp] theorem teamPut_mem (i : Nat) (f : Team → Team) (t : State) : (teamPut i f t).mem = t.mem := rfl
@[simp] theorem teamPut_home (i : Nat) (f : Team → Team) (t : State) : (teamPut i f t).home = t.home := rfl
@[simp] theorem teamPut_groups (i : Nat) (f : Team → Team) (t : State) : (teamPut i f t).groups = t.groups := rfl
@[simp] theorem teamPut_teams (i : Nat) (f : Team → Team) (t : State) : (teamPut i f t).teams = SMap.adjust t.teams i f := rfl
@[simp] theorem teamPut_grids (i : Nat) (f : Team → Team) (t : State) : (teamPut i f t).grids = t.grids := rfl
@[simp] theorem teamPut_launches (i : Nat) (f : Team → Team) (t : State) : (teamPut i f t).launches = t.launches := rfl
@[simp] theorem teamPut_cores (i : Nat) (f : Team → Team) (t : State) : (teamPut i f t).cores = t.cores := rfl
@[simp] theorem teamPut_clusters (i : Nat) (f : Team → Team) (t : State) : (teamPut i f t).clusters = t.clusters := rfl
@[simp] theorem teamPut_strings (i : Nat) (f : Team → Team) (t : State) : (teamPut i f t).strings = t.strings := rfl
@[simp] theorem teamPut_tables (i : Nat) (f : Team → Team) (t : State) : (teamPut i f t).tables = t.tables := rfl
@[simp] theorem teamPut_colls (i : Nat) (f : Team → Team) (t : State) : (teamPut i f t).colls = t.colls := rfl
@[simp] theorem teamPut_queues (i : Nat) (f : Team → Team) (t : State) : (teamPut i f t).queues = t.queues := rfl
@[simp] theorem teamPut_ctxs (i : Nat) (f : Team → Team) (t : State) : (teamPut i f t).ctxs = t.ctxs := rfl
@[simp] theorem teamPut_fns (i : Nat) (f : Team → Team) (t : State) : (teamPut i f t).fns = t.fns := rfl
@[simp] theorem teamPut_dev (i : Nat) (f : Team → Team) (t : State) : (teamPut i f t).dev = t.dev := rfl
@[simp] theorem teamPut_boot (i : Nat) (f : Team → Team) (t : State) : (teamPut i f t).boot = t.boot := rfl
@[simp] theorem teamPut_fuses (i : Nat) (f : Team → Team) (t : State) : (teamPut i f t).fuses = t.fuses := rfl
@[simp] theorem teamPut_doorbells (i : Nat) (f : Team → Team) (t : State) : (teamPut i f t).doorbells = t.doorbells := rfl
@[simp] theorem teamPut_linkOut (i : Nat) (f : Team → Team) (t : State) : (teamPut i f t).linkOut = t.linkOut := rfl
@[simp] theorem teamPut_timer (i : Nat) (f : Team → Team) (t : State) : (teamPut i f t).timer = t.timer := rfl

@[simp] theorem gridPut_moves (i : Nat) (f : Grid → Grid) (t : State) : (gridPut i f t).moves = t.moves := rfl
@[simp] theorem gridPut_cur (i : Nat) (f : Grid → Grid) (t : State) : (gridPut i f t).cur = t.cur := rfl
@[simp] theorem gridPut_free (i : Nat) (f : Grid → Grid) (t : State) : (gridPut i f t).free = t.free := rfl
@[simp] theorem gridPut_fresh (i : Nat) (f : Grid → Grid) (t : State) : (gridPut i f t).fresh = t.fresh := rfl
@[simp] theorem gridPut_mem (i : Nat) (f : Grid → Grid) (t : State) : (gridPut i f t).mem = t.mem := rfl
@[simp] theorem gridPut_home (i : Nat) (f : Grid → Grid) (t : State) : (gridPut i f t).home = t.home := rfl
@[simp] theorem gridPut_groups (i : Nat) (f : Grid → Grid) (t : State) : (gridPut i f t).groups = t.groups := rfl
@[simp] theorem gridPut_teams (i : Nat) (f : Grid → Grid) (t : State) : (gridPut i f t).teams = t.teams := rfl
@[simp] theorem gridPut_grids (i : Nat) (f : Grid → Grid) (t : State) : (gridPut i f t).grids = SMap.adjust t.grids i f := rfl
@[simp] theorem gridPut_launches (i : Nat) (f : Grid → Grid) (t : State) : (gridPut i f t).launches = t.launches := rfl
@[simp] theorem gridPut_cores (i : Nat) (f : Grid → Grid) (t : State) : (gridPut i f t).cores = t.cores := rfl
@[simp] theorem gridPut_clusters (i : Nat) (f : Grid → Grid) (t : State) : (gridPut i f t).clusters = t.clusters := rfl
@[simp] theorem gridPut_strings (i : Nat) (f : Grid → Grid) (t : State) : (gridPut i f t).strings = t.strings := rfl
@[simp] theorem gridPut_tables (i : Nat) (f : Grid → Grid) (t : State) : (gridPut i f t).tables = t.tables := rfl
@[simp] theorem gridPut_colls (i : Nat) (f : Grid → Grid) (t : State) : (gridPut i f t).colls = t.colls := rfl
@[simp] theorem gridPut_queues (i : Nat) (f : Grid → Grid) (t : State) : (gridPut i f t).queues = t.queues := rfl
@[simp] theorem gridPut_ctxs (i : Nat) (f : Grid → Grid) (t : State) : (gridPut i f t).ctxs = t.ctxs := rfl
@[simp] theorem gridPut_fns (i : Nat) (f : Grid → Grid) (t : State) : (gridPut i f t).fns = t.fns := rfl
@[simp] theorem gridPut_dev (i : Nat) (f : Grid → Grid) (t : State) : (gridPut i f t).dev = t.dev := rfl
@[simp] theorem gridPut_boot (i : Nat) (f : Grid → Grid) (t : State) : (gridPut i f t).boot = t.boot := rfl
@[simp] theorem gridPut_fuses (i : Nat) (f : Grid → Grid) (t : State) : (gridPut i f t).fuses = t.fuses := rfl
@[simp] theorem gridPut_doorbells (i : Nat) (f : Grid → Grid) (t : State) : (gridPut i f t).doorbells = t.doorbells := rfl
@[simp] theorem gridPut_linkOut (i : Nat) (f : Grid → Grid) (t : State) : (gridPut i f t).linkOut = t.linkOut := rfl
@[simp] theorem gridPut_timer (i : Nat) (f : Grid → Grid) (t : State) : (gridPut i f t).timer = t.timer := rfl

@[simp] theorem launchPut_moves (i : Nat) (f : Launch → Launch) (t : State) : (launchPut i f t).moves = t.moves := rfl
@[simp] theorem launchPut_cur (i : Nat) (f : Launch → Launch) (t : State) : (launchPut i f t).cur = t.cur := rfl
@[simp] theorem launchPut_free (i : Nat) (f : Launch → Launch) (t : State) : (launchPut i f t).free = t.free := rfl
@[simp] theorem launchPut_fresh (i : Nat) (f : Launch → Launch) (t : State) : (launchPut i f t).fresh = t.fresh := rfl
@[simp] theorem launchPut_mem (i : Nat) (f : Launch → Launch) (t : State) : (launchPut i f t).mem = t.mem := rfl
@[simp] theorem launchPut_home (i : Nat) (f : Launch → Launch) (t : State) : (launchPut i f t).home = t.home := rfl
@[simp] theorem launchPut_groups (i : Nat) (f : Launch → Launch) (t : State) : (launchPut i f t).groups = t.groups := rfl
@[simp] theorem launchPut_teams (i : Nat) (f : Launch → Launch) (t : State) : (launchPut i f t).teams = t.teams := rfl
@[simp] theorem launchPut_grids (i : Nat) (f : Launch → Launch) (t : State) : (launchPut i f t).grids = t.grids := rfl
@[simp] theorem launchPut_launches (i : Nat) (f : Launch → Launch) (t : State) : (launchPut i f t).launches = SMap.adjust t.launches i f := rfl
@[simp] theorem launchPut_cores (i : Nat) (f : Launch → Launch) (t : State) : (launchPut i f t).cores = t.cores := rfl
@[simp] theorem launchPut_clusters (i : Nat) (f : Launch → Launch) (t : State) : (launchPut i f t).clusters = t.clusters := rfl
@[simp] theorem launchPut_strings (i : Nat) (f : Launch → Launch) (t : State) : (launchPut i f t).strings = t.strings := rfl
@[simp] theorem launchPut_tables (i : Nat) (f : Launch → Launch) (t : State) : (launchPut i f t).tables = t.tables := rfl
@[simp] theorem launchPut_colls (i : Nat) (f : Launch → Launch) (t : State) : (launchPut i f t).colls = t.colls := rfl
@[simp] theorem launchPut_queues (i : Nat) (f : Launch → Launch) (t : State) : (launchPut i f t).queues = t.queues := rfl
@[simp] theorem launchPut_ctxs (i : Nat) (f : Launch → Launch) (t : State) : (launchPut i f t).ctxs = t.ctxs := rfl
@[simp] theorem launchPut_fns (i : Nat) (f : Launch → Launch) (t : State) : (launchPut i f t).fns = t.fns := rfl
@[simp] theorem launchPut_dev (i : Nat) (f : Launch → Launch) (t : State) : (launchPut i f t).dev = t.dev := rfl
@[simp] theorem launchPut_boot (i : Nat) (f : Launch → Launch) (t : State) : (launchPut i f t).boot = t.boot := rfl
@[simp] theorem launchPut_fuses (i : Nat) (f : Launch → Launch) (t : State) : (launchPut i f t).fuses = t.fuses := rfl
@[simp] theorem launchPut_doorbells (i : Nat) (f : Launch → Launch) (t : State) : (launchPut i f t).doorbells = t.doorbells := rfl
@[simp] theorem launchPut_linkOut (i : Nat) (f : Launch → Launch) (t : State) : (launchPut i f t).linkOut = t.linkOut := rfl
@[simp] theorem launchPut_timer (i : Nat) (f : Launch → Launch) (t : State) : (launchPut i f t).timer = t.timer := rfl

@[simp] theorem queuePut_moves (i : Nat) (f : HostQueue → HostQueue) (t : State) : (queuePut i f t).moves = t.moves := rfl
@[simp] theorem queuePut_cur (i : Nat) (f : HostQueue → HostQueue) (t : State) : (queuePut i f t).cur = t.cur := rfl
@[simp] theorem queuePut_free (i : Nat) (f : HostQueue → HostQueue) (t : State) : (queuePut i f t).free = t.free := rfl
@[simp] theorem queuePut_fresh (i : Nat) (f : HostQueue → HostQueue) (t : State) : (queuePut i f t).fresh = t.fresh := rfl
@[simp] theorem queuePut_mem (i : Nat) (f : HostQueue → HostQueue) (t : State) : (queuePut i f t).mem = t.mem := rfl
@[simp] theorem queuePut_home (i : Nat) (f : HostQueue → HostQueue) (t : State) : (queuePut i f t).home = t.home := rfl
@[simp] theorem queuePut_groups (i : Nat) (f : HostQueue → HostQueue) (t : State) : (queuePut i f t).groups = t.groups := rfl
@[simp] theorem queuePut_teams (i : Nat) (f : HostQueue → HostQueue) (t : State) : (queuePut i f t).teams = t.teams := rfl
@[simp] theorem queuePut_grids (i : Nat) (f : HostQueue → HostQueue) (t : State) : (queuePut i f t).grids = t.grids := rfl
@[simp] theorem queuePut_launches (i : Nat) (f : HostQueue → HostQueue) (t : State) : (queuePut i f t).launches = t.launches := rfl
@[simp] theorem queuePut_cores (i : Nat) (f : HostQueue → HostQueue) (t : State) : (queuePut i f t).cores = t.cores := rfl
@[simp] theorem queuePut_clusters (i : Nat) (f : HostQueue → HostQueue) (t : State) : (queuePut i f t).clusters = t.clusters := rfl
@[simp] theorem queuePut_strings (i : Nat) (f : HostQueue → HostQueue) (t : State) : (queuePut i f t).strings = t.strings := rfl
@[simp] theorem queuePut_tables (i : Nat) (f : HostQueue → HostQueue) (t : State) : (queuePut i f t).tables = t.tables := rfl
@[simp] theorem queuePut_colls (i : Nat) (f : HostQueue → HostQueue) (t : State) : (queuePut i f t).colls = t.colls := rfl
@[simp] theorem queuePut_queues (i : Nat) (f : HostQueue → HostQueue) (t : State) : (queuePut i f t).queues = SMap.adjust t.queues i f := rfl
@[simp] theorem queuePut_ctxs (i : Nat) (f : HostQueue → HostQueue) (t : State) : (queuePut i f t).ctxs = t.ctxs := rfl
@[simp] theorem queuePut_fns (i : Nat) (f : HostQueue → HostQueue) (t : State) : (queuePut i f t).fns = t.fns := rfl
@[simp] theorem queuePut_dev (i : Nat) (f : HostQueue → HostQueue) (t : State) : (queuePut i f t).dev = t.dev := rfl
@[simp] theorem queuePut_boot (i : Nat) (f : HostQueue → HostQueue) (t : State) : (queuePut i f t).boot = t.boot := rfl
@[simp] theorem queuePut_fuses (i : Nat) (f : HostQueue → HostQueue) (t : State) : (queuePut i f t).fuses = t.fuses := rfl
@[simp] theorem queuePut_doorbells (i : Nat) (f : HostQueue → HostQueue) (t : State) : (queuePut i f t).doorbells = t.doorbells := rfl
@[simp] theorem queuePut_linkOut (i : Nat) (f : HostQueue → HostQueue) (t : State) : (queuePut i f t).linkOut = t.linkOut := rfl
@[simp] theorem queuePut_timer (i : Nat) (f : HostQueue → HostQueue) (t : State) : (queuePut i f t).timer = t.timer := rfl

@[simp] theorem corePut_moves (i : Nat) (f : Core → Core) (t : State) : (corePut i f t).moves = t.moves := rfl
@[simp] theorem corePut_cur (i : Nat) (f : Core → Core) (t : State) : (corePut i f t).cur = t.cur := rfl
@[simp] theorem corePut_free (i : Nat) (f : Core → Core) (t : State) : (corePut i f t).free = t.free := rfl
@[simp] theorem corePut_fresh (i : Nat) (f : Core → Core) (t : State) : (corePut i f t).fresh = t.fresh := rfl
@[simp] theorem corePut_mem (i : Nat) (f : Core → Core) (t : State) : (corePut i f t).mem = t.mem := rfl
@[simp] theorem corePut_home (i : Nat) (f : Core → Core) (t : State) : (corePut i f t).home = t.home := rfl
@[simp] theorem corePut_groups (i : Nat) (f : Core → Core) (t : State) : (corePut i f t).groups = t.groups := rfl
@[simp] theorem corePut_teams (i : Nat) (f : Core → Core) (t : State) : (corePut i f t).teams = t.teams := rfl
@[simp] theorem corePut_grids (i : Nat) (f : Core → Core) (t : State) : (corePut i f t).grids = t.grids := rfl
@[simp] theorem corePut_launches (i : Nat) (f : Core → Core) (t : State) : (corePut i f t).launches = t.launches := rfl
@[simp] theorem corePut_cores (i : Nat) (f : Core → Core) (t : State) : (corePut i f t).cores = SMap.put t.cores i (f (t.core i)) := rfl
@[simp] theorem corePut_clusters (i : Nat) (f : Core → Core) (t : State) : (corePut i f t).clusters = t.clusters := rfl
@[simp] theorem corePut_strings (i : Nat) (f : Core → Core) (t : State) : (corePut i f t).strings = t.strings := rfl
@[simp] theorem corePut_tables (i : Nat) (f : Core → Core) (t : State) : (corePut i f t).tables = t.tables := rfl
@[simp] theorem corePut_colls (i : Nat) (f : Core → Core) (t : State) : (corePut i f t).colls = t.colls := rfl
@[simp] theorem corePut_queues (i : Nat) (f : Core → Core) (t : State) : (corePut i f t).queues = t.queues := rfl
@[simp] theorem corePut_ctxs (i : Nat) (f : Core → Core) (t : State) : (corePut i f t).ctxs = t.ctxs := rfl
@[simp] theorem corePut_fns (i : Nat) (f : Core → Core) (t : State) : (corePut i f t).fns = t.fns := rfl
@[simp] theorem corePut_dev (i : Nat) (f : Core → Core) (t : State) : (corePut i f t).dev = t.dev := rfl
@[simp] theorem corePut_boot (i : Nat) (f : Core → Core) (t : State) : (corePut i f t).boot = t.boot := rfl
@[simp] theorem corePut_fuses (i : Nat) (f : Core → Core) (t : State) : (corePut i f t).fuses = t.fuses := rfl
@[simp] theorem corePut_doorbells (i : Nat) (f : Core → Core) (t : State) : (corePut i f t).doorbells = t.doorbells := rfl
@[simp] theorem corePut_linkOut (i : Nat) (f : Core → Core) (t : State) : (corePut i f t).linkOut = t.linkOut := rfl
@[simp] theorem corePut_timer (i : Nat) (f : Core → Core) (t : State) : (corePut i f t).timer = t.timer := rfl

@[simp] theorem clusterPut_moves (i : Nat) (f : Cluster → Cluster) (t : State) : (clusterPut i f t).moves = t.moves := rfl
@[simp] theorem clusterPut_cur (i : Nat) (f : Cluster → Cluster) (t : State) : (clusterPut i f t).cur = t.cur := rfl
@[simp] theorem clusterPut_free (i : Nat) (f : Cluster → Cluster) (t : State) : (clusterPut i f t).free = t.free := rfl
@[simp] theorem clusterPut_fresh (i : Nat) (f : Cluster → Cluster) (t : State) : (clusterPut i f t).fresh = t.fresh := rfl
@[simp] theorem clusterPut_mem (i : Nat) (f : Cluster → Cluster) (t : State) : (clusterPut i f t).mem = t.mem := rfl
@[simp] theorem clusterPut_home (i : Nat) (f : Cluster → Cluster) (t : State) : (clusterPut i f t).home = t.home := rfl
@[simp] theorem clusterPut_groups (i : Nat) (f : Cluster → Cluster) (t : State) : (clusterPut i f t).groups = t.groups := rfl
@[simp] theorem clusterPut_teams (i : Nat) (f : Cluster → Cluster) (t : State) : (clusterPut i f t).teams = t.teams := rfl
@[simp] theorem clusterPut_grids (i : Nat) (f : Cluster → Cluster) (t : State) : (clusterPut i f t).grids = t.grids := rfl
@[simp] theorem clusterPut_launches (i : Nat) (f : Cluster → Cluster) (t : State) : (clusterPut i f t).launches = t.launches := rfl
@[simp] theorem clusterPut_cores (i : Nat) (f : Cluster → Cluster) (t : State) : (clusterPut i f t).cores = t.cores := rfl
@[simp] theorem clusterPut_clusters (i : Nat) (f : Cluster → Cluster) (t : State) : (clusterPut i f t).clusters = SMap.put t.clusters i (f (t.cluster i)) := rfl
@[simp] theorem clusterPut_strings (i : Nat) (f : Cluster → Cluster) (t : State) : (clusterPut i f t).strings = t.strings := rfl
@[simp] theorem clusterPut_tables (i : Nat) (f : Cluster → Cluster) (t : State) : (clusterPut i f t).tables = t.tables := rfl
@[simp] theorem clusterPut_colls (i : Nat) (f : Cluster → Cluster) (t : State) : (clusterPut i f t).colls = t.colls := rfl
@[simp] theorem clusterPut_queues (i : Nat) (f : Cluster → Cluster) (t : State) : (clusterPut i f t).queues = t.queues := rfl
@[simp] theorem clusterPut_ctxs (i : Nat) (f : Cluster → Cluster) (t : State) : (clusterPut i f t).ctxs = t.ctxs := rfl
@[simp] theorem clusterPut_fns (i : Nat) (f : Cluster → Cluster) (t : State) : (clusterPut i f t).fns = t.fns := rfl
@[simp] theorem clusterPut_dev (i : Nat) (f : Cluster → Cluster) (t : State) : (clusterPut i f t).dev = t.dev := rfl
@[simp] theorem clusterPut_boot (i : Nat) (f : Cluster → Cluster) (t : State) : (clusterPut i f t).boot = t.boot := rfl
@[simp] theorem clusterPut_fuses (i : Nat) (f : Cluster → Cluster) (t : State) : (clusterPut i f t).fuses = t.fuses := rfl
@[simp] theorem clusterPut_doorbells (i : Nat) (f : Cluster → Cluster) (t : State) : (clusterPut i f t).doorbells = t.doorbells := rfl
@[simp] theorem clusterPut_linkOut (i : Nat) (f : Cluster → Cluster) (t : State) : (clusterPut i f t).linkOut = t.linkOut := rfl
@[simp] theorem clusterPut_timer (i : Nat) (f : Cluster → Cluster) (t : State) : (clusterPut i f t).timer = t.timer := rfl

@[simp] theorem strPut_moves (i : Nat) (f : Str → Str) (t : State) : (strPut i f t).moves = t.moves := rfl
@[simp] theorem strPut_cur (i : Nat) (f : Str → Str) (t : State) : (strPut i f t).cur = t.cur := rfl
@[simp] theorem strPut_free (i : Nat) (f : Str → Str) (t : State) : (strPut i f t).free = t.free := rfl
@[simp] theorem strPut_fresh (i : Nat) (f : Str → Str) (t : State) : (strPut i f t).fresh = t.fresh := rfl
@[simp] theorem strPut_mem (i : Nat) (f : Str → Str) (t : State) : (strPut i f t).mem = t.mem := rfl
@[simp] theorem strPut_home (i : Nat) (f : Str → Str) (t : State) : (strPut i f t).home = t.home := rfl
@[simp] theorem strPut_groups (i : Nat) (f : Str → Str) (t : State) : (strPut i f t).groups = t.groups := rfl
@[simp] theorem strPut_teams (i : Nat) (f : Str → Str) (t : State) : (strPut i f t).teams = t.teams := rfl
@[simp] theorem strPut_grids (i : Nat) (f : Str → Str) (t : State) : (strPut i f t).grids = t.grids := rfl
@[simp] theorem strPut_launches (i : Nat) (f : Str → Str) (t : State) : (strPut i f t).launches = t.launches := rfl
@[simp] theorem strPut_cores (i : Nat) (f : Str → Str) (t : State) : (strPut i f t).cores = t.cores := rfl
@[simp] theorem strPut_clusters (i : Nat) (f : Str → Str) (t : State) : (strPut i f t).clusters = t.clusters := rfl
@[simp] theorem strPut_strings (i : Nat) (f : Str → Str) (t : State) : (strPut i f t).strings = SMap.put t.strings i (f (t.str i)) := rfl
@[simp] theorem strPut_tables (i : Nat) (f : Str → Str) (t : State) : (strPut i f t).tables = t.tables := rfl
@[simp] theorem strPut_colls (i : Nat) (f : Str → Str) (t : State) : (strPut i f t).colls = t.colls := rfl
@[simp] theorem strPut_queues (i : Nat) (f : Str → Str) (t : State) : (strPut i f t).queues = t.queues := rfl
@[simp] theorem strPut_ctxs (i : Nat) (f : Str → Str) (t : State) : (strPut i f t).ctxs = t.ctxs := rfl
@[simp] theorem strPut_fns (i : Nat) (f : Str → Str) (t : State) : (strPut i f t).fns = t.fns := rfl
@[simp] theorem strPut_dev (i : Nat) (f : Str → Str) (t : State) : (strPut i f t).dev = t.dev := rfl
@[simp] theorem strPut_boot (i : Nat) (f : Str → Str) (t : State) : (strPut i f t).boot = t.boot := rfl
@[simp] theorem strPut_fuses (i : Nat) (f : Str → Str) (t : State) : (strPut i f t).fuses = t.fuses := rfl
@[simp] theorem strPut_doorbells (i : Nat) (f : Str → Str) (t : State) : (strPut i f t).doorbells = t.doorbells := rfl
@[simp] theorem strPut_linkOut (i : Nat) (f : Str → Str) (t : State) : (strPut i f t).linkOut = t.linkOut := rfl
@[simp] theorem strPut_timer (i : Nat) (f : Str → Str) (t : State) : (strPut i f t).timer = t.timer := rfl

@[simp] theorem tablePut_moves (i : Nat) (f : PrTable → PrTable) (t : State) : (tablePut i f t).moves = t.moves := rfl
@[simp] theorem tablePut_cur (i : Nat) (f : PrTable → PrTable) (t : State) : (tablePut i f t).cur = t.cur := rfl
@[simp] theorem tablePut_free (i : Nat) (f : PrTable → PrTable) (t : State) : (tablePut i f t).free = t.free := rfl
@[simp] theorem tablePut_fresh (i : Nat) (f : PrTable → PrTable) (t : State) : (tablePut i f t).fresh = t.fresh := rfl
@[simp] theorem tablePut_mem (i : Nat) (f : PrTable → PrTable) (t : State) : (tablePut i f t).mem = t.mem := rfl
@[simp] theorem tablePut_home (i : Nat) (f : PrTable → PrTable) (t : State) : (tablePut i f t).home = t.home := rfl
@[simp] theorem tablePut_groups (i : Nat) (f : PrTable → PrTable) (t : State) : (tablePut i f t).groups = t.groups := rfl
@[simp] theorem tablePut_teams (i : Nat) (f : PrTable → PrTable) (t : State) : (tablePut i f t).teams = t.teams := rfl
@[simp] theorem tablePut_grids (i : Nat) (f : PrTable → PrTable) (t : State) : (tablePut i f t).grids = t.grids := rfl
@[simp] theorem tablePut_launches (i : Nat) (f : PrTable → PrTable) (t : State) : (tablePut i f t).launches = t.launches := rfl
@[simp] theorem tablePut_cores (i : Nat) (f : PrTable → PrTable) (t : State) : (tablePut i f t).cores = t.cores := rfl
@[simp] theorem tablePut_clusters (i : Nat) (f : PrTable → PrTable) (t : State) : (tablePut i f t).clusters = t.clusters := rfl
@[simp] theorem tablePut_strings (i : Nat) (f : PrTable → PrTable) (t : State) : (tablePut i f t).strings = t.strings := rfl
@[simp] theorem tablePut_tables (i : Nat) (f : PrTable → PrTable) (t : State) : (tablePut i f t).tables = SMap.put t.tables i (f (t.table i)) := rfl
@[simp] theorem tablePut_colls (i : Nat) (f : PrTable → PrTable) (t : State) : (tablePut i f t).colls = t.colls := rfl
@[simp] theorem tablePut_queues (i : Nat) (f : PrTable → PrTable) (t : State) : (tablePut i f t).queues = t.queues := rfl
@[simp] theorem tablePut_ctxs (i : Nat) (f : PrTable → PrTable) (t : State) : (tablePut i f t).ctxs = t.ctxs := rfl
@[simp] theorem tablePut_fns (i : Nat) (f : PrTable → PrTable) (t : State) : (tablePut i f t).fns = t.fns := rfl
@[simp] theorem tablePut_dev (i : Nat) (f : PrTable → PrTable) (t : State) : (tablePut i f t).dev = t.dev := rfl
@[simp] theorem tablePut_boot (i : Nat) (f : PrTable → PrTable) (t : State) : (tablePut i f t).boot = t.boot := rfl
@[simp] theorem tablePut_fuses (i : Nat) (f : PrTable → PrTable) (t : State) : (tablePut i f t).fuses = t.fuses := rfl
@[simp] theorem tablePut_doorbells (i : Nat) (f : PrTable → PrTable) (t : State) : (tablePut i f t).doorbells = t.doorbells := rfl
@[simp] theorem tablePut_linkOut (i : Nat) (f : PrTable → PrTable) (t : State) : (tablePut i f t).linkOut = t.linkOut := rfl
@[simp] theorem tablePut_timer (i : Nat) (f : PrTable → PrTable) (t : State) : (tablePut i f t).timer = t.timer := rfl

@[simp] theorem ctxPut_moves (i : Nat) (f : CtxRegs → CtxRegs) (t : State) : (ctxPut i f t).moves = t.moves := rfl
@[simp] theorem ctxPut_cur (i : Nat) (f : CtxRegs → CtxRegs) (t : State) : (ctxPut i f t).cur = t.cur := rfl
@[simp] theorem ctxPut_free (i : Nat) (f : CtxRegs → CtxRegs) (t : State) : (ctxPut i f t).free = t.free := rfl
@[simp] theorem ctxPut_fresh (i : Nat) (f : CtxRegs → CtxRegs) (t : State) : (ctxPut i f t).fresh = t.fresh := rfl
@[simp] theorem ctxPut_mem (i : Nat) (f : CtxRegs → CtxRegs) (t : State) : (ctxPut i f t).mem = t.mem := rfl
@[simp] theorem ctxPut_home (i : Nat) (f : CtxRegs → CtxRegs) (t : State) : (ctxPut i f t).home = t.home := rfl
@[simp] theorem ctxPut_groups (i : Nat) (f : CtxRegs → CtxRegs) (t : State) : (ctxPut i f t).groups = t.groups := rfl
@[simp] theorem ctxPut_teams (i : Nat) (f : CtxRegs → CtxRegs) (t : State) : (ctxPut i f t).teams = t.teams := rfl
@[simp] theorem ctxPut_grids (i : Nat) (f : CtxRegs → CtxRegs) (t : State) : (ctxPut i f t).grids = t.grids := rfl
@[simp] theorem ctxPut_launches (i : Nat) (f : CtxRegs → CtxRegs) (t : State) : (ctxPut i f t).launches = t.launches := rfl
@[simp] theorem ctxPut_cores (i : Nat) (f : CtxRegs → CtxRegs) (t : State) : (ctxPut i f t).cores = t.cores := rfl
@[simp] theorem ctxPut_clusters (i : Nat) (f : CtxRegs → CtxRegs) (t : State) : (ctxPut i f t).clusters = t.clusters := rfl
@[simp] theorem ctxPut_strings (i : Nat) (f : CtxRegs → CtxRegs) (t : State) : (ctxPut i f t).strings = t.strings := rfl
@[simp] theorem ctxPut_tables (i : Nat) (f : CtxRegs → CtxRegs) (t : State) : (ctxPut i f t).tables = t.tables := rfl
@[simp] theorem ctxPut_colls (i : Nat) (f : CtxRegs → CtxRegs) (t : State) : (ctxPut i f t).colls = t.colls := rfl
@[simp] theorem ctxPut_queues (i : Nat) (f : CtxRegs → CtxRegs) (t : State) : (ctxPut i f t).queues = t.queues := rfl
@[simp] theorem ctxPut_ctxs (i : Nat) (f : CtxRegs → CtxRegs) (t : State) : (ctxPut i f t).ctxs = SMap.put t.ctxs i (f (t.ctx i)) := rfl
@[simp] theorem ctxPut_fns (i : Nat) (f : CtxRegs → CtxRegs) (t : State) : (ctxPut i f t).fns = t.fns := rfl
@[simp] theorem ctxPut_dev (i : Nat) (f : CtxRegs → CtxRegs) (t : State) : (ctxPut i f t).dev = t.dev := rfl
@[simp] theorem ctxPut_boot (i : Nat) (f : CtxRegs → CtxRegs) (t : State) : (ctxPut i f t).boot = t.boot := rfl
@[simp] theorem ctxPut_fuses (i : Nat) (f : CtxRegs → CtxRegs) (t : State) : (ctxPut i f t).fuses = t.fuses := rfl
@[simp] theorem ctxPut_doorbells (i : Nat) (f : CtxRegs → CtxRegs) (t : State) : (ctxPut i f t).doorbells = t.doorbells := rfl
@[simp] theorem ctxPut_linkOut (i : Nat) (f : CtxRegs → CtxRegs) (t : State) : (ctxPut i f t).linkOut = t.linkOut := rfl
@[simp] theorem ctxPut_timer (i : Nat) (f : CtxRegs → CtxRegs) (t : State) : (ctxPut i f t).timer = t.timer := rfl

@[simp] theorem fnPut_moves (i : Nat) (f : Fn → Fn) (t : State) : (fnPut i f t).moves = t.moves := rfl
@[simp] theorem fnPut_cur (i : Nat) (f : Fn → Fn) (t : State) : (fnPut i f t).cur = t.cur := rfl
@[simp] theorem fnPut_free (i : Nat) (f : Fn → Fn) (t : State) : (fnPut i f t).free = t.free := rfl
@[simp] theorem fnPut_fresh (i : Nat) (f : Fn → Fn) (t : State) : (fnPut i f t).fresh = t.fresh := rfl
@[simp] theorem fnPut_mem (i : Nat) (f : Fn → Fn) (t : State) : (fnPut i f t).mem = t.mem := rfl
@[simp] theorem fnPut_home (i : Nat) (f : Fn → Fn) (t : State) : (fnPut i f t).home = t.home := rfl
@[simp] theorem fnPut_groups (i : Nat) (f : Fn → Fn) (t : State) : (fnPut i f t).groups = t.groups := rfl
@[simp] theorem fnPut_teams (i : Nat) (f : Fn → Fn) (t : State) : (fnPut i f t).teams = t.teams := rfl
@[simp] theorem fnPut_grids (i : Nat) (f : Fn → Fn) (t : State) : (fnPut i f t).grids = t.grids := rfl
@[simp] theorem fnPut_launches (i : Nat) (f : Fn → Fn) (t : State) : (fnPut i f t).launches = t.launches := rfl
@[simp] theorem fnPut_cores (i : Nat) (f : Fn → Fn) (t : State) : (fnPut i f t).cores = t.cores := rfl
@[simp] theorem fnPut_clusters (i : Nat) (f : Fn → Fn) (t : State) : (fnPut i f t).clusters = t.clusters := rfl
@[simp] theorem fnPut_strings (i : Nat) (f : Fn → Fn) (t : State) : (fnPut i f t).strings = t.strings := rfl
@[simp] theorem fnPut_tables (i : Nat) (f : Fn → Fn) (t : State) : (fnPut i f t).tables = t.tables := rfl
@[simp] theorem fnPut_colls (i : Nat) (f : Fn → Fn) (t : State) : (fnPut i f t).colls = t.colls := rfl
@[simp] theorem fnPut_queues (i : Nat) (f : Fn → Fn) (t : State) : (fnPut i f t).queues = t.queues := rfl
@[simp] theorem fnPut_ctxs (i : Nat) (f : Fn → Fn) (t : State) : (fnPut i f t).ctxs = t.ctxs := rfl
@[simp] theorem fnPut_fns (i : Nat) (f : Fn → Fn) (t : State) : (fnPut i f t).fns = SMap.put t.fns i (f (t.fn i)) := rfl
@[simp] theorem fnPut_dev (i : Nat) (f : Fn → Fn) (t : State) : (fnPut i f t).dev = t.dev := rfl
@[simp] theorem fnPut_boot (i : Nat) (f : Fn → Fn) (t : State) : (fnPut i f t).boot = t.boot := rfl
@[simp] theorem fnPut_fuses (i : Nat) (f : Fn → Fn) (t : State) : (fnPut i f t).fuses = t.fuses := rfl
@[simp] theorem fnPut_doorbells (i : Nat) (f : Fn → Fn) (t : State) : (fnPut i f t).doorbells = t.doorbells := rfl
@[simp] theorem fnPut_linkOut (i : Nat) (f : Fn → Fn) (t : State) : (fnPut i f t).linkOut = t.linkOut := rfl
@[simp] theorem fnPut_timer (i : Nat) (f : Fn → Fn) (t : State) : (fnPut i f t).timer = t.timer := rfl

@[simp] theorem devPut_moves (f : Device → Device) (t : State) : (devPut f t).moves = t.moves := rfl
@[simp] theorem devPut_cur (f : Device → Device) (t : State) : (devPut f t).cur = t.cur := rfl
@[simp] theorem devPut_free (f : Device → Device) (t : State) : (devPut f t).free = t.free := rfl
@[simp] theorem devPut_fresh (f : Device → Device) (t : State) : (devPut f t).fresh = t.fresh := rfl
@[simp] theorem devPut_mem (f : Device → Device) (t : State) : (devPut f t).mem = t.mem := rfl
@[simp] theorem devPut_home (f : Device → Device) (t : State) : (devPut f t).home = t.home := rfl
@[simp] theorem devPut_groups (f : Device → Device) (t : State) : (devPut f t).groups = t.groups := rfl
@[simp] theorem devPut_teams (f : Device → Device) (t : State) : (devPut f t).teams = t.teams := rfl
@[simp] theorem devPut_grids (f : Device → Device) (t : State) : (devPut f t).grids = t.grids := rfl
@[simp] theorem devPut_launches (f : Device → Device) (t : State) : (devPut f t).launches = t.launches := rfl
@[simp] theorem devPut_cores (f : Device → Device) (t : State) : (devPut f t).cores = t.cores := rfl
@[simp] theorem devPut_clusters (f : Device → Device) (t : State) : (devPut f t).clusters = t.clusters := rfl
@[simp] theorem devPut_strings (f : Device → Device) (t : State) : (devPut f t).strings = t.strings := rfl
@[simp] theorem devPut_tables (f : Device → Device) (t : State) : (devPut f t).tables = t.tables := rfl
@[simp] theorem devPut_colls (f : Device → Device) (t : State) : (devPut f t).colls = t.colls := rfl
@[simp] theorem devPut_queues (f : Device → Device) (t : State) : (devPut f t).queues = t.queues := rfl
@[simp] theorem devPut_ctxs (f : Device → Device) (t : State) : (devPut f t).ctxs = t.ctxs := rfl
@[simp] theorem devPut_fns (f : Device → Device) (t : State) : (devPut f t).fns = t.fns := rfl
@[simp] theorem devPut_dev (f : Device → Device) (t : State) : (devPut f t).dev = f t.dev := rfl
@[simp] theorem devPut_boot (f : Device → Device) (t : State) : (devPut f t).boot = t.boot := rfl
@[simp] theorem devPut_fuses (f : Device → Device) (t : State) : (devPut f t).fuses = t.fuses := rfl
@[simp] theorem devPut_doorbells (f : Device → Device) (t : State) : (devPut f t).doorbells = t.doorbells := rfl
@[simp] theorem devPut_linkOut (f : Device → Device) (t : State) : (devPut f t).linkOut = t.linkOut := rfl
@[simp] theorem devPut_timer (f : Device → Device) (t : State) : (devPut f t).timer = t.timer := rfl

@[simp] theorem homePut_moves (f : Home → Home) (t : State) : (homePut f t).moves = t.moves := rfl
@[simp] theorem homePut_cur (f : Home → Home) (t : State) : (homePut f t).cur = t.cur := rfl
@[simp] theorem homePut_free (f : Home → Home) (t : State) : (homePut f t).free = t.free := rfl
@[simp] theorem homePut_fresh (f : Home → Home) (t : State) : (homePut f t).fresh = t.fresh := rfl
@[simp] theorem homePut_mem (f : Home → Home) (t : State) : (homePut f t).mem = t.mem := rfl
@[simp] theorem homePut_home (f : Home → Home) (t : State) : (homePut f t).home = f t.home := rfl
@[simp] theorem homePut_groups (f : Home → Home) (t : State) : (homePut f t).groups = t.groups := rfl
@[simp] theorem homePut_teams (f : Home → Home) (t : State) : (homePut f t).teams = t.teams := rfl
@[simp] theorem homePut_grids (f : Home → Home) (t : State) : (homePut f t).grids = t.grids := rfl
@[simp] theorem homePut_launches (f : Home → Home) (t : State) : (homePut f t).launches = t.launches := rfl
@[simp] theorem homePut_cores (f : Home → Home) (t : State) : (homePut f t).cores = t.cores := rfl
@[simp] theorem homePut_clusters (f : Home → Home) (t : State) : (homePut f t).clusters = t.clusters := rfl
@[simp] theorem homePut_strings (f : Home → Home) (t : State) : (homePut f t).strings = t.strings := rfl
@[simp] theorem homePut_tables (f : Home → Home) (t : State) : (homePut f t).tables = t.tables := rfl
@[simp] theorem homePut_colls (f : Home → Home) (t : State) : (homePut f t).colls = t.colls := rfl
@[simp] theorem homePut_queues (f : Home → Home) (t : State) : (homePut f t).queues = t.queues := rfl
@[simp] theorem homePut_ctxs (f : Home → Home) (t : State) : (homePut f t).ctxs = t.ctxs := rfl
@[simp] theorem homePut_fns (f : Home → Home) (t : State) : (homePut f t).fns = t.fns := rfl
@[simp] theorem homePut_dev (f : Home → Home) (t : State) : (homePut f t).dev = t.dev := rfl
@[simp] theorem homePut_boot (f : Home → Home) (t : State) : (homePut f t).boot = t.boot := rfl
@[simp] theorem homePut_fuses (f : Home → Home) (t : State) : (homePut f t).fuses = t.fuses := rfl
@[simp] theorem homePut_doorbells (f : Home → Home) (t : State) : (homePut f t).doorbells = t.doorbells := rfl
@[simp] theorem homePut_linkOut (f : Home → Home) (t : State) : (homePut f t).linkOut = t.linkOut := rfl
@[simp] theorem homePut_timer (f : Home → Home) (t : State) : (homePut f t).timer = t.timer := rfl

@[simp] theorem bootPut_moves (f : Boot → Boot) (t : State) : (bootPut f t).moves = t.moves := rfl
@[simp] theorem bootPut_cur (f : Boot → Boot) (t : State) : (bootPut f t).cur = t.cur := rfl
@[simp] theorem bootPut_free (f : Boot → Boot) (t : State) : (bootPut f t).free = t.free := rfl
@[simp] theorem bootPut_fresh (f : Boot → Boot) (t : State) : (bootPut f t).fresh = t.fresh := rfl
@[simp] theorem bootPut_mem (f : Boot → Boot) (t : State) : (bootPut f t).mem = t.mem := rfl
@[simp] theorem bootPut_home (f : Boot → Boot) (t : State) : (bootPut f t).home = t.home := rfl
@[simp] theorem bootPut_groups (f : Boot → Boot) (t : State) : (bootPut f t).groups = t.groups := rfl
@[simp] theorem bootPut_teams (f : Boot → Boot) (t : State) : (bootPut f t).teams = t.teams := rfl
@[simp] theorem bootPut_grids (f : Boot → Boot) (t : State) : (bootPut f t).grids = t.grids := rfl
@[simp] theorem bootPut_launches (f : Boot → Boot) (t : State) : (bootPut f t).launches = t.launches := rfl
@[simp] theorem bootPut_cores (f : Boot → Boot) (t : State) : (bootPut f t).cores = t.cores := rfl
@[simp] theorem bootPut_clusters (f : Boot → Boot) (t : State) : (bootPut f t).clusters = t.clusters := rfl
@[simp] theorem bootPut_strings (f : Boot → Boot) (t : State) : (bootPut f t).strings = t.strings := rfl
@[simp] theorem bootPut_tables (f : Boot → Boot) (t : State) : (bootPut f t).tables = t.tables := rfl
@[simp] theorem bootPut_colls (f : Boot → Boot) (t : State) : (bootPut f t).colls = t.colls := rfl
@[simp] theorem bootPut_queues (f : Boot → Boot) (t : State) : (bootPut f t).queues = t.queues := rfl
@[simp] theorem bootPut_ctxs (f : Boot → Boot) (t : State) : (bootPut f t).ctxs = t.ctxs := rfl
@[simp] theorem bootPut_fns (f : Boot → Boot) (t : State) : (bootPut f t).fns = t.fns := rfl
@[simp] theorem bootPut_dev (f : Boot → Boot) (t : State) : (bootPut f t).dev = t.dev := rfl
@[simp] theorem bootPut_boot (f : Boot → Boot) (t : State) : (bootPut f t).boot = f t.boot := rfl
@[simp] theorem bootPut_fuses (f : Boot → Boot) (t : State) : (bootPut f t).fuses = t.fuses := rfl
@[simp] theorem bootPut_doorbells (f : Boot → Boot) (t : State) : (bootPut f t).doorbells = t.doorbells := rfl
@[simp] theorem bootPut_linkOut (f : Boot → Boot) (t : State) : (bootPut f t).linkOut = t.linkOut := rfl
@[simp] theorem bootPut_timer (f : Boot → Boot) (t : State) : (bootPut f t).timer = t.timer := rfl

@[simp] theorem Group.setS_pc (gr : Group) (n : Nat) (x : W64) : (gr.setS n x).pc = gr.pc := rfl
@[simp] theorem Group.setS_slot (gr : Group) (n : Nat) (x : W64) : (gr.setS n x).slot = gr.slot := rfl
@[simp] theorem Group.setS_exm (gr : Group) (n : Nat) (x : W64) : (gr.setS n x).exm = gr.exm := rfl
@[simp] theorem Group.setS_base (gr : Group) (n : Nat) (x : W64) : (gr.setS n x).base = gr.base := rfl
@[simp] theorem Group.setS_stack (gr : Group) (n : Nat) (x : W64) : (gr.setS n x).stack = gr.stack := rfl
@[simp] theorem Group.setS_hints (gr : Group) (n : Nat) (x : W64) : (gr.setS n x).hints = gr.hints := rfl
@[simp] theorem Group.setS_stallUntil (gr : Group) (n : Nat) (x : W64) : (gr.setS n x).stallUntil = gr.stallUntil := rfl
@[simp] theorem Group.setS_yielded (gr : Group) (n : Nat) (x : W64) : (gr.setS n x).yielded = gr.yielded := rfl
@[simp] theorem Group.setS_exited (gr : Group) (n : Nat) (x : W64) : (gr.setS n x).exited = gr.exited := rfl
@[simp] theorem Group.setS_trap (gr : Group) (n : Nat) (x : W64) : (gr.setS n x).trap = gr.trap := rfl
@[simp] theorem Group.setS_hold (gr : Group) (n : Nat) (x : W64) : (gr.setS n x).hold = gr.hold := rfl
@[simp] theorem Group.setS_parked (gr : Group) (n : Nat) (x : W64) : (gr.setS n x).parked = gr.parked := rfl
@[simp] theorem Group.setS_sq (gr : Group) (n : Nat) (x : W64) : (gr.setS n x).sq = gr.sq := rfl
@[simp] theorem Group.setS_ls (gr : Group) (n : Nat) (x : W64) : (gr.setS n x).ls = gr.ls := rfl
@[simp] theorem Group.setS_sfu (gr : Group) (n : Nat) (x : W64) : (gr.setS n x).sfu = gr.sfu := rfl
@[simp] theorem Group.setS_nextId (gr : Group) (n : Nat) (x : W64) : (gr.setS n x).nextId = gr.nextId := rfl
@[simp] theorem Group.setS_floor (gr : Group) (n : Nat) (x : W64) : (gr.setS n x).floor = gr.floor := rfl
@[simp] theorem Group.setS_mu (gr : Group) (n : Nat) (x : W64) : (gr.setS n x).mu = gr.mu := rfl
@[simp] theorem Group.setS_copy (gr : Group) (n : Nat) (x : W64) : (gr.setS n x).copy = gr.copy := rfl
@[simp] theorem Group.setS_mat (gr : Group) (n : Nat) (x : W64) : (gr.setS n x).mat = gr.mat := rfl
@[simp] theorem Group.setS_coll (gr : Group) (n : Nat) (x : W64) : (gr.setS n x).coll = gr.coll := rfl
@[simp] theorem Group.setS_outbox (gr : Group) (n : Nat) (x : W64) : (gr.setS n x).outbox = gr.outbox := rfl
@[simp] theorem Group.setS_cres (gr : Group) (n : Nat) (x : W64) : (gr.setS n x).cres = gr.cres := rfl
@[simp] theorem Group.setS_journalCount (gr : Group) (n : Nat) (x : W64) : (gr.setS n x).journalCount = gr.journalCount := rfl
@[simp] theorem Group.setS_denied (gr : Group) (n : Nat) (x : W64) : (gr.setS n x).denied = gr.denied := rfl
@[simp] theorem Group.setS_preemptDue (gr : Group) (n : Nat) (x : W64) : (gr.setS n x).preemptDue = gr.preemptDue := rfl
@[simp] theorem Group.setS_heldAt (gr : Group) (n : Nat) (x : W64) : (gr.setS n x).heldAt = gr.heldAt := rfl
@[simp] theorem Group.setS_born (gr : Group) (n : Nat) (x : W64) : (gr.setS n x).born = gr.born := rfl
@[simp] theorem Group.setS_acqs (gr : Group) (n : Nat) (x : W64) : (gr.setS n x).acqs = gr.acqs := rfl
@[simp] theorem Group.setS_seen (gr : Group) (n : Nat) (x : W64) : (gr.setS n x).seen = gr.seen := rfl
@[simp] theorem Group.setS_fences (gr : Group) (n : Nat) (x : W64) : (gr.setS n x).fences = gr.fences := rfl
@[simp] theorem Group.setS_left (gr : Group) (n : Nat) (x : W64) : (gr.setS n x).left = gr.left := rfl
@[simp] theorem Group.setS_sysWait (gr : Group) (n : Nat) (x : W64) : (gr.setS n x).sysWait = gr.sysWait := rfl

@[simp] theorem Group.setK_pc (gr : Group) (n : Nat) (x : W32) : (gr.setK n x).pc = gr.pc := rfl
@[simp] theorem Group.setK_slot (gr : Group) (n : Nat) (x : W32) : (gr.setK n x).slot = gr.slot := rfl
@[simp] theorem Group.setK_exm (gr : Group) (n : Nat) (x : W32) : (gr.setK n x).exm = gr.exm := rfl
@[simp] theorem Group.setK_base (gr : Group) (n : Nat) (x : W32) : (gr.setK n x).base = gr.base := rfl
@[simp] theorem Group.setK_stack (gr : Group) (n : Nat) (x : W32) : (gr.setK n x).stack = gr.stack := rfl
@[simp] theorem Group.setK_hints (gr : Group) (n : Nat) (x : W32) : (gr.setK n x).hints = gr.hints := rfl
@[simp] theorem Group.setK_stallUntil (gr : Group) (n : Nat) (x : W32) : (gr.setK n x).stallUntil = gr.stallUntil := rfl
@[simp] theorem Group.setK_yielded (gr : Group) (n : Nat) (x : W32) : (gr.setK n x).yielded = gr.yielded := rfl
@[simp] theorem Group.setK_exited (gr : Group) (n : Nat) (x : W32) : (gr.setK n x).exited = gr.exited := rfl
@[simp] theorem Group.setK_trap (gr : Group) (n : Nat) (x : W32) : (gr.setK n x).trap = gr.trap := rfl
@[simp] theorem Group.setK_hold (gr : Group) (n : Nat) (x : W32) : (gr.setK n x).hold = gr.hold := rfl
@[simp] theorem Group.setK_parked (gr : Group) (n : Nat) (x : W32) : (gr.setK n x).parked = gr.parked := rfl
@[simp] theorem Group.setK_sq (gr : Group) (n : Nat) (x : W32) : (gr.setK n x).sq = gr.sq := rfl
@[simp] theorem Group.setK_ls (gr : Group) (n : Nat) (x : W32) : (gr.setK n x).ls = gr.ls := rfl
@[simp] theorem Group.setK_sfu (gr : Group) (n : Nat) (x : W32) : (gr.setK n x).sfu = gr.sfu := rfl
@[simp] theorem Group.setK_nextId (gr : Group) (n : Nat) (x : W32) : (gr.setK n x).nextId = gr.nextId := rfl
@[simp] theorem Group.setK_floor (gr : Group) (n : Nat) (x : W32) : (gr.setK n x).floor = gr.floor := rfl
@[simp] theorem Group.setK_mu (gr : Group) (n : Nat) (x : W32) : (gr.setK n x).mu = gr.mu := rfl
@[simp] theorem Group.setK_copy (gr : Group) (n : Nat) (x : W32) : (gr.setK n x).copy = gr.copy := rfl
@[simp] theorem Group.setK_mat (gr : Group) (n : Nat) (x : W32) : (gr.setK n x).mat = gr.mat := rfl
@[simp] theorem Group.setK_coll (gr : Group) (n : Nat) (x : W32) : (gr.setK n x).coll = gr.coll := rfl
@[simp] theorem Group.setK_outbox (gr : Group) (n : Nat) (x : W32) : (gr.setK n x).outbox = gr.outbox := rfl
@[simp] theorem Group.setK_cres (gr : Group) (n : Nat) (x : W32) : (gr.setK n x).cres = gr.cres := rfl
@[simp] theorem Group.setK_journalCount (gr : Group) (n : Nat) (x : W32) : (gr.setK n x).journalCount = gr.journalCount := rfl
@[simp] theorem Group.setK_denied (gr : Group) (n : Nat) (x : W32) : (gr.setK n x).denied = gr.denied := rfl
@[simp] theorem Group.setK_preemptDue (gr : Group) (n : Nat) (x : W32) : (gr.setK n x).preemptDue = gr.preemptDue := rfl
@[simp] theorem Group.setK_heldAt (gr : Group) (n : Nat) (x : W32) : (gr.setK n x).heldAt = gr.heldAt := rfl
@[simp] theorem Group.setK_born (gr : Group) (n : Nat) (x : W32) : (gr.setK n x).born = gr.born := rfl
@[simp] theorem Group.setK_acqs (gr : Group) (n : Nat) (x : W32) : (gr.setK n x).acqs = gr.acqs := rfl
@[simp] theorem Group.setK_seen (gr : Group) (n : Nat) (x : W32) : (gr.setK n x).seen = gr.seen := rfl
@[simp] theorem Group.setK_fences (gr : Group) (n : Nat) (x : W32) : (gr.setK n x).fences = gr.fences := rfl
@[simp] theorem Group.setK_left (gr : Group) (n : Nat) (x : W32) : (gr.setK n x).left = gr.left := rfl
@[simp] theorem Group.setK_sysWait (gr : Group) (n : Nat) (x : W32) : (gr.setK n x).sysWait = gr.sysWait := rfl

@[simp] theorem Group.setV_pc (gr : Group) (n l : Nat) (x : W32) : (gr.setV n l x).pc = gr.pc := rfl
@[simp] theorem Group.setV_slot (gr : Group) (n l : Nat) (x : W32) : (gr.setV n l x).slot = gr.slot := rfl
@[simp] theorem Group.setV_exm (gr : Group) (n l : Nat) (x : W32) : (gr.setV n l x).exm = gr.exm := rfl
@[simp] theorem Group.setV_base (gr : Group) (n l : Nat) (x : W32) : (gr.setV n l x).base = gr.base := rfl
@[simp] theorem Group.setV_stack (gr : Group) (n l : Nat) (x : W32) : (gr.setV n l x).stack = gr.stack := rfl
@[simp] theorem Group.setV_hints (gr : Group) (n l : Nat) (x : W32) : (gr.setV n l x).hints = gr.hints := rfl
@[simp] theorem Group.setV_stallUntil (gr : Group) (n l : Nat) (x : W32) : (gr.setV n l x).stallUntil = gr.stallUntil := rfl
@[simp] theorem Group.setV_yielded (gr : Group) (n l : Nat) (x : W32) : (gr.setV n l x).yielded = gr.yielded := rfl
@[simp] theorem Group.setV_exited (gr : Group) (n l : Nat) (x : W32) : (gr.setV n l x).exited = gr.exited := rfl
@[simp] theorem Group.setV_trap (gr : Group) (n l : Nat) (x : W32) : (gr.setV n l x).trap = gr.trap := rfl
@[simp] theorem Group.setV_hold (gr : Group) (n l : Nat) (x : W32) : (gr.setV n l x).hold = gr.hold := rfl
@[simp] theorem Group.setV_parked (gr : Group) (n l : Nat) (x : W32) : (gr.setV n l x).parked = gr.parked := rfl
@[simp] theorem Group.setV_sq (gr : Group) (n l : Nat) (x : W32) : (gr.setV n l x).sq = gr.sq := rfl
@[simp] theorem Group.setV_ls (gr : Group) (n l : Nat) (x : W32) : (gr.setV n l x).ls = gr.ls := rfl
@[simp] theorem Group.setV_sfu (gr : Group) (n l : Nat) (x : W32) : (gr.setV n l x).sfu = gr.sfu := rfl
@[simp] theorem Group.setV_nextId (gr : Group) (n l : Nat) (x : W32) : (gr.setV n l x).nextId = gr.nextId := rfl
@[simp] theorem Group.setV_floor (gr : Group) (n l : Nat) (x : W32) : (gr.setV n l x).floor = gr.floor := rfl
@[simp] theorem Group.setV_mu (gr : Group) (n l : Nat) (x : W32) : (gr.setV n l x).mu = gr.mu := rfl
@[simp] theorem Group.setV_copy (gr : Group) (n l : Nat) (x : W32) : (gr.setV n l x).copy = gr.copy := rfl
@[simp] theorem Group.setV_mat (gr : Group) (n l : Nat) (x : W32) : (gr.setV n l x).mat = gr.mat := rfl
@[simp] theorem Group.setV_coll (gr : Group) (n l : Nat) (x : W32) : (gr.setV n l x).coll = gr.coll := rfl
@[simp] theorem Group.setV_outbox (gr : Group) (n l : Nat) (x : W32) : (gr.setV n l x).outbox = gr.outbox := rfl
@[simp] theorem Group.setV_cres (gr : Group) (n l : Nat) (x : W32) : (gr.setV n l x).cres = gr.cres := rfl
@[simp] theorem Group.setV_journalCount (gr : Group) (n l : Nat) (x : W32) : (gr.setV n l x).journalCount = gr.journalCount := rfl
@[simp] theorem Group.setV_denied (gr : Group) (n l : Nat) (x : W32) : (gr.setV n l x).denied = gr.denied := rfl
@[simp] theorem Group.setV_preemptDue (gr : Group) (n l : Nat) (x : W32) : (gr.setV n l x).preemptDue = gr.preemptDue := rfl
@[simp] theorem Group.setV_heldAt (gr : Group) (n l : Nat) (x : W32) : (gr.setV n l x).heldAt = gr.heldAt := rfl
@[simp] theorem Group.setV_born (gr : Group) (n l : Nat) (x : W32) : (gr.setV n l x).born = gr.born := rfl
@[simp] theorem Group.setV_acqs (gr : Group) (n l : Nat) (x : W32) : (gr.setV n l x).acqs = gr.acqs := rfl
@[simp] theorem Group.setV_seen (gr : Group) (n l : Nat) (x : W32) : (gr.setV n l x).seen = gr.seen := rfl
@[simp] theorem Group.setV_fences (gr : Group) (n l : Nat) (x : W32) : (gr.setV n l x).fences = gr.fences := rfl
@[simp] theorem Group.setV_left (gr : Group) (n l : Nat) (x : W32) : (gr.setV n l x).left = gr.left := rfl
@[simp] theorem Group.setV_sysWait (gr : Group) (n l : Nat) (x : W32) : (gr.setV n l x).sysWait = gr.sysWait := rfl

@[simp] theorem Group.setO_pc (gr : Group) (n l : Nat) (x : W32) : (gr.setO n l x).pc = gr.pc := rfl
@[simp] theorem Group.setO_slot (gr : Group) (n l : Nat) (x : W32) : (gr.setO n l x).slot = gr.slot := rfl
@[simp] theorem Group.setO_exm (gr : Group) (n l : Nat) (x : W32) : (gr.setO n l x).exm = gr.exm := rfl
@[simp] theorem Group.setO_base (gr : Group) (n l : Nat) (x : W32) : (gr.setO n l x).base = gr.base := rfl
@[simp] theorem Group.setO_stack (gr : Group) (n l : Nat) (x : W32) : (gr.setO n l x).stack = gr.stack := rfl
@[simp] theorem Group.setO_hints (gr : Group) (n l : Nat) (x : W32) : (gr.setO n l x).hints = gr.hints := rfl
@[simp] theorem Group.setO_stallUntil (gr : Group) (n l : Nat) (x : W32) : (gr.setO n l x).stallUntil = gr.stallUntil := rfl
@[simp] theorem Group.setO_yielded (gr : Group) (n l : Nat) (x : W32) : (gr.setO n l x).yielded = gr.yielded := rfl
@[simp] theorem Group.setO_exited (gr : Group) (n l : Nat) (x : W32) : (gr.setO n l x).exited = gr.exited := rfl
@[simp] theorem Group.setO_trap (gr : Group) (n l : Nat) (x : W32) : (gr.setO n l x).trap = gr.trap := rfl
@[simp] theorem Group.setO_hold (gr : Group) (n l : Nat) (x : W32) : (gr.setO n l x).hold = gr.hold := rfl
@[simp] theorem Group.setO_parked (gr : Group) (n l : Nat) (x : W32) : (gr.setO n l x).parked = gr.parked := rfl
@[simp] theorem Group.setO_sq (gr : Group) (n l : Nat) (x : W32) : (gr.setO n l x).sq = gr.sq := rfl
@[simp] theorem Group.setO_ls (gr : Group) (n l : Nat) (x : W32) : (gr.setO n l x).ls = gr.ls := rfl
@[simp] theorem Group.setO_sfu (gr : Group) (n l : Nat) (x : W32) : (gr.setO n l x).sfu = gr.sfu := rfl
@[simp] theorem Group.setO_nextId (gr : Group) (n l : Nat) (x : W32) : (gr.setO n l x).nextId = gr.nextId := rfl
@[simp] theorem Group.setO_floor (gr : Group) (n l : Nat) (x : W32) : (gr.setO n l x).floor = gr.floor := rfl
@[simp] theorem Group.setO_mu (gr : Group) (n l : Nat) (x : W32) : (gr.setO n l x).mu = gr.mu := rfl
@[simp] theorem Group.setO_copy (gr : Group) (n l : Nat) (x : W32) : (gr.setO n l x).copy = gr.copy := rfl
@[simp] theorem Group.setO_mat (gr : Group) (n l : Nat) (x : W32) : (gr.setO n l x).mat = gr.mat := rfl
@[simp] theorem Group.setO_coll (gr : Group) (n l : Nat) (x : W32) : (gr.setO n l x).coll = gr.coll := rfl
@[simp] theorem Group.setO_outbox (gr : Group) (n l : Nat) (x : W32) : (gr.setO n l x).outbox = gr.outbox := rfl
@[simp] theorem Group.setO_cres (gr : Group) (n l : Nat) (x : W32) : (gr.setO n l x).cres = gr.cres := rfl
@[simp] theorem Group.setO_journalCount (gr : Group) (n l : Nat) (x : W32) : (gr.setO n l x).journalCount = gr.journalCount := rfl
@[simp] theorem Group.setO_denied (gr : Group) (n l : Nat) (x : W32) : (gr.setO n l x).denied = gr.denied := rfl
@[simp] theorem Group.setO_preemptDue (gr : Group) (n l : Nat) (x : W32) : (gr.setO n l x).preemptDue = gr.preemptDue := rfl
@[simp] theorem Group.setO_heldAt (gr : Group) (n l : Nat) (x : W32) : (gr.setO n l x).heldAt = gr.heldAt := rfl
@[simp] theorem Group.setO_born (gr : Group) (n l : Nat) (x : W32) : (gr.setO n l x).born = gr.born := rfl
@[simp] theorem Group.setO_acqs (gr : Group) (n l : Nat) (x : W32) : (gr.setO n l x).acqs = gr.acqs := rfl
@[simp] theorem Group.setO_seen (gr : Group) (n l : Nat) (x : W32) : (gr.setO n l x).seen = gr.seen := rfl
@[simp] theorem Group.setO_fences (gr : Group) (n l : Nat) (x : W32) : (gr.setO n l x).fences = gr.fences := rfl
@[simp] theorem Group.setO_left (gr : Group) (n l : Nat) (x : W32) : (gr.setO n l x).left = gr.left := rfl
@[simp] theorem Group.setO_sysWait (gr : Group) (n l : Nat) (x : W32) : (gr.setO n l x).sysWait = gr.sysWait := rfl

@[simp] theorem Group.setL_pc (gr : Group) (n l : Nat) (x : W32) : (gr.setL n l x).pc = gr.pc := rfl
@[simp] theorem Group.setL_slot (gr : Group) (n l : Nat) (x : W32) : (gr.setL n l x).slot = gr.slot := rfl
@[simp] theorem Group.setL_exm (gr : Group) (n l : Nat) (x : W32) : (gr.setL n l x).exm = gr.exm := rfl
@[simp] theorem Group.setL_base (gr : Group) (n l : Nat) (x : W32) : (gr.setL n l x).base = gr.base := rfl
@[simp] theorem Group.setL_stack (gr : Group) (n l : Nat) (x : W32) : (gr.setL n l x).stack = gr.stack := rfl
@[simp] theorem Group.setL_hints (gr : Group) (n l : Nat) (x : W32) : (gr.setL n l x).hints = gr.hints := rfl
@[simp] theorem Group.setL_stallUntil (gr : Group) (n l : Nat) (x : W32) : (gr.setL n l x).stallUntil = gr.stallUntil := rfl
@[simp] theorem Group.setL_yielded (gr : Group) (n l : Nat) (x : W32) : (gr.setL n l x).yielded = gr.yielded := rfl
@[simp] theorem Group.setL_exited (gr : Group) (n l : Nat) (x : W32) : (gr.setL n l x).exited = gr.exited := rfl
@[simp] theorem Group.setL_trap (gr : Group) (n l : Nat) (x : W32) : (gr.setL n l x).trap = gr.trap := rfl
@[simp] theorem Group.setL_hold (gr : Group) (n l : Nat) (x : W32) : (gr.setL n l x).hold = gr.hold := rfl
@[simp] theorem Group.setL_parked (gr : Group) (n l : Nat) (x : W32) : (gr.setL n l x).parked = gr.parked := rfl
@[simp] theorem Group.setL_sq (gr : Group) (n l : Nat) (x : W32) : (gr.setL n l x).sq = gr.sq := rfl
@[simp] theorem Group.setL_ls (gr : Group) (n l : Nat) (x : W32) : (gr.setL n l x).ls = gr.ls := rfl
@[simp] theorem Group.setL_sfu (gr : Group) (n l : Nat) (x : W32) : (gr.setL n l x).sfu = gr.sfu := rfl
@[simp] theorem Group.setL_nextId (gr : Group) (n l : Nat) (x : W32) : (gr.setL n l x).nextId = gr.nextId := rfl
@[simp] theorem Group.setL_floor (gr : Group) (n l : Nat) (x : W32) : (gr.setL n l x).floor = gr.floor := rfl
@[simp] theorem Group.setL_mu (gr : Group) (n l : Nat) (x : W32) : (gr.setL n l x).mu = gr.mu := rfl
@[simp] theorem Group.setL_copy (gr : Group) (n l : Nat) (x : W32) : (gr.setL n l x).copy = gr.copy := rfl
@[simp] theorem Group.setL_mat (gr : Group) (n l : Nat) (x : W32) : (gr.setL n l x).mat = gr.mat := rfl
@[simp] theorem Group.setL_coll (gr : Group) (n l : Nat) (x : W32) : (gr.setL n l x).coll = gr.coll := rfl
@[simp] theorem Group.setL_outbox (gr : Group) (n l : Nat) (x : W32) : (gr.setL n l x).outbox = gr.outbox := rfl
@[simp] theorem Group.setL_cres (gr : Group) (n l : Nat) (x : W32) : (gr.setL n l x).cres = gr.cres := rfl
@[simp] theorem Group.setL_journalCount (gr : Group) (n l : Nat) (x : W32) : (gr.setL n l x).journalCount = gr.journalCount := rfl
@[simp] theorem Group.setL_denied (gr : Group) (n l : Nat) (x : W32) : (gr.setL n l x).denied = gr.denied := rfl
@[simp] theorem Group.setL_preemptDue (gr : Group) (n l : Nat) (x : W32) : (gr.setL n l x).preemptDue = gr.preemptDue := rfl
@[simp] theorem Group.setL_heldAt (gr : Group) (n l : Nat) (x : W32) : (gr.setL n l x).heldAt = gr.heldAt := rfl
@[simp] theorem Group.setL_born (gr : Group) (n l : Nat) (x : W32) : (gr.setL n l x).born = gr.born := rfl
@[simp] theorem Group.setL_acqs (gr : Group) (n l : Nat) (x : W32) : (gr.setL n l x).acqs = gr.acqs := rfl
@[simp] theorem Group.setL_seen (gr : Group) (n l : Nat) (x : W32) : (gr.setL n l x).seen = gr.seen := rfl
@[simp] theorem Group.setL_fences (gr : Group) (n l : Nat) (x : W32) : (gr.setL n l x).fences = gr.fences := rfl
@[simp] theorem Group.setL_left (gr : Group) (n l : Nat) (x : W32) : (gr.setL n l x).left = gr.left := rfl
@[simp] theorem Group.setL_sysWait (gr : Group) (n l : Nat) (x : W32) : (gr.setL n l x).sysWait = gr.sysWait := rfl

@[simp] theorem Group.setQ_pc (gr : Group) (n l : Nat) (x : W32) : (gr.setQ n l x).pc = gr.pc := rfl
@[simp] theorem Group.setQ_slot (gr : Group) (n l : Nat) (x : W32) : (gr.setQ n l x).slot = gr.slot := rfl
@[simp] theorem Group.setQ_exm (gr : Group) (n l : Nat) (x : W32) : (gr.setQ n l x).exm = gr.exm := rfl
@[simp] theorem Group.setQ_base (gr : Group) (n l : Nat) (x : W32) : (gr.setQ n l x).base = gr.base := rfl
@[simp] theorem Group.setQ_stack (gr : Group) (n l : Nat) (x : W32) : (gr.setQ n l x).stack = gr.stack := rfl
@[simp] theorem Group.setQ_hints (gr : Group) (n l : Nat) (x : W32) : (gr.setQ n l x).hints = gr.hints := rfl
@[simp] theorem Group.setQ_stallUntil (gr : Group) (n l : Nat) (x : W32) : (gr.setQ n l x).stallUntil = gr.stallUntil := rfl
@[simp] theorem Group.setQ_yielded (gr : Group) (n l : Nat) (x : W32) : (gr.setQ n l x).yielded = gr.yielded := rfl
@[simp] theorem Group.setQ_exited (gr : Group) (n l : Nat) (x : W32) : (gr.setQ n l x).exited = gr.exited := rfl
@[simp] theorem Group.setQ_trap (gr : Group) (n l : Nat) (x : W32) : (gr.setQ n l x).trap = gr.trap := rfl
@[simp] theorem Group.setQ_hold (gr : Group) (n l : Nat) (x : W32) : (gr.setQ n l x).hold = gr.hold := rfl
@[simp] theorem Group.setQ_parked (gr : Group) (n l : Nat) (x : W32) : (gr.setQ n l x).parked = gr.parked := rfl
@[simp] theorem Group.setQ_sq (gr : Group) (n l : Nat) (x : W32) : (gr.setQ n l x).sq = gr.sq := rfl
@[simp] theorem Group.setQ_ls (gr : Group) (n l : Nat) (x : W32) : (gr.setQ n l x).ls = gr.ls := rfl
@[simp] theorem Group.setQ_sfu (gr : Group) (n l : Nat) (x : W32) : (gr.setQ n l x).sfu = gr.sfu := rfl
@[simp] theorem Group.setQ_nextId (gr : Group) (n l : Nat) (x : W32) : (gr.setQ n l x).nextId = gr.nextId := rfl
@[simp] theorem Group.setQ_floor (gr : Group) (n l : Nat) (x : W32) : (gr.setQ n l x).floor = gr.floor := rfl
@[simp] theorem Group.setQ_mu (gr : Group) (n l : Nat) (x : W32) : (gr.setQ n l x).mu = gr.mu := rfl
@[simp] theorem Group.setQ_copy (gr : Group) (n l : Nat) (x : W32) : (gr.setQ n l x).copy = gr.copy := rfl
@[simp] theorem Group.setQ_mat (gr : Group) (n l : Nat) (x : W32) : (gr.setQ n l x).mat = gr.mat := rfl
@[simp] theorem Group.setQ_coll (gr : Group) (n l : Nat) (x : W32) : (gr.setQ n l x).coll = gr.coll := rfl
@[simp] theorem Group.setQ_outbox (gr : Group) (n l : Nat) (x : W32) : (gr.setQ n l x).outbox = gr.outbox := rfl
@[simp] theorem Group.setQ_cres (gr : Group) (n l : Nat) (x : W32) : (gr.setQ n l x).cres = gr.cres := rfl
@[simp] theorem Group.setQ_journalCount (gr : Group) (n l : Nat) (x : W32) : (gr.setQ n l x).journalCount = gr.journalCount := rfl
@[simp] theorem Group.setQ_denied (gr : Group) (n l : Nat) (x : W32) : (gr.setQ n l x).denied = gr.denied := rfl
@[simp] theorem Group.setQ_preemptDue (gr : Group) (n l : Nat) (x : W32) : (gr.setQ n l x).preemptDue = gr.preemptDue := rfl
@[simp] theorem Group.setQ_heldAt (gr : Group) (n l : Nat) (x : W32) : (gr.setQ n l x).heldAt = gr.heldAt := rfl
@[simp] theorem Group.setQ_born (gr : Group) (n l : Nat) (x : W32) : (gr.setQ n l x).born = gr.born := rfl
@[simp] theorem Group.setQ_acqs (gr : Group) (n l : Nat) (x : W32) : (gr.setQ n l x).acqs = gr.acqs := rfl
@[simp] theorem Group.setQ_seen (gr : Group) (n l : Nat) (x : W32) : (gr.setQ n l x).seen = gr.seen := rfl
@[simp] theorem Group.setQ_fences (gr : Group) (n l : Nat) (x : W32) : (gr.setQ n l x).fences = gr.fences := rfl
@[simp] theorem Group.setQ_left (gr : Group) (n l : Nat) (x : W32) : (gr.setQ n l x).left = gr.left := rfl
@[simp] theorem Group.setQ_sysWait (gr : Group) (n l : Nat) (x : W32) : (gr.setQ n l x).sysWait = gr.sysWait := rfl

@[simp] theorem Group.setExm_regs (gr : Group) (x : W32) : (gr.setExm x).regs = gr.regs := rfl
@[simp] theorem Group.setExm_pc (gr : Group) (x : W32) : (gr.setExm x).pc = gr.pc := rfl
@[simp] theorem Group.setExm_slot (gr : Group) (x : W32) : (gr.setExm x).slot = gr.slot := rfl
@[simp] theorem Group.setExm_base (gr : Group) (x : W32) : (gr.setExm x).base = gr.base := rfl
@[simp] theorem Group.setExm_stack (gr : Group) (x : W32) : (gr.setExm x).stack = gr.stack := rfl
@[simp] theorem Group.setExm_hints (gr : Group) (x : W32) : (gr.setExm x).hints = gr.hints := rfl
@[simp] theorem Group.setExm_stallUntil (gr : Group) (x : W32) : (gr.setExm x).stallUntil = gr.stallUntil := rfl
@[simp] theorem Group.setExm_yielded (gr : Group) (x : W32) : (gr.setExm x).yielded = gr.yielded := rfl
@[simp] theorem Group.setExm_exited (gr : Group) (x : W32) : (gr.setExm x).exited = gr.exited := rfl
@[simp] theorem Group.setExm_trap (gr : Group) (x : W32) : (gr.setExm x).trap = gr.trap := rfl
@[simp] theorem Group.setExm_hold (gr : Group) (x : W32) : (gr.setExm x).hold = gr.hold := rfl
@[simp] theorem Group.setExm_parked (gr : Group) (x : W32) : (gr.setExm x).parked = gr.parked := rfl
@[simp] theorem Group.setExm_sq (gr : Group) (x : W32) : (gr.setExm x).sq = gr.sq := rfl
@[simp] theorem Group.setExm_ls (gr : Group) (x : W32) : (gr.setExm x).ls = gr.ls := rfl
@[simp] theorem Group.setExm_sfu (gr : Group) (x : W32) : (gr.setExm x).sfu = gr.sfu := rfl
@[simp] theorem Group.setExm_nextId (gr : Group) (x : W32) : (gr.setExm x).nextId = gr.nextId := rfl
@[simp] theorem Group.setExm_floor (gr : Group) (x : W32) : (gr.setExm x).floor = gr.floor := rfl
@[simp] theorem Group.setExm_mu (gr : Group) (x : W32) : (gr.setExm x).mu = gr.mu := rfl
@[simp] theorem Group.setExm_copy (gr : Group) (x : W32) : (gr.setExm x).copy = gr.copy := rfl
@[simp] theorem Group.setExm_mat (gr : Group) (x : W32) : (gr.setExm x).mat = gr.mat := rfl
@[simp] theorem Group.setExm_coll (gr : Group) (x : W32) : (gr.setExm x).coll = gr.coll := rfl
@[simp] theorem Group.setExm_outbox (gr : Group) (x : W32) : (gr.setExm x).outbox = gr.outbox := rfl
@[simp] theorem Group.setExm_cres (gr : Group) (x : W32) : (gr.setExm x).cres = gr.cres := rfl
@[simp] theorem Group.setExm_journalCount (gr : Group) (x : W32) : (gr.setExm x).journalCount = gr.journalCount := rfl
@[simp] theorem Group.setExm_denied (gr : Group) (x : W32) : (gr.setExm x).denied = gr.denied := rfl
@[simp] theorem Group.setExm_preemptDue (gr : Group) (x : W32) : (gr.setExm x).preemptDue = gr.preemptDue := rfl
@[simp] theorem Group.setExm_heldAt (gr : Group) (x : W32) : (gr.setExm x).heldAt = gr.heldAt := rfl
@[simp] theorem Group.setExm_born (gr : Group) (x : W32) : (gr.setExm x).born = gr.born := rfl
@[simp] theorem Group.setExm_acqs (gr : Group) (x : W32) : (gr.setExm x).acqs = gr.acqs := rfl
@[simp] theorem Group.setExm_seen (gr : Group) (x : W32) : (gr.setExm x).seen = gr.seen := rfl
@[simp] theorem Group.setExm_fences (gr : Group) (x : W32) : (gr.setExm x).fences = gr.fences := rfl
@[simp] theorem Group.setExm_left (gr : Group) (x : W32) : (gr.setExm x).left = gr.left := rfl
@[simp] theorem Group.setExm_sysWait (gr : Group) (x : W32) : (gr.setExm x).sysWait = gr.sysWait := rfl

@[simp] theorem Group.setExm_exm (gr : Group) (x : W32) : (gr.setExm x).exm = x := rfl
@[simp] theorem Group.goTo_regs (gr : Group) (x : BitVec 1) (p : BitVec 14) : (gr.goTo x p).regs = gr.regs := rfl
@[simp] theorem Group.goTo_poison (gr : Group) (x : BitVec 1) (p : BitVec 14) : (gr.goTo x p).poison = gr.poison := rfl
@[simp] theorem Group.goTo_base (gr : Group) (x : BitVec 1) (p : BitVec 14) : (gr.goTo x p).base = gr.base := rfl
@[simp] theorem Group.goTo_stack (gr : Group) (x : BitVec 1) (p : BitVec 14) : (gr.goTo x p).stack = gr.stack := rfl
@[simp] theorem Group.goTo_stallUntil (gr : Group) (x : BitVec 1) (p : BitVec 14) : (gr.goTo x p).stallUntil = gr.stallUntil := rfl
@[simp] theorem Group.goTo_yielded (gr : Group) (x : BitVec 1) (p : BitVec 14) : (gr.goTo x p).yielded = gr.yielded := rfl
@[simp] theorem Group.goTo_exited (gr : Group) (x : BitVec 1) (p : BitVec 14) : (gr.goTo x p).exited = gr.exited := rfl
@[simp] theorem Group.goTo_hold (gr : Group) (x : BitVec 1) (p : BitVec 14) : (gr.goTo x p).hold = gr.hold := rfl
@[simp] theorem Group.goTo_parked (gr : Group) (x : BitVec 1) (p : BitVec 14) : (gr.goTo x p).parked = gr.parked := rfl
@[simp] theorem Group.goTo_sq (gr : Group) (x : BitVec 1) (p : BitVec 14) : (gr.goTo x p).sq = gr.sq := rfl
@[simp] theorem Group.goTo_ls (gr : Group) (x : BitVec 1) (p : BitVec 14) : (gr.goTo x p).ls = gr.ls := rfl
@[simp] theorem Group.goTo_sfu (gr : Group) (x : BitVec 1) (p : BitVec 14) : (gr.goTo x p).sfu = gr.sfu := rfl
@[simp] theorem Group.goTo_nextId (gr : Group) (x : BitVec 1) (p : BitVec 14) : (gr.goTo x p).nextId = gr.nextId := rfl
@[simp] theorem Group.goTo_floor (gr : Group) (x : BitVec 1) (p : BitVec 14) : (gr.goTo x p).floor = gr.floor := rfl
@[simp] theorem Group.goTo_mu (gr : Group) (x : BitVec 1) (p : BitVec 14) : (gr.goTo x p).mu = gr.mu := rfl
@[simp] theorem Group.goTo_copy (gr : Group) (x : BitVec 1) (p : BitVec 14) : (gr.goTo x p).copy = gr.copy := rfl
@[simp] theorem Group.goTo_mat (gr : Group) (x : BitVec 1) (p : BitVec 14) : (gr.goTo x p).mat = gr.mat := rfl
@[simp] theorem Group.goTo_coll (gr : Group) (x : BitVec 1) (p : BitVec 14) : (gr.goTo x p).coll = gr.coll := rfl
@[simp] theorem Group.goTo_outbox (gr : Group) (x : BitVec 1) (p : BitVec 14) : (gr.goTo x p).outbox = gr.outbox := rfl
@[simp] theorem Group.goTo_cres (gr : Group) (x : BitVec 1) (p : BitVec 14) : (gr.goTo x p).cres = gr.cres := rfl
@[simp] theorem Group.goTo_journalCount (gr : Group) (x : BitVec 1) (p : BitVec 14) : (gr.goTo x p).journalCount = gr.journalCount := rfl
@[simp] theorem Group.goTo_denied (gr : Group) (x : BitVec 1) (p : BitVec 14) : (gr.goTo x p).denied = gr.denied := rfl
@[simp] theorem Group.goTo_preemptDue (gr : Group) (x : BitVec 1) (p : BitVec 14) : (gr.goTo x p).preemptDue = gr.preemptDue := rfl
@[simp] theorem Group.goTo_heldAt (gr : Group) (x : BitVec 1) (p : BitVec 14) : (gr.goTo x p).heldAt = gr.heldAt := rfl
@[simp] theorem Group.goTo_born (gr : Group) (x : BitVec 1) (p : BitVec 14) : (gr.goTo x p).born = gr.born := rfl
@[simp] theorem Group.goTo_acqs (gr : Group) (x : BitVec 1) (p : BitVec 14) : (gr.goTo x p).acqs = gr.acqs := rfl
@[simp] theorem Group.goTo_seen (gr : Group) (x : BitVec 1) (p : BitVec 14) : (gr.goTo x p).seen = gr.seen := rfl
@[simp] theorem Group.goTo_fences (gr : Group) (x : BitVec 1) (p : BitVec 14) : (gr.goTo x p).fences = gr.fences := rfl
@[simp] theorem Group.goTo_left (gr : Group) (x : BitVec 1) (p : BitVec 14) : (gr.goTo x p).left = gr.left := rfl
@[simp] theorem Group.goTo_sysWait (gr : Group) (x : BitVec 1) (p : BitVec 14) : (gr.goTo x p).sysWait = gr.sysWait := rfl
@[simp] theorem Group.goTo_slot (gr : Group) (x : BitVec 1) (p : BitVec 14) : (gr.goTo x p).slot = x := rfl
@[simp] theorem Group.goTo_pc (gr : Group) (x : BitVec 1) (p : BitVec 14) : (gr.goTo x p).pc = p := rfl
@[simp] theorem Group.goTo_hints (gr : Group) (x : BitVec 1) (p : BitVec 14) : (gr.goTo x p).hints = [] := rfl

end Sys2Proof.Machine
end

