-- ==== Sys2Proof/Laws/Unused.lean ====
section
/-! SUPPORT. A word that the decoder refuses for a field without a use has a bit of `unusedMask`. -/

namespace Sys2Proof

theorem unused_part (w m : W32) (a n : Nat) (h : w &&& m = 0#32) (hm : m.extractLsb' a n = BitVec.allOnes n) :
    w.extractLsb' a n = 0#n := by
  have k : (w &&& m).extractLsb' a n = 0#n := by rw [h]; simp
  rw [BitVec.extractLsb'_and, hm] at k
  simpa using k

theorem unusedZero_field {c : Bool} {i : Instr} (h : unusedZero c i = .error .unusedField) : c = false := by
  unfold unusedZero at h
  split at h
  · cases h
  · simpa using ‹¬ c = true›

theorem unused_class0 (w : W32) (hc : (w.extractLsb' 28 4).toNat = 0) (h : decodeClass0 w = .error .unusedField) :
    w &&& unusedMask w ≠ 0#32 := by
  intro hz
  unfold unusedMask at hz
  simp only [hc] at hz
  unfold decodeClass0 at h
  split at h <;> first | cases h | (
    have hf := unusedZero_field h
    rename_i e
    simp [e] at hz
    revert hf
    try rw [unused_part w _ 0 8 hz (by decide)]
    simp)

theorem unused_class1 (w : W32) (hc : (w.extractLsb' 28 4).toNat = 1) (h : decodeClass1 w = .error .unusedField) :
    w &&& unusedMask w ≠ 0#32 := by
  intro hz
  unfold unusedMask at hz
  simp only [hc] at hz
  unfold decodeClass1 at h
  split at h <;> first | cases h | (
    have hf := unusedZero_field h
    rename_i e
    simp [e] at hz
    revert hf
    try rw [unused_part w _ 0 8 hz (by decide)]
    simp)

theorem unused_class2 (w : W32) (hc : (w.extractLsb' 28 4).toNat = 2) (h : decodeClass2 w = .error .unusedField) :
    w &&& unusedMask w ≠ 0#32 := by
  intro hz
  unfold unusedMask at hz
  simp only [hc] at hz
  unfold decodeClass2 at h
  split at h <;> first | cases h | (
    have hf := unusedZero_field h
    rename_i e
    simp [e] at hz
    revert hf
    try rw [unused_part w _ 0 8 hz (by decide)]
    try rw [unused_part w _ 0 16 hz (by decide)]
    try rw [unused_part w _ 3 5 hz (by decide)]
    try rw [unused_part w _ 19 4 hz (by decide)]
    try rw [unused_part w _ 22 1 hz (by decide)]
    simp)

theorem unused_class3 (w : W32) (hc : (w.extractLsb' 28 4).toNat = 3) (h : decodeClass3 w = .error .unusedField) :
    w &&& unusedMask w ≠ 0#32 := by
  intro hz
  unfold unusedMask at hz
  simp only [hc] at hz
  unfold decodeClass3 at h
  split at h <;> first | cases h | (
    have hf := unusedZero_field h
    rename_i e
    simp [e] at hz
    revert hf
    try rw [unused_part w _ 0 8 hz (by decide)]
    try rw [unused_part w _ 19 4 hz (by decide)]
    simp)

theorem unused_class4 (w : W32) (hc : (w.extractLsb' 28 4).toNat = 4) (h : decodeClass4 w = .error .unusedField) :
    w &&& unusedMask w ≠ 0#32 := by
  intro hz
  unfold unusedMask at hz
  simp only [hc] at hz
  unfold decodeClass4 at h
  split at h <;> first | cases h | (
    have hf := unusedZero_field h
    rename_i e
    simp [e] at hz
    revert hf
    try rw [unused_part w _ 0 8 hz (by decide)]
    simp)

theorem unused_class5 (w : W32) (hc : (w.extractLsb' 28 4).toNat = 5) (h : decodeClass5 w = .error .unusedField) :
    w &&& unusedMask w ≠ 0#32 := by
  intro hz
  unfold unusedMask at hz
  simp only [hc] at hz
  unfold decodeClass5 at h
  split at h <;> first | cases h | (
    have hf := unusedZero_field h
    rename_i e
    simp [e] at hz
    revert hf
    try rw [unused_part w _ 0 4 hz (by decide)]
    try rw [unused_part w _ 0 10 hz (by decide)]
    try rw [unused_part w _ 0 16 hz (by decide)]
    try rw [unused_part w _ 7 3 hz (by decide)]
    try rw [unused_part w _ 13 3 hz (by decide)]
    try rw [unused_part w _ 16 6 hz (by decide)]
    try rw [unused_part w _ 19 3 hz (by decide)]
    simp)

theorem unused_class6 (w : W32) (hc : (w.extractLsb' 28 4).toNat = 6) (h : decodeClass6 w = .error .unusedField) :
    w &&& unusedMask w ≠ 0#32 := by
  intro hz
  unfold unusedMask at hz
  simp only [hc] at hz
  unfold decodeClass6 at h
  split at h <;> first | cases h | (
    have hf := unusedZero_field h
    rename_i e
    simp [e] at hz
    revert hf
    try rw [unused_part w _ 10 6 hz (by decide)]
    simp)

theorem unused_class7 (w : W32) (hc : (w.extractLsb' 28 4).toNat = 7) (h : decodeClass7 w = .error .unusedField) :
    w &&& unusedMask w ≠ 0#32 := by
  intro hz
  unfold unusedMask at hz
  simp only [hc] at hz
  unfold decodeClass7 at h
  split at h <;> first | cases h | (
    have hf := unusedZero_field h
    rename_i e
    simp [e] at hz
    revert hf
    try rw [unused_part w _ 0 18 hz (by decide)]
    try rw [unused_part w _ 0 24 hz (by decide)]
    try rw [unused_part w _ 18 6 hz (by decide)]
    try rw [unused_part w _ 21 3 hz (by decide)]
    simp)

theorem unused_class8 (w : W32) (hc : (w.extractLsb' 28 4).toNat = 8) (h : decodeClass8 w = .error .unusedField) :
    w &&& unusedMask w ≠ 0#32 := by
  intro hz
  unfold unusedMask at hz
  simp only [hc] at hz
  unfold decodeClass8 at h
  split at h <;> first | cases h | (
    have hf := unusedZero_field h
    rename_i e
    simp [e] at hz
    revert hf
    try rw [unused_part w _ 16 7 hz (by decide)]
    try rw [unused_part w _ 22 1 hz (by decide)]
    simp)

theorem unused_class9 (w : W32) (hc : (w.extractLsb' 28 4).toNat = 9) (h : decodeClass9 w = .error .unusedField) :
    w &&& unusedMask w ≠ 0#32 := by
  intro hz
  unfold unusedMask at hz
  simp only [hc] at hz
  unfold decodeClass9 at h
  split at h <;> first | cases h | (
    have hf := unusedZero_field h
    rename_i e
    simp [e] at hz
    revert hf
    try rw [unused_part w _ 22 1 hz (by decide)]
    simp)

theorem unused_classA (w : W32) (hc : (w.extractLsb' 28 4).toNat = 10) (h : decodeClassA w = .error .unusedField) :
    w &&& unusedMask w ≠ 0#32 := by
  intro hz
  unfold unusedMask at hz
  simp only [hc] at hz
  unfold decodeClassA at h
  split at h <;> first | cases h | (
    have hf := unusedZero_field h
    rename_i e
    simp [e] at hz
    revert hf
    try rw [unused_part w _ 0 4 hz (by decide)]
    try rw [unused_part w _ 0 10 hz (by decide)]
    try rw [unused_part w _ 0 16 hz (by decide)]
    try rw [unused_part w _ 4 12 hz (by decide)]
    simp)

theorem unused_classB (w : W32) (hc : (w.extractLsb' 28 4).toNat = 11) (h : decodeClassB w = .error .unusedField) :
    w &&& unusedMask w ≠ 0#32 := by
  intro hz
  unfold unusedMask at hz
  simp only [hc] at hz
  unfold decodeClassB at h
  split at h <;> first | cases h | (
    have hf := unusedZero_field h
    rename_i e
    simp [e] at hz
    revert hf
    try rw [unused_part w _ 0 4 hz (by decide)]
    try rw [unused_part w _ 4 12 hz (by decide)]
    try rw [unused_part w _ 4 18 hz (by decide)]
    simp)

theorem unused_classC (w : W32) (hc : (w.extractLsb' 28 4).toNat = 12) (h : decodeClassC w = .error .unusedField) :
    w &&& unusedMask w ≠ 0#32 := by
  intro hz
  unfold unusedMask at hz
  simp only [hc] at hz
  unfold decodeClassC at h
  split at h <;> first | cases h | (
    have hf := unusedZero_field h
    rename_i e
    simp [e] at hz
    revert hf
    try rw [unused_part w _ 0 4 hz (by decide)]
    try rw [unused_part w _ 0 16 hz (by decide)]
    try rw [unused_part w _ 2 2 hz (by decide)]
    try rw [unused_part w _ 2 8 hz (by decide)]
    try rw [unused_part w _ 2 20 hz (by decide)]
    simp)

theorem unused_classD (w : W32) (hc : (w.extractLsb' 28 4).toNat = 13) (h : decodeClassD w = .error .unusedField) :
    w &&& unusedMask w ≠ 0#32 := by
  intro hz
  unfold unusedMask at hz
  simp only [hc] at hz
  unfold decodeClassD at h
  split at h <;> first | cases h | (
    have hf := unusedZero_field h
    rename_i e
    simp [e] at hz
    revert hf
    try rw [unused_part w _ 0 4 hz (by decide)]
    try rw [unused_part w _ 0 10 hz (by decide)]
    try rw [unused_part w _ 0 16 hz (by decide)]
    try rw [unused_part w _ 0 22 hz (by decide)]
    simp)

theorem unused_classE (w : W32) (hc : (w.extractLsb' 28 4).toNat = 14) (h : decodeClassE w = .error .unusedField) :
    w &&& unusedMask w ≠ 0#32 := by
  intro hz
  unfold unusedMask at hz
  simp only [hc] at hz
  unfold decodeClassE at h
  split at h <;> first | cases h | (
    have hf := unusedZero_field h
    rename_i e
    simp [e] at hz
    revert hf
    try rw [unused_part w _ 0 4 hz (by decide)]
    try rw [unused_part w _ 0 10 hz (by decide)]
    try rw [unused_part w _ 0 16 hz (by decide)]
    try rw [unused_part w _ 0 22 hz (by decide)]
    try rw [unused_part w _ 16 6 hz (by decide)]
    simp)

theorem unused_classF (w : W32) (h : decodeClassF w = .error .unusedField) : False := by
  unfold decodeClassF at h
  split at h <;> cases h

/-- A word refused for a field without a use has such a field that is not zero. -/
theorem unusedSet_of (w : W32) (h : decode w = .error .unusedField) : unusedSet w = true := by
  suffices w &&& unusedMask w ≠ 0#32 by simpa [unusedSet] using this
  unfold decode at h
  split at h
  · cases h
  · split at h <;> first | exact absurd h (by simp) | skip
    all_goals rename_i e
    all_goals first
      | exact unused_class0 w e h
      | exact unused_class1 w e h
      | exact unused_class2 w e h
      | exact unused_class3 w e h
      | exact unused_class4 w e h
      | exact unused_class5 w e h
      | exact unused_class6 w e h
      | exact unused_class7 w e h
      | exact unused_class8 w e h
      | exact unused_class9 w e h
      | exact unused_classA w e h
      | exact unused_classB w e h
      | exact unused_classC w e h
      | exact unused_classD w e h
      | exact unused_classE w e h
      | exact (unused_classF w h).elim

end Sys2Proof
end

