-- ==== Sys2Proof/Laws/Steps.lean ====
section
/-! SUPPORT. What a step runs, and what every run of a meaning keeps. -/

namespace Sys2Proof.Machine

variable {z : State}

theorem beginTurn_word {s : State} {w : View} (h : Presents s w) : beginTurn s = .word (fetchAt s w.core w.gr.slot w.wordPc) := by
  have hv := h.view
  have hm := h.may
  have hp : w.gr.exited = false ∧ w.gr.hold = none ∧ w.gr.parked = none ∧ w.gr.trap.pending = none ∧ w.t.core.isSome = true ∧
      stringAwake w.s w.cl = true := by
    have hm := (Bool.and_eq_true _ _ ▸ hm : canPresent w = true ∧ _).1
    unfold canPresent at hm
    simp only [Bool.and_eq_true, Bool.not_eq_true', Option.isNone_iff_eq_none] at hm
    obtain ⟨⟨⟨⟨⟨⟨⟨⟨⟨a, b⟩, c⟩, d⟩, e⟩, _⟩, _⟩, _⟩, f⟩, _⟩ := hm
    exact ⟨a, b, c, d, e, f⟩
  obtain ⟨p1, p2, p3, p4, p5, p6⟩ := hp
  rw [(view_cases hv).1] at p6
  unfold beginTurn
  rw [hv]
  dsimp only
  rw [if_neg (by simp [p1, p4, Option.isSome_iff_ne_none.mp p5, p6]), p2, p3]
  dsimp only
  rw [if_neg (by simp [hm]), h.whole.1, h.whole.2]
  dsimp only
  rw [if_neg (by simp [h.sound])]

theorem distinct_mem {c : Nat} (l : List Nat) (h : c ∈ l) : c ∈ distinct l := by
  induction l with
  | nil => cases h
  | cons a as ih =>
    unfold distinct
    by_cases e : c = a
    · subst e; exact List.mem_cons_self ..
    · refine List.mem_cons_of_mem _ (List.mem_filter.mpr ⟨ih (by simpa [e] using h), by simpa using e⟩)

theorem lowest_cause (c : Nat) (l : List Detail) (h : ∀ d ∈ l, d.cause = c) : ∀ a : Detail, a.cause = c →
    (l.foldl (fun a d => if d.lane < a.lane then d else a) a).cause = c := by
  induction l with
  | nil => exact fun a ha => ha
  | cons d ds ih =>
    intro a ha
    refine ih (fun x hx => h x (List.mem_cons_of_mem _ hx)) _ ?_
    dsimp only
    split
    · exact h d (List.mem_cons_self ..)
    · exact ha

theorem merge_cause {c : Nat} {ds : List Detail} (h : ∃ d ∈ ds, d.cause = c) : ∃ d ∈ mergeDetails ds, d.cause = c := by
  obtain ⟨d, hd, rfl⟩ := h
  refine ⟨_, List.mem_map.mpr ⟨d.cause, distinct_mem _ (List.mem_map.mpr ⟨d, hd, rfl⟩), rfl⟩, ?_⟩
  have hs : ∀ x ∈ ds.filter (fun x => decide (x.cause = d.cause)), x.cause = d.cause := fun x hx => by simpa using (List.mem_filter.mp hx).2
  refine lowest_cause d.cause _ hs _ ?_
  cases hl : ds.filter (fun x => decide (x.cause = d.cause)) with
  | nil => rfl
  | cons x xs => exact hs x (by rw [hl]; exact List.mem_cons_self ..)

theorem illegal_cause (w : View) : ∃ d ∈ preCauses w (illegalInfo w), d.cause = Cause.illOp := by
  unfold preCauses
  exact merge_cause ⟨_, List.mem_append_left _ (List.mem_append_left _ (List.mem_append_left _ (List.mem_singleton.mpr rfl))), rfl⟩

theorem checked_ok {w : W32} {i : Instr} (h : decode w = .ok i) : decodeChecked w = .ok i := by
  unfold decodeChecked; rw [h]

theorem checked_unused {w : W32} (h : decode w = .error .unusedField) : decodeChecked w = decode (w &&& ~~~unusedMask w) := by
  unfold decodeChecked; rw [h]

theorem checked_error {w : W32} {e : DecodeError} (h : decode w = .error e) (he : e ≠ .unusedField) : decodeChecked w = .error e := by
  unfold decodeChecked
  rw [h]
  cases e <;> first | rfl | exact absurd rfl he

theorem unused_cause {s : State} {w : View} (i : Info) (hs : w.s = s)
    (h : unusedSet (fetchAt s w.core w.gr.slot w.wordPc) = true) : ∃ d ∈ preCauses w i, d.cause = Cause.illOp := by
  unfold preCauses
  rw [hs]
  simp only [h, Bool.or_true, if_true]
  exact merge_cause ⟨_, List.mem_append_left _ (List.mem_append_left _ (List.mem_append_left _ (List.mem_singleton.mpr rfl))), rfl⟩

theorem takeTrap_handles {s : State} {w : View} {ds : List Detail} (hw : view s = some w) (h : Handles w ds) :
    Gives (z := z) (takeTrap w.g ds w.unitPc none) s () (w.onGroup (handlerEntered (mergeDetails ds) w.unitPc) (w.letGo s)) := by
  obtain ⟨hs, _, hg, ht, _⟩ := view_cases hw
  have hw' : (s.ctx w.t.ctx).watched = false := by have := h.plain.1; unfold watched at this; rw [hs] at this; exact this
  exact trap_enters hg ht rfl h.plain.2 (.inl hw') rfl rfl h.handler.1 h.handler.2 h.drained.1 h.drained.2

theorem Exhausts.verdict {w : View} {i : Info} (h : Exhausts w i) : verdict w i = .exhausted (unitCost w i + i.moved) := by
  have hn : i.moved + unitCost w i = unitCost w i + i.moved := Nat.add_comm _ _
  have hg : gate w i = none := by simp [gate, Info.early, h.presents, h.free, h.picked, h.sound, h.landed, h.own, h.current]
  unfold Machine.verdict
  rw [hg]
  show compareAl w i (unitCost w i) = _
  unfold compareAl
  rw [if_neg (by simp [h.outside]), if_neg (Nat.not_le.mpr h.exceeds)]

/-- A step that answers a next state, on a path from where it began. -/
def Steps (z : State) (o : Host.Outcome State Fault Refusal) : Prop := ∃ t, o = .next t ∧ Path z t

theorem Steps.stay (z : State) : Steps z (.next z) := ⟨z, rfl, .refl⟩

/-- An outcome that notes what stayed, where the note touches neither memory nor fuses. -/
theorem outcome_steps (z : State) {f : State → State} (hf : ∀ t, (f t).mem = t.mem ∧ (f t).fuses = t.fuses) (r : Except Stop (Unit × Run z)) :
    Steps z (outcomeOf z f r) := by
  have note {t : State} (p : Path z t) : Path z (f t) := .other p (hf t).1 (hf t).2
  unfold outcomeOf
  split
  · next t => exact ⟨t.1, rfl, t.2⟩
  · exact ⟨_, rfl, note .refl⟩
  · exact ⟨_, rfl, note (.other .refl rfl rfl)⟩
  · exact ⟨_, rfl, note .refl⟩
  · split
    · next t _ => exact ⟨_, rfl, note t.2⟩
    · exact ⟨_, rfl, note .refl⟩

theorem runM_steps (z : State) (m : M z Unit) : Steps z (runM z m) := outcome_steps z (fun _ => ⟨rfl, rfl⟩) _

theorem runGroup_steps (z : State) (w : View) (m : M z Unit) : Steps z (runGroup z w m) :=
  outcome_steps z (fun t => by unfold View.foundHeld; split <;> exact ⟨rfl, rfl⟩) _

theorem runUnit_steps (z : State) (info : View → Info) (eff : View → M z Flow) : Steps z (runUnit z info eff) := by
  unfold runUnit
  split
  · exact .stay z
  · exact runGroup_steps _ _ _

theorem runStaged_steps {α : Type} (z : State) (info : View → Info) (pre : View → M z (Pre α)) (sur : View → α → Nat)
    (eff : View → α → M z Flow) (mv : View → α → Nat) : Steps z (runStaged z info pre sur eff mv) := by
  unfold runStaged
  split
  · exact .stay z
  · dsimp only
    split
    · exact runGroup_steps _ _ _
    · split
      · exact runGroup_steps _ _ _
      · exact runGroup_steps _ _ _

theorem runHint_steps (z : State) (h : Hint) : Steps z (runHint z h) := by
  unfold runHint
  split
  · exact .stay z
  · split <;> first | exact .stay z | exact runM_steps _ _

theorem exec_steps (i : Instr) (z : State) : Steps z (exec i z) := by
  cases i <;> first | exact runUnit_steps _ _ _ | exact runM_steps _ _ | exact runStaged_steps _ _ _ _ _ _ | exact runHint_steps _ _ | skip
  case crcEvict => unfold exec execCrcEvict; exact runM_steps _ _
  case jkick => unfold exec execJkick; exact runM_steps _ _
  case rankRefreshEnd => unfold exec execRankRefreshEnd; exact runM_steps _ _
  case wearAccumulate => unfold exec execWearAccumulate; exact runM_steps _ _

theorem turn_steps (z : State) : Steps z (turn z) := by
  unfold turn beginTurn
  split
  · next o h =>
    split at h
    · cases h; exact .stay z
    · split at h
      · cases h; exact .stay z
      · split at h
        · cases h; exact runM_steps _ _
        · cases h; exact runM_steps _ _
        · split at h
          · cases h; exact .stay z
          · split at h
            · cases h; exact runM_steps _ _
            · cases h; exact runM_steps _ _
            · split at h
              · cases h; exact runM_steps _ _
              · cases h
  · next w h =>
    unfold runWord
    split
    · exact exec_steps _ _
    · unfold illegalWord
      split
      · exact .stay z
      · exact runM_steps _ _

theorem Path.keeps {z t : State} (p : Path z t) (h : z.wf = true) : t.wf = true ∧ t.fuses = z.fuses := by
  induction p with
  | refl => exact ⟨h, rfl⟩
  | write p a b ih => exact ⟨Memory.wf_write a b ih.1, ih.2⟩
  | other p hm hf ih => exact ⟨by unfold State.wf at *; rw [hm]; exact ih.1, hf.trans ih.2⟩

end Sys2Proof.Machine
end

