-- ==== Sys2Proof/Tests/Slice0.lean ====
section
/-! SUPPORT. Helpers of the tests, and the tests of syntax: ill-formed terms, and the words the spec itself writes out. -/

namespace Sys2Proof.Tests

open Sys2Proof.Machine

/-! Helpers -/

/-- The machine after reset about to run the word `n` in a team of one group on core 0, its group changed by `f`. -/
def about (n : Nat) (f : Group → Group := id) : State :=
  let s := State.reset.withFetchWord 32 n
  { s with groups := SMap.adjust s.groups 0 f }

/-- What `obs` sees after one step. -/
noncomputable def after {α : Type} (s : State) (obs : State → Option α) : Option α :=
  match step s with
  | .next t => obs t
  | _ => none

def obsGroup {α : Type} (f : Group → α) (t : State) : Option α := (t.group? 0).map f
def obsS (n : Nat) : State → Option W64 := obsGroup fun g => g.rs n
def obsK (n : Nat) : State → Option W32 := obsGroup fun g => g.rk n
def obsV (n l : Nat) : State → Option W32 := obsGroup fun g => g.rv n l
def obsO (n l : Nat) : State → Option W32 := obsGroup fun g => g.ro n l
def obsPair (n l : Nat) : State → Option W64 := obsGroup fun g => g.rv (n + 1) l ++ g.rv n l
def obsExm : State → Option W32 := obsGroup fun g => g.exm
def obsPc : State → Option (BitVec 14) := obsGroup fun g => g.pc
def obsExited : State → Option Bool := obsGroup fun g => g.exited

/-! Syntax: one ill-formed term for each check -/

set_option maxRecDepth 100000
set_option Elab.async false

theorem test_ill_floatSpec : Instr.check (.vaddF32 3 0xCA 1) = .error .illOperand := by decide
theorem test_ill_pairSpec : Instr.check (.vaddF64 4 3 6) = .error .illOperand := by decide
theorem test_ill_pairDest : Instr.check (.vaddF64 5 2 6) = .error .illOperand := by decide
theorem test_ill_byteSpec : Instr.check (.vdot4K8 3 0xF4 1) = .error .illOperand := by decide
theorem test_ill_rawSpec : Instr.check (.vaddI32 3 0xF4 1) = .error .illOperand := by decide
theorem test_ill_oneSpec : Instr.check (.vpopc 3 0xFF) = .error .illOperand := by decide
theorem test_ill_convType : Instr.check (.vcvt 3 1 0xC 0) = .error .illOperand := by decide
theorem test_ill_convPair : Instr.check (.vcvt 3 1 1 0) = .error .illOperand := by decide
theorem test_ill_compareCode : Instr.check (.vcmpF32 8 1 1 2) = .error .illOperand := by decide
theorem test_ill_comparePair : Instr.check (.vcmpF64 0 1 3 2) = .error .illOperand := by decide
theorem test_ill_compareInt : Instr.check (.vcmpI32 9 1 1 2) = .error .illOperand := by decide
theorem test_ill_sfuPair : Instr.check (.frcpF64 3 2) = .error .illOperand := by decide
theorem test_ill_waitSelect : Instr.check (.wait 3 0) = .error .illOperand := by decide
theorem test_ill_loadOrder : Instr.check (.ldB32 3 1 2 2) = .error .illOperand := by decide
theorem test_ill_loadOffset : Instr.check (.ldB32 3 1 0xF4 0) = .error .illOperand := by decide
theorem test_ill_loadPair : Instr.check (.ldB64 3 1 2 0) = .error .illOperand := by decide
theorem test_ill_loadQuad : Instr.check (.ldB128 2 1 2 0) = .error .illOperand := by decide
theorem test_ill_storeOrder : Instr.check (.stB32 3 1 2 1) = .error .illOperand := by decide
theorem test_ill_storePair : Instr.check (.stB64 3 1 2 0) = .error .illOperand := by decide
theorem test_ill_storeQuad : Instr.check (.stB128 2 1 2 0) = .error .illOperand := by decide
theorem test_ill_atomOffset : Instr.check (.atomAddI32 3 1 0xF7 0) = .error .illOperand := by decide
theorem test_ill_atomPair : Instr.check (.atomAddI64 3 1 2 0) = .error .illOperand := by decide
theorem test_ill_atomQuad : Instr.check (.atomCasB64 2 1 2 0) = .error .illOperand := by decide
theorem test_ill_scalarOffset : Instr.check (.cstB32 3 1 2 0) = .error .illOperand := by decide
theorem test_ill_scalarOrder : Instr.check (.ldS64 3 1 0xE0 2) = .error .illOperand := by decide
theorem test_ill_prfOrder : Instr.check (.prf 1 0xE0 1) = .error .illOperand := by decide
theorem test_ill_batchClass : Instr.check (.close 1 3) = .error .illOperand := by decide
theorem test_ill_barrierCount : Instr.check (.barSync 33 0) = .error .illOperand := by decide
theorem test_ill_fenceScope : Instr.check (.fence 5) = .error .illOperand := by decide
theorem test_ill_ticketObject : Instr.check (.tktTake 2) = .error .illOperand := by decide
theorem test_ill_orderedPair : Instr.check (.atomoAddI64 1 2 3) = .error .illOperand := by decide
theorem test_ill_sysNumber : Instr.check (.srd 1 0x00A) = .error .illOperand := by decide
theorem test_ill_sysReadOnly : Instr.check (.swr 1 0x000) = .error .illOperand := by decide
theorem test_ill_schedReserved : Instr.check (.hintSched 0 0 1) = .error .illOperand := by decide
theorem test_ill_modScope : Instr.check (.hintMod 0 0 0 0 0 0 0 0 0 0 5 0) = .error .illOperand := by decide
theorem test_ill_modReserved : Instr.check (.hintMod 0 0 0 0 0 0 0 0 0 0 0 1) = .error .illOperand := by decide
theorem test_ill_zeroWord : Instr.check (.vaddF32 0 0 0) = .error .zeroWord := by decide
theorem test_well_formed : Instr.check (.vfmaF32 3 1 0x82) = .ok () := by decide

/-! Decoding: the words that the spec writes out beside its assembly -/

theorem test_decode_01830182 : decode 0x01830182#32 = .ok (.vfmaF32 3 1 0x82) := by decide
theorem test_decode_10101008 : decode 0x10101008#32 = .ok (.vaddI32 16 16 8) := by decide
theorem test_decode_1C070182 : decode 0x1C070182#32 = .ok (.vbfx 7 1 0x82) := by decide
theorem test_decode_25020100 : decode 0x25020100#32 = .ok (.vredAddI32 2 1) := by decide
theorem test_decode_50030420 : decode 0x50030420#32 = .ok (.add 3 1 2) := by decide
theorem test_decode_58010830 : decode 0x58010830#32 = .ok (.kand 1 2 3) := by decide
theorem test_decode_600413FF : decode 0x600413FF#32 = .ok (.addi 4 4 0x3FF) := by decide
theorem test_decode_7213FFFD : decode 0x7213FFFD#32 = .ok (.brnz 4 0x3FFFD) := by decide
theorem test_decode_78040006 : decode 0x78040006#32 = .ok (.mif 1 6) := by decide
theorem test_decode_79000001 : decode 0x79000001#32 = .ok (.melse 1) := by decide
theorem test_decode_7A000000 : decode 0x7A000000#32 = .ok (.mend) := by decide
theorem test_decode_7B07FFFA : decode 0x7B07FFFA#32 = .ok (.mwhile 1 0x3FFFA) := by decide
theorem test_decode_8209101C : decode 0x8209101C#32 = .ok (.ldB32 9 4 7 0) := by decide
theorem test_decode_8E80101C : decode 0x8E80101C#32 = .ok (.prf 4 7 0) := by decide
theorem test_decode_8D050F80 : decode 0x8D050F80#32 = .ok (.cstB32 5 3 0xE0 0) := by decide
theorem test_decode_8D871214 : decode 0x8D871214#32 = .ok (.ldS64 7 4 0x85 0) := by decide
theorem test_decode_90010C14 : decode 0x90010C14#32 = .ok (.ldsB32 1 3 5 0) := by decide
theorem test_decode_A2C51870 : decode 0xA2C51870#32 = .ok (.lattach 5 6 7) := by decide
theorem test_decode_A3482400 : decode 0xA3482400#32 = .ok (.fold 8 9) := by decide
theorem test_decode_B0440001 : decode 0xB0440001#32 = .ok (.barArr 4 1) := by decide
theorem test_decode_B2000003 : decode 0xB2000003#32 = .ok (.fence 3) := by decide
theorem test_decode_C00B0830 : decode 0xC00B0830#32 = .ok (.obres 11 2 3) := by decide
theorem test_decode_C10B3400 : decode 0xC10B3400#32 = .ok (.mmaD 11 13 0) := by decide
theorem test_decode_C1C43140 : decode 0xC1C43140#32 = .ok (.mstore 4 12 20 0) := by decide
theorem test_decode_D0040C00 : decode 0xD0040C00#32 = .ok (.spawn 4 3) := by decide
theorem test_decode_D0C91000 : decode 0xD0C91000#32 = .ok (.join 9 4) := by decide
theorem test_decode_E0430460 : decode 0xE0430460#32 = .ok (.swr 3 0x046) := by decide
theorem test_decode_E2CA3C00 : decode 0xE2CA3C00#32 = .ok (.cres 10 15) := by decide
theorem test_decode_E3000000 : decode 0xE3000000#32 = .ok (.crel) := by decide
theorem test_decode_00000000 : decode 0x00000000#32 = .error .zeroWord := by decide
theorem test_decode_FC000000 : decode 0xFC000000#32 = .error .reservedCode := by decide
theorem test_decode_0C800001 : decode 0x0C800001#32 = .error .unusedField := by decide
theorem test_decode_0D000000 : decode 0x0D000000#32 = .error .reservedCode := by decide

end Sys2Proof.Tests

/-- A group with one more entry on its mask stack. -/
def Sys2Proof.Machine.Group.pushMask (g : Group) (outer alt : W32) (els : Bool) : Group :=
  { g with stack := { outer := outer, alt := alt, els := els } :: g.stack }
end

