-- ==== Sys2Proof/Tests/Machine.lean ====
section
/-! SUPPORT. One step of the words that act on memory and on the machine around their group, and of events. The
encodings are those of the opcode table; the expected results are computed by hand from the rules. -/

/-- A group with a valid handler at word 0x40 of slot 0. -/
def Sys2Proof.Machine.Group.handling (g : Group) : Group := { g with trap := { g.trap with tvec := 0x8040 } }

namespace Sys2Proof.Tests

open Sys2Proof.Machine

set_option maxRecDepth 100000
set_option Elab.async false

def afterEvent {α : Type} (i : Instr) (s : State) (obs : State → Option α) : Option α :=
  match exec i s with
  | .next t => obs t
  | _ => none

/-- A machine with a team of one group. -/
def idle : State := about 0x7D000000

def obsMem (pa n : Nat) (t : State) : Option Nat := some (Memory.readNat t.mem pa n)
def obsSpad (off n : Nat) (t : State) : Option Nat := (t.team? 0).map fun tm => spNat tm off n

def poke (pa : Nat) (bs : List Byte) (s : State) : State := { s with mem := Memory.writeBytes s.mem pa bs }

/-- Page 1 of context 0 is cached as frame 0x5000. -/
def mapped (s : State) : State :=
  { s with clusters := SMap.put s.clusters 0 { s.cluster 0 with tlb :=
      [{ ctx := 0, page := 1, frame := 0x5000, rd := true, w := true, xn := true, mt := 0, chk := false, syso := false
         dirty := true, bits := 12, ipas := [] }] } }

/-- One step; the queued entry of the group, if it has one, performs next. -/
noncomputable def performed (s : State) : State :=
  match step s with
  | .next t => { t with moves := [.event (.storePerform 0 1)] }
  | _ => s

/-- One step; the outstanding load of the group lands next. -/
noncomputable def landed (s : State) : State :=
  match step s with
  | .next t => { t with moves := [.event (.loadLand 0 1 [.home, .home])] }
  | _ => s

def queued (acc : Access) : State :=
  { idle with groups := SMap.adjust idle.groups 0 fun g => { g with sq := [{ id := 0, unit := 0, acc := acc }] } }

def loading (acc : Access) (s : State) : State :=
  { s with groups := SMap.adjust s.groups 0 fun g => { g with ls := [{ id := 0, unit := 0, acc := acc }] } }

def teamed (f : Team → Team) (s : State) : State := { s with teams := SMap.adjust s.teams 0 f }

def spadded (bytes : SMap Byte) : State → State := teamed fun t => { t with shape := { t.shape with spad := 4096 }, spad := bytes }

/-- Group 0 holds a reservation of 8 eighths of an ampere. -/
def drawing (s : State) : State :=
  { s with strings := SMap.adjust s.strings 0 fun q => { q with held := q.held ++ [{ who := .cres 0, tile := 0, amount := 8 }] } }

/-- The team has a second group. -/
def paired (s : State) : State :=
  { teamed (fun t => { t with shape := { t.shape with groups := 2 } }) s with groups := SMap.put s.groups 1 {} }

/-- The team's grid is a neighbourhood. -/
def joined (s : State) : State := { s with grids := SMap.adjust s.grids 0 fun g => { g with nbh := true } }

/-- The team's core holds overlay 1 in slot 0, where the group runs, and overlay 2 in slot 1; the launch lists both. -/
def overlaid (s : State) : State :=
  { teamed (fun t => { t with shape := { t.shape with ovid := 1 } }) s with
    cores := SMap.put s.cores 0 { s.core 0 with tag0 := some ((overlayKey s ((s.team? 0).getD { ctx := 0, tag := 0 })).1, 1)
                                                tag1 := some ((overlayKey s ((s.team? 0).getD { ctx := 0, tag := 0 })).1, 2) }
    launches := SMap.adjust s.launches 0 fun l => { l with onum := 3 } }

/-- The team's grid has a ticket object at physical address 0x5000. -/
def ticketed (s : State) : State :=
  { s with grids := SMap.adjust s.grids 0 fun g => { g with tickets := [{ addr := 0x5000, va := 0x1000 }] } }


/-! Global memory: page 1 of context 0 is cached as the DRAM frame 0x5000 (R26) -/

theorem test_ldB8 : after (mapped (about 0x80040780 fun g => (g.setExm 1).setS 1 0x1008)) (obsGroup fun g => g.ls.map fun e => e.acc.lanes.map fun a => (a.pa, e.acc.size)) = some [[(0x5008, 1)]] := by decide +kernel
theorem test_ldI8 : after (mapped (about 0x80840780 fun g => (g.setExm 1).setS 1 0x1008)) (obsGroup fun g => g.ls.map fun e => e.acc.lanes.map fun a => (a.pa, e.acc.size)) = some [[(0x5008, 1)]] := by decide +kernel
theorem test_ldB16 : after (mapped (about 0x81040780 fun g => (g.setExm 1).setS 1 0x1008)) (obsGroup fun g => g.ls.map fun e => e.acc.lanes.map fun a => (a.pa, e.acc.size)) = some [[(0x5008, 2)]] := by decide +kernel
theorem test_ldI16 : after (mapped (about 0x81840780 fun g => (g.setExm 1).setS 1 0x1008)) (obsGroup fun g => g.ls.map fun e => e.acc.lanes.map fun a => (a.pa, e.acc.size)) = some [[(0x5008, 2)]] := by decide +kernel
theorem test_ldB32 : after (mapped (about 0x82040780 fun g => (g.setExm 1).setS 1 0x1008)) (obsGroup fun g => g.ls.map fun e => e.acc.lanes.map fun a => (a.pa, e.acc.size)) = some [[(0x5008, 4)]] := by decide +kernel
theorem test_ldB64 : after (mapped (about 0x82840780 fun g => (g.setExm 1).setS 1 0x1008)) (obsGroup fun g => g.ls.map fun e => e.acc.lanes.map fun a => (a.pa, e.acc.size)) = some [[(0x5008, 8)]] := by decide +kernel
theorem test_ldB128 : after (mapped (about 0x83040780 fun g => (g.setExm 1).setS 1 0x1010)) (obsGroup fun g => g.ls.map fun e => e.acc.lanes.map fun a => a.pa) = some [[0x5010, 0x5018]] := by decide +kernel
theorem test_stB8 : after (mapped (about 0x83840780 fun g => (((g.setExm 1).setV 4 0 0x11223344).setV 5 0 7).setS 1 0x1008)) (obsGroup fun g => g.sq.map fun e => e.acc.lanes.map fun a => (a.pa, a.data)) = some [[(0x5008, 0x44)]] := by decide +kernel
theorem test_stB16 : after (mapped (about 0x84040780 fun g => (((g.setExm 1).setV 4 0 0x11223344).setV 5 0 7).setS 1 0x1008)) (obsGroup fun g => g.sq.map fun e => e.acc.lanes.map fun a => (a.pa, a.data)) = some [[(0x5008, 0x3344)]] := by decide +kernel
theorem test_stB32 : after (mapped (about 0x84840780 fun g => (((g.setExm 1).setV 4 0 0x11223344).setV 5 0 7).setS 1 0x1008)) (obsGroup fun g => g.sq.map fun e => e.acc.lanes.map fun a => (a.pa, a.data)) = some [[(0x5008, 0x11223344)]] := by decide +kernel
theorem test_stB64 : after (mapped (about 0x85040780 fun g => (((g.setExm 1).setV 4 0 0x11223344).setV 5 0 7).setS 1 0x1008)) (obsGroup fun g => g.sq.map fun e => e.acc.lanes.map fun a => (a.pa, a.data)) = some [[(0x5008, 0x0000000711223344)]] := by decide +kernel
theorem test_stB128 : after (mapped (about 0x85840780 fun g => ((g.setExm 1).setV 6 0 9).setS 1 0x1010)) (obsGroup fun g => g.sq.map fun e => e.acc.lanes.map fun a => (a.pa, a.data)) = some [[(0x5010, 0)], [(0x5018, 9)]] := by decide +kernel
theorem test_ld_misaligned : after (mapped (about 0x82040780 fun g => ((g.setExm 1).setS 1 0x100A).handling)) (obsGroup fun g => (g.trap.tcause, g.pc)) = some (0x20, 0x40) := by decide +kernel
theorem test_atomAddI32 : after (performed (mapped (poke 0x5008 [0x5, 0x0, 0x0, 0x0] (about 0x86040780 fun g => ((g.setExm 1).setV 4 0 0x7).setS 1 0x1008)))) (obsMem 0x5008 4) = some 0xC := by decide +kernel
theorem test_atomMinI32 : after (performed (mapped (poke 0x5008 [0xFF, 0xFF, 0xFF, 0xFF] (about 0x87840780 fun g => ((g.setExm 1).setV 4 0 0x7).setS 1 0x1008)))) (obsMem 0x5008 4) = some 0xFFFFFFFF := by decide +kernel
theorem test_atomMaxI32 : after (performed (mapped (poke 0x5008 [0xFF, 0xFF, 0xFF, 0xFF] (about 0x88040780 fun g => ((g.setExm 1).setV 4 0 0x7).setS 1 0x1008)))) (obsMem 0x5008 4) = some 0x7 := by decide +kernel
theorem test_atomMinN32 : after (performed (mapped (poke 0x5008 [0xFF, 0xFF, 0xFF, 0xFF] (about 0x88840780 fun g => ((g.setExm 1).setV 4 0 0x7).setS 1 0x1008)))) (obsMem 0x5008 4) = some 0x7 := by decide +kernel
theorem test_atomMaxN32 : after (performed (mapped (poke 0x5008 [0xFF, 0xFF, 0xFF, 0xFF] (about 0x89040780 fun g => ((g.setExm 1).setV 4 0 0x7).setS 1 0x1008)))) (obsMem 0x5008 4) = some 0xFFFFFFFF := by decide +kernel
theorem test_atomAndB32 : after (performed (mapped (poke 0x5008 [0xC, 0x0, 0x0, 0x0] (about 0x89840780 fun g => ((g.setExm 1).setV 4 0 0xA).setS 1 0x1008)))) (obsMem 0x5008 4) = some 0x8 := by decide +kernel
theorem test_atomOrB32 : after (performed (mapped (poke 0x5008 [0xC, 0x0, 0x0, 0x0] (about 0x8A040780 fun g => ((g.setExm 1).setV 4 0 0xA).setS 1 0x1008)))) (obsMem 0x5008 4) = some 0xE := by decide +kernel
theorem test_atomXorB32 : after (performed (mapped (poke 0x5008 [0xC, 0x0, 0x0, 0x0] (about 0x8A840780 fun g => ((g.setExm 1).setV 4 0 0xA).setS 1 0x1008)))) (obsMem 0x5008 4) = some 0x6 := by decide +kernel
theorem test_atomExchB32 : after (performed (mapped (poke 0x5008 [0xC, 0x0, 0x0, 0x0] (about 0x8B040780 fun g => ((g.setExm 1).setV 4 0 0xA).setS 1 0x1008)))) (obsMem 0x5008 4) = some 0xA := by decide +kernel
theorem test_atomAddF32 : after (performed (mapped (poke 0x5008 [0x0, 0x0, 0xC0, 0x3F] (about 0x87040780 fun g => ((g.setExm 1).setV 4 0 0x40000000).setS 1 0x1008)))) (obsMem 0x5008 4) = some 0x40600000 := by decide +kernel
theorem test_atomCasB32 : after (performed (mapped (poke 0x5008 [5, 0, 0, 0] (about 0x8C040780 fun g => (((g.setExm 1).setV 4 0 5).setV 5 0 9).setS 1 0x1008)))) (obsMem 0x5008 4) = some 9 := by decide +kernel
theorem test_atomCasB32_other : after (performed (mapped (poke 0x5008 [6, 0, 0, 0] (about 0x8C040780 fun g => (((g.setExm 1).setV 4 0 5).setV 5 0 9).setS 1 0x1008)))) (obsMem 0x5008 4) = some 6 := by decide +kernel
theorem test_atomAddI64 : after (performed (mapped (poke 0x5008 [0xFF, 0xFF, 0xFF, 0xFF] (about 0x86840780 fun g => ((g.setExm 1).setV 4 0 1).setS 1 0x1008)))) (obsMem 0x5008 8) = some 0x100000000 := by decide +kernel
theorem test_atomExchB64 : after (performed (mapped (about 0x8B840780 fun g => (((g.setExm 1).setV 4 0 1).setV 5 0 2).setS 1 0x1008))) (obsMem 0x5008 8) = some 0x200000001 := by decide +kernel
theorem test_atomCasB64 : after (performed (mapped (about 0x8C840780 fun g => (((g.setExm 1).setV 6 0 1).setV 7 0 2).setS 1 0x1008))) (obsMem 0x5008 8) = some 0x200000001 := by decide +kernel
theorem test_cstB32 : after (mapped (about 0x8D040780 fun g => (((g.setExm 0x14).setV 4 2 0xA).setV 4 4 0xB).setS 1 0x1008)) (obsGroup fun g => g.sq.map fun e => e.acc.lanes.map fun a => (a.pa, a.data)) = some [[(0x5008, 0xA)], [(0x500C, 0xB)]] := by decide +kernel
theorem test_ldS64 : after (mapped (about 0x8D840780 fun g => g.setS 1 0x1008)) (obsGroup fun g => g.ls.map fun e => (e.acc.dest, e.acc.lanes.map fun a => a.pa)) = some [(.scalar 4, [0x5008])] := by decide +kernel
theorem test_stS64 : after (mapped (about 0x8E040780 fun g => (g.setS 1 0x1008).setS 4 77)) (obsGroup fun g => g.sq.map fun e => e.acc.lanes.map fun a => (a.pa, a.data)) = some [[(0x5008, 77)]] := by decide +kernel
theorem test_prf : after (mapped (about 0x8E800780 fun g => (g.setExm 1).setS 1 0x1008)) (fun t => some (SMap.keys (t.cluster 0).crc)) = some [0x5008 / 64] := by decide +kernel
theorem test_storePerform : afterEvent (.storePerform 0 0) (queued { kind := .store, size := 4, lanes := [{ lane := 0, va := 0x1008, pa := 0x5008, data := 0x11223344 }] }) (obsMem 0x5008 4) = some 0x11223344 := by decide +kernel
theorem test_loadLand : afterEvent (.loadLand 0 0 [.home]) (loading { kind := .load true, size := 1, dest := .vec 4, lanes := [{ lane := 0, va := 0x1008, pa := 0x5008 }] } (poke 0x5008 [0x80] idle)) (obsV 4 0) = some 0xFFFFFF80 := by decide +kernel

/-! Scratchpad (R246): a team with 4,096 bytes -/

theorem test_ldsB32 : after (landed (spadded [(0x10, 0x80), (0x11, 1), (0x14, 2)] (about 0x90040780 fun g => ((g).setExm 1).setS 1 0x10))) (obsV 4 0) = some 0x180 := by decide +kernel
theorem test_ldsB8 : after (landed (spadded [(0x10, 0x80), (0x11, 1), (0x14, 2)] (about 0x93040780 fun g => ((g).setExm 1).setS 1 0x10))) (obsV 4 0) = some 0x80 := by decide +kernel
theorem test_ldsB16 : after (landed (spadded [(0x10, 0x80), (0x11, 1), (0x14, 2)] (about 0x94040780 fun g => ((g).setExm 1).setS 1 0x10))) (obsV 4 0) = some 0x180 := by decide +kernel
theorem test_ldsB64 : after (landed (spadded [(0x10, 0x80), (0x11, 1), (0x14, 2)] (about 0x90840780 fun g => ((g).setExm 1).setS 1 0x10))) (obsPair 4 0) = some 0x200000180 := by decide +kernel
theorem test_ldsB128 : after (landed (spadded [(0x10, 0x80), (0x11, 1), (0x14, 2)] (about 0x91040780 fun g => ((g).setExm 1).setS 1 0x10))) (obsPair 4 0) = some 0x200000180 := by decide +kernel
theorem test_ldsS64 : after (landed (spadded [(0x10, 0x80), (0x11, 1), (0x14, 2)] (about 0x99040780 fun g => ((g).setExm 1).setS 1 0x10))) (obsS 4) = some 0x200000180 := by decide +kernel
theorem test_stsB32 : after (performed (spadded [] (about 0x91840780 fun g => ((g.setV 4 0 0x11223344).setExm 1).setS 1 0x10))) (obsSpad 0x10 4) = some 0x11223344 := by decide +kernel
theorem test_stsB8 : after (performed (spadded [] (about 0x93840780 fun g => ((g.setV 4 0 0x11223344).setExm 1).setS 1 0x10))) (obsSpad 0x10 4) = some 0x44 := by decide +kernel
theorem test_stsB16 : after (performed (spadded [] (about 0x94840780 fun g => ((g.setV 4 0 0x11223344).setExm 1).setS 1 0x10))) (obsSpad 0x10 4) = some 0x3344 := by decide +kernel
theorem test_stsB64 : after (performed (spadded [] (about 0x92040780 fun g => ((g.setV 5 0 1).setExm 1).setS 1 0x10))) (obsSpad 0x10 8) = some 0x100000000 := by decide +kernel
theorem test_stsB128 : after (performed (spadded [] (about 0x92840780 fun g => ((g.setV 5 0 1).setExm 1).setS 1 0x10))) (obsSpad 0x10 8) = some 0x100000000 := by decide +kernel
theorem test_stsS64 : after (performed (spadded [] (about 0x99840780 fun g => ((g.setS 4 77).setExm 1).setS 1 0x10))) (obsSpad 0x10 8) = some 77 := by decide +kernel
theorem test_atomsAddI32 : after (performed (spadded [(16, 0x5)] (about 0x96040780 fun g => ((g.setV 4 0 0x7).setExm 1).setS 1 0x10))) (obsSpad 0x10 4) = some 0xC := by decide +kernel
theorem test_atomsMinI32 : after (performed (spadded [(16, 0xFF), (17, 0xFF), (18, 0xFF), (19, 0xFF)] (about 0x96840780 fun g => ((g.setV 4 0 0x7).setExm 1).setS 1 0x10))) (obsSpad 0x10 4) = some 0xFFFFFFFF := by decide +kernel
theorem test_atomsMaxI32 : after (performed (spadded [(16, 0xFF), (17, 0xFF), (18, 0xFF), (19, 0xFF)] (about 0x97040780 fun g => ((g.setV 4 0 0x7).setExm 1).setS 1 0x10))) (obsSpad 0x10 4) = some 0x7 := by decide +kernel
theorem test_atomsExchB32 : after (performed (spadded [(16, 0xC)] (about 0x97840780 fun g => ((g.setV 4 0 0xA).setExm 1).setS 1 0x10))) (obsSpad 0x10 4) = some 0xA := by decide +kernel
theorem test_atomsCasB32 : after (performed (spadded [(16, 5)] (about 0x98040780 fun g => (((g.setV 4 0 5).setV 5 0 9).setExm 1).setS 1 0x10))) (obsSpad 0x10 4) = some 9 := by decide +kernel
theorem test_sts_outside : after (spadded [] (about 0x91840780 fun g => ((g.setExm 1).setS 1 0x1000).handling)) (obsGroup fun g => (g.trap.tcause, g.pc)) = some (0x80, 0x40) := by decide +kernel
theorem test_ldnB32 : after (landed (joined (spadded [(0x10, 0x80), (0x11, 1), (0x14, 2)] (about 0x95040780 fun g => (g.setExm 1).setS 1 0x10)))) (obsV 4 0) = some 0x180 := by decide +kernel
theorem test_stnB32 : after (performed (joined (spadded [] (about 0x95840780 fun g => ((g.setExm 1).setS 1 0x10).setV 4 0 6)))) (obsSpad 0x10 4) = some 6 := by decide +kernel
theorem test_atomnAddI32 : after (performed (joined (spadded [(16, 5)] (about 0x98840780 fun g => ((g.setExm 1).setS 1 0x10).setV 4 0 6)))) (obsSpad 0x10 4) = some 11 := by decide +kernel

/-! System registers, traps, overlays (R204, R297 to R306) -/

theorem test_srd_al : after (about 0xE0030100) (obsS 3) = some 0xFFFFFFFFF := by decide +kernel
theorem test_srd_tidx : after (about 0xE0030050) (obsS 3) = some 1 := by decide +kernel
theorem test_swr : after (about 0xE0430460 fun g => g.setS 3 0xF5) (obsGroup fun g => g.trap.tmode) = some 5 := by decide +kernel
theorem test_swr_readonly : after (about 0xE0430000 fun g => g.handling) (obsGroup fun g => (g.trap.tcause, g.pc)) = some (0x4, 0x40) := by decide +kernel
theorem test_trap : after (about 0xE0800005 fun g => g.handling) (obsGroup fun g => (g.pc, g.trap.tpc)) = some (0x40, 1) := by decide +kernel
theorem test_brk : after (about 0xE1400005 fun g => g.handling) (obsGroup fun g => (g.pc, g.trap.tpc)) = some (0x40, 1) := by decide +kernel
theorem test_tret : after (about 0xE0C00000 fun g => { g.handling with trap := { g.handling.trap with handler := some { exm := 0xFF, stack := [] }, tpc := 9, tmask := 0xF0F } }) (obsGroup fun g => (g.pc, g.exm)) = some (9, 0xF) := by decide +kernel
theorem test_tclr : after (about 0xE1030000 fun g => { g.setS 3 6 with trap := { g.trap with tcause := 7 } }) (obsGroup fun g => g.trap.tcause) = some 1 := by decide +kernel
theorem test_div0 : after (about 0x51430420 fun g => (g.setS 1 5).handling) (obsGroup fun g => (g.pc, g.rs 3)) = some (0x40, 0) := by decide +kernel
theorem test_zeroWord : after (about 0 fun g => g.handling) (obsGroup fun g => (g.trap.tcause, g.pc)) = some (0x2, 0x40) := by decide +kernel
theorem test_unusedAndBudget : after (about 0x0CF8CA01 fun g => g.handling) (obsGroup fun g => (g.trap.tcause, g.pc)) = some (0x6, 0x40) := by decide +kernel
theorem test_ovcall : after (overlaid (about 0xE2030000 fun g => g.setS 3 0x20005)) (obsGroup fun g => (g.slot, g.pc, g.rs 63)) = some (1, 5, 0x10001) := by decide +kernel
theorem test_ovret : after (overlaid (about 0xE2430000 fun g => g.setS 3 0x20005)) (obsGroup fun g => (g.slot, g.pc)) = some (1, 5) := by decide +kernel
theorem test_ovld : after (overlaid (about 0xE1C30000 fun g => g.setS 3 2)) (obsPc) = some 1 := by decide +kernel
theorem test_pwrq : after (about 0xE2830000) (obsS 3) = some 0 := by decide +kernel
theorem test_jmark : after (about 0xE1830000) (obsPc) = some 1 := by decide +kernel
theorem test_cres : after (about 0xE2C31000 fun g => g.setS 4 8) (obsGroup fun g => (g.rs 3, g.cres)) = some (8, some 8) := by decide +kernel
theorem test_crel : after (drawing (about 0xE3000000 fun g => { g with cres := some 8 })) (fun t => some ((t.str 0).holds (.cres 0))) = some false := by decide +kernel
theorem test_crel_none : after (about 0xE3000000 fun g => g.handling) (obsGroup fun g => (g.trap.tcause, g.pc)) = some (0x80000, 0x40) := by decide +kernel
theorem test_hintImm : after (about 0xF0000005) (obsGroup fun g => g.hints.length) = some 1 := by decide +kernel
theorem test_hintSched : after (about 0xF4580000) (obsGroup fun g => g.hints) = some [.sched 5 true false] := by decide +kernel
theorem test_hintMod : after (about 0xF9800000) (obsGroup fun g => g.hints) = some [.mod { rnd := 1, sat := true, scope := 0 } false] := by decide +kernel

/-! Synchronisation (R254 to R262) -/

theorem test_barSync : after (about 0xB0010003) (obsPc) = some 1 := by decide +kernel
theorem test_barSync_held : after (paired (about 0xB0020003)) (obsGroup fun g => g.hold.isSome) = some true := by decide +kernel
theorem test_barArr : after (paired (about 0xB0420003)) (obsPc) = some 1 := by decide +kernel
theorem test_barRedAddI32 : after (about 0xB0811053 fun g => g.setS 4 7) (obsS 5) = some 7 := by decide +kernel
theorem test_barRedMaxI32 : after (about 0xB1011053 fun g => g.setS 4 7) (obsS 5) = some 7 := by decide +kernel
theorem test_barRedMinI32 : after (about 0xB1411053 fun g => g.setS 4 7) (obsS 5) = some 7 := by decide +kernel
theorem test_barRedAnd : after (about 0xB1811053 fun g => g.setS 4 7) (obsS 5) = some 7 := by decide +kernel
theorem test_barRedOr : after (about 0xB1C11053 fun g => g.setS 4 7) (obsS 5) = some 7 := by decide +kernel
theorem test_barRedAddF32 : after (about 0xB0C11053 fun g => g.setS 4 0x3FC00000) (obsS 5) = some 0x3FC00000 := by decide +kernel
theorem test_fence : after (about 0xB2000003) (obsPc) = some 1 := by decide +kernel
theorem test_tktTake : after (ticketed (about 0xB2C00000)) (obsPc) = some 1 := by decide +kernel
theorem test_tktSkip : after (ticketed (about 0xB3000000)) (fun t => (t.grid? 0).map fun gd => gd.tickets.map (·.next)) = some [1] := by decide +kernel
theorem test_atomoAddF32 : after (performed (mapped (about 0xB3410840 fun g => (g.setExm 1).setS 1 0x1008 |>.setV 4 0 0x40200000))) (obsMem 0x5008 4) = some 0x40200000 := by decide +kernel
theorem test_atomoAddI64 : after (performed (mapped (about 0xB3810840 fun g => (g.setExm 1).setS 1 0x1008 |>.setV 4 0 9))) (obsMem 0x5008 8) = some 9 := by decide +kernel
theorem test_boinit : after (spadded [] (about 0xA1010800 fun g => (g.setS 1 0x20).setS 2 3)) (fun t => (t.team? 0).map fun tm => (BarObj.decode (spNat tm 0x20 8)).pend) = some 3 := by decide +kernel
theorem test_boarr : after (spadded [(0x20, 2)] (about 0xA1810000 fun g => g.setS 1 0x20)) (fun t => (t.team? 0).map fun tm => (BarObj.decode (spNat tm 0x20 8)).pend) = some 1 := by decide +kernel
theorem test_boexp : after (spadded [] (about 0xA1410800 fun g => (g.setS 1 0x20).setS 2 3)) (obsPc) = some 1 := by decide +kernel
theorem test_close : after (about 0xA0830000) (obsS 3) = some 1 := by decide +kernel
theorem test_waitb : after (about 0xA0C30000) (obsPc) = some 1 := by decide +kernel

/-! Tasks (R280 to R296) -/

theorem test_join_none : after (about 0xD0C31000 fun g => g.setS 4 5) (obsS 3) = some 0x80 := by decide +kernel
theorem test_tstat_none : after (about 0xD1431000 fun g => g.setS 4 5) (obsS 3) = some 0x80 := by decide +kernel
theorem test_topup : after (about 0xD1031050 fun g => (g.setS 4 5).setS 5 6) (obsGroup fun g => g.hold) = some (some (.topup 3 5 6)) := by decide +kernel
theorem test_resw : after (about 0xD1840000 fun g => g.setS 4 5) (fun t => (t.launch? 0).map (·.result)) = some 5 := by decide +kernel
theorem test_phend : after (about 0xD1C00000 fun g => g.handling) (obsPc) = some 0x40 := by decide +kernel
theorem test_qpop : after (spadded [] (about 0xD0831050)) (obsS 3) = some 0 := by decide +kernel
theorem test_spawnq : after (spadded [] (about 0xD0431050 fun g => g.setS 4 0x800000000)) (obsS 3) = some 2 := by decide +kernel

/-! Events -/

theorem test_dieTempChange : afterEvent (.dieTempChange 3 800) (idle) (fun t => some (t.cluster 3).dieTemp) = some 800 := by decide +kernel
theorem test_pkgCurrentHigh : afterEvent (.pkgCurrentHigh) (idle) (fun t => some (pstate t 5)) = some 4 := by decide +kernel
theorem test_pkgCurrentLow : afterEvent (.pkgCurrentLow) (idle) (fun t => some (pstate t 5)) = some 0 := by decide +kernel
theorem test_hcommit : afterEvent (.hcommit 3) (idle) (fun t => some t.dev.hcommit) = some (some 3) := by decide +kernel
theorem test_crcEvict : afterEvent (.crcEvict 0 5) ({ idle with clusters := [(0, { crc := [(5, { cells := [], at_ := 0 })] })] }) (fun t => some (SMap.keys (t.cluster 0).crc)) = some [] := by decide +kernel
theorem test_powerOn : afterEvent (.powerOn) (State.reset) (fun t => some t.boot.started) = some true := by decide +kernel
theorem test_linkDown : afterEvent (.linkDown 3) (State.reset) (fun t => some (NSet.has t.dev.portsDown 3, (t.fn 5).msix)) = some (true, [(3, 0)]) := by decide +kernel
theorem test_xinvPage_ignored : afterEvent (.xinvPage 3 1 0) (State.reset) (fun t => some (t.fn 3).xinvBusy) = some none := by decide +kernel
theorem test_launchAbort_none : afterEvent (.launchAbort 3) (State.reset) (fun t => some (t.fn 3).lcres) = some 1 := by decide +kernel
theorem test_weirLimitWrite : afterEvent (.weirLimitWrite 1 .latency 77) (State.reset) (fun t => some (SMap.look 0 t.dev.wlat 1)) = some 77 := by decide +kernel
theorem test_clockBoostStep : afterEvent (.clockBoostStep 3 true) (State.reset) (fun t => some (t.str 3).setClk) = some 3025 := by decide +kernel
theorem test_wearAccumulate : afterEvent (.wearAccumulate 3) (State.reset) (fun t => some (t.str 3).stress) = some 1 := by decide +kernel
theorem test_timingErrorReplay : afterEvent (.timingErrorReplay 3 9) (State.reset) (fun t => some (t.cluster 3).cyc) = some 9 := by decide +kernel
theorem test_rankRefresh : afterEvent (.rankRefresh 3 2) (State.reset) (fun t => some (NSet.has t.dev.blocked 26)) = some true := by decide +kernel
theorem test_registerWrite : afterEvent (.registerWrite 0 0x100E20 true 0x1003) ({ State.reset with boot := { started := true } }) (fun t => some (t.fn 0).dwatch0) = some 0x1003 := by decide +kernel

end Sys2Proof.Tests
end

