-- ==== Sys2Proof/Tests/Witness.lean ====
section
/-! SUPPORT. Witnesses: for each statement about words that act on registers alone, a concrete state and operands that
meet its hypotheses together. -/

namespace Sys2Proof.Tests

open Sys2Proof.Machine

set_option maxRecDepth 100000
set_option Elab.async false

/-- The group to move in `s` meets the hypotheses of a completing word with the checks of `info`, and `cond`. -/
def Meets (s : State) (info : View → Info) (cond : View → Prop) : Prop :=
  ∃ w, view s = some w ∧ Ready w (info w) ∧ Acts w (info w) ∧ PlainEnd w ∧ cond w

/-- `Ready`, `Acts` and `PlainEnd`, evaluated. -/
def readyB (w : View) (i : Info) : Bool :=
  mayPresent w && slotFree w && isPicked w && (preCauses w i).isEmpty && !i.named.any w.gr.awaits && !i.waits && (needsCurrent w i).isNone &&
    decide (w.cost i + i.moved ≤ w.t.al.toNat) && (i.mask != .skips || w.exm != 0) &&
    decide (w.wordPc + 1 < 16384) && (w.gr.trap.tmode.getLsbD 2 == false || w.gr.inHandler)

theorem readyB_sound {w : View} {i : Info} (h : readyB w i = true) : Ready w i ∧ Acts w i ∧ PlainEnd w := by
  simp only [readyB, Bool.and_eq_true, Bool.or_eq_true, decide_eq_true_eq, Bool.not_eq_true', List.isEmpty_iff,
    Option.isNone_iff_eq_none, bne_iff_ne, ne_eq, beq_iff_eq] at h
  obtain ⟨⟨⟨⟨⟨⟨⟨⟨⟨⟨a, k⟩, l⟩, b⟩, c⟩, d⟩, e⟩, f⟩, g⟩, i⟩, j⟩ := h
  refine ⟨⟨a, k, l, b, c, d, e, f⟩, fun m x => ?_, ⟨i, j⟩⟩
  rcases g with g | g
  · exact g m
  · exact g x

def meets (s : State) (info : View → Info) (cond : View → Bool) : Bool :=
  match view s with
  | none => false
  | some w => readyB w (info w) && cond w

theorem meets_of {s : State} {info : View → Info} {cond : View → Bool} (h : meets s info cond = true) :
    Meets s info fun w => cond w = true := by
  unfold meets at h
  split at h
  · cases h
  · next w hw =>
    rw [Bool.and_eq_true] at h
    obtain ⟨a, b, c⟩ := readyB_sound h.1
    exact ⟨w, hw, a, b, c, h.2⟩

theorem meets_plain {s : State} {info : View → Info} (h : meets s info (fun _ => true) = true) : Meets s info fun _ => True := by
  obtain ⟨w, a, b, c, d, _⟩ := meets_of h
  exact ⟨w, a, b, c, d, trivial⟩

/-- The causes can be taken in the handler at once. -/
def handlesB (w : View) (ds : List Detail) : Bool :=
  !w.gr.inHandler && w.gr.trap.tvec.getLsbD 15 && w.gr.lcnt == 0 && w.gr.fcnt == 0 && !watched w.s w.t &&
    (mergeDetails ds).all fun d => d.cause != Cause.jnlDiv

theorem handles_of {w : View} {ds : List Detail} (h : handlesB w ds = true) : Handles w ds := by
  unfold handlesB at h
  simp only [Bool.and_eq_true, Bool.not_eq_true', beq_iff_eq, List.all_eq_true, bne_iff_ne] at h
  obtain ⟨⟨⟨⟨⟨a, b⟩, c⟩, d⟩, e⟩, f⟩ := h
  exact ⟨⟨a, b⟩, ⟨c, d⟩, e, f⟩

/-! IntegerVectorWords -/

theorem witness_vaddI32 : Meets (about 0x10101008) (intInfo (operandsOk (.vaddI32 16 16 8)) 16 [16, 8] false) fun _ => True :=
  meets_plain (by decide +kernel)

theorem witness_vmadI32 : Meets (about 0x11901008) (intInfo (operandsOk (.vmadI32 16 16 8)) 16 [16, 8] true) fun _ => True :=
  meets_plain (by decide +kernel)

theorem witness_vpopc : Meets (about 0x1A90E500) (intInfo (operandsOk (.vpopc 16 0xE5)) 16 [0xE5] false) fun _ => True :=
  meets_plain (by decide +kernel)

/-! FloatVectorWords -/

theorem witness_vaddF32 : Meets (about 0x00030102) (fun w => { floatInfo (operandsOk (.vaddF32 3 1 2)) .f32 3 [1, 2] false w with zeroWord := (3 : BitVec 7) == 0 && (1 : BitVec 8) == 0 && (2 : BitVec 8) == 0 }) fun w => ((floatCauses w (laneResults w fun w l => binElems w .f32 1 2 Machine.Num.add l)).isEmpty) = true :=
  meets_of (by decide +kernel)

theorem witness_vsubF32 : Meets (about 0x00830102) (floatInfo (operandsOk (.vsubF32 3 1 2)) .f32 3 [1, 2] false) fun w => ((floatCauses w (laneResults w fun w l => binElems w .f32 1 2 Machine.Num.sub l)).isEmpty) = true :=
  meets_of (by decide +kernel)

theorem witness_vmulF64 : Meets (about 0x09060204) (floatInfo (operandsOk (.vmulF64 6 2 4)) .f64 6 [2, 4] false) fun w => ((floatCauses w (laneResults w fun w l => binElems w .f64 2 4 (fun _ => Machine.Num.mul) l)).isEmpty) = true :=
  meets_of (by decide +kernel)

theorem witness_vfmaF16x2 : Meets (about 0x04830102) (floatInfo (operandsOk (.vfmaF16x2 3 1 2)) .f16 3 [1, 2] true) fun w => ((floatCauses w (laneResults w fun w l => fmaElems w .f16 3 1 2 l)).isEmpty) = true :=
  meets_of (by decide +kernel)

theorem witness_vdot4K8 : Meets (about 0x0C030102) (floatInfo (operandsOk (.vdot4K8 3 1 2)) .int 3 [1, 2] true) fun w => ((floatCauses w (laneResults w fun w l => dotLane w 3 l (List.zipWith Machine.Num.mul (k8Nums w.mod.nega w.mod.absa (readSpec w .int 1 l)) (k8Nums w.mod.negb w.mod.absb (readSpec w .int 2 l))))).isEmpty) = true :=
  meets_of (by decide +kernel)

theorem witness_vfracF32 : Meets (about 0x0C830100) (floatInfo (operandsOk (.vfracF32 3 1)) .f32 3 [1] false) fun w => ((floatCauses w (laneResults w fun w l => roundElems w .f32 ((operandNums w .f32 false (readSpec w .f32 1 l)).map fracNum))).isEmpty) = true :=
  meets_of (by decide +kernel)

/-! ConversionWords -/

theorem witness_vcvt : Meets (about 0x20030140) (cvtInfo 3 1 4 0) fun w => ((floatCauses w (w.lanes.map fun l => (l, { bits := (cvtLane w .i32 .f32 1 l).1.bits, ovf := (cvtLane w .i32 .f32 1 l).1.ovf, invalid := (cvtLane w .i32 .f32 1 l).1.invalid }))).isEmpty) = true :=
  meets_of (by decide +kernel)

theorem witness_vcvt_f64 : Meets (about 0x20040110) (cvtInfo 4 1 1 0) fun w => ((floatCauses w (w.lanes.map fun l => (l, { bits := (cvtLane w .f64 .f32 1 l).1.bits, ovf := (cvtLane w .f64 .f32 1 l).1.ovf, invalid := (cvtLane w .f64 .f32 1 l).1.invalid }))).isEmpty) = true :=
  meets_of (by decide +kernel)

theorem witness_vrndF32 : Meets (about 0x20830100) (fun w => vecInfo w (operandsOk (.vrndF32 3 1)) .f32 3 [1] modFloat) fun w => ((floatCauses w (laneResults w fun w l => roundElems w .f32 ((operandNums w .f32 false (readSpec w .f32 1 l)).map (Num.roundInt w.rnd)))).isEmpty) = true :=
  meets_of (by decide +kernel)

/-! MoveWords -/

theorem witness_vmov : Meets (about 0x21030100) (moveInfo (operandsOk (.vmov 3 1)) 3 [1]) fun _ => True :=
  meets_plain (by decide +kernel)

theorem witness_vmovo : Meets (about 0x21820100) (fun w => { reads := specRegs .int 1, writes := [movoReg w 2], ok := operandsOk (.vmovo 2 1) && (!w.mod.odst || (2 : BitVec 3) == 0), imm := immUse [1], mods := modDest, pipe := some false }) fun _ => True :=
  meets_plain (by decide +kernel)

theorem witness_vlane : Meets (about 0x22030102) (fun w => { moveInfo (operandsOk (.vlane 3 1 2)) 3 [1, 2] w with reads := specRegs .int 2, names := specRegs .int 1, others := (specRegs .int 1).flatMap fun r => w.lanes.map fun l => (r, readSpec w .int 2 l % 32, l) }) fun _ => True :=
  meets_plain (by decide +kernel)

/-! ScanReduceWords -/

theorem witness_vscanF32 : Meets (about 0x24830100) (fun w => vecInfo w (operandsOk (.vscanF32 3 1)) .f32 3 [1] modRound) fun w => (!w.foe || (scanChain (addCodes w) (addOverflows w) none (activeValues w .f32 1)).2 == false) = true :=
  meets_of (by decide +kernel)

theorem witness_vredAddF32 : Meets (about 0x25830100) (fun w => vecInfo w (operandsOk (.vredAddF32 3 1)) .f32 3 [1] modRound) fun w => (!w.foe || (redTree w .f32 1 (addCodes w) (addOverflows w)).2 == false) = true :=
  meets_of (by decide +kernel)

/-! BallotCompressExpand -/

theorem witness_vballot : Meets (about 0x27030100) (fun _ => { reads := specRegs .int 1, writes := [.s 3], ok := operandsOk (.vballot 3 1), imm := immUse [1], mods := modZero, pipe := some false }) fun _ => True :=
  meets_plain (by decide +kernel)

theorem witness_vcompress : Meets (about 0x27830101 fun g => g.setK 1 0x220) (selInfo (operandsOk (.vcompress 3 1 1)) 3 1 1 fun w => (selLanes w 1).map fun l => (l, l)) fun _ => True :=
  meets_plain (by decide +kernel)

theorem witness_vexpand : Meets (about 0x28030101 fun g => g.setK 1 0x220) (selInfo (operandsOk (.vexpand 3 1 1)) 3 1 1 fun w => (List.range (selLanes w 1).length).zip (selLanes w 1)) fun _ => True :=
  meets_plain (by decide +kernel)

/-! CompareWords -/

theorem witness_vcmpF64 : Meets (about 0x30910204) (maskInfo (operandsOk (.vcmpF64 2 1 2 4)) .f64 1 2 4 modSigns 1) fun _ => True :=
  meets_plain (by decide +kernel)

theorem witness_vcmpI32 : Meets (about 0x31110204) (maskInfo (operandsOk (.vcmpI32 2 1 2 4)) .int 1 2 4 modZero 0) fun _ => True :=
  meets_plain (by decide +kernel)

theorem witness_vclsF32 : Meets (about 0x32030100) (fun w => vecInfo w (operandsOk (.vclsF32 3 1)) .f32 3 [1] modClass) fun _ => True :=
  meets_plain (by decide +kernel)

theorem witness_vselK7 : Meets (about 0x37830102) (fun w => let c := vecInfo w (operandsOk (.vselK7 3 1 2)) .int 3 [1, 2] modDest; { c with reads := c.reads ++ [.k 7] }) fun _ => True :=
  meets_plain (by decide +kernel)

/-! SfuWords: with FOE = 0 and with FOE = 1 -/

theorem witness_sfu : Meets (about 0x40030100) (fun w => { vecInfo w (operandsOk (.frcpF32 3 1)) .f32 3 [1] modSfu false false 3 with pipe := some true }) fun w => (!w.foe) = true :=
  meets_of (by decide +kernel)

theorem witness_sfu_foe : Meets (about 0x40030100 fun g => { g with trap := { g.trap with tmode := 2 } }) (fun w => { vecInfo w (operandsOk (.frcpF32 3 1)) .f32 3 [1] modSfu false false 3 with pipe := some true }) fun w => (w.foe) = true :=
  meets_of (by decide +kernel)

/-! ScalarRegisterWords, ScalarImmediateWords, DivisionWords -/

theorem witness_add : Meets (about 0x50030420) (fun _ => scalarInfo [1, 2] [3]) fun _ => True :=
  meets_plain (by decide +kernel)

theorem witness_clz : Meets (about 0x56030400) (fun _ => scalarInfo [1] [3]) fun _ => True :=
  meets_plain (by decide +kernel)

theorem witness_addi : Meets (about 0x600307FF) (fun _ => scalarInfo [1] [3] true .simm) fun _ => True :=
  meets_plain (by decide +kernel)

theorem witness_shli : Meets (about 0x6103043F) (fun w => scalarInfo [1] [3] ((w.immS 63).toNat < 64) .simm) fun _ => True :=
  meets_plain (by decide +kernel)

theorem witness_li : Meets (about 0x62830200) (fun _ => scalarInfo [] [3] true .simm) fun _ => True :=
  meets_plain (by decide +kernel)

theorem witness_division : Meets (about 0x51430420 fun g => g.setS 2 1) (fun _ => scalarInfo [1, 2] [3]) fun w => (w.gr.rs 2 != 0) = true :=
  meets_of (by decide +kernel)

theorem witness_division_by_zero : Meets (about 0x51430420 fun g => g.handling) (fun _ => scalarInfo [1, 2] [3]) fun w => (w.gr.rs 2 == 0 && handlesB w [{ cause := Cause.div0 }]) = true :=
  meets_of (by decide +kernel)

/-! MaskWords -/

theorem witness_kand : Meets (about 0x58030420) (fun _ => maskWordInfo [.k 1, .k 2] [.k 3]) fun _ => True :=
  meets_plain (by decide +kernel)

theorem witness_kffs : Meets (about 0x59830400) (fun _ => maskWordInfo [.k 1] [.s 3]) fun _ => True :=
  meets_plain (by decide +kernel)

theorem witness_exmrd : Meets (about 0x5A430000) (fun _ => maskWordInfo [] [.s 3] .acts) fun _ => True :=
  meets_plain (by decide +kernel)

theorem witness_exmwr : Meets (about 0x5A800400) (fun _ => maskWordInfo [.s 1] []) fun _ => True :=
  meets_plain (by decide +kernel)

/-! BranchWords: taken and not taken -/

theorem witness_brz_taken : Meets (about 0x71040005) (fun _ => controlInfo [.s 1] []) fun w => (w.gr.rs 1 == 0 && 0 ≤ relTarget w 5 && decide (relTarget w 5 < 16384)) = true :=
  meets_of (by decide +kernel)

theorem witness_brz_not : Meets (about 0x71040005 fun g => g.setS 1 1) (fun _ => controlInfo [.s 1] []) fun w => (!(w.gr.rs 1 == 0)) = true :=
  meets_of (by decide +kernel)

theorem witness_brany_taken : Meets (about 0x73040005 fun g => g.setK 1 1) (fun _ => controlInfo [.k 1] [] [] .acts) fun w => (w.gr.rk 1 &&& w.exm != 0 && 0 ≤ relTarget w 5 && decide (relTarget w 5 < 16384)) = true :=
  meets_of (by decide +kernel)

theorem witness_brany_not : Meets (about 0x73040005 fun g => g.setExm 0) (fun _ => controlInfo [.k 1] [] [] .acts) fun w => (!(w.gr.rk 1 &&& w.exm != 0)) = true :=
  meets_of (by decide +kernel)

theorem witness_brall_empty : Meets (about 0x74040005 fun g => g.setExm 0) (fun _ => controlInfo [.k 1] [] [] .acts) fun w => (w.gr.rk 1 &&& w.exm == w.exm && 0 ≤ relTarget w 5 && decide (relTarget w 5 < 16384)) = true :=
  meets_of (by decide +kernel)

theorem witness_ret : Meets (about 0x76040000 fun g => g.setS 1 9) (fun _ => controlInfo [.s 1] []) fun w => (decide (((w.gr.rs 1).toNat : Int) < 16384)) = true :=
  meets_of (by decide +kernel)

theorem witness_call : Meets (about 0x75000005) (fun _ => controlInfo [] [.s 63]) fun w => (0 ≤ relTarget w 5 && decide (relTarget w 5 < 16384)) = true :=
  meets_of (by decide +kernel)

/-! RegionWords: with and without a transfer -/

theorem witness_mif_jumps : Meets (about 0x78040005) (fun w => controlInfo [.k 1] [] (illConv w (w.gr.stack.length == 64)) .acts) fun w => ((w.gr.exm &&& w.gr.rk 1) == 0 && 0 ≤ relTarget w 5 && decide (relTarget w 5 < 16384)) = true :=
  meets_of (by decide +kernel)

theorem witness_mif_enters : Meets (about 0x78040005 fun g => g.setK 1 1) (fun w => controlInfo [.k 1] [] (illConv w (w.gr.stack.length == 64)) .acts) fun w => (!((w.gr.exm &&& w.gr.rk 1) == 0)) = true :=
  meets_of (by decide +kernel)

theorem witness_melse : Meets (about 0x79000005 fun g => g.pushMask 0xFF 0xF0 false) (fun w => controlInfo [] [] (illConv w (match w.gr.stack with | e :: _ => e.els | [] => true)) .acts) fun w => ((match w.gr.stack with | e :: _ => e.alt | [] => 0) != 0) = true :=
  meets_of (by decide +kernel)

theorem witness_mend : Meets (about 0x7A000000 fun g => g.pushMask 0xFF 0xF0 true) (fun w => controlInfo [] [] (illConv w w.gr.stack.isEmpty) .acts) fun _ => True :=
  meets_plain (by decide +kernel)

theorem witness_mwhile : Meets (about 0x7B040005 fun g => (g.pushMask 0xFF 0xF0 false).setK 1 1) (fun w => controlInfo [.k 1] [] (illConv w w.gr.stack.isEmpty) .acts) fun w => ((w.gr.exm &&& w.gr.rk 1) != 0 && 0 ≤ relTarget w 5 && decide (relTarget w 5 < 16384)) = true :=
  meets_of (by decide +kernel)

/-! IdleWords -/

theorem witness_nop : Meets (about 0x7D000000) (fun _ => controlInfo [] []) fun _ => True :=
  meets_plain (by decide +kernel)

theorem witness_wait : Meets (about 0x7E000000) (fun _ => controlInfo [] [] [] .ignores ((0 : BitVec 4).ult 3)) fun w => (w.gr.countsFallen 0 0) = true :=
  meets_of (by decide +kernel)

theorem witness_wait_holds : Meets (loading { kind := .load false, size := 4, dest := .vec 4 } (about 0x7E000000)) (fun _ => controlInfo [] [] [] .ignores ((0 : BitVec 4).ult 3)) fun w => (!w.gr.countsFallen 0 0) = true :=
  meets_of (by decide +kernel)

end Sys2Proof.Tests
end

