-- ==== Sys2Proof/Tests/WitnessWords.lean ====
section
/-! SUPPORT. Witnesses for the statements about the words of memory, copies, barriers and tasks: for each a state and
operands that meet all its hypotheses together. -/

namespace Sys2Proof.Tests

open Sys2Proof.Machine

set_option maxRecDepth 100000
set_option Elab.async false

theorem any_of {α : Type} {o : Option α} {p : α → Bool} (h : o.any p = true) : ∃ x, o = some x ∧ p x = true := by
  cases o with
  | none => cases h
  | some x => exact ⟨x, rfl, h⟩

theorem meets_dec {s : State} {info : View → Info} {cond : View → Prop} [∀ w, Decidable (cond w)]
    (h : meets s info (fun w => decide (cond w)) = true) : Meets s info cond := by
  obtain ⟨w, a, b, c, d, e⟩ := meets_of h
  exact ⟨w, a, b, c, d, of_decide_eq_true e⟩

theorem Meets.mono {s : State} {info : View → Info} {p q : View → Prop} (h : ∀ w, p w → q w) (m : Meets s info p) : Meets s info q := by
  obtain ⟨w, a, b, c, d, e⟩ := m
  exact ⟨w, a, b, c, d, h w e⟩

theorem seen_of {s : State} {p : View → Bool} {q : View → Prop} (h : (view s).any p = true) (k : ∀ w, p w = true → q w) :
    ∃ w, view s = some w ∧ q w := by
  obtain ⟨w, a, b⟩ := any_of h
  exact ⟨w, a, k w b⟩

def unjournalled (w : View) : Bool := (w.s.launch? w.t.launch).any fun l => decide (l.journal = 0)

theorem noJournal_of {w : View} (h : unjournalled w = true) : NoJournal w := by
  obtain ⟨l, a, b⟩ := any_of h
  exact ⟨l, a, of_decide_eq_true b⟩

def cleanB (t : State) (who : Who) (base n : Nat) (wr : Bool) : Bool :=
  (List.range n).all fun i => !mixed t who base n wr (base + i)

theorem clean_of {t : State} {who : Who} {base n : Nat} {wr : Bool} (h : cleanB t who base n wr = true) : Clean t who base n wr := by
  intro i hi
  simpa using List.all_eq_true.1 h i (List.mem_range.2 hi)

def hasRoomB (t : State) (pa : Nat) : Bool :=
  linePresent t.home (pa / 64) || (!rankBlocked t.dev pa && decide (t.home.dirty.length + t.home.clean.length + 2 ≤ 32768))

theorem hasRoom_of {t : State} {pa : Nat} (h : hasRoomB t pa = true) : HasRoom t pa := by
  simp only [hasRoomB, Bool.or_eq_true, Bool.and_eq_true, Bool.not_eq_true', decide_eq_true_eq] at h
  exact h

def roomB (t : State) (pa n : Nat) : Bool := hasRoomB t pa && hasRoomB t (pa + n - 1)

theorem room_of {t : State} {pa n : Nat} (h : roomB t pa n = true) : Room t pa n :=
  have h := Bool.and_eq_true_iff.1 h
  ⟨hasRoom_of h.1, hasRoom_of h.2⟩

/-- A property of every number below `n`, evaluated. -/
theorem all_below {n : Nat} {p : Nat → Bool} {q : Nat → Prop} (h : (List.range n).all p = true) (k : ∀ i, p i = true → q i) :
    ∀ i, i < n → q i := fun i hi => k i (List.all_eq_true.1 h i (List.mem_range.2 hi))

/-! Runs of operations -/

/-- What `m` gives from `t`, in a step whose path to `t` is `p`. -/
def outcome {z : State} {α : Type} (m : M z α) (t : State) (p : Path z t) (cond : α → State → Bool) : Bool :=
  match m ⟨t, p⟩ with
  | .ok (a, r) => cond a r.1
  | .error _ => false

theorem outcome_of {z : State} {α : Type} {m : M z α} {t : State} {p : Path z t} {cond : α → State → Bool}
    (h : outcome m t p cond = true) : ∃ a u, Gives m t a u ∧ cond a u = true := by
  unfold outcome at h
  split at h
  · next a r e => exact ⟨a, r.1, fun _ => ⟨r.2, e⟩, h⟩
  · cases h

/-- A word that reads: its unit is ready, and what it reads from the state its charge leaves is given. -/
def MeetsRead {α : Type} (s : State) (info : View → Info) (charged : View → Info → State) (m : View → CtxRec → M s α)
    (cond : View → α → State → Bool) : Prop :=
  ∃ w l a u, view s = some w ∧ Ready w (info w) ∧ Acts w (info w) ∧ PlainEnd w ∧ s.launch? w.t.launch = some l ∧
    Gives (z := s) (m w l.rcd) (charged w (info w)) a u ∧ cond w a u = true

/-- A path to the state that a charge leaves. -/
theorem chargedPath (s : State) (charged : View → Info → State)
    (keeps : ∀ w i, (charged w i).mem = w.s.mem ∧ (charged w i).fuses = w.s.fuses) (w : View) (h : view s = some w) (i : Info) :
    Path s (charged w i) :=
  have e : w.s = s := (view_cases h).1
  .other .refl ((keeps w i).1.trans (by rw [e])) ((keeps w i).2.trans (by rw [e]))

def meetsRead {α : Type} (s : State) (info : View → Info) (charged : View → Info → State) (m : View → CtxRec → M s α)
    (cond : View → α → State → Bool) (keeps : ∀ w i, (charged w i).mem = w.s.mem ∧ (charged w i).fuses = w.s.fuses) : Bool :=
  match h : view s with
  | none => false
  | some w =>
    match s.launch? w.t.launch with
    | none => false
    | some l => readyB w (info w) && outcome (m w l.rcd) (charged w (info w)) (chargedPath s charged keeps w h (info w)) (cond w)

theorem meetsRead_of {α : Type} {s : State} {info : View → Info} {charged : View → Info → State} {m : View → CtxRec → M s α}
    {cond : View → α → State → Bool} (keeps : ∀ w i, (charged w i).mem = w.s.mem ∧ (charged w i).fuses = w.s.fuses)
    (h : meetsRead s info charged m cond keeps = true) : MeetsRead s info charged m cond := by
  unfold meetsRead at h
  split at h
  · cases h
  · next w hw =>
    split at h
    · cases h
    · next l hl =>
      rw [Bool.and_eq_true] at h
      obtain ⟨a, b, c⟩ := readyB_sound h.1
      obtain ⟨x, u, d, e⟩ := outcome_of h.2
      exact ⟨w, l, x, u, hw, a, b, c, hl, d, e⟩

/-- A word whose lanes reach memory: what a queued access asks. -/
def MeetsQueue (s : State) (info : View → Info) (acc : View → Access) (lanes : View → List LaneAcc)
    (cond : View → List LaneAcc → State → Bool) : Prop :=
  ∃ w ok u, view s = some w ∧ Ready w (info w) ∧ Acts w (info w) ∧ PlainEnd w ∧
    Reaches s w (withTraffic w.t.launch (32 * sectors (acc w).size ((lanes w).map (·.va))) (w.paid (info w))) (acc w) (lanes w)
      ok u ∧
    cond w ok u = true

def meetsQueue (s : State) (info : View → Info) (acc : View → Access) (lanes : View → List LaneAcc)
    (cond : View → List LaneAcc → State → Bool) : Bool :=
  meetsRead s info (fun w i => withTraffic w.t.launch (32 * sectors (acc w).size ((lanes w).map (·.va))) (w.paid i))
    (fun w rcd => translate w.cl w.t.ctx rcd (acc w) (lanes w))
    (fun w r u =>
      r.missed.isEmpty && r.bad.isEmpty && (misaligned (acc w).size ((lanes w).map fun a => (a.lane, a.va))).isEmpty &&
        (watchHits (withTraffic w.t.launch (32 * sectors (acc w).size ((lanes w).map (·.va))) (w.paid (info w))) w.t w.gr (acc w)
          (lanes w)).isEmpty &&
        !r.ok.isEmpty && cond w r.ok u)
    fun _ _ => ⟨rfl, rfl⟩

theorem meetsQueue_of {s : State} {info : View → Info} {acc : View → Access} {lanes : View → List LaneAcc}
    {cond : View → List LaneAcc → State → Bool} (h : meetsQueue s info acc lanes cond = true) : MeetsQueue s info acc lanes cond := by
  obtain ⟨w, l, r, u, a, b, c, d, e, f, g⟩ := meetsRead_of _ h
  simp only [Bool.and_eq_true, List.isEmpty_iff, Bool.not_eq_true', List.isEmpty_eq_false_iff] at g
  obtain ⟨⟨⟨⟨⟨g0, g1⟩, g2⟩, g3⟩, g5⟩, g7⟩ := g
  have e1 : r = { ok := r.ok } := by
    cases r
    simp_all
  rw [e1] at f
  exact ⟨w, r.ok, u, a, b, c, d, ⟨⟨l, e, f⟩, g2, g3, g5⟩, g7⟩

/-- A word whose issue reads records: what a staged word asks. -/
def MeetsStaged {α : Type} (s : State) (info : View → Info) (pre : View → M s (Pre α)) (cost : View → α → Nat)
    (cond : View → α → State → Prop) (moved : View → α → Nat := fun _ _ => 0) : Prop :=
  ∃ w a u, view s = some w ∧ Gives (pre w) s (.ok a) u ∧
    (let j : Info := { info w with surcharge := cost w a, moved := moved w a }
     Ready w j ∧ Acts w j ∧ PlainEnd w) ∧ cond w a u

def meetsStaged {α : Type} (s : State) (info : View → Info) (pre : View → M s (Pre α)) (cost : View → α → Nat)
    (cond : View → α → State → Bool) (moved : View → α → Nat) : Bool :=
  match view s with
  | none => false
  | some w => outcome (pre w) s .refl fun r u =>
    match r with
    | .ok a => readyB w { info w with surcharge := cost w a, moved := moved w a } && cond w a u
    | _ => false

theorem meetsStaged_of {α : Type} {s : State} {info : View → Info} {pre : View → M s (Pre α)} {cost : View → α → Nat}
    {cond : View → α → State → Bool} {moved : View → α → Nat} {goal : View → α → State → Prop}
    (h : meetsStaged s info pre cost cond moved = true) (k : ∀ w a u, cond w a u = true → goal w a u) :
    MeetsStaged s info pre cost goal moved := by
  unfold meetsStaged at h
  split at h
  · cases h
  · next w hw =>
    obtain ⟨r, u, d, e⟩ := outcome_of h
    match r, d, e with
    | .ok a, d, e =>
      rw [Bool.and_eq_true] at e
      exact ⟨w, a, u, hw, d, readyB_sound e.1, k w a u e.2⟩

/-- Nothing of a barrier's end is journalled, and no group waits to arrive a second time, evaluated. -/
def freshPhase (w : View) (b : Nat) : Bool :=
  ((w.s.team? (if sharedBarrier w.s w.eid b then (nbhTeams w.s w.eid).headD w.eid else w.eid)).any fun o =>
    (w.s.launch? o.launch).any fun l => decide (l.journal = 0)) &&
  w.s.groups.all fun e => match e.2.hold with | some (.rearrive _ _ _ _ _) => false | _ => true

theorem mem_of_get {α : Type} {m : SMap α} {k : Nat} {a : α} (h : SMap.get? m k = some a) : (k, a) ∈ m := by
  induction m with
  | nil => cases h
  | cons e m ih =>
    obtain ⟨i, b⟩ := e
    unfold SMap.get? at h
    split at h
    · next hi =>
      cases h
      have : i = k := by simpa using hi
      exact this ▸ List.mem_cons_self
    · exact List.mem_cons_of_mem _ (ih h)

theorem freshPhase_of {w : View} {b : Nat} (h : freshPhase w b = true) : FreshPhase w b := by
  unfold freshPhase at h
  rw [Bool.and_eq_true] at h
  obtain ⟨h1, h2⟩ := h
  obtain ⟨o, ho, h1⟩ := any_of h1
  obtain ⟨l, hl, h1⟩ := any_of h1
  refine ⟨⟨o, l, ho, hl, of_decide_eq_true h1⟩, fun g gr c p r sy hg e => ?_⟩
  have := List.all_eq_true.1 h2 _ (mem_of_get hg)
  rw [e] at this
  cases this

/-! A page table whose only page is page 1, the frame 0x5000 -/

def pagedRec : CtxRec := { vfn := 0, ctxid := 0, prqe := false, hwad := false, s2en := false, s1root := 0x100000, s2root := 0 }

/-- The table of every level: entry 0 is the table itself, entry 1 the leaf. -/
def paged (s : State) : State :=
  poke 0x100000 [0x01, 0x01, 0x10, 0, 0, 0, 0, 0, 0x0F, 0x53] s

/-- The cached page is a checked one. -/
def checked (s : State) : State :=
  clusterPut 0 (fun c => { c with tlb := c.tlb.map fun e => { e with chk := true } }) s

/-! An accepted spawn: which tags it takes is open -/

theorem foldl_some {l : List Nat} : ∀ b : Nat,
    ∃ t, l.foldl (fun best c => match best with | some b => some (min b c) | none => some c) (some b) = some t := by
  induction l with
  | nil => exact fun b => ⟨b, rfl⟩
  | cons a l ih => exact fun b => ih (min b a)

theorem chooseTags_some {s : State} {ctx n : Nat}
    (h : ((1 :: (usedTags s ctx).map (· + 1)).filter fun c => tagRunFree (usedTags s ctx) c n) ≠ []) :
    ∃ t, chooseTags s ctx n = some t := by
  unfold chooseTags
  dsimp only
  split
  · exact ⟨_, rfl⟩
  · revert h
    generalize (1 :: (usedTags s ctx).map (· + 1)).filter (fun c => tagRunFree (usedTags s ctx) c n) = l
    intro h
    cases l with
    | nil => exact absurd rfl h
    | cons a l => exact foldl_some a

theorem free_entry {s : State} {e : Nat} (h : e < 65536) (k : s.team? e = none) : 1 ≤ (freeEntries s).length :=
  List.length_pos_of_mem (List.mem_filter.2 ⟨List.mem_range.2 h, by rw [k]; rfl⟩)

def spawnable (w : View) (off : Nat) : Bool :=
  let d := readSpawn (spNat w.t off 128)
  decide (off % 64 = 0) && spInside w.t off 128 &&
    ((w.s.launch? w.t.launch).any fun l => decide (descCode d l.onum = 0 ∧ l.journal ≠ 2)) && d.tickets.isEmpty &&
    w.t.children.isEmpty && decide (d.teams = 1) && (w.s.team? 1).isNone &&
    !((1 :: (usedTags w.s w.t.ctx).map (· + 1)).filter fun c => tagRunFree (usedTags w.s w.t.ctx) c 1).isEmpty

theorem planSpawn_of {s : State} {w : View} {off : Nat} (hs : w.s = s) (h : spawnable w off = true) :
    ∃ p, Gives (z := s) (planSpawn w off) s (.ok p) s ∧ p.code = 0 ∧ p.d = readSpawn (spNat w.t off 128) := by
  subst hs
  unfold spawnable at h
  simp only [Bool.and_eq_true, decide_eq_true_eq, List.isEmpty_iff, Bool.not_eq_true', Option.isNone_iff_eq_none,
    List.isEmpty_eq_false_iff] at h
  obtain ⟨⟨⟨⟨⟨⟨⟨a, b⟩, c⟩, d⟩, e⟩, f⟩, g⟩, k⟩ := h
  obtain ⟨l, hl, c⟩ := any_of c
  obtain ⟨c1, c2⟩ := of_decide_eq_true c
  obtain ⟨t, ht⟩ := chooseTags_some k
  refine ⟨{ code := 0, d := readSpawn (spNat w.t off 128), tickets := [], tag0 := t }, ?_, rfl, rfl⟩
  unfold planSpawn
  refine (Gives.getLaunch hl).bind ?_
  have h2 : 1 ≤ (freeEntries w.s).length := free_entry (e := 1) (by decide) g
  simp only [a, b, c1, d, e, f, ne_eq, not_true_eq_false, decide_false, Bool.not_true, Bool.or_self, Bool.false_eq_true,
    if_false, spawnTickets, preBind]
  refine (Gives.pure _ _).bind ?_
  refine (Gives.get _).bind ?_
  have hg : guardS (z := w.s) (decide ((List.filter (fun c => match w.s.grid? c with | some gd => !gridDone w.s gd | none => false) []).length < 64) &&
      decide (1 ≤ (freeEntries w.s).length)) = Pure.pure () := by simp [guardS, h2]
  refine Gives.bind (a := ()) (u := w.s) ?_ ?_
  · exact (congrArg (fun m => Gives m w.s () w.s) hg).mpr (Gives.pure _ _)
  · simp only [c2, if_false]
    refine (Gives.get _).bind ?_
    rw [ht]
    exact (Gives.pure _ _).bind (Gives.pure _ _)

/-! GlobalLoads, GlobalStores, GlobalAtomics: one lane of page 1, unchecked -/

def offChecked (_ : View) (ok : List LaneAcc) (_ : State) : Bool := !ok.any (·.chk)

theorem witness_ldI8 : MeetsQueue (mapped (about 0x80840780 fun g => (g.setExm 1).setS 1 0x1FFF))
    (fun w => globalInfo w (operandsOk (.ldI8 4 1 0xE0 0)) 1 0xE0 [] (dataRegs 4 1) 1 0)
    (fun w => { kind := .load true, size := 1, dest := .vec 4, acq := ordAcq 0, scope := w.scope })
    (fun w => (globalAddrs w 1 0xE0).map fun a => { lane := a.1, va := a.2 }) offChecked :=
  meetsQueue_of (by decide +kernel)

theorem witness_ldB128 : MeetsQueue (mapped (about 0x83040780 fun g => (g.setExm 1).setS 1 0x1010))
    (fun w => globalInfo w (operandsOk (.ldB128 4 1 0xE0 0)) 1 0xE0 [] (dataRegs 4 16) 16 0)
    (fun w => { kind := .load false, size := 16, dest := .vec 4, acq := ordAcq 0, scope := w.scope })
    (fun w => (globalAddrs w 1 0xE0).map fun a => { lane := a.1, va := a.2 }) offChecked :=
  meetsQueue_of (by decide +kernel)

theorem witness_ldS64 : MeetsQueue (mapped (about 0x8D840780 fun g => (g.setExm 1).setS 1 0x1008))
    (fun w => { reads := .s 1 :: specRegs .int 0xE0, writes := [.s 4], ok := operandsOk (.ldS64 4 1 0xE0 0), mods := modScope
                surcharge := sectors 8 [scalarAddr w 1 0xE0] })
    (fun w => { kind := .load false, size := 8, dest := .scalar 4, acq := ordAcq 0, scope := w.scope, one := true })
    (fun w => [{ lane := w.lanes.headD 0, va := scalarAddr w 1 0xE0 }]) offChecked :=
  meetsQueue_of (by decide +kernel)

theorem witness_stB16 : MeetsQueue (mapped (about 0x84040780 fun g => ((g.setExm 1).setV 4 0 0x11223344).setS 1 0x1010))
    (fun w => globalInfo w (operandsOk (.stB16 4 1 0xE0 0)) 1 0xE0 (dataRegs 4 2) [] 2 0)
    (fun w => { kind := .store, size := 2, rel := ordRel 0, scope := w.scope })
    (fun w => (globalAddrs w 1 0xE0).map fun a =>
      { lane := a.1, va := a.2, data := laneData w.gr 4 ((2 + 3) / 4) a.1 % 2 ^ (8 * 2) }) offChecked :=
  meetsQueue_of (by decide +kernel)

theorem witness_stB128 : MeetsQueue (mapped (about 0x85840780 fun g => ((g.setExm 1).setV 4 0 0x11223344).setS 1 0x1010))
    (fun w => globalInfo w (operandsOk (.stB128 4 1 0xE0 0)) 1 0xE0 (dataRegs 4 16) [] 16 0)
    (fun w => { kind := .store, size := 16, rel := ordRel 0, scope := w.scope })
    (fun w => (globalAddrs w 1 0xE0).map fun a =>
      { lane := a.1, va := a.2, data := laneData w.gr 4 ((16 + 3) / 4) a.1 % 2 ^ (8 * 16) }) offChecked :=
  meetsQueue_of (by decide +kernel)

theorem witness_stS64 : MeetsQueue (mapped (about 0x8E040780 fun g => (g.setExm 1).setS 1 0x1008))
    (fun w => { reads := .s 1 :: specRegs .int 0xE0 ++ [.s 4], ok := operandsOk (.stS64 4 1 0xE0 0), mods := modScope
                surcharge := sectors 8 [scalarAddr w 1 0xE0] })
    (fun w => { kind := .store, size := 8, rel := ordRel 0, scope := w.scope, one := true })
    (fun w => [{ lane := w.lanes.headD 0, va := scalarAddr w 1 0xE0, data := (w.gr.rs 4).toNat }]) offChecked :=
  meetsQueue_of (by decide +kernel)

theorem witness_cstB32 : MeetsQueue (mapped (about 0x8D040780 fun g => (g.setExm 0x14).setS 1 0x1008))
    (fun w => { reads := .s 1 :: specRegs .int 0xE0 ++ [.v 4], ok := operandsOk (.cstB32 4 1 0xE0 0), mods := modScope
                surcharge := sectors 4 ((cstLanes w 4 1 0xE0).map (·.va)) })
    (fun w => { kind := .store, size := 4, rel := ordRel 0, scope := w.scope, aon := true })
    (fun w => cstLanes w 4 1 0xE0) offChecked :=
  meetsQueue_of (by decide +kernel)

def offReplay (w : View) (ok : List LaneAcc) (_ : State) : Bool :=
  !ok.any (·.chk) && (w.s.launch? w.t.launch).any fun l => l.journal != 2

theorem witness_atomAddI32 : MeetsQueue (mapped (about 0x86040780 fun g => (g.setExm 1).setS 1 0x1008))
    (fun w => globalInfo w (operandsOk (.atomAddI32 4 1 0xE0 0)) 1 0xE0 (dataRegs 4 4) (dataRegs 4 4) 4 w.lanes.length)
    (fun w => { kind := .atom .addI, size := 4, dest := .vec 4, acq := ordAcq 0, rel := ordRel 0, scope := w.scope })
    (fun w => (globalAddrs w 1 0xE0).map fun a => { lane := a.1, va := a.2, data := laneData w.gr 4 (4 / 4) a.1, cmp := 0 })
    offReplay :=
  meetsQueue_of (by decide +kernel)

theorem witness_atomCasB64 : MeetsQueue (mapped (about 0x8C840780 fun g => (g.setExm 1).setS 1 0x1008))
    (fun w => globalInfo w (operandsOk (.atomCasB64 4 1 0xE0 0)) 1 0xE0 (dataRegs 4 16) (dataRegs 4 8) 8 w.lanes.length)
    (fun w => { kind := .atom .cas, size := 8, dest := .vec 4, acq := ordAcq 0, rel := ordRel 0, scope := w.scope })
    (fun w => (globalAddrs w 1 0xE0).map fun a =>
      { lane := a.1, va := a.2, data := laneData w.gr 6 (8 / 4) a.1, cmp := laneData w.gr 4 (8 / 4) a.1 }) offReplay :=
  meetsQueue_of (by decide +kernel)

/-! CheckedAccesses: performed outside phase mode, and in it where another task has not written the line; a race in it -/

def followsB (g u n : Nat) (gr : Group) (wr : Bool) : List LaneAcc → (LaneAcc → State → State) → State → Bool
  | [], _, _ => true
  | a :: as, f, t =>
    roomB t a.pa n && paRange a.pa != .control && cleanB t (groupWho g ((t.group? g).getD gr) u) a.pa n wr &&
      followsB g u n gr wr as f (f a t)

theorem follows_of {g u n : Nat} {gr : Group} {wr : Bool} {f : LaneAcc → State → State} (as : List LaneAcc) :
    ∀ t, followsB g u n gr wr as f t = true → Follows g u n gr wr as f t := by
  induction as with
  | nil => exact fun _ _ => trivial
  | cons a as ih =>
    intro t h
    simp only [followsB, Bool.and_eq_true, bne_iff_ne] at h
    exact ⟨room_of h.1.1.1, h.1.1.2, clean_of h.1.2, ih _ h.2⟩

def partsB (g u n : Nat) (gr : Group) : List LaneAcc → List LaneAcc → State → Bool
  | _, [], _ => true
  | fixed, a :: as, t =>
    match sameBytes fixed a with
    | some b => partsB g u n gr ({ a with data := b.data, poison := b.poison, stamps := b.stamps, done := true } :: fixed) as t
    | none =>
      let who := groupWho g ((t.group? g).getD gr) u
      let v := floorRaised g a.pa n (readAt who a.pa n t)
      roomB t a.pa n && cleanB t who a.pa n false && partsB g u n gr (laneRead n a v :: fixed) as v

theorem parts_of {g u n : Nat} {gr : Group} (as : List LaneAcc) :
    ∀ fixed t, partsB g u n gr fixed as t = true → PartsFollow g u n gr fixed as t := by
  induction as with
  | nil => exact fun _ _ _ => trivial
  | cons a as ih =>
    intro fixed t h
    unfold partsB at h
    unfold PartsFollow
    revert h
    cases sameBytes fixed a with
    | some b => exact fun h => ih _ _ h
    | none =>
      intro h
      simp only [Bool.and_eq_true] at h
      exact ⟨room_of h.1.1, clean_of h.1.2, ih _ _ h.2⟩

def atomsB (w : View) (acc : Access) (op : AtomOp) (gr : Group) : List LaneAcc → State → Bool
  | [], _ => true
  | a :: as, t =>
    let t1 := metaStepped w false a t
    let gr := (t1.group? w.g).getD gr
    roomB t1 a.pa acc.size && cleanB t1 (groupWho w.g gr w.gr.nextId) a.pa acc.size true &&
      atomsB w acc op gr as (atomPerformed w.g w.gr.nextId acc op gr a t1)

theorem atoms_of {w : View} {acc : Access} {op : AtomOp} (as : List LaneAcc) :
    ∀ gr t, atomsB w acc op gr as t = true → CheckedAtomFollows w acc op gr as t := by
  induction as with
  | nil => exact fun _ _ _ => trivial
  | cons a as ih =>
    intro gr t h
    simp only [atomsB, Bool.and_eq_true] at h
    exact ⟨room_of h.1.1, clean_of h.1.2, ih _ _ h.2⟩

/-- A word whose lanes reach checked pages: what its performance asks, and the causes of its check. -/
def MeetsChecked (s : State) (info : View → Info) (acc : View → Access) (lanes : View → List LaneAcc)
    (cond : View → Access → Group → List LaneAcc → State → List Detail → Prop) : Prop :=
  ∃ w ok gr u, view s = some w ∧ Ready w (info w) ∧ Acts w (info w) ∧ PlainEnd w ∧
    ReachesChecked s w (info w) (acc w) (lanes w) ok gr u ∧
    cond w (acc w) (numbered gr) ok (w.onGroup numbered u) (checkedCauses u w.t (acc w) ok)

theorem meetsChecked_of {s : State} {info : View → Info} {acc : View → Access} {lanes : View → List LaneAcc}
    {cond : View → Access → Group → List LaneAcc → State → List Detail → Prop}
    (condB : View → Access → Group → List LaneAcc → State → List Detail → Bool)
    (h : meetsQueue s info acc lanes (fun w ok u => ok.any (·.chk) && !(u.ctx w.t.ctx).msz && (u.group? w.g).any fun gr =>
      readyNow u w.g (numbered gr) w.gr.nextId (acc w) ok &&
        condB w (acc w) (numbered gr) ok (w.onGroup numbered u) (checkedCauses u w.t (acc w) ok)) = true)
    (k : ∀ w a gr ok t ds, condB w a gr ok t ds = true → cond w a gr ok t ds) : MeetsChecked s info acc lanes cond := by
  obtain ⟨w, ok, u, a, b, c, d, e, f⟩ := meetsQueue_of h
  simp only [Bool.and_eq_true, Bool.not_eq_true'] at f
  obtain ⟨⟨f1, f2⟩, f3⟩ := f
  obtain ⟨gr, f3, f4⟩ := any_of f3
  rw [Bool.and_eq_true] at f4
  exact ⟨w, ok, gr, u, a, b, c, d, ⟨e, f1, f3, f4.1, f2⟩, k _ _ _ _ _ _ f4.2⟩

/-- The task is in phase mode. -/
def phased : State → State := launchPut 0 fun l => { l with phm := true }

theorem witness_checked_ldB32 : MeetsChecked (phased (checked (mapped (about 0x82040780 fun g => (g.setExm 1).setS 1 0x1010))))
    (fun w => globalInfo w (operandsOk (.ldB32 4 1 0xE0 0)) 1 0xE0 [] (dataRegs 4 4) 4 0)
    (fun w => { kind := .load false, size := 4, dest := .vec 4, acq := ordAcq 0, scope := w.scope })
    (fun w => (globalAddrs w 1 0xE0).map fun a => { lane := a.1, va := a.2 })
    fun w acc gr ok t ds => ds = [] ∧
      PartsFollow w.g w.gr.nextId acc.psize gr [] (splitParts acc ok) (ok.foldl (fun t a => metaStepped w true a t) t) :=
  meetsChecked_of (fun w acc gr ok t ds => ds.isEmpty &&
      partsB w.g w.gr.nextId acc.psize gr [] (splitParts acc ok) (ok.foldl (fun t a => metaStepped w true a t) t))
    (by decide +kernel) fun _ _ _ _ _ _ h =>
    have h := Bool.and_eq_true_iff.1 h
    ⟨List.isEmpty_iff.1 h.1, parts_of _ _ _ h.2⟩

theorem witness_checked_race : MeetsChecked
    (homePut (fun h => { h with info := [(0x5010 / 64, { written := true, wtag := 9 })] })
      (phased (checked (mapped (about 0x82040780 fun g => ((g.setExm 1).setS 1 0x1010).handling)))))
    (fun w => globalInfo w (operandsOk (.ldB32 4 1 0xE0 0)) 1 0xE0 [] (dataRegs 4 4) 4 0)
    (fun w => { kind := .load false, size := 4, dest := .vec 4, acq := ordAcq 0, scope := w.scope })
    (fun w => (globalAddrs w 1 0xE0).map fun a => { lane := a.1, va := a.2 })
    fun w _ _ _ _ ds => ds ≠ [] ∧ Handles w ds :=
  meetsChecked_of (fun w _ _ _ _ ds => !ds.isEmpty && handlesB w ds) (by decide +kernel) fun _ _ _ _ _ _ h =>
    have h := Bool.and_eq_true_iff.1 h
    ⟨by simpa using h.1, handles_of h.2⟩

theorem witness_checked_stB32 : MeetsChecked (checked (mapped (about 0x84840780 fun g => ((g.setExm 1).setV 4 0 7).setS 1 0x1010)))
    (fun w => globalInfo w (operandsOk (.stB32 4 1 0xE0 0)) 1 0xE0 (dataRegs 4 4) [] 4 0)
    (fun w => { kind := .store, size := 4, rel := ordRel 0, scope := w.scope })
    (fun w => (globalAddrs w 1 0xE0).map fun a =>
      { lane := a.1, va := a.2, data := laneData w.gr 4 ((4 + 3) / 4) a.1 % 2 ^ (8 * 4) })
    fun w acc gr ok t ds => ds = [] ∧ Follows w.g w.gr.nextId acc.psize gr true (splitParts acc (topLanes ok))
      (fun a t => stored w.g w.gr.nextId { acc with rels := gr.fences } ((t.group? w.g).getD gr) a t)
      (ok.foldl (fun t a => metaStepped w false a t) t) :=
  meetsChecked_of (fun w acc gr ok t ds => ds.isEmpty && followsB w.g w.gr.nextId acc.psize gr true (splitParts acc (topLanes ok))
      (fun a t => stored w.g w.gr.nextId { acc with rels := gr.fences } ((t.group? w.g).getD gr) a t)
      (ok.foldl (fun t a => metaStepped w false a t) t)) (by decide +kernel) fun _ _ _ _ _ _ h =>
    have h := Bool.and_eq_true_iff.1 h
    ⟨List.isEmpty_iff.1 h.1, follows_of _ _ h.2⟩

theorem witness_checked_atom : MeetsChecked (phased (checked (mapped (about 0x86040780 fun g => ((g.setExm 1).setV 4 0 7).setS 1 0x1010))))
    (fun w => globalInfo w (operandsOk (.atomAddI32 4 1 0xE0 0)) 1 0xE0 (dataRegs 4 4) (dataRegs 4 4) 4 w.lanes.length)
    (fun w => { kind := .atom .addI, size := 4, dest := .vec 4, acq := ordAcq 0, rel := ordRel 0, scope := w.scope })
    (fun w => (globalAddrs w 1 0xE0).map fun a => { lane := a.1, va := a.2, data := laneData w.gr 4 (4 / 4) a.1, cmp := 0 })
    fun w acc gr ok t ds => ds = [] ∧ NoJournal w ∧ CheckedAtomFollows w { acc with rels := gr.fences } .addI gr ok t :=
  meetsChecked_of (fun w acc gr ok t ds => (ds.isEmpty && unjournalled w) && atomsB w { acc with rels := gr.fences } .addI gr ok t)
    (by decide +kernel) fun _ _ _ _ _ _ h =>
    have h := Bool.and_eq_true_iff.1 h
    have k := Bool.and_eq_true_iff.1 h.1
    ⟨List.isEmpty_iff.1 k.1, noJournal_of k.2, atoms_of _ _ _ h.2⟩

/-! ScratchpadWords: the last bytes of 4,096 -/

theorem witness_ldsB8 : Meets (spadded [] (about 0x93040780 fun g => (g.setExm 1).setS 1 0xFFF))
    (fun w => spadInfo w (operandsOk (.ldsB8 4 1 0xE0 0)) 1 1 0xE0 [] (dataRegs 4 1) 1)
    fun w => NoJournal w ∧ spadCauses w 1 1 (spadAddrs w 1 1 0xE0) = [] :=
  Meets.mono (fun _ h => ⟨noJournal_of h.1, h.2⟩)
    (meets_dec (cond := fun w => unjournalled w = true ∧ spadCauses w 1 1 (spadAddrs w 1 1 0xE0) = []) (by decide +kernel))

theorem witness_ldnB32 : Meets (joined (spadded [] (about 0x95040780 fun g => (g.setExm 1).setS 1 0xFFC)))
    (fun w => spadInfo w (operandsOk (.ldnB32 4 1 0xE0 0)) 2 1 0xE0 [] (dataRegs 4 4) 4)
    fun w => NoJournal w ∧ spadCauses w 2 4 (spadAddrs w 2 1 0xE0) = [] :=
  Meets.mono (fun _ h => ⟨noJournal_of h.1, h.2⟩)
    (meets_dec (cond := fun w => unjournalled w = true ∧ spadCauses w 2 4 (spadAddrs w 2 1 0xE0) = []) (by decide +kernel))

theorem witness_ldsS64 : Meets (spadded [] (about 0x99040780 fun g => (g.setExm 1).setS 1 0xFF8))
    (fun w => { reads := .s 1 :: specRegs .int 0xE0, writes := [.s 4], ok := operandsOk (.ldsS64 4 1 0xE0 0), mods := modScope
                surcharge := spadBlocks 1 8 [scalarSpad w 1 0xE0] })
    fun w => NoJournal w ∧ spadCauses w 1 8 [scalarSpad w 1 0xE0] = [] :=
  Meets.mono (fun _ h => ⟨noJournal_of h.1, h.2⟩)
    (meets_dec (cond := fun w => unjournalled w = true ∧ spadCauses w 1 8 [scalarSpad w 1 0xE0] = []) (by decide +kernel))

theorem witness_stsB128 : Meets (spadded [] (about 0x92840780 fun g => (g.setExm 1).setS 1 0xFF0))
    (fun w => spadInfo w (operandsOk (.stsB128 4 1 0xE0 0)) 1 1 0xE0 (dataRegs 4 16) [] 16)
    fun w => NoJournal w ∧ spadCauses w 1 16 (spadAddrs w 1 1 0xE0) = [] :=
  Meets.mono (fun _ h => ⟨noJournal_of h.1, h.2⟩)
    (meets_dec (cond := fun w => unjournalled w = true ∧ spadCauses w 1 16 (spadAddrs w 1 1 0xE0) = []) (by decide +kernel))

theorem witness_stsS64 : Meets (spadded [] (about 0x99840780 fun g => (g.setExm 1).setS 1 0xFF8))
    (fun w => { reads := .s 1 :: specRegs .int 0xE0 ++ [.s 4], ok := operandsOk (.stsS64 4 1 0xE0 0), mods := modScope
                surcharge := spadBlocks 1 8 [scalarSpad w 1 0xE0] })
    fun w => NoJournal w ∧ spadCauses w 1 8 [scalarSpad w 1 0xE0] = [] :=
  Meets.mono (fun _ h => ⟨noJournal_of h.1, h.2⟩)
    (meets_dec (cond := fun w => unjournalled w = true ∧ spadCauses w 1 8 [scalarSpad w 1 0xE0] = []) (by decide +kernel))

theorem witness_atomsCasB32 : Meets (spadded [] (about 0x98040780 fun g => (g.setExm 1).setS 1 0xFFC))
    (fun w => spadInfo w (operandsOk (.atomsCasB32 4 1 0xE0 0)) 1 1 0xE0 (dataRegs 4 8) (dataRegs 4 4) 4)
    fun w => NoJournal w ∧ spadCauses w 1 4 (spadAddrs w 1 1 0xE0) = [] :=
  Meets.mono (fun _ h => ⟨noJournal_of h.1, h.2⟩)
    (meets_dec (cond := fun w => unjournalled w = true ∧ spadCauses w 1 4 (spadAddrs w 1 1 0xE0) = []) (by decide +kernel))

/-! IdleAndExitWords, HintWords, PrefetchWord -/

theorem witness_exit : Meets (about 0x7C000000) (fun _ => controlInfo [] []) fun w =>
    w.gr.cres = none ∧ (∃ l, w.s.launch? w.t.launch = some l ∧ l.journal ≠ 2) ∧
      ∀ b, b < 16 → w.g ∉ (barrierOf w.s w.eid b).arrived ∧
        ((barrierOf w.s w.eid b).count = 0 → (barrierOf w.s w.eid b).arrived = []) :=
  Meets.mono (fun _ h => ⟨h.1, (noJournal_of h.2.1).imp fun _ l => ⟨l.1, by omega⟩, fun b hb => h.2.2 b (List.mem_range.2 hb)⟩)
    (meets_dec (cond := fun w => w.gr.cres = none ∧ unjournalled w = true ∧ ∀ b ∈ List.range 16,
      w.g ∉ (barrierOf w.s w.eid b).arrived ∧ ((barrierOf w.s w.eid b).count = 0 → (barrierOf w.s w.eid b).arrived = []))
      (by decide +kernel))

theorem witness_hint : ∃ w, view (about 0xF0000005) = some w ∧ mayPresent w = true ∧ hintCauses w = [] :=
  seen_of (p := fun w => decide (mayPresent w = true ∧ hintCauses w = [])) (by decide +kernel) fun _ h => of_decide_eq_true h

theorem witness_prf : MeetsRead (mapped (about 0x8E800780 fun g => (g.setExm 1).setS 1 0x1008))
    (fun w => { reads := .s 1 :: specRegs .int 0xE0, ok := operandsOk (.prf 1 0xE0 0), imm := immUse [0xE0], mods := modScope
                surcharge := sectors 64 (((globalAddrs w 1 0xE0).map fun a => (a.1, a.2 &&& ~~~63#64)).map (·.2)) })
    (fun w i => withTraffic w.t.launch (32 * sectors 64 (((globalAddrs w 1 0xE0).map fun a => (a.1, a.2 &&& ~~~63#64)).map (·.2)))
      (w.paid i))
    (fun w rcd => translate w.cl w.t.ctx rcd { kind := .prf, size := 64, scope := w.scope }
      (((globalAddrs w 1 0xE0).map fun a => (a.1, a.2 &&& ~~~63#64)).map fun a => { lane := a.1, va := a.2 }))
    fun w _ u => decide (u.home.dirty.length + u.home.clean.length + 32 ≤ 32768 ∧
      (u.cluster (u.groupCluster w.g)).crc.length + 32 ≤ 4096) :=
  meetsRead_of (fun _ _ => ⟨rfl, rfl⟩) (by decide +kernel)


/-! CopyWords: entered, and with a zero extent complete at once; cpyl and fold of handle 0, a tensor of 64 rows and columns -/

/-- Handle 0 of context 0, whose table stands in page 1. -/
def handled (s : State) : State :=
  mapped (ctxPut 0 (fun c => { c with htbase := 0x1000, htlim := 4 })
    (poke 0x5000 ([0, 0x11] ++ List.replicate 15 0 ++ [1] ++ List.replicate 14 0 ++ [0x40, 0, 0, 0, 0x40] ++ List.replicate 26 0 ++ [1]) s))

def snapOf (w : View) (r : CopyPlan) : Clock := match r.2 with | some sn => snapClock w.s w.g sn.1 | none => []

def Ends (x : BitVec 6) (w : View) (r : CopyPlan) (u : State) : Prop :=
  NoJournal w ∧ r.1.2.1.declared = 0 ∧ r.1.1.dep = false ∧ r.1.1.bo = false ∧ (∀ o ∈ (u.cluster w.cl).copyq, o.id ≠ u.fresh) ∧
    Clean u (opWho u.fresh (r.op w (w.low x) (snapOf w r) u.fresh).clock) (spKey w.eid (w.low x + 56)) 8 true

def endsB (x : BitVec 6) (w : View) (r : CopyPlan) (u : State) : Bool :=
  (unjournalled w && decide (r.1.2.1.declared = 0 ∧ r.1.1.dep = false ∧ r.1.1.bo = false ∧
    ∀ o ∈ (u.cluster w.cl).copyq, o.id ≠ u.fresh)) &&
    cleanB u (opWho u.fresh (r.op w (w.low x) (snapOf w r) u.fresh).clock) (spKey w.eid (w.low x + 56)) 8 true

theorem ends_of {x : BitVec 6} (w : View) (r : CopyPlan) (u : State) (h : endsB x w r u = true) : Ends x w r u := by
  simp only [endsB, Bool.and_eq_true, decide_eq_true_eq] at h
  exact ⟨noJournal_of h.1.1, h.1.2.1, h.1.2.2.1, h.1.2.2.2.1, h.1.2.2.2.2, clean_of h.2⟩

def queuesB (w : View) (r : CopyPlan) (_ : State) : Bool := unjournalled w && r.1.2.1.declared != 0

theorem queues_of (w : View) (r : CopyPlan) (u : State) (h : queuesB w r u = true) : NoJournal w ∧ r.1.2.1.declared ≠ 0 :=
  have h := Bool.and_eq_true_iff.1 h
  ⟨noJournal_of h.1, by simpa using h.2⟩

/-- A descriptor at 0x100 of a copy of `n` elements of 4 bytes within the scratchpad. -/
def copyDesc (n : Byte) : SMap Byte :=
  [(0x100, 0x40), (0x101, 1), (0x108, 0x80), (0x109, 1), (0x141, 2), (0x148, 2), (0x149, 1), (0x14A, 0x40), (0x150, n), (0x160, 4),
   (0x181, 3), (0x188, 2), (0x189, 1), (0x18A, 0x40), (0x190, n), (0x1A0, 4)]

def layeredDesc (n : Byte) : SMap Byte :=
  [(0x108, 0x80), (0x109, 1), (0x181, 4), (0x188, 2), (0x189, 2), (0x18A, 0x40), (0x190, 4), (0x194, n), (0x1A0, 4), (0x1A8, 0x10)]

theorem witness_cpy : MeetsStaged (spadded (copyDesc 4) (about 0xA0030000 fun g => g.setS 3 0x100)) (copyInfo 3)
    (fun w => copyReads 3 false w) (fun _ => copyCost) fun w r _ => NoJournal w ∧ r.1.2.1.declared ≠ 0 :=
  meetsStaged_of (cond := queuesB) (by decide +kernel) queues_of

theorem witness_cpy_ends : MeetsStaged (spadded (copyDesc 0) (about 0xA0030000 fun g => g.setS 3 0x100)) (copyInfo 3)
    (fun w => copyReads 3 false w) (fun _ => copyCost) (Ends 3) :=
  meetsStaged_of (cond := endsB 3) (by decide +kernel) ends_of

theorem witness_cpyl : MeetsStaged (handled (spadded (layeredDesc 4) (about 0xA0430000 fun g => g.setS 3 0x100))) (copyInfo 3)
    (fun w => copyReads 3 true w) (fun _ => copyCost) fun w r _ => NoJournal w ∧ r.1.2.1.declared ≠ 0 :=
  meetsStaged_of (cond := queuesB) (by decide +kernel) queues_of

theorem witness_cpyl_ends : MeetsStaged (handled (spadded (layeredDesc 0) (about 0xA0430000 fun g => g.setS 3 0x100))) (copyInfo 3)
    (fun w => copyReads 3 true w) (fun _ => copyCost) (Ends 3) :=
  meetsStaged_of (cond := endsB 3) (by decide +kernel) ends_of

theorem witness_fold : MeetsStaged (poke 0x5080 ([0, 0x11] ++ List.replicate 15 0 ++ [1] ++ List.replicate 14 0 ++
      [0x40, 0, 0, 0, 0x40] ++ List.replicate 26 0 ++ [1]) (handled (about 0xA3431000 fun g => g.setS 4 2)))
    (fun w => { reads := [sreg 3, sreg 4], waits := copyFull w }) (fun w => foldReads 3 4 w) (fun _ _ => 0) fun w _ _ => NoJournal w :=
  meetsStaged_of (cond := fun w _ _ => unjournalled w) (by decide +kernel) fun _ _ _ h => noJournal_of h

theorem witness_discard : Meets (about 0xA2031000 fun g => (g.setS 3 0x1000).setS 4 64)
    (fun w => { reads := [sreg 3, sreg 4], raises := lengthFault w 4 }) fun _ => True :=
  meets_dec (by decide +kernel)

/-! BatchWords -/

theorem witness_close : Meets (about 0xA0830002)
    (fun w => { writes := [sreg 3], ok := (2 : BitVec 4).ult 3, mask := .ignores, waits := (w.gr.batches 2).full }) fun _ => True :=
  meets_dec (by decide +kernel)

def waitbInfo (w : View) : Info :=
  { reads := [sreg 3], ok := (0 : BitVec 4).ult 3, mask := .ignores
    raises := if batchAhead (w.gr.batches 0) (BitVec.ofNat 32 (w.low 3)) then [barMisuse 0x03 (Config.freeWord w.s.free)] else [] }

theorem witness_waitb : Meets (about 0xA0C30000) waitbInfo fun w =>
    (w.gr.batches 0).reached (BitVec.ofNat 32 (w.low 3)) = true ∧ (w.gr.batches 0).outcomes = [] :=
  meets_dec (by decide +kernel)

theorem witness_waitb_holds : Meets (about 0xA0C30000 fun g => (g.setBatches 0 ({ g.batches 0 with openOps := [7] } : Batches).close).setS 3 1)
    waitbInfo fun w => (w.gr.batches 0).reached (BitVec.ofNat 32 (w.low 3)) = false :=
  meets_dec (by decide +kernel)

/-! BarrierObjectWords: the last eight bytes of the scratchpad -/

def Apart (w : View) : Prop :=
  ObjectAt w (w.low 1) ∧ Clean w.s (groupWho w.g w.gr w.gr.nextId) (spKey w.eid (w.low 1)) 8 true

theorem meets_apart {s : State} {info : View → Info}
    (h : meets s info (fun w => decide (w.low 1 % 8 = 0 ∧ spInside w.t (w.low 1) 8 = true) &&
      cleanB w.s (groupWho w.g w.gr w.gr.nextId) (spKey w.eid (w.low 1)) 8 true) = true) : Meets s info Apart :=
  Meets.mono (fun w h => by
    have h := Bool.and_eq_true_iff.1 h
    have k := of_decide_eq_true h.1
    exact ⟨k, clean_of h.2⟩) (meets_of h)

theorem witness_boinit : Meets (spadded [] (about 0xA1010800 fun g => (g.setS 1 0xFF8).setS 2 3))
    (fun w => { reads := [sreg 1, sreg 2], mask := .ignores, waits := spadHeld w
                raises := if w.low 2 % 65536 = 0 then [barMisuse 0x04 (Config.freeWord w.s.free)] else [] }) Apart :=
  meets_apart (by decide +kernel)

theorem witness_boexp : Meets (spadded [] (about 0xA1410800 fun g => (g.setS 1 0xFF8).setS 2 3))
    (fun w => { reads := [sreg 1, sreg 2], mask := .ignores, waits := spadHeld w }) Apart :=
  meets_apart (by decide +kernel)

theorem witness_boarr : Meets (spadded [(0xFF8, 2)] (about 0xA1810000 fun g => (g.setS 1 0xFF8).setS 2 3))
    (fun w => { reads := [sreg 1], mask := .ignores, waits := spadHeld w
                raises := if w.low 1 % 8 = 0 && spInside w.t (w.low 1) 8 && (BarObj.decode (spNat w.t (w.low 1) 8)).pend = 0 then
                  [barMisuse 0x06 (Config.freeWord w.s.free)] else [] }) Apart :=
  meets_apart (by decide +kernel)

theorem witness_bowait : Meets (spadded [] (about 0xA1C10800 fun g => (g.setS 1 0xFF8).setS 2 1))
    (fun w => { reads := [sreg 1, sreg 2], mask := .ignores, waits := spadHeld w }) fun w =>
    ObjectAt w (w.low 1) ∧ objFlipped w.t (w.low 1) ((w.gr.rs 2).getLsbD 0) = true :=
  Meets.mono (fun _ h => ⟨h.1, h.2⟩) (meets_dec (cond := fun w => (w.low 1 % 8 = 0 ∧ spInside w.t (w.low 1) 8 = true) ∧
    objFlipped w.t (w.low 1) ((w.gr.rs 2).getLsbD 0) = true) (by decide +kernel))

theorem witness_bowait_holds : Meets (spadded [] (about 0xA1C10800 fun g => (g.setS 1 0xFF8).setS 2 0))
    (fun w => { reads := [sreg 1, sreg 2], mask := .ignores, waits := spadHeld w }) fun w =>
    ObjectAt w (w.low 1) ∧ objFlipped w.t (w.low 1) ((w.gr.rs 2).getLsbD 0) = false :=
  Meets.mono (fun _ h => ⟨h.1, h.2⟩) (meets_dec (cond := fun w => (w.low 1 % 8 = 0 ∧ spInside w.t (w.low 1) 8 = true) ∧
    objFlipped w.t (w.low 1) ((w.gr.rs 2).getLsbD 0) = false) (by decide +kernel))

/-! FlushAndCollective: the last bytes of a page; a request of four bytes -/

theorem witness_flushr : MeetsRead (mapped (about 0xA2410800 fun g => (g.setS 1 0x1FF0).setS 2 16))
    (fun w => { reads := [sreg 1, sreg 2], raises := lengthFault w 2 }) (fun w i => w.paid i)
    (fun w rcd => do
      match ← xlate w.cl w.t.ctx rcd Kind.read false (BitVec.ofNat 64 ((w.gr.rs 1).toNat / 4096 * 4096)) with
      | .ok a => Pure.pure a
      | .error _ => stay) fun w _ _ =>
    decide ((w.gr.rs 1).toNat < (w.gr.rs 1).toNat + (w.gr.rs 2).toNat ∧
      (w.gr.rs 1).toNat + (w.gr.rs 2).toNat ≤ (w.gr.rs 1).toNat / 4096 * 4096 + 4096) :=
  meetsRead_of (fun _ _ => ⟨rfl, rfl⟩) (by decide +kernel)

theorem witness_coll : Meets (fnPut 0 (fun f => { f with lkbase := 0x6000, lkcnt := 1 })
      (poke 0x6000 [5, 0, 0, 0, 0, 0, 3] (spadded [(0x101, 0x10), (0x109, 0x20), (0x110, 4)] (about 0xA2830000 fun g => g.setS 3 0x100))))
    (fun w =>
      { reads := [sreg 3], waits := spadHeld w || endpointHeld w (w.low 3)
        raises := if (collParts w (w.low 3)).isNone then
          [{ cause := Cause.engineErr, code := 1, value := BitVec.ofNat 64 (w.low 3) }] else [] })
    fun w => (collParts w (w.low 3)).isSome = true :=
  meets_dec (by decide +kernel)

/-! LayerListWords: attaching layer 1 to handle 0, and detaching it -/

def editWho (w : View) : Who :=
  { groupWho w.g w.gr w.gr.nextId with
    rels := w.gr.fences ++ [{ party := partyOf w.s w.g, scope := w.scope, clock := w.gr.release w.g }] }

def editWrites (w : View) (e : ListEdit) : List (Nat × List Byte) :=
  (if e.idx = [] then []
    else (List.range 8).map fun i => (e.target.pa + 8 * i, natBytes (listBits ((e.handle.lver + 1) % 65536) e.idx / 2 ^ (64 * i)) 8)) ++
  [(e.entry.pa + 40, natBytes (if e.idx = [] then 0 else (w.gr.rs 3).toNat) 8),
   (e.entry.pa + 48, natBytes ((e.handle.lver + 1) % 65536) 2)]

def editDone (w : View) (ws : List (Nat × List Byte)) (t : State) : State :=
  ws.foldl (fun t x => groupWritten w.g (editWho w) x.1 x.2 t) t

def Editable (w : View) (e : ListEdit) (u : State) : Prop :=
  NoJournal w ∧ sysWaits w.s e.target = false ∧
  ∀ k x, (editWrites w e)[k]? = some x →
    Room (editDone w ((editWrites w e).take k) u) x.1 x.2.length ∧
      Clean (editDone w ((editWrites w e).take k) u) (editWho w) x.1 x.2.length true

def editableB (w : View) (e : ListEdit) (u : State) : Bool :=
  (unjournalled w && !sysWaits w.s e.target) &&
    (List.range (editWrites w e).length).all fun k => match (editWrites w e)[k]? with
      | none => true
      | some x => roomB (editDone w ((editWrites w e).take k) u) x.1 x.2.length &&
          cleanB (editDone w ((editWrites w e).take k) u) (editWho w) x.1 x.2.length true

theorem editable_of (w : View) (e : ListEdit) (u : State) (h : editableB w e u = true) : Editable w e u := by
  simp only [editableB, Bool.and_eq_true, Bool.not_eq_true'] at h
  refine ⟨noJournal_of h.1.1, h.1.2, fun k x hx => ?_⟩
  have := List.all_eq_true.1 h.2 k (List.mem_range.2 (List.getElem?_eq_some_iff.1 hx).1)
  rw [hx] at this
  have := Bool.and_eq_true_iff.1 this
  exact ⟨room_of this.1, clean_of this.2⟩

def editInfo (w : View) : Info := { reads := [sreg 1, sreg 2, sreg 3], mods := modScope, waits := !w.gr.drained }

/-- Layer 1 of handle 0. -/
def layer1 : List Byte := [0, 0x12] ++ List.replicate 34 0 ++ [0x40, 0, 0, 0, 0x40, 0, 0, 0, 1] ++ List.replicate 18 0 ++ [2]

theorem witness_lattach : MeetsStaged (poke 0x5040 layer1 (handled (about 0xA2C10830 fun g => (g.setS 2 1).setS 3 0x1800))) editInfo
    (fun w => editList w true (w.low 1) (w.low 2) (w.gr.rs 3)) (fun _ _ => 0) Editable :=
  meetsStaged_of (cond := editableB) (by decide +kernel) editable_of

theorem witness_ldetach : MeetsStaged
    (poke 0x50C0 ([1] ++ List.replicate 31 0 ++ [1] ++ List.replicate 31 0)
      (poke 0x5028 [0xC0, 0x10] (poke 0x5040 layer1 (handled (about 0xA3010830 fun g => (g.setS 2 1).setS 3 0x1800))))) editInfo
    (fun w => editList w false (w.low 1) (w.low 2) (w.gr.rs 3)) (fun _ _ => 0) Editable :=
  meetsStaged_of (cond := editableB) (by decide +kernel) editable_of

/-! BarrierWords: a phase joined, filled, and entered a second time -/

def arriveInfo (fn c : Nat) (red : Option (RedKind × BitVec 6 × BitVec 6)) (w : View) : Info :=
  { reads := (red.map fun r => [sreg r.2.1]).getD [], writes := (red.map fun r => [sreg r.2.2]).getD []
    ok := (BitVec.ofNat 6 c).ult 33, surcharge := if red.isSome then 1 else 0, mask := if red.isSome then .acts else .ignores
    raises := barCauses w fn 3 c (red.map (·.1)), waits := !w.gr.drained }

def arriveX (c : Nat) (red : Option (RedKind × BitVec 6 × BitVec 6)) (sync : Bool) (w : View) : Barrier :=
  arrivedAt w 3 c (red.map fun r => (r.1, (w.gr.rs r.2.1.toNat).extractLsb' 0 32)) (if sync then some (red.map (·.2.2.toNat)) else none)

/-- One of two groups has arrived. -/
def half (b : Barrier) (s : State) : State :=
  teamed (fun t => { t with barriers := [(3, { b with count := 2, arrived := [0] })] }) (paired s)

theorem fills_of {s : State} {info : View → Info} {x : View → Barrier}
    (h : meets s info (fun w => (!(barrierOf w.s w.eid 3).arrived.contains w.g &&
      decide ((x w).arrived.length = if (x w).count = 0 then (liveGroups w.s w.eid 3).length else (x w).count)) && freshPhase w 3) = true) :
    Meets s info fun w => w.g ∉ (barrierOf w.s w.eid 3).arrived ∧ Full w 3 (x w) ∧ FreshPhase w 3 :=
  Meets.mono (fun _ h => by
    simp only [Bool.and_eq_true, Bool.not_eq_true', List.contains_eq_mem, decide_eq_false_iff_not, decide_eq_true_eq] at h
    exact ⟨h.1.1, h.1.2, freshPhase_of h.2⟩) (meets_of h)

theorem joins_of {s : State} {info : View → Info} {x : View → Barrier}
    (h : meets s info (fun w => !(barrierOf w.s w.eid 3).arrived.contains w.g &&
      decide ((x w).arrived.length ≠ if (x w).count = 0 then (liveGroups w.s w.eid 3).length else (x w).count)) = true) :
    Meets s info fun w => w.g ∉ (barrierOf w.s w.eid 3).arrived ∧ ¬Full w 3 (x w) :=
  Meets.mono (fun _ h => by
    simp only [Bool.and_eq_true, Bool.not_eq_true', List.contains_eq_mem, decide_eq_false_iff_not, decide_eq_true_eq] at h
    exact h) (meets_of h)

theorem witness_barSync_again : Meets (half {} (about 0xB0020003)) (arriveInfo 0 2 none) fun w => w.g ∈ (barrierOf w.s w.eid 3).arrived :=
  meets_dec (by decide +kernel)

theorem witness_barSync_joins : Meets (paired (about 0xB0020003)) (arriveInfo 0 2 none) fun w =>
    w.g ∉ (barrierOf w.s w.eid 3).arrived ∧ ¬Full w 3 (arriveX 2 none true w) :=
  joins_of (by decide +kernel)

theorem witness_barSync_fills : Meets (about 0xB0010003) (arriveInfo 0 1 none) fun w =>
    w.g ∉ (barrierOf w.s w.eid 3).arrived ∧ Full w 3 (arriveX 1 none true w) ∧ FreshPhase w 3 :=
  fills_of (by decide +kernel)

theorem witness_barArr_joins : Meets (paired (about 0xB0420003)) (arriveInfo 1 2 none) fun w =>
    w.g ∉ (barrierOf w.s w.eid 3).arrived ∧ ¬Full w 3 (arriveX 2 none false w) :=
  joins_of (by decide +kernel)

theorem witness_barArr_fills : Meets (about 0xB0410003) (arriveInfo 1 1 none) fun w =>
    w.g ∉ (barrierOf w.s w.eid 3).arrived ∧ Full w 3 (arriveX 1 none false w) ∧ FreshPhase w 3 :=
  fills_of (by decide +kernel)

theorem witness_barRedAddF32_again : Meets (half { red := some .addF32 } (about 0xB0C21053)) (arriveInfo 3 2 (some (.addF32, 4, 5)))
    fun w => w.g ∈ (barrierOf w.s w.eid 3).arrived :=
  meets_dec (by decide +kernel)

theorem witness_barRedAddI32_joins : Meets (paired (about 0xB0821053)) (arriveInfo 2 2 (some (.addI32, 4, 5))) fun w =>
    w.g ∉ (barrierOf w.s w.eid 3).arrived ∧ ¬Full w 3 (arriveX 2 (some (.addI32, 4, 5)) true w) :=
  joins_of (by decide +kernel)

theorem witness_barRedOr_fills : Meets (about 0xB1C11053) (arriveInfo 7 1 (some (.or, 4, 5))) fun w =>
    w.g ∉ (barrierOf w.s w.eid 3).arrived ∧ Full w 3 (arriveX 1 (some (.or, 4, 5)) true w) ∧ FreshPhase w 3 :=
  fills_of (by decide +kernel)

/-! FenceAndMessageWords -/

theorem witness_fence : Meets (about 0xB2000004) (fun _ => { ok := (4 : BitVec 4).ult 5, mask := .ignores }) fun w => w.gr.drained = true :=
  meets_dec (by decide +kernel)

theorem witness_fence_holds :
    Meets ({ queued { kind := .store, size := 4, lanes := [{ lane := 0, va := 0x1008, pa := 0x5008 }] } with cores := (about 0xB2000004).cores })
      (fun _ => { ok := (4 : BitVec 4).ult 5, mask := .ignores }) fun w => w.gr.drained = false :=
  meets_dec (by decide +kernel)

theorem witness_msend : Meets (spadded [] (about 0xB2431050 fun g => (g.setS 3 0x4000000002).setS 5 248))
    (fun w =>
      { reads := [sreg 3, sreg 4, sreg 5], mods := modScope
        raises := if 248 < (w.gr.rs 5).toNat || bitsOf (w.gr.rs 3).toNat 31 24 ≠ 0 then
          [{ cause := Cause.illOperand, value := w.firstWord.zeroExtend 64, word := fetchAt w.s w.core w.gr.slot w.wordPc }] else []
        surcharge := msgSlots (w.gr.rs 5).toNat, waits := !w.gr.drained || 8 ≤ w.gr.outbox.length })
    fun w => (w.gr.rs 3).toNat / 2 ^ 32 % 64 = 0 ∧ spInside w.t (w.low 4) (w.gr.rs 5).toNat = true :=
  meets_dec (by decide +kernel)

def wringInfo (w : View) : Info := { reads := [sreg 4, sreg 5], writes := [sreg 3], mods := modScope, mask := .ignores, waits := spadHeld w }

theorem witness_wring : Meets (spadded [(0x44, 1)] (about 0xB2831050 fun g => g.setS 4 0x40)) wringInfo fun w =>
    (w.low 4 % 64 = 0 ∧ spInside w.t (w.low 4) 64 = true) ∧ ringAhead w.t (w.low 4) ((w.gr.rs 5).extractLsb' 0 32) = some 1 :=
  meets_dec (by decide +kernel)

theorem witness_wring_holds : Meets (spadded [] (about 0xB2831050 fun g => g.setS 4 0x40)) wringInfo fun w =>
    (w.low 4 % 64 = 0 ∧ spInside w.t (w.low 4) 64 = true) ∧ ringAhead w.t (w.low 4) ((w.gr.rs 5).extractLsb' 0 32) = none :=
  meets_dec (by decide +kernel)

/-! TicketWords: the team has TIDX 0, and 1 -/

def takeInfo (w : View) : Info :=
  { ok := (0 : BitVec 4).ult 2, mask := .ignores, raises := ticketCauses w 0x0B 0 (w.t.took.contains 0) }

def ticket0 : Ticket := { addr := 0x5000, va := 0x1000 }

theorem witness_tktTake : Meets (ticketed (about 0xB2C00000)) takeInfo fun w =>
    ticketOf w.s w.t 0 = some ticket0 ∧ ticket0.void = false ∧ ticket0.next = w.t.tidx :=
  meets_dec (by decide +kernel)

theorem witness_tktTake_holds : Meets (teamed (fun t => { t with tidx := 1 }) (ticketed (about 0xB2C00000))) takeInfo fun w =>
    ∃ k, ticketOf w.s w.t 0 = some k ∧ k.void = false ∧ k.next ≠ w.t.tidx :=
  Meets.mono (fun _ h => ⟨ticket0, h⟩)
    (meets_dec (cond := fun w => ticketOf w.s w.t 0 = some ticket0 ∧ ticket0.void = false ∧ ticket0.next ≠ w.t.tidx) (by decide +kernel))

theorem witness_tktSkip : Meets (ticketed (about 0xB3000000))
    (fun w =>
      { ok := (0 : BitVec 4).ult 2, mask := .ignores, raises := ticketCauses w 0x0C 0 (w.t.passed.contains 0)
        waits := w.t.took.contains 0 && !w.gr.drained })
    fun w => NoJournal w ∧ ticketOf w.s w.t 0 = some ticket0 ∧ commitBlocks w.s.dev ticket0.addr = false ∧ Room w.s ticket0.addr 16 :=
  Meets.mono (fun _ h => ⟨noJournal_of h.1, h.2.1, h.2.2.1, room_of h.2.2.2⟩)
    (meets_dec (cond := fun w => unjournalled w = true ∧ ticketOf w.s w.t 0 = some ticket0 ∧ commitBlocks w.s.dev ticket0.addr = false ∧
      roomB w.s ticket0.addr 16 = true) (by decide +kernel))

/-! OrderedAtomicWords: outside phase mode, and in it -/

def atomoInfo (i64 : Bool) (w : View) : Info :=
  let size := if i64 then 8 else 4
  { reads := sreg 1 :: .v 2 :: dataRegs 4 size, ok := !i64 || (4 : BitVec 6).getLsbD 0 == false
    surcharge := sectors size ((atomoAddrs w 1 2).map (·.2)) + w.lanes.length }

def atomoAcc (i64 : Bool) (w : View) : Access :=
  { kind := if w.phm then .atomo i64 else .atom (if i64 then .addI else .addF32), size := if i64 then 8 else 4, scope := 3, aon := true }

def atomoLanes (i64 : Bool) (w : View) : List LaneAcc :=
  (atomoAddrs w 1 2).map fun a => { lane := a.1, va := a.2, data := laneData w.gr 4 ((if i64 then 8 else 4) / 4) a.1 }

theorem witness_atomoAddI64 : MeetsQueue (mapped (about 0xB3810840 fun g => (g.setExm 1).setS 1 0x1008))
    (atomoInfo true) (atomoAcc true) (atomoLanes true) (fun w _ _ => !w.phm && (w.s.launch? w.t.launch).all fun l => l.journal != 2) :=
  meetsQueue_of (by decide +kernel)

theorem witness_atomoAddF32_phase : MeetsQueue (phased (mapped (about 0xB3410840 fun g => (g.setExm 1).setS 1 0x1008)))
    (atomoInfo false) (atomoAcc false) (atomoLanes false) (fun w ok u => w.phm && (w.s.grid? w.t.grid).isSome && u.dev.hcommit.isNone &&
      decide (u.home.ordered.length + ok.length ≤ 64) && !(u.ctx w.t.ctx).msz) :=
  meetsQueue_of (by decide +kernel)

/-! VersionedWords: two lanes of a line; the version is the expected one, and is not -/

def verB (store : Bool) (hit : Bool) (w : View) (ok : List LaneAcc) (u : State) : Bool :=
  let pa := (ok.headD { lane := 0, va := 0 }).pa
  let acc := verAccess store 2 4 w
  w.phm == false && unjournalled w && decide ((w.gr.rs 2).toNat / 2 ^ 16 = 0 ∧ (∀ l ∈ w.lanes, l < 16) ∧ (w.gr.rs 1).toNat % 64 = 0 ∧
    ok.head?.map (fun a => (a.pa, a.cmp, a.chk)) = some (pa, (w.gr.rs 2).toNat % 65536, true) ∧
    ((metaOf u pa).ver.toNat = (w.gr.rs 2).toNat % 65536 ↔ hit = true)) && (u.ctx w.t.ctx).msz == false &&
    (u.group? w.g).any fun gr =>
      readyNow u w.g (numbered gr) w.gr.nextId acc ok &&
      (let t := w.onGroup numbered u
       if store then
         followsB w.g w.gr.nextId 4 (numbered gr) true ok
           (fun a t => stored w.g w.gr.nextId { acc with rels := gr.fences } ((t.group? w.g).getD (numbered gr)) a t)
           (metaWritten pa w.t.tag t)
       else
         followsB w.g w.gr.nextId 4 (numbered gr) false ok
           (fun a t => floorRaised w.g a.pa 4 (readAt (groupWho w.g ((t.group? w.g).getD (numbered gr)) w.gr.nextId) a.pa 4 t)) t)

/-- A versioned access of the registers 1, 2 and 4 meets its hypotheses. -/
def MeetsLine (s : State) (store : Bool) (cond : View → List LaneAcc → Nat → State → Group → Prop) : Prop :=
  ∃ w ok pa u gr, view s = some w ∧ PlainEnd w ∧ w.phm = false ∧ NoJournal w ∧ u.group? w.g = some gr ∧
    Ready w (verInfo store 1 2 4 w) ∧ Acts w (verInfo store 1 2 4 w) ∧ (w.gr.rs 2).toNat / 2 ^ 16 = 0 ∧
    ReachesLine s w store 1 2 4 ok pa u ∧ cond w ok pa u gr

theorem meetsLine_of {s : State} {store hit : Bool} {cond : View → List LaneAcc → Nat → State → Group → Prop}
    (h : meetsQueue s (verInfo store 1 2 4) (verAccess store 2 4) (verLanes 1 2 4) (verB store hit) = true)
    (k : ∀ w ok u gr, verB store hit w ok u = true → u.group? w.g = some gr → cond w ok (ok.headD { lane := 0, va := 0 }).pa u gr) :
    MeetsLine s store cond := by
  obtain ⟨w, ok, u, a, b, c, d, e, f⟩ := meetsQueue_of h
  have f0 := f
  simp only [verB, Bool.and_eq_true, beq_iff_eq, decide_eq_true_eq] at f
  obtain ⟨⟨⟨⟨f1, f2⟩, f3, f4, f5, f6, f7⟩, f8⟩, f9⟩ := f
  obtain ⟨gr, g1, g2⟩ := any_of f9
  rw [Bool.and_eq_true] at g2
  exact ⟨w, ok, _, u, gr, a, d, f1, noJournal_of f2, g1, b, c, f3, ⟨e, f4, f5, f6, ⟨gr, g1, g2.1⟩, f8⟩, k w ok u gr f0 g1⟩

theorem verB_follows {store hit : Bool} {w : View} {ok : List LaneAcc} {u : State} {gr : Group} (h : verB store hit w ok u = true)
    (e : u.group? w.g = some gr) :
    if store then
      Follows w.g w.gr.nextId 4 (numbered gr) true ok
        (fun a t => stored w.g w.gr.nextId { verAccess store 2 4 w with rels := gr.fences } ((t.group? w.g).getD (numbered gr)) a t)
        (metaWritten (ok.headD { lane := 0, va := 0 }).pa w.t.tag (w.onGroup numbered u))
    else
      Follows w.g w.gr.nextId 4 (numbered gr) false ok
        (fun a t => floorRaised w.g a.pa 4 (readAt (groupWho w.g ((t.group? w.g).getD (numbered gr)) w.gr.nextId) a.pa 4 t))
        (w.onGroup numbered u) := by
  simp only [verB, Bool.and_eq_true, e, Option.any_some] at h
  have h := h.2.2
  cases store <;> exact follows_of _ _ h

theorem witness_vstVer : MeetsLine (checked (mapped (about 0xB3C10840 fun g => (g.setExm 3).setS 1 0x1040))) true fun w ok pa u gr =>
    (metaOf u pa).ver.toNat = (w.gr.rs 2).toNat % 65536 ∧ Follows w.g w.gr.nextId 4 (numbered gr) true ok
      (fun a t => stored w.g w.gr.nextId { verAccess true 2 4 w with rels := gr.fences } ((t.group? w.g).getD (numbered gr)) a t)
      (metaWritten pa w.t.tag (w.onGroup numbered u)) :=
  meetsLine_of (hit := true) (by decide +kernel) fun w ok u gr h e => ⟨by
    simp only [verB, Bool.and_eq_true, decide_eq_true_eq] at h
    exact h.1.1.2.2.2.2.2.2 trivial, verB_follows h e⟩

theorem witness_vstVer_misses : MeetsLine (checked (mapped (about 0xB3C10840 fun g => ((g.setExm 3).setS 1 0x1040).setS 2 7))) true
    fun w _ pa u _ => (metaOf u pa).ver.toNat ≠ (w.gr.rs 2).toNat % 65536 :=
  meetsLine_of (hit := false) (by decide +kernel) fun w ok u gr h e => by
    simp only [verB, Bool.and_eq_true, decide_eq_true_eq] at h
    exact fun k => Bool.noConfusion (h.1.1.2.2.2.2.2.1 k)

theorem witness_ldVer : MeetsLine (checked (mapped (about 0xB4010840 fun g => (g.setExm 3).setS 1 0x1040))) false fun w ok _ u gr =>
    Follows w.g w.gr.nextId 4 (numbered gr) false ok
      (fun a t => floorRaised w.g a.pa 4 (readAt (groupWho w.g ((t.group? w.g).getD (numbered gr)) w.gr.nextId) a.pa 4 t))
      (w.onGroup numbered u) :=
  meetsLine_of (hit := true) (by decide +kernel) fun _ _ _ _ h e => verB_follows h e

/-! MatrixReservationWords: a team with 8192 bytes of the operand buffer and two banks, and a reservation of format `f` -/

def reserved (f : Nat) : Reservation := { rnum := 0, gen := 1, f := f, soff := 0, base := 0, units := 1 }

def matted (f : Nat) : State → State :=
  teamed fun t => { t with shape := { t.shape with obuf := 0x102000 }, mat := { t.mat with quota := 8192, banks := 2, res := [reserved f] } }

theorem witness_obres : Meets (matted 0 (about 0xC0031050 fun g => g.setS 4 4096))
    (fun w => { matInfo w [sreg 4, sreg 5] 0 false with
                writes := [sreg 3]
                waits := match chooseRes w.t (w.gr.rs 4).toNat (w.gr.rs 5).toNat with
                  | some (_, u) => w.exm == 0xFFFFFFFF && !runFree w.t (fun r => !r.live) u ((w.gr.rs 4).toNat / 4096)
                  | none => false }) fun w => chooseRes w.t (w.gr.rs 4).toNat (w.gr.rs 5).toNat = some (1, 1) :=
  meets_dec (by decide +kernel)

theorem witness_obrel : Meets (matted 0 (about 0xC0430000 fun g => g.setS 3 0x100000001000000)) (fun w => matInfo w [sreg 3] 0 false)
    fun w => namedRes w.t (readRes (w.gr.rs 3)) = some (reserved 0) :=
  meets_dec (by decide +kernel)

/-! MatrixOperationWords: KT = 4 in fp32, and a scaled fetch of B -/

abbrev FetchOk (w : View) (sn : LaneAcc × Snapshot) : Prop :=
  namedRes w.t (readRes (w.gr.rs 4)) = some (reserved 0) ∧ bitsOf (w.gr.rs 3).toNat 63 42 = 0 ∧
    0 < bitsOf (w.gr.rs 3).toNat 41 32 ∧ bitsOf (w.gr.rs 3).toNat 41 32 ≤ 512 ∧
    tileValid (readRes (w.gr.rs 4)) (bitsOf (w.gr.rs 3).toNat 41 32) = true ∧
    handleAgrees sn.2.handle (readRes (w.gr.rs 4)).fmt (readRes (w.gr.rs 4)).blk (readRes (w.gr.rs 4)).scl false
      ((w.gr.rs 5).toNat % 2 ^ 32) ((w.gr.rs 5).toNat % 2 ^ 32) = true

theorem witness_mfetcha :
    MeetsStaged (handled (matted 0 (about 0xC0831050 fun g => (g.setS 3 0x400000000).setS 4 0x100000001000000)))
      (fun w => matInfo w [sreg 3, sreg 4, sreg 5] 0 true) (fun w => takeSnapshot w (w.low 3)) (fun _ _ => 0)
      fun w sn _ => NoJournal w ∧ FetchOk w sn :=
  meetsStaged_of (cond := fun w sn _ => unjournalled w && decide (
      namedRes w.t (readRes (w.gr.rs 4)) = some (reserved 0) ∧ bitsOf (w.gr.rs 3).toNat 63 42 = 0 ∧
      0 < bitsOf (w.gr.rs 3).toNat 41 32 ∧ bitsOf (w.gr.rs 3).toNat 41 32 ≤ 512 ∧
      tileValid (readRes (w.gr.rs 4)) (bitsOf (w.gr.rs 3).toNat 41 32) = true ∧
      handleAgrees sn.2.handle (readRes (w.gr.rs 4)).fmt (readRes (w.gr.rs 4)).blk (readRes (w.gr.rs 4)).scl false
        ((w.gr.rs 5).toNat % 2 ^ 32) ((w.gr.rs 5).toNat % 2 ^ 32) = true)) (by decide +kernel) fun _ _ _ h =>
    have h := Bool.and_eq_true_iff.1 h
    ⟨noJournal_of h.1, of_decide_eq_true h.2⟩

theorem witness_mloadb : MeetsStaged (handled (matted 0 (about 0xC0C31050 fun g => g.setS 4 0x40000)))
    (fun w => matInfo w [sreg 3, sreg 4, sreg 5] 0 true) (fun w => takeSnapshot w (w.low 3))
    (fun w sn => 2 + ceilDiv (readBWord (w.gr.rs 4)).declared 64 * (1 + sn.2.layers.length))
    fun w sn _ => NoJournal w ∧ (w.gr.rs 3).toNat / 2 ^ 32 = 0 ∧ (readBWord (w.gr.rs 4)).valid w.t.mat.banks = true ∧
      handleAgrees sn.2.handle (readBWord (w.gr.rs 4)).fmt (readBWord (w.gr.rs 4)).blk (readBWord (w.gr.rs 4)).scl true
        ((w.gr.rs 5).toNat / 2 ^ 32) ((w.gr.rs 5).toNat % 2 ^ 32) = true :=
  meetsStaged_of (cond := fun w sn _ => unjournalled w && decide ((w.gr.rs 3).toNat / 2 ^ 32 = 0 ∧
      (readBWord (w.gr.rs 4)).valid w.t.mat.banks = true ∧
      handleAgrees sn.2.handle (readBWord (w.gr.rs 4)).fmt (readBWord (w.gr.rs 4)).blk (readBWord (w.gr.rs 4)).scl true
        ((w.gr.rs 5).toNat / 2 ^ 32) ((w.gr.rs 5).toNat % 2 ^ 32) = true)) (by decide +kernel) fun _ _ _ h =>
    have h := Bool.and_eq_true_iff.1 h
    ⟨noJournal_of h.1, of_decide_eq_true h.2⟩

def PassOk (batched : Bool) (n : BitVec 2) (res : Reservation) (w : View) : Prop :=
  let r := readRes (w.gr.rs 3)
  let b := readBWord (w.gr.rs 4)
  let k := if batched then b.kt / 4 else b.kt
  namedRes w.t r = some res ∧ tileValid r b.kt = true ∧ b.valid w.t.mat.banks = true ∧ passRate4 r.fmt b.fmt ≠ 0 ∧ 0 < k ∧ k ≤ 512 ∧
    (batched = true → k ≤ 128 ∧ b.kt % 4 = 0) ∧ ((r.fmt = 6 ∨ r.fmt = 7) → r.blk = b.blk) ∧
    (batched = true → (r.fmt = 6 ∨ r.fmt = 7) → k % blockOf r.blk = 0) ∧ bankOk w.t n.toNat (r.fmt = 1) = true

theorem passOk_of {s : State} {info : View → Info} {batched : Bool} {n : BitVec 2} {res : Reservation}
    (h : meets s info (fun w =>
      let r := readRes (w.gr.rs 3)
      let b := readBWord (w.gr.rs 4)
      let k := if batched then b.kt / 4 else b.kt
      decide (namedRes w.t r = some res ∧ tileValid r b.kt = true ∧ b.valid w.t.mat.banks = true ∧ passRate4 r.fmt b.fmt ≠ 0 ∧
        0 < k ∧ k ≤ 512 ∧ (batched = true → k ≤ 128 ∧ b.kt % 4 = 0) ∧ ((r.fmt = 6 ∨ r.fmt = 7) → r.blk = b.blk) ∧
        (batched = true → (r.fmt = 6 ∨ r.fmt = 7) → k % blockOf r.blk = 0) ∧ bankOk w.t n.toNat (r.fmt = 1) = true)) = true) :
    Meets s info (PassOk batched n res) := by
  obtain ⟨w, a, b, c, d, e⟩ := meets_of h
  have e := of_decide_eq_true e
  exact ⟨w, a, b, c, d, e⟩

def passInfo (batched : Bool) (w : View) : Info :=
  matInfo w [sreg 3, sreg 4] (passCycles batched (readRes (w.gr.rs 3)).fmt (readBWord (w.gr.rs 4)).fmt (readBWord (w.gr.rs 4)).kt) true

theorem witness_mmaD : Meets (matted 4 (about 0xC1031000 fun g => (g.setS 3 0x101000001000000).setS 4 0x20100)) (passInfo false)
    (PassOk false 0 (reserved 4)) :=
  passOk_of (by decide +kernel)

theorem witness_mmaB : Meets (matted 0 (about 0xC1431001 fun g => (g.setS 3 0x100000001000000).setS 4 0x40000)) (passInfo true)
    (PassOk true 1 (reserved 0)) :=
  passOk_of (by decide +kernel)

theorem witness_mzero : Meets (matted 0 (about 0xC1800001)) (fun w => matInfo w [] 0 true) fun w => bankOk w.t 1 false = true :=
  meets_dec (by decide +kernel)

theorem witness_mstore : Meets (matted 0 (about 0xC1C31050 fun g => (g.setS 4 0).setS 5 3))
    (fun w => matInfo w [sreg 3, sreg 4, sreg 5] (storeSectors (w.gr.rs 3) (w.gr.rs 4) ((w.gr.rs 5).toNat % 16)) true) fun w =>
    (w.gr.rs 5).toNat ≤ 3 ∧ bankOk w.t 0 ((w.gr.rs 5).toNat = 1) = true ∧ (w.gr.rs 3).toNat % dfmtSize (w.gr.rs 5).toNat = 0 ∧
      (w.gr.rs 4).toNat % dfmtSize (w.gr.rs 5).toNat = 0 :=
  meets_dec (by decide +kernel)

/-! SpawnAndQueueWords: a spawn refused and accepted; records of 255 and 256 bytes, appended and popped -/

def spawnInfo (w : View) : Info := { reads := [sreg 4], writes := [sreg 3], mask := .ignores, waits := !w.gr.drained }

theorem witness_spawn_rejected : MeetsStaged (spadded [] (about 0xD0031000 fun g => g.setS 4 1)) spawnInfo
    (fun w => planSpawn w (w.low 4)) (fun _ p => if p.code = 0 then 3 + p.d.teams else 0) (fun w p _ => p.code ≠ 0 ∨ NoJournal w)
    (fun _ p => if p.code = 0 then p.d.grant else 0) :=
  meetsStaged_of (cond := fun _ p _ => p.code != 0) (by decide +kernel) fun _ _ _ h => .inl (by simpa using h)

def spawning : State :=
  launchPut 0 (fun l => { l with onum := 1 }) (spadded [(0x48, 1), (0x4C, 1), (0x58, 100)] (about 0xD0031000 fun g => g.setS 4 0x40))

theorem witness_spawn : ∃ w p u, view spawning = some w ∧ Gives (z := spawning) (planSpawn w (w.low 4)) spawning (.ok p) u ∧
    p.code = 0 ∧ NoJournal w ∧
    (let j : Info := { spawnInfo w with surcharge := 3 + p.d.teams, moved := p.d.grant }
     Ready w j ∧ Acts w j ∧ PlainEnd w) := by
  have ⟨w, hv, h⟩ := seen_of (s := spawning)
    (p := fun w => spawnable w 0x40 && (w.low 4 == 0x40) && unjournalled w &&
      decide ((readSpawn (spNat w.t 0x40 128)).teams = 1 ∧ (readSpawn (spNat w.t 0x40 128)).grant = 100) &&
      readyB w { spawnInfo w with surcharge := 4, moved := 100 })
    (q := fun w => (spawnable w 0x40 = true ∧ w.low 4 = 0x40) ∧ NoJournal w ∧
      ((readSpawn (spNat w.t 0x40 128)).teams = 1 ∧ (readSpawn (spNat w.t 0x40 128)).grant = 100) ∧
      readyB w { spawnInfo w with surcharge := 4, moved := 100 } = true)
    (by decide +kernel) (fun w h => by
      simp only [Bool.and_eq_true, beq_iff_eq, decide_eq_true_eq] at h
      exact ⟨h.1.1.1, noJournal_of h.1.1.2, h.1.2, h.2⟩)
  obtain ⟨⟨a, b⟩, c, ⟨d, e⟩, f⟩ := h
  have ⟨p, g, k, l⟩ := planSpawn_of (view_cases hv).1 a
  refine ⟨w, p, _, hv, by rw [b]; exact g, k, c, ?_⟩
  rw [l, d, e]
  exact readyB_sound f

def qlen (w : View) : Nat := bitsOf (w.gr.rs 4).toNat 47 32

/-- The length or the reserved bits of a spawnq's operand are bad. -/
def qbad (w : View) : Bool :=
  qlen w = 0 || 256 < qlen w || bitsOf (w.gr.rs 4).toNat 63 48 ≠ 0 || bitsOf (w.gr.rs 4).toNat 31 12 ≠ 0

def spawnqInfo (w : View) : Info :=
  { reads := [sreg 4, sreg 5], writes := [sreg 3], mask := .ignores
    surcharge := if qbad w then 2 else 2 + ceilDiv (qlen w) 64, waits := !w.gr.drained }

def qnamed (w : View) : Option NodeQueue := SMap.get? (w.s.ctx w.t.ctx).queues (bitsOf (w.gr.rs 4).toNat 11 0)

/-- A node queue of one record at virtual address 0x1000, which holds records of the lengths `lens`. -/
def nodeQ (lens : List Nat) : NodeQueue := { sbase := 0x1000, logc := 0, cdesc := 0, crec := 0, cls := 0, lens := lens, rcd := pagedRec }

def queueing (word : Nat) (lens : List Nat) (len : Nat) : State :=
  paged (ctxPut 0 (fun c => { c with queues := [(0, nodeQ lens)] })
    (spadded [] (about word fun g => g.setS 4 (BitVec.ofNat 64 (len * 2 ^ 32)))))

def qinside (w : View) : Bool := w.low 5 % 8 = 0 && !qbad w && spInside w.t (w.low 5) (qlen w)

theorem witness_spawnq_bad : Meets (spadded [] (about 0xD0431050)) spawnqInfo fun w => w.low 5 % 8 = 0 ∧ qbad w = true :=
  meets_dec (by decide +kernel)

theorem witness_spawnq_unbound : Meets (spadded [] (about 0xD0431050 fun g => g.setS 4 0x10000000000)) spawnqInfo fun w =>
    qinside w = true ∧ qnamed w = none :=
  meets_dec (by decide +kernel)

theorem witness_spawnq_full : Meets (queueing 0xD0431050 [8] 256) spawnqInfo fun w =>
    qinside w = true ∧ qnamed w = some (nodeQ [8]) ∧ 2 ^ (nodeQ [8]).logc ≤ (nodeQ [8]).lens.length :=
  meets_dec (by decide +kernel)

def putLines (a : LaneAcc) (bs : List Byte) (k : Nat) (t : State) : State :=
  (List.range k).foldl (fun t i => written sysParty (a.pa + 64 * i) ((bs.drop (64 * i)).take 64) t) t

/-- The four lines of the record can be written, whatever its bytes. -/
def appendable (w : View) (a : LaneAcc) (u : State) : Bool :=
  let record : List Byte :=
    spBytes w.t (w.low 5) (qlen w) ++ (List.range (256 - qlen w)).map fun i => Config.freeByte (u.free + i)
  let v : State := { u with free := u.free + (256 - qlen w) }
  (List.range 4).all fun i => !sysWaits (putLines a record i v) (a.line i) && roomB (putLines a record i v) (a.pa + 64 * i) 64

def appendB (w : View) (a : LaneAcc) (u : State) : Bool :=
  qinside w && unjournalled w && decide (qnamed w = some (nodeQ []) ∧ (nodeQ []).lens.length < 2 ^ (nodeQ []).logc) && appendable w a u

theorem witness_spawnq_255 : MeetsRead (queueing 0xD0431050 [] 255) spawnqInfo (fun w i => w.paid i)
    (fun w _ => nodeSlot w.t.ctx (nodeQ []) ((nodeQ []).head + (nodeQ []).lens.length) Kind.write) appendB :=
  meetsRead_of (fun _ _ => ⟨rfl, rfl⟩) (by decide +kernel)

theorem witness_spawnq_256 : MeetsRead (queueing 0xD0431050 [] 256) spawnqInfo (fun w i => w.paid i)
    (fun w _ => nodeSlot w.t.ctx (nodeQ []) ((nodeQ []).head + (nodeQ []).lens.length) Kind.write) appendB :=
  meetsRead_of (fun _ _ => ⟨rfl, rfl⟩) (by decide +kernel)

def qpopInfo (w : View) : Info := { reads := [sreg 4, sreg 5], writes := [sreg 3], mask := .ignores, waits := spadHeld w }

theorem witness_qpop_none : Meets (spadded [] (about 0xD0831050)) qpopInfo fun w => w.low 5 % 8 = 0 ∧ ∀ q, qnamed w = some q → q.lens = [] :=
  Meets.mono (fun _ h => ⟨h.1, fun q e => by rw [h.2] at e; cases e⟩)
    (meets_dec (cond := fun w => w.low 5 % 8 = 0 ∧ qnamed w = none) (by decide +kernel))

theorem witness_qpop : MeetsRead (queueing 0xD0831050 [256] 0) qpopInfo (fun w i => w.paid i)
    (fun w _ => nodeSlot w.t.ctx (nodeQ [256]) (nodeQ [256]).head Kind.read) fun w a u =>
    unjournalled w && decide (w.low 5 % 8 = 0 ∧ qnamed w = some (nodeQ [256]) ∧ spInside w.t (w.low 5) 256 = true) &&
      ((List.range 4).all fun i => !sysWaits u (a.line i)) && (List.range 8).all fun i => !sectorBad u.home (a.pa / 32 + i) :=
  meetsRead_of (fun _ _ => ⟨rfl, rfl⟩) (by decide +kernel)

/-! TeamWords: without a child; with a child grid of one team, running and DONE -/

def oneIn (_ : View) : Info := { reads := [sreg 4], writes := [sreg 3], mask := .ignores }

theorem witness_join_none : Meets (about 0xD0C31000 fun g => g.setS 4 5) oneIn fun w => childGrid w.s w.eid (w.gr.rs 4) = none :=
  meets_dec (by decide +kernel)

theorem witness_tstat_none : Meets (about 0xD1431000 fun g => g.setS 4 5) oneIn fun w => childTeam w.s w.eid (w.low 4 % 2 ^ 24) = none :=
  meets_dec (by decide +kernel)

def childTm (st : TeamState) : Team := { ctx := 0, tag := 5, ptag := 1, parent := some 0, grid := 7, state := st }
def childGd : Grid := { ctx := 0, launch := 0, parent := some 0, tag0 := 5, count := 1, teams := [9] }

/-- The team has a child grid of one team. -/
def fathered (st : TeamState) (s : State) : State :=
  { s with
    teams := SMap.put (SMap.adjust s.teams 0 fun t => { t with children := [7] }) 9 (childTm st)
    grids := SMap.put s.grids 7 childGd }

theorem witness_join : Meets (fathered .done (about 0xD0C31000 fun g => g.setS 4 0x100000005)) oneIn fun w =>
    childGrid w.s w.eid (w.gr.rs 4) = some (7, childGd) ∧ gridDone w.s childGd = true :=
  meets_dec (by decide +kernel)

theorem witness_join_holds : Meets (fathered .running (about 0xD0C31000 fun g => g.setS 4 0x100000005)) oneIn fun w =>
    childGrid w.s w.eid (w.gr.rs 4) = some (7, childGd) ∧ gridDone w.s childGd = false :=
  meets_dec (by decide +kernel)

theorem witness_tstat : Meets (fathered .done (about 0xD1431000 fun g => g.setS 4 5)) oneIn fun w =>
    childTeam w.s w.eid (w.low 4 % 2 ^ 24) = some (9, childTm .done) :=
  meets_dec (by decide +kernel)

theorem witness_topup : Meets (about 0xD1031050 fun g => (g.setS 4 5).setS 5 6)
    (fun w => { reads := [sreg 4, sreg 5], writes := [sreg 3], mask := .ignores, surcharge := 2, moved := (w.gr.rs 5).toNat })
    fun _ => True :=
  meets_dec (by decide +kernel)

theorem witness_resw : Meets (about 0xD1840000 fun g => g.setS 4 5) (fun _ => { reads := [sreg 4], mask := .ignores }) NoJournal :=
  Meets.mono (fun _ h => noJournal_of h) (meets_dec (cond := fun w => unjournalled w = true) (by decide +kernel))

theorem witness_phend : Meets (phased (about 0xD1C00000))
    (fun w => { mask := .ignores
                raises := if w.phm && w.t.parent.isNone then [] else [barMisuse 0x07 (Config.freeWord w.s.free)] }) fun _ => True :=
  meets_dec (by decide +kernel)

/-! SystemRegisterWords -/

theorem witness_srd : Meets (about 0xE0030100)
    (fun w => { writes := [sreg 3], ok := sysNumbers.contains 0x10, mask := .ignores, raises := exmPoison w 0x10 }) fun _ => True :=
  meets_dec (by decide +kernel)

theorem witness_swr : Meets (about 0xE0430460) (fun _ => { reads := [sreg 3], ok := sysWritable.contains 0x46, mask := .ignores }) fun _ => True :=
  meets_dec (by decide +kernel)

theorem witness_tclr : Meets (about 0xE1030000) (fun _ => { reads := [sreg 3], mask := .ignores }) fun _ => True :=
  meets_dec (by decide +kernel)

theorem witness_pwrq : Meets (about 0xE2830000) (fun _ => { writes := [sreg 3], mask := .ignores }) fun _ => True :=
  meets_dec (by decide +kernel)

theorem witness_jmark : Meets (about 0xE1830000) (fun _ => { reads := [sreg 3], mask := .ignores }) NoJournal :=
  Meets.mono (fun _ h => noJournal_of h) (meets_dec (cond := fun w => unjournalled w = true) (by decide +kernel))

/-! TrapWords -/

def trapOk (w : View) : Bool :=
  w.wordPc + 1 < 16384 && !w.gr.inHandler && w.gr.trap.tvec.getLsbD 15 && w.gr.lcnt == 0 && w.gr.fcnt == 0 && !(w.s.ctx w.t.ctx).watched

theorem witness_trap : Meets (about 0xE0800005 Group.handling) (fun _ => { mask := .ignores }) fun w => trapOk w = true :=
  meets_dec (by decide +kernel)

theorem witness_brk : Meets (about 0xE1400005 Group.handling) (fun _ => { mask := .ignores }) fun w => trapOk w = true :=
  meets_dec (by decide +kernel)

/-- A handler that runs, with the causes `c` left. -/
def inside (c : W64) (g : Group) : Group :=
  { g.handling with trap := { g.handling.trap with handler := some { exm := 0xFF, stack := [] }, tcause := c } }

def tretInfo (w : View) : Info := { mask := .ignores, raises := illConv w (!w.gr.inHandler) }

theorem witness_tret : Meets (about 0xE0C00000 (inside 0)) tretInfo fun w =>
    w.gr.trap.handler = some { exm := 0xFF, stack := [] } ∧ w.gr.trap.tcause = 0 :=
  meets_dec (by decide +kernel)

theorem witness_tret_again : Meets (about 0xE0C00000 (inside 1)) tretInfo fun w =>
    w.gr.trap.handler = some { exm := 0xFF, stack := [] } ∧ w.gr.trap.tcause ≠ 0 :=
  meets_dec (by decide +kernel)

/-! OverlayWords -/

theorem witness_ovld_held : Meets (overlaid (about 0xE1C30000 fun g => g.setS 3 2)) (fun _ => { reads := [sreg 3], mask := .ignores })
    fun w => (w.gr.slot = 0 ∧ ∃ l, w.s.launch? w.t.launch = some l ∧ bitsOf (w.gr.rs 3).toNat 15 0 < l.onum) ∧
      (slotHolding w.s w.core w.t (bitsOf (w.gr.rs 3).toNat 15 0)).isSome = true :=
  Meets.mono (fun _ h => ⟨⟨h.1.1, (any_of h.1.2).imp fun _ l => ⟨l.1, of_decide_eq_true l.2⟩⟩, h.2⟩)
    (meets_dec (cond := fun w => (w.gr.slot = 0 ∧
      ((w.s.launch? w.t.launch).any fun l => decide (bitsOf (w.gr.rs 3).toNat 15 0 < l.onum)) = true) ∧
      (slotHolding w.s w.core w.t (bitsOf (w.gr.rs 3).toNat 15 0)).isSome = true) (by decide +kernel))

theorem witness_ovld : MeetsRead (paged (poke 0x5010 [0, 0x11, 0, 0, 0, 0, 0, 0, 2]
      (launchPut 0 (fun l => { l with onum := 3, odir := 0x1000, rcd := pagedRec }) (about 0xE1C30000 fun g => g.setS 3 1))))
    (fun _ => { reads := [sreg 3], mask := .ignores }) (fun w i => w.paid i)
    (fun w _ => do
      match ← issueOverlay w (bitsOf (w.gr.rs 3).toNat 15 0) with
      | .ok ws => Pure.pure ws
      | _ => stay) fun w _ _ =>
    decide (w.gr.slot = 0 ∧ slotHolding w.s w.core w.t (bitsOf (w.gr.rs 3).toNat 15 0) = none) &&
      ((w.s.launch? w.t.launch).any fun l => decide (bitsOf (w.gr.rs 3).toNat 15 0 < l.onum)) &&
      slotOneFree (w.paid { reads := [sreg 3], mask := .ignores }) w.core :=
  meetsRead_of (fun _ _ => ⟨rfl, rfl⟩) (by decide +kernel)

theorem witness_ovcall : Meets (overlaid (about 0xE2030000 fun g => g.setS 3 0x23FFF))
    (fun _ => { reads := [sreg 3], writes := [.s 63], mask := .ignores }) fun w =>
    bitsOf (w.gr.rs 3).toNat 15 0 < 0x4000 ∧ slotHolding w.s w.core w.t (bitsOf (w.gr.rs 3).toNat 31 16) = some 1 :=
  meets_dec (by decide +kernel)

theorem witness_ovret : Meets (overlaid (about 0xE2430000 fun g => g.setS 3 0x23FFF)) (fun _ => { reads := [sreg 3], mask := .ignores })
    fun w => bitsOf (w.gr.rs 3).toNat 15 0 < 0x4000 ∧ slotHolding w.s w.core w.t (bitsOf (w.gr.rs 3).toNat 31 16) = some 1 :=
  meets_dec (by decide +kernel)

/-! CurrentWords: the largest amount granted, and one that waits behind a full string -/

def curAsk (w : View) : Current :=
  { who := .cres w.g, tile := w.cl % 4, amount := bitsOf (w.gr.rs 4).toNat 7 0, since := (w.s.cluster w.cl).cyc }

def curStr (w : View) : Str := w.s.str (clusterString w.cl)

def asksB (w : View) : Bool :=
  0 < bitsOf (w.gr.rs 4).toNat 7 0 && bitsOf (w.gr.rs 4).toNat 7 0 ≤ 64 && w.gr.cres.isNone && !(curStr w).holds (.cres w.g) &&
    !(curStr w).waits (.cres w.g)

theorem witness_cres : Meets (about 0xE2C31000 fun g => g.setS 4 64) oneIn fun w =>
    asksB w = true ∧ (curStr w).next [] ((curStr w).waiting ++ [curAsk w]) = some (curAsk w, []) :=
  meets_dec (by decide +kernel)

theorem witness_cres_waits : Meets
    (strPut 0 (fun q => { q with held := q.held ++ [{ who := .cres 32, tile := 0, amount := 200 }] }) (about 0xE2C31000 fun g => g.setS 4 64))
    oneIn fun w => asksB w = true ∧ ∀ rest, (curStr w).next [] ((curStr w).waiting ++ [curAsk w]) ≠ some (curAsk w, rest) :=
  Meets.mono (fun _ h => ⟨h.1, fun rest e => by rw [e] at h; simp at h⟩)
    (meets_dec (cond := fun w => asksB w = true ∧
      ((curStr w).next [] ((curStr w).waiting ++ [curAsk w])).isNone = true) (by decide +kernel))

theorem witness_crel : Meets (drawing (about 0xE3000000 fun g => { g with cres := some 8 })) (fun _ => { mask := .ignores })
    fun w => w.gr.cres.isSome = true :=
  meets_dec (by decide +kernel)

end Sys2Proof.Tests
end

