-- ==== Sys2Proof/Tests/WitnessEvents.lean ====
section
/-! SUPPORT. Witnesses for the statements about events, boot and steps: for each a state that meets all the hypotheses
of a clause together. -/

namespace Sys2Proof.Tests

open Sys2Proof.Machine

set_option maxRecDepth 100000
set_option Elab.async false

def theTeam (s : State) : Team := (s.team? 0).getD { ctx := 0, tag := 0 }
def theLaunch (s : State) : Launch := (s.launch? 0).getD { ctx := 0, rcd := pagedRec }

/-! PowerEvents: each at the value where its condition begins to hold -/

theorem witness_dieTempChange : 127 < 128 := by decide +kernel

theorem witness_reactionWindowEnd :
    let s := clusterPut 3 (fun c => { c with windowStart := some 0, therm := true, cyc := 30000 }) State.reset
    (s.cluster 3).windowStart = some 0 ∧ (s.cluster 3).constrained = true ∧ 0 + 10 * setClock s 3 ≤ (s.cluster 3).cyc := by
  decide +kernel

theorem witness_skipEnd :
    let s := clusterPut 3 (fun c => { c with zeroSince := some 0, skip := true, cyc := 30000 }) State.reset
    (s.cluster 3).zeroSince = some 0 ∧ (s.cluster 3).skip = true ∧ (s.cluster 3).constrained = false ∧
      0 + 10 * setClock s 3 ≤ (s.cluster 3).cyc := by
  decide +kernel

theorem witness_dramEmergency : let s := devPut (fun d => { d with layerTemp := SMap.store 0 d.layerTemp 7 1520 }) State.reset
    (7 : Nat) < 8 ∧ (95 : Int) * 16 ≤ SMap.look 0 s.dev.layerTemp 7 := by decide +kernel

theorem witness_rankRefresh : 127 < 128 ∧ 7 < 8 := by decide +kernel

theorem witness_sluiceGrant : let s := strPut 0 (fun q => { q with waiting := [{ who := .cres 0, tile := 1, amount := 8 }] }) State.reset
    (s.str 0).next [] (s.str 0).waiting = some ({ who := .cres 0, tile := 1, amount := 8 }, []) := by decide +kernel

theorem witness_vectorReservationIdle_sfu : (idle.str (clusterString (coreCluster 0))).holds (.sfu 0) = true ∧
    ((idle.core 0).sfuUntil).getD 0 ≤ (idle.cluster (coreCluster 0)).cyc := by decide +kernel

theorem witness_vectorReservationIdle_vec : (idle.str (clusterString (coreCluster 0))).holds (.vec 0) = true ∧
    ((idle.core 0).vecUntil).getD 0 ≤ (idle.cluster (coreCluster 0)).cyc := by decide +kernel

theorem witness_stringThrottle :
    let s := clusterPut 125 (fun c => { c with cyc := 3000 })
      (strPut 31 (fun q => { q with waiting := [{ who := .cres 0, tile := 1, amount := 200 }] }) State.reset)
    31 < 32 ∧ (s.str 31).throttled = false ∧ (s.str 31).waiting.find? (fun c =>
      c.since + (s.str 31).setClk ≤ (s.cluster (4 * 31 + c.tile)).cyc && !(s.str 31).fits c) =
        some { who := .cres 0, tile := 1, amount := 200 } := by decide +kernel

theorem witness_throttleEnd :
    let s := clusterPut 1 (fun c => { c with cyc := 12000 })
      (strPut 0 (fun q => { q with throttled := true, throttleBy := 1, quietSince := some 0 }) State.reset)
    (s.str 0).quietSince = some 0 ∧ (s.str 0).throttled = true ∧ (s.str 0).waiting = [] ∧
      0 + 4 * (s.str 0).setClk ≤ (s.cluster (s.str 0).throttleBy).cyc := by decide +kernel

theorem witness_clockBoostUp : let s := strPut 31 (fun q => { q with setClk := 2975 }) State.reset
    31 < 32 ∧ (s.str 31).setClk + 25 ≤ (s.str 31).ceiling ∧ (s.str 31).setClk < 3000 := by decide +kernel

theorem witness_clockBoostTop : let s := strPut 31 (fun q => { q with setClk := q.ceiling - 25 }) State.reset
    31 < 32 ∧ (s.str 31).setClk + 25 ≤ (s.str 31).ceiling ∧ s.dev.emergency = false ∧
      ∀ k ∈ [0, 1, 2, 3], (s.cluster (4 * 31 + k)).constrained = false := by decide +kernel

theorem witness_clockBoostDown : let s := strPut 31 (fun q => { q with setClk := 1225 }) State.reset
    31 < 32 ∧ 1225 ≤ (s.str 31).setClk := by decide +kernel

theorem witness_timingErrorReplay : (idle.str (clusterString 0)).gated = false ∧
    ((strPut 31 (fun q => { q with gated := true }) idle).str (clusterString 127)).gated = true := by decide +kernel

theorem witness_stringGate_begins : let s := strPut 31 (fun q => { q with gated := false }) State.reset
    31 < 32 ∧ (s.str 31).gated = false ∧ stringIdle s 31 = true ∧ (s.str 31).idleSince = none := by decide +kernel

theorem witness_stringGate : let s := { strPut 31 (fun q => { q with gated := false, idleSince := some 0 }) State.reset with timer := 5 }
    31 < 32 ∧ (s.str 31).gated = false ∧ stringIdle s 31 = true ∧ (s.str 31).idleSince = some 0 ∧ 0 + 5 ≤ s.timer := by decide +kernel

theorem witness_stringWake : let s := { strPut 0 (fun q => { q with gated := true, wakeAt := some 7 }) State.reset with timer := 7 }
    (s.str 0).wakeAt = some 7 ∧ 7 ≤ s.timer := by decide +kernel

/-! TranslationEvents: slot 31 of table 63, and of the table of function 0 for stage 1 -/

def aSlot : PrSlot := { page := 1, ctx := 0, stage := 1, kind := 0, waiters := 1 }

/-- Slot 31 of a table is taken, and with it every lower one where `full`. -/
def requested (tbl : Nat) (full : Bool) (s : State) : State :=
  tablePut tbl (fun t => { t with slots := (if full then (List.range 31).map fun i => (i, { aSlot with page := i + 2 }) else []) ++ [(31, aSlot)] }) s

theorem witness_attach_found : let s := requested (tableFor 0 1) false idle
    (s.table (tableFor 0 1)).slots.find? (fun e => e.2.page == 1 && e.2.ctx == 0 && e.2.stage == 1) = some (31, aSlot) := by
  decide +kernel

theorem witness_attach_lowest : let s := requested (tableFor 0 1) false idle
    (s.table (tableFor 0 1)).slots.find? (fun e => e.2.page == 7 && e.2.ctx == 0 && e.2.stage == 1) = none ∧
      SMap.get? (s.table (tableFor 0 1)).slots 0 = none ∧ ∀ i, i < 0 → SMap.get? (s.table (tableFor 0 1)).slots i ≠ none := by
  exact ⟨by decide +kernel, by decide +kernel, fun i h => absurd h (Nat.not_lt_zero i)⟩

theorem witness_attach_full : let s := requested (tableFor 0 1) true idle
    (s.table (tableFor 0 1)).slots.find? (fun e => e.2.page == 77 && e.2.ctx == 0 && e.2.stage == 1) = none ∧
      ∀ i, i < 32 → SMap.get? (s.table (tableFor 0 1)).slots i ≠ none := by
  exact ⟨by decide +kernel, all_below (p := fun i => (SMap.get? ((requested (tableFor 0 1) true idle).table (tableFor 0 1)).slots i).isSome)
    (by decide +kernel) fun i h e => by rw [e] at h; cases h⟩

theorem witness_prreplyRetry : let s := requested 63 false idle
    (63 < 64 ∨ (5 : Nat) = 63 - 64) ∧ SMap.get? (s.table 63).slots 31 = some aSlot := by decide +kernel

theorem witness_prreplyFail : let s := requested 64 false State.reset
    (64 < 64 ∨ (0 : Nat) = 64 - 64) ∧ SMap.get? (s.table 64).slots 31 = some aSlot ∧
      ∀ g gr p, s.group? g = some gr → (gr.parked = some p ∧ ∃ l, (l, Wait.slot 64 31) ∈ p.waits) → ReadOfIssue p :=
  ⟨.inr rfl, by decide +kernel, fun _ _ _ h => by cases h⟩

/-- A load of two lanes, of which lane 0 waits for slot 31 of table 64 and lane 1 for none. -/
def aLoad : Access :=
  { kind := .load false, size := 4, dest := .vec 4, lanes := [{ lane := 0, va := 0x3000 }, { lane := 1, va := 0x1004 }] }
def aParked : Parked := { unit := 0, acc := aLoad, waits := [(0, .slot 64 31)] }
def parkedState : State := requested 64 false (mapped (about 0x82040780 fun g => { g.handling with parked := some aParked, nextId := 1 }))

theorem witness_prreplyFail_group : let s := parkedState
    SMap.get? (s.table 64).slots 31 = some aSlot ∧ (s.group? 0).bind (·.parked) = some aParked ∧ (0, Wait.slot 64 31) ∈ aParked.waits ∧
      ¬ReadOfIssue aParked ∧ s.groups.map (·.1) = [0] ∧ s.team? 0 = some (theTeam s) ∧ watched s (theTeam s) = false ∧
      (s.group? 0).any (fun gr => !gr.inHandler && gr.trap.tvec.getLsbD 15) = true := by
  exact ⟨by decide +kernel, by decide +kernel, by decide +kernel, (fun h => by cases h), by decide +kernel, by decide +kernel,
    by decide +kernel, by decide +kernel⟩

theorem witness_prreply_bad : ¬(64 < 64 ∨ (1 : Nat) = 64 - 64) ∧ SMap.get? (State.reset.table 64).slots 31 = none := by decide +kernel

def booted (s : State) : State := { s with boot := { s.boot with started := true, stage := 4 } }

theorem witness_prreplyWrite : (booted idle).boot.started = true ∧ (booted idle).boot.recovery = false ∧
    bitsOf (0x3FF % 2 ^ 32) 9 8 = 3 ∧ bitsOf (0x1FC1F % 2 ^ 32) 31 16 ≠ 0 ∧
    bitsOf (0xFD1F % 2 ^ 32) 31 16 = 0 ∧ bitsOf (0xFD1F % 2 ^ 32) 7 5 = 0 ∧ bitsOf (0xFD1F % 2 ^ 32) 9 8 = 1 := by decide +kernel

/-- A parked access of the group of `s` whose lanes that wait no more translate, all but those of `rest`. -/
def resumesB (s : State) (all : Bool) : Bool :=
  match view s with
  | none => false
  | some w =>
    match w.gr.parked, s.launch? w.t.launch with
    | some p, some l =>
      let ready := p.acc.lanes.filter fun a => !stillWaits s p.waits a.lane
      !w.gr.exited && w.t.core.isSome && w.gr.trap.pending.isNone && stringAwake s w.cl && p.acc.space == 0 && !p.acc.acq &&
        !p.acc.rel && !p.acc.aon && !p.acc.np && (watchHits s w.t w.gr p.acc ready).isEmpty &&
        decide (w.gr.hold = none ∧ w.wordPc + 1 < 16384) && (w.gr.trap.tmode.getLsbD 2 == false) && decide ((ready.length == p.acc.lanes.length) = all) &&
        outcome (z := s) (translate w.cl w.t.ctx l.rcd p.acc ready) s .refl fun r u =>
          r.missed.isEmpty && r.bad.isEmpty && !r.ok.isEmpty && !r.ok.any (·.chk) && !(u.ctx w.t.ctx).msz
    | _, _ => false

theorem witness_resumes_part : parkedState.moves = [] ∧ resumesB parkedState false = true := by decide +kernel

theorem witness_resumes_whole :
    let s := mapped (about 0x82040780 fun g => { g with nextId := 1, parked := some { aParked with waits := [], acc := { aLoad with lanes := aLoad.lanes.drop 1 } } })
    s.moves = [] ∧ resumesB s true = true := by decide +kernel

theorem witness_xinv_0 : (State.reset.fn 0).xinvBusy = none ∧ ((0 : Nat) = 0 ∨ (1 : Nat) = 0) := by decide +kernel

theorem witness_xinv_63 : (State.reset.fn 63).xinvBusy = none ∧ ((63 : Nat) = 0 ∨ (0 : Nat) = 0) := by decide +kernel

theorem witness_xinv_ignored : ((fnPut 63 (fun r => { r with xinvBusy := some (0, 0, 0, 0) }) State.reset).fn 63).xinvBusy ≠ none ∧
    ((63 : Nat) ≠ 0 ∧ (1 : Nat) ≠ 0) := by decide +kernel

theorem witness_xinvDone : let s := fnPut 5 (fun r => { r with xinvBusy := some (0, 0, 0, 1) }) State.reset
    (s.fn 5).xinvBusy = some (0, 0, 0, 1) ∧ usesCovered s (0, 0, 0, 1) = false := by decide +kernel

/-! TranslationWalk: page 1, through a table of itself at 0x100000 whose entry 0 leads down and whose entry 1 is the leaf -/

/-- The leaf of page 1 is `e`; hardware sets A and D where `hwad`. -/
def leafed (e : Nat) (s : State) : State := poke 0x100008 (natBytes e 8) (paged s)
def hwadRec : CtxRec := { pagedRec with hwad := true }

theorem witness_nonCanon : canonical 0x0100000000000000#64 = false := by decide +kernel

theorem witness_tlbHit : canonical 0x1FFF#64 = true ∧ (tlbHit ((mapped idle).cluster 0) 0 1 Kind.write false).isSome = true := by decide +kernel

/-- The walk of page 1 comes down to level 0 and finds its entry there. -/
def foundB (s : State) (c : CtxRec) : Bool :=
  !c.s2en && (List.range 4).all (fun j =>
    tableOk s (tableAt s c.s1root 0x1FFF j) && !paBlocked s (entryPlace s c.s1root 0x1FFF j) &&
      (let e := entryAt s (entryPlace s c.s1root 0x1FFF j)
       bitOf e 0 && !bitOf e 1 && !malformed 1 (4 - j) e)) &&
    tableOk s (tableAt s c.s1root 0x1FFF 4) && !paBlocked s (entryPlace s c.s1root 0x1FFF 4)

theorem not_bad {lvl e : Nat} (h : malformed 1 lvl e = false) : ¬BadEntry lvl e := by
  intro b
  simp only [malformed, Bool.or_eq_false_iff, Bool.and_eq_false_iff] at h
  simp only [BadEntry] at b
  cases h1 : bitOf e 1 <;> cases h2 : bitOf e 3 <;> cases h3 : bitOf e 2 <;> simp_all <;> omega

theorem found_of {s : State} {c : CtxRec} (h : foundB s c = true) : Descends s c 0x1FFF 4 ∧
    tableOk s (tableAt s c.s1root 0x1FFF 4) = true ∧ paBlocked s (entryPlace s c.s1root 0x1FFF 4) = false := by
  simp only [foundB, Bool.and_eq_true, Bool.not_eq_true', List.all_eq_true, List.mem_range] at h
  obtain ⟨⟨⟨a, b⟩, c1⟩, d⟩ := h
  exact ⟨⟨a, by decide, fun j hj => have b := b j hj; ⟨b.1.1, b.1.2, b.2.1.1, b.2.1.2, not_bad b.2.2⟩⟩, c1, d⟩

theorem witness_walk_table : let s := poke 0x100000 [1, 1, 0, 0, 0, 0, 0x80] (paged idle)
    Descends s { pagedRec with s1root := 2 ^ 51 } 0x1FFF 0 ∧ tableOk s (2 ^ 51) = false :=
  ⟨⟨rfl, by decide, fun j hj => absurd hj (Nat.not_lt_zero j)⟩, by decide +kernel⟩

/-- A leaf that allows the access, and whose A and D bits stand or need not stand. -/
def leafB (s : State) (c : CtxRec) (kind : Nat) : Bool :=
  let e := entryAt s (entryPlace s c.s1root 0x1FFF 4)
  let out := bitsOf e 51 12 * 4096 + 0xFFF
  foundB s c && bitOf e 0 && !malformed 1 0 e && bitOf e 1 && !bitOf e 11 && rangePermits out (bitsOf e 61 59) &&
    paRange out != .control && !bitOf e 62 && !bitOf e 4 && (!needsRd kind || bitOf e 2) && (!needsW kind || bitOf e 3) &&
    kind != Kind.overlay && bitsOf e 61 59 != 2

theorem leaf_of {s : State} {c : CtxRec} {kind : Nat} (h : leafB s c kind = true) (m : inMetadata s 0x5FFF = false)
    (o : bitsOf (entryAt s (entryPlace s c.s1root 0x1FFF 4)) 51 12 = 5) :
    let e := entryAt s (entryPlace s c.s1root 0x1FFF 4)
    bitOf e 0 = true ∧ ¬BadEntry 0 e ∧ bitOf e 1 = true ∧ ¬OutOfRange s c (bitsOf e 51 12 * 4096 + 0xFFF) e ∧ ¬Denies kind false e := by
  simp only [leafB, Bool.and_eq_true, Bool.not_eq_true', Bool.or_eq_true, bne_iff_ne] at h
  obtain ⟨⟨⟨⟨⟨⟨⟨⟨⟨⟨⟨⟨-, a⟩, b⟩, c1⟩, -⟩, d⟩, f⟩, g⟩, k⟩, l⟩, p⟩, q⟩, r⟩ := h
  refine ⟨a, not_bad b, c1, ?_, ?_⟩
  · simp only [OutOfRange, o] at *
    simp_all
  · simp only [Denies]
    simp_all
    exact ⟨fun x => by simp_all, fun x => by simp_all⟩

theorem metadata_free {s : State} {pa : Nat} (h : ready s = false) : inMetadata s pa = false := by simp [inMetadata, h]

def leafAt (s : State) (c : CtxRec) : Nat := entryAt s (entryPlace s c.s1root 0x1FFF 4)

/-- The walk of page 1 stands before its entry of level 0. -/
def Found (s : State) (c : CtxRec) : Prop :=
  Descends s c 0x1FFF 4 ∧ tableOk s (tableAt s c.s1root 0x1FFF 4) = true ∧ paBlocked s (entryPlace s c.s1root 0x1FFF 4) = false

/-- And finds a leaf that reaches page 5. -/
def LeafHere (s : State) (c : CtxRec) (kind : Nat) : Prop :=
  bitOf (leafAt s c) 0 = true ∧ ¬BadEntry 0 (leafAt s c) ∧ bitOf (leafAt s c) 1 = true ∧
    ¬OutOfRange s c (bitsOf (leafAt s c) 51 12 * 4096 + 0xFFF) (leafAt s c) ∧ ¬Denies kind false (leafAt s c)

theorem witness_walk_leaf : let s := paged idle
    Found s hwadRec ∧ LeafHere s hwadRec Kind.write ∧ s.home.dirty.length + s.home.clean.length + 8 ≤ 32768 :=
  ⟨found_of (by decide +kernel), leaf_of (by decide +kernel) (metadata_free (by decide +kernel)) (by decide +kernel), by decide +kernel⟩

theorem witness_walk_unset : let s := leafed 0x500F idle
    Found s pagedRec ∧ LeafHere s pagedRec Kind.read ∧ bitOf (leafAt s pagedRec) 8 = false :=
  ⟨found_of (by decide +kernel), leaf_of (by decide +kernel) (metadata_free (by decide +kernel)) (by decide +kernel), by decide +kernel⟩

theorem witness_walk_notPresent : let s := leafed 0 idle
    Found s pagedRec ∧ bitOf (leafAt s pagedRec) 0 = false := ⟨found_of (by decide +kernel), by decide +kernel⟩

theorem witness_walk_malformed : let s := leafed 0x570F idle
    Found s pagedRec ∧ bitOf (leafAt s pagedRec) 0 = true ∧ BadEntry 0 (leafAt s pagedRec) :=
  ⟨found_of (by decide +kernel), by decide +kernel, .inr (.inl (by decide +kernel))⟩

theorem witness_walk_denied : let s := leafed 0x5307 idle
    Found s pagedRec ∧ LeafHere s pagedRec Kind.read ∧ Denies Kind.write false (leafAt s pagedRec) :=
  ⟨found_of (by decide +kernel), leaf_of (by decide +kernel) (metadata_free (by decide +kernel)) (by decide +kernel),
    .inr (.inr (.inl (by decide +kernel)))⟩

theorem witness_walk_range : let s := leafed 0x800000530F idle
    Found s pagedRec ∧ bitOf (leafAt s pagedRec) 0 = true ∧ malformed 1 0 (leafAt s pagedRec) = false ∧
      bitOf (leafAt s pagedRec) 1 = true ∧ OutOfRange s pagedRec (bitsOf (leafAt s pagedRec) 51 12 * 4096 + 0xFFF) (leafAt s pagedRec) :=
  ⟨found_of (by decide +kernel), by decide +kernel, by decide +kernel, by decide +kernel, .inl (by decide +kernel)⟩

/-- Stage 2 maps the lowest GiB onto itself. -/
def twoStages : State := poke 0x200000 [1, 0x10, 0x20] (poke 0x201000 [1, 0x20, 0x20] (poke 0x202000 [0x0F, 0x03] (paged idle)))
def stage2Rec : CtxRec := { hwadRec with s2en := true, s2root := 0x200000 }

theorem witness_walk_stages : stage2Rec.s2en = true ∧
    (walkLevels twoStages 1 0x1FFF Kind.write (table1 twoStages stage2Rec) 5 stage2Rec.s1root).toOption.any (fun r =>
      r.1.out == 0x5FFF && (walk2 twoStages stage2Rec Kind.write (r.1.out % 2 ^ 52)).toOption.any fun q => q.1.out == 0x5FFF) = true := by
  decide +kernel

/-! DeviceEvents -/

theorem witness_hcommit : State.reset.dev.hcommit = none := by decide +kernel

theorem witness_hcommitDone : let s := devPut (fun d => { d with hcommit := some 127 }) State.reset
    s.dev.hcommit = some 127 ∧ s.home.dirty = [] := by decide +kernel

theorem witness_mdzGo : State.reset.home.zeroing = none := by decide +kernel

theorem witness_mdzDone : (homePut (fun h => { h with zeroing := some (4, 2) }) State.reset).home.zeroing = some (4, 2) := by decide +kernel

theorem witness_l2Evict : let s := homePut (fun h => { h with dirty := [(320, List.replicate 64 0)] }) State.reset
    linePresent s.home 320 = true ∧ rankBlocked s.dev (64 * 320) = false := by decide +kernel

theorem witness_uncorrectableError : Unshared (.vlane 0 127 31) ∧ Unshared (.dram 0x5000) := ⟨trivial, trivial⟩

theorem witness_registerWrite : 63 < 64 ∧ (booted State.reset).boot.started = true ∧ (booted State.reset).boot.recovery = false := by
  decide +kernel
/-! PerformingEvents -/

theorem atomsFollow_of {g u : Nat} {acc : Access} {op : AtomOp} (as : List LaneAcc) :
    ∀ gr t, (as.foldl (fun (x : Bool × State) a =>
        let gr := (x.2.group? g).getD gr
        (x.1 && roomB x.2 a.pa acc.size && cleanB x.2 (groupWho g gr u) a.pa acc.size true, atomPerformed g u acc op gr a x.2))
      (true, t)).1 = true → as.length = 1 → AtomsFollow g u acc op gr as t := by
  intro gr t h n
  match as, n with
  | [a], _ =>
    simp only [List.foldl, Bool.and_eq_true, Bool.true_and] at h
    exact ⟨room_of h.1, clean_of h.2, trivial⟩

def aLane (pa : Nat) : LaneAcc := { lane := 0, va := 0x1008, pa := pa, data := 0x11223344 }
def aStore (space pa : Nat) : Access := { kind := .store, size := 4, space := space, lanes := [aLane pa] }
def anEntry (acc : Access) : SqEntry := { id := 0, unit := 0, acc := acc }
def queuing (acc : Access) : Group := { sq := [anEntry acc] }
def entered (acc : Access) : State := { spadded [] idle with groups := [(0, queuing acc)] }

/-- The entry of group 0 may be performed. -/
def entryB (acc : Access) : Bool :=
  (entered acc).group? 0 == some (queuing acc) && (queuing acc).sq.find? (fun e => e.id = 0) == some (anEntry acc) &&
    mayPerform (entered acc) 0 (queuing acc) (anEntry acc)

theorem witness_storePerform : let acc := aStore 0 0x503C
    entryB acc = true ∧ paRange (aLane 0x503C).pa ≠ .control ∧ Room (entered acc) 0x503C acc.psize ∧
      Clean (entered acc) (groupWho 0 (queuing acc) 0) 0x503C acc.psize true :=
  ⟨by decide +kernel, by decide +kernel, room_of (by decide +kernel), clean_of (by decide +kernel)⟩

theorem witness_storePerform_control : entryB (aStore 0 0x8000000008) = true ∧ paRange (aLane 0x8000000008).pa = .control := by
  decide +kernel

theorem witness_storePerform_spad : let acc := aStore 1 0xFFC
    entryB acc = true ∧ acc.space ≠ 0 ∧ ((entered acc).team? (spOwner 0xFFC)).isSome = true ∧
      Clean (entered acc) (groupWho 0 (queuing acc) 0) (spKey (spOwner 0xFFC) (spOffset 0xFFC)) acc.psize true :=
  ⟨by decide +kernel, by decide +kernel, by decide +kernel, clean_of (by decide +kernel)⟩

def anAtom : Access := { kind := .atom .addI, size := 4, lanes := [aLane 0x5008] }

theorem witness_storePerform_atom : entryB anAtom = true ∧ (∀ a ∈ anAtom.lanes, a.pa = 0x5008 ∧ a.chk = false) ∧
    (anAtom.lanes.map (·.lane)).Pairwise (· < ·) ∧ AtomsFollow 0 0 anAtom .addI (queuing anAtom) anAtom.lanes (entered anAtom) ∧
    ((entered anAtom).team? (groupTeam 0)).any (fun tm => ((entered anAtom).launch? tm.launch).any fun l => decide (l.journal = 0)) = true :=
  ⟨by decide +kernel, by decide +kernel, by decide +kernel, atomsFollow_of _ _ _ (by decide +kernel) rfl, by decide +kernel⟩

/-- A load of access number 1 by group 0, after the entries `sq`. -/
def aRead (pa : Nat) : LaneAcc := { lane := 0, va := 0x1008, pa := pa }
def reading (pa : Nat) : LsEntry := { id := 0, unit := 1, acc := { kind := .load false, size := 4, lanes := [aRead pa] } }
def reader (pa : Nat) (sq : List SqEntry) : Group := { ls := [reading pa], sq := sq }
def waitingLoad (pa : Nat) (sq : List SqEntry) (s : State) : State := { s with groups := [(0, reader pa sq)] }
def aLine : LineCopy := { cells := List.replicate 64 (7, 0), at_ := 0 }

def loadB (pa : Nat) (sq : List SqEntry) (s : State) : Bool :=
  let t := waitingLoad pa sq s
  t.group? 0 == some (reader pa sq) && !mszOf t 0 && (reader pa sq).mayRead 1 (reading pa).acc (aRead pa) &&
    !laneBlocked t 0 (reading pa).acc (aRead pa) && cleanB t (groupWho 0 (reader pa sq) 1) pa 4 false

/-- The older entries that the load's bytes meet. -/
def olderOf (pa : Nat) (sq : List SqEntry) : List SqEntry := sq.filter fun f => f.unit < 1 && f.acc.touches pa 4

theorem witness_loadLand_home : loadB 0x503C [] idle = true ∧ olderOf 0x503C [] = [] ∧ paRange 0x503C ≠ .control ∧
    Room (waitingLoad 0x503C [] idle) 0x503C 4 ∧
    CacheRoom (waitingLoad 0x503C [] idle) ((waitingLoad 0x503C [] idle).groupCluster 0) 0x503C :=
  ⟨by decide +kernel, by decide +kernel, by decide +kernel, room_of (by decide +kernel), .inr (by decide +kernel)⟩

theorem witness_loadLand_control : loadB 0x8000000008 [] idle = true ∧ paRange 0x8000000008 = .control := by decide +kernel

theorem witness_loadLand_cache : let s := clusterPut 0 (fun c => { c with crc := [(0x140, aLine)] }) idle
    loadB 0x503C [] s = true ∧ ((aLine.cells.drop (0x503C % 64)).take 4).length = 4 ∧
      (reader 0x503C []).aboveFloor 0x503C (((aLine.cells.drop (0x503C % 64)).take 4).map (·.2)) = true ∧
      SMap.get? ((waitingLoad 0x503C [] s).cluster ((waitingLoad 0x503C [] s).groupCluster 0)).crc (0x503C / 64) = some aLine := by
  decide +kernel

theorem witness_loadLand_merge : let s := homePut (fun h => { h with merge := [{ line := 0x140, copy := aLine }] }) idle
    loadB 0x503C [] s = true ∧ (waitingLoad 0x503C [] s).home.merge[0]? = some { line := 0x503C / 64, copy := aLine } ∧
      (reader 0x503C []).mu ≤ aLine.at_ := by decide +kernel

theorem witness_loadLand_forward : loadB 0x503C [{ anEntry (aStore 0 0x503C) with id := 1 }] idle = true ∧
    (olderOf 0x503C [{ anEntry (aStore 0 0x503C) with id := 1 }]).getLast? = some { anEntry (aStore 0 0x503C) with id := 1 } ∧
    (aStore 0 0x503C).lanes.getLast? = some (aLane 0x503C) ∧ (aLane 0x503C).pa ≤ 0x503C ∧
    0x503C + 4 ≤ (aLane 0x503C).pa + (aStore 0 0x503C).psize := by decide +kernel

def anSfu : SfuEntry := { id := 0, vals := [(32 * 127 + 31, 5)], regs := [127] }

theorem witness_sfuLand : let gr : Group := { sfu := [anSfu] }
    let s := { idle with groups := [(0, gr)] }
    s.group? 0 = some gr ∧ gr.sfu.find? (fun x => x.id = 0) = some anSfu ∧ gr.exited = false ∧ anSfu.ovf = 0 ∧
      gr.hold ≠ some (.sfu 0) := by decide +kernel

theorem witness_sfuLand_held : let gr : Group := { sfu := [anSfu], hold := some (.sfu 0) }
    let s := { idle with groups := [(0, gr)] }
    s.group? 0 = some gr ∧ gr.hold = some (.sfu 0) ∧
      (viewOf s 0).any (fun w => decide (w.wordPc + 1 < 16384) && w.gr.trap.tmode.getLsbD 2 == false) = true := by decide +kernel

/-! MessageEvents: a ring of 16 slots at offset 0 of the receiver -/

/-- Group 0 has sent `m`; its team, whose tag is 1, holds `spad`. -/
def sending (m : Message) (spad : SMap Byte) : State :=
  groupPut 0 (fun gr => { gr with outbox := [m] }) (spadded spad idle)

def aMessage (dst : Nat) : Message := { ctx := 0, dst := dst, off := 0, src := 1, seq := 0, slots := 1, payload := [1, 2], scope := 1 }

def sendsB (dst : Nat) (s : State) : Bool :=
  (s.group? 0).any fun gr => gr.outbox[0]? == some (aMessage dst) && !earlierMessage s 0 (aMessage dst)

theorem witness_messageArrival_gone : sendsB 9 (sending (aMessage 9) []) = true ∧ findTag (sending (aMessage 9) []) 0 9 = none := by
  decide +kernel

theorem witness_messageArrival_unwinding : let s := teamed (fun t => { t with state := .unwinding }) (sending (aMessage 1) [])
    sendsB 1 s = true ∧ findTag s 0 1 = some 0 ∧ (theTeam s).state = .unwinding := by decide +kernel

def takesB (s : State) : Bool :=
  let tm := theTeam s
  findTag s 0 1 == some 0 && s.team? 0 == some tm && tm.state != .unwinding && tm.state != .notBegun && tm.core.isSome && spInside tm 0 64

theorem witness_messageArrival_dropped : let s := sending (aMessage 1) []
    sendsB 1 s = true ∧ takesB s = true ∧ (readRing (spNat (theTeam s) 0 64)).drops? (theTeam s) 1 = true := by decide +kernel

theorem witness_messageArrival :
    let s := sending (aMessage 1) [(0x0, 0x1), (0x4, 0x10), (0x8, 0x4), (0xD, 0x4), (0x10, 0x1), (0x14, 0x1)]
    let r := readRing (spNat (theTeam s) 0 64)
    sendsB 1 s = true ∧ takesB s = true ∧ r.drops? (theTeam s) 1 = false ∧ r.used + (aMessage 1).slots ≤ 2 ^ r.logn ∧ r.wmode = 0 ∧
      (s.launch? (theTeam s).launch).any (fun l => decide (l.journal = 0)) = true := by decide +kernel

/-! EngineEvents: operations of one point, from one end of the scratchpad to the other -/

def bytesAt (base : W64) : Layout :=
  { base := base, lsize := 2, rank := 1, csrc := 0, tgt := false, cdim := 0, space := 1, ext := [1, 0, 0, 0], stride := [4, 0, 0, 0] }
def aCopy : CopyOp := { id := 3, g := 0, eid := 0, kind := .copy (bytesAt 0), dst := bytesAt 0xFFC, org := [0, 0, 0, 0] }
def copying (op : CopyOp) : State := clusterPut 0 (fun c => { c with copyq := [op] }) (mapped (spadded [(0, 7)] idle))
def multiplying (op : MatOp) (held : List Current := []) : State :=
  strPut 0 (fun q => { q with held := held }) (clusterPut 0 (fun c => { c with mat := [op] }) (mapped idle))

def ownB (s : State) : Bool := s.team? 0 == some (theTeam s) && s.launch? (theTeam s).launch == some (theLaunch s)

def grantB (s : State) (who : Asker) (amount : Nat) : Bool :=
  let q := s.str (clusterString 0)
  !q.holds who && !q.waits who && q.next [] (q.waiting ++ [currentAsk s 0 who amount]) == some (currentAsk s 0 who amount, [])

theorem grantable_of {s : State} {who : Asker} {amount : Nat} (h : grantB s who amount = true) : Grantable s 0 who amount [] := by
  simp only [grantB, Bool.and_eq_true, Bool.not_eq_true', beq_iff_eq] at h
  exact ⟨h.1.1, h.1.2, h.2⟩

/-- The state in which the copy's point moves. -/
def copyPaid (s : State) (op : CopyOp) : State :=
  clusterPut 0 (fun c => { c with
    copyq := c.copyq.map fun o => if o.id ≠ op.id && CopyOp.hasWork s o then { o with passed := o.passed + 1 } else o })
    (currentTaken 0 (.copy 0) 8 [] s)

def burstB (op : CopyOp) : Bool :=
  let s := copying op
  stringAwake s 0 && pickCopy s (s.cluster 0).copyq == some op && (s.cluster 0).copyq.find? (fun o => o.id = op.id) == some op &&
    ownB s && op.ready s (max 1 (512 / op.esize)) == [0]

theorem witness_copyBurst : let s := copying aCopy
    burstB aCopy = true ∧ Grantable s 0 (.copy 0) 8 [] ∧ (∀ sn d, aCopy.kind ≠ .fold sn d) ∧
    ∃ w m key u, Gives (z := s) (copyPoint (engAt 0 aCopy.id (theTeam s) (theLaunch s) aCopy.denied aCopy.clock 0) aCopy (theTeam s).shape.spad 0)
      (copyPaid s aCopy) (w, m, key) u ∧ m.miss = none := by
  intro s
  refine ⟨by decide +kernel, grantable_of (by decide +kernel), (fun _ _ h => by cases h), ?_⟩
  have ⟨r, u, a, b⟩ := outcome_of (z := s) (t := copyPaid s aCopy) (p := .other .refl rfl rfl) (cond := fun r _ => r.2.1.miss.isNone)
    (m := copyPoint (engAt 0 aCopy.id (theTeam s) (theLaunch s) aCopy.denied aCopy.clock 0) aCopy (theTeam s).shape.spad 0) (by decide +kernel)
  exact ⟨r.1, r.2.1, r.2.2, u, a, by simpa using b⟩

/-- The same copy from a page that is not mapped, of a context that takes page requests. -/
def missCopy : CopyOp := { aCopy with kind := .copy { bytesAt 0x3000 with space := 0 } }
def missing : State := launchPut 0 (fun l => { l with rcd := { pagedRec with prqe := true } }) (copying missCopy)

/-- The walk for it has been made, and found nothing. -/
def missed : State := { copyPaid missing missCopy with free := missing.free + 1 }

theorem witness_copyBurst_misses : let s := missing
    (stringAwake s 0 = true ∧ pickCopy s (s.cluster 0).copyq = some missCopy ∧ ownB s = true ∧
      missCopy.ready s (max 1 (512 / missCopy.esize)) = [0]) ∧ Grantable s 0 (.copy 0) 8 [] ∧
    ∃ w m key r wt u', Gives (z := s) (copyPoint (engAt 0 3 (theTeam s) (theLaunch s) missCopy.denied missCopy.clock 0) missCopy (theTeam s).shape.spad 0)
      (copyPaid s missCopy) (w, m, key) missed ∧ m.miss = some r ∧
      Gives (z := s) (attachMiss (theTeam s).ctx (theLaunch s).rcd.vfn r.stage r.page r.kind (missCopy.waiting.map (·.2))) missed wt u' := by
  intro s
  refine ⟨by decide +kernel, grantable_of (by decide +kernel), ?_⟩
  have ⟨x, u, a, b⟩ := outcome_of (z := s) (t := copyPaid s missCopy) (p := .other .refl rfl rfl)
    (m := copyPoint (engAt 0 3 (theTeam s) (theLaunch s) missCopy.denied missCopy.clock 0) missCopy (theTeam s).shape.spad 0)
    (cond := fun x u => decide (u = missed) && x.2.1.miss.any fun r => r.stage == 1 && r.page == 3 && r.kind == Kind.copyRead)
    (by decide +kernel)
  rw [Bool.and_eq_true, decide_eq_true_eq] at b
  obtain ⟨rfl, b⟩ := b
  obtain ⟨r, e, b⟩ := any_of b
  simp only [Bool.and_eq_true, beq_iff_eq] at b
  obtain ⟨⟨b1, b2⟩, b3⟩ := b
  have ⟨wt, u', c, _⟩ := outcome_of (z := s) (t := missed) (p := .other .refl rfl rfl) (cond := fun _ _ => true)
    (m := attachMiss (theTeam s).ctx (theLaunch s).rcd.vfn 1 3 Kind.copyRead (missCopy.waiting.map (·.2))) (by decide +kernel)
  exact ⟨x.1, x.2.1, x.2.2, r, wt, u', a, e, by rw [b1, b2, b3]; exact c⟩

theorem witness_copyPoint : let s := copying aCopy
    let x := engAt 0 3 (theTeam s) (theLaunch s) aCopy.denied aCopy.clock 0
    (s.team? aCopy.eid = some (theTeam s) ∧ spPoisoned (theTeam s) 0 4 = false ∧
      (bytesAt 0).addr (theTeam s).shape.spad (List.zipWith (· + ·) (aCopy.dst.coords 0) aCopy.org) = some 0 ∧
      aCopy.dst.addr (theTeam s).shape.spad (aCopy.dst.coords 0) = some 0xFFC) ∧
    Clean s x.who (spKey 0 0) 4 false ∧ Clean (seenAt x.who (spKey 0 0) 4 s) x.who (spKey 0 0xFFC) 4 true :=
  ⟨by decide +kernel, clean_of (by decide +kernel), clean_of (by decide +kernel)⟩

theorem witness_copyComplete : let op := { aCopy with next := 1, descOff := some 0x100 }
    let s := copying op
    ((s.cluster 0).copyq.find? (fun o => o.id = 3) = some op ∧ op.over s = true ∧ s.team? op.eid = some (theTeam s) ∧
      ∀ a ∈ SMap.keys op.writes, NSet.has op.reads a = false) ∧
    ∀ off, op.descOff = some off → Clean s (opWho 3 op.clock) (spKey op.eid (off + 56)) 8 true := by
  refine ⟨by decide +kernel, fun off e => ?_⟩
  cases e
  exact clean_of (by decide +kernel)

theorem witness_discardComplete : let op : CopyOp := { aCopy with kind := .discard 0x1FC0 64 }
    let s := copying op
    ((s.cluster 0).copyq.find? (fun o => o.id = 3) = some op ∧ issuerDone s op.g op.start = true ∧ ownB s = true ∧
      0x1FC0 / 4096 = (0x1FC0 + 64 - 1) / 4096) ∧
    ∃ a u, Gives (z := s) (engXlate (engAt 0 3 (theTeam s) (theLaunch s) [] op.clock 0) Kind.copyWrite ((0x1FC0 / 4096 * 4096 : Nat) : Int)) s
      (.ok a) u ∧ u.dev.hcommit = none := by
  intro op s
  refine ⟨by decide +kernel, ?_⟩
  have ⟨r, u, a, b⟩ := outcome_of (z := s) (t := s) (p := .refl)
    (cond := fun r u => match r with | .ok _ => u.dev.hcommit.isNone | .error _ => false)
    (m := engXlate (engAt 0 3 (theTeam s) (theLaunch s) [] op.clock 0) Kind.copyWrite ((0x1FC0 / 4096 * 4096 : Nat) : Int)) (by decide +kernel)
  match r, a, b with
  | .ok r, a, b => exact ⟨r, u, a, by simpa using b⟩

def matB (s v : State) (op : MatOp) : Bool :=
  (s.cluster 0).mat.find? (fun o => o.id = 3) == some op && stringAwake s 0 && !op.granted && op.oldest s (s.cluster 0).mat &&
    (pickMat v 0 (s.cluster 0).mat op.usesArray).any fun o => o.id = 3

theorem witness_matGrant : let op : MatOp := { id := 3, g := 0, eid := 0, kind := .zero 3 }
    matB (multiplying op) (multiplying op) op = true ∧ op.current 0 = none := by decide +kernel

theorem witness_matGrant_pass : let op : MatOp := { id := 3, g := 0, eid := 0, kind := .pass false 0 0 0 }
    let s := multiplying op [{ who := .pass 0 3, tile := 0, amount := 56 }]
    matB s s op = true ∧ op.current 0 = some (.pass 0 3, 56) ∧ (s.str (clusterString 0)).holds (.pass 0 3) = true := by decide +kernel

theorem witness_matGrant_fetch : let op : MatOp := { id := 3, g := 0, eid := 0, kind := .store 0 0x1000 256 0 }
    let s := multiplying op
    matB s (currentTaken 0 (.fetch 0 3) 8 [] s) op = true ∧ op.current 0 = some (.fetch 0 3, 8) ∧ Grantable s 0 (.fetch 0 3) 8 [] := by
  exact ⟨by decide +kernel, by decide +kernel, grantable_of (by decide +kernel)⟩

def aStoreOp : MatOp := { id := 3, g := 0, eid := 0, kind := .store 0 0x1000 256 0, granted := true, next := 4096, retry := [5] }

theorem witness_fetcherBurst : let s := multiplying aStoreOp [{ who := .fetch 0 3, tile := 0, amount := 8 }]
    (stringAwake s 0 = true ∧ (s.cluster 0).mat.find? (fun o => o.granted && !o.usesArray) = some aStoreOp ∧
      (s.cluster 0).mat.find? (fun o => o.id = aStoreOp.id) = some aStoreOp ∧ ownB s = true ∧
      (s.str (clusterString 0)).holds (.fetch 0 3) = true ∧ aStoreOp.burst s = [5]) ∧
    ∃ m u, Gives (z := s) (matPoint (engAt 0 3 (theTeam s) (theLaunch s) aStoreOp.denied aStoreOp.clock 5) aStoreOp 5) s m u ∧
      m.miss = none := by
  intro s
  refine ⟨by decide +kernel, ?_⟩
  have ⟨m, u, a, b⟩ := outcome_of (z := s) (t := s) (p := .refl) (cond := fun m _ => m.miss.isNone)
    (m := matPoint (engAt 0 3 (theTeam s) (theLaunch s) aStoreOp.denied aStoreOp.clock 5) aStoreOp 5) (by decide +kernel)
  exact ⟨m, u, a, by simpa using b⟩

def doneB (op : MatOp) : Bool :=
  let s := multiplying op
  (s.cluster 0).mat.find? (fun o => o.id = 3) == some op && op.granted && exhausted op.next op.total op.taken && op.retry.isEmpty &&
    op.waiting.isEmpty && decide (op.doneAt ≤ (s.cluster 0).cyc) && s.team? op.eid == some (theTeam s)

theorem witness_matOpComplete_zero : doneB { id := 3, g := 0, eid := 0, kind := .zero 3, granted := true } = true := by decide +kernel

theorem witness_matOpComplete_pass : doneB { id := 3, g := 0, eid := 0, kind := .pass false 0 0 0, granted := true } = true := by
  decide +kernel

theorem witness_matOpComplete_fetch : doneB { aStoreOp with retry := [] } = true ∧ aStoreOp.usesArray = false := by decide +kernel

def aColl : CollOp := { id := 3, g := 0, eid := 0, op := 0, dev := 5, vfn := 0, peerCtx := 0, laddr := 0x1FFC, raddr := 0, len := 4 }

theorem witness_collComplete : let s : State := { poke (2 * (4096 + 5)) [1] (mapped idle) with colls := [aColl] }
    (s.colls.find? (fun o => o.id = 3) = some aColl ∧ issuerDone s 0 aColl.start = true ∧ ownB s = true ∧ aColl.total = 1) ∧
    ∃ v m u, Gives (z := s) (engRead (engAt (s.groupCluster 0) 3 (theTeam s) (theLaunch s) aColl.denied aColl.clock 0) aColl.laddr.toInt aColl.esize {}) s
      (v, m) u ∧ m.miss = none ∧ u.colls = s.colls ∧ paBlocked u (routeAt u 5) = false ∧ routed u 5 = true := by
  intro s
  refine ⟨by decide +kernel, ?_⟩
  have ⟨r, u, a, b⟩ := outcome_of (z := s) (t := s) (p := .refl)
    (cond := fun r u => decide (r.2.miss = none ∧ u.colls = s.colls ∧ paBlocked u (routeAt u 5) = false ∧ routed u 5 = true))
    (m := engRead (engAt (s.groupCluster 0) 3 (theTeam s) (theLaunch s) aColl.denied aColl.clock 0) aColl.laddr.toInt aColl.esize {}) (by decide +kernel)
  exact ⟨r.1, r.2, u, a, of_decide_eq_true b⟩

/-! TeamEvents -/

/-- Team 1, of a second grid, waits to begin; its launch's overlay is in slot 0 of no core but the first. -/
def newTeam : Team := { ctx := 0, tag := 7, grid := 1, launch := 0, shape := { groups := 2 }, share := 9 }
def waiting : State :=
  { idle with
    teams := SMap.put idle.teams 1 newTeam
    grids := SMap.put idle.grids 1 { ctx := 0, launch := 0, parent := none, tag0 := 7, count := 1, teams := [1] }
    launches := SMap.adjust idle.launches 0 fun l => { l with onum := 1, odir := 0x1000, rcd := pagedRec } }
def placeNew (s : State) : Option Nat × Nat := (placeOf (waitsNoted s) newTeam).getD (none, 0)

def placesB (s : State) : Bool :=
  s.team? 1 == some newTeam && s.launch? newTeam.launch == some (theLaunch s) && (theLaunch s).journal == 0 &&
    placeOf (waitsNoted s) newTeam == some (placeNew s) && firstInOrder (waitsNoted s) newTeam &&
    (s.grid? newTeam.grid).any fun gd => !gd.nbh

theorem witness_teamBegin : let s := corePut (placeNew waiting).2 (fun c => { c with tag0 := some (overlayKey waiting newTeam) }) waiting
    placesB s = true ∧ (s.core (placeNew s).2).tag0 = some (overlayKey s newTeam) := by decide +kernel

def placed (s : State) : State := gridPut newTeam.grid (fun gd => { gd with string := (placeNew s).1 }) (waitsNoted s)

theorem witness_teamBegin_fetch : let s := paged (poke 0x5000 [0x00, 0x11, 0, 0, 0, 0, 0, 0, 2] waiting)
    (placesB s = true ∧ (s.core (placeNew s).2).tag0 ≠ some (overlayKey s newTeam)) ∧
    ∃ ws u, Gives (z := s) (overlayWords newTeam.ctx (theLaunch s).rcd (theLaunch s).odir newTeam.shape.ovid) (placed s) (some ws) u ∧
      u.team? 1 = some newTeam ∧ u.launch? newTeam.launch = some (theLaunch s) := by
  intro s
  refine ⟨by decide +kernel, ?_⟩
  have ⟨r, u, a, b⟩ := outcome_of (z := s) (t := placed s) (p := .other .refl rfl rfl)
    (cond := fun r u => r.isSome && decide (u.team? 1 = some newTeam ∧ u.launch? newTeam.launch = some (theLaunch s)))
    (m := overlayWords newTeam.ctx (theLaunch s).rcd (theLaunch s).odir newTeam.shape.ovid) (by decide +kernel)
  match r, a, b with
  | some ws, a, b => exact ⟨ws, u, a, of_decide_eq_true (Bool.and_eq_true_iff.1 b).2⟩

def retiresB (s : State) (e : Nat) (tm : Team) : Bool :=
  s.team? e == some tm && s.launch? tm.launch == some (theLaunch s) && (theLaunch s).journal == 0 && tm.state == .running &&
    groupsEnded s e && !engineBusy s e && childrenDone s tm && (s.grid? tm.grid).any (fun gd => gd.tickets.isEmpty) &&
    match tm.parent with
    | none => true
    | some p => p != e && (s.team? p).any fun pt => cycleFresh s p pt

theorem witness_teamRetire : retiresB (groupPut 0 (fun gr => { gr with exited := true }) idle) 0
    (theTeam (groupPut 0 (fun gr => { gr with exited := true }) idle)) = true := by decide +kernel

/-- The child of `fathered`, its core given, its one group ended. -/
def ended : Team := { childTm .running with core := some 1, shape := { groups := 1 } }

theorem witness_teamRetire_child :
    let s := { teamPut 9 (fun _ => ended) (fathered .running idle) with groups := SMap.put idle.groups 288 { exited := true } }
    retiresB s 9 ended = true := by decide +kernel

def toppingB (s : State) (ch : Team) (status : Nat) : Bool :=
  ownB s && (theLaunch s).journal == 0 && (s.group? 0).any (fun gr => gr.hold == some (.topup 3 5 6)) &&
    childTeam s (groupTeam 0) 5 == some (9, ch) && s.team? 9 == some ch && topupStatus (theLaunch s).phm ch 6 == status

def topping : State → State := groupPut 0 fun gr => { gr with hold := some (.topup 3 5 6) }

theorem witness_topup_running : toppingB (topping (fathered .running idle)) (childTm .running) 0 = true := by decide +kernel

theorem witness_topup_starved : toppingB (topping (teamPut 9 (fun t => { t with pendingCost := some 3 }) (fathered .starved idle)))
    { childTm .starved with pendingCost := some 3 } 1 = true := by decide +kernel

theorem witness_topup_done : toppingB (topping (fathered .done idle)) (childTm .done) 2 = true ∧
    cycleFresh (topping (fathered .done idle)) 0 (theTeam (topping (fathered .done idle))) = true := by decide +kernel

theorem witness_topup_phase : toppingB (phased (topping (fathered .running idle))) (childTm .running) 4 = true := by decide +kernel

theorem witness_topup_none : let s := topping idle
    ownB s = true ∧ (theLaunch s).journal = 0 ∧ (s.group? 0).any (fun gr => gr.hold == some (.topup 3 5 6)) = true ∧
      childTeam s (groupTeam 0) 5 = none ∧ cycleFresh s 0 (theTeam s) = true := by decide +kernel

theorem witness_phaseCommit : let s := groupPut 0 (fun gr => { gr with hold := some .phend }) (phased idle)
    let roots := s.teams.filter (fun e => e.2.launch = 0 && e.2.parent.isNone)
    let members := s.teams.filter (fun e => e.2.launch = 0 && e.2.parent.isSome)
    let groups := roots.flatMap (fun e => s.teamGroups e.1)
    s.launch? 0 = some (theLaunch s) ∧ (theLaunch s).phm = true ∧ (theLaunch s).admitted = true ∧ (theLaunch s).done = false ∧
      groups ≠ [] ∧ (∀ g ∈ groups, (s.group? g).any (fun gr => gr.hold == some .phend) = true) ∧
      (∀ e ∈ members, e.2.state = .done) ∧ s.home.ordered.filter (fun c => c.launch = 0) = [] ∧
      roots.head?.all (fun e => s.team? e.1 == some e.2 && cycleFresh s e.1 e.2) = true := by decide +kernel

theorem witness_trapEntry : let p : Pending := { raised := [{ cause := Cause.trapi, code := 5 }], tpc := 1, tmask := 0xFF }
    let gr : Group := { ({} : Group).handling with trap := { ({} : Group).handling.trap with pending := some p } }
    let s := { idle with groups := [(0, gr)] }
    s.group? 0 = some gr ∧ gr.trap.pending = some p ∧ gr.lcnt = 0 ∧ gr.fcnt = 0 ∧ (s.groupCore? 0).isSome = true := by decide +kernel

/-! Unwinding: a running team and its saved child -/

def kinship : State := ctxPut 0 (fun c => { c with svcnt := 1, saveUsed := [0] }) (fathered (.saved 0) idle)

theorem witness_unwind : (∃ u, Gives (z := kinship) (unwind 0) kinship () u) ∧ kinship.team? 9 = some (childTm (.saved 0)) ∧
    isUnder kinship 0 kinship.teams.length 9 = true ∧ isUnder kinship 0 kinship.teams.length 0 = true ∧
    (theTeam kinship).state = .running := by
  have ⟨_, u, a, _⟩ := outcome_of (z := kinship) (t := kinship) (p := .refl) (cond := fun _ _ => true) (m := unwind 0) (by decide +kernel)
  exact ⟨⟨u, a⟩, by decide +kernel⟩

/-! PreemptionEvents -/

theorem witness_preemptRequest : idle.team? 0 = some (theTeam idle) ∧
    (idle.launch? (theTeam idle).launch).any (fun l => decide (l.journal = 0)) = true ∧ together idle 0 = [0] ∧
    treatable (theTeam idle) = true := by decide +kernel

theorem witness_teamFlush : let s := teamed (fun t => { t with preempt := some 2 }) idle
    (s.team? 0 = some (theTeam s) ∧ (theTeam s).preempt = some 2 ∧ (theTeam s).stop = .running ∧
      ((theTeam s).state = .running ∨ (theTeam s).state = .starved) ∧ (theTeam s).core.isSome = true ∧ engineBusy s 0 = false ∧
      ∀ g ∈ s.teamGroups 0, (s.group? g).any (fun gr => gr.sq.isEmpty && gr.outbox.isEmpty && gr.hold.isNone) = true) ∧
    ∃ u, Gives (z := s) (endGroups (s.teamGroups 0)) (waitsNoted s) () u := by
  intro s
  refine ⟨by decide +kernel, ?_⟩
  have ⟨_, u, a, _⟩ := outcome_of (z := s) (t := waitsNoted s) (p := .other .refl rfl rfl) (cond := fun _ _ => true)
    (m := endGroups (s.teamGroups 0)) (by decide +kernel)
  exact ⟨u, a⟩

/-- The team of `idle` stands in slot 0 of its context's save area; its overlay is in every core. -/
def savedTeam : State :=
  let s := teamed (fun t => { t with state := .saved 0, core := none, saves := 1 }) idle
  let s := ctxPut 0 (fun c => { c with svcnt := 1, saveUsed := [0] }) s
  let w := waitsNoted s
  let c := ((chooseCore w (theTeam s) (((s.grid? 0)).getD childGd) (fun _ => false) (restoreFree w 0 (theTeam s))).map (·.2)).getD 0
  corePut c (fun c => { c with tag0 := some (overlayKey s (theTeam s)) }) s

theorem witness_teamRestore : let s := savedTeam
    s.team? 0 = some (theTeam s) ∧ (s.launch? (theTeam s).launch).any (fun l => decide (l.journal = 0)) = true ∧
      (theTeam s).state = .saved 0 ∧ (theTeam s).ov1 = none ∧ (s.grid? 0).any (fun gd => gd.nbh == false &&
      (chooseCore (waitsNoted s) (theTeam s) gd (if (theTeam s).moving then hot s else fun _ => false)
        (restoreFree (waitsNoted s) 0 (theTeam s))).any fun p => (s.core p.2).tag0 == some (overlayKey s (theTeam s))) = true := by
  decide +kernel

def mayMoveB (s : State) (migrate : Bool) : Bool :=
  s.team? 0 == some (theTeam s) && (theTeam s).core == some 0 && treatable (theTeam s) && (theTeam s).migrate == migrate &&
    (s.grid? 0).any fun gd => !gd.nbh

def roomToMove (s : State) (tm : Team) : Bool :=
  (s.grid? 0).any (fun gd => (chooseCore s tm gd (hot s) fun _ => true).isSome) && openSlots s tm.ctx != 0

/-- The team's cluster is hot, `cyc` cycles in; its context has `slots` save slots. -/
def heated (cyc slots : Nat) (s : State) : State :=
  ctxPut 0 (fun c => { c with svcnt := BitVec.ofNat _ slots }) (clusterPut 0 (fun c => { c with therm := true, cyc := cyc }) s)

theorem witness_migrationRequest_waits : let s := heated 749999 1 idle
    mayMoveB s false = true ∧ hot s (coreCluster 0) = true ∧ residentLong s (theTeam s) = false := by decide +kernel

theorem witness_migrationRequest : let s := heated 750000 1 idle
    mayMoveB s false = true ∧ hot s (coreCluster 0) = true ∧ residentLong s (theTeam s) = true ∧
      roomToMove (teamPut 0 (fun q => { q with migrate := true }) s) { theTeam s with migrate := true } = true := by decide +kernel

def asked : State → State := teamed fun t => { t with migrate := true }

theorem witness_migrationResidency_cool : let s := clusterPut 0 (fun c => { c with cyc := 750000 }) (asked idle)
    mayMoveB s true = true ∧ residentLong s (theTeam s) = true ∧ hot s (coreCluster 0) = false := by decide +kernel

theorem witness_migrationResidency_full : let s := heated 750000 0 (asked idle)
    mayMoveB s true = true ∧ residentLong s (theTeam s) = true ∧ hot s (coreCluster 0) = true ∧ roomToMove s (theTeam s) = false := by
  decide +kernel

theorem witness_migrationResidency : let s := heated 750000 1 (asked idle)
    mayMoveB s true = true ∧ residentLong s (theTeam s) = true ∧ hot s (coreCluster 0) = true ∧ roomToMove s (theTeam s) = true := by
  decide +kernel

/-! DebugEvents: the last vector register and lane -/

/-- Context 0 of function 0 is live; its record is `pagedRec`. -/
def lively (s : State) : State :=
  fnPut 0 (fun r => { r with ctbase := 0x8000, ctlim := 1, dbgctl := 0x1000000 })
    (poke 0x8000 ([0, 0, 0, 0, 0, 0, 0, 0, 1, 0, 0, 0, 1] ++ List.replicate 19 0) (paged s))

def halted : State := lively (teamed (fun t => { t with stop := .stopped }) idle)

def stoppedB (s : State) : Bool :=
  debugTeam s 0 == some 0 && s.team? 0 == some (theTeam s) && (theTeam s).stop == .stopped && decide (dbgGidx s 0 < (theTeam s).shape.groups) &&
    (s.group? (dbgGidx s 0)).isSome

theorem witness_debugAttach : (liveCtx (lively idle) 0 (dbgCtx (lively idle) 0 % 65536)).isSome = true := by decide +kernel

theorem witness_debugStop : let s := lively idle
    debugTeam s 0 = some 0 ∧ s.team? 0 = some (theTeam s) ∧ (theTeam s).core.isSome = true ∧ (theTeam s).stop ≠ .stopped := by
  decide +kernel

theorem witness_debugStop_none : debugTeam State.reset 0 = none := by decide +kernel

theorem witness_teamStopped : let s := teamed (fun t => { t with stop := .stopping }) idle
    s.team? 0 = some (theTeam s) ∧ (theTeam s).stop = .stopping ∧ ∀ g ∈ s.teamGroups 0,
      (s.group? g).any (fun gr => gr.lcnt == 0 && gr.fcnt == 0 && gr.trap.pending.isNone) = true := by decide +kernel

/-- The group has no cause of its own to enter its handler for. -/
def calmB (gr : Group) : Bool := gr.trap.tcause &&& ~~~(1#64 <<< Cause.allowExh) == 0

theorem witness_debugResume : stoppedB halted = true ∧ ∀ g ∈ halted.teamGroups 0, (halted.group? g).any calmB = true := by decide +kernel

theorem witness_debugStep : stoppedB halted = true ∧ (halted.group? (32 * 0 + dbgGidx halted 0)).any (fun gr => !gr.exited && calmB gr) = true := by
  decide +kernel

theorem witness_debugStep_trap :
    let s := groupPut 0 (fun g => { g.handling with trap := { g.handling.trap with tcause := 1 }, hold := some (.counts 0 0) }) halted
    stoppedB s = true ∧ (s.group? 0).any (fun gr => !gr.exited && !calmB gr && !gr.inHandler && gr.trap.tvec.getLsbD 15) = true := by
  decide +kernel

theorem witness_debugRead : let s := fnPut 0 (fun r => { r with dbgreg := 0x0FFF }) halted
    stoppedB s = true ∧ dbgReg (s.fn 0).dbgreg.toNat ((theTeam s).budget (dbgGidx s 0)) = some (0, 127, 31) ∧ (0 : Nat) ≠ 6 := by
  decide +kernel

/-! QueueEvents: the record of queue 0 at 0x1000, its packets from 0x1040 -/

def theQueue : HostQueue :=
  { ctx := 0, q := 0, wptr := 1, rptr := 0, cls := 2, record := 0x1000, rbase := 0x1040, logn := 4, slot := some 0, rcd := pagedRec }

/-- The packet of queue 0 is `v`. -/
def hosted (qs : SMap HostQueue) (v : Nat) : State :=
  let s := ctxPut 0 (fun c => { c with qtbase := 0x1000, qtlim := 1 })
    (poke 0x5000 ([0x40, 0x10] ++ List.replicate 38 0 ++ [0xA4] ++ List.replicate 23 0) (poke 0x5040 (natBytes v 64) (lively idle)))
  { s with queues := qs, boot := { s.boot with started := true, stage := 3 } }

def ringPlace (s : State) : W64 := (s.ctx 0).qtbase + BitVec.ofNat 64 (64 * 0)

/-- A doorbell of queue 0 with write pointer 16. -/
def Rings (s : State) (u : State) (r : QueueRec) : Prop :=
  (1 ≤ s.boot.stage ∧ s.boot.recovery = false ∧ s.doorbells.any (sameQueue (0, 16)) = false ∧
    paBlocked s (ctxRecAt s 0 (bitsOf 16 63 48)) = false ∧ 0 < (s.ctx 0).qtlim.toNat ∧ liveCtx s 0 0 = some pagedRec) ∧
  r.bad = false ∧ r.en = true ∧ ∃ n, Gives (z := s) (sysNat 0 pagedRec (ringPlace s) 64) s (some n) u ∧ readQueueRec n = r

theorem rings_of {s : State} (k : Nat → Bool) (h : (decide (1 ≤ s.boot.stage ∧ s.boot.recovery = false ∧
      s.doorbells.any (sameQueue (0, 16)) = false ∧ paBlocked s (ctxRecAt s 0 (bitsOf 16 63 48)) = false ∧
      0 < (s.ctx 0).qtlim.toNat ∧ liveCtx s 0 0 = some pagedRec) &&
      outcome (z := s) (sysNat 0 pagedRec (ringPlace s) 64) s .refl (fun r _ => r.any fun n =>
        !(readQueueRec n).bad && (readQueueRec n).en && k n)) = true) :
    ∃ r u, Rings s u r ∧ ∃ n, readQueueRec n = r ∧ k n = true := by
  rw [Bool.and_eq_true] at h
  obtain ⟨r, u, a, b⟩ := outcome_of h.2
  obtain ⟨n, rfl, c⟩ := any_of b
  simp only [Bool.and_eq_true, Bool.not_eq_true'] at c
  exact ⟨readQueueRec n, u, ⟨of_decide_eq_true h.1, c.1.1, c.1.2, n, a, rfl⟩, n, rfl, c.2⟩

theorem witness_qdb_new : ∃ r u, Rings (hosted [] 0) u r ∧ ∃ n, readQueueRec n = r ∧
    decide (((16 : W32) - (readQueueRec n).rptr).toNat ≤ 2 ^ (readQueueRec n).logn) = true := rings_of _ (by decide +kernel)

theorem witness_qdb_known : (∃ r u, Rings (hosted [(0, theQueue)] 0) u r ∧ ∃ n, readQueueRec n = r ∧
    decide (((16 : W32) - theQueue.rptr).toNat ≤ 2 ^ (readQueueRec n).logn) = true) ∧
    (hosted [(0, theQueue)] 0).queue? (queueKey 0 0) = some theQueue ∧ theQueue.record = ringPlace (hosted [(0, theQueue)] 0) ∧
    theQueue.rcd = pagedRec := ⟨rings_of _ (by decide +kernel), by decide +kernel⟩

theorem witness_qdb_refused : let s := hosted [] 0
    1 ≤ s.boot.stage ∧ s.boot.recovery = false ∧ s.doorbells.any (sameQueue (0, 0x100000000)) = false ∧
      paBlocked s (ctxRecAt s 0 (bitsOf 0x100000000 63 48)) = false ∧ bitsOf 0x100000000 47 32 = 1 ∧ ¬ 1 < (s.ctx 0).qtlim.toNat := by
  decide +kernel

theorem witness_qdb_behind : let s := { hosted [] 0 with doorbells := [(0, 16)] }
    1 ≤ s.boot.stage ∧ s.boot.recovery = false ∧ s.doorbells.any (sameQueue (0, 17)) = true := by decide +kernel

theorem witness_qdb_off : State.reset.boot.stage = 0 := by decide +kernel

theorem witness_queueMap : let q := { theQueue with slot := none }
    let s := hosted [(0, q)] 0
    s.queue? (queueKey (0 * 65536 + 0) 0) = some q ∧ q.waiting = true ∧ (mapSlot s q.cls).isSome = true ∧
      ∀ e ∈ s.queues, e.2.waiting = true → waitsBefore e.2 q = true → mapSlot s e.2.cls = none := by decide +kernel

/-- Every slot holds an idle queue of class 1; a realtime queue waits. -/
def crowded : State :=
  { State.reset with queues := ((List.range 256).map fun i => (i, { theQueue with q := i, wptr := 0, cls := 1, slot := some i })) ++
      [(256, { theQueue with q := 256, cls := 0, slot := none })] }

theorem witness_slotReclaim : let s := crowded
    (slotQueue s 255).any (fun e => [0, 1, 2, 3].find? (fun k => reclaims s k && decide (victimRank s k e.2 ≠ 0)) == some 0 &&
      s.queues.all fun f => decide (victimRank s 0 f.2 ≤ victimRank s 0 e.2)) = true := by decide +kernel

/-- The packet of the queue in slot 0 is `v`, and reading it changes nothing. -/
def packetB (s : State) (v : Nat) : Bool :=
  decide (slotQueue s 0 = some (0, theQueue) ∧ theQueue.hasPacket = true ∧ theQueue.stopped = false ∧ theQueue.reclaim = false ∧
    badPacket v = false) &&
  outcome (z := s) (sysNat theQueue.ctx theQueue.rcd (theQueue.rbase + BitVec.ofNat 64 (64 * (theQueue.rptr.toNat % 2 ^ theQueue.logn))) 64)
    (packetBegun 0 s) (.other .refl rfl rfl) fun r u => decide (r = some v ∧ u = packetBegun 0 s)

theorem packet_of {s : State} {v : Nat} (h : packetB s v = true) : PacketAt s 0 0 theQueue v (packetBegun 0 s) := by
  rw [packetB, Bool.and_eq_true] at h
  obtain ⟨a, b, c, d, e⟩ := of_decide_eq_true h.1
  obtain ⟨r, u, f, g⟩ := outcome_of h.2
  obtain ⟨rfl, rfl⟩ := of_decide_eq_true g
  exact ⟨a, b, c, .inl rfl, d, e, f⟩

/-- The queue's record is reached from `t`. -/
def recordB (s t : State) (p : Path s t) : Bool :=
  outcome (z := s) (sysXlate theQueue.ctx theQueue.rcd Kind.write (theQueue.record + 32) true) t p fun r u =>
    match r with
    | .ok a => !sysWaits u a && roomB u a.pa 4
    | .error _ => false

theorem record_of {s t : State} (p : Path s t) (h : recordB s t p = true) : ∃ a x, RecordAt s t theQueue a x := by
  obtain ⟨r, u, f, g⟩ := outcome_of h
  match r, f, g with
  | .ok a, f, g =>
    simp only [Bool.and_eq_true, Bool.not_eq_true'] at g
    exact ⟨a, u, f, g.1, room_of g.2⟩

/-- A record of zeros but for bit 0, read by a COND packet. -/
def condPacket : Nat := 0x11000000000000000000000000000000000000000000000000000000000000000000000000000000000000000000000000000000000000000002
def conditional (b : Byte) : State := poke 0x5100 [b] (hosted [(0, theQueue)] condPacket)

/-- The packet reads its condition, whose bit 0 is `x`. -/
def Conditions (b : Byte) (x : Bool) : Prop :=
  PacketAt (conditional b) 0 0 theQueue condPacket (packetBegun 0 (conditional b)) ∧ condPacket % 256 = 2 ∧
    (∃ r, Gives (z := conditional b) (sysNat 0 pagedRec (BitVec.ofNat 64 (bitsOf condPacket 511 448)) 32)
      (packetBegun 0 (conditional b)) (some r) (packetBegun 0 (conditional b)) ∧ bitOf r 0 = x) ∧
    ∃ a y, RecordAt (conditional b) (packetBegun 0 (conditional b)) theQueue a y

theorem cond_of {b : Byte} {x : Bool} (h : (packetB (conditional b) condPacket && outcome (z := conditional b)
      (sysNat 0 pagedRec (BitVec.ofNat 64 (bitsOf condPacket 511 448)) 32) (packetBegun 0 (conditional b)) (.other .refl rfl rfl)
      (fun r u => r.any (fun r => bitOf r 0 == x) && decide (u = packetBegun 0 (conditional b))) &&
      recordB (conditional b) (packetBegun 0 (conditional b)) (.other .refl rfl rfl)) = true) :
    Conditions b x := by
  simp only [Bool.and_eq_true] at h
  obtain ⟨r, u, a, c⟩ := outcome_of h.1.2
  rw [Bool.and_eq_true] at c
  obtain ⟨r, rfl, d⟩ := any_of c.1
  have e := of_decide_eq_true c.2
  subst e
  exact ⟨packet_of h.1.1, by decide +kernel, ⟨r, a, by simpa using d⟩, record_of _ h.2⟩

theorem witness_cond_waits : Conditions 0 false := cond_of (by decide +kernel)
theorem witness_cond : Conditions 1 true := cond_of (by decide +kernel)

theorem witness_waitPacket_waits : let s := hosted [(0, theQueue)] 3
    PacketAt s 0 0 theQueue 3 (packetBegun 0 s) ∧ unwrittenLaunch s 0 = true :=
  ⟨packet_of (by decide +kernel), by decide +kernel⟩

theorem witness_waitPacket : let s := launchPut 0 (fun l => { l with done := true }) (hosted [(0, theQueue)] 3)
    PacketAt s 0 0 theQueue 3 (packetBegun 0 s) ∧ unwrittenLaunch s 0 = false ∧ ∃ a x, RecordAt s (packetBegun 0 s) theQueue a x :=
  ⟨packet_of (by decide +kernel), by decide +kernel, record_of (.other .refl rfl rfl) (by decide +kernel)⟩

def bindPacket : Nat := 0x180000000000000000000000000000000000000000000000000000000000000000000000000000500004

theorem witness_bindq : let v := bindPacket
    let s := hosted [(0, theQueue)] v
    PacketAt s 0 0 theQueue v (packetBegun 0 s) ∧ v % 256 = 4 ∧ bitOf v 8 = false ∧ ∃ a x, RecordAt s (ctxPut 0 (fun c => { c with
      queues := SMap.put c.queues (bitsOf v 31 20)
        { sbase := bitsOf v 383 320, logc := bitsOf v 36 32, cdesc := bitsOf v 447 384, crec := bitsOf v 511 448, cls := 2, rcd := pagedRec } })
      (packetBegun 0 s)) theQueue a x :=
  ⟨packet_of (by decide +kernel), by decide +kernel, by decide +kernel, record_of (.other .refl rfl rfl) (by decide +kernel)⟩

theorem witness_bindqUnbind : let v := 4 + 2 ^ 8 + 5 * 2 ^ 20
    let s := hosted [(0, theQueue)] v
    PacketAt s 0 0 theQueue v (packetBegun 0 s) ∧ v % 256 = 4 ∧ bitOf v 8 = true ∧
      ∃ a x, RecordAt s (ctxPut 0 (fun c => { c with queues := SMap.del c.queues (bitsOf v 31 20) }) (packetBegun 0 s)) theQueue a x :=
  ⟨packet_of (by decide +kernel), by decide +kernel, by decide +kernel, record_of (.other .refl rfl rfl) (by decide +kernel)⟩

/-! LaunchEvents -/

/-- A launch of one team of one group with 100 in its AL, described at 0x1200, its completion record at 0x1300. -/
def launchPacket : Nat := 0x13000000000000001000000100000000000000000000000012000000000000000000000000000000000000000000000000000000000000000001
def launching (words : List Byte) : State :=
  poke 0x5200 (words ++ List.replicate (32 - words.length) 0) (hosted [(0, theQueue)] launchPacket)

theorem witness_launch : let v := launchPacket
    let s := launching [0, 0, 0, 0, 0, 0, 0, 0, 1, 0, 0, 0, 1, 0, 0, 0, 0, 0, 0, 0, 0, 0, 0, 0, 100]
    PacketAt s 0 0 theQueue v (packetBegun 0 s) ∧ v % 256 = 1 ∧
      ∃ d ts w, Gives (z := s) (checkLaunch 0 (bitsOf v 359 358) (bitsOf v 319 256) (bitsOf v 383 368)) (packetBegun 0 s) (0, d, ts) w := by
  intro v s
  have ⟨r, u, a, b⟩ := outcome_of (z := s) (t := packetBegun 0 s) (p := .other .refl rfl rfl)
    (m := checkLaunch 0 (bitsOf v 359 358) (bitsOf v 319 256) (bitsOf v 383 368)) (cond := fun r _ => r.1 == 0) (by decide +kernel)
  refine ⟨packet_of (by decide +kernel), by decide +kernel, r.2.1, r.2.2, u, ?_⟩
  have e : r = (0, r.2.1, r.2.2) := by rw [← (by simpa using b : r.1 = 0)]
  rw [e] at a
  exact a

def taken (consumer : Option Nat) : State :=
  launchPut 0 (fun l => { l with admitted := false, done := false, code := 0, desc := 0x64000000000000000000000001000000010000000000000000, consumer := consumer })
    (hosted [(0, { theQueue with opened := some 0 })] 0)

def admitsB (s : State) : Bool :=
  s.launch? 0 == some (theLaunch s) && !(theLaunch s).admitted && !(theLaunch s).done && (theLaunch s).code == 0 &&
    !classFull s (theLaunch s).tcls && (theLaunch s).journal != 2

theorem witness_launchAdmit_consumer : let s := taken (some 5)
    admitsB s = true ∧ (readSpawn (theLaunch s).desc).teams ≤ (freeEntries s).length ∧
    (∃ tag0, chooseTags s (theLaunch s).ctx (readSpawn (theLaunch s).desc).teams = some tag0) ∧ (theLaunch s).consumer.isSome = true :=
  ⟨by decide +kernel, Nat.le_trans (by decide +kernel) (free_entry (e := 1) (by decide) (by decide +kernel)),
    chooseTags_some (by decide +kernel), by decide +kernel⟩

theorem witness_launchAdmit : let s := taken none
    admitsB s = true ∧ (readSpawn (theLaunch s).desc).teams ≤ (freeEntries s).length ∧
    (∃ tag0, chooseTags s (theLaunch s).ctx (readSpawn (theLaunch s).desc).teams = some tag0) ∧ (theLaunch s).consumer = none ∧
    s.queue? (theLaunch s).queue = some { theQueue with opened := some 0 } :=
  ⟨by decide +kernel, Nat.le_trans (by decide +kernel) (free_entry (e := 1) (by decide) (by decide +kernel)),
    chooseTags_some (by decide +kernel), by decide +kernel, by decide +kernel⟩

/-- Queue 5 of context 0 holds a record for its consumer. -/
def consuming : State :=
  ctxPut 0 (fun c => { c with queues := [(5, { nodeQ [8] with cdesc := 0x1200, crec := 0x1300 })] })
    (launching [0, 0, 0, 0, 0, 0, 0, 0, 1, 0, 0, 0, 1, 0, 0, 0, 0, 0, 0, 0, 0, 0, 0, 0, 100])

theorem witness_consumerLaunch : (SMap.get? (consuming.ctx (0 * 65536 + 0)).queues 5).any (fun q =>
    q.cdesc != 0 && !q.lens.isEmpty && q.live.isNone) = true := by decide +kernel

def recording : State → State := launchPut 0 fun l => { l with crec := 0x1FE0, rcd := pagedRec }

theorem witness_launchComplete : let s := recording (lively (teamed (fun t => { t with state := .done }) idle))
    s.launch? 0 = some (theLaunch s) ∧ mayComplete s 0 (theLaunch s) = true ∧
    ∃ a u, Gives (z := s) (sysXlate (theLaunch s).ctx (theLaunch s).rcd Kind.write (BitVec.ofNat 64 (theLaunch s).crec) true) s (.ok a) u ∧
      SysRoom u { a with pa := a.pa + 8 } 24 ∧
      SysRoom (written sysParty (a.pa + 8) ((natBytes (completionRecord s (theLaunch s)) 32).drop 8) u) a 8 := by
  intro s
  have ⟨r, u, a, b⟩ := outcome_of (z := s) (t := s) (p := .refl)
    (m := sysXlate (theLaunch s).ctx (theLaunch s).rcd Kind.write (BitVec.ofNat 64 (theLaunch s).crec) true)
    (cond := fun r u => match r with
      | .ok a =>
        let v := written sysParty (a.pa + 8) ((natBytes (completionRecord s (theLaunch s)) 32).drop 8) u
        (!sysWaits u { a with pa := a.pa + 8 } && roomB u (a.pa + 8) 24) && (!sysWaits v a && roomB v a.pa 8)
      | .error _ => false) (by decide +kernel)
  match r, a, b with
  | .ok r, a, b =>
    simp only [Bool.and_eq_true, Bool.not_eq_true'] at b
    exact ⟨by decide +kernel, by decide +kernel, r, u, a, ⟨b.1.1, room_of b.1.2⟩, b.2.1, room_of b.2.2⟩

theorem witness_launchAbort_foreign : foreignCtx (poke 0x801B [4] (lively idle)) 0 = true ∧ foreignCtx State.reset 0 = false ∧
    liveLaunch State.reset 0 = none := by decide +kernel

theorem witness_launchAbort_done : let s := teamed (fun t => { t with state := .done }) idle
    foreignCtx s 0 = false ∧ liveLaunch s 0 = some (0, theLaunch s) ∧ ∀ e ∈ rootTeams s 0, e.2.state = .done := by decide +kernel

theorem witness_launchAbort : let s := idle
    (foreignCtx s 0 = false ∧ liveLaunch s 0 = some (0, theLaunch s) ∧ ∃ e ∈ rootTeams s 0, e.2.state ≠ .done) ∧
    ∃ u, Gives (z := s) (forEach (rootTeams s 0) fun e => unwind e.1) (launchPut 0 (fun l => { l with aborted := true }) s) () u := by
  intro s
  have ⟨_, u, a, _⟩ := outcome_of (z := s) (t := launchPut 0 (fun l => { l with aborted := true }) s) (p := .other .refl rfl rfl)
    (cond := fun _ _ => true) (m := forEach (rootTeams s 0) fun e => unwind e.1) (by decide +kernel)
  exact ⟨by decide +kernel, u, a⟩

def toppedB (s : State) (status : Nat) : Bool :=
  !foreignCtx s 0 && liveLaunch s 0 == some (0, theLaunch s) && s.team? 0 == some (theTeam s) &&
    (rootTeams s 0).find? (fun x => x.2.tidx = bitsOf (s.fn 0).lcarg.toNat 63 48) == some (0, theTeam s) &&
    topupStatus false (theTeam s) (BitVec.ofNat 64 (bitsOf (s.fn 0).lcarg.toNat 47 0)) == status

def adding : State → State := fnPut 0 fun r => { r with lcarg := 6 }

theorem witness_hostTopup : toppedB (adding idle) 0 = true ∧
    toppedB (adding (teamed (fun t => { t with state := .starved, pendingCost := some 3 }) idle)) 1 = true ∧
    toppedB (adding (teamed (fun t => { t with state := .done }) idle)) 2 = true := by decide +kernel

theorem witness_weirLimitWrite : let s := State.reset
    let w := ((SMap.look 0 s.dev.wrate 2).toNat, (SMap.look 0 s.dev.wmax 2).toNat)
    2 < 3 ∧ weirSum s.dev 2 (600 % 2 ^ 32) w.2 ≤ 614400 ∧ weirSum s.dev 2 w.1 (600 % 65536) ≤ 614400 := by decide +kernel

theorem witness_weirLimitWrite_refused :
    let s := devPut (fun d => { d with wrate := SMap.store 0 d.wrate 2 614400, wmax := SMap.store 0 d.wmax 2 1 }) State.reset
    let w := ((SMap.look 0 s.dev.wrate 2).toNat, (SMap.look 0 s.dev.wmax 2).toNat)
    2 < 3 ∧ 614400 < weirSum s.dev 2 (614401 % 2 ^ 32) w.2 ∧ 614400 < weirSum s.dev 2 w.1 (2 % 65536) := by decide +kernel

/-- The launch replays; point 0's ring of 64 records at 0x1040 has `record` at HEAD, or nothing where `tail` is 0. -/
def replaying (tail record : Nat) : State :=
  launchPut 0 (fun l => { l with jmode := 2, rcd := pagedRec })
    (ctxPut 0 (fun c => { c with jdbase := 0x1800 })
      (poke 0x5040 (natBytes record 16) (poke 0x5800 (natBytes (0x1046 + tail * 2 ^ 64) 32) (lively idle))))

def looksB (s : State) (p : Head → State → Bool) : Bool :=
  s.launch? 0 == some (theLaunch s) && (theLaunch s).journal == 2 &&
    outcome (z := s) (headRecord (theLaunch s).ctx (theLaunch s).rcd 0 ringFuel) s .refl p

theorem looks_of {s : State} {p : Head → State → Bool} (h : looksB s p = true) : s.launch? 0 = some (theLaunch s) ∧ (theLaunch s).journal = 2 ∧
    0 < 642 ∧ ∃ r u, Gives (z := s) (headRecord (theLaunch s).ctx (theLaunch s).rcd 0 ringFuel) s r u ∧ p r u = true := by
  simp only [looksB, Bool.and_eq_true, beq_iff_eq] at h
  exact ⟨h.1.1, h.1.2, by decide, outcome_of h.2⟩

theorem witness_replayAdmit_empty : looksB (replaying 0 0) (fun r _ => r == .empty) = true := by decide +kernel

theorem witness_replayAdmit_unknown : looksB (replaying 1 (0x0D * 2 ^ 122)) (fun r u => match r with
    | .unknown r => !commitBlocks u.dev (r.pa + 12) && roomB u (r.pa + 12) 4
    | _ => false) = true := by decide +kernel

theorem witness_replayAdmit : looksB (replaying 1 (0x0B * 2 ^ 122)) (fun r _ => match r with
    | .record _ _ => true
    | _ => false) = true := by decide +kernel

/-! BootEvents -/

theorem witness_powerOn : State.reset.boot.started = false := by decide +kernel

theorem witness_bootImageCheck : let s := bootPut (fun b => { b with started := true, stage := 3 }) State.reset
    s.boot.started = true ∧ s.boot.recovery = false ∧ s.boot.stage < 4 ∧ (4 : Nat) = s.boot.stage + 1 := by decide +kernel

theorem witness_firmwareReport : let s := { bootPut (fun b => { b with stage := 1 }) State.reset with timer := 99999 }
    1 ≤ s.boot.stage ∧ s.boot.recovery = false ∧ s.timer < s.boot.lastReport + 100000 := by decide +kernel

theorem witness_watchdogExpire : let s := { bootPut (fun b => { b with stage := 1 }) State.reset with timer := 100000 }
    1 ≤ s.boot.stage ∧ s.boot.recovery = false ∧ s.boot.lastReport + 100000 ≤ s.timer := by decide +kernel

theorem witness_recoveryReload : let s := bootPut (fun b => { b with started := true, recovery := true, failImg := 4 }) State.reset
    s.boot.started = true ∧ s.boot.recovery = true ∧ (4 : Nat) = if s.boot.failImg = 0 then 1 else s.boot.failImg := by decide +kernel

theorem witness_attestationRequest : (booted State.reset).boot.started = true := by decide +kernel

/-- Images 1 to 3 run. -/
def linkUp (s : State) : State := { s with boot := { s.boot with started := true, stage := 3 } }

/-- W1 of function 63 is 64 bytes at 0x10000, or at the control range. -/
def windowed (base : W64) : State := fnPut 63 (fun r => { r with w1base := base, w1lim := 0x40 }) (linkUp State.reset)

theorem w1_admits {s : State} {off n : Nat} (a : 2 ≤ s.boot.stage) (h : off % 64 + n ≤ 64) (k : 1 ≤ n) (b : off + n ≤ 2 ^ 30) :
    2 ≤ s.boot.stage ∧ 63 < 64 ∧ 1 < 2 ∧ 1 ≤ n ∧ off % 64 + n ≤ 64 ∧ off + n ≤ w1Bytes 63 :=
  ⟨a, by decide, by decide, k, h, Nat.le_trans b (Nat.pow_le_pow_right (by decide) (Nat.le_add_right _ _))⟩

def hostWho (s : State) : Who := outsideAt (2 ^ 42 + 1) s

theorem witness_hostW1Access : let s := windowed 0x10000
    (2 ≤ s.boot.stage ∧ 63 < 64 ∧ 1 < 2 ∧ 1 ≤ 4 ∧ 0x3C % 64 + 4 ≤ 64 ∧ 0x3C + 4 ≤ w1Bytes 63) ∧
      (w1Address s 63 0x3C 4 = some 0x1003C ∧ sysWaits s { lane := 0, va := 0, pa := 0x1003C } = false ∧ paRange 0x1003C ≠ .control) ∧
      inMetadata s 0x1003C = false ∧ Room s 0x1003C 4 ∧ Clean s (hostWho s) 0x1003C 4 false ∧ Clean s (hostWho s) 0x1003C 4 true :=
  ⟨w1_admits (by decide +kernel) (by decide) (by decide) (by decide), by decide +kernel, metadata_free (by decide +kernel),
    room_of (by decide +kernel), clean_of (by decide +kernel), clean_of (by decide +kernel)⟩

theorem witness_hostW1Access_control : let s := windowed 0x8000000000
    (2 ≤ s.boot.stage ∧ 63 < 64 ∧ 1 < 2 ∧ 1 ≤ 8 ∧ 0x38 % 64 + 8 ≤ 64 ∧ 0x38 + 8 ≤ w1Bytes 63) ∧
      w1Address s 63 0x38 8 = some 0x8000000038 ∧ sysWaits s { lane := 0, va := 0, pa := 0x8000000038 } = false ∧
      paRange 0x8000000038 = .control :=
  ⟨w1_admits (by decide +kernel) (by decide) (by decide) (by decide), by decide +kernel⟩

theorem witness_hostW1Access_beyond : let s := windowed 0x10000
    (2 ≤ s.boot.stage ∧ 63 < 64 ∧ 1 < 2 ∧ 1 ≤ 4 ∧ 0x40 % 64 + 4 ≤ 64 ∧ 0x40 + 4 ≤ w1Bytes 63) ∧ w1Address s 63 0x40 4 = none :=
  ⟨w1_admits (by decide +kernel) (by decide) (by decide) (by decide), by decide +kernel⟩

/-- Peer 5 may ask function 0 at its endpoint 0. -/
def linked : State :=
  linkUp (fnPut 0 (fun f => { f with lkbase := 0x6000, lkcnt := 1 }) (poke 0x6000 [5, 0, 0, 0, 0, 0, 9, 0] (lively idle)))
def peerAsk (op len : Nat) : PeerAccess :=
  { dev := 5, vfn := 0, ctx := 0, fn := 0, tctx := 0, op := op, va := 0x1FF8, len := len, bytes := [1, 2, 3, 4, 0, 0, 0, 0] }

def asksPeer (s : State) (r : PeerAccess) : Bool :=
  decide (3 ≤ s.boot.stage ∧ s.boot.recovery = false ∧ 11 < 12 ∧ NSet.has s.dev.portsDown 11 = false ∧ r.op < 4 ∧
    r.len = (if r.op = 3 then 8 else 4) ∧ r.va.toNat % r.len = 0 ∧
    ∀ i < (s.fn r.fn).lkcnt.toNat, paBlocked s ((s.fn r.fn).lkbase.toNat + 16 * i) = false)

/-- Peer 5's request `r` is admitted, translated and clean. -/
def PeerAsks (r : PeerAccess) (wr : Bool) : Prop :=
  asksPeer linked r = true ∧ admitsPeer linked r = true ∧ paBlocked linked (ctxRecAt linked r.fn r.tctx) = false ∧
    liveCtx linked r.fn r.tctx = some pagedRec ∧ ∃ a u,
      Gives (z := linked) (sysXlate (r.fn * 65536 + r.tctx) pagedRec (peerKind r.op) r.va) linked (.ok a) u ∧ SysRoom u a r.len ∧
      Clean u (outsideAt (2 ^ 41 + r.dev) u) a.pa r.len wr

theorem peer_of {r : PeerAccess} {wr : Bool} (h : (asksPeer linked r && decide (admitsPeer linked r = true ∧
      paBlocked linked (ctxRecAt linked r.fn r.tctx) = false ∧ liveCtx linked r.fn r.tctx = some pagedRec) &&
      outcome (z := linked) (sysXlate (r.fn * 65536 + r.tctx) pagedRec (peerKind r.op) r.va) linked .refl (fun q u => match q with
        | .ok a => !sysWaits u a && roomB u a.pa r.len && cleanB u (outsideAt (2 ^ 41 + r.dev) u) a.pa r.len wr
        | .error _ => false)) = true) :
    PeerAsks r wr := by
  simp only [Bool.and_eq_true] at h
  obtain ⟨a, b, c⟩ := of_decide_eq_true h.1.2
  obtain ⟨q, u, d, e⟩ := outcome_of h.2
  match q, d, e with
  | .ok q, d, e =>
    simp only [Bool.and_eq_true, Bool.not_eq_true'] at e
    exact ⟨h.1.1, a, b, c, q, u, d, ⟨e.1.1, room_of e.1.2⟩, clean_of e.2⟩

theorem witness_peerRequest_get : PeerAsks (peerAsk 1 4) false := peer_of (by decide +kernel)
theorem witness_peerRequest_put : PeerAsks (peerAsk 0 4) true := peer_of (by decide +kernel)
theorem witness_peerRequest_add : PeerAsks (peerAsk 3 8) true := peer_of (by decide +kernel)

theorem witness_peerRequest_refused : let s := booted State.reset
    asksPeer s (peerAsk 0 4) = true ∧ admitsPeer s (peerAsk 0 4) = false := by decide +kernel

theorem witness_linkDown : 11 < 12 ∧ NSet.has State.reset.dev.portsDown 11 = false := by decide +kernel

/-! UnitOutcomes -/

def vaddInfo : View → Info := intInfo (operandsOk (.vaddI32 16 16 8)) 16 [16, 8] false
theorem unit_vaddI32 : IsUnit (.vaddI32 16 16 8) vaddInfo := ⟨_, fun _ => rfl⟩

def skipsB (w : View) (i : Info) : Bool :=
  mayPresent w && slotFree w && isPicked w && (preCauses w i).isEmpty && !i.named.any w.gr.awaits && !i.waits && (needsCurrent w i).isNone &&
    decide (w.cost i + i.moved ≤ w.t.al.toNat) && decide (i.mask = .skips ∧ w.exm = 0) &&
    decide (w.wordPc + 1 < 16384) && !w.gr.trap.tmode.getLsbD 2

theorem skips_of {w : View} {i : Info} (h : skipsB w i = true) : Ready w i ∧ i.mask = .skips ∧ w.exm = 0 ∧ PlainEnd w := by
  simp only [skipsB, Bool.and_eq_true, decide_eq_true_eq, Bool.not_eq_true', List.isEmpty_iff, Option.isNone_iff_eq_none] at h
  obtain ⟨⟨⟨⟨⟨⟨⟨⟨⟨⟨a, k⟩, l⟩, b⟩, c⟩, d⟩, e⟩, f⟩, g⟩, i⟩, j⟩ := h
  exact ⟨⟨a, k, l, b, c, d, e, f⟩, g.1, g.2, ⟨i, .inl j⟩⟩

theorem witness_unit_skips : ∃ w, view (about 0x10101008 fun g => g.setExm 0) = some w ∧ Ready w (vaddInfo w) ∧
    (vaddInfo w).mask = .skips ∧ w.exm = 0 ∧ PlainEnd w :=
  seen_of (p := fun w => skipsB w (vaddInfo w)) (by decide +kernel) fun _ h => skips_of h

def exhaustsB (w : View) (i : Info) : Bool :=
  mayPresent w && slotFree w && isPicked w && (preCauses w i).isEmpty && !i.named.any w.gr.awaits && !i.waits && (needsCurrent w i).isNone &&
    !w.gr.inHandler && decide (w.t.al.toNat < unitCost w i + i.moved)

theorem exhausts_of {w : View} {i : Info} (h : exhaustsB w i = true) : Exhausts w i := by
  simp only [exhaustsB, Bool.and_eq_true, decide_eq_true_eq, Bool.not_eq_true', List.isEmpty_iff, Option.isNone_iff_eq_none] at h
  obtain ⟨⟨⟨⟨⟨⟨⟨⟨a, k⟩, l⟩, b⟩, c⟩, d⟩, e⟩, f⟩, g⟩ := h
  exact ⟨a, k, l, b, c, d, e, f, g⟩

/-- A team without allowance, whose ALPOL is `pol`. -/
def broke (pol : Bool) : State := teamed (fun t => { t with al := 0, shape := { t.shape with pol := pol } }) (about 0x10101008)

theorem witness_unit_starves : ∃ w, view (broke true) = some w ∧ Exhausts w (vaddInfo w) ∧ w.t.shape.pol = true :=
  seen_of (p := fun w => exhaustsB w (vaddInfo w) && w.t.shape.pol) (by decide +kernel) fun _ h =>
    have h := Bool.and_eq_true_iff.1 h
    ⟨exhausts_of h.1, h.2⟩

def unwindsB (s : State) : Bool :=
  match view s with
  | none => false
  | some w => exhaustsB w (vaddInfo w) && !w.t.shape.pol && outcome (z := s) (unwind w.eid)
      (exhaustionMarked w (unitCost w (vaddInfo w) + (vaddInfo w).moved) s) (.other .refl rfl rfl) fun _ _ => true

/-- The team of `s` unwinds when its group's unit exhausts its AL. -/
def Unwinds (s : State) : Prop :=
  ∃ w u, view s = some w ∧ Exhausts w (vaddInfo w) ∧ w.t.shape.pol = false ∧
    Gives (z := s) (unwind w.eid) (exhaustionMarked w (unitCost w (vaddInfo w) + (vaddInfo w).moved) s) () u

theorem unwinds_of {s : State} (h : unwindsB s = true) : Unwinds s := by
  unfold unwindsB at h
  split at h
  · cases h
  · next w e =>
    simp only [Bool.and_eq_true, Bool.not_eq_true'] at h
    have ⟨_, u, a, _⟩ := outcome_of h.2
    exact ⟨w, u, e, exhausts_of h.1.1, h.1.2, a⟩

theorem witness_unit_unwinds : Unwinds (broke false) := unwinds_of (by decide +kernel)

def candidateB (w : View) : Bool := mayPresent w && slotFree w && isPicked w

theorem candidate_of {w : View} (h : candidateB w = true) : Candidate w := by
  simp only [candidateB, Bool.and_eq_true] at h
  exact ⟨h.1.1, h.1.2, h.2⟩

theorem witness_unit_causes : ∃ w, view (about 0x1010F408 Group.handling) = some w ∧ Candidate w ∧
    (intInfo (operandsOk (.vaddI32 16 0xF4 8)) 16 [0xF4, 8] false w).named.any w.gr.awaits = false ∧
    preCauses w (intInfo (operandsOk (.vaddI32 16 0xF4 8)) 16 [0xF4, 8] false w).early ≠ [] ∧
    Handles w (preCauses w (intInfo (operandsOk (.vaddI32 16 0xF4 8)) 16 [0xF4, 8] false w).early) :=
  seen_of (p := fun w => candidateB w && (decide ((intInfo (operandsOk (.vaddI32 16 0xF4 8)) 16 [0xF4, 8] false w).named.any w.gr.awaits = false ∧
      preCauses w (intInfo (operandsOk (.vaddI32 16 0xF4 8)) 16 [0xF4, 8] false w).early ≠ []) &&
      handlesB w (preCauses w (intInfo (operandsOk (.vaddI32 16 0xF4 8)) 16 [0xF4, 8] false w).early))) (by decide +kernel) fun w h => by
    rw [Bool.and_eq_true, Bool.and_eq_true] at h
    have k := of_decide_eq_true h.2.1
    exact ⟨candidate_of h.1, k.1, k.2, handles_of h.2.2⟩

theorem witness_unit_awaits :
    ∃ w, view (groupPut 0 (fun gr => { gr with nextId := 1, ls := [{ id := 0, unit := 0, acc :=
      { kind := .load false, size := 4, dest := .vec 16, lanes := [{ lane := 0, va := 0, pa := 0 }] } }] }) (about 0x10101008)) = some w ∧
      Candidate w ∧ (vaddInfo w).named.any w.gr.awaits = true :=
  seen_of (p := fun w => candidateB w && (vaddInfo w).named.any w.gr.awaits) (by decide +kernel) fun _ h =>
    have h := Bool.and_eq_true_iff.1 h
    ⟨candidate_of h.1, h.2⟩

/-! StepRunsDecoded, EncodingRoundTrip, StepKeeps -/

noncomputable def presentsB (w : View) (r : Except DecodeError Instr) : Bool :=
  mayPresent w && w.gr.preemptDue.isNone && (lacksCurrent w).isNone && !wordPoisoned w &&
    decide (decode (fetchAt w.s w.core w.gr.slot w.wordPc) = r)

theorem presents_of {s : State} {r : Except DecodeError Instr} {q : View → Prop} (p : View → Bool)
    (h : (view s).any (fun w => presentsB w r && p w) = true) (k : ∀ w, p w = true → q w) :
    ∃ w, Presents s w ∧ decode (fetchAt s w.core w.gr.slot w.wordPc) = r ∧ q w := by
  obtain ⟨w, a, b⟩ := any_of h
  simp only [presentsB, Bool.and_eq_true, Bool.not_eq_true', Option.isNone_iff_eq_none, decide_eq_true_eq] at b
  obtain ⟨⟨⟨⟨⟨b1, b2⟩, b3⟩, b4⟩, b5⟩, b6⟩ := b
  exact ⟨w, ⟨a, b1, ⟨b2, b3⟩, b4⟩, by rw [← (view_cases a).1]; exact b5, k w b6⟩

theorem witness_presents : (about 0x10101008).moves = [] ∧ ∃ w, Presents (about 0x10101008) w ∧
    decode (fetchAt (about 0x10101008) w.core w.gr.slot w.wordPc) = .ok (.vaddI32 16 16 8) ∧ True :=
  ⟨by decide +kernel, presents_of (fun _ => true) (by decide +kernel) fun _ _ => trivial⟩

theorem witness_presents_illegal : (about 0xFC000000 Group.handling).moves = [] ∧ ∃ w, Presents (about 0xFC000000 Group.handling) w ∧
    decode (fetchAt (about 0xFC000000 Group.handling) w.core w.gr.slot w.wordPc) = .error .reservedCode ∧
    Handles w (preCauses w (illegalInfo w)) :=
  ⟨by decide +kernel, presents_of (fun w => handlesB w (preCauses w (illegalInfo w))) (by decide +kernel) fun _ h => handles_of h⟩

theorem witness_presents_unused : (about 0x0C800001).moves = [] ∧ ∃ w, Presents (about 0x0C800001) w ∧
    decode (fetchAt (about 0x0C800001) w.core w.gr.slot w.wordPc) = .error .unusedField ∧
    decode (0x0C800001#32 &&& ~~~unusedMask 0x0C800001#32) = .ok (.vfracF32 0 0) :=
  ⟨by decide +kernel, presents_of (fun _ => decide (decode (0x0C800001#32 &&& ~~~unusedMask 0x0C800001#32) = .ok (.vfracF32 0 0)))
    (by decide +kernel) fun _ h => of_decide_eq_true h⟩

theorem witness_encode : encode (.vaddI32 16 16 8) = some 0x10101008#32 := by decide +kernel
theorem witness_reset : State.reset.wf = true := by decide +kernel

end Sys2Proof.Tests
end

