-- ==== Sys2Proof/Tests/Words.lean ====
section
/-! SUPPORT. One step of the words that act on registers alone. The encodings are those of the opcode table; the expected
results are computed by hand from the rules, or are the examples of R165, R171, R211 and the rules of each word. -/

namespace Sys2Proof.Tests

open Sys2Proof.Machine

set_option maxRecDepth 100000
set_option Elab.async false

theorem test_vaddI32 : after (about 0x10030102 fun g => (g.setV 1 31 0x80000001).setV 2 31 0x80000001) (obsV 3 31) = some 0x2 := by decide +kernel
theorem test_vsubI32 : after (about 0x10830102 fun g => (g.setV 1 31 0x1).setV 2 31 0x2) (obsV 3 31) = some 0xFFFFFFFF := by decide +kernel
theorem test_vmulI32 : after (about 0x11030102 fun g => (g.setV 1 31 0x80000001).setV 2 31 0x3) (obsV 3 31) = some 0x80000003 := by decide +kernel
theorem test_vmadI32 : after (about 0x11830102 fun g => ((g.setV 1 31 0x80000001).setV 2 31 0x3).setV 3 31 0x9) (obsV 3 31) = some 0x8000000C := by decide +kernel
theorem test_vmulhiI32 : after (about 0x12030102 fun g => (g.setV 1 31 0x80000001).setV 2 31 0x3) (obsV 3 31) = some 0xFFFFFFFE := by decide +kernel
theorem test_vmulhiN32 : after (about 0x12830102 fun g => (g.setV 1 31 0x80000001).setV 2 31 0x3) (obsV 3 31) = some 0x1 := by decide +kernel
theorem test_vminI32 : after (about 0x13030102 fun g => (g.setV 1 31 0x80000001).setV 2 31 0x7FFFFFFF) (obsV 3 31) = some 0x80000001 := by decide +kernel
theorem test_vmaxI32 : after (about 0x13830102 fun g => (g.setV 1 31 0x80000001).setV 2 31 0x7FFFFFFF) (obsV 3 31) = some 0x7FFFFFFF := by decide +kernel
theorem test_vminN32 : after (about 0x14030102 fun g => (g.setV 1 31 0x80000001).setV 2 31 0x7FFFFFFF) (obsV 3 31) = some 0x7FFFFFFF := by decide +kernel
theorem test_vmaxN32 : after (about 0x14830102 fun g => (g.setV 1 31 0x80000001).setV 2 31 0x7FFFFFFF) (obsV 3 31) = some 0x80000001 := by decide +kernel
theorem test_vaddsI32 : after (about 0x15030102 fun g => (g.setV 1 31 0x7FFFFFFF).setV 2 31 0x1) (obsV 3 31) = some 0x7FFFFFFF := by decide +kernel
theorem test_vsubsI32 : after (about 0x15830102 fun g => (g.setV 1 31 0x80000001).setV 2 31 0x2) (obsV 3 31) = some 0x80000000 := by decide +kernel
theorem test_vaddsN32 : after (about 0x16030102 fun g => (g.setV 1 31 0x80000001).setV 2 31 0x80000000) (obsV 3 31) = some 0xFFFFFFFF := by decide +kernel
theorem test_vsubsN32 : after (about 0x16830102 fun g => (g.setV 1 31 0x1).setV 2 31 0x2) (obsV 3 31) = some 0x0 := by decide +kernel
theorem test_vand : after (about 0x17030102 fun g => (g.setV 1 31 0xF0F0).setV 2 31 0xFF00) (obsV 3 31) = some 0xF000 := by decide +kernel
theorem test_vor : after (about 0x17830102 fun g => (g.setV 1 31 0xF0F0).setV 2 31 0xFF00) (obsV 3 31) = some 0xFFF0 := by decide +kernel
theorem test_vxor : after (about 0x18030102 fun g => (g.setV 1 31 0xF0F0).setV 2 31 0xFF00) (obsV 3 31) = some 0xFF0 := by decide +kernel
theorem test_vandn : after (about 0x18830102 fun g => (g.setV 1 31 0xF0F0).setV 2 31 0xFF00) (obsV 3 31) = some 0xF0 := by decide +kernel
theorem test_vshl : after (about 0x19030102 fun g => (g.setV 1 31 0x3).setV 2 31 0x21) (obsV 3 31) = some 0x6 := by decide +kernel
theorem test_vshr : after (about 0x19830102 fun g => (g.setV 1 31 0x80000001).setV 2 31 0x21) (obsV 3 31) = some 0x40000000 := by decide +kernel
theorem test_vsar : after (about 0x1A030102 fun g => (g.setV 1 31 0x80000001).setV 2 31 0x21) (obsV 3 31) = some 0xC0000000 := by decide +kernel
theorem test_vpopc : after (about 0x1A830100 fun g => g.setV 1 31 0xF00F) (obsV 3 31) = some 0x8 := by decide +kernel
theorem test_vclz : after (about 0x1B030100 fun g => g.setV 1 31 0x1) (obsV 3 31) = some 0x1F := by decide +kernel
theorem test_vbrev : after (about 0x1B830100 fun g => g.setV 1 31 0x1) (obsV 3 31) = some 0x80000000 := by decide +kernel
theorem test_vbfx : after (about 0x1C030102 fun g => (g.setV 1 31 0xABCD1234).setV 2 31 0x808) (obsV 3 31) = some 0x12 := by decide +kernel
theorem test_vbfi : after (about 0x1C830102 fun g => ((g.setV 1 31 0xFF).setV 2 31 0x808).setV 3 31 0x2211) (obsV 3 31) = some 0xFF11 := by decide +kernel
theorem test_vaddI16x2 : after (about 0x1D030102 fun g => (g.setV 1 31 0xFFFF0001).setV 2 31 0x1FFFF) (obsV 3 31) = some 0x0 := by decide +kernel
theorem test_vsubI16x2 : after (about 0x1D830102 fun g => (g.setV 1 31 0x1).setV 2 31 0x10002) (obsV 3 31) = some 0xFFFFFFFF := by decide +kernel
theorem test_vdot4I8 : after (about 0x1E030102 fun g => ((g.setV 1 31 0xFF020304).setV 2 31 0x2010101).setV 3 31 0xA) (obsV 3 31) = some 0x11 := by decide +kernel
theorem test_vdot4N8 : after (about 0x1E830102 fun g => ((g.setV 1 31 0xFF020304).setV 2 31 0x2010101).setV 3 31 0xA) (obsV 3 31) = some 0x211 := by decide +kernel
theorem test_vaddF32 : after (about 0x00030102 fun g => (g.setV 1 31 0x3FC00000).setV 2 31 0x40100000) (obsV 3 31) = some 0x40700000 := by decide +kernel
theorem test_vsubF32 : after (about 0x00830102 fun g => (g.setV 1 31 0x3FC00000).setV 2 31 0x40100000) (obsV 3 31) = some 0xBF400000 := by decide +kernel
theorem test_vmulF32 : after (about 0x01030102 fun g => (g.setV 1 31 0x3FC00000).setV 2 31 0xC0100000) (obsV 3 31) = some 0xC0580000 := by decide +kernel
theorem test_vfmaF32 : after (about 0x01830102 fun g => ((g.setV 1 31 0x3FC00000).setV 2 31 0x40000000).setV 3 31 0x3F800000) (obsV 3 31) = some 0x40800000 := by decide +kernel
theorem test_vminF32 : after (about 0x02030102 fun g => (g.setV 1 31 0x80000000).setV 2 31 0x0) (obsV 3 31) = some 0x80000000 := by decide +kernel
theorem test_vmaxF32 : after (about 0x02830102 fun g => (g.setV 1 31 0x80000000).setV 2 31 0x0) (obsV 3 31) = some 0x0 := by decide +kernel
theorem test_vaddF16x2 : after (about 0x03030102 fun g => (g.setV 1 31 0x40003C00).setV 2 31 0xC4004200) (obsV 3 31) = some 0xC0004400 := by decide +kernel
theorem test_vsubF16x2 : after (about 0x03830102 fun g => (g.setV 1 31 0x40003C00).setV 2 31 0xC4004200) (obsV 3 31) = some 0x4600C000 := by decide +kernel
theorem test_vmulF16x2 : after (about 0x04030102 fun g => (g.setV 1 31 0x40003E00).setV 2 31 0xC4004200) (obsV 3 31) = some 0xC8004480 := by decide +kernel
theorem test_vfmaF16x2 : after (about 0x04830102 fun g => ((g.setV 1 31 0x40003E00).setV 2 31 0xC4004200).setV 3 31 0x3C003C00) (obsV 3 31) = some 0xC7004580 := by decide +kernel
theorem test_vaddB16x2 : after (about 0x06030102 fun g => (g.setV 1 31 0x40003F80).setV 2 31 0xC0804040) (obsV 3 31) = some 0xC0004080 := by decide +kernel
theorem test_vsubB16x2 : after (about 0x06830102 fun g => (g.setV 1 31 0x40003F80).setV 2 31 0xC0804040) (obsV 3 31) = some 0x40C0C000 := by decide +kernel
theorem test_vmulB16x2 : after (about 0x07030102 fun g => (g.setV 1 31 0x40003FC0).setV 2 31 0xC0804040) (obsV 3 31) = some 0xC1004090 := by decide +kernel
theorem test_vfmaB16x2 : after (about 0x07830102 fun g => ((g.setV 1 31 0x40003FC0).setV 2 31 0xC0804040).setV 3 31 0x3F803F80) (obsV 3 31) = some 0xC0E040B0 := by decide +kernel
theorem test_vminF16x2 : after (about 0x05030102 fun g => (g.setV 1 31 0x40003C00).setV 2 31 0xC4004200) (obsV 3 31) = some 0xC4003C00 := by decide +kernel
theorem test_vmaxF16x2 : after (about 0x05830102 fun g => (g.setV 1 31 0x40003C00).setV 2 31 0xC4004200) (obsV 3 31) = some 0x40004200 := by decide +kernel
theorem test_vaddF64 : after (about 0x08060204 fun g => (((g.setV 2 31 0x0).setV 3 31 0x3FF80000).setV 4 31 0x0).setV 5 31 0x40020000) (obsPair 6 31) = some 0x400E000000000000 := by decide +kernel
theorem test_vsubF64 : after (about 0x08860204 fun g => (((g.setV 2 31 0x0).setV 3 31 0x3FF80000).setV 4 31 0x0).setV 5 31 0x40020000) (obsPair 6 31) = some 0xBFE8000000000000 := by decide +kernel
theorem test_vmulF64 : after (about 0x09060204 fun g => (((g.setV 2 31 0x0).setV 3 31 0x3FF80000).setV 4 31 0x0).setV 5 31 0xC0020000) (obsPair 6 31) = some 0xC00B000000000000 := by decide +kernel
theorem test_vfmaF64 : after (about 0x09860204 fun g => (((((g.setV 2 31 0x0).setV 3 31 0x3FF80000).setV 4 31 0x0).setV 5 31 0x40000000).setV 6 31 0x0).setV 7 31 0x3FF00000) (obsPair 6 31) = some 0x4010000000000000 := by decide +kernel
theorem test_vminF64 : after (about 0x0A060204 fun g => (((g.setV 2 31 0x0).setV 3 31 0x3FF80000).setV 4 31 0x0).setV 5 31 0xC0020000) (obsPair 6 31) = some 0xC002000000000000 := by decide +kernel
theorem test_vmaxF64 : after (about 0x0A860204 fun g => (((g.setV 2 31 0x0).setV 3 31 0x3FF80000).setV 4 31 0x0).setV 5 31 0xC0020000) (obsPair 6 31) = some 0x3FF8000000000000 := by decide +kernel
theorem test_vdot2F16x2 : after (about 0x0B030102 fun g => ((g.setV 1 31 0x40003E00).setV 2 31 0x42004000).setV 3 31 0x3F800000) (obsV 3 31) = some 0x41200000 := by decide +kernel
theorem test_vdot2B16x2 : after (about 0x0B830102 fun g => ((g.setV 1 31 0x40003FC0).setV 2 31 0x40404000).setV 3 31 0x3F800000) (obsV 3 31) = some 0x41200000 := by decide +kernel
theorem test_vdot4K8 : after (about 0x0C030102 fun g => ((g.setV 1 31 0x60682AE8).setV 2 31 0x60606060).setV 3 31 0x3F800000) (obsV 3 31) = some 0x41400000 := by decide +kernel
theorem test_vfracF32 : after (about 0x0C830100 fun g => g.setV 1 31 0xC0300000) (obsV 3 31) = some 0xBF400000 := by decide +kernel
theorem test_vcvt_n32 : after (about 0x20030150 fun g => g.setV 1 31 0xBE99999A) (obsV 3 31) = some 0x0 := by decide +kernel
theorem test_vcvt_i8 : after (about 0x20030184 fun g => g.setV 1 31 0x180) (obsV 3 31) = some 0xFFFFFF80 := by decide +kernel
theorem test_vrndF32 : after (about 0x20830100 fun g => g.setV 1 31 0x40200000) (obsV 3 31) = some 0x40000000 := by decide +kernel
theorem test_vmov : after (about 0x21030100 fun g => g.setV 1 31 0x1234) (obsV 3 31) = some 0x1234 := by decide +kernel
theorem test_vmovo : after (about 0x21820100 fun g => g.setV 1 31 0x1234) (obsO 2 31) = some 0x1234 := by decide +kernel
theorem test_vlaneid : after (about 0x28830000) (obsV 3 31) = some 31 := by decide +kernel
theorem test_vpack : after (about 0x29030102 fun g => (g.setV 1 31 0x11112222).setV 2 31 0x33334444) (obsV 3 31) = some 0x44442222 := by decide +kernel
theorem test_vlane : after (about 0x220301E5 fun g => g.setV 1 5 0x4D) (obsV 3 31) = some 77 := by decide +kernel
theorem test_vxswap : after (about 0x228301E1 fun g => g.setV 1 30 0x4D) (obsV 3 31) = some 77 := by decide +kernel
theorem test_vup : after (about 0x230301E2 fun g => g.setV 1 29 0x4D) (obsV 3 31) = some 77 := by decide +kernel
theorem test_vdown : after (about 0x238301E2 fun g => g.setV 1 31 0x4D) (obsV 3 31) = some 77 := by decide +kernel
theorem test_vscanI32 : after (about 0x24030100 fun g => (g.setV 1 0 0x5).setV 1 9 0x7) (obsV 3 31) = some 12 := by decide +kernel
theorem test_vscanF32 : after (about 0x24830100 fun g => (g.setV 1 0 0x3FC00000).setV 1 9 0x40000000) (obsV 3 31) = some 0x40600000 := by decide +kernel
theorem test_vredAddI32 : after (about 0x25030100 fun g => (g.setV 1 0 0x5).setV 1 9 0x7) (obsV 3 31) = some 12 := by decide +kernel
theorem test_vredAddF32 : after (about 0x25830100 fun g => (g.setV 1 0 0x3FC00000).setV 1 9 0x40000000) (obsV 3 31) = some 0x40600000 := by decide +kernel
theorem test_vredMaxF32 : after (about 0x26030100 fun g => (g.setV 1 0 0x3FC00000).setV 1 9 0xC0000000) (obsV 3 31) = some 0x3FC00000 := by decide +kernel
theorem test_vredMinF32 : after (about 0x26830100 fun g => (g.setV 1 0 0x3FC00000).setV 1 9 0xC0000000) (obsV 3 31) = some 0xC0000000 := by decide +kernel
theorem test_vballot : after (about 0x27030100 fun g => (g.setV 1 0 0x1).setV 1 9 0x2) (obsS 3) = some 0x201 := by decide +kernel
theorem test_vcompress : after (about 0x27830101 fun g => ((g.setK 1 0x220).setV 1 5 0x5).setV 1 9 0x9) (obsV 3 1) = some 9 := by decide +kernel
theorem test_vexpand : after (about 0x28030101 fun g => ((g.setK 1 0x220).setV 1 0 0x5).setV 1 1 0x9) (obsV 3 9) = some 9 := by decide +kernel
theorem test_vcmpI32 : after (about 0x31010102 fun g => (g.setV 1 31 0x5).setV 2 31 0x6) (obsK 1) = some 0x7FFFFFFF := by decide +kernel
theorem test_vcmpN32 : after (about 0x31810102 fun g => (g.setV 1 31 0x5).setV 2 31 0x6) (obsK 1) = some 0x7FFFFFFF := by decide +kernel
theorem test_vcmpF32 : after (about 0x30010102 fun g => (g.setV 1 31 0x80000000).setV 2 31 0x3F800000) (obsK 1) = some 0x7FFFFFFF := by decide +kernel
theorem test_vcmpF64 : after (about 0x30810204 fun g => g.setV 3 31 0x3FF00000) (obsK 1) = some 0x7FFFFFFF := by decide +kernel
theorem test_vtest : after (about 0x32810102 fun g => (g.setV 1 31 0x5).setV 2 31 0x4) (obsK 1) = some 0x80000000 := by decide +kernel
theorem test_vselK0 : after (about 0x34030102 fun g => ((g.setK 0 0x80000000).setV 1 31 0x5).setV 2 31 0x6) (obsV 3 31) = some 5 := by decide +kernel
theorem test_vselK1 : after (about 0x34830102 fun g => ((g.setK 1 0x0).setV 1 31 0x5).setV 2 31 0x6) (obsV 3 31) = some 6 := by decide +kernel
theorem test_vselK2 : after (about 0x35030102 fun g => ((g.setK 2 0x80000000).setV 1 31 0x5).setV 2 31 0x6) (obsV 3 31) = some 5 := by decide +kernel
theorem test_vselK3 : after (about 0x35830102 fun g => ((g.setK 3 0x0).setV 1 31 0x5).setV 2 31 0x6) (obsV 3 31) = some 6 := by decide +kernel
theorem test_vselK4 : after (about 0x36030102 fun g => ((g.setK 4 0x80000000).setV 1 31 0x5).setV 2 31 0x6) (obsV 3 31) = some 5 := by decide +kernel
theorem test_vselK5 : after (about 0x36830102 fun g => ((g.setK 5 0x0).setV 1 31 0x5).setV 2 31 0x6) (obsV 3 31) = some 6 := by decide +kernel
theorem test_vselK6 : after (about 0x37030102 fun g => ((g.setK 6 0x80000000).setV 1 31 0x5).setV 2 31 0x6) (obsV 3 31) = some 5 := by decide +kernel
theorem test_vselK7 : after (about 0x37830102 fun g => ((g.setK 7 0x0).setV 1 31 0x5).setV 2 31 0x6) (obsV 3 31) = some 6 := by decide +kernel
theorem test_add : after (about 0x50030420 fun g => (g.setS 1 0x8000000000000001).setS 2 0x8000000000000001) (obsS 3) = some 0x2 := by decide +kernel
theorem test_sub : after (about 0x50430420 fun g => (g.setS 1 0x1).setS 2 0x2) (obsS 3) = some 0xFFFFFFFFFFFFFFFF := by decide +kernel
theorem test_mul : after (about 0x50830420 fun g => (g.setS 1 0x8000000000000001).setS 2 0x3) (obsS 3) = some 0x8000000000000003 := by decide +kernel
theorem test_mulhiI : after (about 0x50C30420 fun g => (g.setS 1 0x8000000000000001).setS 2 0x3) (obsS 3) = some 0xFFFFFFFFFFFFFFFE := by decide +kernel
theorem test_mulhiN : after (about 0x51030420 fun g => (g.setS 1 0x8000000000000001).setS 2 0x3) (obsS 3) = some 0x1 := by decide +kernel
theorem test_divI : after (about 0x51430420 fun g => (g.setS 1 0xFFFFFFFFFFFFFFF9).setS 2 0x2) (obsS 3) = some 0xFFFFFFFFFFFFFFFD := by decide +kernel
theorem test_remI : after (about 0x51C30420 fun g => (g.setS 1 0xFFFFFFFFFFFFFFF9).setS 2 0x2) (obsS 3) = some 0xFFFFFFFFFFFFFFFF := by decide +kernel
theorem test_divN : after (about 0x51830420 fun g => (g.setS 1 0xFFFFFFFFFFFFFFF9).setS 2 0x2) (obsS 3) = some 0x7FFFFFFFFFFFFFFC := by decide +kernel
theorem test_remN : after (about 0x52030420 fun g => (g.setS 1 0xFFFFFFFFFFFFFFF9).setS 2 0x2) (obsS 3) = some 0x1 := by decide +kernel
theorem test_and : after (about 0x52430420 fun g => (g.setS 1 0xC).setS 2 0xA) (obsS 3) = some 0x8 := by decide +kernel
theorem test_or : after (about 0x52830420 fun g => (g.setS 1 0xC).setS 2 0xA) (obsS 3) = some 0xE := by decide +kernel
theorem test_xor : after (about 0x52C30420 fun g => (g.setS 1 0xC).setS 2 0xA) (obsS 3) = some 0x6 := by decide +kernel
theorem test_andn : after (about 0x53030420 fun g => (g.setS 1 0xC).setS 2 0xA) (obsS 3) = some 0x4 := by decide +kernel
theorem test_shl : after (about 0x53430420 fun g => (g.setS 1 0x3).setS 2 0x41) (obsS 3) = some 0x6 := by decide +kernel
theorem test_shr : after (about 0x53830420 fun g => (g.setS 1 0x8000000000000001).setS 2 0x41) (obsS 3) = some 0x4000000000000000 := by decide +kernel
theorem test_sar : after (about 0x53C30420 fun g => (g.setS 1 0x8000000000000001).setS 2 0x41) (obsS 3) = some 0xC000000000000000 := by decide +kernel
theorem test_minI : after (about 0x54030420 fun g => (g.setS 1 0x8000000000000001).setS 2 0x5) (obsS 3) = some 0x8000000000000001 := by decide +kernel
theorem test_maxI : after (about 0x54430420 fun g => (g.setS 1 0x8000000000000001).setS 2 0x5) (obsS 3) = some 0x5 := by decide +kernel
theorem test_minN : after (about 0x54830420 fun g => (g.setS 1 0x8000000000000001).setS 2 0x5) (obsS 3) = some 0x5 := by decide +kernel
theorem test_maxN : after (about 0x54C30420 fun g => (g.setS 1 0x8000000000000001).setS 2 0x5) (obsS 3) = some 0x8000000000000001 := by decide +kernel
theorem test_sltI : after (about 0x55030420 fun g => (g.setS 1 0x8000000000000001).setS 2 0x5) (obsS 3) = some 0x1 := by decide +kernel
theorem test_sltN : after (about 0x55430420 fun g => (g.setS 1 0x8000000000000001).setS 2 0x5) (obsS 3) = some 0x0 := by decide +kernel
theorem test_seq : after (about 0x55830420 fun g => (g.setS 1 0x5).setS 2 0x5) (obsS 3) = some 0x1 := by decide +kernel
theorem test_mov : after (about 0x55C30400 fun g => g.setS 1 0x8000000000000001) (obsS 3) = some 0x8000000000000001 := by decide +kernel
theorem test_clz : after (about 0x56030400 fun g => g.setS 1 0x1) (obsS 3) = some 0x3F := by decide +kernel
theorem test_popc : after (about 0x56430400 fun g => g.setS 1 0x8000000000000001) (obsS 3) = some 0x2 := by decide +kernel
theorem test_brev : after (about 0x56830400 fun g => g.setS 1 0x1) (obsS 3) = some 0x8000000000000000 := by decide +kernel
theorem test_sext32 : after (about 0x56C30400 fun g => g.setS 1 0x80000000) (obsS 3) = some 0xFFFFFFFF80000000 := by decide +kernel
theorem test_zext32 : after (about 0x57030400 fun g => g.setS 1 0xF80000000) (obsS 3) = some 0x80000000 := by decide +kernel
theorem test_lea : after (about 0x57430424 fun g => (g.setS 1 0x5).setS 2 0x3) (obsS 3) = some 0x35 := by decide +kernel
theorem test_kand : after (about 0x58030420 fun g => (g.setK 1 0xC).setK 2 0xA) (obsK 3) = some 0x8 := by decide +kernel
theorem test_kor : after (about 0x58430420 fun g => (g.setK 1 0xC).setK 2 0xA) (obsK 3) = some 0xE := by decide +kernel
theorem test_kxor : after (about 0x58830420 fun g => (g.setK 1 0xC).setK 2 0xA) (obsK 3) = some 0x6 := by decide +kernel
theorem test_kandn : after (about 0x58C30420 fun g => (g.setK 1 0xC).setK 2 0xA) (obsK 3) = some 0x4 := by decide +kernel
theorem test_knot : after (about 0x59030400 fun g => g.setK 1 0xC) (obsK 3) = some 0xFFFFFFF3 := by decide +kernel
theorem test_kpopc : after (about 0x59430400 fun g => g.setK 1 0xC) (obsS 3) = some 2 := by decide +kernel
theorem test_kffs : after (about 0x59830400 fun g => g.setK 1 0xC) (obsS 3) = some 2 := by decide +kernel
theorem test_kffs_none : after (about 0x59830400) (obsS 3) = some 32 := by decide +kernel
theorem test_ktos : after (about 0x59C30400 fun g => g.setK 1 0xC) (obsS 3) = some 12 := by decide +kernel
theorem test_stok : after (about 0x5A030400 fun g => g.setS 1 0x500000007) (obsK 3) = some 7 := by decide +kernel
theorem test_exmrd : after (about 0x5A430000) (obsS 3) = some 0xFFFFFFFF := by decide +kernel
theorem test_exmwr : after (about 0x5A800400 fun g => g.setS 1 0xF0) (obsExm) = some 0xF0 := by decide +kernel
theorem test_addi : after (about 0x600307FF fun g => g.setS 1 0x4) (obsS 3) = some 0x3 := by decide +kernel
theorem test_andi : after (about 0x604307FE fun g => g.setS 1 0xD) (obsS 3) = some 0xC := by decide +kernel
theorem test_ori : after (about 0x60830402 fun g => g.setS 1 0x1) (obsS 3) = some 0x3 := by decide +kernel
theorem test_xori : after (about 0x60C307FF fun g => g.setS 1 0x1) (obsS 3) = some 0xFFFFFFFFFFFFFFFE := by decide +kernel
theorem test_muli : after (about 0x62C307FE fun g => g.setS 1 0x3) (obsS 3) = some 0xFFFFFFFFFFFFFFFA := by decide +kernel
theorem test_shli : after (about 0x6103043F fun g => g.setS 1 0x3) (obsS 3) = some 0x8000000000000000 := by decide +kernel
theorem test_shri : after (about 0x6143043F fun g => g.setS 1 0x8000000000000001) (obsS 3) = some 0x1 := by decide +kernel
theorem test_sari : after (about 0x6183043F fun g => g.setS 1 0x8000000000000001) (obsS 3) = some 0xFFFFFFFFFFFFFFFF := by decide +kernel
theorem test_sltiI : after (about 0x61C307FC fun g => g.setS 1 0xFFFFFFFFFFFFFFFB) (obsS 3) = some 0x1 := by decide +kernel
theorem test_sltiN : after (about 0x620307FF fun g => g.setS 1 0x5) (obsS 3) = some 0x1 := by decide +kernel
theorem test_seqi : after (about 0x624307FF fun g => g.setS 1 0xFFFFFFFFFFFFFFFF) (obsS 3) = some 0x1 := by decide +kernel
theorem test_li : after (about 0x62830200) (obsS 3) = some 0xFFFFFFFFFFFFFE00 := by decide +kernel
theorem test_br : after (about 0x70000005) (obsPc) = some 6 := by decide +kernel
theorem test_br_back : after (about 0x70FFFFFF) (obsPc) = some 0 := by decide +kernel
theorem test_brz : after (about 0x71040005) (obsPc) = some 6 := by decide +kernel
theorem test_brnz : after (about 0x72040005) (obsPc) = some 1 := by decide +kernel
theorem test_brany : after (about 0x73040005) (obsPc) = some 1 := by decide +kernel
theorem test_brall : after (about 0x74040005 fun g => g.setK 1 0xFFFFFFFF) (obsPc) = some 6 := by decide +kernel
theorem test_call : after (about 0x75000005) (obsS 63) = some 1 := by decide +kernel
theorem test_ret : after (about 0x76040000 fun g => g.setS 1 0x9) (obsPc) = some 9 := by decide +kernel
theorem test_brx : after (about 0x77040005 fun g => g.setS 1 0x2) (obsPc) = some 8 := by decide +kernel
theorem test_mif : after (about 0x78040005 fun g => g.setK 1 0xF) (obsExm) = some 0xF := by decide +kernel
theorem test_mif_none : after (about 0x78040005) (obsPc) = some 6 := by decide +kernel
theorem test_mwhile : after (about 0x7B040005 fun g => (g.setK 1 0xF).pushMask 0xFF 0 false) (obsExm) = some 0xF := by decide +kernel
theorem test_melse : after (about 0x79000005 fun g => (g.pushMask 0xFF 0xF0 false).setExm 0xF) (obsExm) = some 0xF0 := by decide +kernel
theorem test_mend : after (about 0x7A000000 fun g => (g.pushMask 0xFF 0xF0 true).setExm 0xF) (obsExm) = some 0xFF := by decide +kernel
theorem test_nop : after (about 0x7D000000) (obsPc) = some 1 := by decide +kernel
theorem test_wait : after (about 0x7E000000) (obsPc) = some 1 := by decide +kernel
theorem test_exit : after (about 0x7C000000) (obsExited) = some true := by decide +kernel

end Sys2Proof.Tests
end

section
/-! O60: every step answers a next state that keeps the form of memory and the fuses. -/

namespace Sys2Proof.Machine

/-- A step follows a path from the state whose schedule and turn have moved on. -/
theorem step_steps (s : State) : ∃ ms c, Steps { s with moves := ms, cur := c } (step s) := by
  unfold step
  split
  case h_1 => exact ⟨s.moves, s.cur, turn_steps s⟩
  case h_2 g ms _ => exact ⟨ms, some g, turn_steps _⟩
  case h_3 ms _ => exact ⟨ms, s.cur, exec_steps _ _⟩
  all_goals exact ⟨_, s.cur, runM_steps _ _⟩

/-- Settles O60: a step runs along a path of primitive changes, and each of them keeps the form of memory and the fuses. -/
theorem stepKeeps : Obligations.StepKeeps := by
  intro s h
  obtain ⟨ms, c, t, ht, p⟩ := step_steps s
  exact ⟨t, ht, p.keeps h⟩

end Sys2Proof.Machine
end

section
/-! O42: page requests. -/

namespace Sys2Proof.Machine

variable {z : State}

/-- A run ends in one state. -/
theorem Gives.state_unique {α : Type} {m : M z α} {t u v : State} {a b : α} (h : Gives m t a u) (k : Gives m t b v)
    (p : Path z t) : u = v := by
  obtain ⟨q, hu⟩ := h p
  obtain ⟨r, hv⟩ := k p
  have e : (Except.ok (a, (⟨u, q⟩ : Run z)) : Except Stop _) = .ok (b, ⟨v, r⟩) := hu.symm.trans hv
  exact congrArg Subtype.val (congrArg Prod.snd (Except.ok.inj e))

/-- A miss that finds no slot of its page takes the lowest free one, and raises the vector of the function that its table
belongs to (R29, R31). -/
theorem attachMiss_lowest {ctx vfn stage page kind tag : Nat} {t : State}
    (new : ((t.table (tableFor vfn stage)).slots.find? fun e => e.2.page == page && e.2.ctx == ctx && e.2.stage == stage) = none)
    (free : (lowest? 32 fun i => (SMap.get? (t.table (tableFor vfn stage)).slots i).isNone) = some tag) :
    Gives (z := z) (attachMiss ctx vfn stage page kind []) t (.slot (tableFor vfn stage) tag)
      (vectorRaised (tableFn (tableFor vfn stage)) 1 (tablePut (tableFor vfn stage) (fun q =>
        { q with slots := SMap.put q.slots tag { page := page, ctx := ctx, stage := stage, kind := kind, waiters := 1 } }) t)) := by
  unfold attachMiss
  refine Gives.getThen ?_
  dsimp only
  rw [new, free]
  exact tablePut_gives.bind (vectorRaised_gives.bind (Gives.pure _ _))

/-- Refutes O42: its first clause takes every number for a function's, and has a miss of stage 1 of function `vfn` raise a
vector of function `vfn`. The machine has 64 functions, and table 64 is a stage-2 table, whose vector is that of function 0
(R29): after reset, a miss of stage 1 under the number 64 takes slot 0 of table 64 and raises vector 1 of function 0. -/
theorem not_translationEvents : ¬ Obligations.TranslationEvents := by
  unfold Obligations.TranslationEvents
  rintro ⟨misses, -⟩
  obtain ⟨-, lowestFree, -⟩ := misses State.reset 0 64 1 0 0
  have claimed := lowestFree 0 rfl (by decide) rfl fun i hi => absurd hi (Nat.not_lt_zero i)
  have raised := attachMiss_lowest (z := State.reset) (t := State.reset) (ctx := 0) (vfn := 64) (stage := 1) (page := 0) (kind := 0)
    (tag := 0) rfl rfl
  have same := congrArg (fun u : State => (u.fn 64).msix) (raised.state_unique claimed .refl)
  exact absurd same (by decide +kernel)

end Sys2Proof.Machine
end

section
/-! O43: the translation walk. Its statement takes any root of a context's table, where R22 gives a page's address only, and it
fails for a root that puts an entry across two lines: setting A waits for the second line, the walk does not. -/

namespace Sys2Proof.Machine

/-- A root entry of eight bytes from 0x10003F leads to the table at 0x101000, whose entry 0 leads to itself and whose entry 1
is a leaf; the rank of the line 0x100040 is in refresh. -/
def crossingState : State :=
  let pointer : List Byte := [0x01, 0x10, 0x10]
  let leaf : List Byte := [0x0F, 0x03, 0x00, 0x40]
  { State.reset with
    mem := Memory.writeBytes (Memory.writeBytes (Memory.writeBytes [] 0x10003F pointer) 0x101000 pointer) 0x101008 leaf
    dev := { State.reset.dev with blocked := NSet.add [] 0 } }

/-- Its context's record: hardware sets A and D, and the root is no page's address. -/
def crossingRec : CtxRec := { vfn := 0, ctxid := 0, prqe := false, hwad := true, s2en := false, s1root := 0x10003F, s2root := 0 }

/-- The entry of level 2 that the walk of 0x40000000 comes down to, at 0x101008. -/
def crossingLeaf : Nat := entryAt crossingState (entryPlace crossingState crossingRec.s1root 0x40000000 2)

theorem crossing_leaf : crossingLeaf = 0x4000030F := by decide +kernel

/-- The pointer to the table at 0x101000 is well formed above level 0. -/
theorem crossing_pointer {lvl : Nat} (above : lvl ≠ 0) : ¬BadEntry lvl 0x101001 := by
  have notLeaf : bitOf 0x101001 1 = false := by decide +kernel
  have reserved : bitsOf 0x101001 58 52 = 0 ∧ bitOf 0x101001 10 = false ∧ bitsOf 0x101001 7 5 = 0 := by decide +kernel
  have pointerBits : bitOf 0x101001 62 = false ∧ bitOf 0x101001 4 = false := by decide +kernel
  simp [BadEntry, notLeaf, reserved, pointerBits, above]

theorem crossing_descends : Descends crossingState crossingRec 0x40000000 2 := by
  refine ⟨rfl, by decide, fun j hj => ?_⟩
  have key : tableOk crossingState (tableAt crossingState crossingRec.s1root 0x40000000 j) = true ∧
      paBlocked crossingState (entryPlace crossingState crossingRec.s1root 0x40000000 j) = false ∧
      entryAt crossingState (entryPlace crossingState crossingRec.s1root 0x40000000 j) = 0x101001 := by
    obtain rfl | rfl : j = 0 ∨ j = 1 := by omega
    all_goals decide +kernel
  obtain ⟨inDram, free, pointer⟩ := key
  refine ⟨inDram, free, ?_⟩
  rw [pointer]
  exact ⟨by decide +kernel, by decide +kernel, crossing_pointer (by omega)⟩

theorem crossing_in_range :
    ¬OutOfRange crossingState crossingRec (bitsOf crossingLeaf 51 12 * 4096 + 0x40000000 % 2 ^ 30) crossingLeaf := by
  have place : bitsOf crossingLeaf 51 12 * 4096 + 0x40000000 % 2 ^ 30 = 0x40000000 := by decide +kernel
  rw [place, crossing_leaf]
  have permitted : rangePermits 0x40000000 (bitsOf 0x4000030F 61 59) = true := by decide +kernel
  have dram : paRange 0x40000000 ≠ .control := by decide +kernel
  have data : inMetadata crossingState 0x40000000 = false := by decide +kernel
  have unchecked : bitOf 0x4000030F 62 = false := by decide +kernel
  simp [OutOfRange, permitted, dram, data, unchecked]

theorem crossing_allowed : ¬Denies Kind.read false crossingLeaf := by
  rw [crossing_leaf]
  have user : bitOf 0x4000030F 4 = false := by decide +kernel
  have readable : bitOf 0x4000030F 2 = true := by decide +kernel
  have reads : needsW Kind.read = false ∧ Kind.read ≠ Kind.overlay ∧ Kind.read ≠ Kind.atomic := by decide
  simp [Denies, user, readable, reads]

theorem crossing_leaf_sound : ¬BadEntry 2 crossingLeaf := by
  rw [crossing_leaf]
  have leaf : bitOf 0x4000030F 1 = true := by decide +kernel
  have reserved : bitsOf 0x4000030F 58 52 = 0 ∧ bitOf 0x4000030F 10 = false ∧ bitsOf 0x4000030F 7 5 = 0 := by decide +kernel
  have leafBits : bitsOf 0x4000030F 61 59 = 0 ∧ bitOf 0x4000030F 2 = true ∧ bitsOf 0x4000030F 51 12 % 262144 = 0 := by decide +kernel
  simp [BadEntry, leaf, reserved, leafBits]

/-- The write that sets A in the root entry goes to the line in refresh: the translation waits. -/
theorem crossing_waits :
    (xlate 0 0 crossingRec Kind.read false 0x40000000#64 (⟨crossingState, .refl⟩ : Run crossingState)).toBool = false := by
  decide +kernel

/-- Refutes O43: its clause for a leaf that serves the access claims an address for `crossingState`, whose translation waits:
the root entry stands at 0x10003F, in a line whose rank answers, and the byte that holds its A bit in the next line, whose rank
is in refresh (R56). The statement takes any number for the root where R22 gives the address of a page. -/
theorem not_translationWalk : ¬ Obligations.TranslationWalk := by
  unfold Obligations.TranslationWalk
  intro h
  obtain ⟨-, -, walks, -⟩ := h crossingState 0 0 crossingRec Kind.read false 0x40000000#64
  obtain ⟨-, entries⟩ := walks 2 (by decide +kernel) (by decide +kernel) crossing_descends
  obtain ⟨-, -, leaves⟩ := entries (by decide +kernel) (by decide +kernel)
  obtain ⟨-, -, -, serves⟩ := leaves (by decide +kernel) crossing_leaf_sound (by decide +kernel) (fun h => absurd h (by decide))
  obtain ⟨q, gives⟩ := serves crossing_in_range crossing_allowed (fun u => Bool.noConfusion u.1) (by decide +kernel) .refl
  have waits := crossing_waits
  rw [gives] at waits
  exact Bool.noConfusion waits

end Sys2Proof.Machine
end

section
/-! O44: partition commits, metadata zeroing, evictions, storage errors, and writes of registers. -/

namespace Sys2Proof.Machine

variable {z : State}

/-! Lines, commits and zeroing -/

theorem lineLeft_gives (line : Nat) (t : State) : Gives (z := z) (evictLine line) t () (lineLeft line t) := by
  unfold evictLine lineLeft
  refine Gives.getThen ?_
  cases SMap.get? t.home.dirty line with
  | none => exact homePut_gives
  | some old => exact writtenBack_gives line t

theorem fires_hcommit (sel : BitVec 7) :
    Fires (.hcommit sel) (fun s => s.dev.hcommit = none) (devPut fun d => { d with hcommit := some sel }) :=
  fires (m := fun _ => startCommit sel) (fun _ => rfl) fun _ h =>
    Gives.getThen (Gives.pos (by rw [h]; rfl) devPut_gives)

theorem fires_hcommit_busy (sel : BitVec 7) : Fires (.hcommit sel) (fun s => s.dev.hcommit ≠ none) id :=
  fires (m := fun _ => startCommit sel) (fun _ => rfl) fun _ h =>
    Gives.getThen (Gives.neg (by simpa using h) (Gives.pure _ _))

/-- The lines of the ranges that a commit moves, in the slices. -/
def committedLines (s : State) : List Nat :=
  (SMap.keys s.home.dirty ++ SMap.keys s.home.clean).filter fun l => commitBlocks s.dev (64 * l)

theorem fires_hcommitDone (sel : BitVec 7) :
    Fires .hcommitDone
      (fun s => s.dev.hcommit = some sel ∧
        ∀ l ∈ committedLines s, (SMap.get? s.home.dirty l).isSome = true → rankBlocked s.dev (64 * l) = false)
      (fun s => devPut (fun d => d.commit sel) ((committedLines s).foldl (fun t l => lineLeft l t) s)) := by
  rintro s ⟨hsel, hfree⟩
  refine runM_gives (Gives.needThen hsel (Gives.guardThen ?_ ((forEach_fold (fun t l => lineLeft_gives l t) _ s).bind devPut_gives)))
  refine List.all_eq_true.2 fun l hl => ?_
  cases hd : SMap.get? s.home.dirty l with
  | none => rfl
  | some old => simp [hfree l hl (by rw [hd]; rfl)]

theorem fires_mdzGo (n : BitVec 20) :
    Fires (.mdzGo n) (fun s => s.home.zeroing = none) (fun s =>
      homePut (fun h => { h with zeroing := some (s.dev.mdzAddr.toNat / 4096, n.toNat) })
        (devPut (fun d => { d with mdzPages := n }) s)) :=
  fires (m := fun _ => startZeroing n) (fun _ => rfl) fun _ h =>
    Gives.getThen (devPut_gives.bind (Gives.pos (by rw [h]; rfl) homePut_gives))

theorem fires_mdzGo_busy (n : BitVec 20) :
    Fires (.mdzGo n) (fun s => s.home.zeroing ≠ none) (devPut fun d => { d with mdzPages := n }) :=
  fires (m := fun _ => startZeroing n) (fun _ => rfl) fun _ h =>
    Gives.getThen (devPut_gives.bind (Gives.neg (by simpa using h) (Gives.pure _ _)))

theorem fires_mdzDone (page n : Nat) :
    Fires .mdzDone (fun s => s.home.zeroing = some (page, n)) (homePut fun h =>
      { h with info := SMap.delRange h.info (64 * page) (64 * n)
               infoPoison := SMap.delRange h.infoPoison (64 * page) (64 * n), zeroing := none }) :=
  fun _ h => runM_gives (Gives.needThen h homePut_gives)

theorem fires_l2Evict (line : Nat) :
    Fires (.l2Evict line) (fun s => linePresent s.home line = true ∧ rankBlocked s.dev (64 * line) = false) (lineLeft line) := by
  rintro s ⟨hp, hr⟩
  exact runM_gives (Gives.guardThen (by rw [hp, hr]; rfl) (lineLeft_gives line s))

theorem fires_uncorrectable {gran : Granule} (h : Unshared gran) :
    Fires (.uncorrectableError gran) (fun _ => True)
      (fun s => devPut (fun d => { d with ue := bump d.ue (levelOf gran) }) (granuleMarked gran s)) :=
  fun s _ => runM_gives ((granuleMarked_gives h s).bind devPut_gives)

theorem fires_corrected (level : Nat) :
    Fires (.correctedError level) (fun _ => level < 8) (devPut fun d => { d with ce := bump d.ce level }) :=
  fun _ h => runM_gives (Gives.guardThen (decide_eq_true h) devPut_gives)

/-! Writes of registers (R15) -/

theorem runM_get {f : State → M z Unit} : runM z (getS >>= f) = runM z (f z) := rfl

theorem runM_guard {b : Bool} {m : M z Unit} (h : b = true) : runM z (do guardS b; m) = runM z m := by
  subst h; rfl

/-- The registers of every function's view are served. -/
def RegistersUp (s : State) : Prop := s.boot.started = true ∧ s.boot.recovery = false

/-- The write of the view that holds an aligned offset above the mailbox. -/
def viewWrite (f o : Nat) (new cov : W64) : M z Unit :=
  if o < 0x100800 then writeTable f (o - 0x100000) new cov
  else if o < 0x200000 then writeOwn f o new cov
  else if f = 0 then writePhysical o new cov
  else pure ()

/-- Outside recovery a register above the mailbox is written in its view. -/
theorem registerWrite_runs {f off : Nat} {wide : Bool} {v : W64} {s : State} (h : RegistersUp s) (hf : f < 64)
    (lo : 0x100000 ≤ off) (hi : off < 0x4000000) (ha : off % (if wide then 8 else 4) = 0) :
    exec (.registerWrite f off wide v) s =
      runM s (viewWrite f (off / 8 * 8) (covered off wide (keptValue s f (off / 8 * 8)) v) (coverMask off wide)) := by
  obtain ⟨hs, hr⟩ := h
  have served : (s.boot.started && decide (f < 64) && decide (off < 0x4000000) && decide (off % (if wide then 8 else 4) = 0)) = true := by
    simp [hs, hf, hi, ha]
  have ho : 0x100000 ≤ off / 8 * 8 := by omega
  show runM s (do guardS _; w0Write f off wide v) = _
  rw [runM_guard served]
  unfold w0Write
  rw [runM_get]
  generalize off / 8 * 8 = o at ho
  have notNonce : (decide (0x1000 ≤ o) && decide (o < 0x1020)) = false := by
    simp only [Bool.and_eq_false_iff, decide_eq_false_iff_not]; omega
  have notMailbox : o ≠ 0x10 := by omega
  have inViews : ¬ o < 0x100000 := by omega
  simp only [notMailbox, notNonce, hr, inViews, if_false, Bool.false_eq_true]
  rfl

theorem registerWrite_wide {f off : Nat} {v : W64} {s : State} (h : RegistersUp s) (hf : f < 64) (lo : 0x100000 ≤ off)
    (hi : off < 0x4000000) (ha : off % 8 = 0) :
    exec (.registerWrite f off true v) s = runM s (viewWrite f off v (BitVec.allOnes 64)) := by
  have e := registerWrite_runs (wide := true) (v := v) h hf lo hi ha
  rwa [show off / 8 * 8 = off by omega] at e

/-- A register of a function's own view, above its request table. -/
def OwnOffset (off : Nat) : Prop := 0x100800 ≤ off ∧ off < 0x200000 ∧ off % 8 = 0

theorem viewWrite_own {f off : Nat} {new cov : W64} (h : OwnOffset off) :
    (viewWrite f off new cov : M z Unit) = writeOwn f off new cov := by
  obtain ⟨lo, hi, -⟩ := h
  unfold viewWrite
  rw [if_neg (by omega), if_pos hi]

theorem viewWrite_physical {off : Nat} {new cov : W64} (h : 0x200000 ≤ off) :
    (viewWrite 0 off new cov : M z Unit) = writePhysical off new cov := by
  unfold viewWrite
  rw [if_neg (by omega), if_neg (by omega), if_pos rfl]

/-- A whole write of a register that only keeps a field of its function. -/
theorem ownWrite_fires {f off : Nat} {v : W64} {g : Fn → Fn} (hf : f < 64) (ho : OwnOffset off)
    (k : ∀ s : State, Gives (z := s) (writeOwn f off v (BitVec.allOnes 64)) s () (fnPut f g s)) :
    Fires (.registerWrite f off true v) RegistersUp (fnPut f g) := by
  intro s h
  obtain ⟨lo, hi, ha⟩ := ho
  rw [registerWrite_wide h hf (by omega) (by omega) ha, viewWrite_own ⟨lo, hi, ha⟩]
  exact runM_gives (k s)

theorem fires_crcEvict (cl line : Nat) :
    Fires (.crcEvict cl line) (fun _ => True) (clusterPut cl fun c => { c with crc := SMap.del c.crc line }) :=
  fires (m := fun _ => modCluster cl fun c => { c with crc := SMap.del c.crc line }) (fun _ => rfl) fun _ _ => clusterPut_gives

theorem writeOwn_lcarg (f : Nat) (new cov : W64) (t : State) :
    Gives (z := z) (writeOwn f 0x100C38 new cov) t () (fnPut f (fun r => { r with lcarg := new }) t) :=
  Gives.getThen fnPut_gives

/-- A change of a function's registers counts only by what it makes of the ones the function has. -/
theorem fnPut_congr {f : Nat} {g g' : Fn → Fn} {t : State} (h : g (t.fn f) = g' (t.fn f)) : fnPut f g t = fnPut f g' t := by
  unfold fnPut
  rw [h]

/-- A write of half of LCARG, the other half of which keeps its value (R15). -/
theorem lcargHalf_fires {f off : Nat} {v : W64} (hf : f < 64) (ho : off / 8 * 8 = 0x100C38) (ha : off % 4 = 0) :
    Fires (.registerWrite f off false v) RegistersUp
      (fnPut f fun r => { r with lcarg := covered off false r.lcarg v }) := by
  intro s h
  rw [registerWrite_runs h hf (by omega) (by omega) ha, ho, kept_lcarg s f h.2,
    viewWrite_own ⟨by decide, by decide, by decide⟩]
  exact runM_gives ((writeOwn_lcarg f _ _ s).as (fnPut_congr rfl))

theorem hmaskWrite_fires {p i : Nat} {v : W64} (h1 : 1 ≤ p) (h7 : p ≤ 7) (hi : i < 7) :
    Fires (.registerWrite 0 (0x300000 + 0x40 * p + 8 * i) true v) RegistersUp (devPut fun d =>
      { d with hmaskShadow := SMap.put d.hmaskShadow (8 * p + i) (v &&& 0xFFFFFFFFFFFC0) }) := by
  intro s h
  rw [registerWrite_wide h (by decide) (by omega) (by omega) (by omega), viewWrite_physical (by omega)]
  have hp : (0x300000 + 0x40 * p + 8 * i - 0x300000) / 0x40 = p := by omega
  have hn : (0x300000 + 0x40 * p + 8 * i) / 8 % 8 = i := by omega
  have range : (decide (0x300000 ≤ 0x300000 + 0x40 * p + 8 * i) && decide (0x300000 + 0x40 * p + 8 * i < 0x300200)) = true := by
    simp only [Bool.and_eq_true, decide_eq_true_eq]; omega
  refine runM_gives ?_
  unfold writePhysical
  refine Gives.neg (by omega) (Gives.pos range ?_)
  unfold writePartition
  dsimp only
  rw [hp, hn]
  refine Gives.neg (by omega) (devPut_gives.as ?_)
  unfold devPut
  dsimp only
  rw [if_neg (by omega)]

/-- A whole write of MDZ's register. -/
theorem mdzWrite_runs {v : W64} {s : State} (h : RegistersUp s) :
    exec (.registerWrite 0 0x300328 true v) s = runM s (do
      modDev fun d => { d with mdzPages := v.extractLsb' 0 20 }
      if v.getLsbD 30 then startZeroing (v.extractLsb' 0 20)) := by
  rw [registerWrite_wide h (by decide) (by decide) (by decide) (by decide), viewWrite_physical (by decide)]
  unfold writePhysical
  simp only [BitVec.and_allOnes]
  rfl

theorem mdzWrite_idle_fires {v : W64} (hv : v.getLsbD 30 = false) :
    Fires (.registerWrite 0 0x300328 true v) RegistersUp (devPut fun d => { d with mdzPages := v.extractLsb' 0 20 }) := by
  intro s h
  rw [mdzWrite_runs h]
  exact runM_gives (devPut_gives.bind (Gives.neg (by rw [hv]; exact Bool.false_ne_true) (Gives.pure _ _)))

/-- GO acts in the write: PAGES is written first, and then again to the same. -/
theorem mdzWrite_go {v : W64} {s : State} (hv : v.getLsbD 30 = true) (h : RegistersUp s) :
    exec (.registerWrite 0 0x300328 true v) s = exec (.mdzGo (v.extractLsb' 0 20)) s := by
  rw [mdzWrite_runs h, hv]
  by_cases hz : s.home.zeroing = none
  · rw [fires_mdzGo _ s hz]
    exact runM_gives (devPut_gives.bind (Gives.getThen (devPut_gives.bind (Gives.pos (by exact Option.isNone_iff_eq_none.2 hz) homePut_gives))))
  · rw [fires_mdzGo_busy _ s hz]
    exact runM_gives (devPut_gives.bind (Gives.getThen (devPut_gives.bind (Gives.neg (by simpa using hz) (Gives.pure _ _)))))

/-- Settles O44: each event and each write runs as its lemma above says. -/
theorem deviceEvents : Obligations.DeviceEvents := by
  refine ⟨fires_hcommit, fires_hcommit_busy, fires_hcommitDone, fires_mdzGo, fires_mdzGo_busy, fires_mdzDone,
    fires_crcEvict, fires_l2Evict, fun _ => fires_uncorrectable, fires_corrected,
    fun _ _ _ h1 h7 hi => hmaskWrite_fires h1 h7 hi, fun _ => mdzWrite_idle_fires, fun _ _ hv h => mdzWrite_go hv h,
    fun f v hf => ?_⟩
  refine ⟨?_, ?_, ?_, ?_, ?_, ?_, ?_, ?_, ?_, lcargHalf_fires hf (by decide) (by decide), lcargHalf_fires hf (by decide) (by decide)⟩
  all_goals exact ownWrite_fires hf ⟨by decide, by decide, by decide⟩ fun _ => Gives.getThen fnPut_gives

end Sys2Proof.Machine
end

section
/-! O50: pre-emption, save, restore and migration. -/

namespace Sys2Proof.Machine

variable {z : State}

/-- The launch of a team keeps no journal. -/
def QuietLaunch (s : State) (tm : Team) : Prop := ∃ l, s.launch? tm.launch = some l ∧ l.journal = 0

theorem treatable_state {tm : Team} (h : treatable tm = true) :
    tm.core.isSome = true ∧ (tm.state = .running ∨ tm.state = .starved) ∧ tm.preempt = none := by
  simp only [treatable, Bool.and_eq_true, Bool.or_eq_true, beq_iff_eq, Option.isNone_iff_eq_none] at h
  exact ⟨h.1.1, h.1.2, h.2⟩

/-- A neighbourhood's wait, or none, is all that noting waits changes of a grid. -/
theorem noted_grid {s : State} {i : Nat} {gd : Grid} (h : s.grid? i = some gd) :
    ∃ b, (waitsNoted s).grid? i = some { gd with waits := b } := by
  unfold waitsNoted
  have key (l : SMap Grid) : ∀ t : State, (∃ b, t.grid? i = some { gd with waits := b }) →
      ∃ b, (l.foldl (fun t p => if findsNoPlace s p.1 p.2 then gridPut p.1 (fun gd => { gd with waits := true }) t else t) t).grid? i =
        some { gd with waits := b } := by
    induction l with
    | nil => exact fun t k => k
    | cons p l ih =>
      rintro t ⟨b, hb⟩
      refine ih _ ?_
      by_cases hp : findsNoPlace s p.1 p.2 = true
      · simp only [hp, if_true]
        by_cases hi : p.1 = i
        · subst hi
          exact ⟨true, SMap.get?_adjust_map (f := fun gd : Grid => { gd with waits := true }) (a := { gd with waits := b }) hb⟩
        · exact ⟨b, (SMap.get?_adjust_ne _ _ hi).trans hb⟩
      · simp only [hp]
        exact ⟨b, hb⟩
  exact key s.grids s ⟨gd.waits, h⟩

/-! Requests (R341) -/

theorem preemptRequest_fires {eid : Nat} {purpose : PreemptPurpose} {tm : Team} (hp : purpose ≠ .migrate) :
    Fires (.preemptRequest eid purpose)
      (fun s => s.team? eid = some tm ∧ QuietLaunch s tm ∧ together s eid = [eid] ∧ treatable tm = true)
      (fun s => teamPut eid (fun q => { q with preempt := some (treatment s eid tm) }) s) := by
  rintro s ⟨ht, ⟨l, hl, hj⟩, hs, hm⟩
  have treat : Gives (z := s) (do
      let t ← getTeam eid
      let ms := together s eid
      guardS (ms.all fun e => match s.team? e with | some m => treatable m || m.state == .done || m.state == .unwinding | none => true)
      guardS (treatable t)
      let k := treatment s eid t
      forEach ms fun e => do
        let m ← getTeam e
        if treatable m then
          if k = 1 then recordPreempt e 2 m.saves
          modTeam e fun t => { t with preempt := some k }) s ()
      (teamPut eid (fun q => { q with preempt := some (treatment s eid tm) }) s) := by
    refine (Gives.getTeam ht).bind ?_
    dsimp only
    rw [hs]
    refine Gives.guardThen (by simp [ht, hm]) (Gives.guardThen hm ?_)
    refine Gives.bind (a := ()) ((Gives.getTeam ht).bind (Gives.pos hm ?_)) (Gives.pure _ _)
    by_cases hk : treatment s eid tm = 1
    · exact Gives.pos hk ((recordPreempt_quiet ht hl hj).bind teamPut_gives)
    · exact Gives.neg hk teamPut_gives
  cases purpose with
  | migrate => exact absurd rfl hp
  | _ => exact runM_gives treat

/-! Saving and flushing (R342, R343) -/

theorem preemptSave_runs {s : State} {eid core slot : Nat} {tm : Team} {u : State} (ht : s.team? eid = some tm)
    (hq : QuietLaunch s tm) (hc : tm.core = some core) (hp : tm.preempt = some 0) (hr : tm.stop = .running)
    (hst : tm.state = .running ∨ tm.state = .starved) (hb : engineBusy s eid = false)
    (hd : ∀ g ∈ s.teamGroups eid, ∃ gr, s.group? g = some gr ∧ groupDrained gr = true) (hs : chooseSlot s tm.ctx = some slot)
    (image : Gives (z := s) (writeImage eid slot) (waitsNoted { s with free := s.free + 1 }) () u) (hg : u.groups = s.groups) :
    exec (.preemptSave eid) s = .next (ctxPut tm.ctx (fun c => { c with saveUsed := c.saveUsed ++ [slot] })
      (teamPut eid (fun q =>
        { q with state := .saved slot, core := none, preempt := none, saves := q.saves + 1, ov1 := slotOneKey s eid core })
        (groupsSaved (s.teamGroups eid) core u))) := by
  obtain ⟨l, hl, hj⟩ := hq
  obtain ⟨g, noted⟩ := noted_grids { s with free := s.free + 1 }
  have may : (tm.preempt == some 0 && tm.stop == .running && (tm.state == .running || tm.state == .starved) && !engineBusy s eid) = true := by
    rcases hst with h | h <;> simp [hp, hr, hb, h]
  have drained : ((s.teamGroups eid).all fun g => match s.group? g with | some gr => groupDrained gr | none => true) = true := by
    refine List.all_eq_true.2 fun g hgm => ?_
    obtain ⟨gr, e, d⟩ := hd g hgm
    rw [e]; exact d
  refine runM_gives (Gives.getThen ((Gives.getTeam ht).bind (Gives.needThen hc (Gives.guardThen may (Gives.guardThen drained
    (Gives.needThen hs (Gives.bind (Gives.mod _ _ _) ((waitsNoted_gives _).bind ?_))))))))
  refine Gives.bind (recordPreempt_quiet (tm := tm) (l := l) (by rw [noted]; exact ht) (by rw [noted]; exact hl) hj) (image.bind ?_)
  refine (groupsSaved_gives core _ u fun g hgm => ?_).bind (teamPut_gives.bind ctxPut_gives)
  obtain ⟨gr, e, -⟩ := hd g hgm
  exact ⟨gr, by unfold State.group?; rw [hg]; exact e⟩

/-- Nothing of a team's groups keeps a flush back: queued writes, messages, topups. -/
def MayFlush (s : State) (eid : Nat) : Prop :=
  ∀ g ∈ s.teamGroups eid, ∃ gr, s.group? g = some gr ∧ gr.sq = [] ∧ gr.outbox = [] ∧ ∀ d t a, gr.hold ≠ some (.topup d t a)

theorem teamFlush_runs {s : State} {eid : Nat} {tm : Team} {u : State} (ht : s.team? eid = some tm) (hp : tm.preempt = some 2)
    (hr : tm.stop = .running) (hst : tm.state = .running ∨ tm.state = .starved) (hc : tm.core.isSome = true)
    (hb : engineBusy s eid = false) (hf : MayFlush s eid)
    (ends : Gives (z := s) (endGroups (s.teamGroups eid)) (waitsNoted s) () u) :
    exec (.teamFlush eid) s = .next (teamPut eid (fun q =>
      { q.leaveCore with state := .notBegun, al := q.share, preempt := none, migrate := false, moving := false
                         pendingCost := none, charged := 0, barriers := [], took := [], stop := .running })
      { u with groups := (u.teamGroups eid).foldl SMap.del u.groups }) := by
  have may : (tm.preempt == some 2 && tm.stop == .running && (tm.state == .running || tm.state == .starved) && tm.core.isSome &&
      !engineBusy s eid) = true := by
    rcases hst with h | h <;> simp [hp, hr, hb, h, hc]
  refine runM_gives (Gives.getThen ((Gives.getTeam ht).bind (Gives.guardThen may (Gives.guardThen ?_
    ((waitsNoted_gives s).bind (ends.bind (Gives.bind (Gives.mod _ _ _) teamPut_gives)))))))
  refine List.all_eq_true.2 fun g hgm => ?_
  obtain ⟨gr, e, hsq, hout, hold⟩ := hf g hgm
  rw [e]
  dsimp only
  rw [hsq, hout]
  cases hh : gr.hold with
  | none => rfl
  | some k =>
    cases k with
    | topup d t a => exact absurd hh (hold d t a)
    | _ => rfl

/-! Restoring (R345) -/

theorem teamRestore_fires {eid core slot string : Nat} {tm : Team} {gd : Grid} :
    Fires (.teamRestore eid core)
      (fun s => s.team? eid = some tm ∧ QuietLaunch s tm ∧ s.grid? tm.grid = some gd ∧ gd.nbh = false ∧ tm.state = .saved slot ∧
        tm.ov1 = none ∧ (s.core core).tag0 = some (overlayKey s tm) ∧
        chooseCore (waitsNoted s) tm gd (if tm.moving then hot s else fun _ => false) (restoreFree (waitsNoted s) eid tm) =
          some (string, core))
      (fun s => waitsNoted (restored eid core slot tm
        (if tm.moving then waitsNoted s else gridPut tm.grid (fun gd => { gd with string := some string }) (waitsNoted s)))) := by
  rintro s ⟨ht, ⟨l, hl, hj⟩, hg, hn, hst, ho, hk, hc⟩
  obtain ⟨gs, noted⟩ := noted_grids s
  obtain ⟨b, hg'⟩ := noted_grid hg
  have ht' : (waitsNoted s).team? eid = some tm := by rw [noted]; exact ht
  have saved : isSaved (waitsNoted s) eid = true := by unfold isSaved; rw [ht']; dsimp only; rw [hst]
  have hc' : chooseCore (waitsNoted s) tm { gd with waits := b } (if tm.moving then hot (waitsNoted s) else fun _ => false)
      (restoreFree (waitsNoted s) eid tm) = some (string, core) := by
    refine Eq.trans ?_ hc
    rw [noted]
    rfl
  refine runM_gives ((waitsNoted_gives s).bind (Gives.getThen ((Gives.getTeam ht').bind ((Gives.getGrid hg').bind
    (Gives.guardThen saved ?_)))))
  refine Gives.neg (by simp [hn]) (Gives.needThen hc' (Gives.guardThen (by simp) ?_))
  have hl' : (waitsNoted s).launch? tm.launch = some l := by rw [noted]; exact hl
  have hk' : ((waitsNoted s).core core).tag0 = some (overlayKey (waitsNoted s) tm) := by rw [noted]; exact hk
  dsimp only
  by_cases hm : tm.moving = true
  · rw [if_pos hm]
    exact Gives.neg (by simp [hm]) ((restoreOn_gives ht' hl' hj hst ho hk').bind (waitsNoted_gives _))
  · rw [if_neg hm]
    exact Gives.pos (by simp [hm]) (gridPut_gives.bind ((restoreOn_gives (by exact ht') (by exact hl') hj hst ho (by exact hk')).bind (waitsNoted_gives _)))

/-! Migration (R332, R387) -/

/-- A team that migrates may: alone on its core, treatable. -/
def MayMigrate (s : State) (eid : Nat) (tm : Team) (c : Nat) (gd : Grid) : Prop :=
  s.team? eid = some tm ∧ tm.core = some c ∧ s.grid? tm.grid = some gd ∧ gd.nbh = false ∧ treatable tm = true

/-- A core off the hot clusters and a slot that is promised to no other team. -/
def RoomToMove (s : State) (tm : Team) (gd : Grid) : Prop :=
  (chooseCore s tm gd (hot s) fun _ => true).isSome = true ∧ openSlots s tm.ctx ≠ 0

def migrationAsked (eid : Nat) : State → State := teamPut eid fun q => { q with migrate := true }

def migrationBegun (eid : Nat) : State → State := teamPut eid fun q => { q with preempt := some 0, migrate := false, moving := true }

section Proceeds

variable {eid c : Nat} {t : State} {tm : Team} {gd : Grid}

/-- A request waits on where the team finds no room. -/
theorem proceedNoRoom_gives (ht : t.team? eid = some tm) (hc : tm.core = some c) (hg : t.grid? tm.grid = some gd)
    (hr : residentLong t tm = true) (hh : hot t (coreCluster c) = true) (hn : ¬RoomToMove t tm gd) :
    Gives (z := z) (proceedMigration eid) t () t := by
  refine Gives.getThen ((Gives.getTeam ht).bind ((Gives.getGrid hg).bind ?_))
  rw [hc]
  refine Gives.neg (by simp [hr]) (Gives.neg (by simp [hh]) (Gives.pos ?_ (Gives.pure _ _)))
  unfold RoomToMove at hn
  cases h : chooseCore t tm gd (hot t) fun _ => true with
  | none => rfl
  | some r => simpa [h] using hn

/-- A request is withdrawn where the cluster is hot no more. -/
theorem proceedCool_gives (ht : t.team? eid = some tm) (hc : tm.core = some c) (hg : t.grid? tm.grid = some gd)
    (hr : residentLong t tm = true) (hh : hot t (coreCluster c) = false) :
    Gives (z := z) (proceedMigration eid) t () (teamPut eid (fun q => { q with migrate := false }) t) := by
  refine Gives.getThen ((Gives.getTeam ht).bind ((Gives.getGrid hg).bind ?_))
  rw [hc]
  exact Gives.neg (by simp [hr]) (Gives.pos (by simp [hh]) teamPut_gives)

end Proceeds

/-- A request of a team on a hot cluster is noted, and what it comes to is looked at. -/
theorem migrationRequest_runs {s u : State} {eid c : Nat} {tm : Team} {gd : Grid} (h : MayMigrate s eid tm c gd)
    (hm : tm.migrate = false) (hh : hot s (coreCluster c) = true)
    (k : Gives (z := s) (proceedMigration eid) (migrationAsked eid s) () u) : exec (.migrationRequest eid) s = .next u := by
  obtain ⟨ht, hc, hg, hn, htr⟩ := h
  refine runM_gives (Gives.getThen ((Gives.getTeam ht).bind (Gives.needThen hc (Gives.guardThen ?_ (teamPut_gives.bind k)))))
  rw [htr, nbh_off ht hg hn, hm, hh]
  rfl

theorem migrationRequest_waits {eid c : Nat} {tm : Team} {gd : Grid} :
    Fires (.migrationRequest eid)
      (fun s => MayMigrate s eid tm c gd ∧ tm.migrate = false ∧ hot s (coreCluster c) = true ∧
        (residentLong s tm = false ∨ ¬RoomToMove (migrationAsked eid s) { tm with migrate := true } gd))
      (migrationAsked eid) := by
  rintro s ⟨h, hm, hh, hw⟩
  refine migrationRequest_runs h hm hh ?_
  obtain ⟨ht, hc, hg, -, -⟩ := h
  have ht' : (migrationAsked eid s).team? eid = some { tm with migrate := true } := team_put ht
  rcases Bool.eq_false_or_eq_true (residentLong s tm) with long | short
  · exact proceedNoRoom_gives ht' hc hg long hh (hw.resolve_left (by simp [long]))
  · exact proceedShort_gives ht' hc hg short

theorem migrationRequest_proceeds {eid c : Nat} {tm : Team} {gd : Grid} :
    Fires (.migrationRequest eid)
      (fun s => MayMigrate s eid tm c gd ∧ tm.migrate = false ∧ hot s (coreCluster c) = true ∧ residentLong s tm = true ∧
        RoomToMove (migrationAsked eid s) { tm with migrate := true } gd)
      (fun s => migrationBegun eid (migrationAsked eid s)) := by
  rintro s ⟨h, hm, hh, long, room, slots⟩
  refine migrationRequest_runs h hm hh ?_
  obtain ⟨ht, hc, hg, -, -⟩ := h
  have ht' : (migrationAsked eid s).team? eid = some { tm with migrate := true } := team_put ht
  exact proceed_gives ht' hc hg long hh room slots

/-- A waiting request of a team that has been resident long enough is looked at again. -/
theorem residencyReached_runs {s u : State} {eid c : Nat} {tm : Team} {gd : Grid} (h : MayMigrate s eid tm c gd)
    (hm : tm.migrate = true) (hr : residentLong s tm = true) (k : Gives (z := s) (proceedMigration eid) s () u) :
    exec (.migrationResidencyReached eid) s = .next u := by
  obtain ⟨ht, -, -, -, htr⟩ := h
  refine runM_gives ((Gives.getTeam ht).bind (Gives.guardThen ?_ k))
  rw [hm, htr, hr]
  rfl

/-- Settles O50: each event runs as its lemma above says; a migration by what `proceedMigration` comes to. -/
theorem preemptionEvents : Obligations.PreemptionEvents := by
  refine ⟨fun eid purpose tm hp => preemptRequest_fires hp, fun _ _ => rfl, ?_, ?_, fun _ _ _ _ _ _ => teamRestore_fires, ?_⟩
  · exact fun s eid tm core slot u ht hq hc hp hr hst hb hd hs image hg => preemptSave_runs ht hq hc hp hr hst hb hd hs image hg
  · exact fun s eid tm u ht hp hr hst hc hb hf ends => teamFlush_runs ht hp hr hst hc hb hf ends
  · refine ⟨fun _ _ _ _ => migrationRequest_waits, fun _ _ _ _ => migrationRequest_proceeds, ?_, ?_, ?_⟩
    · rintro eid c tm gd s ⟨h, hm, hr, hh⟩
      have ⟨ht, hc, hg, _⟩ := h
      exact residencyReached_runs h hm hr (proceedCool_gives ht hc hg hr hh)
    · rintro eid c tm gd s ⟨h, hm, hr, hh, hn⟩
      have ⟨ht, hc, hg, _⟩ := h
      exact residencyReached_runs h hm hr (proceedNoRoom_gives ht hc hg hr hh hn)
    · rintro eid c tm gd s ⟨h, hm, hr, hh, room, slots⟩
      have ⟨ht, hc, hg, _⟩ := h
      exact residencyReached_runs h hm hr (proceed_gives ht hc hg hr hh room slots)

end Sys2Proof.Machine
end

section
/-! O54: boot, the watchdog, attestation, the host's window and a peer's requests. -/

namespace Sys2Proof.Machine

variable {z : State}

/-! Boot, the watchdog, attestation and links (R370 to R375) -/

theorem powerOn_fires : Fires .powerOn (fun s => s.boot.started = false)
    (fun s => bootPut (fun b => { b with started := true, lastReport := s.timer }) s) :=
  fun _ h => runM_gives (Gives.guardThen (by rw [h]; rfl) bootPut_gives)

theorem firmwareReport_fires :
    Fires .firmwareReport (fun s => 1 ≤ s.boot.stage ∧ s.boot.recovery = false ∧ s.timer < s.boot.lastReport + 100000)
      (fun s => bootPut (fun b => { b with lastReport := s.timer }) s) := by
  rintro s ⟨stage, recovery, inTime⟩
  exact runM_gives (Gives.guardThen (by simp [stage, recovery, inTime]) bootPut_gives)

theorem watchdogExpire_fires :
    Fires .watchdogExpire (fun s => 1 ≤ s.boot.stage ∧ s.boot.recovery = false ∧ s.boot.lastReport + 100000 ≤ s.timer)
      (fun s => bootFailed 6 0 (bootPut (fun b => { b with recovery := true }) (complexReset s))) := by
  rintro s ⟨stage, recovery, late⟩
  refine runM_gives (Gives.guardThen (by simp [stage, recovery, late]) ?_)
  exact Gives.bind (Gives.mod complexReset _ s) (bootPut_gives.bind setBootErr_gives)

theorem bootImageCheck_fires (i : BootImage) :
    Fires (.bootImageCheck i)
      (fun s => s.boot.started = true ∧ s.boot.recovery = false ∧ s.boot.stage < 4 ∧ i.index = s.boot.stage + 1)
      (fun s => if imageCode s.fuses i = 0 then
          imageReleased i (bootPut (fun b =>
            { b.measure i with stage := b.stage + 1, lastReport := if i.index = 1 then s.timer else b.lastReport }) s)
        else bootFailed (imageCode s.fuses i) i.index (bootPut (fun b => { b with recovery := true }) s)) := by
  rintro s ⟨started, recovery, stage, next⟩
  refine runM_gives (Gives.guardThen (by simp [started, recovery, stage, next]) ?_)
  by_cases good : imageCode s.fuses i = 0
  · exact (Gives.pos good (bootPut_gives.bind bringUp_gives)).as (if_pos good).symm
  · exact (Gives.neg good (bootPut_gives.bind setBootErr_gives)).as (if_neg good).symm

theorem recoveryReload_fires (i : BootImage) :
    Fires (.recoveryReload i)
      (fun s => s.boot.started = true ∧ s.boot.recovery = true ∧ i.index = if s.boot.failImg = 0 then 1 else s.boot.failImg)
      (fun s => if imageCode s.fuses i = 0 then
          imageReleased i (bootFailed 0 0
            (bootPut (fun b => { b.measure i with recovery := false, stage := max b.stage i.index, lastReport := s.timer }) s))
        else bootFailed (imageCode s.fuses i) i.index s) := by
  rintro s ⟨started, recovery, which⟩
  refine runM_gives (Gives.guardThen (by simp [started, recovery, which]) ?_)
  by_cases good : imageCode s.fuses i = 0
  · exact (Gives.pos good (bootPut_gives.bind (setBootErr_gives.bind bringUp_gives))).as (if_pos good).symm
  · exact (Gives.neg good setBootErr_gives).as (if_neg good).symm

theorem attestationRequest_fires : Fires .attestationRequest (fun s => s.boot.started = true)
    (fun s => bootPut (fun b => { b with report := attestation s.fuses b, reported := true }) s) :=
  fun _ h => runM_gives (Gives.getThen (Gives.pos h bootPut_gives))

theorem linkDown_fires (port : Nat) : Fires (.linkDown port) (fun s => port < 12 ∧ NSet.has s.dev.portsDown port = false)
    (fun s => errorsRaised (devPut (fun d => { d with portsDown := NSet.add d.portsDown port }) s)) := by
  rintro s ⟨known, up⟩
  exact runM_gives (Gives.guardThen (by simp [known, up]) (devPut_gives.bind errorsRaised_gives))

/-! The host and the peers as parties to memory (R127) -/

theorem outsideWho_gives (id : Nat) (t : State) : Gives (z := z) (outsideWho id) t (outsideAt id t) (numberTaken t) :=
  (freshId_gives t).bind (Gives.getThen (Gives.pure _ _))

theorem outsideRead_gives {w : Who} {pa n : Nat} {t : State} (r : Room t pa n) (c : Clean t w pa n false) :
    Gives (z := z) (outsideRead w pa n) t (memBytes t pa n) (outsideSaw w pa n t) :=
  (hsRead_gives r c).bind (Gives.getThen (homePut_gives.bind (Gives.pure _ _)))

/-- Taking a number leaves memory alone. -/
theorem memBytes_numberTaken (t : State) (pa n : Nat) : memBytes (numberTaken t) pa n = memBytes t pa n := 
  memBytes_congr (t := t) (u := numberTaken t) rfl pa n

/-- Taking a number changes no register. -/
theorem w0ReadBytes_numberTaken (t : State) (f off n : Nat) : w0ReadBytes (numberTaken t) f off n = w0ReadBytes t f off n := rfl

/-- A party that takes the number of its access reads the bytes that stood there before. -/
theorem outsideRead_numbered {w : Who} {pa n : Nat} {t : State} (r : Room t pa n) (c : Clean t w pa n false) :
    Gives (z := z) (outsideRead w pa n) (numberTaken t) (memBytes t pa n) (outsideSaw w pa n (numberTaken t)) := by
  rw [← memBytes_numberTaken]
  exact outsideRead_gives r c

/-! The host's window (R369) -/

section Window

variable {w : Who} {pa n : Nat} {bytes : List Byte} {t : State}

theorem w1Load_memory (plain : paRange pa ≠ .control) (data : inMetadata t pa = false) (r : Room t pa n) (c : Clean t w pa n false) :
    Gives (z := z) (w1Load w pa n) (numberTaken t) (memBytes t pa n) (outsideSaw w pa n (numberTaken t)) := by
  refine Gives.getThen ?_
  split
  · next h => exact absurd h plain
  · exact Gives.neg (by rw [show inMetadata (numberTaken t) pa = false from data]; exact Bool.false_ne_true) (outsideRead_numbered r c)

theorem w1Load_metadata (plain : paRange pa ≠ .control) (inside : inMetadata t pa = true) :
    Gives (z := z) (w1Load w pa n) t ((List.range n).map fun i => metaByte t (pa + i)) t := by
  refine Gives.getThen ?_
  split
  · next h => exact absurd h plain
  · exact Gives.pos inside (Gives.pure _ _)

theorem w1Load_control (control : paRange pa = .control) :
    Gives (z := z) (w1Load w pa n) (numberTaken t) (natBytes (w0ReadBytes t 0 (pa - 0x8000000000) n) n) (numberTaken t) := by
  refine Gives.getThen ?_
  rw [control, ← w0ReadBytes_numberTaken t]
  exact Gives.pure _ _

theorem w1Store_memory (plain : paRange pa ≠ .control) (data : inMetadata t pa = false) (r : Room t pa bytes.length)
    (c : Clean t w pa bytes.length true) : Gives (z := z) (w1Store w pa bytes) t () (written w pa bytes t) := by
  refine Gives.getThen ?_
  split
  · next h => exact absurd h plain
  · exact Gives.neg (by simp [data]) (hsWrite_gives r c)

theorem w1Store_metadata (plain : paRange pa ≠ .control) (inside : inMetadata t pa = true) :
    Gives (z := z) (w1Store w pa bytes) t () t := by
  refine Gives.getThen ?_
  split
  · next h => exact absurd h plain
  · exact Gives.pos inside (Gives.pure _ _)

theorem w1Store_control (control : paRange pa = .control) :
    Gives (z := z) (w1Store w pa bytes) t ()
      { t with moves := .regWrite 0 (pa - 0x8000000000) (bytes.length = 8) (BitVec.ofNat 64 (bytesNat bytes)) :: t.moves } := by
  refine Gives.getThen ?_
  rw [control]
  exact Gives.mod _ _ _

end Window

/-- The device takes an access of the host: its slices work, and the access stays in a line of the window. -/
def W1Admits (s : State) (f link off n : Nat) : Prop :=
  2 ≤ s.boot.stage ∧ f < 64 ∧ link < 2 ∧ 1 ≤ n ∧ off % 64 + n ≤ 64 ∧ off + n ≤ w1Bytes f

/-- An access of the host that need not wait, and the place it reaches. -/
def W1Reaches (s : State) (f link off n pa : Nat) : Prop :=
  W1Admits s f link off n ∧ w1Address s f off n = some pa ∧ sysWaits s { lane := 0, va := 0, pa := pa } = false

theorem W1Admits.guard {s : State} {f link off n : Nat} (h : W1Admits s f link off n) :
    (decide (2 ≤ s.boot.stage) && decide (f < 64) && decide (link < 2) && decide (1 ≤ n) && decide (off % 64 + n ≤ 64) &&
      decide (off + n ≤ w1Bytes f)) = true := by
  obtain ⟨h1, h2, h3, h4, h5, h6⟩ := h
  simp [h1, h2, h3, h4, h5, h6]

section Access

variable {f link off pa : Nat} {bytes : List Byte} {s u : State}

/-- The host reads what `w1Load` gives it. -/
theorem w1Read_runs {v : List Byte} (h : W1Reaches s f link off bytes.length pa)
    (k : Gives (z := s) (w1Load (outsideAt (2 ^ 42 + link) s) pa bytes.length) (numberTaken s) v u) :
    exec (.hostW1Access f link false off bytes) s = .next (fnPut f (fun r => { r with w1data := v }) u) := by
  obtain ⟨admits, reached, free⟩ := h
  refine runM_gives (Gives.guardThen admits.guard ?_)
  rw [reached]
  refine Gives.guardThen (by rw [free]; rfl) ((outsideWho_gives _ s).bind ?_)
  exact Gives.neg Bool.false_ne_true (k.bind fnPut_gives)

/-- The host's write does what `w1Store` does. -/
theorem w1Write_runs (h : W1Reaches s f link off bytes.length pa)
    (k : Gives (z := s) (w1Store (outsideAt (2 ^ 42 + link) s) pa bytes) (numberTaken s) () u) :
    exec (.hostW1Access f link true off bytes) s = .next u := by
  obtain ⟨admits, reached, free⟩ := h
  refine runM_gives (Gives.guardThen admits.guard ?_)
  rw [reached]
  exact Gives.guardThen (by rw [free]; rfl) ((outsideWho_gives _ s).bind (Gives.pos rfl k))

theorem w1Read_beyond (h : W1Admits s f link off bytes.length) (none : w1Address s f off bytes.length = none) :
    exec (.hostW1Access f link false off bytes) s =
      .next (fnPut f (fun r => { r with w1data := List.replicate bytes.length 0xFF }) s) := by
  refine runM_gives (Gives.guardThen h.guard ?_)
  rw [none]
  exact Gives.neg Bool.false_ne_true fnPut_gives

theorem w1Write_beyond (h : W1Admits s f link off bytes.length) (none : w1Address s f off bytes.length = none) :
    exec (.hostW1Access f link true off bytes) s = .next s := by
  refine runM_gives (Gives.guardThen h.guard ?_)
  rw [none]
  exact Gives.pos rfl (Gives.pure _ _)

end Access

/-! A peer's request (R376, R378) -/

/-- The request is one the port takes, and the endpoints it is looked up among can be read. -/
def PeerAsks (s : State) (port : Nat) (r : PeerAccess) : Prop :=
  3 ≤ s.boot.stage ∧ s.boot.recovery = false ∧ port < 12 ∧ NSet.has s.dev.portsDown port = false ∧ r.op < 4 ∧
    r.len = (if r.op = 3 then 8 else 4) ∧ r.va.toNat % r.len = 0 ∧
    ∀ i < (s.fn r.fn).lkcnt.toNat, paBlocked s ((s.fn r.fn).lkbase.toNat + 16 * i) = false

theorem peerAnswered_gives {r : PeerAccess} {data : Option (List Byte)} {poison : Bool} {t : State} :
    Gives (z := z) (answerPeer r.dev data poison) t () (peerAnswered r data poison t) := linkOut_gives

theorem awaitEndpoints_gives {f : Nat} {t : State}
    (h : ∀ i < (t.fn f).lkcnt.toNat, paBlocked t ((t.fn f).lkbase.toNat + 16 * i) = false) :
    Gives (z := z) (awaitEndpoints f) t () t := by
  refine Gives.getThen (Gives.guard (List.all_eq_true.2 fun i hi => ?_) t)
  rw [h i (List.mem_range.1 hi)]
  rfl

/-- Poison that a request brings moves to the sector of its element. -/
theorem poisonAnswered_gives {r : PeerAccess} {pa : Nat} {t : State} :
    Gives (z := z) (do
      if r.poison then poisonSector pa
      answerPeer r.dev (some [])) t ()
      (peerAnswered r (some []) false
        (if r.poison then homePut (fun h => { h with poison := PSet.add h.poison (pa / 32) }) t else t)) := by
  by_cases bad : r.poison = true
  · exact (Gives.pos bad (homePut_gives.bind peerAnswered_gives)).as (by rw [if_pos bad])
  · exact (Gives.neg bad peerAnswered_gives).as (by rw [if_neg bad])

/-- What the write of a peer's element leaves beside its bytes. -/
theorem peerWritten_gives {w : Who} {r : PeerAccess} {a : LaneAcc} {bs : List Byte} {t : State} (room : Room t a.pa bs.length)
    (c : Clean t w a.pa bs.length true) :
    Gives (z := z) (do
      hsWrite w a.pa bs
      if a.chk then metaWrite a.pa none
      if r.poison then poisonSector a.pa
      answerPeer r.dev (some [])) t () (peerAnswered r (some []) false (peerWritten w r a bs t)) := by
  refine (hsWrite_gives room c).bind ?_
  by_cases checked : a.chk = true
  · exact (Gives.pos checked (homePut_gives.bind poisonAnswered_gives)).as (by simp only [peerWritten, checked, if_true])
  · exact (Gives.neg checked poisonAnswered_gives).as (by simp only [peerWritten, checked, if_false, Bool.false_eq_true])

/-- After a party's read of a place, a write of it has room and meets no more accesses than before. -/
theorem outsideSaw_room (w : Who) (pa n : Nat) (t : State) : Room (outsideSaw w pa n t) pa n := readAt_room (who := w) t

theorem outsideSaw_clean {w : Who} {pa n : Nat} {t : State} (c : Clean t w pa n true) : Clean (outsideSaw w pa n t) w pa n true :=
  (clean_seen (c.congr ((brought_past _ _).trans (brought_past _ _)))).congr rfl

section Peer

variable {port : Nat} {r : PeerAccess} {s u v : State} {a : LaneAcc} {c : CtxRec}

/-- The value that an element of `r` comes to hold, from the bytes it holds. -/
def peerBytes (r : PeerAccess) (old : List Byte) : List Byte :=
  natBytes (peerValue r.op (bytesNat old) (bytesNat (r.bytes.take r.len))) r.len

theorem peerBytes_length (r : PeerAccess) (old : List Byte) : (peerBytes r old).length = r.len := natBytes_length _ _

/-- A request that a port takes goes on to its endpoints. -/
theorem peerRequest_runs (h : PeerAsks s port r)
    (k : Gives (z := s) (if admitsPeer s r then do
        awaitCtxRec r.fn r.tctx
        match liveCtx s r.fn r.tctx with
        | none => answerPeer r.dev none
        | some c => do
          match ← sysXlate (r.fn * 65536 + r.tctx) c (peerKind r.op) r.va with
          | .error _ => answerPeer r.dev none
          | .ok a => servePeer r a
      else answerPeer r.dev none) s () v) : exec (.peerRequest port r) s = .next v := by
  obtain ⟨stage, recovery, known, up, op, len, aligned, free⟩ := h
  exact runM_gives (Gives.guardThen (by simp [stage, recovery, known, up, op, ← len, aligned]) ((awaitEndpoints_gives free).bind k))

/-- A peer that no endpoint lets in is refused. -/
theorem peerRequest_refused (h : PeerAsks s port r) (refused : admitsPeer s r = false) :
    exec (.peerRequest port r) s = .next (peerAnswered r none false s) :=
  peerRequest_runs h (Gives.neg (by simp [refused]) peerAnswered_gives)

/-- So is one that names a context that is not live. -/
theorem peerRequest_dead (h : PeerAsks s port r) (admitted : admitsPeer s r = true) (free : paBlocked s (ctxRecAt s r.fn r.tctx) = false)
    (dead : liveCtx s r.fn r.tctx = none) : exec (.peerRequest port r) s = .next (peerAnswered r none false s) := by
  refine peerRequest_runs h (Gives.pos admitted (Gives.bind (Gives.getThen (Gives.guard (by rw [free]; rfl) s)) ?_))
  rw [dead]
  exact peerAnswered_gives

/-- A request whose address translates acts on its element. -/
def PeerReaches (s : State) (port : Nat) (r : PeerAccess) (a : LaneAcc) (u : State) : Prop :=
  PeerAsks s port r ∧ admitsPeer s r = true ∧ paBlocked s (ctxRecAt s r.fn r.tctx) = false ∧ SysRoom u a r.len ∧
    ∃ c, liveCtx s r.fn r.tctx = some c ∧
      Gives (z := s) (sysXlate (r.fn * 65536 + r.tctx) c (peerKind r.op) r.va) s (.ok a) u

theorem peerRequest_served (h : PeerReaches s port r a u) (k : Gives (z := s) (servePeer r a) u () v) :
    exec (.peerRequest port r) s = .next v := by
  obtain ⟨asks, admitted, free, -, c, live, translated⟩ := h
  refine peerRequest_runs asks (Gives.pos admitted (Gives.bind (Gives.getThen (Gives.guard (by rw [free]; rfl) s)) ?_))
  rw [live]
  exact translated.bind k

/-- A GET answers the bytes, with their poison. -/
theorem servePeer_get (op : r.op = 1) (h : SysRoom u a r.len) (clean : Clean u (outsideAt (2 ^ 41 + r.dev) u) a.pa r.len false) :
    Gives (z := s) (servePeer r a) u () (peerAnswered r (some (memBytes u a.pa r.len)) (sectorPoison u a.pa r.len)
      (outsideSaw (outsideAt (2 ^ 41 + r.dev) u) a.pa r.len (numberTaken u))) := by
  obtain ⟨free, room⟩ := h
  refine Gives.getThen (Gives.guardThen (by rw [free]; rfl) ((outsideWho_gives _ u).bind (Gives.getThen (Gives.pos op ?_))))
  exact (outsideRead_numbered room clean).bind peerAnswered_gives

/-- A PUT writes the bytes it brings. -/
theorem servePeer_put (op : r.op = 0) (h : SysRoom u a r.len) (clean : Clean u (outsideAt (2 ^ 41 + r.dev) u) a.pa r.len true) :
    Gives (z := s) (servePeer r a) u ()
      (peerAnswered r (some []) false (peerWritten (outsideAt (2 ^ 41 + r.dev) u) r a (peerBytes r []) (numberTaken u))) := by
  obtain ⟨free, room⟩ := h
  refine Gives.getThen (Gives.guardThen (by rw [free]; rfl) ((outsideWho_gives _ u).bind (Gives.getThen (Gives.neg (by omega) ?_))))
  refine Gives.bind (Gives.pos op (Gives.pure [] _)) (peerWritten_gives ?_ ?_)
  · exact (peerBytes_length r []).symm ▸ room
  · exact (peerBytes_length r []).symm ▸ clean

/-- An ADD reads its element and writes the sum. -/
theorem servePeer_add (op : 2 ≤ r.op) (h : SysRoom u a r.len) (clean : Clean u (outsideAt (2 ^ 41 + r.dev) u) a.pa r.len true) :
    Gives (z := s) (servePeer r a) u ()
      (peerAnswered r (some []) false (peerWritten (outsideAt (2 ^ 41 + r.dev) u) r a (peerBytes r (memBytes u a.pa r.len))
        (outsideSaw (outsideAt (2 ^ 41 + r.dev) u) a.pa r.len (numberTaken u)))) := by
  obtain ⟨free, room⟩ := h
  refine Gives.getThen (Gives.guardThen (by rw [free]; rfl) ((outsideWho_gives _ u).bind (Gives.getThen (Gives.neg (by omega) ?_))))
  refine Gives.bind (Gives.neg (by omega) (outsideRead_numbered room clean.reads)) (peerWritten_gives ?_ ?_)
  · exact (peerBytes_length r _).symm ▸ outsideSaw_room _ _ _ _
  · exact (peerBytes_length r _).symm ▸ outsideSaw_clean clean

end Peer

/-- Settles O54: each event runs as its lemma above says; an access of the host by what it reaches, a peer's request by how it
fares. -/
theorem bootEvents : Obligations.BootEvents := by
  refine ⟨powerOn_fires, bootImageCheck_fires, firmwareReport_fires, watchdogExpire_fires, recoveryReload_fires,
    attestationRequest_fires, ⟨?_, ?_, ?_, ?_, ?_, ?_, ?_, ?_⟩, ⟨?_, ?_, ?_, ?_, ?_⟩, linkDown_fires⟩
  · rintro f link off bytes pa s ⟨reached, ⟨plain, data⟩, room, clean⟩
    exact w1Read_runs reached (w1Load_memory plain data room clean)
  · rintro f link off bytes pa s ⟨reached, ⟨plain, data⟩, room, clean⟩
    exact w1Write_runs reached (w1Store_memory plain data room clean)
  · rintro f link off bytes pa s ⟨reached, control⟩
    exact w1Read_runs reached (w1Load_control control)
  · rintro f link off bytes pa s ⟨reached, control⟩
    exact w1Write_runs reached (w1Store_control control)
  · rintro f link off bytes pa s ⟨reached, plain, inside⟩
    exact w1Read_runs reached (w1Load_metadata plain inside)
  · rintro f link off bytes pa s ⟨reached, plain, inside⟩
    exact w1Write_runs reached (w1Store_metadata plain inside)
  · exact fun f link off bytes s h => w1Read_beyond h.1 h.2
  · exact fun f link off bytes s h => w1Write_beyond h.1 h.2
  · exact fun s port r a u h op clean => peerRequest_served h (servePeer_get op h.2.2.2.1 clean)
  · exact fun s port r a u h op clean => peerRequest_served h (servePeer_put op h.2.2.2.1 clean)
  · exact fun s port r a u h op clean => peerRequest_served h (servePeer_add op h.2.2.2.1 clean)
  · exact fun port r s h => peerRequest_refused h.1 h.2
  · exact fun port r s ⟨asks, admitted, free, dead⟩ => peerRequest_dead asks admitted free dead

end Sys2Proof.Machine
end

section
/-! O41: sensors, power states, the Sluice, clocks, gating and DRAM refresh. -/

namespace Sys2Proof.Machine

variable {z : State}

/-- A change of one constraint bit in every cluster of a string. -/
theorem stringConstrained_gives (i : Nat) (f : Cluster → Cluster) (t : State) :
    Gives (z := z) (forEach [0, 1, 2, 3] fun k => setConstraint (4 * i + k) f) t () (tilesPut i (fun cl => constrainedAs cl f) t) :=
  tilesPut_gives (f := fun cl => setConstraint cl f) (fun t cl => constrainedAs_gives cl f t) t

/-! Sensors and power states (R358 to R360) -/

theorem dieTempChange_fires (cl : Nat) (temp : Int) : Fires (.dieTempChange cl temp) (fun _ => cl < 128)
    (fun s => thermSet cl (clusterPut cl (fun c => { c with dieTemp := temp }) s)) :=
  fun _ h => runM_gives (Gives.guardThen (decide_eq_true h) (clusterPut_gives.bind (thermSet_gives _ _)))

theorem pkgCurrentHigh_fires : Fires .pkgCurrentHigh (fun _ => True)
    (fun s => allClusters.foldl (fun t cl => constrainedAs cl (fun c => { c with pkg := true }) t) s) :=
  fun s _ => runM_gives (forEach_fold (fun t cl => constrainedAs_gives cl _ t) _ s)

theorem pkgCurrentLow_fires : Fires .pkgCurrentLow (fun _ => True)
    (fun s => allClusters.foldl (fun t cl => constrainedAs cl (fun c => { c with pkg := false }) t) s) :=
  fun s _ => runM_gives (forEach_fold (fun t cl => constrainedAs_gives cl _ t) _ s)

theorem reactionWindowEnd_fires (cl w : Nat) : Fires (.reactionWindowEnd cl)
    (fun s => (s.cluster cl).windowStart = some w ∧ (s.cluster cl).constrained = true ∧
      w + 10 * setClock s cl ≤ (s.cluster cl).cyc)
    (clusterPut cl fun c => { c with windowStart := none, zeroSince := none, skip := true }) := by
  rintro s ⟨started, constrained, due⟩
  exact runM_gives (Gives.needThen started (Gives.guardThen (by simp [constrained, due]) clusterPut_gives))

theorem skipEnd_fires (cl q : Nat) : Fires (.skipEnd cl)
    (fun s => (s.cluster cl).zeroSince = some q ∧ (s.cluster cl).skip = true ∧ (s.cluster cl).constrained = false ∧
      q + 10 * setClock s cl ≤ (s.cluster cl).cyc)
    (clusterPut cl fun c => { c with skip := false, zeroSince := none }) := by
  rintro s ⟨quiet, skip, free, due⟩
  exact runM_gives (Gives.needThen quiet (Gives.guardThen (by simp [skip, free, due]) clusterPut_gives))

/-! DRAM layers and ranks (R56, R57, R360) -/

theorem dramEmergency_fires (layer : Nat) :
    Fires (.dramEmergency layer) (fun s => layer < 8 ∧ 95 * 16 ≤ SMap.look 0 s.dev.layerTemp layer) emergencyBegun := by
  rintro s ⟨listed, hot⟩
  exact runM_gives (Gives.guardThen (by simpa [listed] using hot) (emergencyBegun_gives s))

theorem dramTempSample_fires (layer : Nat) (temp : Int) : Fires (.dramTempSample layer temp) (fun _ => layer < 8) (fun s =>
    let t := devPut (fun d => { d with layerTemp := SMap.store 0 d.layerTemp layer temp }) s
    let u := if s.dev.emergency = true ∧ hottest t.dev < 92 * 16 then emergencyEnded t else t
    let v := allClusters.foldl (fun t cl => thermSet cl t) u
    if 95 * 16 ≤ temp then emergencyBegun v else v) := by
  intro s h
  refine runM_gives (Gives.guardThen (decide_eq_true h) (devPut_gives.bind (Gives.getThen ?_)))
  have evaluated (u : State) : Gives (z := s) (do
      forEach allClusters evalTherm
      if 95 * 16 ≤ temp then startEmergency) u ()
      (let v := allClusters.foldl (fun t cl => thermSet cl t) u
       if 95 * 16 ≤ temp then emergencyBegun v else v) := by
    refine (forEach_fold (fun t cl => thermSet_gives cl t) _ u).bind ?_
    by_cases hot : 95 * 16 ≤ temp
    · exact Gives.pos hot ((emergencyBegun_gives _).as (if_pos hot).symm)
    · exact Gives.neg hot ((Gives.pure _ _).as (if_neg hot).symm)
  by_cases ends : s.dev.emergency = true ∧
      hottest (devPut (fun d => { d with layerTemp := SMap.store 0 d.layerTemp layer temp }) s).dev < 92 * 16
  · refine Gives.pos (Bool.and_eq_true_iff.2 ⟨ends.1, decide_eq_true ends.2⟩) ((devPut_gives.bind ((forEach_fold (fun _ _ => clusterPut_gives) _ _).bind (evaluated _))).as ?_)
    dsimp only
    rw [if_pos ends]; rfl
  · refine Gives.neg (fun h => ends ((Bool.and_eq_true_iff.1 h).imp_right of_decide_eq_true)) ((evaluated _).as ?_)
    dsimp only
    rw [if_neg ends]

theorem rankRefresh_fires (ch layer : Nat) : Fires (.rankRefresh ch layer) (fun _ => ch < 128 ∧ layer < 8) (fun s =>
    let temp := SMap.look 0 s.dev.layerTemp layer
    devPut (fun d => { d with
      blocked := NSet.add d.blocked (8 * ch + layer)
      dbl := if 85 * 16 < temp then NSet.add d.dbl layer else if temp < 82 * 16 then NSet.erase d.dbl layer else d.dbl }) s) := by
  rintro s ⟨channel, listed⟩
  exact runM_gives (Gives.guardThen (by simp [channel, listed]) devPut_gives)

theorem rankRefreshEnd_fires (ch layer : Nat) : Fires (.rankRefreshEnd ch layer) (fun _ => True)
    (devPut fun d => { d with blocked := NSet.erase d.blocked (8 * ch + layer) }) :=
  fires (m := fun _ => modDev fun d => { d with blocked := NSet.erase d.blocked (8 * ch + layer) }) (fun _ => rfl) fun _ _ => devPut_gives

/-! The Sluice (R327 to R330) -/

theorem sluiceGrant_fires (i : Nat) (c : Current) (rest : List Current) :
    Fires (.sluiceGrant i) (fun s => (s.str i).next [] (s.str i).waiting = some (c, rest))
      (fun s => quieted i (reservationBegun (4 * i + c.tile) c.who (strPut i (fun q => q.grant c rest) s))) := by
  intro s h
  refine runM_gives (Gives.getThen ?_)
  dsimp only
  rw [h]
  exact strPut_gives'.bind ((reservationBegun_gives _ _ _).bind (quieted_gives _ _))

theorem vectorReservationIdle_fires (core : Nat) (sfu : Bool) :
    let who : Asker := if sfu then .sfu core else .vec core
    Fires (.vectorReservationIdle core sfu)
      (fun s => (s.str (clusterString (coreCluster core))).holds who = true ∧
        (if sfu then (s.core core).sfuUntil else (s.core core).vecUntil).getD 0 ≤ (s.cluster (coreCluster core)).cyc)
      (fun s => corePut core (fun c => if sfu then { c with sfuUntil := none } else { c with vecUntil := none })
        (currentReleased (coreCluster core) who s)) := by
  rintro who s ⟨holds, due⟩
  exact runM_gives (Gives.guardThen holds (Gives.guardThen (decide_eq_true due) ((currentReleased_gives _ _ _).bind corePut_gives)))

theorem stringThrottle_fires (i : Nat) (c : Current) : Fires (.stringThrottle i)
    (fun s => i < 32 ∧ (s.str i).throttled = false ∧ (s.str i).waiting.find? (fun c =>
      c.since + (s.str i).setClk ≤ (s.cluster (4 * i + c.tile)).cyc && !(s.str i).fits c) = some c)
    (fun s => tilesPut i (fun cl => constrainedAs cl fun x => { x with strc := true })
      (strPut i (fun q => Str.measured { q with throttled := true, throttleBy := 4 * i + c.tile, quietSince := none }) s)) := by
  rintro s ⟨listed, free, waits⟩
  exact runM_gives (Gives.guardThen (by simp [listed, free])
    (Gives.needThen waits (strPut_gives'.bind (stringConstrained_gives i _ _))))

theorem throttleEnd_fires (i q : Nat) : Fires (.throttleEnd i)
    (fun s => (s.str i).quietSince = some q ∧ (s.str i).throttled = true ∧ (s.str i).waiting = [] ∧
      q + 4 * (s.str i).setClk ≤ (s.cluster (s.str i).throttleBy).cyc)
    (fun s => tilesPut i (fun cl => constrainedAs cl fun x => { x with strc := false })
      (strPut i (fun q => Str.measured { q with throttled := false, quietSince := none }) s)) := by
  rintro s ⟨quiet, throttled, none, due⟩
  exact runM_gives (Gives.needThen quiet (Gives.guardThen (by simp [throttled, none, due])
    (strPut_gives'.bind (stringConstrained_gives i _ _))))

/-! Clocks and wear (R361, R362, R364) -/

theorem clockBoostUp_fires (i : Nat) : Fires (.clockBoostStep i true)
    (fun s => i < 32 ∧ (s.str i).setClk + 25 ≤ (s.str i).ceiling ∧ ((s.str i).setClk < 3000 ∨ (s.dev.emergency = false ∧
      ∀ k ∈ [0, 1, 2, 3], (s.cluster (4 * i + k)).constrained = false)))
    (strPut i fun q => { q with setClk := q.setClk + 25 }) := by
  rintro s ⟨listed, below, free⟩
  exact runM_gives (Gives.guardThen (by simpa [listed, below] using free) strPut_gives')

theorem clockBoostDown_fires (i : Nat) : Fires (.clockBoostStep i false) (fun s => i < 32 ∧ 1225 ≤ (s.str i).setClk)
    (strPut i fun q => { q with setClk := q.setClk - 25 }) := by
  rintro s ⟨listed, above⟩
  exact runM_gives (Gives.guardThen (by simp [listed, above]) strPut_gives')

theorem wearAccumulate_fires (i : Nat) : Fires (.wearAccumulate i) (fun _ => True) (strPut i fun q =>
    let q := { q with stress := min (2 ^ 32 - 1) (q.stress + 1) }
    { q with setClk := min q.setClk q.ceiling }) :=
  fires (m := fun _ => modStr i _) (fun _ => rfl) fun _ _ => strPut_gives'

theorem timingErrorReplay_fires (cl n : Nat) : Fires (.timingErrorReplay cl n) (fun s => (s.str (clusterString cl)).gated = false)
    (clusterPut cl fun c => { c with cyc := c.cyc + n }) :=
  fun _ h => runM_gives (Gives.guardThen (by rw [h]; rfl) clusterPut_gives)

/-- A run that stays leaves the state it began in. -/
theorem runM_stays {m : M z Unit} (h : ∀ p, m ⟨z, p⟩ = .error .stay) : runM z m = .next z := by
  unfold runM
  rw [h]
  rfl

theorem timingErrorReplay_gated (cl n : Nat) :
    Fires (.timingErrorReplay cl n) (fun s => (s.str (clusterString cl)).gated = true) id := by
  intro s h
  refine runM_stays fun p => ?_
  rw [h]
  rfl

/-! Gating (R365, R366) -/

theorem stringGate_begins (i : Nat) : Fires (.stringGate i)
    (fun s => i < 32 ∧ (s.str i).gated = false ∧ stringIdle s i = true ∧ (s.str i).idleSince = none)
    (fun s => strPut i (fun q => { q with idleSince := some s.timer }) s) := by
  rintro s ⟨listed, awake, idle, fresh⟩
  refine runM_gives (Gives.guardThen (by simp [listed, awake, idle]) ?_)
  rw [fresh]
  exact strPut_gives'

theorem stringGate_gates (i q : Nat) : Fires (.stringGate i)
    (fun s => i < 32 ∧ (s.str i).gated = false ∧ stringIdle s i = true ∧ (s.str i).idleSince = some q ∧ q + 5 ≤ s.timer)
    (fun s => tilesPut i (fun cl => clusterPut cl fun c => { c with crc := [] })
      (strPut i (fun q => { q with gated := true, idleSince := none }) s)) := by
  rintro s ⟨listed, awake, idle, since, due⟩
  refine runM_gives (Gives.guardThen (by simp [listed, awake, idle]) ?_)
  rw [since]
  dsimp only
  exact Gives.guardThen (decide_eq_true due) (strPut_gives'.bind (tilesPut_gives (f := fun cl => modCluster cl fun c => { c with crc := [] }) (fun _ _ => clusterPut_gives) _))

theorem stringWake_fires (i w : Nat) : Fires (.stringWake i) (fun s => (s.str i).wakeAt = some w ∧ w ≤ s.timer)
    (strPut i fun q => { q with gated := false, wakeAt := none }) := by
  rintro s ⟨asked, due⟩
  exact runM_gives (Gives.needThen asked (Gives.guardThen (decide_eq_true due) strPut_gives'))

/-- Settles O41: each event runs as its lemma above says. -/
theorem powerEvents : Obligations.PowerEvents :=
  ⟨dieTempChange_fires, pkgCurrentHigh_fires, pkgCurrentLow_fires, reactionWindowEnd_fires, skipEnd_fires, dramEmergency_fires,
    dramTempSample_fires, rankRefresh_fires, rankRefreshEnd_fires, sluiceGrant_fires, vectorReservationIdle_fires,
    stringThrottle_fires, throttleEnd_fires, clockBoostUp_fires, clockBoostDown_fires, wearAccumulate_fires,
    timingErrorReplay_fires, timingErrorReplay_gated, stringGate_begins, stringGate_gates, stringWake_fires⟩

end Sys2Proof.Machine
end

section
/-! O45: queued stores and atomics, loads and SFU results land. -/

namespace Sys2Proof.Machine

variable {z : State} {g id : Nat} {gr : Group} {s : State}

/-! Stores and atomics at their home slice, a control register or a scratchpad (R15, R115, R116, R242, R246) -/

/-- A queue entry of a group may be performed now. -/
structure EntryReady (s : State) (g id : Nat) (gr : Group) (e : SqEntry) : Prop where
  group : s.group? g = some gr
  queued : gr.sq.find? (fun e => e.id = id) = some e
  may : mayPerform s g gr e = true

/-- A queued store of one lane leaves what its lane leaves once the entry is gone. -/
theorem storePerform_runs {e : SqEntry} {a : LaneAcc} {u : State} (h : EntryReady s g id gr e) (store : e.acc.kind = .store)
    (lane : e.acc.lanes = [a]) (k : Gives (z := s) (storeLane g e.unit e.acc a) (groupPut g (unqueued id) s) () u) :
    exec (.storePerform g id) s = .next u :=
  runM_gives (storeEntry_gives h.group h.queued h.may store lane k)

/-- A store's lane whose entry is gone, at its home slice. -/
theorem unqueuedStore_gives {u : Nat} {acc : Access} {a : LaneAcc} (hg : s.group? g = some gr) (sp : acc.space = 0)
    (hr : paRange a.pa ≠ .control) (r : Room s a.pa acc.psize) (c : Clean s (groupWho g gr u) a.pa acc.psize true) :
    Gives (z := z) (storeLane g u acc a) (groupPut g (unqueued id) s) () (stored g u acc gr a (groupPut g (unqueued id) s)) :=
  storeLane_gives (gr := unqueued id gr) (group_put hg) sp hr r c

/-- A store to a control register is the machine's next move. -/
theorem controlStore_gives {u : Nat} {acc : Access} {a : LaneAcc} {t : State} (hg : t.group? g = some gr) (sp : acc.space = 0)
    (hr : paRange a.pa = .control) :
    Gives (z := z) (storeLane g u acc a) t ()
      { t with moves := .regWrite 0 (a.pa - 0x8000000000) (acc.psize == 8) (BitVec.ofNat 64 a.data) :: t.moves } := by
  unfold storeLane
  refine (Gives.getGroup hg).bind (Gives.getThen (Gives.neg (fun h => h sp) ?_))
  rw [hr]
  exact Gives.mod _ _ _

/-- A store's lane at the scratchpad of a team that is resident. -/
theorem spadStore_gives {u : Nat} {acc : Access} {a : LaneAcc} {t : State} (hg : t.group? g = some gr) (sp : acc.space ≠ 0)
    (owner : (t.team? (spOwner a.pa)).isSome = true)
    (c : Clean t (groupWho g gr u) (spKey (spOwner a.pa) (spOffset a.pa)) acc.psize true) :
    Gives (z := z) (storeLane g u acc a) t ()
      (spWritten (laneWho g u acc a gr t) (spOwner a.pa) (spOffset a.pa) (natBytes a.data acc.psize) t) := by
  unfold storeLane
  refine (Gives.getGroup hg).bind (Gives.getThen (Gives.pos sp (Gives.pos owner ?_)))
  refine spStore_gives (w := laneWho g u acc a gr t) ?_
  rw [natBytes_length]
  exact c

/-! Loads (R117, R118) -/

/-- A load of one lane that no earlier access keeps back. -/
structure LoadReady (s : State) (g id : Nat) (gr : Group) (e : LsEntry) (a : LaneAcc) : Prop where
  group : s.group? g = some gr
  listed : gr.ls.find? (fun e => e.id = id) = some e
  lane : e.acc.lanes = [a]
  pending : a.done = false
  load : e.atom = false
  global : e.acc.space = 0
  arrived : mszOf s g = false ∨ gr.arrived e.unit = true
  may : gr.mayRead e.unit e.acc a = true
  free : laneBlocked s g e.acc a = false
  clean : Clean s (groupWho g gr e.unit) a.pa e.acc.psize false

/-- A load lands with what its source supplies. -/
theorem loadLand_runs {e : LsEntry} {a b : LaneAcc} {src : LoadSource} {u : State} (h : LoadReady s g id gr e a)
    (k : Gives (z := s) (fromSource g e src a) s b u) (fixed : b.done = true) :
    exec (.loadLand g id [src]) s = .next (loadLanded g e [b] u) :=
  runM_gives (landLoad_gives h.group h.listed h.lane h.pending h.load h.global h.arrived k fixed)

/-! SFU results (R237) -/

/-- The values of an SFU result in their lanes' registers. -/
def sfuWritten (vals : List (Nat × W32)) (gr : Group) : Group :=
  vals.foldl (fun gr v => gr.setV (v.1 / 32) (v.1 % 32) v.2) gr

/-- Writes of vector registers leave the rest of the group as it is. -/
theorem sfuWritten_form (vals : List (Nat × W32)) : ∀ gr : Group, ∃ r p, sfuWritten vals gr = { gr with regs := r, poison := p } := by
  induction vals with
  | nil => exact fun gr => ⟨gr.regs, gr.poison, rfl⟩
  | cons v vals ih =>
    intro gr
    obtain ⟨r, p, h⟩ := ih (gr.setV (v.1 / 32) (v.1 % 32) v.2)
    exact ⟨r, p, h⟩

theorem groupPut_groupPut (g : Nat) (f k : Group → Group) (t : State) :
    groupPut g k (groupPut g f t) = groupPut g (fun gr => k (f gr)) t := by
  unfold groupPut
  dsimp only
  rw [SMap.adjust_adjust]

/-- The result of an SFU word that no lane overflowed has landed. -/
def sfuLanded (e : SfuEntry) (gr : Group) : Group := sfuWritten e.vals { gr with sfu := gr.sfu.filter fun x => x.id != e.id }

/-- What decides where a group goes after its word, and whether a step traps there. -/
def Group.place (gr : Group) : BitVec 1 × BitVec 14 × List Hint × TrapState := (gr.slot, gr.pc, gr.hints, gr.trap)

theorem sfuLanded_place (e : SfuEntry) (gr : Group) : Group.place { sfuLanded e gr with hold := none } = gr.place := by
  obtain ⟨r, p, form⟩ := sfuWritten_form e.vals { gr with sfu := gr.sfu.filter fun x => x.id != e.id }
  unfold sfuLanded
  rw [form]
  rfl

theorem PlainEnd.of_place {w v : View} (h : PlainEnd w) (e : v.gr.place = w.gr.place) : PlainEnd v := by
  simp only [Group.place, Prod.mk.injEq] at e
  obtain ⟨-, hpc, hhints, htrap⟩ := e
  obtain ⟨inSlot, noStep⟩ := h
  unfold View.wordPc at inSlot
  unfold NoStep Group.inHandler at noStep
  rw [← hpc, ← hhints] at inSlot
  rw [← htrap] at noStep
  exact ⟨inSlot, noStep⟩

theorem next_of_place {w v : View} (e : v.gr.place = w.gr.place) (hg : v.g = w.g) (t : State) : v.next t = w.next t := by
  simp only [Group.place, Prod.mk.injEq] at e
  obtain ⟨hslot, hpc, hhints, -⟩ := e
  unfold View.next View.at View.wordPc
  rw [hslot, hpc, hhints, hg]

/-- What an SFU result does once its values stand: the group that waited for it goes on. -/
theorem sfuLand_runs {e : SfuEntry} {u : State} (hg : s.group? g = some gr) (listed : gr.sfu.find? (fun x => x.id = id) = some e)
    (runs : gr.exited = false) (sound : e.ovf = 0)
    (k : Gives (z := s) (if gr.hold = some (.sfu id) then do
        modGroup g fun gr => { gr with hold := none }
        let s ← getS
        match view { s with cur := some g } with
        | some w => follow w .seq
        | none => pure ()
      else pure ()) (groupPut g (sfuLanded e) s) () u) :
    exec (.sfuLand g id) s = .next u := by
  have hid : e.id = id := find_id (f := SfuEntry.id) listed
  subst hid
  have k' := (groupPut_groupPut g (fun gr => { gr with sfu := gr.sfu.filter fun x => x.id != e.id }) (sfuWritten e.vals) s) ▸ k
  refine runM_gives ?_
  show Gives (landSfu g e.id) s () u
  unfold landSfu
  refine (Gives.getGroup hg).bind (Gives.needThen listed (groupPut_gives.bind ?_))
  exact Gives.neg (by rw [runs]; exact Bool.false_ne_true) (Gives.neg (fun h => h sound) (groupPut_gives.bind k'))

theorem sfuLand_passes {e : SfuEntry} (hg : s.group? g = some gr) (listed : gr.sfu.find? (fun x => x.id = id) = some e)
    (runs : gr.exited = false) (sound : e.ovf = 0) (other : gr.hold ≠ some (.sfu id)) :
    exec (.sfuLand g id) s = .next (groupPut g (sfuLanded e) s) :=
  sfuLand_runs hg listed runs sound (Gives.neg other (Gives.pure _ _))

/-- The group that waited for the result goes on with the next word. -/
theorem sfuLand_resumes {e : SfuEntry} {w : View} (hg : s.group? g = some gr) (listed : gr.sfu.find? (fun x => x.id = id) = some e)
    (runs : gr.exited = false) (sound : e.ovf = 0) (waits : gr.hold = some (.sfu id)) (hw : viewOf s g = some w) (plain : PlainEnd w) :
    exec (.sfuLand g id) s = .next (w.next (w.onGroup (fun gr => { sfuLanded e gr with hold := none }) s)) := by
  refine sfuLand_runs hg listed runs sound (Gives.pos waits (groupPut_gives.bind (Gives.getThen ?_)))
  obtain ⟨tm, ht, hwg, hwgr⟩ : ∃ tm, s.team? (groupTeam g) = some tm ∧ w.g = g ∧ w.gr = gr := by
    unfold viewOf at hw
    rw [hg] at hw
    cases ht : s.team? (groupTeam g) with
    | none => rw [ht] at hw; cases hw
    | some tm => rw [ht] at hw; cases hw; exact ⟨tm, rfl, rfl, rfl⟩
  rw [groupPut_groupPut]
  generalize hu : groupPut g (fun gr => { sfuLanded e gr with hold := none }) s = u
  have hgu : u.group? g = some { sfuLanded e gr with hold := none } := hu ▸ group_put hg
  have htu : u.team? (groupTeam g) = some tm := hu ▸ ht
  have hv : view { u with cur := some g } =
      some { s := { u with cur := some g }, g := g, gr := { sfuLanded e gr with hold := none }, t := tm, core := tm.core.getD 0 } := by
    show viewOf { u with cur := some g } g = _
    unfold viewOf
    rw [show State.group? { u with cur := some g } g = _ from hgu, show State.team? { u with cur := some g } _ = _ from htu]
  rw [hv]
  have stands : Group.place { sfuLanded e gr with hold := none } = w.gr.place := by rw [sfuLanded_place, hwgr]
  refine (seq_gives (plain.of_place stands) u).as ?_
  rw [next_of_place stands hwg.symm, ← hu]
  subst hwg
  rfl

/-- Settles O45: an entry is performed, a load is supplied and an SFU result lands as the lemmas above say. -/
theorem performingEvents : Obligations.PerformingEvents := by
  refine ⟨?_, ?_, ?_, ?_, ⟨?_, ?_, ?_, ?_⟩, ?_⟩
  · rintro g id gr e a s ⟨⟨⟨hg, he, hm⟩, store, lane⟩, global, memory, room, clean⟩
    exact storePerform_runs ⟨hg, he, hm⟩ store lane (unqueuedStore_gives hg global memory room clean)
  · rintro g id gr e a s ⟨⟨⟨hg, he, hm⟩, store, lane⟩, global, control⟩
    exact storePerform_runs ⟨hg, he, hm⟩ store lane (controlStore_gives (group_put hg) global control)
  · rintro g id gr e a s ⟨⟨⟨hg, he, hm⟩, store, lane⟩, spad, owner, clean⟩
    exact storePerform_runs ⟨hg, he, hm⟩ store lane (spadStore_gives (gr := unqueued id gr) (group_put hg) spad owner clean)
  · rintro g id gr e op pa s ⟨⟨hg, he, hm⟩, atom, global, place, ordered, follow, tm, l, ht, hl, off⟩
    exact runM_gives (atomEntry_gives hg he hm atom global place ordered follow ht hl off)
  · rintro g id gr e a s ⟨⟨hg, he, lane, pending, load, global, arrived, may, free, clean⟩, first, memory, room, cache⟩
    exact loadLand_runs ⟨hg, he, lane, pending, load, global, arrived, may, free, clean⟩
      (homeSource_gives hg may free global first memory room cache clean) rfl
  · rintro g id gr e a s ⟨⟨hg, he, lane, pending, load, global, arrived, may, free, clean⟩, first, control⟩
    exact loadLand_runs ⟨hg, he, lane, pending, load, global, arrived, may, free, clean⟩
      (controlSource_gives hg may free global first control) rfl
  · intro g id gr e a c
    refine ⟨?_, fun i => ?_⟩
    · rintro s ⟨⟨⟨hg, he, lane, pending, load, global, arrived, may, free, clean⟩, plain, first, whole, above⟩, cached, held⟩
      exact loadLand_runs ⟨hg, he, lane, pending, load, global, arrived, may, free, clean⟩
        (cacheSource_gives hg may free plain cached first held whole above clean) rfl
    · rintro s ⟨⟨⟨hg, he, lane, pending, load, global, arrived, may, free, clean⟩, plain, first, whole, above⟩, held, unacquired⟩
      exact loadLand_runs ⟨hg, he, lane, pending, load, global, arrived, may, free, clean⟩
        (mergeSource_gives hg may free plain first held unacquired whole above clean) rfl
  · rintro g id gr e a f b s
      ⟨⟨hg, he, lane, pending, load, global, arrived, may, free, clean⟩, plain, youngest, last, store, low, high⟩
    exact loadLand_runs ⟨hg, he, lane, pending, load, global, arrived, may, free, clean⟩
      (forwardSource_gives hg may free plain youngest last store low high clean) rfl
  · intro g id gr e
    have landed (h : e.id = id) : (fun gr : Group => e.vals.foldl (fun gr v => gr.setV (v.1 / 32) (v.1 % 32) v.2)
        { gr with sfu := gr.sfu.filter fun x => x.id != id }) = sfuLanded e := by subst h; rfl
    refine ⟨?_, ?_⟩
    · rintro s ⟨⟨hg, listed, runs, sound⟩, other⟩
      rw [landed (find_id (f := SfuEntry.id) listed)]
      exact sfuLand_passes hg listed runs sound other
    · rintro s w ⟨hg, listed, runs, sound⟩ waits hw plain
      obtain rfl : e.id = id := find_id (f := SfuEntry.id) listed
      exact sfuLand_resumes hg listed runs sound waits hw plain

end Sys2Proof.Machine
end

section
/-! O46: messages arrive. -/

namespace Sys2Proof.Machine

variable {z s : State} {g idx e : Nat} {gr : Group} {m : Message} {tm : Team}

/-- The message of a sender whose turn it is: no earlier one of its team to the same ring is still on its way (R109). -/
structure Sends (s : State) (g idx : Nat) (gr : Group) (m : Message) : Prop where
  group : s.group? g = some gr
  listed : gr.outbox[idx]? = some m
  first : earlierMessage s g m = false

/-- The receiver of a message holds a core and its ring lies inside its scratchpad (R108). -/
structure Receives (s : State) (m : Message) (e : Nat) (tm : Team) : Prop where
  named : findTag s m.ctx m.dst = some e
  team : s.team? e = some tm
  alive : tm.state ≠ .unwinding
  begun : tm.state ≠ .notBegun
  resident : tm.core.isSome = true
  inside : spInside tm m.off 64 = true

/-- What the offer of a message leaves, the sweep of the task unit follows. -/
theorem messageArrival_runs {u : State} (k : Gives (z := s) (offerMessage g idx) s () u) :
    exec (.messageArrival g idx) s = .next (swept u) :=
  runM_gives (k.bind (sweep_gives u))

/-- A message without a live receiver is dropped. -/
theorem messageArrival_unnamed (h : Sends s g idx gr m) (none : findTag s m.ctx m.dst = none) :
    exec (.messageArrival g idx) s = .next (messageGone g idx s) := by
  refine messageArrival_runs ?_
  unfold offerMessage
  refine (Gives.getGroup h.group).bind (Gives.needThen h.listed (Gives.getThen (Gives.guardThen (by rw [h.first]; rfl) ?_)))
  dsimp only
  rw [none]
  exact groupPut_gives

theorem messageArrival_unwinding (h : Sends s g idx gr m) (named : findTag s m.ctx m.dst = some e) (team : s.team? e = some tm)
    (unwinds : tm.state = .unwinding) : exec (.messageArrival g idx) s = .next (messageGone g idx s) := by
  refine messageArrival_runs ?_
  unfold offerMessage
  refine (Gives.getGroup h.group).bind (Gives.needThen h.listed (Gives.getThen (Gives.guardThen (by rw [h.first]; rfl) ?_)))
  dsimp only
  rw [named]
  exact (Gives.getTeam team).bind (Gives.pos (by rw [unwinds]; rfl) groupPut_gives)

/-- A message that its receiver's ring may take meets the ring. -/
theorem offerMessage_meets {u : State} (h : Sends s g idx gr m) (k : Receives s m e tm)
    (meets : let r := readRing (spNat tm m.off 64)
      Gives (z := s) (do
        if r.drops? tm m.src then
          spStore sysParty e (m.off + 28) (natBytes (min (r.drops + 1) 0xFFFFFFFF) 4)
          modGroup g fun gr => { gr with outbox := gr.outbox.eraseIdx idx }
        else
          guardS (r.used + m.slots ≤ 2 ^ r.logn)
          let _ ← journalAt tm.launch
            { point := pointOfCore (tm.core.getD 0), typ := JType.msg, sys := true, src := m.src, seq := m.seq, obj := m.off }
          writeSlots e r m
          spStore sysParty e (m.off + 4) (natBytes ((r.tail + m.slots) % 2 ^ 32) 4)
          noteMessage g e m
          modGroup g fun gr => { gr with outbox := gr.outbox.eraseIdx idx }
          wakeRing e r m.clock) s () u) :
    Gives (z := s) (offerMessage g idx) s () u := by
  unfold offerMessage
  refine (Gives.getGroup h.group).bind (Gives.needThen h.listed (Gives.getThen (Gives.guardThen (by rw [h.first]; rfl) ?_)))
  dsimp only
  rw [k.named]
  refine (Gives.getTeam k.team).bind (Gives.neg (by simpa using k.alive) (Gives.guardThen ?_ (Gives.neg ?_ meets)))
  · simpa [k.resident] using k.begun
  · simp [k.inside]

theorem messageArrival_drops (h : Sends s g idx gr m) (k : Receives s m e tm)
    (drops : (readRing (spNat tm m.off 64)).drops? tm m.src = true) :
    exec (.messageArrival g idx) s = .next (messageGone g idx
      (spWritten sysParty e (m.off + 28) (natBytes (min ((readRing (spNat tm m.off 64)).drops + 1) 0xFFFFFFFF) 4) s)) :=
  messageArrival_runs (offerMessage_meets h k (Gives.pos drops ((spStore_gives (sys_clean _ _ _ _)).bind groupPut_gives)))

/-- A ring without a wake mode wakes nobody. -/
theorem wakeRing_off {r : Ring} {c : Clock} {t : State} (team : ∃ a, t.team? e = some a) (off : r.wmode = 0) :
    Gives (z := z) (wakeRing e r c) t () t := by
  obtain ⟨a, ha⟩ := team
  unfold wakeRing
  refine (Gives.getTeam ha).bind ?_
  rw [off]
  exact Gives.pure _ _

theorem messageArrival_writes {l : Launch} (h : Sends s g idx gr m) (k : Receives s m e tm)
    (takes : (readRing (spNat tm m.off 64)).drops? tm m.src = false)
    (room : (readRing (spNat tm m.off 64)).used + m.slots ≤ 2 ^ (readRing (spNat tm m.off 64)).logn)
    (unwoken : (readRing (spNat tm m.off 64)).wmode = 0) (hl : s.launch? tm.launch = some l) (off : l.journal = 0) :
    exec (.messageArrival g idx) s = .next (messageGone g idx (messageNoted g e m
      (spWritten sysParty e (m.off + 4) (natBytes (((readRing (spNat tm m.off 64)).tail + m.slots) % 2 ^ 32) 4)
        (slotsWritten e (readRing (spNat tm m.off 64)) m s)))) := by
  refine messageArrival_runs (offerMessage_meets h k ?_)
  dsimp only
  generalize readRing (spNat tm m.off 64) = r at *
  have kept : ∃ a, (slotsWritten e r m s).team? e = some a := slots_team e r m ⟨tm, k.team⟩
  refine Gives.neg (by rw [takes]; exact Bool.false_ne_true) (Gives.guardThen (decide_eq_true room) ?_)
  refine (journalAt_off hl off).bind ((slots_gives e r m s).bind ((spStore_gives (sys_clean _ _ _ _)).bind ?_))
  exact (noted_gives g e m _).bind (groupPut_gives.bind (wakeRing_off (has_adjust (has_adjust kept)) unwoken))

/-- Settles O46: a message is dropped, counted or written as the lemmas above say. -/
theorem messageEvents : Obligations.MessageEvents := by
  refine ⟨?_, ?_, ?_, ?_⟩
  · rintro g idx gr m s ⟨⟨hg, hm, first⟩, none⟩
    exact messageArrival_unnamed ⟨hg, hm, first⟩ none
  · rintro g idx gr m e tm s ⟨⟨hg, hm, first⟩, named, team, unwinds⟩
    exact messageArrival_unwinding ⟨hg, hm, first⟩ named team unwinds
  · rintro g idx gr m e tm r s ⟨⟨hg, hm, first⟩, ⟨named, team, alive, begun, resident, inside⟩, drops⟩
    exact messageArrival_drops ⟨hg, hm, first⟩ ⟨named, team, alive, begun, resident, inside⟩ drops
  · rintro g idx gr m e tm r s
      ⟨⟨hg, hm, first⟩, ⟨named, team, alive, begun, resident, inside⟩, takes, room, unwoken, l, hl, off⟩
    exact messageArrival_writes ⟨hg, hm, first⟩ ⟨named, team, alive, begun, resident, inside⟩ takes room unwoken hl off

end Sys2Proof.Machine
end

section
/-! O58: the state after reset and the beginning of a group. -/

namespace Sys2Proof.Machine

/-! The tables and registers that the physical function keeps for each function (R29, R307, R367) -/

theorem prRead_empty (off : Nat) : prRead {} off = 0 := by
  unfold prRead
  dsimp only
  split
  · rfl
  split
  · rw [show slotRecord {} ((off - 0x100) / 16) = 0 from rfl]
    split <;> rfl
  split <;> rfl

theorem w0Read_reset_physical {off : Nat} (high : 0x200000 ≤ off) (aligned : off % 8 = 0) :
    w0Read State.reset 0 off = BitVec.ofNat 64 (w0Physical State.reset off) := by
  have e : off / 8 * 8 = off := by omega
  unfold w0Read
  dsimp only
  rw [e, if_neg (by omega), if_neg (by omega), if_neg (by simp; omega), if_neg (by simp; omega), if_neg (by decide), if_neg (by omega),
    if_neg (by omega), if_neg (by omega), if_pos rfl]

theorem w0Read_reset_functions {off : Nat} (high : 0x200000 ≤ off) (low : off < 0x240000) (aligned : off % 8 = 0) :
    w0Read State.reset 0 off = 0 := by
  have zero : w0Physical State.reset off = 0 := by
    unfold w0Physical
    dsimp only
    rw [if_pos low, show State.reset.table (64 + (off - 0x200000) / 0x1000) = {} from rfl, prRead_empty]
    split
    · rfl
    split
    · rfl
    split <;> rfl
  rw [w0Read_reset_physical high aligned, zero]
  rfl

/-! A group at its beginning (R202, R203, R285) -/

/-- The scalar registers of a group at its beginning: s0, s1 and s2 hold what R285 gives them. -/
theorem freshGroup_rs (tm : Team) (gidx now : Nat) (known : Clock) (n : Nat) :
    (freshGroup tm gidx now known).rs n =
      if n = 0 then tm.shape.argp else if n = 1 then BitVec.ofNat 64 tm.tidx else if n = 2 then BitVec.ofNat 64 gidx else 0 := by
  have sorted0 : SMap.sorted (SMap.store 0 [] 0 tm.shape.argp) = true := SMap.sorted_store _ _ rfl
  have sorted1 := SMap.sorted_store (d := 0) 1 (BitVec.ofNat 64 tm.tidx) sorted0
  show SMap.look 0 (SMap.store 0 (SMap.store 0 (SMap.store 0 [] 0 tm.shape.argp) 1 (BitVec.ofNat 64 tm.tidx)) 2
    (BitVec.ofNat 64 gidx)) n = _
  by_cases h2 : n = 2
  · subst h2
    exact SMap.look_store_self 2 _ sorted1
  rw [SMap.look_store_ne _ _ _ (Ne.symm h2)]
  by_cases h1 : n = 1
  · subst h1
    exact SMap.look_store_self 1 _ sorted0
  rw [SMap.look_store_ne _ _ _ (Ne.symm h1)]
  by_cases h0 : n = 0
  · subst h0
    exact SMap.look_store_self 0 _ rfl
  rw [SMap.look_store_ne _ _ _ (Ne.symm h0), if_neg h0, if_neg h1, if_neg h2]
  rfl

/-- Settles O58: the registers that stand once for each function by the lemma on their place, those of a finite list by
evaluation, a group's scalar registers by the lemma on what its beginning writes. -/
theorem resetState : Obligations.ResetState := by
  refine ⟨by decide, rfl, rfl, rfl, rfl, fun f _ => ⟨rfl, rfl⟩, by decide +kernel, by decide +kernel, by decide +kernel,
    fun n hn off h => ?_, by decide +kernel, by decide +kernel, by decide +kernel, by decide +kernel, by decide +kernel,
    fun tm gidx now known => ?_⟩
  · have place : off < 0x1000 ∧ off % 8 = 0 := by
      revert off
      decide
    exact w0Read_reset_functions (by omega) (by omega) (by omega)
  · have scalar := freshGroup_rs tm gidx now known
    refine ⟨rfl, rfl, rfl, scalar 0, scalar 1, scalar 2, fun n hn => ?_, fun _ _ => rfl, fun _ _ => rfl, fun _ _ => rfl,
      fun _ _ => rfl, fun _ => rfl, rfl, rfl, rfl, rfl, rfl⟩
    rw [scalar, if_neg (by omega), if_neg (by omega), if_neg (by omega)]

end Sys2Proof.Machine
end

section
/-! O19: accesses of checked pages. -/

namespace Sys2Proof.Machine

variable {z : State}

/-! Runs that raise causes -/

/-- Where `m` runs from `t` it raises causes. -/
def Raises {α : Type} (m : M z α) (t : State) (ds : List Detail) : Prop := ∀ p : Path z t, m ⟨t, p⟩ = .error (.trap ds none)

theorem Raises.bind {α β : Type} {m : M z α} {f : α → M z β} {t u : State} {a : α} {ds : List Detail} (h : Gives m t a u)
    (k : Raises (f a) u ds) : Raises (m >>= f) t ds := by
  intro p
  obtain ⟨q, e⟩ := h p
  exact (bind_run e).trans (k q)

theorem Raises.first {α β : Type} {m : M z α} {f : α → M z β} {t : State} {ds : List Detail} (h : Raises m t ds) :
    Raises (m >>= f) t ds := by
  intro p
  simp only [Bind.bind, StateT.bind, h p, Except.bind]

theorem Raises.attempt {α : Type} {m : M z α} {t : State} {ds : List Detail} (h : Raises m t ds) :
    Gives (Machine.attempt m) t (.error (.trap ds none)) t := fun p => ⟨p, by simp only [Machine.attempt, h p]⟩

/-! What the performing of lanes leaves alone -/

/-- Teams, launches and contexts are as they were, and a group's record is still there. -/
structure Stands (g : Nat) (t u : State) : Prop where
  teams : u.teams = t.teams
  launches : u.launches = t.launches
  ctxs : u.ctxs = t.ctxs
  group : (t.group? g).isSome → (u.group? g).isSome

namespace Stands

variable {g : Nat} {t u v : State}

theorem refl (g : Nat) (t : State) : Stands g t t := ⟨rfl, rfl, rfl, id⟩

theorem trans (h : Stands g t u) (k : Stands g u v) : Stands g t v :=
  ⟨k.teams.trans h.teams, k.launches.trans h.launches, k.ctxs.trans h.ctxs, fun x => k.group (h.group x)⟩

theorem groups (g : Nat) (f : Group → Group) (t : State) : Stands g t (groupPut g f t) := by
  refine ⟨rfl, rfl, rfl, fun h => ?_⟩
  obtain ⟨gr, hg⟩ := Option.isSome_iff_exists.1 h
  rw [group_put hg]
  rfl

theorem home (g : Nat) (t : State) (h : Home) : Stands g t { t with home := h } := ⟨rfl, rfl, rfl, id⟩

theorem readAt (g : Nat) (who : Who) (pa n : Nat) (t : State) : Stands g t (readAt who pa n t) := by
  obtain ⟨h, e⟩ := readAt_form who pa n t
  rw [e]
  exact home g t h

theorem written (g : Nat) (who : Who) (pa : Nat) (bs : List Byte) (t : State) : Stands g t (written who pa bs t) := by
  obtain ⟨m, h, e⟩ := written_still who pa bs t
  rw [e]
  exact ⟨rfl, rfl, rfl, id⟩

theorem floored (g pa n : Nat) (t : State) : Stands g t (floorRaised g pa n t) := groups g _ t

theorem groupWritten (g : Nat) (who : Who) (pa : Nat) (bs : List Byte) (t : State) : Stands g t (groupWritten g who pa bs t) := by
  obtain ⟨m, h, c, l, e⟩ := groupWritten_form g who pa bs t
  rw [e]
  have k := groups g (fun gr => gr.raiseFloor pa l) t
  exact ⟨rfl, rfl, rfl, k.group⟩

theorem met (g u : Nat) (acc : Access) (lanes : List LaneAcc) (t : State) : Stands g t (releasesMet g u acc lanes t) := by
  unfold releasesMet
  dsimp only
  split
  · exact refl g t
  · exact groups g _ t

theorem dropped (g cl pa : Nat) (t : State) : Stands g t (lineDropped cl pa t) := ⟨rfl, rfl, rfl, id⟩

theorem atom (g u : Nat) (acc : Access) (op : AtomOp) (gr : Group) (a : LaneAcc) (t : State) :
    Stands g t (atomPerformed g u acc op gr a t) := by
  unfold atomPerformed
  dsimp only
  refine (readAt g (groupWho g gr u) a.pa acc.size t).trans
    (Stands.trans ?_ ((floored g a.pa acc.size _).trans ((dropped g _ _ _).trans (met g u acc _ _))))
  split
  · exact written g _ _ _ _
  · exact refl g _

theorem fold {α : Type} {F : State → α → State} (h : ∀ t x, Stands g t (F t x)) (xs : List α) : ∀ t, Stands g t (xs.foldl F t) := by
  induction xs with
  | nil => exact refl g
  | cons x xs ih => exact fun t => (h t x).trans (ih _)

end Stands

/-! The step at a line's metadata (R60, R128, R129) -/

/-- State `t` holds the team of `w` as `tm`, whose launch is in the phase and the mode that `w` shows. -/
structure InPhase (w : View) (tm : Team) (t : State) : Prop where
  tag : tm.tag = w.t.tag
  launch : ∃ l k, w.launch = some l ∧ t.launch? tm.launch = some k ∧ k.phm = l.phm ∧ k.phase = l.phase

theorem InPhase.stands {w : View} {tm : Team} {g : Nat} {t u : State} (h : InPhase w tm t) (k : Stands g t u) : InPhase w tm u := by
  obtain ⟨tag, l, k', hl, hk, same⟩ := h
  refine ⟨tag, l, k', hl, ?_, same⟩
  unfold State.launch?
  rw [k.launches]
  exact hk

theorem metaStepped_form (w : View) (reads : Bool) (a : LaneAcc) (t : State) : ∃ h : Home, metaStepped w reads a t = { t with home := h } := by
  unfold metaStepped
  split
  · split
    · split
      · exact ⟨_, rfl⟩
      · split
        · exact ⟨t.home, rfl⟩
        · exact ⟨_, rfl⟩
    · exact ⟨t.home, rfl⟩
  · exact ⟨t.home, rfl⟩

theorem Stands.stepped (w : View) (reads : Bool) (g : Nat) (a : LaneAcc) (t : State) : Stands g t (metaStepped w reads a t) := by
  obtain ⟨h, e⟩ := metaStepped_form w reads a t
  rw [e]
  exact home g t h

theorem metaStepped_group (w : View) (reads : Bool) (a : LaneAcc) (t : State) (g : Nat) :
    (metaStepped w reads a t).group? g = t.group? g := by
  obtain ⟨h, e⟩ := metaStepped_form w reads a t
  rw [e]
  rfl

theorem metaStep_gives {w : View} {tm : Team} {t : State} {acc : Access} {a : LaneAcc} (h : InPhase w tm t) :
    Gives (z := z) (metaStep tm acc a) t () (metaStepped w acc.kind.onlyReads a t) := by
  obtain ⟨tag, l, k, hl, hk, hphm, hphase⟩ := h
  have mode : phaseMode t tm = l.phm := by
    unfold phaseMode
    rw [hk]
    exact hphm
  have phase : phaseOf t tm = l.phase.extractLsb' 0 16 := by
    unfold phaseOf
    rw [hk, ← hphase]
  unfold metaStep metaStepped
  refine Gives.getThen ?_
  rw [hl, mode, phase, tag]
  cases a.chk
  case false => exact Gives.pure _ _
  refine Gives.neg Bool.false_ne_true ?_
  dsimp only
  rw [if_pos rfl]
  cases l.phm
  case true => exact Gives.pos rfl (homePut_gives.as (if_pos rfl).symm)
  refine Gives.neg Bool.false_ne_true ?_
  rw [if_neg Bool.false_ne_true]
  cases acc.kind.onlyReads
  · exact metaWrite_gives _ _ _
  · exact Gives.pure _ _

theorem metaSteps_gives {w : View} {tm : Team} {acc : Access} (ls : List LaneAcc) : ∀ {t : State}, InPhase w tm t →
    Gives (z := z) (forEach ls fun a => metaStep tm acc a) t () (ls.foldl (fun t a => metaStepped w acc.kind.onlyReads a t) t) := by
  induction ls with
  | nil => exact fun _ => Gives.pure _ _
  | cons a ls ih => exact fun h => (metaStep_gives h).bind (ih (h.stands (Stands.stepped w _ w.g a _)))

theorem metaSteps_group (w : View) (reads : Bool) (g : Nat) (ls : List LaneAcc) : ∀ t : State,
    (ls.foldl (fun t a => metaStepped w reads a t) t).group? g = t.group? g := by
  induction ls with
  | nil => exact fun _ => rfl
  | cons a ls ih => exact fun t => (ih _).trans (metaStepped_group w reads a t g)

/-! Loads at their issue -/

theorem partsRead_gives {g u n : Nat} {d : Group} (ls : List LaneAcc) : ∀ (fixed : List LaneAcc) {t : State} {gr : Group},
    t.group? g = some gr → PartsFollow g u n d fixed ls t →
    Gives (z := z) (readEach (homeLoad g u n) fixed ls) t (partsRead g u n d fixed ls t).1 (partsRead g u n d fixed ls t).2 := by
  induction ls with
  | nil => exact fun _ _ _ _ _ => Gives.pure _ _
  | cons a ls ih =>
    intro fixed t gr hg follow
    unfold readEach partsRead
    unfold PartsFollow at follow
    cases same : sameBytes fixed a with
    | some b =>
      rw [same] at follow
      exact (Gives.pure _ _).bind ((ih _ hg follow).bind (Gives.pure _ _))
    | none =>
      rw [same] at follow
      obtain ⟨room, clean, rest⟩ := follow
      have e : (t.group? g).getD d = gr := by rw [hg]; rfl
      dsimp only
      rw [e] at clean rest ⊢
      obtain ⟨l, hg'⟩ := floored_group (a := a) (n := n) (who := groupWho g gr u) hg
      exact (homeLoad_gives hg room clean).bind ((ih _ hg' rest).bind (Gives.pure _ _))

theorem Stands.parts (g u n : Nat) (d : Group) (ls : List LaneAcc) : ∀ (fixed : List LaneAcc) (t : State),
    Stands g t (partsRead g u n d fixed ls t).2 := by
  induction ls with
  | nil => exact fun _ => refl g
  | cons a ls ih =>
    intro fixed t
    unfold partsRead
    cases sameBytes fixed a with
    | some b => exact ih _ _
    | none => exact (readAt g _ _ _ t).trans ((floored g a.pa n _).trans (ih _ _))

/-- The values of lanes performed at issue wait in the load set. -/
theorem pushDone_gives {g unit : Nat} {acc : Access} {done : List LaneAcc} {t : State} {gr : Group} (hg : t.group? g = some gr)
    (dest : acc.dest ≠ .none) :
    Gives (z := z) (pushDone g unit acc done) t () (groupPut g (fun gr => { gr with
      nextId := gr.nextId + 1
      ls := gr.ls ++ [{ id := gr.nextId, unit := unit, acc := { acc with lanes := done } }] }) t) := by
  unfold pushDone
  exact Gives.neg dest (takeThen_gives hg)

/-! Atomics at their issue -/

/-- The step of a lane at the metadata of its line, then at its home slice. -/
theorem atomLane_stepped {g u : Nat} {acc : Access} {op : AtomOp} {a : LaneAcc} {others : List LaneAcc} {t t1 : State}
    {gr : Group} {tm : Team} {l : Launch} (ht : t.team? (groupTeam g) = some tm)
    (hl : t.launch? tm.launch = some l) (off : l.journal = 0) (sp : acc.space = 0)
    (step : Gives (z := z) (metaStep tm acc a) t () t1) (hg : t1.group? g = some gr)
    (room : Room t1 a.pa acc.size) (clean : Clean t1 (groupWho g gr u) a.pa acc.size true) :
    Gives (z := z) (atomLane g u acc op a others) t (laneRead acc.size a (readAt (groupWho g gr u) a.pa acc.size t1))
      (atomPerformed g u acc op gr a t1) := by
  unfold atomLane
  refine Gives.getThen ((Gives.getTeam ht).bind ((journalWord_off ht hl off).bind (step.bind ((Gives.getGroup hg).bind ?_))))
  have same : memBytes (readAt (groupWho g gr u) a.pa acc.size t1) a.pa acc.size = memBytes t1 a.pa acc.size := by
    obtain ⟨h, f⟩ := readAt_form (groupWho g gr u) a.pa acc.size t1
    exact memBytes_congr (by rw [f]) _ _
  have roomV : Room (readAt (groupWho g gr u) a.pa acc.size t1) a.pa acc.size := readAt_room t1
  have cleanV : Clean (readAt (groupWho g gr u) a.pa acc.size t1) (groupWho g gr u) a.pa acc.size true :=
    clean_seen (clean.congr ((brought_past _ _).trans (brought_past _ _)))
  have read := hsRead_gives (z := z) room clean.reads
  unfold atomPerformed
  dsimp only
  generalize readAt (groupWho g gr u) a.pa acc.size t1 = v at *
  have ends (x : State) : Gives (z := z) (do
      if acc.space = 0 then
        catchUp g a.pa acc.size
        crcDrop ((← getS).groupCluster g) a.pa
      meetReleases g u acc [laneRead acc.size a v]
      pure (laneRead acc.size a v)) x (laneRead acc.size a v)
      (releasesMet g u acc [laneRead acc.size a v]
        (lineDropped ((floorRaised g a.pa acc.size x).groupCluster g) a.pa (floorRaised g a.pa acc.size x))) :=
    Gives.pos sp ((catchUp_gives _ _ _ _).bind (Gives.getThen ((crcDrop_gives _ _ _).bind
      ((meetReleases_gives _ _ _ _ _).bind (Gives.pure _ _)))))
  refine Gives.bind (a := laneRead acc.size a v) (u := v) ?_ (Gives.getThen ?_)
  · refine Gives.neg (fun h => h sp) (read.bind (Gives.getThen ?_))
    rw [← same]
    exact Gives.pure _ _
  · cases op.apply (8 * acc.size) (laneRead acc.size a v).data a.data a.cmp with
    | none => exact ends v
    | some y =>
      exact Gives.neg (fun h => h sp) ((hsWrite_gives (by rw [natBytes_length]; exact roomV) (by rw [natBytes_length]; exact cleanV)).bind
        (ends _))

/-- The lanes of a word in increasing order. -/
def Ordered (ls : List LaneAcc) : Prop := (ls.map (·.lane)).Pairwise (· < ·)

theorem Ordered.tail {a : LaneAcc} {ls : List LaneAcc} (h : Ordered (a :: ls)) : Ordered ls := (List.pairwise_cons.1 h).2

/-- The lowest lane may perform next. -/
theorem firstLanes_head {place : LaneAcc → Nat} {a : LaneAcc} {ls : List LaneAcc} (h : Ordered (a :: ls)) :
    ∃ r, firstLanes place (a :: ls) = a :: r := by
  have above : ∀ b ∈ ls, a.lane < b.lane := fun b hb => (List.pairwise_cons.1 h).1 _ (List.mem_map_of_mem hb)
  unfold firstLanes
  rw [List.filter_cons, if_pos]
  · exact ⟨_, rfl⟩
  · rw [Bool.not_eq_true', List.any_eq_false]
    intro b hb
    rcases List.mem_cons.1 hb with rfl | hb
    · simp
    · have := above b hb
      simp; omega

/-- The lanes of an atomic on checked pages, outside journalling: each takes its step in turn. -/
theorem checkedLanes_gives {w : View} {acc : Access} {op : AtomOp} {d : Group} {tm : Team} {l : Launch} (off : l.journal = 0)
    (sp : acc.space = 0) (writes : acc.kind.onlyReads = false) (ls : List LaneAcc) : ∀ {t : State}, (t.group? w.g).isSome →
    t.team? w.eid = some tm → t.launch? tm.launch = some l → InPhase w tm t → Ordered ls → CheckedAtomFollows w acc op d ls t →
    Gives (z := z) (atomWord w.g w.gr.nextId acc op ls) t ([], (checkedAtomLanes w acc op d ls t).2, none)
      (checkedAtomLanes w acc op d ls t).1 := by
  unfold atomWord
  induction ls generalizing d with
  | nil => exact fun _ _ _ _ _ _ => Gives.pure _ _
  | cons a ls ih =>
    intro t there ht hl phase ordered follow
    obtain ⟨gr, hg⟩ := Option.isSome_iff_exists.1 there
    have hg1 : (metaStepped w false a t).group? w.g = some gr := (metaStepped_group w false a t w.g).trans hg
    have record : ((metaStepped w false a t).group? w.g).getD d = gr := by rw [hg1]; rfl
    unfold CheckedAtomFollows at follow
    dsimp only at follow
    rw [record] at follow
    obtain ⟨room, clean, rest⟩ := follow
    have step : Gives (z := z) (metaStep tm acc a) t () (metaStepped w false a t) := by
      have k := metaStep_gives (z := z) (acc := acc) (a := a) phase
      rwa [writes] at k
    have lane := atomLane_stepped (z := z) (op := op) (others := (a :: ls).filter fun b => b.lane != a.lane) ht hl off sp step hg1 room clean
    have kept : Stands w.g t (atomPerformed w.g w.gr.nextId acc op gr a (metaStepped w false a t)) :=
      (Stands.stepped w false w.g a t).trans (Stands.atom w.g _ acc op gr a _)
    have next := ih (kept.group there) (by unfold State.team?; rw [kept.teams]; exact ht)
      (by unfold State.launch?; rw [kept.launches]; exact hl) (phase.stands kept) ordered.tail rest
    have unrolled : checkedAtomLanes w acc op d (a :: ls) t =
        ((checkedAtomLanes w acc op gr ls (atomPerformed w.g w.gr.nextId acc op gr a (metaStepped w false a t))).1,
          laneRead acc.size a (readAt (groupWho w.g gr w.gr.nextId) a.pa acc.size (metaStepped w false a t)) ::
            (checkedAtomLanes w acc op gr ls (atomPerformed w.g w.gr.nextId acc op gr a (metaStepped w false a t))).2) := by
      show ((checkedAtomLanes w acc op (((metaStepped w false a t).group? w.g).getD d) ls _).1, _ :: _) = _
      rw [record]
    rw [unrolled]
    obtain ⟨r, first⟩ := firstLanes_head (place := (·.pa)) ordered
    unfold atomSteps
    refine Gives.neg (by simp) (Gives.bind
      (a := .ok (laneRead acc.size a (readAt (groupWho w.g gr w.gr.nextId) a.pa acc.size (metaStepped w false a t))))
      (u := atomPerformed w.g w.gr.nextId acc op gr a (metaStepped w false a t)) ?_ ?_)
    · rw [first]
      unfold tryLanes
      exact lane.attempt.bind (Gives.pure _ _)
    · dsimp only
      rw [show (laneRead acc.size a (readAt (groupWho w.g gr w.gr.nextId) a.pa acc.size (metaStepped w false a t))).lane = a.lane from rfl,
        rest_lanes ordered]
      exact next.bind (Gives.pure _ _)

theorem Stands.checkedLanes (w : View) (acc : Access) (op : AtomOp) (d : Group) (ls : List LaneAcc) : ∀ t : State,
    Stands w.g t (checkedAtomLanes w acc op d ls t).1 := by
  induction ls generalizing d with
  | nil => exact Stands.refl w.g
  | cons a ls ih => exact fun t => (Stands.stepped w false w.g a t).trans ((Stands.atom w.g _ acc op _ a _).trans (ih _ _))

/-! Translation answers a word's lanes in their order -/

/-- What every run of `m` that ends answers. -/
def Answers {α : Type} (m : M z α) (P : α → Prop) : Prop := ∀ t a u, m t = .ok (a, u) → P a

theorem Answers.pure {α : Type} {P : α → Prop} {a : α} (h : P a) : Answers (z := z) (Pure.pure a) P := by
  intro t b u e
  cases e
  exact h

theorem Answers.stay {α : Type} {P : α → Prop} : Answers (z := z) (Machine.stay : M z α) P := fun _ _ _ e => nomatch e

theorem Answers.bind {α β : Type} {m : M z α} {f : α → M z β} {P : β → Prop} (h : ∀ a, Answers (f a) P) : Answers (m >>= f) P := by
  intro t b v e
  simp only [Bind.bind, StateT.bind, Except.bind] at e
  split at e
  · cases e
  · next x _ => exact h x.1 x.2 b v e

theorem Answers.foldEach {α β : Type} {f : β → α → M z β} {P : β → List α → Prop}
    (step : ∀ b x xs, P b (x :: xs) → Answers (f b x) fun c => P c xs) (xs : List α) : ∀ b, P b xs →
    Answers (Machine.foldEach xs b f) fun c => P c [] := by
  induction xs with
  | nil => exact fun b h => Answers.pure h
  | cons x xs ih =>
    intro b h t c v e
    unfold Machine.foldEach at e
    simp only [Bind.bind, StateT.bind, Except.bind] at e
    split at e
    · cases e
    · next y ey => exact ih y.1 (step b x xs h _ _ _ ey) _ _ _ e

/-- The lanes dealt with so far, before those of `ls`, of a word with the lanes `all`. -/
def Dealt (all : List LaneAcc) (r : Trans) (ls : List LaneAcc) : Prop :=
  ((r.ok ++ ls).map (·.lane)).Sublist (all.map (·.lane))

theorem Dealt.skip {all ls : List LaneAcc} {r r' : Trans} {a : LaneAcc} (h : Dealt all r (a :: ls)) (e : r'.ok = r.ok) : Dealt all r' ls := by
  unfold Dealt at h ⊢
  rw [e]
  exact (((List.sublist_cons_self a ls).append_left r.ok).map _).trans h

theorem Dealt.take {all ls : List LaneAcc} {r r' : Trans} {a b : LaneAcc} (h : Dealt all r (a :: ls)) (e : r'.ok = r.ok ++ [b])
    (same : b.lane = a.lane) : Dealt all r' ls := by
  unfold Dealt at h ⊢
  rw [e]
  simpa [same] using h

/-- The lanes translated are in their order among the lanes of the word. -/
theorem translate_lanes {cl ctx : Nat} {c : CtxRec} {acc : Access} {lanes : List LaneAcc} {t u : Run z} {r : Trans}
    (h : translate cl ctx c acc lanes t = .ok (r, u)) : (r.ok.map (·.lane)).Sublist (lanes.map (·.lane)) := by
  have k : Dealt lanes r [] := by
    refine Answers.foldEach (P := Dealt lanes) (fun r a ls d => Answers.bind fun x => ?_) lanes {} (List.Sublist.refl _) t r u h
    split
    · exact Answers.pure (d.take rfl rfl)
    · exact Answers.stay
    · exact Answers.pure (d.skip rfl)
    · exact Answers.pure (d.skip rfl)
  unfold Dealt at k
  rwa [List.append_nil] at k

/-- The lanes of a word that addresses memory lane by lane are in order, and so are those translated. -/
theorem addrs_ordered {w : View} {sb : BitVec 6} {vo : BitVec 8} (f : Nat × W64 → LaneAcc) (same : ∀ a, (f a).lane = a.1) :
    Ordered ((globalAddrs w sb vo).map f) := by
  unfold Ordered globalAddrs
  rw [List.map_map, List.map_map, List.map_congr_left (g := id) (fun l _ => same _), List.map_id]
  unfold View.lanes lanesOf
  exact List.pairwise_lt_range.filter _

theorem Ordered.sublist {ls ms : List LaneAcc} (h : Ordered ms) (k : (ls.map (·.lane)).Sublist (ms.map (·.lane))) : Ordered ls :=
  List.Pairwise.sublist k h

/-! A word with a checked lane is performed whole at its issue -/

/-- The kinds of access that a checked lane has performed at issue. -/
def AccKind.atIssue : AccKind → Bool
  | .load _ | .store | .atom _ => true
  | _ => false

/-- The state that a word's performance begins in: the access has its number. -/
structure Begins (s : State) (w : View) (u : State) (acc : Access) (ok : List LaneAcc) (gr : Group) (tm : Team) (l : Launch) : Prop where
  group : u.group? w.g = some gr
  next : gr.nextId = w.gr.nextId
  team : u.team? w.eid = some tm
  same : ∃ al ch st, tm = { w.t with al := al, charged := ch, stop := st }
  launch : u.launch? w.t.launch = some l
  phase : InPhase w tm u
  checked : ok.any (·.chk) = true
  free : readyNow u w.g (numbered gr) w.gr.nextId acc ok = true
  posted : (u.ctx w.t.ctx).msz = false

namespace Begins

variable {s u : State} {w : View} {acc : Access} {ok : List LaneAcc} {gr : Group} {tm : Team} {l : Launch}

theorem record (b : Begins s w u acc ok gr tm l) : (w.onGroup numbered u).group? w.g = some (numbered gr) := group_put b.group

theorem inPhase (b : Begins s w u acc ok gr tm l) : InPhase w tm (w.onGroup numbered u) := b.phase.stands (Stands.groups w.g numbered u)

/-- A word's lanes are performed at once, after the check. -/
theorem performs (b : Begins s w u acc ok gr tm l) (kind : acc.kind.atIssue = true) (p : Path z (w.onGroup numbered u)) :
    performLanes w.g w.gr.nextId acc ok false ⟨_, p⟩ = performChecked w.g w.gr.nextId acc ok false ⟨_, p⟩ := by
  obtain ⟨al, ch, st, rfl⟩ := b.same
  have nonempty : ok.isEmpty = false := by
    cases ok with
    | nil => exact nomatch b.checked
    | cons => rfl
  have msz : ((w.onGroup numbered u).ctx w.t.ctx).msz = false := b.posted
  obtain ⟨q, team⟩ := Gives.getTeam (z := z) (t := w.onGroup numbered u) b.team p
  obtain ⟨q', launch⟩ := Gives.getLaunch (z := z) (t := w.onGroup numbered u) b.launch q
  unfold performLanes
  refine (bind_run (show getS _ = .ok (_, ⟨_, p⟩) from rfl)).trans ((bind_run team).trans ((bind_run launch).trans ?_))
  dsimp only
  rw [msz, b.checked, nonempty]
  cases k : acc.kind with
  | load | store | atom => simp
  | atomo | vstVer | ldVer | fetch | snap | prf => rw [k] at kind; exact absurd kind Bool.false_ne_true

/-- What precedes the performance of a word that does not race. -/
theorem passes {α : Type} {f : Group → Team → State → M z α} {t : State} {a : α}
    (b : Begins s w u acc ok gr tm l) (k : Gives (f (numbered gr) tm (w.onGroup numbered u)) (w.onGroup numbered u) a t) :
    Gives (do
      let gr ← getGroup w.g
      let t ← getTeam (groupTeam w.g)
      let s ← getS
      guardS (readyNow s w.g gr w.gr.nextId acc ok)
      f gr t s) (w.onGroup numbered u) a t :=
  (Gives.getGroup b.record).bind ((Gives.getTeam (show (w.onGroup numbered u).team? _ = _ from b.team)).bind (Gives.getThen (Gives.guardThen b.free k)))

theorem causes (b : Begins s w u acc ok gr tm l) : checkedCauses (w.onGroup numbered u) tm acc ok = checkedCauses u w.t acc ok := by
  obtain ⟨al, ch, st, rfl⟩ := b.same
  rfl

/-- A lane races: nothing is performed. -/
theorem races (b : Begins s w u acc ok gr tm l) (kind : acc.kind.atIssue = true) (race : checkedCauses u w.t acc ok ≠ []) :
    Raises (z := z) (performLanes w.g w.gr.nextId acc ok) (w.onGroup numbered u) (checkedCauses u w.t acc ok) := by
  intro p
  rw [b.performs kind]
  revert p
  show Raises _ _ _
  unfold performChecked
  refine Raises.bind (Gives.getGroup b.record) (Raises.bind (Gives.getTeam b.team) (Raises.bind (Gives.get _)
    (Raises.bind (Gives.guard b.free _) ?_)))
  dsimp only
  rw [if_neg Bool.false_ne_true, b.causes, if_pos (by simpa using race)]
  exact Raises.first fun _ => rfl

/-- What a word that does not race is performed as. -/
theorem performed (b : Begins s w u acc ok gr tm l) (kind : acc.kind.atIssue = true) {t : State}
    (k : Gives (z := z) (performChecked w.g w.gr.nextId acc ok false) (w.onGroup numbered u) [] t) :
    Gives (z := z) (performLanes w.g w.gr.nextId acc ok) (w.onGroup numbered u) [] t := by
  intro p
  rw [b.performs kind]
  exact k p

theorem load {signed : Bool} (b : Begins s w u acc ok gr tm l) (kind : acc.kind = .load signed) (dest : acc.dest ≠ .none)
    (free : checkedCauses u w.t acc ok = [])
    (follow : PartsFollow w.g w.gr.nextId acc.psize (numbered gr) [] (splitParts acc ok)
      (ok.foldl (fun t a => metaStepped w true a t) (w.onGroup numbered u))) :
    Gives (z := z) (performLanes w.g w.gr.nextId acc ok) (w.onGroup numbered u) [] (checkedLoad w acc (numbered gr) ok (w.onGroup numbered u)) := by
  refine b.performed (by rw [kind]; rfl) ?_
  have steps := metaSteps_gives (z := z) (acc := acc) ok b.inPhase
  rw [show acc.kind.onlyReads = true by rw [kind]; rfl] at steps
  have record := (metaSteps_group w true w.g ok _).trans b.record
  obtain ⟨q, last⟩ := Option.isSome_iff_exists.1 ((Stands.parts w.g w.gr.nextId acc.psize (numbered gr) (splitParts acc ok) [] _).group
    (Option.isSome_iff_exists.2 ⟨_, record⟩))
  unfold performChecked
  refine b.passes ?_
  rw [b.causes, free, kind]
  exact Gives.neg (by simp) (steps.bind ((partsRead_gives _ _ record follow).bind ((pushDone_gives last dest).bind (Gives.pure _ _))))

theorem store (b : Begins s w u acc ok gr tm l) (kind : acc.kind = .store) (sp : acc.space = 0)
    (free : checkedCauses u w.t acc ok = [])
    (follow : Follows w.g w.gr.nextId acc.psize (numbered gr) true (splitParts acc (topLanes ok))
      (fun a t => stored w.g w.gr.nextId { acc with rels := (numbered gr).fences } ((t.group? w.g).getD (numbered gr)) a t)
      (ok.foldl (fun t a => metaStepped w false a t) (w.onGroup numbered u))) :
    Gives (z := z) (performLanes w.g w.gr.nextId acc ok) (w.onGroup numbered u) [] (checkedStore w acc (numbered gr) ok (w.onGroup numbered u)) := by
  refine b.performed (by rw [kind]; rfl) ?_
  have steps := metaSteps_gives (z := z) (acc := acc) ok b.inPhase
  rw [show acc.kind.onlyReads = false by rw [kind]; rfl] at steps
  have record := (metaSteps_group w false w.g ok _).trans b.record
  unfold performChecked
  refine b.passes ?_
  rw [b.causes, free]
  have lanes := storeLanes_gives (z := z) (acc := { acc with rels := (numbered gr).fences }) sp _ record follow
  cases acc
  cases kind
  exact Gives.neg (by simp) (steps.bind (lanes.bind (Gives.pure _ _)))

theorem atom {op : AtomOp} (b : Begins s w u acc ok gr tm l) (kind : acc.kind = .atom op) (sp : acc.space = 0) (dest : acc.dest ≠ .none)
    (off : l.journal = 0) (ordered : Ordered ok) (free : checkedCauses u w.t acc ok = [])
    (follow : CheckedAtomFollows w { acc with rels := (numbered gr).fences } op (numbered gr) ok (w.onGroup numbered u)) :
    Gives (z := z) (performLanes w.g w.gr.nextId acc ok) (w.onGroup numbered u) []
      (checkedAtom w acc op (numbered gr) ok (w.onGroup numbered u)) := by
  refine b.performed (by rw [kind]; rfl) ?_
  obtain ⟨al, ch, st, same⟩ := b.same
  have launch : (w.onGroup numbered u).launch? tm.launch = some l := by
    rw [same]
    exact b.launch
  have there : ((w.onGroup numbered u).group? w.g).isSome := Option.isSome_iff_exists.2 ⟨_, b.record⟩
  have lanes := checkedLanes_gives (z := z) (acc := { acc with rels := (numbered gr).fences }) off sp
    (by show acc.kind.onlyReads = false; rw [kind]; rfl) ok there b.team launch b.inPhase ordered follow
  obtain ⟨q, last⟩ := Option.isSome_iff_exists.1
    ((Stands.checkedLanes w { acc with rels := (numbered gr).fences } op (numbered gr) ok _).group there)
  have nonempty : (checkedAtomLanes w { acc with rels := (numbered gr).fences } op (numbered gr) ok (w.onGroup numbered u)).2 ≠ [] := by
    cases ok with
    | nil => exact nomatch b.checked
    | cons => exact List.cons_ne_nil _ _
  have pushed : Gives (z := z) (performAtom w.g w.gr.nextId { acc with rels := (numbered gr).fences } op ok (l.journal = 2))
      (w.onGroup numbered u) [] (groupPut w.g (fun q => { q with
        nextId := q.nextId + 1
        ls := q.ls ++ [{ id := q.nextId, unit := w.gr.nextId, acc := { acc with
          lanes := (checkedAtomLanes w { acc with rels := (numbered gr).fences } op (numbered gr) ok (w.onGroup numbered u)).2
          rels := (numbered gr).fences } }] })
        (checkedAtomLanes w { acc with rels := (numbered gr).fences } op (numbered gr) ok (w.onGroup numbered u)).1) := by
    unfold performAtom
    refine lanes.bind (Gives.neg (by simpa using nonempty) ((pushDone_gives (acc := { acc with rels := (numbered gr).fences }) last dest).bind (Gives.pure _ _)))
  unfold performChecked
  refine b.passes ?_
  rw [b.causes, free]
  cases acc
  cases kind
  exact Gives.neg (by simp) ((Gives.getLaunch launch).bind (pushed.bind (Gives.pos rfl (homePut_gives.bind (Gives.pure _ _)))))

end Begins

/-! The state that a checked access begins in -/

theorem traffic_mode {l n : Nat} {t : State} {k : Launch} (h : t.launch? l = some k) :
    ∃ k', (withTraffic l n t).launch? l = some k' ∧ k'.phm = k.phm ∧ k'.phase = k.phase ∧ k'.journal = k.journal := by
  refine ⟨_, (SMap.get?_adjust_self _ _ _).trans (congrArg _ h), ?_, ?_, ?_⟩ <;> dsimp only <;> cases k.msh <;> rfl

theorem begins {s : State} {w : View} {i : Info} {acc : Access} {lanes ok : List LaneAcc} {gr : Group} {u : State}
    (hw : view s = some w) (r : ReachesChecked s w i acc lanes ok gr u) : ∃ tm l, Begins s w u acc ok gr tm l ∧
      (∀ k, w.launch = some k → l.journal = k.journal) ∧ watched u tm = watched w.s w.t ∧
      ∃ n y, gr = { w.gr with stallUntil := n, yielded := y, sysWait := none } := by
  obtain ⟨k, l', tm, gr', -, hk, -, -, -, re⟩ := reached _ hw r.reach
  obtain ⟨al, ch, st, same⟩ := re.same
  obtain ⟨n, y, paid⟩ := paid_group_eq (i := i) hw
  have ws : w.s = s := (view_cases hw).1
  have launch : w.launch = some k := by
    unfold View.launch
    rw [ws]
    exact hk
  obtain ⟨l, hl, phm, phase, journal⟩ := traffic_mode (n := 32 * sectors acc.size (lanes.map (·.va))) (t := w.paid i) launch
  have hl : u.launch? w.t.launch = some l := by
    unfold State.launch?
    rw [re.still.launches]
    exact hl
  have record : gr = { w.gr with stallUntil := n, yielded := y, sysWait := none } := by
    have there : u.group? w.g = some { w.gr with stallUntil := n, yielded := y, sysWait := none } := by
      unfold State.group?
      rw [re.still.groups]
      exact paid
    exact Option.some.inj (r.group.symm.trans there)
  refine ⟨tm, l, ⟨r.group, by rw [record], re.team, ⟨al, ch, st, same⟩, hl, ⟨by rw [same], k, l, launch, by rw [same]; exact hl, phm, phase⟩,
    r.checked, r.free, r.posted⟩, fun k' h => ?_, ?_, n, y, record⟩
  · rw [launch] at h
    cases h
    exact journal
  · unfold watched State.ctx
    rw [re.still.ctxs, same]
    rfl

/-! Checked accesses -/

/-- An access word whose performance raises causes. -/
theorem access_raises {s : State} {w : View} {i : Info} {acc : Access} {lanes ok : List LaneAcc} {u : State} {n : Nat} {ds : List Detail}
    (hw : view s = some w) (r : Reaches s w (withTraffic w.t.launch n (w.paid i)) acc lanes ok u) (kp : acc.kind ≠ .prf)
    (raises : Raises (z := s) (performLanes w.g w.gr.nextId acc ok) (w.onGroup numbered u) ds) (pre : List Detail) (hpre : pre = []) :
    Gives (z := s) (do addTraffic w.t.launch n; startAccess w acc lanes pre) (w.paid i) (.raised ds) (w.onGroup numbered u) := by
  obtain ⟨l, l', tm, gr, htr, -, hl2, hr, -, re⟩ := reached n hw r
  subst hpre
  refine (traffic_gives _ _ _).bind ?_
  unfold startAccess
  refine (teamRec_gives hl2).bind ((Gives.get _).bind ((hr ▸ htr).bind ?_))
  have kb : (acc.kind == .prf) = false := by simpa using kp
  have tu := takeUnit_gives (z := s) (g := w.g) (n := 1) re.group
  rw [re.next] at tu
  simp only [r.unwatched, List.append_nil, kb, Bool.false_eq_true, if_false, List.isEmpty_nil, Bool.not_true, Bool.false_and]
  exact tu.bind (raises.attempt.bind (Gives.pure _ _))

/-- An access word with a checked lane, from what its performance leaves. -/
theorem checked_access {i : Instr} {info : View → Info} {acc : View → Access} {lanes : View → List LaneAcc}
    {f : View → Access → Group → List LaneAcc → State → State} {follows : View → Access → Group → List LaneAcc → State → Prop} {s : State}
    (runs : exec i s = runUnit s info fun w => accessLanes w (acc w) (lanes w))
    (np : ∀ w, (acc w).np = false) (kind : ∀ w, (acc w).kind.atIssue = true)
    (stands : ∀ w gr ok t, Stands w.g t (f w (acc w) gr ok t))
    (performs : ∀ w ok gr u tm l, view s = some w → Begins s w u (acc w) ok gr tm l → (∀ k, w.launch = some k → l.journal = k.journal) →
      (ok.map (·.lane)).Sublist ((lanes w).map (·.lane)) → checkedCauses u w.t (acc w) ok = [] →
      follows w (acc w) (numbered gr) ok (w.onGroup numbered u) →
      Gives (z := s) (performLanes w.g w.gr.nextId (acc w) ok) (w.onGroup numbered u) [] (f w (acc w) (numbered gr) ok (w.onGroup numbered u))) :
    Checked i info acc lanes f follows s := by
  intro w ok gr u hw ready acts e r
  obtain ⟨tm, l, b, journal, watch, n, y, record⟩ := begins hw r
  have kp : (acc w).kind ≠ .prf := by
    intro h
    have k := kind w
    rw [h] at k
    exact absurd k Bool.false_ne_true
  obtain ⟨al, ch, st, same⟩ := b.same
  refine ⟨fun free follow => ?_, fun race handles => ?_⟩
  · obtain ⟨_, _, _, _, tr, -⟩ := reached _ hw r.reach
    have sub : (ok.map (·.lane)).Sublist ((lanes w).map (·.lane)) := by
      obtain ⟨p, -⟩ := paid_gives (z := s) (i := info w) (view_cases hw).1 .refl
      obtain ⟨q, -⟩ := traffic_gives (z := s) w.t.launch (32 * sectors (acc w).size ((lanes w).map (·.va))) (w.paid (info w)) p
      obtain ⟨q', run⟩ := tr q
      exact translate_lanes run
    have kept := stands w (numbered gr) ok (w.onGroup numbered u)
    rw [runs]
    refine runUnit_gives hw ready acts (access_gives hw r.reach (np w) kp (performs w ok gr u tm l hw b journal sub free follow) ?_ ?_ ?_ _
      r.reach.aligned) (seq_gives e _)
    · exact kept.group (Option.isSome_iff_exists.2 ⟨_, b.record⟩)
    · unfold State.team?
      rw [kept.teams]
      exact (congrArg _ b.team).trans (by rw [same]; rfl)
    · unfold State.ctx
      rw [kept.ctxs]
      exact b.posted
  · obtain ⟨⟨outside, vector⟩, ⟨loads, fences⟩, plain⟩ := handles
    rw [runs]
    refine runUnit_gives hw ready acts (access_raises hw r.reach kp (b.races (kind w) race) _ r.reach.aligned) ?_
    refine trap_enters (gr := numbered gr) (tm := tm) b.record b.team rfl plain.2 (.inl (watch.trans plain.1)) ?_ ?_ ?_ ?_ ?_ ?_
    · rw [same]
    · rw [same]
    · rw [record]; exact outside
    · rw [record]; exact vector
    · rw [record]; exact loads
    · rw [record]; exact fences

namespace Stands

variable {g : Nat} {t u : State}

theorem home' (h : Stands g t u) (f : Home → Home) : Stands g t (homePut f u) := ⟨h.teams, h.launches, h.ctxs, h.group⟩

theorem onGroup {w : View} (h : Stands w.g t u) (f : Group → Group) : Stands w.g t (w.onGroup f u) := h.trans (groups w.g f u)

theorem stored (g u : Nat) (acc : Access) (gr : Group) (a : LaneAcc) (t : State) : Stands g t (stored g u acc gr a t) :=
  groupWritten g _ _ _ t

theorem load (w : View) (acc : Access) (gr : Group) (ok : List LaneAcc) (t : State) : Stands w.g t (checkedLoad w acc gr ok t) :=
  onGroup ((fold (fun t a => stepped w true w.g a t) ok t).trans (parts w.g _ _ gr _ [] _)) _

theorem store (w : View) (acc : Access) (gr : Group) (ok : List LaneAcc) (t : State) : Stands w.g t (checkedStore w acc gr ok t) :=
  (fold (fun t a => stepped w false w.g a t) ok t).trans
    (fold (fun t a => stored w.g w.gr.nextId { acc with rels := gr.fences } ((t.group? w.g).getD gr) a t) _ _)

theorem checkedAtom (w : View) (acc : Access) (op : AtomOp) (gr : Group) (ok : List LaneAcc) (t : State) :
    Stands w.g t (checkedAtom w acc op gr ok t) :=
  onGroup ((checkedLanes w { acc with rels := gr.fences } op gr ok t).home' _) _

end Stands

/-- A load word each of whose lanes loads. -/
theorem checked_load {i : Instr} {info : View → Info} {acc : View → Access} {lanes : View → List LaneAcc} {signed : Bool} {s : State}
    (runs : exec i s = runUnit s info fun w => accessLanes w (acc w) (lanes w)) (np : ∀ w, (acc w).np = false)
    (kind : ∀ w, (acc w).kind = .load signed) (dest : ∀ w, (acc w).dest ≠ .none) :
    Checked i info acc lanes checkedLoad (fun w acc gr ok t =>
      PartsFollow w.g w.gr.nextId acc.psize gr [] (splitParts acc ok) (ok.foldl (fun t a => metaStepped w true a t) t)) s :=
  checked_access runs np (fun w => by rw [kind w]; rfl) (fun w gr ok t => Stands.load w (acc w) gr ok t)
    fun w _ _ _ _ _ _ b _ _ free follow => b.load (kind w) (dest w) free follow

theorem checked_store {i : Instr} {info : View → Info} {acc : View → Access} {lanes : View → List LaneAcc} {s : State}
    (runs : exec i s = runUnit s info fun w => accessLanes w (acc w) (lanes w)) (np : ∀ w, (acc w).np = false)
    (kind : ∀ w, (acc w).kind = .store) (sp : ∀ w, (acc w).space = 0) :
    Checked i info acc lanes checkedStore (fun w acc gr ok t =>
      Follows w.g w.gr.nextId acc.psize gr true (splitParts acc (topLanes ok))
        (fun a t => stored w.g w.gr.nextId { acc with rels := gr.fences } ((t.group? w.g).getD gr) a t)
        (ok.foldl (fun t a => metaStepped w false a t) t)) s :=
  checked_access runs np (fun w => by rw [kind w]; rfl) (fun w gr ok t => Stands.store w (acc w) gr ok t)
    fun w _ _ _ _ _ _ b _ _ free follow => b.store (kind w) (sp w) free follow

theorem checked_atom {i : Instr} {info : View → Info} {acc : View → Access} {lanes : View → List LaneAcc} {op : AtomOp} {s : State}
    (runs : exec i s = runUnit s info fun w => accessLanes w (acc w) (lanes w)) (np : ∀ w, (acc w).np = false)
    (kind : ∀ w, (acc w).kind = .atom op) (sp : ∀ w, (acc w).space = 0) (dest : ∀ w, (acc w).dest ≠ .none)
    (ordered : ∀ w, Ordered (lanes w)) :
    Checked i info acc lanes (fun w acc gr ok t => checkedAtom w acc op gr ok t)
      (fun w acc gr ok t => NoJournal w ∧ CheckedAtomFollows w { acc with rels := gr.fences } op gr ok t) s := by
  refine checked_access runs np (fun w => by rw [kind w]; rfl) (fun w gr ok t => Stands.checkedAtom w (acc w) op gr ok t)
    fun w _ _ _ _ _ _ b journal sub free follow => ?_
  obtain ⟨⟨k, hk, off⟩, follow⟩ := follow
  exact b.atom (kind w) (sp w) (dest w) ((journal k hk).trans off) ((ordered w).sublist sub) free follow

/-! The table of R128, and the check of every lane (R129) -/

theorem race_table (m : Meta) (tag : BitVec 24) (ph : BitVec 16) :
    let n : Meta := if m.ptag = ph then m else { m with ptag := ph, written := false, read := false, multi := false }
    let r := raceStep m tag ph true
    let x := raceStep m tag ph false
    r.1 = { n with multi := if tag ≠ n.wtag then true else n.multi, read := true } ∧
    (r.2.1 = true ↔ n.written = true ∧ n.wtag ≠ tag) ∧
    x.1 = { n with written := true, wtag := tag, ver := n.ver + 1 } ∧
    (x.2.1 = true ↔ (n.written = true ∧ n.wtag ≠ tag) ∨ (n.read = true ∧ (n.multi = true ∨ n.wtag ≠ tag))) := by
  unfold raceStep
  generalize (if m.ptag = ph then m else _ : Meta) = n
  refine ⟨?_, ?_, rfl, ?_⟩
  · by_cases h : tag = n.wtag <;> simp [h]
  · simp
  · simp

/-- One turn of the check of every lane: the metadata as the lanes so far leave it, and the causes found. -/
def raceTurn (tag : BitVec 24) (phase : BitVec 16) (reads : Bool) (x : SMap Meta × List Detail) (a : LaneAcc) : SMap Meta × List Detail :=
  let r := raceStep ((SMap.get? x.1 (a.pa / 64)).getD {}) tag phase reads
  (SMap.put x.1 (a.pa / 64) r.1,
    if r.2.1 then x.2 ++ [laneDetail Cause.race a.lane (if r.2.2 then 1 else 0) a.va] else x.2)

theorem raceCheck_turns (s : State) (t : Team) (reads : Bool) (ls : List LaneAcc) :
    raceCheck s t reads ls = (ls.foldl (raceTurn (BitVec.ofNat 24 t.tag) (phaseOf s t) reads) (s.home.info, [])).2 := rfl

/-- Lanes of different lines race one without another. -/
theorem races_none {tag : BitVec 24} {phase : BitVec 16} {reads : Bool} {info : SMap Meta} (ls : List LaneAcc) : ∀ x : SMap Meta × List Detail,
    (ls.map fun a => a.pa / 64).Nodup → (∀ a ∈ ls, SMap.get? x.1 (a.pa / 64) = SMap.get? info (a.pa / 64)) →
    ((ls.foldl (raceTurn tag phase reads) x).2 = [] ↔ x.2 = [] ∧
      ∀ a ∈ ls, (raceStep ((SMap.get? info (a.pa / 64)).getD {}) tag phase reads).2.1 = false) := by
  induction ls with
  | nil => simp
  | cons a ls ih =>
    intro x apart same
    obtain ⟨other, apart⟩ := List.nodup_cons.1 apart
    have kept : ∀ b ∈ ls, SMap.get? (raceTurn tag phase reads x a).1 (b.pa / 64) = SMap.get? info (b.pa / 64) := by
      intro b hb
      have differ : a.pa / 64 ≠ b.pa / 64 := fun h => other (List.mem_map.2 ⟨b, hb, h.symm⟩)
      exact (SMap.get?_put_ne _ _ differ).trans (same b (List.mem_cons_of_mem _ hb))
    rw [List.foldl_cons, ih _ apart kept, List.forall_mem_cons, ← and_assoc]
    refine and_congr_left' ?_
    unfold raceTurn
    rw [same a List.mem_cons_self]
    dsimp only
    cases (raceStep ((SMap.get? info (a.pa / 64)).getD {}) tag phase reads).2.1 <;> simp

/-- Where lanes lie on different lines, none races unless its own step does. -/
theorem checkedCauses_none {s : State} {t : Team} {acc : Access} {ls : List LaneAcc} (phm : phaseMode s t = true)
    (apart : (ls.map fun a => a.pa / 64).Nodup) :
    checkedCauses s t acc ls = [] ↔ ∀ a ∈ ls, a.chk = true →
      (raceStep (metaOf s a.pa) (BitVec.ofNat 24 t.tag) (phaseOf s t) acc.kind.onlyReads).2.1 = false := by
  unfold checkedCauses
  rw [if_pos phm, raceCheck_turns, races_none (info := s.home.info) _ _ (apart.sublist (List.filter_sublist.map _)) fun _ _ => rfl]
  simp only [List.mem_filter, true_and, and_imp]
  rfl

/-- Settles O19: a word with a checked lane checks every lane at its issue, then performs whole. -/
theorem checkedAccesses : Obligations.CheckedAccesses := by
  unfold Obligations.CheckedAccesses
  intro loadFollows storeFollows loads stores atomics
  have load {i : BitVec 7 → BitVec 6 → BitVec 8 → BitVec 2 → Instr} {signed : Bool} {size : Nat}
      (runs : ∀ s vd sb vo ord, exec (i vd sb vo ord) s = runLoad s (operandsOk (i vd sb vo ord)) signed size vd sb vo ord) :
      loads i signed size := fun s vd sb vo ord =>
    checked_load (runs s vd sb vo ord) (fun _ => rfl) (fun _ => rfl) fun _ => by simp
  have store {i : BitVec 7 → BitVec 6 → BitVec 8 → BitVec 2 → Instr} {size : Nat}
      (runs : ∀ s vd sb vo ord, exec (i vd sb vo ord) s = runStore s (operandsOk (i vd sb vo ord)) size vd sb vo ord) :
      stores i size := fun s vd sb vo ord =>
    checked_store (runs s vd sb vo ord) (fun _ => rfl) (fun _ => rfl) fun _ => rfl
  have atom {i : BitVec 7 → BitVec 6 → BitVec 8 → BitVec 2 → Instr} {op : AtomOp} {size : Nat}
      (runs : ∀ s vd sb vo ord, exec (i vd sb vo ord) s = runAtom s (operandsOk (i vd sb vo ord)) op size vd sb vo ord) :
      atomics i op size := fun s vd sb vo ord =>
    checked_atom (runs s vd sb vo ord) (fun _ => rfl) (fun _ => rfl) (fun _ => rfl) (fun _ => by simp)
      fun _ => addrs_ordered _ fun _ => rfl
  refine ⟨load fun _ _ _ _ _ => rfl, load fun _ _ _ _ _ => rfl, load fun _ _ _ _ _ => rfl, load fun _ _ _ _ _ => rfl,
    load fun _ _ _ _ _ => rfl, load fun _ _ _ _ _ => rfl, load fun _ _ _ _ _ => rfl,
    store fun _ _ _ _ _ => rfl, store fun _ _ _ _ _ => rfl, store fun _ _ _ _ _ => rfl, store fun _ _ _ _ _ => rfl,
    store fun _ _ _ _ _ => rfl,
    atom fun _ _ _ _ _ => rfl, atom fun _ _ _ _ _ => rfl, atom fun _ _ _ _ _ => rfl, atom fun _ _ _ _ _ => rfl,
    atom fun _ _ _ _ _ => rfl, atom fun _ _ _ _ _ => rfl, atom fun _ _ _ _ _ => rfl, atom fun _ _ _ _ _ => rfl,
    atom fun _ _ _ _ _ => rfl, atom fun _ _ _ _ _ => rfl, atom fun _ _ _ _ _ => rfl, atom fun _ _ _ _ _ => rfl,
    atom fun _ _ _ _ _ => rfl, atom fun _ _ _ _ _ => rfl, ?_, ?_, ?_, race_table, ?_⟩
  · exact fun s vd sb vo ord => checked_load rfl (fun _ => rfl) (fun _ => rfl) fun _ => by simp
  · exact fun s vd sb vo ord => checked_store rfl (fun _ => rfl) (fun _ => rfl) fun _ => rfl
  · exact fun s vd sb vo ord => checked_store rfl (fun _ => rfl) (fun _ => rfl) fun _ => rfl
  · intro s t acc ls
    refine ⟨fun phm => ?_, checkedCauses_none⟩
    unfold checkedCauses
    rw [phm]
    rfl

end Sys2Proof.Machine
end

section
/-! O47: bursts, completions and grants of the engines. -/

namespace Sys2Proof.Machine

variable {z : State}

/-! Current for a burst (R327, R329) -/

/-- The current a step of an engine needs is held, or granted at once, which leaves `v`. -/
def CurrentPaid (s : State) (cl : Nat) (who : Asker) (amount : Nat) (v : State) : Prop :=
  ((s.str (clusterString cl)).holds who = true ∧ v = s) ∨
    ∃ rest, Grantable s cl who amount rest ∧ v = currentTaken cl who amount rest s

theorem CurrentPaid.gives {s v : State} {cl amount : Nat} {who : Asker} (h : CurrentPaid s cl who amount v)
    (engine : ∀ c, who ≠ .vec c ∧ who ≠ .sfu c) : Gives (z := z) (askCurrent cl who amount) s true v := by
  rcases h with ⟨held, rfl⟩ | ⟨rest, grant, rfl⟩
  · exact Gives.getThen (Gives.pos held (Gives.pure _ _))
  · exact currentTaken_gives grant engine

/-- The grant changes the string alone. -/
theorem CurrentPaid.strings {s v : State} {cl amount : Nat} {who : Asker} (h : CurrentPaid s cl who amount v) :
    ∃ q, v = { s with strings := q } := by
  rcases h with ⟨-, rfl⟩ | ⟨rest, -, rfl⟩
  · exact ⟨_, rfl⟩
  · exact ⟨_, rfl⟩

/-! Copies (R95, R100, R105) -/

/-- The operations with work that a burst of `op` passes over. -/
def passedOver (s : State) (cl : Nat) (op : CopyOp) : State → State := clusterPut cl fun c =>
  { c with copyq := c.copyq.map fun o => if o.id ≠ op.id && CopyOp.hasWork s o then { o with passed := o.passed + 1 } else o }

/-- A burst of one point leaves what the point leaves, with its current given back. -/
theorem copyBurst_point {s v u : State} {cl p : Nat} {op : CopyOp} (awake : stringAwake s cl = true)
    (pick : pickCopy s (s.cluster cl).copyq = some op) (paid : CurrentPaid s cl (.copy cl) 8 v)
    (one : op.ready s (max 1 (512 / op.esize)) = [p]) (point : Gives (z := s) (runCopyPoint cl op.id p) (passedOver s cl op v) () u) :
    exec (.copyBurst cl) s = .next (currentReleased cl (.copy cl) u) := by
  refine runM_gives (Gives.getThen (Gives.guardThen awake (Gives.needThen pick ((paid.gives fun c => ⟨nofun, nofun⟩).bind
    (Gives.pos rfl ?_)))))
  rw [one]
  exact clusterPut_gives.bind ((forEach_one point).bind (currentReleased_gives _ _ _))

/-- The operation of a burst is as it was when the others have been passed over. -/
theorem passedOver_find {s v : State} {cl : Nat} {op : CopyOp}
    (found : (v.cluster cl).copyq.find? (fun o => o.id = op.id) = some op) :
    ((passedOver s cl op v).cluster cl).copyq.find? (fun o => o.id = op.id) = some op := by
  unfold passedOver
  rw [cluster_put]
  refine (find_map found fun o => ?_).trans ?_
  · split <;> rfl
  · simp

/-- A point that misses waits for its page. -/
theorem copyPoint_waits {cl p : Nat} {op : CopyOp} {tm : Team} {l : Launch} {w : List (Nat × Nat)} {m : Met} {key : Nat} {v u u' : State}
    {r : Missed} {wt : Wait} (found : (v.cluster cl).copyq.find? (fun o => o.id = op.id) = some op) (team : v.team? op.eid = some tm)
    (launch : v.launch? tm.launch = some l) (copies : ∀ sn d, op.kind ≠ .fold sn d)
    (point : Gives (z := z) (copyPoint (engAt cl op.id tm l op.denied op.clock p) op tm.shape.spad p) v (w, m, key) u)
    (miss : m.miss = some r)
    (attach : Gives (z := z) (attachMiss tm.ctx l.rcd.vfn r.stage r.page r.kind (op.waiting.map (·.2))) u wt u') :
    Gives (z := z) (runCopyPoint cl op.id p) v () (clusterPut cl (fun c =>
      { c with copyq := c.copyq.map fun o => if o.id = op.id then o.held p wt r.va else o }) u') := by
  unfold runCopyPoint
  refine Gives.getThen (Gives.needThen found ((Gives.getTeam team).bind ((engAt_gives team launch).bind ?_)))
  dsimp only
  refine Gives.bind (a := (w, m, key)) (u := u) ?_ ?_
  · split
    · next sn d h => exact absurd h (copies sn d)
    · exact point
  · dsimp only
    rw [miss]
    exact attach.bind clusterPut_gives

/-- A point between two places of the scratchpad. -/
theorem copyPoint_local {s : State} {x : Eng} {op : CopyOp} {src : Layout} {tm : Team} {p : Nat} {sa da : Int}
    (team : s.team? op.eid = some tm) (kind : op.kind = .copy src) (plain : op.idx = none) (from_ : src.space = 1) (to_ : op.dst.space = 1)
    (same : src.lsize = op.dst.lsize) (small : src.lsize ≤ 3) (sound : spPoisoned tm sa.toNat (2 ^ src.lsize) = false)
    (source : src.addr tm.shape.spad (List.zipWith (· + ·) (op.dst.coords p) op.org) = some sa)
    (dest : op.dst.addr tm.shape.spad (op.dst.coords p) = some da)
    (reads : Clean s x.who (spKey op.eid sa.toNat) (2 ^ src.lsize) false)
    (writes : Clean (seenAt x.who (spKey op.eid sa.toNat) (2 ^ src.lsize) s) x.who (spKey op.eid da.toNat) (2 ^ src.lsize) true) :
    Gives (z := z) (copyPoint x op tm.shape.spad p) s
      ([(2 ^ 60 + da.toNat, 2 ^ src.lsize)], { reads := [(2 ^ 60 + sa.toNat, 2 ^ src.lsize)] }, wrapTo 64 da + 1)
      (spWritten x.who op.eid da.toNat (spBytes tm sa.toNat (2 ^ src.lsize)) (seenAt x.who (spKey op.eid sa.toNat) (2 ^ src.lsize) s)) := by
  have eight : 2 ^ src.lsize ≤ 8 := Nat.pow_le_pow_right (n := 2) (by omega) small
  have halves (a : Nat) : byHalves a (2 ^ src.lsize) = [(a, 2 ^ src.lsize)] := if_pos eight
  have read : Gives (z := z) (readElem x op.eid src sa {}) s
      (spNat tm sa.toNat (2 ^ src.lsize), { reads := [(2 ^ 60 + sa.toNat, 2 ^ src.lsize)] })
      (seenAt x.who (spKey op.eid sa.toNat) (2 ^ src.lsize) s) := by
    unfold readElem
    refine Gives.neg (by rw [from_]; simp) ((Gives.getTeam team).bind ?_)
    rw [halves, sound]
    refine Gives.bind (a := [spBytes tm sa.toNat (2 ^ src.lsize)]) ((spRead_gives team reads).bind (Gives.pure _ _)) ?_
    rw [List.flatten_singleton]
    exact Gives.pure _ _
  have write : Gives (z := z) (writeElem x op.eid op.dst da (spNat tm sa.toNat (2 ^ src.lsize), 0) { reads := [(2 ^ 60 + sa.toNat, 2 ^ src.lsize)] })
      (seenAt x.who (spKey op.eid sa.toNat) (2 ^ src.lsize) s)
      ([(2 ^ 60 + da.toNat, 2 ^ src.lsize)], { reads := [(2 ^ 60 + sa.toNat, 2 ^ src.lsize)] })
      (spWritten x.who op.eid da.toNat (spBytes tm sa.toNat (2 ^ src.lsize)) (seenAt x.who (spKey op.eid sa.toNat) (2 ^ src.lsize) s)) := by
    unfold writeElem
    dsimp only
    rw [to_, ← same, halves]
    refine Gives.neg (by simp) ((Gives.getTeam (show (seenAt x.who (spKey op.eid sa.toNat) (2 ^ src.lsize) s).team? _ = some tm from team)).bind
      (Gives.bind (a := ()) (forEach_one ?_) (Gives.neg (by simp) (Gives.pure _ _))))
    dsimp only
    rw [Nat.and_zero, Nat.or_zero, Nat.sub_self, Nat.mul_zero, Nat.pow_zero, Nat.div_one, spPut_bytes]
    exact spStore_gives (by rw [show (spBytes tm sa.toNat (2 ^ src.lsize)).length = 2 ^ src.lsize by simp [spBytes]]; exact writes)
  unfold copyPoint
  dsimp only
  rw [plain, kind]
  refine Gives.bind (Gives.pure _ _) (Gives.neg (by simp) ?_)
  rw [dest]
  dsimp only
  rw [source]
  refine Gives.bind (a := (some (spNat tm sa.toNat (2 ^ src.lsize), 0), { reads := [(2 ^ 60 + sa.toNat, 2 ^ src.lsize)] }))
    (read.bind (Gives.pure _ _)) (Gives.neg ?_ (Gives.bind write ?_))
  · unfold CopyOp.superseded
    rw [plain]
    simp
  · exact Gives.pure _ _

/-- A copy that is over gives its signals and counts in its batch. -/
theorem copyComplete_fires (cl id : Nat) (op : CopyOp) (tm : Team) : Fires (.copyComplete cl id)
    (fun s => (s.cluster cl).copyq.find? (fun o => o.id = id) = some op ∧ op.over s = true ∧ s.team? op.eid = some tm ∧
      (∀ a ∈ SMap.keys op.writes, NSet.has op.reads a = false) ∧ op.dep = none ∧ op.bobj = none ∧
      ∀ off, op.descOff = some off → Clean s (opWho id op.clock) (spKey op.eid (off + 56)) 8 true)
    (fun s => opCounted op.g 0 id (if op.descOff.isSome then 0 else outcomeFlags op.poison op.layerData op.xfail) op.clock
      (copyGone cl op (match op.descOff with
        | some off => spWritten (opWho id op.clock) op.eid (off + 56) (natBytes (op.status false) 8) s
        | none => s))) := by
  rintro s ⟨found, ends, team, apart, dep, bobj, clean⟩
  have named : op.id = id := find_id (f := CopyOp.id) found
  have free : (SMap.keys op.writes).filter (fun a => NSet.has op.reads a) = [] :=
    List.filter_eq_nil_iff.2 fun a ha => by rw [apart a ha]; exact Bool.false_ne_true
  subst named
  refine runM_gives (Gives.getThen (Gives.needThen found (Gives.guardThen ends ((Gives.getTeam team).bind
    (Gives.bind (a := ()) (u := s) ?_ ?_)))))
  · unfold freeOverlap
    rw [free]
    exact Gives.pure _ _
  · dsimp only
    rw [dep, bobj]
    refine Gives.bind (Gives.pure _ _) ?_
    cases d : op.descOff with
    | none => exact clusterPut_gives.bind (teamPut_gives.bind groupPut_gives)
    | some off =>
      exact (spStore_gives (by rw [natBytes_length]; exact clean off d)).bind (clusterPut_gives.bind (teamPut_gives.bind groupPut_gives))

/-- A page's line is dropped where the range holds it whole. -/
def lineTurn (lo hi page pa : Nat) (t : State) (i : Nat) : State :=
  if lo ≤ page + 64 * i ∧ page + 64 * i + 64 ≤ hi then lineDiscarded ((pa + 64 * i) / 64) t else t

theorem lineDiscarded_dev (line : Nat) (t : State) : (lineDiscarded line t).dev = t.dev := by
  unfold lineDiscarded
  split
  · rfl
  · next old _ =>
    generalize List.range 64 = is
    generalize e : ({ t with home := { t.home with now := t.home.now + 1, dirty := SMap.del t.home.dirty line } } : State) = v
    have kept : v.dev = t.dev := by rw [← e]
    clear e
    induction is generalizing v with
    | nil => exact kept
    | cons i is ih => exact ih _ kept

theorem lineTurn_gives {lo hi page i : Nat} {a : LaneAcc} {t : State} (settled : t.dev.hcommit = none) : Gives (z := z) (do
    let va := (page : Int) + ((64 * i : Nat) : Int)
    if (lo : Int) ≤ va && va + 64 ≤ (hi : Int) then
      guardS (!commitBlocks (← getS).dev (a.pa + 64 * i))
      dropLine ((a.pa + 64 * i) / 64)) t () (lineTurn lo hi page a.pa t i) := by
  have free : (!commitBlocks t.dev (a.pa + 64 * i)) = true := by simp [commitBlocks, settled]
  dsimp only
  unfold lineTurn
  by_cases whole : lo ≤ page + 64 * i ∧ page + 64 * i + 64 ≤ hi
  · rw [if_pos whole]
    exact Gives.pos (by rw [Bool.and_eq_true, decide_eq_true_eq, decide_eq_true_eq]; omega)
      (Gives.getThen (Gives.guardThen free (lineDiscarded_gives _ t)))
  · rw [if_neg whole]
    exact Gives.neg (by rw [Bool.and_eq_true, decide_eq_true_eq, decide_eq_true_eq]; omega) (Gives.pure _ _)

/-- The lines of one page are dropped one after another. -/
theorem lineTurns_gives {lo hi page : Nat} {a : LaneAcc} (is : List Nat) : ∀ {t : State}, t.dev.hcommit = none →
    Gives (z := z) (forEach is fun i => do
      let va := (page : Int) + ((64 * i : Nat) : Int)
      if (lo : Int) ≤ va && va + 64 ≤ (hi : Int) then
        guardS (!commitBlocks (← getS).dev (a.pa + 64 * i))
        dropLine ((a.pa + 64 * i) / 64)) t () (is.foldl (lineTurn lo hi page a.pa) t) := by
  induction is with
  | nil => exact fun _ => Gives.pure _ _
  | cons i is ih =>
    intro t settled
    refine (lineTurn_gives settled).bind (ih ?_)
    unfold lineTurn
    split
    · rw [lineDiscarded_dev]
      exact settled
    · exact settled

/-- A discard within one page acts at every slice in one step. -/
theorem discardComplete_page {s u : State} {cl id va len : Nat} {op : CopyOp} {tm : Team} {l : Launch} {a : LaneAcc}
    (found : (s.cluster cl).copyq.find? (fun o => o.id = id) = some op) (kind : op.kind = .discard va len)
    (issued : issuerDone s op.g op.start = true) (team : s.team? op.eid = some tm) (launch : s.launch? tm.launch = some l) (some_ : 0 < len)
    (page : va / 4096 = (va + len - 1) / 4096)
    (xlate : Gives (z := s) (engXlate (engAt cl id tm l [] op.clock 0) Kind.copyWrite ((va / 4096 * 4096 : Nat) : Int)) s (.ok a) u)
    (settled : u.dev.hcommit = none) :
    exec (.discardComplete cl id) s = .next (opCounted op.g 0 id 0 op.clock
      (clusterPut cl (fun c => { c with copyq := c.copyq.filter fun o => o.id != id })
        ((List.range 64).foldl (lineTurn va (va + len) (va / 4096 * 4096) a.pa) u))) := by
  have pages : (va + len - va / 4096 * 4096 + 4095) / 4096 = 1 := by omega
  refine runM_gives (Gives.getThen (Gives.needThen found (Gives.guardThen issued ?_)))
  rw [kind]
  refine (engAt_gives team launch).bind ?_
  dsimp only
  rw [pages]
  refine Gives.bind (a := ()) (xlate.bind ((lineTurns_gives _ settled).bind (Gives.pure _ _))) (clusterPut_gives.bind groupPut_gives)

/-! The matrix unit (R278, R279, R326) -/

/-- Cycles for which an entry occupies the array. -/
def MatOp.cycles (op : MatOp) : Nat :=
  match op.kind with
  | .pass batched rcd b _ => passCycles batched (readRes rcd).fmt (readBWord b).fmt (readBWord b).kt
  | _ => 0

/-- The current that an entry asks for is held or granted at once, which leaves `v`. -/
def MatOp.HasCurrent (op : MatOp) (s : State) (cl : Nat) (v : State) : Prop :=
  match op.current cl with
  | some (who, amount) => CurrentPaid s cl who amount v
  | none => v = s

theorem current_engine {op : MatOp} {cl amount : Nat} {who : Asker} (h : op.current cl = some (who, amount)) (c : Nat) :
    who ≠ .vec c ∧ who ≠ .sfu c := by
  unfold MatOp.current at h
  split at h
  · cases h
    exact ⟨nofun, nofun⟩
  · split at h
    · cases h
    · cases h
      exact ⟨nofun, nofun⟩

theorem MatOp.HasCurrent.gives {op : MatOp} {s v : State} {cl : Nat} (h : op.HasCurrent s cl v) :
    Gives (z := z) (match op.current cl with
      | some (who, amount) => askCurrent cl who amount
      | none => pure true) s true v := by
  unfold MatOp.HasCurrent at h
  cases e : op.current cl with
  | none =>
    rw [e] at h
    subst h
    exact Gives.pure _ _
  | some ask =>
    rw [e] at h
    exact CurrentPaid.gives h (current_engine e)

theorem MatOp.HasCurrent.strings {op : MatOp} {s v : State} {cl : Nat} (h : op.HasCurrent s cl v) : ∃ q, v = { s with strings := q } := by
  unfold MatOp.HasCurrent at h
  split at h
  · exact h.strings
  · subst h
    exact ⟨_, rfl⟩

/-- An entry takes its resource with its current held. -/
theorem matGrant_chosen {s v : State} {cl id : Nat} {op : MatOp} (found : (s.cluster cl).mat.find? (fun o => o.id = id) = some op)
    (awake : stringAwake s cl = true) (waits : op.granted = false) (oldest : op.oldest s (s.cluster cl).mat = true)
    (current : op.HasCurrent s cl v) (chosen : ∃ o, pickMat v cl (s.cluster cl).mat op.usesArray = some o ∧ o.id = id) :
    exec (.matGrant cl id) s = .next (clusterPut cl (fun c => { c with mat := c.mat.map fun o =>
      if o.id = id then { o with granted := true, doneAt := (s.cluster cl).cyc + op.cycles }
      else if o.usesArray == op.usesArray && (o.eligible v cl (s.cluster cl).mat) then { o with passed := o.passed + 1 }
      else o }) v) := by
  obtain ⟨o, pick, named⟩ := chosen
  have picked : (pickMat v cl (s.cluster cl).mat op.usesArray).any (·.id = id) = true := by rw [pick]; simpa using named
  obtain ⟨q, still⟩ := current.strings
  have cyc : (v.cluster cl).cyc = (s.cluster cl).cyc := by rw [still]; rfl
  refine runM_gives (Gives.getThen (Gives.needThen found (Gives.guardThen (by simp [awake, waits, oldest]) (current.gives.bind
    (Gives.getThen (Gives.guardThen (by rw [picked]; rfl) (Gives.pos (by rw [picked]; rfl) ?_)))))))
  rw [cyc]
  exact clusterPut_gives

/-- A burst of one point of the fetcher. -/
theorem fetcherBurst_point {s v u : State} {cl p : Nat} {op : MatOp} {tm : Team} {l : Launch} {m : Met} (awake : stringAwake s cl = true)
    (pick : (s.cluster cl).mat.find? (fun o => o.granted && !o.usesArray) = some op)
    (found : (s.cluster cl).mat.find? (fun o => o.id = op.id) = some op) (team : s.team? op.eid = some tm)
    (launch : s.launch? tm.launch = some l) (paid : CurrentPaid s cl (.fetch cl op.id) 8 v) (one : op.burst s = [p])
    (point : Gives (z := s) (matPoint (engAt cl op.id tm l op.denied op.clock p) op p) v m u) (hit : m.miss = none) :
    exec (.fetcherBurst cl) s = .next (currentReleased cl (.fetch cl op.id) (clusterPut cl (fun c =>
      { c with mat := c.mat.map fun o => if o.id = op.id then o.moved p m else o }) u)) := by
  obtain ⟨q, rfl⟩ := paid.strings
  refine runM_gives (Gives.getThen (Gives.guardThen awake (Gives.needThen pick (Gives.guardThen (by rw [one]; rfl)
    ((paid.gives fun c => ⟨nofun, nofun⟩).bind (Gives.pos rfl ?_))))))
  rw [one]
  have moved := matPoint_run (v := { s with strings := q }) found team launch point hit
  exact (forEach_one moved).bind (currentReleased_gives _ _ _)

/-- An entry whose points and cycles are over. -/
structure MatOver (s : State) (cl id : Nat) (op : MatOp) (tm : Team) : Prop where
  found : (s.cluster cl).mat.find? (fun o => o.id = id) = some op
  granted : op.granted = true
  moved : exhausted op.next op.total op.taken = true
  answered : op.retry = []
  waits : op.waiting = []
  due : op.doneAt ≤ (s.cluster cl).cyc
  team : s.team? op.eid = some tm

/-- What an entry does to its team as it completes, and the outcome it counts with. -/
def MatOp.effect (op : MatOp) (cl id : Nat) (t : Team) : M z (BitVec 3) :=
  match op.kind with
  | .pass batched rcd b bank => do
    let r := t.mat.pass op.rbase batched (readRes rcd) (readBWord b) bank
    modTeam op.eid fun t => { t with mat := r.1 }
    releaseCurrent cl (.pass cl id)
    pure (outcomeFlags r.2 false false)
  | .zero bank => do
    modTeam op.eid fun t => { t with mat := t.mat.zeroBank bank }
    pure 0
  | _ => pure op.flags

/-- An entry that is over takes its effect, leaves the unit and counts in its batch. -/
theorem matOpComplete_over {s u : State} {cl id : Nat} {op : MatOp} {tm : Team} {flags : BitVec 3} (over_ : MatOver s cl id op tm)
    (effect : Gives (z := s) (op.effect cl id tm) s flags u) :
    exec (.matOpComplete cl id) s = .next (opCounted op.g 1 id flags op.clock (matGone cl op u)) := by
  obtain ⟨found, granted, moved, answered, waits, due, team⟩ := over_
  have named : op.id = id := find_id (f := MatOp.id) found
  subst named
  refine runM_gives (Gives.getThen (Gives.needThen found (Gives.guardThen (by simp [granted, moved, answered, waits, due])
    ((Gives.getTeam team).bind ?_))))
  dsimp only
  exact Gives.bind effect (clusterPut_gives.bind (teamPut_gives.bind groupPut_gives))

theorem effect_zero {s : State} {cl id : Nat} {op : MatOp} {tm : Team} {bank : Nat} (kind : op.kind = .zero bank) :
    Gives (z := z) (op.effect cl id tm) s 0 (teamPut op.eid (fun t => { t with mat := t.mat.zeroBank bank }) s) := by
  unfold MatOp.effect
  rw [kind]
  exact teamPut_gives.bind (Gives.pure _ _)

theorem effect_pass {s : State} {cl id : Nat} {op : MatOp} {tm : Team} {batched : Bool} {rcd b : W64} {bank : Nat}
    (kind : op.kind = .pass batched rcd b bank) :
    Gives (z := z) (op.effect cl id tm) s
      (outcomeFlags (tm.mat.pass op.rbase batched (readRes rcd) (readBWord b) bank).2 false false)
      (currentReleased cl (.pass cl id)
        (teamPut op.eid (fun t => { t with mat := (tm.mat.pass op.rbase batched (readRes rcd) (readBWord b) bank).1 }) s)) := by
  unfold MatOp.effect
  rw [kind]
  exact teamPut_gives.bind ((currentReleased_gives _ _ _).bind (Gives.pure _ _))

theorem effect_fetcher {s : State} {cl id : Nat} {op : MatOp} {tm : Team} (fetcher : op.usesArray = false) :
    Gives (z := z) (op.effect cl id tm) s op.flags s := by
  unfold MatOp.effect
  unfold MatOp.usesArray at fetcher
  cases kind : op.kind with
  | pass | zero => rw [kind] at fetcher; exact absurd fetcher.symm Bool.false_ne_true
  | fetchA | loadB | store => exact Gives.pure _ _

/-! A collective that writes to its peer (R377 to R379) -/

/-- The request of the only element of an operation. -/
def CollOp.request (op : CollOp) (ctx : Nat) (bytes : List Byte) (poison : Bool) : LinkMsg :=
  .request op.dev op.vfn op.peerCtx (ctxFn ctx) (ctxId ctx) op.op op.raddr op.esize bytes poison

/-- The request has gone out where it has a route. -/
def asked (op : CollOp) (ctx : Nat) (bytes : List Byte) (poison : Bool) (t : State) : State :=
  { t with linkOut := if routed t op.dev then t.linkOut ++ [op.request ctx bytes poison] else t.linkOut }

theorem address_first (a : W64) (n : Nat) : a + BitVec.ofNat 64 (n * 0) = a := by
  rw [Nat.mul_zero]
  exact BitVec.add_zero a

/-- What a reply brings where the peer performed the request. -/
def replyData : PeerReply → Option (List Byte × Bool)
  | .data bs bad => some (bs, bad)
  | .done => some ([], false)
  | .refused | .lost => none

/-- An element fails at once where it has no route. -/
theorem askPeer_gives {op : CollOp} {ctx : Nat} {bytes : List Byte} {poison : Bool} {reply : PeerReply} {t : State}
    (free : paBlocked t (routeAt t op.dev) = false) :
    Gives (z := z) (askPeer op ctx 0 bytes poison reply) t (if routed t op.dev then replyData reply else none) (asked op ctx bytes poison t) := by
  unfold askPeer
  refine Gives.getThen (Gives.guardThen (by rw [free]; rfl) ?_)
  by_cases route : routed t op.dev = true
  · have out : asked op ctx bytes poison t = { t with linkOut := t.linkOut ++ [op.request ctx bytes poison] } := by
      unfold asked
      rw [if_pos route]
    rw [out, show (if routed t op.dev then replyData reply else none) = replyData reply from if_pos route]
    refine Gives.pos route (Gives.bind ((Gives.mod _ _ t).as ?_) (by cases reply <;> exact Gives.pure _ _))
    rw [address_first]
    rfl
  · have out : asked op ctx bytes poison t = t := by
      unfold asked
      rw [if_neg route]
    rw [out, show (if routed t op.dev then replyData reply else none) = none from if_neg route]
    exact Gives.neg route (Gives.pure _ _)

/-- A peer that gives no data performed the request, or refused it. -/
theorem reply_fails {reply : PeerReply} {route : Bool} (plain : reply = .done ∨ reply = .refused) :
    (if route then replyData reply else none).isNone = (!route || reply == .refused) := by
  rcases plain with rfl | rfl <;> cases route <;> rfl

/-- The only element of a put: it is read, and its request goes out. -/
theorem collElement_put {op : CollOp} {tm : Team} {l : Launch} {v : Nat} {m : Met} {s u : State} {reply : PeerReply}
    (team : s.team? op.eid = some tm) (launch : s.launch? tm.launch = some l) (put : op.op = 0)
    (read : Gives (z := z) (engRead (engAt (s.groupCluster op.g) op.id tm l op.denied op.clock 0) op.laddr.toInt op.esize {}) s (v, m) u)
    (hit : m.miss = none) (free : paBlocked u (routeAt u op.dev) = false) (plain : reply = .done ∨ reply = .refused) :
    Gives (z := z) (collElement op 0 reply) s { m with xfail := m.xfail || (!routed u op.dev || reply == .refused) }
      (asked op tm.ctx (natBytes v op.esize) m.poison u) := by
  unfold collElement CollOp.eng
  refine Gives.bind (Gives.getThen (engAt_gives team launch)) ?_
  dsimp only
  rw [address_first]
  refine Gives.neg (by rw [put]; simp) (read.bind (Gives.neg (by rw [hit]; simp) ((askPeer_gives free).bind ?_)))
  rw [reply_fails plain]
  exact Gives.pure _ _

/-- An operation whose element `p` is done. -/
def CollOp.moved (op : CollOp) (p : Nat) (m : Met) : CollOp :=
  { op with
    next := nextPoint op.next op.taken p, retry := op.retry.filter (· != p)
    waiting := op.waiting.filter fun e => e.1 ≠ p, missed := SMap.del op.missed p
    denied := op.denied.filter fun d => d.1 ≠ p, xfail := op.xfail || m.xfail, poison := op.poison || m.poison }

/-- An element that meets no miss is done. -/
theorem collElement_run {op : CollOp} {tm : Team} {l : Launch} {p : Nat} {m : Met} {s u : State} {reply : PeerReply}
    (found : s.colls.find? (fun o => o.id = op.id) = some op) (team : s.team? op.eid = some tm) (launch : s.launch? tm.launch = some l)
    (element : Gives (z := z) (collElement op p reply) s m u) (hit : m.miss = none) :
    Gives (z := z) (runCollElement op.id p reply) s ()
      { u with colls := u.colls.map fun c => if c.id = op.id then c.moved p m else c } := by
  unfold runCollElement CollOp.eng
  refine Gives.getThen (Gives.needThen found ((Gives.getTeam team).bind (Gives.bind (Gives.getThen (engAt_gives team launch))
    (element.bind ?_))))
  rw [hit]
  exact Gives.mod _ _ u

/-- A put of one element completes with the reply. -/
theorem collComplete_put {s u : State} {id v : Nat} {op : CollOp} {tm : Team} {l : Launch} {m : Met} {reply : PeerReply}
    (found : s.colls.find? (fun o => o.id = id) = some op) (issued : issuerDone s op.g op.start = true)
    (team : s.team? op.eid = some tm) (launch : s.launch? tm.launch = some l) (put : op.op = 0) (one : op.total = 1) (first : op.next = 0)
    (answered : op.retry = []) (waits : op.waiting = []) (untaken : op.taken = [])
    (read : Gives (z := s) (engRead (engAt (s.groupCluster op.g) id tm l op.denied op.clock 0) op.laddr.toInt op.esize {}) s (v, m) u)
    (hit : m.miss = none) (still : u.colls = s.colls) (free : paBlocked u (routeAt u op.dev) = false)
    (plain : reply = .done ∨ reply = .refused) :
    exec (.collComplete id [reply]) s = .next
      (opCounted op.g 2 id (outcomeFlags (op.poison || m.poison) false (op.xfail || (m.xfail || (!routed u op.dev || reply == .refused)))) op.clock
        { u with
          linkOut := if routed u op.dev then u.linkOut ++ [op.request tm.ctx (natBytes v op.esize) m.poison] else u.linkOut
          colls := u.colls.filter fun c => c.id ≠ id }) := by
  have named : op.id = id := find_id (f := CollOp.id) found
  subst named
  have points : readyPoints s op.retry op.waiting op.next op.total op.taken [reply].length = [0] := by
    unfold readyPoints
    rw [answered, waits, first, one, untaken]
    rfl
  have element := collElement_run found team launch (collElement_put team launch put read hit free plain) hit
  have kept : ∀ c : CollOp, (c.moved 0 { m with xfail := m.xfail || (!routed u op.dev || reply == .refused) }).id = c.id := fun _ => rfl
  refine runM_gives (Gives.needThen found (Gives.guardThen issued ?_))
  rw [points]
  refine Gives.bind (forEach_one element) (Gives.getThen (Gives.needThen
    (a := op.moved 0 { m with xfail := m.xfail || (!routed u op.dev || reply == .refused) }) ?_ (Gives.pos ?_ ?_)))
  · refine (find_map (a := op) ?_ fun c => ?_).trans ?_
    · show u.colls.find? _ = _
      rw [still]
      exact found
    · split <;> rfl
    · exact congrArg some (if_pos rfl)
  · unfold CollOp.moved
    dsimp only
    rw [answered, waits, first, untaken]
    show (exhausted 1 op.total [] && true && true) = true
    rw [one]
    rfl
  · refine (Gives.bind (Gives.mod _ _ _) groupPut_gives).as ?_
    dsimp only
    rw [filter_off kept]
    rfl

/-- Settles O47, clause by clause from what each event's run leaves. -/
theorem engineEvents : Obligations.EngineEvents := by
  unfold Obligations.EngineEvents
  intro own paid runs
  refine ⟨?_, ?_, copyComplete_fires, ?_, ?_, ?_, ⟨?_, ?_, ?_⟩, ?_⟩
  · intro s cl op p tm l w m key v u v' done awake pick found ⟨team, launch⟩ current copies one point
    have current : CurrentPaid s cl (.copy cl) 8 v := current
    obtain ⟨q, rfl⟩ := current.strings
    have found' := passedOver_find (s := s) (v := { s with strings := q }) found
    refine ⟨fun hit => ?_, fun r wt u' miss attach => ?_⟩
    · exact copyBurst_point awake pick current one (copyPoint_run found' team launch copies point hit)
    · exact copyBurst_point awake pick current one (copyPoint_waits found' team launch copies point miss attach)
  · intro s x op src tm p sa da team kind plain source_ dest_ same small sound source dest n v reads writes
    exact copyPoint_local team kind plain source_ dest_ same small sound source dest reads writes
  · intro s cl id op va len tm l a u found kind issued ⟨team, launch⟩ some_ page xlate settled
    exact discardComplete_page found kind issued team launch some_ page xlate settled
  · intro s cl id op v found awake waits oldest current chosen
    exact matGrant_chosen found awake waits oldest current chosen
  · intro s cl op p tm l m v u awake pick found ⟨team, launch⟩ current one point hit
    exact fetcherBurst_point awake pick found team launch current one point hit
  · rintro cl id op tm bank s ⟨⟨found, granted, moved, answered, waits, due, team⟩, kind⟩
    exact matOpComplete_over ⟨found, granted, moved, answered, waits, due, team⟩ (effect_zero kind)
  · rintro cl id op tm batched rcd b bank r s ⟨⟨found, granted, moved, answered, waits, due, team⟩, kind⟩
    exact matOpComplete_over ⟨found, granted, moved, answered, waits, due, team⟩ (effect_pass kind)
  · rintro cl id op tm s ⟨⟨found, granted, moved, answered, waits, due, team⟩, fetcher⟩
    exact matOpComplete_over ⟨found, granted, moved, answered, waits, due, team⟩ (effect_fetcher fetcher)
  · intro s id op tm l v m u reply x sent found issued ⟨team, launch⟩ put one first answered waits untaken read hit still free plain
    refine (collComplete_put found issued team launch put one first answered waits untaken read hit still free plain).trans ?_
    unfold CollOp.request
    rw [put]

end Sys2Proof.Machine
end

section
/-! O23: the words of the copy engine. -/

namespace Sys2Proof.Machine

/-- A fold enters its operation, ordered after what its snapshot reads (R84). -/
theorem fold_enters (x y : BitVec 6) :
    Staged (.fold x y) (fun w => { reads := [sreg x, sreg y], waits := copyFull w }) (foldReads x y) (fun _ _ => 0)
      (fun w _ _ => NoJournal w) fun w r => copyEntered w fun id =>
        { id := id, g := w.g, eid := w.eid, kind := .fold r.1.2 r.2, dst := byteLayout 0, start := w.gr.nextId
          clock := (w.gr.release w.g).join (snapClock w.s w.g r.1.1), reads := addBytes [] (r.1.2.records.map fun p => (p, 64)) } := by
  refine staged (moved := fun _ _ => 0) (fun _ => rfl) fun s w a u j hw unjournalled read => ?_
  exact (journalEntry_staged hw read (foldReads_firm _ _ _) unjournalled _ _).bind
    ((enterCopy_gives _ _ _).bind (Gives.pure _ _))

/-- A discard enters its operation, unless its length is zero (R251). -/
theorem discard_enters (x y : BitVec 6) (s : State) :
    CompletesIf (.discard x y) (fun w => { reads := [sreg x, sreg y], raises := lengthFault w y }) (fun _ => True)
      (fun w t => if (w.gr.rs y.toNat).toNat = 0 then t else copyEntered w (fun id =>
        { id := id, g := w.g, eid := w.eid, kind := .discard (w.gr.rs x.toNat).toNat (w.gr.rs y.toNat).toNat
          dst := byteLayout 0, start := w.gr.nextId, clock := w.gr.release w.g }) t) s := by
  refine completes rfl fun w _ _ _ _ => ?_
  dsimp only
  by_cases empty : (w.gr.rs y.toNat).toNat = 0
  · rw [if_pos empty, if_pos empty]
    exact Gives.pure _ _
  · rw [if_neg empty, if_neg empty]
    exact (enterCopy_gives _ _ _).bind (Gives.pure _ _)

/-- Settles O23: cpy and cpyl queue, or end at once with nothing to copy; fold and discard enter. -/
theorem copyWords : Obligations.CopyWords := by
  unfold Obligations.CopyWords
  intro snap queues ends
  exact ⟨fun x => ⟨copy_queues fun _ => rfl, copy_ends fun _ => rfl⟩,
    fun x => ⟨copy_queues fun _ => rfl, copy_ends fun _ => rfl⟩, fold_enters, fun s x y => discard_enters x y s⟩

end Sys2Proof.Machine
end

section
/-! O27: the words that edit layer lists. -/

namespace Sys2Proof.Machine

/-- Settles O27: both words are one edit of the list that their reads of issue have checked. -/
theorem layerListWords : Obligations.LayerListWords := by
  unfold Obligations.LayerListWords
  intro info who writes edited reachable
  exact ⟨fun x y z => list_edit fun _ => rfl, fun x y z => list_edit fun _ => rfl⟩

end Sys2Proof.Machine
end

section
/-! O24: the words that close batches and wait for them. -/

namespace Sys2Proof.Machine

variable {z : State}

/-- A wait for batch `n` of a class whose record is `b` is over: the batches it covers are finished no more, and the group is
past an acquire at .team and ordered after them (R101, R122). -/
def batchAwaited (g cls : Nat) (n : W32) (b : Batches) (t : State) : State :=
  ordered g ((b.finished.filter fun f => waitCovers n f.1).foldl (fun k f => Clock.join k f.2) [])
    (acquired g 1 (groupPut g (fun gr =>
      gr.setBatches cls { b with finished := b.finished.filter fun f => !waitCovers n f.1 }) t))

/-- Where no batch of the class keeps an outcome, the wait has none to report (R98). -/
theorem takeOutcomes_gives {g cls : Nat} {n : W32} {b : Batches} {gr : Group} {t : State} (hg : t.group? g = some gr)
    (record : gr.batches cls = b) (silent : b.outcomes = []) :
    Gives (z := z) (takeOutcomes g cls n) t [] (batchAwaited g cls n b t) := by
  unfold takeOutcomes
  refine (Gives.getGroup hg).bind ?_
  have kept : ({ b with outcomes := [], finished := b.finished.filter fun f => !waitCovers n f.1 } : Batches) =
      { b with finished := b.finished.filter fun f => !waitCovers n f.1 } := by rw [← silent]
  dsimp only
  rw [record, silent, List.filter_nil, List.filter_nil, kept]
  exact (Gives.modGroup _ _ _).bind ((acquire_gives _ _ _).bind ((orderAfter_gives _ _ _).bind (Gives.pure _ _)))

/-- A unit's charge leaves the batches of its group. -/
theorem paid_batches {s : State} {w : View} {i : Info} (hw : view s = some w) (cls : Nat) :
    ∃ gr, (w.paid i).group? w.g = some gr ∧ gr.batches cls = w.gr.batches cls := by
  obtain ⟨n, y, hg⟩ := paid_group_eq (i := i) hw
  exact ⟨_, hg, rfl⟩

/-- Settles O24: close changes registers only; waitb takes outcomes where its batch is reached, and holds where it is not. -/
theorem batchWords : Obligations.BatchWords := by
  unfold Obligations.BatchWords
  intro s x c n info
  refine ⟨writes_of_runRegs rfl, completes rfl fun w hw _ _ met => ?_, issues rfl (.inl rfl) fun w _ _ _ ahead => ?_⟩
  · obtain ⟨reached, silent⟩ := met
    obtain ⟨gr, hg, record⟩ := paid_batches (i := info w) hw c.toNat
    dsimp only
    rw [if_pos reached]
    exact (takeOutcomes_gives hg record silent).bind (Gives.pure _ _)
  · dsimp only
    rw [if_neg (ne_true_of_eq_false ahead)]
    exact Gives.held _ _

end Sys2Proof.Machine
end

section
/-! O25: the words of barrier objects. -/

namespace Sys2Proof.Machine

variable {z : State}

/-- The object at `off` lies where it may, and no access of another party overlaps this update of it. -/
def ObjectApart (w : View) (off : Nat) : Prop :=
  ObjectAt w off ∧ Clean w.s (groupWho w.g w.gr w.gr.nextId) (spKey w.eid off) 8 true

/-- A word that updates an object does so in one step (R102). -/
theorem object_updates {s : State} {i : Instr} {x : BitVec 6} {reads : List Reg} {raises : View → List Detail}
    {f : View → BarObj → BarObj} (h : exec i s = runObj s x reads raises f) :
    CompletesIf i (fun w => { reads := sreg x :: reads, mask := .ignores, raises := raises w, waits := spadHeld w })
      (fun w => ObjectApart w (w.low x)) (fun w => objectPut w (w.low x) (f w)) s :=
  completes h fun _ hw _ _ ⟨place, clean⟩ =>
    (checkObj_gives place).bind ((objectPut_gives hw _ clean).bind (Gives.pure _ _))

/-- The acquire of a wait whose phase has ended: at .dev where a copy to global memory has counted in that phase (R103). -/
theorem acquireObj_gives {g off : Nat} {p : Bool} {t : State} {tm : Team} (ht : t.team? (groupTeam g) = some tm) :
    Gives (z := z) (acquireObj g off p) t () (ordered g (SMap.look [] tm.boClock (2 * off + 1))
      (acquired g (if NSet.has tm.boGlobal (2 * off + (if p then 1 else 0)) then 3 else 1) t)) :=
  (Gives.getTeam ht).bind ((acquire_gives _ _ _).bind (orderAfter_gives _ _ _))

/-- Settles O25: boexp and boarr are updates of the object, boinit stores a new one, and bowait looks at its phase. -/
theorem barrierObjectWords : Obligations.BarrierObjectWords := by
  unfold Obligations.BarrierObjectWords
  intro s x y apart
  refine ⟨completes rfl fun w _ _ _ ⟨place, clean⟩ => ?_, object_updates rfl, object_updates rfl,
    completes rfl fun w hw _ _ ⟨place, ended⟩ => ?_, issues rfl (.inl rfl) fun w _ _ _ ⟨place, running⟩ => ?_⟩
  · refine (checkObj_gives place).bind ((spStore_gives ?_).bind ((Gives.modTeam _ _ _).bind (Gives.pure _ _)))
    rw [natBytes_length]
    exact clean.congr (congrArg Home.past (paid_home _ _))
  · obtain ⟨al, ch, st, team⟩ := paid_team_eq hw
    refine (checkObj_gives place).bind ?_
    rw [if_pos ended]
    exact (acquireObj_gives team).bind (Gives.pure _ _)
  · refine (checkObj_gives place).bind ?_
    rw [if_neg (ne_true_of_eq_false running)]
    exact Gives.held _ _

end Sys2Proof.Machine
end

section
/-! O31: ordered atomics. -/

namespace Sys2Proof.Machine

/-- Settles O31: both words are an ordered atomic, of their own operand size. -/
theorem orderedAtomicWords : Obligations.OrderedAtomicWords :=
  ⟨ordered_atomic fun _ _ _ _ => rfl, ordered_atomic fun _ _ _ _ => rfl⟩

end Sys2Proof.Machine
end

section
/-! O32: versioned accesses. -/

namespace Sys2Proof.Machine

namespace Stands

variable {g : Nat} {t u : State}

theorem metaWritten (g pa tag : Nat) (t : State) : Stands g t (metaWritten pa tag t) := home g t _

theorem acquired (g scope : Nat) (t : State) : Stands g t (acquired g scope t) := ⟨rfl, rfl, rfl, (groups g _ t).group⟩

theorem lanesRead (g u n : Nat) (gr : Group) (ls : List LaneAcc) : ∀ t : State, Stands g t (lanesRead g u n gr ls t).2 := by
  induction ls with
  | nil => exact refl g
  | cons a ls ih => exact fun t => (readAt g _ a.pa n t).trans ((floored g a.pa n _).trans (ih _))

theorem verStored (w : View) (acc : Access) (gr : Group) (ok : List LaneAcc) (pa : Nat) (t : State) :
    Stands w.g t (verStored w acc gr ok pa t) :=
  onGroup ((metaWritten w.g pa w.t.tag t).trans
    (fold (fun t a => stored w.g w.gr.nextId { acc with rels := gr.fences } ((t.group? w.g).getD gr) a t) ok _)) _

theorem verLoaded (w : View) (acc : Access) (gr : Group) (ok : List LaneAcc) (dst pa : Nat) (t : State) :
    Stands w.g t (verLoaded w acc gr ok dst pa t) :=
  (((lanesRead w.g w.gr.nextId 4 gr ok t).onGroup _).onGroup _).trans ((acquired w.g acc.scope _).trans (met w.g w.gr.nextId _ _ _))

end Stands

/-- A versioned word answers what its performance leaves, where that keeps the group, the teams and the contexts. -/
theorem ver_answers {s : State} {w : View} {store : Bool} {x y v : BitVec 6} {ok : List LaneAcc} {pa : Nat} {u t : State} {i : Instr}
    {tm : Team} {l : Launch} {gr : Group} (runs : exec i s = runVer s store x y v) (hw : view s = some w)
    (ready : Ready w (verInfo store x y v w)) (acts : Acts w (verInfo store x y v w)) (e : PlainEnd w)
    (r : ReachesLine s w store x y v ok pa u) (k : VerState s w u tm l gr)
    (expects : (w.gr.rs y.toNat).toNat / 2 ^ 16 = 0 ∨ store = false)
    (performs : Gives (z := s) (performLanes w.g w.gr.nextId (verAccess store y v w) ok) (w.numbered u) [] t)
    (stands : Stands w.g (w.numbered u) t) : exec i s = .next (w.next t) := by
  have kept : Stands w.g u t := (Stands.groups w.g _ u).trans stands
  refine ver_gives runs hw ready acts e r expects performs (kept.group (Option.isSome_iff_exists.2 ⟨gr, k.group⟩)) ?_ ?_
  · unfold State.team?
    rw [kept.teams]
    exact (congrArg _ k.team).trans (congrArg some k.ctx)
  · unfold State.ctx
    rw [kept.ctxs]
    exact r.posted

/-- Settles O32: vst.ver splits on whether the line has the expected version; ld.ver loads. -/
theorem versionedWords : Obligations.VersionedWords := by
  unfold Obligations.VersionedWords
  intro s x y v w ok pa u gr hw e plain unjournalled hg t hit
  have found {store : Bool} (r : ReachesLine s w store x y v ok pa u) : ∃ tm l, VerState s w u tm l gr := by
    obtain ⟨tm, l, gr', k⟩ := verState hw r plain unjournalled
    obtain rfl : gr' = gr := Option.some.inj (k.group.symm.trans hg)
    exact ⟨tm, l, k⟩
  refine ⟨fun ready acts expects r follow => ?_, fun ready acts r follow => ?_⟩
  · obtain ⟨tm, l, k⟩ := found r
    by_cases same : (metaOf u pa).ver.toNat = (w.gr.rs y.toNat).toNat % 65536
    · rw [if_pos same]
      exact ver_answers rfl hw ready acts e r k (.inl expects) (verHit_gives r k same (follow same)) (Stands.verStored w _ _ ok pa _)
    · rw [if_neg same]
      exact ver_answers rfl hw ready acts e r k (.inl expects) (verMiss_gives r k same) (Stands.groups w.g _ _)
  · obtain ⟨tm, l, k⟩ := found r
    exact ver_answers rfl hw ready acts e r k (.inr rfl) (verLoad_gives r k follow) (Stands.verLoaded w _ _ ok v.toNat pa _)

end Sys2Proof.Machine
end

section
/-! O29: fences and messages. -/

namespace Sys2Proof.Machine

variable {z : State}

/-- An aligned place inside the scratchpad raises nothing. -/
theorem place_sound {size at_ off n : Nat} {t : Team} (aligned : at_ % size = 0) (inside : spInside t off n = true) :
    misalignGroup size at_ ++ outsideSpad t off n = [] := by
  unfold misalignGroup outsideSpad
  rw [if_pos aligned, if_pos inside]
  rfl

/-- The acquire of a ring: the group is ordered after what the ring's messages released to its scope (R122, R259). -/
theorem acquireRing_gives {g off scope : Nat} {t : State} {tm : Team} (ht : t.team? (groupTeam g) = some tm) :
    Gives (z := z) (acquireRing g off scope) t ()
      (ordered g (followed (partyOf t g) scope (SMap.look [] tm.ringRels off)) (acquired g scope t)) :=
  Gives.getThen ((Gives.getTeam ht).bind ((acquire_gives _ _ _).bind (orderAfter_gives _ _ _)))

/-! The words (R121, R257 to R259) -/

theorem fence_completes (s : State) (sc : BitVec 4) :
    CompletesIf (.fence sc) (fun _ => { ok := sc.ult 5, mask := .ignores }) (fun w => w.gr.drained = true)
      (fun w => fenced w.g sc.toNat) s :=
  completes rfl fun _ hw _ _ drained => by
    obtain ⟨gr, hg, -⟩ := paid_group hw
    exact Gives.pos drained ((fenceDone_gives hg).bind (Gives.pure _ _))

theorem fence_holds (s : State) (sc : BitVec 4) :
    IssuesIf (.fence sc) (fun _ => { ok := sc.ult 5, mask := .ignores }) (fun w => w.gr.drained = false)
      (fun w => w.held (.fence sc.toNat)) s :=
  issues rfl (.inl rfl) fun _ _ _ _ busy => Gives.neg (ne_true_of_eq_false busy) (Gives.held _ _)

/-- The unit of wring. -/
def ringInfo (x y z : BitVec 6) (w : View) : Info :=
  { reads := [sreg y, sreg z], writes := [sreg x], mods := modScope, mask := .ignores, waits := spadHeld w }

/-- The slot up to which the group of a wring has read. -/
def ringHead (z : BitVec 6) (w : View) : W32 := (w.gr.rs z.toNat).extractLsb' 0 32

/-- The ring header that a wring names lies aligned in the team's scratchpad. -/
def RingPlaced (y : BitVec 6) (w : View) : Prop := w.low y % 64 = 0 ∧ spInside w.t (w.low y) 64 = true

theorem wring_completes (s : State) (x y z : BitVec 6) (n : Nat) :
    CompletesIf (.wring x y z) (ringInfo x y z) (fun w => RingPlaced y w ∧ ringAhead w.t (w.low y) (ringHead z w) = some n)
      (fun w t => ordered w.g (followed (partyOf t w.g) w.scope (SMap.look [] w.t.ringRels (w.low y)))
        (acquired w.g w.scope (w.onGroup (fun gr => gr.setS x.toNat (BitVec.ofNat 64 n)) t))) s := by
  refine completes rfl fun w hw _ _ ⟨⟨aligned, inside⟩, ahead⟩ => ?_
  obtain ⟨al, ch, st, team⟩ := paid_team_eq hw
  unfold ringHead at ahead
  dsimp only
  rw [place_sound aligned inside, ahead]
  exact Gives.neg Bool.false_ne_true ((Gives.modGroup _ _ _).bind
    ((acquireRing_gives (tm := { w.t with al := al, charged := ch, stop := st }) (by exact team)).bind (Gives.pure _ _)))

theorem wring_holds (s : State) (x y z : BitVec 6) :
    IssuesIf (.wring x y z) (ringInfo x y z) (fun w => RingPlaced y w ∧ ringAhead w.t (w.low y) (ringHead z w) = none)
      (fun w => w.held (.ring x.toNat (w.low y) (ringHead z w) w.scope)) s := by
  refine issues rfl (.inl rfl) fun w _ _ _ ⟨⟨aligned, inside⟩, behind⟩ => ?_
  unfold ringHead at behind
  dsimp only
  rw [place_sound aligned inside, behind]
  exact Gives.neg Bool.false_ne_true (Gives.held _ _)

/-- Settles O29: fence and wring by the lemmas above; msend takes its ring's next number and queues its message. -/
theorem fenceAndMessageWords : Obligations.FenceAndMessageWords := by
  unfold Obligations.FenceAndMessageWords
  refine ⟨fun s sc => ⟨fence_completes s sc, fence_holds s sc⟩, fun s x y z => ?_,
    fun s x y z => ⟨wring_completes s x y z, wring_holds s x y z⟩⟩
  refine completes rfl fun w _ _ _ ⟨aligned, inside⟩ => ?_
  dsimp only
  rw [place_sound aligned inside]
  exact Gives.neg Bool.false_ne_true ((Gives.modTeam _ _ _).bind ((Gives.modGroup _ _ _).bind (Gives.pure _ _)))

end Sys2Proof.Machine
end

section
/-! O56: a step runs what stands next. -/

namespace Sys2Proof.Machine

/-! The schedule (log entry 1) -/

theorem step_turn {s : State} (h : s.moves = []) : step s = turn s := by
  unfold step
  rw [h]

theorem step_go {s : State} {g : Nat} {ms : List Move} (h : s.moves = .go g :: ms) :
    step s = turn { s with moves := ms, cur := some g } := by
  unfold step
  rw [h]

theorem step_event {s : State} {i : Instr} {ms : List Move} (h : s.moves = .event i :: ms) :
    step s = exec i { s with moves := ms } := by
  unfold step
  rw [h]

/-! The turn of a group that presents -/

section Turn

variable {s : State} {w : View}

theorem turn_presents (p : Presents s w) : turn s = runWord s (fetchAt s w.core w.gr.slot w.wordPc) := by
  unfold turn
  rw [beginTurn_word p]

/-- The instruction whose checks the word meets runs. -/
theorem turn_exec {i : Instr} (p : Presents s w) (d : decodeChecked (fetchAt s w.core w.gr.slot w.wordPc) = .ok i) :
    turn s = exec i s := by
  rw [turn_presents p]
  unfold runWord
  rw [d]

/-- A word that decodes to nothing leads to the handler. -/
theorem turn_illegal {e : DecodeError} (p : Presents s w) (d : decodeChecked (fetchAt s w.core w.gr.slot w.wordPc) = .error e)
    (h : Handles w (preCauses w (illegalInfo w))) :
    turn s = .next (w.onGroup (handlerEntered (mergeDetails (preCauses w (illegalInfo w))) w.unitPc) (w.letGo s)) := by
  rw [turn_presents p]
  unfold runWord illegalWord
  rw [d, p.view]
  exact runM_gives (takeTrap_handles p.view h)

end Turn

/-- A word whose unused fields matter to its decoding has one set. -/
theorem unusedSet_of_decode_ne {x : W32} (h : decode (x &&& ~~~unusedMask x) ≠ decode x) : unusedSet x = true := by
  unfold unusedSet
  rw [bne_iff_ne]
  intro clear
  have whole : x &&& ~~~unusedMask x = x :=
    BitVec.eq_of_getLsbD_eq fun i hi => by simpa [hi] using congrArg (·.getLsbD i) clear
  exact h (by rw [whole])

/-- Settles O56: the schedule's three cases; the word presented decodes, decodes without its unused fields, or decodes to
nothing. -/
theorem stepRunsDecoded : Obligations.StepRunsDecoded := by
  unfold Obligations.StepRunsDecoded
  refine ⟨fun s w i idle p d => ?_, fun s g ms w i go p d => ?_, fun s i ms event => step_event event,
    fun s w i idle p unused d => ⟨?_, fun info => ?_⟩, fun s w e idle p d h => ⟨illegal_cause w, ?_⟩⟩
  · exact (step_turn idle).trans (turn_exec p (checked_ok d))
  · exact (step_go go).trans (turn_exec p (checked_ok d))
  · exact (step_turn idle).trans (turn_exec p ((checked_unused unused).trans d))
  · exact unused_cause info (view_cases p.view).1 (unusedSet_of_decode_ne (by rw [d, unused]; exact nofun))
  · exact (step_turn idle).trans (turn_illegal p d h)

end Sys2Proof.Machine
end

section
/-! O30: tickets. -/

namespace Sys2Proof.Machine

/-- A ticket object that a unit finds stands in its grid once the unit is charged. -/
theorem paid_ticket {s : State} {w : View} {i : Info} {j : Nat} {k : Ticket} (hw : view s = some w) (found : ticketOf w.s w.t j = some k) :
    ∃ gd, (w.paid i).grid? w.t.grid = some gd ∧ gd.tickets[j]? = some k := by
  obtain ⟨gd, hg, hk⟩ := ticket_grid found
  exact ⟨gd, (paid_grid hw _).trans ((view_cases hw).1 ▸ hg), hk⟩

/-- The unit of tkt.take. -/
def takeInfo (j : BitVec 4) (w : View) : Info :=
  { ok := j.ult 2, mask := .ignores, raises := ticketCauses w 0x0B j (w.t.took.contains j.toNat) }

/-- The team has taken object `j`. -/
def ticketTook (w : View) (j : Nat) (t : State) : State :=
  { t with teams := SMap.adjust t.teams w.eid fun tm => { tm with took := tm.took ++ [j] } }

theorem take_completes (s : State) (j : BitVec 4) (k : Ticket) :
    CompletesIf (.tktTake j) (takeInfo j) (fun w => ticketOf w.s w.t j.toNat = some k ∧ k.void = false ∧ k.next = w.t.tidx)
      (fun w t => ordered w.g k.clock (acquired w.g 3 (ticketTook w j.toNat t))) s :=
  completes rfl fun w _ _ _ ⟨found, sound, turn⟩ => by
    rw [found]
    refine (Gives.pure _ _).bind (Gives.neg (by simp [sound]) ((Gives.modTeam _ _ _).bind (Gives.pos turn ?_)))
    exact (acquire_gives _ _ _).bind ((orderAfter_gives _ _ _).bind (Gives.pure _ _))

theorem take_holds (s : State) (j : BitVec 4) :
    IssuesIf (.tktTake j) (takeInfo j)
      (fun w => ∃ k, ticketOf w.s w.t j.toNat = some k ∧ k.void = false ∧ k.next ≠ w.t.tidx)
      (fun w t => w.held (.ticket j.toNat) (ticketTook w j.toNat t)) s :=
  issues rfl (.inl rfl) fun w _ _ _ ⟨k, found, sound, early⟩ => by
    rw [found]
    exact (Gives.pure _ _).bind (Gives.neg (by simp [sound]) ((Gives.modTeam _ _ _).bind (Gives.neg early (Gives.held _ _))))

theorem skip_completes (s : State) (j : BitVec 4) (k : Ticket) :
    CompletesIf (.tktSkip j)
      (fun w =>
        { ok := j.ult 2, mask := .ignores, raises := ticketCauses w 0x0C j (w.t.passed.contains j.toNat)
          waits := w.t.took.contains j.toNat && !w.gr.drained })
      (fun w => NoJournal w ∧ ticketOf w.s w.t j.toNat = some k ∧ commitBlocks w.s.dev k.addr = false ∧ Room w.s k.addr 16)
      (fun w => ticketPassed w.eid j.toNat w.t k (if w.t.took.contains j.toNat then w.gr.release w.g else [])) s :=
  completes rfl fun w hw _ _ ⟨quiet, found, free, room⟩ => by
    obtain ⟨l, t, launch, off, team, same⟩ := paid_journal hw quiet
    obtain ⟨al, ch, st, charged⟩ := paid_team_eq hw
    obtain ⟨gd, grid, object⟩ := paid_ticket hw found
    rw [found]
    exact (Gives.pure _ _).bind ((journalGroup_off team (same ▸ launch) off).bind
      ((passTicket_gives charged rfl rfl grid object free (room.congr rfl rfl)).bind (Gives.pure _ _)))

/-- Settles O30: a take goes on at its turn and holds before it; a skip passes. -/
theorem ticketWords : Obligations.TicketWords := by
  unfold Obligations.TicketWords
  exact fun s j => ⟨take_completes s j, take_holds s j, skip_completes s j⟩

end Sys2Proof.Machine
end

section
/-! O37: system registers. -/

namespace Sys2Proof.Machine

/-- A flag as its bit. -/
theorem flag_weight (n : Nat) (b : Bool) : (if b = true then n else 0) = n * if b = true then 1 else 0 := by
  cases b <;> simp

theorem sysWord_allowance (s : State) (g : Nat) (gr : Group) (t : Team) : sysWord s g gr t 0x011 =
    4 * (match s.launch? t.launch with | some l => if l.phm = true then 1 else 0 | none => 0) +
      2 * (if t.exh = true then 1 else 0) + if t.shape.pol = true then 1 else 0 := by
  show (if phaseMode s t = true then 4 else 0) + (if t.exh = true then 2 else 0) + (if t.shape.pol = true then 1 else 0) = _
  rw [flag_weight 4, flag_weight 2]
  unfold phaseMode
  cases s.launch? t.launch <;> rfl

theorem sysWord_pstate (s : State) (g : Nat) (gr : Group) (t : Team) :
    let c := s.cluster (coreCluster (t.core.getD 0))
    sysWord s g gr t 0x030 = (if c.strc = true then 1 else 0) + 2 * (if (c.therm || s.dev.emergency) = true then 1 else 0) +
      4 * (if c.pkg = true then 1 else 0) + 8 * if (c.skip || s.dev.emergency) = true then 1 else 0 := by
  show pstate s _ = _
  rw [pstate, flag_weight 2, flag_weight 4, flag_weight 8]

theorem sysWord_journal (s : State) (g : Nat) (gr : Group) (t : Team) : sysWord s g gr t 0x050 =
    match s.launch? t.launch with | some l => l.jmode + 4 * (if l.div = true then 1 else 0) | none => 0 := by
  show (match s.launch? t.launch with | some l => l.jmode + (if l.div = true then 4 else 0) | none => 0) = _
  simp only [flag_weight 4]

theorem sysWord_role (s : State) (g : Nat) (gr : Group) (t : Team) : sysWord s g gr t 0x007 =
    (if g % 32 < t.shape.producers then t.shape.vp else t.shape.vc) % 128 * 256 +
      if decide (g % 32 < t.shape.producers) = true then 1 else 0 := by
  simp only [decide_eq_true_eq]
  rfl

theorem sysValue_word (s : State) (g : Nat) (gr : Group) (t : Team) (n : Nat) : sysValue s g gr t n =
    if phaseMode s t = true ∧ n ∈ sysPhaseZero then 0 else BitVec.ofNat 64 (sysWord s g gr t n) := by
  unfold sysValue
  simp only [Bool.and_eq_true, List.contains_iff_mem]

theorem jmark_completes (s : State) (x : BitVec 6) :
    CompletesIf (.jmark x) (fun _ => { reads := [sreg x], mask := .ignores }) NoJournal (fun _ t => t) s :=
  completes rfl fun w hw _ _ quiet => by
    obtain ⟨l, t, launch, off, team, same⟩ := paid_journal hw quiet
    exact (journalGroup_off team (same ▸ launch) off).bind (Gives.pure _ _)

theorem srd_completes (s : State) (x : BitVec 6) (reg : BitVec 12) : CompletesIf (.srd x reg)
    (fun w => { writes := [sreg x], ok := sysNumbers.contains reg.toNat, mask := .ignores, raises := exmPoison w reg.toNat })
    (fun _ => True)
    (fun w t => match t.team? w.eid with
      | some tm => w.onGroup (fun gr => gr.setS x.toNat (sysValue w.s w.g w.gr tm reg.toNat)) t
      | none => t) s :=
  completes rfl fun w hw _ _ _ => by
    obtain ⟨tm, team, -⟩ := paid_team hw
    rw [team]
    exact (Gives.getTeam team).bind (Gives.modThen _ _ _ _)

/-- Settles O37: the listed registers are those of `sysNumbers`, each with its `sysWord`; the words are register words, but srd and
jmark, which complete as the lemmas above say. -/
theorem systemRegisterWords : Obligations.SystemRegisterWords := by
  unfold Obligations.SystemRegisterWords
  refine ⟨?_, srd_completes, fun s x reg => writes_of_runRegs rfl, fun s x => writes_of_runRegs rfl,
    fun s x => writes_of_runRegs rfl, jmark_completes⟩
  intro s g gr t core cl c str bit margin ofLaunch lists
  have table : lists = sysNumbers.map fun n => (n, sysWord s g gr t n) := by
    simp only [sysNumbers, List.map_cons, List.map_nil, sysWord_role, sysWord_allowance, sysWord_pstate, sysWord_journal]
    rfl
  constructor
  · intro e he
    rw [table] at he
    obtain ⟨n, -, rfl⟩ := List.mem_map.1 he
    exact sysValue_word s g gr t n
  · intro n
    rw [table, List.map_map, List.contains_iff_mem]
    exact (congrArg (n ∈ ·) (List.map_id sysNumbers)).symm.to_iff

end Sys2Proof.Machine
end

section
/-! O48: teams begin and retire, topups, phases and trap entries. -/

namespace Sys2Proof.Machine

variable {z : State}

/-! Beginning (R285, R302, R323) -/

/-- Noting the waits keeps a grid, but for its mark. -/
theorem waitsNoted_grid {s : State} {i : Nat} {gd : Grid} (found : s.grid? i = some gd) :
    ∃ b, (waitsNoted s).grid? i = some { gd with waits := b } := by
  have fold (l : List (Nat × Grid)) : ∀ t : State, (∃ b, t.grid? i = some { gd with waits := b }) →
      ∃ b, (l.foldl (fun t p => if findsNoPlace s p.1 p.2 then gridPut p.1 (fun gd => { gd with waits := true }) t else t) t).grid? i =
        some { gd with waits := b } := by
    induction l with
    | nil => exact fun _ h => h
    | cons p l ih =>
      intro t ⟨b, h⟩
      refine ih _ ?_
      dsimp only
      split
      · by_cases same : p.1 = i
        · subst same
          exact ⟨true, (SMap.get?_adjust_self _ _ _).trans (congrArg (Option.map _) h)⟩
        · exact ⟨b, (SMap.get?_adjust_ne _ _ same).trans h⟩
      · exact ⟨b, h⟩
  exact fold s.grids s ⟨gd.waits, found⟩

/-- A team of no neighbourhood begins where it is placed, once `beginOn` has it there. -/
theorem teamBegin_fires {s u : State} {eid core : Nat} {tm : Team} {gd : Grid} {string : Option Nat}
    (team : s.team? eid = some tm) (grid : s.grid? tm.grid = some gd) (alone : gd.nbh = false)
    (place : placeOf (waitsNoted s) tm = some (string, core)) (first : firstInOrder (waitsNoted s) tm = true)
    (begins : Gives (z := s) (beginOn eid core) (gridPut tm.grid (fun gd => { gd with string := string }) (waitsNoted s)) () u) :
    exec (.teamBegin eid core) s = .next (waitsNoted u) := by
  obtain ⟨b, noted⟩ := waitsNoted_grid grid
  obtain ⟨g, form⟩ := noted_grids s
  have there : (waitsNoted s).team? eid = some tm := by rw [form]; exact team
  refine runM_gives ((waitsNoted_gives s).bind (Gives.getThen ((Gives.getTeam there).bind ((Gives.getGrid noted).bind
    (Gives.needThen place (Gives.guardThen ?_ ?_))))))
  · simp [first]
  · exact Gives.neg (by simp [alone]) (gridPut_gives.bind (begins.bind (waitsNoted_gives u)))

/-- A team begins on a core whose slot 0 holds its overlay. -/
theorem beginOn_held {eid core : Nat} {tm : Team} {l : Launch} {t : State} (team : t.team? eid = some tm)
    (launch : t.launch? tm.launch = some l) (quiet : l.journal = 0) (holds : (t.core core).tag0 = some (overlayKey t tm)) :
    Gives (z := z) (beginOn eid core) t () (begun eid core tm t) := by
  unfold beginOn
  refine (Gives.getTeam team).bind ((Gives.getLaunch launch).bind (Gives.getThen ?_))
  dsimp only
  exact Gives.pos (by simp [holds]) ((Gives.pure _ _).bind ((journalTeam_quiet team launch quiet).bind (begun_gives rfl)))

/-- A team begins on a core that its overlay's words are read for. -/
theorem beginOn_fetched {eid core : Nat} {tm : Team} {l : Launch} {ws : List (W32 × Bool)} {t u : State} (team : t.team? eid = some tm)
    (launch : t.launch? tm.launch = some l) (quiet : l.journal = 0) (lacks : (t.core core).tag0 ≠ some (overlayKey t tm))
    (words : Gives (z := z) (overlayWords tm.ctx l.rcd l.odir tm.shape.ovid) t (some ws) u)
    (team' : u.team? eid = some tm) (launch' : u.launch? tm.launch = some l) :
    Gives (z := z) (beginOn eid core) t () (begun eid core tm (slotZeroFilled core (overlayKey t tm) ws u)) := by
  unfold beginOn
  refine (Gives.getTeam team).bind ((Gives.getLaunch launch).bind (Gives.getThen ?_))
  dsimp only
  exact Gives.neg (by simpa using lacks) ((words.asWaiter _).bind ((Gives.pure _ _).bind
    ((journalTeam_quiet team' launch' quiet).bind (slotZero_gives.bind (begun_gives rfl)))))

/-! Phases (R155) -/

theorem commitPhase_gives {launch : Nat} {l : Launch} {s : State} {roots members : List (Nat × Team)} {groups : List Nat}
    (found : s.launch? launch = some l) (underway : l.phm = true ∧ l.admitted = true ∧ l.done = false)
    (hr : roots = s.teams.filter fun e => e.2.launch = launch && e.2.parent.isNone)
    (hm : members = s.teams.filter fun e => e.2.launch = launch && e.2.parent.isSome)
    (hg : groups = roots.flatMap fun e => s.teamGroups e.1) (nonempty : groups ≠ [])
    (wait : ∀ g ∈ groups, ∃ gr, s.group? g = some gr ∧ gr.hold = some .phend) (ended : ∀ e ∈ members, e.2.state = .done)
    (plain : s.home.ordered.filter (fun c => c.launch = launch) = [])
    (fresh : ∀ e, roots.head? = some e → s.team? e.1 = some e.2 ∧ cycleFresh s e.1 e.2 = true) :
    Gives (z := s) (commitPhase launch) s () (phaseCommitted launch l roots groups s) := by
  obtain ⟨phm, admitted, done⟩ := underway
  unfold commitPhase
  refine (Gives.getLaunch found).bind (Gives.guardThen (by simp [phm, admitted, done]) (Gives.getThen ?_))
  dsimp only
  rw [← hr, ← hm, ← hg]
  refine Gives.guardThen ?_ ((applyOrdered_none plain).bind ?_)
  · have held : groups.all (fun g => match s.group? g with | some gr => gr.hold == some .phend | none => false) = true :=
      List.all_eq_true.2 fun g hg => by
        obtain ⟨gr, e, h⟩ := wait g hg
        simp [e, h]
    have finished : (members.all fun e => e.2.state == .done) = true := List.all_eq_true.2 fun e he => by simp [ended e he]
    simp only [Bool.and_eq_true]
    exact ⟨⟨by simpa using nonempty, held⟩, finished⟩
  · unfold phaseCommitted
    dsimp only
    cases head : roots.head?
    case' some e =>
      obtain ⟨team, free⟩ := fresh e head
      refine (credited_gives (tm := e.2) (by exact team) (by exact free)).bind ?_
    all_goals exact launchPut_gives.bind ((forEach_fold (fun _ _ => teamPut_gives) _ _).bind
      (forEach_fold (fun _ _ => groupPut_gives.bind ((acquire_gives _ _ _).bind (orderAfter_gives _ _ _))) _ _))

/-! The events -/

theorem trapEntry_fires (g : Nat) (gr : Group) (p : Pending) : Fires (.trapEntry g)
    (fun s => s.group? g = some gr ∧ gr.trap.pending = some p ∧ gr.lcnt = 0 ∧ gr.fcnt = 0 ∧ (s.groupCore? g).isSome = true)
    (groupPut g (handlerBegun p.raised p.tpc p.tmask)) :=
  fires (fun _ => rfl) fun _ ⟨group, pending, loads, results, placed⟩ =>
    (Gives.getGroup group).bind (Gives.needThen pending (Gives.guardThen (by simp [loads, results, placed]) groupPut_gives))

/-- A string noted for a grid after its waits changes grids only. -/
theorem placed_form (i : Nat) (f : Grid → Grid) (s : State) : ∃ g, gridPut i f (waitsNoted s) = { s with grids := g } := by
  obtain ⟨g, form⟩ := noted_grids s
  rw [form]
  exact ⟨_, rfl⟩

/-- Settles O48: each event runs as its lemma says; a topup by the status that its child answers. -/
theorem teamEvents : Obligations.TeamEvents := by
  unfold Obligations.TeamEvents
  dsimp only
  refine ⟨⟨?_, ?_⟩, ?_, ⟨?_, ?_, ?_, ?_, ?_⟩, ?_, trapEntry_fires⟩
  · intro eid core tm l string s ⟨⟨⟨team, launch, quiet⟩, place, first, gd, grid, alone⟩, holds⟩
    refine teamBegin_fires team grid alone place first ?_
    obtain ⟨g, form⟩ := placed_form tm.grid (fun gd => { gd with string := string }) s
    rw [form]
    exact beginOn_held team launch quiet holds
  · intro s eid core tm l string ws u ⟨⟨team, launch, quiet⟩, place, first, gd, grid, alone⟩ lacks words team' launch'
    refine teamBegin_fires team grid alone place first ?_
    obtain ⟨g, form⟩ := placed_form tm.grid (fun gd => { gd with string := string }) s
    rw [form] at words ⊢
    exact beginOn_fetched team launch quiet lacks words team' launch'
  · intro eid tm l gd s ⟨⟨team, launch, quiet⟩, state, ended, idle, children, grid, ticketless, parent⟩
    exact runM_gives (retired_gives team launch quiet state ended idle children grid ticketless parent)
  · intro g dst tag amount tm l c ch s ⟨⟨⟨team, launch, quiet⟩, gr, group, held⟩, ⟨tagged, child, there⟩, status⟩
    exact runM_gives (topupChild_gives group held team launch quiet tagged child status
      (serialise_gives there status (.inl ⟨rfl, rfl⟩)) (by decide))
  · intro g dst tag amount tm l c ch s ⟨⟨⟨team, launch, quiet⟩, gr, group, held⟩, ⟨tagged, child, there⟩, status⟩
    exact runM_gives (topupChild_gives group held team launch quiet tagged child status
      (serialise_gives there status (.inr (.inl ⟨rfl, rfl⟩))) (by decide))
  · intro g dst tag amount tm l c ch s ⟨⟨⟨team, launch, quiet⟩, gr, group, held⟩, ⟨tagged, child, there⟩, status⟩
    exact runM_gives (topupChild_gives group held team launch quiet tagged child status
      (serialise_gives there status (.inr (.inr (.inl ⟨rfl, rfl⟩)))) (by decide))
  · intro g dst tag amount tm l c ch s ⟨⟨⟨team, launch, quiet⟩, gr, group, held⟩, ⟨tagged, child, there⟩, status, returns⟩
    exact runM_gives ((topupBack_gives group held team launch quiet tagged child there status returns).as
      (congrArg (toppedUp g dst 2) (ite_apply _ _ _ _).symm))
  · intro g dst tag amount tm l s ⟨⟨⟨team, launch, quiet⟩, gr, group, held⟩, childless, returns⟩
    exact runM_gives ((topupNone_gives group held team launch quiet childless returns).as
      (congrArg (toppedUp g dst 3) (ite_apply _ _ _ _).symm))
  · intro launch l roots members groups s ⟨found, phm, admitted, done, hr, hm, hg, nonempty, wait, ended, plain, fresh⟩
    exact runM_gives (commitPhase_gives found ⟨phm, admitted, done⟩ hr hm hg nonempty wait ended plain fresh)

end Sys2Proof.Machine
end

section
/-! O55: what a unit does that does not issue in full. -/

namespace Sys2Proof.Machine

variable {z : State}

/-- A unit answers what follows from its verdict. -/
theorem isUnit_gives {i : Instr} {info : View → Info} {s u : State} {w : View} {v : Verdict} (unit : IsUnit i info) (hw : view s = some w)
    (judged : verdict w (info w) = v) (follows : ∀ eff : M s Flow, Gives (z := s) (conclude w (info w) eff v) s () u) :
    exec i s = .next u := by
  obtain ⟨eff, runs⟩ := unit
  rw [runs s, runUnit, hw]
  subst judged
  exact runGroup_gives (follows (eff s w))

/-! Verdicts (R187, R325) -/

section Gate

variable {w : View} {i : Info}

theorem Candidate.gate (c : Candidate w) : gate w i =
    if i.named.any w.gr.awaits then some .hold
    else if (preCauses w i.early).isEmpty = false then some (.stopped (preCauses w i.early))
    else if i.waits then some .hold else (needsCurrent w i).map .current := by
  unfold Machine.gate
  simp [c.presents, c.free, c.picked]

theorem Candidate.holds (c : Candidate w) (awaits : i.named.any w.gr.awaits = true) : verdict w i = .hold := by
  unfold Machine.verdict
  rw [c.gate, if_pos awaits]
  rfl

theorem Candidate.stopped (c : Candidate w) (landed : i.named.any w.gr.awaits = false) (causes : preCauses w i.early ≠ []) :
    verdict w i = .stopped (preCauses w i.early) := by
  unfold Machine.verdict
  rw [c.gate, if_neg (by simp [landed]), if_pos (by simpa using causes)]
  rfl

end Gate

/-! Outcomes -/

/-- Where no lane is active a word that acts on lanes pays and moves on (R189). -/
theorem skips_gives {s : State} {w : View} {i : Info} (hs : w.s = s) (skips : i.mask = .skips) (empty : w.exm = 0) (e : PlainEnd w)
    (eff : M s Flow) : Gives (z := s) (issueUnit w i (w.cost i) eff) s () (w.next (w.paid i)) := by
  have l := (paid_gives (i := i) hs).bind (f := fun _ => follow w .seq) (seq_gives e (w.paid i))
  rw [bind_assoc] at l
  unfold issueUnit
  rw [if_pos (by simp [skips, empty])]
  exact l

/-- A team at its point of exhaustion, its policy to starve: amounts held for it are added (R146, R156). -/
def starvedAt (w : View) (cost : Nat) (t : Team) : Team :=
  { t with state := .starved, pendingCost := some cost, pendingGroup := w.g, al := t.al + BitVec.ofNat 64 t.heldTopup, heldTopup := 0 }

/-- What follows the marks of a point of exhaustion. -/
def exhaustPolicy (w : View) (cost : Nat) : M z Unit :=
  if w.t.shape.pol then do
    modTeam w.eid (starvedAt w cost)
    let t ← getTeam w.eid
    if w.t.heldTopup ≠ 0 && cost ≤ t.al.toNat then resume w.eid
  else unwind w.eid

theorem exhaust_gives {w : View} {cost : Nat} {s u : State} (policy : Gives (z := z) (exhaustPolicy w cost) (exhaustionMarked w cost s) () u) :
    Gives (z := z) (exhaust w cost) s () u :=
  groupPut_gives.bind (teamPut_gives.bind (launchPut_gives.bind policy))

/-- A team whose policy is to starve waits, or goes on at once with amounts that were held for it (R147, R156). -/
theorem starves_gives {s : State} {w : View} {cost : Nat} (hw : view s = some w) (pol : w.t.shape.pol = true) :
    Gives (z := z) (exhaust w cost) s ()
      (let al := w.t.al + BitVec.ofNat 64 w.t.heldTopup
       let t := teamPut w.eid (fun t =>
         { t with state := .starved, pendingCost := some cost, pendingGroup := w.g, al := al, heldTopup := 0 }) (exhaustionMarked w cost s)
       if w.t.heldTopup ≠ 0 ∧ cost ≤ al.toNat then resumed w.eid { w.t with pendingGroup := w.g } t else t) := by
  obtain ⟨-, -, -, team, -⟩ := view_cases hw
  have marked : (exhaustionMarked w cost s).team? w.eid = some { w.t with exh := true } := team_put (t := groupPut _ _ s) team
  have same : teamPut w.eid (fun t => { t with
      state := .starved, pendingCost := some cost, pendingGroup := w.g, al := w.t.al + BitVec.ofNat 64 w.t.heldTopup
      heldTopup := 0 }) (exhaustionMarked w cost s) = teamPut w.eid (starvedAt w cost) (exhaustionMarked w cost s) :=
    congrArg (fun m => ({ exhaustionMarked w cost s with teams := m } : State)) (SMap.adjust_congr marked rfl)
  have starved := team_put (f := starvedAt w cost) marked
  dsimp only
  rw [same]
  refine exhaust_gives (Gives.pos pol (teamPut_gives.bind ((Gives.getTeam starved).bind ?_)))
  by_cases enough : w.t.heldTopup ≠ 0 ∧ cost ≤ (w.t.al + BitVec.ofNat 64 w.t.heldTopup).toNat
  · rw [if_pos enough]
    refine Gives.pos (by simpa [starvedAt] using enough) ((resume_gives starved).as (resumed_eq _ _ _ _ rfl))
  · rw [if_neg enough]
    exact Gives.neg (by simpa [starvedAt] using enough) (Gives.pure _ _)

/-- Settles O55: each part by what the unit's verdict leads to. -/
theorem unitOutcomes : Obligations.UnitOutcomes := by
  unfold Obligations.UnitOutcomes
  refine ⟨?_, ⟨?_, ?_⟩, ?_, ?_⟩
  · intro i info s w unit hw ready skips empty e
    exact isUnit_gives unit hw ready.verdict (skips_gives (view_cases hw).1 skips empty e)
  · intro i info s w unit hw ex pol
    exact isUnit_gives unit hw ex.verdict fun _ => starves_gives hw pol
  · intro i info s w u unit hw ex pol unwinds
    exact isUnit_gives unit hw ex.verdict fun _ => exhaust_gives (Gives.neg (by simp [pol]) unwinds)
  · intro i info s w unit hw c landed causes handles
    exact isUnit_gives unit hw (c.stopped landed causes) fun _ => takeTrap_handles hw handles
  · intro i info s w unit hw c awaits
    obtain ⟨eff, runs⟩ := unit
    rw [runs s, runUnit, hw]
    dsimp only
    rw [c.holds awaits]
    rfl

end Sys2Proof.Machine
end

section
/-! O49: unwinding. What every operation of it keeps is one relation between states, `Onward`; what it brings about holds after the
operation that does it, and is never undone. -/

namespace Sys2Proof.Machine

/-! What unwinding keeps, part by part -/

/-- What R148 says of a team's standing. -/
def Team.standing (t : Team) : TeamState × W64 × Bool × Option Nat × Option Nat × DebugStop :=
  (t.state, t.al, t.unwound, t.pendingCost, t.preempt, t.stop)

/-- A team keeps its place and the tickets it has passed; where it `may`, it enters UNWINDING, once. -/
structure TeamOn (may : Prop) (t u : Team) : Prop where
  ctx : u.ctx = t.ctx
  parent : u.parent = t.parent
  grid : u.grid = t.grid
  launch : u.launch = t.launch
  groups : u.shape.groups = t.shape.groups
  passed : t.passed ⊆ u.passed
  standing : u.standing = t.standing ∨ (may ∧ t.state ≠ .unwinding ∧ u.state = .unwinding)

/-- A group takes up no access and no amount; where it `may`, it ends. -/
structure GroupOn (may : Prop) (g h : Group) : Prop where
  exited : h.exited = g.exited ∨ (may ∧ h.exited = true ∧ h.parked = none)
  parked : h.parked = g.parked ∨ h.parked = none
  amount : ∀ d t a, h.hold = some (.topup d t a) → g.hold = some (.topup d t a)

/-- A launch that is marked stays marked. -/
def LaunchOn (l k : Launch) : Prop := l.unwound = true → k.unwound = true

/-- A grid keeps its number of ticket objects. -/
def GridOn (g h : Grid) : Prop := h.tickets.length = g.tickets.length

theorem TeamOn.refl (may : Prop) (t : Team) : TeamOn may t t := ⟨rfl, rfl, rfl, rfl, rfl, List.Subset.refl _, .inl rfl⟩

theorem TeamOn.trans {may : Prop} {t u v : Team} (h : TeamOn may t u) (k : TeamOn may u v) : TeamOn may t v where
  ctx := k.ctx.trans h.ctx
  parent := k.parent.trans h.parent
  grid := k.grid.trans h.grid
  launch := k.launch.trans h.launch
  groups := k.groups.trans h.groups
  passed := List.Subset.trans h.passed k.passed
  standing := by
    have state {a b : Team} (e : a.standing = b.standing) : a.state = b.state := congrArg (·.1) e
    rcases h.standing with h | ⟨m, before, after⟩ <;> rcases k.standing with k | ⟨m', before', after'⟩
    · exact .inl (k.trans h)
    · exact .inr ⟨m', state h ▸ before', after'⟩
    · exact .inr ⟨m, before, (state k).trans after⟩
    · exact absurd after before'

theorem GroupOn.refl (may : Prop) (g : Group) : GroupOn may g g := ⟨.inl rfl, .inl rfl, fun _ _ _ e => e⟩

theorem GroupOn.trans {may : Prop} {g h i : Group} (a : GroupOn may g h) (b : GroupOn may h i) : GroupOn may g i where
  exited := by
    rcases b.exited with e | e
    · rcases a.exited with f | ⟨m, ended, free⟩
      · exact .inl (e.trans f)
      · exact .inr ⟨m, e.trans ended, b.parked.elim (·.trans free) id⟩
    · exact .inr e
  parked := b.parked.elim (fun e => a.parked.imp e.trans e.trans) .inr
  amount d t x e := a.amount d t x (b.amount d t x e)

theorem GridOn.refl (g : Grid) : GridOn g g := rfl

theorem GridOn.trans {g h i : Grid} (a : GridOn g h) (b : GridOn h i) : GridOn g i := Eq.trans b a

theorem LaunchOn.refl (l : Launch) : LaunchOn l l := id

theorem LaunchOn.trans {l k m : Launch} (a : LaunchOn l k) (b : LaunchOn k m) : LaunchOn l m := b ∘ a

/-- From `t` to `u`: nothing appears and nothing goes; of the teams, those of `X` may enter UNWINDING; of the groups, those of `G`
may end; no save slot is taken. -/
structure Onward (X G : Nat → Prop) (t u : State) : Prop where
  teams : ∀ x, Option.Rel (TeamOn (X x)) (t.team? x) (u.team? x)
  groups : ∀ g, Option.Rel (GroupOn (G g)) (t.group? g) (u.group? g)
  grids : ∀ i, Option.Rel GridOn (t.grid? i) (u.grid? i)
  launches : ∀ l, Option.Rel LaunchOn (t.launch? l) (u.launch? l)
  slots : ∀ c, (u.ctx c).saveUsed ⊆ (t.ctx c).saveUsed

section Rel

variable {α : Type} {R : α → α → Prop} {x y w : Option α} {a b : α}

theorem rel_refl (h : ∀ a, R a a) : ∀ x : Option α, Option.Rel R x x
  | none => .none
  | some _ => .some (h _)

theorem rel_trans (h : ∀ {a b c}, R a b → R b c → R a c) (p : Option.Rel R x y) (q : Option.Rel R y w) : Option.Rel R x w := by
  cases p with
  | none => exact q
  | some p => cases q with | some q => exact .some (h p q)

/-- What stands at a place before stands there after, related. -/
theorem rel_some (h : Option.Rel R x y) (e : x = some a) : ∃ b, y = some b ∧ R a b := by
  subst e
  cases h with | some h => exact ⟨_, rfl, h⟩

/-- What stands at a place after stood there before, related. -/
theorem rel_before (h : Option.Rel R x y) (e : y = some b) : ∃ a, x = some a ∧ R a b := by
  subst e
  cases h with | some h => exact ⟨_, rfl, h⟩

/-- What stands at a key that was changed is the change of what stood there. -/
theorem get?_adjusted {m : SMap α} {k : Nat} {f : α → α} (h : SMap.get? (SMap.adjust m k f) k = some b) :
    ∃ a, SMap.get? m k = some a ∧ f a = b := by
  rw [SMap.get?_adjust_self] at h
  exact Option.map_eq_some_iff.mp h

/-- A part that related entries share is the same before and after. -/
theorem rel_map {β : Type} {f : α → β} (h : Option.Rel R x y) (same : ∀ a b, R a b → f b = f a) : y.map f = x.map f := by
  cases h with
  | none => rfl
  | some h => exact congrArg some (same _ _ h)

/-- A change at one key of a map. -/
theorem rel_adjust {R : Nat → α → α → Prop} (refl : ∀ k a, R k a a) {m : SMap α} {k : Nat} {f : α → α}
    (h : ∀ a, SMap.get? m k = some a → R k a (f a)) (j : Nat) : Option.Rel (R j) (SMap.get? m j) (SMap.get? (SMap.adjust m k f) j) := by
  by_cases e : k = j
  · subst e
    rw [SMap.get?_adjust_self]
    cases found : SMap.get? m k
    · exact .none
    · exact .some (h _ found)
  · rw [SMap.get?_adjust_ne _ _ e]
    exact rel_refl (refl j) _

end Rel

variable {X G : Nat → Prop}

theorem onward_order (X G : Nat → Prop) : Order (Onward X G) where
  refl _ := ⟨fun _ => rel_refl (TeamOn.refl _) _, fun _ => rel_refl (GroupOn.refl _) _, fun _ => rel_refl GridOn.refl _,
    fun _ => rel_refl LaunchOn.refl _, fun _ => List.Subset.refl _⟩
  trans h k := ⟨fun x => rel_trans TeamOn.trans (h.teams x) (k.teams x), fun g => rel_trans GroupOn.trans (h.groups g) (k.groups g),
    fun i => rel_trans GridOn.trans (h.grids i) (k.grids i), fun l => rel_trans LaunchOn.trans (h.launches l) (k.launches l),
    fun c => List.Subset.trans (k.slots c) (h.slots c)⟩

theorem Onward.refl (t : State) : Onward X G t t := (onward_order X G).refl t

theorem Onward.teamGroups {t u : State} (h : Onward X G t u) (x : Nat) : u.teamGroups x = t.teamGroups x := by
  have rel := h.teams x
  unfold State.teamGroups
  cases before : t.team? x with
  | none => rw [before] at rel; cases after : u.team? x with
    | none => rfl
    | some _ => rw [after] at rel; cases rel
  | some tm =>
    obtain ⟨tm', after, on⟩ := rel_some rel before
    simp only [after, on.groups]

/-! The primitive changes -/

section Changes

variable {z : State} {t u : State}

/-- A change that touches none of the parts. -/
theorem Onward.of_parts (teams : u.teams = t.teams) (groups : u.groups = t.groups) (grids : u.grids = t.grids)
    (launches : u.launches = t.launches) (ctxs : u.ctxs = t.ctxs) : Onward X G t u where
  teams x := by unfold State.team?; rw [teams]; exact rel_refl (TeamOn.refl _) _
  groups g := by unfold State.group?; rw [groups]; exact rel_refl (GroupOn.refl _) _
  grids i := by unfold State.grid?; rw [grids]; exact rel_refl GridOn.refl _
  launches l := by unfold State.launch?; rw [launches]; exact rel_refl LaunchOn.refl _
  slots c := by unfold State.ctx; rw [ctxs]; exact List.Subset.refl _

theorem Still.onward (h : Still t u) : Onward X G t u := .of_parts h.teams h.groups h.grids h.launches h.ctxs

theorem teamPut_onward {e : Nat} {f : Team → Team} (h : ∀ tm, t.team? e = some tm → TeamOn (X e) tm (f tm)) :
    Onward X G t (teamPut e f t) :=
  { Onward.refl (X := X) (G := G) t with teams := fun x => rel_adjust (R := fun x => TeamOn (X x)) (fun _ => TeamOn.refl _) h x }

theorem modTeam_onward {e : Nat} {f : Team → Team} (h : ∀ tm, TeamOn (X e) tm (f tm)) : Leaves (Onward X G) (modTeam e f : M z Unit) :=
  Leaves.mod _ fun _ => teamPut_onward fun tm _ => h tm

theorem modGroup_onward {g : Nat} {f : Group → Group} (h : ∀ gr, GroupOn (G g) gr (f gr)) :
    Leaves (Onward X G) (modGroup g f : M z Unit) :=
  Leaves.mod _ fun t => { Onward.refl (X := X) (G := G) t with
    groups := fun x => rel_adjust (R := fun x => GroupOn (G x)) (fun _ => GroupOn.refl _) (fun gr _ => h gr) x }

theorem modGrid_onward {i : Nat} {f : Grid → Grid} (h : ∀ gd, GridOn gd (f gd)) : Leaves (Onward X G) (modGrid i f : M z Unit) :=
  Leaves.mod _ fun t => { Onward.refl (X := X) (G := G) t with
    grids := fun x => rel_adjust (R := fun _ => GridOn) (fun _ => GridOn.refl) (fun gd _ => h gd) x }

theorem modLaunch_onward {i : Nat} {f : Launch → Launch} (h : ∀ l, LaunchOn l (f l)) : Leaves (Onward X G) (modLaunch i f : M z Unit) :=
  Leaves.mod _ fun t => { Onward.refl (X := X) (G := G) t with
    launches := fun x => rel_adjust (R := fun _ => LaunchOn) (fun _ => LaunchOn.refl) (fun l _ => h l) x }

theorem modCtx_onward {c : Nat} {f : CtxRegs → CtxRegs} (h : ∀ x, (f x).saveUsed ⊆ x.saveUsed) :
    Leaves (Onward X G) (modCtx c f : M z Unit) :=
  Leaves.mod _ fun t => { Onward.refl (X := X) (G := G) t with
    slots := fun x => by
      unfold State.ctx
      by_cases e : c = x
      · subst e
        simpa using h _
      · simp [SMap.get?_put_ne _ _ e] }

theorem modOther_onward {f : State → State} (h : Keeps f) (teams : ∀ t, (f t).teams = t.teams) (groups : ∀ t, (f t).groups = t.groups)
    (grids : ∀ t, (f t).grids = t.grids) (launches : ∀ t, (f t).launches = t.launches) (ctxs : ∀ t, (f t).ctxs = t.ctxs) :
    Leaves (Onward X G) (modS f h : M z Unit) :=
  Leaves.mod _ fun t => .of_parts (teams t) (groups t) (grids t) (launches t) (ctxs t)

end Changes


/-! The operations of unwinding -/

section Operations

variable {z : State}

theorem getTeam_onward (e : Nat) : Leaves (Onward X G) (getTeam e : M z Team) :=
  (Leaves.get (onward_order X G)).bind (onward_order X G) fun _ => Leaves.need (onward_order X G) _

theorem getGroup_onward (g : Nat) : Leaves (Onward X G) (getGroup g : M z Group) :=
  (Leaves.get (onward_order X G)).bind (onward_order X G) fun _ => Leaves.need (onward_order X G) _

theorem getGrid_onward (i : Nat) : Leaves (Onward X G) (getGrid i : M z Grid) :=
  (Leaves.get (onward_order X G)).bind (onward_order X G) fun _ => Leaves.need (onward_order X G) _

theorem getLaunch_onward (l : Nat) : Leaves (Onward X G) (getLaunch l : M z Launch) :=
  (Leaves.get (onward_order X G)).bind (onward_order X G) fun _ => Leaves.need (onward_order X G) _

theorem Leaves.onward {α : Type} {m : M z α} (h : Leaves Still m) : Leaves (Onward X G) m := h.mono fun _ _ => Still.onward

theorem Leaves.asWaiter {α : Type} {R : State → State → Prop} (who : SysWaiter) {m : M z α} (h : Leaves R m) :
    Leaves R (Machine.asWaiter who m) := by
  intro t a u e
  unfold Machine.asWaiter at e
  split at e
  · cases e
  · exact h t a u e

/-- Leaving the slots of page requests (R36). -/
theorem detach_onward (ws : List Wait) : Leaves (Onward X G) (detach ws : M z Unit) :=
  Leaves.forEach (onward_order X G) _ fun w => by
    split
    · exact modOther_onward _ (fun _ => rfl) (fun _ => rfl) (fun _ => rfl) (fun _ => rfl) fun _ => rfl
    · exact Leaves.pure (onward_order X G) _

theorem modStr_onward (i : Nat) (f : Str → Str) : Leaves (Onward X G) (modStr i f : M z Unit) :=
  modOther_onward _ (fun _ => rfl) (fun _ => rfl) (fun _ => rfl) (fun _ => rfl) fun _ => rfl

theorem modTable_onward (i : Nat) (f : PrTable → PrTable) : Leaves (Onward X G) (modTable i f : M z Unit) :=
  modOther_onward _ (fun _ => rfl) (fun _ => rfl) (fun _ => rfl) (fun _ => rfl) fun _ => rfl

theorem raiseMsix_onward (f v : Nat) : Leaves (Onward X G) (raiseMsix f v : M z Unit) := by
  unfold raiseMsix modFn
  exact modOther_onward _ (fun _ => rfl) (fun _ => rfl) (fun _ => rfl) (fun _ => rfl) fun _ => rfl

theorem releaseCurrent_onward (cl : Nat) (who : Asker) : Leaves (Onward X G) (releaseCurrent cl who : M z Unit) :=
  (modStr_onward _ _).bind (onward_order X G) fun _ => (Leaves.get (onward_order X G)).bind (onward_order X G) fun _ => modStr_onward _ _

theorem acquire_onward (g scope : Nat) : Leaves (Onward X G) (acquire g scope : M z Unit) := by
  refine (Leaves.get (onward_order X G)).bind (onward_order X G) fun s => ?_
  refine (modGroup_onward fun gr => ?_).bind (onward_order X G) fun _ =>
    Leaves.ite (modCluster_still _ _).onward (Leaves.pure (onward_order X G) _)
  exact ⟨.inl rfl, .inl rfl, fun _ _ _ e => e⟩

theorem orderAfter_onward (g : Nat) (c : Clock) : Leaves (Onward X G) (orderAfter g c : M z Unit) :=
  modGroup_onward fun gr => by
    unfold Group.follow
    split
    · exact GroupOn.refl _ _
    · exact ⟨.inl rfl, .inl rfl, fun _ _ _ e => e⟩

/-- Letting go of held events changes no mark of a launch (R322). -/
theorem dropEvents_onward (g : Nat) : Leaves (Onward X G) (dropEvents g : M z Unit) :=
  (getTeam_onward _).bind (onward_order X G) fun _ => modLaunch_onward fun _ => id

/-! The journal (R350 to R355) -/

theorem sysXlate_onward (ctx : Nat) (c : CtxRec) (kind : Nat) (va : W64) (own : Bool) :
    Leaves (Onward X G) (sysXlate ctx c kind va own : M z (Except Nat LaneAcc)) := by
  have o := onward_order X G
  unfold sysXlate
  refine Leaves.ite (Leaves.pure o _) ((Leaves.get o).bind o fun s => ?_)
  dsimp only
  split
  · exact (modTable_onward _ _).bind o fun _ => Leaves.pure o _
  split
  · exact Leaves.stay
  · exact Leaves.ite (Leaves.pure o _) (Leaves.stop _)
  · exact Leaves.pure o _
  · split
    · exact Leaves.pure o _
    · split
      · exact Leaves.ite (Leaves.stop _) (Leaves.pure o _)
      · exact (setAD_still _ _).onward.bind o fun _ => Leaves.pure o _

theorem sysLoad_onward (a : LaneAcc) (n : Nat) : Leaves (Onward X G) (sysLoad a n : M z (List Byte)) :=
  (Leaves.get (onward_order X G)).bind (onward_order X G) fun _ => (Leaves.guard (onward_order X G) _).bind (onward_order X G) fun _ =>
    Leaves.pure (onward_order X G) _

theorem sysStore_onward (a : LaneAcc) (bs : List Byte) : Leaves (Onward X G) (sysStore a bs : M z Unit) :=
  (Leaves.get (onward_order X G)).bind (onward_order X G) fun _ => (Leaves.guard (onward_order X G) _).bind (onward_order X G) fun _ =>
    (hsWrite_still _ _ _).onward

theorem ringOf_onward (ctx : Nat) (c : CtxRec) (point : Nat) : Leaves (Onward X G) (ringOf ctx c point : M z JRing) := by
  have o := onward_order X G
  refine (Leaves.get o).bind o fun s => (sysXlate_onward _ _ _ _ _).bind o fun r => ?_
  split
  · exact Leaves.stay
  · exact (sysLoad_onward _ _).bind o fun _ => (Leaves.guard o _).bind o fun _ => Leaves.pure o _

theorem recordAt_onward (ctx : Nat) (c : CtxRec) (r : JRing) (n kind : Nat) :
    Leaves (Onward X G) (recordAt ctx c r n kind : M z LaneAcc) := by
  refine (sysXlate_onward _ _ _ _ _).bind (onward_order X G) fun r => ?_
  split
  · exact Leaves.stay
  · exact Leaves.pure (onward_order X G) _

theorem appendRecord_onward (ctx : Nat) (c : CtxRec) (e : JEvent) : Leaves (Onward X G) (appendRecord ctx c e : M z Unit) := by
  have o := onward_order X G
  refine (ringOf_onward _ _ _).bind o fun r => (Leaves.guard o _).bind o fun _ => (recordAt_onward _ _ _ _ _).bind o fun a =>
    (sysStore_onward _ _).bind o fun _ => (sysWrite_still _ _).onward.bind o fun _ => ?_
  refine Leaves.ite (Leaves.ite ((sysWrite_still _ _).onward.bind o fun _ => raiseMsix_onward _ _) (Leaves.pure o _)) (Leaves.pure o _)

theorem passRecord_onward (r : JRing) : Leaves (Onward X G) (passRecord r : M z Unit) := (sysWrite_still _ _).onward

theorem headRecord_onward (ctx : Nat) (c : CtxRec) (point : Nat) : ∀ fuel, Leaves (Onward X G) (headRecord ctx c point fuel : M z Head)
  | 0 => Leaves.stay
  | fuel + 1 => by
    have o := onward_order X G
    refine (ringOf_onward _ _ _).bind o fun r => Leaves.ite (Leaves.pure o _) ?_
    refine (recordAt_onward _ _ _ _ _).bind o fun a => (sysLoad_onward _ _).bind o fun bs => ?_
    exact Leaves.ite ((passRecord_onward _).bind o fun _ => headRecord_onward ctx c point fuel) (Leaves.pure o _)

theorem nextElsewhere_onward (ctx : Nat) (c : CtxRec) (e : JEvent) (others : List JEvent) :
    ∀ ps, Leaves (Onward X G) (nextElsewhere ctx c e others ps : M z Bool)
  | [] => Leaves.pure (onward_order X G) _
  | p :: ps => by
    have o := onward_order X G
    have rest (b : Bool) : Leaves (Onward X G) (if b = true then pure true else nextElsewhere ctx c e others ps : M z Bool) :=
      Leaves.ite (Leaves.pure o _) (nextElsewhere_onward ctx c e others ps)
    refine Leaves.ite ((Leaves.pure o _).bind o rest) ((Leaves.attempt o (headRecord_onward _ _ _ _)).bind o fun r => ?_)
    split <;> exact (Leaves.pure o _).bind o rest

theorem setDiv_onward (l : Nat) : Leaves (Onward X G) (setDiv l : M z Unit) := modLaunch_onward fun _ => id

theorem replayAdmit_onward (l ctx : Nat) (c : CtxRec) (e : JEvent) (others : List JEvent) :
    Leaves (Onward X G) (replayAdmit l ctx c e others : M z (Option Nat)) := by
  have o := onward_order X G
  refine (headRecord_onward _ _ _ _).bind o fun h => ?_
  split
  · exact Leaves.stay
  · exact (passRecord_onward _).bind o fun _ => (setDiv_onward _).bind o fun _ => Leaves.pure o _
  · refine Leaves.ite ((passRecord_onward _).bind o fun _ => Leaves.pure o _) ((Leaves.get o).bind o fun s => ?_)
    refine Leaves.ite ((setDiv_onward _).bind o fun _ => Leaves.pure o _) ((Leaves.get o).bind o fun s => ?_)
    refine Leaves.ite Leaves.stay (Leaves.ite (Leaves.stop _) (Leaves.ite (Leaves.raise _ _) ?_))
    exact (nextElsewhere_onward _ _ _ _ _).bind o fun b => Leaves.ite (Leaves.raise _ _) (Leaves.stop _)

theorem atPoint_onward {α : Type} (l : Nat) (h : JHold) (a : α) {m : M z α} {ready : M z Unit} (hm : Leaves (Onward X G) m)
    (hr : Leaves (Onward X G) ready) : Leaves (Onward X G) (atPoint l h a m ready) := by
  have o := onward_order X G
  unfold atPoint
  refine (getLaunch_onward _).bind o fun k => ?_
  dsimp only
  have held (j : JHold) : Leaves (Onward X G) (if k.aborted = true then do
        match ← attempt ready with
        | .error .stay => pure a
        | _ => if k.journal = 2 then pure a else fun _ => .error (.held l j)
      else fun _ => .error (.held l j) : M z α) := by
    refine Leaves.ite ((Leaves.attempt o hr).bind o fun r => ?_) (Leaves.stop _)
    split
    · exact Leaves.pure o _
    · exact Leaves.ite (Leaves.pure o _) (Leaves.stop _)
  refine (Leaves.attempt o ((hr.bind o fun _ => hm).asWaiter _)).bind o fun r => ?_
  split
  · refine Leaves.ite (Leaves.bind o ?_ fun _ => Leaves.pure o _) (Leaves.pure o _)
    exact modLaunch_onward fun _ => id
  · exact held h
  · exact held _
  · exact Leaves.stop _

theorem journalTeam_onward (eid point typ seq obj : Nat) (st : Bool) :
    Leaves (Onward X G) (journalTeam eid point typ seq obj st : M z Unit) := by
  have o := onward_order X G
  refine (getTeam_onward _).bind o fun t => Leaves.bind o ?_ fun _ => Leaves.pure o _
  refine (getLaunch_onward _).bind o fun l => ?_
  split
  · exact atPoint_onward _ _ _ ((appendRecord_onward _ _ _).bind o fun _ => Leaves.pure o _)
      ((ringOf_onward _ _ _).bind o fun _ => (recordAt_onward _ _ _ _ _).bind o fun _ => Leaves.pure o _)
  · exact atPoint_onward _ _ _ (replayAdmit_onward _ _ _ _ _) (Leaves.pure o _)
  · exact Leaves.pure o _

/-! Barriers (R254, R256) -/

theorem setBarrier_onward (e b : Nat) (x : Barrier) : Leaves (Onward X G) (setBarrier e b x : M z Unit) := by
  have o := onward_order X G
  refine (Leaves.get o).bind o fun s => (getTeam_onward _).bind o fun t => Leaves.ite (modGrid_onward fun gd => rfl) ?_
  exact modTeam_onward fun tm => ⟨rfl, rfl, rfl, rfl, rfl, List.Subset.refl _, .inl rfl⟩

/-- A group that goes on, or is held anew, waits for no amount. -/
theorem holds_onward {g : Nat} {f : Group → Group} (exited : ∀ gr, (f gr).exited = gr.exited)
    (parked : ∀ gr, (f gr).parked = gr.parked)
    (hold : ∀ gr d t a, (f gr).hold ≠ some (.topup d t a)) : Leaves (Onward X G) (modGroup g f : M z Unit) :=
  modGroup_onward fun gr => ⟨.inl (exited gr), .inl (parked gr), fun d t a e => absurd e (hold gr d t a)⟩

theorem releasePhase_onward (e b : Nat) : Leaves (Onward X G) (releasePhase e b : M z Unit) := by
  have o := onward_order X G
  refine (Leaves.get o).bind o fun s => (journalTeam_onward _ _ _ _ _ _).bind o fun _ => (Leaves.forEach o _ fun x => ?_).bind o fun _ =>
    setBarrier_onward _ _ _
  obtain ⟨g, dst⟩ := x
  refine (holds_onward (fun gr => ?_) (fun gr => ?_) fun gr d t a h => ?_).bind o fun _ =>
    (acquire_onward _ _).bind o fun _ => orderAfter_onward _ _
  · dsimp only
    split <;> rfl
  · dsimp only
    split <;> rfl
  · dsimp only at h
    split at h <;> cases h

theorem enterSet_onward (g b c : Nat) (red : Option (RedKind × W32)) (held : Option (Option Nat)) :
    Leaves (Onward X G) (enterSet g b c red held : M z Unit) :=
  (Leaves.get (onward_order X G)).bind (onward_order X G) fun _ => setBarrier_onward _ _ _

theorem enterAgain_onward (g b : Nat) : Leaves (Onward X G) (enterAgain g b : M z Unit) := by
  have o := onward_order X G
  refine (getGroup_onward _).bind o fun gr => ?_
  split
  · refine Leaves.ite ((Leaves.get o).bind o fun s => Leaves.ite ?_ ((enterSet_onward _ _ _ _ _).bind o fun _ => ?_)) (Leaves.pure o _)
    · exact holds_onward (fun _ => rfl) (fun _ => rfl) fun _ _ _ _ h => by cases h
    · exact holds_onward (fun _ => rfl) (fun _ => rfl) fun _ _ _ _ h => by dsimp only at h; split at h <;> cases h
  · exact Leaves.pure o _

theorem settle_onward (e b : Nat) : ∀ fuel, Leaves (Onward X G) (settle e b fuel : M z Unit)
  | 0 => Leaves.pure (onward_order X G) _
  | fuel + 1 => by
    have o := onward_order X G
    refine (Leaves.get o).bind o fun s => Leaves.ite ((releasePhase_onward _ _).bind o fun _ => ?_) (Leaves.pure o _)
    exact (Leaves.get o).bind o fun s => (Leaves.forEach o _ fun g => enterAgain_onward _ _).bind o fun _ => settle_onward e b fuel

theorem leaveBarriers_onward (g : Nat) : Leaves (Onward X G) (leaveBarriers g : M z Unit) := by
  have o := onward_order X G
  refine Leaves.forEach o _ fun b => (Leaves.get o).bind o fun s => ?_
  have rest (x : Barrier) : Leaves (Onward X G) (if x.count = 0 then do
      settle (groupTeam g) b (1 + (liveGroups (← getS) (groupTeam g) b).length)
      else pure () : M z Unit) := Leaves.ite ((Leaves.get o).bind o fun s => settle_onward _ _ _) (Leaves.pure o _)
  exact Leaves.ite ((setBarrier_onward _ _ _).bind o fun _ => rest _) (rest _)

end Operations

end Sys2Proof.Machine
end

section
/-! O49: what unwinding brings about -/

namespace Sys2Proof.Machine

variable {X G : Nat → Prop}

/-- `Q`, once it holds, holds to the end of the unwinding. -/
def Lasting (X G : Nat → Prop) (Q : State → Prop) : Prop := ∀ t u, Onward X G t u → Q t → Q u

/-- From `t` on to `u`, where `Q` holds. -/
def Onto (X G : Nat → Prop) (Q : State → Prop) (t u : State) : Prop := Onward X G t u ∧ Q u

/-- The group `g` has ended. -/
def Ended (g : Nat) (u : State) : Prop := ∀ gr, u.group? g = some gr → gr.exited = true

/-- The team `e` has passed the ticket object `j`. -/
def HasPassed (e j : Nat) (u : State) : Prop := ∀ tm, u.team? e = some tm → j ∈ tm.passed

/-- The save slot of context `c` is free. -/
def SlotFree (c slot : Nat) (u : State) : Prop := slot ∉ (u.ctx c).saveUsed

/-- The launch is marked. -/
def Marked (l : Nat) (u : State) : Prop := ∀ k, u.launch? l = some k → k.unwound = true

/-- The team `e` is in UNWINDING with the amount `al`, and waits for nothing. -/
def Unwinds (e : Nat) (al : W64) (u : State) : Prop :=
  ∀ tm, u.team? e = some tm → tm.standing = (.unwinding, al, true, none, none, .running)

theorem ended_lasting (g : Nat) : Lasting X G (Ended g) := fun t u on ended gr found => by
  obtain ⟨gr', found', rel⟩ := rel_before (on.groups g) found
  exact rel.exited.elim (fun e => e.trans (ended gr' found')) fun e => e.2.1

theorem hasPassed_lasting (e j : Nat) : Lasting X G (HasPassed e j) := fun t u on passed tm found => by
  obtain ⟨tm', found', rel⟩ := rel_before (on.teams e) found
  exact rel.passed (passed tm' found')

theorem slotFree_lasting (c slot : Nat) : Lasting X G (SlotFree c slot) := fun _ _ on free used => free (on.slots c used)

theorem marked_lasting (l : Nat) : Lasting X G (Marked l) := fun t u on marked k found => by
  obtain ⟨k', found', rel⟩ := rel_before (on.launches l) found
  exact rel (marked k' found')

theorem unwinds_lasting (e : Nat) (al : W64) : Lasting X G (Unwinds e al) := fun t u on unwinds tm found => by
  obtain ⟨tm', found', rel⟩ := rel_before (on.teams e) found
  have before := unwinds tm' found'
  refine rel.standing.elim (fun e => e.trans before) fun ⟨_, apart, _⟩ => absurd ?_ apart
  exact congrArg (·.1) before

section Rules

variable {z : State} {α β : Type} {Q : State → Prop} {m : M z α} {f : α → M z β}

theorem Leaves.onto (h : Leaves (Onward X G) m) (k : ∀ a, Leaves (Onto X G Q) (f a)) : Leaves (Onto X G Q) (m >>= f) := by
  intro t b v e
  simp only [Bind.bind, StateT.bind, Except.bind] at e
  split at e
  · cases e
  · next x hx => exact ⟨(onward_order X G).trans (h _ _ _ hx) (k _ _ _ _ e).1, (k _ _ _ _ e).2⟩

theorem Leaves.lasts (h : Leaves (Onto X G Q) m) (last : Lasting X G Q) (k : ∀ a, Leaves (Onward X G) (f a)) :
    Leaves (Onto X G Q) (m >>= f) := by
  intro t b v e
  simp only [Bind.bind, StateT.bind, Except.bind] at e
  split at e
  · cases e
  · next x hx =>
    obtain ⟨on, done⟩ := h _ _ _ hx
    have next := k _ _ _ _ e
    exact ⟨(onward_order X G).trans on next, last _ _ next done⟩

/-- The two halves of a run. -/
theorem bind_ok {t v : Run z} {b : β} (h : (m >>= f) t = .ok (b, v)) : ∃ a u, m t = .ok (a, u) ∧ f a u = .ok (b, v) := by
  simp only [Bind.bind, StateT.bind, Except.bind] at h
  split at h
  · cases h
  · next x hx => exact ⟨x.1, x.2, hx, h⟩

/-- A loop whose every turn, from a state that the first one leads on to, leads on and brings about something that lasts. -/
theorem forEach_run {f : α → M z Unit} {Q : α → State → Prop} {s : State} (last : ∀ x, Lasting X G (Q x)) (xs : List α)
    (turn : ∀ x ∈ xs, ∀ t a u, Onward X G s t.1 → f x t = .ok (a, u) → Onto X G (Q x) t.1 u.1) :
    ∀ {t : Run z} {a u}, Onward X G s t.1 → forEach xs f t = .ok (a, u) → Onward X G t.1 u.1 ∧ ∀ x ∈ xs, Q x u.1 := by
  induction xs with
  | nil =>
    intro t a u _ run
    cases run
    exact ⟨.refl _, fun _ mem => absurd mem List.not_mem_nil⟩
  | cons x xs ih =>
    intro t a v on run
    obtain ⟨_, u, first, rest⟩ := bind_ok run
    obtain ⟨step, done⟩ := turn x (List.mem_cons_self ..) _ _ _ on first
    obtain ⟨steps, all⟩ := ih (fun y mem => turn y (List.mem_cons_of_mem _ mem)) ((onward_order X G).trans on step) rest
    refine ⟨(onward_order X G).trans step steps, fun y mem => ?_⟩
    rcases List.mem_cons.mp mem with rfl | mem
    · exact last _ _ _ steps done
    · exact all y mem

end Rules

section Parts

variable {z : State}

/-! Ending a group -/

/-- A group as its end leaves it. -/
def Group.ended (gr : Group) : Group :=
  { gr with exited := true, hold := none, parked := none, hints := [], stack := [], cres := none
            trap := { gr.trap with pending := none, handler := none, resume := none }
            ls := gr.ls.map fun e => { e with discard := true } }

theorem modGroup_ended {g : Nat} (h : G g) : Leaves (Onto X G (Ended g)) (modGroup g Group.ended : M z Unit) := by
  intro t a u run
  refine ⟨modGroup_onward (fun gr => ⟨.inr ⟨h, rfl, rfl⟩, .inr rfl, fun _ _ _ e => by cases e⟩) _ _ _ run, ?_⟩
  cases run
  intro gr found
  obtain ⟨_, _, rfl⟩ := get?_adjusted (f := Group.ended) found
  rfl

/-- A group ends, and takes nothing else with it (R222, R254, R306). -/
theorem endGroup_ends {g : Nat} (h : G g) : Leaves (Onto X G (Ended g)) (endGroup g : M z Unit) := by
  have o := onward_order X G
  have finish : Leaves (Onto X G (Ended g)) (do unlockLines g; dropEvents g; modGroup g Group.ended; leaveBarriers g : M z Unit) :=
    (modHome_still _).onward.onto fun _ => (dropEvents_onward g).onto fun _ =>
      (modGroup_ended h).lasts (ended_lasting g) fun _ => leaveBarriers_onward g
  have release (b : Bool) (cl : Nat) : Leaves (Onto X G (Ended g)) (do
      if b then releaseCurrent cl (.cres g)
      unlockLines g; dropEvents g; modGroup g Group.ended; leaveBarriers g : M z Unit) :=
    Leaves.ite ((releaseCurrent_onward _ _).onto fun _ => finish) finish
  refine (getGroup_onward g).onto fun gr => (Leaves.get o).onto fun s => ?_
  cases gr.parked with
  | some p => exact (detach_onward _).onto fun _ => release _ _
  | none => exact release _ _

/-- A group of the team ends, unless it has. -/
def endLive (g : Nat) : M z Unit := do
  match (← getS).group? g with
  | some gr => if !gr.exited then endGroup g
  | none => pure ()

theorem endLive_ends {g : Nat} (h : G g) : Leaves (Onto X G (Ended g)) (endLive g : M z Unit) := by
  intro t a u run
  obtain ⟨s, t', get, rest⟩ := bind_ok run
  cases get
  cases found : t.1.group? g with
  | none =>
    rw [found] at rest
    cases rest
    exact ⟨.refl _, fun gr there => absurd (found.symm.trans there) nofun⟩
  | some gr =>
    cases live : gr.exited
    · simp only [found, live, Bool.not_false, if_true] at rest
      exact endGroup_ends h _ _ _ rest
    · simp only [found, live, Bool.not_true, Bool.false_eq_true, if_false] at rest
      cases rest
      refine ⟨.refl _, fun gr' there => ?_⟩
      cases found.symm.trans there
      exact live

/-! Passing the tickets -/

theorem need_ok {α : Type} {x : Option α} {a : α} {t u : Run z} (run : need x t = .ok (a, u)) : x = some a ∧ u = t := by
  cases x <;> cases run
  exact ⟨rfl, rfl⟩

theorem getTeam_ok {e : Nat} {tm : Team} {t u : Run z} (run : getTeam e t = .ok (tm, u)) : t.1.team? e = some tm ∧ u = t :=
  need_ok (x := t.1.team? e) run

theorem getGrid_ok {i : Nat} {gd : Grid} {t u : Run z} (run : getGrid i t = .ok (gd, u)) : t.1.grid? i = some gd ∧ u = t :=
  need_ok (x := t.1.grid? i) run

theorem advance_tickets (k : Ticket) (gd : Grid) (j : Nat) : GridOn gd { gd with tickets := gd.tickets.set j k } := by
  simp [GridOn]

theorem modTeam_passed (e j : Nat) :
    Leaves (Onto X G (HasPassed e j)) (modTeam e (fun t => { t with passed := t.passed ++ [j] }) : M z Unit) := by
  intro t a u run
  refine ⟨(modTeam_onward (X := X) (G := G) fun tm => ?_ : Leaves (Onward X G) _) _ _ _ run, ?_⟩
  · exact ⟨rfl, rfl, rfl, rfl, rfl, List.subset_append_left _ _, .inl rfl⟩
  cases run
  intro tm found
  obtain ⟨_, _, rfl⟩ := get?_adjusted (f := fun t : Team => { t with passed := t.passed ++ [j] }) found
  simp

theorem passTicket_passes (e j : Nat) (void : Bool) (c : Clock) :
    Leaves (Onto X G (HasPassed e j)) (passTicket e j void c : M z Unit) := by
  have o := onward_order X G
  refine (getTeam_onward e).onto fun t => (getGrid_onward _).onto fun gd => (Leaves.need o _).onto fun k => ?_
  refine (modGrid_onward fun gd => advance_tickets _ gd j).onto fun _ => ?_
  exact (modTeam_passed e j).lasts (hasPassed_lasting e j) fun _ => (sysWrite_still _ _).onward

/-- The tickets that the team has not passed it passes (R152). -/
theorem passAll_passes {e : Nat} {void : Bool} {t u : Run z} {a} (run : passAll e void t = .ok (a, u)) :
    Onto X G (fun v => ∀ tm gd, t.1.team? e = some tm → t.1.grid? tm.grid = some gd →
      ∀ j < gd.tickets.length, HasPassed e j v) t.1 u.1 := by
  obtain ⟨tm, _, getTm, rest⟩ := bind_ok run
  obtain ⟨team, rfl⟩ := getTeam_ok getTm
  obtain ⟨gd, _, getGd, loop⟩ := bind_ok rest
  obtain ⟨grid, rfl⟩ := getGrid_ok getGd
  suffices h : Onward X G _ u.1 ∧ ∀ j ∈ List.range gd.tickets.length, HasPassed e j u.1 by
    refine ⟨h.1, fun tm' gd' team' grid' j bound => ?_⟩
    cases team.symm.trans team'
    cases grid.symm.trans grid'
    exact h.2 j (List.mem_range.mpr bound)
  refine forEach_run (hasPassed_lasting e) _ (fun j mem v b w on turn => ?_) (.refl _) loop
  have pass (r : Clock) := passTicket_passes (X := X) (G := G) (z := z) e j void r
  dsimp only at turn
  split at turn
  · rw [List.getElem?_eq_getElem (List.mem_range.mp mem)] at turn
    exact ((journalTeam_onward _ _ _ _ _ _).onto fun _ => (Leaves.get (onward_order X G)).onto fun _ => pass _) _ _ _ turn
  · next passed =>
    cases turn
    refine ⟨.refl _, hasPassed_lasting e j _ _ on fun tm' found => ?_⟩
    cases team.symm.trans found
    simpa using passed

end Parts

end Sys2Proof.Machine
end

section
/-! O49: one team, then the team with its descendants -/

namespace Sys2Proof.Machine

variable {X G : Nat → Prop} {z : State}

/-- What a topup that group `g` waits with took from its team. -/
def topupOf (s : State) (g : Nat) : W64 :=
  match s.group? g with
  | some gr => (match gr.hold with | some (.topup _ _ a) => a | _ => 0)
  | none => 0

/-- A team's amount, with what its groups' topups took. -/
def alBack (s : State) (e : Nat) (al : W64) : W64 := ((s.teamGroups e).map (topupOf s)).foldl (· + ·) al

/-- A team as it enters UNWINDING in state `s`. -/
def unwoundTeam (s : State) (e : Nat) (t : Team) : Team :=
  { t with state := .unwinding, unwound := true, pendingCost := none, preempt := none, stop := .running, al := alBack s e t.al }

/-- A saved team gives its save slot back. -/
def giveSlot (t : Team) : M z Unit :=
  match t.state with
  | .saved slot => modCtx t.ctx fun c => { c with saveUsed := c.saveUsed.filter (· != slot) }
  | _ => pure ()

/-- A root team's launch is marked. -/
def markRoot (t : Team) : M z Unit :=
  if t.parent.isNone then modLaunch t.launch fun l => { l with unwound := true } else pure ()

/-- What unwinding does to a team that is neither DONE nor in UNWINDING. -/
def enterUnwinding (e : Nat) (t : Team) (s : State) : M z Unit := do
  modTeam e (unwoundTeam s e)
  giveSlot t
  markRoot t
  passAll e true
  forEach (s.teamGroups e) endLive

theorem unwindOne_eq (e : Nat) : (unwindOne e : M z Unit) = getTeam e >>= fun t =>
    if t.state = .done ∨ t.state = .unwinding then pure () else getS >>= enterUnwinding e t := by
  unfold unwindOne
  refine congrArg (getTeam e >>= ·) (funext fun t => ?_)
  cases h : t.state
  case done => rfl
  case unwinding => rfl
  all_goals
    rw [if_neg (by simp)]
    refine congrArg (getS >>= ·) (funext fun s => ?_)
    unfold enterUnwinding giveSlot markRoot
    rw [h]
    cases t.parent.isNone <;> rfl

/-! One team -/

/-- No group of the team waits with a topup. -/
def Untopped (s : State) (x : Nat) : Prop :=
  ∀ g ∈ s.teamGroups x, ∀ gr, s.group? g = some gr → ∀ d t a, gr.hold ≠ some (.topup d t a)

/-- What unwinding has brought about in `u` for the team `x`, which was `tm` in `s`. -/
structure Unwound (s : State) (x : Nat) (tm : Team) (u : State) : Prop where
  amount : ∃ al, (Untopped s x → al = tm.al) ∧ Unwinds x al u
  slot : ∀ slot, tm.state = .saved slot → SlotFree tm.ctx slot u
  launch : tm.parent = none → Marked tm.launch u
  passed : ∀ gd, s.grid? tm.grid = some gd → ∀ j < gd.tickets.length, HasPassed x j u
  groups : ∀ g ∈ s.teamGroups x, Ended g u

theorem unwound_lasting (s : State) (x : Nat) (tm : Team) : Lasting X G (Unwound s x tm) := fun t u on h =>
  { amount := h.amount.imp fun al k => k.imp id (unwinds_lasting x al t u on)
    slot := fun c e => slotFree_lasting _ _ t u on (h.slot c e)
    launch := fun e => marked_lasting _ t u on (h.launch e)
    passed := fun gd e j b => hasPassed_lasting x j t u on (h.passed gd e j b)
    groups := fun g mem => ended_lasting g t u on (h.groups g mem) }

/-- Amounts that are all 0 add nothing. -/
theorem alBack_untopped {s : State} {x : Nat} (h : Untopped s x) (al : W64) : alBack s x al = al := by
  have zero : ∀ g ∈ s.teamGroups x, topupOf s g = 0 := fun g mem => by
    unfold topupOf
    split
    · next gr found =>
      split
      · next held => exact absurd held (h g mem gr found _ _ _)
      · rfl
    · rfl
  have zeros (l : List Nat) (h : ∀ g ∈ l, topupOf s g = 0) : (l.map (topupOf s)).foldl (· + ·) al = al := by
    induction l with
    | nil => rfl
    | cons g l ih =>
      rw [List.map_cons, List.foldl_cons, h g (List.mem_cons_self ..), show al + 0 = al from BitVec.add_zero al]
      exact ih fun g mem => h g (List.mem_cons_of_mem _ mem)
  exact zeros _ zero

theorem modTeam_unwinds {x : Nat} {tm : Team} {t u : Run z} {a} (team : t.1.team? x = some tm) (live : tm.state ≠ .unwinding) (may : X x)
    (run : modTeam x (unwoundTeam t.1 x) t = .ok (a, u)) : Onto X G (Unwinds x (alBack t.1 x tm.al)) t.1 u.1 := by
  cases run
  refine ⟨teamPut_onward fun tm' found => ?_, fun tm' found => ?_⟩
  · cases team.symm.trans found
    exact ⟨rfl, rfl, rfl, rfl, rfl, List.Subset.refl _, .inr ⟨may, live, rfl⟩⟩
  · obtain ⟨_, before, rfl⟩ := get?_adjusted (f := unwoundTeam t.1 x) found
    cases team.symm.trans before
    rfl

theorem giveSlot_frees (tm : Team) :
    Leaves (Onto X G fun u => ∀ slot, tm.state = .saved slot → SlotFree tm.ctx slot u) (giveSlot tm : M z Unit) := by
  unfold giveSlot
  split
  · next slot saved =>
    intro t a u run
    refine ⟨(modCtx_onward fun c => List.filter_subset_self _) _ _ _ run, fun slot' saved' => ?_⟩
    cases saved.symm.trans saved'
    cases run
    simp [SlotFree, State.ctx]
  · next unsaved =>
    intro t a u run
    cases run
    exact ⟨.refl _, fun slot saved => absurd saved (unsaved slot)⟩

theorem markRoot_marks (tm : Team) : Leaves (Onto X G fun u => tm.parent = none → Marked tm.launch u) (markRoot tm : M z Unit) := by
  unfold markRoot
  split
  · intro t a u run
    refine ⟨(modLaunch_onward fun l _ => rfl) _ _ _ run, fun _ k found => ?_⟩
    cases run
    obtain ⟨_, _, rfl⟩ := get?_adjusted (f := fun l : Launch => { l with unwound := true }) found
    rfl
  · next child =>
    intro t a u run
    cases run
    exact ⟨.refl _, fun root => absurd (by simp [root]) child⟩

/-- What unwinding does to one team, from the state it finds it in. -/
theorem enterUnwinding_unwinds {x : Nat} {tm : Team} {t u : Run z} {a} (team : t.1.team? x = some tm) (live : tm.state ≠ .unwinding)
    (may : X x) (mayEnd : ∀ g ∈ t.1.teamGroups x, G g) (run : enterUnwinding x tm t.1 t = .ok (a, u)) :
    Onto X G (Unwound t.1 x tm) t.1 u.1 := by
  have o := onward_order X G
  obtain ⟨_, t1, run1, rest⟩ := bind_ok run
  obtain ⟨on1, unwinds⟩ := modTeam_unwinds (G := G) team live may run1
  obtain ⟨_, t2, run2, rest⟩ := bind_ok rest
  obtain ⟨on2, free⟩ := giveSlot_frees tm _ _ _ run2
  obtain ⟨_, t3, run3, rest⟩ := bind_ok rest
  obtain ⟨on3, marked⟩ := markRoot_marks tm _ _ _ run3
  obtain ⟨_, t4, run4, rest⟩ := bind_ok rest
  obtain ⟨on4, passed⟩ := passAll_passes run4
  obtain ⟨on5, ended⟩ := forEach_run (X := X) (G := G) ended_lasting _
    (fun g mem _ _ _ _ turn => endLive_ends (mayEnd g mem) _ _ _ turn) (.refl _) rest
  have to3 := o.trans on1 (o.trans on2 on3)
  have from2 := o.trans on3 (o.trans on4 on5)
  have from3 := o.trans on4 on5
  have from1 := o.trans on2 from2
  refine ⟨o.trans to3 from3, ⟨_, fun h => alBack_untopped h _, unwinds_lasting _ _ _ _ from1 unwinds⟩, fun slot saved => ?_,
    fun root => ?_, fun gd grid j bound => ?_, ended⟩
  · exact slotFree_lasting _ _ _ _ from2 (free slot saved)
  · exact marked_lasting _ _ _ from3 (marked root)
  · obtain ⟨tm', team', same⟩ := rel_some (to3.teams x) team
    obtain ⟨gd', grid', length⟩ := rel_some (to3.grids tm.grid) grid
    exact hasPassed_lasting _ _ _ _ on5 (passed tm' gd' team' (same.grid ▸ grid') j (length.symm ▸ bound))

/-- What is brought about for a team that stands in `t` as in `s` is brought about for it since `s`. -/
theorem Unwound.since {s t u : State} {x : Nat} {tm tm' : Team} (on : Onward X G s t) (same : TeamOn (X x) tm tm')
    (stands : tm'.standing = tm.standing) (h : Unwound t x tm' u) : Unwound s x tm u where
  amount := by
    obtain ⟨al, back, unwinds⟩ := h.amount
    refine ⟨al, fun untopped => (back fun g mem gr found d t a held => ?_).trans (congrArg (·.2.1) stands), unwinds⟩
    obtain ⟨gr', found', rel⟩ := rel_before (on.groups g) found
    exact untopped g (on.teamGroups x ▸ mem) gr' found' d t a (rel.amount d t a held)
  slot c e := same.ctx ▸ h.slot c ((congrArg (·.1) stands).trans e)
  launch e := same.launch ▸ h.launch (same.parent.trans e)
  passed gd grid j bound := by
    obtain ⟨gd', grid', length⟩ := rel_some (on.grids tm.grid) grid
    exact h.passed gd' (same.grid ▸ grid') j (length.symm ▸ bound)
  groups g mem := h.groups g (on.teamGroups x ▸ mem)

/-! The team and its descendants -/

/-- The team `x`, which is `tm`, is the team `e` or a descendant of it, and is neither DONE nor in UNWINDING. -/
def Ends (s : State) (e x : Nat) (tm : Team) : Prop :=
  s.team? x = some tm ∧ isUnder s e s.teams.length x = true ∧ tm.state ≠ .done ∧ tm.state ≠ .unwinding

/-- One turn of the loop. -/
def unwindTurn (s : State) (e x : Nat) : M z Unit := if isUnder s e s.teams.length x then unwindOne x else pure ()

/-- A turn unwinds its team if that stands as it did, and leaves alone one that it has met before. -/
theorem unwindTurn_unwinds {s : State} {e x : Nat} {t u : Run z} {a} (on : Onward X G s t.1) (may : ∀ tm, Ends s e x tm → X x)
    (mayEnd : ∀ tm, Ends s e x tm → ∀ g ∈ s.teamGroups x, G g) (run : unwindTurn s e x t = .ok (a, u)) :
    Onto X G (fun v => ∀ tm tm', Ends s e x tm → t.1.team? x = some tm' → tm'.standing = tm.standing → Unwound s x tm v)
      t.1 u.1 := by
  unfold unwindTurn at run
  split at run
  case isFalse apart =>
    cases run
    exact ⟨.refl _, fun tm tm' ends => absurd ends.2.1 apart⟩
  case isTrue under =>
    rw [unwindOne_eq] at run
    obtain ⟨now, _, getTm, rest⟩ := bind_ok run
    obtain ⟨team, rfl⟩ := getTeam_ok getTm
    obtain ⟨was, before, same⟩ := rel_before (on.teams x) team
    split at rest
    · next ended =>
      cases rest
      refine ⟨.refl _, fun tm tm' ends team' stands => ?_⟩
      cases team.symm.trans team'
      have state : now.state = tm.state := congrArg (·.1) stands
      obtain ⟨_, _, undone, whole⟩ := ends
      exact absurd (state ▸ ended) (not_or.mpr ⟨undone, whole⟩)
    · next live =>
      obtain ⟨undone, whole⟩ := not_or.mp live
      have stands : now.standing = was.standing := same.standing.elim id fun h => absurd h.2.2 whole
      have state : now.state = was.state := congrArg (·.1) stands
      have ends : Ends s e x was := ⟨before, under, state ▸ undone, state ▸ whole⟩
      obtain ⟨_, _, get, rest⟩ := bind_ok rest
      cases get
      obtain ⟨next, done⟩ := enterUnwinding_unwinds team whole (may _ ends) (on.teamGroups x ▸ mayEnd _ ends) rest
      refine ⟨next, fun tm tm' ends' _ _ => ?_⟩
      cases before.symm.trans ends'.1
      exact done.since on same stands

theorem unwindTurns_onward {s : State} {e : Nat} {xs : List Nat} {t u : Run z} {a} (on : Onward X G s t.1)
    (may : ∀ x ∈ xs, ∀ tm, Ends s e x tm → X x) (mayEnd : ∀ x ∈ xs, ∀ tm, Ends s e x tm → ∀ g ∈ s.teamGroups x, G g)
    (run : forEach xs (unwindTurn s e) t = .ok (a, u)) : Onward X G t.1 u.1 :=
  (forEach_run (Q := fun _ _ => True) (fun _ _ _ _ _ => trivial) xs
    (fun x mem _ _ _ on turn => ⟨(unwindTurn_unwinds on (may x mem) (mayEnd x mem) turn).1, trivial⟩) on run).1

theorem mem_keys {α : Type} {m : SMap α} {k : Nat} {a : α} (h : SMap.get? m k = some a) : k ∈ SMap.keys m := by
  induction m with
  | nil => cases h
  | cons p m ih =>
    obtain ⟨i, b⟩ := p
    by_cases e : i = k
    · simp [SMap.keys, e]
    · simp only [SMap.get?, if_neg e] at h
      exact List.mem_cons_of_mem _ (ih h)

/-- The teams that the unwinding of `e` ends. -/
def EndsTeam (s : State) (e x : Nat) : Prop := ∃ tm, Ends s e x tm

/-- The groups that the unwinding of `e` ends. -/
def EndsGroup (s : State) (e g : Nat) : Prop := ∃ x tm, Ends s e x tm ∧ g ∈ s.teamGroups x

theorem unwindTurns_on {s : State} {e : Nat} {xs : List Nat} {t u : Run z} {a} (on : Onward (EndsTeam s e) (EndsGroup s e) s t.1)
    (run : forEach xs (unwindTurn s e) t = .ok (a, u)) : Onward (EndsTeam s e) (EndsGroup s e) t.1 u.1 :=
  unwindTurns_onward on (fun _ _ tm ends => ⟨tm, ends⟩) (fun x _ tm ends _ mem => ⟨x, tm, ends, mem⟩) run

theorem forEach_append {α : Type} (xs ys : List α) (f : α → M z Unit) :
    forEach (xs ++ ys) f = forEach xs f >>= fun _ => forEach ys f := by
  induction xs with
  | nil => rfl
  | cons x xs ih => simp only [List.cons_append, forEach, ih, bind_assoc]

/-- Each team that stands is unwound at its first turn, which finds it as it stood. -/
theorem unwindTurns_unwind {s : State} {e x : Nat} {tm : Team} {xs : List Nat} {t u : Run z} {a} (start : t.1 = s) (ends : Ends s e x tm)
    (mem : x ∈ xs) (run : forEach xs (unwindTurn s e) t = .ok (a, u)) : Unwound s x tm u.1 := by
  have o := onward_order (EndsTeam s e) (EndsGroup s e)
  subst start
  obtain ⟨before, after, rfl, fresh⟩ := List.eq_append_cons_of_mem mem
  rw [forEach_append] at run
  obtain ⟨_, v, first, rest⟩ := bind_ok run
  obtain ⟨_, w, turn, rest⟩ := bind_ok rest
  have others : Onward (fun y => EndsTeam t.1 e y ∧ y ≠ x) (EndsGroup t.1 e) t.1 v.1 :=
    unwindTurns_onward (.refl _) (fun y mem tm ends => ⟨⟨tm, ends⟩, fun same => fresh (same ▸ mem)⟩)
      (fun y _ tm ends g mem => ⟨y, tm, ends, mem⟩) first
  have on : Onward (EndsTeam t.1 e) (EndsGroup t.1 e) t.1 v.1 := unwindTurns_on (.refl _) first
  obtain ⟨tm', team, same⟩ := rel_some (others.teams x) ends.1
  have stands : tm'.standing = tm.standing := same.standing.elim id fun h => absurd rfl h.1.2
  obtain ⟨next, done⟩ := unwindTurn_unwinds on (fun tm ends => ⟨tm, ends⟩) (fun tm ends g mem => ⟨x, tm, ends, mem⟩) turn
  exact unwound_lasting t.1 x tm _ _ (unwindTurns_on (o.trans on next) rest) (done tm tm' ends team stands)

/-- Unwinding leads on, ending no team and no group but its own, and brings all about for each of its teams. -/
theorem unwind_unwinds {s u : State} {e : Nat} (run : Gives (z := s) (unwind e) s () u) :
    Onward (EndsTeam s e) (EndsGroup s e) s u ∧ ∀ x tm, Ends s e x tm → Unwound s x tm u := by
  obtain ⟨_, run⟩ := run .refl
  obtain ⟨_, _, get, turns⟩ := bind_ok run
  cases get
  exact ⟨unwindTurns_on (.refl _) turns, fun x tm ends => unwindTurns_unwind rfl ends (mem_keys ends.1) turns⟩

/-- Settles O49: what an unwinding keeps lasts through its turns, and each team's turn brings the rest about. -/
theorem unwinding : Obligations.Unwinding := by
  unfold Obligations.Unwinding
  intro s e u run
  obtain ⟨on, all⟩ := unwind_unwinds run
  refine ⟨fun x tm ends => ?_, fun x tm ends g mem gr found => ?_, fun x tm slot ends saved => (all x tm ends).slot slot saved,
    fun x tm l ends root => (all x tm ends).launch root l, fun x apart => ?_, fun g apart => ?_⟩
  · have done := all x tm ends
    obtain ⟨al, back, unwinds⟩ := done.amount
    obtain ⟨tm', team, _⟩ := rel_some (on.teams x) ends.1
    have standing := unwinds tm' team
    simp only [Team.standing, Prod.mk.injEq] at standing
    obtain ⟨state, al', marked, cost, preempt, stop⟩ := standing
    exact ⟨tm', team, state, marked, cost, preempt, stop, fun untopped => al'.trans (back untopped), fun gd grid j bound =>
      done.passed gd grid j bound tm' team⟩
  · obtain ⟨gr', group, rel⟩ := rel_some (on.groups g) found
    have ended := (all x tm ends).groups g mem gr' group
    refine ⟨gr', group, ended, fun live => ?_⟩
    rcases rel.exited with same | ⟨_, _, free⟩
    · exact absurd (ended.symm.trans (same.trans live)) (by decide)
    · exact free
  · refine rel_map (on.teams x) fun a b rel => ?_
    rcases rel.standing with same | ⟨⟨tm, ends⟩, _, _⟩
    · exact congrArg (fun p => (p.1, p.2.1, p.2.2.1)) same
    · exact absurd ends (apart tm)
  · refine rel_map (on.groups g) fun a b rel => ?_
    rcases rel.exited with same | ⟨⟨x, tm, ends, mem⟩, _, _⟩
    · exact same
    · exact absurd mem (apart x tm ends)

end Sys2Proof.Machine
end

section
/-! O5: scans and reductions over the active lanes. -/

namespace Sys2Proof.Machine

/-- A word that raises causes where `bad` holds, as FP_OVF where FOE is set and a rounding overflows (R164), and else changes its
group's registers. -/
theorem writesIf_of_raising {i : Instr} {info : View → Info} {bad : View → Bool} {cond : View → Prop} {ds : View → List Detail}
    {f : View → Group → Group} {s : State}
    (h : exec i s = runUnit s info fun w => if bad w then raise (ds w) else do modGroup w.g (f w); pure .seq)
    (good : ∀ w, cond w → bad w = false) : WritesIf i info cond f s :=
  completes h fun w _ _ _ ok => Gives.neg (ne_true_of_eq_false (good w ok)) (Gives.modThen w.g (f w) _ _)

/-- A word whose meaning is `runScan` writes the chain of R177. -/
theorem scans_of_runScan {i : BitVec 7 → BitVec 8 → Instr} {e : Elem} {mods : ModHint → Bool} {op : View → W32 → W32 → W32}
    {ovf : View → W32 → W32 → Bool} (h : ∀ s vd sa, exec (i vd sa) s = runScan s (operandsOk (i vd sa)) e vd sa mods op ovf) :
    Scans i e mods op ovf :=
  fun s vd sa => writesIf_of_raising (h s vd sa) fun _ => Bool.and_eq_false_iff.2

/-- A word whose meaning is `runRed` writes the value of the tree of R176 in every active lane. -/
theorem reduces_of_runRed {i : BitVec 7 → BitVec 8 → Instr} {e : Elem} {mods : ModHint → Bool} {op : View → W32 → W32 → W32}
    {ovf : View → W32 → W32 → Bool} (h : ∀ s vd sa, exec (i vd sa) s = runRed s (operandsOk (i vd sa)) e vd sa mods op ovf) :
    Reduces i e mods op ovf :=
  fun s vd sa => writesIf_of_raising (h s vd sa) fun _ => Bool.and_eq_false_iff.2

/-- Settles O5: the two scan words run the chain of R177, the four reduction words the tree of R176. That an F32 NaN is canonical
even where one lane stands alone is log entry 75. -/
theorem scanReduceWords : Obligations.ScanReduceWords := by
  unfold Obligations.ScanReduceWords
  exact ⟨scans_of_runScan fun _ _ _ => rfl, scans_of_runScan fun _ _ _ => rfl, reduces_of_runRed fun _ _ _ => rfl,
    reduces_of_runRed fun _ _ _ => rfl, reduces_of_runRed fun _ _ _ => rfl, reduces_of_runRed fun _ _ _ => rfl⟩

end Sys2Proof.Machine
end

section
/-! O57, O59: words and the instructions they encode. A word is the layout of its fields, so every arm of the decoder answers an
instruction whose layout is the word it read. -/

namespace Sys2Proof.Laws

/-- A field is a concatenation of two parts where each part stands in its place. -/
theorem extract_eq_concat_iff (m k : Nat) {n s : Nat} {w : BitVec n} {x : BitVec m} {y : BitVec k} :
    w.extractLsb' s (m + k) = x ++ y ↔ w.extractLsb' (s + k) m = x ∧ w.extractLsb' s k = y := by
  constructor
  · intro h
    rw [← BitVec.extractLsb'_append_extractLsb'_eq_extractLsb' rfl] at h
    have high := congrArg (·.extractLsb' k m) h
    have low := congrArg (·.extractLsb' 0 k) h
    simp only [extract_high _ _ (le_refl k), extract_low _ _ (Nat.zero_add k).le, Nat.sub_self, extract_all] at high low
    exact ⟨high, low⟩
  · rintro ⟨rfl, rfl⟩
    exact (BitVec.extractLsb'_append_extractLsb'_eq_extractLsb' rfl).symm

/-- A field is zero where both its parts are. -/
theorem extract_eq_zero_iff (m k : Nat) {n s : Nat} {w : BitVec n} :
    w.extractLsb' s (m + k) = 0#(m + k) ↔ w.extractLsb' (s + k) m = 0#m ∧ w.extractLsb' s k = 0#k := by
  rw [← BitVec.zero_append_zero, extract_eq_concat_iff]

/-! Each layout of R179 is the word whose fields are the layout's. Its lemma cuts off one field after another from the lowest:
the widths are those of the part above and of the field. -/

theorem layoutV_eq_iff (w : W32) (c : BitVec 4) (f : BitVec 5) (d : BitVec 7) (a b : BitVec 8) :
    layoutV c f d a b = w ↔ (w.extractLsb' 28 4).toNat = c.toNat ∧ (w.extractLsb' 23 5).toNat = f.toNat ∧
      w.extractLsb' 16 7 = d ∧ w.extractLsb' 8 8 = a ∧ w.extractLsb' 0 8 = b := by
  unfold layoutV
  rw [eq_comm, ← extract_all w, extract_eq_concat_iff 24 8, extract_eq_concat_iff 16 8, extract_eq_concat_iff 9 7,
    extract_eq_concat_iff 4 5]
  simp only [and_assoc, BitVec.toNat_inj, extract_all]

theorem layoutS_eq_iff (w : W32) (c : BitVec 4) (f d a b : BitVec 6) (h : BitVec 4) :
    layoutS c f d a b h = w ↔ (w.extractLsb' 28 4).toNat = c.toNat ∧ (w.extractLsb' 22 6).toNat = f.toNat ∧
      w.extractLsb' 16 6 = d ∧ w.extractLsb' 10 6 = a ∧ w.extractLsb' 4 6 = b ∧ w.extractLsb' 0 4 = h := by
  unfold layoutS
  rw [eq_comm, ← extract_all w, extract_eq_concat_iff 28 4, extract_eq_concat_iff 22 6, extract_eq_concat_iff 16 6,
    extract_eq_concat_iff 10 6, extract_eq_concat_iff 4 6]
  simp only [and_assoc, BitVec.toNat_inj, extract_all]

theorem layoutI_eq_iff (w : W32) (c : BitVec 4) (f d a : BitVec 6) (i : BitVec 10) :
    layoutI c f d a i = w ↔ (w.extractLsb' 28 4).toNat = c.toNat ∧ (w.extractLsb' 22 6).toNat = f.toNat ∧
      w.extractLsb' 16 6 = d ∧ w.extractLsb' 10 6 = a ∧ w.extractLsb' 0 10 = i := by
  unfold layoutI
  rw [eq_comm, ← extract_all w, extract_eq_concat_iff 22 10, extract_eq_concat_iff 16 6, extract_eq_concat_iff 10 6,
    extract_eq_concat_iff 4 6]
  simp only [and_assoc, BitVec.toNat_inj, extract_all]

theorem layoutC_eq_iff (w : W32) (c f : BitVec 4) (r : BitVec 6) (o : BitVec 18) :
    layoutC c f r o = w ↔ (w.extractLsb' 28 4).toNat = c.toNat ∧ (w.extractLsb' 24 4).toNat = f.toNat ∧
      w.extractLsb' 18 6 = r ∧ w.extractLsb' 0 18 = o := by
  unfold layoutC
  rw [eq_comm, ← extract_all w, extract_eq_concat_iff 14 18, extract_eq_concat_iff 8 6, extract_eq_concat_iff 4 4]
  simp only [and_assoc, BitVec.toNat_inj, extract_all]

theorem layoutC24_eq_iff (w : W32) (c f : BitVec 4) (o : BitVec 24) :
    layoutC24 c f o = w ↔ (w.extractLsb' 28 4).toNat = c.toNat ∧ (w.extractLsb' 24 4).toNat = f.toNat ∧
      w.extractLsb' 0 24 = o := by
  unfold layoutC24
  rw [eq_comm, ← extract_all w, extract_eq_concat_iff 8 24, extract_eq_concat_iff 4 4]
  simp only [and_assoc, BitVec.toNat_inj, extract_all]

theorem layoutW_eq_iff (w : W32) (c f e : BitVec 4) (n : BitVec 20) :
    layoutW c f e n = w ↔ (w.extractLsb' 28 4).toNat = c.toNat ∧ (w.extractLsb' 24 4).toNat = f.toNat ∧
      w.extractLsb' 20 4 = e ∧ w.extractLsb' 0 20 = n := by
  unfold layoutW
  rw [eq_comm, ← extract_all w, extract_eq_concat_iff 12 20, extract_eq_concat_iff 8 4, extract_eq_concat_iff 4 4]
  simp only [and_assoc, BitVec.toNat_inj, extract_all]

theorem layoutM_eq_iff (w : W32) (c : BitVec 4) (f : BitVec 5) (d : BitVec 7) (b : BitVec 6) (o : BitVec 8) (r : BitVec 2) :
    layoutM c f d b o r = w ↔ (w.extractLsb' 28 4).toNat = c.toNat ∧ (w.extractLsb' 23 5).toNat = f.toNat ∧
      w.extractLsb' 16 7 = d ∧ w.extractLsb' 10 6 = b ∧ w.extractLsb' 2 8 = o ∧ w.extractLsb' 0 2 = r := by
  unfold layoutM
  rw [eq_comm, ← extract_all w, extract_eq_concat_iff 30 2, extract_eq_concat_iff 22 8, extract_eq_concat_iff 16 6,
    extract_eq_concat_iff 9 7, extract_eq_concat_iff 4 5]
  simp only [and_assoc, BitVec.toNat_inj, extract_all]

theorem layoutA_eq_iff (w : W32) (c : BitVec 4) (f x y z : BitVec 6) (u : BitVec 4) :
    layoutA c f x y z u = w ↔ (w.extractLsb' 28 4).toNat = c.toNat ∧ (w.extractLsb' 22 6).toNat = f.toNat ∧
      w.extractLsb' 16 6 = x ∧ w.extractLsb' 10 6 = y ∧ w.extractLsb' 4 6 = z ∧ w.extractLsb' 0 4 = u := by
  unfold layoutA
  rw [eq_comm, ← extract_all w, extract_eq_concat_iff 28 4, extract_eq_concat_iff 22 6, extract_eq_concat_iff 16 6,
    extract_eq_concat_iff 10 6, extract_eq_concat_iff 4 6]
  simp only [and_assoc, BitVec.toNat_inj, extract_all]

theorem layoutR_eq_iff (w : W32) (c : BitVec 4) (f x : BitVec 6) (r : BitVec 12) (u : BitVec 4) :
    layoutR c f x r u = w ↔ (w.extractLsb' 28 4).toNat = c.toNat ∧ (w.extractLsb' 22 6).toNat = f.toNat ∧
      w.extractLsb' 16 6 = x ∧ w.extractLsb' 4 12 = r ∧ w.extractLsb' 0 4 = u := by
  unfold layoutR
  rw [eq_comm, ← extract_all w, extract_eq_concat_iff 28 4, extract_eq_concat_iff 16 12, extract_eq_concat_iff 10 6,
    extract_eq_concat_iff 4 6]
  simp only [and_assoc, BitVec.toNat_inj, extract_all]

theorem layoutN_eq_iff (w : W32) (c : BitVec 4) (f x : BitVec 6) (n : BitVec 16) :
    layoutN c f x n = w ↔ (w.extractLsb' 28 4).toNat = c.toNat ∧ (w.extractLsb' 22 6).toNat = f.toNat ∧
      w.extractLsb' 16 6 = x ∧ w.extractLsb' 0 16 = n := by
  unfold layoutN
  rw [eq_comm, ← extract_all w, extract_eq_concat_iff 16 16, extract_eq_concat_iff 10 6, extract_eq_concat_iff 4 6]
  simp only [and_assoc, BitVec.toNat_inj, extract_all]

theorem layoutH_eq_iff (w : W32) (c : BitVec 4) (k : BitVec 2) (b : BitVec 26) :
    layoutH c k b = w ↔ (w.extractLsb' 28 4).toNat = c.toNat ∧ (w.extractLsb' 26 2).toNat = k.toNat ∧
      w.extractLsb' 0 26 = b := by
  unfold layoutH
  rw [eq_comm, ← extract_all w, extract_eq_concat_iff 6 26, extract_eq_concat_iff 4 2]
  simp only [and_assoc, BitVec.toNat_inj, extract_all]

theorem layoutJ_eq_iff (w : W32) (c : BitVec 4) (k : BitVec 2) (t : BitVec 6) (y : BitVec 1) (r : BitVec 19) :
    layoutJ c k t y r = w ↔ (w.extractLsb' 28 4).toNat = c.toNat ∧ (w.extractLsb' 26 2).toNat = k.toNat ∧
      w.extractLsb' 20 6 = t ∧ w.extractLsb' 19 1 = y ∧ w.extractLsb' 0 19 = r := by
  unfold layoutJ
  rw [eq_comm, ← extract_all w, extract_eq_concat_iff 13 19, extract_eq_concat_iff 12 1, extract_eq_concat_iff 6 6,
    extract_eq_concat_iff 4 2]
  simp only [and_assoc, BitVec.toNat_inj, extract_all]

theorem layoutK_eq_iff (w : W32) (c : BitVec 4) (k m : BitVec 2) (sat na nb aa ab od : BitVec 1) (oi : BitVec 3) (e : BitVec 1)
    (qi sc : BitVec 3) (r : BitVec 8) :
    layoutK c k m sat na nb aa ab od oi e qi sc r = w ↔ (w.extractLsb' 28 4).toNat = c.toNat ∧
      (w.extractLsb' 26 2).toNat = k.toNat ∧ w.extractLsb' 24 2 = m ∧ w.extractLsb' 23 1 = sat ∧ w.extractLsb' 22 1 = na ∧
      w.extractLsb' 21 1 = nb ∧ w.extractLsb' 20 1 = aa ∧ w.extractLsb' 19 1 = ab ∧ w.extractLsb' 18 1 = od ∧
      w.extractLsb' 15 3 = oi ∧ w.extractLsb' 14 1 = e ∧ w.extractLsb' 11 3 = qi ∧ w.extractLsb' 8 3 = sc ∧
      w.extractLsb' 0 8 = r := by
  unfold layoutK
  rw [eq_comm, ← extract_all w, extract_eq_concat_iff 24 8, extract_eq_concat_iff 21 3, extract_eq_concat_iff 18 3,
    extract_eq_concat_iff 17 1, extract_eq_concat_iff 14 3, extract_eq_concat_iff 13 1, extract_eq_concat_iff 12 1,
    extract_eq_concat_iff 11 1, extract_eq_concat_iff 10 1, extract_eq_concat_iff 9 1, extract_eq_concat_iff 8 1,
    extract_eq_concat_iff 6 2, extract_eq_concat_iff 4 2]
  simp only [and_assoc, BitVec.toNat_inj, extract_all]

/-! The decoder's answers -/

/-- The instruction that `r` answers, if any, has the word `w`. -/
def Reads (w : W32) (r : Except DecodeError Instr) : Prop := ∀ i, r = .ok i → encode i = some w

/-- The decoder `d` of class `c` answers instructions that have the word read. -/
def ReadsClass (c : Nat) (d : W32 → Except DecodeError Instr) : Prop := ∀ w, (w.extractLsb' 28 4).toNat = c → Reads w (d w)

theorem reads_ok {w : W32} {i : Instr} : Reads w (.ok i) ↔ encode i = some w :=
  ⟨fun h => h i rfl, fun h _ e => Except.ok.inj e ▸ h⟩

theorem reads_error {w : W32} {e : DecodeError} : Reads w (.error e) := fun _ h => nomatch h

theorem reads_unusedZero {w : W32} {u : Bool} {i : Instr} : Reads w (unusedZero u i) ↔ (u = true → encode i = some w) := by
  cases u
  · exact ⟨fun _ h => absurd h Bool.false_ne_true, fun _ => reads_error⟩
  · exact reads_ok.trans ⟨fun h _ => h, fun h => h rfl⟩

/-! In each arm the class and the function code are those of the layout by the decoder's matches, the operands by the arm itself,
and the zero fields by its check of unused fields. Where the arm checks two fields of the layout at once, or the layout joins two
of its operands, their widths are given, the higher one first. -/

/-- V words. -/
theorem vector_classes_read : ReadsClass 0x0 decodeClass0 ∧ ReadsClass 0x1 decodeClass1 ∧ ReadsClass 0x2 decodeClass2 ∧
    ReadsClass 0x3 decodeClass3 ∧ ReadsClass 0x4 decodeClass4 := by
  unfold decodeClass0 decodeClass1 decodeClass2 decodeClass3 decodeClass4
  refine ⟨?_, ?_, ?_, ?_, ?_⟩
  all_goals intro w cls
  all_goals beta_reduce
  all_goals split
  all_goals simp only [reads_ok, reads_error, reads_unusedZero, beq_iff_eq, Bool.and_eq_true, extract_eq_zero_iff 8 8,
    Nat.reduceAdd]
  all_goals intros
  all_goals refine congrArg some ?_
  all_goals simp only [layoutV_eq_iff, extract_eq_concat_iff 4 4, extract_eq_concat_iff 4 3, extract_eq_concat_iff 1 6,
    extract_eq_concat_iff 5 3, Nat.reduceAdd, *, BitVec.toNat_ofNat, Nat.reducePow, Nat.reduceMod, and_self]

/-- S-reg, S-imm and C words. -/
theorem scalar_classes_read : ReadsClass 0x5 decodeClass5 ∧ ReadsClass 0x6 decodeClass6 ∧ ReadsClass 0x7 decodeClass7 := by
  unfold decodeClass5 decodeClass6 decodeClass7
  refine ⟨?_, ?_, ?_⟩
  all_goals intro w cls
  all_goals beta_reduce
  all_goals split
  all_goals simp only [reads_ok, reads_error, reads_unusedZero, beq_iff_eq, Bool.and_eq_true, extract_eq_zero_iff 6 4,
    extract_eq_zero_iff 6 10, extract_eq_zero_iff 6 18, Nat.reduceAdd]
  all_goals intros
  all_goals refine congrArg some ?_
  all_goals simp only [layoutS_eq_iff, layoutI_eq_iff, layoutC_eq_iff, layoutC24_eq_iff, layoutW_eq_iff,
    extract_eq_concat_iff 3 3, Nat.reduceAdd, *, BitVec.toNat_ofNat, Nat.reducePow, Nat.reduceMod, and_self]

/-- M words. -/
theorem memory_classes_read : ReadsClass 0x8 decodeClass8 ∧ ReadsClass 0x9 decodeClass9 := by
  unfold decodeClass8 decodeClass9
  refine ⟨?_, ?_⟩
  all_goals intro w cls
  all_goals beta_reduce
  all_goals split
  all_goals simp only [reads_ok, reads_error, reads_unusedZero, beq_iff_eq]
  all_goals intros
  all_goals refine congrArg some ?_
  all_goals simp only [layoutM_eq_iff, extract_eq_concat_iff 1 6, Nat.reduceAdd, *, BitVec.toNat_ofNat, Nat.reducePow,
    Nat.reduceMod, and_self]

/-- A words, with srd, swr, trap and brk. -/
theorem system_classes_read : ReadsClass 0xA decodeClassA ∧ ReadsClass 0xB decodeClassB ∧ ReadsClass 0xC decodeClassC ∧
    ReadsClass 0xD decodeClassD ∧ ReadsClass 0xE decodeClassE := by
  unfold decodeClassA decodeClassB decodeClassC decodeClassD decodeClassE
  refine ⟨?_, ?_, ?_, ?_, ?_⟩
  all_goals intro w cls
  all_goals beta_reduce
  all_goals split
  all_goals simp only [reads_ok, reads_error, reads_unusedZero, beq_iff_eq, extract_eq_zero_iff 6 4, extract_eq_zero_iff 6 6,
    extract_eq_zero_iff 6 10, extract_eq_zero_iff 6 12, extract_eq_zero_iff 6 16, extract_eq_zero_iff 6 2,
    extract_eq_zero_iff 12 8, Nat.reduceAdd]
  all_goals intros
  all_goals refine congrArg some ?_
  all_goals simp only [layoutA_eq_iff, layoutR_eq_iff, layoutN_eq_iff, extract_eq_concat_iff 2 2, Nat.reduceAdd, *,
    BitVec.toNat_ofNat, Nat.reducePow, Nat.reduceMod, and_self]

/-- Hint words. -/
theorem hint_class_reads : ReadsClass 0xF decodeClassF := by
  unfold decodeClassF
  intro w cls
  beta_reduce
  split
  all_goals simp only [reads_ok, reads_error]
  all_goals refine congrArg some ?_
  all_goals simp only [layoutH_eq_iff, layoutJ_eq_iff, layoutK_eq_iff, *, BitVec.toNat_ofNat, Nat.reducePow, Nat.reduceMod,
    and_self]

/-- Whatever word is decoded, the instruction answered has that word. -/
theorem decode_reads (w : W32) : Reads w (decode w) := by
  obtain ⟨c0, c1, c2, c3, c4⟩ := vector_classes_read
  obtain ⟨c5, c6, c7⟩ := scalar_classes_read
  obtain ⟨c8, c9⟩ := memory_classes_read
  obtain ⟨cA, cB, cC, cD, cE⟩ := system_classes_read
  unfold decode
  split
  · exact reads_error
  · split
    exacts [c0 w ‹_›, c1 w ‹_›, c2 w ‹_›, c3 w ‹_›, c4 w ‹_›, c5 w ‹_›, c6 w ‹_›, c7 w ‹_›, c8 w ‹_›, c9 w ‹_›, cA w ‹_›,
      cB w ‹_›, cC w ‹_›, cD w ‹_›, cE w ‹_›, hint_class_reads w ‹_›, reads_error]

/-! The encoder -/

/-- The instructions that have a word are those that are no event. -/
theorem encode_isSome (i : Instr) : (encode i).isSome = !i.isEvent := by
  cases i <;> rfl

/-- In every other layout the class or the function code is not zero. -/
theorem encode_eq_zero {i : Instr} (h : encode i = some 0) : i = .vaddF32 0 0 0 := by
  cases i with
  | vaddF32 vd sa sb =>
    obtain ⟨-, -, rfl, rfl, rfl⟩ := (layoutV_eq_iff 0 _ _ vd sa sb).1 (Option.some.inj h)
    rfl
  | _ =>
    injection h <;> rename_i h <;>
    simp only [layoutV_eq_iff, layoutS_eq_iff, layoutI_eq_iff, layoutC_eq_iff, layoutC24_eq_iff, layoutW_eq_iff,
      layoutM_eq_iff, layoutA_eq_iff, layoutR_eq_iff, layoutN_eq_iff, layoutH_eq_iff, layoutJ_eq_iff, layoutK_eq_iff,
      BitVec.ofNat_eq_ofNat, BitVec.extractLsb'_zero, BitVec.toNat_ofNat, Nat.reducePow, Nat.reduceMod, Nat.reduceEqDiff,
      false_and, and_false] at h

/-- The decoder reads the word of every instruction, but the all-zero word, as that instruction: its lemma per instruction. -/
theorem decode_word (i : Instr) : Encoding.Statement i :=
  open Encoding in
  Instr.casesOn i vaddF32 vsubF32 vmulF32 vfmaF32 vminF32 vmaxF32 vaddF16x2 vsubF16x2 vmulF16x2 vfmaF16x2 vminF16x2 vmaxF16x2
    vaddB16x2 vsubB16x2 vmulB16x2 vfmaB16x2 vaddF64 vsubF64 vmulF64 vfmaF64 vminF64 vmaxF64 vdot2F16x2 vdot2B16x2 vdot4K8
    vfracF32 vaddI32 vsubI32 vmulI32 vmadI32 vmulhiI32 vmulhiN32 vminI32 vmaxI32 vminN32 vmaxN32 vaddsI32 vsubsI32 vaddsN32
    vsubsN32 vand vor vxor vandn vshl vshr vsar vpopc vclz vbrev vbfx vbfi vaddI16x2 vsubI16x2 vdot4I8 vdot4N8 vcvt vrndF32 vmov
    vmovo vlane vxswap vup vdown vscanI32 vscanF32 vredAddI32 vredAddF32 vredMaxF32 vredMinF32 vballot vcompress vexpand vlaneid
    vpack vcmpF32 vcmpF64 vcmpI32 vcmpN32 vclsF32 vtest vselK0 vselK1 vselK2 vselK3 vselK4 vselK5 vselK6 vselK7 frcpF32 frsqF32
    fsqrtF32 fexp2F32 flog2F32 fsinpF32 fcospF32 ftanhF32 fsigmF32 frcpF64 frsqF64 fexp2F16x2 ftanhF16x2 add sub mul mulhiI
    mulhiN divI divN remI remN and or xor andn shl shr sar minI maxI minN maxN sltI sltN seq mov clz popc brev sext32 zext32 lea
    kand kor kxor kandn knot kpopc kffs ktos stok exmrd exmwr addi andi ori xori shli shri sari sltiI sltiN seqi li muli br brz
    brnz brany brall call ret brx mif melse mend mwhile exit nop wait ldB8 ldI8 ldB16 ldI16 ldB32 ldB64 ldB128 stB8 stB16 stB32
    stB64 stB128 atomAddI32 atomAddI64 atomAddF32 atomMinI32 atomMaxI32 atomMinN32 atomMaxN32 atomAndB32 atomOrB32 atomXorB32
    atomExchB32 atomExchB64 atomCasB32 atomCasB64 cstB32 ldS64 stS64 prf ldsB32 ldsB64 ldsB128 stsB32 stsB64 stsB128 ldsB8 stsB8
    ldsB16 stsB16 ldnB32 stnB32 atomsAddI32 atomsMinI32 atomsMaxI32 atomsExchB32 atomsCasB32 atomnAddI32 ldsS64 stsS64 cpy cpyl
    close waitb boinit boexp boarr bowait discard flushr coll lattach ldetach fold barSync barArr barRedAddI32 barRedAddF32
    barRedMaxI32 barRedMinI32 barRedAnd barRedOr fence msend wring tktTake tktSkip atomoAddF32 atomoAddI64 vstVer ldVer obres
    obrel mfetcha mloadb mmaD mmaB mzero mstore spawn spawnq qpop join topup tstat resw phend srd swr trap tret tclr brk jmark
    ovld ovcall ovret pwrq cres crel hintImm hintSched hintMod prreplyRetry prreplyFail xinvPage xinvContext xinvVfn xinvDone
    hcommit hcommitDone mdzGo mdzDone registerWrite storePerform loadLand sfuLand crcEvict l2Evict copyBurst copyComplete
    discardComplete matGrant matOpComplete collComplete messageArrival teamBegin teamRetire topupSerialise phaseCommit trapEntry
    preemptRequest preemptSave teamFlush teamRestore migrationRequest debugAttach debugDetach debugStop teamStopped debugResume
    debugStep debugRead debugWrite jkick replayAdmit qdb queueMap slotReclaim launch cond waitPacket bindq bindqUnbind
    launchAdmit consumerLaunch launchComplete launchAbort hostTopup weirLimitWrite sluiceGrant vectorReservationIdle
    stringThrottle throttleEnd reactionWindowEnd skipEnd pkgCurrentHigh pkgCurrentLow dieTempChange dramEmergency dramTempSample
    rankRefresh rankRefreshEnd clockBoostStep wearAccumulate timingErrorReplay stringGate stringWake uncorrectableError
    correctedError powerOn bootImageCheck firmwareReport watchdogExpire recoveryReload attestationRequest hostW1Access
    peerRequest linkDown migrationResidencyReached fetcherBurst

/-- Settles O59: decoding a word by the lemma of its instruction, encoding what is decoded by the arm that answered it. -/
theorem encodingRoundTrip : Obligations.EncodingRoundTrip := by
  unfold Obligations.EncodingRoundTrip
  refine ⟨decode_word, decode_reads, fun i word => ?_, fun _ => encode_eq_zero⟩
  exact Option.isSome_iff_exists.1 ((encode_isSome i).trans (congrArg not word))

/-- The same for a word written out, whose premise is a computation. -/
theorem decode_of_encode {i : Instr} {w : W32} (h : encode i = some w) (nonzero : w ≠ 0 := by decide) : decode w = .ok i :=
  decode_word i w h nonzero

/-- Settles O57: each listed instruction encodes to its word, so the word decodes to it; the last three words are refused. -/
theorem decodedWords : Obligations.DecodedWords := by
  unfold Obligations.DecodedWords
  have zero : decode 0x0#32 = .error .zeroWord := by decide
  have reserved : decode 0xFC000000#32 = .error .reservedCode := by decide
  have unused : decode 0x0C800001#32 = .error .unusedField := by decide
  exact ⟨decode_of_encode rfl, decode_of_encode rfl, decode_of_encode rfl, decode_of_encode rfl, decode_of_encode rfl,
    decode_of_encode rfl, decode_of_encode rfl, decode_of_encode rfl, decode_of_encode rfl, decode_of_encode rfl,
    decode_of_encode rfl, decode_of_encode rfl, decode_of_encode rfl, decode_of_encode rfl, decode_of_encode rfl, zero,
    reserved, unused⟩

end Sys2Proof.Laws
end

section
/-! O21: a hint joins the unit being presented. -/

namespace Sys2Proof.Machine

/-- A hint of no causes appends itself to the hints of its group. -/
theorem runHint_joins {s : State} {w : View} {h : Hint} (seen : view s = some w) (presents : mayPresent w = true)
    (fits : hintCauses w = []) : runHint s h = .next (w.onGroup (fun gr => { gr with hints := gr.hints ++ [h] }) s) := by
  have run : runHint s h = runM s (modGroup w.g fun gr => { gr with hints := gr.hints ++ [h] }) := by
    simp only [runHint, seen, presents, fits, List.isEmpty_nil, Bool.not_true, Bool.false_eq_true, if_false, if_true]
  exact run.trans (runM_gives (Gives.modGroup _ _ _))

/-- Settles O21: all three hint words are `runHint`, each with its own hint. -/
theorem hintWords : Obligations.HintWords := by
  unfold Obligations.HintWords
  exact ⟨fun _ _ _ => runHint_joins, fun _ _ _ _ _ => runHint_joins, fun _ _ _ _ _ _ _ _ _ _ _ _ _ _ => runHint_joins⟩

end Sys2Proof.Machine
end

section
/-! O9: scalar words of registers. -/

namespace Sys2Proof.Machine

/-- A word whose meaning is `runScalar2` writes its function of two registers (R210). -/
theorem scalar2_of_run {i : BitVec 6 → BitVec 6 → BitVec 6 → Instr} {f : W64 → W64 → W64}
    (h : ∀ s d a b, exec (i d a b) s = runScalar2 s d a b f) : Scalar2 i f :=
  fun s d a b => writes_of_runRegs (h s d a b)

/-- A word whose meaning is `runScalar1` writes its function of one register (R210). -/
theorem scalar1_of_run {i : BitVec 6 → BitVec 6 → Instr} {f : W64 → W64}
    (h : ∀ s d a, exec (i d a) s = runScalar1 s d a f) : Scalar1 i f :=
  fun s d a => writes_of_runRegs (h s d a)

/-- Settles O9: twenty words run as `runScalar2`, lea among them for each of its shifts, and six as `runScalar1`. -/
theorem scalarRegisterWords : Obligations.ScalarRegisterWords := by
  unfold Obligations.ScalarRegisterWords
  have lea (sh : BitVec 4) : Scalar2 (.lea · · · sh) fun a b => a + b <<< sh.toNat := scalar2_of_run fun _ _ _ _ => rfl
  exact ⟨scalar2_of_run fun _ _ _ _ => rfl, scalar2_of_run fun _ _ _ _ => rfl, scalar2_of_run fun _ _ _ _ => rfl,
    scalar2_of_run fun _ _ _ _ => rfl, scalar2_of_run fun _ _ _ _ => rfl, scalar2_of_run fun _ _ _ _ => rfl,
    scalar2_of_run fun _ _ _ _ => rfl, scalar2_of_run fun _ _ _ _ => rfl, scalar2_of_run fun _ _ _ _ => rfl,
    scalar2_of_run fun _ _ _ _ => rfl, scalar2_of_run fun _ _ _ _ => rfl, scalar2_of_run fun _ _ _ _ => rfl,
    scalar2_of_run fun _ _ _ _ => rfl, scalar2_of_run fun _ _ _ _ => rfl, scalar2_of_run fun _ _ _ _ => rfl,
    scalar2_of_run fun _ _ _ _ => rfl, scalar2_of_run fun _ _ _ _ => rfl, scalar2_of_run fun _ _ _ _ => rfl,
    scalar2_of_run fun _ _ _ _ => rfl, lea,
    scalar1_of_run fun _ _ _ => rfl, scalar1_of_run fun _ _ _ => rfl, scalar1_of_run fun _ _ _ => rfl,
    scalar1_of_run fun _ _ _ => rfl, scalar1_of_run fun _ _ _ => rfl, scalar1_of_run fun _ _ _ => rfl⟩

end Sys2Proof.Machine
end

section
/-! O10: scalar words of an immediate. -/

namespace Sys2Proof.Machine

/-- A word whose meaning is `runScalarImm` writes its function of a register and the immediate (R213). -/
theorem scalarImm_of_run {i : BitVec 6 → BitVec 6 → BitVec 10 → Instr} {f : W64 → W64 → W64}
    (h : ∀ s d a imm, exec (i d a imm) s = runScalarImm s d a imm f) : ScalarImm i f :=
  fun s d a imm => writes_of_runRegs (h s d a imm)

/-- A word whose meaning is `runShiftImm` shifts by the immediate, whose range is a check before issue (R213). -/
theorem shiftImm_of_run {i : BitVec 6 → BitVec 6 → BitVec 10 → Instr} {f : W64 → Nat → W64}
    (h : ∀ s d a imm, exec (i d a imm) s = runShiftImm s d a imm f) : ShiftImm i f :=
  fun s d a imm => writes_of_runRegs (h s d a imm)

/-- Settles O10: eight words run as `runScalarImm` and three as `runShiftImm`; li writes its immediate. -/
theorem scalarImmediateWords : Obligations.ScalarImmediateWords := by
  unfold Obligations.ScalarImmediateWords
  exact ⟨scalarImm_of_run fun _ _ _ _ => rfl, scalarImm_of_run fun _ _ _ _ => rfl, scalarImm_of_run fun _ _ _ _ => rfl,
    scalarImm_of_run fun _ _ _ _ => rfl, scalarImm_of_run fun _ _ _ _ => rfl,
    shiftImm_of_run fun _ _ _ _ => rfl, shiftImm_of_run fun _ _ _ _ => rfl, shiftImm_of_run fun _ _ _ _ => rfl,
    scalarImm_of_run fun _ _ _ _ => rfl, scalarImm_of_run fun _ _ _ _ => rfl, scalarImm_of_run fun _ _ _ _ => rfl,
    fun _ _ _ => writes_of_runRegs rfl⟩

end Sys2Proof.Machine
end

section
/-! O11: division. -/

namespace Sys2Proof.Machine

variable {z : State}

/-- Causes that a unit raises after its charge lead to the handler as those before it do: the charge leaves the group's trap
registers and its outstanding loads, and its team (R139, R335). -/
theorem takeTrap_paid {s : State} {w : View} {i : Info} {ds : List Detail} (hw : view s = some w) (h : Handles w ds) :
    Gives (z := z) (takeTrap w.g ds w.unitPc none) (w.paid i) ()
      (w.onGroup (handlerEntered (mergeDetails ds) w.unitPc) (w.letGo (w.paid i))) := by
  obtain ⟨n, y, group⟩ := paid_group_eq (i := i) hw
  obtain ⟨al, ch, st, team⟩ := paid_team_eq (i := i) hw
  obtain ⟨⟨outside, vector⟩, ⟨loads, sfu⟩, ⟨unwatched, plain⟩⟩ := h
  exact trap_enters group team rfl plain (.inl unwatched) rfl rfl outside vector loads sfu

/-- A word whose effect raises causes has its charge and enters the handler with them; its effect changes nothing (R139, R335). -/
theorem traps_of_raising {i : Instr} {s : State} {info : View → Info} {cond : View → Prop} {eff : View → M s Flow}
    {ds ms : List Detail} (h : exec i s = runUnit s info eff) (merged : mergeDetails ds = ms) (handles : ∀ w, cond w → Handles w ds)
    (raises : ∀ w, cond w → Raises (eff w) (w.paid (info w)) ds) :
    IssuesIf i info cond (fun w t => w.onGroup (handlerEntered ms w.unitPc) (w.letGo t)) s :=
  fun w hw r a c => h.trans (runUnit_traps hw r a (raises w c) (merged ▸ takeTrap_paid hw (handles w c)))

/-- A word whose meaning is `runDivide` writes its function where the divisor is not zero (R211). -/
theorem divides_of_run {i : BitVec 6 → BitVec 6 → BitVec 6 → Instr} {f : W64 → W64 → W64}
    (h : ∀ s d a b, exec (i d a b) s = runDivide s d a b f) : Divides i f :=
  fun s d a b => completes (h s d a b) fun w _ _ _ nonzero => Gives.neg nonzero (Gives.modThen w.g _ _ _)

/-- A word whose meaning is `runDivide` raises DIV0 where the divisor is zero (R211). -/
theorem divide_traps {i : BitVec 6 → BitVec 6 → BitVec 6 → Instr} {f : W64 → W64 → W64}
    (h : ∀ s d a b, exec (i d a b) s = runDivide s d a b f) (s : State) (d a b : BitVec 6) :
    IssuesIf (i d a b) (fun _ => scalarInfo [a.toNat, b.toNat] [d.toNat])
      (fun w => w.gr.rs b.toNat = 0 ∧ Handles w [{ cause := Cause.div0 }])
      (fun w t => w.onGroup (handlerEntered [{ cause := Cause.div0 }] w.unitPc) (w.letGo t)) s :=
  traps_of_raising (h s d a b) (merge_one _) (fun _ c => c.2) fun w ⟨zero, _⟩ p => by
    rw [if_pos zero]
    rfl

/-- Settles O11: the four words run as `runDivide`, which splits on its divisor. -/
theorem divisionWords : Obligations.DivisionWords := by
  unfold Obligations.DivisionWords
  intro div0 traps
  exact ⟨divides_of_run fun _ _ _ _ => rfl, divides_of_run fun _ _ _ _ => rfl, divides_of_run fun _ _ _ _ => rfl,
    divides_of_run fun _ _ _ _ => rfl, divide_traps (f := divS) fun _ _ _ _ => rfl,
    divide_traps (f := fun a b => a / b) fun _ _ _ _ => rfl, divide_traps (f := remS) fun _ _ _ _ => rfl,
    divide_traps (f := fun a b => a % b) fun _ _ _ _ => rfl⟩

end Sys2Proof.Machine
end

section
/-! O12: masks and EXM. -/

namespace Sys2Proof.Machine

/-- A word whose meaning is `runMask2` writes its function of two masks (R214). -/
theorem mask2_of_run {i : BitVec 3 → BitVec 3 → BitVec 3 → Instr} {f : W32 → W32 → W32}
    (h : ∀ s d a b, exec (i d a b) s = runMask2 s d a b f) : Mask2 i f :=
  fun s d a b => writes_of_runRegs (h s d a b)

/-- A word whose meaning is `runMaskS` writes its function of a mask to a scalar register (R214). -/
theorem maskToScalar_of_run {i : BitVec 6 → BitVec 3 → Instr} {f : W32 → W64}
    (h : ∀ s d a, exec (i d a) s = runMaskS s d a f) : MaskToScalar i f :=
  fun s d a => writes_of_runRegs (h s d a)

/-- Settles O12: four words run as `runMask2`, three as `runMaskS`; knot, stok, exmrd and exmwr are register words of their own. -/
theorem maskWords : Obligations.MaskWords := by
  unfold Obligations.MaskWords
  exact ⟨mask2_of_run fun _ _ _ _ => rfl, mask2_of_run fun _ _ _ _ => rfl, mask2_of_run fun _ _ _ _ => rfl,
    mask2_of_run fun _ _ _ _ => rfl, fun _ _ _ => writes_of_runRegs rfl, maskToScalar_of_run fun _ _ _ => rfl,
    maskToScalar_of_run fun _ _ _ => rfl, maskToScalar_of_run fun _ _ _ => rfl, fun _ _ _ => writes_of_runRegs rfl,
    fun _ _ => writes_of_runRegs rfl, fun _ _ => writes_of_runRegs rfl⟩

end Sys2Proof.Machine
end

section
/-! O13: transfers. -/

namespace Sys2Proof.Machine

/-- A word that ignores EXM acts under every EXM (R189). -/
theorem acts_of_ignores {w : View} {i : Info} (h : i.mask = .ignores) : Acts w i :=
  fun skips => nomatch h.symm.trans skips

/-- A call checks its target, writes the link register and jumps (R218). -/
theorem call_jumps {s : State} {w : View} {off : BitVec 24} (hw : view s = some w) (r : Ready w (controlInfo [] [.s 63]))
    (e : NoStep w) (low : 0 ≤ relTarget w off.toInt) (high : relTarget w off.toInt < 16384) :
    exec (.call off) s = .next (w.at w.gr.slot (BitVec.ofNat 14 (relTarget w off.toInt).toNat)
      (w.onGroup (fun gr => gr.setS 63 (BitVec.ofNat 64 (w.wordPc + 1))) (w.paid (controlInfo [] [.s 63])))) :=
  runUnit_gives (f := .jump (relTarget w off.toInt)) hw r (acts_of_ignores rfl)
    ((check_gives low high _).bind (Gives.modThen w.g _ _ _)) (jumpInt_gives low high e _)

/-- Settles O13: seven words run as `runBranch`, each with its condition and target; call by the lemma above. -/
theorem branchWords : Obligations.BranchWords := by
  unfold Obligations.BranchWords
  exact ⟨fun _ => branches_of_runBranch fun _ => rfl, fun _ _ => branches_of_runBranch fun _ => rfl,
    fun _ _ => branches_of_runBranch fun _ => rfl, fun _ _ => branches_of_runBranch fun _ => rfl,
    fun _ _ => branches_of_runBranch fun _ => rfl, fun _ => branches_of_runBranch fun _ => rfl,
    fun _ _ => branches_of_runBranch fun _ => rfl, fun _ _ _ => call_jumps⟩

end Sys2Proof.Machine
end

section
/-! O14: the mask stack. -/

namespace Sys2Proof.Machine

/-- Settles O14: the four words run as `runRegion`, each with its change of EXM and the stack and its condition to transfer. -/
theorem regionWords : Obligations.RegionWords := by
  unfold Obligations.RegionWords
  exact ⟨fun _ _ => regions_of_runRegion fun _ => rfl, fun _ => regions_of_runRegion fun _ => rfl,
    regions_of_runRegion fun _ => rfl, fun _ _ => regions_of_runRegion fun _ => rfl⟩

end Sys2Proof.Machine
end

section
/-! O15: nop, wait and exit. -/

namespace Sys2Proof.Machine

variable {z : State}

/-- Outside replay an exit cannot diverge (R355). -/
theorem exitDivergence_none {g : Nat} {t : State} {tm : Team} {l : Launch} (ht : t.team? (groupTeam g) = some tm)
    (hl : t.launch? tm.launch = some l) (forward : l.journal ≠ 2) : Gives (z := z) (exitDivergence g) t () t :=
  (Gives.getTeam ht).bind ((Gives.getLaunch hl).bind (Gives.neg forward (Gives.pure _ _)))

/-- A phase without arrivals is not complete (R254). -/
theorem phaseFull_none {s : State} {e b : Nat} (h : (barrierOf s e b).arrived = []) : phaseFull s e b = false := by
  unfold phaseFull
  dsimp only
  rw [h]
  rfl

theorem settle_none {t : State} {e b : Nat} (h : (barrierOf t e b).arrived = []) (fuel : Nat) :
    Gives (z := z) (settle e b (1 + fuel)) t () t := by
  rw [Nat.add_comm]
  exact Gives.getThen (Gives.neg (ne_true_of_eq_false (phaseFull_none h)) (Gives.pure _ _))

/-- A group leaves barriers that it has not arrived at as they are, where those that count the live groups have no arrivals (R254). -/
theorem leaveBarriers_none {g : Nat} {t : State} (h : ∀ b, b < 16 → g ∉ (barrierOf t (groupTeam g) b).arrived ∧
      ((barrierOf t (groupTeam g) b).count = 0 → (barrierOf t (groupTeam g) b).arrived = [])) :
    Gives (z := z) (leaveBarriers g) t () t := by
  refine forEach_stay fun b hb => Gives.getThen ?_
  obtain ⟨absent, idle⟩ := h b (List.mem_range.1 hb)
  refine Gives.neg (by simpa using absent) ?_
  by_cases live : (barrierOf t (groupTeam g) b).count = 0
  · exact Gives.pos live (Gives.getThen (settle_none (idle live) _))
  · exact Gives.neg live (Gives.pure _ _)

/-- What was kept for a group's word is let go with the group's lines and its team's held events (R129, R322). -/
theorem letGo_gives {α : Type} {w : View} {t u : State} {tm : Team} {a : α} {m : M z α} (ht : t.team? w.eid = some tm)
    (tag : tm.tag = w.t.tag) (launch : tm.launch = w.t.launch) (h : Gives m (w.letGo t) a u) :
    Gives (z := z) (do unlockLines w.g; dropEvents w.g; m) t a u := by
  refine (Gives.modHome _ _).bind (Gives.bind (a := ()) ?_ h)
  have drops : Gives (z := z) (modLaunch tm.launch fun l => l.dropHolds tm.tag (groupIdx w.g))
      { t with home := { t.home with locked := t.home.locked.filter (·.2 != w.g) } } () (w.letGo t) := by
    rw [tag, launch]
    exact Gives.mod _ _ _
  exact Gives.bind (Gives.getTeam (by exact ht)) drops

/-- A group that awaits nothing, holds no current and stands in no barrier ends alone (R222, R254, R306). -/
theorem endGroup_gives {w : View} {t : State} {gr : Group} {tm : Team} (hg : t.group? w.g = some gr)
    (unparked : gr.parked = none) (unheld : gr.hold = none) (free : gr.cres = none) (ht : t.team? w.eid = some tm)
    (tag : tm.tag = w.t.tag) (launch : tm.launch = w.t.launch)
    (apart : ∀ b, b < 16 → w.g ∉ (barrierOf (w.onGroup Group.ended (w.letGo t)) w.eid b).arrived ∧
      ((barrierOf (w.onGroup Group.ended (w.letGo t)) w.eid b).count = 0 →
        (barrierOf (w.onGroup Group.ended (w.letGo t)) w.eid b).arrived = [])) :
    Gives (z := z) (endGroup w.g) t () (w.onGroup Group.ended (w.letGo t)) := by
  refine (Gives.getGroup hg).bind (Gives.getThen ?_)
  rw [unparked, unheld, free]
  exact letGo_gives ht tag launch ((Gives.modGroup w.g Group.ended _).bind (leaveBarriers_none apart))

/-- A unit of a group finds it neither parked nor held, and its charge leaves that and its current. -/
theorem paid_free {s : State} {w : View} {i : Info} (hw : view s = some w) (r : Ready w i) : ∃ gr,
    (w.paid i).group? w.g = some gr ∧ gr.parked = none ∧ gr.hold = none ∧ gr.cres = w.gr.cres := by
  obtain ⟨unparked, unheld, -⟩ := present_free r.presents
  obtain ⟨n, y, group⟩ := paid_group_eq (i := i) hw
  exact ⟨_, group, unparked, unheld, rfl⟩

theorem exit_ends (s : State) : IssuesIf .exit (fun _ => controlInfo [] [])
    (fun w => w.gr.cres = none ∧ (∃ l, w.s.launch? w.t.launch = some l ∧ l.journal ≠ 2) ∧
      ∀ b, b < 16 → w.g ∉ (barrierOf w.s w.eid b).arrived ∧
        ((barrierOf w.s w.eid b).count = 0 → (barrierOf w.s w.eid b).arrived = []))
    (fun w t => w.onGroup Group.ended (w.letGo t)) s := by
  refine issues rfl (.inr rfl) fun w hw r _ ⟨free, ⟨l, launch, forward⟩, apart⟩ => ?_
  obtain ⟨gr, group, unparked, unheld, current⟩ := paid_free hw r
  obtain ⟨al, ch, st, team⟩ := paid_team_eq (i := controlInfo [] []) hw
  have same (b : Nat) : barrierOf (w.onGroup Group.ended (w.letGo (w.paid (controlInfo [] [])))) w.eid b = barrierOf w.s w.eid b :=
    paid_barrier hw b Group.ended
  refine (exitDivergence_none team launch forward).bind
    ((endGroup_gives group unparked unheld (current.trans free) team rfl rfl fun b hb => ?_).bind (Gives.pure _ _))
  rw [same]
  exact apart b hb

/-- A wait that issues before its counts have fallen holds its group (R224). -/
theorem wait_holds (s : State) (sel : BitVec 4) (n : BitVec 20) :
    IssuesIf (.wait sel n) (fun _ => controlInfo [] [] [] .ignores (sel.ult 3))
      (fun w => w.gr.countsFallen sel.toNat n.toNat = false) (fun w => w.held (.counts sel.toNat n.toNat)) s :=
  issues rfl (.inl rfl) fun _ _ _ _ above => Gives.neg (ne_true_of_eq_false above) (Gives.held _ _)

/-- Settles O15: exit ends its group alone; nop completes at once, as wait does where its counts have fallen, and a wait before
that holds. -/
theorem idleAndExitWords : Obligations.IdleAndExitWords := by
  unfold Obligations.IdleAndExitWords
  exact ⟨exit_ends, fun _ => completes rfl fun _ _ _ _ _ => Gives.pure _ _,
    fun _ _ _ => completes rfl fun _ _ _ _ fallen => Gives.pos fallen (Gives.pure _ _),
    fun s sel n w hw r above => wait_holds s sel n w hw r (acts_of_ignores rfl) above⟩

end Sys2Proof.Machine
end

section
/-! O8: special functions. A word leaves its entry whatever the values are; the values of R239 rest on the table of special
operands and, for finite ones, on the operand in fixed point, which is exact for every F32 value. -/

namespace Sys2Proof.Machine

/-! The words (R237) -/

/-- A word whose meaning is `runSfu` leaves its result outstanding; FOE decides whether its group goes on or stays (R237). -/
theorem sfuWord_of_runSfu {i : BitVec 7 → BitVec 8 → Instr} {fn : SfuFn} {e : Elem} {num : Nat}
    (h : ∀ s vd sa, exec (i vd sa) s = runSfu s (operandsOk (i vd sa)) fn e num vd sa) : SfuWord i fn e num := by
  intro s vd sa info
  refine ⟨completes (h s vd sa) fun w _ _ _ goesOn => ?_, fun w hw r a waits =>
    (h s vd sa).trans (runUnit_gives (f := .parked) hw r a ?_ (Gives.pure _ _))⟩
  · refine (Gives.modGroup w.g (withSfu w fn e num vd sa) _).bind ?_
    rw [goesOn]
    exact Gives.pure _ _
  · refine (Gives.modGroup w.g (withSfu w fn e num vd sa) _).bind ?_
    rw [waits]
    exact Gives.pure _ _

/-! The table of special operands (R239) -/

/-- Every operand of `p` gives `y` rounded, which raises nothing. -/
def SfuGives (fn : SfuFn) (f : Fmt) (p : Num → Prop) (y : Num) : Prop :=
  ∀ num sat code, p (Num.decode f code) → sfuElem fn f num sat code = { bits := Num.round f .rne y }

/-- A special operand gives what the table holds for it. -/
theorem sfuElem_special {fn : SfuFn} {f : Fmt} {code bits : Nat} (listed : sfuSpecial fn f (Num.decode f code) = some bits)
    (num : Nat) (sat : Bool) : sfuElem fn f num sat code = { bits := bits } := by
  unfold sfuElem
  dsimp only
  rw [listed]

theorem sfuGives_special {fn : SfuFn} {f : Fmt} {p : Num → Prop} {y : Num}
    (listed : ∀ x, p x → sfuSpecial fn f x = some (Num.round f .rne y)) : SfuGives fn f p y :=
  fun num sat _ holds => sfuElem_special (listed _ holds) num sat

theorem sfuSpecial_nan (fn : SfuFn) (f : Fmt) : sfuSpecial fn f .nan = some (Num.round f .rne .nan) := by
  cases fn <;> rfl

/-- A row of the table: the infinities, the zeros and NaN. -/
theorem sfuGives_row {fn : SfuFn} {f : Fmt} {ninf nzero pzero pinf : Num}
    (hni : sfuSpecial fn f (.inf true) = some (Num.round f .rne ninf))
    (hnz : ∀ e, sfuSpecial fn f (.fin true 0 e) = some (Num.round f .rne nzero))
    (hpz : ∀ e, sfuSpecial fn f (.fin false 0 e) = some (Num.round f .rne pzero))
    (hpi : sfuSpecial fn f (.inf false) = some (Num.round f .rne pinf)) :
    SfuGives fn f (· = .inf true) ninf ∧ SfuGives fn f (fun x => ∃ e, x = .fin true 0 e) nzero ∧
    SfuGives fn f (fun x => ∃ e, x = .fin false 0 e) pzero ∧ SfuGives fn f (· = .inf false) pinf ∧
    SfuGives fn f (· = .nan) .nan :=
  ⟨sfuGives_special fun _ h => h ▸ hni, sfuGives_special fun _ ⟨e, h⟩ => h ▸ hnz e, sfuGives_special fun _ ⟨e, h⟩ => h ▸ hpz e,
    sfuGives_special fun _ h => h ▸ hpi, sfuGives_special fun _ h => h ▸ sfuSpecial_nan fn f⟩

/-! Finite operands -/

theorem sfuSpecial_finite (fn : SfuFn) (f : Fmt) (neg : Bool) {m : Nat} (e : Int) (nonzero : 0 < m) :
    sfuSpecial fn f (.fin neg m e) = none := by
  cases m with
  | zero => exact absurd nonzero (lt_irrefl 0)
  | succ m => cases fn <;> rfl

theorem sfuElem_finite {fn : SfuFn} {f : Fmt} {code m : Nat} {neg : Bool} {e : Int} (value : Num.decode f code = .fin neg m e)
    (nonzero : 0 < m) (num : Nat) (sat : Bool) : sfuElem fn f num sat code = sfuFinite fn f num code sat neg m e := by
  unfold sfuElem
  dsimp only
  rw [value, sfuSpecial_finite fn f neg e nonzero]

/-- A function that is NaN below zero. -/
theorem sfuGives_below {fn : SfuFn} {f : Fmt}
    (nan : ∀ num code sat m e, sfuFinite fn f num code sat true m e = { bits := f.nanBits }) :
    SfuGives fn f (fun x => ∃ m e, 0 < m ∧ x = .fin true m e) .nan :=
  fun num sat _ ⟨_, _, nonzero, value⟩ => (sfuElem_finite value nonzero num sat).trans (nan ..)

/-! Fixed point -/

/-- An integer of a sign and a magnitude. -/
def signed (neg : Bool) (n : Nat) : Int := if neg then -(n : Int) else n

/-- The sign does not matter to what divides a value. -/
theorem signed_emod_eq_zero_iff {neg : Bool} {n d : Nat} : signed neg n % (d : Int) = 0 ↔ d ∣ n := by
  rw [← Int.dvd_iff_emod_eq_zero, ← Int.natCast_dvd_natCast]
  cases neg
  · rfl
  · exact Int.dvd_neg

theorem two_mul_signed (neg : Bool) (n : Nat) : 2 * signed neg n = signed neg (2 * n) := by
  cases neg
  · exact (Int.natCast_mul 2 n).symm
  · simp only [signed, if_true, Int.natCast_mul]
    exact Int.mul_neg 2 n

/-- m × 2^(j − 520) is m × 2^j in fixed point, however many zeros its significand ends in. -/
theorem fxOf_eq_signed (neg : Bool) (m k j : Nat) :
    fxOf (.fin neg (m * 2 ^ k) ((j : Int) - k - fxBits)) = signed neg (m * 2 ^ j) := by
  refine congrArg (signed neg) ?_
  rw [Int.sub_add_cancel]
  rcases Nat.le_total k j with le | le
  · obtain ⟨d, rfl⟩ := Nat.exists_eq_add_of_le le
    rw [show ((k + d : Nat) : Int) - k = d by omega, if_pos (Int.natCast_nonneg d), Int.toNat_natCast, Nat.mul_assoc,
      ← Nat.pow_add]
  · obtain ⟨d, rfl⟩ := Nat.exists_eq_add_of_le le
    have floor : m * 2 ^ (j + d) / 2 ^ d = m * 2 ^ j := by
      rw [Nat.pow_add, ← Nat.mul_assoc, Nat.mul_div_cancel _ (Nat.two_pow_pos d)]
    rw [show (j : Int) - (j + d : Nat) = -d by omega, Int.neg_neg, Int.toNat_natCast, floor]
    split
    · have zero : d = 0 := by omega
      rw [zero]
      exact Nat.mul_one _
    · rfl

/-- An integral operand in fixed point. -/
theorem fxOf_integral (neg : Bool) (m k : Nat) : fxOf (.fin neg m k) = signed neg (m * 2 ^ k * fxOne) ∧
    fxOf (.fin neg (m * 2 ^ k) (-k)) = signed neg (m * fxOne) := by
  constructor
  · have h := fxOf_eq_signed neg m 0 (k + fxBits)
    rwa [show ((k + fxBits : Nat) : Int) - (0 : Nat) - fxBits = k by omega, Nat.pow_zero, Nat.mul_one, Nat.pow_add,
      ← Nat.mul_assoc] at h
  · have h := fxOf_eq_signed neg m k fxBits
    rwa [show (fxBits : Int) - k - fxBits = -k by omega] at h

/-- An odd multiple of a half in fixed point. -/
theorem fxOf_half (neg : Bool) (m k : Nat) :
    fxOf (.fin neg (m * 2 ^ k) (-(k : Int) - 1)) = signed neg (m * 2 ^ (fxBits - 1)) := by
  have h := fxOf_eq_signed neg m k (fxBits - 1)
  rwa [show ((fxBits - 1 : Nat) : Int) - k - fxBits = -(k : Int) - 1 by unfold fxBits; omega] at h

/-- Fixed point is the value as a multiple of its unit where it has no bit below it. -/
theorem fxOf_eq_scaled {neg : Bool} {m : Nat} {e : Int} (above : -(fxBits : Int) ≤ e) :
    fxOf (.fin neg m e) = Num.scaled (-(fxBits : Int)) (.fin neg m e) := by
  have sign (n : Nat) : signed neg n = (if neg then -1 else 1) * (n : Int) := by
    cases neg
    · exact (Int.one_mul _).symm
    · exact (Int.neg_one_mul _).symm
  refine Eq.trans (congrArg (signed neg) ?_) (sign _)
  rw [if_pos (by omega), Int.sub_neg]

/-- Below its exponent a value is a multiple of every smaller unit. -/
theorem scaled_mul_pow {neg : Bool} {m d : Nat} {e k : Int} (le : k ≤ e) :
    Num.scaled (k - d) (.fin neg m e) = Num.scaled k (.fin neg m e) * (2 ^ d : Nat) := by
  have split : (e - (k - d)).toNat = (e - k).toNat + d := by omega
  unfold Num.scaled
  dsimp only
  rw [split, Nat.pow_add, ← Nat.mul_assoc, Int.natCast_mul (_ * _), Int.mul_assoc]

/-- The order of finite values is that of fixed point where it is exact. -/
theorem lt_iff_fxOf_lt {a b : Bool} {m n : Nat} {e f : Int} (he : -(fxBits : Int) ≤ e) (hf : -(fxBits : Int) ≤ f) :
    Num.lt (.fin a m e) (.fin b n f) = true ↔ fxOf (.fin a m e) < fxOf (.fin b n f) := by
  obtain ⟨d, hd⟩ : ∃ d : Nat, -(fxBits : Int) = min e f - d := ⟨(min e f + fxBits).toNat, by omega⟩
  rw [fxOf_eq_scaled he, fxOf_eq_scaled hf, hd, scaled_mul_pow (Int.min_le_left e f), scaled_mul_pow (Int.min_le_right e f),
    Int.mul_lt_mul_right (by exact_mod_cast Nat.two_pow_pos d)]
  exact decide_eq_true_iff

/-- No bit of a value lies below the least subnormal of its format. -/
theorem decode_exponent_ge {f : Fmt} {code m : Nat} {neg : Bool} {e : Int} (value : Num.decode f code = .fin neg m e) :
    f.emin - f.fb ≤ e := by
  unfold Num.decode at value
  dsimp only at value
  split at value
  · split at value <;> cases value
  · split at value
    · cases value
      exact le_rfl
    · cases value
      unfold Fmt.emin
      omega

theorem decode_f32_exact {code m : Nat} {neg : Bool} {e : Int} (value : Num.decode .f32 code = .fin neg m e) :
    -(fxBits : Int) ≤ e :=
  le_trans (by decide) (decode_exponent_ge value)

/-! The exact results beyond the table (R239) -/

theorem fxOne_pos : 0 < fxOne := Nat.two_pow_pos _

/-- sin π x of an integral x is a zero with the sign of x. -/
theorem sinp_integral (neg : Bool) :
    SfuGives .sinp .f32 (fun x => ∃ m k : Nat, 0 < m ∧ (x = .fin neg m k ∨ x = .fin neg (m * 2 ^ k) (-(k : Int))))
      (.zero neg) := by
  have zero (m : Nat) (e : Int) (n : Nat) (fixed : fxOf (.fin neg m e) = signed neg (n * fxOne)) (num code : Nat) (sat : Bool) :
      sfuFinite .sinp .f32 num code sat neg m e = { bits := Num.round .f32 .rne (.zero neg) } := by
    unfold sfuFinite
    dsimp only
    rw [fixed, if_pos (signed_emod_eq_zero_iff.2 (Nat.dvd_mul_left ..))]
  rintro num sat code ⟨m, k, nonzero, value | value⟩
  · exact (sfuElem_finite value nonzero num sat).trans (zero _ _ _ (fxOf_integral neg m k).1 ..)
  · exact (sfuElem_finite value (Nat.mul_pos nonzero (Nat.two_pow_pos k)) num sat).trans
      (zero _ _ _ (fxOf_integral neg m k).2 ..)

/-- cos π x of an odd multiple of a half is +0. -/
theorem cosp_half : SfuGives .cosp .f32
    (fun x => ∃ neg, ∃ n k : Nat, x = .fin neg ((2 * n + 1) * 2 ^ k) (-(k : Int) - 1)) (.zero false) := by
  rintro num sat code ⟨neg, n, k, value⟩
  refine (sfuElem_finite value (Nat.mul_pos (Nat.succ_pos _) (Nat.two_pow_pos k)) num sat).trans ?_
  have one : fxOne = 2 * 2 ^ (fxBits - 1) := (mul_pow_sub_one (by decide) 2).symm
  have odd : ¬ fxOne ∣ (2 * n + 1) * 2 ^ (fxBits - 1) := by
    rw [one, Nat.mul_dvd_mul_iff_right (Nat.two_pow_pos _)]
    omega
  have even : fxOne ∣ 2 * ((2 * n + 1) * 2 ^ (fxBits - 1)) := by
    rw [one, Nat.mul_left_comm]
    exact Nat.dvd_mul_left ..
  unfold sfuFinite
  dsimp only
  rw [fxOf_half, if_neg (mt signed_emod_eq_zero_iff.1 odd), two_mul_signed, if_pos (signed_emod_eq_zero_iff.2 even)]
  rfl

/-- log₂ 1 is +0. -/
theorem log2_one : SfuGives .log2 .f32 (fun x => ∃ k : Nat, x = .fin false (2 ^ k) (-(k : Int))) (.zero false) := by
  rintro num sat code ⟨k, value⟩
  refine (sfuElem_finite value (Nat.two_pow_pos k) num sat).trans ?_
  have len : Num.bitLen (2 ^ k) = k + 1 := by
    rw [Num.bitLen, if_neg (Nat.two_pow_pos k).ne', Nat.log2_two_pow]
  unfold sfuFinite
  dsimp only
  rw [len, Nat.add_sub_cancel, if_pos rfl, show -(k : Int) + (k + 1 : Nat) - 1 = 0 by omega]
  rfl

theorem fxOf_zero (neg : Bool) (e : Int) : fxOf (.fin neg 0 e) = 0 := by
  cases neg <;> simp [fxOf]

theorem fxOf_whole (neg : Bool) (n : Nat) : fxOf (.fin neg n 0) = signed neg (n * fxOne) := by
  simpa using (fxOf_integral neg n 0).1

/-- 2^128 overflows F32. -/
theorem roundedRes_exp_top (sat : Bool) : roundedRes .f32 sat (.fin false 1 (expTop .f32)) =
    if sat then { bits := Fmt.f32.maxBits false } else { bits := Fmt.f32.infBits false, ovf := true } := by
  cases sat <;> rfl

/-- 2^x of x from 128 overflows. -/
theorem exp2_overflows (num : Nat) (sat : Bool) (code m : Nat) (e : Int) (value : Num.decode .f32 code = .fin false m e)
    (above : ¬Num.lt (.fin false m e) (.fin false 128 0)) : sfuElem .exp2 .f32 num sat code =
      if sat then { bits := Fmt.f32.maxBits false } else { bits := Fmt.f32.infBits false, ovf := true } := by
  have high : (128 * fxOne : Nat) ≤ fxOf (.fin false m e) := by
    rw [lt_iff_fxOf_lt (decode_f32_exact value) (by decide), fxOf_whole] at above
    exact Int.not_lt.1 above
  have nonzero : 0 < m := by
    refine Nat.pos_of_ne_zero fun zero => ?_
    rw [zero, fxOf_zero] at high
    have := fxOne_pos
    omega
  refine (sfuElem_finite value nonzero num sat).trans ?_
  unfold sfuFinite
  dsimp only
  rw [if_pos (by rw [show expTop .f32 = 128 by decide]; omega), roundedRes_exp_top]

/-- 2^x below 2^−150 is +0. -/
theorem exp2_vanishes :
    SfuGives .exp2 .f32 (fun x => ∃ m e, x = .fin true m e ∧ Num.lt x (.fin true 150 0)) (.zero false) := by
  rintro num sat code ⟨m, e, value, below⟩
  have one := fxOne_pos
  have low : fxOf (.fin true m e) < -(150 * fxOne : Nat) := by
    rw [value, lt_iff_fxOf_lt (decode_f32_exact value) (by decide), fxOf_whole] at below
    exact below
  have nonzero : 0 < m := by
    refine Nat.pos_of_ne_zero fun zero => ?_
    rw [zero, fxOf_zero] at low
    omega
  refine (sfuElem_finite value nonzero num sat).trans ?_
  unfold sfuFinite
  dsimp only
  rw [show expTop .f32 = 128 by decide, show Fmt.emin .f32 - (Fmt.fb .f32 : Int) - 1 = -150 by decide,
    if_neg (by omega), if_pos (by omega)]
  rfl

/-- Settles O8: thirteen words run as `runSfu`. The table's rows are read off `sfuSpecial`, its NaNs of negative
operands off `sfuFinite`; the exact results beyond it stand above. -/
theorem sfuWords : Obligations.SfuWords := by
  unfold Obligations.SfuWords
  intro gives zero below one row ends
  have recip (f : Fmt) : row .rcp f (.zero true) (.inf true) (.inf false) (.zero false) ∧
      row .rsq f .nan (.inf true) (.inf false) (.zero false) ∧ ends .rsq f :=
    ⟨sfuGives_row rfl (fun _ => rfl) (fun _ => rfl) rfl, sfuGives_row rfl (fun _ => rfl) (fun _ => rfl) rfl,
      sfuGives_below fun _ _ _ _ _ => rfl⟩
  have power (f : Fmt) : row .exp2 f (.zero false) one one (.inf false) ∧
      row .tanh f (.fin true 1 0) (.zero true) (.zero false) one :=
    ⟨sfuGives_row rfl (fun _ => rfl) (fun _ => rfl) rfl, sfuGives_row rfl (fun _ => rfl) (fun _ => rfl) rfl⟩
  exact ⟨sfuWord_of_runSfu fun _ _ _ => rfl, sfuWord_of_runSfu fun _ _ _ => rfl, sfuWord_of_runSfu fun _ _ _ => rfl,
    sfuWord_of_runSfu fun _ _ _ => rfl, sfuWord_of_runSfu fun _ _ _ => rfl, sfuWord_of_runSfu fun _ _ _ => rfl,
    sfuWord_of_runSfu fun _ _ _ => rfl, sfuWord_of_runSfu fun _ _ _ => rfl, sfuWord_of_runSfu fun _ _ _ => rfl,
    sfuWord_of_runSfu fun _ _ _ => rfl, sfuWord_of_runSfu fun _ _ _ => rfl, sfuWord_of_runSfu fun _ _ _ => rfl,
    sfuWord_of_runSfu fun _ _ _ => rfl, fun f _ => recip f,
    sfuGives_row rfl (fun _ => rfl) (fun _ => rfl) rfl, sfuGives_below fun _ _ _ _ _ => rfl, fun f _ => power f,
    sfuGives_row rfl (fun _ => rfl) (fun _ => rfl) rfl, sfuGives_below fun _ _ _ _ _ => rfl,
    sfuGives_row rfl (fun _ => rfl) (fun _ => rfl) rfl, sfuGives_row rfl (fun _ => rfl) (fun _ => rfl) rfl,
    sfuGives_row rfl (fun _ => rfl) (fun _ => rfl) rfl, sinp_integral, cosp_half, log2_one, exp2_overflows, exp2_vanishes⟩

end Sys2Proof.Machine
end

section
/-! O1: integer and bit words. -/

namespace Sys2Proof.Machine

/-- A word whose meaning is `runBinInt` writes its function of two operands in each active lane (R228). -/
theorem binInt_of_run {i : BitVec 7 → BitVec 8 → BitVec 8 → Instr} {f : W32 → W32 → W32}
    (h : ∀ s vd sa sb, exec (i vd sa sb) s = runBinInt s (operandsOk (i vd sa sb)) vd sa sb f) : BinInt i f :=
  fun s vd sa sb => writes_of_runRegs (h s vd sa sb)

/-- A word whose meaning is `runAccInt` writes its function of two operands and its destination (R225, R228). -/
theorem accInt_of_run {i : BitVec 7 → BitVec 8 → BitVec 8 → Instr} {f : W32 → W32 → W32 → W32}
    (h : ∀ s vd sa sb, exec (i vd sa sb) s = runAccInt s (operandsOk (i vd sa sb)) vd sa sb f) : AccInt i f :=
  fun s vd sa sb => writes_of_runRegs (h s vd sa sb)

/-- A word whose meaning is `runUnInt` writes its function of one operand (R228). -/
theorem unInt_of_run {i : BitVec 7 → BitVec 8 → Instr} {f : W32 → W32}
    (h : ∀ s vd sa, exec (i vd sa) s = runUnInt s (operandsOk (i vd sa)) vd sa f) : UnInt i f :=
  fun s vd sa => writes_of_runRegs (h s vd sa)

/-- Settles O1: twenty-three words run as `runBinInt`, four as `runAccInt` and three as `runUnInt`, each with its lane
function. -/
theorem integerVectorWords : Obligations.IntegerVectorWords := by
  unfold Obligations.IntegerVectorWords
  exact ⟨binInt_of_run fun _ _ _ _ => rfl, binInt_of_run fun _ _ _ _ => rfl, binInt_of_run fun _ _ _ _ => rfl,
    accInt_of_run fun _ _ _ _ => rfl, binInt_of_run (f := mulhiS) fun _ _ _ _ => rfl,
    binInt_of_run (f := mulhiU) fun _ _ _ _ => rfl, binInt_of_run (f := minS) fun _ _ _ _ => rfl,
    binInt_of_run (f := maxS) fun _ _ _ _ => rfl, binInt_of_run (f := minU) fun _ _ _ _ => rfl,
    binInt_of_run (f := maxU) fun _ _ _ _ => rfl, binInt_of_run fun _ _ _ _ => rfl, binInt_of_run fun _ _ _ _ => rfl,
    binInt_of_run fun _ _ _ _ => rfl, binInt_of_run fun _ _ _ _ => rfl, binInt_of_run fun _ _ _ _ => rfl,
    binInt_of_run fun _ _ _ _ => rfl, binInt_of_run fun _ _ _ _ => rfl, binInt_of_run fun _ _ _ _ => rfl,
    binInt_of_run fun _ _ _ _ => rfl, binInt_of_run fun _ _ _ _ => rfl, binInt_of_run fun _ _ _ _ => rfl,
    unInt_of_run fun _ _ _ => rfl, unInt_of_run fun _ _ _ => rfl, unInt_of_run fun _ _ _ => rfl,
    binInt_of_run fun _ _ _ _ => rfl, accInt_of_run fun _ _ _ _ => rfl, binInt_of_run fun _ _ _ _ => rfl,
    binInt_of_run fun _ _ _ _ => rfl, accInt_of_run fun _ _ _ _ => rfl, accInt_of_run fun _ _ _ _ => rfl⟩

end Sys2Proof.Machine
end

section
/-! O2: floating-point words. -/

namespace Sys2Proof.Machine

/-- A word whose meaning is `runBinFloat` writes its rounded operation of two operands (R227). -/
theorem binFloat_of_run {i : BitVec 7 → BitVec 8 → BitVec 8 → Instr} {e : Elem} {op : Rnd → Num → Num → Num}
    (h : ∀ s vd sa sb, exec (i vd sa sb) s = runBinFloat s (operandsOk (i vd sa sb)) e vd sa sb op) : BinFloat i e op :=
  fun s vd sa sb => floatWrites_of_runFloat (h s vd sa sb)

/-- An accumulating word is a floating-point word that reads its destination (R174, R225). -/
theorem accFloat_of_run {i : BitVec 7 → BitVec 8 → BitVec 8 → Instr} {e : Elem}
    {f : View → BitVec 7 → BitVec 8 → BitVec 8 → Nat → LaneRes}
    (h : ∀ s vd sa sb, exec (i vd sa sb) s = runFloat s (floatInfo (operandsOk (i vd sa sb)) e vd [sa, sb] true) (destReg · vd)
      (e == .f64) fun w l => f w vd sa sb l) : AccFloat i e f :=
  fun s vd sa sb => floatWrites_of_runFloat (h s vd sa sb)

/-- Settles O2: seventeen words run as `runBinFloat` and seven accumulate, four of them as `runFma`; vadd.f32 has its check of the
all-zero word (R180) and vfrac.f32 one operand. -/
theorem floatVectorWords : Obligations.FloatVectorWords := by
  unfold Obligations.FloatVectorWords
  exact ⟨fun _ _ _ _ => floatWrites_of_runFloat rfl,
    binFloat_of_run fun _ _ _ _ => rfl, binFloat_of_run (op := mulOp) fun _ _ _ _ => rfl,
    accFloat_of_run (f := (fmaElems · .f32)) fun _ _ _ _ => rfl,
    binFloat_of_run (op := exactOp Num.minF) fun _ _ _ _ => rfl, binFloat_of_run (op := exactOp Num.maxF) fun _ _ _ _ => rfl,
    binFloat_of_run fun _ _ _ _ => rfl, binFloat_of_run fun _ _ _ _ => rfl, binFloat_of_run (op := mulOp) fun _ _ _ _ => rfl,
    accFloat_of_run (f := (fmaElems · .f16)) fun _ _ _ _ => rfl,
    binFloat_of_run (op := exactOp Num.minF) fun _ _ _ _ => rfl, binFloat_of_run (op := exactOp Num.maxF) fun _ _ _ _ => rfl,
    binFloat_of_run fun _ _ _ _ => rfl, binFloat_of_run fun _ _ _ _ => rfl, binFloat_of_run (op := mulOp) fun _ _ _ _ => rfl,
    accFloat_of_run (f := (fmaElems · .b16)) fun _ _ _ _ => rfl,
    binFloat_of_run fun _ _ _ _ => rfl, binFloat_of_run fun _ _ _ _ => rfl, binFloat_of_run (op := mulOp) fun _ _ _ _ => rfl,
    accFloat_of_run (f := (fmaElems · .f64)) fun _ _ _ _ => rfl,
    binFloat_of_run (op := exactOp Num.minF) fun _ _ _ _ => rfl, binFloat_of_run (op := exactOp Num.maxF) fun _ _ _ _ => rfl,
    accFloat_of_run fun _ _ _ _ => rfl, accFloat_of_run fun _ _ _ _ => rfl, accFloat_of_run fun _ _ _ _ => rfl,
    fun _ _ _ => floatWrites_of_runFloat rfl⟩

end Sys2Proof.Machine
end

section
/-! O3: conversions. -/

namespace Sys2Proof.Machine

/-- Settles O3: a conversion between types that are not reserved raises nothing but the causes of R164, and else writes its
residues and its results; vrnd.f32 is a floating-point word of one operand. -/
theorem conversionWords : Obligations.ConversionWords := by
  unfold Obligations.ConversionWords
  refine ⟨fun s vd sa dt st d t destination source => ?_, fun _ _ _ => floatWrites_of_runFloat rfl⟩
  refine completes rfl fun w _ _ _ sound => ?_
  rw [destination, source]
  refine Gives.neg ?_ (Gives.modThen w.g _ _ _)
  rw [sound]
  exact Bool.false_ne_true

end Sys2Proof.Machine
end

section
/-! O4: moves and lane movement. -/

namespace Sys2Proof.Machine

/-- A word whose meaning is `runMove` takes in each active lane the lane of the first operand that its rule names (R232). -/
theorem laneMove_of_run {i : BitVec 7 → BitVec 8 → BitVec 8 → Instr} {j : Nat → Nat → Nat}
    (h : ∀ s vd sa sb, exec (i vd sa sb) s = runMove s (operandsOk (i vd sa sb)) vd sa sb j) : LaneMove i j :=
  fun s vd sa sb => writes_of_runRegs (h s vd sa sb)

/-- Settles O4: the four moves are register words of their own; four lane-movement words run as `runMove`, each with its rule. -/
theorem moveWords : Obligations.MoveWords := by
  unfold Obligations.MoveWords
  exact ⟨fun _ _ _ => writes_of_runRegs rfl, fun _ _ _ => writes_of_runRegs rfl, fun _ _ => writes_of_runRegs rfl,
    fun _ _ _ _ => writes_of_runRegs rfl, laneMove_of_run fun _ _ _ _ => rfl, laneMove_of_run fun _ _ _ _ => rfl,
    laneMove_of_run fun _ _ _ _ => rfl, laneMove_of_run fun _ _ _ _ => rfl⟩

end Sys2Proof.Machine
end

section
/-! O6: ballot, compress and expand. -/

namespace Sys2Proof.Machine

/-- Settles O6: the three words are register words, vcompress and vexpand over the same list of selected lanes. -/
theorem ballotCompressExpand : Obligations.BallotCompressExpand := by
  unfold Obligations.BallotCompressExpand
  exact ⟨fun _ _ _ => writes_of_runRegs rfl, fun _ _ _ _ => writes_of_runRegs rfl, fun _ _ _ _ => writes_of_runRegs rfl⟩

end Sys2Proof.Machine
end

section
/-! O7: compares, classes, tests and selects. -/

namespace Sys2Proof.Machine

/-- The one value of the first operand in a lane whose element is the whole lane, after NEGA and ABSA (R186). -/
theorem operandNums_first {e : Elem} (whole : ∀ x, elemsOf e x = [x]) (w : View) (x : Nat) :
    operandNums w e false x = [Num.decode e.fmt (signMods w.mod.nega w.mod.absa e.fmt.width x)] := by
  unfold operandNums
  rw [whole]
  rfl

/-- The same of the second operand, after NEGB and ABSB. -/
theorem operandNums_second {e : Elem} (whole : ∀ x, elemsOf e x = [x]) (w : View) (x : Nat) :
    operandNums w e true x = [Num.decode e.fmt (signMods w.mod.negb w.mod.absb e.fmt.width x)] := by
  unfold operandNums
  rw [whole]
  rfl

/-- A word whose meaning is `runCmpFloat` compares one value of each operand in a lane, where its elements are whole lanes
(R235). -/
theorem cmpFloat_of_run {i : BitVec 4 → BitVec 3 → BitVec 8 → BitVec 8 → Instr} {e : Elem} (whole : ∀ x, elemsOf e x = [x])
    (h : ∀ s cc k sa sb, exec (i cc k sa sb) s = runCmpFloat s (operandsOk (i cc k sa sb)) e cc k sa sb) : CmpFloat i e := by
  intro s cc k sa sb
  refine writes_of_runRegs ((h s cc k sa sb).trans ?_)
  unfold runCmpFloat runMask
  simp only [operandNums_first whole, operandNums_second whole]

/-- A word whose meaning is `runCmpInt` compares signed or unsigned integers (R235). -/
theorem cmpInt_of_run {i : BitVec 4 → BitVec 3 → BitVec 8 → BitVec 8 → Instr} {sign : Bool}
    (h : ∀ s cc k sa sb, exec (i cc k sa sb) s = runCmpInt s (operandsOk (i cc k sa sb)) sign cc k sa sb) :
    CmpInt i fun a b => if sign then a.slt b else a.ult b :=
  fun s cc k sa sb => writes_of_runRegs (h s cc k sa sb)

/-- A word whose meaning is `runSel` takes an operand in each lane by the bit of its mask (R236); the choice of the bits read
is that of the lane values. -/
theorem selects_of_run {i : BitVec 7 → BitVec 8 → BitVec 8 → Instr} {k : Nat}
    (h : ∀ s vd sa sb, exec (i vd sa sb) s = runSel s (operandsOk (i vd sa sb)) k vd sa sb) : Selects i k := by
  intro s vd sa sb
  refine writes_of_runRegs ((h s vd sa sb).trans ?_)
  unfold runSel runLanes laneInt
  simp only [apply_ite (BitVec.ofNat 32)]

/-- Settles O7: two floating-point compares over whole lanes, two integer compares, vcls.f32 and vtest as register words of their
own, and eight selects, one for each mask. -/
theorem compareWords : Obligations.CompareWords := by
  unfold Obligations.CompareWords
  exact ⟨cmpFloat_of_run (fun _ => rfl) fun _ _ _ _ _ => rfl, cmpFloat_of_run (fun _ => rfl) fun _ _ _ _ _ => rfl,
    cmpInt_of_run (sign := true) fun _ _ _ _ _ => rfl, cmpInt_of_run (sign := false) fun _ _ _ _ _ => rfl,
    fun _ _ _ => writes_of_runRegs rfl, fun _ _ _ _ => writes_of_runRegs rfl,
    selects_of_run fun _ _ _ _ => rfl, selects_of_run fun _ _ _ _ => rfl, selects_of_run fun _ _ _ _ => rfl,
    selects_of_run fun _ _ _ _ => rfl, selects_of_run fun _ _ _ _ => rfl, selects_of_run fun _ _ _ _ => rfl,
    selects_of_run fun _ _ _ _ => rfl, selects_of_run fun _ _ _ _ => rfl⟩

end Sys2Proof.Machine
end

section
/-! O16: global loads. -/

namespace Sys2Proof.Machine

/-- Settles O16: seven words run as `runLoad`; ld.s64 is one access for its group, queued as theirs are (R244). -/
theorem globalLoads : Obligations.GlobalLoads := by
  unfold Obligations.GlobalLoads
  exact ⟨loads fun _ _ _ _ _ => rfl, loads fun _ _ _ _ _ => rfl, loads fun _ _ _ _ _ => rfl, loads fun _ _ _ _ _ => rfl,
    loads fun _ _ _ _ _ => rfl, loads fun _ _ _ _ _ => rfl, loads fun _ _ _ _ _ => rfl,
    fun _ _ _ _ _ => queues rfl (fun _ => rfl) (fun _ => rfl) (fun _ => nofun)
      (fun _ _ _ _ _ _ _ performs _ => performLoad_gives rfl performs) fun _ _ _ _ => by simp [withLoad, Group.drained]⟩

end Sys2Proof.Machine
end

section
/-! O17: global stores. -/

namespace Sys2Proof.Machine

/-- A word whose access is a store of global memory queues it, whatever its lanes and its order are. -/
theorem queues_store {i : Instr} {info : View → Info} {acc : View → Access} {lanes : View → List LaneAcc} {s : State}
    (runs : exec i s = runUnit s info fun w => accessLanes w (acc w) (lanes w)) (posted : ∀ w, (acc w).np = false)
    (global : ∀ w, (acc w).space = 0) (kind : ∀ w, (acc w).kind = .store) : Queues i info acc lanes withStore s :=
  queues runs posted global (fun w => by rw [kind w]; nofun)
    (fun w _ _ _ _ _ _ performs _ => performStore_gives (kind w) performs) fun _ _ _ some_ => by
      simp [withStore, Group.drained, splitParts_ne (topLanes_ne some_)]

/-- Settles O17: five words run as `runStore`; st.s64 and cst.b32 are stores with lanes of their own (R243, R244). -/
theorem globalStores : Obligations.GlobalStores := by
  unfold Obligations.GlobalStores
  exact ⟨stores fun _ _ _ _ _ => rfl, stores fun _ _ _ _ _ => rfl, stores fun _ _ _ _ _ => rfl, stores fun _ _ _ _ _ => rfl,
    stores fun _ _ _ _ _ => rfl, fun _ _ _ _ _ => queues_store rfl (fun _ => rfl) (fun _ => rfl) fun _ => rfl,
    fun _ _ _ _ _ => queues_store rfl (fun _ => rfl) (fun _ => rfl) fun _ => rfl⟩

end Sys2Proof.Machine
end

section
/-! O18: global atomics. -/

namespace Sys2Proof.Machine

/-- Settles O18: the fourteen words run as `runAtom`, each with its operation and size. -/
theorem globalAtomics : Obligations.GlobalAtomics := by
  unfold Obligations.GlobalAtomics
  exact ⟨atomics fun _ _ _ _ _ => rfl, atomics fun _ _ _ _ _ => rfl, atomics fun _ _ _ _ _ => rfl, atomics fun _ _ _ _ _ => rfl,
    atomics fun _ _ _ _ _ => rfl, atomics fun _ _ _ _ _ => rfl, atomics fun _ _ _ _ _ => rfl, atomics fun _ _ _ _ _ => rfl,
    atomics fun _ _ _ _ _ => rfl, atomics fun _ _ _ _ _ => rfl, atomics fun _ _ _ _ _ => rfl, atomics fun _ _ _ _ _ => rfl,
    atomics fun _ _ _ _ _ => rfl, atomics fun _ _ _ _ _ => rfl⟩

end Sys2Proof.Machine
end

section
/-! O20: scratchpad and neighbourhood words. -/

namespace Sys2Proof.Machine

/-- Settles O20: eighteen words run as `runSpLoad`, `runSpStore` or `runSpAtom`, in the space they name; lds.s64 and sts.s64 have
one address for their group, whatever its lanes are. -/
theorem scratchpadWords : Obligations.ScratchpadWords := by
  unfold Obligations.ScratchpadWords
  exact ⟨spLoads fun _ _ _ _ _ => rfl, spLoads fun _ _ _ _ _ => rfl, spLoads fun _ _ _ _ _ => rfl, spLoads fun _ _ _ _ _ => rfl,
    spLoads fun _ _ _ _ _ => rfl, spLoads fun _ _ _ _ _ => rfl,
    fun _ _ _ _ _ => spQueues rfl (fun _ _ => List.cons_ne_nil _ _) (fun _ _ => rfl)
      fun _ _ _ _ _ _ _ performs => performLoad_gives rfl performs,
    spStores fun _ _ _ _ _ => rfl, spStores fun _ _ _ _ _ => rfl, spStores fun _ _ _ _ _ => rfl, spStores fun _ _ _ _ _ => rfl,
    spStores fun _ _ _ _ _ => rfl, spStores fun _ _ _ _ _ => rfl,
    fun _ _ _ _ _ => spQueues rfl (fun _ _ => List.cons_ne_nil _ _) (fun _ _ => rfl)
      fun _ _ _ _ _ _ _ performs => performStore_gives rfl performs,
    spAtomics fun _ _ _ _ _ => rfl, spAtomics fun _ _ _ _ _ => rfl, spAtomics fun _ _ _ _ _ => rfl, spAtomics fun _ _ _ _ _ => rfl,
    spAtomics fun _ _ _ _ _ => rfl, spAtomics fun _ _ _ _ _ => rfl⟩

end Sys2Proof.Machine
end

section
/-! O22: prf. -/

namespace Sys2Proof.Machine

/-- What a map has at a key stays as others are put. -/
theorem SMap.put_put_of_stored {α : Type} {m : SMap α} {j k : Nat} {a b : α} (other : j ≠ k) (stored : SMap.put m k a = m) :
    SMap.put (SMap.put m j b) k a = SMap.put m j b := by
  induction m with
  | nil => exact nomatch stored
  | cons e m ih => grind [SMap.put]

/-! Filling a line twice (R47) -/

/-- A line as a read cache takes it from its home slice. -/
def lineCopy (line : Nat) (t : State) : LineCopy := { cells := memCells t (line * 64) 64, at_ := t.home.now }

/-- A cluster whose read cache takes a line. -/
def Cluster.taking (line : Nat) (copy : LineCopy) (c : Cluster) : Cluster := { c with crc := SMap.put c.crc line copy }

theorem Cluster.taking_taking (line : Nat) (copy : LineCopy) (c : Cluster) :
    (c.taking line copy).taking line copy = c.taking line copy := by
  unfold taking
  rw [SMap.put_put]

theorem Cluster.taking_other {line other : Nat} {copy copy' : LineCopy} {c : Cluster} (apart : other ≠ line)
    (has : c.taking line copy = c) : (c.taking other copy').taking line copy = c.taking other copy' :=
  congrArg (fun m => { c with crc := m }) (SMap.put_put_of_stored apart (congrArg Cluster.crc has))

theorem clusterPut_clusterPut (i : Nat) (f g : Cluster → Cluster) (t : State) :
    clusterPut i f (clusterPut i g t) = clusterPut i (fun c => f (g c)) t := by
  show { t with clusters := SMap.put (SMap.put t.clusters i (g (t.cluster i))) i (f ((clusterPut i g t).cluster i)) } = _
  rw [cluster_put, SMap.put_put]
  rfl

theorem clusterPut_congr {i : Nat} {f g : Cluster → Cluster} {t : State} (h : f (t.cluster i) = g (t.cluster i)) :
    clusterPut i f t = clusterPut i g t := by
  unfold clusterPut
  rw [h]

theorem lineFilled_eq (cl pa : Nat) (t : State) :
    lineFilled cl pa t = clusterPut cl (Cluster.taking (pa / 64) (lineCopy (pa / 64) (lineBrought pa t))) (lineBrought pa t) := rfl

theorem filled_copy (cl pa line : Nat) (t : State) : lineCopy line (lineFilled cl pa t) = lineCopy line t := by
  have now : (lineFilled cl pa t).home.now = t.home.now := by
    show (lineBrought pa t).home.now = _
    unfold lineBrought
    dsimp only
    split <;> rfl
  unfold lineCopy
  rw [memCells_congr (filled_mem ..) (filled_marks ..), now]

/-- The read cache of a cluster has a line as its home slice has it. -/
def HasLine (cl line : Nat) (t : State) : Prop := clusterPut cl (Cluster.taking line (lineCopy line t)) t = t

theorem HasLine.cluster {cl line : Nat} {t : State} (h : HasLine cl line t) :
    (t.cluster cl).taking line (lineCopy line t) = t.cluster cl :=
  cluster_put.symm.trans (congrArg (·.cluster cl) h)

/-- A line that its slice and the read cache both have is filled without effect. -/
theorem HasLine.filled {cl pa : Nat} {t : State} (h : HasLine cl (pa / 64) t) (present : linePresent t.home (pa / 64) = true) :
    lineFilled cl pa t = t := by
  have brought : lineBrought pa t = t := if_pos present
  rw [lineFilled_eq, brought]
  exact h

theorem hasLine_filled (cl pa : Nat) (t : State) : HasLine cl (pa / 64) (lineFilled cl pa t) := by
  have same : lineCopy (pa / 64) (lineFilled cl pa t) = lineCopy (pa / 64) (lineBrought pa t) := rfl
  unfold HasLine
  rw [same, lineFilled_eq, clusterPut_clusterPut]
  exact clusterPut_congr (Cluster.taking_taking ..)

theorem HasLine.filled_other {cl pa line : Nat} {t : State} (h : HasLine cl line t) (other : pa / 64 ≠ line) :
    HasLine cl line (lineFilled cl pa t) := by
  unfold HasLine
  rw [filled_copy, lineFilled_eq, clusterPut_clusterPut]
  have cluster : (lineBrought pa t).cluster cl = t.cluster cl := by
    unfold State.cluster
    rw [brought_clusters]
  refine clusterPut_congr ?_
  rw [cluster]
  exact Cluster.taking_other other h.cluster

/-- A fill brings no line but the one it names. -/
theorem present_of_brought {pa line : Nat} {t : State} (other : pa / 64 ≠ line)
    (h : linePresent (lineBrought pa t).home line = true) : linePresent t.home line = true := by
  unfold lineBrought at h
  dsimp only at h
  split at h
  · exact h
  · simpa [linePresent, NSet.has, NSet.add, SMap.get?_put_ne _ _ other] using h

/-! Filling lines one after another (R245) -/

/-- What a lane of an unchecked page waits for (R53, R56, R129). -/
theorem laneBlocked_unchecked {s : State} {g : Nat} {acc : Access} {a : LaneAcc} (unchecked : a.chk = false) :
    laneBlocked s g acc a = true ↔ acc.space = 0 ∧ ((commitBlocks s.dev a.pa = true ∨
      rankBlocked s.dev a.pa = true ∧ linePresent s.home (a.pa / 64) = false) ∨ lineLocked s g a.pa = true) := by
  simp [laneBlocked, paBlocked, channelWaits, unchecked]

/-- The turn of a lane of memory type 0 on an unchecked page. -/
def prefetchTurn {z : State} (g : Nat) (acc : Access) (a : LaneAcc) : M z Unit := do
  let s ← getS
  if laneBlocked s g acc a then pure () else crcFill (s.groupCluster g) a.pa

theorem performPrf_turns {z : State} (g : Nat) (acc : Access) (lanes : List LaneAcc) :
    performPrf (z := z) g acc lanes = forEach (lanes.filter fun a => a.mt = 0 && !a.chk) (prefetchTurn g acc) := rfl

/-- What filling lines for group `g`, from `u` on, leaves: what a lane waits for is as it was but for the lines filled, which the
read cache of the group's cluster has. -/
structure Prefetched (g : Nat) (u t : State) : Prop where
  dev : t.dev = u.dev
  locked : t.home.locked = u.home.locked
  cluster : t.groupCluster g = u.groupCluster g
  keeps : ∀ line, linePresent u.home line = true → linePresent t.home line = true
  fills : ∀ line, linePresent t.home line = true → linePresent u.home line = true ∨ HasLine (u.groupCluster g) line t

theorem filled_held (cl pa : Nat) (t : State) : linesHeld (lineFilled cl pa t) ≤ linesHeld t + 1 := brought_held pa t

theorem filled_cached (cl pa : Nat) (t : State) :
    ((lineFilled cl pa t).cluster cl).crc.length ≤ (t.cluster cl).crc.length + 1 := by
  rw [lineFilled_eq, cluster_put]
  unfold State.cluster
  rw [brought_clusters]
  exact SMap.length_put ..

namespace Prefetched

variable {z u t : State} {g : Nat} {acc : Access} {a : LaneAcc}

theorem refl (g : Nat) (u : State) : Prefetched g u u := ⟨rfl, rfl, rfl, fun _ h => h, fun _ => .inl⟩

theorem fill (f : Prefetched g u t) (pa : Nat) : Prefetched g u (lineFilled (u.groupCluster g) pa t) := by
  obtain ⟨h, form⟩ := brought_form pa t
  have locked : (lineBrought pa t).home.locked = t.home.locked := by
    unfold lineBrought
    dsimp only
    split <;> rfl
  have cluster : (lineBrought pa t).groupCluster g = t.groupCluster g := by rw [form]; rfl
  refine ⟨(brought_dev ..).trans f.dev, locked.trans f.locked, cluster.trans f.cluster,
    fun line k => brought_keeps (f.keeps line k), fun line k => ?_⟩
  by_cases same : pa / 64 = line
  · exact same ▸ .inr (hasLine_filled ..)
  · exact (f.fills line (present_of_brought same k)).imp_right (·.filled_other same)

theorem lineLocked_eq (f : Prefetched g u t) (g' pa : Nat) : lineLocked t g' pa = lineLocked u g' pa := by
  unfold lineLocked
  rw [f.locked]

/-- A lane that has to wait had to wait from the first. -/
theorem blocked (f : Prefetched g u t) (unchecked : a.chk = false) (now : laneBlocked t g acc a = true) :
    laneBlocked u g acc a = true := by
  have absent (h : linePresent t.home (a.pa / 64) = false) : linePresent u.home (a.pa / 64) = false :=
    Bool.eq_false_iff.2 fun k => Bool.eq_false_iff.1 h (f.keeps _ k)
  rw [laneBlocked_unchecked unchecked, f.dev, f.lineLocked_eq] at now
  exact (laneBlocked_unchecked unchecked).2 (now.imp_right (Or.imp_left (Or.imp_right (And.imp_right absent))))

/-- A lane that had to wait, and does not any more, names a line that has been filled. -/
theorem unblocked (f : Prefetched g u t) (unchecked : a.chk = false) (first : laneBlocked u g acc a = true)
    (now : laneBlocked t g acc a = false) :
    linePresent t.home (a.pa / 64) = true ∧ HasLine (u.groupCluster g) (a.pa / 64) t := by
  rw [laneBlocked_unchecked unchecked] at first
  rw [Bool.eq_false_iff, ne_eq, laneBlocked_unchecked unchecked, f.dev, f.lineLocked_eq] at now
  obtain ⟨global, (commit | ⟨rank, absent⟩) | locked⟩ := first
  · exact absurd ⟨global, .inl (.inl commit)⟩ now
  · have present : linePresent t.home (a.pa / 64) = true :=
      (Bool.eq_false_or_eq_true _).resolve_right fun h => now ⟨global, .inl (.inr ⟨rank, h⟩)⟩
    exact ⟨present, (f.fills _ present).resolve_left (by simp [absent])⟩
  · exact absurd ⟨global, .inr locked⟩ now

/-- A lane that does not have to wait names a line that may be filled, where its slice has room. -/
theorem room (global : acc.space = 0) (unchecked : a.chk = false) (free : laneBlocked t g acc a = false)
    (space : linesHeld t < 32768) : OneRoom t a.pa := by
  rw [Bool.eq_false_iff, ne_eq, laneBlocked_unchecked unchecked] at free
  cases present : linePresent t.home (a.pa / 64) with
  | true => exact .inl present
  | false => exact .inr ⟨Bool.eq_false_iff.2 fun rank => free ⟨global, .inl (.inr ⟨rank, present⟩)⟩, space⟩

/-- A lane's turn fills its line where the lane did not have to wait from the first. A lane that had to, and need not any more,
finds its line filled by another lane. -/
theorem turn (f : Prefetched g u t) (global : acc.space = 0) (unchecked : a.chk = false) (space : linesHeld t < 32768)
    (cache : (t.cluster (u.groupCluster g)).crc.length < 4096) :
    Gives (z := z) (prefetchTurn g acc a) t ()
      (if laneBlocked u g acc a then t else lineFilled (u.groupCluster g) a.pa t) := by
  refine Gives.getThen ?_
  rw [f.cluster]
  cases now : laneBlocked t g acc a with
  | true => exact Gives.pos rfl ((Gives.pure _ _).as (if_pos (f.blocked unchecked now)).symm)
  | false =>
    have filled := crcFill_gives (z := z) (room global unchecked now space) (.inr cache)
    refine Gives.neg Bool.false_ne_true (filled.as ?_)
    split
    · next first =>
      obtain ⟨present, has⟩ := f.unblocked unchecked first now
      exact has.filled present
    · rfl

/-- The turns of lanes, where slices and cache have room for a line of each. -/
theorem turns (global : acc.space = 0) (ls : List LaneAcc) (unchecked : ∀ a ∈ ls, a.chk = false) : ∀ t, Prefetched g u t →
    linesHeld t + ls.length ≤ 32768 → (t.cluster (u.groupCluster g)).crc.length + ls.length ≤ 4096 →
    Gives (z := z) (forEach ls (prefetchTurn g acc)) t ()
      ((ls.filter fun a => !laneBlocked u g acc a).foldl (fun t a => lineFilled (t.groupCluster g) a.pa t) t) := by
  induction ls with
  | nil => exact fun t _ _ _ => Gives.pure _ _
  | cons a ls ih =>
    intro t f space cache
    obtain ⟨plain, rest⟩ := List.forall_mem_cons.1 unchecked
    rw [List.length_cons] at space cache
    have turn := f.turn (z := z) global plain (by omega) (by omega)
    cases blocked : laneBlocked u g acc a with
    | true =>
      rw [List.filter_cons_of_neg (by simp [blocked])]
      exact (turn.as (if_pos blocked)).bind (ih rest t f (by omega) (by omega))
    | false =>
      have held := filled_held (u.groupCluster g) a.pa t
      have cached := filled_cached (u.groupCluster g) a.pa t
      rw [List.filter_cons_of_pos (by simp [blocked]), List.foldl_cons, f.cluster]
      exact (turn.as (if_neg (ne_true_of_eq_false blocked))).bind (ih rest _ (f.fill a.pa) (by omega) (by omega))

end Prefetched

/-- The lines of the lanes of memory type 0 on unchecked pages are filled, but for those that have to wait. -/
theorem performPrf_gives {z u : State} {g : Nat} {acc : Access} {lanes : List LaneAcc} (global : acc.space = 0)
    (space : linesHeld u + lanes.length ≤ 32768) (cache : (u.cluster (u.groupCluster g)).crc.length + lanes.length ≤ 4096) :
    Gives (z := z) (performPrf g acc lanes) u ()
      ((lanes.filter fun a => a.mt = 0 && !a.chk && !laneBlocked u g acc a).foldl
        (fun t a => lineFilled (t.groupCluster g) a.pa t) u) := by
  have fewer := List.length_filter_le (fun a : LaneAcc => a.mt = 0 && !a.chk) lanes
  have unchecked : ∀ a ∈ lanes.filter fun a => a.mt = 0 && !a.chk, a.chk = false := by simp
  rw [performPrf_turns]
  refine (Prefetched.turns global _ unchecked u (.refl g u) (by omega) (by omega)).as ?_
  rw [List.filter_filter]
  simp only [Bool.and_comm]

/-- No more lanes translate than a word has. -/
theorem translated_length {z t u : State} {cl ctx : Nat} {c : CtxRec} {acc : Access} {lanes : List LaneAcc} {r : Trans}
    (run : Gives (z := z) (translate cl ctx c acc lanes) t r u) (p : Path z t) : r.ok.length ≤ lanes.length := by
  obtain ⟨q, ends⟩ := run p
  simpa using (translate_lanes ends).length_le

theorem globalAddrs_length (w : View) (sb : BitVec 6) (vo : BitVec 8) : (globalAddrs w sb vo).length ≤ 32 := by
  unfold globalAddrs View.lanes lanesOf
  rw [List.length_map]
  exact (List.length_filter_le _ _).trans (List.length_range ..).le

/-- The charge of a unit leaves the launches. -/
theorem paid_launch {s : State} {w : View} {i : Info} {n : Nat} {l : Launch} (hw : view s = some w) (h : s.launch? n = some l) :
    (w.paid i).launch? n = some l := (congrArg (·.launch? n) (view_cases hw).1).trans h

/-- Settles O22: prf translates its lines, whatever their lanes raise, and fills those that it may. -/
theorem prefetchWord : Obligations.PrefetchWord := by
  unfold Obligations.PrefetchWord
  intro s sb vo ord lines info w l r u hw ready acts e launch run space cache
  obtain ⟨l', traffic, rcd, -⟩ := traffic_launch (n := 32 * sectors 64 ((lines w).map (·.2))) (paid_launch hw launch)
  obtain ⟨p, -⟩ := paid_gives (i := info w) (view_cases hw).1 .refl
  obtain ⟨q, -⟩ := traffic_gives w.t.launch (32 * sectors 64 ((lines w).map (·.2))) (w.paid (info w)) p
  have few : r.ok.length ≤ 32 := (translated_length run q).trans (by simpa [lines] using globalAddrs_length w sb vo)
  have fills := performPrf_gives (z := s) (u := u) (g := w.g) (acc := { kind := .prf, size := 64, scope := w.scope }) (lanes := r.ok) rfl
    (by unfold linesHeld; omega) (by omega)
  refine runUnit_gives (info := info) hw ready acts (f := .seq) ((traffic_gives _ _ _).bind ?_) (seq_gives e _)
  unfold startAccess
  refine (teamRec_gives traffic).bind (Gives.getThen ?_)
  rw [rcd]
  exact run.bind (fills.bind (Gives.pure _ _))

end Sys2Proof.Machine
end

section
/-! O26: flushr and coll. -/

namespace Sys2Proof.Machine

variable {z : State}

/-- A flush whose page has its translation drops the lines of the range in it, then goes on at the next page (R252). -/
theorem flushPages_succ {w : View} {c : CtxRec} {lo hi n page : Nat} {a : LaneAcc} {t u v : State}
    (hit : Gives (z := z) (xlate w.cl w.t.ctx c Kind.read false (BitVec.ofNat 64 page)) t (.ok a) u)
    (rest : Gives (z := z) (flushPages w c lo hi n (page + 4096))
      (((List.range 64).filter fun i => lo < page + 64 * i + 64 && page + 64 * i < hi).foldl
        (fun t i => lineDropped w.cl (a.pa + 64 * i) t) u) () v) :
    Gives (z := z) (flushPages w c lo hi (n + 1) page) t () v :=
  hit.bind ((forEach_if (fun _ _ => crcDrop_gives _ _ _) _ u).bind rest)

/-- A range within one page has one page to flush. -/
theorem pages_one {lo hi : Nat} (nonempty : lo < hi) (within : hi ≤ lo / 4096 * 4096 + 4096) :
    (if lo = hi then 0 else (hi - lo / 4096 * 4096 + 4095) / 4096) = 1 := by
  rw [if_neg (Nat.ne_of_lt nonempty)]
  omega

/-- A coll that is ready has its descriptor and its endpoint; it enters its operation, unless it has no bytes to move (R377). -/
theorem coll_enters (s : State) (x : BitVec 6) : CompletesIf (.coll x)
    (fun w =>
      { reads := [sreg x], waits := spadHeld w || endpointHeld w (w.low x)
        raises := if (collParts w (w.low x)).isNone then
          [{ cause := Cause.engineErr, code := 1, value := BitVec.ofNat 64 (w.low x) }] else [] })
    (fun _ => True)
    (fun w t => match collParts w (w.low x) with
      | none => t
      | some (d, e) =>
        if d.len = 0 then t
        else
          let u := { t with fresh := t.fresh + 1, colls := t.colls ++
            [{ id := t.fresh, g := w.g, eid := w.eid, op := d.op, dev := bitsOf e 21 0, vfn := bitsOf e 27 22
               peerCtx := bitsOf e 47 32, laddr := d.laddr, raddr := d.raddr, len := d.len, start := w.gr.nextId
               clock := w.gr.release w.g }] }
          opened w 2 t.fresh (withTraffic w.t.launch d.len u)) s := by
  refine completes rfl fun w _ r acts _ => ?_
  have sound := r.raises acts
  generalize w.paid _ = t
  cases parts : collParts w (w.low x) with
  | none =>
    rw [parts] at sound
    exact nomatch sound
  | some p =>
    obtain ⟨d, e⟩ := p
    refine (Gives.need rfl).bind ?_
    dsimp only
    by_cases empty : d.len = 0
    · rw [if_pos empty, if_pos empty]
      exact Gives.pure _ _
    · rw [if_neg empty, if_neg empty]
      exact freshThen ((Gives.mod _ _ _).bind ((traffic_gives _ _ _).bind ((openOp_gives _ _ _ _).bind (Gives.pure _ _))))

/-- Settles O26: a flush of a range within one page is the flush of that page; coll enters its operation. -/
theorem flushAndCollective : Obligations.FlushAndCollective := by
  unfold Obligations.FlushAndCollective
  refine ⟨?_, coll_enters⟩
  intro s x y w l a u info lo hi page hw r acts e launch nonempty within hit
  have flush : Gives (z := s) (flushPages w l.rcd lo hi (if lo = hi then 0 else (hi - page + 4095) / 4096) page) (w.paid info) ()
      (((List.range 64).filter fun i => lo < page + 64 * i + 64 && page + 64 * i < hi).foldl
        (fun t i => lineDropped w.cl (a.pa + 64 * i) t) u) := by
    rw [pages_one nonempty within]
    exact flushPages_succ hit (Gives.pure _ _)
  exact runUnit_gives (info := fun w => { reads := [sreg x, sreg y], raises := lengthFault w y }) hw r acts
    ((teamRec_gives (paid_launch hw launch)).bind (flush.bind (Gives.pure _ _))) (seq_gives e _)

end Sys2Proof.Machine
end

section
/-! O28: named barriers. -/

namespace Sys2Proof.Machine

/-- The state that group `w.g` arrives at barrier `b` in, in a step from `s`: its unit is charged, it has the hold `h`, and all that
barriers rest on is as it was. -/
structure Arriving (s : State) (w : View) (b : Nat) (h : Option Hold) (t : State) : Prop where
  start : w.s = s
  team : s.team? w.eid = some w.t
  alike : Alike s t
  barrier : barrierOf t w.eid b = barrierOf s w.eid b
  grids : t.grids = s.grids
  group : ∃ gr, t.group? w.g = some gr ∧ gr.exm = w.gr.exm ∧ gr.release w.g = w.gr.release w.g ∧ gr.hold = h
  noRearrive : NoRearrive b s → NoRearrive b t

/-- That no group waits to arrive again rests on the groups' holds alone. -/
theorem noRearrive_iff {b : Nat} {t : State} : NoRearrive b t ↔ ∀ g h, (t.group? g).map (·.hold) = some h →
    ∀ c p r sy, h ≠ some (.rearrive b c p r sy) := by
  simp only [NoRearrive, Option.map_eq_some_iff, forall_exists_index, and_imp]
  exact ⟨fun n g h gr hg e c p r sy => e ▸ n g gr c p r sy hg, fun n g gr c p r sy hg => n g gr.hold gr hg rfl c p r sy⟩

/-- The charge of a unit leaves the holds of all groups. -/
theorem paid_holds (w : View) (i : Info) (g : Nat) : ((w.paid i).group? g).map (·.hold) = (w.s.group? g).map (·.hold) := by
  unfold View.paid View.paidAt State.group?
  dsimp only
  split
  · exact (adjust_map _ _ _ _ _ (by exact fun _ => rfl)).trans (adjust_map _ _ _ _ _ (by exact fun _ => rfl))
  · exact adjust_map _ _ _ _ _ (by exact fun _ => rfl)

theorem arriving_paid {s : State} {w : View} {i : Info} (b : Nat) (hw : view s = some w) (r : Ready w i) :
    Arriving s w b none (w.paid i) := by
  obtain ⟨start, -, -, team, -⟩ := view_cases hw
  obtain ⟨n, y, group⟩ := paid_group_eq (i := i) hw
  have unheld : w.gr.hold = none := (present_free r.presents).2.1
  subst start
  exact ⟨rfl, team, Alike.paid i, paid_barrier hw b id, rfl, ⟨_, group, rfl, rfl, unheld⟩, fun none_ => by
    simpa only [noRearrive_iff, paid_holds] using none_⟩

namespace Arriving

variable {s t : State} {w : View} {b c : Nat} {h : Option Hold} {red : Option (RedKind × W32)} {held : Option (Option Nat)}

theorem hold {k : Hold} (a : Arriving s w b h t) (another : ∀ c p r sy, k ≠ .rearrive b c p r sy) :
    Arriving s w b (some k) (w.held k t) := by
  obtain ⟨gr, group, exm, release, -⟩ := a.group
  have alike : Alike t (w.held k t) := Alike.onGroup w _ (by exact fun _ => rfl) t
  refine ⟨a.start, a.team, a.alike.trans alike, a.barrier, a.grids,
    ⟨_, (SMap.get?_adjust_self _ _ _).trans (congrArg _ group), exm, release, rfl⟩, fun none_ g gr c p r sy hg => ?_⟩
  by_cases same : w.g = g
  · subst same
    obtain ⟨_, -, rfl⟩ := get?_adjusted hg
    exact fun e => another c p r sy (Option.some.inj e)
  · exact a.noRearrive none_ g gr c p r sy ((SMap.get?_adjust_ne _ _ same).symm.trans hg)

/-- A first arrival that does not fill its phase joins it (R254). -/
theorem joins (a : Arriving s w b h t) (part : ¬Full w b (arrivedAt w b c red held)) :
    Gives (z := s) (arrive w.g b c red held) t () (barrierPut w b (arrivedAt w b c red held) t) := by
  obtain ⟨gr, group, exm, release, -⟩ := a.group
  exact arrive_part a.start a.team a.alike a.barrier a.grids group exm release part

/-- A first arrival that fills its phase ends it (R254). -/
theorem ends (a : Arriving s w b h t) (full : Full w b (arrivedAt w b c red held)) (fresh : FreshPhase w b) :
    Gives (z := s) (arrive w.g b c red held) t ()
      (phaseReleased w b (arrivedAt w b c red held) (barrierPut w b (arrivedAt w b c red held) t)) := by
  obtain ⟨gr, group, exm, release, -⟩ := a.group
  exact arrive_full a.start a.team a.alike a.barrier a.grids group exm release full fresh (a.noRearrive (a.start ▸ fresh.2))

/-- An arrival that joined its phase leaves its group's hold. -/
theorem joined_hold (a : Arriving s w b h t) (x : Barrier) : ∃ gr, (barrierPut w b x t).group? w.g = some gr ∧ gr.hold = h := by
  obtain ⟨gr, group, -, -, hold⟩ := a.group
  exact ⟨gr, (put_group ..).trans group, hold⟩

/-- The end of a phase releases a group that it held, and holds no group that was not held. -/
theorem ended_hold (a : Arriving s w b h t) (x y : Barrier) (free : w.g ∈ x.held.map (·.1) ∨ h = none) :
    ∃ gr, (phaseReleased w b x (barrierPut w b y t)).group? w.g = some gr ∧ (gr.hold = some .released ∨ gr.hold = none) := by
  obtain ⟨gr, group, -, -, hold⟩ := a.group
  have alike : Alike (barrierPut w b y t) (phaseReleased w b x (barrierPut w b y t)) :=
    (release_fold x _ _ x.held _).1.trans (Alike.barrierPut ..)
  have exits := alike.group w.g
  rw [put_group, group] at exits
  obtain ⟨gr', group', -⟩ := Option.map_eq_some_iff.1 exits
  exact ⟨gr', group', released_hold group' (free.imp_right fun none_ => ⟨gr, group, hold.trans none_⟩)⟩

end Arriving

theorem arriving_held {s : State} {w : View} {i : Info} (b c : Nat) (phase : W32) (red : Option RedKind) (dst : Nat)
    (hw : view s = some w) (r : Ready w i) :
    Arriving s w b (some (.barrier b c phase red dst)) (w.held (.barrier b c phase red dst) (w.paid i)) :=
  (arriving_paid b hw r).hold nofun

/-- An arrival that waits is held in its phase. -/
theorem held_arrivedAt (w : View) (b c : Nat) (red : Option (RedKind × W32)) (d : Option Nat) :
    w.g ∈ (arrivedAt w b c red (some d)).held.map (·.1) := by
  cases red <;> simp [arrivedAt]

/-- A word whose meaning is `runBar` arrives as R254 to R256 say: held until the next phase where its group has arrived already,
else held in its phase, or released, as the arrival leaves its group. -/
theorem arrives_of_runBar {i : Instr} {fn : Nat} {c : BitVec 6} {b : BitVec 4} {red : Option (RedKind × BitVec 6 × BitVec 6)}
    {sync : Bool} (runs : ∀ s, exec i s = runBar s fn c b red sync) : Arrives i fn c b red sync := by
  intro s info dst before x set on
  refine ⟨?_, ?_, ?_, ?_⟩
  · exact issues (runs s) (.inl rfl) fun w hw r acts again => Gives.pos (List.contains_iff_mem.2 again) (Gives.held _ _)
  · refine issues (runs s) (.inl rfl) fun w hw r acts ⟨waits, first, part⟩ => Gives.neg (by simpa using first) ?_
    subst waits
    have a := arriving_held b.toNat c.toNat (before w).phase (red.map (·.1)) (dst.getD 0) hw r
    obtain ⟨gr, group, hold⟩ := a.joined_hold (x w)
    simp only [Option.map_map, Function.comp_def]
    refine (Gives.modGroup _ _ _).bind ((a.joins part).bind ((Gives.getGroup group).bind ?_))
    rw [hold]
    exact Gives.pure _ _
  · refine completes (runs s) fun w hw r acts ⟨goes, first, part⟩ => Gives.neg (by simpa using first) ?_
    subst goes
    have a := arriving_paid b.toNat hw r
    obtain ⟨gr, group, hold⟩ := a.joined_hold (x w)
    simp only [Option.map_map, Function.comp_def]
    refine (a.joins part).bind ((Gives.getGroup group).bind ?_)
    rw [hold]
    exact Gives.modThen _ _ _ _
  · refine completes (runs s) fun w hw r acts ⟨first, full, fresh⟩ => Gives.neg (by simpa using first) ?_
    cases sync with
    | true =>
      have a := arriving_held b.toNat c.toNat (before w).phase (red.map (·.1)) (dst.getD 0) hw r
      obtain ⟨gr, group, hold⟩ := a.ended_hold (x w) (x w) (.inl (held_arrivedAt ..))
      simp only [Option.map_map, Function.comp_def]
      refine (Gives.modGroup _ _ _).bind ((a.ends full fresh).bind ((Gives.getGroup group).bind ?_))
      rcases hold with hold | hold <;> rw [hold] <;> exact Gives.modThen _ _ _ _
    | false =>
      have a := arriving_paid b.toNat hw r
      obtain ⟨gr, group, hold⟩ := a.ended_hold (x w) (x w) (.inr rfl)
      simp only [Option.map_map, Function.comp_def]
      refine (a.ends full fresh).bind ((Gives.getGroup group).bind ?_)
      rcases hold with hold | hold <;> rw [hold] <;> exact Gives.modThen _ _ _ _

/-- Settles O28: the eight words run as `runBar`, bar.arr alone without waiting, six with a reduction. -/
theorem barrierWords : Obligations.BarrierWords := by
  unfold Obligations.BarrierWords
  exact ⟨fun _ _ => arrives_of_runBar fun _ => rfl, fun _ _ => arrives_of_runBar fun _ => rfl,
    fun _ _ _ _ => arrives_of_runBar fun _ => rfl, fun _ _ _ _ => arrives_of_runBar fun _ => rfl,
    fun _ _ _ _ => arrives_of_runBar fun _ => rfl, fun _ _ _ _ => arrives_of_runBar fun _ => rfl,
    fun _ _ _ _ => arrives_of_runBar fun _ => rfl, fun _ _ _ _ => arrives_of_runBar fun _ => rfl⟩

end Sys2Proof.Machine
end

section
/-! O33: reservations of the operand buffer. -/

namespace Sys2Proof.Machine

/-- Settles O33: obres adds the reservation that `chooseRes` gives, obrel takes out the one that its record names. -/
theorem matrixReservationWords : Obligations.MatrixReservationWords := by
  unfold Obligations.MatrixReservationWords
  refine ⟨?_, fun s x r => completes rfl fun w _ _ _ named => ?_⟩
  · intro s x y z n u bytes f
    refine completes rfl fun w _ _ _ chosen => ?_
    dsimp only [bytes, f] at chosen ⊢
    rw [chosen]
    exact (Gives.modTeam _ _ _).bind (Gives.modThen _ _ _ _)
  · dsimp only
    rw [named]
    exact (Gives.modTeam _ _ _).bind (Gives.pure _ _)

end Sys2Proof.Machine
end

section
/-! O34: operations of the matrix engine. -/

namespace Sys2Proof.Machine

variable {z : State}

/-- A word whose last act is to enter its operation. -/
theorem entered_seq (w : View) (mk : Nat → MatOp) (t : State) :
    Gives (z := z) (do enterMat w mk; pure Flow.seq) t .seq (matEntered w mk t) := (enterMat_gives w mk t).thenPure _

/-- A fetch whose bytes count as traffic as it enters. -/
theorem enteredWithTraffic_seq (w : View) (n : Nat) (mk : Nat → MatOp) (t : State) :
    Gives (z := z) (do addTraffic w.t.launch n; enterMat w mk; pure Flow.seq) t .seq
      (matEntered w mk (withTraffic w.t.launch n t)) := (traffic_gives _ _ _).bind (entered_seq _ _ _)

/-- The operands of a pass are good: the record's tile, the B word and the bank, of formats that the table lists together
(R273 to R275). -/
structure PassFits (w : View) (batched : Bool) (r : ResRec) (b : BWord) (k n : Nat) : Prop where
  tile : tileValid r b.kt = true
  word : b.valid w.t.mat.banks = true
  rate : passRate4 r.fmt b.fmt ≠ 0
  pos : 0 < k
  le : k ≤ 512
  batch : batched = true → k ≤ 128 ∧ b.kt % 4 = 0
  block : r.fmt = 6 ∨ r.fmt = 7 → r.blk = b.blk
  whole : batched = true → r.fmt = 6 ∨ r.fmt = 7 → k % blockOf r.blk = 0
  bank : bankOk w.t n (r.fmt = 1) = true

theorem PassFits.accepted {w : View} {batched : Bool} {r : ResRec} {b : BWord} {k n : Nat} (h : PassFits w batched r b k n) :
    ¬(passRate4 r.fmt b.fmt = 0 || k = 0 || 512 < k || (batched && (128 < k || b.kt % 4 ≠ 0)) ||
      ((r.fmt = 6 || r.fmt = 7) && r.blk != b.blk) || (batched && (r.fmt = 6 || r.fmt = 7) && k % blockOf r.blk ≠ 0) ||
      !bankOk w.t n (r.fmt = 1)) = true := by
  obtain ⟨-, -, rate, pos, le, batch, block, whole, bank⟩ := h
  have scaled : (decide (r.fmt = 6) || decide (r.fmt = 7)) = true ↔ r.fmt = 6 ∨ r.fmt = 7 := by simp
  simp only [Bool.or_eq_true, Bool.and_eq_true, decide_eq_true_eq, Bool.not_eq_true', bank, bne_iff_ne]
  rintro ((((((h | h) | h) | ⟨h, h' | h'⟩) | ⟨h, h'⟩) | ⟨⟨h, h'⟩, h''⟩) | h)
  · exact rate h
  · omega
  · omega
  · have := batch h; omega
  · exact h' (batch h).2
  · exact h' (block h)
  · exact h'' (whole h h')
  · cases h

/-- A pass whose operands are good enters (R273). -/
theorem pass_enters {i : Instr} {batched : Bool} {x y : BitVec 6} {n : BitVec 2} (runs : ∀ s, exec i s = runPass s batched x y n)
    (s : State) (res : Reservation) :
    let r (w : View) : ResRec := readRes (w.gr.rs x.toNat)
    let b (w : View) : BWord := readBWord (w.gr.rs y.toNat)
    let k (w : View) : Nat := if batched then (b w).kt / 4 else (b w).kt
    CompletesIf i (fun w => matInfo w [sreg x, sreg y] (passCycles batched (r w).fmt (b w).fmt (b w).kt) true)
      (fun w => namedRes w.t (r w) = some res ∧ PassFits w batched (r w) (b w) (k w) n.toNat)
      (fun w => matEntered w fun id =>
        { id := id, g := w.g, eid := w.eid, kind := .pass batched (w.gr.rs x.toNat) (w.gr.rs y.toNat) n.toNat
          rbase := 4096 * res.base, res := some (res.rnum, res.gen), start := w.gr.nextId, clock := w.gr.release w.g }) s := by
  intro r b k
  refine completes (runs s) fun w _ _ _ ⟨named, fits⟩ => ?_
  dsimp only [r, b, k] at named fits ⊢
  rw [named]
  exact Gives.neg (by simp [fits.tile]) (Gives.neg (by simp [fits.word]) (Gives.neg fits.accepted (entered_seq _ _ _)))

/-- A store of an aligned region in a listed format raises nothing. -/
theorem mstore_sound {w : View} {d n : Nat} {v a st : W64} (few : d ≤ 3) (clear : v.toNat / 16 = 0)
    (bank : bankOk w.t n (d = 1) = true) (base : a.toNat % dfmtSize d = 0) (stride : st.toNat % dfmtSize d = 0) :
    ((if 3 < d || v.toNat / 16 ≠ 0 then [{ cause := Cause.engineErr, code := 4, value := v }] else []) ++
      (if bankOk w.t n (d = 1) then [] else obufRes w none) ++
      (if d ≤ 3 && (a.toNat % dfmtSize d ≠ 0 || st.toNat % dfmtSize d ≠ 0) then
        [{ cause := Cause.misalign, code := BitVec.ofNat 16 (dfmtSize d), value := a }] else []) : List Detail) = [] := by
  simp [Nat.not_lt.2 few, clear, bank, base, stride]

/-- Settles O34: a fetch enters after its snapshot; a pass, a zeroing and a store enter where no check of theirs fails. -/
theorem matrixOperationWords : Obligations.MatrixOperationWords := by
  unfold Obligations.MatrixOperationWords
  intro row0 col0 kt passes
  have pass {i : Instr} {batched : Bool} {x y : BitVec 6} {n : BitVec 2} (runs : ∀ s, exec i s = runPass s batched x y n) :
      passes i batched x y n := fun s res w hw ready acts e ⟨named, tile, word, rate, pos, le, batch, block, whole, bank⟩ =>
    pass_enters runs s res w hw ready acts e ⟨named, tile, word, rate, pos, le, batch, block, whole, bank⟩
  refine ⟨?_, ?_, fun x y n => pass fun _ => rfl, fun x y n => pass fun _ => rfl, ?_, ?_⟩
  · intro x y z res
    refine staged (moved := fun _ _ => 0) (fun _ => rfl)
      fun s w sn u j hw ⟨unjournalled, named, reserved, pos, le, valid, agrees⟩ read => ?_
    dsimp only [kt, col0] at reserved pos le valid agrees
    refine (journalEntry_staged hw read (takeSnapshot_firm _ _) unjournalled _ _).bind ?_
    dsimp only
    rw [named]
    refine Gives.neg ?_ (enteredWithTraffic_seq _ _ _ _)
    simp [-Nat.reducePow, reserved, Nat.pos_iff_ne_zero.1 pos, Nat.not_lt.2 le, valid, agrees]
  · intro x y z b
    refine staged (moved := fun _ _ => 0) (fun _ => rfl) fun s w sn u j hw ⟨unjournalled, reserved, valid, agrees⟩ read => ?_
    dsimp only [b, row0, col0] at reserved valid agrees
    refine (journalEntry_staged hw read (takeSnapshot_firm _ _) unjournalled _ _).bind (Gives.neg ?_ (enteredWithTraffic_seq _ _ _ _))
    simp [-Nat.reducePow, reserved, valid, agrees]
  · intro s n
    exact completes rfl fun w _ _ _ held => Gives.neg (by simp [held]) (entered_seq _ _ _)
  · intro s x y z n d e
    refine completes rfl fun w _ _ _ ⟨few, bank, base, stride⟩ => ?_
    dsimp only [d, e] at few bank base stride ⊢
    have small : (w.gr.rs z.toNat).toNat % 16 = (w.gr.rs z.toNat).toNat := Nat.mod_eq_of_lt (by omega)
    have sound := mstore_sound (v := w.gr.rs z.toNat) few (Nat.div_eq_of_lt (by omega)) bank base stride
    rw [small, sound]
    exact Gives.neg Bool.false_ne_true (enteredWithTraffic_seq _ _ _ _)

end Sys2Proof.Machine
end

section
/-! O35: spawns and node queues. -/

namespace Sys2Proof.Machine

variable {z : State}

/-- An accepted spawn creates its grid and answers its word (R284). -/
theorem spawn_answers (x y : BitVec 6) :
    Staged (.spawn x y) (fun w => { reads := [sreg y], writes := [sreg x], mask := .ignores, waits := !w.gr.drained })
      (fun w => planSpawn w (w.low y)) (fun _ p => if p.code = 0 then 3 + p.d.teams else 0)
      (fun w p _ => p.code ≠ 0 ∨ NoJournal w)
      (fun w p t =>
        if p.code ≠ 0 then w.onGroup (fun gr => gr.setS x.toNat (BitVec.ofNat 64 (2 ^ 63 + p.code))) t
        else w.onGroup (fun gr => gr.setS x.toNat (BitVec.ofNat 64 (p.tag0 + p.d.teams * 2 ^ 32)))
          (gridCreated w p.d p.tag0 p.tickets { t with free := t.free + 1 }))
      (fun _ p => if p.code = 0 then p.d.grant else 0) := by
  refine staged (fun _ => rfl) fun s w p u j hw unjournalled read => ?_
  by_cases accepted : p.code = 0
  · have quiet : NoJournal w := unjournalled.resolve_left (not_not_intro accepted)
    have firm := planSpawn_firm hw quiet read
    obtain ⟨l, tm, launch, off, team, same⟩ := staged_team (j := j) hw firm quiet fun gr => { gr with denied := none }
    obtain ⟨al, ch, sp, charged⟩ := staged_team_eq (j := j) hw firm fun gr => { gr with denied := none }
    obtain ⟨gid, created⟩ := createGrid_gives (z := s) (w := w) (d := p.d) (tag0 := p.tag0) (tickets := p.tickets)
      (t := { w.paidAt j (w.onGroup (fun gr => { gr with denied := none }) u) with
        free := (w.paidAt j (w.onGroup (fun gr => { gr with denied := none }) u)).free + 1 }) (by exact charged)
    simp only [accepted, ne_eq, not_true_eq_false, if_false]
    exact (journalGroup_off team (same ▸ launch) off).bind (Gives.bind (Gives.mod _ _ _) (created.bind answered_gives))
  · simp only [accepted, ne_eq, not_false_eq_true, if_true]
    exact answered_gives

theorem none_raised {ds : List Detail} (h : ds = []) : ¬(!ds.isEmpty) = true := by simp [h]

/-- The word of a spawnq or qpop names a record in the team's scratchpad. -/
theorem spInside_sound {t : Team} {off n : Nat} (h : spInside t off n = true) : outsideSpad t off n = [] := if_pos h

/-- Settles O35: spawn by its plan; spawnq and qpop by what they find of their queue. -/
theorem spawnAndQueueWords : Obligations.SpawnAndQueueWords := by
  unfold Obligations.SpawnAndQueueWords
  intro answered lines
  refine ⟨spawn_answers, ?_, ?_⟩
  · intro s x y z nq len bad info inside
    have sound {w : View} (h : inside w) :
        misalignGroup 8 (w.low z) ++ (if bad w then [] else outsideSpad w.t (w.low z) (len w)) = [] := by
      obtain ⟨aligned, good, within⟩ := h
      rw [if_neg (ne_true_of_eq_false good)]
      exact place_sound aligned within
    refine ⟨?_, ?_, fun q => ?_, ?_⟩
    · refine completes rfl fun w _ _ _ ⟨aligned, broken⟩ => ?_
      refine Gives.neg (none_raised ?_) (Gives.pos broken answered_gives)
      rw [if_pos broken, List.append_nil]
      exact if_pos aligned
    · refine completes rfl fun w _ _ _ ⟨h, unbound⟩ => ?_
      refine Gives.neg (none_raised (sound h)) (Gives.neg (ne_true_of_eq_false h.2.1) ?_)
      rw [unbound]
      exact answered_gives
    · refine completes rfl fun w _ _ _ ⟨h, bound, full⟩ => ?_
      refine Gives.neg (none_raised (sound h)) (Gives.neg (ne_true_of_eq_false h.2.1) ?_)
      rw [bound]
      exact Gives.pos full answered_gives
    · intro w q a u hw ready e h unjournalled bound room slot record v lines_
      have short : len w ≤ 256 := by
        have good := h.2.1
        simp only [bad, Bool.or_eq_false_iff, decide_eq_false_iff_not] at good
        exact Nat.not_lt.1 good.1.1.2
      rw [← (view_cases hw).1] at bound
      refine runUnit_gives (info := info) hw ready nofun
        (Gives.neg (none_raised (sound h)) (Gives.neg (ne_true_of_eq_false h.2.1) ?_)) (seq_gives e _)
      rw [bound]
      exact Gives.neg (Nat.not_le.2 room) (appended_gives hw unjournalled (spBytes_length ..) short slot lines_)
  · intro s x y z nq info
    refine ⟨?_, ?_⟩
    · refine completes rfl fun w _ _ _ ⟨aligned, empty⟩ => ?_
      refine Gives.neg (none_raised (if_pos aligned)) ?_
      split
      · exact answered_gives
      · next q bound =>
        rw [empty q bound]
        exact answered_gives
    · intro w q len lens a u hw ready e unjournalled aligned bound oldest few within slot lines_ sectors
      rw [← (view_cases hw).1] at bound
      refine runUnit_gives (info := info) hw ready nofun (Gives.neg (none_raised (if_pos aligned)) ?_) (seq_gives e _)
      rw [bound]
      dsimp only
      rw [oldest]
      exact Gives.neg (none_raised (spInside_sound within)) (moved_gives hw unjournalled few slot lines_ sectors)

end Sys2Proof.Machine
end

section
/-! O36: teams' children, results and phases. -/

namespace Sys2Proof.Machine

variable {z : State}

theorem finishJoin_gives (w : View) (dst gid : Nat) (gd : Grid) (t : State) :
    Gives (z := z) (finishJoin w.g dst gid gd) t () (joined w dst gid gd t) :=
  Gives.getThen ((Gives.modGroup _ _ _).bind ((Gives.modTeam _ _ _).bind (Gives.bind (m := dropRecord gid) gridPut_gives
    ((acquire_gives _ _ _).bind ((orderAfter_gives _ _ _).bind (sweep_gives _))))))

/-- Settles O36: join and tstat by what they find of the child; topup and phend hold; resw posts where no journal is kept. -/
theorem teamWords : Obligations.TeamWords := by
  unfold Obligations.TeamWords
  refine ⟨?_, ?_, fun s x y z => ?_, fun s x => ?_, fun s => ?_⟩
  · intro s x y info child
    refine ⟨completes rfl fun w _ _ _ none_ => ?_, fun gid gd =>
      ⟨completes rfl fun w _ _ _ ⟨found, done⟩ => ?_, issues rfl (.inl rfl) fun w _ _ _ ⟨found, running⟩ => ?_⟩⟩
    · dsimp only [child] at none_ ⊢
      rw [none_]
      exact Gives.modThen _ _ _ _
    · dsimp only [child] at found ⊢
      rw [found]
      exact Gives.pos done ((finishJoin_gives w _ _ _ _).thenPure _)
    · dsimp only [child] at found ⊢
      rw [found]
      exact Gives.neg (ne_true_of_eq_false running) (Gives.held _ _)
  · intro s x y z u info child
    refine ⟨completes rfl fun w _ _ _ none_ => ?_, fun e tm => completes rfl fun w _ _ _ found => ?_⟩
    · dsimp only [child] at none_ ⊢
      rw [none_]
      exact Gives.modThen _ _ _ _
    · dsimp only [child] at found ⊢
      rw [found]
      refine (Gives.modGroup _ _ _).bind ?_
      by_cases done : tm.state = .done
      · rw [if_pos done]
        exact Gives.pos (by simp [done]) ((acquire_gives _ _ _).bind ((orderAfter_gives _ _ _).bind (Gives.pure _ _)))
      · rw [if_neg done]
        exact Gives.neg (by simpa using done) (Gives.pure _ _)
  · exact issues rfl (.inl rfl) fun w _ _ _ _ => Gives.held _ _
  · refine completes rfl fun w hw _ _ unjournalled => ?_
    obtain ⟨l, tm, launch, off, team, same⟩ := paid_journal (i := { reads := [sreg x], mask := .ignores }) hw unjournalled
    exact (journalGroup_off team (same ▸ launch) off).bind (launchPut_gives.bind (Gives.pure _ _))
  · exact issues rfl (.inl rfl) fun w _ _ _ _ => Gives.held _ _

end Sys2Proof.Machine
end

section
/-! O38: traps and the return from them. -/

namespace Sys2Proof.Machine

variable {z : State}

/-- A word that raises one cause after itself enters the handler at once, with TPC at the next word, where its loads have landed
and no debugger is attached (R298, R335). -/
theorem raises_after {i : Instr} {d : Detail}
    (runs : ∀ s, exec i s = runUnit s (fun _ => { mask := .ignores }) fun _ => pure (.after [d])) (cause : d.cause ≠ Cause.jnlDiv)
    (s : State) : IssuesIf i (fun _ => { mask := .ignores })
      (fun w => w.wordPc + 1 < 16384 ∧ w.gr.inHandler = false ∧ w.gr.trap.tvec.getLsbD 15 = true ∧ w.gr.lcnt = 0 ∧
        w.gr.fcnt = 0 ∧ (w.s.ctx w.t.ctx).watched = false)
      (fun w t =>
        let pc := BitVec.ofNat 14 (w.wordPc + 1)
        w.onGroup (handlerEntered [d] (packPc w.gr.slot pc)) (w.letGo (w.at w.gr.slot pc t))) s := by
  intro w hw ready acts ⟨inSlot, outside, vector, loads, results, unwatched⟩
  refine (runs s).trans (runUnit_gives hw ready acts (Gives.pure _ _) ?_)
  obtain ⟨n, y, charged⟩ := paid_group_eq (i := { mask := .ignores }) hw
  obtain ⟨al, ch, st, team⟩ := paid_team_eq (i := { mask := .ignores }) hw
  have moved := group_put (f := fun gr => gr.goTo w.gr.slot (BitVec.ofNat 14 (w.wordPc + 1))) charged
  refine (moveTo_gives w inSlot _).bind ((Gives.getGroup moved).bind ?_)
  exact wrap_trap (tm := { w.t with al := al, charged := ch, stop := st }) moved (by exact team) (merge_one d) (by simpa using cause)
    (.inl (by exact unwatched)) rfl rfl outside vector loads results

/-- A group goes back to the unit at TPC, with what the handler kept and the lanes of TMASK (R299, log entry 11). -/
def Group.backFrom (sv : Saved) (gr : Group) : Group :=
  { gr with
    exm := gr.trap.tmask &&& sv.exm, stack := sv.stack, hints := []
    slot := gr.trap.tpc.extractLsb' 14 1, pc := gr.trap.tpc.extractLsb' 0 14
    trap := { gr.trap with
      handler := none
      resume := if gr.trap.tmask &&& sv.exm = sv.exm then none else some sv.exm } }

/-- A group goes to the handler's first word (R299). -/
def Group.handlerAgain (gr : Group) : Group :=
  { gr with
    exm := 0xFFFFFFFF, stack := [], hints := []
    slot := gr.trap.tvec.extractLsb' 14 1, pc := gr.trap.tvec.extractLsb' 0 14 }

section

variable {g : Nat} {gr : Group} {sv : Saved} {t : State}

theorem returnFromTrap_back (group : t.group? g = some gr) (kept : gr.trap.handler = some sv) (clear : gr.trap.tcause = 0) :
    Gives (z := z) (returnFromTrap g) t () (groupPut g (Group.backFrom sv) t) :=
  (Gives.modGroup _ _ _).as (groups_eq group (by rw [kept]; exact if_neg (not_not_intro clear)))

theorem returnFromTrap_again (group : t.group? g = some gr) (kept : gr.trap.handler = some sv) (left : gr.trap.tcause ≠ 0) :
    Gives (z := z) (returnFromTrap g) t () (groupPut g Group.handlerAgain t) :=
  (Gives.modGroup _ _ _).as (groups_eq group (by rw [kept]; exact if_pos left))

end

/-- tret does what the return from its trap does; in handler mode it raises no STEP. -/
theorem tret_issues {s : State} {cond : View → Prop} {f : Group → Group}
    (back : ∀ w gr t, cond w → gr.trap = w.gr.trap → t.group? w.g = some gr →
      w.gr.inHandler = true ∧ Gives (z := s) (returnFromTrap w.g) t () (groupPut w.g f t)) :
    IssuesIf .tret (fun w => { mask := .ignores, raises := illConv w (!w.gr.inHandler) }) cond (fun w => w.onGroup f) s := by
  intro w hw ready acts met
  obtain ⟨n, y, charged⟩ := paid_group_eq (i := { mask := .ignores, raises := illConv w (!w.gr.inHandler) }) hw
  obtain ⟨inside, returns⟩ := back w { w.gr with stallUntil := n, yielded := y, sysWait := none } _ met rfl charged
  exact runUnit_gives (info := fun w => { mask := .ignores, raises := illConv w (!w.gr.inHandler) }) hw ready acts
    (returns.thenPure Flow.stays) (stepTrap_gives (.inr inside) _)

/-- Settles O38: trap and brk raise their cause after their word; tret looks at what is left in TCAUSE. -/
theorem trapWords : Obligations.TrapWords := by
  unfold Obligations.TrapWords
  intro takes
  refine ⟨fun n => raises_after (fun _ => rfl) (show Cause.trapi ≠ Cause.jnlDiv by decide),
    fun n => raises_after (fun _ => rfl) (show Cause.brk ≠ Cause.jnlDiv by decide), ?_⟩
  intro s sv info
  have inside {gr : Group} (kept : gr.trap.handler = some sv) : gr.inHandler = true := by rw [Group.inHandler, kept]; rfl
  refine ⟨tret_issues fun w gr t ⟨kept, clear⟩ same group => ⟨inside kept, returnFromTrap_back group ?_ ?_⟩,
    tret_issues fun w gr t ⟨kept, left⟩ same group => ⟨inside kept, returnFromTrap_again (sv := sv) group ?_ ?_⟩⟩
  all_goals rw [same]; assumption

end Sys2Proof.Machine
end

section
/-! O39: overlays. -/

namespace Sys2Proof.Machine

variable {z : State}

/-- A transfer to a word of an overlay that a slot holds, ovcall with its return in s63 (R304). -/
theorem overlayJump_gives {w : View} {target : W64} {slot : BitVec 1} (link : Bool) (inSlot : bitsOf target.toNat 15 0 < 0x4000)
    (held : slotHolding w.s w.core w.t (bitsOf target.toNat 31 16) = some slot) (t : State) :
    Gives (z := z) (overlayJump w target link) t (.far slot (BitVec.ofNat 14 (bitsOf target.toNat 15 0)))
      (if link then w.onGroup (fun gr =>
        gr.setS 63 (BitVec.ofNat 64 (slotOverlay (w.s.core w.core) w.gr.slot * 65536 + w.wordPc + 1))) t else t) := by
  unfold overlayJump
  dsimp only
  rw [if_neg (Nat.not_le.2 inSlot), held]
  cases link
  · exact Gives.pure _ _
  · exact Gives.modThen _ _ _ _

end Sys2Proof.Machine

namespace Sys2Proof

open Machine

/-- Settles O39: ovld looks at what the slots hold; ovcall and ovret are one transfer, with and without the link. -/
theorem overlayWords : Obligations.OverlayWords := by
  unfold Obligations.OverlayWords
  refine ⟨?_, ?_, ?_⟩
  · intro s x id info listed
    have within {w : View} (hw : view s = some w) (h : listed w) : ∃ l, (w.paid (info w)).launch? w.t.launch = some l ∧
        ¬(w.gr.slot = 1 || l.onum ≤ id w) = true := by
      obtain ⟨zero, l, launch, listed⟩ := h
      exact ⟨l, launch, by simp [zero, listed]⟩
    refine ⟨completes rfl fun w hw _ _ ⟨h, held⟩ => ?_, ?_⟩
    · obtain ⟨l, launch, named⟩ := within hw h
      refine (Gives.getLaunch launch).bind (Gives.neg named (Gives.getThen (Gives.pos ?_ (Gives.pure _ _))))
      rw [holding_paid]
      exact held
    · intro w ws u hw ready e h empty free words
      obtain ⟨l, launch, named⟩ := within hw h
      refine runUnit_gives (info := info) hw ready nofun
        ((Gives.getLaunch launch).bind (Gives.neg named (Gives.getThen (Gives.neg ?_ (Gives.neg ?_
          (words.bind (slotFilled_gives.bind (Gives.pure _ _)))))))) (seq_gives e _)
      · rw [holding_paid, (view_cases hw).1, empty]
        exact Bool.false_ne_true
      · rw [free]
        exact Bool.false_ne_true
  · intro x s w slot info off hw ready step inSlot held
    rw [← (view_cases hw).1] at held
    exact runUnit_gives (info := fun _ => info) hw ready nofun (overlayJump_gives true inSlot held _) (far_gives _ _ step _)
  · intro s x w slot info off hw ready step inSlot held
    rw [← (view_cases hw).1] at held
    exact runUnit_gives (info := fun _ => info) hw ready nofun (overlayJump_gives false inSlot held _) (far_gives _ _ step _)

end Sys2Proof
end

section
/-! O40: reservations of current. -/

namespace Sys2Proof.Machine

variable {z : State}

/-- The request granted next is one of the list, or one of those before it. -/
theorem next_mem {q : Str} {c : Current} {rest : List Current} : ∀ {before waiting : List Current},
    q.next before waiting = some (c, rest) → c ∈ waiting
  | _, [], h => by cases h
  | before, d :: ds, h => by
    unfold Str.next at h
    split at h
    · cases h
      exact List.mem_cons_self
    · split at h
      · exact List.mem_cons_of_mem _ (next_mem h)
      · cases h

/-- A group asks for current that another request is granted before, or that does not fit: it waits (R306, R329). -/
theorem cresWaits_gives {cl g amount : Nat} {t : State}
    (holds : (t.str (clusterString cl)).holds (.cres g) = false) (waits : (t.str (clusterString cl)).waits (.cres g) = false)
    (passed : ∀ rest, (t.str (clusterString cl)).next []
      ((t.str (clusterString cl)).waiting ++ [currentAsk t cl (.cres g) amount]) ≠ some (currentAsk t cl (.cres g) amount, rest)) :
    Gives (z := z) (askCurrent cl (.cres g) amount) t false
      (strPut (clusterString cl) (fun q =>
        { q with waiting := q.waiting ++ [currentAsk t cl (.cres g) amount], quietSince := none }) t) := by
  have waiting : Gives (z := z) (do
      modStr (clusterString cl) fun q => { q with waiting := q.waiting ++ [currentAsk t cl (.cres g) amount], quietSince := none }
      pure false) t false _ := strPut_gives.thenPure false
  refine Gives.getThen (Gives.neg (ne_true_of_eq_false holds) (Gives.neg (ne_true_of_eq_false waits) ?_))
  dsimp only
  split
  · next d rest found =>
    refine Gives.neg (fun same => ?_) waiting
    have asked := beq_iff_eq.1 same
    rcases List.mem_append.1 (next_mem found) with old | new
    · exact Bool.false_ne_true (waits.symm.trans (List.any_eq_true.2 ⟨d, old, same⟩))
    · rw [List.mem_singleton.1 new] at found
      exact passed rest found
  · exact waiting

/-- Settles O40: cres is granted at once or waits, by what the Sluice grants next; the last clause says what that is. -/
theorem currentWords : Obligations.CurrentWords := by
  unfold Obligations.CurrentWords
  intro s x y amount info ask str asks chosen
  have sound {w : View} (h : asks w) : ¬(amount w = 0 || 64 < amount w || w.gr.cres.isSome) = true := by
    obtain ⟨pos, le, unreserved, -⟩ := h
    simp [Nat.pos_iff_ne_zero.1 pos, Nat.not_lt.2 le, unreserved]
  refine ⟨fun rest => completes rfl fun w _ _ _ ⟨h, next⟩ => ?_, issues rfl (.inl rfl) fun w _ _ _ ⟨h, passed⟩ => ?_,
    completes rfl fun w _ _ _ held => ?_, fun q => ⟨fun c => ?_, fun c rest => rfl⟩⟩
  · have ⟨_, _, _, holds, waits⟩ := h
    have grantable : Grantable (w.paid (info w)) w.cl (.cres w.g) (amount w) rest := ⟨holds, waits, next⟩
    exact Gives.neg (sound h) ((currentTaken_gives grantable fun _ => ⟨nofun, nofun⟩).bind (Gives.pos rfl (Gives.modThen _ _ _ _)))
  · have ⟨_, _, _, holds, waits⟩ := h
    exact Gives.neg (sound h) ((cresWaits_gives (t := w.paid (info w)) holds waits passed).bind
      (Gives.neg Bool.false_ne_true (Gives.held _ _)))
  · exact Gives.neg (ne_true_of_eq_false (need_isSome held)) ((currentReleased_gives _ _ _).bind (Gives.modThen _ _ _ _))
  · unfold Str.fits
    simp only [List.all_eq_true, decide_eq_true_eq]

end Sys2Proof.Machine
end

section
/-! O51: the debugger. -/

namespace Sys2Proof.Machine

variable {z : State}

/-- A group with a cause but ALLOW_EXH enters its handler as it goes on, unless it is there or has ended (R334, R348). -/
def Group.enters (gr : Group) : Prop :=
  gr.trap.tcause &&& ~~~(1#64 <<< Cause.allowExh) ≠ 0 ∧ gr.inHandler = false ∧ gr.exited = false

/-- Nothing outside its group keeps a record of a wait of this kind. -/
def Hold.plain (h : Option Hold) : Prop :=
  match h with
  | some (.cres ..) | some (.topup ..) | some (.ticket ..) | some (.barrier ..) => False
  | _ => True

/-- The slots that a group's parked access waits on. -/
def Group.waitsOn (gr : Group) : List Wait := match gr.parked with | some p => p.waits.map (·.2) | none => []

/-- A team that the debugger of a function names (R346). -/
def Debugged (s : State) (f e : Nat) (tm : Team) : Prop := debugTeam s f = some e ∧ s.team? e = some tm

/-- A group of a stopped team that the debugger of a function names (R348). -/
structure Halted (s : State) (f e : Nat) (tm : Team) (gr : Group) : Prop where
  named : Debugged s f e tm
  stopped : tm.stop = .stopped
  inTeam : dbgGidx s f < tm.shape.groups
  group : s.group? (32 * e + dbgGidx s f) = some gr

theorem dbgAttach_gives {f : Nat} {s : State} (on : Bool) (live : (liveCtx s f (dbgCtx s f % 65536)).isSome = true) :
    Gives (z := z) (dbgAttach f on) s () (ctxPut (dbgCtx s f) (fun c => { c with watched := on }) s) := by
  obtain ⟨c, found⟩ := Option.isSome_iff_exists.1 live
  refine Gives.getThen ?_
  rw [found]
  exact ctxPut_gives

theorem dbgStop_fires (f e : Nat) (tm : Team) : Fires (.debugStop f)
    (fun s => Debugged s f e tm ∧ tm.core.isSome = true ∧ tm.stop ≠ .stopped) (teamPut e fun t => { t with stop := .stopping }) :=
  fires (fun _ => rfl) fun _ ⟨⟨named, team⟩, placed, running⟩ =>
    dbgTeam_gives named team (by simp [placed, running]) teamPut_gives

theorem dbgStop_refuses (f : Nat) : Fires (.debugStop f) (fun s => debugTeam s f = none) (fnPut f fun r => { r with dbgErr := true }) :=
  fires (fun _ => rfl) fun s none_ => Gives.getThen (by rw [none_]; exact refuse_gives)

theorem teamStopped_fires (eid : Nat) (tm : Team) : Fires (.teamStopped eid)
    (fun s => s.team? eid = some tm ∧ tm.stop = .stopping ∧
      ∀ g ∈ s.teamGroups eid, ∃ gr, s.group? g = some gr ∧ gr.lcnt = 0 ∧ gr.fcnt = 0 ∧ gr.trap.pending = none)
    (fun s => (s.teamGroups eid).foldl (fun t g => groupPut g (fun gr =>
        { gr with hints := if gr.hold.isSome || gr.parked.isSome then gr.hints else [] }) t)
      (teamPut eid (fun t => { t with stop := .stopped }) s)) :=
  fires (fun _ => rfl) fun s ⟨team, stopping, drained⟩ => by
    refine (Gives.getTeam team).bind (Gives.guardThen ?_ (teamPut_gives.bind (forEach_fold (fun _ _ => groupPut_gives) _ _)))
    rw [Bool.and_eq_true]
    refine ⟨by simp [stopping], List.all_eq_true.2 fun g hg => ?_⟩
    obtain ⟨gr, group, loads, results, pending⟩ := drained g hg
    rw [group]
    simp [loads, results, pending]

/-- A group that goes on keeps its causes. -/
theorem continued_enters (gr : Group) : gr.continued.enters ↔ gr.enters := by
  unfold Group.continued
  split <;> exact Iff.rfl

/-- Groups that enter no handler go on one after another. -/
theorem groupsContinue {gs : List Nat} : ∀ {t : State}, (∀ g ∈ gs, ∃ gr, t.group? g = some gr ∧ ¬gr.enters) →
    Gives (z := z) (forEach gs resumeGroup) t () (gs.foldl (fun t g => groupPut g Group.continued t) t) := by
  induction gs with
  | nil => exact fun _ => Gives.pure _ _
  | cons g gs ih =>
    intro t stay
    obtain ⟨gr, group, out⟩ := stay g List.mem_cons_self
    refine (resumeGroup_gives group out).bind (ih fun k hk => ?_)
    obtain ⟨gr', group', out'⟩ := stay k (List.mem_cons_of_mem _ hk)
    by_cases same : g = k
    · subst same
      exact ⟨_, group_put group', fun h => out' ((continued_enters gr').1 h)⟩
    · exact ⟨gr', (SMap.get?_adjust_ne _ _ same).trans group', out'⟩

theorem dbgResume_fires (f e : Nat) (tm : Team) : Fires (.debugResume f)
    (fun s => Debugged s f e tm ∧ tm.stop = .stopped ∧ ∀ g ∈ s.teamGroups e, ∃ gr, s.group? g = some gr ∧ ¬gr.enters)
    (fun s => (s.teamGroups e).foldl (fun t g => groupPut g Group.continued t) (teamPut e (fun t => { t with stop := .running }) s)) :=
  fires (fun _ => rfl) fun s ⟨⟨named, team⟩, stopped, stay⟩ => by
    have groups : (teamPut e (fun t => { t with stop := .running }) s).teamGroups e = s.teamGroups e := by
      unfold State.teamGroups
      rw [team_put team, team]
    refine dbgTeam_gives named team (by simp [stopped]) (teamPut_gives.bind (Gives.getThen ?_))
    rw [groups]
    exact groupsContinue stay

/-- What a step or an access of the debugger does with a halted group (R348). -/
theorem dbgHalted_gives {f e : Nat} {tm : Team} {gr : Group} {s u : State} {act : Nat → Team → M z Unit} (h : Halted s f e tm gr)
    (k : Gives (act e tm) s () u) : Gives (z := z) (dbgTeam f (fun t => t.stop == .stopped && dbgGidx s f < t.shape.groups) act) s () u :=
  dbgTeam_gives h.named.1 h.named.2 (by simp [h.stopped, h.inTeam]) k

theorem dbgStep_gives {f e : Nat} {tm : Team} {gr : Group} {s u : State} (h : Halted s f e tm gr) (running : gr.exited = false)
    (k : Gives (z := z) (resumeGroup (32 * e + dbgGidx s f)) (teamPut e (fun t => { t with stop := .stepping (dbgGidx s f) }) s) () u) :
    Gives (z := z) (dbgStep f) s () u :=
  Gives.getThen (dbgHalted_gives h ((Gives.getGroup h.group).bind (Gives.neg (ne_true_of_eq_false running) (teamPut_gives.bind k))))

theorem slotsLeft_teams (ws : List Wait) (t : State) : (slotsLeft ws t).teams = t.teams := by
  unfold slotsLeft
  generalize ws.eraseDups = l
  induction l generalizing t with
  | nil => rfl
  | cons w l ih =>
    rw [List.foldl_cons, ih]
    cases w <;> rfl

theorem slotsLeft_groupPut (ws : List Wait) (g : Nat) (f : Group → Group) (t : State) :
    slotsLeft ws (groupPut g f t) = groupPut g f (slotsLeft ws t) := by
  unfold slotsLeft
  refine List.foldl_hom (groupPut g f) fun t w => ?_
  cases w <;> rfl

/-- The wait of a group that nothing outside it keeps a record of ends without effect (log entry 91). -/
theorem endWait_gives {g : Nat} {gr : Group} {tm : Team} {t : State} (group : t.group? g = some gr)
    (team : t.team? (groupTeam g) = some tm) (plain : Hold.plain gr.hold) :
    Gives (z := z) (endWait g) t () (groupPut g (fun gr => { gr with hold := none, parked := none, hints := [] })
      (groupLetGo g tm (slotsLeft gr.waitsOn t))) := by
  have team' (ws : List Wait) : (slotsLeft ws t).team? (groupTeam g) = some tm := by
    unfold State.team?
    rw [slotsLeft_teams]
    exact team
  unfold endWait Group.waitsOn
  refine (Gives.getGroup group).bind ?_
  cases gr.parked
  case' none => have team' := team' []
  case' some p =>
    have team' := team' (p.waits.map (·.2))
    refine (slotsLeft_gives _ _).bind ?_
  all_goals
    refine homePut_gives.bind (Gives.bind (m := dropEvents g) ((Gives.getTeam (by exact team')).bind launchPut_gives) ?_)
    dsimp only
    split
    case h_5 => exact groupPut_gives
    all_goals
      next kept =>
      rw [kept] at plain
      exact plain.elim

/-- A group with causes enters its handler as it goes on (R348). -/
theorem resumeGroup_enters {g : Nat} {gr : Group} {tm : Team} {t : State} (group : t.group? g = some gr)
    (team : t.team? (groupTeam g) = some tm) (enters : gr.enters) (vector : gr.trap.tvec.getLsbD 15 = true)
    (plain : Hold.plain gr.hold) :
    Gives (z := z) (resumeGroup g) t () (groupPut g (fun gr =>
      { handlerBegun [] gr.trap.tpc gr.trap.tmask gr with left := none, hold := none, parked := none })
      (groupLetGo g tm (slotsLeft gr.waitsOn t))) := by
  obtain ⟨causes, outside, running⟩ := enters
  refine (Gives.getGroup group).bind (Gives.pos (by rw [outside, running, decide_eq_true causes]; rfl)
    (groupPut_gives.bind (Gives.pos vector ((endWait_gives (group_put group) (by exact team) plain).bind (groupPut_gives.as ?_)))))
  have there : (groupLetGo g tm (slotsLeft gr.waitsOn t)).group? g = some gr := by
    refine (congrArg (SMap.get? · g) ?_).trans group
    exact slotsLeft_groups _ _
  rw [slotsLeft_groupPut]
  refine (congrArg (groupPut g _) (groupPut_groupPut g _ _ (groupLetGo g tm (slotsLeft gr.waitsOn t)))).trans ?_
  exact (groupPut_groupPut g _ _ _).trans (groups_eq there rfl)

theorem dbgRead_fires (f e : Nat) (tm : Team) (gr : Group) (file num lane : Nat) : Fires (.debugRead f)
    (fun s => Halted s f e tm gr ∧ dbgReg (s.fn f).dbgreg.toNat (tm.budget (dbgGidx s f)) = some (file, num, lane))
    (fun s => fnPut f (fun r => { r with dbgdata := dbgValue s (32 * e + dbgGidx s f) gr tm file num lane }) s) :=
  fires (fun _ => rfl) fun s ⟨h, reaches⟩ => by
    refine Gives.getThen (dbgHalted_gives h ((Gives.getGroup h.group).bind ?_))
    rw [reaches]
    exact fnPut_gives

theorem dbgWrite_fires (f e : Nat) (tm : Team) (gr : Group) (file num lane : Nat) : Fires (.debugWrite f)
    (fun s => Halted s f e tm gr ∧ file ≠ 6 ∧ dbgReg (s.fn f).dbgreg.toNat (tm.budget (dbgGidx s f)) = some (file, num, lane))
    (fun s => groupPut (32 * e + dbgGidx s f) (fun gr => dbgWritten gr file num lane (s.fn f).dbgdata s.free)
      { s with free := s.free + 256 }) :=
  fires (fun _ => rfl) fun s ⟨h, writable, reaches⟩ => by
    refine Gives.getThen (dbgHalted_gives h ?_)
    rw [reaches]
    split
    · next found =>
      cases found
      exact absurd rfl writable
    · next found => cases found
    · next found =>
      cases found
      exact Gives.bind (Gives.mod _ _ _) groupPut_gives

/-- Settles O51: each event runs as its lemma above says; a step by whether its group enters its handler. -/
theorem debugEvents : Obligations.DebugEvents := by
  unfold Obligations.DebugEvents
  intro live named enters halted plain
  have halts {s : State} {f e : Nat} {tm : Team} {gr : Group} : halted s f e tm gr → Halted s f e tm gr :=
    fun ⟨named, stopped, inTeam, group⟩ => ⟨named, stopped, inTeam, group⟩
  refine ⟨fun f => fires (fun _ => rfl) fun _ h => dbgAttach_gives true h, fun f => fires (fun _ => rfl) fun _ h => dbgAttach_gives false h,
    dbgStop_fires, dbgStop_refuses, teamStopped_fires, dbgResume_fires, ?_, ?_, ?_, ?_⟩
  · rintro f e tm gr i s ⟨h, running, stay, rfl⟩
    exact runM_gives (dbgStep_gives (halts h) running (resumeGroup_gives (by exact (halts h).group) stay))
  · rintro f e tm gr i s ⟨h, enters, vector, alone, rfl⟩
    have small : dbgGidx s f < 32 := Nat.mod_lt _ (by decide)
    have same : groupTeam (32 * e + dbgGidx s f) = e := by unfold groupTeam; omega
    have team := team_put (f := fun t => { t with stop := .stepping (dbgGidx s f) }) (halts h).named.2
    refine runM_gives (dbgStep_gives (halts h) enters.2.2 ?_)
    exact resumeGroup_enters (tm := { tm with stop := .stepping (dbgGidx s f) }) (halts h).group (by rw [same]; exact team) enters vector alone
  · exact fun f e tm gr file num lane s ⟨h, reaches⟩ => dbgRead_fires f e tm gr file num lane s ⟨halts h, reaches⟩
  · exact fun f e tm gr file num lane s ⟨h, reaches⟩ => dbgWrite_fires f e tm gr file num lane s ⟨halts h, reaches⟩

end Sys2Proof.Machine
end

section
/-! O52: doorbells, the mapping of queues to slots, and packets that are no launches. -/

namespace Sys2Proof.Machine

variable {z : State}

/-! Doorbells (R308, R309) -/

/-- The command processor acts on doorbells, its firmware released (R371). -/
def ActsOnDoorbells (s : State) : Prop := 1 ≤ s.boot.stage ∧ s.boot.recovery = false

/-- A doorbell rings behind no other of its queue, and the record of its context can be read. -/
def DoorbellQuiet (s : State) (f : Nat) (val : W64) : Prop :=
  ActsOnDoorbells s ∧ s.doorbells.any (sameQueue (f, val)) = false ∧
    paBlocked s (ctxRecAt s f (bitsOf val.toNat 63 48)) = false

theorem w2Write_gives {f : Nat} {val : W64} {s u : State} (on : ActsOnDoorbells s) (k : Gives (z := z) (ringDoorbell f val) s () u) :
    Gives (z := z) (w2Write f 0 val) s () u :=
  Gives.getThen (Gives.pos (by simp [on.1, on.2]) k)

/-- A doorbell that need not wait acts at once. -/
theorem qdb_acts {f : Nat} {val : W64} {s u : State} (h : DoorbellQuiet s f val) (k : Gives (z := s) (doorbell f val) s () u) :
    exec (.qdb f val) s = .next u :=
  runM_gives (w2Write_gives h.1 (Gives.getThen (Gives.neg (ne_true_of_eq_false h.2.1) (k.attempt.bind (Gives.pure _ _)))))

theorem awaitCtxRec_gives {f n : Nat} {s : State} (free : paBlocked s (ctxRecAt s f n) = false) :
    Gives (z := z) (awaitCtxRec f n) s () s := Gives.getThen (Gives.guard (by rw [free]; rfl) s)

/-- A doorbell of a context that is not live, or of a queue that it does not have, is refused (R309). -/
theorem doorbell_refused {f : Nat} {val : W64} {s : State} (free : paBlocked s (ctxRecAt s f (bitsOf val.toNat 63 48)) = false)
    (out : ¬bitsOf val.toNat 47 32 < (s.ctx (f * 65536 + bitsOf val.toNat 63 48)).qtlim.toNat ∨
      liveCtx s f (bitsOf val.toNat 63 48) = none) :
    Gives (z := z) (doorbell f val) s ()
      (queuePut (queueKey (f * 65536 + bitsOf val.toNat 63 48) (bitsOf val.toNat 47 32))
        (fun q => if q.idle then { q with slot := none, reclaim := false } else q) (qerrRaised f 0 s)) := by
  have none_ : (if bitsOf val.toNat 47 32 < (s.ctx (f * 65536 + bitsOf val.toNat 63 48)).qtlim.toNat
      then liveCtx s f (bitsOf val.toNat 63 48) else none) = none := by
    rcases out with out | dead
    · exact if_neg out
    · rw [dead]; exact ite_self _
  refine (awaitCtxRec_gives free).bind (Gives.getThen ?_)
  dsimp only
  rw [none_]
  exact refuseDoorbell_gives

/-- The doorbell's context `c` is live, its queue's record `r` is good, and reading it leaves `u`. -/
structure Rings (s : State) (f : Nat) (val : W64) (c : CtxRec) (r : QueueRec) (u : State) : Prop where
  free : paBlocked s (ctxRecAt s f (bitsOf val.toNat 63 48)) = false
  fits : bitsOf val.toNat 47 32 < (s.ctx (f * 65536 + bitsOf val.toNat 63 48)).qtlim.toNat
  live : liveCtx s f (bitsOf val.toNat 63 48) = some c
  sound : r.bad = false
  on : r.en = true
  read : ∃ n, Gives (z := s) (sysNat (f * 65536 + bitsOf val.toNat 63 48) c
    ((s.ctx (f * 65536 + bitsOf val.toNat 63 48)).qtbase + BitVec.ofNat 64 (64 * bitsOf val.toNat 47 32)) 64) s (some n) u ∧
    readQueueRec n = r

/-- The queue that the command processor knows as the one of a doorbell (R308). -/
def knownQueue (s : State) (f : Nat) (val : W64) (c : CtxRec) : Option HostQueue :=
  (s.queue? (queueKey (f * 65536 + bitsOf val.toNat 63 48) (bitsOf val.toNat 47 32))).filter fun k =>
    k.record == (s.ctx (f * 65536 + bitsOf val.toNat 63 48)).qtbase + BitVec.ofNat 64 (64 * bitsOf val.toNat 47 32) && k.rcd == c

section

variable {f : Nat} {val : W64} {c : CtxRec} {r : QueueRec} {s u : State}

theorem knownQueue_eq_some {k : HostQueue} : knownQueue s f val c = some k ↔
    s.queue? (queueKey (f * 65536 + bitsOf val.toNat 63 48) (bitsOf val.toNat 47 32)) = some k ∧
      k.record = (s.ctx (f * 65536 + bitsOf val.toNat 63 48)).qtbase + BitVec.ofNat 64 (64 * bitsOf val.toNat 47 32) ∧
      k.rcd = c := by
  simp only [knownQueue, Option.filter_eq_some_iff, Bool.and_eq_true, beq_iff_eq]

/-- A doorbell of a queue that is new makes it (R308). -/
theorem doorbell_new (h : Rings s f val c r u) (unknown : knownQueue s f val c = none)
    (room : (BitVec.ofNat 32 (bitsOf val.toNat 31 0) - r.rptr).toNat ≤ 2 ^ r.logn) :
    Gives (z := s) (doorbell f val) s () { u with
      fresh := u.fresh + 1
      queues := SMap.put u.queues (queueKey (f * 65536 + bitsOf val.toNat 63 48) (bitsOf val.toNat 47 32))
        { ctx := f * 65536 + bitsOf val.toNat 63 48, q := bitsOf val.toNat 47 32
          wptr := BitVec.ofNat 32 (bitsOf val.toNat 31 0), rptr := r.rptr, cls := r.cls
          record := (s.ctx (f * 65536 + bitsOf val.toNat 63 48)).qtbase + BitVec.ofNat 64 (64 * bitsOf val.toNat 47 32)
          rbase := r.rbase, logn := r.logn, rcd := c, since := u.fresh
          order := match s.queue? (queueKey (f * 65536 + bitsOf val.toNat 63 48) (bitsOf val.toNat 47 32)) with
            | some k => k.order
            | none => 0 } } := by
  obtain ⟨n, read, record⟩ := h.read
  refine (awaitCtxRec_gives h.free).bind (Gives.getThen ?_)
  dsimp only
  rw [if_pos h.fits, h.live]
  refine read.bind ?_
  unfold knownQueue at unknown
  rw [Option.map_some, record, unknown]
  exact Gives.neg (by rw [h.sound, h.on, decide_eq_false (Nat.not_lt.2 room)]; exact Bool.false_ne_true) (freshThen (Gives.mod _ _ _))

/-- A doorbell of a queue that is known moves its write pointer (R309). -/
theorem doorbell_known {k : HostQueue} (h : Rings s f val c r u) (known : knownQueue s f val c = some k)
    (room : (BitVec.ofNat 32 (bitsOf val.toNat 31 0) - k.rptr).toNat ≤ 2 ^ r.logn) :
    Gives (z := s) (doorbell f val) s ()
      (queuePut (queueKey (f * 65536 + bitsOf val.toNat 63 48) (bitsOf val.toNat 47 32)) (fun e =>
        { e with
          wptr := BitVec.ofNat 32 (bitsOf val.toNat 31 0), cls := r.cls
          record := (s.ctx (f * 65536 + bitsOf val.toNat 63 48)).qtbase + BitVec.ofNat 64 (64 * bitsOf val.toNat 47 32)
          rbase := r.rbase, logn := r.logn, rcd := c, since := if k.hasPacket then e.since else u.fresh })
        { u with fresh := u.fresh + 1 }) := by
  obtain ⟨n, read, record⟩ := h.read
  refine (awaitCtxRec_gives h.free).bind (Gives.getThen ?_)
  dsimp only
  rw [if_pos h.fits, h.live]
  refine read.bind ?_
  unfold knownQueue at known
  rw [Option.map_some, record, known]
  exact Gives.neg (by rw [h.sound, h.on, decide_eq_false (Nat.not_lt.2 room)]; exact Bool.false_ne_true) (freshThen queuePut_gives)

end

/-! Slots (R317, R318) -/

/-- A waiting queue that no mappable queue precedes takes its slot. -/
theorem queueMap_fires (f ctx q : Nat) (hq : HostQueue) (i : Nat) : Fires (.queueMap f ctx q)
    (fun s => s.queue? (queueKey (f * 65536 + ctx) q) = some hq ∧ hq.waiting = true ∧ mapSlot s hq.cls = some i ∧
      ∀ e ∈ s.queues, e.2.waiting = true → waitsBefore e.2 hq = true → mapSlot s e.2.cls = none)
    (fun s => queuePut (queueKey (f * 65536 + ctx) q) (fun q => { q with slot := some i, boundary := false })
      (match slotQueue s i with
        | some (k, _) => queuePut k (fun q => { q with slot := none, reclaim := false }) s
        | none => s)) :=
  fires (fun _ => rfl) fun s ⟨found, waits, slot, first⟩ => by
    have alone : (s.queues.any fun e => e.2.waiting && waitsBefore e.2 hq && (mapSlot s e.2.cls).isSome) = false := by
      rw [List.any_eq_false]
      intro e he
      simp only [Bool.and_eq_true, not_and]
      intro ⟨h, before⟩
      rw [first e he h before]
      exact Bool.false_ne_true
    refine Gives.getThen (Gives.needThen found (Gives.guardThen (by rw [waits, alone]; rfl) (Gives.needThen slot ?_)))
    rcases slotQueue s i with _ | ⟨k, lent⟩
    · exact queuePut_gives
    · exact queuePut_gives.bind queuePut_gives

/-- The best victim for a class under its minimum gives its slot up, at once or at its next command boundary. -/
theorem slotReclaim_fires (slot key : Nat) (hq : HostQueue) (cls : Nat) : Fires (.slotReclaim slot)
    (fun s => slotQueue s slot = some (key, hq) ∧
      [0, 1, 2, 3].find? (fun k => reclaims s k && decide (victimRank s k hq ≠ 0)) = some cls ∧
      ∀ e ∈ s.queues, victimRank s cls e.2 ≤ victimRank s cls hq)
    (fun s => queuePut key (fun q =>
      if q.boundary || q.idle then { q with slot := none, reclaim := false, since := s.fresh } else { q with reclaim := true })
        { s with fresh := s.fresh + 1 }) :=
  fires (fun _ => rfl) fun _ ⟨mapped, class_, best⟩ =>
    Gives.needThen mapped (Gives.needThen class_ (Gives.guardThen (List.all_eq_true.2 fun e he => decide_eq_true (best e he))
      (freshThen queuePut_gives)))

/-! Packets (R310 to R313) -/

section

variable {slot key : Nat} {hq : HostQueue} {v : Nat} {s u t : State}

theorem PacketAt.kept (h : PacketAt s slot key hq v u) : hq.reclaim = false := by
  obtain ⟨-, -, -, -, kept, -⟩ := h
  exact kept

/-- A COND whose operand cannot be compared yet holds its queue open. -/
theorem cond_holds {r : Nat} (h : PacketAt s slot key hq v u) (typ : v % 256 = 2)
    (read : Gives (z := s) (sysNat hq.ctx hq.rcd (BitVec.ofNat 64 (bitsOf v 511 448)) 32) u (some r) t) (unready : bitOf r 0 = false) :
    exec (.cond slot) s = .next (queuePut key (fun q => { q with opened := some 0 }) t) :=
  runM_gives (packet_gives h (decide_eq_true typ) (read.bind (Gives.neg (ne_true_of_eq_false unready) queuePut_gives)))

/-- A COND whose operand is there moves RPTR by what its comparison chooses. -/
theorem cond_moves {r : Nat} {a : LaneAcc} {x : State} (h : PacketAt s slot key hq v u) (typ : v % 256 = 2)
    (read : Gives (z := s) (sysNat hq.ctx hq.rcd (BitVec.ofNat 64 (bitsOf v 511 448)) 32) u (some r) t) (ready : bitOf r 0 = true)
    (record : RecordAt s t hq a x) :
    exec (.cond slot) s = .next (packetTaken key (hq.rptr + 1 + BitVec.ofNat 32
      (if packetCond (bitsOf v 10 8) (bitsOf r 255 192 &&& bitsOf v 383 320) (bitsOf v 447 384) then bitsOf v 319 288
        else bitsOf v 287 256)) a.pa x) :=
  runM_gives (packet_gives h (decide_eq_true typ) (read.bind (Gives.pos ready (advance_gives h.kept record))))

end

/-- Settles O52: a doorbell by what it finds of its queue; the mapping, and each packet, as its lemma above says. -/
theorem queueEvents : Obligations.QueueEvents := by
  unfold Obligations.QueueEvents
  intro on quiet fits place rings known wptr next
  have read {s : State} {f : Nat} {val : W64} {ctx q : Nat} {c : CtxRec} {r : QueueRec} {u : State}
      (h : rings s f val ctx q c r u) : DoorbellQuiet s f val ∧ Rings s f val c r u := by
    obtain ⟨quiet, rfl, rfl, fits, live, sound, on, read⟩ := h
    exact ⟨quiet, quiet.2.2, fits, live, sound, on, read⟩
  refine ⟨?_, ?_, ?_, ?_, ?_, queueMap_fires, slotReclaim_fires, ?_, ?_, ?_, ?_⟩
  · intro s f val ctx q c r u h unknown room
    obtain ⟨quiet, ringing⟩ := read h
    obtain ⟨-, rfl, rfl, -⟩ := h
    exact qdb_acts quiet (doorbell_new ringing
      (Option.eq_none_iff_forall_ne_some.2 fun k same => unknown k (knownQueue_eq_some.1 same)) room)
  · intro s f val ctx q c r u k h known room
    obtain ⟨quiet, ringing⟩ := read h
    obtain ⟨-, rfl, rfl, -⟩ := h
    exact qdb_acts quiet (doorbell_known ringing (knownQueue_eq_some.2 known) room)
  · rintro f val ctx q s ⟨h, rfl, rfl, out⟩
    exact qdb_acts h (doorbell_refused h.2.2 out)
  · exact fun f val s ⟨h, behind⟩ => runM_gives (w2Write_gives h (Gives.getThen (Gives.pos behind (Gives.mod _ _ _))))
  · exact fun f val s off => runM_gives (Gives.getThen (Gives.neg (by rcases off with h | h <;> simp [h]) (Gives.pure _ _)))
  · exact fun s slot key hq v u r t h typ read =>
      ⟨cond_holds h typ read, fun a x ready record => cond_moves h typ read ready record⟩
  · exact fun s slot key hq v u h typ =>
      ⟨fun unwritten => runM_gives (packet_gives h (decide_eq_true typ) (Gives.pos unwritten queuePut_gives)),
        fun a x written record => runM_gives (packet_gives h (decide_eq_true typ)
          (Gives.neg (ne_true_of_eq_false written) (advance_gives h.kept record)))⟩
  · exact fun s slot key hq v u a x h typ bind record =>
      runM_gives (packet_gives h (by simp [typ, bind]) (ctxPut_gives.bind (advance_gives h.kept record)))
  · exact fun s slot key hq v u a x h typ unbind record =>
      runM_gives (packet_gives h (by simp [typ, unbind]) (ctxPut_gives.bind (advance_gives h.kept record)))

end Sys2Proof.Machine
end

section
/-! O53: launches, the Weir and the host's journal events. -/

namespace Sys2Proof.Machine

variable {z : State}

/-! Launches that begin (R311 to R314, R320) -/

/-- A launch that passes its checks is made, with its packet open (R311). -/
theorem launch_taken {slot key : Nat} {hq : HostQueue} {v d : Nat} {ts : List LaneAcc} {s u w : State} {l : Launch}
    (packet : PacketAt s slot key hq v u) (typ : v % 256 = 1)
    (checked : Gives (z := s) (checkLaunch hq.ctx (bitsOf v 359 358) (bitsOf v 319 256) (bitsOf v 383 368)) u (0, d, ts) w)
    (made : l =
      { ctx := hq.ctx, rcd := (liveCtx w (ctxFn hq.ctx) (ctxId hq.ctx)).getD hq.rcd, crec := bitsOf v 511 448
        odir := bitsOf v 447 384, onum := bitsOf v 383 368, rdesc := bitsOf v 319 256, jmode := bitsOf v 359 358
        irq := bitOf v 357, rwait := bitOf v 356, ser := bitOf v 355, queue := key, order := hq.order, cls := hq.cls
        tcls := (readSpawn d).tcls, code := 0, desc := d, tickets := ts }) :
    exec (.launch slot) s = .next (queuePut key (fun q => { q with opened := some w.fresh })
      (queuePut key (fun q => { q with order := q.order + 1 }) (launchMade l w))) := by
  subst made
  refine runM_gives (packet_gives packet (decide_eq_true typ) (checked.bind ?_))
  exact freshThen (Gives.getThen (Gives.bind (Gives.mod _ _ _) (queuePut_gives.bind (Gives.pos rfl queuePut_gives))))

/-- A launch that the Weir may admit, with its descriptor and the tags of its root grid (R320). -/
structure Admits (s : State) (id : Nat) (l : Launch) (d : SpawnDesc) (tag0 : Nat) : Prop where
  launch : s.launch? id = some l
  fresh : l.admitted = false ∧ l.done = false ∧ l.code = 0
  room : classFull s l.tcls = false
  desc : d = readSpawn l.desc
  entries : d.teams ≤ (freeEntries s).length
  draws : l.journal ≠ 2
  tags : chooseTags s l.ctx d.teams = some tag0

/-- The launch is admitted and its root grid stands (R311, R320). -/
def launchAdmitted (s : State) (id : Nat) (l : Launch) (d : SpawnDesc) (tag0 : Nat) : State :=
  launchPut id (fun l =>
    { l with admitted := true, inFlight := l.tcls < 3, admitTime := s.timer, grid := s.fresh, phm := d.phm, grant := d.grant
             bound := weirBound s l.tcls d.grant
             msh := if l.tcls < 3 then some (SMap.look 0 s.dev.wmsh l.tcls).toNat else none })
    (rootCreated l.ctx id d tag0 l.tickets { s with free := s.free + 1 })

theorem launchAdmit_runs {id tag0 : Nat} {l : Launch} {d : SpawnDesc} {s u : State} (h : Admits s id l d tag0)
    (k : Gives (z := s) (passPacket id l) (launchAdmitted s id l d tag0) () u) : exec (.launchAdmit id) s = .next u := by
  obtain ⟨launch, ⟨admitted, done, code⟩, room, desc, entries, draws, tags⟩ := h
  exact runM_gives ((Gives.getLaunch launch).bind (Gives.guardThen (by simp [admitted, done, code])
    (Gives.neg (ne_true_of_eq_false room) (admit_gives desc entries draws tags k))))

theorem passPacket_consumer {id : Nat} {l : Launch} {t : State} (consumer : l.consumer.isSome = true) :
    Gives (z := z) (passPacket id l) t () t := by
  refine Gives.getThen ?_
  rw [need_isSome consumer]
  exact Gives.pure _ _

theorem passPacket_queue {id : Nat} {l : Launch} {q : HostQueue} {a : LaneAcc} {t x : State} (host : l.consumer = none)
    (queue : t.queue? l.queue = some q) (opened : q.opened = some id) (kept : q.reclaim = false) (record : RecordAt z t q a x) :
    Gives (z := z) (passPacket id l) t () (packetTaken l.queue (q.rptr + 1) a.pa x) := by
  refine Gives.getThen ?_
  rw [host, queue]
  exact Gives.pos (by simp [opened]) (advance_gives kept record)

/-- A node queue that holds a record starts its consumer (R314). -/
theorem consumerLaunch_made {f c nq d : Nat} {q : NodeQueue} {ts : List LaneAcc} {l : Launch} {s u : State}
    (bound : SMap.get? (s.ctx (f * 65536 + c)).queues nq = some q) (consumer : q.cdesc ≠ 0) (holds : q.lens ≠ []) (idle : q.live = none)
    (made : l =
      { ctx := f * 65536 + c, rcd := q.rcd, crec := q.crec, odir := (Config.freeWord s.free).toNat / 16 * 16
        onum := (Config.freeWord (s.free + 1)).toNat % 65536, rdesc := q.cdesc, rwait := true, cls := q.cls
        tcls := (readSpawn d).tcls, code := 0, desc := d, tickets := ts, consumer := some nq })
    (checked : Gives (z := s) (checkLaunch (f * 65536 + c) 0 q.cdesc l.onum) { s with free := s.free + 2 } (0, d, ts) u) :
    exec (.consumerLaunch f c nq) s =
      .next (nodePut (f * 65536 + c) nq (fun q => { q with live := some u.fresh }) (launchMade l u)) := by
  subst made
  refine runM_gives (Gives.needThen bound (Gives.guardThen (by simp [consumer, holds, idle]) (Gives.bind (Gives.mod _ _ _)
    (checked.bind ?_))))
  exact freshThen (Gives.bind (Gives.mod _ _ _) (nodePut_gives.bind (Gives.neg (not_not_intro rfl) (Gives.pure _ _))))

/-! Completion, abort and topup (R315, R316) -/

/-- The completion's vector, where its launch asks for one, and the launch's end. -/
theorem finishing_gives {id : Nat} (l : Launch) {t : State} :
    Gives (z := z) (do
      if l.irq then raiseMsix (ctxFn l.ctx) 0
      finishLaunch id l) t () (launchOver id l (if l.irq then vectorRaised (ctxFn l.ctx) 0 t else t)) := by
  dsimp only
  cases l.irq with
  | true => exact Gives.bind (f := fun _ => finishLaunch id l) vectorRaised_gives finish_gives
  | false => exact finish_gives

/-- The record is written, DONE last, and the host's later accesses follow it (R315). -/
theorem launchComplete_runs {id : Nat} {l : Launch} {a : LaneAcc} {s u : State} (launch : s.launch? id = some l)
    (complete : mayComplete s id l = true)
    (reached : Gives (z := s) (sysXlate l.ctx l.rcd Kind.write (BitVec.ofNat 64 l.crec) true) s (.ok a) u)
    (body : SysRoom u { a with pa := a.pa + 8 } 24)
    (head : SysRoom (written sysParty (a.pa + 8) ((natBytes (completionRecord s l) 32).drop 8) u) a 8) :
    exec (.launchComplete id) s = .next (launchOver id l
      (let t := homePut (fun h => { h with outside := h.outside.join l.clock })
        (written sysParty a.pa ((natBytes (completionRecord s l) 32).take 8)
          (written sysParty (a.pa + 8) ((natBytes (completionRecord s l) 32).drop 8) u))
       if l.irq then vectorRaised (ctxFn l.ctx) 0 t else t)) := by
  have tail : ((natBytes (completionRecord s l) 32).drop 8).length = 24 := by rw [List.length_drop, natBytes_length]
  have first : ((natBytes (completionRecord s l) 32).take 8).length = 8 := by rw [List.length_take, natBytes_length]; rfl
  refine runM_gives (Gives.asWaiter _ ((Gives.getLaunch launch).bind (Gives.getThen (Gives.guardThen complete (reached.bind ?_)))))
  refine (sysStore_gives body.1 (by rw [tail]; exact body.2)).bind ((sysStore_gives head.1 (by rw [first]; exact head.2)).bind
    (homePut_gives.bind ?_))
  exact finishing_gives l

section Host

variable {f id : Nat} {l : Launch} {s u : State}

theorem launchAbort_foreign (f : Nat) :
    Fires (.launchAbort f) (fun s => foreignCtx s f = true) (fnPut f fun r => { r with lcres := 2 }) :=
  fires (fun _ => rfl) fun _ isForeign => Gives.getThen (Gives.pos isForeign setRes_gives)

theorem launchAbort_absent (f : Nat) : Fires (.launchAbort f) (fun s => foreignCtx s f = false ∧ liveLaunch s f = none)
    (fnPut f fun r => { r with lcres := 1 }) :=
  fires (fun _ => rfl) fun _ ⟨own, absent⟩ => Gives.getThen (Gives.neg (ne_true_of_eq_false own) (by
    rw [absent]
    exact setRes_gives))

theorem launchAbort_over (f id : Nat) (l : Launch) : Fires (.launchAbort f)
    (fun s => foreignCtx s f = false ∧ liveLaunch s f = some (id, l) ∧ ∀ e ∈ rootTeams s id, e.2.state = .done)
    (fnPut f fun r => { r with lcres := 0 }) :=
  fires (fun _ => rfl) fun s ⟨own, live, ended⟩ => Gives.getThen (Gives.neg (ne_true_of_eq_false own) (by
    have ended : ((rootTeams s id).any fun e => e.2.state != .done) = false :=
      List.any_eq_false.2 fun e he => by simp [ended e he]
    rw [live]
    exact Gives.neg (ne_true_of_eq_false ended) setRes_gives))

theorem launchAbort_unwinds (own : foreignCtx s f = false) (live : liveLaunch s f = some (id, l))
    (unended : ∃ e ∈ rootTeams s id, e.2.state ≠ .done)
    (unwinds : Gives (z := s) (forEach (rootTeams s id) fun e => unwind e.1) (launchPut id (fun l => { l with aborted := true }) s) () u) :
    exec (.launchAbort f) s = .next (fnPut f (fun r => { r with lcres := 0 }) u) := by
  obtain ⟨e, he, running⟩ := unended
  have under : ((rootTeams s id).any fun e => e.2.state != .done) = true := List.any_eq_true.2 ⟨e, he, by simpa using running⟩
  refine runM_gives (Gives.getThen (Gives.neg (ne_true_of_eq_false own) ?_))
  rw [live]
  exact Gives.pos under (launchPut_gives.bind (unwinds.bind setRes_gives))

/-- The amount that LCARG holds (R316). -/
def lcAmount (s : State) (f : Nat) : Nat := bitsOf (s.fn f).lcarg.toNat 47 0

theorem lcAmount_word (s : State) (f : Nat) : (BitVec.ofNat 64 (lcAmount s f)).toNat = lcAmount s f := by
  have small : lcAmount s f < 2 ^ 48 := Nat.mod_lt _ (by decide)
  rw [BitVec.toNat_ofNat]
  omega

section Topup

variable {e st : Nat} {tm : Team}

/-- What LCARG's amount does to a root team: it is taken, it lets the team go on, or it is refused. -/
theorem lcAmount_meets (team : s.team? e = some tm) (status : topupStatus false tm (BitVec.ofNat 64 (lcAmount s f)) = st)
    (h : (st = 0 ∧ u = teamPut e (fun t => t.receive (lcAmount s f)) s) ∨
      (st = 1 ∧ u = resumed e tm (teamPut e (fun t => t.receive (lcAmount s f)) s)) ∨ (st = 2 ∧ u = s)) :
    Gives (z := s) (serialise false e (BitVec.ofNat 64 (lcAmount s f))) s st u := by
  refine serialise_gives team status ?_
  rw [lcAmount_word]
  rcases h with taken | resumes | refused
  · exact .inl taken
  · exact .inr (.inl resumes)
  · exact .inr (.inr (.inr refused))

/-- LCARG names a root team of a launch under way, and an amount for it (R316). -/
structure TopsUp (s : State) (f id : Nat) (l : Launch) (e : Nat) (tm : Team) : Prop where
  own : foreignCtx s f = false
  live : liveLaunch s f = some (id, l)
  team : s.team? e = some tm
  root : (rootTeams s id).find? (fun x => x.2.tidx = bitsOf (s.fn f).lcarg.toNat 63 48) = some (e, tm)

/-- An amount that its team takes is credited to the launch too. -/
theorem hostTopup_credits (h : TopsUp s f id l e tm) (accepted : st ≠ 2)
    (meets : Gives (z := s) (serialise false e (BitVec.ofNat 64 (lcAmount s f))) s st u) :
    exec (.hostTopup f) s = .next (fnPut f (fun r => { r with lcres := 0 })
      (launchPut id (fun l => { l with hostAdded := l.hostAdded + lcAmount s f }) u)) := by
  refine runM_gives (Gives.getThen (Gives.neg (ne_true_of_eq_false h.own) ?_))
  rw [h.live]
  dsimp only
  rw [h.root]
  exact meets.bind (Gives.neg accepted (launchPut_gives.bind setRes_gives))

theorem hostTopup_refused (h : TopsUp s f id l e tm) (meets : Gives (z := s) (serialise false e (BitVec.ofNat 64 (lcAmount s f))) s 2 u) :
    exec (.hostTopup f) s = .next (fnPut f (fun r => { r with lcres := 2 }) u) := by
  refine runM_gives (Gives.getThen (Gives.neg (ne_true_of_eq_false h.own) ?_))
  rw [h.live]
  dsimp only
  rw [h.root]
  exact meets.bind (Gives.pos rfl setRes_gives)

end Topup

theorem hostTopup_foreign (f : Nat) :
    Fires (.hostTopup f) (fun s => foreignCtx s f = true) (fnPut f fun r => { r with lcres := 2 }) :=
  fires (fun _ => rfl) fun _ isForeign => Gives.getThen (Gives.pos isForeign setRes_gives)

theorem hostTopup_absent (f : Nat) : Fires (.hostTopup f) (fun s => foreignCtx s f = false ∧ liveLaunch s f = none)
    (fnPut f fun r => { r with lcres := 1 }) :=
  fires (fun _ => rfl) fun _ ⟨own, absent⟩ => Gives.getThen (Gives.neg (ne_true_of_eq_false own) (by
    rw [absent]
    exact setRes_gives))

end Host

/-! The Weir's registers (R319) -/

section Weir

/-- RHO and NMAX of a class. -/
def weirOf (s : State) (k : Nat) : Nat × Nat := ((SMap.look 0 s.dev.wrate k).toNat, (SMap.look 0 s.dev.wmax k).toNat)

theorem lowWord_toNat (val : W64) : (val.extractLsb' 0 32).toNat = val.toNat % 2 ^ 32 := by simp

theorem lowHalf_toNat (val : W64) : (val.extractLsb' 0 32).toNat % 65536 = val.toNat % 65536 := by
  rw [lowWord_toNat]
  omega

/-- A write that the classes' sum admits takes effect. -/
theorem weirRate_fires (k : Nat) (val : W64) : Fires (.weirLimitWrite k .rate val)
    (fun s => k < 3 ∧ weirSum s.dev k (val.toNat % 2 ^ 32) (weirOf s k).2 ≤ 614400)
    (devPut fun d => { d with wrate := SMap.store 0 d.wrate k (val.extractLsb' 0 32) }) :=
  fires (fun _ => rfl) fun _ ⟨timed, fits⟩ => Gives.getThen (Gives.neg (Nat.not_le.2 timed)
    (Gives.neg (by rw [lowWord_toNat]; exact Nat.not_lt.2 fits) devPut_gives))

theorem weirRate_refused (k : Nat) (val : W64) : Fires (.weirLimitWrite k .rate val)
    (fun s => k < 3 ∧ 614400 < weirSum s.dev k (val.toNat % 2 ^ 32) (weirOf s k).2) (qerrRaised 0 2) :=
  fires (fun _ => rfl) fun _ ⟨timed, exceeds⟩ => Gives.getThen (Gives.neg (Nat.not_le.2 timed)
    (Gives.pos (by rw [lowWord_toNat]; exact exceeds) setQerr_gives))

theorem weirMax_fires (k : Nat) (val : W64) : Fires (.weirLimitWrite k .max val)
    (fun s => k < 3 ∧ weirSum s.dev k (weirOf s k).1 (val.toNat % 65536) ≤ 614400)
    (devPut fun d => { d with wmax := SMap.store 0 d.wmax k (val.extractLsb' 0 32 &&& 0xFFFF) }) :=
  fires (fun _ => rfl) fun _ ⟨timed, fits⟩ => Gives.getThen (Gives.neg (Nat.not_le.2 timed)
    (Gives.neg (by rw [lowHalf_toNat]; exact Nat.not_lt.2 fits) devPut_gives))

theorem weirMax_refused (k : Nat) (val : W64) : Fires (.weirLimitWrite k .max val)
    (fun s => k < 3 ∧ 614400 < weirSum s.dev k (weirOf s k).1 (val.toNat % 65536)) (qerrRaised 0 2) :=
  fires (fun _ => rfl) fun _ ⟨timed, exceeds⟩ => Gives.getThen (Gives.neg (Nat.not_le.2 timed)
    (Gives.pos (by rw [lowHalf_toNat]; exact exceeds) setQerr_gives))

theorem weirLatency_fires (k : Nat) (val : W64) : Fires (.weirLimitWrite k .latency val) (fun _ => k < 3)
    (devPut fun d => { d with wlat := SMap.store 0 d.wlat k (val.extractLsb' 0 32) }) :=
  fires (fun _ => rfl) fun _ timed => Gives.getThen (Gives.neg (Nat.not_le.2 timed) devPut_gives)

theorem weirCap_ignored (k : Nat) (val : W64) : Fires (.weirLimitWrite k .cap val) (fun _ => True) id :=
  fires (fun _ => rfl) fun _ _ => Gives.getThen (by
    by_cases timed : 3 ≤ k
    · exact Gives.pos timed (Gives.pure _ _)
    · exact Gives.neg timed (Gives.pure _ _))

end Weir

/-! Journal events of the host (R350, R351, R354) -/

section Replay

variable {id point : Nat} {l : Launch} {s u : State}

/-- A replaying launch looks at HEAD of a point's ring, and finds `h`. -/
def LooksAt (s : State) (id point : Nat) (l : Launch) (h : Head) (u : State) : Prop :=
  s.launch? id = some l ∧ l.journal = 2 ∧ point < 642 ∧ Gives (z := s) (headRecord l.ctx l.rcd point ringFuel) s h u

theorem setDiv_gives (id : Nat) (t : State) :
    Gives (z := z) (setDiv id) t () (launchPut id (fun l => { l with div := true, jheld := [] }) t) := launchPut_gives

theorem replayAdmit_empty (looks : LooksAt s id point l .empty u) : exec (.replayAdmit id point) s = .next u := by
  obtain ⟨launch, replays, known, head⟩ := looks
  exact runM_gives ((Gives.getLaunch launch).bind (Gives.guardThen (by simp [replays, known]) (head.bind (Gives.pure _ _))))

/-- A record that R351 does not know is passed, and the launch has diverged. -/
theorem replayAdmit_unknown {r : JRing} (looks : LooksAt s id point l (.unknown r) u) (free : commitBlocks u.dev (r.pa + 12) = false)
    (room : Room u (r.pa + 12) 4) : exec (.replayAdmit id point) s =
      .next (launchPut id (fun l => { l with div := true, jheld := [] })
        (written sysParty (r.pa + 12) (natBytes ((r.head + 1) % 2 ^ 32) 4) u)) := by
  obtain ⟨launch, replays, known, head⟩ := looks
  have pass : Gives (z := s) (passRecord r) u () (written sysParty (r.pa + 12) (natBytes ((r.head + 1) % 2 ^ 32) 4) u) :=
    Gives.getThen (Gives.guardThen (by rw [free]; rfl)
      (hsWrite_gives (by rw [natBytes_length]; exact room) (sys_clean _ _ _ _)))
  exact runM_gives ((Gives.getLaunch launch).bind (Gives.guardThen (by simp [replays, known])
    (head.bind (pass.bind (setDiv_gives _ _)))))

/-- A record of a team that is DONE is one that nothing will present. -/
theorem replayAdmit_record {r : JRing} {n : Nat} (looks : LooksAt s id point l (.record r n) u) : exec (.replayAdmit id point) s =
    .next (if sysStale s l.ctx n then launchPut id (fun l => { l with div := true, jheld := [] }) u else u) := by
  obtain ⟨launch, replays, known, head⟩ := looks
  refine runM_gives ((Gives.getLaunch launch).bind (Gives.guardThen (by simp [replays, known]) (head.bind ?_)))
  by_cases stale : sysStale s l.ctx n = true
  · rw [if_pos stale]
    exact Gives.pos stale (setDiv_gives _ _)
  · rw [if_neg stale]
    exact Gives.neg stale (Gives.pure _ _)

end Replay

/-- Settles O53: each event runs as its lemma above says; a launch is admitted by who asked for it, a topup by the status that its
root team answers. -/
theorem launchEvents : Obligations.LaunchEvents := by
  unfold Obligations.LaunchEvents
  refine ⟨fun s slot key hq v u d ts w l packet typ checked made => launch_taken packet typ checked made, ⟨?_, ?_⟩,
    fun s f c nq q d ts u l bound consumer holds idle made checked => consumerLaunch_made bound consumer holds idle made checked,
    fun s id l a u launch complete reached body head => launchComplete_runs launch complete reached body head,
    launchAbort_foreign, launchAbort_absent, launchAbort_over,
    fun s f id l u own live unended unwinds => launchAbort_unwinds own live unended unwinds, ⟨?_, ?_, ?_, hostTopup_foreign, hostTopup_absent⟩,
    ⟨weirRate_fires, weirMax_fires, weirRate_refused, weirMax_refused, weirLatency_fires, weirCap_ignored⟩, ?_, ?_⟩
  · rintro id l d tag0 s ⟨⟨launch, admitted, done, code, room, desc, entries, draws, tags⟩, consumer⟩
    exact launchAdmit_runs ⟨launch, ⟨admitted, done, code⟩, room, desc, entries, draws, tags⟩ (passPacket_consumer consumer)
  · rintro s id l d tag0 q a x ⟨launch, admitted, done, code, room, desc, entries, draws, tags⟩ host queue opened kept record
    exact launchAdmit_runs ⟨launch, ⟨admitted, done, code⟩, room, desc, entries, draws, tags⟩
      (passPacket_queue host queue opened kept record)
  · rintro f id l e tm s ⟨⟨own, live, team, root⟩, status⟩
    exact hostTopup_credits ⟨own, live, team, root⟩ (by decide) (lcAmount_meets team status (.inl ⟨rfl, rfl⟩))
  · rintro f id l e tm s ⟨⟨own, live, team, root⟩, status⟩
    exact hostTopup_credits ⟨own, live, team, root⟩ (by decide) (lcAmount_meets team status (.inr (.inl ⟨rfl, rfl⟩)))
  · rintro f id l e tm s ⟨⟨own, live, team, root⟩, status⟩
    exact hostTopup_refused ⟨own, live, team, root⟩ (lcAmount_meets team status (.inr (.inr ⟨rfl, rfl⟩)))
  · exact fun f => fires (fun _ => rfl) fun _ _ => fnPut_gives
  · exact ⟨fun s id point l u looks => replayAdmit_empty looks,
      fun s id point l r u looks free room => replayAdmit_unknown looks free room,
      fun s id point l r v u looks => replayAdmit_record looks⟩

end Sys2Proof.Machine
end
